-- ==== Sys2Proof/Word.lean ====
section
/-! DEFINITION. Word types and the finite map that registers, memories and tables are kept in. -/

namespace Sys2Proof

/-- A doubleword: a scalar register, an address being computed, a state register. -/
abbrev Word := BitVec 64
/-- A vector register (R227). -/
abbrev VReg := BitVec 4096
/-- A mask register (R227). -/
abbrev MReg := BitVec 1024
abbrev Byte := BitVec 8

/-- A finite map: keys strictly rising. A key that is not listed is absent. -/
abbrev SMap (α : Type) := List (Nat × α)

/-- The value at a key. -/
def SMap.find? {α : Type} : SMap α → Nat → Option α
  | [], _ => none
  | (j, v) :: m, k => if j = k then some v else SMap.find? m k

/-- The value at a key, or a default. -/
def SMap.get {α : Type} (m : SMap α) (k : Nat) (d : α) : α := (SMap.find? m k).getD d

/-- Insert or replace at a key, keeping the keys in order. -/
def SMap.set {α : Type} : SMap α → Nat → α → SMap α
  | [], k, v => [(k, v)]
  | (j, w) :: m, k, v =>
    if k < j then (k, v) :: (j, w) :: m
    else if k = j then (k, v) :: m
    else (j, w) :: SMap.set m k v

/-- Remove a key. -/
def SMap.del {α : Type} : SMap α → Nat → SMap α
  | [], _ => []
  | (j, w) :: m, k => if j = k then m else (j, w) :: SMap.del m k

/-- The keys rise strictly, from a bound upward. -/
def SMap.wfFrom {α : Type} : Nat → SMap α → Bool
  | _, [] => true
  | lo, (j, _) :: m => decide (lo ≤ j) && SMap.wfFrom (j + 1) m

/-- The canonical order of a map. -/
def SMap.wf {α : Type} (m : SMap α) : Bool := SMap.wfFrom 0 m

end Sys2Proof
end

