-- ==== Sys2Proof/Config.lean ====
section
/-! DEFINITION. Free values and the functions the manual leaves to keys and secrets. None has a body: nothing can
evaluate them, so a claim holds whatever they are. -/

namespace Sys2Proof.Config

/-- A free bit for the n-th open choice of a run: old or new law entry (R166), old or new fetched words (R151). -/
opaque freeBit : Nat → Bool

/-- The latency, in cycles, of the n-th open choice of a run: a sector's fill from memory (R403). -/
opaque freeLatency : Nat → Nat

/-- The set of a slice in which a 128-byte line lies (R16, R107). -/
opaque freeSet : Nat → BitVec 10

/-- Which line of a full set gives up its way at the n-th open choice of a run (R107, R111). -/
opaque freeWay : Nat → Nat

/-- The depth of the atomic queues that a die monitor sees in a cycle (R403). -/
opaque freeLevel : Nat → Nat → Nat

/-- The kiosk that sweeps the cells of a slice (R162, R403). -/
opaque sweepKiosk : Nat → BitVec 5

/-- The page-table entry that the page-fault service writes at the n-th open choice of a run: its frame and rights
(R100). -/
opaque freePte : Nat → Word

/-- The Dwevis public key fused into die 0 (R400): uninterpreted. -/
opaque dwevisKey : BitVec 256

/-- The seed of the identity key pair, derived from the fused device secret (R401): uninterpreted. -/
opaque identitySeed : BitVec 256

/-- The header of the firmware image that a part runs before any is activated (R400): uninterpreted. -/
opaque bootHeader : BitVec 2048

/-- The body of that image (R400): uninterpreted. -/
opaque bootBody : List Byte

end Sys2Proof.Config
end

