-- ==== Sys2Proof/Syntax.lean ====
section
/-! DEFINITION. The instruction type: one constructor for each row of the opcode table. The first 231 are the
instruction words of R49 and R50, with the operand fields that the word carries (the lone bit L belongs to the
framing of R27 and is not an operand). The last 80 are the steps that the table gives the part's other agents
(95_what_each_step_holds.md); what moves in such a step is an `Event`. -/

namespace Sys2Proof

/-- What an access needs of a page (R96). -/
inductive Rights where
  | read | write | atomic | execute
  deriving DecidableEq, Repr

/-- What the ECC of the array meets when a sector is read (R392). -/
inductive ArrayEvent where
  | clean
  /-- One bad symbol, corrected. -/
  | corrected (symbol : BitVec 5)
  /-- Two or more bad symbols: the sector is poisoned. -/
  | uncorrectable (symbol : BitVec 5)
  deriving DecidableEq, Repr

/-- What the base die meets while it reads a sector and carries it to a slice (R392): the array's event, and each attempt
of the transfer that failed, in order, by its beat and lane. (DESIGN CHOICE, safe, log 23) -/
structure BusEvent where
  array : ArrayEvent
  failures : List (BitVec 3 × BitVec 6)
  deriving DecidableEq, Repr

/-- A unit whose loss starts a warm reset (R383). -/
inductive LostUnit where
  | slice (n : Nat)
  | bridge
  | channel (stack ch : Nat)
  | management
  deriving DecidableEq, Repr

/-- How the comparison of a checked-pair interval ends (R382). (DESIGN CHOICE, safe, log 23) -/
inductive Verdict where
  | agree | rerunAgrees | tieBreak | unresolvable
  deriving DecidableEq, Repr

/-- A message in flight (R318): the source word without its count, the sequence number, the destination
descriptor, the sender's context and bind order, the payload. -/
structure Msg where
  src : Word
  seq : Nat
  desc : Word
  ctx : Nat
  order : Nat
  payload : List Word
  deriving DecidableEq, Repr

/-- A task record (R292). -/
structure TaskRec where
  pc : Word
  x3 : Word
  x4 : Word
  x5 : Word
  x6 : Word
  x7 : Word
  x8 : Word
  origin : Nat
  join : Nat
  /-- How often it has been pushed again (R384); not a field of the record in memory. -/
  tries : Nat
  deriving DecidableEq, Repr

/-- A step of another agent, with the operands that say which item moves: one constructor per row of the table that
has no encoding. `order` is the bind order number of the launch concerned (R357). (DESIGN CHOICE, safe, log 23) -/
inductive Event where
  | loadReply (core slot tag : Nat)
  | storeRefused (core slot : Nat)
  | pageWalk (core ctx : Nat) (va : Word) (need : Rights) (sup : Bool)
  | pageFaultService (ctx item : Nat) (retry : Bool)
  | sectorFill (slice sector : Nat) (ev : BusEvent)
  | channelControllerLoss (stack channel : Nat)
  | lineEviction (slice line : Nat)
  | copyTransfer (core place units : Nat)
  | kioskPushTile (kiosk sub : Nat)
  | kioskPullTile (kiosk sub : Nat)
  | journalWrite (core hdr ticket order : Nat)
  | horizonSweep (ctx region cell : Nat)
  | streamReadAhead (core slot stream : Nat)
  | lawEventRecord (ctx : Nat) (ering : Word) (rec : BitVec 256)
  | fanOutDeposit (ctx : Nat) (list : Word) (fcount n : Nat)
  | messageArrival (m : Msg)
  | hostMailboxNotice (m : Msg) (dead : Bool) (cause : BitVec 8)
  | messageAcknowledgement (src : Word) (seq : Nat)
  | messageRelease (core : Nat) (src : Word) (order : Nat)
  | handlerActivation (core : Nat)
  | budgetFault (core : Nat)
  | remoteLoad (m : Msg)
  | remoteStore (m : Msg)
  | remoteAtomic (m : Msg)
  | remoteLaw (m : Msg)
  | remoteFault (src : Word) (ctx order : Nat) (cause : BitVec 8) (addr : BitVec 52)
  | drtRetransmit (m : Msg)
  | linkPortFailure (port : Nat)
  | workSearch (core slot : Nat)
  | backOff (core slot : Nat)
  | steal (core slot victim order : Nat)
  | stealAnswer (core slot victim order : Nat) (rec : Option TaskRec)
  | eventLatchSet (core order : Nat) (latches : BitVec 4)
  | wfeTimeout (core slot : Nat)
  | feTimeout (core slot : Nat)
  | groupBarrierArrival (master src slot bar order : Nat) (val : Word) (swap ack : Bool)
  | barrierRelease (core bar order : Nat) (phase : BitVec 24) (result : Word) (swap : Bool)
  | barrierTimeout (core bar : Nat)
  | heartbeatMiss (core slot : Nat)
  | strandsDone (parent child order : Nat)
  | launchStop (core order : Nat)
  | doneWord (core child order : Nat) (word : BitVec 128)
  | queueEnable (ctx queue : Nat)
  | commandAccept (ctx queue : Nat)
  | launch (ctx queue : Nat)
  | signal (ctx queue : Nat)
  | waitForSignal (ctx queue : Nat)
  | signalSatisfied (ctx queue : Nat)
  | annexPolicy (ctx queue : Nat)
  | dispatchDecision
  | bind (core : Nat)
  | preemption (core : Nat)
  | hostBindRecord (core : Nat) (rec : BitVec 256)
  | contextCreate (ctx : Nat) (desc : BitVec 512)
  | contextDestroy (ctx : Nat)
  | pageMap
  | pageDecline
  | barrierExtend
  | barrierExpire
  | contain
  | warmReset
  | attest
  | firmwareStage
  | firmwareActivate
  | tlbInvalidate
  | unitLoss (unit : LostUnit)
  | coldReset
  | managementFailover
  | intervalCompare (core : Nat) (verdict : Verdict)
  | stageMonitorSample (ctx queue : Nat)
  | splitActivation (core : Nat)
  | annexForward (core : Nat)
  | mergeActivation (core : Nat)
  | hostBar2Write (pasid : Nat) (va : Word) (data : List Byte)
  | hostBar2Read (pasid : Nat) (va : Word) (size : Nat)
  | monitorConfigWrite (monitor : Nat) (val : Word)
  | registerWrite (offset : Nat) (val : Word)
  | clockThrottle (mhz : Nat)
  | pairTimeout (core slot : Nat)
  | coreLoss (core : Nat)
  deriving DecidableEq, Repr

/-- One constructor per row of the opcode table. -/
inductive Instr where
  | syscall
  | tret
  | wfi
  | pair (d : BitVec 5)
  | unpair (d : BitVec 5)
  | tlbinv (a b : BitVec 5)
  | seedset (a : BitVec 5)
  | cflush (a b : BitVec 5)
  | beq (a b : BitVec 5) (o : BitVec 15)
  | bne (a b : BitVec 5) (o : BitVec 15)
  | blt (a b : BitVec 5) (o : BitVec 15)
  | bge (a b : BitVec 5) (o : BitVec 15)
  | bltu (a b : BitVec 5) (o : BitVec 15)
  | bgeu (a b : BitVec 5) (o : BitVec 15)
  | jal (d : BitVec 5) (i : BitVec 20)
  | jalr (d a : BitVec 5) (i : BitVec 15)
  | fork (d a b : BitVec 5)
  | join (a : BitVec 5)
  | tdone
  | yield
  | hbeat
  | wfe (d b : BitVec 5)
  | sev (a : BitVec 5)
  | binit (a b : BitVec 5)
  | barrive (d a : BitVec 5)
  | bwait (d a b : BitVec 5)
  | bsync (a : BitVec 5)
  | bcomb (d a b : BitVec 5)
  | bswap (a : BitVec 5)
  | bquery (d a : BitVec 5)
  | ldB (d a : BitVec 5) (o : BitVec 12)
  | ldBu (d a : BitVec 5) (o : BitVec 12)
  | ldH (d a : BitVec 5) (o : BitVec 12)
  | ldHu (d a : BitVec 5) (o : BitVec 12)
  | ldW (d a : BitVec 5) (o : BitVec 12)
  | ldWu (d a : BitVec 5) (o : BitVec 12)
  | ldD (d a : BitVec 5) (o : BitVec 12)
  | ldQ (d a : BitVec 5) (o : BitVec 12)
  | stB (d a : BitVec 5) (o : BitVec 12)
  | stH (d a : BitVec 5) (o : BitVec 12)
  | stW (d a : BitVec 5) (o : BitVec 12)
  | stD (d a : BitVec 5) (o : BitVec 12)
  | stQ (d a : BitVec 5) (o : BitVec 12)
  | amoadd (d a b : BitVec 5) (s : BitVec 2)
  | amoand (d a b : BitVec 5) (s : BitVec 2)
  | amoor (d a b : BitVec 5) (s : BitVec 2)
  | amoxor (d a b : BitVec 5) (s : BitVec 2)
  | amomin (d a b : BitVec 5) (s : BitVec 2)
  | amomax (d a b : BitVec 5) (s : BitVec 2)
  | amominu (d a b : BitVec 5) (s : BitVec 2)
  | amomaxu (d a b : BitVec 5) (s : BitVec 2)
  | amoswap (d a b : BitVec 5) (s : BitVec 2)
  | amofadd (d a b : BitVec 5) (s : BitVec 2)
  | cas (d a b : BitVec 5) (s : BitVec 2)
  | cas2 (d a b : BitVec 5)
  | amoz (d a b : BitVec 5) (s : BitVec 2)
  | vld (d a : BitVec 5) (r g n : BitVec 1)
  | vst (d a : BitVec 5) (n : BitVec 1)
  | vlds (d a b : BitVec 5) (r g n : BitVec 1)
  | vsts (d a b : BitVec 5) (n : BitVec 1)
  | vgath (d a b : BitVec 5) (g n : BitVec 1)
  | vscat (d a b : BitVec 5) (n : BitVec 1)
  | vldp (d a b : BitVec 5) (r g n : BitVec 1)
  | vstp (d a b : BitVec 5) (n : BitVec 1)
  | pref (a : BitVec 5) (r g : BitVec 1)
  | czero (a b : BitVec 5)
  | lld (d a : BitVec 5) (s : BitVec 3) (o : BitVec 10)
  | lldWf (d a : BitVec 5) (s : BitVec 3) (o : BitVec 10)
  | lldWfc (d a : BitVec 5) (s : BitVec 3) (o : BitVec 10)
  | lst (d a : BitVec 5) (s : BitVec 3) (o : BitVec 10)
  | lstSf (d a : BitVec 5) (s : BitVec 3) (o : BitVec 10)
  | lstWesf (d a : BitVec 5) (s : BitVec 3) (o : BitVec 10)
  | vlld (d a q : BitVec 5)
  | vlst (d a q : BitVec 5)
  | lgath (d a b : BitVec 5)
  | xst (d a : BitVec 5)
  | vxst (d a : BitVec 5)
  | lamoadd (d a b : BitVec 5)
  | lcas (d a b : BitVec 5)
  | copy (d a : BitVec 5)
  | copy2d (d a : BitVec 5)
  | cstat (d a : BitVec 5)
  | fewait (a b : BitVec 5)
  | feset (a b : BitVec 5)
  | feclr (a b : BitVec 5)
  | subs (d a : BitVec 5)
  | unsubs (d a : BitVec 5)
  | sopen (a b : BitVec 5)
  | spop (d a : BitVec 5)
  | vspop (d a : BitVec 5)
  | sadv (a b : BitVec 5)
  | stend (d a : BitVec 5)
  | sfib (d a : BitVec 5)
  | sclose (a : BitVec 5)
  | rtick (d a : BitVec 5)
  | rput (d a b : BitVec 5)
  | rtake (d a : BitVec 5)
  | rrel (d a : BitVec 5)
  | kroute (d a b : BitVec 5)
  | lwrd (d a : BitVec 5)
  | lwrdx (d a : BitVec 5)
  | lwpeek (d a : BitVec 5)
  | lwadd (d a b : BitVec 5)
  | lwset (d a b : BitVec 5)
  | lwinit (d a b : BitVec 5)
  | lwdep (a b : BitVec 5)
  | lwnow (d a : BitVec 5)
  | lwstep (d a b : BitVec 5)
  | lwsweep (d a b : BitVec 5)
  | msend (d a : BitVec 5)
  | hend
  | anxput (a b : BitVec 5)
  | anxend
  | fence (s c : BitVec 1)
  | isync
  | bkany (a : BitVec 5) (o : BitVec 15)
  | bkall (a : BitVec 5) (o : BitVec 15)
  | srrd (d : BitVec 5) (n : BitVec 12)
  | srwr (d a : BitVec 5) (n : BitVec 12)
  | srset (d a : BitVec 5) (n : BitVec 12)
  | srclr (d a : BitVec 5) (n : BitVec 12)
  | vx (k : BitVec 3) (z : BitVec 1) (m : BitVec 3) (c : BitVec 5)
  | rep (n : BitVec 6) (d a b : BitVec 2)
  | add (d a b : BitVec 5)
  | sub (d a b : BitVec 5)
  | and (d a b : BitVec 5)
  | or (d a b : BitVec 5)
  | xor (d a b : BitVec 5)
  | sll (d a b : BitVec 5)
  | srl (d a b : BitVec 5)
  | sra (d a b : BitVec 5)
  | mul (d a b : BitVec 5)
  | mulh (d a b : BitVec 5)
  | mulhu (d a b : BitVec 5)
  | div (d a b : BitVec 5)
  | divu (d a b : BitVec 5)
  | rem (d a b : BitVec 5)
  | remu (d a b : BitVec 5)
  | min (d a b : BitVec 5)
  | max (d a b : BitVec 5)
  | minu (d a b : BitVec 5)
  | maxu (d a b : BitVec 5)
  | slt (d a b : BitVec 5)
  | sltu (d a b : BitVec 5)
  | sel (d a b : BitVec 5)
  | clz (d a : BitVec 5)
  | ctz (d a : BitVec 5)
  | popc (d a : BitVec 5)
  | addi (d a : BitVec 5) (i : BitVec 15)
  | andi (d a : BitVec 5) (i : BitVec 15)
  | ori (d a : BitVec 5) (i : BitVec 15)
  | xori (d a : BitVec 5) (i : BitVec 15)
  | slli (d a : BitVec 5) (n : BitVec 6)
  | srli (d a : BitVec 5) (n : BitVec 6)
  | srai (d a : BitVec 5) (n : BitVec 6)
  | slti (d a : BitVec 5) (i : BitVec 15)
  | sltiu (d a : BitVec 5) (i : BitVec 15)
  | lui (d : BitVec 5) (i : BitVec 20)
  | fadd (d a b : BitVec 5) (p : BitVec 2)
  | fsub (d a b : BitVec 5) (p : BitVec 2)
  | fmul (d a b : BitVec 5) (p : BitVec 2)
  | fdiv (d a b : BitVec 5) (p : BitVec 2)
  | fsqrt (d a : BitVec 5) (p : BitVec 2)
  | fmin (d a b : BitVec 5) (p : BitVec 2)
  | fmax (d a b : BitVec 5) (p : BitVec 2)
  | fma (d a b : BitVec 5) (p : BitVec 2)
  | fcmp (d a b : BitVec 5) (p : BitVec 2)
  | fcvt (d a k : BitVec 5) (p : BitVec 2)
  | fclass (d a : BitVec 5) (p : BitVec 2)
  | fsgn (d a b : BitVec 5) (p : BitVec 2)
  | vadd (d a b : BitVec 5) (t : BitVec 4)
  | vsub (d a b : BitVec 5) (t : BitVec 4)
  | vmul (d a b : BitVec 5) (t : BitVec 4)
  | vmulh (d a b : BitVec 5) (t : BitVec 4)
  | vmin (d a b : BitVec 5) (t : BitVec 4)
  | vmax (d a b : BitVec 5) (t : BitVec 4)
  | vand (d a b : BitVec 5) (t : BitVec 4)
  | vor (d a b : BitVec 5) (t : BitVec 4)
  | vxor (d a b : BitVec 5) (t : BitVec 4)
  | vshl (d a b : BitVec 5) (t : BitVec 4)
  | vshr (d a b : BitVec 5) (t : BitVec 4)
  | vsra (d a b : BitVec 5) (t : BitVec 4)
  | vabs (d a : BitVec 5) (t : BitVec 4)
  | vcmp (c : BitVec 2) (k : BitVec 3) (a b : BitVec 5) (t : BitVec 4)
  | vsel (d a b : BitVec 5) (t : BitVec 4)
  | vadds (d a b : BitVec 5) (t : BitVec 4)
  | vfadd (d a b : BitVec 5) (t : BitVec 4)
  | vfsub (d a b : BitVec 5) (t : BitVec 4)
  | vfmul (d a b : BitVec 5) (t : BitVec 4)
  | vfma (d a b : BitVec 5) (t : BitVec 4)
  | vfmin (d a b : BitVec 5) (t : BitVec 4)
  | vfmax (d a b : BitVec 5) (t : BitVec 4)
  | vfcmp (c : BitVec 2) (k : BitVec 3) (a b : BitVec 5) (t : BitVec 4)
  | vfabs (d a : BitVec 5) (t : BitVec 4)
  | vfdot (d a b : BitVec 5) (t : BitVec 4)
  | vcvt (d a : BitVec 5) (x : BitVec 1) (e t : BitVec 4)
  | vquant (d a : BitVec 5) (x : BitVec 1) (e t : BitVec 4)
  | vdeq (d a : BitVec 5) (x : BitVec 1) (e t : BitVec 4)
  | vbcast (d a b : BitVec 5) (t : BitVec 4)
  | vperm (d a b : BitVec 5) (t : BitVec 4)
  | vslide (d a b : BitVec 5) (t : BitVec 4)
  | viota (d a : BitVec 5) (t : BitVec 4)
  | vcompress (d a : BitVec 5) (t : BitVec 4)
  | vexpand (d a : BitVec 5) (t : BitVec 4)
  | vred (d a o : BitVec 5) (t : BitVec 4)
  | vscan (d a o : BitVec 5) (t : BitVec 4)
  | vtopk (k : BitVec 3) (a b : BitVec 5) (t : BitVec 4)
  | vzip (d a b : BitVec 5) (t : BitVec 4)
  | vexp2 (d a : BitVec 5) (t : BitVec 4)
  | vlog2 (d a : BitVec 5) (t : BitVec 4)
  | vrcp (d a : BitVec 5) (t : BitVec 4)
  | vrsqrt (d a : BitVec 5) (t : BitVec 4)
  | vsin (d a : BitVec 5) (t : BitVec 4)
  | vtanh (d a : BitVec 5) (t : BitVec 4)
  | vsigm (d a : BitVec 5) (t : BitVec 4)
  | kand (d a b : BitVec 5)
  | kor (d a b : BitVec 5)
  | kxor (d a b : BitVec 5)
  | knot (d a : BitVec 5)
  | kpopc (d a : BitVec 5)
  | kfirst (d a : BitVec 5)
  | kmov (d a v : BitVec 5)
  | vmvx (d a : BitVec 5) (t : BitVec 4)
  | vmvs (d a b : BitVec 5) (t : BitVec 4)
  | vmov (d a : BitVec 5) (t : BitVec 4)
  | tmodeOn (n k : BitVec 1) (t : BitVec 4)
  | tmodeOff
  | tzero (t : BitVec 1)
  | top (t : BitVec 1) (a b : BitVec 5) (y : BitVec 4)
  | tops (t : BitVec 1) (s : BitVec 4) (a b : BitVec 5) (y : BitVec 4)
  | trowst (t : BitVec 1) (d : BitVec 5)
  -- the steps of the other agents
  | loadReply
  | storeRefused
  | pageWalk
  | pageFaultService
  | sectorFill
  | channelControllerLoss
  | lineEviction
  | copyTransfer
  | kioskPushTile
  | kioskPullTile
  | journalWrite
  | horizonSweep
  | streamReadAhead
  | lawEventRecord
  | fanOutDeposit
  | messageArrival
  | hostMailboxNotice
  | messageAcknowledgement
  | messageRelease
  | handlerActivation
  | budgetFault
  | remoteLoad
  | remoteStore
  | remoteAtomic
  | remoteLaw
  | remoteFault
  | drtRetransmit
  | linkPortFailure
  | workSearch
  | backOff
  | steal
  | stealAnswer
  | eventLatchSet
  | wfeTimeout
  | feTimeout
  | groupBarrierArrival
  | barrierRelease
  | barrierTimeout
  | heartbeatMiss
  | strandsDone
  | launchStop
  | doneWord
  | queueEnable
  | commandAccept
  | launch
  | signal
  | waitForSignal
  | signalSatisfied
  | annexPolicy
  | dispatchDecision
  | bind
  | preemption
  | hostBindRecord
  | contextCreate
  | contextDestroy
  | pageMap
  | pageDecline
  | barrierExtend
  | barrierExpire
  | contain
  | warmReset
  | attest
  | firmwareStage
  | firmwareActivate
  | tlbInvalidate
  | unitLoss
  | coldReset
  | managementFailover
  | intervalCompare
  | stageMonitorSample
  | splitActivation
  | annexForward
  | mergeActivation
  | hostBar2Write
  | hostBar2Read
  | monitorConfigWrite
  | registerWrite
  | clockThrottle
  | pairTimeout
  | coreLoss
  deriving DecidableEq, Repr

/-- The row of the table that an event is a step of. -/
def Event.row : Event → Instr
  | .loadReply .. => .loadReply
  | .storeRefused .. => .storeRefused
  | .pageWalk .. => .pageWalk
  | .pageFaultService .. => .pageFaultService
  | .sectorFill .. => .sectorFill
  | .channelControllerLoss .. => .channelControllerLoss
  | .lineEviction .. => .lineEviction
  | .copyTransfer .. => .copyTransfer
  | .kioskPushTile .. => .kioskPushTile
  | .kioskPullTile .. => .kioskPullTile
  | .journalWrite .. => .journalWrite
  | .horizonSweep .. => .horizonSweep
  | .streamReadAhead .. => .streamReadAhead
  | .lawEventRecord .. => .lawEventRecord
  | .fanOutDeposit .. => .fanOutDeposit
  | .messageArrival .. => .messageArrival
  | .hostMailboxNotice .. => .hostMailboxNotice
  | .messageAcknowledgement .. => .messageAcknowledgement
  | .messageRelease .. => .messageRelease
  | .handlerActivation .. => .handlerActivation
  | .budgetFault .. => .budgetFault
  | .remoteLoad .. => .remoteLoad
  | .remoteStore .. => .remoteStore
  | .remoteAtomic .. => .remoteAtomic
  | .remoteLaw .. => .remoteLaw
  | .remoteFault .. => .remoteFault
  | .drtRetransmit .. => .drtRetransmit
  | .linkPortFailure .. => .linkPortFailure
  | .workSearch .. => .workSearch
  | .backOff .. => .backOff
  | .steal .. => .steal
  | .stealAnswer .. => .stealAnswer
  | .eventLatchSet .. => .eventLatchSet
  | .wfeTimeout .. => .wfeTimeout
  | .feTimeout .. => .feTimeout
  | .groupBarrierArrival .. => .groupBarrierArrival
  | .barrierRelease .. => .barrierRelease
  | .barrierTimeout .. => .barrierTimeout
  | .heartbeatMiss .. => .heartbeatMiss
  | .strandsDone .. => .strandsDone
  | .launchStop .. => .launchStop
  | .doneWord .. => .doneWord
  | .queueEnable .. => .queueEnable
  | .commandAccept .. => .commandAccept
  | .launch .. => .launch
  | .signal .. => .signal
  | .waitForSignal .. => .waitForSignal
  | .signalSatisfied .. => .signalSatisfied
  | .annexPolicy .. => .annexPolicy
  | .dispatchDecision => .dispatchDecision
  | .bind .. => .bind
  | .preemption .. => .preemption
  | .hostBindRecord .. => .hostBindRecord
  | .contextCreate .. => .contextCreate
  | .contextDestroy .. => .contextDestroy
  | .pageMap => .pageMap
  | .pageDecline => .pageDecline
  | .barrierExtend => .barrierExtend
  | .barrierExpire => .barrierExpire
  | .contain => .contain
  | .warmReset => .warmReset
  | .attest => .attest
  | .firmwareStage => .firmwareStage
  | .firmwareActivate => .firmwareActivate
  | .tlbInvalidate => .tlbInvalidate
  | .unitLoss .. => .unitLoss
  | .coldReset => .coldReset
  | .managementFailover => .managementFailover
  | .intervalCompare .. => .intervalCompare
  | .stageMonitorSample .. => .stageMonitorSample
  | .splitActivation .. => .splitActivation
  | .annexForward .. => .annexForward
  | .mergeActivation .. => .mergeActivation
  | .hostBar2Write .. => .hostBar2Write
  | .hostBar2Read .. => .hostBar2Read
  | .monitorConfigWrite .. => .monitorConfigWrite
  | .registerWrite .. => .registerWrite
  | .clockThrottle .. => .clockThrottle
  | .pairTimeout .. => .pairTimeout
  | .coreLoss .. => .coreLoss

end Sys2Proof
end

