-- ==== Sys2Proof/WellFormed.lean ====
section
/-! DEFINITION. Well-formed instructions: the conditions under which a word's fields name an instruction at all (R37,
R50, R51 and the operand limits of the entries), and the operands of a step that name units the package has (R8). -/

namespace Sys2Proof

/-- Element width in bits of a type code (R51, R242). -/
def typeWidth (t : BitVec 4) : Nat :=
  match t.toNat with
  | 0 | 4 | 10 | 11 => 8
  | 1 | 5 | 12 | 13 => 16
  | 2 | 6 | 14 => 32
  | 3 | 7 | 15 => 64
  | _ => 4

/-- A scalar destination: any but x30 (R38). -/
def okX (d : BitVec 5) : Bool := d != 30#5
/-- An even pair xd, xd + 1 (R37). -/
def okPair (d : BitVec 5) : Bool := d.toNat % 2 == 0 && d != 30#5
/-- A mask or stream register (R37). -/
def ok8 (a : BitVec 5) : Bool := decide (a.toNat < 8)
/-- A mask destination: not k0 (R37). -/
def okKd (d : BitVec 5) : Bool := decide (1 ≤ d.toNat) && decide (d.toNat < 8)
/-- A word or doubleword atomic size (R126). -/
def okWd (s : BitVec 2) : Bool := decide (s.toNat < 2)
/-- A type code in a range (R51). -/
def tIn (t : BitVec 4) (lo hi : Nat) : Bool := decide (lo ≤ t.toNat) && decide (t.toNat ≤ hi)
/-- Store sizes b, h, w, d, q, the last from an even pair (R117, R199). -/
def okStore (sz : BitVec 3) (d : BitVec 5) : Bool :=
  match sz.toNat with
  | 0 | 2 | 4 | 6 => true
  | 7 => okPair d
  | _ => false
/-- A group of g registers starts at a multiple of g, and g is at most 8 (R243). -/
def okGroup (r : BitVec 5) (g : Nat) : Bool := decide (g ≤ 8) && r.toNat % g == 0
/-- The group sizes of a conversion (R255). -/
def okCvt (dt st : BitVec 4) (d a : BitVec 5) : Bool :=
  let wd := typeWidth dt
  let ws := typeWidth st
  if ws < wd then okGroup d (wd / ws) else if wd < ws then okGroup a (ws / wd) else true
/-- Conversion kinds of FCVT (R239). -/
def okFcvt (k : BitVec 5) : Bool := decide (k.toNat < 6) || (decide (8 ≤ k.toNat) && decide (k.toNat < 12))
/-- Operations of VRED and VSCAN by type (R262). -/
def okRed (o : BitVec 5) (t : BitVec 4) : Bool :=
  match o.toNat with
  | 0 => tIn t 0 8 || tIn t 12 15
  | 1 | 2 => true
  | 3 | 4 | 5 => tIn t 0 8
  | _ => false
def okCore (c : Nat) : Bool := decide (c < 768)
def okSlot (t : Nat) : Bool := decide (t < 5)
def okCompute (t : Nat) : Bool := decide (t < 4)
def okCtx (c : Nat) : Bool := decide (c < 64)
def okQueue (q : Nat) : Bool := decide (q < 16)

/-- The word names an instruction. A row that is a step of another agent has no word: its operands are an event's. -/
def Instr.wellFormed : Instr → Bool
  | .pair d | .unpair d => okX d
  | .jal d _ | .jalr d _ _ => okX d
  | .fork d _ _ | .wfe d _ => okX d
  | .barrive d _ | .bwait d _ _ | .bcomb d _ _ | .bquery d _ => okX d
  | .ldB d _ _ | .ldBu d _ _ | .ldH d _ _ | .ldHu d _ _ | .ldW d _ _ | .ldWu d _ _ | .ldD d _ _ => okX d
  | .ldQ d _ _ | .stQ d _ _ => okPair d
  | .amoadd d _ _ s | .amoand d _ _ s | .amoor d _ _ s | .amoxor d _ _ s | .amomin d _ _ s | .amomax d _ _ s
  | .amominu d _ _ s | .amomaxu d _ _ s | .amoswap d _ _ s | .amofadd d _ _ s | .cas d _ _ s | .amoz d _ _ s =>
    okX d && okWd s
  | .cas2 d _ b => okPair d && okPair b
  | .lld d _ s _ | .lldWf d _ s _ | .lldWfc d _ s _ => if s == 7#3 then okPair d else okX d
  | .lst d _ s _ | .lstSf d _ s _ | .lstWesf d _ s _ => okStore s d
  | .vlld _ _ q | .vlst _ _ q => decide (q.toNat < 3)
  | .lamoadd d _ _ | .lcas d _ _ => okX d
  | .copy d _ | .copy2d d _ | .cstat d _ | .subs d _ | .unsubs d _ => okX d
  | .sopen a _ | .vspop _ a | .sadv a _ | .sclose a => ok8 a
  | .spop d a | .stend d a | .sfib d a => okX d && ok8 a
  | .rtick d _ | .rtake d _ | .rrel d _ | .kroute d _ _ => okX d
  | .lwrd d _ | .lwpeek d _ | .lwadd d _ _ | .lwset d _ _ | .lwinit d _ _ | .lwsweep d _ _ => okX d
  | .lwrdx d _ => okPair d
  | .lwnow d a | .lwstep d a _ => okX d && ok8 a
  | .msend d _ => okX d && d != 31#5
  | .bkany a _ | .bkall a _ => ok8 a
  | .srrd d _ | .srwr d _ _ | .srset d _ _ | .srclr d _ _ => okX d
  | .vx _ _ m _ => m != 7#3
  | .add d _ _ | .sub d _ _ | .and d _ _ | .or d _ _ | .xor d _ _ | .sll d _ _ | .srl d _ _ | .sra d _ _
  | .mul d _ _ | .mulh d _ _ | .mulhu d _ _ | .div d _ _ | .divu d _ _ | .rem d _ _ | .remu d _ _
  | .min d _ _ | .max d _ _ | .minu d _ _ | .maxu d _ _ | .slt d _ _ | .sltu d _ _ | .sel d _ _ => okX d
  | .clz d _ | .ctz d _ | .popc d _ => okX d
  | .addi d _ _ | .andi d _ _ | .ori d _ _ | .xori d _ _ | .slti d _ _ | .sltiu d _ _ => okX d
  | .slli d _ _ | .srli d _ _ | .srai d _ _ => okX d
  | .lui d _ => okX d
  | .fadd d _ _ _ | .fsub d _ _ _ | .fmul d _ _ _ | .fdiv d _ _ _ | .fmin d _ _ _ | .fmax d _ _ _
  | .fma d _ _ _ | .fcmp d _ _ _ | .fsgn d _ _ _ => okX d
  | .fsqrt d _ _ | .fclass d _ _ => okX d
  | .fcvt d _ k _ => okX d && okFcvt k
  | .vadd _ _ _ t | .vsub _ _ _ t | .vmin _ _ _ t | .vmax _ _ _ t | .vand _ _ _ t | .vor _ _ _ t
  | .vxor _ _ _ t | .vsel _ _ _ t | .vadds _ _ _ t => tIn t 0 8
  | .vmul _ _ _ t | .vmulh _ _ _ t | .vshl _ _ _ t | .vshr _ _ _ t => tIn t 0 7
  | .vsra _ _ _ t => tIn t 0 3
  | .vabs _ _ t => tIn t 0 3 || t == 8#4
  | .vcmp _ k _ _ t => k != 0#3 && tIn t 0 8
  | .vfadd _ _ _ t | .vfsub _ _ _ t | .vfmul _ _ _ t | .vfma _ _ _ t => tIn t 12 15
  | .vfmin _ _ _ t | .vfmax _ _ _ t => tIn t 9 15
  | .vfcmp _ k _ _ t => k != 0#3 && tIn t 9 15
  | .vfabs _ _ t => tIn t 9 15
  | .vfdot _ _ _ t => tIn t 9 13
  | .vcvt d a _ e t => okCvt t e d a
  | .vquant d a _ e t => tIn t 9 11 && tIn e 12 14 && okCvt t e d a
  | .vdeq d a _ e t => tIn t 12 14 && tIn e 9 11 && okCvt t e d a
  | .vperm _ _ b t => okGroup b (Nat.max 1 (16 / typeWidth t))
  | .viota _ _ t => tIn t 0 7
  | .vred _ _ o t | .vscan _ _ o t => okRed o t
  | .vtopk k _ _ _ => k != 0#3
  | .vzip d _ _ t => (tIn t 0 7 || tIn t 10 15) && okGroup d 2
  | .vexp2 _ _ t | .vlog2 _ _ t | .vrcp _ _ t | .vrsqrt _ _ t | .vsin _ _ t | .vtanh _ _ t | .vsigm _ _ t =>
    tIn t 12 14
  | .kand d a b | .kor d a b | .kxor d a b => okKd d && ok8 a && ok8 b
  | .knot d a => okKd d && ok8 a
  | .kpopc d a | .kfirst d a => okX d && ok8 a
  | .kmov d a v =>
    match v.toNat with
    | 0 => okKd d && ok8 a
    | 1 => okKd d
    | 2 => ok8 a
    | _ => false
  | .vmvx _ _ t | .vmov _ _ t => tIn t 0 7 || tIn t 10 15
  | .vmvs d _ _ t => okX d && (tIn t 0 7 || tIn t 10 15)
  | .tmodeOn _ _ t => t == 2#4 || t == 14#4
  | .top _ _ _ y => y == 0#4 || tIn y 8 13
  | .tops _ _ _ _ y => tIn y 9 11
  -- words whose every field value is an instruction
  | .syscall | .tret | .wfi | .tlbinv .. | .seedset _ | .cflush .. | .beq .. | .bne .. | .blt .. | .bge .. | .bltu ..
  | .bgeu .. | .join _ | .tdone | .yield | .hbeat | .sev _ | .binit .. | .bsync _ | .bswap _ | .stB .. | .stH ..
  | .stW .. | .stD .. | .vld .. | .vst .. | .vlds .. | .vsts .. | .vgath .. | .vscat .. | .vldp .. | .vstp ..
  | .pref .. | .czero .. | .lgath .. | .xst .. | .vxst .. | .fewait .. | .feset .. | .feclr .. | .rput ..
  | .lwdep .. | .hend | .anxput .. | .anxend | .fence .. | .isync | .rep .. | .vbcast .. | .vslide .. | .vcompress ..
  | .vexpand .. | .tmodeOff | .tzero _ | .trowst .. => true
  -- steps of the other agents
  | .loadReply | .storeRefused | .pageWalk | .pageFaultService | .sectorFill | .channelControllerLoss
  | .lineEviction | .copyTransfer | .kioskPushTile | .kioskPullTile | .journalWrite | .horizonSweep
  | .streamReadAhead | .lawEventRecord | .fanOutDeposit | .messageArrival | .hostMailboxNotice
  | .messageAcknowledgement | .messageRelease | .handlerActivation | .budgetFault | .remoteLoad | .remoteStore
  | .remoteAtomic | .remoteLaw | .remoteFault | .drtRetransmit | .linkPortFailure | .workSearch | .backOff
  | .steal | .stealAnswer | .eventLatchSet | .wfeTimeout | .feTimeout | .groupBarrierArrival | .barrierRelease
  | .barrierTimeout | .heartbeatMiss | .strandsDone | .launchStop | .doneWord | .queueEnable | .commandAccept
  | .launch | .signal | .waitForSignal | .signalSatisfied | .annexPolicy | .dispatchDecision | .bind
  | .preemption | .hostBindRecord | .contextCreate | .contextDestroy | .pageMap | .pageDecline | .barrierExtend
  | .barrierExpire | .contain | .warmReset | .attest | .firmwareStage | .firmwareActivate | .tlbInvalidate
  | .unitLoss | .coldReset | .managementFailover | .intervalCompare | .stageMonitorSample | .splitActivation
  | .annexForward | .mergeActivation | .hostBar2Write | .hostBar2Read | .monitorConfigWrite | .registerWrite
  | .clockThrottle | .pairTimeout | .coreLoss => true

/-- The operands of a step name units the package has (R8, R13, R16, R348). (DESIGN CHOICE, safe, log 21) -/
def Event.wellFormed : Event → Bool
  -- slot 5 stands for the core's stream and copy engines
  | .loadReply c t _ => okCore c && decide (t ≤ 5)
  | .storeRefused c t => okCore c && okSlot t
  | .pageWalk c x _ _ _ => okCore c && okCtx x
  | .pageFaultService x _ _ => okCtx x
  | .sectorFill n _ _ => decide (n < 160)
  | .channelControllerLoss st ch => decide (st < 8) && decide (ch < 32)
  | .lineEviction n _ => decide (n < 160)
  | .copyTransfer c p _ => okCore c && decide (p < 16)
  | .kioskPushTile k _ | .kioskPullTile k _ => decide (k < 32)
  | .journalWrite c _ _ _ => okCore c
  | .horizonSweep x _ _ => okCtx x
  | .streamReadAhead c t n => okCore c && okCompute t && decide (n < 8)
  | .lawEventRecord x _ _ | .fanOutDeposit x _ _ _ => okCtx x
  | .messageArrival m | .hostMailboxNotice m _ _ | .remoteLoad m | .remoteStore m | .remoteAtomic m | .remoteLaw m
  | .drtRetransmit m => okCtx m.ctx
  | .messageAcknowledgement _ _ => true
  | .messageRelease c _ _ => okCore c
  | .handlerActivation c | .budgetFault c => okCore c
  | .remoteFault _ x _ _ _ => okCtx x
  | .linkPortFailure p => decide (p < 48)
  | .workSearch c t | .backOff c t => okCore c && okCompute t
  | .steal c t w _ | .stealAnswer c t w _ _ => okCore c && okCompute t && okCore w
  | .eventLatchSet c _ _ => okCore c
  | .wfeTimeout c t | .pairTimeout c t | .heartbeatMiss c t => okCore c && okCompute t
  | .feTimeout c t => okCore c && okSlot t
  | .groupBarrierArrival c s t b _ _ _ _ => okCore c && okCore s && okSlot t && decide (b < 128)
  | .barrierRelease c b _ _ _ _ => okCore c && decide (b < 128)
  | .barrierTimeout c b => okCore c && decide (b < 128)
  | .strandsDone p c _ => okCore p && okCore c
  | .launchStop c _ | .bind c | .preemption c | .splitActivation c | .annexForward c | .mergeActivation c | .coreLoss c =>
    okCore c
  | .doneWord p c _ _ => okCore p && okCore c
  | .queueEnable x q | .commandAccept x q | .launch x q | .signal x q | .waitForSignal x q | .signalSatisfied x q
  | .annexPolicy x q | .stageMonitorSample x q => okCtx x && okQueue q
  | .hostBindRecord c _ => okCore c
  | .contextCreate x _ | .contextDestroy x => okCtx x
  | .unitLoss u =>
    match u with
    | .slice n => decide (n < 160)
    | .channel st ch => decide (st < 8) && decide (ch < 32)
    | .bridge | .management => true
  | .intervalCompare c _ => okCore c
  | .monitorConfigWrite m _ => decide (m < 128 + 8 * 768)
  | .registerWrite o _ => decide (o < 2 ^ 30) && o % 8 == 0
  | .clockThrottle f => decide (1200 ≤ f) && decide (f ≤ 2700) && f % 100 == 0
  | .dispatchDecision | .pageMap | .pageDecline | .barrierExtend | .barrierExpire | .contain | .warmReset | .attest
  | .firmwareStage | .firmwareActivate | .tlbInvalidate | .coldReset | .managementFailover | .hostBar2Write ..
  | .hostBar2Read .. => true

end Sys2Proof
end

