-- ==== Sys2Proof/Decode.lean ====
section
/-! DEFINITION. The decoder and the encoder of instruction words (R23, R24, R34, R36, R49, R50). Every word decodes to
an instruction or is rejected by name. -/

namespace Sys2Proof

/-- Why a word is no instruction. All are illegal-instruction traps (R36, R37, R49 to R51). -/
inductive DecodeError where
  /-- A major that R49 reserves. -/
  | reservedMajor
  /-- A minor, operation, size, kind or qualifier that R50 does not assign. -/
  | unassigned
  /-- A nonzero field that the entry does not use, or a reserved bit (R36). -/
  | nonzeroReserved
  /-- A register, type or size that the entry does not admit (R37, R50, R51). -/
  | operand
  /-- A prefix with the lone bit, or TRET without it (R27, R372). -/
  | loneBit
  deriving DecidableEq, Repr

/-- Major 0x00 (R49, R50). -/
def decodeSys (w : BitVec 32) : Except DecodeError Instr :=
  match (w.extractLsb' 0 10).toNat with
  | 0 => if w.extractLsb' 10 15 = 0#15 then .ok (.syscall) else .error .nonzeroReserved
  | 1 => if w.extractLsb' 10 15 = 0#15 then .ok (.tret) else .error .nonzeroReserved
  | 2 => if w.extractLsb' 10 15 = 0#15 then .ok (.wfi) else .error .nonzeroReserved
  | 3 => if w.extractLsb' 10 10 = 0#10 then .ok (.pair (w.extractLsb' 20 5)) else .error .nonzeroReserved
  | 4 => if w.extractLsb' 10 10 = 0#10 then .ok (.unpair (w.extractLsb' 20 5)) else .error .nonzeroReserved
  | 5 => if w.extractLsb' 20 5 = 0#5 then .ok (.tlbinv (w.extractLsb' 15 5) (w.extractLsb' 10 5)) else .error .nonzeroReserved
  | 6 => if w.extractLsb' 20 5 = 0#5 ∧ w.extractLsb' 10 5 = 0#5 then .ok (.seedset (w.extractLsb' 15 5)) else .error .nonzeroReserved
  | 7 => if w.extractLsb' 20 5 = 0#5 then .ok (.cflush (w.extractLsb' 15 5) (w.extractLsb' 10 5)) else .error .nonzeroReserved
  | _ => .error .unassigned

/-- Major 0x09 (R49, R50). -/
def decodeTask (w : BitVec 32) : Except DecodeError Instr :=
  match (w.extractLsb' 0 10).toNat with
  | 0 => .ok (.fork (w.extractLsb' 20 5) (w.extractLsb' 15 5) (w.extractLsb' 10 5))
  | 1 => if w.extractLsb' 20 5 = 0#5 ∧ w.extractLsb' 10 5 = 0#5 then .ok (.join (w.extractLsb' 15 5)) else .error .nonzeroReserved
  | 2 => if w.extractLsb' 10 15 = 0#15 then .ok (.tdone) else .error .nonzeroReserved
  | 3 => if w.extractLsb' 10 15 = 0#15 then .ok (.yield) else .error .nonzeroReserved
  | 4 => if w.extractLsb' 10 15 = 0#15 then .ok (.hbeat) else .error .nonzeroReserved
  | 5 => if w.extractLsb' 15 5 = 0#5 then .ok (.wfe (w.extractLsb' 20 5) (w.extractLsb' 10 5)) else .error .nonzeroReserved
  | 6 => if w.extractLsb' 20 5 = 0#5 ∧ w.extractLsb' 10 5 = 0#5 then .ok (.sev (w.extractLsb' 15 5)) else .error .nonzeroReserved
  | _ => .error .unassigned

/-- Major 0x0A (R49, R50). -/
def decodeBarr (w : BitVec 32) : Except DecodeError Instr :=
  match (w.extractLsb' 0 10).toNat with
  | 0 => if w.extractLsb' 20 5 = 0#5 then .ok (.binit (w.extractLsb' 15 5) (w.extractLsb' 10 5)) else .error .nonzeroReserved
  | 1 => if w.extractLsb' 10 5 = 0#5 then .ok (.barrive (w.extractLsb' 20 5) (w.extractLsb' 15 5)) else .error .nonzeroReserved
  | 2 => .ok (.bwait (w.extractLsb' 20 5) (w.extractLsb' 15 5) (w.extractLsb' 10 5))
  | 3 => if w.extractLsb' 20 5 = 0#5 ∧ w.extractLsb' 10 5 = 0#5 then .ok (.bsync (w.extractLsb' 15 5)) else .error .nonzeroReserved
  | 4 => .ok (.bcomb (w.extractLsb' 20 5) (w.extractLsb' 15 5) (w.extractLsb' 10 5))
  | 5 => if w.extractLsb' 20 5 = 0#5 ∧ w.extractLsb' 10 5 = 0#5 then .ok (.bswap (w.extractLsb' 15 5)) else .error .nonzeroReserved
  | 6 => if w.extractLsb' 10 5 = 0#5 then .ok (.bquery (w.extractLsb' 20 5) (w.extractLsb' 15 5)) else .error .nonzeroReserved
  | _ => .error .unassigned

/-- Major 0x0B (R49, R50). -/
def decodeLd (w : BitVec 32) : Except DecodeError Instr :=
  match (w.extractLsb' 12 3).toNat with
  | 0 => .ok (.ldB (w.extractLsb' 20 5) (w.extractLsb' 15 5) (w.extractLsb' 0 12))
  | 1 => .ok (.ldBu (w.extractLsb' 20 5) (w.extractLsb' 15 5) (w.extractLsb' 0 12))
  | 2 => .ok (.ldH (w.extractLsb' 20 5) (w.extractLsb' 15 5) (w.extractLsb' 0 12))
  | 3 => .ok (.ldHu (w.extractLsb' 20 5) (w.extractLsb' 15 5) (w.extractLsb' 0 12))
  | 4 => .ok (.ldW (w.extractLsb' 20 5) (w.extractLsb' 15 5) (w.extractLsb' 0 12))
  | 5 => .ok (.ldWu (w.extractLsb' 20 5) (w.extractLsb' 15 5) (w.extractLsb' 0 12))
  | 6 => .ok (.ldD (w.extractLsb' 20 5) (w.extractLsb' 15 5) (w.extractLsb' 0 12))
  | _ => .ok (.ldQ (w.extractLsb' 20 5) (w.extractLsb' 15 5) (w.extractLsb' 0 12))

/-- Major 0x0C (R49, R50). -/
def decodeSt (w : BitVec 32) : Except DecodeError Instr :=
  match (w.extractLsb' 12 3).toNat with
  | 0 => .ok (.stB (w.extractLsb' 20 5) (w.extractLsb' 15 5) (w.extractLsb' 0 12))
  | 2 => .ok (.stH (w.extractLsb' 20 5) (w.extractLsb' 15 5) (w.extractLsb' 0 12))
  | 4 => .ok (.stW (w.extractLsb' 20 5) (w.extractLsb' 15 5) (w.extractLsb' 0 12))
  | 6 => .ok (.stD (w.extractLsb' 20 5) (w.extractLsb' 15 5) (w.extractLsb' 0 12))
  | 7 => .ok (.stQ (w.extractLsb' 20 5) (w.extractLsb' 15 5) (w.extractLsb' 0 12))
  | _ => .error .unassigned

/-- Major 0x0D (R49, R50). -/
def decodeAtom (w : BitVec 32) : Except DecodeError Instr :=
  match (w.extractLsb' 0 6).toNat with
  | 0 => if w.extractLsb' 6 2 = 0#2 then .ok (.amoadd (w.extractLsb' 20 5) (w.extractLsb' 15 5) (w.extractLsb' 10 5) (w.extractLsb' 8 2)) else .error .nonzeroReserved
  | 1 => if w.extractLsb' 6 2 = 0#2 then .ok (.amoand (w.extractLsb' 20 5) (w.extractLsb' 15 5) (w.extractLsb' 10 5) (w.extractLsb' 8 2)) else .error .nonzeroReserved
  | 2 => if w.extractLsb' 6 2 = 0#2 then .ok (.amoor (w.extractLsb' 20 5) (w.extractLsb' 15 5) (w.extractLsb' 10 5) (w.extractLsb' 8 2)) else .error .nonzeroReserved
  | 3 => if w.extractLsb' 6 2 = 0#2 then .ok (.amoxor (w.extractLsb' 20 5) (w.extractLsb' 15 5) (w.extractLsb' 10 5) (w.extractLsb' 8 2)) else .error .nonzeroReserved
  | 4 => if w.extractLsb' 6 2 = 0#2 then .ok (.amomin (w.extractLsb' 20 5) (w.extractLsb' 15 5) (w.extractLsb' 10 5) (w.extractLsb' 8 2)) else .error .nonzeroReserved
  | 5 => if w.extractLsb' 6 2 = 0#2 then .ok (.amomax (w.extractLsb' 20 5) (w.extractLsb' 15 5) (w.extractLsb' 10 5) (w.extractLsb' 8 2)) else .error .nonzeroReserved
  | 6 => if w.extractLsb' 6 2 = 0#2 then .ok (.amominu (w.extractLsb' 20 5) (w.extractLsb' 15 5) (w.extractLsb' 10 5) (w.extractLsb' 8 2)) else .error .nonzeroReserved
  | 7 => if w.extractLsb' 6 2 = 0#2 then .ok (.amomaxu (w.extractLsb' 20 5) (w.extractLsb' 15 5) (w.extractLsb' 10 5) (w.extractLsb' 8 2)) else .error .nonzeroReserved
  | 8 => if w.extractLsb' 6 2 = 0#2 then .ok (.amoswap (w.extractLsb' 20 5) (w.extractLsb' 15 5) (w.extractLsb' 10 5) (w.extractLsb' 8 2)) else .error .nonzeroReserved
  | 9 => if w.extractLsb' 6 2 = 0#2 then .ok (.amofadd (w.extractLsb' 20 5) (w.extractLsb' 15 5) (w.extractLsb' 10 5) (w.extractLsb' 8 2)) else .error .nonzeroReserved
  | 10 => if w.extractLsb' 6 2 = 0#2 then .ok (.cas (w.extractLsb' 20 5) (w.extractLsb' 15 5) (w.extractLsb' 10 5) (w.extractLsb' 8 2)) else .error .nonzeroReserved
  | 11 => if w.extractLsb' 6 4 = 8#4 then .ok (.cas2 (w.extractLsb' 20 5) (w.extractLsb' 15 5) (w.extractLsb' 10 5)) else .error .nonzeroReserved
  | 12 => if w.extractLsb' 6 2 = 0#2 then .ok (.amoz (w.extractLsb' 20 5) (w.extractLsb' 15 5) (w.extractLsb' 10 5) (w.extractLsb' 8 2)) else .error .nonzeroReserved
  | _ => .error .unassigned

/-- Major 0x0E (R49, R50). -/
def decodeVmem (w : BitVec 32) : Except DecodeError Instr :=
  match (w.extractLsb' 0 6).toNat with
  | 0 => if w.extractLsb' 10 5 = 0#5 ∧ w.extractLsb' 6 1 = 0#1 then .ok (.vld (w.extractLsb' 20 5) (w.extractLsb' 15 5) (w.extractLsb' 9 1) (w.extractLsb' 8 1) (w.extractLsb' 7 1)) else .error .nonzeroReserved
  | 1 => if w.extractLsb' 8 7 = 0#7 ∧ w.extractLsb' 6 1 = 0#1 then .ok (.vst (w.extractLsb' 20 5) (w.extractLsb' 15 5) (w.extractLsb' 7 1)) else .error .nonzeroReserved
  | 2 => if w.extractLsb' 6 1 = 0#1 then .ok (.vlds (w.extractLsb' 20 5) (w.extractLsb' 15 5) (w.extractLsb' 10 5) (w.extractLsb' 9 1) (w.extractLsb' 8 1) (w.extractLsb' 7 1)) else .error .nonzeroReserved
  | 3 => if w.extractLsb' 8 2 = 0#2 ∧ w.extractLsb' 6 1 = 0#1 then .ok (.vsts (w.extractLsb' 20 5) (w.extractLsb' 15 5) (w.extractLsb' 10 5) (w.extractLsb' 7 1)) else .error .nonzeroReserved
  | 4 => if w.extractLsb' 9 1 = 0#1 ∧ w.extractLsb' 6 1 = 0#1 then .ok (.vgath (w.extractLsb' 20 5) (w.extractLsb' 15 5) (w.extractLsb' 10 5) (w.extractLsb' 8 1) (w.extractLsb' 7 1)) else .error .nonzeroReserved
  | 5 => if w.extractLsb' 8 2 = 0#2 ∧ w.extractLsb' 6 1 = 0#1 then .ok (.vscat (w.extractLsb' 20 5) (w.extractLsb' 15 5) (w.extractLsb' 10 5) (w.extractLsb' 7 1)) else .error .nonzeroReserved
  | 6 => if w.extractLsb' 6 1 = 0#1 then .ok (.vldp (w.extractLsb' 20 5) (w.extractLsb' 15 5) (w.extractLsb' 10 5) (w.extractLsb' 9 1) (w.extractLsb' 8 1) (w.extractLsb' 7 1)) else .error .nonzeroReserved
  | 7 => if w.extractLsb' 8 2 = 0#2 ∧ w.extractLsb' 6 1 = 0#1 then .ok (.vstp (w.extractLsb' 20 5) (w.extractLsb' 15 5) (w.extractLsb' 10 5) (w.extractLsb' 7 1)) else .error .nonzeroReserved
  | 8 => if w.extractLsb' 20 5 = 0#5 ∧ w.extractLsb' 10 5 = 0#5 ∧ w.extractLsb' 6 2 = 0#2 then .ok (.pref (w.extractLsb' 15 5) (w.extractLsb' 9 1) (w.extractLsb' 8 1)) else .error .nonzeroReserved
  | 9 => if w.extractLsb' 20 5 = 0#5 ∧ w.extractLsb' 6 4 = 0#4 then .ok (.czero (w.extractLsb' 15 5) (w.extractLsb' 10 5)) else .error .nonzeroReserved
  | _ => .error .unassigned

/-- Major 0x0F (R49, R50). -/
def decodeLld (w : BitVec 32) : Except DecodeError Instr :=
  match (w.extractLsb' 10 2).toNat with
  | 0 => .ok (.lld (w.extractLsb' 20 5) (w.extractLsb' 15 5) (w.extractLsb' 12 3) (w.extractLsb' 0 10))
  | 1 => .ok (.lldWf (w.extractLsb' 20 5) (w.extractLsb' 15 5) (w.extractLsb' 12 3) (w.extractLsb' 0 10))
  | 2 => .ok (.lldWfc (w.extractLsb' 20 5) (w.extractLsb' 15 5) (w.extractLsb' 12 3) (w.extractLsb' 0 10))
  | _ => .error .unassigned

/-- Major 0x10 (R49, R50). -/
def decodeLst (w : BitVec 32) : Except DecodeError Instr :=
  match (w.extractLsb' 10 2).toNat with
  | 0 => .ok (.lst (w.extractLsb' 20 5) (w.extractLsb' 15 5) (w.extractLsb' 12 3) (w.extractLsb' 0 10))
  | 1 => .ok (.lstSf (w.extractLsb' 20 5) (w.extractLsb' 15 5) (w.extractLsb' 12 3) (w.extractLsb' 0 10))
  | 2 => .ok (.lstWesf (w.extractLsb' 20 5) (w.extractLsb' 15 5) (w.extractLsb' 12 3) (w.extractLsb' 0 10))
  | _ => .error .unassigned

/-- Major 0x11 (R49, R50). -/
def decodeLvec (w : BitVec 32) : Except DecodeError Instr :=
  match (w.extractLsb' 0 10).toNat with
  | 0 => .ok (.vlld (w.extractLsb' 20 5) (w.extractLsb' 15 5) (w.extractLsb' 10 5))
  | 1 => .ok (.vlst (w.extractLsb' 20 5) (w.extractLsb' 15 5) (w.extractLsb' 10 5))
  | 2 => .ok (.lgath (w.extractLsb' 20 5) (w.extractLsb' 15 5) (w.extractLsb' 10 5))
  | 3 => if w.extractLsb' 10 5 = 0#5 then .ok (.xst (w.extractLsb' 20 5) (w.extractLsb' 15 5)) else .error .nonzeroReserved
  | 4 => if w.extractLsb' 10 5 = 0#5 then .ok (.vxst (w.extractLsb' 20 5) (w.extractLsb' 15 5)) else .error .nonzeroReserved
  | 5 => .ok (.lamoadd (w.extractLsb' 20 5) (w.extractLsb' 15 5) (w.extractLsb' 10 5))
  | 6 => .ok (.lcas (w.extractLsb' 20 5) (w.extractLsb' 15 5) (w.extractLsb' 10 5))
  | _ => .error .unassigned

/-- Major 0x12 (R49, R50). -/
def decodeCopy (w : BitVec 32) : Except DecodeError Instr :=
  match (w.extractLsb' 0 10).toNat with
  | 0 => if w.extractLsb' 10 5 = 0#5 then .ok (.copy (w.extractLsb' 20 5) (w.extractLsb' 15 5)) else .error .nonzeroReserved
  | 1 => if w.extractLsb' 10 5 = 0#5 then .ok (.copy2d (w.extractLsb' 20 5) (w.extractLsb' 15 5)) else .error .nonzeroReserved
  | 2 => if w.extractLsb' 10 5 = 0#5 then .ok (.cstat (w.extractLsb' 20 5) (w.extractLsb' 15 5)) else .error .nonzeroReserved
  | 3 => if w.extractLsb' 20 5 = 0#5 then .ok (.fewait (w.extractLsb' 15 5) (w.extractLsb' 10 5)) else .error .nonzeroReserved
  | 4 => if w.extractLsb' 20 5 = 0#5 then .ok (.feset (w.extractLsb' 15 5) (w.extractLsb' 10 5)) else .error .nonzeroReserved
  | 5 => if w.extractLsb' 20 5 = 0#5 then .ok (.feclr (w.extractLsb' 15 5) (w.extractLsb' 10 5)) else .error .nonzeroReserved
  | 6 => if w.extractLsb' 10 5 = 0#5 then .ok (.subs (w.extractLsb' 20 5) (w.extractLsb' 15 5)) else .error .nonzeroReserved
  | 7 => if w.extractLsb' 10 5 = 0#5 then .ok (.unsubs (w.extractLsb' 20 5) (w.extractLsb' 15 5)) else .error .nonzeroReserved
  | _ => .error .unassigned

/-- Major 0x13 (R49, R50). -/
def decodeStrm (w : BitVec 32) : Except DecodeError Instr :=
  match (w.extractLsb' 0 10).toNat with
  | 0 => if w.extractLsb' 20 5 = 0#5 then .ok (.sopen (w.extractLsb' 15 5) (w.extractLsb' 10 5)) else .error .nonzeroReserved
  | 1 => if w.extractLsb' 10 5 = 0#5 then .ok (.spop (w.extractLsb' 20 5) (w.extractLsb' 15 5)) else .error .nonzeroReserved
  | 2 => if w.extractLsb' 10 5 = 0#5 then .ok (.vspop (w.extractLsb' 20 5) (w.extractLsb' 15 5)) else .error .nonzeroReserved
  | 3 => if w.extractLsb' 20 5 = 0#5 then .ok (.sadv (w.extractLsb' 15 5) (w.extractLsb' 10 5)) else .error .nonzeroReserved
  | 4 => if w.extractLsb' 10 5 = 0#5 then .ok (.stend (w.extractLsb' 20 5) (w.extractLsb' 15 5)) else .error .nonzeroReserved
  | 5 => if w.extractLsb' 10 5 = 0#5 then .ok (.sfib (w.extractLsb' 20 5) (w.extractLsb' 15 5)) else .error .nonzeroReserved
  | 6 => if w.extractLsb' 20 5 = 0#5 ∧ w.extractLsb' 10 5 = 0#5 then .ok (.sclose (w.extractLsb' 15 5)) else .error .nonzeroReserved
  | _ => .error .unassigned

/-- Major 0x14 (R49, R50). -/
def decodeRing (w : BitVec 32) : Except DecodeError Instr :=
  match (w.extractLsb' 0 10).toNat with
  | 0 => if w.extractLsb' 10 5 = 0#5 then .ok (.rtick (w.extractLsb' 20 5) (w.extractLsb' 15 5)) else .error .nonzeroReserved
  | 1 => .ok (.rput (w.extractLsb' 20 5) (w.extractLsb' 15 5) (w.extractLsb' 10 5))
  | 2 => if w.extractLsb' 10 5 = 0#5 then .ok (.rtake (w.extractLsb' 20 5) (w.extractLsb' 15 5)) else .error .nonzeroReserved
  | 3 => if w.extractLsb' 10 5 = 0#5 then .ok (.rrel (w.extractLsb' 20 5) (w.extractLsb' 15 5)) else .error .nonzeroReserved
  | 4 => .ok (.kroute (w.extractLsb' 20 5) (w.extractLsb' 15 5) (w.extractLsb' 10 5))
  | _ => .error .unassigned

/-- Major 0x15 (R49, R50). -/
def decodeLaw (w : BitVec 32) : Except DecodeError Instr :=
  match (w.extractLsb' 0 10).toNat with
  | 0 => if w.extractLsb' 10 5 = 0#5 then .ok (.lwrd (w.extractLsb' 20 5) (w.extractLsb' 15 5)) else .error .nonzeroReserved
  | 1 => if w.extractLsb' 10 5 = 0#5 then .ok (.lwrdx (w.extractLsb' 20 5) (w.extractLsb' 15 5)) else .error .nonzeroReserved
  | 2 => if w.extractLsb' 10 5 = 0#5 then .ok (.lwpeek (w.extractLsb' 20 5) (w.extractLsb' 15 5)) else .error .nonzeroReserved
  | 3 => .ok (.lwadd (w.extractLsb' 20 5) (w.extractLsb' 15 5) (w.extractLsb' 10 5))
  | 4 => .ok (.lwset (w.extractLsb' 20 5) (w.extractLsb' 15 5) (w.extractLsb' 10 5))
  | 5 => .ok (.lwinit (w.extractLsb' 20 5) (w.extractLsb' 15 5) (w.extractLsb' 10 5))
  | 6 => if w.extractLsb' 20 5 = 0#5 then .ok (.lwdep (w.extractLsb' 15 5) (w.extractLsb' 10 5)) else .error .nonzeroReserved
  | 7 => if w.extractLsb' 10 5 = 0#5 then .ok (.lwnow (w.extractLsb' 20 5) (w.extractLsb' 15 5)) else .error .nonzeroReserved
  | 8 => .ok (.lwstep (w.extractLsb' 20 5) (w.extractLsb' 15 5) (w.extractLsb' 10 5))
  | 9 => .ok (.lwsweep (w.extractLsb' 20 5) (w.extractLsb' 15 5) (w.extractLsb' 10 5))
  | _ => .error .unassigned

/-- Major 0x16 (R49, R50). -/
def decodeMsg (w : BitVec 32) : Except DecodeError Instr :=
  match (w.extractLsb' 0 10).toNat with
  | 0 => if w.extractLsb' 10 5 = 0#5 then .ok (.msend (w.extractLsb' 20 5) (w.extractLsb' 15 5)) else .error .nonzeroReserved
  | 1 => if w.extractLsb' 10 15 = 0#15 then .ok (.hend) else .error .nonzeroReserved
  | 2 => if w.extractLsb' 20 5 = 0#5 then .ok (.anxput (w.extractLsb' 15 5) (w.extractLsb' 10 5)) else .error .nonzeroReserved
  | 3 => if w.extractLsb' 10 15 = 0#15 then .ok (.anxend) else .error .nonzeroReserved
  | _ => .error .unassigned

/-- Major 0x17 (R49, R50). -/
def decodeOrd (w : BitVec 32) : Except DecodeError Instr :=
  match (w.extractLsb' 0 10).toNat with
  | 0 => if w.extractLsb' 22 3 = 0#3 ∧ w.extractLsb' 10 10 = 0#10 then .ok (.fence (w.extractLsb' 21 1) (w.extractLsb' 20 1)) else .error .nonzeroReserved
  | 1 => if w.extractLsb' 10 15 = 0#15 then .ok (.isync) else .error .nonzeroReserved
  | _ => .error .unassigned

/-- Major 0x18 (R49, R50). -/
def decodeBk (w : BitVec 32) : Except DecodeError Instr :=
  match (w.extractLsb' 15 1).toNat with
  | 0 => if w.extractLsb' 16 4 = 0#4 then .ok (.bkany (w.extractLsb' 20 5) (w.extractLsb' 0 15)) else .error .nonzeroReserved
  | _ => if w.extractLsb' 16 4 = 0#4 then .ok (.bkall (w.extractLsb' 20 5) (w.extractLsb' 0 15)) else .error .nonzeroReserved

/-- Major 0x19 (R49, R50). -/
def decodeSreg (w : BitVec 32) : Except DecodeError Instr :=
  match (w.extractLsb' 12 3).toNat with
  | 0 => if w.extractLsb' 15 5 = 0#5 then .ok (.srrd (w.extractLsb' 20 5) (w.extractLsb' 0 12)) else .error .nonzeroReserved
  | 1 => .ok (.srwr (w.extractLsb' 20 5) (w.extractLsb' 15 5) (w.extractLsb' 0 12))
  | 2 => .ok (.srset (w.extractLsb' 20 5) (w.extractLsb' 15 5) (w.extractLsb' 0 12))
  | 3 => .ok (.srclr (w.extractLsb' 20 5) (w.extractLsb' 15 5) (w.extractLsb' 0 12))
  | _ => .error .unassigned

/-- Major 0x20 (R49, R50). -/
def decodeInt (w : BitVec 32) : Except DecodeError Instr :=
  match (w.extractLsb' 0 10).toNat with
  | 0 => .ok (.add (w.extractLsb' 20 5) (w.extractLsb' 15 5) (w.extractLsb' 10 5))
  | 1 => .ok (.sub (w.extractLsb' 20 5) (w.extractLsb' 15 5) (w.extractLsb' 10 5))
  | 2 => .ok (.and (w.extractLsb' 20 5) (w.extractLsb' 15 5) (w.extractLsb' 10 5))
  | 3 => .ok (.or (w.extractLsb' 20 5) (w.extractLsb' 15 5) (w.extractLsb' 10 5))
  | 4 => .ok (.xor (w.extractLsb' 20 5) (w.extractLsb' 15 5) (w.extractLsb' 10 5))
  | 5 => .ok (.sll (w.extractLsb' 20 5) (w.extractLsb' 15 5) (w.extractLsb' 10 5))
  | 6 => .ok (.srl (w.extractLsb' 20 5) (w.extractLsb' 15 5) (w.extractLsb' 10 5))
  | 7 => .ok (.sra (w.extractLsb' 20 5) (w.extractLsb' 15 5) (w.extractLsb' 10 5))
  | 8 => .ok (.mul (w.extractLsb' 20 5) (w.extractLsb' 15 5) (w.extractLsb' 10 5))
  | 9 => .ok (.mulh (w.extractLsb' 20 5) (w.extractLsb' 15 5) (w.extractLsb' 10 5))
  | 10 => .ok (.mulhu (w.extractLsb' 20 5) (w.extractLsb' 15 5) (w.extractLsb' 10 5))
  | 11 => .ok (.div (w.extractLsb' 20 5) (w.extractLsb' 15 5) (w.extractLsb' 10 5))
  | 12 => .ok (.divu (w.extractLsb' 20 5) (w.extractLsb' 15 5) (w.extractLsb' 10 5))
  | 13 => .ok (.rem (w.extractLsb' 20 5) (w.extractLsb' 15 5) (w.extractLsb' 10 5))
  | 14 => .ok (.remu (w.extractLsb' 20 5) (w.extractLsb' 15 5) (w.extractLsb' 10 5))
  | 15 => .ok (.min (w.extractLsb' 20 5) (w.extractLsb' 15 5) (w.extractLsb' 10 5))
  | 16 => .ok (.max (w.extractLsb' 20 5) (w.extractLsb' 15 5) (w.extractLsb' 10 5))
  | 17 => .ok (.minu (w.extractLsb' 20 5) (w.extractLsb' 15 5) (w.extractLsb' 10 5))
  | 18 => .ok (.maxu (w.extractLsb' 20 5) (w.extractLsb' 15 5) (w.extractLsb' 10 5))
  | 19 => .ok (.slt (w.extractLsb' 20 5) (w.extractLsb' 15 5) (w.extractLsb' 10 5))
  | 20 => .ok (.sltu (w.extractLsb' 20 5) (w.extractLsb' 15 5) (w.extractLsb' 10 5))
  | 21 => .ok (.sel (w.extractLsb' 20 5) (w.extractLsb' 15 5) (w.extractLsb' 10 5))
  | 22 => if w.extractLsb' 10 5 = 0#5 then .ok (.clz (w.extractLsb' 20 5) (w.extractLsb' 15 5)) else .error .nonzeroReserved
  | 23 => if w.extractLsb' 10 5 = 0#5 then .ok (.ctz (w.extractLsb' 20 5) (w.extractLsb' 15 5)) else .error .nonzeroReserved
  | 24 => if w.extractLsb' 10 5 = 0#5 then .ok (.popc (w.extractLsb' 20 5) (w.extractLsb' 15 5)) else .error .nonzeroReserved
  | _ => .error .unassigned

/-- Major 0x25 (R49, R50). -/
def decodeShi (w : BitVec 32) : Except DecodeError Instr :=
  match (w.extractLsb' 13 2).toNat with
  | 0 => if w.extractLsb' 6 7 = 0#7 then .ok (.slli (w.extractLsb' 20 5) (w.extractLsb' 15 5) (w.extractLsb' 0 6)) else .error .nonzeroReserved
  | 1 => if w.extractLsb' 6 7 = 0#7 then .ok (.srli (w.extractLsb' 20 5) (w.extractLsb' 15 5) (w.extractLsb' 0 6)) else .error .nonzeroReserved
  | 2 => if w.extractLsb' 6 7 = 0#7 then .ok (.srai (w.extractLsb' 20 5) (w.extractLsb' 15 5) (w.extractLsb' 0 6)) else .error .nonzeroReserved
  | _ => .error .unassigned

/-- Major 0x29 (R49, R50). -/
def decodeFp (w : BitVec 32) : Except DecodeError Instr :=
  match (w.extractLsb' 0 6).toNat with
  | 0 => if w.extractLsb' 6 2 = 0#2 then .ok (.fadd (w.extractLsb' 20 5) (w.extractLsb' 15 5) (w.extractLsb' 10 5) (w.extractLsb' 8 2)) else .error .nonzeroReserved
  | 1 => if w.extractLsb' 6 2 = 0#2 then .ok (.fsub (w.extractLsb' 20 5) (w.extractLsb' 15 5) (w.extractLsb' 10 5) (w.extractLsb' 8 2)) else .error .nonzeroReserved
  | 2 => if w.extractLsb' 6 2 = 0#2 then .ok (.fmul (w.extractLsb' 20 5) (w.extractLsb' 15 5) (w.extractLsb' 10 5) (w.extractLsb' 8 2)) else .error .nonzeroReserved
  | 3 => if w.extractLsb' 6 2 = 0#2 then .ok (.fdiv (w.extractLsb' 20 5) (w.extractLsb' 15 5) (w.extractLsb' 10 5) (w.extractLsb' 8 2)) else .error .nonzeroReserved
  | 4 => if w.extractLsb' 10 5 = 0#5 ∧ w.extractLsb' 6 2 = 0#2 then .ok (.fsqrt (w.extractLsb' 20 5) (w.extractLsb' 15 5) (w.extractLsb' 8 2)) else .error .nonzeroReserved
  | 5 => if w.extractLsb' 6 2 = 0#2 then .ok (.fmin (w.extractLsb' 20 5) (w.extractLsb' 15 5) (w.extractLsb' 10 5) (w.extractLsb' 8 2)) else .error .nonzeroReserved
  | 6 => if w.extractLsb' 6 2 = 0#2 then .ok (.fmax (w.extractLsb' 20 5) (w.extractLsb' 15 5) (w.extractLsb' 10 5) (w.extractLsb' 8 2)) else .error .nonzeroReserved
  | 7 => if w.extractLsb' 6 2 = 0#2 then .ok (.fma (w.extractLsb' 20 5) (w.extractLsb' 15 5) (w.extractLsb' 10 5) (w.extractLsb' 8 2)) else .error .nonzeroReserved
  | 8 => if w.extractLsb' 6 2 = 0#2 then .ok (.fcmp (w.extractLsb' 20 5) (w.extractLsb' 15 5) (w.extractLsb' 10 5) (w.extractLsb' 8 2)) else .error .nonzeroReserved
  | 9 => if w.extractLsb' 6 2 = 0#2 then .ok (.fcvt (w.extractLsb' 20 5) (w.extractLsb' 15 5) (w.extractLsb' 10 5) (w.extractLsb' 8 2)) else .error .nonzeroReserved
  | 10 => if w.extractLsb' 10 5 = 0#5 ∧ w.extractLsb' 6 2 = 0#2 then .ok (.fclass (w.extractLsb' 20 5) (w.extractLsb' 15 5) (w.extractLsb' 8 2)) else .error .nonzeroReserved
  | 11 => if w.extractLsb' 6 2 = 0#2 then .ok (.fsgn (w.extractLsb' 20 5) (w.extractLsb' 15 5) (w.extractLsb' 10 5) (w.extractLsb' 8 2)) else .error .nonzeroReserved
  | _ => .error .unassigned

/-- Major 0x2A (R49, R50). -/
def decodeVint (w : BitVec 32) : Except DecodeError Instr :=
  match (w.extractLsb' 0 6).toNat with
  | 0 => .ok (.vadd (w.extractLsb' 20 5) (w.extractLsb' 15 5) (w.extractLsb' 10 5) (w.extractLsb' 6 4))
  | 1 => .ok (.vsub (w.extractLsb' 20 5) (w.extractLsb' 15 5) (w.extractLsb' 10 5) (w.extractLsb' 6 4))
  | 2 => .ok (.vmul (w.extractLsb' 20 5) (w.extractLsb' 15 5) (w.extractLsb' 10 5) (w.extractLsb' 6 4))
  | 3 => .ok (.vmulh (w.extractLsb' 20 5) (w.extractLsb' 15 5) (w.extractLsb' 10 5) (w.extractLsb' 6 4))
  | 4 => .ok (.vmin (w.extractLsb' 20 5) (w.extractLsb' 15 5) (w.extractLsb' 10 5) (w.extractLsb' 6 4))
  | 5 => .ok (.vmax (w.extractLsb' 20 5) (w.extractLsb' 15 5) (w.extractLsb' 10 5) (w.extractLsb' 6 4))
  | 6 => .ok (.vand (w.extractLsb' 20 5) (w.extractLsb' 15 5) (w.extractLsb' 10 5) (w.extractLsb' 6 4))
  | 7 => .ok (.vor (w.extractLsb' 20 5) (w.extractLsb' 15 5) (w.extractLsb' 10 5) (w.extractLsb' 6 4))
  | 8 => .ok (.vxor (w.extractLsb' 20 5) (w.extractLsb' 15 5) (w.extractLsb' 10 5) (w.extractLsb' 6 4))
  | 9 => .ok (.vshl (w.extractLsb' 20 5) (w.extractLsb' 15 5) (w.extractLsb' 10 5) (w.extractLsb' 6 4))
  | 10 => .ok (.vshr (w.extractLsb' 20 5) (w.extractLsb' 15 5) (w.extractLsb' 10 5) (w.extractLsb' 6 4))
  | 11 => .ok (.vsra (w.extractLsb' 20 5) (w.extractLsb' 15 5) (w.extractLsb' 10 5) (w.extractLsb' 6 4))
  | 12 => if w.extractLsb' 10 5 = 0#5 then .ok (.vabs (w.extractLsb' 20 5) (w.extractLsb' 15 5) (w.extractLsb' 6 4)) else .error .nonzeroReserved
  | 13 => .ok (.vcmp (w.extractLsb' 23 2) (w.extractLsb' 20 3) (w.extractLsb' 15 5) (w.extractLsb' 10 5) (w.extractLsb' 6 4))
  | 14 => .ok (.vsel (w.extractLsb' 20 5) (w.extractLsb' 15 5) (w.extractLsb' 10 5) (w.extractLsb' 6 4))
  | 15 => .ok (.vadds (w.extractLsb' 20 5) (w.extractLsb' 15 5) (w.extractLsb' 10 5) (w.extractLsb' 6 4))
  | _ => .error .unassigned

/-- Major 0x2B (R49, R50). -/
def decodeVfp (w : BitVec 32) : Except DecodeError Instr :=
  match (w.extractLsb' 0 6).toNat with
  | 0 => .ok (.vfadd (w.extractLsb' 20 5) (w.extractLsb' 15 5) (w.extractLsb' 10 5) (w.extractLsb' 6 4))
  | 1 => .ok (.vfsub (w.extractLsb' 20 5) (w.extractLsb' 15 5) (w.extractLsb' 10 5) (w.extractLsb' 6 4))
  | 2 => .ok (.vfmul (w.extractLsb' 20 5) (w.extractLsb' 15 5) (w.extractLsb' 10 5) (w.extractLsb' 6 4))
  | 3 => .ok (.vfma (w.extractLsb' 20 5) (w.extractLsb' 15 5) (w.extractLsb' 10 5) (w.extractLsb' 6 4))
  | 4 => .ok (.vfmin (w.extractLsb' 20 5) (w.extractLsb' 15 5) (w.extractLsb' 10 5) (w.extractLsb' 6 4))
  | 5 => .ok (.vfmax (w.extractLsb' 20 5) (w.extractLsb' 15 5) (w.extractLsb' 10 5) (w.extractLsb' 6 4))
  | 6 => .ok (.vfcmp (w.extractLsb' 23 2) (w.extractLsb' 20 3) (w.extractLsb' 15 5) (w.extractLsb' 10 5) (w.extractLsb' 6 4))
  | 7 => if w.extractLsb' 10 5 = 0#5 then .ok (.vfabs (w.extractLsb' 20 5) (w.extractLsb' 15 5) (w.extractLsb' 6 4)) else .error .nonzeroReserved
  | 8 => .ok (.vfdot (w.extractLsb' 20 5) (w.extractLsb' 15 5) (w.extractLsb' 10 5) (w.extractLsb' 6 4))
  | _ => .error .unassigned

/-- Major 0x2C (R49, R50). -/
def decodeVcvt (w : BitVec 32) : Except DecodeError Instr :=
  match (w.extractLsb' 0 6).toNat with
  | 0 => .ok (.vcvt (w.extractLsb' 20 5) (w.extractLsb' 15 5) (w.extractLsb' 14 1) (w.extractLsb' 10 4) (w.extractLsb' 6 4))
  | 1 => .ok (.vquant (w.extractLsb' 20 5) (w.extractLsb' 15 5) (w.extractLsb' 14 1) (w.extractLsb' 10 4) (w.extractLsb' 6 4))
  | 2 => .ok (.vdeq (w.extractLsb' 20 5) (w.extractLsb' 15 5) (w.extractLsb' 14 1) (w.extractLsb' 10 4) (w.extractLsb' 6 4))
  | _ => .error .unassigned

/-- Major 0x2D (R49, R50). -/
def decodeVperm (w : BitVec 32) : Except DecodeError Instr :=
  match (w.extractLsb' 0 6).toNat with
  | 0 => .ok (.vbcast (w.extractLsb' 20 5) (w.extractLsb' 15 5) (w.extractLsb' 10 5) (w.extractLsb' 6 4))
  | 1 => .ok (.vperm (w.extractLsb' 20 5) (w.extractLsb' 15 5) (w.extractLsb' 10 5) (w.extractLsb' 6 4))
  | 2 => .ok (.vslide (w.extractLsb' 20 5) (w.extractLsb' 15 5) (w.extractLsb' 10 5) (w.extractLsb' 6 4))
  | 3 => if w.extractLsb' 10 5 = 0#5 then .ok (.viota (w.extractLsb' 20 5) (w.extractLsb' 15 5) (w.extractLsb' 6 4)) else .error .nonzeroReserved
  | 4 => if w.extractLsb' 10 5 = 0#5 then .ok (.vcompress (w.extractLsb' 20 5) (w.extractLsb' 15 5) (w.extractLsb' 6 4)) else .error .nonzeroReserved
  | 5 => if w.extractLsb' 10 5 = 0#5 then .ok (.vexpand (w.extractLsb' 20 5) (w.extractLsb' 15 5) (w.extractLsb' 6 4)) else .error .nonzeroReserved
  | 6 => .ok (.vred (w.extractLsb' 20 5) (w.extractLsb' 15 5) (w.extractLsb' 10 5) (w.extractLsb' 6 4))
  | 7 => .ok (.vscan (w.extractLsb' 20 5) (w.extractLsb' 15 5) (w.extractLsb' 10 5) (w.extractLsb' 6 4))
  | 8 => if w.extractLsb' 23 2 = 0#2 then .ok (.vtopk (w.extractLsb' 20 3) (w.extractLsb' 15 5) (w.extractLsb' 10 5) (w.extractLsb' 6 4)) else .error .nonzeroReserved
  | 9 => .ok (.vzip (w.extractLsb' 20 5) (w.extractLsb' 15 5) (w.extractLsb' 10 5) (w.extractLsb' 6 4))
  | _ => .error .unassigned

/-- Major 0x2E (R49, R50). -/
def decodeVsfu (w : BitVec 32) : Except DecodeError Instr :=
  match (w.extractLsb' 0 6).toNat with
  | 0 => if w.extractLsb' 10 5 = 0#5 then .ok (.vexp2 (w.extractLsb' 20 5) (w.extractLsb' 15 5) (w.extractLsb' 6 4)) else .error .nonzeroReserved
  | 1 => if w.extractLsb' 10 5 = 0#5 then .ok (.vlog2 (w.extractLsb' 20 5) (w.extractLsb' 15 5) (w.extractLsb' 6 4)) else .error .nonzeroReserved
  | 2 => if w.extractLsb' 10 5 = 0#5 then .ok (.vrcp (w.extractLsb' 20 5) (w.extractLsb' 15 5) (w.extractLsb' 6 4)) else .error .nonzeroReserved
  | 3 => if w.extractLsb' 10 5 = 0#5 then .ok (.vrsqrt (w.extractLsb' 20 5) (w.extractLsb' 15 5) (w.extractLsb' 6 4)) else .error .nonzeroReserved
  | 4 => if w.extractLsb' 10 5 = 0#5 then .ok (.vsin (w.extractLsb' 20 5) (w.extractLsb' 15 5) (w.extractLsb' 6 4)) else .error .nonzeroReserved
  | 5 => if w.extractLsb' 10 5 = 0#5 then .ok (.vtanh (w.extractLsb' 20 5) (w.extractLsb' 15 5) (w.extractLsb' 6 4)) else .error .nonzeroReserved
  | 6 => if w.extractLsb' 10 5 = 0#5 then .ok (.vsigm (w.extractLsb' 20 5) (w.extractLsb' 15 5) (w.extractLsb' 6 4)) else .error .nonzeroReserved
  | _ => .error .unassigned

/-- Major 0x2F (R49, R50). -/
def decodeMask (w : BitVec 32) : Except DecodeError Instr :=
  match (w.extractLsb' 0 6).toNat with
  | 0 => if w.extractLsb' 6 4 = 0#4 then .ok (.kand (w.extractLsb' 20 5) (w.extractLsb' 15 5) (w.extractLsb' 10 5)) else .error .nonzeroReserved
  | 1 => if w.extractLsb' 6 4 = 0#4 then .ok (.kor (w.extractLsb' 20 5) (w.extractLsb' 15 5) (w.extractLsb' 10 5)) else .error .nonzeroReserved
  | 2 => if w.extractLsb' 6 4 = 0#4 then .ok (.kxor (w.extractLsb' 20 5) (w.extractLsb' 15 5) (w.extractLsb' 10 5)) else .error .nonzeroReserved
  | 3 => if w.extractLsb' 6 9 = 0#9 then .ok (.knot (w.extractLsb' 20 5) (w.extractLsb' 15 5)) else .error .nonzeroReserved
  | 4 => if w.extractLsb' 6 9 = 0#9 then .ok (.kpopc (w.extractLsb' 20 5) (w.extractLsb' 15 5)) else .error .nonzeroReserved
  | 5 => if w.extractLsb' 6 9 = 0#9 then .ok (.kfirst (w.extractLsb' 20 5) (w.extractLsb' 15 5)) else .error .nonzeroReserved
  | 6 => if w.extractLsb' 6 4 = 0#4 then .ok (.kmov (w.extractLsb' 20 5) (w.extractLsb' 15 5) (w.extractLsb' 10 5)) else .error .nonzeroReserved
  | _ => .error .unassigned

/-- Major 0x30 (R49, R50). -/
def decodeVmov (w : BitVec 32) : Except DecodeError Instr :=
  match (w.extractLsb' 0 6).toNat with
  | 0 => if w.extractLsb' 10 5 = 0#5 then .ok (.vmvx (w.extractLsb' 20 5) (w.extractLsb' 15 5) (w.extractLsb' 6 4)) else .error .nonzeroReserved
  | 1 => .ok (.vmvs (w.extractLsb' 20 5) (w.extractLsb' 15 5) (w.extractLsb' 10 5) (w.extractLsb' 6 4))
  | 2 => if w.extractLsb' 10 5 = 0#5 then .ok (.vmov (w.extractLsb' 20 5) (w.extractLsb' 15 5) (w.extractLsb' 6 4)) else .error .nonzeroReserved
  | _ => .error .unassigned

/-- Major 0x31 (R49, R50). -/
def decodeTrel (w : BitVec 32) : Except DecodeError Instr :=
  match (w.extractLsb' 0 6).toNat with
  | 0 => if w.extractLsb' 15 1 = 1#1 then (if w.extractLsb' 17 7 = 0#7 ∧ w.extractLsb' 10 6 = 32#6 then .ok (.tmodeOn (w.extractLsb' 24 1) (w.extractLsb' 16 1) (w.extractLsb' 6 4)) else .error .nonzeroReserved) else if w.extractLsb' 6 19 = 0#19 then .ok (.tmodeOff) else .error .nonzeroReserved
  | 1 => if w.extractLsb' 6 18 = 0#18 then .ok (.tzero (w.extractLsb' 24 1)) else .error .nonzeroReserved
  | 2 => if w.extractLsb' 20 4 = 0#4 then .ok (.top (w.extractLsb' 24 1) (w.extractLsb' 15 5) (w.extractLsb' 10 5) (w.extractLsb' 6 4)) else .error .nonzeroReserved
  | 3 => .ok (.tops (w.extractLsb' 24 1) (w.extractLsb' 20 4) (w.extractLsb' 15 5) (w.extractLsb' 10 5) (w.extractLsb' 6 4))
  | 4 => if w.extractLsb' 20 4 = 0#4 ∧ w.extractLsb' 6 9 = 14#9 then .ok (.trowst (w.extractLsb' 24 1) (w.extractLsb' 15 5)) else .error .nonzeroReserved
  | _ => .error .unassigned

/-- The fields of a word, before the checks of its operands. -/
def decodeFields (w : BitVec 32) : Except DecodeError Instr :=
  match (w.extractLsb' 25 6).toNat with
  | 0 => decodeSys w
  | 1 => .ok (.beq (w.extractLsb' 20 5) (w.extractLsb' 15 5) (w.extractLsb' 0 15))
  | 2 => .ok (.bne (w.extractLsb' 20 5) (w.extractLsb' 15 5) (w.extractLsb' 0 15))
  | 3 => .ok (.blt (w.extractLsb' 20 5) (w.extractLsb' 15 5) (w.extractLsb' 0 15))
  | 4 => .ok (.bge (w.extractLsb' 20 5) (w.extractLsb' 15 5) (w.extractLsb' 0 15))
  | 5 => .ok (.bltu (w.extractLsb' 20 5) (w.extractLsb' 15 5) (w.extractLsb' 0 15))
  | 6 => .ok (.bgeu (w.extractLsb' 20 5) (w.extractLsb' 15 5) (w.extractLsb' 0 15))
  | 7 => .ok (.jal (w.extractLsb' 20 5) (w.extractLsb' 0 20))
  | 8 => .ok (.jalr (w.extractLsb' 20 5) (w.extractLsb' 15 5) (w.extractLsb' 0 15))
  | 9 => decodeTask w
  | 10 => decodeBarr w
  | 11 => decodeLd w
  | 12 => decodeSt w
  | 13 => decodeAtom w
  | 14 => decodeVmem w
  | 15 => decodeLld w
  | 16 => decodeLst w
  | 17 => decodeLvec w
  | 18 => decodeCopy w
  | 19 => decodeStrm w
  | 20 => decodeRing w
  | 21 => decodeLaw w
  | 22 => decodeMsg w
  | 23 => decodeOrd w
  | 24 => decodeBk w
  | 25 => decodeSreg w
  | 30 => if w.extractLsb' 0 13 = 0#13 then .ok (.vx (w.extractLsb' 22 3) (w.extractLsb' 21 1) (w.extractLsb' 18 3) (w.extractLsb' 13 5)) else .error .nonzeroReserved
  | 31 => if w.extractLsb' 0 13 = 0#13 then .ok (.rep (w.extractLsb' 19 6) (w.extractLsb' 17 2) (w.extractLsb' 15 2) (w.extractLsb' 13 2)) else .error .nonzeroReserved
  | 32 => decodeInt w
  | 33 => .ok (.addi (w.extractLsb' 20 5) (w.extractLsb' 15 5) (w.extractLsb' 0 15))
  | 34 => .ok (.andi (w.extractLsb' 20 5) (w.extractLsb' 15 5) (w.extractLsb' 0 15))
  | 35 => .ok (.ori (w.extractLsb' 20 5) (w.extractLsb' 15 5) (w.extractLsb' 0 15))
  | 36 => .ok (.xori (w.extractLsb' 20 5) (w.extractLsb' 15 5) (w.extractLsb' 0 15))
  | 37 => decodeShi w
  | 38 => .ok (.slti (w.extractLsb' 20 5) (w.extractLsb' 15 5) (w.extractLsb' 0 15))
  | 39 => .ok (.sltiu (w.extractLsb' 20 5) (w.extractLsb' 15 5) (w.extractLsb' 0 15))
  | 40 => .ok (.lui (w.extractLsb' 20 5) (w.extractLsb' 0 20))
  | 41 => decodeFp w
  | 42 => decodeVint w
  | 43 => decodeVfp w
  | 44 => decodeVcvt w
  | 45 => decodeVperm w
  | 46 => decodeVsfu w
  | 47 => decodeMask w
  | 48 => decodeVmov w
  | 49 => decodeTrel w
  | _ => .error .reservedMajor


/-- The lone bit that an instruction needs: 0 for a prefix (R27), 1 for TRET (R372), either for the others. -/
def loneBitOk (l : BitVec 1) : Instr → Bool
  | .vx .. | .rep .. => l == 0#1
  | .tret => l == 1#1
  | _ => true

/-- Decode one word. The lone bit must be 0 for the prefixes and 1 for TRET; otherwise it belongs to the framing. -/
def decodeWord (w : BitVec 32) : Except DecodeError Instr :=
  match decodeFields w with
  | .error e => .error e
  | .ok i =>
    if i.wellFormed = false then .error .operand
    else if loneBitOk (w.extractLsb' 31 1) i = false then .error .loneBit
    else .ok i

/-- The word of an instruction, from the encoding rows of R34 and the entries; `l` is the lone bit, which the two
prefixes (always 0) and TRET (always 1) fix. A step of another agent has no word. -/
def encode (l : BitVec 1) : Instr → Option (BitVec 32)
  | .syscall => some (l ++ 0#31)
  | .tret => some (2147483649#32)
  | .wfi => some (l ++ 2#31)
  | .pair d => some (l ++ 0#6 ++ d ++ 3#20)
  | .unpair d => some (l ++ 0#6 ++ d ++ 4#20)
  | .tlbinv a b => some (l ++ 0#11 ++ a ++ b ++ 5#10)
  | .seedset a => some (l ++ 0#11 ++ a ++ 6#15)
  | .cflush a b => some (l ++ 0#11 ++ a ++ b ++ 7#10)
  | .beq a b o => some (l ++ 1#6 ++ a ++ b ++ o)
  | .bne a b o => some (l ++ 2#6 ++ a ++ b ++ o)
  | .blt a b o => some (l ++ 3#6 ++ a ++ b ++ o)
  | .bge a b o => some (l ++ 4#6 ++ a ++ b ++ o)
  | .bltu a b o => some (l ++ 5#6 ++ a ++ b ++ o)
  | .bgeu a b o => some (l ++ 6#6 ++ a ++ b ++ o)
  | .jal d i => some (l ++ 7#6 ++ d ++ i)
  | .jalr d a i => some (l ++ 8#6 ++ d ++ a ++ i)
  | .fork d a b => some (l ++ 9#6 ++ d ++ a ++ b ++ 0#10)
  | .join a => some (l ++ 288#11 ++ a ++ 1#15)
  | .tdone => some (l ++ 301989890#31)
  | .yield => some (l ++ 301989891#31)
  | .hbeat => some (l ++ 301989892#31)
  | .wfe d b => some (l ++ 9#6 ++ d ++ 0#5 ++ b ++ 5#10)
  | .sev a => some (l ++ 288#11 ++ a ++ 6#15)
  | .binit a b => some (l ++ 320#11 ++ a ++ b ++ 0#10)
  | .barrive d a => some (l ++ 10#6 ++ d ++ a ++ 1#15)
  | .bwait d a b => some (l ++ 10#6 ++ d ++ a ++ b ++ 2#10)
  | .bsync a => some (l ++ 320#11 ++ a ++ 3#15)
  | .bcomb d a b => some (l ++ 10#6 ++ d ++ a ++ b ++ 4#10)
  | .bswap a => some (l ++ 320#11 ++ a ++ 5#15)
  | .bquery d a => some (l ++ 10#6 ++ d ++ a ++ 6#15)
  | .ldB d a o => some (l ++ 11#6 ++ d ++ a ++ 0#3 ++ o)
  | .ldBu d a o => some (l ++ 11#6 ++ d ++ a ++ 1#3 ++ o)
  | .ldH d a o => some (l ++ 11#6 ++ d ++ a ++ 2#3 ++ o)
  | .ldHu d a o => some (l ++ 11#6 ++ d ++ a ++ 3#3 ++ o)
  | .ldW d a o => some (l ++ 11#6 ++ d ++ a ++ 4#3 ++ o)
  | .ldWu d a o => some (l ++ 11#6 ++ d ++ a ++ 5#3 ++ o)
  | .ldD d a o => some (l ++ 11#6 ++ d ++ a ++ 6#3 ++ o)
  | .ldQ d a o => some (l ++ 11#6 ++ d ++ a ++ 7#3 ++ o)
  | .stB d a o => some (l ++ 12#6 ++ d ++ a ++ 0#3 ++ o)
  | .stH d a o => some (l ++ 12#6 ++ d ++ a ++ 2#3 ++ o)
  | .stW d a o => some (l ++ 12#6 ++ d ++ a ++ 4#3 ++ o)
  | .stD d a o => some (l ++ 12#6 ++ d ++ a ++ 6#3 ++ o)
  | .stQ d a o => some (l ++ 12#6 ++ d ++ a ++ 7#3 ++ o)
  | .amoadd d a b s => some (l ++ 13#6 ++ d ++ a ++ b ++ s ++ 0#8)
  | .amoand d a b s => some (l ++ 13#6 ++ d ++ a ++ b ++ s ++ 1#8)
  | .amoor d a b s => some (l ++ 13#6 ++ d ++ a ++ b ++ s ++ 2#8)
  | .amoxor d a b s => some (l ++ 13#6 ++ d ++ a ++ b ++ s ++ 3#8)
  | .amomin d a b s => some (l ++ 13#6 ++ d ++ a ++ b ++ s ++ 4#8)
  | .amomax d a b s => some (l ++ 13#6 ++ d ++ a ++ b ++ s ++ 5#8)
  | .amominu d a b s => some (l ++ 13#6 ++ d ++ a ++ b ++ s ++ 6#8)
  | .amomaxu d a b s => some (l ++ 13#6 ++ d ++ a ++ b ++ s ++ 7#8)
  | .amoswap d a b s => some (l ++ 13#6 ++ d ++ a ++ b ++ s ++ 8#8)
  | .amofadd d a b s => some (l ++ 13#6 ++ d ++ a ++ b ++ s ++ 9#8)
  | .cas d a b s => some (l ++ 13#6 ++ d ++ a ++ b ++ s ++ 10#8)
  | .cas2 d a b => some (l ++ 13#6 ++ d ++ a ++ b ++ 523#10)
  | .amoz d a b s => some (l ++ 13#6 ++ d ++ a ++ b ++ s ++ 12#8)
  | .vld d a r g n => some (l ++ 14#6 ++ d ++ a ++ 0#5 ++ r ++ g ++ n ++ 0#7)
  | .vst d a n => some (l ++ 14#6 ++ d ++ a ++ 0#7 ++ n ++ 1#7)
  | .vlds d a b r g n => some (l ++ 14#6 ++ d ++ a ++ b ++ r ++ g ++ n ++ 2#7)
  | .vsts d a b n => some (l ++ 14#6 ++ d ++ a ++ b ++ 0#2 ++ n ++ 3#7)
  | .vgath d a b g n => some (l ++ 14#6 ++ d ++ a ++ b ++ 0#1 ++ g ++ n ++ 4#7)
  | .vscat d a b n => some (l ++ 14#6 ++ d ++ a ++ b ++ 0#2 ++ n ++ 5#7)
  | .vldp d a b r g n => some (l ++ 14#6 ++ d ++ a ++ b ++ r ++ g ++ n ++ 6#7)
  | .vstp d a b n => some (l ++ 14#6 ++ d ++ a ++ b ++ 0#2 ++ n ++ 7#7)
  | .pref a r g => some (l ++ 448#11 ++ a ++ 0#5 ++ r ++ g ++ 8#8)
  | .czero a b => some (l ++ 448#11 ++ a ++ b ++ 9#10)
  | .lld d a s o => some (l ++ 15#6 ++ d ++ a ++ s ++ 0#2 ++ o)
  | .lldWf d a s o => some (l ++ 15#6 ++ d ++ a ++ s ++ 1#2 ++ o)
  | .lldWfc d a s o => some (l ++ 15#6 ++ d ++ a ++ s ++ 2#2 ++ o)
  | .lst d a s o => some (l ++ 16#6 ++ d ++ a ++ s ++ 0#2 ++ o)
  | .lstSf d a s o => some (l ++ 16#6 ++ d ++ a ++ s ++ 1#2 ++ o)
  | .lstWesf d a s o => some (l ++ 16#6 ++ d ++ a ++ s ++ 2#2 ++ o)
  | .vlld d a q => some (l ++ 17#6 ++ d ++ a ++ q ++ 0#10)
  | .vlst d a q => some (l ++ 17#6 ++ d ++ a ++ q ++ 1#10)
  | .lgath d a b => some (l ++ 17#6 ++ d ++ a ++ b ++ 2#10)
  | .xst d a => some (l ++ 17#6 ++ d ++ a ++ 3#15)
  | .vxst d a => some (l ++ 17#6 ++ d ++ a ++ 4#15)
  | .lamoadd d a b => some (l ++ 17#6 ++ d ++ a ++ b ++ 5#10)
  | .lcas d a b => some (l ++ 17#6 ++ d ++ a ++ b ++ 6#10)
  | .copy d a => some (l ++ 18#6 ++ d ++ a ++ 0#15)
  | .copy2d d a => some (l ++ 18#6 ++ d ++ a ++ 1#15)
  | .cstat d a => some (l ++ 18#6 ++ d ++ a ++ 2#15)
  | .fewait a b => some (l ++ 576#11 ++ a ++ b ++ 3#10)
  | .feset a b => some (l ++ 576#11 ++ a ++ b ++ 4#10)
  | .feclr a b => some (l ++ 576#11 ++ a ++ b ++ 5#10)
  | .subs d a => some (l ++ 18#6 ++ d ++ a ++ 6#15)
  | .unsubs d a => some (l ++ 18#6 ++ d ++ a ++ 7#15)
  | .sopen a b => some (l ++ 608#11 ++ a ++ b ++ 0#10)
  | .spop d a => some (l ++ 19#6 ++ d ++ a ++ 1#15)
  | .vspop d a => some (l ++ 19#6 ++ d ++ a ++ 2#15)
  | .sadv a b => some (l ++ 608#11 ++ a ++ b ++ 3#10)
  | .stend d a => some (l ++ 19#6 ++ d ++ a ++ 4#15)
  | .sfib d a => some (l ++ 19#6 ++ d ++ a ++ 5#15)
  | .sclose a => some (l ++ 608#11 ++ a ++ 6#15)
  | .rtick d a => some (l ++ 20#6 ++ d ++ a ++ 0#15)
  | .rput d a b => some (l ++ 20#6 ++ d ++ a ++ b ++ 1#10)
  | .rtake d a => some (l ++ 20#6 ++ d ++ a ++ 2#15)
  | .rrel d a => some (l ++ 20#6 ++ d ++ a ++ 3#15)
  | .kroute d a b => some (l ++ 20#6 ++ d ++ a ++ b ++ 4#10)
  | .lwrd d a => some (l ++ 21#6 ++ d ++ a ++ 0#15)
  | .lwrdx d a => some (l ++ 21#6 ++ d ++ a ++ 1#15)
  | .lwpeek d a => some (l ++ 21#6 ++ d ++ a ++ 2#15)
  | .lwadd d a b => some (l ++ 21#6 ++ d ++ a ++ b ++ 3#10)
  | .lwset d a b => some (l ++ 21#6 ++ d ++ a ++ b ++ 4#10)
  | .lwinit d a b => some (l ++ 21#6 ++ d ++ a ++ b ++ 5#10)
  | .lwdep a b => some (l ++ 672#11 ++ a ++ b ++ 6#10)
  | .lwnow d a => some (l ++ 21#6 ++ d ++ a ++ 7#15)
  | .lwstep d a b => some (l ++ 21#6 ++ d ++ a ++ b ++ 8#10)
  | .lwsweep d a b => some (l ++ 21#6 ++ d ++ a ++ b ++ 9#10)
  | .msend d a => some (l ++ 22#6 ++ d ++ a ++ 0#15)
  | .hend => some (l ++ 738197505#31)
  | .anxput a b => some (l ++ 704#11 ++ a ++ b ++ 2#10)
  | .anxend => some (l ++ 738197507#31)
  | .fence s c => some (l ++ 184#9 ++ s ++ c ++ 0#20)
  | .isync => some (l ++ 771751937#31)
  | .bkany a o => some (l ++ 24#6 ++ a ++ 0#5 ++ o)
  | .bkall a o => some (l ++ 24#6 ++ a ++ 1#5 ++ o)
  | .srrd d n => some (l ++ 25#6 ++ d ++ 0#8 ++ n)
  | .srwr d a n => some (l ++ 25#6 ++ d ++ a ++ 1#3 ++ n)
  | .srset d a n => some (l ++ 25#6 ++ d ++ a ++ 2#3 ++ n)
  | .srclr d a n => some (l ++ 25#6 ++ d ++ a ++ 3#3 ++ n)
  | .vx k z m c => some (30#7 ++ k ++ z ++ m ++ c ++ 0#13)
  | .rep n d a b => some (31#7 ++ n ++ d ++ a ++ b ++ 0#13)
  | .add d a b => some (l ++ 32#6 ++ d ++ a ++ b ++ 0#10)
  | .sub d a b => some (l ++ 32#6 ++ d ++ a ++ b ++ 1#10)
  | .and d a b => some (l ++ 32#6 ++ d ++ a ++ b ++ 2#10)
  | .or d a b => some (l ++ 32#6 ++ d ++ a ++ b ++ 3#10)
  | .xor d a b => some (l ++ 32#6 ++ d ++ a ++ b ++ 4#10)
  | .sll d a b => some (l ++ 32#6 ++ d ++ a ++ b ++ 5#10)
  | .srl d a b => some (l ++ 32#6 ++ d ++ a ++ b ++ 6#10)
  | .sra d a b => some (l ++ 32#6 ++ d ++ a ++ b ++ 7#10)
  | .mul d a b => some (l ++ 32#6 ++ d ++ a ++ b ++ 8#10)
  | .mulh d a b => some (l ++ 32#6 ++ d ++ a ++ b ++ 9#10)
  | .mulhu d a b => some (l ++ 32#6 ++ d ++ a ++ b ++ 10#10)
  | .div d a b => some (l ++ 32#6 ++ d ++ a ++ b ++ 11#10)
  | .divu d a b => some (l ++ 32#6 ++ d ++ a ++ b ++ 12#10)
  | .rem d a b => some (l ++ 32#6 ++ d ++ a ++ b ++ 13#10)
  | .remu d a b => some (l ++ 32#6 ++ d ++ a ++ b ++ 14#10)
  | .min d a b => some (l ++ 32#6 ++ d ++ a ++ b ++ 15#10)
  | .max d a b => some (l ++ 32#6 ++ d ++ a ++ b ++ 16#10)
  | .minu d a b => some (l ++ 32#6 ++ d ++ a ++ b ++ 17#10)
  | .maxu d a b => some (l ++ 32#6 ++ d ++ a ++ b ++ 18#10)
  | .slt d a b => some (l ++ 32#6 ++ d ++ a ++ b ++ 19#10)
  | .sltu d a b => some (l ++ 32#6 ++ d ++ a ++ b ++ 20#10)
  | .sel d a b => some (l ++ 32#6 ++ d ++ a ++ b ++ 21#10)
  | .clz d a => some (l ++ 32#6 ++ d ++ a ++ 22#15)
  | .ctz d a => some (l ++ 32#6 ++ d ++ a ++ 23#15)
  | .popc d a => some (l ++ 32#6 ++ d ++ a ++ 24#15)
  | .addi d a i => some (l ++ 33#6 ++ d ++ a ++ i)
  | .andi d a i => some (l ++ 34#6 ++ d ++ a ++ i)
  | .ori d a i => some (l ++ 35#6 ++ d ++ a ++ i)
  | .xori d a i => some (l ++ 36#6 ++ d ++ a ++ i)
  | .slli d a n => some (l ++ 37#6 ++ d ++ a ++ 0#9 ++ n)
  | .srli d a n => some (l ++ 37#6 ++ d ++ a ++ 128#9 ++ n)
  | .srai d a n => some (l ++ 37#6 ++ d ++ a ++ 256#9 ++ n)
  | .slti d a i => some (l ++ 38#6 ++ d ++ a ++ i)
  | .sltiu d a i => some (l ++ 39#6 ++ d ++ a ++ i)
  | .lui d i => some (l ++ 40#6 ++ d ++ i)
  | .fadd d a b p => some (l ++ 41#6 ++ d ++ a ++ b ++ p ++ 0#8)
  | .fsub d a b p => some (l ++ 41#6 ++ d ++ a ++ b ++ p ++ 1#8)
  | .fmul d a b p => some (l ++ 41#6 ++ d ++ a ++ b ++ p ++ 2#8)
  | .fdiv d a b p => some (l ++ 41#6 ++ d ++ a ++ b ++ p ++ 3#8)
  | .fsqrt d a p => some (l ++ 41#6 ++ d ++ a ++ 0#5 ++ p ++ 4#8)
  | .fmin d a b p => some (l ++ 41#6 ++ d ++ a ++ b ++ p ++ 5#8)
  | .fmax d a b p => some (l ++ 41#6 ++ d ++ a ++ b ++ p ++ 6#8)
  | .fma d a b p => some (l ++ 41#6 ++ d ++ a ++ b ++ p ++ 7#8)
  | .fcmp d a b p => some (l ++ 41#6 ++ d ++ a ++ b ++ p ++ 8#8)
  | .fcvt d a k p => some (l ++ 41#6 ++ d ++ a ++ k ++ p ++ 9#8)
  | .fclass d a p => some (l ++ 41#6 ++ d ++ a ++ 0#5 ++ p ++ 10#8)
  | .fsgn d a b p => some (l ++ 41#6 ++ d ++ a ++ b ++ p ++ 11#8)
  | .vadd d a b t => some (l ++ 42#6 ++ d ++ a ++ b ++ t ++ 0#6)
  | .vsub d a b t => some (l ++ 42#6 ++ d ++ a ++ b ++ t ++ 1#6)
  | .vmul d a b t => some (l ++ 42#6 ++ d ++ a ++ b ++ t ++ 2#6)
  | .vmulh d a b t => some (l ++ 42#6 ++ d ++ a ++ b ++ t ++ 3#6)
  | .vmin d a b t => some (l ++ 42#6 ++ d ++ a ++ b ++ t ++ 4#6)
  | .vmax d a b t => some (l ++ 42#6 ++ d ++ a ++ b ++ t ++ 5#6)
  | .vand d a b t => some (l ++ 42#6 ++ d ++ a ++ b ++ t ++ 6#6)
  | .vor d a b t => some (l ++ 42#6 ++ d ++ a ++ b ++ t ++ 7#6)
  | .vxor d a b t => some (l ++ 42#6 ++ d ++ a ++ b ++ t ++ 8#6)
  | .vshl d a b t => some (l ++ 42#6 ++ d ++ a ++ b ++ t ++ 9#6)
  | .vshr d a b t => some (l ++ 42#6 ++ d ++ a ++ b ++ t ++ 10#6)
  | .vsra d a b t => some (l ++ 42#6 ++ d ++ a ++ b ++ t ++ 11#6)
  | .vabs d a t => some (l ++ 42#6 ++ d ++ a ++ 0#5 ++ t ++ 12#6)
  | .vcmp c k a b t => some (l ++ 42#6 ++ c ++ k ++ a ++ b ++ t ++ 13#6)
  | .vsel d a b t => some (l ++ 42#6 ++ d ++ a ++ b ++ t ++ 14#6)
  | .vadds d a b t => some (l ++ 42#6 ++ d ++ a ++ b ++ t ++ 15#6)
  | .vfadd d a b t => some (l ++ 43#6 ++ d ++ a ++ b ++ t ++ 0#6)
  | .vfsub d a b t => some (l ++ 43#6 ++ d ++ a ++ b ++ t ++ 1#6)
  | .vfmul d a b t => some (l ++ 43#6 ++ d ++ a ++ b ++ t ++ 2#6)
  | .vfma d a b t => some (l ++ 43#6 ++ d ++ a ++ b ++ t ++ 3#6)
  | .vfmin d a b t => some (l ++ 43#6 ++ d ++ a ++ b ++ t ++ 4#6)
  | .vfmax d a b t => some (l ++ 43#6 ++ d ++ a ++ b ++ t ++ 5#6)
  | .vfcmp c k a b t => some (l ++ 43#6 ++ c ++ k ++ a ++ b ++ t ++ 6#6)
  | .vfabs d a t => some (l ++ 43#6 ++ d ++ a ++ 0#5 ++ t ++ 7#6)
  | .vfdot d a b t => some (l ++ 43#6 ++ d ++ a ++ b ++ t ++ 8#6)
  | .vcvt d a x e t => some (l ++ 44#6 ++ d ++ a ++ x ++ e ++ t ++ 0#6)
  | .vquant d a x e t => some (l ++ 44#6 ++ d ++ a ++ x ++ e ++ t ++ 1#6)
  | .vdeq d a x e t => some (l ++ 44#6 ++ d ++ a ++ x ++ e ++ t ++ 2#6)
  | .vbcast d a b t => some (l ++ 45#6 ++ d ++ a ++ b ++ t ++ 0#6)
  | .vperm d a b t => some (l ++ 45#6 ++ d ++ a ++ b ++ t ++ 1#6)
  | .vslide d a b t => some (l ++ 45#6 ++ d ++ a ++ b ++ t ++ 2#6)
  | .viota d a t => some (l ++ 45#6 ++ d ++ a ++ 0#5 ++ t ++ 3#6)
  | .vcompress d a t => some (l ++ 45#6 ++ d ++ a ++ 0#5 ++ t ++ 4#6)
  | .vexpand d a t => some (l ++ 45#6 ++ d ++ a ++ 0#5 ++ t ++ 5#6)
  | .vred d a o t => some (l ++ 45#6 ++ d ++ a ++ o ++ t ++ 6#6)
  | .vscan d a o t => some (l ++ 45#6 ++ d ++ a ++ o ++ t ++ 7#6)
  | .vtopk k a b t => some (l ++ 180#8 ++ k ++ a ++ b ++ t ++ 8#6)
  | .vzip d a b t => some (l ++ 45#6 ++ d ++ a ++ b ++ t ++ 9#6)
  | .vexp2 d a t => some (l ++ 46#6 ++ d ++ a ++ 0#5 ++ t ++ 0#6)
  | .vlog2 d a t => some (l ++ 46#6 ++ d ++ a ++ 0#5 ++ t ++ 1#6)
  | .vrcp d a t => some (l ++ 46#6 ++ d ++ a ++ 0#5 ++ t ++ 2#6)
  | .vrsqrt d a t => some (l ++ 46#6 ++ d ++ a ++ 0#5 ++ t ++ 3#6)
  | .vsin d a t => some (l ++ 46#6 ++ d ++ a ++ 0#5 ++ t ++ 4#6)
  | .vtanh d a t => some (l ++ 46#6 ++ d ++ a ++ 0#5 ++ t ++ 5#6)
  | .vsigm d a t => some (l ++ 46#6 ++ d ++ a ++ 0#5 ++ t ++ 6#6)
  | .kand d a b => some (l ++ 47#6 ++ d ++ a ++ b ++ 0#10)
  | .kor d a b => some (l ++ 47#6 ++ d ++ a ++ b ++ 1#10)
  | .kxor d a b => some (l ++ 47#6 ++ d ++ a ++ b ++ 2#10)
  | .knot d a => some (l ++ 47#6 ++ d ++ a ++ 3#15)
  | .kpopc d a => some (l ++ 47#6 ++ d ++ a ++ 4#15)
  | .kfirst d a => some (l ++ 47#6 ++ d ++ a ++ 5#15)
  | .kmov d a v => some (l ++ 47#6 ++ d ++ a ++ v ++ 6#10)
  | .vmvx d a t => some (l ++ 48#6 ++ d ++ a ++ 0#5 ++ t ++ 0#6)
  | .vmvs d a b t => some (l ++ 48#6 ++ d ++ a ++ b ++ t ++ 1#6)
  | .vmov d a t => some (l ++ 48#6 ++ d ++ a ++ 0#5 ++ t ++ 2#6)
  | .tmodeOn n k t => some (l ++ 49#6 ++ n ++ 0#7 ++ k ++ 32#6 ++ t ++ 0#6)
  | .tmodeOff => some (l ++ 1644167168#31)
  | .tzero t => some (l ++ 49#6 ++ t ++ 1#24)
  | .top t a b y => some (l ++ 49#6 ++ t ++ 0#4 ++ a ++ b ++ y ++ 2#6)
  | .tops t s a b y => some (l ++ 49#6 ++ t ++ s ++ a ++ b ++ y ++ 3#6)
  | .trowst t d => some (l ++ 49#6 ++ t ++ 0#4 ++ d ++ 900#15)
  | .loadReply | .storeRefused | .pageWalk | .pageFaultService | .sectorFill
  | .channelControllerLoss | .lineEviction | .copyTransfer | .kioskPushTile | .kioskPullTile
  | .journalWrite | .horizonSweep | .streamReadAhead | .lawEventRecord | .fanOutDeposit
  | .messageArrival | .hostMailboxNotice | .messageAcknowledgement | .messageRelease
  | .handlerActivation | .budgetFault | .remoteLoad | .remoteStore | .remoteAtomic
  | .remoteLaw | .remoteFault | .drtRetransmit | .linkPortFailure | .workSearch | .backOff
  | .steal | .stealAnswer | .eventLatchSet | .wfeTimeout | .feTimeout | .groupBarrierArrival
  | .barrierRelease | .barrierTimeout | .heartbeatMiss | .strandsDone | .launchStop
  | .doneWord | .queueEnable | .commandAccept | .launch | .signal | .waitForSignal
  | .signalSatisfied | .annexPolicy | .dispatchDecision | .bind | .preemption | .hostBindRecord
  | .contextCreate | .contextDestroy | .pageMap | .pageDecline | .barrierExtend | .barrierExpire
  | .contain | .warmReset | .attest | .firmwareStage | .firmwareActivate | .tlbInvalidate | .unitLoss
  | .coldReset | .managementFailover | .intervalCompare | .stageMonitorSample | .splitActivation
  | .annexForward | .mergeActivation | .hostBar2Write | .hostBar2Read | .monitorConfigWrite
  | .registerWrite | .clockThrottle | .pairTimeout | .coreLoss => none

/-- Bytes of a word, lowest address first (R5). -/
def wordBytes (w : BitVec 32) : List Byte :=
  [w.extractLsb' 0 8, w.extractLsb' 8 8, w.extractLsb' 16 8, w.extractLsb' 24 8]

/-- Four bytes as a word (R5). -/
def bytesWord (b0 b1 b2 b3 : Byte) : BitVec 32 := b3 ++ b2 ++ b1 ++ b0

/-- Decode from a byte stream: the instruction and the bytes after it. -/
def decodeBytes : List Byte → Option (Instr × List Byte)
  | b0 :: b1 :: b2 :: b3 :: rest =>
    match decodeWord (bytesWord b0 b1 b2 b3) with
    | .ok i => some (i, rest)
    | .error _ => none
  | _ => none

/-- The instruction that the decoder reads from the 32 bits of a table row. -/
def decodeTableWord (nbits w : Nat) : Option Instr :=
  if nbits = 32 ∧ w < 2 ^ 32 then (decodeBytes (wordBytes (BitVec.ofNat 32 w))).map Prod.fst else none

end Sys2Proof
end

