-- ==== Sys2Proof/Machine/State.lean ====
section
/-! DEFINITION. The state of the package: every piece of state the manual names, as plain data, and its reset. -/

namespace Sys2Proof.Machine

/-- The causes of R365. -/
inductive Cause where
  | illegalInstruction | misalignedPair | misalignedAccess | addressRange | notPresent | accessRights
  | pageTableFormat | nonexistentMemory | uncorrectableError | operandRange | descriptorFormat | invalidTarget
  | localRange | localProtection | feTimeout | streamOverrun | streamState | ringState | taskState | barrierState
  | barrierTimeout | messageOverread | messageOverflow | budget | annexState | pairState | syscall
  | heartbeat | divergence | peerFault | lawAction | unitLost | warmReset
  deriving DecidableEq, Repr

/-- An agent that may hold a sector or a line (R139, R141, R147, R327). -/
inductive Agent where
  | thread (core slot : Nat)
  | copy (core place : Nat)
  | host
  | other
  deriving DecidableEq, Repr

/-- What a thread waits for (R283). Unless said otherwise the wait ends by trying the instruction again. -/
inductive Wait where
  | none
  /-- A pending register or a request entry (R113, R114). -/
  | reg
  /-- Granules g to g + n - 1 all full, or all empty (R197, R198). -/
  | granules (g n : Nat) (full : Bool)
  /-- A sector held by another agent (R139), or by another checked pair (R147). -/
  | held | heldPair
  /-- A pending item of the page-fault service (R100). -/
  | pageFault (item : Nat)
  /-- Release of a phase (R307). -/
  | barrier (bar : Nat) (phase : BitVec 24)
  /-- The next part of a word of several parts (R120). -/
  | parts
  /-- The phase has been released with this result: the wait is over (R308). -/
  | released (bar : Nat) (phase : BitVec 24) (result : Word)
  /-- The master's answer to a group arrival (R311), then perhaps its release. -/
  | arrival (bar : Nat)
  /-- The master has answered: the phase that the arrival joined (R311). -/
  | joined (bar : Nat) (phase : BitVec 24)
  /-- An event, for at most so many cycles (R303). -/
  | event (limit : Nat)
  /-- The limit of WFE has passed (R303). -/
  | eventOver
  /-- WFI (R375), and whether a pre-emption or a stop has ended it. -/
  | interrupt (woken : Bool)
  /-- A copy place, or the end of copies (R152, R205); remote operations (R152); an outbound place (R321). -/
  | copyPlace | fence | outbound
  /-- A ring (R225), a held route (R339), the sweep of an epoch (R163), a law unit's queue (R176). -/
  | ring | route | sweep | lawQueue
  /-- PAIR or UNPAIR at its rendezvous (R379). -/
  | pairing | unpairing
  /-- The rendezvous has taken place: PAIR or UNPAIR completes (R379). -/
  | paired
  deriving DecidableEq, Repr

/-- Whether a thread slot carries a strand (R282). -/
inductive Strand where
  | unbound | idle | running
  deriving DecidableEq, Repr

/-- A stream element read ahead (R220): its value and coordinate, or the fault that poisons it. -/
structure StreamElem where
  idx : Nat
  val : Word
  coord : Word
  fault : Option (Cause × Word)
  deriving DecidableEq, Repr

/-- A stream register (R219, R221). `last` is Ptr(fib + 1) while a fibre is selected. -/
structure StreamReg where
  desc : BitVec 256
  pos : Nat
  fib : Option Nat
  last : Nat
  queue : List StreamElem
  deriving DecidableEq, Repr

/-- An outstanding global request of a thread (R113, R114): the registers it will free. Register n is x n below
32, v (n - 32) below 64, k (n - 64) above. (DESIGN CHOICE, unsafe, log 19) -/
structure Request where
  tag : Nat
  /-- It is a load (R403). -/
  load : Bool
  /-- Entries of the pool it holds: its parts. -/
  parts : Nat
  regs : List Nat
  /-- The cycle in which it was sent. -/
  at_ : Nat
  /-- Bundles that the thread has issued since, while a load's reply is awaited (R115). -/
  after : Nat
  deriving DecidableEq, Repr

/-- An idle thread's search (R298, R299): the widening step, the cores still to try, the empty rounds, the end of
the back-off and the cycle of a steal that is outstanding. -/
structure Search where
  step : Nat
  cores : List Nat
  rounds : Nat
  until_ : Nat
  asked : Option Nat
  deriving DecidableEq, Repr

/-- A word of several parts of which some have been performed (R120): the physical addresses of all of them, the values
read so far and how many parts are done. (DESIGN CHOICE, unsafe, log 18) -/
structure Progress where
  pas : List Nat
  vals : List Nat
  done : Nat
  deriving DecidableEq, Repr

/-- A thread's registers (R227) and what it is doing. Slot 4 is th. -/
structure Thread where
  pc : Word
  strand : Strand
  /-- The slot's initial strand has finished (R297). -/
  finished : Bool
  /-- The slot whose initial strand it carries, when it carries no task. -/
  initial : Nat
  /-- The slot's initial stack pointer (R295). -/
  sp0 : Word
  x : SMap Word
  v : SMap VReg
  k : SMap MReg
  streams : SMap StreamReg
  tstat : Word
  fflags : Word
  frm : Word
  seed : Word
  fetimeout : Word
  hbcount : Word
  taskref : Word
  rfstat : Word
  fhook : Word
  fframe : Word
  svec : Word
  sframe : Word
  latch : Bool
  /-- Messages numbered so far (R319). -/
  seq : Nat
  /-- Words pushed to x31 (R38). -/
  mo : List Word
  wait : Wait
  since : Nat
  requests : List Request
  /-- The parts performed of the word that the thread is issuing (R120). -/
  progress : Option Progress
  /-- The core and the latches of a set that its last SEV has sent (R136, R302). -/
  sev : Option (Nat × BitVec 4)
  /-- Words fetched ahead (R151). -/
  fetched : List (Nat × BitVec 32)
  search : Search
  /-- The record of the task it runs, as mirrored (R384). -/
  task : Option TaskRec
  crc : Word
  deriving DecidableEq, Repr

/-- A named barrier (R304, R305). -/
structure Barrier where
  group : Bool
  op : BitVec 4
  tmo : BitVec 6
  count : BitVec 16
  arrived : Nat
  phase : BitVec 24
  acc : Word
  result : Word
  swap : Bool
  tout : Bool
  /-- The timeout captured at BINIT, in cycles (R305). -/
  limit : Nat
  /-- When the phase's first arrival came (R310). -/
  first : Option Nat
  /-- The phase is held for the host (R363 bit 5). -/
  held : Bool
  deriving DecidableEq, Repr

/-- A place of the copy engine (R205 to R212). -/
structure CopyRec where
  seq : Nat
  desc : BitVec 256
  twoD : Bool
  slot : Nat
  ctx : Nat
  /-- The launch that started it, by its bind order number. -/
  order : Nat
  sup : Bool
  row : Nat
  off : Nat
  state : BitVec 2
  cause : BitVec 8
  addr : BitVec 52
  /-- Order of finishing, 0 while in flight. -/
  fin : Nat
  deriving DecidableEq, Repr

/-- A handler activation's kind (R324, R343, R346). -/
inductive ActKind where
  | message | split | merge
  deriving DecidableEq, Repr

/-- A running activation of th (R324 to R330). -/
structure Activation where
  kind : ActKind
  msg : Msg
  /-- Payload not yet read. -/
  left : List Word
  pinned : Bool
  start : Nat
  /-- Budget in cycles. -/
  budget : Nat
  /-- Messages held until HEND (R327). -/
  heldMsgs : List Event
  /-- Stores held until HEND. -/
  stores : Nat
  /-- Old contents of local granules: granule, bytes, full bit. -/
  log : List (Nat × BitVec 128 × Bool)
  fflags : Word
  frm : Word
  seed : Word
  seq : Nat
  /-- Activations of this message that failed before. -/
  fails : Nat
  /-- Offset and length of the stage's state region, 0 and 0 for a message (R328). -/
  region : Nat × Nat
  deriving DecidableEq, Repr

/-- A launch descriptor (R355). -/
structure LaunchDesc where
  args : List Word
  spbase : Word
  spstride : Word
  savebase : Word
  code : Word
  entry : Word
  first : Nat
  count : Nat
  n : Nat
  steal : Nat
  h : Nat
  cw : Nat
  xw : Nat
  rst : Bool
  chk : Bool
  jnl : Bool
  lsave : Bool
  deriving DecidableEq, Repr

/-- A bind record (R357). -/
structure BindRec where
  desc : Word
  order : Nat
  pos : Nat
  ctx : Nat
  queue : Nat
  level : Nat
  resume : Bool
  deriving DecidableEq, Repr

/-- The launch bound on a core: its record, its descriptor, how often it was bound again (R390). -/
structure Bound where
  record : BindRec
  ld : LaunchDesc
  rebinds : Nat
  deriving DecidableEq, Repr

/-- A translation (R98): a page of 2^size bytes. -/
structure TlbEntry where
  ctx : Nat
  page : Nat
  size : Nat
  frame : Nat
  r : Bool
  w : Bool
  x : Bool
  u : Bool
  d : Bool
  deriving DecidableEq, Repr

/-- Issue selection of a core (R284). -/
structure Sched where
  last : Option Nat
  yielded : Bool
  lastCompute : Nat
  waited : SMap Nat
  /-- The cycle in which the core last issued a bundle (R403). -/
  issued : Option Nat
  deriving DecidableEq, Repr

/-- A strand parked on a join record (R296): whether it is a task, the slot whose initial strand it is otherwise, and
the record of its task. -/
structure Parked where
  task : Bool
  slot : Nat
  record : Option TaskRec
  deriving DecidableEq, Repr

/-- A core's part in a checked pair (R379, R380). -/
inductive PairRole where
  | none
  | leader (partner : Nat)
  | follower (partner : Nat)
  deriving DecidableEq, Repr

/-- A core's part in the completion tree (R316). -/
structure Tree where
  reported : Bool
  childReports : List Nat
  stopped : Bool
  childWords : List (Nat × BitVec 128)
  sent : Bool
  aband : Nat
  err : BitVec 16
  cause : BitVec 8
  deriving DecidableEq, Repr

/-- A store refused at its home slice (R120): the thread as it stood at that store, and where.
(DEDUCED, safe, log 20) -/
structure Refused where
  slot : Nat
  thread : Thread
  w0 : BitVec 32
  w1 : BitVec 32
  lone : Bool
  addr : Word
  deriving DecidableEq, Repr

/-- One core. -/
structure Core where
  threads : SMap Thread
  lmem : List Host.Cell
  full : BitVec 16384
  copies : SMap CopyRec
  copySeq : Nat
  copyFin : Nat
  deque : List TaskRec
  /-- Records pushed again that wait for a place in the deque (R384). -/
  pushes : List TaskRec
  tasksDone : Nat
  /-- Strands parked on join records of this core (R296), by offset. -/
  parked : SMap Parked
  /-- Offsets of join records whose run bit is set (R298). -/
  runs : List Nat
  /-- Fault messages received from fenced cores of the pavilion (R315). -/
  peerFaults : Nat
  barriers : SMap Barrier
  inbound : List Msg
  /-- Model field: the cycle in which each message that waits here was delivered (R403, event 7). -/
  deliveries : List (Msg × Nat)
  /-- Messages in the spill areas, with their slots (R325, R350). -/
  spilled : List (Nat × Msg)
  /-- Accepted-number table: source word, bind order, highest number (R320). -/
  accepted : List (Word × Nat × Nat)
  /-- Messages to be redelivered and their failures (R328): one for each context at most. -/
  redo : List (Msg × Nat)
  act : Option Activation
  bound : Option Bound
  slots : SMap BindRec
  tlb : List TlbEntry
  sched : Sched
  taken : Bool
  pair : PairRole
  pairstat : Word
  /-- Gated messages of a checked pair (R381). -/
  gated : List Event
  bundles : Nat
  /-- Granules in the local undo log of the running interval (R381). -/
  undo : List Nat
  /-- The cycles of the tie-breaks that blame this core (R382). -/
  blames : List Nat
  /-- A checked pair's threads at the last agreed point (R382). -/
  agreed : SMap Thread
  /-- Entries of the engine pool that are held (R113). -/
  engine : Nat
  tree : Tree
  refused : List Refused
  fenced : Bool
  retired : Bool
  deriving DecidableEq, Repr

/-- A time domain (R157, R158): `clock` is the origin plus the stepped ticks. -/
structure Domain where
  clock : Word
  stepped : Bool
  p : Nat
  deriving DecidableEq, Repr

/-- A registered sweep region (R191). -/
structure Region where
  base : Nat
  spacing : Nat
  count : Nat
  domain : Nat
  /-- The rights of the thread that registered it (R96). -/
  sup : Bool
  /-- The clocks of the domains when the kiosks' last pass over it began, and the next cell of the pass (R162). -/
  since : List Nat
  turn : Nat
  deriving DecidableEq, Repr

/-- Whose access waits on the page-fault service (R100). -/
inductive Asker where
  /-- A thread; `deferred` when the access is a stream element's that the thread pops. -/
  | thread (core slot : Nat) (deferred : Bool)
  | copy (core place : Nat)
  /-- A stream engine, for an element by its position. -/
  | stream (core slot n i : Nat)
  | kiosk (kiosk sub : Nat)
  /-- A thread whose trap is to write its frame at SFRAME (R367). -/
  | frame (core slot : Nat)
  /-- Dispatch, for a notice or a completion record of a queue. -/
  | queue (ctx queue : Nat)
  | other
  deriving DecidableEq, Repr

/-- A pending item of the page-fault service (R100): its number, and its notice number in host-assisted mode
(R424). -/
structure PageItem where
  id : Nat
  notice : Option Nat
  ctx : Nat
  asker : Asker
  va : Word
  /-- The service has declined, and the agent has not yet taken the fault. -/
  declined : Bool
  deriving DecidableEq, Repr

/-- A fault posted for the host's triage (R363 bit 4). -/
structure TriageItem where
  id : Nat
  ctx : Nat
  core : Nat
  slot : Nat
  cause : BitVec 8
  /-- The error bit of the done word (R316). -/
  errBit : Nat
  inner : Nat
  /-- The launch concerned, by its bind order number. -/
  order : Nat
  /-- The record of the task that a fault ended, when it can be pushed again (R384). -/
  task : Option TaskRec
  deriving DecidableEq, Repr

/-- A context (R348). -/
structure Context where
  live : Bool
  modes : Word
  spill : Word
  qbase : Word
  hndbase : Word
  lawbase : Word
  seed : Word
  root : BitVec 39
  cstat : BitVec 3
  domains : List Domain
  ns0 : Nat
  regions : List Region
  notices : Nat
  lawErr : Nat
  lawCache : SMap (BitVec 512)
  deriving DecidableEq, Repr

/-- A command read from a queue (R354). -/
structure Command where
  seq : Nat
  kind : Nat
  arg1 : Word
  arg2 : Word
  arg3 : Word
  ok : Bool
  deriving DecidableEq, Repr

/-- Dispatch's view of a queue (R351 to R354). -/
structure Queue where
  live : Bool
  cbase : Word
  lcmd : Nat
  nbase : Word
  lnote : Nat
  level : Nat
  weight : Nat
  accepted : Nat
  done : Nat
  nwr : Nat
  state : Nat
  /-- The header has still to be given that state (R351, R423). -/
  stateDue : Bool
  /-- The command that runs or is due. -/
  cmd : Option Command
  /-- The running launch has been decided (R359). -/
  decided : Bool
  credit : Nat
  /-- When its head became ready. -/
  age : Nat
  /-- Held items: notices, and a completion record's seqc, status and done word (R423). -/
  heldNotices : List (List Word)
  heldRecord : Option (Nat × Nat × BitVec 128)
  /-- Cores that stay fenced until that record has been written (R385). -/
  fences : List Nat
  deriving DecidableEq, Repr

/-- A launch between its decision and its completion record. -/
structure LaunchRun where
  ctx : Nat
  queue : Nat
  seq : Nat
  descAddr : Word
  ld : LaunchDesc
  order : Nat
  rebinds : Nat
  redone : Bool
  /-- Group barriers that timed out while a member core did not have the launch bound: that core and the barrier
  (R310). -/
  touts : List (Nat × Nat)
  deriving DecidableEq, Repr

/-- A journaled ring as its kiosk keeps it (R226): where it lies, its journal, and the tickets that are mirrored. -/
structure Journal where
  core : Nat
  hdr : Nat
  ctx : Nat
  jbase : Nat
  /-- The rights of the thread that first used it (R96). -/
  sup : Bool
  tickets : List Nat
  deriving DecidableEq, Repr

/-- What pre-emption sets aside of a core beside its save area: its deque, its parked strands, its continuations, its
part in the completion tree and in a checked pair. -/
structure SavedTasks where
  /-- The mirrored record of each slot's task, and what a save area does not hold of its stream registers: the end of the
  fibre selected, by 8 · slot + register. -/
  tasks : SMap TaskRec
  lasts : SMap Nat
  deque : List TaskRec
  pushes : List TaskRec
  parked : SMap Parked
  runs : List Nat
  tree : Tree
  tasksDone : Nat
  taken : Bool
  peerFaults : Nat
  pair : PairRole
  /-- Barriers whose phase the host has still to answer for, and whether each is a group's; and those it has extended
  meanwhile (R363, R398). -/
  held : List (Nat × Bool)
  extended : List Nat
  deriving DecidableEq, Repr

/-- A kiosk subscription (R214 to R218). -/
structure Sub where
  kiosk : Nat
  id : Nat
  pull : Bool
  core : Nat
  hdr : Nat
  gen : Nat
  base : Word
  tstride : BitVec 64
  rstride : BitVec 32
  rowbytes : Nat
  rows : Nat
  tiles : Nat
  moved : Nat
  /-- The ticket taken for the tile in progress (push), or the released slot that has been pulled. -/
  ticket : Option Nat
  ctx : Nat
  sup : Bool
  /-- The launch that started it, by its bind order number. -/
  order : Nat
  /-- Parts moved of the tile in progress (R135), and the bytes read beyond the last whole granule (R142). -/
  parts : Nat
  buf : Nat
  deriving DecidableEq, Repr

/-- A held sector (R139): who holds it and what stood there before the holder's first store. -/
structure Hold where
  owner : Agent
  sector : Nat
  slice : Nat
  old : Option (BitVec 256)
  deriving DecidableEq, Repr

/-- A sector in a slice (R107, R108). -/
structure SliceSector where
  data : BitVec 256
  modified : Bool
  zero : Bool
  deriving DecidableEq, Repr

/-- A read-only replica of a sector in a near slice (R111): its data, and the logical time at which its lease ends.
(DEDUCED, safe, log 24) -/
structure Replica where
  slice : Nat
  ctx : Nat
  sector : Nat
  data : BitVec 256
  lease : Nat
  deriving DecidableEq, Repr

/-- The stage monitor of a stage launch (R341): consecutive samples above and at or below the marks. -/
structure StageMon where
  above : SMap Nat
  below : SMap Nat
  /-- The cycle of the last sample. -/
  last : Nat
  postedAbove : List Nat
  postedBelow : List Nat
  deriving DecidableEq, Repr

/-- An annex or merge in progress (R342, R346). -/
structure Annex where
  key : Nat
  stage : Word
  merge : Bool
  step : Nat
  entry : Nat
  m : Word
  b : Word
  o : Nat
  y : Nat
  tailT : Word
  tries : Nat
  /-- Offset of the stage ring header. -/
  hdr : Nat
  /-- The cause of the fault that cancels a split (R343); 0 while it goes on. -/
  cause : BitVec 8
  deriving DecidableEq, Repr

/-- A performance monitor (R402). -/
structure Monitor where
  config : Word
  result : Word
  bins : List (BitVec 32)
  deriving DecidableEq, Repr

/-- A firmware image: its header and its body (R400). -/
structure Image where
  header : BitVec 2048
  body : List Byte
  deriving DecidableEq, Repr

/-- The management cores and their firmware (R9, R400): the die that runs it, whether a spare is left, the fused version
counter, the image activated last, if any, and the image staged. -/
structure Firmware where
  die : Nat
  spare : Bool
  counter : Nat
  image : Option Image
  staged : Option Image
  activate : Bool
  deriving DecidableEq, Repr

/-- How the issue of a word ended. (DESIGN CHOICE, safe, log 5) -/
inductive IssueStatus where
  | none | done | waiting
  /-- The word waits and has begun its effect. -/
  | parked
  /-- The step of another agent has asked for a page, and stays on its way. -/
  | kept
  | trapped (cause : Cause) (addr : Word) (deferred : Bool)
  deriving DecidableEq, Repr

/-- The VX prefix that governs the A word being issued (R42). -/
structure VxArgs where
  k : BitVec 3
  z : Bool
  rm : BitVec 3
  vc : BitVec 5
  deriving DecidableEq, Repr

/-- The bundle being issued: its words, whether it is lone, the slot executing, the prefix, the target that the
word names instead of the fall-through, and how it ended. (DESIGN CHOICE, safe, log 5) -/
structure Issue where
  lone : Bool
  w0 : BitVec 32
  w1 : BitVec 32
  slotA : Bool
  vx : Option VxArgs
  next : Option Word
  /-- The C word has sent the message being built, so a push of the A word begins the next one (R322). -/
  sent : Bool
  /-- How many parts of the word may be performed in this turn (R120): all of them when none is given. -/
  quota : Option Nat
  status : IssueStatus
  deriving DecidableEq, Repr

/-- Who moves in a turn of the schedule. (DESIGN CHOICE, safe, log 1) -/
inductive Who where
  /-- A core issues: R284 chooses the thread. -/
  | core (c : Nat)
  /-- One thread issues. -/
  | thread (c t : Nat)
  /-- A core issues, and of a word of several parts only so many are performed (R120). -/
  | parts (c n : Nat)
  /-- The host reads a device register through BAR0 (R394). -/
  | bar0 (off : Nat)
  /-- The path to another package loses what is under way beyond repair (R399). -/
  | pathLost (pkg : Nat)
  /-- The i-th event in flight takes place. -/
  | flight (i : Nat)
  /-- The outside world, or an agent that acts of itself. -/
  | outside (e : Event)
  deriving DecidableEq, Repr

/-- A turn: the core cycles and nanoseconds that pass before it, and who moves. (DESIGN CHOICE, safe, log 1) -/
structure Turn where
  cycles : Nat
  ns : Nat
  who : Who
  deriving DecidableEq, Repr

/-- The package. -/
structure State where
  cores : SMap Core
  mem : List Host.Cell
  poison : List Nat
  /-- Fills that ended in an error without poisoning memory, by slice and sector (R392). -/
  failedFills : List Nat
  sectors : SMap SliceSector
  replicas : List Replica
  /-- The slices' coherence directories: the logical time at which the last lease of a sector ends (R16, R110). -/
  leases : SMap Nat
  /-- Logical time (R110). -/
  ltime : Nat
  holds : List Hold
  retiredSlices : List Nat
  lostChannels : List (Nat × Nat)
  lanes : List (Nat × Nat × Nat × Nat)
  arrayLog : SMap (BitVec 128)
  busLog : SMap (BitVec 128)
  /-- Model field: when each log entry had its last event, by log (0 array, 1 bus), stack and entry. -/
  logTimes : SMap Nat
  ctxs : SMap Context
  queues : SMap Queue
  launches : SMap LaunchRun
  orders : Nat
  /-- The queue whose launch was given a bind order number (R331, R359). -/
  orderQueues : SMap Nat
  decisions : Nat
  /-- Heads that dispatch has reserved, and whether rule 2 has named each (R359). -/
  reserved : List (Nat × Bool)
  pageItems : List PageItem
  pageSeq : Nat
  triage : List TriageItem
  unitSeq : SMap Nat
  subs : List Sub
  /-- The next subscription identifier of each kiosk (R215). -/
  subIds : SMap Nat
  journals : List Journal
  stages : SMap StageMon
  /-- What pre-emption has set aside, by bind order number and core (R360). -/
  savedTasks : SMap SavedTasks
  annexes : List Annex
  pkg : Nat
  npkgs : Nat
  cxl : List Nat
  failedPorts : List Nat
  unacked : List (Word × Nat × Msg)
  /-- Model field: messages in DRT segments that have not been acknowledged, and the nanosecond in which each was last sent
  (R399). -/
  segments : List (Msg × Nat)
  fabric : List Msg
  /-- The route table: packages reached by DRT (1) or by Gufer Link (0) (R399). -/
  routes : SMap Nat
  /-- The highest number performed of each source of another package: source word, bind order, number (R319, R399). -/
  heard : List (Word × Nat × Nat)
  /-- Releases sent to cores of other packages: package, core, source word, bind order (R320). -/
  releases : List (Nat × Nat × Word × Nat)
  /-- Acknowledgements sent to other packages, with the fault that answers the message (R334, R335). -/
  acks : List (Word × Nat × Option (BitVec 8 × BitVec 52))
  msix : List Nat
  hostReads : List (Option (List Byte))
  portErrors : Nat
  dev : List Host.Cell
  monitors : SMap Monitor
  firmware : Firmware
  cycle : Nat
  ns : Nat
  mhz : Nat
  /-- Model field: the schedule. -/
  turns : List Turn
  /-- Model field: events in flight. -/
  flight : List Event
  /-- Model field: the core and slot issuing. -/
  cur : Nat × Nat
  /-- Model field: the bundle being issued. -/
  issue : Issue
  /-- Model field: the event at hand while a step of another agent runs. -/
  item : Option Event
  /-- Model field: counter of free values. -/
  free : Nat
  deriving DecidableEq, Repr

/-- Reasons for which the machine stops with a fault. -/
inductive Fault where
  /-- Raised by an event whose operands name a core, thread, slice or context that the package does not have: the
  schedule is malformed. Safe: no unit of the part corresponds to it. -/
  | noSuchAgent
  deriving DecidableEq, Repr

/-- Reasons for which the model refuses. -/
inductive Refusal where
  /-- Raised by a dispatch arm of an instruction without a meaning. Safe. -/
  | notModelled (mnemonic : String)
  deriving DecidableEq, Repr

/-- What a step answers. -/
abbrev Out := Host.Outcome State Fault Refusal

/-- A thread slot after reset: unbound, every register at its reset value. (DESIGN CHOICE, unsafe, log 3) -/
def Thread.reset : Thread where
  pc := 0
  strand := .unbound
  finished := false
  initial := 0
  sp0 := 0
  x := []
  v := []
  k := []
  streams := []
  tstat := 0
  fflags := 0
  frm := 0
  seed := 0
  fetimeout := 0
  hbcount := 0
  taskref := 0
  rfstat := 0
  fhook := 0
  fframe := 0
  svec := 0
  sframe := 0
  latch := false
  seq := 0
  mo := []
  wait := .none
  since := 0
  requests := []
  progress := none
  sev := none
  fetched := []
  search := ⟨0, [], 0, 0, none⟩
  task := none
  crc := 0

/-- A barrier before any bind. (DESIGN CHOICE, unsafe, log 3) -/
def Barrier.reset : Barrier where
  group := false
  op := 0
  tmo := 0
  count := 0
  arrived := 0
  phase := 0
  acc := 0
  result := 0
  swap := false
  tout := false
  limit := 2 ^ 40
  first := none
  held := false

/-- The completion-tree part of a core with nothing bound. -/
def Tree.reset : Tree := ⟨false, [], false, [], false, 0, 0, 0⟩

/-- A core after reset. (DESIGN CHOICE, unsafe, log 3) -/
def Core.reset : Core where
  threads := []
  lmem := []
  full := 0
  copies := []
  copySeq := 0
  copyFin := 0
  deque := []
  pushes := []
  tasksDone := 0
  parked := []
  runs := []
  peerFaults := 0
  barriers := []
  inbound := []
  deliveries := []
  spilled := []
  accepted := []
  redo := []
  act := none
  bound := none
  slots := []
  tlb := []
  sched := ⟨none, false, 3, [], none⟩
  taken := false
  pair := .none
  pairstat := 0
  gated := []
  bundles := 0
  undo := []
  blames := []
  agreed := []
  engine := 0
  tree := Tree.reset
  refused := []
  fenced := false
  retired := false

/-- A context before it is created. -/
def Context.reset : Context where
  live := false
  modes := 0
  spill := 0
  qbase := 0
  hndbase := 0
  lawbase := 0
  seed := 0
  root := 0
  cstat := 0
  domains := []
  ns0 := 0
  regions := []
  notices := 0
  lawErr := 0
  lawCache := []

/-- A queue that dispatch has not read. -/
def Queue.reset : Queue where
  live := false
  cbase := 0
  lcmd := 0
  nbase := 0
  lnote := 0
  level := 0
  weight := 0
  accepted := 0
  done := 0
  nwr := 0
  state := 0
  stateDue := false
  cmd := none
  decided := false
  credit := 0
  age := 0
  heldNotices := []
  heldRecord := none
  fences := []

/-- Nothing is being issued. -/
def Issue.reset : Issue := ⟨true, 0, 0, false, none, none, false, none, .none⟩

/-- The package right after a cold reset: no context, nothing bound, memory with nothing listed.
(DESIGN CHOICE, unsafe, log 2; DESIGN CHOICE, unsafe, log 4) -/
def State.reset : State where
  cores := []
  mem := []
  poison := []
  failedFills := []
  sectors := []
  replicas := []
  leases := []
  ltime := 0
  holds := []
  retiredSlices := []
  lostChannels := []
  lanes := []
  arrayLog := []
  busLog := []
  logTimes := []
  ctxs := []
  queues := []
  launches := []
  orders := 0
  orderQueues := []
  decisions := 0
  reserved := []
  pageItems := []
  pageSeq := 0
  triage := []
  unitSeq := []
  subs := []
  subIds := []
  journals := []
  stages := []
  savedTasks := []
  annexes := []
  pkg := 0
  npkgs := 1
  cxl := [0, 0, 0, 0, 0, 0, 0, 0]
  failedPorts := []
  unacked := []
  segments := []
  fabric := []
  routes := []
  heard := []
  releases := []
  acks := []
  msix := []
  hostReads := []
  portErrors := 0
  dev := []
  monitors := []
  firmware := ⟨0, true, 0, none, none, false⟩
  cycle := 0
  ns := 0
  mhz := 2700
  turns := []
  flight := []
  cur := (0, 0)
  issue := Issue.reset
  item := none
  free := 0

end Sys2Proof.Machine
end

