-- ==== Sys2Proof/Machine/Ops.lean ====
section
/-! DEFINITION. The named operations over the state: registers, local memory, physical memory and slices, translation,
global accesses, sending, and taking and leaving a trap. -/

namespace Sys2Proof.Machine

/-- How a word can end without completing: a precise trap; a wait after which it is tried again (nothing of it
remains); a wait that keeps what it did; a store refused at its home slice (R120); a not-present page (R100). -/
inductive Stop where
  | trap (c : Cause) (addr : Word) (deferred : Bool)
  | wait (w : Wait)
  | park (w : Wait)
  | refused (addr : Word)
  | absent (va : Word) (access : Nat) (deferred : Bool)
  deriving DecidableEq, Repr

/-- The effect of a word: it changes the state or stops. (DEDUCED, unsafe, log 88) -/
abbrev M := EStateM Stop State

def trap {α : Type} (c : Cause) (addr : Word) : M α := throw (.trap c addr false)
def illegal {α : Type} : M α := trap .illegalInstruction 0
def waitFor {α : Type} (w : Wait) : M α := throw (.wait w)
/-- Trap unless a condition holds. -/
def need (b : Bool) (c : Cause) (addr : Word) : M Unit := if b then pure () else trap c addr

/-! ### Bits -/

/-- Bits [hi:lo] of a value, as a number. -/
def fld {n : Nat} (w : BitVec n) (hi lo : Nat) : Nat := w.toNat / 2 ^ lo % 2 ^ (hi + 1 - lo)

/-- One bit. -/
def bit {n : Nat} (w : BitVec n) (i : Nat) : Bool := w.getLsbD i

/-- Replace bits [hi:lo]. -/
def setFld {n : Nat} (w : BitVec n) (hi lo v : Nat) : BitVec n :=
  let m := 2 ^ (hi + 1 - lo)
  BitVec.ofNat n (w.toNat - w.toNat / 2 ^ lo % m * 2 ^ lo + v % m * 2 ^ lo)

/-- A number as a doubleword. -/
def word (n : Nat) : Word := BitVec.ofNat 64 n

def boolNat (b : Bool) : Nat := if b then 1 else 0

/-- sext(value, n) of R52: the low n bits, sign-extended to 64. -/
def sext (v : Nat) (n : Nat) : Word := (BitVec.ofNat n v).signExtend 64

/-- A number read as two's complement in n bits. -/
def toSigned (v n : Nat) : Int := (BitVec.ofNat n v).toInt

/-! ### Causes (R365) -/

def Cause.code : Cause → BitVec 8
  | .illegalInstruction => 0x01
  | .misalignedPair => 0x02
  | .misalignedAccess => 0x03
  | .addressRange => 0x04
  | .notPresent => 0x05
  | .accessRights => 0x06
  | .pageTableFormat => 0x07
  | .nonexistentMemory => 0x08
  | .uncorrectableError => 0x09
  | .operandRange => 0x0A
  | .descriptorFormat => 0x0B
  | .invalidTarget => 0x0C
  | .localRange => 0x0D
  | .localProtection => 0x0E
  | .feTimeout => 0x0F
  | .streamOverrun => 0x10
  | .streamState => 0x11
  | .ringState => 0x12
  | .taskState => 0x13
  | .barrierState => 0x14
  | .barrierTimeout => 0x15
  | .messageOverread => 0x16
  | .messageOverflow => 0x17
  | .budget => 0x18
  | .annexState => 0x19
  | .pairState => 0x1A
  | .syscall => 0x1B
  | .heartbeat => 0x20
  | .divergence => 0x21
  | .peerFault => 0x22
  | .lawAction => 0x23
  | .unitLost => 0x24
  | .warmReset => 0x25

/-- The causes that a compute thread's instruction raises and that a ring header may record (R225): 0x01 to 0x15
and 0x17. -/
def ringCause (code : Nat) : Option Cause :=
  [Cause.illegalInstruction, .misalignedPair, .misalignedAccess, .addressRange, .notPresent, .accessRights,
    .pageTableFormat, .nonexistentMemory, .uncorrectableError, .operandRange, .descriptorFormat, .invalidTarget,
    .localRange, .localProtection, .feTimeout, .streamOverrun, .streamState, .ringState, .taskState, .barrierState,
    .barrierTimeout, .messageOverflow].find? (fun c => c.code.toNat == code)

/-- Whether a cause goes to FHOOK (R365). -/
def Cause.hookable : Cause → Bool
  | .accessRights | .pageTableFormat | .nonexistentMemory | .uncorrectableError | .syscall | .messageOverread
  | .budget | .annexState | .heartbeat | .divergence | .peerFault | .lawAction | .unitLost | .warmReset => false
  | _ => true

/-- Whether the frame records an address for a cause (R425). -/
def Cause.hasAddr : Cause → Bool
  | .misalignedPair | .misalignedAccess | .addressRange | .notPresent | .accessRights | .pageTableFormat
  | .nonexistentMemory | .uncorrectableError | .localRange | .localProtection | .descriptorFormat => true
  | _ => false

/-! ### Cores and threads -/

def State.core (s : State) (c : Nat) : Core := s.cores.get c Core.reset
def State.setCore (s : State) (c : Nat) (k : Core) : State := { s with cores := s.cores.set c k }
def Core.thread (k : Core) (t : Nat) : Thread := k.threads.get t Thread.reset
def Core.setThread (k : Core) (t : Nat) (th : Thread) : Core := { k with threads := k.threads.set t th }
def State.thread (s : State) (c t : Nat) : Thread := (s.core c).thread t
def State.setThread (s : State) (c t : Nat) (th : Thread) : State := s.setCore c ((s.core c).setThread t th)
/-- The core, the slot and the thread that issue. -/
def State.cid (s : State) : Nat := s.cur.1
def State.tid (s : State) : Nat := s.cur.2
def State.me (s : State) : Thread := s.thread s.cid s.tid
def State.setMe (s : State) (th : Thread) : State := s.setThread s.cid s.tid th
def State.myCore (s : State) : Core := s.core s.cid
def State.setMyCore (s : State) (k : Core) : State := s.setCore s.cid k
/-- The handler thread is slot 4 (R13). -/
def State.isTh (s : State) : Bool := s.tid == 4

def modMe (f : Thread → Thread) : M Unit := modify fun s => s.setMe (f s.me)
def modCore (f : Core → Core) : M Unit := modify fun s => s.setMyCore (f s.myCore)

/-- The context of the launch bound on a core, 0 with none bound. -/
def State.coreCtx (s : State) (c : Nat) : Nat :=
  match (s.core c).bound with
  | some b => b.record.ctx
  | none => 0
/-- The bind order number of the launch bound on a core, 0 with none bound. -/
def State.coreOrder (s : State) (c : Nat) : Nat := match (s.core c).bound with | some b => b.record.order | none => 0
/-- Whether a launch is bound on a core; none while it is bound elsewhere only, pre-empted or not yet bound; false when
it exists no longer. -/
def launchHere (s : State) (c order : Nat) : Option Bool :=
  if (match (s.core c).bound with | some b => b.record.order == order | none => false) then some true
  else if s.launches.any fun p => p.2.order == order then none
  else some false
/-- A step that concerns a launch on a core: it waits while the launch is not bound there, and comes to nothing when
the launch exists no longer. -/
def atLaunch (s : State) (c order : Nat) (f : State → Option State) : Option State :=
  match launchHere s c order with
  | some true => f s
  | some false => some s
  | none => none
/-- The same where the core is reached over the network: it waits while the core is fenced (R315).
(DEDUCED, unsafe, log 96) -/
def atLive (s : State) (c order : Nat) (f : State → Option State) : Option State :=
  if (s.core c).fenced && launchHere s c order == some true then none else atLaunch s c order f
def State.ctx (s : State) (x : Nat) : Context := s.ctxs.get x Context.reset
def State.setCtx (s : State) (x : Nat) (k : Context) : State := { s with ctxs := s.ctxs.set x k }
def State.myCtx (s : State) : Nat := s.coreCtx s.cid
def State.queue (s : State) (x q : Nat) : Queue := s.queues.get (16 * x + q) Queue.reset
def State.setQueue (s : State) (x q : Nat) (k : Queue) : State := { s with queues := s.queues.set (16 * x + q) k }
/-- The cores of a launch's set (R355). -/
def LaunchDesc.cores (ld : LaunchDesc) : List Nat := (List.range ld.count).map (ld.first + ·)
/-- Whether a core belongs to the launch bound on the issuing core. -/
def State.inLaunch (s : State) (c : Nat) : Bool :=
  match s.myCore.bound with
  | some b => decide (b.ld.first ≤ c) && decide (c < b.ld.first + b.ld.count)
  | none => c == s.cid

/-- Another core of the launch cannot be reached: it is fenced, or the launch is set aside or not yet bound there
(R315, R360). (DEDUCED, unsafe, log 96) -/
def State.away (s : State) (c : Nat) : Bool :=
  c != s.cid && ((s.core c).fenced || (s.inLaunch c && launchHere s c (s.coreOrder s.cid) == none))

/-! ### TSTAT (R370) -/

def Thread.sv (t : Thread) : Bool := bit t.tstat 15
def Thread.ha (t : Thread) : Bool := bit t.tstat 14
def Thread.rep (t : Thread) : Nat := fld t.tstat 21 16
def Thread.tm (t : Thread) : Bool := bit t.tstat 10
def Thread.tiles (t : Thread) : Bool := bit t.tstat 11
def Thread.acc (t : Thread) : Bool := bit t.tstat 12
def Thread.setTstat (t : Thread) (hi lo v : Nat) : Thread := { t with tstat := setFld t.tstat hi lo v }

/-! ### Scalar, vector and mask registers (R38, R227) -/

/-- A plain scalar register: x0 reads zero, x31 the push count. -/
def Thread.getX (t : Thread) (n : Nat) : Word :=
  if n = 0 then 0 else if n = 31 then word t.mo.length else t.x.get n 0

/-- Write a plain scalar register x1 to x29; x0 discards. -/
def Thread.setX (t : Thread) (n : Nat) (v : Word) : Thread :=
  if n = 0 then t else { t with x := t.x.set n v }

def Thread.getV (t : Thread) (n : Nat) : VReg := t.v.get n 0
def Thread.setV (t : Thread) (n : Nat) (v : VReg) : Thread := { t with v := t.v.set n v }
/-- k0 reads all ones. -/
def Thread.getK (t : Thread) (n : Nat) : MReg := if n = 0 then BitVec.allOnes 1024 else t.k.get n 0
def Thread.setK (t : Thread) (n : Nat) (v : MReg) : Thread := { t with k := t.k.set n v }

/-- Pop the next payload word of the running activation (R38). -/
def popMq : M Word := do
  let s ← get
  if s.isTh then
    match s.myCore.act with
    | none => illegal
    | some a =>
      match a.left with
      | [] => trap .messageOverread 0
      | w :: rest =>
        modCore fun k => { k with act := some { a with left := rest } }
        return w
  else illegal

/-- Read a scalar operand: x30 pops (R39). -/
def readX (n : BitVec 5) : M Word := do
  if n = 30#5 then popMq
  else
    let s ← get
    return s.me.getX n.toNat

/-- Write a scalar destination: x31 pushes, x30 traps (R38). -/
def writeX (n : BitVec 5) (v : Word) : M Unit := do
  if n = 30#5 then illegal
  else if n = 31#5 then
    let s ← get
    if s.me.mo.length < 31 || s.issue.sent then modMe fun t => { t with mo := t.mo ++ [v] } else trap .messageOverflow 0
  else modMe fun t => t.setX n.toNat v

def readV (n : BitVec 5) : M VReg := do return (← get).me.getV n.toNat
def writeV (n : BitVec 5) (v : VReg) : M Unit := modMe fun t => t.setV n.toNat v
def readK (n : Nat) : M MReg := do return (← get).me.getK n
def writeK (n : Nat) (v : MReg) : M Unit := modMe fun t => t.setK n v

/-! ### Byte memories: an unlisted byte reads 0 -/

def Mem.get (m : List Host.Cell) (a : Nat) : Byte := SMap.get m a 0
/-- Write one byte, keeping the canonical form: a zero byte is not listed. (DESIGN CHOICE, unsafe, log 2) -/
def Mem.put (m : List Host.Cell) (a : Nat) (b : Byte) : List Host.Cell :=
  if b = 0 then SMap.del m a else SMap.set m a b
/-- n bytes from an address, little-endian (R5). (DESIGN CHOICE, safe, log 89) -/
def Mem.read (m : List Host.Cell) (a : Nat) : Nat → Nat
  | 0 => 0
  | n + 1 => (Mem.get m a).toNat + 256 * Mem.read m (a + 1) n
/-- Write n bytes, little-endian (R5). -/
def Mem.write (m : List Host.Cell) (a : Nat) : Nat → Nat → List Host.Cell
  | 0, _ => m
  | n + 1, v => Mem.write (Mem.put m a (BitVec.ofNat 8 v)) (a + 1) n (v / 256)
/-- The canonical form: addresses strictly rising and no zero byte listed. (DESIGN CHOICE, unsafe, log 2) -/
def Mem.wf (m : List Host.Cell) : Bool := SMap.wf m && m.all (fun c => c.2 != 0)

/-! ### Local memory (R192) -/

/-- Bytes of one exchange bank. -/
def Core.xw (k : Core) : Nat :=
  match k.bound with
  | some b => b.ld.xw * 4096
  | none => 0
def Core.cw (k : Core) : Nat :=
  match k.bound with
  | some b => b.ld.cw * 8192
  | none => 0
/-- The first offset of the exchange window. -/
def Core.xb (k : Core) : Nat := 0x3E000 - 2 * k.xw

/-- The check of a local access: range, then the regions closed to thread access. -/
def localFault (k : Core) (o n : Nat) : Option (Cause × Word) :=
  if o + n > 2 ^ 18 then some (.localRange, word (o % 2 ^ 18))
  else if o + n > k.xb + k.xw then some (.localProtection, word (Nat.max o (k.xb + k.xw)))
  else none

def checkLocal (o n : Nat) : M Unit := do
  match localFault (← get).myCore o n with
  | none => return ()
  | some (c, a) => trap c a

/-- The placement checks of R422: range, alignment, then the permitted region [lo, hi). -/
def placed (o n align lo hi : Nat) : Option (Cause × Word) :=
  if o + n > 2 ^ 18 then some (.localRange, word (o % 2 ^ 18))
  else if o % align ≠ 0 then some (.misalignedAccess, word o)
  else if o < lo ∨ hi < o + n then some (.localProtection, word o)
  else none

/-- Data region (copy descriptors, R206). -/
def placedData (k : Core) (o n align : Nat) : Option (Cause × Word) := placed o n align k.cw k.xb
/-- Data region or front bank (ring headers and join records). -/
def placedFront (k : Core) (o n align : Nat) : Option (Cause × Word) := placed o n align k.cw (k.xb + k.xw)
/-- Any region open to thread access. -/
def placedOpen (k : Core) (o n align : Nat) : Option (Cause × Word) := placed o n align 0 (k.xb + k.xw)

def checkPlaced (f : Option (Cause × Word)) : M Unit :=
  match f with
  | none => return ()
  | some (c, a) => trap c a

/-- The mask of granules g to g + n - 1. -/
def granMask (g n : Nat) : BitVec 16384 := BitVec.ofNat 16384 ((2 ^ n - 1) * 2 ^ g)
def Core.setFull (k : Core) (g n : Nat) : Core := { k with full := k.full ||| granMask g n }
def Core.clearFull (k : Core) (g n : Nat) : Core := { k with full := k.full &&& ~~~ granMask g n }
def Core.allFull (k : Core) (g n : Nat) : Bool := k.full &&& granMask g n == granMask g n
def Core.allEmpty (k : Core) (g n : Nat) : Bool := k.full &&& granMask g n == 0

/-- Read bytes of a core's local memory. -/
def Core.lread (k : Core) (o n : Nat) : Nat := Mem.read k.lmem o n
/-- Granules that [o, o + n) touches. -/
def granuleCount (o n : Nat) : Nat := (o + n - 1) / 16 - o / 16 + 1
/-- A checked pair's local undo log takes the granules that change (R381). -/
def Core.undoWith (k : Core) (g n : Nat) : List Nat :=
  match k.pair with
  | .leader _ => k.undo ++ (List.range' g n).filter fun i => !k.undo.contains i
  | _ => k.undo
/-- Write bytes of a core's local memory. -/
def Core.lwrite (k : Core) (o n v : Nat) : Core :=
  { k with lmem := Mem.write k.lmem o n v, undo := k.undoWith (o / 16) (granuleCount o n) }

/-! ### Monitors (R402 to R404) -/

/-- The bin of a value (R404). -/
def histBin (v : Nat) : Nat := if v < 2 then 0 else Nat.min (Nat.log2 v) 15

/-- What a running monitor makes of a value (R402, R404). -/
def Monitor.take (m : Monitor) (v : Nat) : Monitor :=
  match fld m.config 33 32 with
  | 0 => { m with result := m.result + word v }
  | 1 => { m with result := if v < m.result.toNat then word v else m.result }
  | 2 => { m with result := if m.result.toNat < v then word v else m.result }
  | _ =>
    let b := histBin (v / 2 ^ fld m.config 38 34)
    { m with bins := m.bins.mapIdx fun i n => if i = b then (if n = BitVec.allOnes 32 then n else n + 1) else n }

/-- An event of a core, or of a die and a unit of it, as the monitors count it (R402, R403).
(DESIGN CHOICE, unsafe, log 26) -/
def monitorEvent (s : State) (core : Option Nat) (die unit code ctx v : Nat) : State :=
  { s with monitors := s.monitors.map fun p =>
      let m := p.2
      let here := match core with
        | some c => decide (128 + 8 * c ≤ p.1) && decide (p.1 < 128 + 8 * c + 8)
        | none => decide (64 * die ≤ p.1) && decide (p.1 < 64 * die + 64) && (fld m.config 55 48 == 0 || fld m.config 55 48 == unit)
      if here && bit m.config 0 && fld m.config 15 8 == code && (!bit m.config 39 || fld m.config 47 40 == ctx) then (p.1, m.take v)
      else p }

/-! ### Physical memory and slices (R83 to R87, R104 to R109) -/

/-- Memory stands behind a physical address (R83, R84). -/
def populated (s : State) (pa : Nat) : Bool :=
  if pa < 2 ^ 39 then true
  else if 2 ^ 44 ≤ pa ∧ pa < 2 ^ 44 + 8 * 2 ^ 42 then
    decide ((pa - 2 ^ 44) % 2 ^ 42 < s.cxl.getD ((pa - 2 ^ 44) / 2 ^ 42) 0)
  else false

/-- R104, before retirement. -/
def hashSlice (seed : Word) (pa : Nat) : Nat :=
  let key := word (pa / 128)
  let m := (key ^^^ seed) * 0x9E3779B97F4A7C15#64
  fld m 63 32 * 160 / 2 ^ 32

/-- The slice that serves an address (R104, R388). -/
def homeSlice (s : State) (seed : Word) (pa : Nat) : Nat :=
  let n := hashSlice seed pa
  if s.retiredSlices.contains n then (n + 80) % 160 else n

def sectorKey (slice sector : Nat) : Nat := slice * 2 ^ 41 + sector

/-- The 32 bytes of a sector as its slice serves them; none when the base die has poisoned it (R87). -/
def readSector (s : State) (slice sector : Nat) : Option (BitVec 256) :=
  match s.sectors.find? (sectorKey slice sector) with
  | some e => some e.data
  | none => if s.poison.contains sector || s.failedFills.contains (sectorKey slice sector) then none else some (BitVec.ofNat 256 (Mem.read s.mem (32 * sector) 32))

/-- A write takes its place after every lease of its sector in logical time, which ends them (R110). -/
def passLease (s : State) (key : Nat) : State :=
  match s.leases.find? key with
  | none => s
  | some t => { s with leases := SMap.del s.leases key, ltime := Nat.max s.ltime (t + 1) }

/-- Put a sector into its slice, modified, with its zero flag (R107, R108). A sector written whole leaves no poison
(R87). -/
def writeSector (s : State) (slice sector : Nat) (d : BitVec 256) (whole zero : Bool) : State :=
  let s := passLease s (sectorKey slice sector)
  { s with
    sectors := s.sectors.set (sectorKey slice sector) ⟨d, true, zero⟩
    poison := if whole then s.poison.filter (· ≠ sector) else s.poison }

/-- The sector is zero-flagged, or becomes so when it is filled (R108). -/
def zeroFlagged (s : State) (slice sector : Nat) : Bool :=
  match s.sectors.find? (sectorKey slice sector) with
  | some e => e.zero
  | none => readSector s slice sector == some 0

/-- Bytes off to off + n - 1 of a sector. -/
def sectorBytes (d : BitVec 256) (off n : Nat) : Nat := d.toNat / 256 ^ off % 256 ^ n
def sectorInsert (d : BitVec 256) (off n v : Nat) : BitVec 256 :=
  BitVec.ofNat 256 (d.toNat - d.toNat / 256 ^ off % 256 ^ n * 256 ^ off + v % 256 ^ n * 256 ^ off)

/-- Read n bytes inside one sector at a physical address; none when poisoned. -/
def readPa (s : State) (seed : Word) (pa n : Nat) : Option Nat :=
  (readSector s (homeSlice s seed pa) (pa / 32)).map fun d => sectorBytes d (pa % 32) n

/-- A fill from memory, as the monitors of the slice's die count it: for each context the slice serves the sector for
(R402, R403). Its latency is a free value. (DESIGN CHOICE, unsafe, log 26) -/
def fillMonitor (s : State) (slice sector : Nat) : State :=
  let x := ((List.find? (fun c => c.2.live && homeSlice s c.2.seed (32 * sector) == slice) s.ctxs).map (·.1)).getD 0
  { monitorEvent s none (slice / 80) (slice % 80 + 1) 33 x (Config.freeLatency s.free) with free := s.free + 1 }

/-- A read fetches the sector that it needs and the slice lacks (R107); a fill of 32 zero bytes sets its zero flag
(R108). -/
def fetchSector (s : State) (slice sector : Nat) : State :=
  match s.sectors.find? (sectorKey slice sector) with
  | some _ => s
  | none =>
    match readSector s slice sector with
    | none => s
    | some d =>
      let t := fillMonitor s slice sector
      { t with sectors := t.sectors.set (sectorKey slice sector) ⟨d, false, d == 0⟩ }

/-- Write n bytes inside one sector; a partial write fetches a sector that the slice lacks (R107). None when the sector is
poisoned and the write is partial (R118). -/
def writePa (s : State) (seed : Word) (pa n v : Nat) : Option State :=
  let sl := homeSlice s seed pa
  if n = 32 ∧ pa % 32 = 0 then some (writeSector s sl (pa / 32) (BitVec.ofNat 256 v) true (BitVec.ofNat 256 v == 0))
  else (readSector s sl (pa / 32)).map fun d =>
    -- only a nonzero byte clears the zero flag
    writeSector (fetchSector s sl (pa / 32)) sl (pa / 32) (sectorInsert d (pa % 32) n v) false
      (zeroFlagged s sl (pa / 32) && v % 256 ^ n == 0)

/-! ### Leases and replicas (R107 to R111) -/

/-- An atomic on a zero-flagged sector allocates its data (R127). -/
def allocSector (s : State) (slice sector : Nat) : State :=
  match s.sectors.find? (sectorKey slice sector) with
  | some e => { s with sectors := s.sectors.set (sectorKey slice sector) { e with zero := false } }
  | none => s

/-- A read copy of a sector receives a lease of n logical units (R110). (DEDUCED, safe, log 24) -/
def grantLease (s : State) (slice sector n : Nat) : State :=
  let key := sectorKey slice sector
  { s with leases := s.leases.set key (Nat.max (s.leases.get key 0) (s.ltime + n)) }

/-- The near slice of a core (R111). -/
def nearSlice (c : Nat) : Nat := 80 * (c / 384) + 5 * (c % 384 / 12) / 2

/-- A replica of a context's sector in the near slice of a core. -/
def Replica.isAt (r : Replica) (core ctx sector : Nat) : Bool := r.slice == nearSlice core && r.ctx == ctx && r.sector == sector

/-- The replica that answers a core's read: its lease has not ended (R111). -/
def replicaFor (s : State) (core ctx sector : Nat) : Option Replica :=
  if 768 ≤ core then none else s.replicas.find? fun r => r.isAt core ctx sector && decide (s.ltime ≤ r.lease)

/-- Read n bytes inside one sector as a core's threads and engines do: from a replica whose lease runs, else from the
home slice (R17, R111). -/
def readNear (s : State) (core ctx pa n : Nat) : Option Nat :=
  match replicaFor s core ctx (pa / 32) with
  | some r => some (sectorBytes r.data (pa % 32) n)
  | none => readPa s (s.ctx ctx).seed pa n

/-- A read renews the replica whose lease has ended from the home slice (R111). -/
def renewReplica (s : State) (core ctx slice sector : Nat) : State :=
  match readSector s slice sector with
  | none => s
  | some d =>
    { s with replicas := s.replicas.map fun r =>
        if r.isAt core ctx sector then { r with data := d, lease := s.leases.get (sectorKey slice sector) 0 } else r }

/-- A read by a core takes its place at a replica, or at its home slice, which grants a lease of 64 (R17, R107, R110,
R111). (DEDUCED, safe, log 24) -/
def leaseRead (s : State) (core ctx pa : Nat) : State :=
  if (replicaFor s core ctx (pa / 32)).isSome then s
  else
    let n := homeSlice s (s.ctx ctx).seed pa
    let s := grantLease (fetchSector s n (pa / 32)) n (pa / 32) 64
    if core < 768 then renewReplica s core ctx n (pa / 32) else s

/-- One byte as a context reads it: the model's read of one byte of global memory. -/
def readByte (s : State) (seed : Word) (pa : Nat) : Option Byte := (readPa s seed pa 1).map (BitVec.ofNat 8)

/-! ### Translation (R91 to R97) -/

/-- A translated part: its physical address, the rights of the access, the entry to cache, the page-table update that
sets A or D, and the addresses of the entries that the walk read. -/
structure Xlat where
  pa : Nat
  nd : Rights
  fill : Option TlbEntry
  update : Option (Nat × Nat)
  walk : List Nat
  deriving DecidableEq, Repr

/-- R94: an entry with V = 1 is malformed. lvl is 4 for the root. (DEDUCED, unsafe, log 22) -/
def badPte (s : State) (lvl : Nat) (va e : Nat) : Bool :=
  let w := word e
  let lf := bit w 1
  let frame := fld w 45 12 * 4096
  (fld w 63 46 ≠ 0 || bit w 11 || fld w 7 6 ≠ 0)
  || (!lf && lvl == 0)
  || (lf && decide (3 ≤ lvl))
  || (!lf && (fld w 5 2 ≠ 0 || fld w 10 8 ≠ 0))
  || (bit w 3 && !bit w 2)
  || (bit w 10 && lvl != 0)
  || (lf && lvl == 2 && frame % 2 ^ 30 ≠ 0)
  || (lf && lvl == 1 && frame % 2 ^ 21 ≠ 0)
  || (lf && lvl == 0 && bit w 10 && fld w 15 12 ≠ 0 && fld w 15 12 ≠ va / 4096 % 16)
  || (!lf && !populated s frame)

/-- Walk from a table at a level: the leaf's entry, its address and its level (R92). (DEDUCED, unsafe, log 22) -/
def walkFrom (s : State) (seed : Word) (va : Nat) : Nat → Nat → Except Cause (Nat × Nat × Nat)
  | table, 0 =>
    let a := table + 8 * (va / 2 ^ 12 % 512)
    match readPa s seed a 8 with
    | none => .error .uncorrectableError
    | some e => if e % 2 = 0 then .error .notPresent else if badPte s 0 va e then .error .pageTableFormat else .ok (e, a, 0)
  | table, l + 1 =>
    let a := table + 8 * (if l + 1 = 4 then va / 2 ^ 48 % 16 else va / 2 ^ (12 + 9 * (l + 1)) % 512)
    match readPa s seed a 8 with
    | none => .error .uncorrectableError
    | some e =>
      if e % 2 = 0 then .error .notPresent
      else if badPte s (l + 1) va e then .error .pageTableFormat
      else if bit (word e) 1 then .ok (e, a, l + 1)
      else walkFrom s seed va (fld (word e) 45 12 * 4096) l

/-- The addresses of the entries that a walk reads. -/
def walkReads (s : State) (seed : Word) (va : Nat) : Nat → Nat → List Nat
  | table, 0 => [table + 8 * (va / 2 ^ 12 % 512)]
  | table, l + 1 =>
    let a := table + 8 * (if l + 1 = 4 then va / 2 ^ 48 % 16 else va / 2 ^ (12 + 9 * (l + 1)) % 512)
    a :: match readPa s seed a 8 with
      | none => []
      | some e =>
        if e % 2 = 0 || badPte s (l + 1) va e || bit (word e) 1 then []
        else walkReads s seed va (fld (word e) 45 12 * 4096) l

/-- log2 of the page of a leaf. -/
def leafSize (lvl e : Nat) : Nat := if lvl = 0 then (if bit (word e) 10 then 16 else 12) else 12 + 9 * lvl

/-- Whether rights serve an access (R96). -/
def rightsOk (need : Rights) (sup r w x u : Bool) : Bool :=
  (sup || u) && (match need with | .read => r | .write => w | .atomic => r && w | .execute => x)

def needsWrite : Rights → Bool
  | .write | .atomic => true
  | _ => false

/-- An access with these rights after which nothing has been written: its walk sets A only (R97). -/
def Xlat.withoutD (s : State) (ctx : Nat) (x : Xlat) : Xlat :=
  match x.update with
  | none => x
  | some (a, _) =>
    let w := word ((readPa s (s.ctx ctx).seed a 8).getD 0)
    { x with
      update := if bit w 8 then none else some (a, (w ||| 0x100#64).toNat)
      fill := x.fill.map fun e => { e with d := bit w 9 } }

/-- The cached translation of an address (R98). (DEDUCED, safe, log 17) -/
def tlbFind (k : Core) (ctx va : Nat) : Option TlbEntry :=
  k.tlb.find? fun e => e.ctx == ctx && va / 2 ^ e.size == e.page

/-- Translate and check one part, starting at va (R91, R96, R97, R85).
(DEDUCED, safe, log 17; DEDUCED, unsafe, log 22; DEDUCED, safe, log 86) -/
def xlate (s : State) (core ctx va : Nat) (nd : Rights) (sup : Bool) : Except Cause Xlat :=
  if 2 ^ 52 ≤ va then .error .addressRange
  else
    let cx := s.ctx ctx
    let viaWalk : Except Cause Xlat :=
      match walkFrom s cx.seed va (cx.root.toNat * 128) 4 with
      | .error c => .error c
      | .ok (e, a, lvl) =>
        let w := word e
        let sz := leafSize lvl e
        if rightsOk nd sup (bit w 2) (bit w 3) (bit w 4) (bit w 5) then
          let e' := (if needsWrite nd then w ||| 0x300#64 else w ||| 0x100#64)
          let frame := fld w 45 12 * 4096 / 2 ^ sz
          .ok { pa := frame * 2 ^ sz + va % 2 ^ sz
                nd := nd
                walk := walkReads s cx.seed va (cx.root.toNat * 128) 4
                fill := some ⟨ctx, va / 2 ^ sz, sz, frame, bit w 2, bit w 3, bit w 4, bit w 5, bit e' 9⟩
                update := if e' = w then none else some (a, e'.toNat) }
        else .error .accessRights
    let r :=
      match tlbFind (s.core core) ctx va with
      | some t =>
        if needsWrite nd && !t.d then viaWalk
        else if rightsOk nd sup t.r t.w t.x t.u then
          .ok { pa := t.frame * 2 ^ t.size + va % 2 ^ t.size, nd := nd, fill := none, update := none, walk := [] }
        else .error .accessRights
      | none => viaWalk
    match r with
    | .error c => .error c
    | .ok x => if populated s x.pa then .ok x else .error .nonexistentMemory

/-- Cache a translation: at most 1,088 entries (R98), replacing one of the same page. (DEDUCED, safe, log 17) -/
def tlbFill (k : Core) (e : TlbEntry) : Core :=
  { k with tlb := (e :: k.tlb.filter fun t => !(t.ctx == e.ctx && t.page == e.page && t.size == e.size)).take 1088 }

/-! ### Accesses that have been checked -/

/-- One access at a slice, as the monitors of the slice's die count it (R402, R403). -/
def countAccess (s : State) (n ctx : Nat) : State := monitorEvent s none (n / 80) (n % 80 + 1) 32 ctx 1

/-- One access at its home slice counts. (DESIGN CHOICE, unsafe, log 26) -/
def sliceAccess (s : State) (ctx pa : Nat) : State := countAccess s (homeSlice s (s.ctx ctx).seed pa) ctx

/-- What an access does at the slices beside moving its bytes: it counts, a read fetches and leases its sector or is
answered by a replica, an atomic allocates it (R107, R108, R110, R111, R127). -/
def touchSlice (s : State) (core ctx : Nat) (nd : Rights) (pa : Nat) : State :=
  let n := homeSlice s (s.ctx ctx).seed pa
  match nd with
  | .write => countAccess s n ctx
  | .read =>
    let at_ := if (replicaFor s core ctx (pa / 32)).isSome then nearSlice core else n
    leaseRead (countAccess s at_ ctx) core ctx pa
  | .execute => leaseRead (countAccess s n ctx) 768 ctx pa
  | .atomic => allocSector (fetchSector (countAccess s n ctx) n (pa / 32)) n (pa / 32)

/-- The walk of a translation: its reads, the update of A and D, and the fill (R97). -/
def applyWalk (s : State) (core ctx : Nat) (x : Xlat) : State :=
  let s := x.walk.foldl (fun s a => touchSlice s 768 ctx .read a) s
  let s := match x.update with
    | none => s
    | some (a, e) => (writePa (sliceAccess s ctx a) (s.ctx ctx).seed a 8 e).getD s
  match x.fill with
  | none => s
  | some e => s.setCore core (tlbFill (s.core core) e)

/-- Perform what a checked translation entails: its walk, and the access it is made for reaches its slice (R97, R104).
(DEDUCED, safe, log 86) -/
def applyXlat (s : State) (core ctx : Nat) (x : Xlat) : State := touchSlice (applyWalk s core ctx x) core ctx x.nd x.pa

/-- Translate the parts of one access in order; the first that faults decides (R102). -/
def xlateParts (s : State) (core ctx : Nat) (nd : Rights) (sup : Bool) :
    List (Nat × Nat) → Except (Cause × Nat) (List Xlat)
  | [] => .ok []
  | (va, _) :: ps =>
    match xlate s core ctx va nd sup with
    | .error c => .error (c, va)
    | .ok x =>
      match xlateParts s core ctx nd sup ps with
      | .error e => .error e
      | .ok xs => .ok (x :: xs)

/-- The sectors, or the pieces of sectors, that [va, va + n) touches, in ascending order (R120). Fuel: the number
of sectors at most. -/
def sectorParts (va : Nat) : Nat → Nat → List (Nat × Nat)
  | 0, _ => []
  | fuel + 1, n =>
    if n = 0 then []
    else
      let len := Nat.min n (32 - va % 32)
      (va, len) :: sectorParts (va + len) fuel (n - len)

/-- All parts of [va, va + n). -/
def partsOf (va n : Nat) : List (Nat × Nat) := sectorParts va (n / 32 + 2) n

/-! ### Held sectors (R139, R141, R147, R327) -/

/-- The sector is held by another agent. -/
def heldByOther (s : State) (who : Agent) (slice sector : Nat) : Bool :=
  s.holds.any fun h => h.sector == sector && h.slice == slice && h.owner != who

def partHeld (s : State) (who : Agent) (seed : Word) (x : Xlat) : Bool :=
  heldByOther s who (homeSlice s seed x.pa) (x.pa / 32)

/-- Another checked pair holds a sector for which the predicate is true. -/
def pairHolds (s : State) (who : Agent) (f : Hold → Bool) : Bool :=
  s.holds.any fun h => h.owner != who && (match h.owner with | .thread _ 9 => f h | _ => false)

/-- What a thread waits for at held sectors: they are those of a checked pair, or of another agent (R139, R147). -/
def heldWaitOf (s : State) (who : Agent) (f : Hold → Bool) : Wait := if pairHolds s who f then .heldPair else .held

/-- A hold is on the sector of a physical address. -/
def Hold.covers (h : Hold) (s : State) (seed : Word) (pa : Nat) : Bool := h.sector == pa / 32 && h.slice == homeSlice s seed pa

/-- The wait at the sectors of some physical addresses. -/
def sectorsWait (s : State) (who : Agent) (seed : Word) (pas : List Nat) : Wait :=
  heldWaitOf s who fun h => pas.any (h.covers s seed)

/-- The wait at the sectors of some translated parts. -/
def partsWait (s : State) (who : Agent) (seed : Word) (xs : List Xlat) : Wait := sectorsWait s who seed (xs.map (·.pa))

/-- The entries that the walk of an access reads: none when its translation is cached (R97, R98). -/
def accessWalk (s : State) (core ctx : Nat) (nd : Rights) (va : Nat) : List Nat :=
  let cached := match tlbFind (s.core core) ctx va with
    | some t => !needsWrite nd || t.d
    | none => false
  if decide (va < 2 ^ 52) && !cached then walkReads s (s.ctx ctx).seed va ((s.ctx ctx).root.toNat * 128) 4 else []

/-- The walk that an access entails would read an entry that another agent holds: it waits (R97, R139). -/
def walkHeld (s : State) (who : Agent) (core ctx : Nat) (nd : Rights) (va : Nat) : Bool :=
  let seed := (s.ctx ctx).seed
  !s.holds.isEmpty && (accessWalk s core ctx nd va).any fun a => heldByOther s who (homeSlice s seed a) (a / 32)

/-- The wait at the entries that the walks of some accesses read. -/
def walkWait (s : State) (who : Agent) (core ctx : Nat) (nd : Rights) (vas : List Nat) : Wait :=
  sectorsWait s who (s.ctx ctx).seed (vas.flatMap (accessWalk s core ctx nd))

/-- Hold a sector for an agent, keeping what stood there. (DEDUCED, unsafe, log 16) -/
def addHold (s : State) (who : Agent) (slice sector : Nat) : State :=
  if s.holds.any fun h => h.owner == who && h.sector == sector && h.slice == slice then s
  else { s with holds := ⟨who, sector, slice, readSector s slice sector⟩ :: s.holds }

/-- Give up every hold of an agent. -/
def dropHolds (s : State) (who : Agent) : State := { s with holds := s.holds.filter (·.owner != who) }

/-- The read copies of a sector that its holder has changed are gone: their leases end, and its replicas are dropped (R17,
R111). -/
def endCopies (s : State) (slice sector : Nat) : State :=
  let s := passLease s (sectorKey slice sector)
  { s with replicas := s.replicas.filter fun r => !(r.sector == sector && homeSlice s (s.ctx r.ctx).seed (32 * sector) == slice) }

/-- Restore what stood in the sectors an agent holds, and give them up: nobody keeps a copy of what it had stored (R147,
R327). -/
def undoHolds (s : State) (who : Agent) : State :=
  let mine := s.holds.filter (·.owner == who)
  dropHolds (mine.foldl (fun s h =>
    let s := endCopies s h.slice h.sector
    match h.old with
    | some d => { s with sectors := s.sectors.set (sectorKey h.slice h.sector) ⟨d, true, false⟩ }
    | none =>
      -- it was poisoned, or its fill had failed
      let failed := s.failedFills.contains (sectorKey h.slice h.sector)
      { s with
        sectors := SMap.del s.sectors (sectorKey h.slice h.sector)
        poison := if failed || s.poison.contains h.sector then s.poison else h.sector :: s.poison }) s) who

/-- The agent a thread's accesses belong to: a checked pair's leader core acts as one agent (R147), but for what an
unpinned activation holds back until HEND (R327). -/
def State.agentOf (s : State) (c t : Nat) : Agent :=
  let k := s.core c
  match k.pair with
  | .none => .thread c t
  | _ => if t = 4 && (match k.act with | some a => !a.pinned | none => false) then .thread c 4 else .thread c 9

/-- The stores of an activation are released; on a checked pair the interval goes on holding them (R147, R330). -/
def releaseStores (s : State) (c : Nat) : State :=
  match (s.core c).pair with
  | .none => dropHolds s (.thread c 4)
  | _ => { s with holds := s.holds.map fun (h : Hold) => if h.owner = .thread c 4 then { h with owner := .thread c 9 } else h }
def State.agent (s : State) : Agent := s.agentOf s.cid s.tid

/-! ### Events in flight -/

def State.emit (s : State) (e : Event) : State := { s with flight := s.flight ++ [e] }
def State.emitAll (s : State) (es : List Event) : State := { s with flight := s.flight ++ es }
def emitM (e : Event) : M Unit := modify fun s => s.emit e

/-- Source word without its payload count (R324). -/
def sourceWord (kind pkg unit : Nat) : Word := word (kind * 2 ^ 26 + pkg * 2 ^ 10 + unit)

/-- The next number of a unit that is no thread: slices 0-159, core law units 160 + core, dispatch 1000 (R319). -/
def State.nextUnitSeq (s : State) (u : Nat) : Nat × State :=
  let n := s.unitSeq.get u 0 + 1
  (n, { s with unitSeq := s.unitSeq.set u n })

/-- Count a law-action error of a context (R176, R335). -/
def lawError (s : State) (x : Nat) : State := s.setCtx x { s.ctx x with lawErr := (s.ctx x).lawErr + 1 }

/-! ### Accesses of engines, kiosks and other units -/

/-- How a unit's access can fail: a fault with its address, or a sector that another agent holds, with the wait of a thread
there (R139, R147). -/
inductive Denied where
  | fault (c : Cause) (va : Nat)
  | held (w : Wait)
  deriving DecidableEq, Repr

/-- Translate one part of a unit's access, and check that it is not held. Index 768 stands for the units of the package, which
have no TLB. (DESIGN CHOICE, unsafe, log 30) -/
def unitCheck (s : State) (who : Agent) (core ctx : Nat) (sup : Bool) (nd : Rights) (va : Nat) : Except Denied Xlat :=
  if walkHeld s who core ctx nd va then .error (.held (walkWait s who core ctx nd [va]))
  else
    match xlate s core ctx va nd sup with
    | .error c => .error (.fault c va)
    | .ok x =>
      if partHeld s who (s.ctx ctx).seed x then .error (.held (partsWait s who (s.ctx ctx).seed [x]))
      else .ok (if core = 768 then { x with fill := none } else x)

/-- The same, and perform what the translation entails. -/
def unitXlate (s : State) (who : Agent) (core ctx : Nat) (sup : Bool) (nd : Rights) (va : Nat) :
    Except Denied (Xlat × State) :=
  match unitCheck s who core ctx sup nd va with
  | .error d => .error d
  | .ok x => .ok (x, applyXlat s core ctx x)

/-- Read parts one after another, with given rights. -/
def unitReadAs (nd : Rights) (s : State) (who : Agent) (core ctx : Nat) (sup : Bool) :
    List (Nat × Nat) → Except Denied (Nat × State)
  | [] => .ok (0, s)
  | (va, n) :: ps =>
    match unitXlate s who core ctx sup nd va with
    | .error e => .error e
    | .ok (x, s) =>
      match readNear s core ctx x.pa n with
      | none => .error (.fault .uncorrectableError va)
      | some v =>
        match unitReadAs nd s who core ctx sup ps with
        | .error e => .error e
        | .ok (w, s) => .ok (v + 256 ^ n * w, s)

/-- Read parts one after another. (DEDUCED, safe, log 86) -/
def unitRead (s : State) (who : Agent) (core ctx : Nat) (sup : Bool) (ps : List (Nat × Nat)) : Except Denied (Nat × State) :=
  unitReadAs .read s who core ctx sup ps

/-- Write parts one after another. What was written before a fault remains: the state comes with the answer. -/
def unitWrite (s : State) (who : Agent) (core ctx : Nat) (sup : Bool) : List (Nat × Nat) → Nat → Option Denied × State
  | [], _ => (none, s)
  | (va, n) :: ps, v =>
    match unitXlate s who core ctx sup .write va with
    | .error e => (some e, s)
    | .ok (x, s) =>
      match writePa s (s.ctx ctx).seed x.pa n (v % 256 ^ n) with
      | none => (some (.fault .uncorrectableError va), s)
      | some s => unitWrite s who core ctx sup ps (v / 256 ^ n)

/-! ### Notices (R331, R424) -/

/-- A read in a context's virtual memory by the package's hardware (R423). -/
def dispRead (s : State) (ctx : Nat) (va n : Nat) : Except Denied (Nat × State) := unitRead s .other 768 ctx true (partsOf va n)

/-- A write in a context's virtual memory by the package's hardware (R423). -/
def dispWrite (s : State) (ctx : Nat) (va n v : Nat) : Except Denied State :=
  match unitWrite s .other 768 ctx true (partsOf va n) v with
  | (none, t) => .ok t
  | (some e, _) => .error e

/-- The slices write a range through to memory at once (R388). -/
def writeThrough (s : State) (ctx va n : Nat) : State :=
  (partsOf va n).foldl (fun s p =>
    match xlate s 768 ctx p.1 .read true with
    | .error _ => s
    | .ok x =>
      let key := sectorKey (homeSlice s (s.ctx ctx).seed x.pa) (x.pa / 32)
      match s.sectors.find? key with
      | none => s
      | some e =>
        { s with mem := Mem.write s.mem (x.pa / 32 * 32) 32 e.data.toNat, sectors := s.sectors.set key { e with modified := false } }) s

/-- A write of the dispatch hardware that is written through (R388, R423). -/
def dispStore (s : State) (ctx : Nat) (va n v : Nat) : Except Denied State :=
  (dispWrite s ctx va n v).map fun s => writeThrough s ctx va n

/-- Forty doublewords as one number, the first lowest. -/
def wordsNat : List Word → Nat
  | [] => 0
  | w :: ws => w.toNat + 2 ^ 64 * wordsNat ws

/-- The address of a queue's header (R351). -/
def queueHdr (s : State) (x q : Nat) : Nat := (s.ctx x).qbase.toNat + 64 * q

/-- Words padded to a notice's 40 doublewords. -/
def noticeWords (ws : List Word) : List Word := (ws ++ List.replicate 40 0).take 40

/-- The doublewords of a notice of R424, and its number in its context. -/
def noticeOf (s : State) (x core : Nat) (dead : Bool) (cause : BitVec 8) (payload : List Word) : (Nat × List Word) × State :=
  let cx := s.ctx x
  let n := cx.notices + 1
  let s := s.setCtx x { cx with notices := n }
  let (sq, s) := s.nextUnitSeq 1000
  let w0 := word (8 * 2 ^ 29) ||| sourceWord 7 s.pkg core
  let w2 := word (boolNat dead * 2 ^ 63 + cause.toNat * 2 ^ 55 + 255 * 2 ^ 26 + s.pkg * 2 ^ 10)
  ((n, noticeWords ([w0, word sq, w2, word n] ++ payload)), s)

/-- A page item of the dispatch hardware for a queue's notice or record (R100, R423). In host-assisted mode its notice
joins those held for queue 0 and is written from there (R363, R424). -/
def askQueuePage (s : State) (x q va : Nat) : State :=
  if s.pageItems.any fun i => i.asker == .queue x q then s
  else
    let id := s.pageSeq + 1
    let (n, s) :=
      if bit (s.ctx x).modes 1 then
        let ((n, ws), s) := noticeOf s x 0 false 0 [1, word va, 2, word (7 * 2 ^ 10), 0, 0, 0]
        let k := s.queue x 0
        (some n, (s.setQueue x 0 { k with heldNotices := k.heldNotices ++ [ws] }).emit (.commandAccept x 0))
      else (none, s)
    { s with pageSeq := id, pageItems := s.pageItems ++ [⟨id, n, x, .queue x q, word va, false⟩] }

/-- The write of a queue's state into its header has been denied: it waits at a held sector, and the page-fault service is
asked when it may be; after another fault the queue is served no further (R100, R139, R423). -/
def qStateDenied (s : State) (x q : Nat) (ask : Bool) : Denied → State
  | .held _ => s.emit (.commandAccept x q)
  | .fault c va =>
    if c = .notPresent ∧ ask then askQueuePage s x q va
    else s.setQueue x q { s.queue x q with state := 3, stateDue := false }

/-- Write a queue's state into its header (R351, R423). (DEDUCED, unsafe, log 101) -/
def writeQState (s : State) (x q : Nat) (ask : Bool) : State :=
  let h := queueHdr s x q + 14
  match dispRead s x h 1 with
  | .error d => qStateDenied s x q ask d
  | .ok (b, t) =>
    match dispStore t x h 1 (b / 4 * 4 + (s.queue x q).state) with
    | .error d => qStateDenied s x q ask d
    | .ok t => t.setQueue x q { t.queue x q with stateDue := false }

/-- Give a queue a state, in the header too: what cannot be written at once stays due (R351, R423).
(DEDUCED, unsafe, log 101) -/
def setQState (s : State) (x q st : Nat) : State :=
  writeQState (s.setQueue x q { s.queue x q with state := st, stateDue := true }) x q true

/-- A fault has been delivered for an access of dispatch at an address: the queue is served no further, and state 3 is written
if the header can be written (R423). (DEDUCED, unsafe, log 101) -/
def failQueue (s : State) (x q va : Nat) : State :=
  let inHdr := decide (queueHdr s x q ≤ va) && decide (va < queueHdr s x q + 64)
  writeQState (s.setQueue x q { s.queue x q with state := 3, stateDue := true }) x q !inHdr

/-- How the write of a notice ends. -/
inductive NoticeEnd where
  | written (s : State)
  | full
  | denied (d : Denied)

/-- Write a notice into a queue's ring and advance nwr (R331, R351). The MSI-X write follows (R396). -/
def tryNotice (s : State) (x q : Nat) (ws : List Word) : NoticeEnd :=
  let k := s.queue x q
  match dispRead s x (queueHdr s x q + 16) 4 with
  | .error e => .denied e
  | .ok (nrd, s) =>
    if (k.nwr + 2 ^ 32 - nrd) % 2 ^ 32 = 2 ^ (k.lnote + 4) then .full
    else
      match dispStore s x (k.nbase.toNat + 320 * (k.nwr % 2 ^ (k.lnote + 4))) 320 (wordsNat ws) with
      | .error e => .denied e
      | .ok s =>
        let n := (k.nwr + 1) % 2 ^ 32
        match dispStore s x (queueHdr s x q + 20) 4 n with
        | .error e => .denied e
        | .ok s =>
          let s := s.setQueue x q { k with nwr := n }
          .written { s with msix := s.msix ++ [16 * x + q] }

/-- Hold notices of a queue: while the ring is full, while the page-fault service runs, while another agent holds a
sector, and after a fault, which gives the queue state 3 (R139, R331, R423). -/
def holdNotices (s : State) (x q : Nat) (held : List (List Word)) (e : NoticeEnd) : State :=
  let s := s.setQueue x q { s.queue x q with heldNotices := held }
  match e with
  | .denied (.held _) => s.emit (.commandAccept x q)
  | .denied (.fault .notPresent va) => askQueuePage s x q va
  | .denied (.fault _ va) => failQueue s x q va
  | _ => s

/-- Write a notice, behind those that are held already. -/
def putNotice (s : State) (x q : Nat) (ws : List Word) : State :=
  let k := s.queue x q
  if k.heldNotices ≠ [] then s.setQueue x q { k with heldNotices := k.heldNotices ++ [ws] }
  else
    match tryNotice s x q ws with
    | .written s => s
    | e => holdNotices s x q [ws] e

/-- Write held notices in order, as far as they go. -/
def flushNotices (s : State) (x q : Nat) : List (List Word) → State
  | [] => s
  | ws :: rest =>
    match tryNotice s x q ws with
    | .written s => flushNotices (s.setQueue x q { s.queue x q with heldNotices := rest }) x q rest
    | e => holdNotices s x q (ws :: rest) e

/-- Post a notice of R424: the payload after the notice number. Answers the notice number. -/
def postNotice (s : State) (x q core : Nat) (dead : Bool) (cause : BitVec 8) (payload : List Word) : Nat × State :=
  let ((n, ws), s) := noticeOf s x core dead cause payload
  (n, putNotice s x q ws)

/-! ### Containment (R366, R383 to R385) -/

/-- The launch that a record names (R357, R362). (DEDUCED, unsafe, log 97) -/
def recordRun (s : State) (r : BindRec) : Option (Nat × LaunchRun) :=
  List.find? (fun (p : Nat × LaunchRun) => p.2.order == r.order && p.2.ctx == r.ctx && p.2.descAddr == r.desc) s.launches

/-- The launch bound on a core and its key. -/
def State.boundKey (s : State) (c : Nat) : Option (Nat × LaunchRun) := ((s.core c).bound.map (·.record)).bind (recordRun s)

/-- An error in a done word being prepared: the err bit, and the first cause; a barrier timeout is a thread fault too
(R310, R316). -/
def Tree.withError (t : Tree) (errBit : Nat) (cause : BitVec 8) : Tree :=
  { t with
    err := t.err ||| BitVec.ofNat 16 (if errBit = 2 then 5 else 2 ^ errBit)
    cause := if t.cause = 0 then cause else t.cause }

/-- Record an error in a core's done word. -/
def coreError (s : State) (c errBit : Nat) (cause : BitVec 8) : State :=
  let k := s.core c
  s.setCore c { k with tree := k.tree.withError errBit cause }

/-- The key under which what a core has set aside of a launch is kept (R360). -/
def savedKey (order c : Nat) : Nat := 1024 * order + c

/-- The deque of a launch on a core, also where the launch is pre-empted there. -/
def dequeOf (s : State) (order c : Nat) : List TaskRec :=
  match s.savedTasks.find? (savedKey order c) with
  | some a => a.deque
  | none => (s.core c).deque

/-- The root sends the stop to every core of the launch (R316, R385). -/
def stopLaunch (s : State) (c : Nat) : State :=
  match (s.core c).bound with
  | none => s
  | some b =>
    let stopped := fun (d : Nat) => (s.core d).tree.stopped && s.coreOrder d == b.record.order
    s.emitAll ((b.ld.cores.filter fun d => !stopped d).map fun d => Event.launchStop d b.record.order)

/-- A deque of 128 records is full (R292). -/
def Core.dequeFull (k : Core) : Bool := decide (128 ≤ k.deque.length)

/-- Records that wait for a place in the deque take the places that have come free (R384). -/
def settlePushes (k : Core) : Core :=
  let n := 128 - k.deque.length
  { k with deque := k.deque ++ k.pushes.take n, pushes := k.pushes.drop n }

/-- The next live core of a launch after c, ascending and wrapping (R384). (DEDUCED, unsafe, log 49) -/
def nextLive (s : State) (ld : LaunchDesc) (order c : Nat) : Option Nat :=
  let cs := ld.cores
  let ok := fun d => d != c && !(s.core d).fenced && !(s.core d).retired
  let wrap := cs.filter (fun d => decide (c < d)) ++ cs.filter (fun d => decide (d < c))
  match wrap.find? (fun d => ok d && decide ((dequeOf s order d).length < 128)) with
  | some d => some d
  | none => wrap.find? ok

/-- Push a record again onto the deque of a launch on a core, where it waits while the deque is full (R384).
(DEDUCED, unsafe, log 49) -/
def pushAgain (s : State) (order d : Nat) (r : TaskRec) : State :=
  match s.savedTasks.find? (savedKey order d) with
  | some a => { s with savedTasks := s.savedTasks.set (savedKey order d) { a with pushes := a.pushes ++ [r] } }
  | none =>
    let k := s.core d
    s.setCore d (settlePushes { k with pushes := k.pushes ++ [r] })

/-- Push a restartable task of a launch again (R384): its mirrored record goes to the next live core, at most twice, and waits
there while every live deque is full. Answers none when the fault is contained at the launch level.
(DEDUCED, unsafe, log 49) -/
def repushTask (s : State) (ld : LaunchDesc) (order c : Nat) (task : Option TaskRec) : Option State :=
  task.bind fun r =>
    if !ld.rst || decide (2 ≤ r.tries) || (s.core r.origin).fenced || (s.core r.origin).retired then none
    else (nextLive s ld order c).map fun d => pushAgain s order d { r with tries := r.tries + 1 }

/-- The causes that end a restartable task only (R383). -/
def restartCause : Cause → Bool
  | .uncorrectableError | .heartbeat | .divergence | .unitLost => true
  | _ => false

/-- The initial strand of a slot has finished (R297). -/
def finishInitial (s : State) (c i : Nat) : State := s.setThread c i { s.thread c i with finished := true }

/-- End the strand of a thread: it becomes idle. (DEDUCED, safe, log 81) -/
def endStrand (s : State) (c t : Nat) : State :=
  let th := s.thread c t
  let s := if bit th.taskref 28 then s else finishInitial s c th.initial
  s.setThread c t { s.thread c t with strand := .idle, wait := .none, progress := none, task := none, search := ⟨0, [], 0, 0, none⟩ }

/-- The launch takes its fault path (R385): where it is set aside on the core of the fault, its done word is prepared in what
was set aside, and the stop reaches each core when the launch is bound there again. -/
def containLaunch (s : State) (c errBit : Nat) (cause : BitVec 8) (r : LaunchRun) : State :=
  match launchHere s c r.order with
  | some true => stopLaunch (coreError s c errBit cause) c
  | _ =>
    let key := savedKey r.order c
    let s := match s.savedTasks.find? key with
      | none => s
      | some a => { s with savedTasks := s.savedTasks.set key { a with tree := a.tree.withError errBit cause } }
    s.emitAll (r.ld.cores.map fun d => Event.launchStop d r.order)

/-- Post a fault of a launch for the host's triage, with the innermost level that holds it (R363 bit 4, R424). -/
def postFault (s : State) (x q c t order : Nat) (cause : BitVec 8) (addr : Word) (errBit inner : Nat)
    (task : Option TaskRec) : State :=
  let (n, s) := postNotice s x q c false 0 [3, (cause.zeroExtend 64), word c, addr, word inner]
  { s with triage := s.triage ++ [⟨n, x, c, t, cause, errBit, inner, order, task⟩] }

/-- A fault beyond a handler activation is contained at the launch level, or posted for the host's triage with the
innermost level that holds it (R363 bit 4, R385, R424). `inner` is 1 with a task that can be pushed again, else 2.
(DEDUCED, unsafe, log 75; DEDUCED, unsafe, log 80) -/
def launchFault (s : State) (c t : Nat) (cause : BitVec 8) (addr : Word) (errBit inner : Nat) (task : Option TaskRec) : State :=
  let x := s.coreCtx c
  if bit (s.ctx x).modes 4 then
    postFault s x (match (s.core c).bound with | some b => b.record.queue | none => 0) c t (s.coreOrder c) cause addr errBit inner task
  else stopLaunch (coreError s c errBit cause) c

/-- The same of a launch that may have been set aside on the core; nothing, where it exists no longer. -/
def orderFault (s : State) (c t order : Nat) (cause : BitVec 8) : State :=
  if launchHere s c order = some true then launchFault s c t cause 0 0 2 none
  else
    match List.find? (fun (p : Nat × LaunchRun) => p.2.order == order) s.launches with
    | none => s
    | some p =>
      if bit (s.ctx p.2.ctx).modes 4 then postFault s p.2.ctx p.2.queue c t order cause 0 0 2 none
      else containLaunch s c 0 cause p.2

/-- A thread fault (R366): the strand ends, its thread looks for work again (R298), and its work is
contained at the innermost level (R383), or posted for the host's triage (R363 bit 4).
(DEDUCED, unsafe, log 75; DEDUCED, safe, log 81) -/
def threadFault (s : State) (c t : Nat) (cause : Cause) (addr : Word) (errBit : Nat) : State :=
  let task := (s.thread c t).task
  let s := (endStrand s c t).emit (.workSearch c t)
  let again := if restartCause cause then (s.core c).bound.bind fun b => repushTask s b.ld b.record.order c task else none
  match again with
  | some s' => if bit (s.ctx (s.coreCtx c)).modes 4 then launchFault s c t cause.code addr errBit 1 task else s'
  | none => launchFault s c t cause.code addr errBit 2 none

/-! ### Messages under way (R318, R331, R333, R399) -/

/-- Packages reached by Gufer Link can be reached no longer: all 48 ports have failed (R399). -/
def gufersLost (s : State) : Bool := (List.range 48).all s.failedPorts.contains

/-- Another package is reached by DRT, not by Gufer Link (R399). -/
def byDrt (s : State) (p : Nat) : Bool := s.routes.get p 0 == 1

/-- The UNIT_LOST report of a message that no path can carry (R365, R399): the launch of the thread that sent it takes its
fault path, and a message of another unit counts as a law-action error (R335). (DEDUCED, safe, log 85) -/
def linkLost (s : State) (m : Msg) : State :=
  let s := { s with
    unacked := s.unacked.filter fun u => u.2.2 != m
    segments := s.segments.filter fun p => p.1 != m }
  if fld m.src 28 26 ≤ 4 then orderFault s (fld m.src 9 0) (fld m.src 28 26) m.order Cause.unitLost.code else lawError s m.ctx

/-- A message leaves for another package, in a DRT segment where DRT reaches it; with no Gufer Link left it is lost (R399). -/
def toPackage (s : State) (m : Msg) : State :=
  let s := { s with unacked := s.unacked ++ [(m.src, m.seq, m)] }
  if byDrt s (fld m.desc 25 10) then { s with fabric := s.fabric ++ [m], segments := s.segments ++ [(m, s.ns)] }
  else if gufersLost s then linkLost s m
  else { s with fabric := s.fabric ++ [m] }

/-- Where a message goes: out of the package, to a home slice, to the host, to a core (R318, R331, R333).
(DEDUCED, safe, log 85) -/
def routeMsg (s : State) (m : Msg) : State :=
  if fld m.desc 25 10 ≠ s.pkg then toPackage s m
  else
    match fld m.desc 33 26 with
    | 240 => s.emit (.remoteLoad m)
    | 241 => s.emit (.remoteStore m)
    | 242 => s.emit (.remoteAtomic m)
    | 243 => s.emit (.remoteLaw m)
    | 255 => s.emit (.hostMailboxNotice m false 0)
    | _ => { s.emit (.messageArrival m) with unacked := s.unacked ++ [(m.src, m.seq, m)] }

/-- Send a message of a unit (AMOZ, law actions, replies). -/
def unitSend (s : State) (u kind unit ctx : Nat) (desc : Word) (payload : List Word) : State :=
  let (n, s) := s.nextUnitSeq u
  routeMsg s ⟨sourceWord kind s.pkg unit, n, desc, ctx, 0, payload⟩

/-! ### Traps (R364 to R368, R425) -/

/-- The frame's info word (R368). -/
def infoWord (s : State) (th : Thread) (cause : Cause) (deferred nested : Bool) : Word :=
  word (cause.code.toNat + boolNat deferred * 2 ^ 8 + boolNat s.issue.slotA * 2 ^ 9 + boolNat s.issue.lone * 2 ^ 10
    + boolNat nested * 2 ^ 11 + th.rep * 2 ^ 16)

/-- The role field of TSTAT (R370). -/
def PairRole.code : PairRole → Nat
  | .none => 0
  | .leader _ => 1
  | .follower _ => 2

/-- TSTAT as a thread of a core reads it: with the core's role in a checked pair (R370). -/
def tstatOf (k : Core) (th : Thread) : Word := setFld th.tstat 23 22 k.pair.code

/-- The 512 bytes of a fault frame as one number (R368). -/
def frameNat (s : State) (th : Thread) (pc info addr ocause : Word) : Nat :=
  wordsNat ([pc, info, addr, word (s.issue.w0.toNat + 2 ^ 32 * s.issue.w1.toNat), tstatOf s.myCore th, ocause, 0, 0]
    ++ (List.range 31).map (fun i => if i + 1 = 30 then 0 else th.getX (i + 1)))

/-- How the write of a frame at SFRAME ends (R100, R139, R367): a sector that another agent holds makes it wait, and a
page that is not present goes to the page-fault service first. (DEDUCED, unsafe, log 91) -/
inductive FrameEnd where
  | written (s : State)
  | held (w : Wait)
  | absent (va : Nat)
  | faulted

/-- Write a global range as a thread does for its frame, with supervisor rights (R367); a checked pair holds the sectors (R147).
(DEDUCED, unsafe, log 91) -/
def frameWrite (s : State) (c ctx va n v : Nat) : FrameEnd :=
  let ps := partsOf va n
  let seed := (s.ctx ctx).seed
  if ps.any fun p => walkHeld s s.agent c ctx .write p.1 then .held (walkWait s s.agent c ctx .write (ps.map (·.1)))
  else match xlateParts s c ctx .write true ps with
  | .error (.notPresent, va) => .absent va
  | .error _ => .faulted
  | .ok xs =>
    if xs.any (partHeld s s.agent seed) then .held (partsWait s s.agent seed xs)
    else
      let s := xs.foldl (fun s x => applyXlat s c ctx x) s
      let s := if s.myCore.pair == .none then s else xs.foldl (fun s x => addHold s s.agent (homeSlice s seed x.pa) (x.pa / 32)) s
      match (ps.zip xs).foldl (fun (o : Option (State × Nat)) px => o.bind fun (s, v) =>
        (writePa s seed px.2.pa px.1.2 v).map fun s' => (s', v / 256 ^ px.1.2)) (some (s, v)) with
      | some r => .written r.1
      | none => .faulted

/-- The time of a message's delivery is no longer of use: it has been handled, or is dead (R403). -/
def Core.forget (k : Core) (m : Msg) : Core := { k with deliveries := k.deliveries.filter fun p => p.1 != m }

/-- The handler activation's fault (R328, R329): rollback and redelivery, or a dead message; a split is cancelled
(R343), a merge tried again once (R346); a pinned split or merge takes the launch's fault path.
(DEDUCED, unsafe, log 79) -/
def deadNotice (s : State) (c : Nat) (m : Msg) (cause : BitVec 8) : State :=
  coreError ((s.setCore c ((s.core c).forget m)).emit (.hostMailboxNotice m true cause)) c 0 0

/-- An activation of a stopped core has ended: its done word may now be due (R316). -/
def nudgeStop (s : State) (c : Nat) : State := if (s.core c).tree.stopped then s.emit (.launchStop c (s.coreOrder c)) else s

/-- Undo the logged local writes of an activation (R328). -/
def undoLog (k : Core) (log : List (Nat × BitVec 128 × Bool)) : Core :=
  log.foldl (fun k e =>
    let k := k.lwrite (16 * e.1) 16 e.2.1.toNat
    if e.2.2 then k.setFull e.1 1 else k.clearFull e.1 1) k

/-- Roll an unpinned activation back: its stores, its local writes, its flags, seed and counter (R328). -/
def rollback (s : State) (c : Nat) (a : Activation) : State :=
  let s := undoHolds s (.thread c 4)
  let k := undoLog (s.core c) a.log
  let th := k.thread 4
  s.setCore c { (k.setThread 4 { th with fflags := a.fflags, frm := a.frm, seed := a.seed, seq := a.seq, mo := [], strand := .idle, wait := .none, progress := none, requests := [] }) with act := none } |> (nudgeStop · c)

/-- th goes idle with its activation ended and nothing restored. -/
def dropActivation (s : State) (c : Nat) : State :=
  let k := s.core c
  s.setCore c { (k.setThread 4 { k.thread 4 with mo := [], strand := .idle, wait := .none, progress := none }) with act := none } |> (nudgeStop · c)

/-- The context of a launch's key, and its queue. -/
def keyCtx (key : Nat) : Nat := key / 16 % 64
def keyQueue (key : Nat) : Nat := key % 16

/-- The annex or merge in progress on a core that the core's bound launch runs (R342, R346). -/
def annexOn (s : State) (c : Nat) (merge : Bool) : Option Annex :=
  s.annexes.find? fun (n : Annex) => n.o == c && n.merge == merge && (s.boundKey c).map (·.1) == some n.key

/-- Replace an annex in progress. -/
def setAnnex (s : State) (old new : Annex) : State := { s with annexes := s.annexes.map fun m => if m = old then new else m }

/-- A trap, a budget fault or an uncorrectable error in th (R328, R329, R343, R346). -/
def handlerFault (s : State) (c : Nat) (cause : Cause) : State :=
  match (s.core c).act with
  | none => endStrand s c 4
  | some a =>
    match a.kind with
    | .message =>
      if a.pinned then deadNotice (dropActivation s c) c a.msg cause.code
      else
        let s := rollback s c a
        if a.fails + 1 < 3 then (s.setCore c { s.core c with redo := (a.msg, a.fails + 1) :: (s.core c).redo }).emit (.handlerActivation c)
        else deadNotice s c a.msg cause.code
    | .split =>
      if a.pinned then launchFault (dropActivation s c) c 4 cause.code 0 0 2 none
      else
        -- the annex is cancelled next (R343)
        let s := rollback s c a
        match annexOn s c false with
        | some n => (setAnnex s n { n with step := 9, cause := cause.code }).emit (.splitActivation c)
        | none => s
    | .merge =>
      if a.pinned then launchFault (dropActivation s c) c 4 cause.code 0 0 2 none
      else
        let s := rollback s c a
        match annexOn s c true with
        | some n =>
          if n.tries = 0 then setAnnex s n { n with tries := 1, step := 4 }
          else launchFault s c 4 cause.code 0 0 2 none
        | none => s

/-- The error bit of the done word that a thread fault sets (R316). (DEDUCED, unsafe, log 80) -/
def errBitOf (c : Cause) : Nat := if c = .barrierTimeout then 2 else 0

/-! ### Waits -/

/-- The length of the word or pair being issued (R25). -/
def State.len (s : State) : Word := if s.issue.lone then 4 else 8
/-- The address after it. -/
def State.fall (s : State) : Word := s.me.pc + s.len

/-- A thread begins to wait, or goes on waiting since when it began. -/
def beginWaitAs (st : IssueStatus) (s : State) (w : Wait) : State :=
  let th := s.me
  let since := if th.wait = w then th.since else s.cycle
  { s.setMe { th with wait := w, since := since } with issue := { s.issue with status := st } }
/-- A thread waits, and tries its word again. -/
def beginWait (s : State) (w : Wait) : State := beginWaitAs .waiting s w
/-- A thread waits with its word begun. -/
def beginPark (s : State) (w : Wait) : State := beginWaitAs .parked s w

/-- An access goes to the page-fault service (R100); in host-assisted mode a notice is posted (R363, R424). `agent`
is the notice's agent code: 0 to 4 a thread, 5 the copy engine, 6 a stream engine, 7 another. Answers the item. -/
def askPage (s : State) (x q core agent : Nat) (va : Word) (access : Nat) (asker : Asker) : Nat × State :=
  let id := s.pageSeq + 1
  let s := { s with pageSeq := id }
  let (n, s) :=
    if bit (s.ctx x).modes 1 then
      let (n, s) := postNotice s x q core false 0 [1, va, word access, word (core + agent * 2 ^ 10), 0, 0, 0]
      (some n, s)
    else (none, s)
  (id, { s with pageItems := s.pageItems ++ [⟨id, n, x, asker, va, false⟩] })

/-- The service has declined the page of the frame that a thread is to write (R100, R367).
(DEDUCED, unsafe, log 91) -/
def frameItem (s : State) (va : Nat) : Option PageItem :=
  s.pageItems.find? fun (i : PageItem) => i.declined && i.va == word va && i.asker == .frame s.cid s.tid

/-- A thread waits for the page of its frame: its trap is raised again afterwards (R100, R367). -/
def beginFrame (s : State) (va : Nat) : State :=
  let q := match s.myCore.bound with
    | some b => b.record.queue
    | none => 0
  let (id, s) := askPage s s.myCtx q s.cid s.tid (word va) 2 (.frame s.cid s.tid)
  beginWait s (.pageFault id)

/-- TAKING A TRAP (R366, R367): from the state before the word, with the pc the frame records.
(DEDUCED, safe, log 47) -/
def takeTrapAt (s : State) (pc : Word) (cause : Cause) (addr : Word) (deferred : Bool) : State :=
  let c := s.cid
  let t := s.tid
  let th := s.me
  let k := s.myCore
  let addr := if cause.hasAddr || deferred then addr else 0
  let s := { s with issue := { s.issue with status := .trapped cause addr deferred } }
  if t = 4 then handlerFault s c cause
  else
    let ff := th.fframe.toNat
    let inData := decide (k.cw ≤ ff) && decide (ff + 512 ≤ k.xb)
    if cause.hookable && th.fhook != 0 && !th.ha && !th.sv && inData then
      let k' := k.lwrite ff 512 (frameNat s th pc (infoWord s th cause deferred false) addr 0)
      let s := s.setCore c k'
      s.setThread c t { (th.setTstat 14 14 1).setTstat 21 16 0 with pc := th.fhook, wait := .none, progress := none, fetched := [] }
    else if th.svec != 0 && !th.sv then
      let oc := if th.ha then word (k.lread (ff + 8) 8) else 0
      match frameWrite s c s.myCtx th.sframe.toNat 512 (frameNat s th pc (infoWord s th cause deferred th.ha) addr oc) with
      | .written s => s.setThread c t { (th.setTstat 15 15 1).setTstat 21 16 0 with pc := th.svec, wait := .none, progress := none, fetched := [] }
      | .held w => beginWait s w
      | .absent va =>
        match frameItem s va with
        | some i =>
          threadFault { s with pageItems := s.pageItems.filter fun j => j.id != i.id } c t cause addr (errBitOf cause)
        | none => beginFrame s va
      | .faulted => threadFault s c t cause addr (errBitOf cause)
    else threadFault s c t cause addr (errBitOf cause)

/-- A trap at the word being issued. -/
def takeTrap (s : State) (cause : Cause) (addr : Word) (deferred : Bool) : State :=
  takeTrapAt s s.me.pc cause addr deferred

/-- RETURNING FROM A TRAP (R374): the registers, the repetition index and the mode that the frame restores; `fr`
reads the frame's doublewords. -/
def returnFrom (th : Thread) (fr : List Word) : Thread :=
  let regs := (List.range 29).foldl (fun (t : Thread) i => t.setX (i + 1) (fr.getD (8 + i) 0)) th
  let th := regs.setTstat 21 16 (fld (fr.getD 1 0) 21 16)
  if th.sv then th.setTstat 15 15 0 else th.setTstat 14 14 0

/-- Reserved bits of a frame's info word (R368). -/
def infoReserved (info : Word) : Bool := fld info 15 12 ≠ 0 || fld info 63 22 ≠ 0

/-! ### Accesses that are not present -/

/-- An access of a unit with this agent code that is not present. True: the service has declined, and the fault is now the unit's; false: the
service has just been asked, and the unit holds the access; none: it still runs (R100, R423). -/
def askUnit (agent : Nat) (s : State) (x q core : Nat) (va : Nat) (access : Nat) : Option (Bool × State) :=
  let mine := fun (i : PageItem) => i.asker == .other && i.ctx == x && i.va == word va
  match s.pageItems.find? mine with
  | some i =>
    if i.declined then some (true, { s with pageItems := s.pageItems.filter fun j => j.id != i.id }) else none
  | none => some (false, (askPage s x q core agent (word va) access .other).2)

/-- The same of a unit that is no engine (R424). -/
def askOther (s : State) (x q core : Nat) (va : Nat) (access : Nat) : Option (Bool × State) := askUnit 7 s x q core va access

/-- An event in flight stays in its place: its step has only asked for a page (R100). -/
def stays (s : State) : State := { s with issue := { s.issue with status := .kept } }

/-- The fate of a unit's access in the event at hand: while the service runs the event stays where it is, so that none
that was sent after it passes it (R146, R148), and a delivered fault has the fate given (R100, R423). -/
def agentFate (agent : Nat) (s : State) (x q core : Nat) (c : Cause) (va access : Nat) (fate : State → Option State) :
    Option State :=
  if c = .notPresent then
    match askUnit agent s x q core va access with
    | none => none
    | some (true, s) => fate s
    | some (false, s) => some (stays s)
  else fate s

/-- The same of a unit that is no engine. -/
def unitFate (s : State) (x q core : Nat) (c : Cause) (va access : Nat) (fate : State → Option State) : Option State :=
  agentFate 7 s x q core c va access fate

/-- An access within a longer step has been denied: the step waits at a held sector; for a page that is not present it
begins again once the service has answered, with only the asking done; after another fault it goes on without the access
(R100, R139). `s0` is the state before the step. -/
def orAsk (s0 s : State) (x q core access : Nat) (skip : State → Option State) : Denied → Option State
  | .held _ => none
  | .fault .notPresent va =>
    match askOther s x q core va access with
    | none => none
    | some (true, s) => skip s
    | some (false, _) =>
      match askOther s0 x q core va access with
      | some (false, s) => some (stays s)
      | _ => none
  | .fault _ _ => skip s

/-- The same for what has denied the access: a held sector makes the event stay (R139). -/
def deniedFate (s : State) (x q core access : Nat) (fate : Cause → Nat → State → Option State) : Denied → Option State
  | .held _ => none
  | .fault c va => unitFate s x q core c va access (fate c va)

/-- The queue of the launch bound on a core. -/
def State.coreQueue (s : State) (c : Nat) : Nat :=
  match (s.core c).bound with
  | some b => b.record.queue
  | none => 0

/-- A pending item of the service for the element of a stream of a thread (R100, R220). -/
def streamItem (s : State) (c t : Nat) (va : Word) : Option PageItem :=
  s.pageItems.find? fun (i : PageItem) => i.va == va && !i.declined && (match i.asker with | .stream d u _ _ => d == c && u == t | _ => false)

/-- A not-present access of a thread waits on the service (R100); for an element that the stream engine holds, on the
item that the engine has asked for. -/
def beginAbsent (s : State) (va : Word) (access : Nat) (deferred : Bool) : State :=
  match (if deferred then streamItem s s.cid s.tid va else none) with
  | some i => beginWait s (.pageFault i.id)
  | none =>
    let agent := if deferred then 6 else s.tid
    let (id, s) := askPage s s.myCtx (s.coreQueue s.cid) s.cid agent va access (.thread s.cid s.tid deferred)
    beginWait s (.pageFault id)

/-- A store refused at its home slice (R115, R120): the thread goes on as the word left it, until the refusal reaches it
with the registers that it had before the word. (DEDUCED, safe, log 20) -/
def beginRefused (s0 s : State) (va : Word) : State :=
  let s := s.setMe { s.me with pc := s0.fall, wait := .none, progress := none }
  let k := s.myCore
  let s := s.setMyCore { k with refused := k.refused ++ [⟨s.tid, s0.me, s.issue.w0, s.issue.w1, s.issue.lone, va⟩] }
  { s.emit (.storeRefused s.cid s.tid) with issue := { s.issue with status := .done } }

/-! ### Issue of one word -/

/-- R40: what the handler thread may not execute. (DEDUCED, unsafe, log 25) -/
def thForbidden : Instr → Bool
  | .vld .. | .vst .. | .vlds .. | .vsts .. | .vgath .. | .vscat .. | .vldp .. | .vstp .. | .pref .. | .czero ..
  | .vlld .. | .vlst .. | .lgath .. | .vxst .. | .sopen .. | .spop .. | .vspop .. | .sadv .. | .stend .. | .sfib ..
  | .sclose .. | .rput .. | .bkany .. | .bkall .. | .vx .. => true
  | .vadd .. | .vsub .. | .vmul .. | .vmulh .. | .vmin .. | .vmax .. | .vand .. | .vor .. | .vxor .. | .vshl ..
  | .vshr .. | .vsra .. | .vabs .. | .vcmp .. | .vsel .. | .vadds .. | .vfadd .. | .vfsub .. | .vfmul .. | .vfma ..
  | .vfmin .. | .vfmax .. | .vfcmp .. | .vfabs .. | .vfdot .. | .vcvt .. | .vquant .. | .vdeq .. | .vbcast ..
  | .vperm .. | .vslide .. | .viota .. | .vcompress .. | .vexpand .. | .vred .. | .vscan .. | .vtopk .. | .vzip ..
  | .vexp2 .. | .vlog2 .. | .vrcp .. | .vrsqrt .. | .vsin .. | .vtanh .. | .vsigm .. | .kand .. | .kor .. | .kxor ..
  | .knot .. | .kpopc .. | .kfirst .. | .kmov .. | .vmvx .. | .vmvs .. | .vmov .. | .tmodeOn .. | .tmodeOff
  | .tzero .. | .top .. | .tops .. | .trowst .. => true
  -- TASK, BARR, MSG and SYS entries that trap in th (R152, R291, R311, R372)
  | .fork .. | .join .. | .tdone | .wfe .. | .bwait .. | .bsync .. | .bcomb .. | .bswap .. => true
  | .fence s _ => s == 1#1
  | .syscall | .tret | .pair .. | .unpair .. => true
  | _ => false

/-- R246, R256, R262: whether a conversion of type codes rounds. -/
def cvtRounds (dt st : BitVec 4) : Bool :=
  let isF := fun (t : BitVec 4) => decide (9 ≤ t.toNat)
  -- exponent and mantissa bits of the float types 9 to 15
  let em : BitVec 4 → Nat × Nat := fun t => match t.toNat with
    | 9 => (2, 1) | 10 => (4, 3) | 11 => (5, 2) | 12 => (5, 10) | 13 => (8, 7) | 14 => (8, 23) | _ => (11, 52)
  if isF st && isF dt then !(decide ((em st).1 ≤ (em dt).1) && decide ((em st).2 ≤ (em dt).2))
  else isF st || isF dt

/-- R239: whether a conversion kind rounds at a precision. -/
def fcvtRounds (k : BitVec 5) (p : BitVec 2) : Bool :=
  let ty := fun (n : Nat) => (match n with | 0 => 15#4 | 1 => 14#4 | 2 => 12#4 | _ => 13#4)
  if k.toNat < 4 then cvtRounds (ty p.toNat) (ty k.toNat) else true

/-- What VX admits before an A word (R44): whether k and z are used, whether rm is, whether vc is; none where VX
may not stand. -/
def vxAdmits : Instr → Option (Bool × Bool × Bool)
  | .fadd .. | .fsub .. | .fmul .. | .fdiv .. | .fsqrt .. | .fma .. => some (false, true, false)
  | .fmin .. | .fmax .. | .fcmp .. | .fclass .. | .fsgn .. => some (false, false, false)
  | .fcvt _ _ k p => some (false, fcvtRounds k p, false)
  | .vadd .. | .vsub .. | .vmul .. | .vmulh .. | .vmin .. | .vmax .. | .vand .. | .vor .. | .vxor .. | .vshl ..
  | .vshr .. | .vsra .. | .vabs .. | .vcmp .. | .vsel .. | .vadds .. => some (true, false, false)
  | .vfadd .. | .vfsub .. | .vfmul .. => some (true, true, false)
  | .vfma .. | .vfdot .. => some (true, true, true)
  | .vfmin .. | .vfmax .. | .vfcmp .. | .vfabs .. => some (true, false, false)
  | .vcvt _ _ _ e t => some (true, cvtRounds t e, false)
  | .vquant .. | .vdeq .. => some (true, true, true)
  | .vbcast .. | .vperm .. | .vslide .. | .viota .. | .vcompress .. | .vexpand .. | .vtopk .. | .vzip .. =>
    some (true, false, false)
  | .vred _ _ o t | .vscan _ _ o t => some (true, o == 0#5 && decide (12 ≤ t.toNat), false)
  | .vexp2 .. | .vlog2 .. | .vrcp .. | .vrsqrt .. | .vsin .. | .vtanh .. | .vsigm .. => some (true, true, false)
  | .kand .. | .kor .. | .kxor .. | .knot .. | .kpopc .. | .kfirst .. | .kmov .. => some (true, false, false)
  | .vmvx .. | .vmov .. => some (true, false, false)
  | .top _ _ _ y => some (false, decide (9 ≤ y.toNat), false)
  | .tops .. => some (false, true, false)
  | _ => none

/-- Further limits on the prefix in the entries: z of VSEL, VTOPK, KPOPC and KFIRST (R250, R263, R266), k of KMOV to
a vector (R266). -/
def vxExtra (v : VxArgs) : Instr → Bool
  | .vsel .. | .vtopk .. | .kpopc .. | .kfirst .. => !v.z
  | .kmov _ _ w => w != 2#5 || v.k == 0#3
  | _ => true

/-- The prefix is legal before this A word (R44). -/
def vxLegal (v : VxArgs) (i : Instr) : Bool :=
  match vxAdmits i with
  | none => false
  | some (k, rm, vc) =>
    (k || (v.k == 0#3 && !v.z)) && (rm || v.rm == 0#3) && v.rm != 7#3 && (vc || v.vc == 0#5) && vxExtra v i

/-- VQUANT and VDEQ need a VX prefix (R255). -/
def needsVx : Instr → Bool
  | .vquant .. | .vdeq .. => true
  | _ => false

/-- The word is legal here: well formed, admitted in this thread, under this prefix (R36, R40, R44). -/
def legalHere (s : State) (i : Instr) : Bool :=
  i.wellFormed && !(s.isTh && thForbidden i)
  && (match s.issue.vx with | none => !needsVx i | some v => vxLegal v i)

/-- Complete a word: the pc goes to the target it named or past it. -/
def complete (s : State) : State :=
  let th := s.me
  { s.setMe { th with pc := s.issue.next.getD s.fall, wait := .none, progress := none } with
    issue := { s.issue with status := .done, next := none } }

/-- A word of th that has begun a wait reads its payload again when it is tried again: what it has popped is unread (R39).
(DEDUCED, safe, log 94) -/
def keepPayload (s s' : State) : State :=
  if s.isTh then
    match s.myCore.act, s'.myCore.act with
    | some a, some b => s'.setMyCore { s'.myCore with act := some { b with left := a.left } }
    | _, _ => s'
  else s'

/-- Issue one word: check that it is legal here, perform its effect, and end it as R32 says.
(DEDUCED, unsafe, log 88; DEDUCED, safe, log 94) -/
def run (i : Instr) (s : State) (m : M Unit) : Out :=
  if legalHere s i then
    match m s with
    | .ok _ s' => .next (complete s')
    | .error (.trap c a d) _ => .next (takeTrap s c a d)
    | .error (.wait w) _ => .next (beginWait s w)
    | .error (.park w) s' => .next (beginPark (keepPayload s s') w)
    | .error (.refused a) s' => .next (beginRefused s s' a)
    | .error (.absent a n d) _ => .next (beginAbsent s a n d)
  else .next (takeTrap s .illegalInstruction 0 false)

/-- A step of another agent has been taken, unless it stays where it is. -/
def endStep (s : State) : State :=
  { s with issue := { s.issue with status := if s.issue.status = .kept then .kept else .done } }

/-- A step of another agent: its operands must name units of the package (R8). A step that is not due changes
nothing but the status, which says so. (DESIGN CHOICE, safe, log 21) -/
def runStep (e : Event) (s : State) (f : State → Option State) : Out :=
  if e.wellFormed then
    match f s with
    | some s' => .next (endStep s')
    | none => .next { s with issue := { s.issue with status := .waiting } }
  else .fault .noSuchAgent

/-- Do something for each element in order. -/
def eachM {α : Type} (f : α → M Unit) : List α → M Unit
  | [] => pure ()
  | a :: as => do f a; eachM f as

/-- Collect results in order. -/
def mapM' {α β : Type} (f : α → M β) : List α → M (List β)
  | [] => pure []
  | a :: as => do
    let b ← f a
    let bs ← mapM' f as
    pure (b :: bs)

end Sys2Proof.Machine
end

