-- ==== Sys2Proof/Machine/Flags.lean ====
section
/-! DEFINITION. Number formats, rounding, SEED and the flags of FFLAGS (R54 to R82): every flag computation of the
arithmetic instructions. -/

namespace Sys2Proof.Machine

/-! ### Formats (R57) -/

/-- A floating-point format. `inf` and `nan` say whether it has infinities and NaNs. -/
structure Fmt where
  width : Nat
  eb : Nat
  mb : Nat
  bias : Nat
  inf : Bool
  nan : Bool
  deriving DecidableEq, Repr

def Fmt.fp64 : Fmt := ⟨64, 11, 52, 1023, true, true⟩
def Fmt.fp32 : Fmt := ⟨32, 8, 23, 127, true, true⟩
def Fmt.fp16 : Fmt := ⟨16, 5, 10, 15, true, true⟩
def Fmt.bf16 : Fmt := ⟨16, 8, 7, 127, true, true⟩
def Fmt.fp8e4 : Fmt := ⟨8, 4, 3, 7, false, true⟩
def Fmt.fp8e5 : Fmt := ⟨8, 5, 2, 15, true, true⟩
def Fmt.e3m2 : Fmt := ⟨6, 3, 2, 3, false, false⟩
def Fmt.e2m3 : Fmt := ⟨6, 2, 3, 1, false, false⟩
def Fmt.fp4 : Fmt := ⟨4, 2, 1, 1, false, false⟩

/-- The format of a float type code 9 to 15 (R51). -/
def Fmt.ofType (t : BitVec 4) : Fmt :=
  match t.toNat with
  | 9 => .fp4 | 10 => .fp8e4 | 11 => .fp8e5 | 12 => .fp16 | 13 => .bf16 | 14 => .fp32 | _ => .fp64

/-- The format of a scalar precision field (R236). -/
def Fmt.ofPrec (p : BitVec 2) : Fmt :=
  match p.toNat with
  | 0 => .fp64 | 1 => .fp32 | 2 => .fp16 | _ => .bf16

/-- The exponent of the smallest subnormal. -/
def Fmt.qmin (f : Fmt) : Int := 1 - (f.bias : Int) - (f.mb : Int)
/-- The magnitude pattern of the largest finite value. -/
def Fmt.maxMag (f : Fmt) : Nat :=
  if f.inf then (2 ^ f.eb - 1) * 2 ^ f.mb - 1 else if f.nan then 2 ^ (f.width - 1) - 2 else 2 ^ (f.width - 1) - 1
/-- The canonical NaN (R65). -/
def Fmt.canon (f : Fmt) : Nat :=
  if f.inf then (2 ^ f.eb - 1) * 2 ^ f.mb + 2 ^ (f.mb - 1) else 2 ^ (f.width - 1) - 1
def Fmt.infMag (f : Fmt) : Nat := (2 ^ f.eb - 1) * 2 ^ f.mb
/-- A magnitude with a sign. -/
def Fmt.signed (f : Fmt) (neg : Bool) (mag : Nat) : Nat := mag + boolNat neg * 2 ^ (f.width - 1)

/-- An exact value. `fin n m e st` is (-1)^n · m · 2^e, plus a part strictly between 0 and 2^e when `st` holds. -/
inductive Val where
  | nan (signalling : Bool)
  | inf (neg : Bool)
  | fin (neg : Bool) (m : Nat) (e : Int) (st : Bool)
  deriving DecidableEq, Repr

/-- The value of a bit pattern (R57, R66). -/
def Fmt.decode (f : Fmt) (b : Nat) : Val :=
  let m := b % 2 ^ f.mb
  let e := b / 2 ^ f.mb % 2 ^ f.eb
  let neg := b / 2 ^ (f.width - 1) % 2 == 1
  if f.inf && e == 2 ^ f.eb - 1 then
    (if m = 0 then .inf neg else .nan (decide (16 ≤ f.width) && m / 2 ^ (f.mb - 1) == 0))
  else if !f.inf && f.nan && e == 2 ^ f.eb - 1 && m == 2 ^ f.mb - 1 then .nan false
  else if e = 0 then .fin neg m f.qmin false
  else .fin neg (2 ^ f.mb + m) (f.qmin + (e : Int) - 1) false

def Val.isZero : Val → Bool
  | .fin _ 0 _ false => true
  | _ => false
def Val.isNan : Val → Bool
  | .nan _ => true
  | _ => false
def Val.isSig : Val → Bool
  | .nan b => b
  | _ => false
def Val.isInf : Val → Bool
  | .inf _ => true
  | _ => false
def Val.sign : Val → Bool
  | .nan _ => false
  | .inf n => n
  | .fin n _ _ _ => n
def Val.neg : Val → Val
  | .nan b => .nan b
  | .inf n => .inf (!n)
  | .fin n m e st => .fin (!n) m e st
/-- An integer as a value. -/
def Val.ofInt (i : Int) : Val := .fin (decide (i < 0)) i.natAbs 0 false

/-! ### The flags and the seed of one instruction (R70 to R73) -/

/-- What the roundings of an instruction have raised, and SEED. -/
structure FpEnv where
  flags : Nat
  seed : Word
  deriving DecidableEq, Repr

/-- A computation that raises flags and draws from SEED. -/
abbrev F := StateM FpEnv

def flagNX : Nat := 1
def flagUF : Nat := 2
def flagOF : Nat := 4
def flagDZ : Nat := 8
def flagNV : Nat := 16
def flagSAT : Nat := 32

def raise (fl : Nat) : F Unit := modify fun e => { e with flags := e.flags ||| fl }
def raiseIf (b : Bool) (fl : Nat) : F Unit := if b then raise fl else pure ()

/-- One xorshift step (R70). -/
def seedNext (s : Word) : Word :=
  let s := if s = 0 then 0x9E3779B97F4A7C15#64 else s
  let s := s ^^^ (s <<< 13)
  let s := s ^^^ (s >>> 7)
  s ^^^ (s <<< 17)

/-- Advance(SEED); the draw is SEED[63:32]. -/
def draw : F Nat := do
  let e ← get
  let s := seedNext e.seed
  set { e with seed := s }
  return fld s 63 32

/-- The draw of one rounding: SR alone advances SEED. -/
def drawFor (mode : Nat) : F Nat := if mode = 5 then draw else pure 0

/-- Run a computation with the issuing thread's SEED; its flags are ORed into FFLAGS. -/
def liftF {α : Type} (f : F α) : M α := do
  let s ← get
  let (a, e) := f.run ⟨0, s.me.seed⟩
  modMe fun t => { t with seed := e.seed, fflags := t.fflags ||| word e.flags }
  return a

/-- The value of a source operand; a signalling NaN raises NV (R66). -/
def rdVal (f : Fmt) (b : Nat) : F Val := do
  let v := f.decode b
  raiseIf v.isSig flagNV
  return v

/-! ### RoundTo (R68, R70, R73, R76) -/

/-- Round m · 2^e (and a sticky part) to a multiple of 2^q: the multiple, and whether it differs. -/
def roundAt (mode : Nat) (neg : Bool) (m : Nat) (e : Int) (st : Bool) (s : Nat) (q : Int) : Nat × Bool :=
  if q ≤ e then
    let t := m * 2 ^ (e - q).toNat
    (if st && ((mode == 2 && neg) || (mode == 3 && !neg)) then t + 1 else t, st)
  else
    let k := (q - e).toNat
    let t := m / 2 ^ k
    let r := m % 2 ^ k
    let inexact := r != 0 || st
    let half := 2 ^ (k - 1)
    let up := match mode with
      | 0 => decide (half < r) || (r == half && (st || t % 2 == 1))
      | 1 => false
      | 2 => neg && inexact
      | 3 => !neg && inexact
      | 4 => decide (half ≤ r)
      | _ => decide (2 ^ 32 ≤ r * 2 ^ 32 / 2 ^ k + s)
    (if up then t + 1 else t, inexact)

/-- The result and the flags of a finite value that overflows (R76). -/
def overflow (f : Fmt) (mode : Nat) (sat neg : Bool) : Nat :=
  let toInf := match mode with
    | 1 => false
    | 2 => neg
    | 3 => !neg
    | _ => true
  if sat || !toInf || !f.nan then f.signed neg f.maxMag
  else if f.inf then f.signed neg f.infMag
  else f.canon

/-- Round a finite value: its pattern and its flags. -/
def roundFin (f : Fmt) (mode : Nat) (sat neg : Bool) (m : Nat) (e : Int) (st : Bool) (s : Nat) : Nat × Nat :=
  if m = 0 ∧ st = false then (f.signed neg 0, 0)
  else
    let l : Int := (m.log2 : Int) + e
    let qn := l - (f.mb : Int)
    let q := if qn < f.qmin then f.qmin else qn
    let (t, inexact) := roundAt mode neg m e st s q
    let mag := (q - f.qmin).toNat * 2 ^ f.mb + t
    if f.maxMag < mag then (overflow f mode sat neg, flagOF ||| flagNX)
    else
      let tiny := decide (l < 1 - (f.bias : Int))
        && !(decide (l + 1 = 1 - (f.bias : Int)) && (roundAt mode neg m e st s qn).1 == 2 ^ (f.mb + 1))
      (f.signed neg mag, if inexact then (if tiny then flagNX ||| flagUF else flagNX) else 0)

/-- RoundTo(fmt, value, mode), with .sat (R52, R76). -/
def roundSat (f : Fmt) (mode : Nat) (sat : Bool) (v : Val) : F Nat := do
  let s ← drawFor mode
  match v with
  | .nan _ => if f.nan then return f.canon else do raise flagNV; return 0
  | .inf n =>
    if f.inf then return f.signed n f.infMag
    else if sat || !f.nan then do raise flagNX; return f.signed n f.maxMag
    else do raise flagNV; return f.canon
  | .fin n m e st =>
    let (p, fl) := roundFin f mode sat n m e st s
    raise fl
    return p

/-- RoundTo without .sat. -/
def roundTo (f : Fmt) (mode : Nat) (v : Val) : F Nat := roundSat f mode false v

/-! ### Exact operations -/

/-- The exact product; 0 × ∞ raises NV (R73). -/
def mulVal (a b : Val) : F Val :=
  match a, b with
  | .nan _, _ => return .nan false
  | _, .nan _ => return .nan false
  | .inf n, y => if y.isZero then do raise flagNV; return .nan false else return .inf (n != y.sign)
  | x, .inf n => if x.isZero then do raise flagNV; return .nan false else return .inf (n != x.sign)
  | .fin n m e _, .fin n' m' e' _ => return .fin (n != n') (m * m') (e + e') false

/-- The least exponent of the finite terms. -/
def minExp : List Val → Int → Int
  | [], lo => lo
  | .fin _ _ e _ :: vs, lo => minExp vs (if e < lo then e else lo)
  | _ :: vs, lo => minExp vs lo

/-- A finite term as a multiple of 2^lo. -/
def Val.scaled (lo : Int) : Val → Int
  | .fin n m e _ => let k := (m : Int) * 2 ^ (e - lo).toNat; if n then -k else k
  | _ => 0

/-- The exact sum of terms (R67, R73, R80): infinities of both signs raise NV and give NaN. -/
def sumVals (mode : Nat) (vs : List Val) : F Val := do
  let pos := vs.any fun v => v.isInf && !v.sign
  let neg := vs.any fun v => v.isInf && v.sign
  raiseIf (pos && neg) flagNV
  if vs.any Val.isNan || (pos && neg) then return .nan false
  else if pos then return .inf false
  else if neg then return .inf true
  else
    let lo := minExp vs 0
    let t := (vs.map (Val.scaled lo)).sum
    if t = 0 then
      let zeros := vs.all Val.isZero
      if zeros && vs.all Val.sign && !vs.isEmpty then return .fin true 0 0 false
      else if zeros && vs.all (fun v => !v.sign) then return .fin false 0 0 false
      else return .fin (mode == 2) 0 0 false
    else return .fin (decide (t < 0)) t.natAbs lo false

/-- The quotient, to 128 bits and a sticky part (R237). -/
def divVal (a b : Val) : F Val :=
  match a, b with
  | .nan _, _ => return .nan false
  | _, .nan _ => return .nan false
  | .inf _, .inf _ => do raise flagNV; return .nan false
  | .inf n, y => return .inf (n != y.sign)
  | x, .inf n => return .fin (n != x.sign) 0 0 false
  | .fin n m e _, .fin n' m' e' _ =>
    if m' = 0 then
      if m = 0 then do raise flagNV; return .nan false
      else do raise flagDZ; return .inf (n != n')
    else if m = 0 then return .fin (n != n') 0 0 false
    else
      let q := m * 2 ^ 256 / m'
      return .fin (n != n') q (e - e' - 256) (q * m' != m * 2 ^ 256)

/-- floor(√n), by n.log2/2 + 1 bits. -/
def sqrtBits (n : Nat) : Nat → Nat → Nat
  | 0, r => r
  | k + 1, r =>
    let c := r + 2 ^ k
    sqrtBits n k (if c * c ≤ n then c else r)

def natSqrt (n : Nat) : Nat := sqrtBits n (n.log2 / 2 + 1) 0

/-- The square root, to more than 128 bits and a sticky part. -/
def sqrtVal (a : Val) : F Val :=
  match a with
  | .nan _ => return .nan false
  | .inf false => return .inf false
  | .inf true => do raise flagNV; return .nan false
  | .fin n m e _ =>
    if m = 0 then return .fin n 0 0 false
    else if n then do raise flagNV; return .nan false
    else
      let sh : Nat := if e % 2 = 0 then 256 else 257
      let x := m * 2 ^ sh
      let r := natSqrt x
      return .fin false r ((e - (sh : Int)) / 2) (r * r != x)

/-- Compare finite or infinite values: -1, 0 or 1; zeros are equal. -/
def cmpVal (a b : Val) : Int :=
  let key := fun (v : Val) => match v with
    | .inf n => if n then (-1 : Int) else 1
    | _ => 0
  let ka := key a
  let kb := key b
  if ka < kb then -1 else if kb < ka then 1
  else if ka ≠ 0 then 0
  else
    let lo := minExp [a, b] 0
    let x := a.scaled lo
    let y := b.scaled lo
    if x < y then -1 else if y < x then 1 else 0

/-- Minimum or maximum (R67): −0 ranks below +0, and a NaN is ignored in favour of a number. The operands are
patterns; the result is one of them or the canonical NaN. -/
def minMax (f : Fmt) (max : Bool) (a b : Nat) : F Nat := do
  let x ← rdVal f a
  let y ← rdVal f b
  if x.isNan && y.isNan then return f.canon
  else if x.isNan then return b
  else if y.isNan then return a
  else
    let c := cmpVal x y
    let less := decide (c < 0) || (c == 0 && x.sign && !y.sign)
    return if less != max then a else b

/-- Whether a relation of VFCMP or FCMP holds is read off these: less, equal, greater, unordered (R238). -/
def relate (f : Fmt) (a b : Nat) : F Nat := do
  let x ← rdVal f a
  let y ← rdVal f b
  if x.isNan || y.isNan then return 8
  else
    let c := cmpVal x y
    return if c < 0 then 1 else if c = 0 then 2 else 4

/-! ### Conversions (R75 to R78) -/

/-- Float to float; a conversion that does not round draws nothing (R239). -/
def cvtFF (dst src : Fmt) (rounds : Bool) (mode : Nat) (sat : Bool) (b : Nat) : F Nat := do
  let v ← rdVal src b
  roundSat dst (if rounds then mode else 0) sat v

/-- Float to an integer of w bits (R77). -/
def cvtFI (w : Nat) (signed : Bool) (src : Fmt) (mode : Nat) (b : Nat) : F Nat := do
  let v ← rdVal src b
  let s ← drawFor mode
  let lo : Int := if signed then -(2 ^ (w - 1) : Int) else 0
  let hi : Int := if signed then 2 ^ (w - 1) - 1 else 2 ^ w - 1
  let enc := fun (i : Int) => (i % 2 ^ w).toNat
  match v with
  | .nan _ => do raise (flagNV ||| flagNX); return 0
  | .inf n => do raise (flagNV ||| flagNX); return enc (if n then lo else hi)
  | .fin n m e st =>
    let (t, inexact) := roundAt mode n m e st s 0
    let i : Int := if n then -(t : Int) else t
    if i < lo then do raise (flagNV ||| flagNX); return enc lo
    else if hi < i then do raise (flagNV ||| flagNX); return enc hi
    else do raiseIf inexact flagNX; return enc i

/-- Integer to float (R77, R76). -/
def cvtIF (dst : Fmt) (mode : Nat) (sat : Bool) (i : Int) : F Nat := roundSat dst mode sat (Val.ofInt i)

/-- Clamp an exact integer to a type of w bits (R56). -/
def clampInt (w : Nat) (signed : Bool) (i : Int) : F Nat := do
  let lo : Int := if signed then -(2 ^ (w - 1) : Int) else 0
  let hi : Int := if signed then 2 ^ (w - 1) - 1 else 2 ^ w - 1
  let c := if i < lo then lo else if hi < i then hi else i
  raiseIf (c != i) flagSAT
  return (c % 2 ^ w).toNat

/-- The pairwise tree of R81 over present elements: none is ABSENT. One level. -/
def treeLevel (f : Fmt) (mode : Nat) : List (Option Nat) → F (List (Option Nat))
  | a :: b :: r => do
    let e ← match a, b with
      | none, b => pure b
      | a, none => pure a
      | some x, some y => do
        let vx ← rdVal f x
        let vy ← rdVal f y
        let v ← sumVals mode [vx, vy]
        let p ← roundTo f mode v
        pure (some p)
    let r ← treeLevel f mode r
    return e :: r
  | l => return l

/-- Tree(fmt, e, mode) of R81 with n levels. -/
def tree (f : Fmt) (mode : Nat) : Nat → List (Option Nat) → F (Option Nat)
  | 0, l => return (l.headD none)
  | n + 1, l => do
    let l ← treeLevel f mode l
    tree f mode n l

/-! ### The state of a rounding: mode and mask (R43, R237) -/

/-- The mode of a rounding of the issuing A word: VX's rm, 6 meaning FRM, or FRM without VX. -/
def State.rmode (s : State) : Nat :=
  match s.issue.vx with
  | some v => if v.rm = 6#3 then fld s.me.frm 2 0 else v.rm.toNat
  | none => fld s.me.frm 2 0

end Sys2Proof.Machine
end

