-- ==== Sys2Proof/Machine/Operands.lean ====
section
/-! DEFINITION. Operand forms in memory: global accesses of a thread with their checks, requests, held stores and
refusals (R102, R113 to R120, R147, R327), and local accesses with full/empty bits (R192, R196 to R198). -/

namespace Sys2Proof.Machine

/-! ### The handler activation's buffers (R327, R328) -/

/-- The issuing thread is a handler thread whose activation may still be rolled back. -/
def State.unpinned (s : State) : Bool :=
  s.isTh && (match s.myCore.act with | some a => !a.pinned | none => false)

/-- Stores of the issuing thread are held: an unpinned activation's or a checked pair's (R147, R327). -/
def State.gates (s : State) : Bool := s.unpinned || s.myCore.pair != .none

/-- Messages leave a checked pair only at agreement (R381); others are sent at once. -/
def sendOut (s : State) (es : List Event) : State :=
  if s.myCore.pair = .none then es.foldl (fun s e => match e with | .messageArrival m => routeMsg s m | e => s.emit e) s
  else s.setMyCore { s.myCore with gated := s.myCore.gated ++ es }

/-- Pin the activation: its held messages and stores are released, and the log is discarded (R328). -/
def pinState (s : State) : State :=
  match s.myCore.act with
  | some a =>
    if a.pinned then s
    else
      let s := s.setMyCore { s.myCore with act := some { a with pinned := true, heldMsgs := [], stores := 0, log := [] } }
      sendOut (releaseStores s s.cid) a.heldMsgs
  | none => s

/-- A pinning action (R328). -/
def pin : M Unit := do
  let s ← get
  if s.isTh then set (pinState s)

/-- Room for n more held stores, or pin (R327); a word that goes on between its parts has its room. -/
def gateStores (n : Nat) : M Unit := do
  let s ← get
  if s.unpinned && s.me.progress.isNone then
    match s.myCore.act with
    | some a =>
      if 64 < a.stores + n then pin
      else modCore fun k => { k with act := some { a with stores := a.stores + n } }
    | none => pure ()

/-! ### The interval record of a checked pair (R381) -/

/-- One bit of the ECMA-182 division. -/
def crcBit (r : Word) (b : Bool) : Word := if r.msb != b then (r <<< 1) ^^^ 0x42F0E1EBA9EA3693#64 else r <<< 1

/-- One byte, most significant bit first. -/
def crcByte (r : Word) (b : Nat) : Word := (List.range 8).foldl (fun r i => crcBit r ((b / 2 ^ (7 - i)) % 2 == 1)) r

/-- n bytes of a value, little-endian. -/
def crcNat (r : Word) : Nat → Nat → Word
  | 0, _ => r
  | n + 1, v => crcNat (crcByte r (v % 256)) n (v / 256)

/-- The size code in the record of a store of n bytes, 8 for a length that has none. (DEDUCED, unsafe, log 15) -/
def sizeCode (n : Nat) : Nat := match n with | 1 => 0 | 2 => 2 | 4 => 4 | 8 => 6 | 16 => 7 | _ => 8

/-- A thread of a checked pair's leader records a store of n bytes: its size code, its address and its data.
(DEDUCED, unsafe, log 15) -/
def recordStore (a n v : Nat) : M Unit := do
  let s ← get
  match s.myCore.pair with
  | .leader _ => modMe fun t => { t with crc := crcNat (crcNat (crcByte t.crc (0x80 + sizeCode n)) 8 a) n v }
  | _ => pure ()

/-! ### Requests (R113, R114) -/

/-- Entries that an access of n parts takes: one a part, and no more than a thread may hold at once. -/
def partEntries (n : Nat) : Nat := Nat.min n 512

/-- Entries that a thread holds: its outstanding requests', and those of a word of which parts remain (R113, R120). -/
def heldEntries (t : Thread) : Nat :=
  (t.requests.map (·.parts)).sum + (match t.progress with | some p => partEntries p.pas.length | none => 0)

/-- Entries held by the compute threads of a core. -/
def Core.entries (k : Core) : Nat :=
  heldEntries (k.thread 0) + heldEntries (k.thread 1) + heldEntries (k.thread 2) + heldEntries (k.thread 3)

/-- Entries that the issuing thread can still hold: a compute thread has at most 512 of the core's 992, th has 32. -/
def freeEntries (s : State) : Nat :=
  if s.isTh then 32 - heldEntries s.me else Nat.min (512 - heldEntries s.me) (992 - s.myCore.entries)

/-- Whether the issuing thread can hold the entries of n more parts. -/
def poolHas (s : State) (n : Nat) : Bool := decide (partEntries n ≤ freeEntries s)

/-- Hold the entries of n parts until the reply, which frees the registers named. -/
def requestAs (load : Bool) (n : Nat) (regs : List Nat) : M Unit := do
  let s ← get
  let tag := (s.me.requests.map (·.tag)).foldl Nat.max 0 + 1
  modMe fun t => { t with requests := t.requests ++ [⟨tag, load, partEntries n, regs, s.cycle, 0⟩] }
  emitM (.loadReply s.cid s.tid tag)
/-- The request of a store, an atomic, a law operation or KROUTE. (DESIGN CHOICE, unsafe, log 19) -/
def request (n : Nat) (regs : List Nat) : M Unit := requestAs false n regs
/-- The request of a load (R403 event 3). (DESIGN CHOICE, unsafe, log 19) -/
def requestLoad (n : Nat) (regs : List Nat) : M Unit := requestAs true n regs

/-! ### Global accesses (R102, R116 to R120) -/

/-- The access bits of a page-fault notice (R424). -/
def accessBits : Rights → Nat
  | .read => 1 | .write => 2 | .atomic => 3 | .execute => 4

/-- A fault of translation: a not-present page goes to the page-fault service first (R100). -/
def xlatFault {α : Type} (nd : Rights) (c : Cause) (va : Nat) : M α :=
  if c = .notPresent then throw (.absent (word va) (accessBits nd) false) else trap c (word va)

/-- The part whose fault is reported: the first listed, or the one of lowest address (R102). -/
def worst (lowest : Bool) : List (Cause × Nat) → Option (Cause × Nat)
  | [] => none
  | [e] => some e
  | e :: es =>
    match worst lowest es with
    | none => some e
    | some f => if lowest && decide (f.2 < e.2) then some f else some e

/-- Whether the issuing thread acts with supervisor rights (R96). -/
def State.sup (s : State) : Bool := s.me.sv
/-- The seed of the issuing thread's context. -/
def State.mySeed (s : State) : Word := (s.ctx s.myCtx).seed

/-- The fault of a part, with its address. -/
def partFault (r : Nat × Except Cause Xlat) : Option (Cause × Nat) :=
  match r.2 with
  | .error c => some (c, r.1)
  | .ok _ => none

/-- Translate a part whose address is aligned. -/
def partXlat (s : State) (nd : Rights) (align va : Nat) : Except Cause Xlat :=
  if va % align = 0 then xlate s s.cid s.myCtx va nd s.sup else .error .misalignedAccess

/-- The parts of a word that has been checked before and goes on with those that remain (R120). -/
def Progress.xlats (p : Progress) (nd : Rights) : List Xlat := p.pas.map fun a => ⟨a, nd, none, none, []⟩

/-- Translate and check every part before any is performed (R102), each aligned as the word asks; wait at held sectors
(R139) and for request entries (R113). A word of which parts have been performed is not checked again (R120). -/
def checkPartsAt (align : Nat) (nd : Rights) (lowest : Bool) (ps : List (Nat × Nat)) : M (List Xlat) := do
  let s ← get
  match s.me.progress with
  | some p =>
    let xs := p.xlats nd
    if (xs.drop p.done).any (partHeld s s.agent s.mySeed) then waitFor (partsWait s s.agent s.mySeed (xs.drop p.done)) else return xs
  | none =>
    if ps.any fun p => walkHeld s s.agent s.cid s.myCtx nd p.1 then
      waitFor (walkWait s s.agent s.cid s.myCtx nd (ps.map (·.1)))
    else
      let rs := ps.map fun p => (p.1, partXlat s nd align p.1)
      let errs := rs.filterMap partFault
      match worst lowest errs with
      | some (c, va) => xlatFault nd c va
      | none =>
        let xs := rs.filterMap fun r => r.2.toOption
        if xs.any (partHeld s s.agent s.mySeed) then waitFor (partsWait s s.agent s.mySeed xs)
        else if !poolHas s ps.length then waitFor .reg
        else
          set (xs.foldl (fun s x => applyXlat s s.cid s.myCtx x) s)
          return xs

/-- The same where the word has checked the alignment of its address. (DEDUCED, unsafe, log 88) -/
def checkParts (nd : Rights) (lowest : Bool) (ps : List (Nat × Nat)) : M (List Xlat) := checkPartsAt 1 nd lowest ps

/-- Check parts that the word goes on to read one after another: nothing is performed (R102, R139). -/
def checkAll (nd : Rights) (ps : List (Nat × Nat)) : M Unit := do
  let s ← get
  if ps.any fun p => walkHeld s s.agent s.cid s.myCtx nd p.1 then
    waitFor (walkWait s s.agent s.cid s.myCtx nd (ps.map (·.1)))
  else
    let rs := ps.map fun p => (p.1, partXlat s nd 1 p.1)
    match worst true (rs.filterMap partFault) with
    | some (c, va) => xlatFault nd c va
    | none =>
      let xs := rs.filterMap fun r => r.2.toOption
      if xs.any (partHeld s s.agent s.mySeed) then waitFor (partsWait s s.agent s.mySeed xs)

/-- The bytes of a checked part, as v gives them: a poisoned sector refuses (R87). -/
def partValue (v : Option Nat) (va : Nat) : M Nat :=
  match v with
  | some v => return v
  | none => trap .uncorrectableError (word va)

/-- Read n bytes of a checked part, from a replica or the home slice (R87, R111). -/
def readPart (x : Xlat) (va n : Nat) : M Nat := do
  let s ← get
  partValue (readNear s s.cid s.myCtx x.pa n) va

/-- Read n bytes of a checked part at its home slice (R127). -/
def readHome (x : Xlat) (va n : Nat) : M Nat := do
  let s ← get
  partValue (readPa s s.mySeed x.pa n) va

/-- Read parts in order. -/
def readEach : List Xlat → List (Nat × Nat) → M (List Nat)
  | x :: xs, (va, n) :: ps => do
    let v ← readPart x va n
    let vs ← readEach xs ps
    return v :: vs
  | _, _ => return []

/-- Write n bytes of a checked part. A held store keeps what stood there; a partial write to a poisoned sector is
refused (R118), precisely when the store was held. -/
def writePart (x : Xlat) (va n v : Nat) : M Unit := do
  let s ← get
  let s1 := if s.gates then addHold s s.agent (homeSlice s s.mySeed x.pa) (x.pa / 32) else s
  match writePa s1 s.mySeed x.pa n v with
  | some s2 => do
    set s2
    recordStore va n v
  | none => if s.gates then trap .uncorrectableError (word va) else throw (.refused (word va))

/-- Write parts in order: each with its value. -/
def writeEach : List Xlat → List ((Nat × Nat) × Nat) → M Unit
  | x :: xs, ((va, n), v) :: ps => do
    writePart x va n v
    writeEach xs ps
  | _, _ => return ()

/-- How many parts of the word being issued have been performed, and what they have read (R120). -/
def State.partsDone (s : State) : Nat := match s.me.progress with | some p => p.done | none => 0
def State.partVals (s : State) : List Nat := match s.me.progress with | some p => p.vals | none => []

/-- A word stops after the parts that a turn lets it perform, and waits with them done (R120). -/
def parkParts (xs : List Xlat) (vals : List Nat) (done : Nat) : M Unit := do
  modMe fun t => { t with progress := some ⟨xs.map (·.pa), vals, done⟩ }
  throw (.park .parts)

/-- The parts that a turn performs of n, from the first that remains (R120). -/
def State.partsNow (s : State) (n : Nat) : Nat :=
  match s.issue.quota with
  | none => n - s.partsDone
  | some q => Nat.min (n - s.partsDone) (Nat.max 1 q)

/-- Read the parts of a word: those that remain, as far as the turn lets it (R120). (DESIGN CHOICE, unsafe, log 18) -/
def readParts (xs : List Xlat) (ps : List (Nat × Nat)) : M (List Nat) := do
  let s ← get
  let k := s.partsDone
  let n := s.partsNow ps.length
  let vs ← readEach ((xs.drop k).take n) ((ps.drop k).take n)
  let all := s.partVals ++ vs
  if k + n < ps.length then parkParts xs all (k + n)
  return all

/-- Write the parts of a word: those that remain, as far as the turn lets it (R120).
(DESIGN CHOICE, unsafe, log 18) -/
def writeParts (xs : List Xlat) (ps : List ((Nat × Nat) × Nat)) : M Unit := do
  let s ← get
  let k := s.partsDone
  let n := s.partsNow ps.length
  writeEach ((xs.drop k).take n) ((ps.drop k).take n)
  if k + n < ps.length then parkParts xs [] (k + n)

/-- The same for a word that has changed its thread before it writes: when it stops between two parts, the thread gets back
what `back` gives, so that the word finds it so when it goes on (R120, R123). -/
def writePartsBack (back : Thread → Thread) (xs : List Xlat) (ps : List ((Nat × Nat) × Nat)) : M Unit := fun s =>
  match writeParts xs ps s with
  | .error (.park w) t => .error (.park w) (t.setMe (back t.me))
  | r => r

/-- GRead of one part (R52, R116). -/
def gRead (va n : Nat) (regs : List Nat) : M Nat := do
  let xs ← checkParts .read true [(va, n)]
  let vs ← readParts xs [(va, n)]
  requestLoad 1 regs
  return vs.headD 0

/-- GWrite of one part (R52, R117). -/
def gWrite (va n v : Nat) : M Unit := do
  gateStores 1
  let xs ← checkParts .write true [(va, n)]
  writeParts xs [((va, n), v)]
  request 1 []

/-- The pieces of a little-endian value that fall to consecutive parts. -/
def splitValue : List (Nat × Nat) → Nat → List ((Nat × Nat) × Nat)
  | [], _ => []
  | (va, n) :: ps, v => ((va, n), v % 256 ^ n) :: splitValue ps (v / 256 ^ n)

/-- The value of consecutive parts, read in order. -/
def joinValue : List (Nat × Nat) → List Nat → Nat
  | (_, n) :: ps, v :: vs => v + 256 ^ n * joinValue ps vs
  | _, _ => 0

/-- Read a contiguous range by its sectors (R120). -/
def gReadRange (va n : Nat) (regs : List Nat) : M Nat := do
  let ps := partsOf va n
  let xs ← checkParts .read true ps
  let vs ← readParts xs ps
  requestLoad ps.length regs
  return joinValue ps vs

/-- Write a contiguous range by its sectors (R120). -/
def gWriteRange (va n v : Nat) : M Unit := do
  let ps := partsOf va n
  gateStores ps.length
  let xs ← checkParts .write true ps
  writeParts xs (splitValue ps v)
  request ps.length []

/-- An atomic access (R127): the value to store, or none for a comparison that fails, whose walk leaves D as it was (R97); a
poisoned sector refuses. (DESIGN CHOICE, safe, log 100) -/
def gAtomic (va n : Nat) (regs : List Nat) (f : Nat → Option Nat) : M Nat := do
  pin
  let s ← get
  let xs ← checkParts .atomic true [(va, n)]
  match xs with
  | [] => return 0
  | x :: _ =>
    let old ← readHome x va n
    match f old with
    | none => set (applyXlat s s.cid s.myCtx (x.withoutD s s.myCtx))
    | some v => writePart x va n v
    request 1 regs
    return old

/-! ### Local accesses (R192, R197 to R199) -/

/-- Log granules before an unpinned activation first changes them; beyond 256 it is pinned (R327, R328). -/
def logGranules (g n : Nat) : M Unit := do
  let s ← get
  if s.unpinned then
    match s.myCore.act with
    | none => pure ()
    | some a =>
      let k := s.myCore
      let inRegion := fun (i : Nat) => decide (a.region.1 ≤ 16 * i) && decide (16 * i < a.region.1 + a.region.2)
      let new := (List.range' g n).filter fun i => !inRegion i && !a.log.any (·.1 == i)
      let old := new.map fun i => (i, BitVec.ofNat 128 (k.lread (16 * i) 16), bit k.full i)
      if 256 < a.log.length + new.length then pin
      else modCore fun k => { k with act := some { a with log := a.log ++ old } }

/-- LWrite (R52). -/
def lWrite (o n v : Nat) : M Unit := do
  logGranules (o / 16) (granuleCount o n)
  modCore fun k => k.lwrite o n v
  recordStore o n v
/-- LRead (R52). -/
def lRead (o n : Nat) : M Nat := do return (← get).myCore.lread o n
/-- Set or clear full/empty bits. -/
def setFE (full : Bool) (g n : Nat) : M Unit := do
  logGranules g n
  modCore fun k => { (if full then k.setFull g n else k.clearFull g n) with undo := k.undoWith g n }

/-- The state of the granules that a wait asks for. -/
def Core.granulesAre (k : Core) (g n : Nat) (full : Bool) : Bool := if full then k.allFull g n else k.allEmpty g n

/-- A thread that has waited longer for an overlapping range, and whose wait is over, is served first (R198). -/
def olderWaiter (s : State) (g n : Nat) (w : Wait) : Bool :=
  let k := s.myCore
  let mine := if s.me.wait = w then s.me.since else s.cycle
  (List.range 5).any fun t =>
    let th := k.thread t
    t != s.tid && (match th.wait with
      | .granules g' n' b' =>
        decide (g' < g + n) && decide (g < g' + n') && k.granulesAre g' n' b'
          && (decide (th.since < mine) || (th.since == mine && decide (t < s.tid)))
      | _ => false)

/-- Wait until n granules from g are all full, or all empty (R197, R198). -/
def waitGranules (g n : Nat) (full : Bool) : M Unit := do
  let s ← get
  let w := Wait.granules g n full
  if s.myCore.granulesAre g n full && !olderWaiter s g n w then pure () else waitFor w

/-- Qualifiers of local loads: 0 plain, 1 wait-full, 2 wait-full-and-clear (R196). -/
def loadQual (q g n : Nat) : M Unit := if q = 0 then pure () else waitGranules g n true
/-- Qualifiers of local stores: 0 plain, 1 set-full, 2 wait-empty-then-set-full (R196). -/
def storeQual (q g n : Nat) : M Unit := if q = 2 then waitGranules g n false else pure ()

/-- Check a local offset as R199 does: range, alignment, then the closed regions. -/
def localCheck (o n align : Nat) : M Unit := do
  need (decide (o + n ≤ 2 ^ 18)) .localRange (word (o % 2 ^ 18))
  need (o % align == 0) .misalignedAccess (word o)
  checkLocal o n

/-- A shared engine, task, ring, barrier or message action of the handler thread pins its activation (R328). -/
def pinning {α : Type} (m : M α) : M α := do
  pin
  m

end Sys2Proof.Machine
end

