-- ==== Sys2Proof/Machine/Int.lean ====
section
/-! DEFINITION. INT, the immediate forms, SHI and LUI (R231 to R235). -/

namespace Sys2Proof.Machine

/-- Two sources, one destination (R231). -/
def intOp (d a b : BitVec 5) (f : Word → Word → Word) : M Unit := do
  let x ← readX a
  let y ← readX b
  writeX d (f x y)

/-- One source (R231, minors 22 to 24). -/
def intUn (d a : BitVec 5) (f : Word → Word) : M Unit := do
  let x ← readX a
  writeX d (f x)

/-- The shift amount: bits [5:0] (R232). -/
def shamt (b : Word) : Nat := fld b 5 0
/-- The sign-extended immediate (R233). -/
def imm15 (i : BitVec 15) : Word := i.signExtend 64
def wordOfBool (b : Bool) : Word := if b then 1 else 0

/-- Signed division (R55, R231). -/
def divS (x y : Word) : Word := if y = 0 then BitVec.allOnes 64 else BitVec.ofInt 64 (x.toInt.tdiv y.toInt)
def divU (x y : Word) : Word := if y = 0 then BitVec.allOnes 64 else word (x.toNat / y.toNat)
def remS (x y : Word) : Word := if y = 0 then x else BitVec.ofInt 64 (x.toInt.tmod y.toInt)
def remU (x y : Word) : Word := if y = 0 then x else word (x.toNat % y.toNat)
/-- Bits [127:64] of the signed product. -/
def mulHS (x y : Word) : Word := BitVec.ofInt 64 (x.toInt * y.toInt / 2 ^ 64)
def mulHU (x y : Word) : Word := word (x.toNat * y.toNat / 2 ^ 64)
/-- Leading zeros. -/
def clz (x : Word) : Word := if x = 0 then 64 else word (63 - x.toNat.log2)
/-- Trailing zeros. -/
def ctz (x : Word) : Word := word (((List.range 64).find? fun i => bit x i).getD 64)
/-- One bits. -/
def popCount {n : Nat} (x : BitVec n) : Nat := ((List.range n).filter fun i => bit x i).length

/-- ADD (R231). -/
def execAdd (d a b : BitVec 5) (s : State) : Out := run (.add d a b) s (intOp d a b fun x y => x + y)
/-- SUB (R231). -/
def execSub (d a b : BitVec 5) (s : State) : Out := run (.sub d a b) s (intOp d a b fun x y => x - y)
/-- AND (R231). -/
def execAnd (d a b : BitVec 5) (s : State) : Out := run (.and d a b) s (intOp d a b fun x y => x &&& y)
/-- OR (R231). -/
def execOr (d a b : BitVec 5) (s : State) : Out := run (.or d a b) s (intOp d a b fun x y => x ||| y)
/-- XOR (R231). -/
def execXor (d a b : BitVec 5) (s : State) : Out := run (.xor d a b) s (intOp d a b fun x y => x ^^^ y)
/-- SLL (R231). -/
def execSll (d a b : BitVec 5) (s : State) : Out := run (.sll d a b) s (intOp d a b fun x y => x <<< shamt y)
/-- SRL (R231). -/
def execSrl (d a b : BitVec 5) (s : State) : Out := run (.srl d a b) s (intOp d a b fun x y => x >>> shamt y)
/-- SRA (R231). -/
def execSra (d a b : BitVec 5) (s : State) : Out := run (.sra d a b) s (intOp d a b fun x y => x.sshiftRight (shamt y))
/-- MUL (R231). -/
def execMul (d a b : BitVec 5) (s : State) : Out := run (.mul d a b) s (intOp d a b fun x y => x * y)
/-- MULH (R231). -/
def execMulh (d a b : BitVec 5) (s : State) : Out := run (.mulh d a b) s (intOp d a b fun x y => mulHS x y)
/-- MULHU (R231). -/
def execMulhu (d a b : BitVec 5) (s : State) : Out := run (.mulhu d a b) s (intOp d a b fun x y => mulHU x y)
/-- DIV (R231). -/
def execDiv (d a b : BitVec 5) (s : State) : Out := run (.div d a b) s (intOp d a b fun x y => divS x y)
/-- DIVU (R231). -/
def execDivu (d a b : BitVec 5) (s : State) : Out := run (.divu d a b) s (intOp d a b fun x y => divU x y)
/-- REM (R231). -/
def execRem (d a b : BitVec 5) (s : State) : Out := run (.rem d a b) s (intOp d a b fun x y => remS x y)
/-- REMU (R231). -/
def execRemu (d a b : BitVec 5) (s : State) : Out := run (.remu d a b) s (intOp d a b fun x y => remU x y)
/-- MIN (R231). -/
def execMin (d a b : BitVec 5) (s : State) : Out := run (.min d a b) s (intOp d a b fun x y => if x.slt y then x else y)
/-- MAX (R231). -/
def execMax (d a b : BitVec 5) (s : State) : Out := run (.max d a b) s (intOp d a b fun x y => if x.slt y then y else x)
/-- MINU (R231). -/
def execMinu (d a b : BitVec 5) (s : State) : Out := run (.minu d a b) s (intOp d a b fun x y => if x.ult y then x else y)
/-- MAXU (R231). -/
def execMaxu (d a b : BitVec 5) (s : State) : Out := run (.maxu d a b) s (intOp d a b fun x y => if x.ult y then y else x)
/-- SLT (R231). -/
def execSlt (d a b : BitVec 5) (s : State) : Out := run (.slt d a b) s (intOp d a b fun x y => wordOfBool (x.slt y))
/-- SLTU (R231). -/
def execSltu (d a b : BitVec 5) (s : State) : Out := run (.sltu d a b) s (intOp d a b fun x y => wordOfBool (x.ult y))
/-- SEL: the old destination is a third source (R231, R232). -/
def execSel (d a b : BitVec 5) (s : State) : Out :=
  run (.sel d a b) s (intOp d a b fun x y => if s.me.getX d.toNat = 0 then y else x)
/-- CLZ (R231). -/
def execClz (d a : BitVec 5) (s : State) : Out := run (.clz d a) s (intUn d a clz)
/-- CTZ (R231). -/
def execCtz (d a : BitVec 5) (s : State) : Out := run (.ctz d a) s (intUn d a ctz)
/-- POPC (R231). -/
def execPopc (d a : BitVec 5) (s : State) : Out := run (.popc d a) s (intUn d a fun x => word (popCount x))
/-- ADDI (R233). -/
def execAddi (d a : BitVec 5) (i : BitVec 15) (s : State) : Out := run (.addi d a i) s (intUn d a fun x => x + imm15 i)
/-- ANDI (R233). -/
def execAndi (d a : BitVec 5) (i : BitVec 15) (s : State) : Out := run (.andi d a i) s (intUn d a fun x => x &&& imm15 i)
/-- ORI (R233). -/
def execOri (d a : BitVec 5) (i : BitVec 15) (s : State) : Out := run (.ori d a i) s (intUn d a fun x => x ||| imm15 i)
/-- XORI (R233). -/
def execXori (d a : BitVec 5) (i : BitVec 15) (s : State) : Out := run (.xori d a i) s (intUn d a fun x => x ^^^ imm15 i)
/-- SLTI (R233). -/
def execSlti (d a : BitVec 5) (i : BitVec 15) (s : State) : Out := run (.slti d a i) s (intUn d a fun x => wordOfBool (x.slt (imm15 i)))
/-- SLTIU (R233). -/
def execSltiu (d a : BitVec 5) (i : BitVec 15) (s : State) : Out := run (.sltiu d a i) s (intUn d a fun x => wordOfBool (x.ult (imm15 i)))
/-- SLLI (R234). -/
def execSlli (d a : BitVec 5) (n : BitVec 6) (s : State) : Out := run (.slli d a n) s (intUn d a fun x => x <<< n.toNat)
/-- SRLI (R234). -/
def execSrli (d a : BitVec 5) (n : BitVec 6) (s : State) : Out := run (.srli d a n) s (intUn d a fun x => x >>> n.toNat)
/-- SRAI (R234). -/
def execSrai (d a : BitVec 5) (n : BitVec 6) (s : State) : Out := run (.srai d a n) s (intUn d a fun x => x.sshiftRight n.toNat)
/-- LUI: the immediate shifted by 12 and sign-extended from bit 31 (R235). -/
def execLui (d : BitVec 5) (i : BitVec 20) (s : State) : Out :=
  run (.lui d i) s (writeX d ((i ++ 0#12 : BitVec 32).signExtend 64))

end Sys2Proof.Machine
end

