-- ==== Sys2Proof/Machine/Atom.lean ====
section
/-! DEFINITION. ATOM: atomics at the home slice (R126 to R131). -/

namespace Sys2Proof.Machine

/-- Bytes of an atomic of size code w or d (R127). -/
def atomSize (s : BitVec 2) : Nat := if s = 0#2 then 4 else 8

/-- The value that an operation of R126 stores, from the old value and the operand, at 32 or 64 bits. -/
def atomValue (op w old b : Nat) : Nat :=
  let o := toSigned old w
  let x := toSigned b w
  let b := b % 2 ^ w
  match op with
  | 0 | 12 => (old + b) % 2 ^ w
  | 1 => old &&& b
  | 2 => old ||| b
  | 3 => old ^^^ b
  | 4 => if o < x then old else b
  | 5 => if o < x then b else old
  | 6 => if old < b then old else b
  | 7 => if old < b then b else old
  | 9 =>
    let f := if w = 32 then Fmt.fp32 else Fmt.fp64
    ((do
      let u ← rdVal f old
      let v ← rdVal f b
      roundTo f 0 (← sumVals 0 [u, v]) : F Nat).run ⟨0, 0⟩).1
  | _ => b

/-- What xd receives (R127). -/
def atomResult (op w old : Nat) : Word := if w = 32 ∧ op ≠ 9 then sext old 32 else word old

/-- A read-modify-write atomic (R127). -/
def amoOp (op : Nat) (d a b : BitVec 5) (sz : BitVec 2) : M Unit := do
  let x ← readX a
  let y ← readX b
  let n := atomSize sz
  let va := x.toNat
  need (va % n == 0) .misalignedAccess x
  let old ← gAtomic va n [d.toNat] fun old => some (atomValue op (8 * n) old y.toNat)
  writeX d (atomResult op (8 * n) old)

/-- AMOADD (R126). -/
def execAmoadd (d a b : BitVec 5) (sz : BitVec 2) (s : State) : Out := run (.amoadd d a b sz) s (amoOp 0 d a b sz)
/-- AMOAND (R126). -/
def execAmoand (d a b : BitVec 5) (sz : BitVec 2) (s : State) : Out := run (.amoand d a b sz) s (amoOp 1 d a b sz)
/-- AMOOR (R126). -/
def execAmoor (d a b : BitVec 5) (sz : BitVec 2) (s : State) : Out := run (.amoor d a b sz) s (amoOp 2 d a b sz)
/-- AMOXOR (R126). -/
def execAmoxor (d a b : BitVec 5) (sz : BitVec 2) (s : State) : Out := run (.amoxor d a b sz) s (amoOp 3 d a b sz)
/-- AMOMIN (R126). -/
def execAmomin (d a b : BitVec 5) (sz : BitVec 2) (s : State) : Out := run (.amomin d a b sz) s (amoOp 4 d a b sz)
/-- AMOMAX (R126). -/
def execAmomax (d a b : BitVec 5) (sz : BitVec 2) (s : State) : Out := run (.amomax d a b sz) s (amoOp 5 d a b sz)
/-- AMOMINU (R126). -/
def execAmominu (d a b : BitVec 5) (sz : BitVec 2) (s : State) : Out := run (.amominu d a b sz) s (amoOp 6 d a b sz)
/-- AMOMAXU (R126). -/
def execAmomaxu (d a b : BitVec 5) (sz : BitVec 2) (s : State) : Out := run (.amomaxu d a b sz) s (amoOp 7 d a b sz)
/-- AMOSWAP (R126). -/
def execAmoswap (d a b : BitVec 5) (sz : BitVec 2) (s : State) : Out := run (.amoswap d a b sz) s (amoOp 8 d a b sz)
/-- AMOFADD (R126). -/
def execAmofadd (d a b : BitVec 5) (sz : BitVec 2) (s : State) : Out := run (.amofadd d a b sz) s (amoOp 9 d a b sz)
/-- CAS: a failed comparison takes its place as a read (R126, R127). -/
def execCas (d a b : BitVec 5) (sz : BitVec 2) (s : State) : Out :=
  run (.cas d a b sz) s do
    let x ← readX a
    let y ← readX b
    let n := atomSize sz
    let cmp := (s.me.getX d.toNat).toNat % 256 ^ n
    let va := x.toNat
    need (va % n == 0) .misalignedAccess x
    let old ← gAtomic va n [d.toNat] fun old => if old = cmp then some (y.toNat % 256 ^ n) else none
    writeX d (atomResult 10 (8 * n) old)

/-- CAS2: sixteen bytes as one unit (R129). -/
def execCas2 (d a b : BitVec 5) (s : State) : Out :=
  run (.cas2 d a b) s do
    let x ← readX a
    let y ← readX b
    let y1 ← readX (b + 1)
    let cmp := (s.me.getX d.toNat).toNat + 2 ^ 64 * (s.me.getX (d.toNat + 1)).toNat
    let va := x.toNat
    need (va % 16 == 0) .misalignedAccess x
    let old ← gAtomic va 16 [d.toNat, d.toNat + 1] fun old =>
      if old = cmp then some (y.toNat + 2 ^ 64 * y1.toNat) else none
    writeX d (word old)
    writeX (d + 1) (word (old / 2 ^ 64))

/-- AMOZ: the descriptor is checked before the counter changes, and a zero result sends a message of the slice's
atomic unit (R130, R131). -/
def execAmoz (d a b : BitVec 5) (sz : BitVec 2) (s : State) : Out :=
  run (.amoz d a b sz) s do
    let x ← readX a
    let y ← readX b
    let n := atomSize sz
    let va := x.toNat
    need (va % 16 == 0) .misalignedAccess x
    pin
    let xs ← checkParts .atomic true [(va, 16)]
    match xs with
    | [] => pure ()
    | p :: _ =>
      let cell ← readHome p va 16
      let desc := word (cell / 2 ^ 64)
      need (fld desc 63 34 == 0) .descriptorFormat (x + 8)
      need (decide (fld desc 9 0 < 768) && decide (fld desc 25 10 < s.npkgs)) .invalidTarget x
      let old := cell % 256 ^ n
      let new := atomValue 12 (8 * n) old y.toNat
      writePart p va n new
      request 1 [d.toNat]
      writeX d (atomResult 12 (8 * n) old)
      if new = 0 then
        let slice := homeSlice s s.mySeed p.pa
        modify fun s => unitSend s slice 6 (768 + slice) s.myCtx desc [x, word s.cid]

end Sys2Proof.Machine
end

