-- ==== Sys2Proof/Machine/Fetch.lean ====
section
/-! DEFINITION. Fetching instruction words (R26, R27, R151, R193), and raising a trap in a thread that waits. -/

namespace Sys2Proof.Machine

/-- The offset in the code window of an address of the launch's code (R193). -/
def codeOffset (k : Core) (pc : Nat) : Option Nat :=
  match k.bound with
  | some b => if b.ld.code.toNat ≤ pc ∧ pc < b.ld.code.toNat + k.cw then some (pc - b.ld.code.toNat) else none
  | none => none

/-- The word at an address as it stands, with the translation that its fetch entails (R96, R193). -/
def peekWord (s : State) (c t pc : Nat) : Except Cause (Nat × Option Xlat) :=
  match codeOffset (s.core c) pc with
  | some o => .ok ((s.core c).lread o 4, none)
  | none =>
    let x := s.coreCtx c
    match xlate s c x pc .execute (s.thread c t).sv with
    | .error e => .error e
    | .ok p =>
      match readPa s (s.ctx x).seed p.pa 4 with
      | none => .error .uncorrectableError
      | some w => .ok (w, some p)

/-- The word at an address lies in a sector, or is reached through an entry, that another agent holds: the fetch waits
(R139). -/
def fetchHeld (s : State) (c t pc : Nat) : Bool :=
  match codeOffset (s.core c) pc with
  | some _ => false
  | none =>
    let x := s.coreCtx c
    walkHeld s (s.agentOf c t) c x .execute pc
      || match xlate s c x pc .execute (s.thread c t).sv with
        | .error _ => false
        | .ok p => partHeld s (s.agentOf c t) (s.ctx x).seed p

/-- The wait of a fetch at held sectors (R139, R147). -/
def fetchWait (s : State) (c t pc : Nat) : Wait :=
  let x := s.coreCtx c
  sectorsWait s (s.agentOf c t) (s.ctx x).seed (accessWalk s c x .execute pc
    ++ (xlate s c x pc .execute (s.thread c t).sv).toOption.toList.map (·.pa))

/-- A word that a thread has fetched ahead and that has changed since (R151). -/
def staleWord (s : State) (c t pc : Nat) : Bool :=
  match (s.thread c t).fetched.find? (·.1 == pc), peekWord s c t pc with
  | some old, .ok (w, _) => old.2 != BitVec.ofNat 32 w
  | _, _ => false

/-- Whether the bundle at an address executes with the contents that it had when it was fetched ahead: where they have
changed either may be, and both words of a pair are of one time (R151).
(DESIGN CHOICE, safe, log 6; DEDUCED, safe, log 27) -/
def takesOld (s : State) (c t pc : Nat) : Bool × State :=
  if staleWord s c t pc || staleWord s c t (pc + 4) then (Config.freeBit s.free, { s with free := s.free + 1 }) else (false, s)

/-- The word that a thread fetches, as it stands or as it was fetched ahead (R151). Answers the state after the fetch.
(DEDUCED, safe, log 27) -/
def fetchWord (s : State) (c t pc : Nat) (old : Bool) : Except Cause (BitVec 32 × State) :=
  match peekWord s c t pc with
  | .error e => .error e
  | .ok (w, px) =>
    let s := match px with
      | none => s
      | some p => applyXlat s c (s.coreCtx c) p
    let w := match (if old then (s.thread c t).fetched.find? (·.1 == pc) else none) with
      | some e => e.2
      | none => BitVec.ofNat 32 w
    .ok (w, s)

/-- The word at an address can be fetched ahead: its translation changes no entry, and no agent holds it (R97, R139). -/
def aheadWord (s : State) (c t a : Nat) : Option (BitVec 32) :=
  match (s.thread c t).fetched.find? (·.1 == a) with
  | some e => some e.2
  | none =>
    if fetchHeld s c t a then none
    else
      match peekWord s c t a with
      | .ok (w, px) => if (px.bind (·.update)).isSome then none else some (BitVec.ofNat 32 w)
      | .error _ => none

/-- The words of n bundles from an address, as far as they can be fetched ahead. -/
def aheadFrom (s : State) (c t a : Nat) : Nat → List (Nat × BitVec 32)
  | 0 => []
  | n + 1 =>
    match aheadWord s c t a with
    | none => []
    | some w0 =>
      if bit w0 31 then (a, w0) :: aheadFrom s c t (a + 4) n
      else
        match aheadWord s c t (a + 4) with
        | none => []
        | some w1 => (a, w0) :: (a + 4, w1) :: aheadFrom s c t (a + 8) n

/-- The words that a thread holds after issuing the bundle before an address: those of the eight bundles ahead, as
fetched or as they now stand (R151). (DEDUCED, safe, log 27) -/
def fetchAhead (s : State) (c t a : Nat) : List (Nat × BitVec 32) := aheadFrom s c t a 8

/-- The issue record of the bundle at a thread's pc, for a trap that reaches the thread while it waits. -/
def bundleAt (s : State) (c t : Nat) : Issue :=
  let pc := (s.thread c t).pc.toNat
  let w : Nat → BitVec 32 := fun a => match peekWord s c t a with
    | .ok p => BitVec.ofNat 32 p.1
    | .error _ => 0
  let w0 := w pc
  if bit w0 31 then { Issue.reset with lone := true, w0 := w0 }
  else { Issue.reset with lone := false, w0 := w0, w1 := w (pc + 4) }

/-- A trap raised in a waiting thread, at its bundle. -/
def trapThread (s : State) (c t : Nat) (cause : Cause) (addr : Word) (deferred : Bool) : State :=
  takeTrap { s with cur := (c, t), issue := bundleAt s c t } cause addr deferred

end Sys2Proof.Machine
end

