-- ==== Sys2Proof/Machine/Barr.lean ====
section
/-! DEFINITION. BARR: named barriers (R304 to R313), and the bank exchange (R195, R309). -/

namespace Sys2Proof.Machine

def Core.bar (k : Core) (b : Nat) : Barrier := k.barriers.get b Barrier.reset
def Core.setBar (k : Core) (b : Nat) (r : Barrier) : Core := { k with barriers := k.barriers.set b r }

/-- The identity of a combine operation (R308). -/
def combineId (op : Nat) : Word :=
  match op with
  | 1 | 6 => BitVec.allOnes 64
  | 4 => 0x7FFFFFFFFFFFFFFF
  | 5 => 0x8000000000000000
  | _ => 0

/-- The larger of each byte (R308, op 8). -/
def byteMax (x y : Word) : Word :=
  word (pack8 ((List.range 8).map fun i => Nat.max (fld x (8 * i + 7) (8 * i)) (fld y (8 * i + 7) (8 * i))))
where
  pack8 : List Nat → Nat
    | [] => 0
    | e :: es => e + 256 * pack8 es

/-- A combine operation (R308). -/
def combine (op : Nat) (x y : Word) : Word :=
  match op with
  | 0 => x + y
  | 1 => x &&& y
  | 2 => x ||| y
  | 3 => x ^^^ y
  | 4 => if x.slt y then x else y
  | 5 => if x.slt y then y else x
  | 6 => if x.ult y then x else y
  | 7 => if x.ult y then y else x
  | _ => byteMax x y

/-- The master of a core's group barriers (R304). -/
def State.barMaster (s : State) (c : Nat) : Nat :=
  match (s.core c).bound with
  | some b => b.ld.first
  | none => c
/-- The cores of the launch bound on a core. -/
def State.members (s : State) (c : Nat) : List Nat :=
  match (s.core c).bound with
  | some b => b.ld.cores
  | none => [c]

/-- The waiters of a phase on a core learn of its release (R307, R308). -/
def releaseWaiters (k : Core) (b : Nat) (ph : BitVec 24) (r : Word) : Core :=
  { k with threads := k.threads.map fun p =>
      if p.2.wait = .barrier b ph ∨ p.2.wait = .joined b ph then (p.1, { p.2 with wait := .released b ph r }) else p }

/-- Exchange the banks of the exchange window: the old back bank becomes the front with its full bits, the old front
becomes the back with its full bits cleared (R195). -/
def exchangeBanks (k : Core) : Core :=
  let xb := k.xb
  let xw := k.xw
  let inFront := fun (a : Nat) => decide (xb ≤ a) && decide (a < xb + xw)
  let inBack := fun (a : Nat) => decide (xb + xw ≤ a) && decide (a < xb + 2 * xw)
  let low := k.lmem.filter fun c => decide (c.1 < xb)
  let front := (k.lmem.filter fun c => inFront c.1).map fun c => (c.1 + xw, c.2)
  let back := (k.lmem.filter fun c => inBack c.1).map fun c => (c.1 - xw, c.2)
  let high := k.lmem.filter fun c => decide (xb + 2 * xw ≤ c.1)
  let g := xw / 16
  let backFull := fld k.full (xb / 16 + 2 * g - 1) (xb / 16 + g)
  if xw = 0 then k
  else
    let k := (({ k with lmem := low ++ back ++ front ++ high }).clearFull (xb / 16) g).clearFull (xb / 16 + g) g
    { k with full := k.full ||| BitVec.ofNat 16384 (backFull * 2 ^ (xb / 16)) }

/-- A core receives a release: the banks are exchanged first, then its waiters resume (R307, R309). -/
def receiveRelease (s : State) (c b : Nat) (ph : BitVec 24) (r : Word) (swap : Bool) : State :=
  let k := s.core c
  let k := if swap then exchangeBanks k else k
  let bar := k.bar b
  let ahead := decide (1 ≤ (ph + 1 - bar.phase).toNat) && decide ((ph + 1 - bar.phase).toNat ≤ 2 ^ 23)
  let k := if ahead then k.setBar b { bar with phase := ph + 1, result := r } else k
  s.setCore c (releaseWaiters k b ph r)

/-- An arrival at the counting core c (R306): the phase joined. A release of a group barrier goes to every other
core of the launch (R307). -/
def arriveAt (s : State) (c b : Nat) (val : Option Word) (swap : Bool) : BitVec 24 × State :=
  let k := s.core c
  let bar := k.bar b
  let op := bar.op.toNat
  let acc0 := if bar.arrived = 0 then combineId op else bar.acc
  let acc := match val with
    | some v => combine op acc0 v
    | none => acc0
  let sw := (bar.arrived != 0 && bar.swap) || swap
  let ph := bar.phase
  if bar.arrived + 1 = bar.count.toNat then
    let s := s.setCore c (k.setBar b { bar with arrived := 0, acc := combineId op, swap := false, first := none, held := false })
    let s := receiveRelease s c b ph acc sw
    if bar.group then
      (ph, s.emitAll (((s.members c).filter (· ≠ c)).map fun d => .barrierRelease d b (s.coreOrder c) ph acc sw))
    else (ph, s)
  else
    let first := if bar.arrived = 0 then some s.cycle else bar.first
    (ph, s.setCore c (k.setBar b { bar with arrived := bar.arrived + 1, acc := acc, swap := sw, first := first }))

/-- The arrival of a copy's end (R208, R310): dropped at a barrier that has timed out. The
arrival waits while the copy's launch is pre-empted, and a group barrier's then goes on to the master (R306). -/
def copyArrive (s : State) (c b order : Nat) : State :=
  let bar := (s.core c).bar b
  if launchHere s c order ≠ some true then s.emit (.groupBarrierArrival c c 4 b order 0 false false)
  else if bar.tout then s
  else if bar.group then s.emit (.groupBarrierArrival (s.barMaster c) c 4 b order 0 false false)
  else (arriveAt s c b none false).2

/-- The barrier number of X(a) (R311). -/
def barNum (x : Word) : M Nat := do
  need (fld x 63 7 == 0) .operandRange 0
  return fld x 6 0

/-- How a BARR instruction finds its thread: arriving, or joined to a phase, with the result when it was released. -/
def joined (b : Nat) (w : Wait) : Option (BitVec 24 × Option Word) :=
  match w with
  | .barrier b' ph | .joined b' ph => if b' = b then some (ph, none) else none
  | .released b' ph r => if b' = b then some (ph, some r) else none
  | _ => none

/-- Whether phase ph has been released when the phase number is p (R311). -/
def phasePast (p ph : BitVec 24) : Bool := decide (1 ≤ (p - ph).toNat) && decide ((p - ph).toNat ≤ 2 ^ 23)

/-- Arrive, unless the thread has arrived before and comes back to its wait (R313): the phase joined, and its result
once it is released. A group arrival waits for the master (R307). (DEDUCED, unsafe, log 90) -/
def arriveM (b : Nat) (val : Option Word) (swap : Bool) : M (BitVec 24 × Option Word) := do
  let s ← get
  let bar := s.myCore.bar b
  match joined b s.me.wait with
  | some j => return j
  | none =>
    need (!bar.tout) .barrierTimeout 0
    pin
    if s.me.wait = .arrival b then waitFor (.arrival b)
    else if bar.group then
      emitM (.groupBarrierArrival (s.barMaster s.cid) s.cid s.tid b (s.coreOrder s.cid) (val.getD (combineId bar.op.toNat)) swap true)
      throw (.park (.arrival b))
    else
      let (ph, s') := arriveAt (← get) s.cid b val swap
      set s'
      let now := s'.myCore.bar b
      return (ph, if now.phase = ph then none else some now.result)

/-- Wait until the joined phase is released (R311); a wait that would begin on a barrier that has timed out faults (R310).
(DEDUCED, unsafe, log 93) -/
def awaitPhase (b : Nat) (j : BitVec 24 × Option Word) : M Word :=
  match j.2 with
  | some r => return r
  | none => do
    let s ← get
    need (!(s.myCore.bar b).tout) .barrierTimeout 0
    if (joined b s.me.wait).isSome then waitFor (.barrier b j.1) else throw (.park (.barrier b j.1))

/-- Whether threads of a core wait on a barrier. -/
def Core.barWaiters (k : Core) (b : Nat) : Bool :=
  k.threads.any fun p => match p.2.wait with
    | .barrier b' _ | .arrival b' | .joined b' _ => b' == b
    | _ => false

/-- The group barriers of a launch that timed out while a member core was away (R310). -/
def setTouts (s : State) (order : Nat) (f : List (Nat × Nat) → List (Nat × Nat)) : State :=
  { s with launches := s.launches.map fun p => if p.2.order = order then (p.1, { p.2 with touts := f p.2.touts }) else p }

/-- BINIT (R305). A group barrier is installed on every core of the launch: BINIT waits while one of them does not have
the launch bound, and each gets the master's P. (DESIGN CHOICE, unsafe, log 105) -/
def execBinit (a b : BitVec 5) (s : State) : Out :=
  run (.binit a b) s do
    let x ← readX a
    let y ← readX b
    let n ← barNum x
    let tmo := fld y 39 34
    need (fld y 63 40 == 0 && fld y 29 17 == 0 && fld y 15 0 != 0 && decide (fld y 33 30 ≤ 8)
      && (tmo == 0 || (decide (16 ≤ tmo) && decide (tmo ≤ 40)))) .operandRange 0
    let grp := bit y 16
    let k := s.myCore
    let cores := if grp then s.members s.cid else [s.cid]
    let away := grp && s.barMaster s.cid == s.cid && s.myCore.bound.isSome
      && cores.any fun c => launchHere s c (s.coreOrder s.cid) != some true
    if away then waitFor .held
    need (!(cores.any fun c => (s.core c).barWaiters n || ((s.core c).bar n).arrived != 0)) .barrierState 0
    need (!grp || s.barMaster s.cid == s.cid) .barrierState 0
    pin
    let limit := if tmo ≠ 0 then 2 ^ tmo else if s.me.fetimeout = 0 then 2 ^ 40 else s.me.fetimeout.toNat
    let op := BitVec.ofNat 4 (fld y 33 30)
    let new : Barrier :=
      { group := grp, op := op, tmo := BitVec.ofNat 6 tmo, count := BitVec.ofNat 16 (fld y 15 0), arrived := 0,
        phase := (k.bar n).phase, acc := combineId op.toNat, result := (k.bar n).result, swap := false, tout := false,
        limit := limit, first := none, held := false }
    modify fun s =>
      let s := if grp then setTouts s (s.coreOrder s.cid) (·.filter fun p => p.2 ≠ n) else s
      cores.foldl (fun s c => s.setCore c ((s.core c).setBar n new)) s

/-- BARRIVE: the phase joined (R311). -/
def execBarrive (d a : BitVec 5) (s : State) : Out :=
  run (.barrive d a) s do
    let n ← barNum (← readX a)
    let j ← arriveM n none false
    writeX d (j.1.zeroExtend 64)

/-- BWAIT: one that waited for its phase receives that phase's result, whatever has been released since (R308, R311). -/
def execBwait (d a b : BitVec 5) (s : State) : Out :=
  run (.bwait d a b) s do
    let n ← barNum (← readX a)
    let y ← readX b
    need (fld y 63 24 == 0) .operandRange 0
    let bar := s.myCore.bar n
    let ph := y.setWidth 24
    match s.me.wait with
    | .released b p r =>
      if b = n ∧ p = ph then writeX d r else waitPhase d n bar ph
    | _ => waitPhase d n bar ph
where
  /-- Its test, as when it begins. -/
  waitPhase (d : BitVec 5) (n : Nat) (bar : Barrier) (ph : BitVec 24) : M Unit := do
    need (!bar.tout) .barrierTimeout 0
    if phasePast bar.phase ph then writeX d bar.result else waitFor (.barrier n ph)

/-- BSYNC (R311). -/
def execBsync (a : BitVec 5) (s : State) : Out :=
  run (.bsync a) s do
    let n ← barNum (← readX a)
    let j ← arriveM n none false
    let _ ← awaitPhase n j

/-- BCOMB (R308, R311). -/
def execBcomb (d a b : BitVec 5) (s : State) : Out :=
  run (.bcomb d a b) s do
    let n ← barNum (← readX a)
    let y ← readX b
    let j ← arriveM n (some y) false
    let r ← awaitPhase n j
    writeX d r

/-- BSWAP: on a local barrier a barrier-state fault (R309, R311). -/
def execBswap (a : BitVec 5) (s : State) : Out :=
  run (.bswap a) s do
    let n ← barNum (← readX a)
    need ((s.myCore.bar n).group || (joined n s.me.wait).isSome) .barrierState 0
    let j ← arriveM n none true
    let _ ← awaitPhase n j

/-- The state word (R312). -/
def barWord (r : Barrier) : Word :=
  word (boolNat r.group * 2 ^ 63 + boolNat r.tout * 2 ^ 62 + r.op.toNat * 2 ^ 58 + r.count.toNat * 2 ^ 40
    + r.arrived % 2 ^ 16 * 2 ^ 24 + r.phase.toNat)

/-- BQUERY (R312). -/
def execBquery (d a : BitVec 5) (s : State) : Out :=
  run (.bquery d a) s do
    let n ← barNum (← readX a)
    writeX d (barWord (s.myCore.bar n))

/-! ### The steps of barriers -/

/-- The arrival of a copy's end that waited at its own core goes on to the master of a group barrier (R306). -/
def forwarded (s : State) (m c b order : Nat) (ack : Bool) : Option State :=
  if !ack && m == c && ((s.core m).bar b).group && !((s.core m).bar b).tout && s.barMaster m != m then
    some (s.emit (.groupBarrierArrival (s.barMaster m) c 4 b order 0 false false))
  else none

/-- GROUP_BARRIER_ARRIVAL: an arrival reaches the master (R306, R307). A thread learns the phase it joined; a barrier
that has timed out faults it (R310). The arrival of a thread whose core has another launch bound waits.
(DEDUCED, unsafe, log 93) -/
def execGroupBarrierArrival (s : State) : Out :=
  match s.item with
  | some (.groupBarrierArrival m c t b order val swap ack) =>
    runStep (.groupBarrierArrival m c t b order val swap ack) s fun s => atLive s m order fun s =>
      if ack && launchHere s c order == none then none
      else if ((s.core m).bar b).tout then
        some (if ack && (s.thread c t).wait == .arrival b then trapThread s c t .barrierTimeout 0 false else s)
      else if (forwarded s m c b order ack).isSome then forwarded s m c b order ack
      else
        let (ph, s) := arriveAt s m b (if ack then some val else none) swap
        if ack then
          let th := s.thread c t
          let now := (s.core m).bar b
          let w : Wait := if c = m ∧ now.phase ≠ ph then .released b ph now.result else .joined b ph
          some (if th.wait = .arrival b then s.setThread c t { th with wait := w } else s)
        else some s
  | _ => .next s

/-- BARRIER_RELEASE: a core receives a release (R307, R309). -/
def execBarrierRelease (s : State) : Out :=
  match s.item with
  | some (.barrierRelease c b order ph r swap) =>
    runStep (.barrierRelease c b order ph r swap) s fun s => atLive s c order fun s =>
      some (receiveRelease s c b ph r swap)
  | _ => .next s

/-- A timed-out barrier: its waiters fault, and its arrivals are discarded (R310). A member core without the launch
learns of it when the launch is bound there again. (DEDUCED, unsafe, log 80; DEDUCED, unsafe, log 93) -/
def timeoutBarrier (s : State) (c b : Nat) : State :=
  let bar := (s.core c).bar b
  let order := s.coreOrder c
  let all := if bar.group then s.members c else [c]
  let here := fun (d : Nat) => !bar.group || d == c || launchHere s d order == some true
  let cores := all.filter here
  let s := setTouts s order fun l => l ++ (all.filter fun d => !here d).map fun d => (d, b)
  let s := cores.foldl (fun s d =>
    let k := s.core d
    s.setCore d (k.setBar b { k.bar b with tout := true, arrived := 0, first := none, swap := false, held := false })) s
  cores.foldl (fun s d =>
    (List.range 5).foldl (fun s t =>
      let w := (s.thread d t).wait
      if w = .barrier b bar.phase then
        let s := s.setThread d t { s.thread d t with wait := .none }
        trapThread s d t .barrierTimeout 0 false
      else s) s) s

/-- The group barriers that timed out while a core was away are timed out there too, and their waiters try again, and
fault (R310). -/
def lateTouts (bs : List Nat) (k : Core) : Core :=
  bs.foldl (fun k b =>
    let k := k.setBar b { k.bar b with tout := true, arrived := 0, first := none, swap := false, held := false }
    { k with threads := k.threads.map fun p =>
        match p.2.wait with
        | .barrier b' ph => if b' = b then (p.1, { p.2 with wait := .joined b ph }) else p
        | _ => p }) k

/-- A core on which the launch of a bind order is bound now learns which barriers have timed out meanwhile (R310). -/
def applyTouts (s : State) (c order : Nat) : State :=
  let touts := (List.find? (fun (p : Nat × LaunchRun) => p.2.order == order) s.launches).elim [] fun p => p.2.touts
  let mine := (touts.filter fun p => p.1 == c).map (·.2)
  if mine = [] then s
  else (setTouts s order (·.filter fun p => p.1 != c)).setCore c (lateTouts mine (s.core c))

/-- BARRIER_TIMEOUT: a phase's timeout expires at its counting core (R310). In host-assisted mode the phase is held
and a notice posted (R363). -/
def execBarrierTimeout (s : State) : Out :=
  match s.item with
  | some (.barrierTimeout c b) =>
    runStep (.barrierTimeout c b) s fun s =>
      let bar := (s.core c).bar b
      match bar.first with
      | none => none
      | some t0 =>
        if s.cycle < t0 + bar.limit ∨ bar.held ∨ bar.arrived = 0 then none
        else
          let x := s.coreCtx c
          if bit (s.ctx x).modes 5 then
            let s := s.setCore c ((s.core c).setBar b { bar with held := true })
            some (postNotice s x (s.coreQueue c) c false 0 [4, word c, word b, bar.phase.zeroExtend 64, 0, 0, 0]).2
          else some (timeoutBarrier s c b)
  | _ => .next s

end Sys2Proof.Machine
end

