-- ==== Sys2Proof/Machine/Tree.lean ====
section
/-! DEFINITION. The completion tree of a launch (R316): reports, stops and done words. -/

namespace Sys2Proof.Machine

/-- Positions of a launch: its cores, or its pairs under chk (R316, R356). -/
def LaunchDesc.positions (ld : LaunchDesc) : Nat := if ld.chk then ld.count / 2 else ld.count
/-- The core at a position. -/
def LaunchDesc.coreAt (ld : LaunchDesc) (p : Nat) : Nat := ld.first + (if ld.chk then 2 * p else p)
/-- Child positions. -/
def LaunchDesc.children (ld : LaunchDesc) (p : Nat) : List Nat :=
  ((List.range 4).map fun i => 4 * p + 1 + i).filter fun q => decide (q < ld.positions)

/-- Every initial strand of the core has finished: that of each slot, on whatever thread it ended (R297). -/
def Core.allDone (k : Core) (n : Nat) : Bool := (List.range n).all fun t => (k.thread t).finished

/-- The follower of a pair that a launch with chk formed at bind: its leader holds the position and answers for both
(R316, R356). -/
def Bound.follows (b : Bound) (c : Nat) : Bool := b.ld.chk && c % 2 == 1

/-- Report "strands done" when it is due (R316); at the root the stop goes down the tree. -/
def tryReport (s : State) (c : Nat) : State :=
  let k := s.core c
  match k.bound with
  | none => s
  | some b =>
    let p := b.record.pos
    let kids := (b.ld.children p).map b.ld.coreAt
    if b.follows c || k.tree.reported || k.tree.stopped || !k.allDone b.ld.n || !(kids.all fun d => k.tree.childReports.contains d) then s
    else
      let s := s.setCore c { k with tree := { k.tree with reported := true } }
      if p = 0 then stopLaunch s c else s.emit (.strandsDone (b.ld.coreAt ((p - 1) / 4)) c b.record.order)

/-- Fields of a done word (R316). -/
def doneWord (tasks aband cause fcore err : Nat) : BitVec 128 :=
  BitVec.ofNat 128 (tasks % 2 ^ 48 * 2 ^ 80 + aband % 2 ^ 32 * 2 ^ 48 + cause % 2 ^ 8 * 2 ^ 40 + fcore % 2 ^ 10 * 2 ^ 30
    + err % 2 ^ 16)

/-- Combine two done words (R316): sums, the first cause at the lowest core with an error, and the OR of errors. -/
def joinWords (a b : BitVec 128) : BitVec 128 :=
  let first := if fld a 15 0 = 0 then b else if fld b 15 0 = 0 then a else if fld b 39 30 < fld a 39 30 then b else a
  doneWord (fld a 127 80 + fld b 127 80) (fld a 79 48 + fld b 79 48) (fld first 47 40) (fld first 39 30)
    (fld a 15 0 ||| fld b 15 0)

/-- The core's own done word. -/
def ownWord (k : Core) (c : Nat) : BitVec 128 :=
  let err := k.tree.err.toNat ||| (if k.tree.aband ≠ 0 then 8 else 0)
  doneWord k.tasksDone k.tree.aband (if err = 0 then 0 else k.tree.cause.toNat) (if err = 0 then 0 else c) err

/-- The accesses of a core's threads and streams that the page-fault service has been asked for are dropped: a thread that
is resumed asks again, and stream queues are discarded (R222, R360). -/
def dropAsks (s : State) (c : Nat) : State :=
  { s with pageItems := s.pageItems.filter fun (i : PageItem) =>
      match i.asker with | .thread d _ _ | .frame d _ | .stream d _ _ _ => d != c | _ => true }

/-- Unbind a core: slot 0 becomes invalid (R358) and its threads carry nothing. -/
def unbindCore (s : State) (c : Nat) : State :=
  let s := dropAsks s c
  let k := s.core c
  let ths := k.threads.map fun p => if p.1 < 4 then (p.1, { p.2 with strand := .unbound, wait := .none, requests := [], progress := none, sev := none, task := none }) else p
  s.setCore c { k with threads := ths, bound := none, slots := SMap.del k.slots 0, deque := [], pushes := [], parked := [], runs := [], tasksDone := 0, tree := Tree.reset, taken := false, pair := .none, agreed := [] }

/-- A steal of a thread of the core has not been answered: a record may be on its way here (R299, R316). -/
def Core.stealsOut (k : Core) : Bool := k.threads.any fun p => decide (p.1 < 4) && p.2.search.asked.isSome

/-- Send the done word when the core has stopped, its activation has ended, its steals have been answered and every child's word is in (R316). The
root's combined word is sent to itself: it completes the launch. -/
def trySendDone (s : State) (c : Nat) : State :=
  let k := s.core c
  match k.bound with
  | none => s
  | some b =>
    let p := b.record.pos
    let kids := (b.ld.children p).map b.ld.coreAt
    if b.follows c || !k.tree.stopped || k.tree.sent || k.act.isSome || k.stealsOut || !(kids.all fun d => k.tree.childWords.any (·.1 == d)) then s
    else
      let w := k.tree.childWords.foldl (fun w e => joinWords w e.2) (ownWord k c)
      let parent := if p = 0 then c else b.ld.coreAt ((p - 1) / 4)
      let s := s.setCore c { k with tree := { k.tree with sent := true } }
      let s := if p = 0 then s else unbindCore s c
      let s := if b.ld.chk then unbindCore s (c + 1) else s
      s.emit (.doneWord parent c b.record.order w)

/-- A core stops its strands and counts what it abandons: running and parked tasks, and the records of its deque with
those that wait for a place in it (R316). -/
def stopCore (s : State) (c : Nat) : State :=
  let k := s.core c
  match k.bound with
  | none => s
  | some b =>
    if b.follows c then s.setCore c { k with tree := { k.tree with stopped := true } }
    else if k.tree.stopped then trySendDone s c
    else
      let running := ((List.range b.ld.n).filter fun t =>
        let th := k.thread t
        th.strand == .running && bit th.taskref 28).length
      let parked := (k.parked.filter fun p => p.2.task).length
      let ths := k.threads.map fun p => if p.1 < 4 then (p.1, { p.2 with strand := .idle, wait := .none, progress := none, task := none }) else p
      let s := s.setCore c { k with
        threads := ths
        deque := [], pushes := [], parked := [], runs := []
        tree := { k.tree with stopped := true, aband := k.tree.aband + k.deque.length + k.pushes.length + running + parked } }
      trySendDone s c

/-- STRANDS_DONE: a report reaches its parent (R316). -/
def execStrandsDone (s : State) : Out :=
  match s.item with
  | some (.strandsDone p c order) =>
    runStep (.strandsDone p c order) s fun s => atLaunch s p order fun s =>
      let k := s.core p
      some (tryReport (s.setCore p { k with tree := { k.tree with childReports := c :: k.tree.childReports } }) p)
  | _ => .next s

/-- LAUNCH_STOP: the stop reaches a core (R316, R385); strands stop at a bundle boundary, so a word of several parts ends
first (R120). -/
def execLaunchStop (s : State) : Out :=
  match s.item with
  | some (.launchStop c order) =>
    runStep (.launchStop c order) s fun s => atLaunch s c order fun s =>
      if (s.core c).threads.any fun p => decide (p.1 < 4) && p.2.progress.isSome then none else some (stopCore s c)
  | _ => .next s

end Sys2Proof.Machine
end

