-- ==== Sys2Proof/Machine/Task.lean ====
section
/-! DEFINITION. TASK: fork, join, the search for work, events and the heartbeat (R291 to R303, R314, R315). -/

namespace Sys2Proof.Machine

/-- The second doubleword of a join record (R293). -/
def joinFlags (k : Core) (j : Nat) : Word := word (k.lread (j + 8) 8)
def joinReserved (f : Word) : Bool := fld f 19 2 ≠ 0 || fld f 63 49 ≠ 0
def joinParked (f : Word) : Bool := bit f 0
def joinRun (f : Word) : Bool := bit f 1
def joinCount (k : Core) (j : Nat) : Int := toSigned (k.lread j 8) 64

/-- The checks of a join record (R293, R422). -/
def joinCheck (k : Core) (j : Nat) : Option (Cause × Word) :=
  match placedFront k j 256 64 with
  | some f => some f
  | none => if joinReserved (joinFlags k j) then some (.descriptorFormat, word j) else none

/-- FORK (R294). (DESIGN CHOICE, safe, log 51) -/
def execFork (d a b : BitVec 5) (s : State) : Out :=
  run (.fork d a b) s do
    let x ← readX a
    let y ← readX b
    let j := y.toNat
    need (fld x 1 0 == 0 && fld x 63 52 == 0) .operandRange 0
    checkPlaced (joinCheck s.myCore j)
    let f := joinFlags s.myCore j
    need (!joinParked f && !joinRun f) .taskState 0
    if s.myCore.dequeFull then writeX d 0
    else
      let g := fun n => s.me.getX n
      modCore fun k =>
        let k := k.lwrite j 8 (k.lread j 8 + 1)
        let ths := k.threads.map fun p => (p.1, { p.2 with search := { p.2.search with until_ := 0 } })
        { k with threads := ths, deque := k.deque ++ [⟨x, g 3, g 4, g 5, g 6, g 7, g 8, s.cid, j, 0⟩] }
      writeX d 1

/-- The registers and flags of a parked strand (R293, R296). -/
def parkRecord (k : Core) (j : Nat) (th : Thread) (cpc : Word) : Core :=
  let k := k.lwrite (j + 8) 8 (1 + th.taskref.toNat % 2 ^ 29 * 2 ^ 20)
  let k := k.lwrite (j + 16) 8 cpc.toNat
  (List.range 29).foldl (fun k i => k.lwrite (j + 24 + 8 * i) 8 (th.getX (i + 1)).toNat) k

/-- The thread becomes idle and looks for work. -/
def goIdle (s : State) : State :=
  let th := s.me
  (s.setMe { th with strand := .idle, wait := .none, task := none, search := ⟨0, [], 0, 0, none⟩ }).emit
    (.workSearch s.cid s.tid)

/-- JOIN (R296). In a pair the record's registers are those after the pair: the bundle writes them (`afterJoin`). -/
def execJoin (a : BitVec 5) (s : State) : Out :=
  run (.join a) s do
    let x ← readX a
    let j := x.toNat
    checkPlaced (joinCheck s.myCore j)
    let f := joinFlags s.myCore j
    need (!joinParked f && !joinRun f && s.me.mo.isEmpty) .taskState 0
    if joinCount s.myCore j = 0 then pure ()
    else
      let th := s.me
      modCore fun k =>
        let k := parkRecord k j th s.fall
        { k with parked := k.parked.set j ⟨bit th.taskref 28, th.initial, th.task⟩ }
      modify goIdle

/-- After a pair whose JOIN has parked, the record takes the registers as they stand after the pair (R296). -/
def afterJoin (s : State) (a : BitVec 5) (before : State) : State :=
  let j := (before.me.getX a.toNat).toNat
  if s.me.strand = .idle then
    s.setMyCore ((List.range 29).foldl (fun k i => k.lwrite (j + 24 + 8 * i) 8 (s.me.getX (i + 1)).toNat) s.myCore)
  else s

/-- A thread continues the strand parked on a record of its core (R297, R298). -/
def resumeJoin (s : State) (c t j : Nat) : State :=
  let k := s.core c
  let th := k.thread t
  let fl := joinFlags k j
  let th := (List.range 29).foldl (fun (th : Thread) i => th.setX (i + 1) (word (k.lread (j + 24 + 8 * i) 8))) th
  let p := k.parked.get j ⟨false, t, none⟩
  let th := { th with
    -- the low two bits of a pc are always zero (R26)
    pc := word (k.lread (j + 16) 8) &&& ~~~3, taskref := word (fld fl 48 20), strand := .running, wait := .none,
    initial := p.slot, task := p.record, search := ⟨0, [], 0, 0, none⟩ }
  let k := k.lwrite (j + 8) 8 (fl.toNat / 4 * 4)
  s.setCore c ({ k with parked := SMap.del k.parked j, runs := k.runs.filter (· ≠ j) }.setThread t th)

/-- Insert an offset in ascending order. -/
def insertSorted (a : Nat) : List Nat → List Nat
  | [] => [a]
  | b :: bs => if a < b then a :: b :: bs else if a = b then b :: bs else b :: insertSorted a bs

/-- TDONE (R297): the count of the join record falls by one, and the last child resumes a parked parent.
(DEDUCED, unsafe, log 36) -/
def execTdone (s : State) : Out :=
  run .tdone s do
    let th := s.me
    if bit th.taskref 28 then
      let c := fld th.taskref 27 18
      let j := fld th.taskref 17 0
      let k := s.core c
      need (decide (c < 768)) .invalidTarget 0
      -- the record's core has the launch set aside, or is fenced
      if s.away c then waitFor .held
      checkPlaced (joinCheck k j)
      need (decide (0 < joinCount k j)) .taskState 0
      let n := joinCount k j - 1
      let resume := n == 0 && joinParked (joinFlags k j)
      modify fun s =>
        let k := (s.core c).lwrite j 8 n.toNat
        let k := if resume && c != s.cid then
            let k := k.lwrite (j + 8) 8 ((joinFlags k j).toNat / 4 * 4 + 2)
            let ths := k.threads.map fun p => (p.1, { p.2 with search := { p.2.search with until_ := 0 } })
            { k with runs := insertSorted j k.runs, threads := ths }
          else k
        s.setCore c k
      modCore fun k => { k with tasksDone := k.tasksDone + 1 }
      if resume && c == s.cid then
        modify fun s => resumeJoin s c s.tid j
        goNext
      else modify goIdle
    else
      modify fun s => tryReport (goIdle (finishInitial s s.cid th.initial)) s.cid
where
  /-- The thread continues at the address that the record gave it. -/
  goNext : M Unit := modify fun s => { s with issue := { s.issue with next := some s.me.pc } }

/-- YIELD: rule 3 of R284 does not select the thread in the next cycle (R301); no effect in th (R291). -/
def execYield (s : State) : Out :=
  run .yield s (if s.isTh then pure () else modCore fun k => { k with sched := { k.sched with yielded := true } })

/-- HBEAT (R314); no effect in th (R291). -/
def execHbeat (s : State) : Out :=
  run .hbeat s (if s.isTh then pure () else modMe fun t => { t with hbcount := 0 })

/-- WFE (R303). -/
def execWfe (d b : BitVec 5) (s : State) : Out :=
  run (.wfe d b) s do
    let y ← readX b
    let limit := if y ≠ 0 then y.toNat else if s.me.fetimeout ≠ 0 then s.me.fetimeout.toNat else 2 ^ 40
    if s.me.latch then
      modMe fun t => { t with latch := false }
      writeX d 1
    else if s.me.wait = .eventOver then writeX d 0
    else waitFor (.event limit)

/-- Set latches of a core (R302): a set on an unbound slot is lost. -/
def setLatches (s : State) (c : Nat) (l : BitVec 4) : State :=
  (List.range 4).foldl (fun s t =>
    let th := s.thread c t
    if bit l t && th.strand != .unbound then s.setThread c t { th with latch := true } else s) s

/-- SEV (R302). The set of another core's latches comes before the thread's later actions in the package order (R136): the
thread records it, and issues no more before it has taken place. -/
def execSev (a : BitVec 5) (s : State) : Out :=
  run (.sev a) s do
    let x ← readX a
    need (fld x 63 13 == 0) .operandRange 0
    let c := fld x 9 0
    need (decide (c < 768) && s.inLaunch c) .invalidTarget 0
    let l := if bit x 12 then 15#4 else BitVec.ofNat 4 (2 ^ fld x 11 10)
    pin
    modify fun s =>
      if c = s.cid then setLatches s c l
      else (s.setMe { s.me with sev := some (c, l) }).emit (.eventLatchSet c (s.coreOrder s.cid) l)

/-- EVENT_LATCH_SET: a set reaches its target core (R302). Where the launch is not bound its slots are not either, and the set
is lost, as it is at a core that is off the network (R315). (DEDUCED, unsafe, log 96) -/
def execEventLatchSet (s : State) : Out :=
  match s.item with
  | some (.eventLatchSet c order l) =>
    runStep (.eventLatchSet c order l) s fun s =>
      some (if launchHere s c order == some true && !(s.core c).fenced then setLatches s c l else s)
  | _ => .next s

/-- WFE_TIMEOUT: the limit of a waiting WFE has passed (R303). -/
def execWfeTimeout (s : State) : Out :=
  match s.item with
  | some (.wfeTimeout c t) =>
    runStep (.wfeTimeout c t) s fun s =>
      let th := s.thread c t
      match th.wait with
      | .event n => if th.since + n ≤ s.cycle then some (s.setThread c t { th with wait := .eventOver }) else none
      | _ => none
  | _ => .next s

/-- FE_TIMEOUT: a wait on full/empty bits has lasted more than FETIMEOUT cycles (R197). (DEDUCED, unsafe, log 38) -/
def execFeTimeout (s : State) : Out :=
  match s.item with
  | some (.feTimeout c t) =>
    runStep (.feTimeout c t) s fun s =>
      let th := s.thread c t
      let limit := if th.fetimeout = 0 then 2 ^ 40 else th.fetimeout.toNat
      match th.wait with
      | .granules g n full =>
        if th.since + limit < s.cycle && !(s.core c).granulesAre g n full then some (trapThread s c t .feTimeout 0 false) else none
      | _ => none
  | _ => .next s

/-! ### The search for work (R295, R298, R299) -/

/-- The 64 bytes of a task record (R292). -/
def taskNat (r : TaskRec) : Nat := wordsNat [word (r.join + r.origin * 2 ^ 32), r.pc, r.x3, r.x4, r.x5, r.x6, r.x7, r.x8]

/-- A restartable launch mirrors the record of a task that it starts into its save area, behind the thread's part, and the
thread goes on; `s0` is the state before the step (R384). -/
def mirrorTask (s0 s : State) (c t : Nat) (r : TaskRec) (go : State → Option State) : Option State :=
  match (s.core c).bound with
  | none => go s
  | some b =>
    if !b.ld.rst || b.ld.savebase == 0 then go s
    else
      let x := b.record.ctx
      let a := b.ld.savebase.toNat + b.record.pos * 0x55000 + 0x4800 * t + 18296
      match unitWrite s .other c x true (partsOf a 64) (taskNat r) with
      | (none, s) => go s
      | (some d, _) => orAsk s0 s x b.record.queue c 2 go d

/-- A thread starts a task (R295); its record is kept for a push again (R384). -/
def startTask (s : State) (c t : Nat) (r : TaskRec) : State :=
  let th := s.thread c t
  let xs := [(2, th.sp0), (3, r.x3), (4, r.x4), (5, r.x5), (6, r.x6), (7, r.x7), (8, r.x8)]
  let th := xs.foldl (fun (th : Thread) p => th.setX p.1 p.2) th
  s.setThread c t { th with
    pc := r.pc, strand := .running, wait := .none, task := some r, search := ⟨0, [], 0, 0, none⟩,
    taskref := word (2 ^ 28 + r.origin % 2 ^ 10 * 2 ^ 18 + r.join % 2 ^ 18) }

/-- The domain of a core at a widening step: pavilion, die, package (R299). -/
def domainOf (step c : Nat) : Nat := match step with | 1 => c / 12 | 2 => c / 384 | _ => 0

/-- The cores that a thief tries, in order (R299). -/
def stealOrder (ld : LaunchDesc) (c : Nat) : List Nat :=
  let cs := ld.cores
  let wrap := cs.filter (fun d => decide (c < d)) ++ cs.filter (fun d => decide (d < c))
  (List.range ld.steal).flatMap fun i =>
    wrap.filter fun d => domainOf (i + 1) d == domainOf (i + 1) c && !(i != 0 && domainOf i d == domainOf i c)

/-- The thread is idle in a bound launch that has not been stopped, and no follower's, which only follows (R380). -/
def searching (s : State) (c t : Nat) : Bool :=
  (s.thread c t).strand == .idle && (s.core c).bound.isSome && !(s.core c).tree.stopped && !(s.core c).fenced
    && (match (s.core c).pair with | .follower _ => false | _ => true)

/-- Every source was empty: the back-off (R298). -/
def backOff (s : State) (c t : Nat) : State :=
  let th := s.thread c t
  let m := th.search.rounds + 1
  (s.setThread c t { th with search := ⟨0, [], m, s.cycle + 2 ^ (8 + Nat.min m 6), none⟩ }).emit (.backOff c t)

/-- Try the next victim, or back off. -/
def tryVictims (s : State) (c t : Nat) : List Nat → State
  | [] => backOff s c t
  | v :: vs =>
    let th := s.thread c t
    (s.setThread c t { th with search := { th.search with cores := vs, asked := some s.cycle } }).emit (.steal c t v (s.coreOrder c))

/-- A lower thread of the core searches at the same time, and is served first (R298). -/
def lowerFirst (s : State) (c t : Nat) : Bool := (List.range t).any fun u => searching s c u && s.flight.contains (.workSearch c u)

/-- WORK_SEARCH: an idle thread takes the first item it finds: a continuation, its own deque's tail, a steal (R298).
Lower threads go first. -/
def execWorkSearch (s : State) : Out :=
  match s.item with
  | some (.workSearch c t) =>
    runStep (.workSearch c t) s fun s =>
      if !searching s c t then some s
      else if (s.thread c t).search.asked.isSome then some s
      else if lowerFirst s c t then none
      else
        let k := s.core c
        match k.runs with
        | j :: _ => some (resumeJoin s c t j)
        | [] =>
          match k.deque.getLast? with
          | some r => mirrorTask s (s.setCore c (settlePushes { k with deque := k.deque.dropLast })) c t r fun s => some (startTask s c t r)
          | none =>
            match k.bound with
            | some b => some (tryVictims s c t (stealOrder b.ld c))
            | none => none
  | _ => .next s

/-- BACK_OFF: the wait of an idle thread ends, and it starts again (R298). -/
def execBackOff (s : State) : Out :=
  match s.item with
  | some (.backOff c t) =>
    runStep (.backOff c t) s fun s =>
      if !searching s c t then some s
      else if s.cycle < (s.thread c t).search.until_ then none
      else some (s.emit (.workSearch c t))
  | _ => .next s

/-- STEAL: the victim's deque gives up its head record, or answers empty (R299, R300). -/
def execSteal (s : State) : Out :=
  match s.item with
  | some (.steal c t v order) =>
    runStep (.steal c t v order) s fun s =>
      let k := s.core v
      match (if launchHere s v order = some true && !k.fenced then k.deque else []) with
      | r :: rs => some ((s.setCore v (settlePushes { k with deque := rs })).emit (.stealAnswer c t v order (some r)))
      | [] => some (s.emit (.stealAnswer c t v order none))
  | _ => .next s

/-- STEAL_ANSWER: the thief starts the task, or tries the next core (R295, R299). A record that reaches a stopped or fenced
core counts as abandoned, and the core's done word may now be due (R316). (DEDUCED, unsafe, log 96) -/
def execStealAnswer (s : State) : Out :=
  match s.item with
  | some (.stealAnswer c t v order r) =>
    runStep (.stealAnswer c t v order r) s fun s0 => atLaunch s0 c order fun s =>
      let th := s.thread c t
      let s := monitorEvent s (some c) 0 0 6 (s.coreCtx c) (s.cycle - th.search.asked.getD s.cycle)
      let s := s.setThread c t { th with search := { th.search with asked := none } }
      match r with
      | some r =>
        if searching s c t then mirrorTask s0 s c t r fun s => some (startTask s c t r)
        else
          let k := s.core c
          some (trySendDone (s.setCore c { k with tree := { k.tree with aband := k.tree.aband + 1 } }) c)
      | none => if searching s c t then some (tryVictims s c t th.search.cores) else some (trySendDone s c)
  | _ => .next s

/-! ### The heartbeat (R314, R315) -/

/-- A fault message of a fenced core reaches a core of its pavilion: the launch's count goes up there, also where it is
pre-empted; where it is not bound yet there is none (R315). -/
def peerFault (s : State) (order d : Nat) : State :=
  if launchHere s d order = some true then s.setCore d { s.core d with peerFaults := (s.core d).peerFaults + 1 }
  else
    match s.savedTasks.find? (savedKey order d) with
    | some a => { s with savedTasks := s.savedTasks.set (savedKey order d) { a with peerFaults := a.peerFaults + 1 } }
    | none => s

/-- HEARTBEAT_MISS: the core is fenced, the cores of its pavilion in the launch receive a fault message, and the
thread's work is contained (R315, R383). -/
def execHeartbeatMiss (s : State) : Out :=
  match s.item with
  | some (.heartbeatMiss c t) =>
    runStep (.heartbeatMiss c t) s fun s =>
      let k := s.core c
      match k.bound with
      | none => none
      | some b =>
        if (k.thread t).strand ≠ .running ∨ (k.thread t).hbcount.toNat < 2 ^ b.ld.h then none
        else
          let s := s.setCore c { k with fenced := true }
          let s := (b.ld.cores.filter fun d => d != c && d / 12 == c / 12).foldl (peerFault · b.record.order ·) s
          some (threadFault s c t .heartbeat 0 1)
  | _ => .next s

end Sys2Proof.Machine
end

