-- ==== Sys2Proof/Machine/Ring.lean ====
section
/-! DEFINITION. Reorder rings (R223 to R226), and KROUTE (R339). -/

namespace Sys2Proof.Machine

/-! ### The ring header (R223) -/

structure RingHdr where
  tail : Word
  head : Word
  fticket : Word
  faddr : Word
  fcause : Nat
  fvalid : Bool
  gen : Nat
  slots : Nat
  lslots : Nat
  ssize : Nat
  journ : Bool
  push : Bool
  pull : Bool
  jkiosk : Nat
  jbase : Nat
  reserved : Bool
  deriving DecidableEq, Repr

/-- The header at an offset of a core's local memory. -/
def ringHdr (k : Core) (h : Nat) : RingHdr :=
  let d := fun (i : Nat) => word (k.lread (h + 8 * i) 8)
  { tail := d 7, head := d 6, fticket := d 5, faddr := word (fld (d 4) 63 12), fcause := fld (d 4) 11 4, fvalid := bit (d 4) 3,
    gen := fld (d 3) 63 48, slots := fld (d 3) 47 30, lslots := fld (d 3) 29 26, ssize := fld (d 3) 25 18,
    journ := bit (d 3) 17, push := bit (d 3) 16, pull := bit (d 3) 15, jkiosk := fld (d 3) 14 10,
    jbase := fld (d 3) 7 0 * 2 ^ 44 + fld (d 2) 63 20,
    reserved := fld (d 4) 2 0 ≠ 0 || fld (d 3) 9 8 ≠ 0 || fld (d 2) 19 0 ≠ 0 || d 1 ≠ 0 || d 0 ≠ 0 }

def RingHdr.count (r : RingHdr) : Nat := 2 ^ r.lslots
def RingHdr.bytes (r : RingHdr) : Nat := 32 * r.ssize
/-- The offset of a ticket's slot (R223). -/
def RingHdr.slot (r : RingHdr) (t : Nat) : Nat := r.slots + t % r.count * r.bytes
/-- Tail minus head. -/
def RingHdr.depth (r : RingHdr) : Nat := (r.tail - r.head).toNat

/-- Contents that are malformed (R223). (DEDUCED, unsafe, log 48) -/
def ringBad (k : Core) (r : RingHdr) : Bool :=
  r.reserved || decide (11 ≤ r.lslots) || r.ssize == 0 || decide (128 < r.ssize) || r.slots % 32 != 0
  || decide (r.slots < k.cw) || decide (k.xb + k.xw < r.slots + r.count * r.bytes)

/-- Placement, then contents (R223, R422). (DEDUCED, unsafe, log 48) -/
def ringFault (k : Core) (h : Nat) : Option (Cause × Word) :=
  match placedFront k h 64 64 with
  | some f => some f
  | none => if ringBad k (ringHdr k h) then some (.descriptorFormat, word h) else none

/-- Fields of a ring handle (R224). -/
def handleCore (h : Word) : Nat := fld h 27 18
def handleHdr (h : Word) : Nat := fld h 17 0
def handleGen (h : Word) : Nat := fld h 63 48
def handleReserved (h : Word) : Bool := fld h 47 28 ≠ 0

/-- Every granule of a slot is full (R225). -/
def slotFull (k : Core) (r : RingHdr) (t : Nat) : Bool := k.allFull (r.slot t / 16) (2 * r.ssize)

def setTail (k : Core) (h : Nat) (t : Word) : Core := k.lwrite (h + 56) 8 t.toNat
def setHead (k : Core) (h : Nat) (t : Word) : Core := k.lwrite (h + 48) 8 t.toNat
/-- Set or clear the header's push or pull bit (R223 [208], [207]). -/
def setLiveBit (k : Core) (h : Nat) (pull live : Bool) : Core :=
  let d := k.lread (h + 24) 8
  let b := if pull then 15 else 16
  k.lwrite (h + 24) 8 (setFld (word d) b b (boolNat live)).toNat
/-- Record a fault in the header (R217). -/
def recordFault (k : Core) (h : Nat) (t : Word) (c : Cause) (va : Nat) : Core :=
  let k := k.lwrite (h + 40) 8 t.toNat
  k.lwrite (h + 32) 8 (va % 2 ^ 52 * 2 ^ 12 + c.code.toNat * 2 ^ 4 + 8 + k.lread (h + 32) 1 % 8)

/-- The journal of a ring, as the kiosk keeps it from the ring's first operation (R226). (DEDUCED, unsafe, log 32) -/
def withJournal (s : State) (c h : Nat) (sup : Bool) : State :=
  if s.journals.any fun j => j.core == c && j.hdr == h then s
  else { s with journals := s.journals ++ [⟨c, h, s.coreCtx c, (ringHdr (s.core c) h).jbase, sup, []⟩] }

/-- The rights with which a ring's journal is written: those of the thread that first used it (R96). -/
def journalSup (s : State) (c h : Nat) : Bool :=
  match s.journals.find? fun j => j.core == c && j.hdr == h with
  | some j => j.sup
  | none => false

/-- The journal's copy of the header is rewritten at each ticket, put and release, before the operation completes
(R226). (DEDUCED, unsafe, log 32) -/
def mirrorHeader (s : State) (c h : Nat) (sup : Bool) : Except Denied State :=
  let k := s.core c
  let r := ringHdr k h
  if r.journ then
    let s := withJournal s c h sup
    let x := s.coreCtx c
    match unitWrite s .other 768 x (journalSup s c h) (partsOf (r.jbase - 64) 64) (k.lread h 64) with
    | (none, s) => .ok (writeThrough s x (r.jbase - 64) 64)
    | (some d, _) => .error d
  else .ok s

/-- A unit changes a ring's header, and goes on once the copy is rewritten: it waits at a held sector and for the
page-fault service; a copy that its context's page table does not reach is not written (R100, R139, R226). -/
def withMirror (s : State) (c h : Nat) (sup : Bool) (f : State → State) (go : State → Option State) : Option State :=
  match mirrorHeader (f s) c h sup with
  | .ok s => go s
  | .error d => orAsk s (f s) (s.coreCtx c) (s.coreQueue c) c 2 go d

/-- The same for a thread's ring operation. -/
def mirrored (c h : Nat) (f : State → State) : M Unit := do
  let s ← get
  match mirrorHeader (f s) c h s.me.sv with
  | .ok s => set s
  | .error (.held w) => waitFor w
  | .error (.fault .notPresent va) =>
    match askOther s (s.coreCtx c) (s.coreQueue c) c va 2 with
    | none => waitFor .held
    | some (true, s) => set (f s)
    | some (false, s) => do
      set s
      throw (.park (.pageFault s.pageSeq))
  | .error _ => set (f s)

/-- The mirror of a ticket's slot is kept, or dropped (R226). -/
def setMirror (s : State) (c h t : Nat) (keep : Bool) : State :=
  { s with journals := s.journals.map fun j =>
      if j.core = c ∧ j.hdr = h then
        { j with tickets := if keep then j.tickets ++ [t] else j.tickets.filter (· ≠ t) }
      else j }

/-- The slot of a ticket is written: its full bits are set with the data, or on a journaled ring once the kiosk has
written the slot to the journal (R225, R226). -/
def fillSlot (s : State) (c h t : Nat) : State :=
  let r := ringHdr (s.core c) h
  if r.journ then s.emit (.journalWrite c h t (s.coreOrder c)) else s.setCore c ((s.core c).setFull (r.slot t / 16) (2 * r.ssize))

/-- Store a record in a ticket's slot. -/
def putSlot (s : State) (c h t v : Nat) : State :=
  let k := s.core c
  let r := ringHdr k h
  fillSlot (s.setCore c (k.lwrite (r.slot t) r.bytes v)) c h t

/-- An annex or merge of the launch bound on a core. -/
def annexesOf (s : State) (c : Nat) : List Annex :=
  s.annexes.filter fun a => (a.o == c || a.y == c) && (s.boundKey c).map (·.1) == some a.key
/-- A stage ring that an annex or a merge holds (R340). -/
def ringHeld (s : State) (c h : Nat) : Bool := (annexesOf s c).any fun a => a.hdr == h
/-- RTAKE on the twin is exempt in step 2 of a merge (R346). -/
def takeHeld (s : State) (c h : Nat) : Bool := (annexesOf s c).any fun a => a.hdr == h && !(a.merge && a.step == 2 && a.y == c)

/-- What stands at an address of a context, without an access. -/
def peekVa (s : State) (x va n : Nat) : Option Nat :=
  match xlate s 768 x va .read true with
  | .ok p => readPa s (s.ctx x).seed p.pa n
  | .error _ => none

/-- The stage descriptor of a launch (R419). -/
def LaunchDesc.stage (ld : LaunchDesc) : Option Nat :=
  let a := ld.args.getD 5 0
  if bit a 63 then some (fld a 51 0) else none

/-- Whether a header is the stage ring's on this core (R337, R340). -/
def isStageRing (s : State) (c h : Nat) : Bool :=
  match (s.core c).bound with
  | none => false
  | some b =>
    match b.ld.stage with
    | none => false
    | some d =>
      match peekVa s b.record.ctx (d + 24) 8 with
      | some w => fld (word w) 41 24 == h
      | none => false

/-- The ticket that a ring gives (R225): none while the ring is full or held, all ones for another generation. -/
def nextTicket (s : State) (c h gen : Nat) : Option Word :=
  let r := ringHdr (s.core c) h
  if r.gen ≠ gen then some (BitVec.allOnes 64) else if r.depth = r.count ∨ ringHeld s c h then none else some r.tail

/-- The ticket has been handed out. -/
def passTicket (c h : Nat) (s : State) : State := s.setCore c (setTail (s.core c) h ((ringHdr (s.core c) h).tail + 1))

/-- The owner, the header's offset and the header of a checked handle (R223, R224). -/
def openRing (h : Word) (own : Bool) : M (Nat × Nat × RingHdr) := do
  let s ← get
  need (!handleReserved h) .operandRange 0
  let c := handleCore h
  need (decide (c < 768)) .invalidTarget 0
  need (!own || c == s.cid) .invalidTarget 0
  if s.away c then waitFor .held
  let o := handleHdr h
  checkPlaced (ringFault (s.core c) o)
  return (c, o, ringHdr (s.core c) o)

/-- The fault that a header records, raised as a deferred one; a code that no compute thread raises is a
descriptor-format fault at the header (R225). -/
def ringRaise {α : Type} (r : RingHdr) (h : Nat) : M α :=
  match ringCause r.fcause with
  | some c => throw (.trap c r.faddr true)
  | none => trap .descriptorFormat (word h)

/-- RTICK (R225). -/
def execRtick (d a : BitVec 5) (s : State) : Out :=
  run (.rtick d a) s do
    let h ← readX a
    let (c, o, _) ← openRing h false
    pin
    let s ← get
    match nextTicket s c o (handleGen h) with
    | none => waitFor .ring
    | some t =>
      if (ringHdr (s.core c) o).gen = handleGen h then mirrored c o (passTicket c o)
      writeX d t

/-- RPUT (R225). -/
def execRput (d a b : BitVec 5) (s : State) : Out :=
  run (.rput d a b) s do
    let h ← readX a
    let t ← readX b
    let v ← readV d
    let (c, o, r) ← openRing h false
    need (decide (r.ssize ≤ 16)) .operandRange 0
    need (r.head.ule t && t.ult r.tail && !slotFull (s.core c) r t.toNat) .ringState 0
    modify fun s => putSlot (if r.journ then withJournal s c o s.me.sv else s) c o t.toNat (v.toNat % 256 ^ r.bytes)

/-- RTAKE (R217, R225, R340). -/
def execRtake (d a : BitVec 5) (s : State) : Out :=
  run (.rtake d a) s do
    let h ← readX a
    let (c, o, r) ← openRing h true
    if r.fvalid && r.fticket == r.head then ringRaise r o
    else if takeHeld s c o || !slotFull (s.core c) r r.head.toNat then waitFor .ring
    else
      if isStageRing s c o then modCore fun k => { k with taken := true }
      writeX d (word (r.slot r.head.toNat))

/-- The live pull subscription of a ring (R216). -/
def pullSub (s : State) (c h : Nat) : Option Sub := s.subs.find? fun u => u.pull && u.core == c && u.hdr == h

/-- End a subscription: its header bit falls with it (R216, R223). -/
def endSub (s : State) (u : Sub) : State :=
  let s := { s with subs := s.subs.filter fun v => !(v.kiosk == u.kiosk && v.id == u.id) }
  s.setCore u.core (setLiveBit (s.core u.core) u.hdr u.pull false)

/-- The pull of the head slot is behind: the subscription ends with its last tile (R216). -/
def endPulled (s : State) (c h : Nat) : State :=
  match pullSub s c h with
  | none => s
  | some u =>
    let u' := { u with ticket := none }
    let s := { s with subs := s.subs.map fun v => if v.kiosk = u.kiosk ∧ v.id = u.id then u' else v }
    if u.moved = u.tiles then endSub s u' else s

/-- The head slot is released: its full bits fall, the head goes on, its mirror is dropped (R225, R226). -/
def freeSlot (s : State) (c h : Nat) : State :=
  let k := s.core c
  let r := ringHdr k h
  setMirror (s.setCore c (setHead (k.clearFull (r.slot r.head.toNat / 16) (2 * r.ssize)) h (r.head + 1))) c h r.head.toNat false

/-- RREL (R217, R225). A pull subscription's tile is moved before the release completes. -/
def execRrel (d a : BitVec 5) (s : State) : Out :=
  run (.rrel d a) s do
    let h ← readX a
    let (c, o, r) ← openRing h true
    need (slotFull (s.core c) r r.head.toNat) .ringState 0
    pin
    match pullSub s c o with
    | some u =>
      if u.ticket = some r.head.toNat then pure ()
      else
        let e := Event.kioskPullTile u.kiosk u.id
        if s.flight.contains e then waitFor .ring
        emitM e
        throw (.park .ring)
    | none => if s.me.wait = .ring && r.fvalid && r.fticket == r.head then ringRaise r o
    mirrored c o fun s => freeSlot (endPulled s c o) c o
    if isStageRing s c o then modCore fun k => { k with taken := false }
    writeX d r.head

/-! ### Routing (R338, R339) -/

/-- A valid key-range entry. -/
def entryValid (e : Nat) : Bool := bit (word e) 47
/-- Its lowest key. -/
def entryLo (e : Nat) : Nat := e / 2 ^ 64

/-- The entry of a key: none when no range holds it or two valid entries have equal lo (R338). -/
def routeEntry (es : List Nat) (key : Nat) : Option Nat :=
  let vs := es.filter entryValid
  let los := vs.map entryLo
  if los.length ≠ los.eraseDups.length then none
  else (vs.filter fun e => decide (entryLo e ≤ key)).foldl (fun (b : Option Nat) e =>
    match b with
    | none => some e
    | some f => if entryLo f < entryLo e then some e else some f) none

/-- KROUTE: the 64 entries are checked, then read one part after another (R102, R339). (DEDUCED, unsafe, log 39) -/
def execKroute (d a b : BitVec 5) (s : State) : Out :=
  run (.kroute d a b) s do
    let key ← readX a
    let x ← readX b
    need (x.toNat % 64 == 0) .misalignedAccess x
    let ps := (List.range 64).map fun i => ((x + 64 + word (16 * i)).toNat, 16)
    checkAll .read ps
    let es ← mapM' (fun p => do
      let xs ← checkParts .read true [p]
      let vs ← readParts xs [p]
      return vs.headD 0) ps
    match routeEntry es key.toNat with
    | none => trap .descriptorFormat x
    | some e =>
      let w := word e
      need (fld w 45 38 == 0) .descriptorFormat x
      if bit w 46 then waitFor .route
      else
        request 1 [d.toNat]
        writeX d (setFld w 47 28 0)

/-! ### Quiescence (R340) -/

/-- t0 waits in an RTAKE on the stage ring (R340). -/
def inRtake (s : State) (c h : Nat) : Bool :=
  let th := s.thread c 0
  th.wait == .ring &&
    match decodeWord (bundleAt s c 0).w0 with
    | .ok (.rtake _ a) => handleHdr (th.getX a.toNat) == h
    | _ => false

/-- The consumer of a core is quiescent (R340). -/
def quiescent (s : State) (c h : Nat) : Bool :=
  let th := s.thread c 0
  (inRtake s c h && !(s.core c).taken) || (th.strand != .running && (th.finished || th.strand == .unbound))

/-- A split or a merge activation is due on a core, or a split rolled back is being cancelled: it goes ahead of queued messages
(R325, R343). -/
def annexDueOn (s : State) (c : Nat) : Bool :=
  (annexesOf s c).any fun a => a.o == c && (a.step == 9 || (a.step == (if a.merge then 4 else 3) && quiescent s c a.hdr))

end Sys2Proof.Machine
end

