-- ==== Sys2Proof/Machine/Law.lean ====
section
/-! DEFINITION. Law words: their evaluation, actions and instructions (R154 to R191). -/

namespace Sys2Proof.Machine

/-! ### Entries (R164, R165) -/

structure LawEntry where
  kind : Nat
  domain : Nat
  /-- Ring length L. -/
  len : Nat
  subtract : Bool
  action : Nat
  theta : Int
  rate : Int
  rest : Int
  decay : Nat
  bias : Int
  lo : Int
  hi : Int
  reset : Int
  target : Word
  ering : Word
  fcount : Nat
  ok : Bool
  deriving DecidableEq, Repr

/-- An entry, and whether it is valid (R165); one of action 3 is so with 1 to 1,024 list entries at an aligned address.
(DESIGN CHOICE, unsafe, log 102) -/
def lawEntry (w : BitVec 512) : LawEntry :=
  let kind := fld w 2 0
  let phase := kind == 4
  let sg := fun (hi lo : Nat) => toSigned (fld w hi lo) 32
  let ring := fld w 11 10
  let action := fld w 14 13
  let leak := kind == 2 || kind == 3
  { kind := kind, domain := fld w 8 6, len := if ring = 0 then 0 else 2 * 2 ^ ring, subtract := bit w 12, action := action,
    theta := sg 63 32, rate := if phase then (fld w 95 64 : Nat) else sg 95 64, rest := sg 127 96, decay := fld w 159 128,
    bias := sg 191 160, lo := sg 223 192, hi := sg 255 224, reset := if phase then (fld w 287 256 : Nat) else sg 287 256,
    target := word (fld w 383 320), ering := word (fld w 447 384), fcount := fld w 463 448,
    ok := bit w 15 && fld w 511 464 == 0 && fld w 319 288 == 0 && fld w 31 16 == 0 && !bit w 9 && fld w 5 3 == 0
      && decide (kind ≤ 4) && decide (sg 223 192 ≤ sg 255 224)
      && (if phase then fld w 63 32 == 0 else decide (0 < sg 63 32))
      && (kind == 1 || phase || fld w 95 64 == 0) && (leak || (fld w 127 96 == 0 && fld w 159 128 == 0))
      && (kind == 3 || fld w 191 160 == 0) && (!phase || (fld w 223 192 == 0 && fld w 255 224 == 0))
      && (!bit w 12 || fld w 287 256 == 0) && (action == 1 || fld w 447 384 == 0)
      && (decide (2 ≤ action) || fld w 383 320 == 0)
      && (if action == 3 then decide (1 ≤ fld w 463 448) && decide (fld w 463 448 ≤ 1024) && fld w 335 320 % 16 == 0
          else fld w 463 448 == 0) }

/-- Alignment of a law object (R155). -/
def LawEntry.align (e : LawEntry) : Nat := if e.len = 0 then 8 else 8 * e.len

/-! ### Evaluation (R167 to R170) -/

def LawEntry.clamp (e : LawEntry) (x : Int) : Int := if e.kind = 4 then x else min e.hi (max e.lo x)

/-- One round of the exponentiation of R169: r, b and what is left of k. -/
def powLoop : Nat → Nat → Nat → Nat → Nat
  | 0, r, _, _ => r
  | fuel + 1, r, b, k =>
    if k = 0 then r
    else powLoop fuel (if k % 2 = 1 then r * b / 2 ^ 32 else r) (b * b / 2 ^ 32) (k / 2)

/-- P(k) (R169). -/
def decayPow (d k : Nat) : Nat := powLoop 64 (2 ^ 32) d k

/-- Evolve (R168): the value after k ticks, and the wraps in the k-th. -/
def LawEntry.evolve (e : LawEntry) (vs : Int) (k : Nat) : Int × Nat :=
  match e.kind with
  | 0 => (e.clamp vs, 0)
  | 1 => (e.clamp (vs + e.rate * k), 0)
  | 2 => (e.clamp (e.rest + ((vs - e.rest) * decayPow e.decay k).tdiv (2 ^ 32)), 0)
  | 3 =>
    let g := e.rest + e.bias
    (e.clamp (g + ((vs - g) * decayPow e.decay k).tdiv (2 ^ 32)), 0)
  | _ =>
    ((vs + e.rate * k) % 2 ^ 32, ((vs + e.rate * k) / 2 ^ 32 - (vs + e.rate * (k - 1)) / 2 ^ 32).toNat)

/-- AddSlot (R168): the value, and a wrap. -/
def LawEntry.addSlot (e : LawEntry) (v : Int) (slot : BitVec 32) : Int × Nat :=
  if e.kind = 4 then ((v + slot.toNat) % 2 ^ 32, if v + slot.toNat < 2 ^ 32 then 0 else 1)
  else (e.clamp (v + slot.toInt), 0)

/-- Crossed (R170). -/
def LawEntry.crossed (e : LawEntry) (v : Int) (wraps : Nat) : Bool := if e.kind = 4 then wraps != 0 else decide (e.theta ≤ v)

/-- Reset (R170): the value and the suppressed count. -/
def LawEntry.resetTo (e : LawEntry) (v : Int) (wraps : Nat) : Int × Nat :=
  if e.kind = 4 then (if e.subtract then v else e.reset, wraps - 1)
  else if e.subtract then (e.clamp (v - e.theta), 0)
  else (e.clamp e.reset, (v / e.theta).toNat - 1)

/-- An evaluation in progress (R167): value, span start and its value, slots, crossings. -/
structure LawEval where
  v : Int
  start : Nat
  vs : Int
  slots : List (BitVec 32)
  n : Nat
  supp : Nat
  first : Option Nat
  last : Nat
  deriving DecidableEq, Repr

/-- The work of tick t (R167). -/
def LawEntry.tick (e : LawEntry) (a : LawEval) (t : Nat) : LawEval :=
  let (v, wraps) := e.evolve a.vs (t - a.start)
  let slot := if e.len = 0 then 0 else a.slots.getD (t % e.len) 0
  let (v, w2) := if slot = 0 then (v, 0) else e.addSlot v slot
  let slots := if slot = 0 then a.slots else a.slots.set (t % e.len) 0
  let wraps := wraps + w2
  let hit := e.crossed v wraps
  let (v', extra) := if hit then e.resetTo v wraps else (v, 0)
  let restart := slot != 0 || hit || t % 2 ^ 21 == 0
  { v := v', start := if restart then t else a.start, vs := if restart then v' else a.vs, slots := slots,
    n := a.n + boolNat hit, supp := a.supp + extra,
    first := if hit && a.n == 0 then some t else a.first, last := if hit then t else a.last }

/-- Ticks t + 1 to t + m (R167). -/
def LawEntry.ticks (e : LawEntry) : Nat → Nat → LawEval → LawEval
  | 0, _, a => a
  | m + 1, t, a => e.ticks m (t + 1) (e.tick a (t + 1))

/-- A law object: its word and its slots (R154, R155). -/
structure LawObj where
  word : Word
  slots : List (BitVec 32)
  deriving DecidableEq, Repr

def LawObj.index (o : LawObj) : Nat := fld o.word 7 0
/-- The word's value as its kind reads it. -/
def LawEntry.value (e : LawEntry) (w : Word) : Int := if e.kind = 4 then (fld w 63 32 : Nat) else toSigned (fld w 63 32) 32
/-- A law word of a value, a stamp and an index. -/
def lawWord (v : Int) (stamp index : Nat) : Word :=
  word ((v % 2 ^ 32).toNat * 2 ^ 32 + stamp % 2 ^ 24 * 2 ^ 8 + index)
/-- Out(v) (R181). -/
def LawEntry.out (e : LawEntry) (v : Int) : Word := if e.kind = 4 then word v.toNat else BitVec.ofInt 64 v

/-- Elapsed ticks (R160). -/
def elapsed (now stamp : Nat) : Nat := (now % 2 ^ 24 + 2 ^ 24 - stamp) % 2 ^ 24

/-- Advance (R167). -/
def LawEntry.advance (e : LawEntry) (o : LawObj) (now : Nat) : LawEval :=
  let el := elapsed now (fld o.word 31 8)
  let t0 := (now + 2 ^ 64 - el) % 2 ^ 64
  let v := e.value o.word
  e.ticks el t0 ⟨v, t0, v, o.slots, 0, 0, none, 0⟩

/-! ### Clocks and entries of a context (R158, R164, R166) -/

/-- The clock of a domain (R158). -/
def State.clock (s : State) (x d : Nat) : Word :=
  let cx := s.ctx x
  match cx.domains[d]? with
  | none => 0
  | some m => if m.stepped then m.clock else m.clock + word ((s.ns - cx.ns0) / 2 ^ m.p)

/-- The clocks of a context's domains. -/
def State.clocks (s : State) (x : Nat) : List Nat := (List.range 8).map fun d => (s.clock x d).toNat

/-- A launch of the context is bound (R166). -/
def State.ctxBound (s : State) (x : Nat) : Bool :=
  s.cores.any fun c => match c.2.bound with | some b => b.record.ctx == x | none => false

/-- The entry that an operation uses. While a launch of the context is bound, an entry that has changed since it was
first used may still be the old one (R166). (DESIGN CHOICE, safe, log 6; DEDUCED, unsafe, log 28) -/
def lawLookup (s : State) (x i : Nat) : Except Denied (LawEntry × State) :=
  match dispRead s x ((s.ctx x).lawbase.toNat + 64 * i) 64 with
  | .error e => .error e
  | .ok (n, s) =>
    let now := BitVec.ofNat 512 n
    if s.ctxBound x then
      match (s.ctx x).lawCache.find? i with
      | some old =>
        if old = now then .ok (lawEntry now, s)
        else .ok (lawEntry (if Config.freeBit s.free then old else now), { s with free := s.free + 1 })
      | none => .ok (lawEntry now, s.setCtx x { s.ctx x with lawCache := (s.ctx x).lawCache.set i now })
    else .ok (lawEntry now, s)

/-! ### Law objects in memory (R145, R155, R179, R181) -/

/-- Where a law word lies. -/
inductive LawPlace where
  | local_ (core off : Nat)
  | global_ (va : Nat)
  deriving DecidableEq, Repr

def LawPlace.offset : LawPlace → Nat
  | .local_ _ o => o
  | .global_ va => va
/-- The address as the instruction named it (R425). -/
def LawPlace.named : LawPlace → Word
  | .local_ _ o => word (2 ^ 63 + o)
  | .global_ va => word va

/-- How a law operation can stop: a fault, a held sector, a full action queue. -/
inductive LawStop where
  | fault (c : Cause) (addr : Word)
  | held (w : Wait)
  | full
  deriving DecidableEq, Repr

/-- Who performs a law operation: its agent, the core whose translations it uses, its context and rights. -/
structure LawWho where
  who : Agent
  core : Nat
  ctx : Nat
  sup : Bool
  deriving DecidableEq, Repr

/-- An open law object: its place, its parts with their physical addresses, its entry, its clock and its contents. -/
structure LawCell where
  place : LawPlace
  parts : List ((Nat × Nat) × Nat)
  entry : LawEntry
  now : Nat
  obj : LawObj
  deriving DecidableEq, Repr

/-- What a law operation does at the slice beside moving its bytes: the walk, and its one access; one that does not commit
sets no D and allocates nothing (R97, R145, R179, R184). -/
def lawTouch (s : State) (w : LawWho) (commit first : Bool) (x : Xlat) : State :=
  let s := applyWalk s w.core w.ctx (if commit then x else x.withoutD s w.ctx)
  let n := homeSlice s (s.ctx w.ctx).seed x.pa
  let s := fetchSector (if first then countAccess s n w.ctx else s) n (x.pa / 32)
  if commit then allocSector s n (x.pa / 32) else s

/-- Translate the parts of a global object, with read and write rights (R179). -/
def lawXlate (s : State) (w : LawWho) (commit first : Bool) : List (Nat × Nat) → Except LawStop (List ((Nat × Nat) × Nat) × State)
  | [] => .ok ([], s)
  | (va, n) :: ps =>
    match unitCheck s w.who w.core w.ctx w.sup .atomic va with
    | .error (.held h) => .error (.held h)
    | .error (.fault c a) => .error (.fault c (word a))
    | .ok x =>
      match lawXlate (lawTouch s w commit first x) w commit false ps with
      | .error e => .error e
      | .ok (xs, s) => .ok (((va, n), x.pa) :: xs, s)

/-- Read translated parts. -/
def lawReadParts (s : State) (seed : Word) : List ((Nat × Nat) × Nat) → Except LawStop Nat
  | [] => .ok 0
  | ((va, n), pa) :: ps =>
    match readPa s seed pa n with
    | none => .error (.fault .uncorrectableError (word va))
    | some v =>
      match lawReadParts s seed ps with
      | .error e => .error e
      | .ok w => .ok (v + 256 ^ n * w)

/-- Bytes of an object read, with the parts it lies in. -/
def lawBytes (s : State) (w : LawWho) (p : LawPlace) (commit : Bool) (n : Nat) : Except LawStop (Nat × List ((Nat × Nat) × Nat) × State) :=
  match p with
  | .local_ c o =>
    match localFault (s.core c) o n with
    | some (cause, a) => .error (.fault cause a)
    | none => .ok ((s.core c).lread o n, [], s)
  | .global_ va =>
    match lawXlate s w commit true (partsOf va n) with
    | .error e => .error e
    | .ok (ps, s) =>
      match lawReadParts s (s.ctx w.ctx).seed ps with
      | .error e => .error e
      | .ok v => .ok (v, ps, s)

/-- The slots of an object from its bytes. -/
def lawSlots (n len : Nat) : List (BitVec 32) := (List.range len).map fun j => BitVec.ofNat 32 (n / 2 ^ (64 + 32 * j))

/-- The law unit that performs an operation: a core's, or a slice's (R179). -/
def lawUnit (s : State) (w : LawWho) (c : LawCell) : Sum Nat Nat :=
  match c.place with
  | .local_ k _ => .inl k
  | .global_ _ => .inr (match c.parts with | (_, pa) :: _ => homeSlice s (s.ctx w.ctx).seed pa | [] => 0)

/-- A law operation, as the monitors of its unit's die count it: its value is the ticks elapsed (R402, R403). A core's
unit is no slice and no kiosk, so only a monitor of any unit of the die counts it. -/
def lawMonitor (s : State) (w : LawWho) (c : LawCell) : State :=
  let e := elapsed c.now (fld c.obj.word 31 8)
  match lawUnit s w c with
  | .inl k => monitorEvent s none (k / 384) 0 34 w.ctx e
  | .inr n => monitorEvent s none (n / 80) (n % 80 + 1) 34 w.ctx e

/-- Open a law object (R181): its word, its entry or the entry named instead, the checks of the entry and the
alignment, the whole object in one access (R145), to commit or only to look (R184). (DEDUCED, safe, log 83) -/
def lawOpen (s : State) (w : LawWho) (p : LawPlace) (idx : Option Nat) (commit : Bool) : Except LawStop (LawCell × State) :=
  match lawBytes s w p false 8 with
  | .error e => .error e
  | .ok (v, _, _) =>
    let i := idx.getD (v % 256)
    match lawLookup s w.ctx i with
    | .error (.held h) => .error (.held h)
    | .error (.fault c a) => .error (.fault c (word a))
    | .ok (e, s) =>
      if !e.ok then .error (.fault .descriptorFormat (word ((s.ctx w.ctx).lawbase.toNat + 64 * i)))
      else if p.offset % e.align ≠ 0 then .error (.fault .misalignedAccess p.named)
      else
        match lawBytes s w p commit (8 + 4 * e.len) with
        | .error e => .error e
        | .ok (n, ps, s) =>
          let c : LawCell := ⟨p, ps, e, (s.clock w.ctx e.domain).toNat, ⟨word n, lawSlots n e.len⟩⟩
          -- an operation under an entry named instead evaluates nothing
          .ok (c, if idx.isNone then lawMonitor s w c else s)

/-- The bytes of an object. -/
def LawObj.toNat (o : LawObj) : Nat :=
  o.word.toNat + ((o.slots.zipIdx).map fun e => e.1.toNat * 2 ^ (64 + 32 * e.2)).sum

/-- Write translated parts; a gated store keeps what stood there (R147). -/
def lawWriteParts (s : State) (w : LawWho) (gate : Bool) : List ((Nat × Nat) × Nat) → Nat → State
  | [], _ => s
  | ((_, n), pa) :: ps, v =>
    let seed := (s.ctx w.ctx).seed
    let s := if gate then addHold s w.who (homeSlice s seed pa) (pa / 32) else s
    lawWriteParts ((writePa s seed pa n (v % 256 ^ n)).getD s) w gate ps (v / 256 ^ n)

/-- Write an object back whole (R145). -/
def lawStore (s : State) (w : LawWho) (gate : Bool) (c : LawCell) (o : LawObj) : State :=
  match c.place with
  | .local_ k off => s.setCore k ((s.core k).lwrite off (8 + 4 * o.slots.length) o.toNat)
  | .global_ _ => lawWriteParts s w gate c.parts o.toNat

/-! ### Actions (R175 to R178) -/

/-- The event record (R175). -/
def eventRecord (c : LawCell) (a : LawEval) : BitVec 256 :=
  let sat := fun (n : Nat) => Nat.min n 0xFFFF
  let addr := match c.place with
    | .local_ k o => 2 ^ 55 + k * 2 ^ 18 + o
    | .global_ va => va
  BitVec.ofNat 256 ((a.v % 2 ^ 32).toNat * 2 ^ 224 + sat a.supp * 2 ^ 208 + sat a.n * 2 ^ 192 + a.last % 2 ^ 64 * 2 ^ 128
    + a.first.getD 0 % 2 ^ 64 * 2 ^ 64 + c.obj.index * 2 ^ 56 + c.entry.domain * 2 ^ 52 + addr)

/-- Whether a message descriptor can be sent to (R322). -/
def descOk (s : State) (d : Word) : Bool :=
  fld d 63 34 == 0 && !(fld d 33 26 == 255 && fld d 9 0 != 0) && decide (fld d 9 0 < 768) && decide (fld d 25 10 < s.npkgs)

/-- The action of a committed evaluation (R175); it leaves at once, a checked pair's too.
(DESIGN CHOICE, unsafe, log 104) -/
def lawAct (s : State) (w : LawWho) (c : LawCell) (a : LawEval) : State :=
  if a.n = 0 then s
  else
    let rec_ := eventRecord c a
    match c.entry.action with
    | 0 => s
    | 1 => s.emit (.lawEventRecord w.ctx c.entry.ering rec_)
    | 2 =>
      if descOk s c.entry.target then
        let payload := (List.range 4).map fun i => word (fld rec_ (64 * i + 63) (64 * i))
        match lawUnit s w c with
        | .inl k => unitSend s (160 + k) 5 k w.ctx c.entry.target payload
        | .inr n => unitSend s (1001 + n) 5 (768 + n) w.ctx c.entry.target payload
      else lawError s w.ctx
    | _ => s.emit (.fanOutDeposit w.ctx c.entry.target c.entry.fcount a.n)

/-- The record of an event came from this law unit. (DEDUCED, unsafe, log 29) -/
def recFrom (s : State) (u : Sum Nat Nat) : Event → Bool
  | .lawEventRecord x _ r =>
    match u with
    | .inl k => bit r 55 && fld r 27 18 == k
    | .inr n => !bit r 55 && (match xlate s 768 x (fld r 51 0) .read true with
      | .ok p => homeSlice s (s.ctx x).seed p.pa == n
      | .error _ => false)
  | _ => false

/-- The unit's action queue is full, so it accepts no operation that could act, whatever its action (R176).
(DEDUCED, unsafe, log 29) -/
def actionsFull (s : State) (w : LawWho) (c : LawCell) : Bool :=
  c.entry.action != 0 && decide (16 ≤ (s.flight.filter (recFrom s (lawUnit s w c))).length)

/-- The object after a committed evaluation. -/
def LawCell.touched (c : LawCell) (a : LawEval) : LawObj := ⟨lawWord a.v c.now c.obj.index, a.slots⟩

/-- What a committing operation makes of the evaluated object: the value and the slots it leaves; none for an
operand-range fault. -/
abbrev LawChange := LawEntry → Nat → LawEval → Option (Int × List (BitVec 32))

/-- A committing law operation: evaluate, change, write back whole, act (R145, R167).
(DESIGN CHOICE, safe, log 100) -/
def lawCommit (s : State) (w : LawWho) (gate : Bool) (p : LawPlace) (f : LawChange) :
    Except LawStop (LawCell × LawEval × State) :=
  match lawOpen s w p none true with
  | .error e => .error e
  | .ok (c, s) =>
    let a := c.entry.advance c.obj c.now
    match f c.entry c.now a with
    | none => .error (.fault .operandRange 0)
    | some (v, slots) =>
      if actionsFull s w c then .error .full
      else
        let s := lawStore s w gate c ⟨lawWord v c.now c.obj.index, slots⟩
        .ok (c, a, lawAct s w c a)

/-- LWRD leaves what was evaluated. -/
def lawRead : LawChange := fun _ _ a => some (a.v, a.slots)
/-- LWADD (R185). -/
def lawAdd (b : Word) : LawChange := fun e _ a =>
  some (if e.kind = 4 then (a.v + (fld b 31 0 : Nat)) % 2 ^ 32 else e.clamp (a.v + toSigned (fld b 31 0) 32), a.slots)
/-- LWSET (R186). -/
def lawSet (b : Word) : LawChange := fun e _ a =>
  some (if e.kind = 4 then (fld b 31 0 : Nat) else e.clamp (toSigned (fld b 31 0) 32), a.slots)
/-- A deposit of an amount with a delay (R173, R188). -/
def lawDeposit (amount delay : Nat) : LawChange := fun e now a =>
  if e.len = 0 ∨ delay = 0 ∨ e.len ≤ delay then none
  else
    let j := (now + delay) % e.len
    some (a.v, a.slots.set j (a.slots.getD j 0 + BitVec.ofNat 32 amount))

/-! ### The instructions (R180 to R191) -/

/-- LawAddr (R181). -/
def lawAddr (x : Word) : M LawPlace := do
  if bit x 63 then
    need (fld x 62 18 == 0) .addressRange x
    return .local_ (← get).cid (fld x 17 0)
  else return .global_ x.toNat

/-- The issuing thread as the one who performs a law operation. -/
def State.lawWho (s : State) : LawWho := ⟨s.agent, s.cid, s.myCtx, s.sup⟩

/-- A law operation's stop, in a thread. -/
def lawStopM {α : Type} : LawStop → M α
  | .fault .notPresent a => throw (.absent a 3 false)
  | .fault c a => trap c a
  | .held w => waitFor w
  | .full => waitFor .lawQueue

/-- Perform a committing operation for a thread, which holds one request entry (R179, R328).
(DESIGN CHOICE, safe, log 100) -/
def lawM (x : Word) (regs : List Nat) (f : LawChange) : M (LawCell × LawEval) := do
  let p ← lawAddr x
  pin
  let s ← get
  if !poolHas s 1 then waitFor .reg
  else
    match lawCommit s s.lawWho s.gates p f with
    | .error e => lawStopM e
    | .ok (c, a, s') =>
      set s'
      request 1 regs
      return (c, a)

/-- LWRD (R182). -/
def execLwrd (d a : BitVec 5) (s : State) : Out :=
  run (.lwrd d a) s do
    let x ← readX a
    let (c, e) ← lawM x [d.toNat] lawRead
    writeX d (c.entry.out e.v)

/-- The crossing report (R183). -/
def crossingReport (e : LawEval) : Word :=
  word (Nat.min e.supp 0xFFFF * 2 ^ 40 + e.first.getD 0 % 2 ^ 24 * 2 ^ 16 + Nat.min e.n 0xFFFF)

/-- LWRDX (R183). -/
def execLwrdx (d a : BitVec 5) (s : State) : Out :=
  run (.lwrdx d a) s do
    let x ← readX a
    let (c, e) ← lawM x [d.toNat, d.toNat + 1] lawRead
    writeX d (c.entry.out e.v)
    writeX (d + 1) (crossingReport e)

/-- LWPEEK (R184). -/
def execLwpeek (d a : BitVec 5) (s : State) : Out :=
  run (.lwpeek d a) s do
    let x ← readX a
    let p ← lawAddr x
    let s ← get
    if !poolHas s 1 then waitFor .reg
    else
      match lawOpen s s.lawWho p none false with
      | .error e => lawStopM e
      | .ok (c, s') =>
        set s'
        request 1 [d.toNat]
        writeX d (c.entry.out (c.entry.advance c.obj c.now).v)

/-- LWADD (R185). -/
def execLwadd (d a b : BitVec 5) (s : State) : Out :=
  run (.lwadd d a b) s do
    let x ← readX a
    let y ← readX b
    let (c, e) ← lawM x [d.toNat] (lawAdd y)
    writeX d (c.entry.out ((lawAdd y c.entry c.now e).getD (0, [])).1)

/-- LWSET (R186). -/
def execLwset (d a b : BitVec 5) (s : State) : Out :=
  run (.lwset d a b) s do
    let x ← readX a
    let y ← readX b
    let (c, e) ← lawM x [d.toNat] (lawSet y)
    writeX d (c.entry.out e.v)

/-- LWINIT (R187). Its operand is looked at first. (DESIGN CHOICE, unsafe, log 103) -/
def execLwinit (d a b : BitVec 5) (s : State) : Out :=
  run (.lwinit d a b) s do
    let x ← readX a
    let y ← readX b
    let p ← lawAddr x
    need (fld y 31 8 == 0) .operandRange 0
    pin
    let s ← get
    if !poolHas s 1 then waitFor .reg
    else
      match lawOpen s s.lawWho p (some (fld y 7 0)) true with
      | .error e => lawStopM e
      | .ok (c, s') =>
        let v := c.entry.clamp (c.entry.value y)
        set (lawStore s' s.lawWho s.gates c ⟨lawWord v c.now (fld y 7 0), List.replicate c.entry.len 0⟩)
        request 1 [d.toNat]
        writeX d (word c.now)

/-- LWDEP (R188). Its operand is looked at first. (DESIGN CHOICE, unsafe, log 103) -/
def execLwdep (a b : BitVec 5) (s : State) : Out :=
  run (.lwdep a b) s do
    let x ← readX a
    let y ← readX b
    need (fld y 31 4 == 0) .operandRange 0
    -- x0: no register waits for the answer, but retirement does (R115)
    let _ ← lawM x [0] (lawDeposit (fld y 63 32) (fld y 3 0))

/-- LWNOW (R189). -/
def execLwnow (d a : BitVec 5) (s : State) : Out :=
  run (.lwnow d a) s (writeX d (s.clock s.myCtx a.toNat))

/-- Who sweeps the cells of a region: a kiosk, with the rights of the thread that registered it (R96, R162). -/
def Region.sweeper (g : Region) (x : Nat) : LawWho := ⟨.other, 768, x, g.sup⟩

/-- A cell lies behind the last epoch boundary of its domain: the ticks since its stamp reach back beyond it (R160,
R162). -/
def LawCell.behind (c : LawCell) : Bool := decide (c.now % 2 ^ 21 < elapsed c.now (fld c.obj.word 31 8))

/-- A cell of a region whose sweep for the last boundary is outstanding in a domain: its entry uses the domain and its
full stamp time is earlier (R162, R163). A cell that cannot be read keeps the sweep outstanding. -/
def cellBehind (s : State) (x d : Nat) (g : Region) (i : Nat) : Bool :=
  match lawOpen s (g.sweeper x) (.global_ (g.base + g.spacing * i)) none false with
  | .error (.fault .descriptorFormat _) => false
  | .error _ => true
  | .ok (c, _) => c.entry.domain == d && c.behind

/-- The first cell of a context whose sweep for the last boundary is outstanding in a domain: its region and number.
(DESIGN CHOICE, unsafe, log 42) -/
def firstBehind (s : State) (x d : Nat) : Option (Nat × Nat) :=
  ((s.ctx x).regions.zipIdx).findSome? fun r =>
    ((List.range r.1.count).find? (cellBehind s x d r.1)).map fun i => (r.2, i)

/-- LWSTEP: in hardware mode it waits for the sweep of the last boundary before it passes the next (R163, R190). -/
def execLwstep (d a b : BitVec 5) (s : State) : Out :=
  run (.lwstep d a b) s do
    let m ← readX b
    let x := s.myCtx
    let cx := s.ctx x
    let n := a.toNat
    match cx.domains[n]? with
    | none => trap .operandRange 0
    | some dom =>
      need (dom.stepped && decide (1 ≤ m.toNat) && decide (m.toNat ≤ 2 ^ 20)) .operandRange 0
      pin
      let old := dom.clock.toNat
      let behind := if bit cx.modes 3 || decide (old % 2 ^ 21 + m.toNat < 2 ^ 21) then none else firstBehind s x n
      match behind with
      | some (r, i) =>
        let e := Event.horizonSweep x r i
        if s.flight.contains e then waitFor .sweep
        emitM e
        throw (.park .sweep)
      | none =>
        if !poolHas (← get) 1 then waitFor .reg
        let now := dom.clock + m
        modify fun s => s.setCtx x { s.ctx x with domains := (s.ctx x).domains.set n { dom with clock := now } }
        request 1 [d.toNat]
        writeX d now

/-- The p of a context's domain. -/
def domainP (cx : Context) (d : Nat) : Nat := match cx.domains[d]? with | some m => m.p | none => 0

/-- The package's sum of count / 2^p, in units of 2^-31 (R191). -/
def sweepLoad (s : State) : Nat :=
  (s.ctxs.map fun c => (c.2.regions.map fun r => r.count * 2 ^ (31 - domainP c.2 r.domain)).sum).sum

/-- LWSWEEP (R191). A release removes every region of its base. (DESIGN CHOICE, unsafe, log 103) -/
def execLwsweep (d a b : BitVec 5) (s : State) : Out :=
  run (.lwsweep d a b) s do
    let x ← readX a
    let y ← readX b
    need (fld y 62 40 == 0 && fld y 36 34 == 0 && !bit x 63) .operandRange 0
    pin
    if !poolHas (← get) 1 then waitFor .reg
    let c := s.myCtx
    let cx := s.ctx c
    if bit y 63 then
      need (fld y 62 0 == 0) .operandRange 0
      let held := cx.regions.any fun r => r.base == x.toNat
      modify fun s => s.setCtx c { s.ctx c with regions := (s.ctx c).regions.filter fun r => r.base != x.toNat }
      request 1 [d.toNat]
      writeX d (if held then 0 else 4)
    else
      let sp := match fld y 33 32 with | 0 => 8 | 1 => 32 | 2 => 64 | _ => 128
      need (x.toNat % sp == 0) .misalignedAccess x
      let n := fld y 31 0
      need (n != 0 && decide (n ≤ 2 ^ 28)) .operandRange 0
      let dom := fld y 39 37
      request 1 [d.toNat]
      if bit cx.modes 3 then writeX d 3
      else if 64 ≤ cx.regions.length then writeX d 1
      else if 2 ^ 26 * 2 ^ 31 < sweepLoad s + n * 2 ^ (31 - domainP cx dom) then writeX d 2
      else
        modify fun s => s.setCtx c { s.ctx c with regions := (s.ctx c).regions ++ [⟨x.toNat, sp, n, dom, s.sup, s.clocks c, n⟩] }
        writeX d 0

/-! ### The steps of law units and sweeps -/

/-- LAW_EVENT_RECORD: a ticket, the record, zeros to the slot's end, its full bits; a ring that does not fit discards
the record (R176). (DEDUCED, unsafe, log 29; DESIGN CHOICE, unsafe, log 102) -/
def execLawEventRecord (s : State) : Out :=
  match s.item with
  | some (.lawEventRecord x h r) =>
    runStep (.lawEventRecord x h r) s fun s =>
      let c := handleCore h
      let o := handleHdr h
      if handleReserved h || decide (768 ≤ c) || (ringFault (s.core c) o).isSome then some (lawError s x)
      else if (ringHdr (s.core c) o).gen ≠ handleGen h then some (lawError s x)
      else if (s.core c).fenced then none
      else
        match nextTicket s c o (handleGen h) with
        | none => none
        | some t => withMirror s c o true (passTicket c o) fun s => some (putSlot s c o t.toNat r.toNat)
  | _ => .next s

/-- One deposit of a fan-out entry (R178): none when the entry is skipped. Its access is a user's (R96).
(DESIGN CHOICE, unsafe, log 30) -/
def fanOutOne (s : State) (x n : Nat) (e : BitVec 128) : Except LawStop State :=
  if fld e 95 68 ≠ 0 ∨ fld e 63 52 ≠ 0 then .error (.fault .descriptorFormat 0)
  else
    (lawCommit s ⟨.other, 768, x, false⟩ false (.global_ (fld e 51 0)) (lawDeposit (fld e 127 96 * n) (fld e 67 64))).map
      fun r => r.2.2

/-- FAN_OUT_DEPOSIT: the next entry of the list; one that is skipped counts as a law-action error (R178). -/
def execFanOutDeposit (s : State) : Out :=
  match s.item with
  | some (.fanOutDeposit x list k n) =>
    runStep (.fanOutDeposit x list k n) s fun s =>
      if k = 0 then some s
      else
        let rest := fun (s : State) => if k = 1 then s else s.emit (.fanOutDeposit x (list + 16) (k - 1) n)
        let skip := fun (s : State) => some (rest (lawError s x))
        match dispRead s x list.toNat 16 with
        | .error d => deniedFate s x 0 0 1 (fun _ _ => skip) d
        | .ok (w, s) =>
          match fanOutOne s x n (BitVec.ofNat 128 w) with
          | .ok s => some (rest s)
          | .error (.held _) | .error .full => none
          | .error (.fault c va) => unitFate s x 0 0 c va.toNat 3 skip
  | _ => .next s

/-- A kiosk's touch of a cell, as the monitors count it (R403): the spec does not say which kiosk sweeps which cells. -/
def sweepTouch (s : State) (x : Nat) (c : LawCell) : State :=
  let n := match lawUnit s ⟨.other, 768, x, true⟩ c with
    | .inl k => k
    | .inr n => n
  let k := (Config.sweepKiosk n).toNat
  monitorEvent s none (k / 16) (k % 16 + 81) 36 x 1

/-- A kiosk has visited a cell of a region: a pass goes on with the next cell, and a visit of the first after a pass begins
another (R162). -/
def Region.visited (g : Region) (clocks : List Nat) (i : Nat) : Region :=
  if i = 0 ∧ g.turn = g.count then { g with since := clocks, turn := 1 } else if i = g.turn then { g with turn := i + 1 } else g

/-- The visit that a region is due for: the next cell of a pass, or the first once some domain that runs of itself has
passed 2^21 ticks since the last pass began, so that no cell waits for 2^22 (R162). (DESIGN CHOICE, unsafe, log 42) -/
def Region.due (g : Region) (s : State) (x : Nat) : Option Nat :=
  let overdue := fun (d : Nat) => match (s.ctx x).domains[d]? with
    | some m => !m.stepped && decide (2 ^ 21 ≤ ((s.clock x d).toNat + 2 ^ 64 - g.since.getD d 0) % 2 ^ 64)
    | none => false
  if g.turn < g.count then some g.turn else if (List.range 8).any overdue then some 0 else none

/-- The visits that the kiosks owe the regions of the contexts in hardware mode (R162).
(DESIGN CHOICE, unsafe, log 42) -/
def sweepsDue (s : State) : List Event :=
  s.ctxs.flatMap fun c =>
    if c.2.live && !bit c.2.modes 3 then
      (c.2.regions.zipIdx).filterMap fun g => (g.1.due s c.1).map fun i => Event.horizonSweep c.1 g.2 i
    else []

/-- HORIZON_SWEEP: a kiosk's touch of a cell moves it to the last epoch boundary when its stamp is earlier, and does nothing
otherwise; a fault releases the region (R162, R191). -/
def execHorizonSweep (s : State) : Out :=
  match s.item with
  | some (.horizonSweep x r i) =>
    runStep (.horizonSweep x r i) s fun s =>
      match (s.ctx x).regions[r]? with
      | none => some s
      | some g =>
        if bit (s.ctx x).modes 3 || decide (g.count ≤ i) then some s
        else
          let w := g.sweeper x
          let seen := fun (s : State) =>
            s.setCtx x { s.ctx x with regions := (s.ctx x).regions.set r (g.visited (s.clocks x) i) }
          let release := fun (s : State) =>
            some (lawError (s.setCtx x { s.ctx x with regions := (s.ctx x).regions.eraseIdx r }) x)
          let cell := LawPlace.global_ (g.base + g.spacing * i)
          let behind := match lawOpen s w cell none false with
            | .ok (c, _) => c.behind
            | .error _ => false
          match lawOpen s w cell none behind with
          | .error (.held _) | .error .full => none
          | .error (.fault .descriptorFormat _) => some (seen s)
          | .error (.fault c va) => unitFate s x 0 0 c va.toNat 3 release
          | .ok (c, s) =>
            let s := seen (sweepTouch s x c)
            if !c.behind then some s
            else if actionsFull s w c then none
            else
              let bnd := c.now - c.now % 2 ^ 21
              let c := { c with now := bnd }
              let a := c.entry.advance c.obj bnd
              some (lawAct (lawStore s w false c (c.touched a)) w c a)
  | _ => .next s

end Sys2Proof.Machine
end

