-- ==== Sys2Proof/Machine/Msg.lean ====
section
/-! DEFINITION. MSG: active messages, handlers, the host mailbox and remote operations (R318 to R336, R344, R345). -/

namespace Sys2Proof.Machine

/-! ### Sending -/

/-- Messages of a core that have not left its outbound buffer (R321). -/
def outboundUsed (s : State) (c : Nat) : Nat :=
  (s.flight.filter fun e => match e with
    | .messageArrival m | .hostMailboxNotice m false _ | .remoteLoad m | .remoteStore m | .remoteAtomic m | .remoteLaw m =>
      fld m.src 9 0 == c && decide (fld m.src 28 26 ≤ 4) && fld m.src 25 10 == s.pkg
    | _ => false).length

/-- MSEND (R322). -/
def execMsend (d a : BitVec 5) (s : State) : Out :=
  run (.msend d a) s do
    let desc ← readX a
    need (fld desc 63 34 == 0 && !(fld desc 33 26 == 255 && fld desc 9 0 != 0)) .descriptorFormat 0
    need (decide (fld desc 9 0 < 768) && decide (fld desc 25 10 < s.npkgs)) .invalidTarget 0
    if !s.isTh && decide (64 ≤ outboundUsed s s.cid) then waitFor .outbound
    else
      let n := s.me.seq + 1
      let m : Msg := ⟨sourceWord s.tid s.pkg s.cid, n, desc, s.myCtx, s.coreOrder s.cid, s.me.mo⟩
      modMe fun t => { t with seq := n, mo := [] }
      match (← get).myCore.act with
      | some act =>
        if s.unpinned then
          if act.heldMsgs.length < 32 then
            modCore fun k => { k with act := some { act with heldMsgs := act.heldMsgs ++ [.messageArrival m] } }
          else
            pin
            modify fun s => sendOut s [.messageArrival m]
        else modify fun s => sendOut s [.messageArrival m]
      | none => modify fun s => sendOut s [.messageArrival m]
      writeX d (word n)

/-- The activation ends: its messages and stores are released, its payload and its log discarded (R330). -/
def endActivation (s : State) (c : Nat) : State :=
  match (s.core c).act with
  | none => s
  | some a =>
    let delivered := ((s.core c).deliveries.find? fun p => p.1 == a.msg).map (·.2)
    let s := monitorEvent s (some c) 0 0 7 (s.coreCtx c) (s.cycle - delivered.getD a.start)
    let s := pinState s
    let k := (s.core c).forget a.msg
    nudgeStop (s.setCore c { (k.setThread 4 { k.thread 4 with mo := [], strand := .idle }) with act := none }) c

/-- Whether the outbound buffer has places for what the activation holds (R330). -/
def holdsFit (s : State) (a : Activation) : Bool := a.heldMsgs == [] || decide (outboundUsed s s.cid + a.heldMsgs.length ≤ 64)

/-- HEND (R330). -/
def execHend (s : State) : Out :=
  run .hend s do
    need s.isTh .illegalInstruction 0
    match s.myCore.act with
    | none => illegal
    | some a =>
      need (a.kind == .message) .annexState 0
      if holdsFit s a then modify fun s => endActivation s s.cid else waitFor .outbound

/-- ANXPUT (R344). (DEDUCED, unsafe, log 43; DEDUCED, unsafe, log 96) -/
def execAnxput (a b : BitVec 5) (s : State) : Out :=
  run (.anxput a b) s do
    let x ← readX a
    let y ← readX b
    need (s.isTh && (match s.myCore.act with | some t => t.kind == .split | none => false)) .annexState 0
    match annexOn s s.cid false with
    | none => trap .annexState 0
    | some n =>
      let len := fld y 34 18
      let dst := fld y 17 0
      need (fld y 63 36 == 0 && len % 16 == 0 && decide (16 ≤ len) && decide (len ≤ 2 ^ 16)) .operandRange 0
      need (x.toNat % 16 == 0) .misalignedAccess x
      need (dst % 16 == 0) .misalignedAccess (word dst)
      checkLocal x.toNat len
      checkPlaced (placedFront (s.core n.y) dst len 16)
      if s.away n.y then waitFor .ring
      else modify fun s =>
        let k := (s.core n.y).lwrite dst len (s.myCore.lread x.toNat len)
        s.setCore n.y (if bit y 35 then k.setFull (dst / 16) (len / 16) else k)

/-- ANXEND: every ANXPUT has been written, the activation ends as HEND ends it, and the protocol goes on (R345).
(DEDUCED, unsafe, log 43) -/
def execAnxend (s : State) : Out :=
  run .anxend s do
    need s.isTh .illegalInstruction 0
    match s.myCore.act with
    | none => trap .annexState 0
    | some a =>
      need (a.kind != .message) .annexState 0
      if holdsFit s a then
        let merge := a.kind == .merge
        modify fun s =>
          let s := endActivation s s.cid
          let s := match annexOn s s.cid merge with
            | some n => setAnnex s n { n with step := n.step + 1 }
            | none => s
          s.emit (if merge then .mergeActivation s.cid else .annexForward s.cid)
      else waitFor .outbound

/-! ### Arrival (R319, R320, R325, R350) -/

/-- A message's source as the accepted-number table names it (R320). -/
def srcKey (m : Msg) : Word × Nat := (m.src, if fld m.src 28 26 ≤ 4 then m.order else 0)

/-- The highest number accepted from a source. -/
def acceptedOf (k : Core) (key : Word × Nat) : Option Nat :=
  (k.accepted.find? fun e => e.1 == key.1 && e.2.1 == key.2).map (·.2.2)

def setAccepted (k : Core) (key : Word × Nat) (n : Nat) : Core :=
  { k with accepted := (key.1, key.2, n) :: k.accepted.filter fun e => !(e.1 == key.1 && e.2.1 == key.2) }

/-- An answer to a message's source: an acknowledgement, or the fault that refuses it (R334, R335). -/
def answer (s : State) (m : Msg) (fault : Option (Cause × Nat)) : State :=
  let f := fault.map fun p => (p.1.code, BitVec.ofNat 52 p.2)
  if fld m.src 25 10 ≠ s.pkg then { s with acks := s.acks ++ [(m.src, m.seq, f)] }
  else
    let s := s.emit (.messageAcknowledgement m.src m.seq)
    match f with
    | some (c, a) => s.emit (.remoteFault m.src m.ctx m.order c a)
    | none => s

/-- The fault of a message that has been acknowledged reaches its source later (R322, R335). -/
def faultAnswer (s : State) (m : Msg) (c : Cause) (a : Nat) : State :=
  if fld m.src 25 10 ≠ s.pkg then { s with acks := s.acks ++ [(m.src, m.seq, some (c.code, BitVec.ofNat 52 a))] }
  else s.emit (.remoteFault m.src m.ctx m.order c.code (BitVec.ofNat 52 a))

/-- A message of another package has been performed before: it is a duplicate (R319, R399). -/
def heardBefore (s : State) (m : Msg) : Bool :=
  s.heard.any fun e => e.1 == (srcKey m).1 && e.2.1 == (srcKey m).2 && decide (m.seq ≤ e.2.2)

/-- The number of a message of another package is noted. -/
def hear (s : State) (m : Msg) : State :=
  { s with heard := ((srcKey m).1, (srcKey m).2, m.seq) :: s.heard.filter fun e => !(e.1 == (srcKey m).1 && e.2.1 == (srcKey m).2) }

/-- Perform a message once: a duplicate from another package is answered, and does nothing (R319, R399). -/
def onceOnly (s : State) (m : Msg) (f : State → Option State) : Option State :=
  if fld m.src 25 10 = s.pkg then f s
  else if heardBefore s m then some (answer s m none)
  else (f s).map fun t => if t.issue.status = .kept then t else hear t m

/-- The words of a message in the layout of a host-mailbox notice (R331). -/
def msgWords (m : Msg) (dead : Bool) (cause : BitVec 8) : List Word :=
  let w0 := m.src ||| word (m.payload.length * 2 ^ 29)
  let w2 := word (boolNat dead * 2 ^ 63 + (if dead then cause.toNat else 0) * 2 ^ 55) ||| m.desc
  noticeWords ([w0, word m.seq, w2] ++ (m.payload ++ List.replicate 31 0).take 31)

/-- The lowest slot of a context's spill area that a core does not use; none when all 4,096 are in use (R325).
(DESIGN CHOICE, unsafe, log 41) -/
def spillSlot (k : Core) (x : Nat) : Option Nat :=
  let used := (k.spilled.filter fun e => e.2.ctx == x).map (·.1)
  if 4096 ≤ used.length then none else (List.range (used.length + 1)).find? fun i => !used.contains i

/-- Write a message to the spill area, with supervisor rights, and go on; none while the area is full (R325, R350, R388).
`s0` is the state before the step. (DESIGN CHOICE, unsafe, log 41) -/
def spillMsg (s0 s : State) (c : Nat) (m : Msg) (go : State → Option State) : Option State :=
  let k := s.core c
  (spillSlot k m.ctx).bind fun i =>
    let s := s.setCore c { k with spilled := k.spilled ++ [(i, m)] }
    match dispStore s m.ctx ((s.ctx m.ctx).spill.toNat + (c * 4096 + i) * 320) 320 (wordsNat (msgWords m false 0)) with
    | .ok s => go s
    | .error d => orAsk s0 s m.ctx 0 c 2 go d

/-- The core that takes the messages of an index: a follower's go to its leader (R379). -/
def msgCore (s : State) (c : Nat) : Nat := match (s.core c).pair with | .follower l => l | _ => c

/-- Accept a message into the inbound queue or the spill area, and go on; none while neither has room (R325). -/
def enqueueMsg (s : State) (c : Nat) (m : Msg) (go : State → Option State) : Option State :=
  let k := { s.core c with deliveries := (s.core c).deliveries ++ [(m, s.cycle)] }
  let here := k.bound.isSome && s.coreCtx c == m.ctx
  if here && decide (k.inbound.length < 64) && !k.spilled.any fun e => e.2.ctx == m.ctx then
    go ((s.setCore c { k with inbound := k.inbound ++ [m] }).emit (.handlerActivation c))
  else spillMsg s (s.setCore c k) c m fun s => go (if here then s.emit (.handlerActivation c) else s)

/-- The queue whose ring takes a message for the host: that of the launch that sent it, which may have ended since (R331). -/
def mailboxQueue (s : State) (m : Msg) : Nat :=
  if fld m.src 28 26 ≤ 4 ∧ fld m.src 25 10 = s.pkg then s.orderQueues.get m.order 0 else 0

/-- A message for the host is written as a notice, or refused where its context does not exist; it is held while the ring
is full or holds an earlier notice back (R329, R331). -/
def mailboxTake (s : State) (m : Msg) (dead : Bool) (cause : BitVec 8) : Option State :=
  let done := fun (s : State) (f : Option (Cause × Nat)) => some (if dead then s else answer s m f)
  if !(s.ctx m.ctx).live then done s (some (.invalidTarget, 0))
  else
    let q := mailboxQueue s m
    let ws := msgWords m dead cause
    if (s.queue m.ctx q).heldNotices ≠ [] then none
    else
      match tryNotice s m.ctx q ws with
      | .written s => done s none
      | .full | .denied (.held _) => none
      | e => done (holdNotices s m.ctx q [ws] e) none

/-- MESSAGE_ARRIVAL: a duplicate is discarded, a message of a context that does not exist refused, any other accepted
and acknowledged; one for the host mailbox becomes a notice (R319, R320, R325, R331, R349). A fenced core takes none
(R315). -/
def execMessageArrival (s : State) : Out :=
  match s.item with
  | some (.messageArrival m) =>
    runStep (.messageArrival m) s fun s =>
      let c0 := fld m.desc 9 0
      if fld m.desc 33 26 = 255 then onceOnly s m fun s => mailboxTake s m false 0
      else if 768 ≤ c0 then some (answer s m (some (.invalidTarget, 0)))
      else if !(s.ctx m.ctx).live then some (answer s m (some (.invalidTarget, 0)))
      else
        let c := msgCore s c0
        let k := s.core c
        let key := srcKey m
        let accept := fun (_ : Unit) => enqueueMsg s c m fun s => some (answer (s.setCore c (setAccepted (s.core c) key m.seq)) m none)
        if k.fenced then none
        else
          match acceptedOf k key with
          | some n => if m.seq ≤ n then some (answer s m none) else accept ()
          | none => if 1024 ≤ k.accepted.length then none else accept ()
  | _ => .next s

/-- A message that a core's message unit takes, not a home slice or the host mailbox (R323, R331, R333). -/
def toCore (m : Msg) : Bool := decide (fld m.desc 33 26 < 240) || (decide (244 ≤ fld m.desc 33 26) && decide (fld m.desc 33 26 < 255))

/-- Messages of a source to a core that are not acknowledged. -/
def owed (s : State) (key : Word × Nat) (p c : Nat) : Bool :=
  s.unacked.any fun u => toCore u.2.2 && srcKey u.2.2 == key && fld u.2.2.desc 9 0 == c && fld u.2.2.desc 25 10 == p

/-- MESSAGE_ACKNOWLEDGEMENT: the source keeps the message no longer; when a core has acknowledged everything, it is
sent a release (R320, R334). -/
def execMessageAcknowledgement (s : State) : Out :=
  match s.item with
  | some (.messageAcknowledgement src n) =>
    runStep (.messageAcknowledgement src n) s fun s =>
      match s.unacked.find? fun u => u.1 == src && u.2.1 == n with
      | none => some s
      | some u =>
        let m := u.2.2
        let s := { s with unacked := s.unacked.erase u, segments := s.segments.filter fun p => p.1 != m }
        let c := fld m.desc 9 0
        let p := fld m.desc 25 10
        some (if owed s (srcKey m) p c || !toCore m then s
          else if p = s.pkg then s.emit (.messageRelease c src (srcKey m).2)
          else { s with releases := s.releases ++ [(p, c, src, (srcKey m).2)] })
  | _ => .next s

/-- MESSAGE_RELEASE: the core frees the source's entry, unless a later message of it is under way; a source of another
package sends its releases too (R320). -/
def execMessageRelease (s : State) : Out :=
  match s.item with
  | some (.messageRelease c0 src order) =>
    runStep (.messageRelease c0 src order) s fun s =>
      if owed s (src, order) s.pkg c0 then some s
      else
        let c := msgCore s c0
        let k := s.core c
        some (s.setCore c { k with accepted := k.accepted.filter fun e => !(e.1 == src && e.2.1 == order) })
  | _ => .next s

/-! ### Activation (R323 to R326) -/

/-- A handler table entry, a number of 256 bits: its budget in cycles, pc and sp; none when it is invalid (R323). -/
def handlerEntry (n : Nat) : Option (Nat × Word × Word) :=
  let w := BitVec.ofNat 256 n
  let b := fld w 6 1
  let ok := bit w 0 && fld w 255 192 == 0 && fld w 63 7 == 0 && (b == 0 || (decide (16 ≤ b) && decide (b ≤ 34))) && fld w 65 64 == 0
  if ok then some (2 ^ (if b = 0 then 20 else b), word (fld w 127 64), word (fld w 191 128)) else none

/-- The message to activate next on a core, how often it has failed, and the core without it: redelivery first, then
arrival order among the messages of the bound context (R325, R328, R350). -/
def nextMessage (k : Core) (x : Nat) : Option (Msg × Nat × Core) :=
  match k.redo.find? fun e => e.1.ctx == x with
  | some (m, n) => some (m, n, { k with redo := k.redo.filter fun e => e.1.ctx != x })
  | none =>
    match k.inbound.find? fun m => m.ctx == x with
    | some m => some (m, 0, { k with inbound := k.inbound.erase m })
    | none =>
      (k.spilled.find? fun e => e.2.ctx == x).map fun e => (e.2, 0, { k with spilled := k.spilled.erase e })

/-- th takes up an activation (R324, R343): its registers, and its rollback point. -/
def startActivation (s : State) (c : Nat) (kind : ActKind) (m : Msg) (budget fails : Nat) (pc sp : Word)
    (xs : List (Nat × Word)) (region : Nat × Nat) : State :=
  let k := s.core c
  let th := k.thread 4
  let regs := ((2, sp) :: xs).foldl (fun (r : SMap Word) p => SMap.set r p.1 p.2) []
  let act : Activation :=
    { kind := kind, msg := m, left := m.payload, pinned := false, start := s.cycle, budget := budget, heldMsgs := [],
      stores := 0, log := [], fflags := th.fflags, frm := th.frm, seed := th.seed, seq := th.seq, fails := fails,
      region := region }
  s.setCore c { (k.setThread 4 { th with
    pc := pc, strand := .running, x := regs, mo := [], wait := .none, progress := none, fetched := [], tstat := 0 }) with act := some act }

/-- The pending record of the highest priority: the lowest level, then the lowest order (R358). -/
def bestPending (k : Core) : Option (Nat × BindRec) :=
  (k.slots.filter fun p => decide (1 ≤ p.1)).foldl (fun (b : Option (Nat × BindRec)) p =>
    match b with
    | none => some p
    | some r => if p.2.level < r.2.level ∨ (p.2.level = r.2.level ∧ p.2.order < r.2.order) then some p else some r) none

/-- The pending record that pre-empts slot 0 (R358). -/
def preempting (k : Core) : Option (Nat × BindRec × Bound) :=
  match k.bound, bestPending k with
  | some b, some (i, r) => if r.level < b.record.level ∧ b.ld.savebase ≠ 0 then some (i, r, b) else none
  | _, _ => none

/-- A pre-emption of the core is due: its compute threads stop, and th takes up nothing more (R358, R360). -/
def stopping (s : State) (c : Nat) : Bool :=
  let due := fun (d : Nat) => s.flight.contains (.preemption d) && (preempting (s.core d)).isSome
  due c || (match (s.core c).pair with | .leader p => due p | _ => false)

/-- The activation unit of a core may take up an activation: a launch is bound, not stopped and not being pre-empted, th is free
and the core runs (R316, R360). (DEDUCED, safe, log 60) -/
def canActivate (s : State) (c : Nat) : Bool :=
  let k := s.core c
  !stopping s c && k.act.isNone && k.bound.isSome && !k.tree.stopped && !k.fenced && (match k.pair with | .follower _ => false | _ => true)

/-- A message to an invalid entry is dead, and its source learns of it as of a remote fault (R322, R323, R329). -/
def badHandler (s : State) (c : Nat) (m : Msg) : State :=
  faultAnswer (deadNotice s c m Cause.descriptorFormat.code) m .descriptorFormat 0

/-- HANDLER_ACTIVATION: the next message is activated, or discarded as dead when its entry is invalid; a split or a merge
activation that is due goes first (R323 to R325). (DEDUCED, unsafe, log 79) -/
def execHandlerActivation (s : State) : Out :=
  match s.item with
  | some (.handlerActivation c) =>
    runStep (.handlerActivation c) s fun s =>
      if !canActivate s c then (if (nextMessage (s.core c) (s.coreCtx c)).isNone then some s else none)
      else
        let x := s.coreCtx c
        match nextMessage (s.core c) x with
        | none => some s
        | some (m, fails, k) =>
          if annexDueOn s c then none
          else
          let h := fld m.desc 33 26
          let taken := s.setCore c k
          if 240 ≤ h then some (badHandler taken c m)
          else
            match dispRead s x ((s.ctx x).hndbase.toNat + 32 * h) 32 with
            | .error d =>
              deniedFate s x (s.coreQueue c) c 1 (fun cause _ s => some (deadNotice (s.setCore c k) c m cause.code)) d
            | .ok (n, s) =>
              let taken := s.setCore c k
              match handlerEntry n with
              | none => some (badHandler taken c m)
              | some (budget, pc, sp) =>
                some (startActivation taken c .message m budget fails pc sp
                  [(3, m.src ||| word (m.payload.length * 2 ^ 29)), (4, word m.seq), (5, word h)] (0, 0))
  | _ => .next s

/-- BUDGET_FAULT: the activation has reached its budget; cycles on the page-fault service do not count (R326). -/
def execBudgetFault (s : State) : Out :=
  match s.item with
  | some (.budgetFault c) =>
    runStep (.budgetFault c) s fun s =>
      match (s.core c).act with
      | none => none
      | some a =>
        let paged := match (s.thread c 4).wait with | .pageFault _ => true | _ => false
        if paged || decide (s.cycle < a.start + a.budget) then none else some (handlerFault s c .budget)
  | _ => .next s

/-! ### The host mailbox (R331) -/

/-- HOST_MAILBOX_NOTICE: the message is written as a notice, or refused where its context does not exist (R329,
R331). -/
def execHostMailboxNotice (s : State) : Out :=
  match s.item with
  | some (.hostMailboxNotice m dead cause) =>
    runStep (.hostMailboxNotice m dead cause) s fun s =>
      if dead then mailboxTake s m true cause else onceOnly s m fun s => mailboxTake s m false 0
  | _ => .next s

/-! ### Remote operations (R333 to R336) -/

/-- A reply descriptor's failure (R333). -/
def replyFault (s : State) (d : Word) : Option Cause :=
  if d = BitVec.allOnes 64 then none
  else if fld d 63 34 ≠ 0 ∨ (fld d 33 26 = 255 ∧ fld d 9 0 ≠ 0) then some .descriptorFormat
  else if 768 ≤ fld d 9 0 ∨ s.npkgs ≤ fld d 25 10 then some .invalidTarget
  else none

/-- The checks of a remote operation before it performs anything (R333, R334): the core field, the payload count, its
own operands, the reply descriptor. -/
def remoteCheck (s : State) (m : Msg) (count : Nat) (ok : Bool) (reply : Word) : Option Cause :=
  if fld m.desc 9 0 ≠ 0 then some .invalidTarget
  else if m.payload.length ≠ count ∨ !ok then some .descriptorFormat
  else
    match replyFault s reply with
    | some c => some c
    | none => if (s.ctx m.ctx).live then none else some .invalidTarget

/-- Reply from the slice of an address (R333). -/
def sendReply (s : State) (m : Msg) (slice : Nat) (desc : Word) (payload : List Word) : State :=
  if desc = BitVec.allOnes 64 then s else unitSend s slice 6 (768 + slice) m.ctx desc payload

/-- Perform a remote access at home: held sectors wait, a missing page goes to the service, a fault is answered. `dry` says
whether an access with the right to write leaves memory as it is, so that D stays too (R97).
(DESIGN CHOICE, unsafe, log 30) -/
def remoteAccess (s : State) (m : Msg) (va n : Nat) (nd : Rights) (dry : State → Xlat → Bool)
    (f : State → Xlat → Option State) : Option State :=
  if va % n ≠ 0 then some (answer s m (some (.misalignedAccess, va)))
  else
    match unitCheck s .other 768 m.ctx false nd va with
    | .error (.held _) => none
    | .error (.fault c a) =>
      unitFate s m.ctx 0 0 c a (match nd with | .read => 1 | .write => 2 | .atomic => 3 | .execute => 4) fun s =>
        some (answer s m (some (c, a)))
    | .ok x =>
      match f (applyXlat s 768 m.ctx (if dry s x then x.withoutD s m.ctx else x)) x with
      | some s => some (answer s m none)
      | none => some (answer s m (some (.uncorrectableError, va)))

/-- REMOTE_LOAD (R333). -/
def execRemoteLoad (s : State) : Out :=
  match s.item with
  | some (.remoteLoad m) =>
    runStep (.remoteLoad m) s fun s => onceOnly s m fun s =>
      let w := fun (i : Nat) => m.payload.getD i 0
      match remoteCheck s m 4 (fld (w 3) 63 1 == 0) (w 1) with
      | some c => some (answer s m (some (c, 0)))
      | none =>
        remoteAccess s m (w 0).toNat 8 .read (fun _ _ => false) fun s x =>
          let seed := (s.ctx m.ctx).seed
          (readPa s seed x.pa 8).map fun v => sendReply s m (homeSlice s seed x.pa) (w 1) [w 2, word v]
  | _ => .next s

/-- REMOTE_STORE (R333). -/
def execRemoteStore (s : State) : Out :=
  match s.item with
  | some (.remoteStore m) =>
    runStep (.remoteStore m) s fun s => onceOnly s m fun s =>
      let w := fun (i : Nat) => m.payload.getD i 0
      match remoteCheck s m 2 true (BitVec.allOnes 64) with
      | some c => some (answer s m (some (c, 0)))
      | none =>
        remoteAccess s m (w 0).toNat 8 .write (fun _ _ => false) fun s x =>
          writePa s (s.ctx m.ctx).seed x.pa 8 (w 1).toNat
  | _ => .next s

/-- The value that a remote atomic stores, none when a comparison fails (R126, R333). -/
def remoteAtomicValue (op n old : Nat) (b cmp : Word) : Option Nat :=
  if op = 10 then (if old = cmp.toNat % 256 ^ n then some (b.toNat % 256 ^ n) else none)
  else some (atomValue op (8 * n) old b.toNat)

/-- REMOTE_ATOMIC (R333, R336). -/
def execRemoteAtomic (s : State) : Out :=
  match s.item with
  | some (.remoteAtomic m) =>
    runStep (.remoteAtomic m) s fun s => onceOnly s m fun s =>
      let w := fun (i : Nat) => m.payload.getD i 0
      let op := fld (w 1) 5 0
      let size := fld (w 1) 9 8
      let ok := decide (op ≤ 10) && decide (size < 2) && fld (w 1) 63 10 == 0 && fld (w 1) 7 6 == 0
      match remoteCheck s m 6 ok (w 4) with
      | some c => some (answer s m (some (c, 0)))
      | none =>
        let n := 4 * 2 ^ size
        let seed := (s.ctx m.ctx).seed
        let new := fun old => remoteAtomicValue op n old (w 2) (w 3)
        let dry := fun (s : State) (x : Xlat) => match readPa s seed x.pa n with | some old => (new old).isNone | none => false
        remoteAccess s m (w 0).toNat n .atomic dry fun s x =>
          match readPa s seed x.pa n with
          | none => none
          | some old =>
            let s' := match new old with
              | some v => writePa s seed x.pa n v
              | none => some s
            s'.map fun s => sendReply s m (homeSlice s seed x.pa) (w 4) [w 5, atomResult op (8 * n) old]
  | _ => .next s

/-- The change of a LAW minor, with its X(b) (R333). -/
def remoteChange (minor : Nat) (b : Word) : LawChange :=
  match minor with
  | 0 => lawRead
  | 3 => lawAdd b
  | 4 => lawSet b
  | _ => fun e now a => if fld b 31 4 ≠ 0 then none else lawDeposit (fld b 63 32) (fld b 3 0) e now a

/-- REMOTE_LAW (R333): a word whose entry fails is answered with a descriptor-format cause. -/
def execRemoteLaw (s : State) : Out :=
  match s.item with
  | some (.remoteLaw m) =>
    runStep (.remoteLaw m) s fun s => onceOnly s m fun s =>
      let w := fun (i : Nat) => m.payload.getD i 0
      let minor := (w 1).toNat
      match remoteCheck s m 5 (minor == 0 || minor == 3 || minor == 4 || minor == 6) (w 3) with
      | some c => some (answer s m (some (c, 0)))
      | none =>
        let who : LawWho := ⟨.other, 768, m.ctx, false⟩
        match lawCommit s who false (.global_ (w 0).toNat) (remoteChange minor (w 2)) with
        | .error (.held _) | .error .full => none
        | .error (.fault c a) =>
          unitFate s m.ctx 0 0 c a.toNat 3 fun s => some (answer s m (some (c, a.toNat)))
        | .ok (c, a, s) =>
          let v := if minor = 3 then (match lawAdd (w 2) c.entry c.now a with | some r => r.1 | none => 0) else a.v
          let slice := match lawUnit s who c with | .inr n => n | .inl n => n
          let s := if minor = 6 then s else sendReply s m slice (w 3) [w 4, c.entry.out v]
          some (answer s m none)
  | _ => .next s

/-- REMOTE_FAULT: it is recorded in the source thread's RFSTAT, which a launch that has been set aside shows when it is bound
again, or counted as a law-action error where the source is no thread (R335). -/
def execRemoteFault (s : State) : Out :=
  match s.item with
  | some (.remoteFault src x order cause addr) =>
    runStep (.remoteFault src x order cause addr) s fun s =>
      let kind := fld src 28 26
      let c := fld src 9 0
      if 5 ≤ kind ∨ 768 ≤ c then some (lawError s x)
      else atLaunch s c order fun s =>
        let th := s.thread c kind
        let rf := if bit th.rfstat 63 then th.rfstat ||| 0x4000000000000000
          else word (2 ^ 63 + fld th.rfstat 62 62 * 2 ^ 62 + cause.toNat * 2 ^ 54 + addr.toNat)
        some (s.setThread c kind { th with rfstat := rf })
  | _ => .next s

/-! ### Links (R399) -/

/-- DRT_RETRANSMIT: a segment that has not been acknowledged within 16 µs is sent again (R399).
(DEDUCED, safe, log 85) -/
def execDrtRetransmit (s : State) : Out :=
  match s.item with
  | some (.drtRetransmit m) =>
    runStep (.drtRetransmit m) s fun s =>
      match s.segments.find? fun p => p.1 == m with
      | none => none
      | some p =>
        if s.ns < p.2 + 16000 then none
        else some { s with fabric := s.fabric ++ [m], segments := s.segments.map fun q => if q.1 = m then (m, s.ns) else q }
  | _ => .next s

/-- What is under way to other packages that a path has lost is lost (R399). -/
def losePaths (s : State) (lost : Nat → Bool) : State :=
  ((s.unacked.map (·.2.2)).filter fun m => fld m.desc 25 10 != s.pkg && lost (fld m.desc 25 10)).foldl linkLost s

/-- LINK_PORT_FAILURE: the port leaves the route table, and traffic goes on over the others; with the last of them, what is
under way to packages that only Gufer Link reaches is lost (R399). -/
def execLinkPortFailure (s : State) : Out :=
  match s.item with
  | some (.linkPortFailure p) =>
    runStep (.linkPortFailure p) s fun s =>
      let s := { s with failedPorts := if s.failedPorts.contains p then s.failedPorts else s.failedPorts ++ [p] }
      some (if gufersLost s then losePaths s fun p => !byDrt s p else s)
  | _ => .next s

end Sys2Proof.Machine
end

