-- ==== Sys2Proof/Machine/Kiosk.lean ====
section
/-! DEFINITION. Kiosk subscriptions (R214 to R218) and the journal's slot writes (R226). -/

namespace Sys2Proof.Machine

/-- Fields of a subscription descriptor, a number of 512 bits (R214). -/
structure SubDesc where
  ring : Word
  base : Word
  tstride : BitVec 64
  rstride : BitVec 32
  rowbytes : Nat
  rows : Nat
  tiles : Nat
  kiosk : Nat
  mode : Nat
  reserved : Bool
  deriving DecidableEq, Repr

def subDesc (n : Nat) : SubDesc :=
  let w := BitVec.ofNat 512 n
  { ring := word (fld w 511 448), base := word (fld w 447 384), tstride := BitVec.ofNat 64 (fld w 383 320),
    rstride := BitVec.ofNat 32 (fld w 319 288), rowbytes := fld w 287 272, rows := fld w 271 256, tiles := fld w 255 224,
    kiosk := fld w 207 203, mode := fld w 202 201, reserved := fld w 223 208 ≠ 0 || fld w 200 0 ≠ 0 }

/-- The limits of R214, but for the ring's. (DEDUCED, unsafe, log 31) -/
def SubDesc.ok (d : SubDesc) : Bool :=
  !d.reserved && decide (d.mode < 2) && decide (16 ≤ d.rowbytes) && decide (d.rowbytes ≤ 4096) && d.rowbytes % 16 == 0
  && decide (1 ≤ d.rows) && decide (d.rows ≤ 256) && decide (1 ≤ d.tiles)

/-- The subscriptions that are live: one ends with its launch (R218). (DEDUCED, safe, log 33) -/
def liveSubs (s : State) : List Sub := s.subs.filter fun u => launchHere s u.core u.order != some false

/-- SUBS (R11, R215, R224). (DESIGN CHOICE, unsafe, log 10; DEDUCED, unsafe, log 31; DEDUCED, unsafe, log 96) -/
def execSubs (d a : BitVec 5) (s : State) : Out :=
  run (.subs d a) s do
    let x ← readX a
    checkPlaced (placedOpen s.myCore x.toNat 64 64)
    let n ← lRead x.toNat 64
    let u := subDesc n
    let c := handleCore u.ring
    let h := handleHdr u.ring
    need (!handleReserved u.ring) .operandRange 0
    need (decide (c < 768)) .invalidTarget 0
    if s.away c then waitFor .held
    checkPlaced (placedFront (s.core c) h 64 64)
    need u.ok .descriptorFormat x
    let r := ringHdr (s.core c) h
    need (!ringBad (s.core c) r) .descriptorFormat (word h)
    need (u.rows * u.rowbytes == r.bytes) .descriptorFormat x
    pin
    let pull := u.mode == 1
    if (liveSubs s).any fun v => v.core == c && v.hdr == h && v.pull == pull then writeX d (-2)
    else if 64 ≤ ((liveSubs s).filter fun v => v.kiosk == u.kiosk).length then writeX d (-1)
    else
      let id := s.subIds.get u.kiosk 0 % 2 ^ 16
      let sub : Sub :=
        { kiosk := u.kiosk, id := id, pull := pull, core := c, hdr := h, gen := handleGen u.ring, base := u.base,
          tstride := u.tstride, rstride := u.rstride, rowbytes := u.rowbytes, rows := u.rows, tiles := u.tiles, moved := 0,
          ticket := none, ctx := s.myCtx, sup := s.sup, order := s.coreOrder s.cid, parts := 0, buf := 0 }
      modify fun s =>
        let s := { s with subs := liveSubs s ++ [sub], subIds := s.subIds.set u.kiosk (s.subIds.get u.kiosk 0 + 1) }
        let s := s.setCore c (setLiveBit (s.core c) h pull true)
        if pull then s else s.emit (.kioskPushTile u.kiosk id)
      writeX d (word (u.kiosk * 2 ^ 32 + id))

/-- The live subscription of a kiosk under an identifier. -/
def findSub (s : State) (kiosk id : Nat) : Option Sub := s.subs.find? fun v => v.kiosk == kiosk && v.id == id
def setSub (s : State) (u : Sub) : State :=
  { s with subs := s.subs.map fun v => if v.kiosk = u.kiosk ∧ v.id = u.id then u else v }
/-- The page-fault service runs for an access of a subscription, or its fault has not been delivered yet. -/
def subWaits (s : State) (kiosk id : Nat) : Bool := s.pageItems.any fun i => i.asker == .kiosk kiosk id
/-- The service has declined an access of a subscription (R100, R217). -/
def subDeclined (s : State) (kiosk id : Nat) : Option PageItem :=
  s.pageItems.find? fun (i : PageItem) => i.asker == .kiosk kiosk id && i.declined
/-- The items of a subscription are gone. -/
def dropSubItems (s : State) (kiosk id : Nat) : State := { s with pageItems := s.pageItems.filter fun (i : PageItem) => i.asker != .kiosk kiosk id }

/-- UNSUBS: it waits for the tile in progress (R218). -/
def execUnsubs (d a : BitVec 5) (s : State) : Out :=
  run (.unsubs d a) s do
    let x ← readX a
    need (fld x 63 37 == 0 && fld x 31 16 == 0) .operandRange 0
    let k := fld x 36 32
    let id := fld x 15 0
    pin
    match (liveSubs s).find? fun v => v.kiosk == k && v.id == id with
    | none => writeX d (-1)
    | some u =>
      if launchHere s u.core u.order == none then waitFor .ring
      if subWaits s k id || u.parts ≠ 0 || (!u.pull && u.ticket.isSome) then waitFor .ring
      else
        modify fun s => endSub s u
        writeX d (word u.moved)

/-- The global address of row r of tile i (R216). -/
def tileRow (u : Sub) (i r : Nat) : Nat :=
  (u.base + word i * u.tstride + word r * u.rstride.signExtend 64).toNat

/-- A fault on a tile ends the subscription and is recorded in the header; a push's slot is filled with zeros and its
full bits set (R217, R226). -/
def tileFault (s : State) (u : Sub) (c : Cause) (va : Nat) : State :=
  let k := s.core u.core
  let r := ringHdr k u.hdr
  let t := if u.pull then r.head.toNat else u.ticket.getD 0
  let s := endSub (s.setCore u.core (recordFault k u.hdr (word t) c va)) u
  if u.pull then s else putSlot s u.core u.hdr t 0

/-- A header that has become malformed ends the subscription with a descriptor-format fault (R217, R223). -/
def headerFault (s : State) (u : Sub) : State :=
  let k := s.core u.core
  endSub (s.setCore u.core (recordFault k u.hdr (ringHdr k u.hdr).tail .descriptorFormat u.hdr)) u

/-- A subscription acts while the launch that started it has the ring's core; it ends with that launch. -/
def withSub (s : State) (k id : Nat) (f : Sub → Option State) : Option State :=
  match findSub s k id with
  | none => some s
  | some u =>
    match launchHere s u.core u.order with
    | none => none
    | some false => some (dropSubItems { s with subs := s.subs.filter fun v => !(v.kiosk == k && v.id == id) } k id)
    | some true =>
      match subDeclined s k id with
      | some i => some (tileFault (dropSubItems s k id) u .notPresent i.va.toNat)
      | none =>
        if subWaits s k id then none
        else if ringBad (s.core u.core) (ringHdr (s.core u.core) u.hdr) then some (headerFault s u)
        else f u

/-- A tile's access is denied: it waits at a held sector; a not-present page goes to the service; any other fault
ends the subscription (R139, R100, R217). -/
def tileDenied (s : State) (u : Sub) (e : Event) (access : Nat) : Denied → Option State
  | .held _ => none
  | .fault .notPresent va =>
    let s := (askPage s u.ctx (s.coreQueue u.core) u.core 7 (word va) access (.kiosk u.kiosk u.id)).2
    some (s.emit e)
  | .fault c va => some (tileFault s u c va)

/-- The parts of a tile, row by row in ascending order: each is an access of its own (R120, R135, R216). -/
def tileParts (u : Sub) (i : Nat) : List (Nat × Nat) := (List.range u.rows).flatMap fun r => partsOf (tileRow u i r) u.rowbytes

/-- The bytes of the parts of a tile that have been moved. -/
def tileDone (u : Sub) : Nat := (((tileParts u u.moved).take u.parts).map (·.2)).sum

/-- Bytes that a push has read go into the slot granule by granule, each with its full bit; what does not fill a granule
is kept (R142, R144). On a journaled ring the full bits come later (R226). Answers the core and the bytes kept. -/
def pushBytes (k : Core) (r : RingHdr) (t have_ n v buf : Nat) : Core × Nat :=
  let kept := have_ % 16
  let all := buf + v * 256 ^ kept
  let len := (kept + n) / 16 * 16
  let o := r.slot t + (have_ - kept)
  let k := if len = 0 then k else k.lwrite o len (all % 256 ^ len)
  ((if r.journ || len = 0 then k else k.setFull (o / 16) (len / 16)), all / 256 ^ len)

/-- The next part of a push's tile, the slot's end after the last (R216). -/
def pushPart (s : State) (u : Sub) (t : Nat) : Option State :=
  let ps := tileParts u u.moved
  match ps[u.parts]? with
  | none => some s
  | some (va, n) =>
    match unitRead s .other 768 u.ctx u.sup [(va, n)] with
    | .error d => tileDenied s u (.kioskPushTile u.kiosk u.id) 1 d
    | .ok (v, s) =>
      let k := s.core u.core
      let (k, buf) := pushBytes k (ringHdr k u.hdr) t (tileDone u) n v u.buf
      let s := s.setCore u.core k
      if u.parts + 1 < ps.length then
        some ((setSub s { u with parts := u.parts + 1, buf := buf }).emit (.kioskPushTile u.kiosk u.id))
      else
        let u := { u with ticket := none, moved := u.moved + 1, parts := 0, buf := 0 }
        let s := setSub s u
        -- the full bits have been set with the data, granule by granule, but those of a journaled ring (R144, R226)
        let s := if (ringHdr (s.core u.core) u.hdr).journ then fillSlot s u.core u.hdr t else s
        some (if u.moved = u.tiles then endSub s u else s.emit (.kioskPushTile u.kiosk u.id))

/-- KIOSK_PUSH_TILE: a ticket for the tile, then its parts, granule by granule into the slot (R144, R216). A ring of
another generation gives no ticket, and the subscription ends. (DEDUCED, safe, log 33) -/
def execKioskPushTile (s : State) : Out :=
  match s.item with
  | some (.kioskPushTile k id) =>
    runStep (.kioskPushTile k id) s fun s => withSub s k id fun u =>
      if u.pull then some s
      else
        match u.ticket with
        | some t => pushPart s u t
        | none =>
          match nextTicket s u.core u.hdr u.gen with
          | none => none
          | some t =>
            if (ringHdr (s.core u.core) u.hdr).gen ≠ u.gen then some (endSub s u)
            else
              withMirror s u.core u.hdr u.sup (passTicket u.core u.hdr) fun s =>
                some ((setSub s { u with ticket := some t.toNat }).emit (.kioskPushTile k id))
  | _ => .next s

/-- KIOSK_PULL_TILE: the slot being released is read and written part by part as the next tile (R144, R216).
(DEDUCED, safe, log 33) -/
def execKioskPullTile (s : State) : Out :=
  match s.item with
  | some (.kioskPullTile k id) =>
    runStep (.kioskPullTile k id) s fun s => withSub s k id fun u =>
      if !u.pull || u.ticket.isSome then some s
      else
        let kc := s.core u.core
        let r := ringHdr kc u.hdr
        let ps := tileParts u u.moved
        match ps[u.parts]? with
        | none => some s
        | some (va, n) =>
          match unitWrite s .other 768 u.ctx u.sup [(va, n)] (kc.lread (r.slot r.head.toNat + tileDone u) n) with
          | (some d, s1) => tileDenied s1 u (.kioskPullTile k id) 2 d
          | (none, s1) =>
            if u.parts + 1 < ps.length then some ((setSub s1 { u with parts := u.parts + 1 }).emit (.kioskPullTile k id))
            else some (setSub s1 { u with ticket := some r.head.toNat, moved := u.moved + 1, parts := 0 })
  | _ => .next s

/-- JOURNAL_WRITE: the kiosk writes a slot to its place in the journal and the header's copy beside it, and then sets the
slot's full bits (R226). A fault of that write is recorded in the header as a tile's is, and so is a header that has become
malformed (R223). The write of a launch that has ended comes to nothing. (DEDUCED, unsafe, log 32) -/
def execJournalWrite (s : State) : Out :=
  match s.item with
  | some (.journalWrite c h t order) =>
    runStep (.journalWrite c h t order) s fun s => atLaunch s c order fun s =>
      let k := s.core c
      let r := ringHdr k h
      if ringBad k r then some (s.setCore c (recordFault k h (word t) .descriptorFormat h)) else
      let x := s.coreCtx c
      let a := r.jbase + t % r.count * r.bytes
      let done := fun (s : State) => s.setCore c ((s.core c).setFull (r.slot t / 16) (2 * r.ssize))
      match unitWrite s .other 768 x (journalSup s c h) (partsOf a r.bytes) (k.lread (r.slot t) r.bytes) with
      | (none, s1) => withMirror s1 c h false (fun s => done (setMirror (writeThrough s x a r.bytes) c h t true)) some
      | (some d, s1) =>
        deniedFate s1 x (s.coreQueue c) c 2 (fun cause va s =>
          withMirror s c h false (fun s => done (s.setCore c (recordFault (s.core c) h (word t) cause va))) some) d
  | _ => .next s

end Sys2Proof.Machine
end

