-- ==== Sys2Proof/Machine/Copy.lean ====
section
/-! DEFINITION. The copy engine and full/empty ranges (R205 to R213). -/

namespace Sys2Proof.Machine

/-- Fields of a copy descriptor (R206). -/
structure CopyDesc where
  dstride : BitVec 32
  sstride : BitVec 32
  dst : Word
  src : Word
  rows : Nat
  len : Nat
  fe : Bool
  bv : Bool
  bar : Nat
  dir : Nat
  reserved : Bool
  deriving DecidableEq, Repr

def copyDesc (w : BitVec 256) : CopyDesc :=
  { dstride := BitVec.ofNat 32 (fld w 255 224), sstride := BitVec.ofNat 32 (fld w 223 192), dst := word (fld w 191 128),
    src := word (fld w 127 64), rows := fld w 63 48, len := fld w 47 16, fe := bit w 15, bv := bit w 14, bar := fld w 13 7,
    dir := fld w 3 2, reserved := fld w 6 4 ≠ 0 || fld w 1 0 ≠ 0 }

/-- The source, the destination, is in local memory. -/
def CopyDesc.srcLocal (d : CopyDesc) : Bool := d.dir == 1 || d.dir == 3
def CopyDesc.dstLocal (d : CopyDesc) : Bool := d.dir == 0 || d.dir == 3

/-- The checks of R207. -/
def CopyDesc.ok (d : CopyDesc) (twoD : Bool) : Bool :=
  !d.reserved
  && (if twoD then d.rows != 0 && d.len != 0 else d.rows == 0 && d.sstride == 0 && d.dstride == 0)
  && (!d.srcLocal || fld d.src 63 18 == 0) && (!d.dstLocal || fld d.dst 63 18 == 0)
  && (!d.fe || (d.dstLocal && fld d.dst 3 0 == 0 && d.len % 16 == 0 && fld d.dstride 3 0 == 0))
  && (d.bv || d.bar == 0)

/-- Rows that the copy moves. -/
def CopyRec.rows (r : CopyRec) : Nat := if r.twoD then (copyDesc r.desc).rows else 1
def CopyRec.dstRow (r : CopyRec) (i : Nat) : Word := (copyDesc r.desc).dst + word i * (copyDesc r.desc).dstride.signExtend 64
def CopyRec.srcRow (r : CopyRec) (i : Nat) : Word := (copyDesc r.desc).src + word i * (copyDesc r.desc).sstride.signExtend 64

/-- The place of a new copy (R205): the lowest never used since the fresh bind, else the free one that finished
longest ago. -/
def freePlace (k : Core) : Option Nat :=
  match (List.range 16).find? fun p => (k.copies.find? p).isNone with
  | some p => some p
  | none =>
    (k.copies.filter fun c => c.2.state != 0).foldl (fun (b : Option Nat) c =>
      match b with
      | none => some c.1
      | some p => if c.2.fin < (match k.copies.find? p with | some r => r.fin | none => 0) then some c.1 else some p) none

/-- A copy ends: its place frees, its lines are given up, and its barrier arrival follows (R205, R208, R209). -/
def copyEnd (s : State) (c p : Nat) (st : BitVec 2) (cause : BitVec 8) (addr : BitVec 52) : State :=
  let k := s.core c
  match k.copies.find? p with
  | none => s
  | some r =>
    let n := k.copyFin + 1
    let s := s.setCore c { k with copyFin := n, copies := k.copies.set p { r with state := st, cause := cause, addr := addr, fin := n } }
    let s := dropHolds s (.copy c p)
    let d := copyDesc r.desc
    if d.bv then copyArrive s c d.bar r.order else s

/-- A deferred fault stops the copy (R209). -/
def copyFault (s : State) (c p : Nat) (cause : Cause) (va : Nat) : State :=
  copyEnd s c p 2 cause.code (BitVec.ofNat 52 va)

/-- COPY and COPY2D (R205, R207, R211). (DESIGN CHOICE, unsafe, log 10) -/
def copyOp (twoD : Bool) (d a : BitVec 5) : M Unit := do
  let x ← readX a
  let s ← get
  checkPlaced (placedData s.myCore x.toNat 32 32)
  let w := BitVec.ofNat 256 (← lRead x.toNat 32)
  let cd := copyDesc w
  need (cd.ok twoD) .descriptorFormat x
  pin
  match freePlace s.myCore with
  | none => waitFor .copyPlace
  | some p =>
    let q := s.myCore.copySeq
    let r : CopyRec :=
      { seq := q % 2 ^ 32, desc := w, twoD := twoD, slot := s.tid, ctx := s.myCtx, order := s.coreOrder s.cid, sup := s.sup, row := 0, off := 0,
        state := 0, cause := 0, addr := 0, fin := 0 }
    modCore fun k => { k with copySeq := q + 1, copies := k.copies.set p r }
    if cd.len = 0 then modify fun s => copyEnd s s.cid p 1 0 0
    else emitM (.copyTransfer s.cid p 1)
    writeX d (word (q % 2 ^ 32 * 16 + p))

/-- COPY (R211). -/
def execCopy (d a : BitVec 5) (s : State) : Out := run (.copy d a) s (copyOp false d a)
/-- COPY2D (R211). -/
def execCopy2d (d a : BitVec 5) (s : State) : Out := run (.copy2d d a) s (copyOp true d a)

/-- CSTAT (R212). -/
def execCstat (d a : BitVec 5) (s : State) : Out :=
  run (.cstat d a) s do
    let h ← readX a
    need (fld h 63 36 == 0) .operandRange 0
    match s.myCore.copies.find? (fld h 3 0) with
    | some r =>
      if r.seq = fld h 35 4 then writeX d (word (r.state.toNat * 2 ^ 62 + r.cause.toNat * 2 ^ 54 + r.addr.toNat))
      else writeX d (word (3 * 2 ^ 62))
    | none => writeX d (word (3 * 2 ^ 62))

/-- The granules of FEWAIT, FESET and FECLR (R213). -/
def feRange (a b : BitVec 5) : M (Nat × Nat) := do
  let x ← readX a
  let y ← readX b
  need (fld x 3 0 == 0 && fld y 3 0 == 0 && decide (16 ≤ y.toNat) && decide (y.toNat ≤ 2 ^ 18)) .operandRange 0
  checkLocal x.toNat y.toNat
  return (x.toNat / 16, y.toNat / 16)

/-- FEWAIT (R213). -/
def execFewait (a b : BitVec 5) (s : State) : Out :=
  run (.fewait a b) s do
    let (g, n) ← feRange a b
    waitGranules g n true
/-- FESET (R213). -/
def execFeset (a b : BitVec 5) (s : State) : Out :=
  run (.feset a b) s do
    let (g, n) ← feRange a b
    setFE true g n
/-- FECLR (R213). -/
def execFeclr (a b : BitVec 5) (s : State) : Out :=
  run (.feclr a b) s do
    let (g, n) ← feRange a b
    setFE false g n

/-! ### The engines' request pool (R113) -/

/-- Entries of the pool of a core's stream and copy engines. -/
def enginePool : Nat := 2048

/-- The engines of a core can hold n more entries. -/
def engineFree (s : State) (c n : Nat) : Bool := decide ((s.core c).engine + n ≤ enginePool)

/-- The engines hold n entries until the home slices answer. -/
def engineHold (s : State) (c n : Nat) : State :=
  if n = 0 then s
  else
    let k := s.core c
    (s.setCore c { k with engine := k.engine + n }).emit (.loadReply c 5 n)

/-! ### The transfer (R208, R209, R141, R142) -/

/-- Give up the line of a sector. -/
def dropLine (s : State) (who : Agent) (sector : Nat) : State :=
  { s with holds := s.holds.filter fun h => !(h.owner == who && h.sector / 4 == sector / 4) }

/-- Hold the 128-byte line of a sector for an engine (R141); none while another agent holds part of it. -/
def takeLine (s : State) (who : Agent) (slice sector : Nat) : Option State :=
  let line := (List.range 4).map (sector / 4 * 4 + ·)
  if line.any fun t => heldByOther s who slice t then none
  else if s.holds.any fun h => h.owner == who && h.sector / 4 == sector / 4 then some s
  else some { s with holds := line.map (fun t => ⟨who, t, slice, none⟩) ++ s.holds }

/-- Whether the copy writes the line of a global address again after byte off of the present row (R141). -/
def writesAgain (r : CopyRec) (off line : Nat) : Bool :=
  let d := copyDesc r.desc
  let hits := fun (t lo : Nat) => decide (lo < d.len) && decide ((t + lo) / 128 ≤ line) && decide (line ≤ (t + d.len - 1) / 128)
  hits (r.dstRow r.row).toNat off || (List.range' (r.row + 1) (r.rows - r.row - 1)).any fun i => hits (r.dstRow i).toNat 0

/-- How one unit ends. -/
inductive UnitEnd where
  | moved (s : State)
  | held
  /-- A fault with the access bits of a notice (R424). -/
  | fault (s : State) (c : Cause) (va access : Nat)

/-- Read the source bytes of a unit. -/
def copyRead (s : State) (c p : Nat) (r : CopyRec) (a : Word) (n : Nat) : Except Denied (Nat × State) :=
  if (copyDesc r.desc).srcLocal then
    match localFault (s.core c) a.toNat n with
    | some (cause, va) => .error (.fault cause va.toNat)
    | none => .ok ((s.core c).lread a.toNat n, s)
  else unitRead s (.copy c p) c r.ctx r.sup (partsOf a.toNat n)

/-- Write the bytes of a unit: to local memory with its full bits, or to a held line (R141, R142). -/
def copyWrite (s : State) (c p : Nat) (r : CopyRec) (a : Word) (n v : Nat) : UnitEnd :=
  let d := copyDesc r.desc
  if d.dstLocal then
    match localFault (s.core c) a.toNat n with
    | some (cause, va) => .fault s cause va.toNat 2
    | none =>
      let k := (s.core c).lwrite a.toNat n v
      .moved (s.setCore c (if d.fe then k.setFull (a.toNat / 16) (n / 16) else k))
  else
    match unitXlate s (.copy c p) c r.ctx r.sup .write a.toNat with
    | .error (.held _) => .held
    | .error (.fault cause va) => .fault s cause va 2
    | .ok (x, s) =>
      let seed := (s.ctx r.ctx).seed
      match takeLine s (.copy c p) (homeSlice s seed x.pa) (x.pa / 32) with
      | none => .held
      | some s =>
        match writePa s seed x.pa n v with
        | none => .fault s .uncorrectableError a.toNat 2
        | some s => .moved (if writesAgain r (r.off + n) (a.toNat / 128) then s else dropLine s (.copy c p) (x.pa / 32))

/-- The entries that a unit takes: one for each part of its global ends (R113). -/
def unitEntries (d : CopyDesc) (src : Word) (n : Nat) : Nat :=
  (if d.srcLocal then 0 else (partsOf src.toNat n).length) + boolNat (!d.dstLocal)

/-- Move one unit of a copy in flight, and advance it; at its end the copy completes. -/
def copyUnit (s : State) (c p : Nat) : UnitEnd :=
  match (s.core c).copies.find? p with
  | none => .moved s
  | some r =>
    let d := copyDesc r.desc
    let t := r.dstRow r.row + word r.off
    let n := Nat.min (32 - t.toNat % 32) (d.len - r.off)
    let entries := unitEntries d (r.srcRow r.row + word r.off) n
    if !engineFree s c entries then .held
    else match copyRead s c p r (r.srcRow r.row + word r.off) n with
    | .error (.held _) => .held
    | .error (.fault cause va) => .fault s cause va 1
    | .ok (v, s) =>
      match copyWrite s c p r t n v with
      | .moved s =>
        let off := r.off + n
        let r' := if off < d.len then { r with off := off } else { r with off := 0, row := r.row + 1 }
        let k := s.core c
        let s := engineHold (s.setCore c { k with copies := k.copies.set p r' }) c entries
        .moved (if r'.row < r'.rows then s else copyEnd s c p 1 0 0)
      | e => e

/-- A copy is in flight in a place. -/
def copyBusy (s : State) (c p : Nat) : Bool :=
  match (s.core c).copies.find? p with
  | some r => r.state == 0
  | none => false

/-- Move up to n units: none when the first one is not due. A not-present page goes to the service while the engine
holds the access (R100, R209). -/
def copyUnits (s : State) (c p : Nat) : Nat → Option State
  | 0 => some s
  | n + 1 =>
    if !copyBusy s c p then some s
    else
      match copyUnit s c p with
      | .moved s => some ((copyUnits s c p n).getD s)
      | .held => none
      | .fault s1 cause va acc =>
        if cause = .notPresent then
          let r := (s.core c).copies.find? p
          let x := match r with | some r => r.ctx | none => 0
          some (askPage s x (s.coreQueue c) c 5 (word va) acc (.copy c p)).2
        else some (copyFault s1 c p cause va)

/-- COPY_TRANSFER (R208). The engine of a fenced core reaches nothing (R315). (DEDUCED, unsafe, log 96) -/
def execCopyTransfer (s : State) : Out :=
  match s.item with
  | some (.copyTransfer c p n) =>
    runStep (.copyTransfer c p n) s fun s =>
      if !copyBusy s c p then some s
      else if (s.core c).fenced || s.pageItems.any fun i => i.asker == .copy c p then none
      else (copyUnits s c p n).map fun s => if copyBusy s c p then s.emit (.copyTransfer c p n) else s
  | _ => .next s

end Sys2Proof.Machine
end

