-- ==== Sys2Proof/Machine/Vec.lean ====
section
/-! DEFINITION. What the vector instructions share: elements, groups, masks and the write policy (R242 to R246). -/

namespace Sys2Proof.Machine

/-- The first n elements of width w of a value (R242). -/
def elems (w : Nat) : Nat → Nat → List Nat
  | 0, _ => []
  | n + 1, v => v % 2 ^ w :: elems w n (v / 2 ^ w)

/-- Elements of width w as one value. -/
def pack (w : Nat) : List Nat → Nat
  | [] => 0
  | e :: es => e % 2 ^ w + 2 ^ w * pack w es

/-- N(t): elements of a register. -/
def lanes (w : Nat) : Nat := 4096 / w
/-- The elements of a register. -/
def vElems (w : Nat) (v : VReg) : List Nat := elems w (lanes w) v.toNat
def vPack (w : Nat) (l : List Nat) : VReg := BitVec.ofNat 4096 (pack w l)
/-- One element. -/
def vElem (w : Nat) (v : VReg) (i : Nat) : Nat := v.toNat / 2 ^ (w * i) % 2 ^ w

/-- Cut a list into n pieces of g (R243). -/
def pieces {α : Type} (g : Nat) : Nat → List α → List (List α)
  | 0, _ => []
  | n + 1, l => l.take g :: pieces g n (l.drop g)

/-- The bits of a mask, as far as n elements go. -/
def maskBits (n : Nat) (m : Nat) : List Bool := (elems 1 n m).map (· == 1)

/-- Whether a type code is signed. -/
def tSigned (t : BitVec 4) : Bool := decide (t.toNat < 4) || t == 8#4
def tFloat (t : BitVec 4) : Bool := decide (9 ≤ t.toNat)
/-- An element read as its integer type says. -/
def readInt (w : Nat) (sg : Bool) (x : Nat) : Int := if sg then toSigned x w else (x : Int)
/-- An integer modulo 2^w. -/
def wrapInt (w : Nat) (i : Int) : Nat := (i % 2 ^ w).toNat

/-- The mask of the issuing A word (R43). -/
def State.vmask (s : State) : MReg :=
  match s.issue.vx with
  | some v => s.me.getK v.k.toNat
  | none => BitVec.allOnes 1024
/-- The zero policy (R43). -/
def State.vzero (s : State) : Bool :=
  match s.issue.vx with
  | some v => v.z
  | none => false
/-- The register of the addend: vc under VX, else the destination (R36, R43). -/
def State.addend (s : State) (d : BitVec 5) : BitVec 5 :=
  match s.issue.vx with
  | some v => v.vc
  | none => d

/-- R245: compute the active elements in ascending order, and merge or zero the others. -/
def masked {α : Type} (z : Bool) (f : α → F Nat) : List Bool → List α → List Nat → F (List Nat)
  | b :: bs, x :: xs, o :: os => do
    let r ← if b then f x else pure (if z then 0 else o)
    let rs ← masked z f bs xs os
    return r :: rs
  | _, _, _ => return []

/-- The elements of a group of g registers. -/
def groupElems (th : Thread) (w : Nat) (r : Nat) : Nat → List Nat
  | 0 => []
  | g + 1 => vElems w (th.getV r) ++ groupElems th w (r + 1) g

/-- Write a group of registers. -/
def writeGroup (w : Nat) (r : Nat) : Nat → List Nat → Thread → Thread
  | 0, _, th => th
  | g + 1, l, th => writeGroup w (r + 1) g (l.drop (lanes w)) (th.setV r (vPack w (l.take (lanes w))))

/-- An elementwise instruction over inputs that it has read: element i of the destination from input i. -/
def vecMap {α : Type} (d : BitVec 5) (w : Nat) (xs : List α) (f : α → F Nat) : M Unit := do
  let s ← get
  let old := vElems w (s.me.getV d.toNat)
  let r ← liftF (masked s.vzero f (maskBits (lanes w) s.vmask.toNat) xs old)
  writeV d (vPack w r)

/-- Two vector sources of one width. -/
def vecBin (d a b : BitVec 5) (w : Nat) (f : Nat → Nat → F Nat) : M Unit := do
  let x ← readV a
  let y ← readV b
  vecMap d w ((vElems w x).zip (vElems w y)) fun p => f p.1 p.2

/-- One vector source. -/
def vecUn (d a : BitVec 5) (w : Nat) (f : Nat → F Nat) : M Unit := do
  let x ← readV a
  vecMap d w (vElems w x) f

/-- Two sources and the addend (R36). -/
def vecTer (d a b : BitVec 5) (w : Nat) (f : Nat → Nat → Nat → F Nat) : M Unit := do
  let x ← readV a
  let y ← readV b
  let c ← readV ((← get).addend d)
  vecMap d w ((vElems w x).zip ((vElems w y).zip (vElems w c))) fun p => f p.1 p.2.1 p.2.2

/-- Replace the low n bits of a mask register. -/
def putMask (kd : Nat) (n : Nat) (l : List Nat) : M Unit := do
  let old ← readK kd
  writeK kd (BitVec.ofNat 1024 (old.toNat / 2 ^ n * 2 ^ n + pack 1 l))

/-- A comparison: bit i of the destination mask from elements i (R249, R254). -/
def vecCmp (kd : BitVec 3) (a b : BitVec 5) (w : Nat) (f : Nat → Nat → F Bool) : M Unit := do
  let s ← get
  let x ← readV a
  let y ← readV b
  let n := lanes w
  let old := elems 1 n (s.me.getK kd.toNat).toNat
  let r ← liftF (masked s.vzero (fun p => do return boolNat (← f p.1 p.2)) (maskBits n s.vmask.toNat)
    ((vElems w x).zip (vElems w y)) old)
  putMask kd.toNat n r

end Sys2Proof.Machine
end

