-- ==== Sys2Proof/Machine/Strm.lean ====
section
/-! DEFINITION. STRM: stream registers and their read-ahead (R219 to R222). -/

namespace Sys2Proof.Machine

/-- Fields of a stream descriptor (R219). -/
structure StreamDesc where
  a : Word
  c : Word
  b : Word
  count : Nat
  iw : Nat
  w : Nat
  kind : Nat
  bad : Bool
  deriving DecidableEq, Repr

def streamDesc (x : BitVec 256) : StreamDesc :=
  let kind := fld x 1 0
  let iwc := fld x 9 8
  { a := word (fld x 255 192), c := word (fld x 191 128), b := word (fld x 127 64), count := fld x 63 32, iw := 4 * 2 ^ (iwc % 2),
    w := 2 ^ fld x 5 4, kind := kind,
    bad := fld x 31 10 ≠ 0 || fld x 7 6 ≠ 0 || fld x 3 2 ≠ 0 || kind == 3 || decide (2 ≤ iwc) || (kind == 0 && iwc != 0)
      || (kind != 2 && fld x 191 128 ≠ 0) }

/-- A stream register that is open, or a stream-state fault (R221). -/
def openStream (n : BitVec 5) : M StreamReg := do
  match (← get).me.streams.find? n.toNat with
  | some r => return r
  | none => trap .streamState 0

def setStream (n : BitVec 5) (r : StreamReg) : M Unit := modMe fun t => { t with streams := t.streams.set n.toNat r }

/-- Elements left (R221). -/
def StreamReg.remaining (r : StreamReg) : Nat :=
  let d := streamDesc r.desc
  if d.kind = 2 then (match r.fib with | none => 0 | some _ => r.last - r.pos) else d.count - r.pos

/-- What the engine meets at a read: a value, a fault with its address, or a sector held by another agent. -/
abbrev Fetched := Except Denied (Nat × State)

/-- Read n aligned bytes at an address as the stream's engine (R219, R220). -/
def streamRead (s : State) (c t : Nat) (va : Word) (n : Nat) : Fetched :=
  if va.toNat % n ≠ 0 then .error (.fault .misalignedAccess va.toNat)
  else unitRead s (s.agentOf c t) c (s.coreCtx c) (s.thread c t).sv [(va.toNat, n)]

/-- Entry i of the index or pointer array (R219). -/
def streamIndex (s : State) (c t : Nat) (d : StreamDesc) (i : Nat) : Fetched :=
  streamRead s c t (d.b + word (i * d.iw)) d.iw

/-- Read element i of a stream (R219): its value and its coordinate. -/
def readElem (s : State) (c t : Nat) (d : StreamDesc) (i : Nat) : Except Denied (Nat × Nat × State) :=
  match d.kind with
  | 0 => (streamRead s c t (d.a + word i * d.b) d.w).map fun r => (r.1, 0, r.2)
  | 1 =>
    match streamIndex s c t d i with
    | .error e => .error e
    | .ok (x, s) => (streamRead s c t (d.a + word x * word d.w) d.w).map fun r => (r.1, 0, r.2)
  | _ =>
    match streamRead s c t (d.a + word (i * d.w)) d.w with
    | .error e => .error e
    | .ok (v, s) => (streamRead s c t (d.c + word (i * d.iw)) d.iw).map fun r => (v, r.1, r.2)

/-- The global reads that an element takes (R113, R219). -/
def elemEntries (d : StreamDesc) : Nat := if d.kind = 0 then 1 else 2

/-- Deliver the element at pos, from the queue or by reading it now; a poisoned element raises its fault as a
deferred one (R220). -/
def deliverElem (r : StreamReg) (i : Nat) : M (Word × Word) := do
  match r.queue.find? (·.idx == i) with
  | some e =>
    match e.fault with
    | some (c, a) => throw (.trap c a true)
    | none => return (e.val, e.coord)
  | none =>
    let s ← get
    let n := elemEntries (streamDesc r.desc)
    if !engineFree s s.cid n then waitFor .reg
    match readElem s s.cid s.tid (streamDesc r.desc) i with
    | .ok (v, x, s') =>
      set (engineHold s' s.cid n)
      return (word v, word x)
    | .error (.held w) => waitFor w
    | .error (.fault .notPresent va) => throw (.absent (word va) 1 true)
    | .error (.fault c va) => throw (.trap c (word va) true)

/-- Pass n elements: the queue keeps what lies ahead. -/
def StreamReg.advance (r : StreamReg) (n : Nat) : StreamReg :=
  { r with pos := r.pos + n, queue := r.queue.filter fun e => decide (r.pos + n ≤ e.idx) }

/-- A stream that closes, or passes over what its engine reads, cancels the read: an item of the page-fault service for
it comes to nothing (R220, R221). -/
def cancelReads (s : State) (c t n : Nat) : State :=
  { s with pageItems := s.pageItems.filter fun (i : PageItem) =>
      match i.asker with
      | .stream d u m _ => !(d == c && u == t && m == n)
      | _ => true }

/-- SOPEN: the descriptor is placed, read and checked (R219, R221, R422). -/
def execSopen (a b : BitVec 5) (s : State) : Out :=
  run (.sopen a b) s do
    let x ← readX b
    checkPlaced (placedOpen s.myCore x.toNat 32 32)
    let w := BitVec.ofNat 256 (← lRead x.toNat 32)
    need (!(streamDesc w).bad) .descriptorFormat x
    modify fun s => cancelReads s s.cid s.tid a.toNat
    setStream a ⟨w, 0, none, 0, []⟩
    if (streamDesc w).kind ≠ 2 ∧ (streamDesc w).count ≠ 0 then emitM (.streamReadAhead s.cid s.tid a.toNat)

/-- SPOP (R221). -/
def execSpop (d a : BitVec 5) (s : State) : Out :=
  run (.spop d a) s do
    let r ← openStream a
    if (streamDesc r.desc).kind = 2 then
      if d.toNat % 2 ≠ 0 ∨ d = 30#5 then illegal
      else if r.remaining = 0 then
        writeX d 0
        writeX (d + 1) (BitVec.allOnes 64)
      else
        let (v, x) ← deliverElem r r.pos
        setStream a (r.advance 1)
        writeX d v
        writeX (d + 1) x
    else
      need (r.remaining != 0) .streamOverrun 0
      let (v, _) ← deliverElem r r.pos
      setStream a (r.advance 1)
      writeX d v

/-- VSPOP (R221). -/
def execVspop (d a : BitVec 5) (s : State) : Out :=
  run (.vspop d a) s do
    let r ← openStream a
    let w := (streamDesc r.desc).w
    let n := Nat.min r.remaining (512 / w)
    need (n != 0) .streamOverrun 0
    let es ← mapM' (fun i => do return (← deliverElem r (r.pos + i)).1) (List.range n)
    setStream a (r.advance n)
    let old := s.me.getV d.toNat
    let low := ((List.range n).zip es).map fun e => e.2.toNat * 2 ^ (8 * w * e.1)
    writeV d (BitVec.ofNat 4096 (old.toNat / 2 ^ (8 * w * n) * 2 ^ (8 * w * n) + low.sum))

/-- SADV (R221). -/
def execSadv (a b : BitVec 5) (s : State) : Out :=
  run (.sadv a b) s do
    let x ← readX b
    let r ← openStream a
    setStream a (r.advance (Nat.min x.toNat r.remaining))

/-- STEND (R221). -/
def execStend (d a : BitVec 5) (s : State) : Out :=
  run (.stend d a) s do
    let r ← openStream a
    writeX d (word r.remaining)

/-- A pointer of a fibre: its read takes an entry of the engines' pool, and a fault of it poisons the fibre (R113, R220). -/
def pointer (d : StreamDesc) (i : Nat) : M Nat := do
  let s ← get
  if !engineFree s s.cid 1 then waitFor .reg
  match streamIndex s s.cid s.tid d i with
  | .ok (v, s') =>
    set (engineHold s' s.cid 1)
    return v
  | .error (.held w) => waitFor w
  | .error (.fault .notPresent va) => throw (.absent (word va) 1 true)
  | .error (.fault c va) => throw (.trap c (word va) true)

/-- SFIB (R221). Past the last fibre pos is Ptr(count) and nothing remains. -/
def execSfib (d a : BitVec 5) (s : State) : Out :=
  run (.sfib d a) s do
    let r ← openStream a
    let sd := streamDesc r.desc
    need (sd.kind == 2) .streamState 0
    let f := match r.fib with
      | none => 0
      | some f => f + 1
    if sd.count ≤ f then
      let e ← pointer sd sd.count
      setStream a { r with fib := if sd.count = 0 then none else some (sd.count - 1), pos := e, last := e, queue := [] }
      writeX d (BitVec.allOnes 64)
    else
      let p ← pointer sd f
      let e ← pointer sd (f + 1)
      need (decide (p ≤ e)) .descriptorFormat (sd.b + word ((f + 1) * sd.iw))
      setStream a { r with fib := some f, pos := p, last := e, queue := [] }
      if p < e then emitM (.streamReadAhead s.cid s.tid a.toNat)
      writeX d (word f)

/-- SCLOSE (R221). -/
def execSclose (a : BitVec 5) (s : State) : Out :=
  run (.sclose a) s do
    modify fun s => cancelReads s s.cid s.tid a.toNat
    modMe fun t => { t with streams := SMap.del t.streams a.toNat }

/-- A read-ahead of a stream puts an element, or its fault, into the queue. -/
def queueElem (s : State) (c t n : Nat) (r : StreamReg) (e : StreamElem) : State :=
  let th := s.thread c t
  s.setThread c t { th with streams := th.streams.set n { r with queue := r.queue ++ [e] } }

/-- The next element that a stream's engine reads: none when the queue is full or nothing remains. -/
def nextAhead (r : StreamReg) : Option Nat :=
  let i := (r.queue.map (·.idx + 1)).foldl Nat.max r.pos
  if r.queue.length < 64 ∧ i < r.pos + r.remaining then some i else none

/-- STREAM_READ_AHEAD: the engine reads the next element into its queue; a fault poisons it, and a not-present page
goes first to the page-fault service (R220). The engine of a fenced core reaches nothing (R315).
(DEDUCED, unsafe, log 96) -/
def execStreamReadAhead (s : State) : Out :=
  match s.item with
  | some (.streamReadAhead c t n) =>
    runStep (.streamReadAhead c t n) s fun s =>
      match (s.thread c t).streams.find? n with
      | none => some s
      | some r =>
        let asked := s.pageItems.any fun (i : PageItem) => match i.asker with
          | .stream d u m j => d == c && u == t && m == n && some j == nextAhead r
          | _ => false
        if (s.core c).fenced || asked || !engineFree s c (elemEntries (streamDesc r.desc)) then none
        else
          match nextAhead r with
          | none => if r.queue.length < r.remaining then none else some s
          | some i =>
            let again := fun (s : State) => s.emit (.streamReadAhead c t n)
            match readElem s c t (streamDesc r.desc) i with
            | .ok (v, x, s') => some (again (queueElem (engineHold s' c (elemEntries (streamDesc r.desc))) c t n r ⟨i, word v, word x, none⟩))
            | .error (.held _) => none
            | .error (.fault .notPresent va) =>
              if s.pageItems.any fun i => i.asker == .thread c t true && i.va == word va then none
              else some (again (askPage s (s.coreCtx c) (s.coreQueue c) c 6 (word va) 1 (.stream c t n i)).2)
            | .error (.fault cause va) => some (again (queueElem s c t n r ⟨i, 0, 0, some (cause, word va)⟩))
  | _ => .next s

end Sys2Proof.Machine
end

