-- ==== Sys2Proof/Machine/Slice.lean ====
section
/-! DEFINITION. The steps of memory: replies and refusals, walks, fills and evictions of
slices, and the base die's errors (R86, R87, R97 to R99, R107, R108, R113 to R115, R392, R393). -/

namespace Sys2Proof.Machine

/-! ### Slices -/

/-- A sector leaves its slice: a modified or zero-flagged one is written to memory, whole, which clears its poison (R87,
R108). -/
def evictSector (s : State) (slice sector : Nat) : State :=
  match s.sectors.find? (sectorKey slice sector) with
  | none => s
  | some e =>
    let s := { s with sectors := SMap.del s.sectors (sectorKey slice sector) }
    if e.modified || e.zero then
      { s with mem := Mem.write s.mem (32 * sector) 32 e.data.toNat, poison := s.poison.filter (· ≠ sector) }
    else s

/-- Drop the replicas of a sector. -/
def dropReplicas (s : State) (sector : Nat) : State := { s with replicas := s.replicas.filter fun r => r.sector != sector }

/-- The sectors that slices hold under a seed (R104): slice and sector. -/
def sectorsUnder (s : State) (seed : Word) : List (Nat × Nat) :=
  (s.sectors.map fun e => (e.1 / 2 ^ 41, e.1 % 2 ^ 41)).filter fun p => homeSlice s seed (32 * p.2) == p.1

/-- LINE_EVICTION: a slice gives up a line and its replicas of it; a sector that an agent holds stays until it is given up (R107, R108). -/
def execLineEviction (s : State) : Out :=
  match s.item with
  | some (.lineEviction n l) =>
    runStep (.lineEviction n l) s fun s =>
      let secs := (List.range 4).map (4 * l + ·)
      if s.holds.any fun h => h.slice == n && secs.contains h.sector then none
      else
        let s := secs.foldl (fun s t => evictSector s n t) s
        some { s with replicas := s.replicas.filter fun r => !(r.slice == n && r.sector / 4 == l) }
  | _ => .next s

/-- All four sectors of a line are zero-flagged: it takes a tag entry and no way (R109). -/
def zeroLine (s : State) (n l : Nat) : Bool :=
  (List.range 4).all fun i => match s.sectors.find? (sectorKey n (4 * l + i)) with
    | some e => e.zero
    | none => false

/-- The lines that take a way: slice and line, of data, and of replicas (R16, R109, R111). -/
def dataLines (s : State) : List (Nat × Nat) :=
  ((s.sectors.map fun e => (e.1 / 2 ^ 41, e.1 % 2 ^ 41 / 4)).eraseDups).filter fun p => !zeroLine s p.1 p.2
def replicaLines (s : State) : List (Nat × Nat) :=
  ((s.replicas.map fun r => (r.slice, r.ctx, r.sector / 4)).eraseDups).map fun p => (p.1, p.2.2)

/-- The lines that a full set may give up: those of replicas when they take more than 4 of its 16 ways, any when more than 16
are taken. A line of which a sector is held stays (R16, R111, R139). -/
def overfull (s : State) (n l : Nat) : List (Nat × Nat) :=
  let here := fun (p : Nat × Nat) => p.1 == n && Config.freeSet p.2 == Config.freeSet l
  let d := (dataLines s).filter here
  let r := (replicaLines s).filter here
  let unheld := fun (p : Nat × Nat) => !s.holds.any fun h => h.slice == p.1 && h.sector / 4 == p.2
  if 4 < r.length then r.filter unheld else if 16 < d.length + r.length then (d ++ r).filter unheld else []

/-- The line that a slice gives up because its set holds more than it has ways for, and which one it is is open (R16, R107). -/
def displaced (s : State) : Option Event :=
  if s.sectors.length ≤ 16 ∧ s.replicas.length ≤ 4 then none
  else
    (dataLines s ++ replicaLines s).findSome? fun p =>
      let vs := overfull s p.1 p.2
      (vs[Config.freeWay s.free % vs.length]?).map fun v => .lineEviction v.1 v.2

/-! ### The base die (R86, R392, R393) -/

/-- Stack and channel of an HBM address (R86). -/
def stackChannel (pa : Nat) : Nat × Nat :=
  let a := word pa
  let c := fld a 18 12 ^^^ fld a 25 19
  (4 * fld a 38 38 + c / 32, c % 32)

/-- A log entry's identity: kind, channel, lane or symbol, beat and sector (R393). -/
def logKey (kind ch lane beat sector : Nat) : Nat :=
  kind * 2 ^ 56 + ch * 2 ^ 51 + lane * 2 ^ 44 + beat * 2 ^ 41 + sector % 2 ^ 41

/-- The key of an entry of a log (0 array, 1 bus) of a stack. -/
def logPlace (log stack i : Nat) : Nat := 2048 * log + 256 * stack + i

/-- The place of the oldest entry of a stack's log: an empty one, else the one whose last event lies furthest back.
(DEDUCED, unsafe, log 35) -/
def oldestEntry (log : SMap (BitVec 128)) (times : SMap Nat) (which stack : Nat) : Nat :=
  match (List.range 256).find? fun i => log.get (256 * stack + i) 0 == 0 with
  | some i => i
  | none =>
    let t := fun (i : Nat) => times.get (logPlace which stack i) 0
    (List.range 256).foldl (fun b i => if t i < t b then i else b) 0

/-- The place in a log of an event: a matching entry, else the oldest one (R393). (DEDUCED, unsafe, log 35) -/
def logEntry (log : SMap (BitVec 128)) (times : SMap Nat) (which stack key : Nat) : Nat × Nat :=
  let hit := (List.range 256).find? fun i =>
    let e := log.get (256 * stack + i) 0
    -- the same kind, channel, lane and sector; the beat is not compared
    e != 0 && e.toNat % 2 ^ 64 / 2 ^ 44 == key / 2 ^ 44 && e.toNat % 2 ^ 41 == key % 2 ^ 41
  match hit with
  | some i => (i, Nat.min (fld (log.get (256 * stack + i) 0) 127 96 + 1) (2 ^ 32 - 1))
  | none => (oldestEntry log times which stack, 1)

/-- Log an event of a stack (R393). (DEDUCED, unsafe, log 35) -/
def logEvent (s : State) (which stack key : Nat) : State :=
  let log := if which = 0 then s.arrayLog else s.busLog
  let (i, n) := logEntry log s.logTimes which stack key
  let log := log.set (256 * stack + i) (BitVec.ofNat 128 (n * 2 ^ 96 + s.ns % 2 ^ 32 * 2 ^ 64 + key))
  let s := { s with logTimes := s.logTimes.set (logPlace which stack i) s.ns }
  if which = 0 then { s with arrayLog := log } else { s with busLog := log }

/-- Fill a sector from memory, unless it is poisoned (R107, R108). -/
def fillSector (s : State) (slice sector : Nat) : State :=
  fetchSector { s with failedFills := s.failedFills.filter (· ≠ sectorKey slice sector) } slice sector

/-- The spare lanes in use on a channel. -/
def sparesUsed (s : State) (stack ch : Nat) : Nat := (s.lanes.filter fun l => l.1 == stack && l.2.1 == ch).length

/-- How the transfer of a sector ends (R392): `streak` is how many retries in a row have failed on lane `last`, `first` that
the next attempt is no retry. Every failure has an entry of kind 2; when the third retry in a row fails on a lane, a spare
takes its place with an entry of kind 3, and one more attempt decides. Without a spare the read fails.
(DEDUCED, unsafe, log 34) -/
def transfer (st ch : Nat) (log : State → Nat → Nat → Nat → State) : State → Nat → Nat → Bool → List (BitVec 3 × BitVec 6) → Bool × State
  | s, _, _, _, [] => (true, s)
  | s, last, streak, first, (b, l) :: fs =>
    let s := log s 2 l.toNat b.toNat
    let n := if first then 0 else if l.toNat = last then streak + 1 else 1
    if n < 3 then transfer st ch log s l.toNat n false fs
    else if sparesUsed s st ch < 2 then
      let s := { s with lanes := s.lanes ++ [(st, ch, l.toNat, 64 + sparesUsed s st ch)] }
      let s := log s 3 l.toNat b.toNat
      match fs with
      | [] => (true, s)
      | (b, l) :: _ => (false, log s 2 l.toNat b.toNat)
    else (false, s)

/-- The read of a sector on its way up, with what the base die meets (R87, R89, R392). (DEDUCED, unsafe, log 34) -/
def carrySector (s : State) (slice sector : Nat) (ev : BusEvent) : State :=
  let pa := 32 * sector
  let hbm := decide (pa < 2 ^ 39)
  let (st, ch) := stackChannel pa
  let arr := fun (s : State) (kind sym : Nat) => if hbm then logEvent s 0 st (logKey kind ch sym 0 sector) else s
  let bus := fun (s : State) (kind lane beat : Nat) => if hbm then logEvent s 1 st (logKey kind ch lane beat sector) else s
  match ev.array with
  | .uncorrectable y =>
    let s := arr s 1 y.toNat
    { s with poison := if s.poison.contains sector then s.poison else sector :: s.poison }
  | a =>
    let s := match a with
      | .corrected y => arr s 0 y.toNat
      | _ => s
    let (ok, s) := transfer st ch bus s 0 0 true ev.failures
    if ok then fillSector s slice sector else { s with failedFills := sectorKey slice sector :: s.failedFills }

/-- SECTOR_FILL: a slice that serves the sector for some context fetches it (R107). -/
def execSectorFill (s : State) : Out :=
  match s.item with
  | some (.sectorFill n t ev) =>
    runStep (.sectorFill n t ev) s fun s =>
      let serves := s.ctxs.any fun c => c.2.live && homeSlice s c.2.seed (32 * t) == n
      if !serves || !populated s (32 * t) || (s.sectors.find? (sectorKey n t)).isSome then none
      else some (carrySector s n t ev)
  | _ => .next s

/-- CHANNEL_CONTROLLER_LOSS: the neighbour's controller serves the channel, and its data stay (R392). -/
def execChannelControllerLoss (s : State) : Out :=
  match s.item with
  | some (.channelControllerLoss st ch) =>
    runStep (.channelControllerLoss st ch) s fun s =>
      some { s with lostChannels := if s.lostChannels.contains (st, ch) then s.lostChannels else s.lostChannels ++ [(st, ch)] }
  | _ => .next s

/-! ### Replies and refusals -/

/-- LOAD_REPLY: the home slice has answered, and the entries and registers are free (R113, R114); slot 5 stands for the
engines, whose answer names how many entries it frees. -/
def execLoadReply (s : State) : Out :=
  match s.item with
  | some (.loadReply c t tag) =>
    runStep (.loadReply c t tag) s fun s =>
      if t = 5 then
        let k := s.core c
        some (s.setCore c { k with engine := k.engine - tag })
      else
        let th := s.thread c t
        let s := match th.requests.find? fun r => r.tag == tag && r.load with
          | some r => monitorEvent s (some c) 0 0 3 (s.coreCtx c) (s.cycle - r.at_)
          | none => s
        some (s.setThread c t { th with requests := th.requests.filter fun r => r.tag != tag })
  | _ => .next s

/-- STORE_REFUSED: the thread traps at the store's bundle with the registers it had there; what later bundles have
sent remains, and a store of theirs that is refused too comes to nothing (R115, R118, R120).
(DEDUCED, safe, log 20) -/
def execStoreRefused (s : State) : Out :=
  match s.item with
  | some (.storeRefused c t) =>
    runStep (.storeRefused c t) s fun s =>
      let k := s.core c
      match k.refused.find? fun r => r.slot == t with
      | none => some s
      | some r =>
        let s := s.setCore c { k with refused := k.refused.filter fun q => q.slot != t }
        let now := k.thread t
        if now.strand ≠ .running ∧ t ≠ 4 then some (threadFault s c t .uncorrectableError r.addr 0)
        else
          let th := { r.thread with
            seq := now.seq, hbcount := now.hbcount, latch := now.latch, requests := now.requests, strand := now.strand,
            task := now.task, initial := now.initial, rfstat := now.rfstat, wait := .none, progress := none }
          let s := s.setThread c t th
          let i : Issue := { Issue.reset with lone := r.lone, w0 := r.w0, w1 := r.w1 }
          some (takeTrap { s with cur := (c, t), issue := i } .uncorrectableError r.addr false)
  | _ => .next s

/-! ### Walks -/

/-- PAGE_WALK: a walker's new walk for an address replaces what the core's TLBs held for it; it sets A, and D only when a
write is to follow, which makes its own walk (R97 to R99). It waits while an entry is held (R139). -/
def execPageWalk (s : State) : Out :=
  match s.item with
  | some (.pageWalk c x va nd sup) =>
    runStep (.pageWalk c x va nd sup) s fun s =>
      let nd : Rights := if needsWrite nd then .read else nd
      let k := s.core c
      let s := s.setCore c { k with tlb := k.tlb.filter fun e => !(e.ctx == x && va.toNat / 2 ^ e.size == e.page) }
      if walkHeld s .other c x nd va.toNat then none
      else
        match xlate s c x va.toNat nd sup with
        | .ok p => some (applyWalk s c x p)
        | .error _ => some s
  | _ => .next s

end Sys2Proof.Machine
end

