-- ==== Sys2Proof/Machine/Sys.lean ====
section
/-! DEFINITION. SYS: system calls, returns from traps, checked pairs' rendezvous, and cache and translation control
(R372 to R379). -/

namespace Sys2Proof.Machine

/-- SYSCALL completes and then traps; in a pair the bundle takes the trap after both slots (R373). -/
def execSyscall (s : State) : Out :=
  if legalHere s .syscall && !s.sup then
    if s.issue.lone then .next (takeTrapAt s s.fall .syscall 0 false) else .next (complete s)
  else .next (takeTrap s .illegalInstruction 0 false)

/-- The doublewords of a frame. -/
def frameWords (n : Nat) : List Word := (List.range 64).map fun i => word (n / 2 ^ (64 * i))

/-- TRET (R374). (DEDUCED, safe, log 47) -/
def execTret (s : State) : Out :=
  run .tret s do
    let t := s.me
    need (s.issue.lone && (t.sv || t.ha)) .illegalInstruction 0
    let fr ← (if t.sv then gReadRange t.sframe.toNat 512 ((List.range 29).map (· + 1))
      else do
        checkLocal t.fframe.toNat 512
        lRead t.fframe.toNat 512)
    let ws := frameWords fr
    need (!infoReserved (ws.getD 1 0)) .descriptorFormat (if t.sv then t.sframe else t.fframe)
    modMe fun t => returnFrom t ws
    -- the low two bits of a pc are always zero (R26)
    modify fun s => { s with issue := { s.issue with next := some (ws.getD 0 0 &&& ~~~3) } }

/-- WFI: until the event latch is set, or a pre-emption or a stop comes (R375). -/
def execWfi (s : State) : Out :=
  run .wfi s do
    need s.sup .illegalInstruction 0
    if s.me.latch || s.me.wait == .interrupt true then pure () else waitFor (.interrupt false)

/-! ### Checked pairs (R12, R379) -/

/-- The pair partner of a core. -/
def partnerOf (c : Nat) : Nat := if c % 2 = 0 then c + 1 else c - 1

/-- Compute threads of a core that are bound. -/
def boundThreads (k : Core) : List Nat := (List.range 4).filter fun t => (k.thread t).strand != .unbound

/-- Every bound compute thread of a core, but for one that is executing, waits in w. -/
def allWait (s : State) (c : Nat) (w : Wait) : Bool :=
  (boundThreads (s.core c)).all fun t => (c, t) == s.cur || ((s.core c).thread t).wait == w

/-- Every bound compute thread of a core waits in w. -/
def Core.allIn (k : Core) (w : Wait) : Bool := (boundThreads k).all fun t => (k.thread t).wait == w

/-- Give every bound compute thread a wait. -/
def Core.setWaits (k : Core) (w : Wait) : Core :=
  { k with threads := k.threads.map fun p => if p.1 < 4 && p.2.strand != .unbound then (p.1, { p.2 with wait := w }) else p }

/-- The follower takes the leader's registers, local memory, full/empty bits and barriers, and its own are discarded: its
copies, its deque, its parked strands and the joins that are due with them (R379). (DEDUCED, unsafe, log 92) -/
def mirrorCore (leader follower : Core) : Core :=
  { follower with
    threads := (follower.threads.filter fun p => decide (4 ≤ p.1)).foldl (fun m p => SMap.set m p.1 p.2)
      (leader.threads.filter fun p => decide (p.1 < 4))
    lmem := leader.lmem, full := leader.full, barriers := leader.barriers
    copies := [], deque := [], pushes := [], parked := [], runs := [] }

/-- A checked pair's agreed point: its threads as they stand, and the CRC of each begins again (R381, R382). -/
def agree (k : Core) : Core :=
  let ths := k.threads.map fun p => (p.1, { p.2 with crc := 0 })
  { k with threads := ths, agreed := ths }

/-- The pair forms: the rendezvous of every thread is over (R379). (DEDUCED, unsafe, log 92) -/
def formPair (s : State) (l f : Nat) : State :=
  -- what the follower's copies and threads wait for or hold is discarded too
  let s := (s.core f).copies.foldl (fun s p => dropHolds s (.copy f p.1)) s
  let s := { s with pageItems := s.pageItems.filter fun (i : PageItem) =>
    match i.asker with | .thread d _ _ | .frame d _ | .stream d _ _ _ | .copy d _ => d != f | _ => true }
  let kl := { (s.core l).setWaits .paired with pair := .leader f, bundles := 0, undo := [] } |> agree
  let kf := { mirrorCore kl (s.core f) with pair := .follower l }
  (s.setCore l kl).setCore f kf

/-- PAIR (R379). (DEDUCED, unsafe, log 92) -/
def execPair (d : BitVec 5) (s : State) : Out :=
  run (.pair d) s do
    let c := s.cid
    let p := partnerOf c
    let l := Nat.min c p
    if s.me.wait = .paired then writeX d (word l)
    else
      need (s.inLaunch p) .invalidTarget 0
      let chk := match s.myCore.bound with | some b => b.ld.chk | none => false
      need (s.myCore.pair == .none && !chk) .pairState 0
      if launchHere s p (s.coreOrder c) == some true && allWait s c .pairing && allWait s p .pairing then
        modify fun s => formPair s l (partnerOf l)
        throw (.park .paired)
      else throw (.park .pairing)

/-- UNPAIR: the last thread ends the interval with a comparison, which decouples the cores (R379, R381). -/
def execUnpair (d : BitVec 5) (s : State) : Out :=
  run (.unpair d) s do
    if s.me.wait = .paired then writeX d (word s.cid)
    else
      need (s.myCore.pair != .none) .pairState 0
      if allWait s s.cid .unpairing then emitM (.intervalCompare s.cid .agree)
      throw (.park .unpairing)

/-- PAIR_TIMEOUT: a PAIR has waited longer than FETIMEOUT (R379). -/
def execPairTimeout (s : State) : Out :=
  match s.item with
  | some (.pairTimeout c t) =>
    runStep (.pairTimeout c t) s fun s =>
      let th := s.thread c t
      let limit := if th.fetimeout = 0 then 2 ^ 40 else th.fetimeout.toNat
      if th.wait = .pairing ∧ th.since + limit < s.cycle then some (trapThread s c t .pairState 0 false) else none
  | _ => .next s

/-! ### Translations, seeds and slices -/

/-- Drop translations of a context in every core (R376). -/
def dropTlb (s : State) (x : Nat) (va : Option Nat) : State :=
  let gone := fun (e : TlbEntry) => e.ctx == x && (match va with | none => true | some a => a / 2 ^ e.size == e.page)
  { s with cores := s.cores.map fun c => (c.1, { c.2 with tlb := c.2.tlb.filter fun e => !gone e }) }

/-- TLBINV (R376). -/
def execTlbinv (a b : BitVec 5) (s : State) : Out :=
  run (.tlbinv a b) s do
    need s.sup .illegalInstruction 0
    let x ← readX a
    let y ← readX b
    need (decide (y.toNat ≤ 1)) .operandRange 0
    modify fun s => dropTlb s s.myCtx (if y = 0 then none else some x.toNat)

/-- Write back and drop every sector that slices hold under a seed (R106). -/
def flushSeed (s : State) (seed : Word) : State := (sectorsUnder s seed).foldl (fun s p => evictSector s p.1 p.2) s

/-- The seed group of a context (R105). -/
def seedGroup (s : State) (seed : Word) : List Nat := (s.ctxs.filter fun c => c.2.live && c.2.seed == seed).map (·.1)

/-- A context takes a seed, and its descriptor shows it (R348, R377). (DEDUCED, safe, log 52) -/
def installSeed (s : State) (c : Nat) (x : Word) : State :=
  { s.setCtx c { s.ctx c with seed := x } with dev := Mem.write s.dev (64 * c + 8) 8 x.toNat }

/-- The context for which a sector is held: that of its thread's or its copy's launch. -/
def holdCtx (s : State) (h : Hold) : Nat :=
  match h.owner with
  | .thread c _ => s.coreCtx c
  | .copy c p => ((s.core c).copies.find? p).elim 0 (·.ctx)
  | .host | .other => 0

/-- What a group's agents hold goes on being held at the home slices of the new seed: each access that is held runs under
the new seed (R106). (DESIGN CHOICE, unsafe, log 95) -/
def moveHolds (s : State) (group : List Nat) (old new : Word) : State :=
  { s with holds := s.holds.map fun (h : Hold) =>
      if group.contains (holdCtx s h) && h.slice == homeSlice s old (32 * h.sector) then { h with slice := homeSlice s new (32 * h.sector) }
      else h }

/-- SEEDSET (R106, R377). (DEDUCED, safe, log 52; DESIGN CHOICE, unsafe, log 95) -/
def execSeedset (a : BitVec 5) (s : State) : Out :=
  run (.seedset a) s do
    need s.sup .illegalInstruction 0
    let x ← readX a
    let old := s.mySeed
    let group := seedGroup s old
    modify fun s =>
      let s := moveHolds (flushSeed s old) group old x
      let s := { s with replicas := s.replicas.filter fun r => !group.contains r.ctx }
      group.foldl (fun s c => installSeed s c x) s

/-- Translate the sectors of a range in order. -/
def flushParts (s : State) : List (Nat × Nat) → M Unit
  | [] => pure ()
  | (va, _) :: ps =>
    if walkHeld s s.agent s.cid s.myCtx .read va then waitFor (walkWait s s.agent s.cid s.myCtx .read [va])
    else match xlate s s.cid s.myCtx va .read s.sup with
    | .error c => xlatFault .read c va
    | .ok x =>
      if partHeld s s.agent s.mySeed x then waitFor (partsWait s s.agent s.mySeed [x])
      else do
        modify fun s =>
          let s := applyXlat s s.cid s.myCtx x
          dropReplicas (evictSector s (homeSlice s s.mySeed x.pa) (x.pa / 32)) (x.pa / 32)
        flushParts s ps

/-- CFLUSH (R378). (DEDUCED, unsafe, log 82) -/
def execCflush (a b : BitVec 5) (s : State) : Out :=
  run (.cflush a b) s do
    let x ← readX a
    let y ← readX b
    need (x.toNat % 32 == 0) .misalignedAccess x
    need (y.toNat % 32 == 0 && decide (y.toNat ≤ 2 ^ 30)) .operandRange 0
    if !poolHas s 1 then waitFor .reg
    else
      flushParts s ((List.range (y.toNat / 32)).map fun i => (x.toNat + 32 * i, 32))
      request 1 []

end Sys2Proof.Machine
end

