-- ==== Sys2Proof/Machine/Queue.lean ====
section
/-! DEFINITION. Contexts, hardware queues, their commands and the dispatch decision (R348 to R354, R359, R386, R423). -/

namespace Sys2Proof.Machine

/-! ### Contexts (R348, R349) -/

/-- Write every modified sector under a seed back to memory; the slices keep it (R349, R388). -/
def writeBackSeed (s : State) (seed : Word) : State :=
  (sectorsUnder s seed).foldl (fun s p =>
    let key := sectorKey p.1 p.2
    match s.sectors.find? key with
    | some e =>
      if e.modified then
        { s with
          mem := Mem.write s.mem (32 * p.2) 32 e.data.toNat
          poison := s.poison.filter (· ≠ p.2)
          sectors := s.sectors.set key { e with modified := false } }
      else s
    | none => s) s

/-- A reserved bit of a context descriptor is set (R348). -/
def ctxReserved (d : BitVec 512) : Bool :=
  fld d 511 448 ≠ 0 || fld d 447 390 ≠ 0 || fld d 63 47 ≠ 0 || fld d 7 4 ≠ 0

/-- A domain descriptor (R157), none when it is refused. -/
def domainDesc (n : Nat) : Option Domain :=
  let w := BitVec.ofNat 128 n
  if fld w 63 9 ≠ 0 ∨ fld w 7 5 ≠ 0 ∨ (bit w 8 ∧ fld w 4 0 ≠ 0) then none
  else some ⟨word (fld w 127 64), bit w 8, fld w 4 0⟩

/-- The descriptors of the eight domains; none when one is refused. -/
def domainDescs (n : Nat) : Nat → Option (List Domain)
  | 0 => some []
  | k + 1 => (domainDescs n k).bind fun ds => (domainDesc (n / 2 ^ (128 * k) % 2 ^ 128)).map fun d => ds ++ [d]

/-- A context as its descriptor gives it, before its domains are read. (DEDUCED, unsafe, log 78) -/
def newContext (s : State) (d : BitVec 512) : Context :=
  { Context.reset with
    live := true, modes := word (fld d 447 384), spill := word (fld d 383 320), qbase := word (fld d 319 256)
    hndbase := word (fld d 255 192), lawbase := word (fld d 191 128), seed := word (fld d 127 64)
    root := BitVec.ofNat 39 (fld d 46 8), ns0 := s.ns }

/-- Create a context, or record why it is not created (R349). None while another agent holds a sector that the check reads
(R139). -/
def createContext (s : State) (x : Nat) (d : BitVec 512) : Option State :=
  let refuse := fun (n : Nat) => s.setCtx x { s.ctx x with live := false, cstat := BitVec.ofNat 3 n }
  if ctxReserved d then some (refuse 2)
  else
    let cx := newContext s d
    match dispRead (s.setCtx x cx) x (cx.lawbase.toNat + 0x4000) 128 with
    | .error (.held _) => none
    | .error _ => some (refuse 1)
    | .ok (n, t) =>
      match domainDescs n 8 with
      | none => some (refuse 1)
      | some ds =>
        let s := t.setCtx x { cx with domains := ds }
        some { s with queues := (List.range 16).foldl (fun (m : SMap Queue) q => SMap.del m (16 * x + q)) s.queues }

/-- CONTEXT_CREATE: the write that sets V from 0 to 1 (R349). -/
def execContextCreate (s : State) : Out :=
  match s.item with
  | some (.contextCreate x d) =>
    runStep (.contextCreate x d) s fun s => if (s.ctx x).live then some s else createContext s x d
  | _ => .next s

/-- A context has work: a bound launch, or a command that is accepted and not completed (R349). -/
def contextBusy (s : State) (x : Nat) : Bool :=
  s.cores.any (fun p => match p.2.bound with | some b => b.record.ctx == x | none => false)
  || (List.range 16).any fun q => (s.queue x q).done != (s.queue x q).accepted

/-- Destroy a context (R349). -/
def destroyContext (s : State) (x : Nat) : State :=
  let s := dropTlb s x none
  let s := { s with
    subs := s.subs.filter fun u => u.ctx != x
    cores := s.cores.map fun p => (p.1, { p.2 with
      inbound := p.2.inbound.filter fun m => m.ctx != x
      deliveries := p.2.deliveries.filter fun m => m.1.ctx != x
      spilled := p.2.spilled.filter fun m => m.2.ctx != x
      redo := p.2.redo.filter fun r => r.1.ctx != x })
    replicas := s.replicas.filter fun r => r.ctx != x
    pageItems := s.pageItems.filter fun i => i.ctx != x
    triage := s.triage.filter fun i => i.ctx != x
    queues := (List.range 16).foldl (fun (m : SMap Queue) q => SMap.del m (16 * x + q)) s.queues }
  let s := writeBackSeed s (s.ctx x).seed
  s.setCtx x { s.ctx x with live := false, cstat := 0, regions := [], lawCache := [] }

/-- The write that clears V is refused, with the root that it carried (R349). -/
def refuseDestroy (s : State) (x : Nat) : State :=
  let s := { s with dev := Mem.write s.dev (64 * x) 8 (256 * (s.ctx x).root.toNat + 1) }
  s.setCtx x { s.ctx x with cstat := 3 }

/-- CONTEXT_DESTROY: the write that clears V (R349). -/
def execContextDestroy (s : State) : Out :=
  match s.item with
  | some (.contextDestroy x) =>
    runStep (.contextDestroy x) s fun s =>
      some (if !(s.ctx x).live then s
        else if contextBusy s x then refuseDestroy s x
        else destroyContext s x)
  | _ => .next s

/-! ### Queues (R351, R423) -/

/-- The completion record of a command, its command advanced past (R354): seqc, the status and the done word. -/
def recordNat (r : Nat × Nat × BitVec 128) : Nat := r.1 * 2 ^ 256 + r.2.2.toNat * 2 ^ 320 + r.2.1 * 2 ^ 448

/-- Where the command with a sequence number lies (R351). (DEDUCED, unsafe, log 78) -/
def cmdAddr (k : Queue) (n : Nat) : Nat := k.cbase.toNat + 128 * (n % 2 ^ (k.lcmd + 4))

/-- Fenced cores rejoin dispatch (R385). (DEDUCED, unsafe, log 69) -/
def liftFences (s : State) (cs : List Nat) : State := cs.foldl (fun s c => s.setCore c { s.core c with fenced := false }) s

/-- Write a completion record, then done, and go on with the queue (R354, R388). The record is held while another agent
holds a sector and while the page-fault service runs; a fault gives the queue state 3 (R139, R423). -/
def putRecord (s : State) (x q : Nat) (r : Nat × Nat × BitVec 128) : State :=
  let k := s.queue x q
  let hold := s.setQueue x q { k with heldRecord := some r }
  let fail := fun (d : Denied) =>
    match d with
    | .held _ => hold.emit (.commandAccept x q)
    | .fault .notPresent va => askQueuePage hold x q va
    | .fault _ va => failQueue hold x q va
  match dispStore s x (cmdAddr k r.1 + 64) 64 (recordNat r) with
  | .error e => fail e
  | .ok s' =>
    match dispStore s' x (queueHdr s x q + 32) 8 r.1 with
    | .error e => fail e
    | .ok s =>
      let k := s.queue x q
      (liftFences (s.setQueue x q { k with
        done := r.1, accepted := Nat.max k.accepted r.1, cmd := none, decided := false, heldRecord := none, fences := [] })
        k.fences).emit (.commandAccept x q)

/-- A command completes with a status and a done word (R354). A queue that waited runs again. -/
def finishCommand (s : State) (x q status : Nat) (w : BitVec 128) : State :=
  match (s.queue x q).cmd with
  | none => s
  | some c =>
    let s := if (s.queue x q).state = 1 then setQState s x q 0 else s
    putRecord s x q (c.seq, status, w)

/-- A queue's held completion record, then its held notices, go out as far as they can (R423). -/
def flushQueue (s : State) (x q : Nat) : State :=
  let s := match (s.queue x q).heldRecord with | some r => putRecord s x q r | none => s
  if (s.queue x q).heldRecord.isSome then s else flushNotices s x q (s.queue x q).heldNotices

/-- A queue as its header gives it (R351); none when the header is bad. -/
def queueOf (k : Queue) (h : BitVec 512) : Option Queue :=
  if fld h 111 0 ≠ 0 ∨ 12 ≤ fld h 127 124 ∨ 12 ≤ fld h 123 120 then none
  else
    let w := fld h 117 114
    some { k with
      live := true, cbase := word (fld h 511 448), lcmd := fld h 127 124, nbase := word (fld h 255 192), lnote := fld h 123 120
      level := fld h 119 118, weight := w, accepted := fld h 383 320, done := fld h 319 256, nwr := fld h 191 160
      credit := w }

/-- The state of a queue that is enabled: a wait that was under way goes on (R351, R354). (DEDUCED, unsafe, log 54) -/
def enabledState (k : Queue) : Nat := match k.cmd with | some c => if c.kind = 2 then 1 else 0 | none => 0

/-- A weight of 0 disables a queue (R351, R386). -/
def disableQueue (s : State) (x q : Nat) : State := setQState (s.setQueue x q { s.queue x q with live := true, weight := 0 }) x q 3

/-- A queue is enabled: what it holds back is written first, and a launch at its head is ready from now (R351, R359,
R423). -/
def enableQueue (s : State) (x q : Nat) (k : Queue) : State :=
  let head := match k.cmd with | some c => c.kind == 0 && !k.decided | none => false
  let k := if head then { k with age := s.cycle } else k
  let s := setQState (s.setQueue x q k) x q (enabledState k)
  let s := if (s.queue x q).stateDue then s else flushQueue s x q
  let s := s.emit (.commandAccept x q)
  if head then s.emit .dispatchDecision else s

/-- QUEUE_ENABLE: dispatch reads the header when its weight has become nonzero (R351). A weight of 0 disables the queue
(R386). (DEDUCED, unsafe, log 53; DEDUCED, unsafe, log 78) -/
def execQueueEnable (s : State) : Out :=
  match s.item with
  | some (.queueEnable x q) =>
    runStep (.queueEnable x q) s fun s =>
      if !(s.ctx x).live then some s
      else
        match dispRead s x (queueHdr s x q) 64 with
        | .error d =>
          -- a header that cannot be read is read afresh only after a weight of 0
          deniedFate s x 0 0 1 (fun _ va s =>
            let k := s.queue x q
            some (failQueue (s.setQueue x q { k with live := true, weight := Nat.max 1 k.weight }) x q va)) d
        | .ok (n, s) =>
          let h := BitVec.ofNat 512 n
          let k := s.queue x q
          if fld h 117 114 = 0 then some (disableQueue s x q)
          else if k.weight ≠ 0 then some s
          else
            match queueOf k h with
            | none => some (setQState (s.setQueue x q { k with live := true, weight := fld h 117 114 }) x q 3)
            | some k' => some (enableQueue s x q k')
  | _ => .next s

/-- Dispatch serves a queue: it is enabled, its header shows its state and it holds back no record (R351, R423). -/
def serves (k : Queue) : Bool := k.live && k.weight != 0 && k.state != 3 && !k.stateDue && k.heldRecord.isNone

/-- A command (R354): its fields, and whether its kind, its reserved bits and its arguments are good. -/
def readCommand (n : Nat) : Command :=
  let w := BitVec.ofNat 512 n
  let kind := fld w 71 64
  let a1 := word (fld w 191 128)
  let ok := fld w 127 72 == 0 && fld w 511 320 == 0 && decide (kind ≤ 3)
    && (kind != 0 || fld a1 5 0 == 0) && (!(kind == 1 || kind == 2) || fld a1 2 0 == 0)
  ⟨fld w 63 0, kind, a1, word (fld w 255 192), word (fld w 319 256), ok⟩

/-- The step that carries a command out. (DEDUCED, unsafe, log 55) -/
def commandEvent (x q : Nat) (c : Command) : Event :=
  match c.kind with
  | 0 => .launch x q
  | 1 => .signal x q
  | 2 => .waitForSignal x q
  | _ => .annexPolicy x q

/-- Start a command (R353, R354, R386): a flushed queue completes it with status 2, a bad one has status 3. -/
def startCommand (s : State) (x q : Nat) (c : Command) : State :=
  let s := s.setQueue x q { s.queue x q with cmd := some c }
  if (s.queue x q).state = 2 then finishCommand s x q 2 0
  else if !c.ok then finishCommand s x q 3 0
  else s.emit (commandEvent x q c)

/-- A read or a write of a queue's header or of a command has been denied (R423). -/
def queueFate (s : State) (x q access : Nat) : Denied → Option State :=
  deniedFate s x 0 0 access fun _ va s => some (failQueue s x q va)

/-- Accept the command in the next place (R352). (DEDUCED, unsafe, log 55) -/
def acceptCommand (s : State) (x q : Nat) (c : Command) : Option State :=
  let k := s.queue x q
  let n := k.accepted + 1
  if c.seq < n then some s
  else if c.seq = n then
    match dispStore s x (queueHdr s x q + 40) 8 n with
    | .error d => queueFate s x q 2 d
    | .ok s => some ((s.setQueue x q { s.queue x q with accepted := n }).emit (.commandAccept x q))
  else if k.done ≠ k.accepted then some s
  else
    match dispStore s x (queueHdr s x q + 40) 8 n with
    | .error d => queueFate s x q 2 d
    | .ok s => some (putRecord s x q (n, 3, 0))

/-- The page-fault service has been asked for what a queue holds back, and has not answered. -/
def queueAsks (s : State) (x q : Nat) : Bool := s.pageItems.any fun i => i.asker == .queue x q

/-- A queue is enabled, its header shows its state, and what it holds back may be written. -/
def inService (s : State) (x q : Nat) : Bool :=
  let k := s.queue x q
  (s.ctx x).live && k.live && k.weight != 0 && k.state != 3 && !k.stateDue && !queueAsks s x q

/-- What a queue holds back is written as far as it can be: its state first (R351, R423).
(DEDUCED, unsafe, log 101) -/
def settleQueue (s : State) (x q : Nat) : State :=
  let s := if (s.ctx x).live && (s.queue x q).stateDue && !queueAsks s x q then writeQState s x q true else s
  if inService s x q then flushQueue s x q else s

/-- COMMAND_ACCEPT: what a queue holds back is written first; then dispatch starts the next accepted command when
none runs, or looks at the next place (R352, R353, R423). -/
def execCommandAccept (s : State) : Out :=
  match s.item with
  | some (.commandAccept x q) =>
    runStep (.commandAccept x q) s fun s =>
      let s := settleQueue s x q
      let k := s.queue x q
      if !(s.ctx x).live || !serves k then some s
      else if k.cmd.isNone && decide (k.done < k.accepted) then
        match dispRead s x (cmdAddr k (k.done + 1)) 64 with
        | .error d => queueFate s x q 1 d
        | .ok (n, s) => some (startCommand (s.emit (.commandAccept x q)) x q { readCommand n with seq := k.done + 1 })
      else
        match dispRead s x (queueHdr s x q + 48) 8 with
        | .error d => queueFate s x q 1 d
        | .ok (tail, s) =>
          if tail ≤ k.accepted then some s
          else
            match dispRead s x (cmdAddr k (k.accepted + 1)) 64 with
            | .error d => queueFate s x q 1 d
            | .ok (n, s) => acceptCommand s x q (readCommand n)
  | _ => .next s

/-- The command of a queue, when it is of a kind. -/
def State.command (s : State) (x q kind : Nat) : Option Command := (s.queue x q).cmd.filter fun c => c.kind == kind

/-! ### Signals (R354) -/

/-- SIGNAL (R354): one access of the dispatch agent. -/
def execSignal (s : State) : Out :=
  match s.item with
  | some (.signal x q) =>
    runStep (.signal x q) s fun s =>
      match s.command x q 1 with
      | none => some s
      | some c =>
        match unitXlate s .other 768 x true .write c.arg1.toNat with
        | .error (.held _) => none
        | .error (.fault cause va) => unitFate s x 0 0 cause va 2 fun s => some (finishCommand s x q 3 0)
        | .ok (p, s) =>
          match writePa s (s.ctx x).seed p.pa 8 c.arg2.toNat with
          | some s => some (finishCommand s x q 0 0)
          | none => some (finishCommand s x q 3 0)
  | _ => .next s

/-- WAIT_FOR_SIGNAL: the queue enters state 1 (R354). -/
def execWaitForSignal (s : State) : Out :=
  match s.item with
  | some (.waitForSignal x q) =>
    runStep (.waitForSignal x q) s fun s =>
      match s.command x q 2 with
      | none => some s
      | some _ => some ((setQState s x q 1).emit (.signalSatisfied x q))
  | _ => .next s

/-- SIGNAL_SATISFIED: a read of the signal doubleword that is high enough completes the wait (R354). -/
def execSignalSatisfied (s : State) : Out :=
  match s.item with
  | some (.signalSatisfied x q) =>
    runStep (.signalSatisfied x q) s fun s =>
      match s.command x q 2 with
      | none => some s
      | some c =>
        match unitXlate s .other 768 x true .read c.arg1.toNat with
        | .error (.held _) => none
        | .error (.fault cause va) => unitFate s x 0 0 cause va 1 fun s => some (finishCommand s x q 3 0)
        | .ok (p, s) =>
          match readPa s (s.ctx x).seed p.pa 8 with
          | none => some (finishCommand s x q 3 0)
          | some v => if c.arg2.toNat ≤ v then some (finishCommand s x q 0 0) else none
  | _ => .next s

/-! ### Launches and dispatch decisions (R355, R359) -/

/-- A launch descriptor (R355). (DESIGN CHOICE, safe, log 89) -/
def launchDesc (n : Nat) : LaunchDesc :=
  let w := BitVec.ofNat 1024 n
  { args := (List.range 6).map fun i => word (fld w (703 + 64 * i) (640 + 64 * i))
    spbase := word (fld w 639 576), spstride := word (fld w 575 544), savebase := word (fld w 543 480)
    code := word (fld w 479 416), entry := word (fld w 415 352), first := fld w 351 342, count := fld w 341 332
    n := fld w 331 330 + 1, steal := fld w 329 328, h := fld w 327 322, cw := fld w 321 317, xw := fld w 316 312
    rst := bit w 311, chk := bit w 310, jnl := bit w 309, lsave := bit w 308 }

/-- A descriptor within the limits of R355, with R192 and the stage bits of R419. -/
def launchDescOk (n : Nat) : Bool :=
  let d := launchDesc n
  n % 2 ^ 308 == 0 && d.spstride.toNat % 16 == 0 && d.savebase.toNat % 2 ^ 12 == 0 && d.code.toNat % 2 ^ 13 == 0
  && d.entry.toNat % 4 == 0 && decide (1 ≤ d.count) && decide (d.count ≤ 768) && decide (d.first + d.count ≤ 768)
  && decide (16 ≤ d.h) && decide (d.h ≤ 34) && decide (d.cw ≤ 16) && decide (d.xw ≤ 16)
  && (!d.chk || (d.first % 2 == 0 && d.count % 2 == 0)) && decide (d.cw * 8 + 2 * d.xw * 4 ≤ 248)
  && (!bit (d.args.getD 5 0) 63 || fld (d.args.getD 5 0) 62 52 == 0)

/-- The launch of a command is known already: it has been decided, or the host's bind record has named it (R359, R362).
(DEDUCED, unsafe, log 97) -/
def launchKnown (s : State) (x q seq : Nat) : Bool :=
  (s.queue x q).decided || s.launches.any fun p => p.2.ctx == x && p.2.queue == q && p.2.seq == seq && p.2.order != 0

/-- LAUNCH: dispatch reads the descriptor, and the head is ready (R354, R355, R359). -/
def execLaunch (s : State) : Out :=
  match s.item with
  | some (.launch x q) =>
    runStep (.launch x q) s fun s =>
      match s.command x q 0 with
      | none => some s
      | some c =>
        if launchKnown s x q c.seq then some s
        else
        match dispRead s x c.arg1.toNat 128 with
        | .error d => deniedFate s x q 0 1 (fun _ _ s => some (finishCommand s x q 3 0)) d
        | .ok (n, s) =>
          if launchDescOk n then
            let run : LaunchRun := ⟨x, q, c.seq, c.arg1, launchDesc n, 0, 0, false, []⟩
            let s := { s with launches := s.launches.set (16 * x + q) run }
            some ((s.setQueue x q { s.queue x q with decided := false, age := s.cycle }).emit .dispatchDecision)
          else some (finishCommand s x q 3 0)
  | _ => .next s

/-- A ready head (R359): its global queue number and its launch. (DEDUCED, unsafe, log 57) -/
def readyHeads (s : State) : List (Nat × LaunchRun) :=
  s.launches.filter fun p =>
    let k := s.queue p.2.ctx p.2.queue
    k.state == 0 && k.weight != 0 && !k.decided && (p.2.redone || p.2.rebinds != 0 || !bit (s.ctx p.2.ctx).modes 0)
    && (match k.cmd with | some c => c.kind == 0 && c.seq == p.2.seq | none => false)

/-- A free slot among 1 to 3 of a core that dispatch may use (R359, R382, R391). -/
def freeRecord (k : Core) : Option Nat := if k.retired then none else [1, 2, 3].find? fun i => (k.slots.find? i).isNone

/-- Every core of the set has a free slot. (DEDUCED, unsafe, log 57) -/
def writable (s : State) (ld : LaunchDesc) : Bool := ld.cores.all fun c => (freeRecord (s.core c)).isSome

/-- Two launches' core sets meet. -/
def setsMeet (a b : LaunchDesc) : Bool := decide (a.first < b.first + b.count) && decide (b.first < a.first + a.count)

/-- The bind record of a launch for one of its cores (R357). -/
def bindRecord (r : LaunchRun) (level c : Nat) (resume : Bool) : BindRec :=
  let p := c - r.ld.first
  ⟨r.descAddr, r.order, if r.ld.chk then p / 2 else p, r.ctx, r.queue, level, resume⟩

/-- Write a launch's records under the next order number (R358, R359). -/
def writeRecords (s : State) (key : Nat) (r : LaunchRun) : State :=
  let r := { r with order := s.orders + 1 }
  let s := { s with orders := r.order, launches := s.launches.set key r, orderQueues := s.orderQueues.set r.order r.queue }
  let level := (s.queue r.ctx r.queue).level
  r.ld.cores.foldl (fun s c =>
    let k := s.core c
    match freeRecord k with
    | none => s
    | some i => (s.setCore c { k with slots := k.slots.set i (bindRecord r level c false) }).emit (.bind c)) s

/-- Decide a head: its records are written, the decision is counted, and one that rule 2 has named uses a credit (R359).
(DESIGN CHOICE, unsafe, log 10; DEDUCED, unsafe, log 56) -/
def decide_ (s : State) (p : Nat × LaunchRun) (credit : Bool) : State :=
  let s := writeRecords s p.1 p.2
  let k := s.queue p.2.ctx p.2.queue
  let s := s.setQueue p.2.ctx p.2.queue { k with decided := true, credit := k.credit - boolNat credit }
  { s with decisions := s.decisions + 1, reserved := s.reserved.filter (·.1 != p.1) }

/-- The highest level among heads. -/
def topLevel (s : State) (hs : List (Nat × LaunchRun)) : Nat :=
  hs.foldl (fun l p => Nat.min l (s.queue p.2.ctx p.2.queue).level) 3

/-- The oldest of some heads; of equal ages the lowest queue. -/
def oldestHead (s : State) : List (Nat × LaunchRun) → Option (Nat × LaunchRun)
  | [] => none
  | p :: ps =>
    match oldestHead s ps with
    | none => some p
    | some r => if (s.queue r.2.ctx r.2.queue).age < (s.queue p.2.ctx p.2.queue).age then some r else some p

/-- A queue's head is reserved (R359). -/
def isReserved (s : State) (key : Nat) : Bool := s.reserved.any fun p => p.1 == key

/-- The head that the rules of R359 name among those that remain of all ready heads, whether rule 2 has named it, and the
state with credits refilled; a reserved head keeps its credit. Every ready head counts for the highest level of rule 1.
(DEDUCED, unsafe, log 56) -/
def nameHead (s : State) (all hs : List (Nat × LaunchRun)) : Option ((Nat × LaunchRun) × Bool × State) :=
  let top := topLevel s hs
  let level := fun (p : Nat × LaunchRun) => (s.queue p.2.ctx p.2.queue).level
  let lower := hs.filter fun p => decide (topLevel s all < level p)
  let here := hs.filter fun p => level p == top
  match (if s.decisions % 16 = 15 then oldestHead s lower else none) with
  | some p => some (p, false, s)
  | none =>
    match here.find? fun p => decide (0 < (s.queue p.2.ctx p.2.queue).credit) with
    | some p => some (p, true, s)
    | none =>
      let refill := { s with queues := s.queues.map fun e =>
        if e.2.level == top && e.2.weight != 0 && !isReserved s e.1 then (e.1, { e.2 with credit := e.2.weight }) else e }
      here.head?.map fun p => (p, true, refill)

/-- Name heads in turn: one that is not writable is reserved, one that meets a reserved set is passed over, and the
first other is decided (R359). The fuel is the number of heads. -/
def decideAmong (s : State) (all : List (Nat × LaunchRun)) : Nat → List (Nat × LaunchRun) → State
  | 0, _ => s
  | n + 1, hs =>
    match nameHead s all hs with
    | none => s
    | some (p, credit, s') =>
      let rest := hs.filter fun e => e.1 != p.1
      if !writable s' p.2.ld then decideAmong { s' with reserved := s'.reserved ++ [(p.1, credit)] } all n rest
      else if all.any fun e => isReserved s' e.1 && setsMeet e.2.ld p.2.ld then decideAmong s' all n rest
      else decide_ s' p credit

/-- One dispatch decision (R359). A reserved head comes as soon as it is writable, and uses a credit if rule 2 has named it.
(DEDUCED, unsafe, log 56) -/
def dispatchOnce (s : State) : State :=
  let heads := readyHeads s
  let s := { s with reserved := s.reserved.filter fun k => heads.any fun p => p.1 == k.1 }
  match heads.find? fun p => isReserved s p.1 && writable s p.2.ld with
  | some p => decide_ s p (s.reserved.contains (p.1, true))
  | none => decideAmong s heads heads.length (heads.filter fun p => !isReserved s p.1)

/-- DISPATCH_DECISION: the firmware decides whenever some ready head is writable (R359). -/
def execDispatchDecision (s : State) : Out :=
  match s.item with
  | some .dispatchDecision =>
    runStep .dispatchDecision s fun s =>
      if readyHeads s == [] then some s
      else
        let s' := dispatchOnce s
        if s'.decisions ≠ s.decisions then some s'
        else if s'.reserved ≠ s.reserved then some (s'.emit .dispatchDecision)
        else none
  | _ => .next s

end Sys2Proof.Machine
end

