-- ==== Sys2Proof/Machine/Bind.lean ====
section
/-! DEFINITION. Binding, pre-emption and completion of launches (R194, R316, R355 to R358, R360 to R362, R385, R390). -/

namespace Sys2Proof.Machine

/-! ### Save areas (R361) -/

/-- Values side by side, the first lowest: bits and value. -/
def packNat : List (Nat × Nat) → Nat
  | [] => 0
  | (b, v) :: r => v % 2 ^ b + 2 ^ b * packNat r

/-- n bytes of a number from a byte offset. -/
def bytesAt (v off n : Nat) : Nat := v / 256 ^ off % 256 ^ n

/-- A wait as the save area holds it: a doubleword that names it and a doubleword of its argument. A wait that ends by
trying the instruction again is saved as that. -/
def waitCode : Wait → Nat × Nat
  | .granules g n full => (2 + g * 2 ^ 8 + n * 2 ^ 24 + boolNat full * 2 ^ 48, 0)
  | .barrier b p => (5 + b * 2 ^ 8 + p.toNat * 2 ^ 16, 0)
  | .released b p r => (6 + b * 2 ^ 8 + p.toNat * 2 ^ 16, r.toNat)
  | .joined b p => (7 + b * 2 ^ 8 + p.toNat * 2 ^ 16, 0)
  | .event l => (8, l)
  | .eventOver => (9, 0)
  | .interrupt _ => (10, 0)
  | .pairing => (20, 0)
  | .unpairing => (21, 0)
  | .paired => (22, 0)
  | .ring => (23, 0)
  | _ => (0, 0)

/-- The wait that two doublewords of the save area name. -/
def codeWait (w a : Nat) : Wait :=
  let b := w / 2 ^ 8 % 256
  let p := BitVec.ofNat 24 (w / 2 ^ 16)
  match w % 256 with
  | 2 => .granules (w / 2 ^ 8 % 2 ^ 16) (w / 2 ^ 24 % 2 ^ 24) (w / 2 ^ 48 % 2 == 1)
  | 5 => .barrier b p
  | 6 => .released b p (word a)
  | 7 => .joined b p
  | 8 => .event a
  | 9 => .eventOver
  | 10 => .interrupt true
  | 20 => .pairing
  | 21 => .unpairing
  | 22 => .paired
  | 23 => .ring
  | _ => .none

def strandCode : Strand → Nat
  | .unbound => 0
  | .idle => 1
  | .running => 2

/-- A thread's part of the save area, 18,296 bytes (R361, R222). (DESIGN CHOICE, unsafe, log 59) -/
def threadSave (th : Thread) : Nat :=
  let x := fun (i : Nat) => (64, (if i = 30 then 0 else th.getX i).toNat)
  let stream := fun (i : Nat) =>
    match th.streams.find? i with
    | none => [(256, 0), (64, 0), (64, 0)]
    | some r => [(256, r.desc.toNat), (64, r.pos), (64, match r.fib with | none => 1 | some f => f + 2)]
  let w := waitCode th.wait
  let misc := packNat [(1, boolNat th.latch), (2, strandCode th.strand), (1, boolNat th.finished), (3, th.initial)]
  packNat ((List.range 32).map (fun i => (4096, (th.getV i).toNat))
    ++ (List.range 7).map (fun i => (1024, (th.getK (i + 1)).toNat))
    ++ [(64, th.pc.toNat)] ++ (List.range 31).map (fun i => x (i + 1))
    ++ ((List.range 8).map stream).flatten
    ++ [(64, th.tstat.toNat), (64, th.fflags.toNat), (64, th.frm.toNat), (64, th.seed.toNat), (64, th.hbcount.toNat),
        (64, th.taskref.toNat), (64, th.rfstat.toNat), (64, th.fetimeout.toNat), (64, th.fhook.toNat), (64, th.fframe.toNat),
        (64, th.svec.toNat), (64, th.sframe.toNat), (64, misc), (64, th.seq), (64, w.1), (64, w.2)]
    ++ (List.range 31).map (fun i => (64, (th.mo.getD i 0).toNat)))

/-- A thread as its part of the save area holds it, with what was set aside. The time of its wait starts afresh (R197,
R303). -/
def threadLoad (s : State) (aside : SavedTasks) (slot : Nat) (sp0 : Word) (v : Nat) : Thread :=
  let d := fun (off : Nat) => word (bytesAt v off 8)
  let sr := fun (i : Nat) => d (17920 + 8 * i)
  let misc := (sr 12).toNat
  let xs := (List.range 29).foldl (fun (m : SMap Word) i => SMap.set m (i + 1) (d (17288 + 8 * i))) []
  let vs := (List.range 32).foldl (fun (m : SMap VReg) i => SMap.set m i (BitVec.ofNat 4096 (bytesAt v (512 * i) 512))) []
  let ks := (List.range 7).foldl (fun (m : SMap MReg) i => SMap.set m (i + 1) (BitVec.ofNat 1024 (bytesAt v (16384 + 128 * i) 128))) []
  let streams := (List.range 8).foldl (fun (m : SMap StreamReg) i =>
    let o := 17536 + 48 * i
    let fib := bytesAt v (o + 40) 8
    if fib = 0 then m
    else
      SMap.set m i ⟨BitVec.ofNat 256 (bytesAt v o 32), bytesAt v (o + 32) 8, if fib = 1 then none else some (fib - 2),
        aside.lasts.get (8 * slot + i) 0, []⟩) []
  { Thread.reset with
    pc := d 17280 &&& ~~~3#64, x := xs, v := vs, k := ks, streams := streams, sp0 := sp0
    tstat := sr 0, fflags := sr 1, frm := sr 2, seed := sr 3, hbcount := sr 4, taskref := sr 5, rfstat := sr 6
    fetimeout := sr 7, fhook := sr 8, fframe := sr 9, svec := sr 10, sframe := sr 11
    latch := misc % 2 == 1
    strand := match misc / 2 % 4 with | 0 => .unbound | 1 => .idle | _ => .running
    finished := misc / 8 % 2 == 1
    initial := misc / 16 % 8
    task := aside.tasks.find? slot
    seq := (sr 13).toNat
    wait := codeWait (sr 14).toNat (sr 15).toNat
    since := s.cycle
    mo := (List.range (d (17288 + 240)).toNat).map fun i => d (18048 + 8 * i) }

/-- The core block of the save area, 8,192 bytes: barriers, then th's registers (R361).
(DESIGN CHOICE, unsafe, log 59; DEDUCED, safe, log 62) -/
def coreSave (s : State) (k : Core) : Nat :=
  let bar := fun (i : Nat) => k.barriers.get i Barrier.reset
  let left := fun (b : Barrier) => match b.first with | none => 0 | some t => Nat.min (b.limit - (s.cycle - t)) (2 ^ 58 - 1)
  let one := fun (i : Nat) =>
    let b := bar i
    [(16, b.count.toNat), (1, boolNat b.group), (1, boolNat b.swap), (1, boolNat b.tout), (1, boolNat b.held), (10, b.arrived),
     (4, b.op.toNat), (6, b.tmo.toNat), (24, b.phase.toNat), (64, b.acc.toNat), (64, b.limit), (58, left b), (6, b.arrived / 2 ^ 10)]
  let th := k.thread 4
  packNat (((List.range 128).map one).flatten
    ++ [(64, th.fflags.toNat), (64, th.frm.toNat), (64, th.seed.toNat), (64, th.seq)]
    ++ (List.range 128).map (fun i => (64, (bar i).result.toNat)))

/-- The barriers of a core block. -/
def barriersLoad (s : State) (v : Nat) : SMap Barrier :=
  (List.range 128).foldl (fun (m : SMap Barrier) i =>
    let w := bytesAt v (32 * i) 8
    let limit := bytesAt v (32 * i + 16) 8
    let left := bytesAt v (32 * i + 24) 8
    let arrived := w / 2 ^ 20 % 2 ^ 10 + left / 2 ^ 58 * 2 ^ 10
    let b : Barrier :=
      { count := BitVec.ofNat 16 w, op := BitVec.ofNat 4 (w / 2 ^ 30), tmo := BitVec.ofNat 6 (w / 2 ^ 34), group := w / 2 ^ 16 % 2 == 1
        phase := BitVec.ofNat 24 (w / 2 ^ 40), swap := w / 2 ^ 17 % 2 == 1, tout := w / 2 ^ 18 % 2 == 1, held := w / 2 ^ 19 % 2 == 1
        acc := word (bytesAt v (32 * i + 8) 8), result := word (bytesAt v (4128 + 8 * i) 8), arrived := arrived
        limit := limit, first := if arrived = 0 then none else some (s.cycle - (limit - left % 2 ^ 58)) }
    SMap.set m i b) []

/-- th of a core block. -/
def handlerLoad (v : Nat) : Thread :=
  let d := fun (i : Nat) => word (bytesAt v (4096 + 8 * i) 8)
  { Thread.reset with fflags := d 0, frm := d 1, seed := d 2, seq := (d 3).toNat, strand := .idle }

/-- Where the pieces of a save area lie: offset and length. Local memory goes in pieces of a page. -/
def localPieces : List (Nat × Nat) := (List.range 64).map fun i => (0x14000 + 4096 * i, 4096)

/-- The deque region of local memory holds the records of the deque, the head lowest (R192, R292).
(DESIGN CHOICE, safe, log 51) -/
def Core.withDeque (k : Core) : Core :=
  { k with lmem := (k.deque.zipIdx).foldl (fun m e => Mem.write m (0x3E000 + 64 * e.2) 64 (taskNat e.1)) k.lmem }

/-- What is written into the save area: offset, length, value (R360, R361). (DESIGN CHOICE, unsafe, log 59) -/
def savePieces (s : State) (k : Core) (lsave : Bool) : List (Nat × Nat × Nat) :=
  (List.range 4).map (fun t => (0x4800 * t, 18296, threadSave (k.thread t)))
  ++ [(0x12000, 8192, coreSave s k)]
  ++ (if lsave then localPieces.map (fun p => (p.1, p.2, k.withDeque.lread (p.1 - 0x14000) 4096)) ++ [(0x54000, 2048, k.full.toNat)] else [])

/-- Write pieces at a base; a sector held by another agent makes the step wait. (DEDUCED, unsafe, log 58) -/
def writePieces (s : State) (c x base : Nat) : List (Nat × Nat × Nat) → Except Denied State
  | [] => .ok s
  | (o, n, v) :: ps =>
    match unitWrite s .other c x true (partsOf (base + o) n) v with
    | (none, s) => writePieces s c x base ps
    | (some d, _) => .error d

/-- Read a piece. -/
def readPiece (s : State) (c x a n : Nat) : Except Denied (Nat × State) := unitRead s .other c x true (partsOf a n)

/-- Read local memory, piece by piece. -/
def readLocal (s : State) (c x base : Nat) : List (Nat × Nat) → Except Denied (List Host.Cell × State)
  | [] => .ok ([], s)
  | (o, n) :: ps =>
    match readPiece s c x (base + o) n with
    | .error e => .error e
    | .ok (v, s) =>
      match readLocal s c x base ps with
      | .error e => .error e
      | .ok (m, s) => .ok (Mem.write m (o - 0x14000) n v, s)

/-! ### Pre-emption (R358, R360) -/

/-- A copy of a core that has an end in its local memory is in flight (R360). -/
def localCopies (k : Core) : Bool :=
  k.copies.any fun p => p.2.state == 0 && ((copyDesc p.2.desc).srcLocal || (copyDesc p.2.desc).dstLocal)

/-- The latches that the thread's last SEV sets on another core have not been set (R136). (DEDUCED, unsafe, log 96) -/
def sevWait (s : State) (c : Nat) (th : Thread) : Bool :=
  match th.sev with
  | none => false
  | some (d, l) => s.flight.contains (.eventLatchSet d (s.coreOrder c) l)

/-- Nothing that pre-emption waits for is under way (R136, R360, R381). (DEDUCED, safe, log 60) -/
def quiet (s : State) (c : Nat) : Bool :=
  let k := s.core c
  k.act.isNone && !localCopies k && k.refused == [] && k.gated == []
  && (k.pair == .none || k.bundles == 0)
  && !(s.flight.any fun e => match e with | .journalWrite d _ _ _ => d == c | _ => false)
  && k.threads.all fun p => p.2.requests == [] && p.2.search.asked.isNone && p.2.progress.isNone && !sevWait s c p.2
    && (match p.2.wait with | .arrival _ => false | _ => true)

/-- The leader of a core's checked pair, itself without one. -/
def leaderOf (s : State) (c : Nat) : Nat := msgCore s c

/-- Spill messages of a core one after another, and go on; none while the spill area is full. -/
def spillEach (s0 s : State) (c : Nat) (go : State → Option State) : List Msg → Option State
  | [] => go s
  | m :: ms => spillMsg s0 s c m fun s => spillEach s0 s c go ms

/-- Spill the inbound messages of a core, and go on (R360): they stand before those that have been spilled already, which
came later (R325, R350). -/
def spillAll (s : State) (c : Nat) (go : State → Option State) : Option State :=
  let k := s.core c
  spillEach s (s.setCore c { k with inbound := [] }) c (fun s =>
    let k' := s.core c
    go (s.setCore c { k' with spilled := k'.spilled.drop k.spilled.length ++ k.spilled })) k.inbound

/-- The core after its save: the pending record moves into slot 0, and the old one takes its place (R358). -/
def leaveCore (s : State) (c i : Nat) (r : BindRec) (b : Bound) : State :=
  let k := s.core c
  let tasks := (List.range 4).foldl (fun (m : SMap TaskRec) t =>
    match (k.thread t).task with | some r => SMap.set m t r | none => m) []
  let lasts := (List.range 4).foldl (fun (m : SMap Nat) t =>
    (k.thread t).streams.foldl (fun m p => SMap.set m (8 * t + p.1) p.2.last) m) []
  let aside : SavedTasks := ⟨tasks, lasts, k.deque, k.pushes, k.parked, k.runs, k.tree, k.tasksDone, k.taken, k.peerFaults, k.pair,
    (k.barriers.filter fun p => p.2.held).map (fun p => (p.1, p.2.group)), []⟩
  let s := { s with savedTasks := s.savedTasks.set (savedKey b.record.order c) aside }
  let s := unbindCore s c
  let k := s.core c
  let slots := (SMap.set k.slots 0 r).set i { b.record with resume := true }
  (s.setCore c { k with slots := slots, threads := k.threads.map fun p => (p.1, { Thread.reset with rfstat := p.2.rfstat }) }).emit
    (.bind c)

/-- An access of a save area has been denied, which the copy engine makes: it waits at a held sector, and the page-fault
service is asked in its name (R100, R139, R360, R424). -/
def areaFate (s : State) (x q c access : Nat) (fate : Cause → Nat → State → Option State) : Denied → Option State
  | .held _ => none
  | .fault cause va => agentFate 5 s x q c cause va access (fate cause va)

/-- A save or a restore that faults sends the launch down its fault path. (DEDUCED, unsafe, log 58) -/
def areaDenied (s : State) (c x access : Nat) : Denied → Option State :=
  areaFate s x (s.coreQueue c) c access fun cause va s => some (launchFault s c 0 cause.code (word va) 0 2 none)

/-- Pre-empt a core whose threads have stopped (R360). A chk launch has one area for each pair, which its leader
writes. (DEDUCED, safe, log 61) -/
def preemptCore (s : State) (c i : Nat) (r : BindRec) (b : Bound) : Option State :=
  let x := b.record.ctx
  let k := s.core c
  spillAll s c fun s' =>
    let base := b.ld.savebase.toNat + b.record.pos * 0x55000
    let pieces := if b.ld.chk && c % 2 == 1 then [] else savePieces s' k b.ld.lsave
    match writePieces s' c x base pieces with
    | .error d => areaDenied s c x 2 d
    | .ok s => some (leaveCore s c i r b)

/-- PREEMPTION (R358, R360): it waits until the core is quiet, and ends a checked pair's interval (R381).
(DEDUCED, safe, log 60) -/
def execPreemption (s : State) : Out :=
  match s.item with
  | some (.preemption c) =>
    runStep (.preemption c) s fun s =>
      match preempting (s.core c) with
      | none => some s
      | some (i, r, b) =>
        let l := leaderOf s c
        let kl := s.core l
        if quiet s c && quiet s l then preemptCore s c i r b
        else if kl.pair != .none && (kl.gated != [] || kl.bundles != 0) && !s.flight.contains (.intervalCompare l .agree) then
          some ((s.emit (.intervalCompare l .agree)).emit (.preemption c))
        else none
  | _ => .next s

/-! ### Binding (R194, R228, R304, R356) -/

/-- The launch that a record names. -/
def runOf (s : State) (r : BindRec) : Option LaunchRun := (recordRun s r).map (·.2)

/-- The slot's initial stack pointer (R356). -/
def slotSp (ld : LaunchDesc) (p t : Nat) : Word := ld.spbase + word (4 * p + t) * ld.spstride

/-- A thread at a fresh bind (R228, R356, R390). -/
def freshThread (r : LaunchRun) (p t : Nat) : Thread :=
  let ld := r.ld
  let sp := slotSp ld p t
  let args := (List.range 6).map fun i => (3 + i, ld.args.getD i 0)
  let regs := [(2, sp)] ++ args ++ [(9, word p), (10, word ld.count), (11, word t)] ++ (if ld.jnl then [(12, word r.rebinds)] else [])
  { Thread.reset with
    pc := ld.entry, sp0 := sp, strand := .running, initial := t
    x := regs.foldl (fun (m : SMap Word) e => SMap.set m e.1 e.2) [] }

/-- The barriers at a fresh bind (R304). (DEDUCED, unsafe, log 90) -/
def freshBarriers (ld : LaunchDesc) : SMap Barrier :=
  let loc : Barrier := { Barrier.reset with count := BitVec.ofNat 16 ld.n }
  let grp : Barrier := { Barrier.reset with group := true, count := BitVec.ofNat 16 (ld.n * ld.count) }
  SMap.set ((List.range 127).foldl (fun (m : SMap Barrier) i => SMap.set m i loc) []) 127 grp

/-- A core's part in a checked pair that a launch with chk forms at bind (R379). -/
def bindRole (ld : LaunchDesc) (c : Nat) : PairRole :=
  if !ld.chk then .none else if c % 2 = 0 then .leader (c + 1) else .follower (c - 1)

/-- The core at a fresh bind, its code window loaded (R193, R194). -/
def freshCore (c : Nat) (k : Core) (r : LaunchRun) (rec : BindRec) (code : Nat) : Core :=
  let ld := r.ld
  let copies := k.copies.filter fun p => p.2.state == 0
  let k : Core := { k with
    threads := SMap.set ((List.range ld.n).map fun t => (t, freshThread r rec.pos t)) 4 { Thread.reset with strand := .idle }
    lmem := Mem.write [] 0 (8192 * ld.cw) code
    full := 0
    copies := copies
    deque := [], pushes := [], tasksDone := 0, parked := [], runs := [], peerFaults := 0
    barriers := freshBarriers ld
    bound := some ⟨rec, ld, r.rebinds⟩
    sched := ⟨none, false, 3, [], none⟩
    taken := false, pair := bindRole ld c, pairstat := 0, gated := [], bundles := 0, undo := [], agreed := [], tree := Tree.reset }
  if ld.chk then agree k else k

/-- Messages that wait on a core for its context, each to be activated (R350). -/
def waitingMsgs (k : Core) (x : Nat) : Nat :=
  (k.redo.filter fun m => m.1.ctx == x).length + (k.inbound.filter fun m => m.ctx == x).length
    + (k.spilled.filter fun m => m.2.ctx == x).length

/-- The streams that a core has open and the engine reads ahead for (R220). -/
def openStreams (k : Core) : List (Nat × Nat) :=
  (List.range 4).flatMap fun t => ((k.thread t).streams.filter fun p => decide (0 < p.2.remaining)).map fun p => (t, p.1)

/-- What follows a bind: waiting messages are activated, idle strands look for work, stream engines read ahead again
(R222). A follower only follows. -/
def afterBind (s : State) (c : Nat) (r : LaunchRun) : State :=
  let k := s.core c
  match k.pair with
  | .follower _ => s
  | _ =>
    let s := s.emitAll (List.replicate (waitingMsgs k r.ctx) (.handlerActivation c))
    let idle := (List.range 4).filter fun t => (k.thread t).strand == .idle
    let s := s.emitAll (idle.map fun t => .workSearch c t)
    s.emitAll (((openStreams k).map fun p => Event.streamReadAhead c p.1 p.2).filter fun e => !s.flight.contains e)

/-- The mirrored slots of a ring come back in ticket order (R226). `on` says how the step goes on from a read that is denied. -/
def rebuildSlots (on : Denied → (State → Option State) → State → Option State) (j : Journal) (r : RingHdr)
    (go : State → Option State) : List Nat → State → Option State
  | [], s => go s
  | t :: ts, s =>
    match dispRead s j.ctx (j.jbase + t % r.count * r.bytes) r.bytes with
    | .error d => on d (rebuildSlots on j r go ts) s
    | .ok (v, s) =>
      rebuildSlots on j r go ts (s.setCore j.core (((s.core j.core).lwrite (r.slot t) r.bytes v).setFull (r.slot t / 16) (2 * r.ssize)))

/-- Journaled rings come back, each from its header copy and its mirrored slots, which are read with supervisor rights (R226,
R387, R390); what cannot be read is left out. (DEDUCED, unsafe, log 67) -/
def rebuildRings (on : Nat → Denied → (State → Option State) → State → Option State) (go : State → Option State) :
    List Journal → State → Option State
  | [], s => go s
  | j :: js, s =>
    match dispRead s j.ctx (j.jbase - 64) 64 with
    | .error d => on j.core d (rebuildRings on go js) s
    | .ok (h, s) =>
      let k := (s.core j.core).lwrite j.hdr 64 h
      rebuildSlots (on j.core) j (ringHdr k j.hdr) (rebuildRings on go js) j.tickets (s.setCore j.core k)

/-- The rings of a core that is bound again (R390): a read waits at a held sector, and for the page-fault service (R100, R139).
`s0` is the state before the step. -/
def rebuildCore (s0 s : State) (c x q : Nat) (go : State → Option State) : Option State :=
  rebuildRings (fun c d go s => orAsk s0 s x q c 1 go d) go (s.journals.filter fun j => j.core == c && j.ctx == x) s

/-- The rings of every core, when a warm reset rebuilds them (R387): the page-fault service is asked for what is not present,
and that is read when the launch is bound again (R390). (DEDUCED, unsafe, log 67) -/
def rebuildAll (s : State) : State :=
  let on := fun (x c : Nat) (d : Denied) (go : State → Option State) (s : State) =>
    match d with
    | .fault .notPresent va => go ((askOther s x 0 c va 1).elim s (·.2))
    | _ => go s
  s.journals.foldl (fun s j => (rebuildRings (on j.ctx) some [j] s).getD s) s

/-- Bind fresh (R194, R356). A code window that cannot be read sends the launch down its fault path, and the threads do
not start. -/
def bindFresh (s : State) (c i : Nat) (rec : BindRec) (r : LaunchRun) : Option State :=
  let k := s.core c
  let k0 := { k with slots := (SMap.del k.slots i).set 0 rec }
  let go := fun (s : State) (code : Nat) => s.setCore c (freshCore c k0 r rec code)
  match unitReadAs .execute s .other 768 rec.ctx true (partsOf r.ld.code.toNat (8192 * r.ld.cw)) with
  | .error d =>
    deniedFate s rec.ctx rec.queue c 4 (fun cause va s =>
      let s := go s 0
      let k := s.core c
      let s := s.setCore c { k with threads := k.threads.map fun p => if p.1 < 4 then (p.1, { p.2 with strand := .idle }) else p }
      some (launchFault s c 0 cause.code (word va) 0 2 none)) d
  | .ok (code, s1) =>
    let bound := fun (s : State) =>
      let s := afterBind s c r
      some (if rec.pos = 0 ∧ r.ld.stage.isSome ∧ c = r.ld.first then s.emit (.stageMonitorSample r.ctx r.queue) else s)
    let s1 := applyTouts (go s1 code) c rec.order
    if r.rebinds = 0 then bound s1 else rebuildCore s s1 c rec.ctx rec.queue bound

/-- What was set aside of a core when its launch was pre-empted. -/
def asideOf (s : State) (order c : Nat) : SavedTasks :=
  s.savedTasks.get (savedKey order c) ⟨[], [], [], [], [], [], Tree.reset, 0, false, 0, .none, [], []⟩

/-- The state a core resumes in, but for its local memory; a phase that the host has extended meanwhile runs anew (R360, R361,
R398). (DEDUCED, safe, log 62) -/
def resumedCore (s : State) (c : Nat) (k : Core) (r : LaunchRun) (rec : BindRec) (ths : List Thread) (block : Nat) : Core :=
  let aside := asideOf s rec.order c
  let th4 := { handlerLoad block with rfstat := (k.thread 4).rfstat }
  let k : Core := { k with
    threads := SMap.set ((List.range 4).map fun t => (t, ths.getD t Thread.reset)) 4 th4
    barriers := (barriersLoad s block).map fun p =>
      if aside.extended.contains p.1 then (p.1, { p.2 with held := false, first := some s.cycle }) else p
    deque := aside.deque, pushes := aside.pushes, parked := aside.parked, runs := aside.runs, tree := aside.tree, tasksDone := aside.tasksDone
    taken := aside.taken, peerFaults := aside.peerFaults, pair := aside.pair
    bound := some ⟨rec, r.ld, r.rebinds⟩
    sched := ⟨none, false, 3, [], none⟩, gated := [], bundles := 0, undo := [], agreed := [] }
  settlePushes k

/-- A core goes on in what it resumes in: barriers that have timed out meanwhile are timed out there too (R310), and a checked
pair begins an interval (R381). -/
def resumeIn (s : State) (c : Nat) (k : Core) (rec : BindRec) : State :=
  let s := applyTouts (s.setCore c k) c rec.order
  if k.pair = .none then s else s.setCore c (agree (s.core c))

/-- Read the four threads of a save area. -/
def readThreads (s : State) (c x base : Nat) (r : LaunchRun) (rec : BindRec) : List Nat → Except Denied (List Thread × State)
  | [] => .ok ([], s)
  | t :: ts =>
    match readPiece s c x (base + 0x4800 * t) 18296 with
    | .error e => .error e
    | .ok (v, s) =>
      match readThreads s c x base r rec ts with
      | .error e => .error e
      | .ok (l, s) => .ok (threadLoad s (asideOf s rec.order c) t (slotSp r.ld rec.pos t) v :: l, s)

/-- Bind again from the save area (R357, R360, R361). (DEDUCED, unsafe, log 58; DEDUCED, safe, log 61) -/
def bindResume (s : State) (c i : Nat) (rec : BindRec) (r : LaunchRun) : Option State :=
  let x := rec.ctx
  let base := r.ld.savebase.toNat + rec.pos * 0x55000
  let k := s.core c
  let k0 := { k with slots := (SMap.del k.slots i).set 0 rec }
  let fail := areaFate s x rec.queue c 1 fun cause va s =>
    let s := s.setCore c (resumedCore s c k0 r rec [] 0)
    some (launchFault s c 0 cause.code (word va) 0 2 none)
  match readThreads s c x base r rec (List.range 4) with
  | .error d => fail d
  | .ok (ths, s1) =>
    match readPiece s1 c x (base + 0x12000) 8192 with
    | .error d => fail d
    | .ok (block, s2) =>
      let put := fun (s : State) (k : Core) =>
        let s := resumeIn s c (resumedCore s c k r rec ths block) rec
        some (afterBind { s with savedTasks := SMap.del s.savedTasks (savedKey rec.order c) } c r)
      if r.ld.lsave then
        match readLocal s2 c x base localPieces with
        | .error d => fail d
        | .ok (m, s3) =>
          match readPiece s3 c x (base + 0x54000) 2048 with
          | .error d => fail d
          | .ok (f, s4) => put s4 { k0 with tlb := (s4.core c).tlb, lmem := m, full := BitVec.ofNat 16384 f }
      else put s2 { k0 with tlb := (s2.core c).tlb }

/-- The thread slots of a core still owe releases (R320). -/
def owesReleases (s : State) (c : Nat) : Bool :=
  s.unacked.any fun u => toCore u.2.2 && fld u.1 9 0 == c && fld u.1 25 10 == s.pkg && decide (fld u.1 28 26 ≤ 4)

/-- BIND (R358): the pending record of the highest priority binds on a free core, or pre-empts the launch bound. -/
def execBind (s : State) : Out :=
  match s.item with
  | some (.bind c) =>
    runStep (.bind c) s fun s =>
      let k := s.core c
      match k.bound with
      | some _ =>
        if (preempting k).isSome && !s.flight.contains (.preemption c) then some ((s.emit (.preemption c)).emit (.bind c))
        else if (bestPending k).isNone then some s
        else none
      | none =>
        if k.fenced || k.retired then none
        else
          match (match SMap.find? k.slots 0 with | some r => some (0, r) | none => bestPending k) with
          | none => some s
          | some (i, rec) =>
            match runOf s rec with
            | none => some (s.setCore c { k with slots := SMap.del k.slots i })
            | some r =>
              if rec.resume then bindResume s c i rec r
              else if owesReleases s c then none
              else bindFresh s c i rec r
  | _ => .next s

/-- A bind record from its 32 bytes (R357). -/
def recordOf (w : BitVec 256) : BindRec :=
  ⟨word (fld w 255 192), fld w 191 144, fld w 127 118, fld w 117 112, fld w 111 108, fld w 107 106, bit w 105⟩

/-- A reserved bit of a bind record is set (R4, R357). -/
def recordBad (w : BitVec 256) : Bool := fld w 143 128 != 0 || fld w 104 1 != 0

/-- The key of a new launch of a queue: the queue's own, unless a launch that is bound or to be bound has it
(R362). (DEDUCED, unsafe, log 97) -/
def runKey (s : State) (x q : Nat) : Nat :=
  let n := 16 * x + q
  match s.launches.find? n with
  | none => n
  | some r =>
    if r.order = 0 then n
    else ((List.range (s.launches.length + 1)).map fun i => 1024 * (i + 1) + n).find? (fun k => (s.launches.find? k).isNone) |>.getD n

/-- HOST_BIND_RECORD (R362): the host's record enters slot 4. One with a reserved bit is rejected as one whose descriptor
fails: it is dropped, with a notice (R4). (DEDUCED, unsafe, log 97) -/
def execHostBindRecord (s : State) : Out :=
  match s.item with
  | some (.hostBindRecord c w) =>
    runStep (.hostBindRecord c w) s fun s =>
      let k := s.core c
      let r := recordOf w
      if (SMap.find? k.slots 4).isSome || !bit w 0 || !(s.ctx r.ctx).live || !bit (s.ctx r.ctx).modes 0 then some s
      else
        let refuse := fun (s : State) =>
          some (postNotice s r.ctx r.queue c false 0 [6, r.desc, word c, word r.queue, word r.order, 0, 0]).2
        if recordBad w then refuse s
        else
          match dispRead s r.ctx r.desc.toNat 128 with
          | .error d => deniedFate s r.ctx r.queue c 1 (fun _ _ => refuse) d
          | .ok (n, s) =>
            if !launchDescOk n || r.desc.toNat % 64 != 0 then refuse s
            else
              let seq := match (s.queue r.ctx r.queue).cmd with | some cmd => cmd.seq | none => 0
              let run : LaunchRun := ⟨r.ctx, r.queue, seq, r.desc, launchDesc n, r.order, 0, false, []⟩
              let s := if (recordRun s r).isSome then s
                else { s with
                  launches := s.launches.set (runKey s r.ctx r.queue) run
                  orderQueues := s.orderQueues.set r.order r.queue }
              let k := s.core c
              some ((s.setCore c { k with slots := k.slots.set 4 r }).emit (.bind c))
  | _ => .next s

/-! ### Completion (R112, R316, R354, R385, R386, R390) -/

/-- Three tie-breaks that blame a core within 2^32 cycles (R382). (DEDUCED, unsafe, log 70) -/
def blamedThrice : List Nat → Bool
  | a :: b :: c :: r => decide (c - a ≤ 2 ^ 32) || blamedThrice (b :: c :: r)
  | _ => false

/-- Pairs that tie-breaks blame are retired when their launch ends (R382). (DEDUCED, unsafe, log 70) -/
def retirePairs (s : State) (ld : LaunchDesc) : State :=
  ld.cores.foldl (fun s c =>
    let k := s.core c
    let bad := blamedThrice k.blames
    let s := s.setCore c { k with retired := k.retired || bad }
    if bad then s.setCore (partnerOf c) { s.core (partnerOf c) with retired := true } else s) s

/-- A launch of a context is bound somewhere. -/
def anyBound (s : State) (x : Nat) : Bool :=
  s.cores.any fun p => match p.2.bound with | some b => b.record.ctx == x | none => false

/-- Everything a launch leaves behind goes: its stage monitor and its samples, its annexes, its journals, what was set
aside. -/
def forgetLaunch (s : State) (key : Nat) (r : LaunchRun) (keepJournals : Bool) : State :=
  { s with
    flight := if r.ld.stage.isSome then s.flight.erase (.stageMonitorSample r.ctx r.queue) else s.flight
    stages := SMap.del s.stages key
    triage := s.triage.filter fun i => i.order != r.order
    annexes := s.annexes.filter fun a => a.key != key
    journals := if keepJournals then s.journals else s.journals.filter fun j => !(j.ctx == r.ctx && r.ld.cores.contains j.core)
    savedTasks := s.savedTasks.filter fun p => p.1 / 1024 != r.order }

/-- A launch is bound again afresh, or dispatched again from its start: its head is ready once more (R389, R390).
(DEDUCED, safe, log 64) -/
def bindAgain (s : State) (key : Nat) (r : LaunchRun) : State :=
  let s := liftFences s r.ld.cores
  let s := { s with launches := s.launches.set key { r with order := 0, touts := [] } }
  (s.setQueue r.ctx r.queue { s.queue r.ctx r.queue with decided := false, age := s.cycle }).emit .dispatchDecision

/-- The completion record of a launch, after which its fenced cores rejoin dispatch, and the teardown of its queue (R354,
R385, R386, R390). (DEDUCED, unsafe, log 28) -/
def endLaunch (s : State) (key : Nat) (r : LaunchRun) (w : BitVec 128) : State :=
  let s := { s with launches := SMap.del s.launches key }
  let status := if fld w 15 0 = 0 then 0 else 1
  let s := match s.command r.ctx r.queue 0 with
    | some _ =>
      let k := s.queue r.ctx r.queue
      finishCommand (s.setQueue r.ctx r.queue { k with fences := k.fences ++ r.ld.cores }) r.ctx r.queue status w
    | none => liftFences s r.ld.cores
  if status = 1 ∧ !r.ld.rst ∧ !r.ld.jnl then
    if (s.queue r.ctx r.queue).state = 3 then s else setQState s r.ctx r.queue 2
  else s

/-- The done word with the law-action errors of the context (R176, R316). (DEDUCED, unsafe, log 63) -/
def withLawErrors (s : State) (x c : Nat) (w : BitVec 128) : BitVec 128 :=
  if (s.ctx x).lawErr = 0 then w
  else if fld w 15 0 = 0 then doneWord (fld w 127 80) (fld w 79 48) Cause.lawAction.code.toNat c 16
  else w ||| 16#128

/-- A launch whose cores have all let go of it completes, or is bound again (R112, R388, R390).
(DEDUCED, unsafe, log 63; DEDUCED, unsafe, log 69) -/
def completeLaunch (s : State) (key c : Nat) (r : LaunchRun) (w : BitVec 128) : State :=
  let w := withLawErrors s r.ctx c w
  let s := s.setCtx r.ctx { s.ctx r.ctx with lawErr := 0, lawCache := [] }
  let s := retirePairs s r.ld
  let lost := fld w 15 0 ≠ 0 ∧ (fld w 47 40 = Cause.unitLost.code.toNat ∨ fld w 47 40 = Cause.warmReset.code.toNat)
  let gone := r.ld.cores.any fun d => (s.core d).retired
  let again := r.ld.jnl && decide lost && !gone
  let w := if r.ld.jnl && decide lost && gone then setFld w 47 40 Cause.unitLost.code.toNat else w
  let s := forgetLaunch s key r again
  let s := { s with replicas := s.replicas.filter fun p => p.ctx != r.ctx }
  let s := if anyBound s r.ctx then s else writeBackSeed s (s.ctx r.ctx).seed
  if again then bindAgain s key { r with rebinds := r.rebinds + 1 } else endLaunch s key r w

/-- DONE_WORD: a child's word reaches its parent, or the root's own completes the launch (R316, R354). -/
def execDoneWord (s : State) : Out :=
  match s.item with
  | some (.doneWord p c order w) =>
    runStep (.doneWord p c order w) s fun s => atLaunch s p order fun s =>
      let k := s.core p
      if p ≠ c then
        some (trySendDone (s.setCore p { k with tree := { k.tree with childWords := k.tree.childWords ++ [(c, w)] } }) p)
      else
        match s.boundKey p with
        | none => some (unbindCore s p)
        | some l => some (completeLaunch (unbindCore s p) l.1 p l.2 w)
  | _ => .next s

end Sys2Proof.Machine
end

