-- ==== Sys2Proof/Machine/Branch.lean ====
section
/-! DEFINITION. Branches, jumps and branches on masks (R287 to R290). -/

namespace Sys2Proof.Machine

/-- Name the address of the next bundle. -/
def goTo (t : Word) : M Unit := modify fun s => { s with issue := { s.issue with next := some t } }

/-- A conditional branch by the relation of its sources (R287). -/
def branch (a b : BitVec 5) (o : BitVec 15) (f : Word → Word → Bool) : M Unit := do
  let x ← readX a
  let y ← readX b
  if f x y then goTo ((← get).me.pc + 4 * o.signExtend 64)

/-- BEQ (R287). -/
def execBeq (a b : BitVec 5) (o : BitVec 15) (s : State) : Out := run (.beq a b o) s (branch a b o fun x y => x == y)
/-- BNE (R287). -/
def execBne (a b : BitVec 5) (o : BitVec 15) (s : State) : Out := run (.bne a b o) s (branch a b o fun x y => x != y)
/-- BLT (R287). -/
def execBlt (a b : BitVec 5) (o : BitVec 15) (s : State) : Out := run (.blt a b o) s (branch a b o fun x y => x.slt y)
/-- BGE (R287). -/
def execBge (a b : BitVec 5) (o : BitVec 15) (s : State) : Out := run (.bge a b o) s (branch a b o fun x y => !x.slt y)
/-- BLTU (R287). -/
def execBltu (a b : BitVec 5) (o : BitVec 15) (s : State) : Out := run (.bltu a b o) s (branch a b o fun x y => x.ult y)
/-- BGEU (R287). -/
def execBgeu (a b : BitVec 5) (o : BitVec 15) (s : State) : Out := run (.bgeu a b o) s (branch a b o fun x y => !x.ult y)

/-- JAL (R288). -/
def execJal (d : BitVec 5) (i : BitVec 20) (s : State) : Out :=
  run (.jal d i) s do
    writeX d s.fall
    goTo (s.me.pc + 4 * i.signExtend 64)

/-- JALR: the target is checked before the link is written (R289). -/
def execJalr (d a : BitVec 5) (i : BitVec 15) (s : State) : Out :=
  run (.jalr d a i) s do
    let x ← readX a
    let t := x + imm15 i
    need (fld t 1 0 == 0) .misalignedPair t
    need (fld t 63 52 == 0) .addressRange t
    writeX d s.fall
    goTo t

/-- BKANY (R290). -/
def execBkany (a : BitVec 5) (o : BitVec 15) (s : State) : Out :=
  run (.bkany a o) s (if s.me.getK a.toNat != 0 then goTo (s.me.pc + 4 * o.signExtend 64) else pure ())
/-- BKALL (R290). -/
def execBkall (a : BitVec 5) (o : BitVec 15) (s : State) : Out :=
  run (.bkall a o) s (if s.me.getK a.toNat == BitVec.allOnes 1024 then goTo (s.me.pc + 4 * o.signExtend 64) else pure ())

end Sys2Proof.Machine
end

