-- ==== Sys2Proof/Machine/Fp.lean ====
section
/-! DEFINITION. FP: scalar floating point (R236 to R241). -/

namespace Sys2Proof.Machine

/-- The low bits of a source register that a precision reads (R79). -/
def lowBits (f : Fmt) (x : Word) : Nat := x.toNat % 2 ^ f.width

/-- An operation of two sources that rounds once (R237). -/
def fpBin (d a b : BitVec 5) (p : BitVec 2) (f : Val → Val → Nat → F Val) : M Unit := do
  let x ← readX a
  let y ← readX b
  let fm := Fmt.ofPrec p
  let mode := (← get).rmode
  let r ← liftF do
    let u ← rdVal fm (lowBits fm x)
    let v ← rdVal fm (lowBits fm y)
    roundTo fm mode (← f u v mode)
  writeX d (word r)

/-- An operation of two sources that does not round. -/
def fpRaw (d a b : BitVec 5) (p : BitVec 2) (f : Fmt → Nat → Nat → F Nat) : M Unit := do
  let x ← readX a
  let y ← readX b
  let fm := Fmt.ofPrec p
  let r ← liftF (f fm (lowBits fm x) (lowBits fm y))
  writeX d (word r)

/-- FADD (R237). -/
def execFadd (d a b : BitVec 5) (p : BitVec 2) (s : State) : Out :=
  run (.fadd d a b p) s (fpBin d a b p fun u v mode => sumVals mode [u, v])
/-- FSUB (R237). -/
def execFsub (d a b : BitVec 5) (p : BitVec 2) (s : State) : Out :=
  run (.fsub d a b p) s (fpBin d a b p fun u v mode => sumVals mode [u, v.neg])
/-- FMUL (R237). -/
def execFmul (d a b : BitVec 5) (p : BitVec 2) (s : State) : Out :=
  run (.fmul d a b p) s (fpBin d a b p fun u v _ => mulVal u v)
/-- FDIV (R237). -/
def execFdiv (d a b : BitVec 5) (p : BitVec 2) (s : State) : Out :=
  run (.fdiv d a b p) s (fpBin d a b p fun u v _ => divVal u v)
/-- FSQRT (R237). -/
def execFsqrt (d a : BitVec 5) (p : BitVec 2) (s : State) : Out :=
  run (.fsqrt d a p) s do
    let x ← readX a
    let fm := Fmt.ofPrec p
    let r ← liftF do
      let u ← rdVal fm (lowBits fm x)
      roundTo fm s.rmode (← sqrtVal u)
    writeX d (word r)
/-- FMA: the old destination is the addend, and the whole rounds once (R237, R80). -/
def execFma (d a b : BitVec 5) (p : BitVec 2) (s : State) : Out :=
  run (.fma d a b p) s do
    let x ← readX a
    let y ← readX b
    let fm := Fmt.ofPrec p
    let r ← liftF do
      let u ← rdVal fm (lowBits fm x)
      let v ← rdVal fm (lowBits fm y)
      let w ← rdVal fm (lowBits fm (s.me.getX d.toNat))
      let q ← mulVal u v
      roundTo fm s.rmode (← sumVals s.rmode [q, w])
    writeX d (word r)
/-- FMIN (R67, R237). -/
def execFmin (d a b : BitVec 5) (p : BitVec 2) (s : State) : Out :=
  run (.fmin d a b p) s (fpRaw d a b p fun f x y => minMax f false x y)
/-- FMAX (R67, R237). -/
def execFmax (d a b : BitVec 5) (p : BitVec 2) (s : State) : Out :=
  run (.fmax d a b p) s (fpRaw d a b p fun f x y => minMax f true x y)
/-- FCMP (R238). -/
def execFcmp (d a b : BitVec 5) (p : BitVec 2) (s : State) : Out :=
  run (.fcmp d a b p) s (fpRaw d a b p relate)

/-- The conversion of FCVT by kind (R239). -/
def fcvt (k : BitVec 5) (p : BitVec 2) (mode : Nat) (x : Word) : F Word := do
  let f := Fmt.ofPrec p
  match k.toNat with
  | 4 => return word (← cvtIF f mode false x.toInt)
  | 5 => return word (← cvtIF f mode false x.toNat)
  | 8 => return word (← cvtFI 64 true f mode (lowBits f x))
  | 9 => return word (← cvtFI 64 false f mode (lowBits f x))
  | 10 => return sext (← cvtFI 32 true f mode (lowBits f x)) 32
  | 11 => return word (← cvtFI 32 false f mode (lowBits f x))
  | n =>
    let g := Fmt.ofPrec (BitVec.ofNat 2 n)
    return word (← cvtFF f g (fcvtRounds k p) mode false (lowBits g x))

/-- FCVT (R239). -/
def execFcvt (d a k : BitVec 5) (p : BitVec 2) (s : State) : Out :=
  run (.fcvt d a k p) s do
    let x ← readX a
    let r ← liftF (fcvt k p s.rmode x)
    writeX d r

/-- The class of a pattern (R240). -/
def fclass (f : Fmt) (b : Nat) : Nat :=
  match f.decode b with
  | .nan g => if g then 2 ^ 8 else 2 ^ 9
  | .inf n => if n then 2 ^ 0 else 2 ^ 7
  | .fin n m _ _ =>
    if m = 0 then (if n then 2 ^ 3 else 2 ^ 4)
    else if m < 2 ^ f.mb then (if n then 2 ^ 2 else 2 ^ 5)
    else (if n then 2 ^ 1 else 2 ^ 6)

/-- FCLASS (R240). -/
def execFclass (d a : BitVec 5) (p : BitVec 2) (s : State) : Out :=
  run (.fclass d a p) s do
    let x ← readX a
    let f := Fmt.ofPrec p
    writeX d (word (fclass f (lowBits f x)))

/-- FSGN: the magnitude of a with the sign of b; a NaN gives the canonical NaN (R241). -/
def fsgn (f : Fmt) (x y : Nat) : F Nat := do
  let v ← rdVal f x
  return if v.isNan then f.canon else x % 2 ^ (f.width - 1) + y / 2 ^ (f.width - 1) * 2 ^ (f.width - 1)

/-- FSGN (R241). -/
def execFsgn (d a b : BitVec 5) (p : BitVec 2) (s : State) : Out :=
  run (.fsgn d a b p) s (fpRaw d a b p fsgn)

end Sys2Proof.Machine
end

