-- ==== Sys2Proof/Machine/LdSt.lean ====
section
/-! DEFINITION. LD, ST, LLD and LST: scalar accesses to global and local memory (R116 to R118, R199). -/

namespace Sys2Proof.Machine

/-- The address of a scalar global access (R116). -/
def globalAddr (x : Word) (o : BitVec 12) (size : Nat) : Nat := (x + o.signExtend 64 * word size).toNat

/-- LD of one register: the address, its alignment, the read and what the register receives (R116). -/
def ldOp (d a : BitVec 5) (o : BitVec 12) (size : Nat) (f : Nat → Word) : M Unit := do
  let x ← readX a
  let va := globalAddr x o size
  need (va % size == 0) .misalignedAccess (word va)
  let v ← gRead va size [d.toNat]
  writeX d (f v)

/-- ST of one register: the base is read before what is stored (R39, R117). -/
def stOp (d a : BitVec 5) (o : BitVec 12) (size : Nat) : M Unit := do
  let x ← readX a
  let v ← readX d
  let va := globalAddr x o size
  need (va % size == 0) .misalignedAccess (word va)
  gWrite va size (v.toNat % 256 ^ size)

/-- LD.b (R116). -/
def execLdB (d a : BitVec 5) (o : BitVec 12) (s : State) : Out := run (.ldB d a o) s (ldOp d a o 1 fun v => sext v 8)
/-- LD.bu (R116). -/
def execLdBu (d a : BitVec 5) (o : BitVec 12) (s : State) : Out := run (.ldBu d a o) s (ldOp d a o 1 fun v => word v)
/-- LD.h (R116). -/
def execLdH (d a : BitVec 5) (o : BitVec 12) (s : State) : Out := run (.ldH d a o) s (ldOp d a o 2 fun v => sext v 16)
/-- LD.hu (R116). -/
def execLdHu (d a : BitVec 5) (o : BitVec 12) (s : State) : Out := run (.ldHu d a o) s (ldOp d a o 2 fun v => word v)
/-- LD.w (R116). -/
def execLdW (d a : BitVec 5) (o : BitVec 12) (s : State) : Out := run (.ldW d a o) s (ldOp d a o 4 fun v => sext v 32)
/-- LD.wu (R116). -/
def execLdWu (d a : BitVec 5) (o : BitVec 12) (s : State) : Out := run (.ldWu d a o) s (ldOp d a o 4 fun v => word v)
/-- LD.d (R116). -/
def execLdD (d a : BitVec 5) (o : BitVec 12) (s : State) : Out := run (.ldD d a o) s (ldOp d a o 8 fun v => word v)
/-- LD.q: an even pair (R116). -/
def execLdQ (d a : BitVec 5) (o : BitVec 12) (s : State) : Out :=
  run (.ldQ d a o) s do
    let x ← readX a
    let va := globalAddr x o 16
    need (va % 16 == 0) .misalignedAccess (word va)
    let v ← gRead va 16 [d.toNat, d.toNat + 1]
    writeX d (word v)
    writeX (d + 1) (word (v / 2 ^ 64))
/-- ST.b (R117). -/
def execStB (d a : BitVec 5) (o : BitVec 12) (s : State) : Out := run (.stB d a o) s (stOp d a o 1)
/-- ST.h (R117). -/
def execStH (d a : BitVec 5) (o : BitVec 12) (s : State) : Out := run (.stH d a o) s (stOp d a o 2)
/-- ST.w (R117). -/
def execStW (d a : BitVec 5) (o : BitVec 12) (s : State) : Out := run (.stW d a o) s (stOp d a o 4)
/-- ST.d (R117). -/
def execStD (d a : BitVec 5) (o : BitVec 12) (s : State) : Out := run (.stD d a o) s (stOp d a o 8)
/-- ST.q: an even pair (R117). -/
def execStQ (d a : BitVec 5) (o : BitVec 12) (s : State) : Out :=
  run (.stQ d a o) s do
    let x ← readX a
    let v ← readX d
    let u ← readX (d + 1)
    let va := globalAddr x o 16
    need (va % 16 == 0) .misalignedAccess (word va)
    gWrite va 16 (v.toNat + 2 ^ 64 * u.toNat)

/-- Sizes of local accesses by code (R199). -/
def localSize (sz : BitVec 3) : Nat :=
  match sz.toNat with
  | 0 | 1 => 1
  | 2 | 3 => 2
  | 4 | 5 => 4
  | 6 => 8
  | _ => 16

/-- The offset of a local access (R199). -/
def localOff (x : Word) (o : BitVec 10) (size : Nat) : Nat := (x + o.signExtend 64 * word size).toNat

/-- What a load of a size code gives its register (R116). -/
def loadExt (sz : BitVec 3) (v : Nat) : Word :=
  match sz.toNat with
  | 0 => sext v 8
  | 2 => sext v 16
  | 4 => sext v 32
  | _ => word v

/-- LLD with a qualifier (R199). -/
def lldOp (d a : BitVec 5) (sz : BitVec 3) (o : BitVec 10) (q : Nat) : M Unit := do
  let x ← readX a
  let n := localSize sz
  let off := localOff x o n
  localCheck off n n
  loadQual q (off / 16) 1
  let v ← lRead off n
  if q = 2 then setFE false (off / 16) 1
  writeX d (loadExt sz v)
  if sz = 7#3 then writeX (d + 1) (word (v / 2 ^ 64))

/-- LST with a qualifier (R199). -/
def lstOp (d a : BitVec 5) (sz : BitVec 3) (o : BitVec 10) (q : Nat) : M Unit := do
  let x ← readX a
  let v ← readX d
  let u ← if sz = 7#3 then readX (d + 1) else pure 0
  let n := localSize sz
  let off := localOff x o n
  localCheck off n n
  storeQual q (off / 16) 1
  lWrite off n ((v.toNat + 2 ^ 64 * u.toNat) % 256 ^ n)
  if q ≠ 0 then setFE true (off / 16) 1

/-- LLD (R199). -/
def execLld (d a : BitVec 5) (sz : BitVec 3) (o : BitVec 10) (s : State) : Out := run (.lld d a sz o) s (lldOp d a sz o 0)
/-- LLD.wf (R199). -/
def execLldWf (d a : BitVec 5) (sz : BitVec 3) (o : BitVec 10) (s : State) : Out := run (.lldWf d a sz o) s (lldOp d a sz o 1)
/-- LLD.wfc (R199). -/
def execLldWfc (d a : BitVec 5) (sz : BitVec 3) (o : BitVec 10) (s : State) : Out := run (.lldWfc d a sz o) s (lldOp d a sz o 2)
/-- LST (R199). -/
def execLst (d a : BitVec 5) (sz : BitVec 3) (o : BitVec 10) (s : State) : Out := run (.lst d a sz o) s (lstOp d a sz o 0)
/-- LST.sf (R199). -/
def execLstSf (d a : BitVec 5) (sz : BitVec 3) (o : BitVec 10) (s : State) : Out := run (.lstSf d a sz o) s (lstOp d a sz o 1)
/-- LST.wesf (R199). -/
def execLstWesf (d a : BitVec 5) (sz : BitVec 3) (o : BitVec 10) (s : State) : Out := run (.lstWesf d a sz o) s (lstOp d a sz o 2)

end Sys2Proof.Machine
end

