-- ==== Sys2Proof/Machine/Lvec.lean ====
section
/-! DEFINITION. LVEC: local vector accesses, exchange stores and local atomics (R200 to R204). -/

namespace Sys2Proof.Machine

/-- VLLD (R201). -/
def execVlld (d a q : BitVec 5) (s : State) : Out :=
  run (.vlld d a q) s do
    let x ← readX a
    localCheck x.toNat 512 16
    loadQual q.toNat (x.toNat / 16) 32
    let v ← lRead x.toNat 512
    if q = 2#5 then setFE false (x.toNat / 16) 32
    writeV d (BitVec.ofNat 4096 v)

/-- VLST (R201). -/
def execVlst (d a q : BitVec 5) (s : State) : Out :=
  run (.vlst d a q) s do
    let v ← readV d
    let x ← readX a
    localCheck x.toNat 512 16
    storeQual q.toNat (x.toNat / 16) 32
    lWrite x.toNat 512 v.toNat
    if q ≠ 0#5 then setFE true (x.toNat / 16) 32

/-- The columns of LGATH: from 32 rows of K elements of w bits to column positions (R202). -/
def gatherCols (w : Nat) (rows : List Nat) : Nat :=
  let kk := 128 / w
  ((List.range kk).map fun k =>
    (((List.range 32).zip rows).map fun r => r.2 / 2 ^ (w * k) % 2 ^ w * 2 ^ (w * (32 * k + r.1))).sum).sum

/-- LGATH (R202). -/
def execLgath (d a b : BitVec 5) (s : State) : Out :=
  run (.lgath d a b) s do
    let x ← readX a
    let v ← readV b
    need (fld x 63 20 == 0 && fld x 19 18 != 3) .operandRange 0
    let base := fld x 17 0
    checkPlaced (placedOpen s.myCore base 16 16)
    let w := 4 * 2 ^ fld x 19 18
    let idx := (List.range 32).map fun i => fld v (16 * i + 15) (16 * i)
    eachM (fun i => if i = 0xFFFF then pure () else checkLocal (base + 16 * i) 16) idx
    let rows := idx.map fun i => if i = 0xFFFF then 0 else s.myCore.lread (base + 16 * i) 16
    writeV d (BitVec.ofNat 4096 (gatherCols w rows))

/-- The checks of an exchange store, and its target core and the place in its back bank (R203). -/
def exchangeTarget (x : Word) (n align : Nat) : M (Nat × Nat) := do
  let s ← get
  need (fld x 63 28 == 0) .operandRange 0
  let c := fld x 27 18
  let o := fld x 17 0
  need (decide (c < 768) && s.inLaunch c) .invalidTarget 0
  let k := s.myCore
  if k.xw = 0 ∨ o < k.xb then trap .localProtection (word o)
  else if k.xb + k.xw < o + n then trap .localProtection (word (Nat.max o (k.xb + k.xw)))
  else
    need (o % align == 0) .misalignedAccess (word o)
    if s.away c then waitFor .held
    return (c, o + k.xw)

/-- Write into the back bank of a core with the full bits of the granules written (R203). -/
def exchangeStore (c o n v : Nat) : M Unit :=
  modify fun s => s.setCore c (((s.core c).lwrite o n v).setFull (o / 16) (granuleCount o n))

/-- XST (R203). (DEDUCED, unsafe, log 36) -/
def execXst (d a : BitVec 5) (s : State) : Out :=
  run (.xst d a) s do
    let x ← readX a
    let v ← readX d
    let (c, o) ← exchangeTarget x 8 8
    pin
    exchangeStore c o 8 v.toNat

/-- VXST (R203). (DEDUCED, unsafe, log 36) -/
def execVxst (d a : BitVec 5) (s : State) : Out :=
  run (.vxst d a) s do
    let v ← readV d
    let x ← readX a
    let (c, o) ← exchangeTarget x 512 16
    exchangeStore c o 512 v.toNat

/-- LAMOADD (R204). -/
def execLamoadd (d a b : BitVec 5) (s : State) : Out :=
  run (.lamoadd d a b) s do
    let x ← readX a
    let y ← readX b
    localCheck x.toNat 8 8
    let old ← lRead x.toNat 8
    lWrite x.toNat 8 ((old + y.toNat) % 2 ^ 64)
    writeX d (word old)

/-- LCAS (R204). -/
def execLcas (d a b : BitVec 5) (s : State) : Out :=
  run (.lcas d a b) s do
    let x ← readX a
    let y ← readX b
    localCheck x.toNat 8 8
    let old ← lRead x.toNat 8
    if word old = s.me.getX d.toNat then lWrite x.toNat 8 y.toNat
    writeX d (word old)

end Sys2Proof.Machine
end

