-- ==== Sys2Proof/Machine/Mask.lean ====
section
/-! DEFINITION. MASK and VMOV (R266, R267). -/

namespace Sys2Proof.Machine

/-- Write a mask under the write mask of VX (R245, R266). -/
def maskOp (d : BitVec 5) (r : MReg) : M Unit := do
  let s ← get
  let m := s.vmask
  let keep := if s.vzero then 0 else s.me.getK d.toNat &&& ~~~ m
  writeK d.toNat ((r &&& m) ||| keep)

/-- KAND (R266). -/
def execKand (d a b : BitVec 5) (s : State) : Out :=
  run (.kand d a b) s (maskOp d (s.me.getK a.toNat &&& s.me.getK b.toNat))
/-- KOR (R266). -/
def execKor (d a b : BitVec 5) (s : State) : Out :=
  run (.kor d a b) s (maskOp d (s.me.getK a.toNat ||| s.me.getK b.toNat))
/-- KXOR (R266). -/
def execKxor (d a b : BitVec 5) (s : State) : Out :=
  run (.kxor d a b) s (maskOp d (s.me.getK a.toNat ^^^ s.me.getK b.toNat))
/-- KNOT (R266). -/
def execKnot (d a : BitVec 5) (s : State) : Out := run (.knot d a) s (maskOp d (~~~ s.me.getK a.toNat))
/-- KPOPC: the VX mask selects (R266). -/
def execKpopc (d a : BitVec 5) (s : State) : Out :=
  run (.kpopc d a) s (writeX d (word (popCount (s.me.getK a.toNat &&& s.vmask))))
/-- KFIRST (R266). -/
def execKfirst (d a : BitVec 5) (s : State) : Out :=
  run (.kfirst d a) s (writeX d
    (match (List.range 1024).find? fun i => bit (s.me.getK a.toNat &&& s.vmask) i with
      | some i => word i
      | none => BitVec.allOnes 64))
/-- KMOV: mask to mask, vector to mask, mask to vector (R266). -/
def execKmov (d a v : BitVec 5) (s : State) : Out :=
  run (.kmov d a v) s
    (match v.toNat with
      | 0 => maskOp d (s.me.getK a.toNat)
      | 1 => maskOp d ((s.me.getV a.toNat).setWidth 1024)
      | _ => do
        let old := s.me.getV d.toNat
        writeV d (BitVec.ofNat 4096 (old.toNat / 2 ^ 1024 * 2 ^ 1024 + (s.me.getK a.toNat).toNat)))

/-- VMVX: one pop however many elements it writes (R267). -/
def execVmvx (d a : BitVec 5) (t : BitVec 4) (s : State) : Out :=
  run (.vmvx d a t) s do
    let w := typeWidth t
    let x ← readX a
    vecMap d w (List.replicate (lanes w) (x.toNat % 2 ^ w)) pure
/-- VMVS (R267). -/
def execVmvs (d a b : BitVec 5) (t : BitVec 4) (s : State) : Out :=
  run (.vmvs d a b t) s do
    let w := typeWidth t
    let x ← readV a
    let j ← readX b
    let e := if j.toNat < lanes w then vElem w x j.toNat else 0
    writeX d (if tSigned t then sext e w else word e)
/-- VMOV (R267). -/
def execVmov (d a : BitVec 5) (t : BitVec 4) (s : State) : Out :=
  run (.vmov d a t) s (vecUn d a (typeWidth t) pure)

end Sys2Proof.Machine
end

