-- ==== Sys2Proof/Machine/Crypto.lean ====
section
/-! DEFINITION. The two public algorithms that firmware images and attestation use: SHA-512 and Ed25519 of RFC 8032, pure
form (R400, R401). -/

namespace Sys2Proof.Machine

/-- The bytes of a number, little-endian. -/
def natBytes (v n : Nat) : List Byte := (List.range n).map fun i => BitVec.ofNat 8 (v / 256 ^ i)

/-- The number of some bytes, little-endian. -/
def bytesNat (bs : List Byte) : Nat := bs.foldr (fun b r => b.toNat + 256 * r) 0

/-- The number of some bytes, big-endian. -/
def bytesBig (bs : List Byte) : Nat := bs.foldl (fun r b => 256 * r + b.toNat) 0

/-! ### SHA-512 -/

/-- Rotation to the right. -/
def ror (w : Word) (n : Nat) : Word := (w >>> n) ||| (w <<< (64 - n))

/-- The constants of rounds 0 to 39. -/
def shaConstantsA : List Word := [
  0x428A2F98D728AE22#64, 0x7137449123EF65CD#64, 0xB5C0FBCFEC4D3B2F#64, 0xE9B5DBA58189DBBC#64,
  0x3956C25BF348B538#64, 0x59F111F1B605D019#64, 0x923F82A4AF194F9B#64, 0xAB1C5ED5DA6D8118#64,
  0xD807AA98A3030242#64, 0x12835B0145706FBE#64, 0x243185BE4EE4B28C#64, 0x550C7DC3D5FFB4E2#64,
  0x72BE5D74F27B896F#64, 0x80DEB1FE3B1696B1#64, 0x9BDC06A725C71235#64, 0xC19BF174CF692694#64,
  0xE49B69C19EF14AD2#64, 0xEFBE4786384F25E3#64, 0x0FC19DC68B8CD5B5#64, 0x240CA1CC77AC9C65#64,
  0x2DE92C6F592B0275#64, 0x4A7484AA6EA6E483#64, 0x5CB0A9DCBD41FBD4#64, 0x76F988DA831153B5#64,
  0x983E5152EE66DFAB#64, 0xA831C66D2DB43210#64, 0xB00327C898FB213F#64, 0xBF597FC7BEEF0EE4#64,
  0xC6E00BF33DA88FC2#64, 0xD5A79147930AA725#64, 0x06CA6351E003826F#64, 0x142929670A0E6E70#64,
  0x27B70A8546D22FFC#64, 0x2E1B21385C26C926#64, 0x4D2C6DFC5AC42AED#64, 0x53380D139D95B3DF#64,
  0x650A73548BAF63DE#64, 0x766A0ABB3C77B2A8#64, 0x81C2C92E47EDAEE6#64, 0x92722C851482353B#64]

/-- The constants of rounds 40 to 79. -/
def shaConstantsB : List Word := [
  0xA2BFE8A14CF10364#64, 0xA81A664BBC423001#64, 0xC24B8B70D0F89791#64, 0xC76C51A30654BE30#64,
  0xD192E819D6EF5218#64, 0xD69906245565A910#64, 0xF40E35855771202A#64, 0x106AA07032BBD1B8#64,
  0x19A4C116B8D2D0C8#64, 0x1E376C085141AB53#64, 0x2748774CDF8EEB99#64, 0x34B0BCB5E19B48A8#64,
  0x391C0CB3C5C95A63#64, 0x4ED8AA4AE3418ACB#64, 0x5B9CCA4F7763E373#64, 0x682E6FF3D6B2B8A3#64,
  0x748F82EE5DEFB2FC#64, 0x78A5636F43172F60#64, 0x84C87814A1F0AB72#64, 0x8CC702081A6439EC#64,
  0x90BEFFFA23631E28#64, 0xA4506CEBDE82BDE9#64, 0xBEF9A3F7B2C67915#64, 0xC67178F2E372532B#64,
  0xCA273ECEEA26619C#64, 0xD186B8C721C0C207#64, 0xEADA7DD6CDE0EB1E#64, 0xF57D4F7FEE6ED178#64,
  0x06F067AA72176FBA#64, 0x0A637DC5A2C898A6#64, 0x113F9804BEF90DAE#64, 0x1B710B35131C471B#64,
  0x28DB77F523047D84#64, 0x32CAAB7B40C72493#64, 0x3C9EBE0A15C9BEBC#64, 0x431D67C49C100D4C#64,
  0x4CC5D4BECB3E42B6#64, 0x597F299CFC657E2A#64, 0x5FCB6FAB3AD6FAEC#64, 0x6C44198C4A475817#64]

/-- The constants of the 80 rounds. -/
def shaConstants : List Word := shaConstantsA ++ shaConstantsB

/-- The initial hash value. -/
def shaStart : List Word := [
  0x6A09E667F3BCC908#64, 0xBB67AE8584CAA73B#64, 0x3C6EF372FE94F82B#64, 0xA54FF53A5F1D36F1#64,
  0x510E527FADE682D1#64, 0x9B05688C2B3E6C1F#64, 0x1F83D9ABFB41BD6B#64, 0x5BE0CD19137E2179#64]

/-- The message, padded to whole blocks of 128 bytes. -/
def shaPad (m : List Byte) : List Byte :=
  let n := m.length
  let zeros := (128 - (n + 17) % 128) % 128
  m ++ [0x80#8] ++ List.replicate zeros 0#8 ++ (natBytes (8 * n) 16).reverse

/-- The 80 words of a block's schedule, the last first: n more of them. -/
def shaSchedule : Nat → List Word → List Word
  | 0, w => w
  | n + 1, w =>
    let x := w.getD 14 0
    let y := w.getD 1 0
    let s0 := ror x 1 ^^^ ror x 8 ^^^ (x >>> 7)
    let s1 := ror y 19 ^^^ ror y 61 ^^^ (y >>> 6)
    shaSchedule n ((s1 + w.getD 6 0 + s0 + w.getD 15 0) :: w)

/-- One round: the eight working variables with a constant and a word of the schedule. -/
def shaRound (v : List Word) (kw : Word × Word) : List Word :=
  match v with
  | [a, b, c, d, e, f, g, h] =>
    let t1 := h + (ror e 14 ^^^ ror e 18 ^^^ ror e 41) + ((e &&& f) ^^^ (~~~e &&& g)) + kw.1 + kw.2
    let t2 := (ror a 28 ^^^ ror a 34 ^^^ ror a 39) + ((a &&& b) ^^^ (a &&& c) ^^^ (b &&& c))
    [t1 + t2, a, b, c, d + t1, e, f, g]
  | v => v

/-- The hash value after a block. -/
def shaBlock (h : List Word) (block : List Byte) : List Word :=
  let first := (List.range 16).map fun i => word (bytesBig ((block.drop (8 * i)).take 8))
  let w := (shaSchedule 64 first.reverse).reverse
  let v := (shaConstants.zip w).foldl shaRound h
  (h.zip v).map fun p => p.1 + p.2

/-- The hash value after n blocks. -/
def shaBlocks : Nat → List Word → List Byte → List Word
  | 0, h, _ => h
  | n + 1, h, m => shaBlocks n (shaBlock h (m.take 128)) (m.drop 128)

/-- SHA-512 of a byte string, 64 bytes. (DESIGN CHOICE, safe, log 7) -/
def sha512 (m : List Byte) : List Byte :=
  let p := shaPad m
  (shaBlocks (p.length / 128) shaStart p).flatMap fun w => (natBytes w.toNat 8).reverse

/-! ### Ed25519 (RFC 8032, 5.1) -/

/-- The field's prime. -/
def edPrime : Nat := 2 ^ 255 - 19
/-- The order of the base point. -/
def edOrder : Nat := 2 ^ 252 + 27742317777372353535851937790883648493
/-- The curve's constant d. -/
def edD : Nat := 37095705934669439343138083508754565189542113879843219016388785533085940283555

/-- Arithmetic of the field. -/
def edMul (a b : Nat) : Nat := a * b % edPrime
def edAdd (a b : Nat) : Nat := (a + b) % edPrime
def edSub (a b : Nat) : Nat := (a + edPrime - b % edPrime) % edPrime

/-- A power, for an exponent of at most n bits. -/
def edPow (b e : Nat) : Nat → Nat
  | 0 => 1
  | n + 1 =>
    let r := edPow (edMul b b) (e / 2) n
    if e % 2 = 1 then edMul b r else r

/-- A point in extended homogeneous coordinates. -/
structure EdPoint where
  x : Nat
  y : Nat
  z : Nat
  t : Nat
  deriving DecidableEq, Repr

/-- The neutral element. -/
def edZero : EdPoint := ⟨0, 1, 1, 0⟩

/-- The base point. -/
def edBase : EdPoint :=
  let x := 15112221349535400772501151409588531511454012693041857206046113283949847762202
  let y := 46316835694926478169428394003475163141307993866256225615783033603165251855960
  ⟨x, y, 1, edMul x y⟩

/-- The sum of two points. -/
def edSum (p q : EdPoint) : EdPoint :=
  let a := edMul (edSub p.y p.x) (edSub q.y q.x)
  let b := edMul (edAdd p.y p.x) (edAdd q.y q.x)
  let c := edMul (edMul (2 * p.t) q.t) edD
  let d := edMul (2 * p.z) q.z
  let e := edSub b a
  let f := edSub d c
  let g := edAdd d c
  let h := edAdd b a
  ⟨edMul e f, edMul g h, edMul f g, edMul e h⟩

/-- A multiple of a point, for a factor of at most n bits. -/
def edTimes (k : Nat) (p : EdPoint) : Nat → EdPoint
  | 0 => edZero
  | n + 1 =>
    let r := edTimes (k / 2) (edSum p p) n
    if k % 2 = 1 then edSum p r else r

/-- Two points are equal. -/
def EdPoint.same (p q : EdPoint) : Bool := edMul p.x q.z == edMul q.x p.z && edMul p.y q.z == edMul q.y p.z

/-- The 32 bytes of a point, as a number. -/
def EdPoint.encode (p : EdPoint) : Nat :=
  let zi := edPow p.z (edPrime - 2) 255
  let x := edMul p.x zi
  edMul p.y zi + x % 2 * 2 ^ 255

/-- The point of 32 bytes; none where they are no point's. -/
def edDecode (n : Nat) : Option EdPoint :=
  let y := n % 2 ^ 255
  let sign := n / 2 ^ 255 % 2
  if edPrime ≤ y then none
  else
    let u := edSub (edMul y y) 1
    let v := edAdd (edMul edD (edMul y y)) 1
    let v3 := edMul (edMul v v) v
    let x0 := edMul (edMul u v3) (edPow (edMul u (edMul (edMul v3 v3) v)) ((edPrime - 5) / 8) 255)
    let vx := edMul v (edMul x0 x0)
    let x1 := if vx = u then some x0
      else if vx = edSub 0 u then some (edMul x0 (edPow 2 ((edPrime - 1) / 4) 255))
      else none
    match x1 with
    | none => none
    | some x =>
      if x = 0 ∧ sign = 1 then none
      else
        let x := if x % 2 = sign then x else edPrime - x
        some ⟨x, y, 1, edMul x y⟩

/-- The secret scalar and the prefix of a seed of 32 bytes. -/
def edExpand (seed : List Byte) : Nat × List Byte :=
  let h := sha512 seed
  let a := bytesNat (h.take 32)
  (a % 2 ^ 254 / 8 * 8 + 2 ^ 254, h.drop 32)

/-- The public key of a seed. -/
def edPublic (seed : List Byte) : BitVec 256 := BitVec.ofNat 256 (edTimes (edExpand seed).1 edBase 256).encode

/-- The signature of a message under a seed. (DESIGN CHOICE, safe, log 7) -/
def edSign (seed m : List Byte) : BitVec 512 :=
  let (a, pre) := edExpand seed
  let pk := natBytes (edPublic seed).toNat 32
  let r := bytesNat (sha512 (pre ++ m)) % edOrder
  let rp := (edTimes r edBase 256).encode
  let k := bytesNat (sha512 (natBytes rp 32 ++ pk ++ m)) % edOrder
  BitVec.ofNat 512 (rp + (r + k * a) % edOrder * 2 ^ 256)

/-- Whether a signature of a message verifies under a public key. (DESIGN CHOICE, safe, log 7) -/
def edVerify (key : BitVec 256) (m : List Byte) (sig : BitVec 512) : Bool :=
  let rn := fld sig 255 0
  let n := fld sig 511 256
  match edDecode key.toNat, edDecode rn with
  | some a, some r =>
    let k := bytesNat (sha512 (natBytes rn 32 ++ natBytes key.toNat 32 ++ m)) % edOrder
    decide (n < edOrder) && (edTimes (8 * n) edBase 256).same (edSum (edTimes 8 r 4) (edTimes (8 * k) a 256))
  | _, _ => false

end Sys2Proof.Machine
end

