-- ==== Sys2Proof/Machine/Mgmt.lean ====
section
/-! DEFINITION. The page-fault service, the management interface, the host port, the device registers and the monitors
(R83, R100, R363, R394 to R405). -/

namespace Sys2Proof.Machine

/-! ### The page-fault service (R100) -/

/-- The answer to an item: the access is tried again, or the fault is delivered, precisely to a thread and deferred for
an engine or a stream (R100). Cycles that th has waited do not count toward its budget (R326). -/
def serveItem (s : State) (i : PageItem) (retry : Bool) : State :=
  let s := { s with pageItems := s.pageItems.filter fun j => j.id != i.id }
  match i.asker with
  | .thread c t deferred =>
    let th := s.thread c t
    if th.wait = .pageFault i.id then
      let waited := s.cycle - th.since
      let k := s.core c
      let act := if t = 4 then k.act.map fun (a : Activation) => { a with budget := a.budget + waited } else k.act
      let s := s.setCore c { (k.setThread t { th with wait := .none }) with act := act }
      if retry then s else trapThread s c t .notPresent i.va deferred
    else s
  | .copy c p => if retry then s else copyFault s c p .notPresent i.va.toNat
  | .stream c t n j =>
    if retry then s
    else
      match (s.thread c t).streams.find? n with
      | none => s
      | some r => if nextAhead r = some j then queueElem s c t n r ⟨j, 0, 0, some (.notPresent, i.va)⟩ else s
  | .frame c t =>
    let th := s.thread c t
    let s := if th.wait = .pageFault i.id then s.setThread c t { th with wait := .none } else s
    if retry then s else { s with pageItems := s.pageItems ++ [{ i with declined := true }] }
  | .queue x q => if retry then settleQueue s x q else failQueue s x q i.va.toNat
  -- the fault reaches the kiosk's step when the launch of its ring is bound (R217), another unit's when it tries again
  | .kiosk .. | .other => if retry then s else { s with pageItems := s.pageItems ++ [{ i with declined := true }] }

/-- A table page of zeros at a frame of HBM. -/
def zeroTable (s : State) (seed : Word) (frame : Nat) : State :=
  (List.range 128).foldl (fun s i => writeSector s (homeSlice s seed (frame + 32 * i)) (frame / 32 + i) 0 true true) s

/-- The frame, a 4 KiB page of HBM, and the rights that the service gives at an open choice.
(DESIGN CHOICE, unsafe, log 98) -/
def chosenFrame (w : Word) : Nat := w.toNat / 2 ^ 12 % 2 ^ 27 * 4096

/-- The service makes the page of an address present: tables that lack are set up, and a leaf is written where the walk
finds none; frames and rights are free values, and a readable page results (R94, R100).
(DESIGN CHOICE, unsafe, log 98) -/
def mapFrom (s : State) (seed : Word) (va : Nat) : Nat → Nat → State
  | table, 0 =>
    let a := table + 8 * (va / 2 ^ 12 % 512)
    if (readPa s seed a 8).any fun e => e % 2 == 0 then
      let w := Config.freePte s.free
      let e := 1 + 2 + 4 + fld w 5 3 * 8 + chosenFrame w
      (writePa { s with free := s.free + 1 } seed a 8 e).getD s
    else s
  | table, l + 1 =>
    let a := table + 8 * (if l + 1 = 4 then va / 2 ^ 48 % 16 else va / 2 ^ (12 + 9 * (l + 1)) % 512)
    match readPa s seed a 8 with
    | none => s
    | some e =>
      if e % 2 = 1 then
        if badPte s (l + 1) va e || bit (word e) 1 then s else mapFrom s seed va (fld (word e) 45 12 * 4096) l
      else
        let frame := chosenFrame (Config.freePte s.free)
        let s := zeroTable { s with free := s.free + 1 } seed frame
        match writePa s seed a 8 (1 + frame) with
        | none => s
        | some s => mapFrom s seed va frame l

/-- The service makes a page of a context present (R100). (DESIGN CHOICE, unsafe, log 98) -/
def mapPage (s : State) (x va : Nat) : State := mapFrom s (s.ctx x).seed va ((s.ctx x).root.toNat * 128) 4

/-- PAGE_FAULT_SERVICE: the firmware serves an item of a context: it makes the page present and has the access tried again,
or declines (R100). Its access to the table waits at an entry that another agent holds (R139). In host-assisted mode the
host serves it (R363). -/
def execPageFaultService (s : State) : Out :=
  match s.item with
  | some (.pageFaultService x n retry) =>
    runStep (.pageFaultService x n retry) s fun s =>
      match s.pageItems.find? fun i => i.id == n && i.ctx == x && !i.declined && i.notice.isNone with
      | none => none
      | some i =>
        if retry && walkHeld s .other 768 x .write i.va.toNat then none
        else some (serveItem (if retry then mapPage s x i.va.toNat else s) i retry)
  | _ => .next s

/-! ### The mailbox (R397, R398) -/

/-- Argument i of the request area. -/
def mbArg (s : State) (i : Nat) : Nat := Mem.read s.dev (0x300000 + 8 * i) 8

/-- The doorbell doubleword. -/
def doorbell (s : State) : Word := word (Mem.read s.dev 0x300080 8)

/-- Complete the command: the response, then the doorbell with busy clear (R397). -/
def finishMailbox (s : State) (status : Nat) : State :=
  let d := setFld (setFld (doorbell s) 31 24 status) 0 0 0
  let dev := Mem.write s.dev 0x300040 64 d.toNat
  { s with dev := Mem.write dev 0x300080 8 d.toNat }

/-- The command of a code, which answers its status (R397). -/
def mailbox (s : State) (code : Nat) (f : State → Nat × State) : Option State :=
  if bit (doorbell s) 0 && fld (doorbell s) 15 8 == code then
    let r := f s
    some (finishMailbox r.2 r.1)
  else some s

/-- A pending page notice (R398, R424). -/
def pageNotice (s : State) : Option PageItem :=
  s.pageItems.find? fun i => i.ctx == mbArg s 0 && i.notice == some (mbArg s 1) && !i.declined

/-- Answer a page notice. -/
def pageAnswer (retry : Bool) (s : State) : Nat × State :=
  match pageNotice s with
  | some i => (0, serveItem s i retry)
  | none => (1, s)

/-- PAGE_MAP: the faulting access retries (R398). -/
def execPageMap (s : State) : Out :=
  match s.item with
  | some .pageMap => runStep .pageMap s fun s => mailbox s 1 (pageAnswer true)
  | _ => .next s

/-- PAGE_DECLINE: the fault is delivered (R398). -/
def execPageDecline (s : State) : Out :=
  match s.item with
  | some .pageDecline => runStep .pageDecline s fun s => mailbox s 2 (pageAnswer false)
  | _ => .next s

/-- The held barrier that a request names: context, core, barrier (R363, R398). (DEDUCED, unsafe, log 77) -/
def heldBarrier (s : State) : Option (Nat × Nat) :=
  let c := mbArg s 1
  let b := mbArg s 2
  if c < 768 ∧ b < 128 ∧ (s.core c).bound.isSome ∧ s.coreCtx c = mbArg s 0 ∧ ((s.core c).bar b).held then some (c, b) else none

/-- The same of a launch that is set aside on the core: the launch, what is set aside and whether the barrier is a group's
(R360, R398). (DEDUCED, unsafe, log 77) -/
def heldAside (s : State) : Option (LaunchRun × Nat × SavedTasks × Bool) :=
  s.launches.findSome? fun p =>
    let key := savedKey p.2.order (mbArg s 1)
    if p.2.ctx = mbArg s 0 ∧ mbArg s 1 < 768 then
      (s.savedTasks.find? key).bind fun a => (a.held.find? fun e => e.1 == mbArg s 2).map fun e => (p.2, key, a, e.2)
    else none

/-- BARRIER_EXTEND: the held phase runs another timeout, from when its launch is bound again where it is set aside (R363,
R398). (DEDUCED, unsafe, log 77) -/
def execBarrierExtend (s : State) : Out :=
  match s.item with
  | some .barrierExtend =>
    runStep .barrierExtend s fun s => mailbox s 3 fun s =>
      let n := mbArg s 2
      match heldBarrier s, heldAside s with
      | some (c, b), _ =>
        let k := s.core c
        (0, s.setCore c (k.setBar b { k.bar b with held := false, first := some s.cycle }))
      | none, some (_, key, a, _) =>
        let a := { a with held := a.held.filter (fun e => e.1 != n), extended := a.extended ++ [n] }
        (0, { s with savedTasks := s.savedTasks.set key a })
      | none, none => (1, s)
  | _ => .next s

/-- The timeout of a barrier takes effect for a launch that is set aside on the counting core: at once on the cores where it is
bound, on the others when it is bound there again (R310). -/
def expireAside (s : State) (r : LaunchRun) (c b : Nat) (group : Bool) : State :=
  let cs := if group then r.ld.cores else [c]
  let s := setTouts s r.order (· ++ cs.map fun d => (d, b))
  (cs.filter fun d => launchHere s d r.order == some true).foldl (fun s d => applyTouts s d r.order) s

/-- BARRIER_EXPIRE: the timeout takes effect (R310, R398). -/
def execBarrierExpire (s : State) : Out :=
  match s.item with
  | some .barrierExpire =>
    runStep .barrierExpire s fun s => mailbox s 4 fun s =>
      let n := mbArg s 2
      match heldBarrier s, heldAside s with
      | some (c, b), _ => (0, timeoutBarrier s c b)
      | none, some (r, key, a, group) =>
        let s := { s with savedTasks := s.savedTasks.set key { a with held := a.held.filter fun e => e.1 != n } }
        (0, expireAside s r (mbArg s 1) n group)
      | none, none => (1, s)
  | _ => .next s

/-- Contain a posted fault at a level of R383's table: the launch of the fault, if it still exists.
(DEDUCED, unsafe, log 75; DEDUCED, unsafe, log 76) -/
def containAt (s : State) (i : TriageItem) (level : Nat) : State :=
  let s := { s with triage := s.triage.filter fun j => j != i }
  let contain := fun (s : State) (r : LaunchRun) => containLaunch s i.core i.errBit i.cause r
  match level, List.find? (fun (p : Nat × LaunchRun) => p.2.order == i.order) s.launches with
  | 4, _ => s.emit .warmReset
  | _, none => s
  | 1, some p => (repushTask s p.2.ld i.order i.core i.task).getD (contain s p.2)
  | 3, some p => setQState (contain s p.2) i.ctx p.2.queue 2
  | _, some p => contain s p.2

/-- CONTAIN: the host chooses the level of a posted fault (R363, R398). (DEDUCED, unsafe, log 76) -/
def execContain (s : State) : Out :=
  match s.item with
  | some .contain =>
    runStep .contain s fun s => mailbox s 5 fun s =>
      match s.triage.find? fun i => i.ctx == mbArg s 0 && i.id == mbArg s 1 with
      | none => (1, s)
      | some i =>
        let level := mbArg s 2
        if level < i.inner ∨ 4 < level then (1, s) else (0, containAt s i level)
  | _ => .next s

/-- The image that the management core runs. -/
def Firmware.running (f : Firmware) : Image := f.image.getD ⟨Config.bootHeader, Config.bootBody⟩

/-- Fields of an image (R400). -/
def Image.version (i : Image) : Nat := bytesAt i.header.toNat 0 8
def Image.digest (i : Image) : BitVec 512 := BitVec.ofNat 512 (bytesAt i.header.toNat 0x10 64)

/-- The seed of the identity key pair, as bytes (R401). -/
def identity : List Byte := natBytes Config.identitySeed.toNat 32

/-- The report of the attest command before its signature, 192 bytes (R401). -/
def reportNat (s : State) (nonce : Nat) : Nat :=
  let live := s.ctxs.foldl (fun n p => if p.2.live then n + 2 ^ p.1 else n) 0
  packNat [(256, nonce), (256, (edPublic identity).toNat), (512, s.firmware.running.digest.toNat), (64, s.firmware.running.version),
    (64, s.firmware.counter), (64, live), (320, 0)]

/-- ATTEST (R397, R401). -/
def execAttest (s : State) : Out :=
  match s.item with
  | some .attest =>
    runStep .attest s fun s => mailbox s 7 fun s =>
      let body := reportNat s (Mem.read s.dev 0x300000 32)
      let sig := edSign identity (natBytes body 192)
      (0, { s with dev := Mem.write s.dev 0x300100 256 (body + 2 ^ 1536 * sig.toNat) })
  | _ => .next s

/-- Bytes of memory at a physical address, none where there is no memory or a sector is poisoned.
(DEDUCED, unsafe, log 66) -/
def physRead (s : State) (pa n : Nat) : Option Nat :=
  if (partsOf pa n).all fun p => populated s p.1 && !s.poison.contains (p.1 / 32) then some (Mem.read s.mem pa n) else none

/-- A management core accepts an image (R400): its length and its zeros, its signature under the Dwevis key, its digest,
its version against the fused counter. (DEDUCED, unsafe, log 66) -/
def imageGood (counter : Nat) (i : Image) : Bool :=
  let h := i.header.toNat
  bytesAt h 8 8 == i.body.length && bytesAt h 0x90 112 == 0
  && edVerify Config.dwevisKey (natBytes h 0x50) (BitVec.ofNat 512 (bytesAt h 0x50 64))
  && BitVec.ofNat 512 (bytesNat (sha512 i.body)) == i.digest && decide (counter ≤ i.version) && decide (i.version ≤ 128)

/-- FIRMWARE_STAGE: verify an image (R398, R400). (DEDUCED, unsafe, log 66) -/
def execFirmwareStage (s : State) : Out :=
  match s.item with
  | some .firmwareStage =>
    runStep .firmwareStage s fun s => mailbox s 8 fun s =>
      let pa := mbArg s 0
      let n := mbArg s 1
      if n < 256 then (1, s)
      else
        match physRead s pa 256, physRead s (pa + 256) (n - 256) with
        | some hdr, some body =>
          let i : Image := ⟨BitVec.ofNat 2048 hdr, natBytes body (n - 256)⟩
          if imageGood s.firmware.counter i then (0, { s with firmware := { s.firmware with staged := some i } }) else (1, s)
        | _, _ => (2, s)
  | _ => .next s

/-- FIRMWARE_ACTIVATE: the staged image is installed at the next warm reset (R398). -/
def execFirmwareActivate (s : State) : Out :=
  match s.item with
  | some .firmwareActivate =>
    runStep .firmwareActivate s fun s => mailbox s 9 fun s =>
      if s.firmware.staged.isSome then (0, { s with firmware := { s.firmware with activate := true } }) else (1, s)
  | _ => .next s

/-- TLB_INVALIDATE: the effect of TLBINV for a context (R376, R398). -/
def execTlbInvalidate (s : State) : Out :=
  match s.item with
  | some .tlbInvalidate =>
    runStep .tlbInvalidate s fun s => mailbox s 10 fun s =>
      let x := mbArg s 0
      let mode := mbArg s 1
      if 64 ≤ x ∨ 2 ≤ mode ∨ !(s.ctx x).live then (1, s)
      else (0, dropTlb s x (if mode = 0 then none else some (mbArg s 2)))
  | _ => .next s

/-- The step that a command code starts (R398). -/
def mailboxEvent (code : Nat) : Option Event :=
  match code with
  | 1 => some .pageMap
  | 2 => some .pageDecline
  | 3 => some .barrierExtend
  | 4 => some .barrierExpire
  | 5 => some .contain
  | 6 => some .warmReset
  | 7 => some .attest
  | 8 => some .firmwareStage
  | 9 => some .firmwareActivate
  | 10 => some .tlbInvalidate
  | _ => none

/-! ### Monitors and device registers (R83, R348, R357, R393, R397, R402) -/

/-- A monitor after reset (R402). -/
def Monitor.reset : Monitor := ⟨0, 0, List.replicate 16 0⟩

/-- A write of a monitor's configuration: reserved bits stay zero, and a write of 1 to en starts it afresh (R402). -/
def setMonitor (s : State) (m : Nat) (v : Word) : State :=
  let v := v &&& 0x00FFFFFF0000FF01#64 ||| (v &&& 0x000000FF00000000#64)
  let old := s.monitors.get m Monitor.reset
  let fresh : Monitor := ⟨v, if fld v 33 32 = 1 then BitVec.allOnes 64 else 0, List.replicate 16 0⟩
  { s with monitors := s.monitors.set m (if bit v 0 then fresh else { old with config := v }) }

/-- MONITOR_CONFIG_WRITE (R402). -/
def execMonitorConfigWrite (s : State) : Out :=
  match s.item with
  | some (.monitorConfigWrite m v) => runStep (.monitorConfigWrite m v) s fun s => some (setMonitor s m v)
  | _ => .next s

/-- A write of doubleword i of a context descriptor (R348): a change of V creates or destroys the context, and the
fields of a context that exists change at once. -/
def writeCtxReg (s : State) (x i : Nat) (v : Word) : State :=
  let s := { s with dev := Mem.write s.dev (64 * x + 8 * i) 8 v.toNat }
  let cx := s.ctx x
  if i = 0 then
    if bit v 0 && !cx.live then s.emit (.contextCreate x (BitVec.ofNat 512 (Mem.read s.dev (64 * x) 64)))
    else if !bit v 0 && cx.live then s.emit (.contextDestroy x)
    else if cx.live then s.setCtx x { cx with root := BitVec.ofNat 39 (fld v 46 8) }
    else s
  else if cx.live then
    s.setCtx x (match i with
      | 1 => { cx with seed := v }
      | 2 => { cx with lawbase := v }
      | 3 => { cx with hndbase := v }
      | 4 => { cx with qbase := v }
      | 5 => { cx with spill := v }
      | 6 => { cx with modes := v &&& 0x3F#64 }
      | _ => cx)
  else s

/-- The record in slot 4 of a core that the host has handed over and dispatch has not taken up (R362).
(DEDUCED, unsafe, log 97) -/
def handedOver (s : State) (c : Nat) : Option (BitVec 256) :=
  s.flight.findSome? fun e => match e with | .hostBindRecord d w => if d = c then some w else none | _ => none

/-- A write of doubleword i of a core's slot j (R357, R362): the host writes slot 4, and the doubleword with V hands
the record over; while slot 4 holds a record a write is ignored. -/
def writeSlotReg (s : State) (c j i : Nat) (v : Word) : State :=
  if j ≠ 4 || (SMap.find? (s.core c).slots 4).isSome || (handedOver s c).isSome then s
  else
    let a := 0x100000 + 160 * c + 128
    let s := { s with dev := Mem.write s.dev (a + 8 * i) 8 v.toNat }
    if i = 0 ∧ bit v 0 then s.emit (.hostBindRecord c (BitVec.ofNat 256 (Mem.read s.dev a 32))) else s

/-- A write of the doorbell (R3, R397): ignored while busy, status is read-only; a code that is no command's is answered with status 1. -/
def writeDoorbell (s : State) (v : Word) : State :=
  if bit (doorbell s) 0 then s
  else
    let d := (v &&& 0xFFFFFFFF0000FF01#64) ||| (doorbell s &&& 0xFF000000#64)
    let s := { s with dev := Mem.write s.dev 0x300080 8 d.toNat }
    if bit d 0 then
      match mailboxEvent (fld d 15 8) with
      | some e => s.emit e
      | none => finishMailbox s 1
    else s

/-- REGISTER_WRITE: a host write of a doubleword in the device register space. What is read-only, and what no register
stands behind, ignores it (R3, R83). -/
def execRegisterWrite (s : State) : Out :=
  match s.item with
  | some (.registerWrite o v) =>
    runStep (.registerWrite o v) s fun s =>
      some (
        if o < 64 * 64 then writeCtxReg s (o / 64) (o % 64 / 8) v
        else if 0x100000 ≤ o ∧ o < 0x100000 + 160 * 768 then
          let p := o - 0x100000
          writeSlotReg s (p / 160) (p % 160 / 32) (p % 32 / 8) v
        else if 0x300000 ≤ o ∧ o < 0x300040 then { s with dev := Mem.write s.dev o 8 v.toNat }
        else if o = 0x300080 then writeDoorbell s v
        else if 0x400000 ≤ o ∧ o < 0x400000 + 0x60 * (128 + 8 * 768) ∧ (o - 0x400000) % 0x60 = 0 then
          setMonitor s ((o - 0x400000) / 0x60) v
        else s)
  | _ => .next s

/-! ### Reads of the device register space through BAR0 (R83, R394) -/

/-- A bind record as a slot holds it (R357). -/
def slotNat (r : BindRec) : Nat :=
  packNat [(105, 1), (1, boolNat r.resume), (2, r.level), (4, r.queue), (6, r.ctx), (10, r.pos), (16, 0), (48, r.order), (64, r.desc.toNat)]

/-- Doubleword i of a context descriptor: what the host wrote, with V and cstat; reserved bits read zero (R3, R348). -/
def readCtxReg (s : State) (x i : Nat) : Nat :=
  let w := word (Mem.read s.dev (64 * x + 8 * i) 8)
  match i with
  | 0 => ((setFld (setFld w 3 1 (s.ctx x).cstat.toNat) 0 0 (boolNat (s.ctx x).live)) &&& 0x00007FFFFFFFFF0F#64).toNat
  | 6 => (w &&& 0x3F#64).toNat
  | 7 => 0
  | _ => w.toNat

/-- Doubleword i of slot j of a core; reserved bits read zero (R3, R357, R362). -/
def readSlotReg (s : State) (c j i : Nat) : Nat :=
  match (SMap.find? (s.core c).slots j).or (if j = 4 then (handedOver s c).map recordOf else none) with
  | some r => slotNat r / 2 ^ (64 * i) % 2 ^ 64
  | none =>
    let w := word (if j = 4 then Mem.read s.dev (0x100000 + 160 * c + 128 + 8 * i) 8 else 0)
    match i with
    | 0 => 0
    | 1 => (w &&& 0xFFFFFE0000000000#64).toNat
    | 2 => (w &&& 0xFFFFFFFFFFFF0000#64).toNat
    | _ => w.toNat

/-- Doubleword i of a monitor: its configuration, its result, its bins (R402). -/
def readMonitor (s : State) (m i : Nat) : Nat :=
  let n := s.monitors.get m Monitor.reset
  match i with
  | 0 => n.config.toNat
  | 1 => n.result.toNat
  | i => (n.bins.getD (2 * (i - 2)) 0).toNat + 2 ^ 32 * (n.bins.getD (2 * (i - 2) + 1) 0).toNat

/-- The doubleword at an offset of the device register space; what no register stands behind reads zero (R83, R348, R357,
R393, R397, R402). (DESIGN CHOICE, unsafe, log 99) -/
def readDevice (s : State) (o : Nat) : Nat :=
  if o < 64 * 64 then readCtxReg s (o / 64) (o % 64 / 8)
  else if 0x100000 ≤ o ∧ o < 0x100000 + 160 * 768 then
    let p := o - 0x100000
    readSlotReg s (p / 160) (p % 160 / 32) (p % 32 / 8)
  else if 0x200000 ≤ o ∧ o < 0x280000 then
    let p := o % 2 ^ 16
    let e := fun (l : SMap (BitVec 128)) => (l.get (256 * ((o - 0x200000) / 2 ^ 16) + p % 4096 / 16) 0).toNat / 2 ^ (64 * (p % 16 / 8)) % 2 ^ 64
    if p < 4096 then e s.arrayLog else if p < 8192 then e s.busLog else 0
  else if 0x300000 ≤ o ∧ o < 0x300200 then Mem.read s.dev o 8
  else if 0x400000 ≤ o ∧ o < 0x400000 + 0x60 * (128 + 8 * 768) then readMonitor s ((o - 0x400000) / 0x60) ((o - 0x400000) % 0x60 / 8)
  else 0

/-- The host reads an aligned doubleword through BAR0 (R394). (DESIGN CHOICE, unsafe, log 99) -/
def readBar0 (s : State) (o : Nat) : State := { s with hostReads := s.hostReads ++ [some (natBytes (readDevice s (o / 8 * 8)) 8)] }

/-- CLOCK_THROTTLE: a clock change alters only timing (R405). -/
def execClockThrottle (s : State) : Out :=
  match s.item with
  | some (.clockThrottle f) => runStep (.clockThrottle f) s fun s => some { s with mhz := f }
  | _ => .next s

/-! ### The host port (R394, R395) -/

/-- A write of the port that completes with Unsupported Request is dropped and counted (R395).
(DEDUCED, unsafe, log 65) -/
def portError (s : State) : State := { s with portErrors := s.portErrors + 1 }

/-- Queues of a context whose header a range of addresses touches (R351). (DEDUCED, unsafe, log 53) -/
def touchedQueues (s : State) (x va n : Nat) : List Nat :=
  (List.range 16).filter fun q => decide (va < queueHdr s x q + 64) && decide (queueHdr s x q < va + n)

/-- What dispatch makes of a host write of some bytes at an address that touches a queue's header: the weight, the tail and
nrd may have changed (R331, R351, R352). A weight of 0 disables the queue at once, and one that is not has the header
read (R386). (DEDUCED, unsafe, log 53) -/
def noteHeader (s : State) (x va : Nat) (data : List Byte) (q : Nat) : State :=
  let s := match (if va ≤ queueHdr s x q + 14 then data[queueHdr s x q + 14 - va]? else none) with
    | none => s
    | some b => if b.toNat / 4 % 16 = 0 then disableQueue s x q else s.emit (.queueEnable x q)
  (settleQueue s x q).emit (.commandAccept x q)

/-- Check every part of a host access before any is performed (R102, R395). (DEDUCED, unsafe, log 65) -/
def portParts (s : State) (x : Nat) (nd : Rights) : List (Nat × Nat) → Except Denied Unit
  | [] => .ok ()
  | (va, _) :: ps =>
    match unitCheck s .host 768 x false nd va with
    | .error e => .error e
    | .ok _ => portParts s x nd ps

/-- HOST_BAR2_WRITE: a posted write; one that faults is dropped and counted (R395). (DEDUCED, unsafe, log 65) -/
def execHostBar2Write (s : State) : Out :=
  match s.item with
  | some (.hostBar2Write x va data) =>
    runStep (.hostBar2Write x va data) s fun s =>
      if 64 ≤ x ∨ !(s.ctx x).live then some (portError s)
      else
        let n := data.length
        let ps := partsOf va.toNat n
        let v := bytesNat data
        let denied := fun (d : Denied) =>
          match d with
          | .held _ => none
          | .fault c a => unitFate s x 0 0 c a 2 fun s => some (portError s)
        match portParts s x .write ps with
        | .error d => denied d
        | .ok () =>
          match unitWrite s .host 768 x false ps v with
          | (some d, _) => denied d
          | (none, s) => some ((touchedQueues s x va.toNat n).foldl (fun s q => noteHeader s x va.toNat data q) s)
  | _ => .next s

/-- HOST_BAR2_READ (R395). -/
def execHostBar2Read (s : State) : Out :=
  match s.item with
  | some (.hostBar2Read x va n) =>
    runStep (.hostBar2Read x va n) s fun s =>
      let refuse := fun (s : State) => { s with hostReads := s.hostReads ++ [none] }
      if 64 ≤ x ∨ !(s.ctx x).live then some (refuse s)
      else
        match unitRead s .host 768 x false (partsOf va.toNat n) with
        | .error (.held _) => none
        | .error (.fault c a) =>
          unitFate s x 0 0 c a 1 fun s => some (refuse s)
        | .ok (v, s) => some { s with hostReads := s.hostReads ++ [some (natBytes v n)] }
  | _ => .next s

end Sys2Proof.Machine
end

