-- ==== Sys2Proof/Machine/Ord.lean ====
section
/-! DEFINITION. ORD: FENCE and ISYNC (R152, R153). -/

namespace Sys2Proof.Machine

/-- A copy that the issuing thread started is in flight (R152). -/
def copiesPending (s : State) : Bool := s.myCore.copies.any fun c => c.2.slot == s.tid && c.2.state == 0

/-- A remote operation of a source that has not been performed in this package, or that a checked pair still gates on its
way to its home (R148, R381). -/
def remoteOf (pkg : Nat) (src : Word) : Event → Bool
  | .remoteLoad m | .remoteStore m | .remoteAtomic m | .remoteLaw m => m.src == src
  | .messageArrival m =>
    let h := fld m.desc 33 26
    m.src == src && (decide (240 ≤ h) && decide (h ≤ 243) || fld m.desc 25 10 != pkg)
  | _ => false

/-- A remote operation of the issuing thread has not been acknowledged (R152, R334). (DEDUCED, safe, log 40) -/
def remotesPending (s : State) : Bool :=
  let src := sourceWord s.tid s.pkg s.cid
  (s.unacked.any fun u => u.1 == src && fld u.2.2.desc 25 10 != s.pkg) || s.flight.any (remoteOf s.pkg src)
    || s.myCore.gated.any (remoteOf s.pkg src)

/-- FENCE (R152). (DEDUCED, safe, log 40) -/
def execFence (v c : BitVec 1) (s : State) : Out :=
  run (.fence v c) s do
    if c = 1#1 && copiesPending s then waitFor .copyPlace
    else if v = 1#1 && remotesPending s then waitFor .fence
    else pure ()

/-- ISYNC: the thread's fetched words are discarded (R153). -/
def execIsync (s : State) : Out := run .isync s (modMe fun t => { t with fetched := [] })

end Sys2Proof.Machine
end

