-- ==== Sys2Proof/Machine/StageDesc.lean ====
section
/-! DEFINITION. The descriptor of an annexed stage, and the end of a cancelled split (R337, R338, R343). -/

namespace Sys2Proof.Machine

/-! ### The stage descriptor (R337, R338) -/

structure StageDesc where
  mpc : Word
  spc : Word
  highdur : Nat
  lowdur : Nat
  high : Nat
  low : Nat
  soff : Nat
  slen : Nat
  mbuf : Nat
  rhdr : Nat
  kw : Bool
  koff : Nat
  busy : Bool
  /-- The 64 entries, in order. -/
  entries : List Nat
  deriving DecidableEq, Repr

/-- The descriptor in its 1,088 bytes. (DESIGN CHOICE, safe, log 89) -/
def stageDesc (n : Nat) : StageDesc :=
  let w := BitVec.ofNat 512 n
  { mpc := word (fld w 511 448), spc := word (fld w 447 384), highdur := fld w 383 352, lowdur := fld w 351 320
    high := fld w 319 304, low := fld w 303 288, soff := fld w 287 270, slen := fld w 269 252, mbuf := fld w 251 234
    rhdr := fld w 233 216, kw := bit w 200, koff := fld w 199 191, busy := bit w 0
    entries := (List.range 64).map fun e => bytesAt n (64 + 16 * e) 16 }

/-- Fields of a key-range entry. -/
def entryCore (e : Nat) : Nat := fld (word e) 27 18
def entryParent (e : Nat) : Nat := fld (word e) 37 28
def entryOf (lo gen : Nat) (hold : Bool) (parent core hdr : Nat) : Nat :=
  lo * 2 ^ 64 + gen * 2 ^ 48 + 2 ^ 47 + boolNat hold * 2 ^ 46 + parent * 2 ^ 28 + core * 2 ^ 18 + hdr

/-- Valid entries with their numbers. -/
def StageDesc.valid (d : StageDesc) : List (Nat × Nat) :=
  (d.entries.mapIdx fun i e => (i, e)).filter fun p => entryValid p.2

/-- The table names no key twice and sets no reserved bit, in an entry that is not valid either (R4, R338, R339).
(DEDUCED, unsafe, log 71) -/
def StageDesc.sound (d : StageDesc) : Bool :=
  let los := d.valid.map fun p => entryLo p.2
  los.length == los.eraseDups.length && d.entries.all fun e => fld (word e) 45 38 == 0

/-- Every valid entry names cores that exist (R11). -/
def StageDesc.targets (d : StageDesc) : Bool := d.valid.all fun p => decide (entryCore p.2 < 768) && decide (entryParent p.2 < 768)

/-- The first key above a range, 2^64 for the top range. -/
def StageDesc.upper (d : StageDesc) (lo : Nat) : Nat :=
  (d.valid.map fun p => entryLo p.2).foldl (fun b l => if lo < l ∧ l < b then l else b) (2 ^ 64)

/-- The core owns a range. -/
def StageDesc.owns (d : StageDesc) (c : Nat) : Bool := d.valid.any fun p => entryCore p.2 == c

/-- Owner cores, each once. -/
def StageDesc.owners (d : StageDesc) : List Nat := (d.valid.map fun p => entryCore p.2).eraseDups

/-- Read the descriptor at an address, as an ordinary access of the dispatch hardware (R341, R423). A header or an entry with
a reserved bit, or two entries with one key, end in a descriptor-format fault (R4, R337, R338), an entry that names no core
as an invalid target (R11). (DEDUCED, unsafe, log 71) -/
def readStage (s : State) (x : Nat) (a : Word) : Except Denied (StageDesc × State) :=
  match unitRead s .other 768 x true (partsOf a.toNat 1088) with
  | .error d => .error d
  | .ok (n, s) =>
    if bytesAt n 0 64 / 2 ^ 201 % 2 ^ 15 ≠ 0 ∨ bytesAt n 0 64 / 2 % 2 ^ 190 ≠ 0 ∨ !(stageDesc n).sound then .error (.fault .descriptorFormat a.toNat)
    else if !(stageDesc n).targets then .error (.fault .invalidTarget a.toNat)
    else .ok (stageDesc n, s)

/-- The dispatch hardware uses the headers of these cores' stage rings: a malformed one is rejected as a whole (R4, R223). -/
def stageRings (s : State) (h : Nat) (cs : List Nat) : Except Denied Unit :=
  if cs.any fun c => ringBad (s.core c) (ringHdr (s.core c) h) then .error (.fault .descriptorFormat h) else .ok ()

/-- Write bytes of the descriptor, one access (R338). -/
def writeStage (s : State) (x : Nat) (a : Word) (off n v : Nat) : Except Denied State :=
  match unitWrite s .other 768 x true (partsOf (a.toNat + off) n) v with
  | (none, s) => .ok s
  | (some d, _) => .error d

/-- Write an entry. -/
def writeEntry (s : State) (x : Nat) (a : Word) (i e : Nat) : Except Denied State := writeStage s x a (64 + 16 * i) 16 e

/-- Write the busy bit: the other bits of its byte are reserved, and zero in a good descriptor. -/
def writeBusy (s : State) (x : Nat) (a : Word) (b : Bool) : Except Denied State := writeStage s x a 0 1 (boolNat b)

/-- Copy bytes inside the package as the dispatch hardware's engine accesses, and set no full bit. -/
def copyLocal (s : State) (src so dst d n : Nat) : State := s.setCore dst ((s.core dst).lwrite d n ((s.core src).lread so n))

/-- A split is cancelled (R343): the snapshot goes back into the state region, the entry of m is written with V = 0, busy is
cleared, and a dead notice is posted (R424). -/
def cancelSplit (s : State) (a : Annex) : Except Denied State :=
  let x := keyCtx a.key
  match readStage s x a.stage with
  | .error d => .error d
  | .ok (d, s) =>
    match writeEntry (copyLocal s a.o d.mbuf a.o d.soff d.slen) x a.stage a.entry 0 with
    | .error e => .error e
    | .ok s =>
      (writeBusy s x a.stage false).map fun s =>
        let s := { s with annexes := s.annexes.filter fun b => b != a }
        (postNotice s x (keyQueue a.key) a.o true a.cause [5, a.stage, word a.o, a.m, a.b, word a.y, 0]).2

end Sys2Proof.Machine
end

