-- ==== Sys2Proof/Machine/Reset.lean ====
section
/-! DEFINITION. The loss of units, warm and cold reset, and the comparisons of checked pairs (R9, R380 to R391). -/

namespace Sys2Proof.Machine

/-! ### Warm reset (R387 to R391) -/

/-- The reset stops th: an unpinned activation is rolled back and its message is activated again later; a pinned one
ends as a dead message, and an unpinned split is cancelled (R387, R391). -/
def resetActivation (s : State) (c : Nat) : State :=
  match (s.core c).act with
  | none => s
  | some a =>
    match a.kind, a.pinned with
    | .message, true => deadNotice (dropActivation s c) c a.msg Cause.warmReset.code
    | .message, false =>
      let s := rollback s c a
      let k := s.core c
      s.setCore c { k with inbound := a.msg :: k.inbound }
    | .split, false =>
      let t := rollback s c a
      match annexOn s c false with
      | some n =>
        let n' := { n with cause := Cause.warmReset.code }
        let t := setAnnex t n n'
        (cancelSplit t n').toOption.getD t
      | none => t
    | _, true => dropActivation s c
    | .merge, false => rollback s c a

/-- What stood in the sectors that threads hold back comes back: a gated store has left nothing (R147, R327). -/
def undoThreads (s : State) : State :=
  let s := s.holds.foldl (fun s (h : Hold) => match h.owner with | .thread _ _ => undoHolds s h.owner | _ => s) s
  { s with holds := [] }

/-- A core after a warm reset: its message unit keeps what it has accepted (R320, R391). -/
def resetCore (k : Core) : Core :=
  { Core.reset with
    inbound := k.redo.map (·.1) ++ k.inbound, deliveries := k.deliveries, spilled := k.spilled, accepted := k.accepted
    retired := k.retired, blames := k.blames }

/-- What is in flight and outlasts a warm reset: messages, what they answer, queues' commands, law actions, the
host's accesses (R391). -/
def outlasts : Event → Bool
  | .messageArrival _ | .hostMailboxNotice .. | .messageAcknowledgement .. | .messageRelease .. | .remoteLoad _ | .remoteStore _
  | .remoteAtomic _ | .remoteLaw _ | .remoteFault .. | .drtRetransmit _ | .lawEventRecord .. | .fanOutDeposit .. | .horizonSweep ..
  | .queueEnable .. | .commandAccept .. | .annexPolicy .. | .launch .. | .signal .. | .waitForSignal .. | .signalSatisfied .. | .dispatchDecision
  | .hostBindRecord .. | .contextCreate .. | .contextDestroy _ | .pageMap | .pageDecline | .barrierExtend | .barrierExpire
  | .contain | .attest | .firmwareStage | .firmwareActivate | .tlbInvalidate | .hostBar2Write .. | .hostBar2Read ..
  | .monitorConfigWrite .. | .registerWrite .. | .clockThrottle _ => true
  | _ => false

/-- Contexts whose modified sectors a slice loses (R389). -/
def lostContexts (s : State) (slice : Nat) : List Nat :=
  let lost := s.sectors.filter fun e => e.1 / 2 ^ 41 == slice && e.2.modified
  (s.ctxs.filter fun c => c.2.live && lost.any fun e => homeSlice s c.2.seed (32 * (e.1 % 2 ^ 41)) == slice).map (·.1)

/-- Every healthy slice writes back its modified sectors, and the slices come up empty (R387). -/
def emptySlices (s : State) (lost : Option Nat) : State :=
  let s := s.sectors.foldl (fun s e =>
    if (e.2.modified || e.2.zero) && some (e.1 / 2 ^ 41) != lost then
      { s with
        mem := Mem.write s.mem (32 * (e.1 % 2 ^ 41)) 32 e.2.data.toNat
        poison := s.poison.filter (· ≠ e.1 % 2 ^ 41) }
    else s) s
  { s with sectors := [], replicas := [], failedFills := [], leases := [], ltime := 0 }

/-- A launch has begun on some core. -/
def started (s : State) (r : LaunchRun) : Bool :=
  (s.cores.any fun p => match p.2.bound with | some b => b.record.order == r.order | none => false)
  || s.savedTasks.any fun p => p.1 / 1024 == r.order

/-- What becomes of a launch across a warm reset (R389, R390): whether it was running, and whether its context has
lost data. (DEDUCED, safe, log 64) -/
def resetLaunch (running torn : Bool) (s : State) (key : Nat) (r : LaunchRun) : State :=
  let gone := r.ld.cores.any fun d => (s.core d).retired
  let finish := fun (c : Cause) => endLaunch s key r (doneWord 0 0 c.code.toNat r.ld.first 1)
  if r.order = 0 then s
  else if !running then bindAgain s key r
  else if torn then
    let s := finish .warmReset
    if (s.queue r.ctx r.queue).state = 3 then s else setQState s r.ctx r.queue 2
  else if r.ld.jnl then
    if gone then finish .unitLost else bindAgain s key { r with rebinds := r.rebinds + 1 }
  else if r.ld.rst && !r.redone then bindAgain s key { r with redone := true }
  else finish .warmReset

/-- The management core loads and verifies its firmware: a staged image to be activated is installed when it verifies once
more, and raises the counter (R387, R398, R400). -/
def installFirmware (f : Firmware) : Firmware :=
  match f.activate, f.staged with
  | true, some i =>
    if imageGood f.counter i then { f with image := some i, counter := i.version, staged := none, activate := false }
    else { f with staged := none, activate := false }
  | _, _ => f

/-- The registers that a warm reset clears: every field but the context descriptors, since none says that it survives (R3,
R389). -/
def resetRegisters (s : State) : State :=
  { s with monitors := [], arrayLog := [], busLog := [], logTimes := [], dev := s.dev.filter fun p => decide (p.1 < 64 * 64) }

/-- The warm reset (R387), with the slice that has failed. (DEDUCED, unsafe, log 67) -/
def warmReset (s : State) (lost : Option Nat) : State :=
  let s := s.cores.foldl (fun s p => resetActivation s p.1) s
  let s := undoThreads s
  let hit := match lost with | some n => lostContexts s n | none => []
  let running := s.launches.filter fun p => started s p.2
  let s := resetRegisters (emptySlices s lost)
  let s := { s with
    retiredSlices := match lost with
      | some n => if s.retiredSlices.contains n then s.retiredSlices else s.retiredSlices ++ [n]
      | none => s.retiredSlices
    cores := s.cores.map fun (p : Nat × Core) => (p.1, resetCore p.2)
    ctxs := s.ctxs.map fun (p : Nat × Context) => (p.1, { p.2 with lawCache := [] })
    pageItems := s.pageItems.filter fun (i : PageItem) => match i.asker with | .queue _ _ => true | _ => false
    triage := [], subs := [], stages := [], savedTasks := [], annexes := [], reserved := []
    firmware := installFirmware s.firmware
    flight := s.flight.filter outlasts }
  let s := rebuildAll s
  let s := s.launches.foldl (fun s (p : Nat × LaunchRun) =>
    resetLaunch (running.any fun (r : Nat × LaunchRun) => r.1 == p.1) (hit.contains p.2.ctx) s p.1 p.2) s
  let torn := hit.filter fun x => running.any fun r => r.2.ctx == x
  torn.foldl (fun s x => (postNotice s x 0 0 false Cause.unitLost.code [3, Cause.unitLost.code.zeroExtend 64, 0, 0, 4]).2) s

/-- WARM_RESET: the host's command, or the containment of a fault at that level (R383, R387, R398). -/
def execWarmReset (s : State) : Out :=
  match s.item with
  | some .warmReset =>
    runStep .warmReset s fun s =>
      let d := doorbell s
      let s := warmReset s none
      -- the command that asked for the reset is answered after it
      some (if bit d 0 && fld d 15 8 == 6 then finishMailbox { s with dev := Mem.write s.dev 0x300080 8 d.toNat } 0 else s)
  | _ => .next s

/-- The spare takes over the management functions (R9). -/
def failover (s : State) : State := { s with firmware := { s.firmware with die := 1 - s.firmware.die, spare := false } }

/-- The spare verifies the same image independently before it takes over (R9, R400). -/
def Firmware.takesOver (f : Firmware) : Bool := f.spare && imageGood f.counter f.running

/-- The management core fails: the spare takes over; with no spare that can, its failure is a warm reset (R9, R383). -/
def loseManagement (s : State) : State := if s.firmware.takesOver then failover s else warmReset s none

/-- UNIT_LOSS: a slice, the bridge, a channel beyond rerouting, or a management core with no spare (R383). -/
def execUnitLoss (s : State) : Out :=
  match s.item with
  | some (.unitLoss u) =>
    runStep (.unitLoss u) s fun s =>
      some (match u with
        | .slice n => warmReset s (some n)
        | .bridge => warmReset s none
        | .channel st ch =>
          warmReset { s with lostChannels := if s.lostChannels.contains (st, ch) then s.lostChannels else s.lostChannels ++ [(st, ch)] } none
        | .management => loseManagement s)
  | _ => .next s

/-- MANAGEMENT_FAILOVER: the management core on die 1 takes over (R9). -/
def execManagementFailover (s : State) : Out :=
  match s.item with
  | some .managementFailover =>
    runStep .managementFailover s fun s => some (loseManagement s)
  | _ => .next s

/-- COLD_RESET: every register at its reset value (R3). What is fused or fitted stays: the firmware's counter and its image,
which is verified again (R400), the package's number and far memory, and the schedule of the run.
(DEDUCED, unsafe, log 68) -/
def execColdReset (s : State) : Out :=
  match s.item with
  | some .coldReset =>
    runStep .coldReset s fun s =>
      some { State.reset with
        pkg := s.pkg, npkgs := s.npkgs, cxl := s.cxl, turns := s.turns, free := s.free
        firmware := { s.firmware with die := 0, spare := true, image := s.firmware.image.filter (imageGood s.firmware.counter), staged := none, activate := false } }
  | _ => .next s

/-! ### The loss of a core (R384, R385, R390) -/

/-- A core is lost: it is fenced until its launch's completion record, its threads' work is contained with cause
UNIT_LOST, and an unpinned activation's message is activated again (R328, R384, R385). (DEDUCED, unsafe, log 69) -/
def loseCore (s : State) (c : Nat) : State :=
  let k := s.core c
  if k.bound.isNone then s
  else
    let s := s.setCore c { k with fenced := true }
    let s := if k.act.isSome then handlerFault s c .unitLost else s
    let s := (List.range 4).foldl (fun s t =>
      if (s.thread c t).strand = .running then threadFault s c t .unitLost 0 0 else s) s
    if k.deque == [] && k.pushes == [] && k.parked == [] then s else launchFault s c 0 Cause.unitLost.code 0 0 2 none

/-- CORE_LOSS (R390). -/
def execCoreLoss (s : State) : Out :=
  match s.item with
  | some (.coreLoss c) => runStep (.coreLoss c) s fun s => some (loseCore s c)
  | _ => .next s

/-! ### Intervals of a checked pair (R147, R381, R382) -/

/-- Count an agreed interval, reruns and tie-breaks (R381). -/
def countInterval (p : Word) (agreed reruns ties : Nat) : Word :=
  setFld (setFld (setFld p 63 32 (fld p 63 32 + agreed)) 31 16 (fld p 31 16 + reruns)) 15 8 (fld p 15 8 + ties)

/-- The gated entries leave in their order, the held sectors are released, and both cores stand at the new agreed point
(R381, R382). -/
def releaseInterval (s : State) (l f agreed reruns ties : Nat) : State :=
  let k := s.core l
  let kl := agree { k with gated := [], bundles := 0, undo := [], pairstat := countInterval k.pairstat agreed reruns ties }
  let s := (s.setCore l kl).setCore f { mirrorCore kl (s.core f) with pairstat := kl.pairstat }
  let s := dropHolds s (.thread l 9)
  k.gated.foldl (fun s e => match e with | .messageArrival m => routeMsg s m | e => s.emit e) s

/-- The cores part after UNPAIR: each goes on with the agreed state (R379). -/
def decouple (s : State) (l f : Nat) : State :=
  let kl := { (s.core l).setWaits .paired with pair := .none }
  let kf := { (mirrorCore kl (s.core f)) with pair := .none, tlb := (s.core f).tlb }
  (s.setCore l kl).setCore f kf

/-- Compute threads as they stood at the last agreed point (R382). -/
def Core.restored (k : Core) : SMap Thread :=
  (k.agreed.filter fun p => decide (p.1 < 4)).foldl (fun m p => SMap.set m p.1 p.2) k.threads

/-- An unresolvable divergence: nothing of the interval leaves, the registers are those of the last agreed point, the work is
contained, both cores are retired (R72, R382, R383). -/
def divergence (s : State) (l f : Nat) : State :=
  let s := undoHolds s (.thread l 9)
  let k := s.core l
  let s := s.setCore l { k with
    threads := k.restored, gated := [], bundles := 0, undo := [], retired := true, pairstat := countInterval k.pairstat 0 1 0 }
  let s := s.setCore f { s.core f with retired := true }
  let ts := (List.range 4).filter fun t => (s.thread l t).strand == .running
  if ts == [] then launchFault s l 0 Cause.divergence.code 0 0 2 none
  else ts.foldl (fun s t => if (s.thread l t).strand = .running then threadFault s l t .divergence 0 0 else s) s

/-- The end of an interval on a leader and its follower. (DESIGN CHOICE, safe, log 6; DEDUCED, unsafe, log 70) -/
def compareInterval (s : State) (l f : Nat) (v : Verdict) : State :=
  let part := fun (s : State) => if (s.core l).allIn .unpairing && boundThreads (s.core l) != [] then decouple s l f else s
  let rerun := fun (s : State) => monitorEvent s (some l) 0 0 8 (s.coreCtx l) 1
  match v with
  | .agree => part (releaseInterval s l f 1 0 0)
  | .rerunAgrees => part (rerun (releaseInterval s l f 1 1 0))
  | .tieBreak =>
    let b := if Config.freeBit s.free then l else f
    let s := { s with free := s.free + 1 }
    let s := s.setCore b { s.core b with blames := (s.core b).blames ++ [s.cycle] }
    part (rerun (releaseInterval s l f 1 1 1))
  | .unresolvable => divergence (rerun s) l f

/-- INTERVAL_COMPARE: the two cores compare their CRCs (R382). -/
def execIntervalCompare (s : State) : Out :=
  match s.item with
  | some (.intervalCompare l v) =>
    runStep (.intervalCompare l v) s fun s =>
      match (s.core l).pair with
      | .leader f => some (compareInterval s l f v)
      | _ => some s
  | _ => .next s

end Sys2Proof.Machine
end

