-- ==== Sys2Proof/Machine/Stage.lean ====
section
/-! DEFINITION. Annexed stages: the stage monitor, annexes and merges (R337 to R347, R354, R419, R420). -/

namespace Sys2Proof.Machine

/-! ### Rings of a stage -/

/-- Records in a core's stage ring that have not been consumed: ticket and bytes, those whose slots are full. -/
def ringRecords (k : Core) (h : Nat) : List (Nat × Nat) :=
  let r := ringHdr k h
  ((List.range (Nat.min r.depth r.count)).map fun i => r.head.toNat + i).filterMap fun t =>
    if slotFull k r t then some (t, k.lread (r.slot t) r.bytes) else none

/-- The key of a record (R337). -/
def StageDesc.key (d : StageDesc) (rec : Nat) : Nat := bytesAt rec d.koff (if d.kw then 8 else 4)

/-- A key lies in [a, b). -/
def inRange (a b k : Nat) : Bool := decide (a ≤ k) && decide (k < b)

/-- Insert a key in order. -/
def insertKey (k : Nat) : List Nat → List Nat
  | [] => [k]
  | j :: js => if k ≤ j then k :: j :: js else j :: insertKey k js

/-- The keys of a range among the unconsumed records of its owner, sorted. -/
def StageDesc.rangeKeys (d : StageDesc) (s : State) (e : Nat) : List Nat :=
  let lo := entryLo e
  let hi := d.upper lo
  ((ringRecords (s.core (entryCore e)) d.rhdr).map fun p => d.key p.2).foldl (fun l k => if inRange lo hi k then insertKey k l else l) []

/-- The range of an owner that holds the most unconsumed records, ties to the lower lo, and the split point of R341. -/
def StageDesc.splitPoint (d : StageDesc) (s : State) (o : Nat) : Option (Nat × Nat) :=
  let mine := d.valid.filter fun p => entryCore p.2 == o
  let best := mine.foldl (fun (b : Option Nat) p =>
    match b with
    | none => some p.2
    | some e =>
      let n := (d.rangeKeys s p.2).length
      let m := (d.rangeKeys s e).length
      if m < n ∨ (m = n ∧ entryLo p.2 < entryLo e) then some p.2 else some e) none
  best.bind fun e =>
    let ks := d.rangeKeys s e
    match ks[ks.length / 2]? with
    | some m => if m = entryLo e then none else some (e, m)
    | none => none

/-- A core of a launch runs it now. -/
def runsOn (s : State) (r : LaunchRun) (c : Nat) : Bool := s.coreOrder c == r.order && (s.core c).bound.isSome

/-- The spare with the lowest core index (R342). -/
def spare (s : State) (r : LaunchRun) (d : StageDesc) : Option Nat :=
  r.ld.cores.find? fun c => !d.owns c && runsOn s r c && !(s.core c).fenced

/-- A free entry. -/
def StageDesc.freeEntry (d : StageDesc) : Option Nat :=
  ((d.entries.mapIdx fun i e => (i, e)).find? fun p => !entryValid p.2).map (·.1)

/-- A ring header that the dispatch hardware has changed is copied to its journal; a copy that its context's page table does
not reach is not written (R226). -/
def copyHeader (s : State) (c h : Nat) : Except Denied State :=
  match mirrorHeader s c h true with
  | .error (.fault cause va) => if cause = .notPresent then .error (.fault cause va) else .ok s
  | r => r

/-- Add 1 to the generation in a core's ring header (R4). -/
def bumpGen (s : State) (c h : Nat) : Except Denied State :=
  match stageRings s h [c] with
  | .error d => .error d
  | .ok () =>
    let k := s.core c
    copyHeader (s.setCore c (k.lwrite (h + 30) 2 ((ringHdr k h).gen + 1))) c h

/-! ### The start of an annex and of a merge (R342, R346) -/

/-- Steps 1 and 2 of an annex of the range of entry e, whose owner is o, at m, with the spare y and the free entry i. -/
def annexSteps (s : State) (key : Nat) (r : LaunchRun) (a : Word) (d : StageDesc) (e m o y i : Nat) : Except Denied State :=
  match (stageRings s d.rhdr [y]).bind fun _ => writeBusy s r.ctx a true with
  | .error w => .error w
  | .ok s =>
    let k := s.core y
    match bumpGen (s.setCore y (setHead k d.rhdr (ringHdr k d.rhdr).tail)) y d.rhdr with
    | .error w => .error w
    | .ok s =>
      let gen := (ringHdr (s.core y) d.rhdr).gen
      (writeEntry s r.ctx a i (entryOf m gen true o y d.rhdr)).map fun s =>
        let n : Annex := ⟨key, a, false, 3, i, word m, word (d.upper (entryLo e)), o, y, 0, 0, d.rhdr, 0⟩
        { s with annexes := s.annexes ++ [n] }.emit (.splitActivation o)

/-- An annex starts, unless it is declined: its owner must be a core of the launch, a spare and a free entry must exist. A
write that does not go through names the owner too. (DEDUCED, unsafe, log 73) -/
def startAnnex (s : State) (key : Nat) (r : LaunchRun) (a : Word) (d : StageDesc) (e m : Nat) : Except (Denied × Nat) (Option State) :=
  let o := entryCore e
  match spare s r d, d.freeEntry with
  | some y, some i =>
    if r.ld.cores.contains o then ((annexSteps s key r a d e m o y i).map some).mapError fun w => (w, o) else .ok none
  | _, _ => .ok none

/-- A twin that owns exactly one range, whose parent owns a range: its entry's number and the entry (R341). -/
def StageDesc.twin (d : StageDesc) (y : Nat) : Option (Nat × Nat) :=
  match d.valid.filter fun p => entryCore p.2 == y with
  | [(i, e)] => if entryParent e ≠ y ∧ d.owns (entryParent e) then some (i, e) else none
  | _ => none

/-- Step 1 of a merge of a twin's entry, from twin y to parent o. -/
def mergeStep (s : State) (key : Nat) (r : LaunchRun) (a : Word) (d : StageDesc) (i e y o : Nat) : Except Denied State :=
  match (stageRings s d.rhdr [y]).bind fun _ => writeBusy s r.ctx a true with
  | .error w => .error w
  | .ok s =>
    match writeEntry s r.ctx a i (e / 2 ^ 64 * 2 ^ 64 + (setFld (word e) 46 46 1).toNat) with
    | .error w => .error w
    | .ok s =>
      let lo := entryLo e
      let n : Annex := ⟨key, a, true, 2, i, word lo, word (d.upper lo), o, y, 0, 0, d.rhdr, 0⟩
      (bumpGen s y d.rhdr).map fun s => { s with annexes := s.annexes ++ [n] }.emit (.mergeActivation o)

/-- A merge of a twin's entry starts, unless it is declined: twin and parent must be cores of the launch.
(DEDUCED, unsafe, log 73) -/
def startMerge (s : State) (key : Nat) (r : LaunchRun) (a : Word) (d : StageDesc) (i e : Nat) : Except (Denied × Nat) (Option State) :=
  let y := entryCore e
  let o := entryParent e
  if r.ld.cores.contains y && r.ld.cores.contains o then ((mergeStep s key r a d i e y o).map some).mapError fun w => (w, o)
  else .ok none

/-- The first step of an annex or a merge does not go through: a fault that is delivered takes the launch down its fault path,
with busy set where that write has gone through; a malformed ring header is met before it (R4, R342, R346, R423).
(DEDUCED, unsafe, log 73) -/
def startDenied (s : State) (key : Nat) (a : Word) (fin : State → State) : Denied × Nat → Option State
  | (.held _, _) => none
  | (.fault c va, o) =>
    unitFate s (keyCtx key) (keyQueue key) o c va 2 fun s =>
      let s := if c = .descriptorFormat then s else (writeBusy s (keyCtx key) a true).toOption.getD s
      some (fin (launchFault s o 0 c.code (word va) 0 2 none))

/-! ### The stage monitor (R341) -/

/-- Consecutive samples for which a condition has held at each owner. -/
def countSamples (old : SMap Nat) (owners : List Nat) (holds : Nat → Bool) : SMap Nat :=
  owners.foldl (fun (m : SMap Nat) c => if holds c then SMap.set m c (old.get c 0 + 1) else m) []

/-- An annex's condition at an owner: the entry and the split point. (DEDUCED, unsafe, log 72) -/
def annexDue (s : State) (r : LaunchRun) (d : StageDesc) (mon : StageMon) (c : Nat) : Option (Nat × Nat) :=
  let n := mon.above.get c 0
  if d.high ≠ 0 ∧ n ≠ 0 ∧ d.highdur ≤ n ∧ !d.busy ∧ (spare s r d).isSome ∧ d.freeEntry.isSome then d.splitPoint s c else none

/-- A merge's condition at a twin: its entry. (DEDUCED, unsafe, log 72) -/
def mergeDue (d : StageDesc) (mon : StageMon) (c : Nat) : Option (Nat × Nat) :=
  let n := mon.below.get c 0
  if d.lowdur ≠ 0 ∧ n ≠ 0 ∧ d.lowdur ≤ n ∧ !d.busy then d.twin c else none

/-- Hardware mode: the first annex that is due, else the first merge. -/
def monitorStart (s : State) (key : Nat) (r : LaunchRun) (a : Word) (d : StageDesc) (mon : StageMon) : Except (Denied × Nat) (Option State) :=
  match d.owners.findSome? (annexDue s r d mon) with
  | some (e, m) => startAnnex s key r a d e m
  | none =>
    match d.owners.findSome? (mergeDue d mon) with
    | some (i, e) => startMerge s key r a d i e
    | none => .ok none

/-- Host-assisted mode: a condition that newly holds is posted (R341, R424). -/
def monitorPost (s : State) (r : LaunchRun) (a : Word) (d : StageDesc) (mon : StageMon) : State × List Nat × List Nat :=
  let up := d.owners.filterMap fun c => (annexDue s r d mon c).map fun p => (c, p)
  let down := d.owners.filterMap fun c => (mergeDue d mon c).map fun p => (c, p)
  let depth := fun (s : State) (c : Nat) => word (ringHdr (s.core c) d.rhdr).depth
  let s := (up.filter fun p => !mon.postedAbove.contains p.1).foldl (fun s p =>
    (postNotice s r.ctx r.queue p.1 false 0 [2, a, 1, word p.1, word (entryLo p.2.1), word p.2.2, depth s p.1]).2) s
  let s := (down.filter fun p => !mon.postedBelow.contains p.1).foldl (fun s p =>
    (postNotice s r.ctx r.queue p.1 false 0 [2, a, 2, word p.1, word (entryLo p.2.2), word (entryLo p.2.2), depth s p.1]).2) s
  (s, up.map (·.1), down.map (·.1))

/-- The monitor of a stage launch as it stands. -/
def stageMon (s : State) (key : Nat) : StageMon := s.stages.get key ⟨[], [], 0, [], []⟩

/-- One sample (R341, R420). (DEDUCED, unsafe, log 71) -/
def sampleStage (s : State) (key : Nat) (r : LaunchRun) (a : Word) (d : StageDesc) : Except (Denied × Nat) State :=
  let old := stageMon s key
  let depth := fun (c : Nat) => (ringHdr (s.core c) d.rhdr).depth
  let seen := d.owners.filter (runsOn s r)
  let mon : StageMon :=
    { old with
      above := countSamples old.above seen fun c => d.high != 0 && decide (d.high < depth c)
      below := countSamples old.below seen fun c => decide (depth c ≤ d.low)
      last := s.cycle }
  if bit (s.ctx r.ctx).modes 2 then
    let (s, up, down) := monitorPost s r a d mon
    .ok { s with stages := s.stages.set key { mon with postedAbove := up, postedBelow := down } }
  else
    let s := { s with stages := s.stages.set key mon }
    (monitorStart s key r a d mon).map fun o => o.getD s

/-- The stage launches of a queue that are bound or have been, and their keys: the host may have bound several (R362). -/
def stageRuns (s : State) (x q : Nat) : List (Nat × LaunchRun) :=
  s.launches.filter fun p => p.2.ctx == x && p.2.queue == q && p.2.ld.stage.isSome && p.2.order != 0

/-- The stage launch of a queue whose sample is due. -/
def stageRun (s : State) (x q : Nat) : Option (Nat × LaunchRun) :=
  (stageRuns s x q).find? fun p => decide ((stageMon s p.1).last + 1024 ≤ s.cycle)

/-- STAGE_MONITOR_SAMPLE: every 1,024 cycles from the bind to the completion record (R341, R419). A sample whose read
faults is skipped, as one that meets a malformed ring header, and the counts start again (R4, R423). -/
def execStageMonitorSample (s : State) : Out :=
  match s.item with
  | some (.stageMonitorSample x q) =>
    runStep (.stageMonitorSample x q) s fun s =>
      match stageRun s x q with
      | none => if stageRuns s x q == [] then some s else none
      | some (key, r) =>
        match r.ld.stage with
        | none => some s
        | some a =>
            let old := stageMon s key
            let again := fun (s : State) => s.emit (.stageMonitorSample x q)
            let skip := fun (s : State) =>
              again { s with stages := s.stages.set key { old with above := [], below := [], last := s.cycle } }
            match readStage s x (word a) with
            | .error w => deniedFate s x q 0 1 (fun _ _ s => some (skip s)) w
            | .ok (d, s1) =>
              match stageRings s1 d.rhdr (d.owners.filter (runsOn s1 r)) with
              | .error _ => some (skip s1)
              | .ok () =>
                match sampleStage s1 key r (word a) d with
                | .error w => startDenied s key (word a) skip w
                | .ok s => some (again s)
  | _ => .next s

/-! ### The annex-policy command (R354) -/

/-- The stage launch of a context that a stage descriptor's address names, bound now. -/
def stageLaunch (s : State) (x : Nat) (a : Word) : Option (Nat × LaunchRun) :=
  List.find? (fun (p : Nat × LaunchRun) => p.2.ctx == x && p.2.ld.stage == some a.toNat && p.2.order != 0
    && s.cores.any fun c => match c.2.bound with | some b => b.record.order == p.2.order | none => false) s.launches

/-- What the command starts: none when it is declined. -/
def policyStart (s : State) (key : Nat) (r : LaunchRun) (c : Command) (d : StageDesc) : Except (Denied × Nat) (Option State) :=
  let m := c.arg2.toNat
  if d.busy then .ok none
  else if c.arg3 = c.arg2 then
    match d.owners.findSome? fun y => (d.twin y).filter fun p => entryLo p.2 == m with
    | some (i, e) => startMerge s key r c.arg1 d i e
    | none => .ok none
  else
    match routeEntry d.entries c.arg3.toNat with
    | none => .ok none
    | some e => if entryLo e < m ∧ m < d.upper (entryLo e) then startAnnex s key r c.arg1 d e m else .ok none

/-- ANNEX_POLICY: the command is checked and starts an annex or a merge; it stands until that ends, and one that is
cancelled or lost completes with status 1 (R354). -/
def execAnnexPolicy (s : State) : Out :=
  match s.item with
  | some (.annexPolicy x q) =>
    runStep (.annexPolicy x q) s fun s =>
      match s.command x q 3 with
      | none => some s
      | some c =>
        if (s.queue x q).decided then
          if s.annexes.any fun a => a.stage == c.arg1 && keyCtx a.key == x then none else some (finishCommand s x q 1 0)
        else if !bit (s.ctx x).modes 2 || decide (c.arg2.toNat < c.arg3.toNat) then some (finishCommand s x q 3 0)
        else
          match stageLaunch s x c.arg1 with
          | none => some (finishCommand s x q 3 0)
          | some (key, r) =>
            let e : Event := .annexPolicy x q
            let lost := fun (s : State) => finishCommand s x q 1 0
            match readStage s x c.arg1 with
            | .error w => deniedFate s x (keyQueue key) 0 1 (fun _ _ s => some (lost s)) w
            | .ok (d, s1) =>
              match policyStart s1 key r c d with
              | .error w => startDenied s key c.arg1 lost w
              | .ok none => some (lost s1)
              | .ok (some s) => some ((s.setQueue x q { s.queue x q with decided := true }).emit e)
  | _ => .next s

/-- An annex or a merge has ended well: the command that started it, if one did, completes (R354). -/
def finishPolicy (s : State) (a : Annex) : State :=
  let x := keyCtx a.key
  let s := { s with annexes := s.annexes.filter fun b => b != a }
  match (List.range 16).find? fun q => (s.queue x q).decided && (match s.command x q 3 with | some c => c.arg1 == a.stage | none => false) with
  | some q => finishCommand s x q 0 0
  | none => s

/-! ### The protocol (R340, R342, R343, R346) -/

/-- The message that stands for a split or a merge: it has no payload. -/
def noMsg : Msg := ⟨0, 0, 0, 0, 0, []⟩

/-- An annex's launch, while it runs on a core. -/
def annexRun (s : State) (a : Annex) : Option LaunchRun :=
  (s.launches.find? a.key).filter fun r => runsOn s r a.o && runsOn s r a.y

/-- A fault in the protocol itself: the launch takes its fault path. (DEDUCED, unsafe, log 74) -/
def annexDenied (s : State) (a : Annex) (access : Nat) : Denied → Option State :=
  deniedFate s (keyCtx a.key) (keyQueue a.key) a.o access fun c va s =>
    some (launchFault { s with annexes := s.annexes.filter fun b => b != a } a.o 0 c.code (word va) 0 2 none)

/-- A step of the annex or merge of the launch bound on a core; it waits while that launch is pre-empted on a core that takes
part. -/
def withAnnex (s : State) (o : Nat) (merge : Bool) (f : Annex → Option State) : Option State :=
  match annexOn s o merge with
  | some a => if (annexRun s a).isSome then f a else none
  | none => if s.annexes.any fun a => a.o == o && a.merge == merge then none else some s

/-- SPLIT_ACTIVATION: when the owner is quiescent its state is copied as the snapshot, and the split runs (R342 step
3, R343); one that has been rolled back is cancelled. (DEDUCED, unsafe, log 74) -/
def execSplitActivation (s : State) : Out :=
  match s.item with
  | some (.splitActivation o) =>
    runStep (.splitActivation o) s fun s => withAnnex s o false fun a =>
      if a.step = 9 then
        match cancelSplit s a with
        | .error d => annexDenied s a 2 d
        | .ok s => some s
      else if a.step ≠ 3 then some s
      else if !quiescent s o a.hdr || !canActivate s o then none
      else
        match readStage s (keyCtx a.key) a.stage with
        | .error d => annexDenied s a 1 d
        | .ok (d, s) =>
          let s := copyLocal s o d.soff o d.mbuf d.slen
          some (startActivation s o .split noMsg (2 ^ 20) 0 (d.spc &&& ~~~3#64) 0
            [(3, a.m), (4, a.b), (5, word a.y), (6, word (d.soff + d.slen * 2 ^ 18)), (7, a.stage)] (d.soff, d.slen))
  | _ => .next s

/-- Write the generation of O's ring into O's entries (R342 step 4). -/
def bumpEntries (s : State) (x : Nat) (a : Word) (gen : Nat) : List (Nat × Nat) → Except Denied State
  | [] => .ok s
  | (i, e) :: es =>
    match writeEntry s x a i (e / 2 ^ 64 * 2 ^ 64 + (setFld (word e) 63 48 gen).toNat) with
    | .error d => .error d
    | .ok s => bumpEntries s x a gen es

/-- Step 4 of an annex. -/
def annexGen (s : State) (a : Annex) (d : StageDesc) : Except Denied State :=
  match bumpGen s a.o a.hdr with
  | .error e => .error e
  | .ok s =>
    let r := ringHdr (s.core a.o) a.hdr
    (bumpEntries s (keyCtx a.key) a.stage r.gen (d.valid.filter fun p => entryCore p.2 == a.o)).map fun s =>
      setAnnex s a { a with step := 5, tailT := r.tail }

/-- Rewrite a record of O into a ticket of O, its journal entry with it (R342 step 5). -/
def rewriteSlot (s : State) (o h t v : Nat) : Except Denied State :=
  let k := s.core o
  let r := ringHdr k h
  let s := s.setCore o (k.lwrite (r.slot t) r.bytes v)
  let x := s.coreCtx o
  let a := r.jbase + t % r.count * r.bytes
  if r.journ then
    match unitWrite s .other 768 x (journalSup s o h) (partsOf a r.bytes) v with
    | (none, s) => .ok (writeThrough s x a r.bytes)
    | (some d, _) => .error d
  else .ok s

/-- Put a forwarded record into the twin's ring by ticket (R342 step 5). -/
def forwardSlot (s : State) (y h v : Nat) : State :=
  let t := (ringHdr (s.core y) h).tail
  putSlot (s.setCore y (setTail (s.core y) h (t + 1))) y h t.toNat v

/-- Forward or rewrite the records of old tickets in ticket order; answers O's next ticket. -/
def forwardRecords (s : State) (a : Annex) (d : StageDesc) : Nat → List (Nat × Nat) → Except Denied (Nat × State)
  | n, [] => .ok (n, s)
  | n, (_, v) :: rs =>
    let hi := if a.b = 0 then 2 ^ 64 else a.b.toNat
    if inRange a.m.toNat hi (d.key v) then forwardRecords (forwardSlot s a.y a.hdr v) a d n rs
    else
      match rewriteSlot s a.o a.hdr n v with
      | .error e => .error e
      | .ok s => forwardRecords s a d (n + 1) rs

/-- The slots of tickets n to T - 1 become empty, and their mirrors go (R342 step 5). -/
def clearTickets (s : State) (o h n t : Nat) : State :=
  (List.range (t - n)).foldl (fun s i =>
    let r := ringHdr (s.core o) h
    setMirror (s.setCore o ((s.core o).clearFull (r.slot (n + i) / 16) (2 * r.ssize))) o h (n + i) false) s

/-- Step 5 of an annex, when every old slot is full. -/
def annexForward (s : State) (a : Annex) (d : StageDesc) : Except Denied (Option State) :=
  let k := s.core a.o
  let r := ringHdr k a.hdr
  let n := (a.tailT - r.head).toNat
  let rs := ringRecords k a.hdr
  match stageRings s a.hdr [a.o, a.y] with
  | .error e => .error e
  | .ok () =>
    if rs.length < n then .ok none
    else match forwardRecords s a d r.head.toNat (rs.take n) with
    | .error e => .error e
    | .ok (nt, s) =>
      let s := s.setCore a.o (setTail (s.core a.o) a.hdr (word nt))
      (copyHeader (clearTickets s a.o a.hdr nt (r.head.toNat + n)) a.o a.hdr).map some

/-- Step 6 of an annex, or the end of a merge: an entry is written, and busy is cleared. -/
def annexClose (s : State) (a : Annex) (e : Nat) : Except Denied State :=
  match writeEntry s (keyCtx a.key) a.stage a.entry e with
  | .error w => .error w
  | .ok s => (writeBusy s (keyCtx a.key) a.stage false).map fun s => finishPolicy s a

/-- ANNEX_FORWARD: steps 4 to 6 of an annex, once its split has ended (R342). (DEDUCED, unsafe, log 74) -/
def execAnnexForward (s : State) : Out :=
  match s.item with
  | some (.annexForward o) =>
    runStep (.annexForward o) s fun s => withAnnex s o false fun a =>
      match readStage s (keyCtx a.key) a.stage with
      | .error d => annexDenied s a 1 d
      | .ok (d, s1) =>
        if a.step = 4 then
          match annexGen s1 a d with
          | .error w => annexDenied s a 2 w
          | .ok s => some (s.emit (.annexForward o))
        else if a.step = 5 then
          match annexForward s1 a d with
          | .error w => annexDenied s a 2 w
          | .ok none => none
          | .ok (some s2) =>
            let e := d.entries.getD a.entry 0
            match annexClose s2 a (e / 2 ^ 64 * 2 ^ 64 + (setFld (word e) 46 46 0).toNat) with
            | .error w => annexDenied s a 2 w
            | .ok s => some s
        else some s
  | _ => .next s

/-- MERGE_ACTIVATION: the twin drains, its state is copied, the merge runs, and the range goes back to the parent (R346). -/
def execMergeActivation (s : State) : Out :=
  match s.item with
  | some (.mergeActivation o) =>
    runStep (.mergeActivation o) s fun s => withAnnex s o true fun a =>
      match readStage s (keyCtx a.key) a.stage with
      | .error d => annexDenied s a 1 d
      | .ok (d, s1) =>
        match stageRings s1 a.hdr [o, a.y] with
        | .error d => annexDenied s a 1 d
        | .ok () =>
        if a.step = 2 then
          if (ringHdr (s1.core a.y) a.hdr).depth ≠ 0 || !quiescent s1 a.y a.hdr then none
          else some ((setAnnex (copyLocal s1 a.y d.soff o d.mbuf d.slen) a { a with step := 4 }).emit (.mergeActivation o))
        else if a.step = 4 then
          if !quiescent s1 o a.hdr || !canActivate s1 o then none
          else
            some ((startActivation s1 o .merge noMsg (2 ^ 20) 0 (d.mpc &&& ~~~3#64) 0
              [(3, a.m), (4, a.b), (5, word a.y), (6, word (d.mbuf + d.slen * 2 ^ 18)), (7, a.stage)] (d.soff, d.slen)).emit
                (.mergeActivation o))
        else
          match annexClose s1 a (entryOf a.m.toNat (ringHdr (s1.core o) a.hdr).gen false o o a.hdr) with
          | .error w => annexDenied s a 2 w
          | .ok s => some s
  | _ => .next s

end Sys2Proof.Machine
end

