-- ==== Sys2Proof/Machine/RegSets.lean ====
section
/-! DEFINITION. The registers that a word names (R31, R114): register n is x n below 32, v (n - 32) below 64, k (n - 64)
above. -/

namespace Sys2Proof.Machine

/-- Register numbers of the three namespaces. -/
def xNum (n : BitVec 5) : Nat := n.toNat
def vNum (n : BitVec 5) : Nat := 32 + n.toNat
def kNum (n : BitVec 5) : Nat := 64 + n.toNat
/-- A run of vector registers from one that an operand names. -/
def vRun (first : BitVec 5) (n : Nat) : List Nat := (List.range (Nat.max 1 n)).map fun i => 32 + first.toNat + i
/-- A run of vector registers from a number. -/
def tileRun (first n : Nat) : List Nat := (List.range n).map fun i => 32 + first + i
/-- A scalar operand of LLD or LST: size q takes an even pair. -/
def quadRegs (s : BitVec 3) (d : BitVec 5) : List Nat := if s = 7#3 then [xNum d, xNum (d + 1)] else [xNum d]
/-- The destinations of SPOP: a pair while its stream is open as a fibre stream (R31, R221). -/
def popRegs (th : Thread) (d a : BitVec 5) : List Nat :=
  match th.streams.find? a.toNat with
  | some r => if (streamDesc r.desc).kind = 2 then [xNum d, xNum (d + 1)] else [xNum d]
  | none => [xNum d]
/-- Registers of a group (R255). -/
def cvtRatio (t e : BitVec 4) : Nat := typeWidth t / typeWidth e

/-- The write set of a word (R31). `vc` is the fourth operand of the prefix, which VQUANT writes (R257). -/
def writeSet (th : Thread) (vc : BitVec 5) : Instr → List Nat
  | .pair d | .unpair d | .jal d _ | .jalr d _ _ | .fork d _ _ | .wfe d _ | .barrive d _ | .bwait d _ _
  | .bcomb d _ _ | .bquery d _ | .ldB d _ _ | .ldBu d _ _ | .ldH d _ _ | .ldHu d _ _ | .ldW d _ _ | .ldWu d _ _
  | .ldD d _ _ | .amoadd d _ _ _ | .amoand d _ _ _ | .amoor d _ _ _ | .amoxor d _ _ _ | .amomin d _ _ _
  | .amomax d _ _ _ | .amominu d _ _ _ | .amomaxu d _ _ _ | .amoswap d _ _ _ | .amofadd d _ _ _ | .cas d _ _ _
  | .amoz d _ _ _ | .lamoadd d _ _ | .lcas d _ _ | .copy d _ | .copy2d d _ | .cstat d _ | .subs d _ | .unsubs d _
  | .stend d _ | .sfib d _ | .rtick d _ | .rtake d _ | .rrel d _ | .kroute d _ _ | .lwrd d _ | .lwpeek d _
  | .lwadd d _ _ | .lwset d _ _ | .lwinit d _ _ | .lwnow d _ | .lwstep d _ _ | .lwsweep d _ _ | .msend d _
  | .srrd d _ | .srwr d _ _ | .srset d _ _ | .srclr d _ _ | .add d _ _ | .sub d _ _ | .and d _ _ | .or d _ _
  | .xor d _ _ | .sll d _ _ | .srl d _ _ | .sra d _ _ | .mul d _ _ | .mulh d _ _ | .mulhu d _ _ | .div d _ _
  | .divu d _ _ | .rem d _ _ | .remu d _ _ | .min d _ _ | .max d _ _ | .minu d _ _ | .maxu d _ _ | .slt d _ _
  | .sltu d _ _ | .sel d _ _ | .clz d _ | .ctz d _ | .popc d _ | .addi d _ _ | .andi d _ _ | .ori d _ _ | .xori d _ _
  | .slli d _ _ | .srli d _ _ | .srai d _ _ | .slti d _ _ | .sltiu d _ _ | .lui d _ | .fadd d _ _ _ | .fsub d _ _ _
  | .fmul d _ _ _ | .fdiv d _ _ _ | .fsqrt d _ _ | .fmin d _ _ _ | .fmax d _ _ _ | .fma d _ _ _ | .fcmp d _ _ _
  | .fcvt d _ _ _ | .fclass d _ _ | .fsgn d _ _ _ | .kpopc d _ | .kfirst d _ | .vmvs d _ _ _ => [xNum d]
  | .ldQ d _ _ | .cas2 d _ _ | .lwrdx d _ => [xNum d, xNum (d + 1)]
  | .vld d _ _ _ _ | .vlds d _ _ _ _ _ | .vgath d _ _ _ _ | .vldp d _ _ _ _ _ | .vlld d _ _ | .lgath d _ _
  | .vspop d _ | .vadd d _ _ _ | .vsub d _ _ _ | .vmul d _ _ _ | .vmulh d _ _ _ | .vmin d _ _ _ | .vmax d _ _ _
  | .vand d _ _ _ | .vor d _ _ _ | .vxor d _ _ _ | .vshl d _ _ _ | .vshr d _ _ _ | .vsra d _ _ _ | .vabs d _ _
  | .vsel d _ _ _ | .vadds d _ _ _ | .vfadd d _ _ _ | .vfsub d _ _ _ | .vfmul d _ _ _ | .vfma d _ _ _
  | .vfmin d _ _ _ | .vfmax d _ _ _ | .vfabs d _ _ | .vfdot d _ _ _ | .vbcast d _ _ _ | .vperm d _ _ _
  | .vslide d _ _ _ | .viota d _ _ | .vcompress d _ _ | .vexpand d _ _ | .vred d _ _ _ | .vscan d _ _ _
  | .vexp2 d _ _ | .vlog2 d _ _ | .vrcp d _ _ | .vrsqrt d _ _ | .vsin d _ _ | .vtanh d _ _ | .vsigm d _ _
  | .vmvx d _ _ | .vmov d _ _ | .trowst _ d => [vNum d]
  | .lld d _ s _ | .lldWf d _ s _ | .lldWfc d _ s _ => quadRegs s d
  | .spop d a => popRegs th d a
  | .vcmp _ k _ _ _ | .vfcmp _ k _ _ _ | .vtopk k _ _ _ => [64 + k.toNat]
  | .vcvt d _ _ e t | .vdeq d _ _ e t => vRun d (cvtRatio t e)
  | .vquant d _ _ _ _ => [vNum d, vNum vc]
  | .vzip d _ _ _ => vRun d 2
  | .kand d _ _ | .kor d _ _ | .kxor d _ _ | .knot d _ => [kNum d]
  | .kmov d _ k => [if k.toNat = 2 then vNum d else kNum d]
  | .tmodeOn n k _ => if k = 0 then tileRun 16 (8 * (n.toNat + 1)) else []
  | .tzero t | .top t _ _ _ | .tops t _ _ _ _ => tileRun (16 + 8 * t.toNat) 8
  | _ => []

/-- The registers that a word reads, its destination too where elements of it remain (R114). -/
def readSet (vc : BitVec 5) : Instr → List Nat
  | .tlbinv a b | .cflush a b | .beq a b _ | .bne a b _ | .blt a b _ | .bge a b _ | .bltu a b _ | .bgeu a b _
  | .fork _ a b | .binit a b | .bwait _ a b | .bcomb _ a b | .amoadd _ a b _ | .amoand _ a b _ | .amoor _ a b _
  | .amoxor _ a b _ | .amomin _ a b _ | .amomax _ a b _ | .amominu _ a b _ | .amomaxu _ a b _ | .amoswap _ a b _
  | .amofadd _ a b _ | .amoz _ a b _ | .czero a b | .lamoadd _ a b | .fewait a b | .feset a b | .feclr a b
  | .kroute _ a b | .lwadd _ a b | .lwset _ a b | .lwinit _ a b | .lwdep a b | .lwstep _ a b | .lwsweep _ a b
  | .anxput a b | .add _ a b | .sub _ a b | .and _ a b | .or _ a b | .xor _ a b | .sll _ a b | .srl _ a b
  | .sra _ a b | .mul _ a b | .mulh _ a b | .mulhu _ a b | .div _ a b | .divu _ a b | .rem _ a b | .remu _ a b
  | .min _ a b | .max _ a b | .minu _ a b | .maxu _ a b | .slt _ a b | .sltu _ a b | .fadd _ a b _ | .fsub _ a b _
  | .fmul _ a b _ | .fdiv _ a b _ | .fmin _ a b _ | .fmax _ a b _ | .fcmp _ a b _ | .fsgn _ a b _ => [xNum a, xNum b]
  | .seedset a | .jalr _ a _ | .join a | .sev a | .barrive _ a | .bsync a | .bswap a | .bquery _ a | .ldB _ a _
  | .ldBu _ a _ | .ldH _ a _ | .ldHu _ a _ | .ldW _ a _ | .ldWu _ a _ | .ldD _ a _ | .ldQ _ a _ | .pref a _ _
  | .lld _ a _ _ | .lldWf _ a _ _ | .lldWfc _ a _ _ | .vlld _ a _ | .copy _ a | .copy2d _ a | .cstat _ a | .subs _ a
  | .unsubs _ a | .rtick _ a | .rtake _ a | .rrel _ a | .lwrd _ a | .lwrdx _ a | .lwpeek _ a | .lwnow _ a
  | .msend _ a | .srwr _ a _ | .srset _ a _ | .srclr _ a _ | .clz _ a | .ctz _ a | .popc _ a | .addi _ a _
  | .andi _ a _ | .ori _ a _ | .xori _ a _ | .slli _ a _ | .srli _ a _ | .srai _ a _ | .slti _ a _ | .sltiu _ a _
  | .fsqrt _ a _ | .fcvt _ a _ _ | .fclass _ a _ => [xNum a]
  | .wfe _ b | .sopen _ b | .sadv _ b => [xNum b]
  | .stB d a _ | .stH d a _ | .stW d a _ | .stD d a _ | .xst d a => [xNum d, xNum a]
  | .stQ d a _ => [xNum d, xNum (d + 1), xNum a]
  | .cas d a b _ | .lcas d a b | .sel d a b | .fma d a b _ => [xNum d, xNum a, xNum b]
  | .cas2 d a b => [xNum d, xNum (d + 1), xNum a, xNum b, xNum (b + 1)]
  | .vld d a _ _ _ => [xNum a, vNum d]
  | .vst d a _ | .vlst d a _ | .vxst d a | .viota d a _ | .vmvx d a _ => [vNum d, xNum a]
  | .vlds d a b _ _ _ | .vsts d a b _ | .vldp d a b _ _ _ | .vstp d a b _ | .rput d a b => [vNum d, xNum a, xNum b]
  | .vgath d a b _ _ | .vscat d a b _ => [vNum d, xNum a, vNum b]
  | .lst d a s _ | .lstSf d a s _ | .lstWesf d a s _ => quadRegs s d ++ [xNum a]
  | .lgath _ a b => [xNum a, vNum b]
  | .vspop d _ => [vNum d]
  | .bkany a _ | .bkall a _ | .kpopc _ a | .kfirst _ a => [kNum a]
  | .vadd d a b _ | .vsub d a b _ | .vmul d a b _ | .vmulh d a b _ | .vmin d a b _ | .vmax d a b _ | .vand d a b _
  | .vor d a b _ | .vxor d a b _ | .vshl d a b _ | .vshr d a b _ | .vsra d a b _ | .vsel d a b _ | .vadds d a b _
  | .vfadd d a b _ | .vfsub d a b _ | .vfmul d a b _ | .vfma d a b _ | .vfmin d a b _ | .vfmax d a b _
  | .vfdot d a b _ => [vNum d, vNum a, vNum b]
  | .vabs d a _ | .vfabs d a _ | .vcompress d a _ | .vexpand d a _ | .vred d a _ _ | .vscan d a _ _ | .vexp2 d a _
  | .vlog2 d a _ | .vrcp d a _ | .vrsqrt d a _ | .vsin d a _ | .vtanh d a _ | .vsigm d a _ | .vmov d a _ => [vNum d, vNum a]
  | .vcmp _ k a b _ | .vfcmp _ k a b _ => [64 + k.toNat, vNum a, vNum b]
  | .vcvt d a _ e t | .vdeq d a _ e t => vRun d (cvtRatio t e) ++ vRun a (cvtRatio e t)
  | .vquant d a _ e t => vNum vc :: vNum d :: vRun a (cvtRatio e t)
  | .vbcast d a b _ | .vslide d a b _ => [vNum d, vNum a, xNum b]
  | .vperm d a b t => vNum d :: vNum a :: vRun b (16 / typeWidth t)
  | .vtopk k a b _ => [64 + k.toNat, vNum a, xNum b]
  | .vzip _ a b _ => [vNum a, vNum b]
  | .kand d a b | .kor d a b | .kxor d a b => [kNum d, kNum a, kNum b]
  | .knot d a => [kNum d, kNum a]
  | .kmov d a k => [if k.toNat = 2 then vNum d else kNum d, if k.toNat = 1 then vNum a else kNum a]
  | .vmvs _ a b _ => [vNum a, xNum b]
  | .top t a b _ => tileRun (16 + 8 * t.toNat) 8 ++ [vNum a, vNum b]
  | .tops t s a b _ => tileRun (16 + 8 * t.toNat) 8 ++ [vNum a, vNum b, 32 + s.toNat]
  | .trowst t _ => tileRun (16 + 8 * t.toNat) 8
  | _ => []

end Sys2Proof.Machine
end

