-- ==== Sys2Proof/Machine/Vfp.lean ====
section
/-! DEFINITION. VFP: floating-point vectors (R251 to R254). -/

namespace Sys2Proof.Machine

/-- A sum of two elements, rounded once. -/
def fAdd (f : Fmt) (mode : Nat) (sub : Bool) (x y : Nat) : F Nat := do
  let u ← rdVal f x
  let v ← rdVal f y
  roundTo f mode (← sumVals mode [u, if sub then v.neg else v])
def fMul (f : Fmt) (mode : Nat) (x y : Nat) : F Nat := do
  let u ← rdVal f x
  let v ← rdVal f y
  roundTo f mode (← mulVal u v)
def fMulAdd (f : Fmt) (mode : Nat) (x y z : Nat) : F Nat := do
  let u ← rdVal f x
  let v ← rdVal f y
  let c ← rdVal f z
  let q ← mulVal u v
  roundTo f mode (← sumVals mode [q, c])

/-- VFADD (R252). -/
def execVfadd (d a b : BitVec 5) (t : BitVec 4) (s : State) : Out :=
  run (.vfadd d a b t) s (vecBin d a b (typeWidth t) (fAdd (Fmt.ofType t) s.rmode false))
/-- VFSUB (R252). -/
def execVfsub (d a b : BitVec 5) (t : BitVec 4) (s : State) : Out :=
  run (.vfsub d a b t) s (vecBin d a b (typeWidth t) (fAdd (Fmt.ofType t) s.rmode true))
/-- VFMUL (R252). -/
def execVfmul (d a b : BitVec 5) (t : BitVec 4) (s : State) : Out :=
  run (.vfmul d a b t) s (vecBin d a b (typeWidth t) (fMul (Fmt.ofType t) s.rmode))
/-- VFMA (R252). -/
def execVfma (d a b : BitVec 5) (t : BitVec 4) (s : State) : Out :=
  run (.vfma d a b t) s (vecTer d a b (typeWidth t) (fMulAdd (Fmt.ofType t) s.rmode))
/-- VFMIN (R252, R67). -/
def execVfmin (d a b : BitVec 5) (t : BitVec 4) (s : State) : Out :=
  run (.vfmin d a b t) s (vecBin d a b (typeWidth t) (minMax (Fmt.ofType t) false))
/-- VFMAX (R252, R67). -/
def execVfmax (d a b : BitVec 5) (t : BitVec 4) (s : State) : Out :=
  run (.vfmax d a b t) s (vecBin d a b (typeWidth t) (minMax (Fmt.ofType t) true))

/-- The relations of VFCMP (R254), from the relation mask of two values. -/
def vfcmpRel (c : BitVec 2) (r : Nat) : Bool :=
  match c.toNat with
  | 0 => r == 2
  | 1 => r == 1
  | 2 => r == 1 || r == 2
  | _ => r == 8

/-- VFCMP (R254). -/
def execVfcmp (c : BitVec 2) (k : BitVec 3) (a b : BitVec 5) (t : BitVec 4) (s : State) : Out :=
  run (.vfcmp c k a b t) s (vecCmp k a b (typeWidth t) fun x y => do
    return vfcmpRel c (← relate (Fmt.ofType t) x y))

/-- VFABS (R252). -/
def execVfabs (d a : BitVec 5) (t : BitVec 4) (s : State) : Out :=
  run (.vfabs d a t) s (vecUn d a (typeWidth t) fun x => fsgnZero (Fmt.ofType t) x)
where
  /-- The magnitude; a NaN gives the canonical NaN. -/
  fsgnZero (f : Fmt) (x : Nat) : F Nat := do
    let v ← rdVal f x
    return if v.isNan then f.canon else x % 2 ^ (f.width - 1)

/-- The products of two lists of elements. -/
def dotTerms (f : Fmt) : List (Nat × Nat) → F (List Val)
  | [] => return []
  | p :: ps => do
    let u ← rdVal f p.1
    let v ← rdVal f p.2
    let q ← mulVal u v
    let qs ← dotTerms f ps
    return q :: qs

/-- VFDOT: the exact sum of a group of products and the addend, rounded once to fp32 (R253). -/
def execVfdot (d a b : BitVec 5) (t : BitVec 4) (s : State) : Out :=
  run (.vfdot d a b t) s do
    let w := typeWidth t
    let gs := 32 / w
    let x ← readV a
    let y ← readV b
    let c ← readV (s.addend d)
    vecMap d 32 ((pieces gs 128 ((vElems w x).zip (vElems w y))).zip (vElems 32 c)) fun p => do
      let ts ← dotTerms (Fmt.ofType t) p.1
      let z ← rdVal .fp32 p.2
      roundTo .fp32 s.rmode (← sumVals s.rmode (z :: ts))

end Sys2Proof.Machine
end

