-- ==== Sys2Proof/Machine/Trel.lean ====
section
/-! DEFINITION. TREL: Trellis mode (R268 to R280). -/

namespace Sys2Proof.Machine

/-- Clear registers r to r + n - 1. -/
def zeroV (r : Nat) : Nat → Thread → Thread
  | 0, th => th
  | n + 1, th => zeroV (r + 1) n (th.setV r 0)

/-- TMODE.on (R276). Its wait for earlier instructions of the thread is over at once: they complete in order. -/
def execTmodeOn (n k : BitVec 1) (t : BitVec 4) (s : State) : Out :=
  run (.tmodeOn n k t) s
    (modMe fun th =>
      let th := th.setTstat 12 10 (1 + 2 * n.toNat + 4 * boolNat (t == 2#4))
      if k = 0 then zeroV 16 (8 * (n.toNat + 1)) th else th)
/-- TMODE.off (R276). -/
def execTmodeOff (s : State) : Out := run .tmodeOff s (modMe fun th => th.setTstat 12 10 0)

/-- The tile is configured (R270). -/
def tileOk (th : Thread) (t : BitVec 1) : Bool := th.tm && (t == 0#1 || th.tiles)
/-- First register of a tile (R269). -/
def tileReg (t : BitVec 1) : Nat := 16 + 8 * t.toNat
/-- The accumulators of a tile, row by row (R269). -/
def tileElems (th : Thread) (t : BitVec 1) : List Nat := groupElems th 32 (tileReg t) 8

/-- TZERO (R277). -/
def execTzero (t : BitVec 1) (s : State) : Out :=
  run (.tzero t) s (if tileOk s.me t then modMe (zeroV (tileReg t) 8) else illegal)

/-- The columns of A, and of B, with 32 elements for each k: transposed, 32 lists of K elements. -/
def columns : Nat → List (List Nat) → List (List Nat)
  | 0, _ => []
  | n + 1, l => l.map (fun r => r.headD 0) :: columns n (l.map List.tail)

/-- The exact integer product sum of a row and a column. -/
def intDot (w : Nat) : List Nat → List Nat → Int
  | x :: xs, y :: ys => toSigned x w * toSigned y w + intDot w xs ys
  | _, _ => 0

/-- One accumulator of TOP (R278). -/
def topElem (t : BitVec 4) (isInt : Bool) (mode : Nat) (acc : Nat) (row col : List Nat) : F Nat :=
  if isInt then return wrapInt 32 (toSigned acc 32 + intDot (typeWidth t) row col)
  else do
    let ts ← dotTerms (Fmt.ofType t) (row.zip col)
    let c ← rdVal .fp32 acc
    roundTo .fp32 mode (← sumVals mode (c :: ts))

/-- One accumulator of TOPS, with the scale bytes of its row and its column (R279). (DESIGN CHOICE, unsafe, log 95) -/
def topsElem (t : BitVec 4) (mode : Nat) (xa xb : Nat) (acc : Nat) (row col : List Nat) : F Nat :=
  if xa = 255 ∨ xb = 255 then roundTo .fp32 mode (.nan false)
  else do
    let ts ← dotTerms (Fmt.ofType t) (row.zip col)
    let k : Int := (xa : Int) + (xb : Int) - 254
    let ts := ts.map fun v => match v with
      | .fin n m e st => Val.fin n m (e + k) st
      | v => v
    let c ← rdVal .fp32 acc
    roundTo .fp32 mode (← sumVals mode (c :: ts))

/-- Work through a row of accumulators with the columns of B and what accompanies them. -/
def topRow (f : Nat → Nat → List Nat → F Nat) : List Nat → List Nat → List (List Nat) → F (List Nat)
  | acc :: accs, sb :: sbs, col :: cols => do
    let r ← f sb acc col
    let rs ← topRow f accs sbs cols
    return r :: rs
  | _, _, _ => return []

/-- Rows outer, columns inner (R278). -/
def topRows (f : Nat → List Nat → Nat → Nat → List Nat → F Nat) (sbs : List Nat) (cols : List (List Nat)) :
    List (List Nat) → List Nat → List (List Nat) → F (List Nat)
  | accs :: rest, sa :: sas, row :: rows => do
    let r ← topRow (f sa row) accs sbs cols
    let rs ← topRows f sbs cols rest sas rows
    return r ++ rs
  | _, _, _ => return []

/-- The outer products of a tile: f computes an accumulator from its scales, its row and its column. -/
def outer (t : BitVec 1) (a b : BitVec 5) (y : BitVec 4) (scales : List Nat)
    (f : Nat → Nat → Nat → List Nat → List Nat → F Nat) : M Unit := do
  let s ← get
  let w := typeWidth y
  let k := lanes w / 32
  let rows := columns 32 (pieces 32 k (vElems w (s.me.getV a.toNat)))
  let cols := columns 32 (pieces 32 k (vElems w (s.me.getV b.toNat)))
  let accs := pieces 32 32 (tileElems s.me t)
  let r ← liftF (topRows (fun sa row sb acc col => f sa sb acc row col) (scales.drop 32) cols accs (scales.take 32) rows)
  modMe (writeGroup 32 (tileReg t) 8 r)

/-- TOP (R278). -/
def execTop (t : BitVec 1) (a b : BitVec 5) (y : BitVec 4) (s : State) : Out :=
  run (.top t a b y) s
    (let isInt := y == 0#4 || y == 8#4
     if tileOk s.me t && isInt == s.me.acc then
       outer t a b y (List.replicate 64 127) fun _ _ acc row col => topElem y isInt s.rmode acc row col
     else illegal)

/-- TOPS (R279). -/
def execTops (t : BitVec 1) (sc : BitVec 4) (a b : BitVec 5) (y : BitVec 4) (s : State) : Out :=
  run (.tops t sc a b y) s
    (if tileOk s.me t && !s.me.acc then
       outer t a b y (elems 8 64 (s.me.getV sc.toNat).toNat) fun sa sb acc row col => topsElem y s.rmode sa sb acc row col
     else illegal)

/-- The maximum of a row under R67. -/
def rowMax : List Nat → F Nat
  | [] => return 0
  | [x] => return x
  | x :: y :: l => do
    let m ← minMax .fp32 true x y
    rowMaxFrom m l
where
  rowMaxFrom : Nat → List Nat → F Nat
    | m, [] => return m
    | m, x :: l => do
      let m ← minMax .fp32 true m x
      rowMaxFrom m l

/-- The rounded squares of a row. -/
def rowSquares : List Nat → F (List Nat)
  | [] => return []
  | x :: xs => do
    let r ← fMul .fp32 0 x x
    let rs ← rowSquares xs
    return r :: rs

/-- Maximum, sum and sum of squares of a row (R280, R81). -/
def rowStats (row : List Nat) : F (Nat × Nat × Nat) := do
  let mx ← rowMax row
  let sm ← tree .fp32 0 5 (row.map some)
  let sq ← rowSquares row
  let ss ← tree .fp32 0 5 (sq.map some)
  return (mx, sm.getD 0, ss.getD 0)

/-- The statistics of all rows. -/
def allStats : List (List Nat) → F (List (Nat × Nat × Nat))
  | [] => return []
  | r :: rs => do
    let p ← rowStats r
    let ps ← allStats rs
    return p :: ps

/-- TROWST (R280). -/
def execTrowst (t : BitVec 1) (d : BitVec 5) (s : State) : Out :=
  run (.trowst t d) s
    (if tileOk s.me t && !s.me.acc then do
       let st ← liftF (allStats (pieces 32 32 (tileElems s.me t)))
       writeV d (vPack 32 (st.map (·.1) ++ st.map (·.2.1) ++ st.map (·.2.2) ++ List.replicate 32 0))
     else illegal)

end Sys2Proof.Machine
end

