-- ==== Sys2Proof/Machine/Vcvt.lean ====
section
/-! DEFINITION. VCVT, VQUANT and VDEQ (R255 to R258, R60, R61). -/

namespace Sys2Proof.Machine

/-- Registers of the destination and of the source of a conversion (R255). -/
def cvtGroups (dt st : BitVec 4) : Nat × Nat :=
  let wd := typeWidth dt
  let ws := typeWidth st
  if ws < wd then (wd / ws, 1) else (1, ws / wd)

/-- One element of VCVT (R256). -/
def cvtElem (dt st : BitVec 4) (sat : Bool) (mode : Nat) (x : Nat) : F Nat :=
  let wd := typeWidth dt
  let ws := typeWidth st
  if tFloat st then
    if tFloat dt then cvtFF (Fmt.ofType dt) (Fmt.ofType st) (cvtRounds dt st) mode sat x
    else cvtFI wd (tSigned dt) (Fmt.ofType st) mode x
  else
    let i := readInt ws (tSigned st) x
    if tFloat dt then cvtIF (Fmt.ofType dt) mode sat i
    else if sat && decide (wd ≤ ws) then clampInt wd (tSigned dt) i
    else return wrapInt wd i

/-- Convert a group (R255): f over the elements of the source with what accompanies each. -/
def cvtGroup {α : Type} (d : BitVec 5) (dt st : BitVec 4) (xs : List α) (f : α → F Nat) : M Unit := do
  let s ← get
  let wd := typeWidth dt
  let (gd, _) := cvtGroups dt st
  let n := 4096 / Nat.min wd (typeWidth st)
  let old := groupElems s.me wd d.toNat gd
  let r ← liftF (masked s.vzero f (maskBits n s.vmask.toNat) xs old)
  modMe (writeGroup wd d.toNat gd r)

/-- The elements of the source group. -/
def cvtSource (a : BitVec 5) (dt st : BitVec 4) : M (List Nat) := do
  let s ← get
  let (_, gs) := cvtGroups dt st
  return (groupElems s.me (typeWidth st) a.toNat gs).take (4096 / Nat.min (typeWidth dt) (typeWidth st))

/-- VCVT (R256). -/
def execVcvt (d a : BitVec 5) (x : BitVec 1) (e t : BitVec 4) (s : State) : Out :=
  run (.vcvt d a x e t) s do
    let xs ← cvtSource a t e
    cvtGroup d t e xs (cvtElem t e (x == 1#1) s.rmode)

/-- emax of R61 for the element formats that VQUANT admits. -/
def emax (t : BitVec 4) : Int :=
  match t.toNat with
  | 10 => 8
  | 11 => 15
  | _ => 2

/-- floor(log2 v) of a nonzero finite value. -/
def Val.floorLog2 : Val → Option Int
  | .fin _ m e _ => if m = 0 then none else some ((m.log2 : Int) + e)
  | _ => none

/-- The scale byte of R61 over the active elements of a block. -/
def blockScale (dt st : BitVec 4) (act : List Nat) : F Nat := do
  let vs := act.map (Fmt.ofType st).decode
  raiseIf (vs.any Val.isSig) flagNV
  if vs.any (fun v => v.isNan || v.isInf) then do raise flagNV; return 255
  else
    let logs := vs.filterMap Val.floorLog2
    match logs with
    | [] => return 0
    | l :: ls =>
      let top := ls.foldl (fun a b => if a < b then b else a) l
      let e := top - emax dt
      let e := if e < -127 then -127 else if 127 < e then 127 else e
      return (e + 127).toNat

/-- A value times 2^k. -/
def Val.shift (k : Int) : Val → Val
  | .fin n m e st => .fin n m (e + k) st
  | v => v

/-- The active members of a list. -/
def active {α : Type} : List Bool → List α → List α
  | b :: bs, x :: xs => if b then x :: active bs xs else active bs xs
  | _, _ => []

/-- The scales of all blocks: the unsigned maximum of the given byte and the computed one (R257). -/
def quantScales (dt st : BitVec 4) : List (List Bool × List Nat) → List Nat → F (List Nat)
  | p :: ps, x :: xs => do
    let c ← blockScale dt st (active p.1 p.2)
    let r ← quantScales dt st ps xs
    return Nat.max x c :: r
  | _, _ => return []

/-- An element over its block's scale byte, converted to type t (R257). -/
def quantElem (dt st : BitVec 4) (sat : Bool) (mode : Nat) (p : Nat × Nat) : F Nat := do
  let v ← rdVal (Fmt.ofType st) p.1
  if p.2 = 255 then roundSat (Fmt.ofType dt) mode sat (.nan false)
  else roundSat (Fmt.ofType dt) mode sat (v.shift (127 - (p.2 : Int)))

/-- The blocks from block b on where vc is vd: of the scale bytes that the register held, each block's takes part in its
scale (R244); the scale is written into the register as the blocks before it left it, then the block's elements.
(DEDUCED, unsafe, log 44) -/
def quantInPlace (dt st : BitVec 4) (f : Nat × Nat → F Nat) (z : Bool) (bytes : List Nat) (b : Nat) :
    List (List Bool × List Nat) → BitVec 4096 → F (BitVec 4096)
  | [], v => pure v
  | p :: ps, v => do
    let c ← blockScale dt st (active p.1 p.2)
    let x := Nat.max (bytes.getD b 0) c
    let old := vElems (typeWidth dt) (vPack 8 ((vElems 8 v).set b x))
    let r ← masked z f p.1 (p.2.map fun e => (e, x)) ((old.drop (32 * b)).take 32)
    quantInPlace dt st f z bytes (b + 1) ps
      (vPack (typeWidth dt) (old.take (32 * b) ++ r ++ old.drop (32 * (b + 1))))

/-- VQUANT (R257). The scales go to vc, then the elements to vd; where the two are one register, block
after block. (DEDUCED, unsafe, log 44) -/
def execVquant (d a : BitVec 5) (x : BitVec 1) (e t : BitVec 4) (s : State) : Out :=
  run (.vquant d a x e t) s do
    let xs ← cvtSource a t e
    let n := lanes (typeWidth t)
    let nb := n / 32
    let vc := s.addend d
    let bytes := vElems 8 (← readV vc)
    let m := maskBits n s.vmask.toNat
    let f := quantElem t e (x == 1#1) s.rmode
    if vc = d then
      writeV d (← liftF (quantInPlace t e f s.vzero bytes 0 ((pieces 32 nb m).zip (pieces 32 nb xs))
        (s.me.getV d.toNat)))
    else
    let scales ← liftF (quantScales t e ((pieces 32 nb m).zip (pieces 32 nb xs)) bytes)
    writeV vc (vPack 8 (scales ++ bytes.drop nb))
    let per := scales.flatMap fun c => List.replicate 32 c
    let old := vElems (typeWidth t) (s.me.getV d.toNat)
    let r ← liftF (masked s.vzero f m (xs.zip per) old)
    writeV d (vPack (typeWidth t) r)

/-- VDEQ (R258). -/
def execVdeq (d a : BitVec 5) (x : BitVec 1) (e t : BitVec 4) (s : State) : Out :=
  run (.vdeq d a x e t) s do
    let xs ← cvtSource a t e
    let bytes := vElems 8 (← readV (s.addend d))
    let per := bytes.flatMap fun c => List.replicate 32 c
    cvtGroup d t e (xs.zip per) fun p => do
      let v ← rdVal (Fmt.ofType e) p.1
      if p.2 = 255 then roundSat (Fmt.ofType t) s.rmode (x == 1#1) (.nan false)
      else roundSat (Fmt.ofType t) s.rmode (x == 1#1) (v.shift ((p.2 : Int) - 127))

end Sys2Proof.Machine
end

