-- ==== Sys2Proof/Machine/Vint.lean ====
section
/-! DEFINITION. VINT: integer vectors (R248 to R250). -/

namespace Sys2Proof.Machine

/-- An integer elementwise operation: the element width, the signedness and the two elements. -/
def vintBin (d a b : BitVec 5) (t : BitVec 4) (f : Nat → Bool → Nat → Nat → F Nat) : M Unit :=
  vecBin d a b (typeWidth t) (f (typeWidth t) (tSigned t))

/-- VADD (R248). -/
def execVadd (d a b : BitVec 5) (t : BitVec 4) (s : State) : Out :=
  run (.vadd d a b t) s (vintBin d a b t fun w _ x y => pure ((x + y) % 2 ^ w))
/-- VSUB (R248). -/
def execVsub (d a b : BitVec 5) (t : BitVec 4) (s : State) : Out :=
  run (.vsub d a b t) s (vintBin d a b t fun w _ x y => pure ((x + 2 ^ w - y) % 2 ^ w))
/-- VMUL: the low bits of the product (R248). -/
def execVmul (d a b : BitVec 5) (t : BitVec 4) (s : State) : Out :=
  run (.vmul d a b t) s (vintBin d a b t fun w _ x y => pure (x * y % 2 ^ w))
/-- VMULH: bits [2w-1:w] of the product (R248). -/
def execVmulh (d a b : BitVec 5) (t : BitVec 4) (s : State) : Out :=
  run (.vmulh d a b t) s (vintBin d a b t fun w sg x y =>
    pure (wrapInt w (readInt w sg x * readInt w sg y / 2 ^ w)))
/-- VMIN (R248). -/
def execVmin (d a b : BitVec 5) (t : BitVec 4) (s : State) : Out :=
  run (.vmin d a b t) s (vintBin d a b t fun w sg x y =>
    pure (if readInt w sg x < readInt w sg y then x else y))
/-- VMAX (R248). -/
def execVmax (d a b : BitVec 5) (t : BitVec 4) (s : State) : Out :=
  run (.vmax d a b t) s (vintBin d a b t fun w sg x y =>
    pure (if readInt w sg x < readInt w sg y then y else x))
/-- VAND (R248). -/
def execVand (d a b : BitVec 5) (t : BitVec 4) (s : State) : Out :=
  run (.vand d a b t) s (vintBin d a b t fun _ _ x y => pure (x &&& y))
/-- VOR (R248). -/
def execVor (d a b : BitVec 5) (t : BitVec 4) (s : State) : Out :=
  run (.vor d a b t) s (vintBin d a b t fun _ _ x y => pure (x ||| y))
/-- VXOR (R248). -/
def execVxor (d a b : BitVec 5) (t : BitVec 4) (s : State) : Out :=
  run (.vxor d a b t) s (vintBin d a b t fun _ _ x y => pure (x ^^^ y))
/-- VSHL: by b mod w (R248). -/
def execVshl (d a b : BitVec 5) (t : BitVec 4) (s : State) : Out :=
  run (.vshl d a b t) s (vintBin d a b t fun w _ x y => pure (x * 2 ^ (y % w) % 2 ^ w))
/-- VSHR: by b mod w, filling with zeros (R248). -/
def execVshr (d a b : BitVec 5) (t : BitVec 4) (s : State) : Out :=
  run (.vshr d a b t) s (vintBin d a b t fun w _ x y => pure (x / 2 ^ (y % w)))
/-- VSRA: by b mod w, filling with the sign (R248). -/
def execVsra (d a b : BitVec 5) (t : BitVec 4) (s : State) : Out :=
  run (.vsra d a b t) s (vintBin d a b t fun w sg x y => pure (wrapInt w (readInt w sg x / 2 ^ (y % w))))
/-- VABS (R248). -/
def execVabs (d a : BitVec 5) (t : BitVec 4) (s : State) : Out :=
  run (.vabs d a t) s (vecUn d a (typeWidth t) fun x =>
    pure (wrapInt (typeWidth t) ((readInt (typeWidth t) (tSigned t) x).natAbs : Int)))

/-- The relations of VCMP by condition code (R249). -/
def vcmpRel (c : BitVec 2) (x y : Int) : Bool :=
  match c.toNat with
  | 0 => decide (x = y)
  | 1 => decide (x ≠ y)
  | 2 => decide (x < y)
  | _ => decide (x ≤ y)

/-- VCMP (R249). -/
def execVcmp (c : BitVec 2) (k : BitVec 3) (a b : BitVec 5) (t : BitVec 4) (s : State) : Out :=
  run (.vcmp c k a b t) s (vecCmp k a b (typeWidth t) fun x y =>
    pure (vcmpRel c (readInt (typeWidth t) (tSigned t) x) (readInt (typeWidth t) (tSigned t) y)))

/-- VSEL: the mask selects (R250). -/
def execVsel (d a b : BitVec 5) (t : BitVec 4) (s : State) : Out :=
  run (.vsel d a b t) s do
    let w := typeWidth t
    let x ← readV a
    let y ← readV b
    let m := maskBits (lanes w) s.vmask.toNat
    writeV d (vPack w ((m.zip ((vElems w x).zip (vElems w y))).map fun p => if p.1 then p.2.1 else p.2.2))

/-- VADDS: clamped, setting SAT (R248, R56). -/
def execVadds (d a b : BitVec 5) (t : BitVec 4) (s : State) : Out :=
  run (.vadds d a b t) s (vintBin d a b t fun w sg x y => clampInt w sg (readInt w sg x + readInt w sg y))

end Sys2Proof.Machine
end

