-- ==== Sys2Proof/Machine/Vperm.lean ====
section
/-! DEFINITION. VPERM: permutations, reductions, scans and the choice of the largest (R259 to R264). -/

namespace Sys2Proof.Machine

/-- Element j of a register, or zero beyond its elements. -/
def pick (w : Nat) (v : VReg) (j : Nat) : Nat := if j < lanes w then vElem w v j else 0

/-- VBCAST (R260). -/
def execVbcast (d a b : BitVec 5) (t : BitVec 4) (s : State) : Out :=
  run (.vbcast d a b t) s do
    let w := typeWidth t
    let x ← readV a
    let j ← readX b
    let e := pick w x j.toNat
    vecMap d w (List.replicate (lanes w) e) pure

/-- VPERM: the indices are n16 elements of the group at vb (R260). -/
def execVperm (d a b : BitVec 5) (t : BitVec 4) (s : State) : Out :=
  run (.vperm d a b t) s do
    let w := typeWidth t
    let x ← readV a
    let idx := groupElems s.me 16 b.toNat (Nat.max 1 (16 / w))
    vecMap d w (idx.take (lanes w)) fun j => pure (pick w x j)

/-- VSLIDE: a positive amount moves elements toward index 0 (R260). -/
def execVslide (d a b : BitVec 5) (t : BitVec 4) (s : State) : Out :=
  run (.vslide d a b t) s do
    let w := typeWidth t
    let x ← readV a
    let k ← readX b
    vecMap d w (List.range (lanes w)) fun i =>
      let j := (i : Int) + k.toInt
      pure (if j < 0 then 0 else pick w x j.toNat)

/-- VIOTA (R260). -/
def execViota (d a : BitVec 5) (t : BitVec 4) (s : State) : Out :=
  run (.viota d a t) s do
    let w := typeWidth t
    let x ← readX a
    vecMap d w (List.range (lanes w)) fun i => pure ((x.toNat + i) % 2 ^ w)

/-- The old elements after the packed ones, or zeros (R261). -/
def packInto (z : Bool) : List Nat → List Nat → List Nat
  | c :: cs, _ :: os => c :: packInto z cs os
  | [], os => if z then os.map (fun _ => 0) else os
  | _, [] => []

/-- VCOMPRESS (R261). -/
def execVcompress (d a : BitVec 5) (t : BitVec 4) (s : State) : Out :=
  run (.vcompress d a t) s do
    let w := typeWidth t
    let x ← readV a
    let act := active (maskBits (lanes w) s.vmask.toNat) (vElems w x)
    writeV d (vPack w (packInto s.vzero act (vElems w (s.me.getV d.toNat))))

/-- Spread elements over the active positions (R261). -/
def spread (z : Bool) : List Bool → List Nat → List Nat → List Nat
  | b :: bs, o :: os, xs =>
    if b then xs.headD 0 :: spread z bs os xs.tail else (if z then 0 else o) :: spread z bs os xs
  | _, _, _ => []

/-- VEXPAND (R261). -/
def execVexpand (d a : BitVec 5) (t : BitVec 4) (s : State) : Out :=
  run (.vexpand d a t) s do
    let w := typeWidth t
    let x ← readV a
    writeV d (vPack w (spread s.vzero (maskBits (lanes w) s.vmask.toNat) (vElems w (s.me.getV d.toNat)) (vElems w x)))

/-- The operation of VRED and VSCAN on two elements (R262): 0 sum, 1 min, 2 max, 3 and, 4 or, 5 xor. -/
def redOp (o : Nat) (t : BitVec 4) (mode : Nat) (x y : Nat) : F Nat :=
  let w := typeWidth t
  let f := Fmt.ofType t
  if tFloat t then
    match o with
    | 0 => do
      let u ← rdVal f x
      let v ← rdVal f y
      roundTo f mode (← sumVals mode [u, v])
    | 1 => minMax f false x y
    | _ => minMax f true x y
  else
    let i := readInt w (tSigned t) x
    let j := readInt w (tSigned t) y
    pure (match o with
      | 0 => (x + y) % 2 ^ w
      | 1 => if i < j then x else y
      | 2 => if i < j then y else x
      | 3 => x &&& y
      | 4 => x ||| y
      | _ => x ^^^ y)

/-- A single element delivered as a result (R262): a NaN becomes canonical, with NV if it was signalling. -/
def deliver (t : BitVec 4) (x : Nat) : F Nat :=
  if tFloat t then do
    let v ← rdVal (Fmt.ofType t) x
    return if v.isNan then (Fmt.ofType t).canon else x
  else pure x

/-- The result of VRED with no active element (R262). -/
def redEmpty (o : Nat) (t : BitVec 4) : Nat :=
  let w := typeWidth t
  if tFloat t then (if o = 0 then 0 else if t = 9#4 then 0 else (Fmt.ofType t).canon)
  else match o with
    | 1 => if tSigned t then 2 ^ (w - 1) - 1 else 2 ^ w - 1
    | 2 => if tSigned t then 2 ^ (w - 1) else 0
    | 3 => 2 ^ w - 1
    | _ => 0

/-- Fold an operation over elements. -/
def redFold (o : Nat) (t : BitVec 4) (mode : Nat) : Nat → List Nat → F Nat
  | acc, [] => return acc
  | acc, x :: xs => do
    let r ← redOp o t mode acc x
    redFold o t mode r xs

/-- VRED over the elements, with their mask (R262, R81). -/
def reduce (o : Nat) (t : BitVec 4) (mode : Nat) (m : List Bool) (xs : List Nat) : F Nat :=
  match active m xs with
  | [] => return redEmpty o t
  | [x] => deliver t x
  | x :: ys =>
    if tFloat t && o == 0 then do
      let es := (m.zip xs).map fun p => if p.1 then some p.2 else none
      let r ← tree (Fmt.ofType t) mode (lanes (typeWidth t)).log2 es
      return r.getD 0
    else redFold o t mode x ys

/-- VRED: the result to element 0 (R262). -/
def execVred (d a o : BitVec 5) (t : BitVec 4) (s : State) : Out :=
  run (.vred d a o t) s do
    let w := typeWidth t
    let x ← readV a
    let r ← liftF (reduce o.toNat t s.rmode (maskBits (lanes w) s.vmask.toNat) (vElems w x))
    let old := s.me.getV d.toNat
    writeV d (BitVec.ofNat 4096 ((if s.vzero then 0 else old.toNat / 2 ^ w * 2 ^ w) + r))

/-- The prefixes of VSCAN (R262): the prefix so far, none before the first active element. -/
def scan (o : Nat) (t : BitVec 4) (mode : Nat) (z : Bool) : Option Nat → List Bool → List Nat → List Nat → F (List Nat)
  | acc, b :: bs, x :: xs, old :: os =>
    if b then do
      let r ← match acc with
        | none => deliver t x
        | some a => redOp o t mode a x
      let rs ← scan o t mode z (some r) bs xs os
      return r :: rs
    else do
      let rs ← scan o t mode z acc bs xs os
      return (if z then 0 else old) :: rs
  | _, _, _, _ => return []

/-- VSCAN (R262). -/
def execVscan (d a o : BitVec 5) (t : BitVec 4) (s : State) : Out :=
  run (.vscan d a o t) s do
    let w := typeWidth t
    let x ← readV a
    let r ← liftF (scan o.toNat t s.rmode s.vzero none (maskBits (lanes w) s.vmask.toNat) (vElems w x)
      (vElems w (s.me.getV d.toNat)))
    writeV d (vPack w r)

/-- The rank key of VTOPK (R263): a NaN 0, else the magnitude plus 1. -/
def topKey (t : BitVec 4) (x : Nat) : Nat :=
  let w := typeWidth t
  if tFloat t then
    (if ((Fmt.ofType t).decode x).isNan then 0 else x % 2 ^ (w - 1) + 1)
  else (readInt w (tSigned t) x).natAbs + 1

/-- The largest threshold that at least k keys reach, bit by bit. -/
def threshold (keys : List Nat) (k : Nat) : Nat → Nat → Nat
  | 0, t => t
  | n + 1, t =>
    let c := t + 2 ^ n
    threshold keys k n (if k ≤ (keys.filter fun x => decide (c ≤ x)).length then c else t)

/-- Choose every key above the threshold, and of those at it the first `left` (R263). -/
def choose (t : Nat) : Nat → List (Option Nat) → List Nat
  | _, [] => []
  | left, none :: ks => 0 :: choose t left ks
  | left, some x :: ks =>
    if t < x then 1 :: choose t left ks
    else if x = t ∧ left ≠ 0 then 1 :: choose t (left - 1) ks
    else 0 :: choose t left ks

/-- The mask of the k largest magnitudes (R263). -/
def topMask (t : BitVec 4) (k : Nat) (m : List Bool) (xs : List Nat) : List Nat :=
  let keys := (m.zip xs).map fun p => if p.1 then some (topKey t p.2) else none
  let act := keys.filterMap id
  let k := Nat.min k act.length
  if k = 0 then keys.map fun _ => 0
  else
    let th := threshold act k 66 0
    choose th (k - (act.filter fun x => decide (th < x)).length) keys

/-- VTOPK (R263). -/
def execVtopk (k : BitVec 3) (a b : BitVec 5) (t : BitVec 4) (s : State) : Out :=
  run (.vtopk k a b t) s do
    let w := typeWidth t
    let x ← readV a
    let n ← readX b
    putMask k.toNat (lanes w) (topMask t n.toNat (maskBits (lanes w) s.vmask.toNat) (vElems w x))

/-- Alternate two lists. -/
def interleave : List Nat → List Nat → List Nat
  | x :: xs, y :: ys => x :: y :: interleave xs ys
  | _, _ => []

/-- VZIP (R264). -/
def execVzip (d a b : BitVec 5) (t : BitVec 4) (s : State) : Out :=
  run (.vzip d a b t) s do
    let w := typeWidth t
    let x ← readV a
    let y ← readV b
    let z := interleave (vElems w x) (vElems w y)
    let r ← liftF (masked s.vzero pure (maskBits (2 * lanes w) s.vmask.toNat) z (groupElems s.me w d.toNat 2))
    modMe (writeGroup w d.toNat 2 r)

end Sys2Proof.Machine
end

