-- ==== Sys2Proof/Machine/Vsfu.lean ====
section
/-! DEFINITION. VSFU: special functions, correctly rounded (R265). A value that is not dyadic is computed in fixed
point with 1,024 fraction bits and cut to 960, and its sticky part says that something is left. -/

namespace Sys2Proof.Machine

/-- Fraction bits of the fixed-point evaluation. -/
def sfuBits : Nat := 1024
def sfuOne : Nat := 2 ^ sfuBits

/-- The series of the exponential of a fixed-point x below 1, from term `t` at index `k`. -/
def expTerms (x : Nat) : Nat → Nat → Nat → Nat → Nat
  | 0, _, _, acc => acc
  | n + 1, k, t, acc => expTerms x n (k + 1) (t * x / sfuOne / (k + 1)) (acc + t)
/-- e^x for 0 ≤ x < 1. (PRESUMED, safe, log 50) -/
def fixExp (x : Nat) : Nat := expTerms x 200 0 sfuOne 0

/-- Σ z^(2k+1)/(2k+1), the signs alternating when `alt` holds; p is the power of z. -/
def oddTerms (z2 : Nat) (alt : Bool) : Nat → Nat → Nat → Int → Int
  | 0, _, _, acc => acc
  | n + 1, k, p, acc =>
    let t : Int := ((p / (2 * k + 1) : Nat) : Int)
    oddTerms z2 alt n (k + 1) (p * z2 / sfuOne) (if alt && k % 2 == 1 then acc - t else acc + t)
/-- artanh z, for z at most 1/3. (PRESUMED, safe, log 50) -/
def fixAtanh (z : Nat) : Nat := (oddTerms (z * z / sfuOne) false 340 0 z 0).toNat
/-- arctan(1/n). -/
def fixAtanInv (n : Nat) : Nat := (oddTerms (sfuOne / (n * n)) true 240 0 (sfuOne / n) 0).toNat
def fixLn2 : Nat := 2 * fixAtanh (sfuOne / 3)
def fixPi : Nat := 16 * fixAtanInv 5 - 4 * fixAtanInv 239

/-- The series of the sine: x^(2k+1)/(2k+1)!. -/
def sinTerms (x2 : Nat) : Nat → Nat → Nat → Int → Int
  | 0, _, _, acc => acc
  | n + 1, k, t, acc =>
    sinTerms x2 n (k + 1) (t * x2 / sfuOne / ((2 * k + 2) * (2 * k + 3))) (if k % 2 = 1 then acc - t else acc + t)
/-- sin x for 0 ≤ x ≤ π/2. (PRESUMED, safe, log 50) -/
def fixSin (x : Nat) : Nat := (sinTerms (x * x / sfuOne) 120 0 x 0).toNat

/-- A fixed-point magnitude as an inexact value. -/
def ofFix (neg : Bool) (x : Nat) : Val := .fin neg (x / 2 ^ 64) (64 - (sfuBits : Int)) true
/-- A magnitude so close below 1, or above 0, that every rounding takes it the same way. -/
def nearOne (neg : Bool) : Val := .fin neg (2 ^ 600 - 1) (-600) true
def nearZero : Val := .fin false 1 (-600) true

/-- m · 2^e as fixed point, for e from -sfuBits. -/
def toFix (m : Nat) (e : Int) : Nat := m * 2 ^ (e + (sfuBits : Int)).toNat

/-- |value| is at least 2^9. -/
def isLarge (m : Nat) (e : Int) : Bool := m != 0 && decide (9 ≤ (m.log2 : Int) + e)

/-- 2^a. -/
def sfuExp2 : Val → F Val
  | .nan _ => return .nan false
  | .inf n => return if n then .fin false 0 0 false else .inf false
  | .fin neg m e _ =>
    if isLarge m e then return .fin false 1 (if neg then -1000 else 1000) true
    else
      let x : Int := if neg then -(toFix m e : Int) else (toFix m e : Int)
      let n := x / (sfuOne : Int)
      let f := (x % (sfuOne : Int)).toNat
      if f = 0 then return .fin false 1 n false
      else return (match ofFix false (fixExp (f * fixLn2 / sfuOne)) with
        | .fin a b c d => .fin a b (c + n) d
        | v => v)

/-- log2 a. -/
def sfuLog2 : Val → F Val
  | .nan _ => return .nan false
  | .inf n => if n then do raise flagNV; return .nan false else return .inf false
  | .fin neg m e _ =>
    if m = 0 then do raise flagDZ; return .inf true
    else if neg then do raise flagNV; return .nan false
    else
      let l := m.log2
      let n : Int := (l : Int) + e
      if m = 2 ^ l then return Val.ofInt n
      else
        let z := (m - 2 ^ l) * sfuOne / (m + 2 ^ l)
        let fr := 2 * fixAtanh z * sfuOne / fixLn2
        let t := n * (sfuOne : Int) + (fr : Int)
        return ofFix (decide (t < 0)) t.natAbs

/-- 1/a. -/
def sfuRcp (v : Val) : F Val := divVal (.fin false 1 0 false) v

/-- 1/√a. -/
def sfuRsqrt : Val → F Val
  | .nan _ => return .nan false
  | .inf n => if n then do raise flagNV; return .nan false else return .fin false 0 0 false
  | .fin neg m e _ =>
    if m = 0 then do raise flagDZ; return .inf neg
    else if neg then do raise flagNV; return .nan false
    else
      let m := if e % 2 = 0 then m else 2 * m
      let e := if e % 2 = 0 then e else e - 1
      let r := natSqrt (2 ^ 512 / m)
      return .fin false r (-(e / 2) - 256) (r * r * m != 2 ^ 512)

/-- sin(π·a). -/
def sfuSin : Val → F Val
  | .nan _ => return .nan false
  | .inf _ => do raise flagNV; return .nan false
  | .fin neg m e _ =>
    if m = 0 ∨ 0 ≤ e then return .fin neg 0 0 false
    else
      let x := toFix m e % (2 * sfuOne)
      let flip := decide (sfuOne ≤ x)
      let r := x % sfuOne
      let sg := neg != flip
      if r = 0 then return .fin neg 0 0 false
      else if 2 * r = sfuOne then return .fin sg 1 0 false
      else
        let r := if sfuOne < 2 * r then sfuOne - r else r
        return ofFix sg (fixSin (r * fixPi / sfuOne))

/-- e^x of a fixed-point x, as a fixed-point number. -/
def fixExpBig (x : Nat) : Nat :=
  let n := x / fixLn2
  2 ^ n * fixExp (x - n * fixLn2)

/-- tanh a. -/
def sfuTanh : Val → F Val
  | .nan _ => return .nan false
  | .inf n => return .fin n 1 0 false
  | .fin neg m e _ =>
    if m = 0 then return .fin neg 0 0 false
    else if isLarge m e then return nearOne neg
    else
      let y := fixExpBig (2 * toFix m e)
      return ofFix neg ((y - sfuOne) * sfuOne / (y + sfuOne))

/-- 1/(1 + e^−a). -/
def sfuSigm : Val → F Val
  | .nan _ => return .nan false
  | .inf n => return if n then .fin false 0 0 false else .fin false 1 0 false
  | .fin neg m e _ =>
    if m = 0 then return .fin false 1 (-1) false
    else if isLarge m e then return if neg then nearZero else nearOne false
    else
      let y := fixExpBig (toFix m e)
      return ofFix false ((if neg then sfuOne else y) * sfuOne / (y + sfuOne))

/-- A special function of every active element (R265). -/
def sfu (d a : BitVec 5) (t : BitVec 4) (f : Val → F Val) : M Unit := do
  let s ← get
  vecUn d a (typeWidth t) fun x => do
    let v ← rdVal (Fmt.ofType t) x
    roundTo (Fmt.ofType t) s.rmode (← f v)

/-- VEXP2 (R265). -/
def execVexp2 (d a : BitVec 5) (t : BitVec 4) (s : State) : Out := run (.vexp2 d a t) s (sfu d a t sfuExp2)
/-- VLOG2 (R265). -/
def execVlog2 (d a : BitVec 5) (t : BitVec 4) (s : State) : Out := run (.vlog2 d a t) s (sfu d a t sfuLog2)
/-- VRCP (R265). -/
def execVrcp (d a : BitVec 5) (t : BitVec 4) (s : State) : Out := run (.vrcp d a t) s (sfu d a t sfuRcp)
/-- VRSQRT (R265). -/
def execVrsqrt (d a : BitVec 5) (t : BitVec 4) (s : State) : Out := run (.vrsqrt d a t) s (sfu d a t sfuRsqrt)
/-- VSIN (R265). -/
def execVsin (d a : BitVec 5) (t : BitVec 4) (s : State) : Out := run (.vsin d a t) s (sfu d a t sfuSin)
/-- VTANH (R265). -/
def execVtanh (d a : BitVec 5) (t : BitVec 4) (s : State) : Out := run (.vtanh d a t) s (sfu d a t sfuTanh)
/-- VSIGM (R265). -/
def execVsigm (d a : BitVec 5) (t : BitVec 4) (s : State) : Out := run (.vsigm d a t) s (sfu d a t sfuSigm)

end Sys2Proof.Machine
end

