-- ==== Sys2Proof/Machine/Prefix.lean ====
section
/-! DEFINITION. The prefixes VX and REP (R42 to R48), and the A-class words, which they may precede. -/

namespace Sys2Proof.Machine

/-- Execute an A-class word. Any other word in the A slot is illegal (R27). -/
def runA (i : Instr) (s : State) : Out :=
  match i with
  | .add d a b => execAdd d a b s
  | .sub d a b => execSub d a b s
  | .and d a b => execAnd d a b s
  | .or d a b => execOr d a b s
  | .xor d a b => execXor d a b s
  | .sll d a b => execSll d a b s
  | .srl d a b => execSrl d a b s
  | .sra d a b => execSra d a b s
  | .mul d a b => execMul d a b s
  | .mulh d a b => execMulh d a b s
  | .mulhu d a b => execMulhu d a b s
  | .div d a b => execDiv d a b s
  | .divu d a b => execDivu d a b s
  | .rem d a b => execRem d a b s
  | .remu d a b => execRemu d a b s
  | .min d a b => execMin d a b s
  | .max d a b => execMax d a b s
  | .minu d a b => execMinu d a b s
  | .maxu d a b => execMaxu d a b s
  | .slt d a b => execSlt d a b s
  | .sltu d a b => execSltu d a b s
  | .sel d a b => execSel d a b s
  | .clz d a => execClz d a s
  | .ctz d a => execCtz d a s
  | .popc d a => execPopc d a s
  | .addi d a i => execAddi d a i s
  | .andi d a i => execAndi d a i s
  | .ori d a i => execOri d a i s
  | .xori d a i => execXori d a i s
  | .slli d a n => execSlli d a n s
  | .srli d a n => execSrli d a n s
  | .srai d a n => execSrai d a n s
  | .slti d a i => execSlti d a i s
  | .sltiu d a i => execSltiu d a i s
  | .lui d i => execLui d i s
  | .fadd d a b p => execFadd d a b p s
  | .fsub d a b p => execFsub d a b p s
  | .fmul d a b p => execFmul d a b p s
  | .fdiv d a b p => execFdiv d a b p s
  | .fsqrt d a p => execFsqrt d a p s
  | .fmin d a b p => execFmin d a b p s
  | .fmax d a b p => execFmax d a b p s
  | .fma d a b p => execFma d a b p s
  | .fcmp d a b p => execFcmp d a b p s
  | .fcvt d a k p => execFcvt d a k p s
  | .fclass d a p => execFclass d a p s
  | .fsgn d a b p => execFsgn d a b p s
  | .vadd d a b t => execVadd d a b t s
  | .vsub d a b t => execVsub d a b t s
  | .vmul d a b t => execVmul d a b t s
  | .vmulh d a b t => execVmulh d a b t s
  | .vmin d a b t => execVmin d a b t s
  | .vmax d a b t => execVmax d a b t s
  | .vand d a b t => execVand d a b t s
  | .vor d a b t => execVor d a b t s
  | .vxor d a b t => execVxor d a b t s
  | .vshl d a b t => execVshl d a b t s
  | .vshr d a b t => execVshr d a b t s
  | .vsra d a b t => execVsra d a b t s
  | .vabs d a t => execVabs d a t s
  | .vcmp c k a b t => execVcmp c k a b t s
  | .vsel d a b t => execVsel d a b t s
  | .vadds d a b t => execVadds d a b t s
  | .vfadd d a b t => execVfadd d a b t s
  | .vfsub d a b t => execVfsub d a b t s
  | .vfmul d a b t => execVfmul d a b t s
  | .vfma d a b t => execVfma d a b t s
  | .vfmin d a b t => execVfmin d a b t s
  | .vfmax d a b t => execVfmax d a b t s
  | .vfcmp c k a b t => execVfcmp c k a b t s
  | .vfabs d a t => execVfabs d a t s
  | .vfdot d a b t => execVfdot d a b t s
  | .vcvt d a x e t => execVcvt d a x e t s
  | .vquant d a x e t => execVquant d a x e t s
  | .vdeq d a x e t => execVdeq d a x e t s
  | .vbcast d a b t => execVbcast d a b t s
  | .vperm d a b t => execVperm d a b t s
  | .vslide d a b t => execVslide d a b t s
  | .viota d a t => execViota d a t s
  | .vcompress d a t => execVcompress d a t s
  | .vexpand d a t => execVexpand d a t s
  | .vred d a o t => execVred d a o t s
  | .vscan d a o t => execVscan d a o t s
  | .vtopk k a b t => execVtopk k a b t s
  | .vzip d a b t => execVzip d a b t s
  | .vexp2 d a t => execVexp2 d a t s
  | .vlog2 d a t => execVlog2 d a t s
  | .vrcp d a t => execVrcp d a t s
  | .vrsqrt d a t => execVrsqrt d a t s
  | .vsin d a t => execVsin d a t s
  | .vtanh d a t => execVtanh d a t s
  | .vsigm d a t => execVsigm d a t s
  | .kand d a b => execKand d a b s
  | .kor d a b => execKor d a b s
  | .kxor d a b => execKxor d a b s
  | .knot d a => execKnot d a s
  | .kpopc d a => execKpopc d a s
  | .kfirst d a => execKfirst d a s
  | .kmov d a v => execKmov d a v s
  | .vmvx d a t => execVmvx d a t s
  | .vmvs d a b t => execVmvs d a b t s
  | .vmov d a t => execVmov d a t s
  | .tmodeOn n k t => execTmodeOn n k t s
  | .tmodeOff => execTmodeOff s
  | .tzero t => execTzero t s
  | .top t a b y => execTop t a b y s
  | .tops t sc a b y => execTops t sc a b y s
  | .trowst t d => execTrowst t d s
  | _ => .next (takeTrap s .illegalInstruction 0 false)

/-- The A word of the pair being issued. -/
def State.aWord (s : State) : Except DecodeError Instr := decodeWord s.issue.w1

/-! ### VX (R42 to R44) -/

/-- VX: the A word executes under the mask, the policy, the rounding mode and the fourth operand of the prefix (R43). A field that is illegal before the A word is
reported in the A slot (R44). (DESIGN CHOICE, unsafe, log 95) -/
def execVx (k : BitVec 3) (z : BitVec 1) (m : BitVec 3) (c : BitVec 5) (s : State) : Out :=
  if s.issue.lone || s.isTh then .next (takeTrap s .illegalInstruction 0 false)
  else
    let s := { s with issue := { s.issue with slotA := true, vx := some ⟨k, z == 1#1, m, c⟩ } }
    match s.aWord with
    | .ok i => runA i s
    | .error _ => .next (takeTrap s .illegalInstruction 0 false)

/-! ### REP (R45 to R48) -/

/-- The step that a code names (R45). -/
def stepOf (c : BitVec 2) : Nat := [0, 1, 2, 4].getD c.toNat 0

/-- Whether the d, a and b fields of an A word name registers, so that they may step (R47). -/
def stepFields : Instr → Bool × Bool × Bool
  | .clz .. | .ctz .. | .popc .. | .addi .. | .andi .. | .ori .. | .xori .. | .slli .. | .srli .. | .srai .. | .slti ..
  | .sltiu .. | .fsqrt .. | .fcvt .. | .fclass .. | .vabs .. | .vfabs .. | .vcvt .. | .vquant .. | .vdeq .. | .viota ..
  | .vcompress .. | .vexpand .. | .vred .. | .vscan .. | .vexp2 .. | .vlog2 .. | .vrcp .. | .vrsqrt .. | .vsin ..
  | .vtanh .. | .vsigm .. | .knot .. | .kpopc .. | .kfirst .. | .kmov .. | .vmvx .. | .vmov .. => (true, true, false)
  | .lui .. => (true, false, false)
  | .tmodeOn .. | .tmodeOff | .tzero .. => (false, false, false)
  | .top .. | .tops .. => (false, true, true)
  | .trowst .. => (false, true, false)
  | _ => (true, true, true)

/-- The d field carries a condition above a mask number, and its step applies to the mask number (R47). -/
def stepsMask : Instr → Bool
  | .vcmp .. | .vfcmp .. | .vtopk .. => true
  | _ => false

/-- The A word of repetition i: its register fields replaced (R46); none when a mask number passes k7 (R47). -/
def stepWord (w : BitVec 32) (mask : Bool) (i sd sa sb : Nat) : Option (BitVec 32) :=
  let d := fld w 24 20
  let d' := if mask then d / 8 * 8 + (d % 8 + i * sd) else (d + i * sd) % 32
  if mask && decide (8 ≤ d % 8 + i * sd) then none
  else
    some (setFld (setFld (setFld w 24 20 d') 19 15 ((fld w 19 15 + i * sa) % 32)) 14 10 ((fld w 14 10 + i * sb) % 32))

/-- The instruction of repetition i, none when the repetition breaks a limit of R47. (DEDUCED, unsafe, log 25) -/
def repInstr (s : State) (i sd sa sb : Nat) : Option Instr :=
  match s.aWord with
  | .error _ => none
  | .ok first =>
    let f := stepFields first
    let steps := (sd == 0 || f.1) && (sa == 0 || f.2.1) && (sb == 0 || f.2.2)
    let prefixable := match first with | .tmodeOn .. | .tmodeOff => false | _ => true
    if !steps || !prefixable || !bit s.issue.w1 30 then none
    else
      match stepWord s.issue.w1 (stepsMask first) i sd sa sb with
      | none => none
      | some w =>
        match decodeWord w with
        | .error _ => none
        | .ok j =>
          -- no repetition writes x30, and outside th none reads it (R38, R47)
          if legalHere s j && !(writeSet s.me 0 j).contains 30 && (s.isTh || !(readSet 0 j).contains 30) then some j else none

/-- After a repetition: the pair goes on with the next, or past the pair after the last (R46). -/
def afterRep (pc : Word) (i count : Nat) (s : State) : State :=
  if i + 1 < count then s.setMe { s.me.setTstat 21 16 (i + 1) with pc := pc }
  else s.setMe (s.me.setTstat 21 16 0)

/-- REP: one repetition issues, from the index in TSTAT (R46, R48). A limit that any repetition breaks traps at the pair
before any issues (R47). (DEDUCED, unsafe, log 25; DESIGN CHOICE, unsafe, log 95) -/
def execRep (n : BitVec 6) (d a b : BitVec 2) (s : State) : Out :=
  let count := n.toNat + 1
  let i := s.me.rep
  let step := fun (j : Nat) => repInstr s j (stepOf d) (stepOf a) (stepOf b)
  if s.issue.lone || !((List.range count).all fun j => (step j).isSome) then .next (takeTrap s .illegalInstruction 0 false)
  else if count ≤ i then .next (complete (s.setMe (s.me.setTstat 21 16 0)))
  else
    match step i with
    | none => .next (takeTrap s .illegalInstruction 0 false)
    | some j =>
      match runA j { s with issue := { s.issue with slotA := true } } with
      | .next s' => .next (if s'.issue.status = .done then afterRep s.me.pc i count s' else s')
      | o => o

end Sys2Proof.Machine
end

