-- ==== Sys2Proof/Machine/Sreg.lean ====
section
/-! DEFINITION. SREG: the state registers (R369 to R371). -/

namespace Sys2Proof.Machine

/-- The value of a state register of the issuing thread; none for a number that is not listed (R369).
(DEDUCED, unsafe, log 38) -/
def sregValue (s : State) (n : Nat) : Option Word :=
  let t := s.me
  match n with
  | 0x000 => some (tstatOf s.myCore t)
  | 0x001 => some t.fflags
  | 0x002 => some t.frm
  | 0x003 => some t.seed
  | 0x004 => some t.fetimeout
  | 0x005 => some t.hbcount
  | 0x006 => some t.taskref
  | 0x007 => some t.rfstat
  | 0x008 => some (word s.cycle)
  | 0x010 => some t.fhook
  | 0x011 => some t.fframe
  | 0x018 => some (s.ctx s.myCtx).lawbase
  | 0x019 => some (s.ctx s.myCtx).hndbase
  | 0x01A => some (word s.myCtx)
  | 0x020 => some (word s.cid)
  | 0x021 => some s.myCore.pairstat
  | 0x030 => some t.svec
  | 0x031 => some t.sframe
  | _ => none

/-- Registers that the handler thread may not name (R369). -/
def sregNotTh (n : Nat) : Bool := [0x005, 0x006, 0x010, 0x011, 0x021, 0x030, 0x031].contains n
/-- Registers that only supervisor code may name (class S). (DEDUCED, safe, log 37) -/
def sregSup (n : Nat) : Bool := n == 0x030 || n == 0x031
/-- Registers of class RO. -/
def sregRo (n : Nat) : Bool := [0x005, 0x006, 0x008, 0x018, 0x019, 0x01A, 0x020, 0x021].contains n

/-- The bits of a register that a write takes (R69, R71, R72, R369, R370). -/
def sregMask (n : Nat) : Word :=
  match n with
  | 0x001 => 0x3F
  | 0x002 => 0x7
  | 0x003 | 0x004 => BitVec.allOnes 64
  | 0x010 | 0x030 => 0x000FFFFFFFFFFFFC
  | 0x011 => 0x3FFC0
  | 0x031 => 0x000FFFFFFFFFFE00
  | _ => 0

/-- Replace a register of the issuing thread. -/
def setSreg (t : Thread) (n : Nat) (v : Word) : Thread :=
  match n with
  | 0x001 => { t with fflags := v }
  | 0x002 => { t with frm := v }
  | 0x003 => { t with seed := v }
  | 0x004 => { t with fetimeout := v }
  | 0x007 => { t with rfstat := v }
  | 0x010 => { t with fhook := v }
  | 0x011 => { t with fframe := v }
  | 0x030 => { t with svec := v }
  | 0x031 => { t with sframe := v }
  | _ => t

/-- What a register takes from a written value, field by field (R3, R371). `clr` is SRCLR. -/
def sregNext (n : Nat) (old new x : Word) (clr : Bool) : Word :=
  if n = 0x007 then (if clr then old else old &&& ~~~ (x &&& 0xC000000000000000))
  else if n = 0x002 ∧ 6 ≤ fld new 2 0 then old
  else (old &&& ~~~ sregMask n) ||| (new &&& sregMask n)

/-- Check the number, the class and the thread (R369). (DEDUCED, safe, log 37) -/
def sregOpen (n : Nat) (write : Bool) : M Word := do
  let s ← get
  match sregValue s n with
  | none => illegal
  | some v =>
    need (!(s.isTh && sregNotTh n) && (!sregSup n || s.sup) && !(write && sregRo n)) .illegalInstruction 0
    return v

/-- A writing form (R371). (DEDUCED, safe, log 37) -/
def sregWrite (d a : BitVec 5) (n : BitVec 12) (clr : Bool) (f : Word → Word → Word) : M Unit := do
  let old ← sregOpen n.toNat true
  let x ← readX a
  modMe fun t => setSreg t n.toNat (sregNext n.toNat old (f old x) x clr)
  writeX d old

/-- SRRD (R371). -/
def execSrrd (d : BitVec 5) (n : BitVec 12) (s : State) : Out :=
  run (.srrd d n) s do
    let v ← sregOpen n.toNat false
    writeX d v
/-- SRWR (R371). -/
def execSrwr (d a : BitVec 5) (n : BitVec 12) (s : State) : Out :=
  run (.srwr d a n) s (sregWrite d a n false fun _ x => x)
/-- SRSET (R371). -/
def execSrset (d a : BitVec 5) (n : BitVec 12) (s : State) : Out :=
  run (.srset d a n) s (sregWrite d a n false fun old x => old ||| x)
/-- SRCLR (R371). -/
def execSrclr (d a : BitVec 5) (n : BitVec 12) (s : State) : Out :=
  run (.srclr d a n) s (sregWrite d a n true fun old x => old &&& ~~~ x)

end Sys2Proof.Machine
end

