-- ==== Sys2Proof/Machine/Vmem.lean ====
section
/-! DEFINITION. VMEM: vector memory access (R119 to R125). -/

namespace Sys2Proof.Machine

/-- A read with the long-lease hint leaves a lease of 1,024 units (R110). -/
def longLease (s : State) (slice sector : Nat) (g : BitVec 1) : State := if g = 1#1 then grantLease s slice sector 1024 else s

/-- A read with the replicate hint leaves a replica of the sector in the core's near slice, under the lease of the read
(R110, R111). -/
def leaveReplica (s : State) (core ctx slice sector : Nat) (r : BitVec 1) : State :=
  match (if r = 1#1 then readSector s slice sector else none) with
  | none => s
  | some d =>
    let new : Replica := ⟨nearSlice core, ctx, sector, d, s.leases.get (sectorKey slice sector) 0⟩
    { s with replicas := new :: s.replicas.filter fun r => !r.isAt core ctx sector }

/-- The hints of a vector load, for the sectors of its parts: replicate, then long lease. The no-allocate hint changes
nothing that an access returns. -/
def hints (r g : BitVec 1) (xs : List Xlat) : M Unit :=
  modify fun s => xs.foldl (fun s x =>
    let n := homeSlice s s.mySeed x.pa
    leaveReplica (longLease s n (x.pa / 32) g) s.cid s.myCtx n (x.pa / 32) r) s

/-- A vector register as pending registers name it (R114). -/
def vReg (d : BitVec 5) : Nat := 32 + d.toNat

/-- VLD (R119, R120). -/
def execVld (d a : BitVec 5) (r g n : BitVec 1) (s : State) : Out :=
  run (.vld d a r g n) s do
    let x ← readX a
    need (x.toNat % 32 == 0) .misalignedAccess x
    let ps := partsOf x.toNat 512
    let xs ← checkParts .read true ps
    let vs ← readParts xs ps
    requestLoad ps.length [vReg d]
    hints r g xs
    writeV d (BitVec.ofNat 4096 (joinValue ps vs))

/-- VST (R119, R120). -/
def execVst (d a : BitVec 5) (n : BitVec 1) (s : State) : Out :=
  run (.vst d a n) s do
    let v ← readV d
    let x ← readX a
    need (x.toNat % 32 == 0) .misalignedAccess x
    gWriteRange x.toNat 512 v.toNat

/-- The element addresses of a stride word (R121): width, and the addresses; none for an operand-range fault. -/
def strideParts (x y : Word) : Option (Nat × List Nat) :=
  let w := 2 ^ fld y 63 62
  let cnt := fld y 61 52
  let n := if cnt = 0 then 512 / w else cnt
  if 512 / w < n ∨ fld y 51 48 ≠ 0 then none
  else
    let st := sext (fld y 47 0) 48
    some (w, (List.range n).map fun i => (x + word i * st).toNat)

/-- The misalignment fault of element forms: the first address of the list that is misaligned. -/
def checkAligned (w : Nat) (as : List Nat) : M Unit :=
  match as.find? fun va => va % w != 0 with
  | some va => trap .misalignedAccess (word va)
  | none => pure ()

/-- VLDS (R121). A misaligned element is reported before a part whose translation faults.
(DESIGN CHOICE, unsafe, log 95) -/
def execVlds (d a b : BitVec 5) (r g n : BitVec 1) (s : State) : Out :=
  run (.vlds d a b r g n) s do
    let x ← readX a
    let y ← readX b
    match strideParts x y with
    | none => trap .operandRange 0
    | some (w, as) =>
      checkAligned w as
      let ps := as.map fun va => (va, w)
      let xs ← checkParts .read true ps
      let vs ← readParts xs ps
      requestLoad ps.length [vReg d]
      hints r g xs
      let old := vElems (8 * w) (s.me.getV d.toNat)
      writeV d (vPack (8 * w) (vs ++ old.drop vs.length))

/-- VSTS (R121). (DESIGN CHOICE, unsafe, log 95) -/
def execVsts (d a b : BitVec 5) (n : BitVec 1) (s : State) : Out :=
  run (.vsts d a b n) s do
    let v ← readV d
    let x ← readX a
    let y ← readX b
    match strideParts x y with
    | none => trap .operandRange 0
    | some (w, as) =>
      checkAligned w as
      let ps := as.map fun va => (va, w)
      gateStores ps.length
      let xs ← checkParts .write true ps
      writeParts xs (ps.zip (vElems (8 * w) v))
      request ps.length []

/-- The present elements of an index vector (R122): element number and address. -/
def indexParts (x : Word) (v : VReg) : List (Nat × Nat) :=
  ((List.range 128).zip (vElems 32 v)).filterMap fun p =>
    if p.2 = 2 ^ 32 - 1 then none else some (p.1, (x + word p.2).toNat)

/-- Put the values of the present elements into place. -/
def gatherInto (vs : List (Nat × Nat)) (old : List Nat) : List Nat :=
  ((List.range old.length).zip old).map fun p =>
    match vs.find? fun q => q.1 == p.1 with
    | some q => q.2
    | none => p.2

/-- VGATH (R122). Of several faults, of alignment or of translation, the lowest-indexed element's is reported (R102). -/
def execVgath (d a b : BitVec 5) (g n : BitVec 1) (s : State) : Out :=
  run (.vgath d a b g n) s do
    let x ← readX a
    let y ← readV b
    let es := indexParts x y
    let ps := es.map fun e => (e.2, 4)
    let xs ← checkPartsAt 4 .read false ps
    let vs ← readParts xs ps
    requestLoad ps.length [vReg d]
    hints 0 g xs
    writeV d (vPack 32 (gatherInto ((es.map (·.1)).zip vs) (vElems 32 (s.me.getV d.toNat))))

/-- VSCAT (R122). -/
def execVscat (d a b : BitVec 5) (n : BitVec 1) (s : State) : Out :=
  run (.vscat d a b n) s do
    let v ← readV d
    let x ← readX a
    let y ← readV b
    let es := indexParts x y
    let ps := es.map fun e => (e.2, 4)
    gateStores ps.length
    let xs ← checkPartsAt 4 .write false ps
    writeParts xs (ps.zip (es.map fun e => vElem 32 v e.1))
    request ps.length []

/-- The packed word of VLDP and VSTP (R123): blocks, whether E2M3, .sat; none for an operand-range fault. -/
def packedWord (y : Word) (load : Bool) : Option (Nat × Bool × Bool) :=
  let n := fld y 4 0
  if n = 0 ∨ 16 < n ∨ fld y 63 10 ≠ 0 ∨ fld y 7 5 ≠ 0 ∨ (load && bit y 9) = true then none
  else some (n, bit y 8, bit y 9)

/-- VLDP: FP6 widened exactly (R123, R58). The packed word is checked before the alignment.
(DESIGN CHOICE, unsafe, log 95) -/
def execVldp (d a b : BitVec 5) (r g n : BitVec 1) (s : State) : Out :=
  run (.vldp d a b r g n) s do
    let x ← readX a
    let y ← readX b
    match packedWord y true with
    | none => trap .operandRange 0
    | some (k, e2m3, _) =>
      need (x.toNat % 8 == 0) .misalignedAccess x
      let ps := partsOf x.toNat (24 * k)
      let xs ← checkParts .read true ps
      let vs ← readParts xs ps
      requestLoad ps.length [vReg d]
      hints r g xs
      let src := if e2m3 then Fmt.e2m3 else Fmt.e3m2
      let dst := if e2m3 then Fmt.fp8e4 else Fmt.fp8e5
      let w ← liftF (widen src dst (elems 6 (32 * k) (joinValue ps vs)))
      writeV d (vPack 8 (w ++ (vElems 8 (s.me.getV d.toNat)).drop (32 * k)))
where
  widen (src dst : Fmt) : List Nat → F (List Nat)
    | [] => return []
    | e :: es => do
      let r ← cvtFF dst src false 0 false e
      let rs ← widen src dst es
      return r :: rs

/-- VSTP: narrowed to FP6 by FRM.mode, in ascending order; SEED and the flags advance once, whatever turns the parts take
(R120, R123). (DESIGN CHOICE, unsafe, log 95) -/
def execVstp (d a b : BitVec 5) (n : BitVec 1) (s : State) : Out :=
  run (.vstp d a b n) s do
    let v ← readV d
    let x ← readX a
    let y ← readX b
    match packedWord y false with
    | none => trap .operandRange 0
    | some (k, e2m3, sat) =>
      need (x.toNat % 8 == 0) .misalignedAccess x
      let dst := if e2m3 then Fmt.e2m3 else Fmt.e3m2
      let src := if e2m3 then Fmt.fp8e4 else Fmt.fp8e5
      let w ← liftF (narrow src dst (fld s.me.frm 2 0) sat ((vElems 8 v).take (32 * k)))
      let ps := partsOf x.toNat (24 * k)
      gateStores ps.length
      let xs ← checkParts .write true ps
      writePartsBack (fun t => { t with seed := s.me.seed, fflags := s.me.fflags }) xs (splitValue ps (pack 6 w))
      request ps.length []
where
  narrow (src dst : Fmt) (mode : Nat) (sat : Bool) : List Nat → F (List Nat)
    | [] => return []
    | e :: es => do
      let r ← cvtFF dst src true mode sat e
      let rs ← narrow src dst mode sat es
      return r :: rs

/-- A sector that a prefetch brings to its home slice, under its hints (R107, R124). -/
def prefetchSector (s : State) (x : Xlat) (r g : BitVec 1) : State :=
  let s := applyXlat s s.cid s.myCtx x
  let n := homeSlice s s.mySeed x.pa
  leaveReplica (longLease s n (x.pa / 32) g) s.cid s.myCtx n (x.pa / 32) r

/-- PREF: no fault, no register, no place in the order (R124). It is dropped when no request entry is free; of its parts,
those that would fault, those of a sector that another agent holds, and those for which no entry is left, are dropped.
(DESIGN CHOICE, unsafe, log 95) -/
def execPref (a : BitVec 5) (r g : BitVec 1) (s : State) : Out :=
  run (.pref a r g) s do
    let x ← readX a
    let s ← get
    let ps := partsOf (x.toNat / 32 * 32) 512
    let ps := ps.filter fun p => !walkHeld s s.agent s.cid s.myCtx .read p.1
    let xs := ps.filterMap fun p => (xlate s s.cid s.myCtx p.1 .read s.sup).toOption
    let xs := (xs.filter fun p => !partHeld s s.agent s.mySeed p).take (freeEntries s)
    if !xs.isEmpty then
      request xs.length []
      modify fun s => xs.foldl (fun s p => prefetchSector s p r g) s

/-- CZERO: each sector is one write part (R125). The length is checked before the alignment.
(DESIGN CHOICE, unsafe, log 95) -/
def execCzero (a b : BitVec 5) (s : State) : Out :=
  run (.czero a b) s do
    let x ← readX a
    let y ← readX b
    need (y.toNat % 32 == 0 && decide (y.toNat ≤ 2 ^ 20)) .operandRange 0
    if y = 0 then pure ()
    else
      need (x.toNat % 32 == 0) .misalignedAccess x
      let ps := (List.range (y.toNat / 32)).map fun i => ((x + word (32 * i)).toNat, 32)
      let xs ← checkParts .write true ps
      writeParts xs (ps.map fun p => (p, 0))
      request ps.length []

end Sys2Proof.Machine
end

