-- ==== Sys2Proof/Machine/Dispatch.lean ====
section
/-! DEFINITION. One arm per constructor: each calls the meaning of its instruction or of the step of another agent. -/

namespace Sys2Proof.Machine

def exec (i : Instr) (s : State) : Host.Outcome State Fault Refusal :=
  match i with
  | .syscall => Sys2Proof.Machine.execSyscall s
  | .tret => Sys2Proof.Machine.execTret s
  | .wfi => Sys2Proof.Machine.execWfi s
  | .pair d => Sys2Proof.Machine.execPair d s
  | .unpair d => Sys2Proof.Machine.execUnpair d s
  | .tlbinv a b => Sys2Proof.Machine.execTlbinv a b s
  | .seedset a => Sys2Proof.Machine.execSeedset a s
  | .cflush a b => Sys2Proof.Machine.execCflush a b s
  | .beq a b o => Sys2Proof.Machine.execBeq a b o s
  | .bne a b o => Sys2Proof.Machine.execBne a b o s
  | .blt a b o => Sys2Proof.Machine.execBlt a b o s
  | .bge a b o => Sys2Proof.Machine.execBge a b o s
  | .bltu a b o => Sys2Proof.Machine.execBltu a b o s
  | .bgeu a b o => Sys2Proof.Machine.execBgeu a b o s
  | .jal d m => Sys2Proof.Machine.execJal d m s
  | .jalr d a m => Sys2Proof.Machine.execJalr d a m s
  | .fork d a b => Sys2Proof.Machine.execFork d a b s
  | .join a => Sys2Proof.Machine.execJoin a s
  | .tdone => Sys2Proof.Machine.execTdone s
  | .yield => Sys2Proof.Machine.execYield s
  | .hbeat => Sys2Proof.Machine.execHbeat s
  | .wfe d b => Sys2Proof.Machine.execWfe d b s
  | .sev a => Sys2Proof.Machine.execSev a s
  | .binit a b => Sys2Proof.Machine.execBinit a b s
  | .barrive d a => Sys2Proof.Machine.execBarrive d a s
  | .bwait d a b => Sys2Proof.Machine.execBwait d a b s
  | .bsync a => Sys2Proof.Machine.execBsync a s
  | .bcomb d a b => Sys2Proof.Machine.execBcomb d a b s
  | .bswap a => Sys2Proof.Machine.execBswap a s
  | .bquery d a => Sys2Proof.Machine.execBquery d a s
  | .ldB d a o => Sys2Proof.Machine.execLdB d a o s
  | .ldBu d a o => Sys2Proof.Machine.execLdBu d a o s
  | .ldH d a o => Sys2Proof.Machine.execLdH d a o s
  | .ldHu d a o => Sys2Proof.Machine.execLdHu d a o s
  | .ldW d a o => Sys2Proof.Machine.execLdW d a o s
  | .ldWu d a o => Sys2Proof.Machine.execLdWu d a o s
  | .ldD d a o => Sys2Proof.Machine.execLdD d a o s
  | .ldQ d a o => Sys2Proof.Machine.execLdQ d a o s
  | .stB d a o => Sys2Proof.Machine.execStB d a o s
  | .stH d a o => Sys2Proof.Machine.execStH d a o s
  | .stW d a o => Sys2Proof.Machine.execStW d a o s
  | .stD d a o => Sys2Proof.Machine.execStD d a o s
  | .stQ d a o => Sys2Proof.Machine.execStQ d a o s
  | .amoadd d a b w => Sys2Proof.Machine.execAmoadd d a b w s
  | .amoand d a b w => Sys2Proof.Machine.execAmoand d a b w s
  | .amoor d a b w => Sys2Proof.Machine.execAmoor d a b w s
  | .amoxor d a b w => Sys2Proof.Machine.execAmoxor d a b w s
  | .amomin d a b w => Sys2Proof.Machine.execAmomin d a b w s
  | .amomax d a b w => Sys2Proof.Machine.execAmomax d a b w s
  | .amominu d a b w => Sys2Proof.Machine.execAmominu d a b w s
  | .amomaxu d a b w => Sys2Proof.Machine.execAmomaxu d a b w s
  | .amoswap d a b w => Sys2Proof.Machine.execAmoswap d a b w s
  | .amofadd d a b w => Sys2Proof.Machine.execAmofadd d a b w s
  | .cas d a b w => Sys2Proof.Machine.execCas d a b w s
  | .cas2 d a b => Sys2Proof.Machine.execCas2 d a b s
  | .amoz d a b w => Sys2Proof.Machine.execAmoz d a b w s
  | .vld d a r g n => Sys2Proof.Machine.execVld d a r g n s
  | .vst d a n => Sys2Proof.Machine.execVst d a n s
  | .vlds d a b r g n => Sys2Proof.Machine.execVlds d a b r g n s
  | .vsts d a b n => Sys2Proof.Machine.execVsts d a b n s
  | .vgath d a b g n => Sys2Proof.Machine.execVgath d a b g n s
  | .vscat d a b n => Sys2Proof.Machine.execVscat d a b n s
  | .vldp d a b r g n => Sys2Proof.Machine.execVldp d a b r g n s
  | .vstp d a b n => Sys2Proof.Machine.execVstp d a b n s
  | .pref a r g => Sys2Proof.Machine.execPref a r g s
  | .czero a b => Sys2Proof.Machine.execCzero a b s
  | .lld d a w o => Sys2Proof.Machine.execLld d a w o s
  | .lldWf d a w o => Sys2Proof.Machine.execLldWf d a w o s
  | .lldWfc d a w o => Sys2Proof.Machine.execLldWfc d a w o s
  | .lst d a w o => Sys2Proof.Machine.execLst d a w o s
  | .lstSf d a w o => Sys2Proof.Machine.execLstSf d a w o s
  | .lstWesf d a w o => Sys2Proof.Machine.execLstWesf d a w o s
  | .vlld d a q => Sys2Proof.Machine.execVlld d a q s
  | .vlst d a q => Sys2Proof.Machine.execVlst d a q s
  | .lgath d a b => Sys2Proof.Machine.execLgath d a b s
  | .xst d a => Sys2Proof.Machine.execXst d a s
  | .vxst d a => Sys2Proof.Machine.execVxst d a s
  | .lamoadd d a b => Sys2Proof.Machine.execLamoadd d a b s
  | .lcas d a b => Sys2Proof.Machine.execLcas d a b s
  | .copy d a => Sys2Proof.Machine.execCopy d a s
  | .copy2d d a => Sys2Proof.Machine.execCopy2d d a s
  | .cstat d a => Sys2Proof.Machine.execCstat d a s
  | .fewait a b => Sys2Proof.Machine.execFewait a b s
  | .feset a b => Sys2Proof.Machine.execFeset a b s
  | .feclr a b => Sys2Proof.Machine.execFeclr a b s
  | .subs d a => Sys2Proof.Machine.execSubs d a s
  | .unsubs d a => Sys2Proof.Machine.execUnsubs d a s
  | .sopen a b => Sys2Proof.Machine.execSopen a b s
  | .spop d a => Sys2Proof.Machine.execSpop d a s
  | .vspop d a => Sys2Proof.Machine.execVspop d a s
  | .sadv a b => Sys2Proof.Machine.execSadv a b s
  | .stend d a => Sys2Proof.Machine.execStend d a s
  | .sfib d a => Sys2Proof.Machine.execSfib d a s
  | .sclose a => Sys2Proof.Machine.execSclose a s
  | .rtick d a => Sys2Proof.Machine.execRtick d a s
  | .rput d a b => Sys2Proof.Machine.execRput d a b s
  | .rtake d a => Sys2Proof.Machine.execRtake d a s
  | .rrel d a => Sys2Proof.Machine.execRrel d a s
  | .kroute d a b => Sys2Proof.Machine.execKroute d a b s
  | .lwrd d a => Sys2Proof.Machine.execLwrd d a s
  | .lwrdx d a => Sys2Proof.Machine.execLwrdx d a s
  | .lwpeek d a => Sys2Proof.Machine.execLwpeek d a s
  | .lwadd d a b => Sys2Proof.Machine.execLwadd d a b s
  | .lwset d a b => Sys2Proof.Machine.execLwset d a b s
  | .lwinit d a b => Sys2Proof.Machine.execLwinit d a b s
  | .lwdep a b => Sys2Proof.Machine.execLwdep a b s
  | .lwnow d a => Sys2Proof.Machine.execLwnow d a s
  | .lwstep d a b => Sys2Proof.Machine.execLwstep d a b s
  | .lwsweep d a b => Sys2Proof.Machine.execLwsweep d a b s
  | .msend d a => Sys2Proof.Machine.execMsend d a s
  | .hend => Sys2Proof.Machine.execHend s
  | .anxput a b => Sys2Proof.Machine.execAnxput a b s
  | .anxend => Sys2Proof.Machine.execAnxend s
  | .fence w c => Sys2Proof.Machine.execFence w c s
  | .isync => Sys2Proof.Machine.execIsync s
  | .bkany a o => Sys2Proof.Machine.execBkany a o s
  | .bkall a o => Sys2Proof.Machine.execBkall a o s
  | .srrd d n => Sys2Proof.Machine.execSrrd d n s
  | .srwr d a n => Sys2Proof.Machine.execSrwr d a n s
  | .srset d a n => Sys2Proof.Machine.execSrset d a n s
  | .srclr d a n => Sys2Proof.Machine.execSrclr d a n s
  | .vx k z m c => Sys2Proof.Machine.execVx k z m c s
  | .rep n d a b => Sys2Proof.Machine.execRep n d a b s
  | .add d a b => Sys2Proof.Machine.execAdd d a b s
  | .sub d a b => Sys2Proof.Machine.execSub d a b s
  | .and d a b => Sys2Proof.Machine.execAnd d a b s
  | .or d a b => Sys2Proof.Machine.execOr d a b s
  | .xor d a b => Sys2Proof.Machine.execXor d a b s
  | .sll d a b => Sys2Proof.Machine.execSll d a b s
  | .srl d a b => Sys2Proof.Machine.execSrl d a b s
  | .sra d a b => Sys2Proof.Machine.execSra d a b s
  | .mul d a b => Sys2Proof.Machine.execMul d a b s
  | .mulh d a b => Sys2Proof.Machine.execMulh d a b s
  | .mulhu d a b => Sys2Proof.Machine.execMulhu d a b s
  | .div d a b => Sys2Proof.Machine.execDiv d a b s
  | .divu d a b => Sys2Proof.Machine.execDivu d a b s
  | .rem d a b => Sys2Proof.Machine.execRem d a b s
  | .remu d a b => Sys2Proof.Machine.execRemu d a b s
  | .min d a b => Sys2Proof.Machine.execMin d a b s
  | .max d a b => Sys2Proof.Machine.execMax d a b s
  | .minu d a b => Sys2Proof.Machine.execMinu d a b s
  | .maxu d a b => Sys2Proof.Machine.execMaxu d a b s
  | .slt d a b => Sys2Proof.Machine.execSlt d a b s
  | .sltu d a b => Sys2Proof.Machine.execSltu d a b s
  | .sel d a b => Sys2Proof.Machine.execSel d a b s
  | .clz d a => Sys2Proof.Machine.execClz d a s
  | .ctz d a => Sys2Proof.Machine.execCtz d a s
  | .popc d a => Sys2Proof.Machine.execPopc d a s
  | .addi d a m => Sys2Proof.Machine.execAddi d a m s
  | .andi d a m => Sys2Proof.Machine.execAndi d a m s
  | .ori d a m => Sys2Proof.Machine.execOri d a m s
  | .xori d a m => Sys2Proof.Machine.execXori d a m s
  | .slli d a n => Sys2Proof.Machine.execSlli d a n s
  | .srli d a n => Sys2Proof.Machine.execSrli d a n s
  | .srai d a n => Sys2Proof.Machine.execSrai d a n s
  | .slti d a m => Sys2Proof.Machine.execSlti d a m s
  | .sltiu d a m => Sys2Proof.Machine.execSltiu d a m s
  | .lui d m => Sys2Proof.Machine.execLui d m s
  | .fadd d a b p => Sys2Proof.Machine.execFadd d a b p s
  | .fsub d a b p => Sys2Proof.Machine.execFsub d a b p s
  | .fmul d a b p => Sys2Proof.Machine.execFmul d a b p s
  | .fdiv d a b p => Sys2Proof.Machine.execFdiv d a b p s
  | .fsqrt d a p => Sys2Proof.Machine.execFsqrt d a p s
  | .fmin d a b p => Sys2Proof.Machine.execFmin d a b p s
  | .fmax d a b p => Sys2Proof.Machine.execFmax d a b p s
  | .fma d a b p => Sys2Proof.Machine.execFma d a b p s
  | .fcmp d a b p => Sys2Proof.Machine.execFcmp d a b p s
  | .fcvt d a k p => Sys2Proof.Machine.execFcvt d a k p s
  | .fclass d a p => Sys2Proof.Machine.execFclass d a p s
  | .fsgn d a b p => Sys2Proof.Machine.execFsgn d a b p s
  | .vadd d a b t => Sys2Proof.Machine.execVadd d a b t s
  | .vsub d a b t => Sys2Proof.Machine.execVsub d a b t s
  | .vmul d a b t => Sys2Proof.Machine.execVmul d a b t s
  | .vmulh d a b t => Sys2Proof.Machine.execVmulh d a b t s
  | .vmin d a b t => Sys2Proof.Machine.execVmin d a b t s
  | .vmax d a b t => Sys2Proof.Machine.execVmax d a b t s
  | .vand d a b t => Sys2Proof.Machine.execVand d a b t s
  | .vor d a b t => Sys2Proof.Machine.execVor d a b t s
  | .vxor d a b t => Sys2Proof.Machine.execVxor d a b t s
  | .vshl d a b t => Sys2Proof.Machine.execVshl d a b t s
  | .vshr d a b t => Sys2Proof.Machine.execVshr d a b t s
  | .vsra d a b t => Sys2Proof.Machine.execVsra d a b t s
  | .vabs d a t => Sys2Proof.Machine.execVabs d a t s
  | .vcmp c k a b t => Sys2Proof.Machine.execVcmp c k a b t s
  | .vsel d a b t => Sys2Proof.Machine.execVsel d a b t s
  | .vadds d a b t => Sys2Proof.Machine.execVadds d a b t s
  | .vfadd d a b t => Sys2Proof.Machine.execVfadd d a b t s
  | .vfsub d a b t => Sys2Proof.Machine.execVfsub d a b t s
  | .vfmul d a b t => Sys2Proof.Machine.execVfmul d a b t s
  | .vfma d a b t => Sys2Proof.Machine.execVfma d a b t s
  | .vfmin d a b t => Sys2Proof.Machine.execVfmin d a b t s
  | .vfmax d a b t => Sys2Proof.Machine.execVfmax d a b t s
  | .vfcmp c k a b t => Sys2Proof.Machine.execVfcmp c k a b t s
  | .vfabs d a t => Sys2Proof.Machine.execVfabs d a t s
  | .vfdot d a b t => Sys2Proof.Machine.execVfdot d a b t s
  | .vcvt d a x e t => Sys2Proof.Machine.execVcvt d a x e t s
  | .vquant d a x e t => Sys2Proof.Machine.execVquant d a x e t s
  | .vdeq d a x e t => Sys2Proof.Machine.execVdeq d a x e t s
  | .vbcast d a b t => Sys2Proof.Machine.execVbcast d a b t s
  | .vperm d a b t => Sys2Proof.Machine.execVperm d a b t s
  | .vslide d a b t => Sys2Proof.Machine.execVslide d a b t s
  | .viota d a t => Sys2Proof.Machine.execViota d a t s
  | .vcompress d a t => Sys2Proof.Machine.execVcompress d a t s
  | .vexpand d a t => Sys2Proof.Machine.execVexpand d a t s
  | .vred d a o t => Sys2Proof.Machine.execVred d a o t s
  | .vscan d a o t => Sys2Proof.Machine.execVscan d a o t s
  | .vtopk k a b t => Sys2Proof.Machine.execVtopk k a b t s
  | .vzip d a b t => Sys2Proof.Machine.execVzip d a b t s
  | .vexp2 d a t => Sys2Proof.Machine.execVexp2 d a t s
  | .vlog2 d a t => Sys2Proof.Machine.execVlog2 d a t s
  | .vrcp d a t => Sys2Proof.Machine.execVrcp d a t s
  | .vrsqrt d a t => Sys2Proof.Machine.execVrsqrt d a t s
  | .vsin d a t => Sys2Proof.Machine.execVsin d a t s
  | .vtanh d a t => Sys2Proof.Machine.execVtanh d a t s
  | .vsigm d a t => Sys2Proof.Machine.execVsigm d a t s
  | .kand d a b => Sys2Proof.Machine.execKand d a b s
  | .kor d a b => Sys2Proof.Machine.execKor d a b s
  | .kxor d a b => Sys2Proof.Machine.execKxor d a b s
  | .knot d a => Sys2Proof.Machine.execKnot d a s
  | .kpopc d a => Sys2Proof.Machine.execKpopc d a s
  | .kfirst d a => Sys2Proof.Machine.execKfirst d a s
  | .kmov d a v => Sys2Proof.Machine.execKmov d a v s
  | .vmvx d a t => Sys2Proof.Machine.execVmvx d a t s
  | .vmvs d a b t => Sys2Proof.Machine.execVmvs d a b t s
  | .vmov d a t => Sys2Proof.Machine.execVmov d a t s
  | .tmodeOn n k t => Sys2Proof.Machine.execTmodeOn n k t s
  | .tmodeOff => Sys2Proof.Machine.execTmodeOff s
  | .tzero t => Sys2Proof.Machine.execTzero t s
  | .top t a b y => Sys2Proof.Machine.execTop t a b y s
  | .tops t w a b y => Sys2Proof.Machine.execTops t w a b y s
  | .trowst t d => Sys2Proof.Machine.execTrowst t d s
  | .loadReply => Sys2Proof.Machine.execLoadReply s
  | .storeRefused => Sys2Proof.Machine.execStoreRefused s
  | .pageWalk => Sys2Proof.Machine.execPageWalk s
  | .pageFaultService => Sys2Proof.Machine.execPageFaultService s
  | .sectorFill => Sys2Proof.Machine.execSectorFill s
  | .channelControllerLoss => Sys2Proof.Machine.execChannelControllerLoss s
  | .lineEviction => Sys2Proof.Machine.execLineEviction s
  | .copyTransfer => Sys2Proof.Machine.execCopyTransfer s
  | .kioskPushTile => Sys2Proof.Machine.execKioskPushTile s
  | .kioskPullTile => Sys2Proof.Machine.execKioskPullTile s
  | .journalWrite => Sys2Proof.Machine.execJournalWrite s
  | .horizonSweep => Sys2Proof.Machine.execHorizonSweep s
  | .streamReadAhead => Sys2Proof.Machine.execStreamReadAhead s
  | .lawEventRecord => Sys2Proof.Machine.execLawEventRecord s
  | .fanOutDeposit => Sys2Proof.Machine.execFanOutDeposit s
  | .messageArrival => Sys2Proof.Machine.execMessageArrival s
  | .hostMailboxNotice => Sys2Proof.Machine.execHostMailboxNotice s
  | .messageAcknowledgement => Sys2Proof.Machine.execMessageAcknowledgement s
  | .messageRelease => Sys2Proof.Machine.execMessageRelease s
  | .handlerActivation => Sys2Proof.Machine.execHandlerActivation s
  | .budgetFault => Sys2Proof.Machine.execBudgetFault s
  | .remoteLoad => Sys2Proof.Machine.execRemoteLoad s
  | .remoteStore => Sys2Proof.Machine.execRemoteStore s
  | .remoteAtomic => Sys2Proof.Machine.execRemoteAtomic s
  | .remoteLaw => Sys2Proof.Machine.execRemoteLaw s
  | .remoteFault => Sys2Proof.Machine.execRemoteFault s
  | .drtRetransmit => Sys2Proof.Machine.execDrtRetransmit s
  | .linkPortFailure => Sys2Proof.Machine.execLinkPortFailure s
  | .workSearch => Sys2Proof.Machine.execWorkSearch s
  | .backOff => Sys2Proof.Machine.execBackOff s
  | .steal => Sys2Proof.Machine.execSteal s
  | .stealAnswer => Sys2Proof.Machine.execStealAnswer s
  | .eventLatchSet => Sys2Proof.Machine.execEventLatchSet s
  | .wfeTimeout => Sys2Proof.Machine.execWfeTimeout s
  | .feTimeout => Sys2Proof.Machine.execFeTimeout s
  | .groupBarrierArrival => Sys2Proof.Machine.execGroupBarrierArrival s
  | .barrierRelease => Sys2Proof.Machine.execBarrierRelease s
  | .barrierTimeout => Sys2Proof.Machine.execBarrierTimeout s
  | .heartbeatMiss => Sys2Proof.Machine.execHeartbeatMiss s
  | .strandsDone => Sys2Proof.Machine.execStrandsDone s
  | .launchStop => Sys2Proof.Machine.execLaunchStop s
  | .doneWord => Sys2Proof.Machine.execDoneWord s
  | .queueEnable => Sys2Proof.Machine.execQueueEnable s
  | .commandAccept => Sys2Proof.Machine.execCommandAccept s
  | .launch => Sys2Proof.Machine.execLaunch s
  | .signal => Sys2Proof.Machine.execSignal s
  | .waitForSignal => Sys2Proof.Machine.execWaitForSignal s
  | .signalSatisfied => Sys2Proof.Machine.execSignalSatisfied s
  | .annexPolicy => Sys2Proof.Machine.execAnnexPolicy s
  | .dispatchDecision => Sys2Proof.Machine.execDispatchDecision s
  | .bind => Sys2Proof.Machine.execBind s
  | .preemption => Sys2Proof.Machine.execPreemption s
  | .hostBindRecord => Sys2Proof.Machine.execHostBindRecord s
  | .contextCreate => Sys2Proof.Machine.execContextCreate s
  | .contextDestroy => Sys2Proof.Machine.execContextDestroy s
  | .pageMap => Sys2Proof.Machine.execPageMap s
  | .pageDecline => Sys2Proof.Machine.execPageDecline s
  | .barrierExtend => Sys2Proof.Machine.execBarrierExtend s
  | .barrierExpire => Sys2Proof.Machine.execBarrierExpire s
  | .contain => Sys2Proof.Machine.execContain s
  | .warmReset => Sys2Proof.Machine.execWarmReset s
  | .attest => Sys2Proof.Machine.execAttest s
  | .firmwareStage => Sys2Proof.Machine.execFirmwareStage s
  | .firmwareActivate => Sys2Proof.Machine.execFirmwareActivate s
  | .tlbInvalidate => Sys2Proof.Machine.execTlbInvalidate s
  | .unitLoss => Sys2Proof.Machine.execUnitLoss s
  | .coldReset => Sys2Proof.Machine.execColdReset s
  | .managementFailover => Sys2Proof.Machine.execManagementFailover s
  | .intervalCompare => Sys2Proof.Machine.execIntervalCompare s
  | .stageMonitorSample => Sys2Proof.Machine.execStageMonitorSample s
  | .splitActivation => Sys2Proof.Machine.execSplitActivation s
  | .annexForward => Sys2Proof.Machine.execAnnexForward s
  | .mergeActivation => Sys2Proof.Machine.execMergeActivation s
  | .hostBar2Write => Sys2Proof.Machine.execHostBar2Write s
  | .hostBar2Read => Sys2Proof.Machine.execHostBar2Read s
  | .monitorConfigWrite => Sys2Proof.Machine.execMonitorConfigWrite s
  | .registerWrite => Sys2Proof.Machine.execRegisterWrite s
  | .clockThrottle => Sys2Proof.Machine.execClockThrottle s
  | .pairTimeout => Sys2Proof.Machine.execPairTimeout s
  | .coreLoss => Sys2Proof.Machine.execCoreLoss s

end Sys2Proof.Machine
end

