-- ==== Sys2Proof/Machine/Bundle.lean ====
section
/-! DEFINITION. Issuing one bundle: framing (R27), the waits on pending registers (R114), pairs as a unit (R28 to R33),
and the interval record of a checked pair (R381). -/

namespace Sys2Proof.Machine

/-! ### Framing (R26, R27) -/

/-- The words at the pc, framed: the state after the fetch with the bundle in its issue record, or the fault with the
words that have been read. -/
def frameBundle (s : State) : Except (Cause × State) State :=
  let pc := s.me.pc.toNat
  let put := fun (s : State) (i : Issue) => { s with issue := { i with quota := s.issue.quota } }
  let (old, s) := takesOld s s.cid s.tid pc
  match fetchWord s s.cid s.tid pc old with
  | .error c => .error (c, put s Issue.reset)
  | .ok (w0, s) =>
    let one : Issue := { Issue.reset with w0 := w0, slotA := bit w0 30 }
    let two : Issue := { Issue.reset with lone := false, w0 := w0 }
    if bit w0 31 then
      if fld w0 30 25 = 0x1E ∨ fld w0 30 25 = 0x1F then .error (.illegalInstruction, put s one) else .ok (put s one)
    else if pc % 8 ≠ 0 then .error (.misalignedPair, put s two)
    else if bit w0 30 then
      match fetchWord s s.cid s.tid (pc + 4) old with
      | .error _ => .error (.illegalInstruction, put s two)
      | .ok (w1, s) => .error (.illegalInstruction, put s { two with w1 := w1 })
    else
      match fetchWord s s.cid s.tid (pc + 4) old with
      | .error c => .error (c, put s two)
      | .ok (w1, s) =>
        let i := { two with w1 := w1 }
        if bit w1 31 || !bit w1 30 then .error (.illegalInstruction, put s i) else .ok (put s i)

/-! ### The registers that a bundle names (R31, R114) -/

/-- Registers that a word names. -/
def named (th : Thread) (vc : BitVec 5) (i : Instr) : List Nat := writeSet th vc i ++ readSet vc i

/-- Registers that the bundle names: under VX the mask and the fourth operand too, under REP those of the repetition
that issues. -/
def bundleNames (s : State) (ic : Instr) : List Nat :=
  let th := s.me
  if s.issue.lone then named th 0 ic
  else
    match ic with
    | .vx k _ _ c =>
      match s.aWord with
      | .ok ia => (64 + k.toNat) :: vNum c :: named th c ia
      | .error _ => []
    | .rep _ d a b =>
      match repInstr s th.rep (stepOf d) (stepOf a) (stepOf b) with
      | some ia => named th 0 ia
      | none => []
    | _ =>
      match s.aWord with
      | .ok ia => named th 0 ic ++ named th 0 ia
      | .error _ => []

/-- A register of the list is pending; x0 never is (R38). -/
def anyPending (th : Thread) (rs : List Nat) : Bool := th.requests.any fun r => r.regs.any fun n => n != 0 && rs.contains n

/-! ### Retirement (R115) -/

/-- A load, an atomic or another access with a result has not been answered. -/
def unanswered (th : Thread) : Bool := th.requests.any fun r => !r.regs.isEmpty

/-- Words that only write registers, branch, load or wait: they may take effect before earlier bundles retire (R115); FENCE
and ISYNC wait for no more than they name (R152, R153). -/
def onlyReads : Instr → Bool
  | .vx .. | .rep .. | .beq .. | .bne .. | .blt .. | .bge .. | .bltu .. | .bgeu .. | .jal .. | .jalr .. | .bkany .. | .bkall ..
  | .ldB .. | .ldBu .. | .ldH .. | .ldHu .. | .ldW .. | .ldWu .. | .ldD .. | .ldQ .. | .vld .. | .vlds .. | .vgath ..
  | .vldp .. | .pref .. | .lld .. | .lldWf .. | .lgath .. | .cstat .. | .bquery .. | .srrd .. | .lwnow .. | .fence .. | .isync
    => true
  | .vlld _ _ q => q.toNat != 2
  | _ => false

/-- The bundle has an effect that waits until every earlier bundle has retired (R115). -/
def acts (s : State) (ic : Instr) : Bool :=
  let pushes := fun (i : Instr) => (writeSet s.me 0 i).contains 31
  let aPushes := match ic with
    | .rep _ d a b => (repInstr s s.me.rep (stepOf d) (stepOf a) (stepOf b)).elim false pushes
    | _ => match s.aWord with | .ok ia => pushes ia | .error _ => false
  let cWord := match ic with
    | .vx .. | .rep .. => false
    | _ => (!s.issue.lone || bit s.issue.w0 30 == false) && !onlyReads ic
  cWord || pushes ic || (!s.issue.lone && aPushes)

/-! ### Pairs (R28 to R33) -/

/-- The two slots write the same register (R31). -/
def writesClash (th : Thread) (ic ia : Instr) : Bool :=
  let wa := writeSet th 0 ia
  (writeSet th 0 ic).any fun n => n != 0 && wa.contains n

/-- The C word writes SEED (R33). -/
def writesSeed : Instr → Bool
  | .srwr _ _ n | .srset _ _ n | .srclr _ _ n => n == 0x003#12
  | _ => false

/-- The C word ends the message or the activation, so that what had been pushed is gone (R322, R330, R344). -/
def endsPushes : Instr → Bool
  | .hend | .anxend => true
  | _ => false

/-- The state in which the A slot executes: the registers before the pair, the payload and the seed as the C slot left
them (R28, R33, R39). It has no hook and no supervisor entry: a trap here only says its cause, and is taken for the pair
(R32). -/
def aStart (s sc : State) (ic : Instr) : State :=
  let th := s.me
  let seed := if writesSeed ic then th.seed else sc.me.seed
  let s := s.setMe { th with seed := seed, fflags := 0, fhook := 0, svec := 0 }
  let sent := match ic with | .msend .. => true | _ => false
  let s := { s with issue := { s.issue with slotA := true, sent := sent } }
  match s.myCore.act, sc.myCore.act with
  | some a, some a' => s.setMyCore { s.myCore with act := some { a with left := a'.left } }
  | _, _ => s

/-- One register of the A slot. -/
def takeReg (a t : Thread) (n : Nat) : Thread :=
  if n < 30 then t.setX n (a.getX n)
  else if n < 32 then t
  else if n < 64 then t.setV (n - 32) (a.getV (n - 32))
  else t.setK (n - 64) (a.getK (n - 64))

/-- The pair ends: the writes of the A slot join those of the C slot (R28, R33). (DEDUCED, unsafe, log 84) -/
def mergePair (s sc sa : State) (ic ia : Instr) : State :=
  let c := sc.me
  let a := sa.me
  let regs := writeSet s.me 0 ia
  -- a TDONE that resumed a parent has put the parent's registers in place (R297)
  let resumed := ic == .tdone && c.strand == .running
  let t := regs.foldl (fun t n => if resumed && n < 30 then t else takeReg a t n) c
  let pushes :=
    if endsPushes ic then []
    else match ic with
      | .msend .. => a.mo.drop s.me.mo.length
      | _ => if regs.contains 31 then a.mo else c.mo
  let t := { t with
    fflags := c.fflags ||| a.fflags
    seed := if writesSeed ic then c.seed else a.seed
    tstat := setFld c.tstat 12 10 (fld a.tstat 12 10)
    mo := pushes }
  let m := sc.setMe t
  let m := match m.myCore.act, sa.myCore.act with
    | some x, some y => m.setMyCore { m.myCore with act := some { x with left := y.left } }
    | _, _ => m
  { m with free := Nat.max sc.free sa.free }

/-- What follows the end of a pair: the record of a JOIN that has parked takes the registers after the pair (R296), and a
SYSCALL raises its trap (R373). -/
def afterPair (s m : State) : Instr → State
  | .join a => if m.me.strand = .idle then afterJoin m a s else m
  | .syscall => takeTrapAt m s.fall .syscall 0 false
  | _ => m

/-- A trap of the A slot: no effect of either slot remains (R32). (DEDUCED, unsafe, log 84) -/
def trapSlotA (s sa : State) : State :=
  match sa.issue.status with
  | .trapped c a d => takeTrap { s with issue := { s.issue with slotA := true } } c a d
  | _ => s

/-- Illegal words of a pair are found before either slot executes: the frame names the slot. -/
def illegalAt (s : State) (slotA : Bool) : State :=
  takeTrap { s with issue := { s.issue with slotA := slotA } } .illegalInstruction 0 false

/-- A pair of a C word and an A word without a prefix. Write sets that clash are found first, and reported in the C slot
(R31); then the C slot's trap comes before the A slot's (R32). A C word that has begun its effect and waits lets the A
slot be tried, so that a trap of it leaves nothing of the pair.
(DEDUCED, unsafe, log 84; DESIGN CHOICE, unsafe, log 95) -/
def issuePair (s : State) (ic : Instr) : Out :=
  match s.aWord with
  | .error _ =>
    match exec ic s with
    | .next sc =>
      match sc.issue.status with
      | .trapped .. => .next sc
      | _ => .next (illegalAt s true)
    | o => o
  | .ok ia =>
    if writesClash s.me ic ia then .next (illegalAt s false)
    else
      match exec ic s with
      | .next sc =>
        match sc.issue.status with
        | .trapped .. | .waiting => .next sc
        | st =>
          match runA ia (aStart s sc ic) with
          | .next sa =>
            match sa.issue.status with
            | .trapped .. => .next (trapSlotA s sa)
            | _ =>
              if st = .parked then .next sc
              else
                let t := afterPair s (mergePair s sc sa ic ia) ic
                -- a SYSCALL whose frame has to wait is tried again as a whole
                .next (if t.issue.status = .waiting then takeTrapAt s s.fall .syscall 0 false else t)
          | o => o
      | o => o

/-! ### The interval record of a checked pair (R381) -/

/-- The record of a register write: its name and its new contents, those of x31 the word pushed. -/
def crcReg (t : Thread) (r : Word) (n : Nat) : Word :=
  if n = 0 then r
  else
    let r := crcByte r n
    if n = 31 then crcNat r 8 (t.mo.getLastD 0).toNat
    else if n < 32 then crcNat r 8 (t.getX n).toNat
    else if n < 64 then crcNat r 512 (t.getV (n - 32)).toNat
    else crcNat r 128 (t.getK (n - 64)).toNat

/-- The records of the register writes of one retired word; those of its stores stand before them.
(DEDUCED, unsafe, log 15) -/
def crcWord (before after : State) (vc : BitVec 5) (r : Word) (i : Instr) : Word :=
  let r := (writeSet before.me vc i).foldl (crcReg after.me) r
  match i with
  | .srwr _ _ n | .srset _ _ n | .srclr _ _ n => crcNat (crcByte r 0x60) 8 ((sregValue after n.toNat).getD 0).toNat
  | _ => r

/-- The words that a bundle retires, with the fourth operand of the prefix. -/
def retired (s : State) (ic : Instr) : BitVec 5 × List Instr :=
  if s.issue.lone then (0, [ic])
  else
    match ic with
    | .vx _ _ _ c => (c, s.aWord.toOption.toList)
    | .rep _ d a b => (0, (repInstr s s.me.rep (stepOf d) (stepOf a) (stepOf b)).toList)
    | _ => (0, ic :: s.aWord.toOption.toList)

/-- The bundle has retired: SYSCALL traps behind its bundle (R115, R373). -/
def hasRetired : IssueStatus → Bool
  | .done | .trapped .syscall _ _ => true
  | _ => false

/-- The CRC of a thread of a checked pair's leader, and of the follower's thread, which runs over the same records (R381). -/
def setCrc (s : State) (f : Nat) (crc : Word) : State :=
  let t := s.tid
  (s.setMe { s.me with crc := crc }).setThread f t { s.thread f t with crc := crc }

/-- A bundle of a checked pair's leader retires (R381). A repetition that is not the last retires its records, and the
pair's last one the bundle; what a word has stored before it goes on is recorded too. -/
def recordBundle (before after : State) (ic : Instr) : State :=
  match (before.core before.cid).pair with
  | .leader f =>
    if hasRetired after.issue.status then
      let (vc, is) := retired before ic
      let s := setCrc after f (is.foldl (crcWord before after vc) after.me.crc)
      let k := s.myCore
      s.setMyCore { k with bundles := if s.me.rep = 0 then k.bundles + 1 else k.bundles }
    else setCrc after f after.me.crc
  | _ => after

/-! ### One bundle -/

/-- A word or pair, framed and decoded, executes: prefixes and lone words by themselves, other pairs as a unit. -/
def issueDecoded (s : State) (ic : Instr) : Out :=
  let solo := s.issue.lone || (match ic with | .vx .. | .rep .. => true | _ => false)
  let repeats := !s.issue.lone && (match ic with | .rep .. => true | _ => false)
  if s.me.rep ≠ 0 && !repeats then .next (illegalAt s false)
  else if anyPending s.me (bundleNames s ic) || (unanswered s.me && acts s ic) then .next (beginWait s .reg)
  else
    match if solo then exec ic s else issuePair s ic with
    | .next s' => .next (recordBundle s s' ic)
    | o => o

/-- The issuing thread fetches the bundle at its pc and executes it (R27). -/
def issueBundle (s : State) : Out :=
  if fetchHeld s s.cid s.tid s.me.pc.toNat then .next (beginWait s (fetchWait s s.cid s.tid s.me.pc.toNat))
  else match frameBundle s with
  | .error (c, s) => if c = .notPresent then .next (beginAbsent s s.me.pc 4 false) else .next (takeTrap s c s.me.pc false)
  | .ok s =>
    let s := s.setMe { s.me with fetched := fetchAhead s s.cid s.tid s.fall.toNat }
    match decodeWord s.issue.w0 with
    | .error _ => .next (illegalAt s s.issue.slotA)
    | .ok ic => issueDecoded s ic

end Sys2Proof.Machine
end

