-- ==== Sys2Proof/Machine/Turn.lean ====
section
/-! DEFINITION. One turn of the package: what falls due of itself, the choice of R284, the passing of time (R314, R403),
and which events of the outside world and of the agents take place (R8, R148). -/

namespace Sys2Proof.Machine

/-! ### Steps of other agents -/

/-- Take the step that an event stands for. -/
def tryEvent (s : State) (e : Event) : Out :=
  match exec e.row { s with item := some e, issue := { s.issue with status := .none } } with
  | .next s' => .next { s' with item := none }
  | o => o

/-- The step of an event when it is due, or when it asks for a page and stays on its way: none when it is not. -/
def dueEvent (s : State) (e : Event) : Option Out :=
  match tryEvent s e with
  | .next s' => if s'.issue.status = .done ∨ s'.issue.status = .kept then some (.next s') else none
  | o => some o

/-- The message that an event carries. -/
def carried : Event → Option Msg
  | .messageArrival m | .hostMailboxNotice m _ _ | .remoteLoad m | .remoteStore m | .remoteAtomic m | .remoteLaw m => some m
  | _ => none

/-- An access of the host. -/
def hostAccess : Event → Bool
  | .hostBar2Write .. | .hostBar2Read .. | .monitorConfigWrite .. | .registerWrite .. => true
  | _ => false

/-- Two events that take place in the order in which they were sent: messages of one source to one package (R148, R319),
accesses of the host (R146), records of one event ring (R175), releases of one barrier to a core (R307). -/
def ordered (a b : Event) : Bool :=
  match carried a, carried b with
  | some m, some n => fld m.src 28 0 == fld n.src 28 0 && fld m.desc 25 10 == fld n.desc 25 10
  | _, _ =>
    match a, b with
    | .lawEventRecord x r _, .lawEventRecord y q _ => x == y && r == q
    | .barrierRelease c p o _ _ _, .barrierRelease d q n _ _ _ => c == d && p == q && o == n
    | a, b => hostAccess a && hostAccess b

/-- An event may not pass one that was sent before it. -/
def behind (es : List Event) (e : Event) : Bool := es.any fun a => ordered a e

/-- An event that stays on its way keeps its place (R146, R148). -/
def keepPlace (i : Nat) (e : Event) : Out → Out
  | .next s => .next (if s.issue.status = .kept then { s with flight := s.flight.insertIdx i e } else s)
  | o => o

/-- The i-th event in flight takes place when it is due. -/
def moveFlight (s : State) (i : Nat) : Option Out :=
  match s.flight[i]? with
  | none => none
  | some e => if behind (s.flight.take i) e then none else (dueEvent { s with flight := s.flight.eraseIdx i } e).map (keepPlace i e)

/-- The first event in flight that is due. -/
def firstFlight (s : State) : Option Out := (List.range s.flight.length).findSome? (moveFlight s)

/-- Steps that follow only from earlier steps of the package, and are in flight. (DESIGN CHOICE, unsafe, log 11) -/
def internal : Event → Bool
  | .loadReply .. | .storeRefused .. | .kioskPullTile .. | .journalWrite .. | .lawEventRecord ..
  | .fanOutDeposit .. | .hostMailboxNotice .. | .messageRelease .. | .handlerActivation .. | .workSearch .. | .backOff ..
  | .steal .. | .stealAnswer .. | .eventLatchSet .. | .groupBarrierArrival .. | .barrierRelease .. | .strandsDone ..
  | .launchStop .. | .doneWord .. | .bind .. | .preemption .. | .hostBindRecord .. | .contextCreate ..
  | .contextDestroy .. | .launch .. | .signal .. | .waitForSignal .. | .annexPolicy .. | .signalSatisfied .. | .stageMonitorSample .. | .splitActivation .. | .annexForward ..
  | .mergeActivation .. => true
  | _ => false

/-- What the outside world, or an agent that acts of itself, may do: messages come from other packages, with the releases of
their sources, and acknowledgements answer messages sent to them (R320, R331, R334).
(DESIGN CHOICE, unsafe, log 11) -/
def fromOutside (s : State) (e : Event) : Bool :=
  match e with
  | .messageArrival m | .remoteLoad m | .remoteStore m | .remoteAtomic m | .remoteLaw m =>
    fld m.src 25 10 != s.pkg && fld m.desc 25 10 == s.pkg
  | .messageAcknowledgement src n => s.unacked.any fun u => u.1 == src && u.2.1 == n && fld u.2.2.desc 25 10 != s.pkg
  | .remoteFault src _ _ _ _ => fld src 25 10 == s.pkg
  | .hostMailboxNotice m dead _ => !dead && fld m.src 25 10 != s.pkg && fld m.desc 25 10 == s.pkg
  | .messageRelease _ src _ => fld src 25 10 != s.pkg
  | e => !internal e

/-- An event of the outside world that stays on its way while it is not due. (DESIGN CHOICE, unsafe, log 11) -/
def lasting (e : Event) : Bool := (carried e).isSome || hostAccess e || (match e with | .remoteFault .. => true | _ => false)

/-- The outside world or an autonomous agent moves. (DESIGN CHOICE, safe, log 21) -/
def moveOutside (s : State) (e : Event) : Out :=
  if !e.wellFormed then .fault .noSuchAgent
  else if !fromOutside s e then .next s
  else if behind s.flight e then .next (s.emit e)
  else
    match dueEvent s e with
    | some o => keepPlace s.flight.length e o
    | none => .next (if lasting e then s.emit e else s)

/-! ### Time (R314, R402, R403) -/

/-- A wait that something else ends: trying the bundle again would not. -/
def blocked (s : State) (t : Thread) : Bool :=
  match t.wait with
  | .barrier .. | .arrival .. | .pairing | .unpairing => true
  | .event _ => !t.latch
  | .interrupt woken => !t.latch && !woken
  | .pageFault id => s.pageItems.any fun i => i.id == id && !i.declined
  | _ => false

/-- A bundle arrives at a barrier and goes on (R311). -/
def Issue.arrives (i : Issue) : Bool :=
  let barrive := fun (w : BitVec 32) => match decodeWord w with | .ok (.barrive ..) => true | _ => false
  barrive i.w0 || (!i.lone && barrive i.w1)

/-- The thread's wait does not count toward the heartbeat (R100, R197, R303, R313, R314, R375); one that is over is no wait. -/
def exempt (s : State) (c t : Nat) (th : Thread) : Bool :=
  match th.wait with
  | .barrier .. | .arrival .. => true
  | .joined b _ => !((s.core c).bar b).tout && !(bundleAt s c t).arrives
  | .granules g n full => !(s.core c).granulesAre g n full
  | .event _ | .interrupt _ | .pageFault _ => blocked s th
  | _ => false

/-- A compute thread through n cycles. -/
def Thread.pass (s : State) (c t : Nat) (th : Thread) (n : Nat) : Thread :=
  if th.strand = .running && !exempt s c t th then { th with hbcount := th.hbcount + word n } else th

/-- A core through n cycles. A follower's threads count as their leader's do (R314, R380). (DEDUCED, safe, log 14) -/
def Core.pass (s : State) (c : Nat) (k : Core) (n : Nat) : Core :=
  match k.pair with
  | .follower _ => k
  | _ => { k with threads := k.threads.map fun p => if p.1 < 4 then (p.1, Thread.pass s c p.1 p.2 n) else p }

/-- What a running monitor makes of a value in each of n cycles. -/
def Monitor.takeMany (m : Monitor) (v n : Nat) : Monitor :=
  if n = 0 then m
  else
    match fld m.config 33 32 with
    | 0 => { m with result := m.result + word (n * v) }
    | 3 =>
      let b := histBin (v / 2 ^ fld m.config 38 34)
      { m with bins := m.bins.mapIdx fun i c => if i = b then BitVec.ofNat 32 (Nat.min (c.toNat + n) (2 ^ 32 - 1)) else c }
    | _ => m.take v

/-- What a running monitor of a die makes of the depth of the atomic queues in each of n cycles: a free value. -/
def Monitor.takeDepths (mon : Monitor) (m cycle : Nat) : Nat → Monitor
  | 0 => mon
  | n + 1 => (mon.takeDepths m cycle n).take (Config.freeLevel m (cycle + n))

/-- The cycles that have passed, as the monitors see them: the depth of the atomic queues on a die (event 35); on a core
the cycles without a bundle (event 2) and the level of outstanding requests in each (event 4). -/
def passMonitor (s : State) (n : Nat) (m : Nat) (mon : Monitor) : Monitor :=
  if m < 128 then
    if bit mon.config 0 && fld mon.config 15 8 == 35 then mon.takeDepths m s.cycle n else mon
  else
    let c := (m - 128) / 8
    let k := s.core c
    if bit mon.config 0 && (!bit mon.config 39 || fld mon.config 47 40 == s.coreCtx c) then
      match fld mon.config 15 8 with
      | 2 => mon.takeMany 1 (n - boolNat (k.sched.issued == some s.cycle))
      | 4 => mon.takeMany (k.entries + heldEntries (k.thread 4)) n
      | _ => mon
    else mon

/-- Time passes: core cycles and nanoseconds of the reference clock (R10). -/
def advance (s : State) (cycles ns : Nat) : State :=
  { s with
    monitors := s.monitors.map fun p => (p.1, passMonitor s cycles p.1 p.2)
    cores := if cycles = 0 then s.cores else s.cores.map fun p => (p.1, p.2.pass s p.1 cycles)
    cycle := s.cycle + cycles
    ns := s.ns + ns }

/-! ### What falls due of itself -/

/-- Time limits that may have passed on a core (R197, R303, R310, R315, R329, R379).
(DESIGN CHOICE, unsafe, log 12; DEDUCED, safe, log 14) -/
def timersOf (c : Nat) (k : Core) : List Event :=
  let ofThread := fun (p : Nat × Thread) =>
    (match p.2.wait with
      | .event _ => [Event.wfeTimeout c p.1]
      | .granules .. => [Event.feTimeout c p.1]
      | .pairing => [Event.pairTimeout c p.1]
      | _ => [])
    ++ (match k.bound with
      | some b => if p.1 < 4 && p.2.strand == .running && decide (2 ^ b.ld.h ≤ p.2.hbcount.toNat) then [Event.heartbeatMiss c p.1] else []
      | none => [])
  match k.pair with
  | .follower _ => []
  | _ => k.threads.flatMap ofThread
    ++ k.barriers.filterMap (fun p => if p.2.first.isSome && !p.2.held then some (Event.barrierTimeout c p.1) else none)
    ++ (if k.act.isSome then [Event.budgetFault c] else [])

/-- A wait that only another agent can end, or for a sector that another pair holds (R147, R381). -/
def agentWait : Wait → Bool
  | .barrier .. | .arrival .. | .joined .. | .granules .. | .ring | .event .. | .interrupt .. | .outbound | .route | .fence
  | .heldPair => true
  | _ => false

/-- The interval of a leader has to end (R381). (DEDUCED, unsafe, log 16) -/
def intervalOver (s : State) (c : Nat) (k : Core) : Bool :=
  match k.pair with
  | .leader _ =>
    let held := (s.holds.filter fun h => h.owner == .thread c 9).length
    decide (4096 ≤ k.bundles) || decide (512 ≤ k.gated.length + held) || decide (1024 ≤ k.undo.length)
      || ((k.bundles != 0 || k.gated != [] || held != 0) && k.threads.any fun p => agentWait p.2.wait)
  | _ => false

/-- The schedule itself ends the interval of this core next. -/
def scheduled (s : State) (c : Nat) : Bool :=
  match s.turns with
  | ⟨_, _, .outside (.intervalCompare d _)⟩ :: _ => c == d
  | _ => false

/-- The first step that falls due of itself on a core: an interval's end, then the time limits. -/
def coreStep (s : State) : Option Out :=
  s.cores.findSome? fun p =>
    if intervalOver s p.1 p.2 && !scheduled s p.1 then some (tryEvent s (.intervalCompare p.1 .agree))
    else (timersOf p.1 p.2).findSome? (dueEvent s)

/-- The first step that falls due of itself: a line that its set has no way for goes, then what is due on the cores, then the
kiosks' visits (R107, R162). (DESIGN CHOICE, unsafe, log 12) -/
def autoStep (s : State) : Option Out :=
  match (displaced s).bind (dueEvent { s with free := s.free + 1 }) with
  | some o => some o
  | none =>
    match coreStep s with
    | some o => some o
    | none => (sweepsDue s).findSome? (dueEvent s)

/-! ### Issue (R283, R284) -/

/-- A load of the thread has not been answered after 512 later bundles (R115). -/
def retireWait (th : Thread) : Bool := th.requests.any fun r => !r.regs.isEmpty && decide (512 ≤ r.after)

/-- A thread may be tried: it carries a strand or an activation, its core is on the network, and a checked pair issues as
one (R282, R315, R380). A thread that stops ends the word of which parts have been performed (R120, R360).
(DEDUCED, safe, log 14) -/
def canIssue (s : State) (c t : Nat) : Bool :=
  let k := s.core c
  let th := k.thread t
  let paired := match k.pair with
    | .none => true
    | .leader f => s.coreOrder f == s.coreOrder c
    | .follower _ => false
  decide (t < 5) && k.bound.isSome && !k.fenced && paired && th.strand == .running && !blocked s th
    && !retireWait th && !sevWait s c th
    && (if t = 4 then k.act.isSome else !stopping s c || th.progress.isSome)

/-- Try the next bundle of a thread; of a word of several parts so many are performed (R120). -/
def attempt (s : State) (c t : Nat) (quota : Option Nat) : Out :=
  let k := s.core c
  issueBundle { s.setCore c { k with sched := { k.sched with yielded := false } } with
    cur := (c, t), issue := { Issue.reset with quota := quota } }

/-- Try the threads of a core in turn: a wait begins, and a thread whose bundle would issue, or begin its effect, is ready. -/
def readyThreads (c : Nat) : List Nat → State → State × List Nat
  | [], s => (s, [])
  | t :: ts, s =>
    if canIssue s c t then
      match attempt s c t none with
      | .next s' =>
        if s'.issue.status = .waiting then readyThreads c ts s'
        else
          let r := readyThreads c ts s
          (r.1, t :: r.2)
      | _ =>
        let r := readyThreads c ts s
        (r.1, t :: r.2)
    else readyThreads c ts s

/-- The thread that has been ready without issuing the longest, of those that have been for four cycles (R284 rule 1). -/
def starved (k : Sched) (ready : List Nat) : Option Nat :=
  ready.foldl (fun (b : Option Nat) t =>
    let w := k.waited.get t 0
    if w < 4 then b
    else
      match b with
      | none => some t
      | some u => if k.waited.get u 0 < w then some t else b) none

/-- The thread that issues, of those that are ready (R284). (DESIGN CHOICE, unsafe, log 13) -/
def select (k : Sched) (ready : List Nat) : Option Nat :=
  match starved k ready with
  | some t => some t
  | none =>
    if ready.contains 4 then some 4
    else
      match k.last with
      | some t => if ready.contains t && !k.yielded then some t else next
      | none => next
where
  /-- Rule 4: round-robin after the compute thread that issued last. -/
  next : Option Nat := ((List.range 4).map fun i => (k.lastCompute + 1 + i) % 4).find? ready.contains

/-- The bundle being issued is TOP or TOPS (R403 event 5). -/
def issuesTop (i : Issue) : Bool :=
  match decodeWord (if i.lone then i.w0 else i.w1) with
  | .ok (.top ..) | .ok (.tops ..) => true
  | _ => false

/-- A bundle of the thread has issued after its requests (R115). -/
def Thread.issuedOne (t : Thread) : Thread := { t with requests := t.requests.map fun r => { r with after := r.after + 1 } }

/-- Keep the issue of a thread: the selection state of its core and its monitors. A word that has begun its effect and waits
takes the cycle, and counts when it completes. -/
def keepIssue (s : State) (c t : Nat) (ready : List Nat) : State :=
  let k := s.core c
  let old := k.sched
  let begun := s.issue.status == .parked
  let waited := (ready.filter (· ≠ t)).foldl (fun m u => SMap.set m u (old.waited.get u 0 + 1)) []
  let sched : Sched :=
    ⟨some t, old.yielded, if t < 4 then t else old.lastCompute, waited, if begun then old.issued else some s.cycle⟩
  let s := s.setCore c { k with sched := sched }
  if begun then s else
  let s := s.setThread c t (s.thread c t).issuedOne
  let s := monitorEvent s (some c) 0 0 1 (s.coreCtx c) 1
  if issuesTop s.issue then monitorEvent s (some c) 0 0 5 (s.coreCtx c) 1 else s

/-- One thread issues. (DESIGN CHOICE, unsafe, log 13) -/
def threadTurn (s : State) (c t : Nat) (ready : List Nat) (quota : Option Nat) : Out :=
  match attempt s c t quota with
  | .next s' => .next (if s'.issue.status = .waiting then s' else keepIssue s' c t ready)
  | o => o

/-- A cycle of a core: at most one bundle issues, of the thread that the rules choose when it is one of those that may (R284).
None otherwise: the waits that have begun stay. (DESIGN CHOICE, unsafe, log 13) -/
def coreTurn (s : State) (c : Nat) (may : Nat → Bool) (quota : Option Nat) : State × Option Out :=
  let r := readyThreads c [0, 1, 2, 3, 4] s
  match select (s.core c).sched r.2 with
  | some t => (r.1, if may t then some (threadTurn r.1 c t r.2 quota) else none)
  | none =>
    let k := r.1.core c
    (r.1.setCore c { k with sched := { k.sched with last := none, waited := [] } }, none)

/-- The first core with a thread that is ready issues. (DESIGN CHOICE, safe, log 9) -/
def anyCore : List Nat → State → State × Option Out
  | [], s => (s, none)
  | c :: cs, s =>
    match coreTurn s c (fun _ => true) none with
    | (s, some o) => (s, some o)
    | (s, none) => anyCore cs s

/-! ### Turns -/

/-- Nanoseconds of the reference clock in the cycle after one. -/
def nsOfCycle (s : State) : Nat := (s.cycle + 1) * 1000 / s.mhz - s.cycle * 1000 / s.mhz

/-- The cores with a launch bound, from one that changes with the cycle, so that none is passed over for ever.
(DESIGN CHOICE, safe, log 9) -/
def coreOrder (s : State) : List Nat :=
  let cs := (s.cores.filter fun p => p.2.bound.isSome).map (·.1)
  let n := s.cycle / 2 % Nat.max 1 cs.length
  cs.drop n ++ cs.take n

/-- With no schedule left, the events in flight and the cores come first in turn: the first event that is due, or the
first core that can issue. (DESIGN CHOICE, safe, log 9) -/
def freeTurn (s : State) : Out :=
  let s := advance s 1 (nsOfCycle s)
  match (if s.cycle % 2 = 0 then firstFlight s else none) with
  | some o => o
  | none =>
    match anyCore (coreOrder s) s with
    | (_, some o) => o
    | (s, none) => (firstFlight s).getD (.next s)

/-- What comes of a core's cycle. -/
def ofCore : State × Option Out → Out
  | (_, some o) => o
  | (s, none) => .next s

/-- A check of a context that a write of its V has begun (R349). -/
def contextCheck : Event → Bool
  | .contextCreate .. | .contextDestroy _ => true
  | _ => false

/-- A scheduled turn. A read of the host passes none of its earlier accesses, nor what they have begun at a context (R146, R349).
(DESIGN CHOICE, unsafe, log 99) -/
def takeTurn (s : State) : Who → Out
  | .core c => ofCore (coreTurn s c (fun _ => true) none)
  | .thread c t => ofCore (coreTurn s c (· == t) none)
  | .parts c n => ofCore (coreTurn s c (fun _ => true) (some n))
  | .bar0 off => .next (if s.flight.any (fun e => hostAccess e || contextCheck e) then s else readBar0 s off)
  | .pathLost p => .next (losePaths s (· == p))
  | .flight i => (moveFlight s i).getD (.next s)
  | .outside e => moveOutside s e

/-- The kiosks have regions to visit (R162). -/
def sweepsRun (s : State) : Bool := s.ctxs.any fun p => p.2.live && !bit p.2.modes 3 && !p.2.regions.isEmpty

/-- The nanoseconds that pass at most before the kiosks' visits are looked at again: no visit is later than 2^22 ticks (R162).
(DESIGN CHOICE, unsafe, log 12) -/
def sweepStep : Nat := 2 ^ 20

/-- One step of the package. While kiosks have regions to visit, a long turn passes in pieces.
(DESIGN CHOICE, safe, log 1) -/
def turn (s : State) : Out :=
  match autoStep s with
  | some o => o
  | none =>
    match s.turns with
    | [] => freeTurn s
    | t :: ts =>
      if sweepsRun s && decide (sweepStep < t.ns) then
        .next (advance { s with turns := { t with ns := t.ns - sweepStep } :: ts } 0 sweepStep)
      else takeTurn (advance { s with turns := ts } t.cycles t.ns) t.who

end Sys2Proof.Machine
end

