-- ==== Sys2Proof/Machine/Step.lean ====
section
/-! DEFINITION. The step function, and the placing of one instruction where the next step fetches it. -/

namespace Sys2Proof.Machine

/-- One step of the package: what falls due of itself, else the next turn of the schedule (`turn`). -/
def step (s : State) : Host.Outcome State Fault Refusal := Sys2Proof.Machine.turn s

/-- The two words at address 0 that make the word w the next bundle: alone, or in a pair. A C word takes an ADD without
effect beside it, a prefix takes an A word that it may precede, an A word follows a FENCE.
(DESIGN CHOICE, safe, log 8) -/
def placedWords (w : BitVec 32) : BitVec 32 × BitVec 32 :=
  let major := w.toNat / 2 ^ 25 % 64
  if w.getLsbD 31 then (w, 0xC2000000#32)
  else if w.getLsbD 30 then (0x2E000000#32, w)
  else if major = 0x1E then (w, 0x56000383#32)
  else if major = 0x1F then (w, 0x54000080#32)
  else (w, 0x42000000#32)

/-- The launch descriptor under which a placed instruction runs: one core, one thread, a code window at address 0.
(DESIGN CHOICE, safe, log 8) -/
def placedLaunch : LaunchDesc where
  args := []
  spbase := 0
  spstride := 0
  savebase := 0
  code := 0
  entry := 0
  first := 0
  count := 1
  n := 1
  steal := 0
  h := 34
  cw := 1
  xw := 0
  rst := false
  chk := false
  jnl := false
  lsave := false

/-- Core 0 with a launch bound and thread t0 at address 0, the two words there in its code window. -/
def placedCore (k : Core) (w : BitVec 32 × BitVec 32) : Core :=
  let th := k.thread 0
  let k := k.setThread 0 { th with pc := 0, strand := .running, wait := .none, requests := [], progress := none, sev := none, fetched := [], hbcount := 0, tstat := th.tstat &&& ~~~0x3F0000#64 }
  { k with
    lmem := Mem.write k.lmem 0 8 (w.1.toNat + 2 ^ 32 * w.2.toNat)
    bound := some ⟨⟨0, 0, 0, 0, 0, 0, false⟩, placedLaunch, 0⟩
    sched := ⟨none, false, 3, [], none⟩, barriers := [], act := none, pair := .none, fenced := false }

/-- s with an instruction placed as the next bundle of core 0's thread t0, and that thread next in the schedule.
(DESIGN CHOICE, safe, log 8) -/
def State.withFetchWord (s : State) (nbits w : Nat) : State :=
  let _ := nbits
  { s.setCore 0 (placedCore (s.core 0) (placedWords (BitVec.ofNat 32 w))) with turns := [⟨0, 0, .thread 0 0⟩] }

end Sys2Proof.Machine
end

