-- ==== Sys2Proof/Safety.lean ====
section
/-! DEFINITION. What counts as a safe run, and the terms in which the claims are stated: how a word completes and a step
moves, which accesses go through at once, and what a word leaves as it was. -/

namespace Sys2Proof.Machine

/-- The step answers a next state. -/
def goesOn (s : State) : Prop := ∃ t, step s = .next t

/-- HBM and CXL memory is in canonical form: addresses strictly rising, no zero byte listed. -/
def State.memWf (s : State) : Prop := Mem.wf s.mem = true

/-- Every local memory is in canonical form too. -/
def State.memoriesWf (s : State) : Prop := s.memWf ∧ ∀ p ∈ s.cores, Mem.wf p.2.lmem = true

/-! ### Ends -/

/-- The word i completes: its effect leaves t, and the pc goes to the address that the word named or past it. -/
def Completes (i : Instr) (s t : State) : Prop := exec i s = .next (complete t)

/-- The word i traps: nothing of it remains but the trap (R32). -/
def Traps (i : Instr) (s : State) (c : Cause) (a : Word) : Prop := exec i s = .next (takeTrap s c a false)

/-- The word i waits, and nothing of it remains but the wait (R283). -/
def Waits (i : Instr) (s : State) (w : Wait) : Prop := exec i s = .next (beginWait s w)

/-- The step e of another agent is at hand, and its operands name units of the package. -/
def AtHand (e : Event) (s : State) : Prop := s.item = some e ∧ e.wellFormed = true

/-- The step i of another agent takes place and leaves t. -/
def Moves (i : Instr) (s t : State) : Prop := exec i s = .next (endStep t)

/-- A task that a thread of core c starts from u finds its record mirrored into the save area in v, where the launch is a
restartable one that keeps it; otherwise v is u (R384). -/
def TaskMirrored (u v : State) (c t : Nat) (r : TaskRec) : Prop :=
  match (u.core c).bound with
  | none => v = u
  | some b =>
    if b.ld.rst = true ∧ b.ld.savebase ≠ 0 then
      unitWrite u .other c b.record.ctx true
        (partsOf (b.ld.savebase.toNat + b.record.pos * 0x55000 + 0x4800 * t + 18296) 64) (taskNat r) = (none, v)
    else v = u

/-- The step i is not due: the state is as it was, and the status says so. -/
def NotDue (i : Instr) (s : State) : Prop := exec i s = .next { s with issue := { s.issue with status := .waiting } }

/-- The state after an effect. -/
def after (m : M Unit) (s : State) : State :=
  match m s with
  | .ok _ t => t
  | .error _ t => t

/-! ### Arithmetic -/

/-- The thread keeps SEED as a computation left it, and ORs its flags into FFLAGS (R70, R71). -/
def State.afterF (s : State) (e : FpEnv) : State :=
  s.setMe { s.me with seed := e.seed, fflags := s.me.fflags ||| word e.flags }

/-- A vector instruction has written vd. -/
def State.vecDone (s : State) (d : BitVec 5) (v : VReg) (e : FpEnv) : State :=
  s.setMe { s.me.setV d.toNat v with seed := e.seed, fflags := s.me.fflags ||| word e.flags }

/-! ### Accesses -/

/-- The translations that an access entails have been performed: A and D are set, and the TLB filled (R97). -/
def State.touched (s : State) (xs : List Xlat) : State := xs.foldl (fun s x => applyXlat s s.cid s.myCtx x) s

/-- What an atomic access leaves that compares and stores nothing: its walk sets A, and D stays (R97). -/
def State.compared (s : State) (x : Xlat) : State := applyXlat s s.cid s.myCtx (x.withoutD s s.myCtx)

/-- Of a word that begins, the parts ps translate to xs with the rights nd, no other agent holds one or an entry that their
walks read, and the thread can hold their request entries: the access passes its checks (R102, R113, R139). -/
def Passes (nd : Rights) (s : State) (ps : List (Nat × Nat)) (xs : List Xlat) : Prop :=
  ps.map (fun p => xlate s s.cid s.myCtx p.1 nd s.sup) = xs.map .ok
    ∧ ps.any (fun p => walkHeld s s.agent s.cid s.myCtx nd p.1) = false
    ∧ xs.any (partHeld s s.agent s.mySeed) = false ∧ poolHas s ps.length = true ∧ s.me.progress = none

/-- The access passes its checks, and the turn performs all its parts: it goes through at once. -/
def Reachable (nd : Rights) (s : State) (ps : List (Nat × Nat)) (xs : List Xlat) : Prop :=
  Passes nd s ps xs ∧ s.partsNow ps.length = ps.length

/-- The parts read as vs; none is poisoned. -/
def Reads (s : State) (xs : List Xlat) (ps : List (Nat × Nat)) (vs : List Nat) : Prop :=
  xs.length = ps.length ∧ (xs.zip ps).map (fun q => readNear s s.cid s.myCtx q.1.pa q.2.2) = vs.map some

/-- Store parts in order, each held first where stores are gated, and recorded by a checked pair's leader (R147, R381); none
when one is refused (R118). -/
def storeParts (s : State) : List Xlat → List ((Nat × Nat) × Nat) → Option State
  | x :: xs, ((va, n), v) :: ps =>
    let s1 := if s.gates then addHold s s.agent (homeSlice s s.mySeed x.pa) (x.pa / 32) else s
    (writePa s1 s.mySeed x.pa n v).bind fun s2 => storeParts (after (recordStore va n v) s2) xs ps
  | _, _ => some s

/-- What holds an access of one part up, or faults it, decides how the word ends, with nothing of it done: a page that
is not present goes to the page-fault service, any other fault traps with the part's address, a held sector and a lack
of entries make the thread wait (R100, R102, R113, R139). -/
def PartStops (i : Instr) (nd : Rights) (s s1 : State) (va : Nat) : Prop :=
  s1.me.progress = none →
  (walkHeld s1 s1.agent s1.cid s1.myCtx nd va = true → Waits i s (walkWait s1 s1.agent s1.cid s1.myCtx nd [va])) ∧
  (walkHeld s1 s1.agent s1.cid s1.myCtx nd va = false →
    (∀ c, xlate s1 s1.cid s1.myCtx va nd s1.sup = .error c →
      exec i s = .next (if c = .notPresent then beginAbsent s (word va) (accessBits nd) false else takeTrap s c (word va) false)) ∧
    (∀ x, xlate s1 s1.cid s1.myCtx va nd s1.sup = .ok x →
      (partHeld s1 s1.agent s1.mySeed x = true → Waits i s (partsWait s1 s1.agent s1.mySeed [x])) ∧
      (partHeld s1 s1.agent s1.mySeed x = false → poolHas s1 1 = false → Waits i s .reg)))

/-- A load of a global element (R116): the address, its alignment, the value read and extended, and every stop. -/
def LoadDoes (i : BitVec 5 → BitVec 5 → BitVec 12 → Instr) (size : Nat) (ext : Nat → Word) : Prop :=
  ∀ (s : State) (d a : BitVec 5) (o : BitVec 12) (x : Word) (s1 : State), legalHere s (i d a o) = true →
    readX a s = .ok x s1 →
    let va := (x + o.signExtend 64 * word size).toNat
    (va % size ≠ 0 → Traps (i d a o) s .misalignedAccess (word va)) ∧
    (va % size = 0 → PartStops (i d a o) .read s s1 va ∧
      ∀ p, Reachable .read s1 [(va, size)] [p] →
        let s2 := s1.touched [p]
        (readNear s2 s2.cid s2.myCtx p.pa size = none → Traps (i d a o) s .uncorrectableError (word va)) ∧
        ∀ v s3, readNear s2 s2.cid s2.myCtx p.pa size = some v →
          writeX d (ext v) (after (requestLoad 1 [d.toNat]) s2) = .ok () s3 → Completes (i d a o) s s3)

/-- A store of a global element (R117, R118): the address, its alignment, the bytes stored, and every stop. -/
def StoreDoes (i : BitVec 5 → BitVec 5 → BitVec 12 → Instr) (size : Nat) : Prop :=
  ∀ (s : State) (d a : BitVec 5) (o : BitVec 12) (v x : Word) (s1 s2 : State), legalHere s (i d a o) = true →
    readX a s = .ok x s1 → readX d s1 = .ok v s2 →
    let va := (x + o.signExtend 64 * word size).toNat
    let s3 := after (gateStores 1) s2
    (va % size ≠ 0 → Traps (i d a o) s .misalignedAccess (word va)) ∧
    (va % size = 0 → PartStops (i d a o) .write s s3 va ∧
      ∀ p, Reachable .write s3 [(va, size)] [p] →
        let s4 := s3.touched [p]
        (storeParts s4 [p] [((va, size), v.toNat % 256 ^ size)] = none →
          if s4.gates then Traps (i d a o) s .uncorrectableError (word va)
          else exec (i d a o) s = .next (beginRefused s s4 (word va))) ∧
        ∀ s5, storeParts s4 [p] [((va, size), v.toNat % 256 ^ size)] = some s5 →
          Completes (i d a o) s (after (request 1 []) s5))

/-- A read-modify-write atomic (R127): the address, its alignment, the value stored (f of the width, the old value and
the operand) and the one returned, and every stop. -/
def AtomicDoes (i : BitVec 5 → BitVec 5 → BitVec 5 → BitVec 2 → Instr) (f : Nat → Nat → Nat → Nat) (ret : Nat → Nat → Word) :
    Prop :=
  ∀ (s : State) (d a b : BitVec 5) (sz : BitVec 2) (x y : Word) (s1 s2 : State), legalHere s (i d a b sz) = true →
    readX a s = .ok x s1 → readX b s1 = .ok y s2 →
    let n := if sz = 0#2 then 4 else 8
    let s3 := after pin s2
    (x.toNat % n ≠ 0 → Traps (i d a b sz) s .misalignedAccess x) ∧
    (x.toNat % n = 0 → PartStops (i d a b sz) .atomic s s3 x.toNat ∧
      ∀ p, Reachable .atomic s3 [(x.toNat, n)] [p] →
        let s4 := s3.touched [p]
        (readPa s4 s4.mySeed p.pa n = none → Traps (i d a b sz) s .uncorrectableError x) ∧
        ∀ old s5 s6, readPa s4 s4.mySeed p.pa n = some old →
          storeParts s4 [p] [((x.toNat, n), f (8 * n) old y.toNat)] = some s5 →
          writeX d (ret (8 * n) old) (after (request 1 [d.toNat]) s5) = .ok () s6 → Completes (i d a b sz) s s6)

/-- The issuing thread's vector register d receives v. -/
def State.putV (s : State) (d : BitVec 5) (v : VReg) : State := s.setMe (s.me.setV d.toNat v)

/-- Apply an arithmetic effect to elements in ascending order. -/
def eachF (f : Nat → F Nat) : List Nat → F (List Nat)
  | [] => pure []
  | e :: es => do
    let r ← f e
    let rs ← eachF f es
    pure (r :: rs)

/-- The checks of a local access to o, of n bytes aligned to align, in their order (R199): range, alignment, the closed
regions. -/
def LocalStops (i : Instr) (s : State) (k : Core) (o n align : Nat) : Prop :=
  (2 ^ 18 < o + n → Traps i s .localRange (word (o % 2 ^ 18))) ∧
  (o + n ≤ 2 ^ 18 → o % align ≠ 0 → Traps i s .misalignedAccess (word o)) ∧
  (o + n ≤ 2 ^ 18 → o % align = 0 → k.xb + k.xw < o + n → Traps i s .localProtection (word (max o (k.xb + k.xw))))

/-- A local access of n bytes at o passes the checks. -/
def LocalOpen (k : Core) (o n align : Nat) : Prop := o + n ≤ 2 ^ 18 ∧ o % align = 0 ∧ o + n ≤ k.xb + k.xw

/-- The granules g to g + n - 1 have the state asked for, and no thread that waited longer for them is served first. -/
def Served (s : State) (g n : Nat) (full : Bool) : Prop :=
  s.myCore.granulesAre g n full = true ∧ olderWaiter s g n (.granules g n full) = false

/-- A local load with a qualifier (R196, R199): checks, wait, value, and the bits cleared. -/
def LocalLoadDoes (i : BitVec 5 → BitVec 5 → BitVec 3 → BitVec 10 → Instr) (q : Nat) : Prop :=
  ∀ (s : State) (d a : BitVec 5) (sz : BitVec 3) (o : BitVec 10) (x : Word) (s1 : State),
    legalHere s (i d a sz o) = true → readX a s = .ok x s1 →
    let n := [1, 1, 2, 2, 4, 4, 8, 16].getD sz.toNat 0
    let off := (x + o.signExtend 64 * word n).toNat
    let v := Mem.read s1.myCore.lmem off n
    LocalStops (i d a sz o) s s1.myCore off n n ∧
    (LocalOpen s1.myCore off n n →
      (q ≠ 0 → ¬ Served s1 (off / 16) 1 true → Waits (i d a sz o) s (.granules (off / 16) 1 true)) ∧
      ((q ≠ 0 → Served s1 (off / 16) 1 true) →
        let s2 := if q = 2 then after (setFE false (off / 16) 1) s1 else s1
        ∀ s3 s4, writeX d (loadExt sz v) s2 = .ok () s3 →
          (if sz = 7#3 then writeX (d + 1) (word (v / 2 ^ 64)) s3 = .ok () s4 else s4 = s3) → Completes (i d a sz o) s s4))

/-- A local store with a qualifier (R196, R199): checks, wait, bytes stored, and the bits set. -/
def LocalStoreDoes (i : BitVec 5 → BitVec 5 → BitVec 3 → BitVec 10 → Instr) (q : Nat) : Prop :=
  ∀ (s : State) (d a : BitVec 5) (sz : BitVec 3) (o : BitVec 10) (v u x : Word) (s1 s2 s3 : State),
    legalHere s (i d a sz o) = true → readX a s = .ok x s1 → readX d s1 = .ok v s2 →
    (if sz = 7#3 then readX (d + 1) s2 = .ok u s3 else u = 0 ∧ s3 = s2) →
    let n := [1, 1, 2, 2, 4, 4, 8, 16].getD sz.toNat 0
    let off := (x + o.signExtend 64 * word n).toNat
    LocalStops (i d a sz o) s s3.myCore off n n ∧
    (LocalOpen s3.myCore off n n →
      (q = 2 → ¬ Served s3 (off / 16) 1 false → Waits (i d a sz o) s (.granules (off / 16) 1 false)) ∧
      ((q = 2 → Served s3 (off / 16) 1 false) →
        let s4 := after (lWrite off n ((v.toNat + 2 ^ 64 * u.toNat) % 256 ^ n)) s3
        Completes (i d a sz o) s (if q ≠ 0 then after (setFE true (off / 16) 1) s4 else s4)))

/-- The word names t as the address of the next bundle. -/
def State.jump (s : State) (t : Word) : State := { s with issue := { s.issue with next := some t } }

/-- A conditional branch (R287): it names its target exactly when the relation holds, and writes nothing. -/
def BranchDoes (i : BitVec 5 → BitVec 5 → BitVec 15 → Instr) (f : Word → Word → Prop) : Prop :=
  ∀ (s : State) (a b : BitVec 5) (o : BitVec 15) (x y : Word) (s1 s2 : State), legalHere s (i a b o) = true →
    readX a s = .ok x s1 → readX b s1 = .ok y s2 →
    (f x y → Completes (i a b o) s (s2.jump (s.me.pc + 4 * o.signExtend 64))) ∧ (¬ f x y → Completes (i a b o) s s2)

/-- The issuing thread may name state register n: it is listed, not closed to th, and in supervisor code or not of
class S (R369). -/
def SregOpen (s : State) (n : Nat) : Prop :=
  n ∈ [0x000, 0x001, 0x002, 0x003, 0x004, 0x005, 0x006, 0x007, 0x008, 0x010, 0x011, 0x018, 0x019, 0x01A, 0x020, 0x021,
      0x030, 0x031] ∧
    (s.isTh = true → n ∉ [0x005, 0x006, 0x010, 0x011, 0x021, 0x030, 0x031]) ∧ (n = 0x030 ∨ n = 0x031 → s.me.sv = true)

/-- The state registers of class RO (R369). -/
def SregRo (n : Nat) : Prop := n ∈ [0x005, 0x006, 0x008, 0x018, 0x019, 0x01A, 0x020, 0x021]

/-- A writing form of SREG (R371): what is closed or read-only traps; otherwise the register takes f of its old value
and the source, field by field, and the destination receives the old value. -/
def SregWriteDoes (i : BitVec 5 → BitVec 5 → BitVec 12 → Instr) (clr : Bool) (f : Word → Word → Word) : Prop :=
  ∀ (s : State) (d a : BitVec 5) (n : BitVec 12), legalHere s (i d a n) = true →
    (¬ SregOpen s n.toNat ∨ SregRo n.toNat → Traps (i d a n) s .illegalInstruction 0) ∧
    (SregOpen s n.toNat → ¬ SregRo n.toNat → ∀ x old s1 s2, readX a s = .ok x s1 → sregValue s n.toNat = some old →
      writeX d old (s1.setMe (setSreg s1.me n.toNat (sregNext n.toNat old (f old x) x clr))) = .ok () s2 →
      Completes (i d a n) s s2)

/-- The checks of a ring handle (R222 to R224): its reserved bits, its core, the owner where the word acts on the owner
only, and the header it names; it waits for an owner that cannot be reached. -/
def RingStops (i : Instr) (s s1 : State) (h : Word) (own : Bool) : Prop :=
  (handleReserved h = true → Traps i s .operandRange 0) ∧
  (handleReserved h = false → 768 ≤ handleCore h ∨ (own = true ∧ handleCore h ≠ s1.cid) → Traps i s .invalidTarget 0) ∧
  (handleReserved h = false → handleCore h < 768 → (own = true → handleCore h = s1.cid) →
    (s1.away (handleCore h) = true → Waits i s .held) ∧
    (s1.away (handleCore h) = false → ∀ c a, ringFault (s1.core (handleCore h)) (handleHdr h) = some (c, a) → Traps i s c a))

/-- A handle passes the checks. -/
def RingOpen (s : State) (h : Word) (own : Bool) : Prop :=
  handleReserved h = false ∧ handleCore h < 768 ∧ (own = true → handleCore h = s.cid) ∧ s.away (handleCore h) = false ∧
    ringFault (s.core (handleCore h)) (handleHdr h) = none

/-- The target of an exchange store of n bytes is a core of the launch, and its bytes lie in the exchange window (R203). -/
def ExchangeIn (s : State) (x : Word) (n : Nat) : Prop :=
  x.toNat / 2 ^ 28 = 0 ∧ (x.toNat / 2 ^ 18 % 2 ^ 10 < 768 ∧ s.inLaunch (x.toNat / 2 ^ 18 % 2 ^ 10) = true) ∧
    s.myCore.xw ≠ 0 ∧ s.myCore.xb ≤ x.toNat % 2 ^ 18 ∧ x.toNat % 2 ^ 18 + n ≤ s.myCore.xb + s.myCore.xw

/-- What stops an exchange store of n bytes, in the order of its checks (R203); the wait where the target cannot be reached is
the model's (log 96). -/
def ExchangeStops (i : Instr) (s s1 : State) (x : Word) (n align : Nat) : Prop :=
  let c := x.toNat / 2 ^ 18 % 2 ^ 10
  let o := x.toNat % 2 ^ 18
  let hi := s1.myCore.xb + s1.myCore.xw
  (x.toNat / 2 ^ 28 ≠ 0 → Traps i s .operandRange 0) ∧
  (x.toNat / 2 ^ 28 = 0 → (decide (c < 768) && s1.inLaunch c) = false → Traps i s .invalidTarget 0) ∧
  (x.toNat / 2 ^ 28 = 0 → c < 768 → s1.inLaunch c = true →
    ((s1.myCore.xw = 0 ∨ o < s1.myCore.xb) → Traps i s .localProtection (word o)) ∧
    (s1.myCore.xw ≠ 0 → s1.myCore.xb ≤ o → hi < o + n → Traps i s .localProtection (word (max o hi)))) ∧
  (ExchangeIn s1 x n → o % align ≠ 0 → Traps i s .misalignedAccess (word o)) ∧
  (ExchangeIn s1 x n → o % align = 0 → s1.away c = true → Waits i s .held)

/-- The place that the address of a law word names on the issuing core (R181). -/
def lawPlace (s : State) (x : Word) : LawPlace :=
  if x.getLsbD 63 then .local_ s.cid (x.toNat % 2 ^ 18) else .global_ x.toNat

/-- An address of a law word is in range. -/
def LawInRange (x : Word) : Prop := x.getLsbD 63 = true → x.toNat / 2 ^ 18 % 2 ^ 45 = 0

/-- What stops a law operation stops the word: a fault is its trap, or goes to the page-fault
service; a held sector and a full action queue make it wait (R139, R176, R179). -/
def LawStops (i : Instr) (s : State) : LawStop → Prop
  | .fault c a => exec i s = .next (if c = .notPresent then beginAbsent s a 3 false else takeTrap s c a false)
  | .held w => Waits i s w
  | .full => Waits i s .lawQueue

/-- A committing law word (R145, R181): its address, its request entry, the operation performed at the word's home, and
what fin makes of it. -/
def LawDoes (i : Instr) (s s1 : State) (x : Word) (regs : List Nat) (f : LawChange) (fin : LawCell → LawEval → M Unit) : Prop :=
  let s2 := after pin s1
  (¬ LawInRange x → Traps i s .addressRange x) ∧
  (LawInRange x → poolHas s2 1 = false → Waits i s .reg) ∧
  (LawInRange x → poolHas s2 1 = true →
    (∀ e, lawCommit s2 s2.lawWho s2.gates (lawPlace s1 x) f = .error e → LawStops i s e) ∧
    ∀ c e s3 s4, lawCommit s2 s2.lawWho s2.gates (lawPlace s1 x) f = .ok (c, e, s3) →
      fin c e (after (request 1 regs) s3) = .ok () s4 → Completes i s s4)

/-! ### Frames -/

/-- Every byte of global memory, read under any seed, and every local memory but those of the cores listed, is as it
was. -/
def SameMemory (s t : State) (but : List Nat) : Prop :=
  (∀ seed pa, readByte t seed pa = readByte s seed pa) ∧ ∀ c, c ∉ but → (t.core c).lmem = (s.core c).lmem

/-- Of the issuing thread, every scalar register but those listed, every vector and mask register, the streams and the
state registers are as they were. -/
def SameButX (s t : Thread) (ds : List Nat) : Prop :=
  (∀ n, n < 31 → n ∉ ds → t.getX n = s.getX n) ∧ t.v = s.v ∧ t.k = s.k ∧ t.streams = s.streams
    ∧ t.tstat = s.tstat ∧ t.fflags = s.fflags ∧ t.frm = s.frm ∧ t.seed = s.seed ∧ t.fhook = s.fhook
    ∧ t.fframe = s.fframe ∧ t.svec = s.svec ∧ t.sframe = s.sframe ∧ t.taskref = s.taskref ∧ t.rfstat = s.rfstat

/-- The word touches scalar registers only, of those below x31 none but the ones listed: memory, other threads and other
cores, and of its own thread all but the registers, the pushed payload, the pc, the wait and, where it rounds, FFLAGS and
SEED, are as they were; of its activation only the payload still unread may change. -/
def LeavesTheRest (i : Instr) (ds : List Nat) (rounds : Bool) : Prop :=
  ∀ s t : State, exec i s = .next t → t.issue.status = .done →
    t = { s with cores := t.cores, issue := t.issue } ∧ SameMemory s t [] ∧
    (∀ c, c ≠ s.cid → t.core c = s.core c) ∧
    t.myCore = { s.myCore with threads := t.myCore.threads, act := t.myCore.act } ∧
    (∀ a, s.myCore.act = some a → ∃ l, t.myCore.act = some { a with left := l }) ∧
    (∀ u, u ≠ s.tid → t.thread s.cid u = s.thread s.cid u) ∧
    t.me = { s.me with
      x := t.me.x, mo := t.me.mo, pc := t.me.pc, wait := .none, progress := none, fflags := t.me.fflags, seed := t.me.seed } ∧
    (∀ n, n < 31 → n ∉ ds → t.me.getX n = s.me.getX n) ∧ (31 ∉ ds → t.me.mo = s.me.mo) ∧
    (if rounds then s.me.fflags &&& t.me.fflags = s.me.fflags else t.me.fflags = s.me.fflags ∧ t.me.seed = s.me.seed)

/-- Every byte of global memory but those of the ranges listed (first address and length), and every local memory, is as
it was, under whatever seed a byte is read. -/
def SameButBytes (s t : State) (but : List (Nat × Nat)) : Prop :=
  (∀ seed pa, pa < 2 ^ 46 → (∀ r ∈ but, pa < r.1 ∨ r.1 + r.2 ≤ pa) → readByte t seed pa = readByte s seed pa)
    ∧ ∀ c, (t.core c).lmem = (s.core c).lmem

/-- The page-table entry that a translation sets A or D in: eight bytes, when it changes (R97). -/
def Xlat.entryBytes (p : Xlat) : List (Nat × Nat) :=
  match p.update with
  | some (a, _) => [(a, 8)]
  | none => []

/-- A word of two scalar sources reads a, then b, and writes a result that P relates to them, wherever the write of d
is admitted. -/
def BinaryDoes (i : BitVec 5 → BitVec 5 → BitVec 5 → Instr) (P : Word → Word → Word → Prop) : Prop :=
  ∀ (s : State) (d a b : BitVec 5) (x y : Word) (s1 s2 : State), legalHere s (i d a b) = true →
    readX a s = .ok x s1 → readX b s1 = .ok y s2 →
    ∃ r, P x y r ∧ ∀ s3, writeX d r s2 = .ok () s3 → Completes (i d a b) s s3

/-- The same with one scalar source. -/
def UnaryDoes (i : BitVec 5 → BitVec 5 → Instr) (P : Word → Word → Prop) : Prop :=
  ∀ (s : State) (d a : BitVec 5) (x : Word) (s1 : State), legalHere s (i d a) = true → readX a s = .ok x s1 →
    ∃ r, P x r ∧ ∀ s2, writeX d r s1 = .ok () s2 → Completes (i d a) s s2

/-- A scalar floating-point word of two sources: the result and the flags are those of f, which sees the old
destination, the precision, the mode and the sources (R237). -/
def FloatDoes (i : BitVec 5 → BitVec 5 → BitVec 5 → BitVec 2 → Instr) (f : Fmt → Nat → Word → Word → Word → F Nat) :
    Prop :=
  ∀ (s : State) (d a b : BitVec 5) (p : BitVec 2) (x y : Word) (s1 s2 : State) (r : Nat) (e : FpEnv) (s3 : State),
    legalHere s (i d a b p) = true → readX a s = .ok x s1 → readX b s1 = .ok y s2 →
    (f (Fmt.ofPrec p) s.rmode (s.me.getX d.toNat) x y).run ⟨0, s2.me.seed⟩ = (r, e) →
    writeX d (word r) (s2.afterF e) = .ok () s3 → Completes (i d a b p) s s3

/-- The value of the low bits of a register in a format. -/
def lowVal (f : Fmt) (x : Word) : F Val := rdVal f (x.toNat % 2 ^ f.width)

/-- The elements of a vector word's destination after the write policy (R245): those that f computes from the inputs
where the mask is set, in ascending order, and the old ones, or zeros, elsewhere. -/
def lanesOf {α : Type} (s : State) (d : BitVec 5) (w : Nat) (xs : List α) (f : α → F Nat) : F (List Nat) :=
  masked s.vzero f (maskBits (lanes w) s.vmask.toNat) xs (vElems w (s.me.getV d.toNat))

/-- A vector word whose elements are computed by c completes: vd receives them, and FFLAGS and SEED what they leave. -/
def VectorDoes (i : Instr) (s : State) (d : BitVec 5) (w : Nat) (c : F (List Nat)) : Prop :=
  legalHere s i = true → Completes i s (s.vecDone d (vPack w (c.run ⟨0, s.me.seed⟩).1) (c.run ⟨0, s.me.seed⟩).2)

/-- An integer vector word computes element j of vd from the elements j of its sources where the mask is set, keeps or
zeroes the others, and changes nothing else. -/
def LanesDo (i : BitVec 5 → BitVec 5 → BitVec 5 → BitVec 4 → Instr) (f : Nat → Bool → Nat → Nat → Nat) : Prop :=
  ∀ (s : State) (d a b : BitVec 5) (t : BitVec 4), legalHere s (i d a b t) = true →
    ∃ v : VReg, Completes (i d a b t) s (s.setMe (s.me.setV d.toNat v)) ∧
      ∀ j, j < lanes (typeWidth t) → vElem (typeWidth t) v j =
        if s.vmask.getLsbD j then
          f (typeWidth t) (tSigned t) (vElem (typeWidth t) (s.me.getV a.toNat) j) (vElem (typeWidth t) (s.me.getV b.toNat) j)
            % 2 ^ typeWidth t
        else if s.vzero then 0 else vElem (typeWidth t) (s.me.getV d.toNat) j

end Sys2Proof.Machine
end

