-- ==== Sys2Proof/Certificates/Slice0/Obligations.lean ====
section
/-! DEFINITION. The statements for the provers, from the numbered rules of the specification. -/

open Sys2Proof Sys2Proof.Machine

/-- Scalar registers as operands: x0 reads zero and ignores writes, x30 pops the payload, x31 counts and pushes
(R38) -/
def Obligations.ScalarOperandsFollowTheirRoles : Prop :=
  (∀ s : State, readX 0#5 s = .ok 0 s) ∧
  (∀ s : State, readX 31#5 s = .ok (word s.me.mo.length) s) ∧
  (∀ (s : State) (n : BitVec 5), n ≠ 0#5 → n.toNat < 30 → readX n s = .ok (s.me.x.get n.toNat 0) s) ∧
  (∀ (s : State) (act : Activation) (w : Word) (ws : List Word), s.isTh = true → s.myCore.act = some act →
    act.left = w :: ws →
    readX 30#5 s = .ok w (s.setMyCore { s.myCore with act := some { act with left := ws } })) ∧
  (∀ (s : State) (act : Activation), s.isTh = true → s.myCore.act = some act → act.left = [] →
    readX 30#5 s = .error (.trap .messageOverread 0 false) s) ∧
  (∀ s : State, s.isTh = false → readX 30#5 s = .error (.trap .illegalInstruction 0 false) s) ∧
  (∀ (s : State) (v : Word), writeX 0#5 v s = .ok () (s.setMe s.me)) ∧
  (∀ (s : State) (n : BitVec 5) (v : Word), n ≠ 0#5 → n.toNat < 30 →
    writeX n v s = .ok () (s.setMe { s.me with x := s.me.x.set n.toNat v })) ∧
  (∀ (s : State) (v : Word), s.me.mo.length < 31 →
    writeX 31#5 v s = .ok () (s.setMe { s.me with mo := s.me.mo ++ [v] })) ∧
  (∀ (s : State) (v : Word), s.issue.sent = false → 31 ≤ s.me.mo.length →
    writeX 31#5 v s = .error (.trap .messageOverflow 0 false) s) ∧
  (∀ (s : State) (v : Word), writeX 30#5 v s = .error (.trap .illegalInstruction 0 false) s) ∧
  (∀ (s : State) (vc : BitVec 5) (i : Instr), (match i with | .spop .. => False | _ => True) →
    30 ∈ writeSet s.me vc i → legalHere s i = false)

/-- ADD to SLTU, without products' high halves and divisions, complete with the results of the INT table (R231,
R232, R39) -/
def Obligations.IntegerResultsOfTwoSources : Prop :=
  BinaryDoes .add (fun x y r => r.toNat = (x.toNat + y.toNat) % 2 ^ 64) ∧
  BinaryDoes .sub (fun x y r => r.toNat = (x.toNat + 2 ^ 64 - y.toNat) % 2 ^ 64) ∧
  BinaryDoes .and (fun x y r => ∀ i, r.getLsbD i = (x.getLsbD i && y.getLsbD i)) ∧
  BinaryDoes .or (fun x y r => ∀ i, r.getLsbD i = (x.getLsbD i || y.getLsbD i)) ∧
  BinaryDoes .xor (fun x y r => ∀ i, r.getLsbD i = (x.getLsbD i != y.getLsbD i)) ∧
  BinaryDoes .sll (fun x y r => r.toNat = x.toNat * 2 ^ (y.toNat % 64) % 2 ^ 64) ∧
  BinaryDoes .srl (fun x y r => r.toNat = x.toNat / 2 ^ (y.toNat % 64)) ∧
  BinaryDoes .sra (fun x y r => r.toInt = x.toInt / 2 ^ (y.toNat % 64)) ∧
  BinaryDoes .mul (fun x y r => r.toNat = x.toNat * y.toNat % 2 ^ 64) ∧
  BinaryDoes .min (fun x y r => r.toInt = min x.toInt y.toInt) ∧
  BinaryDoes .max (fun x y r => r.toInt = max x.toInt y.toInt) ∧
  BinaryDoes .minu (fun x y r => r.toNat = min x.toNat y.toNat) ∧
  BinaryDoes .maxu (fun x y r => r.toNat = max x.toNat y.toNat) ∧
  BinaryDoes .slt (fun x y r => r = if x.toInt < y.toInt then 1 else 0) ∧
  BinaryDoes .sltu (fun x y r => r = if x.toNat < y.toNat then 1 else 0)

/-- MULH, MULHU, the divisions, SEL and the bit counts give the mathematical results of the INT table (R231, R232,
R55) -/
def Obligations.IntegerDivisionHighProductsAndCounts : Prop :=
  BinaryDoes .mulh (fun x y r => r.toInt * 2 ^ 64 + (x * y).toNat = x.toInt * y.toInt) ∧
  BinaryDoes .mulhu (fun x y r => r.toNat * 2 ^ 64 + (x * y).toNat = x.toNat * y.toNat) ∧
  BinaryDoes .div (fun x y r =>
    if y = 0 then r = BitVec.allOnes 64
    else if x.toInt = -2 ^ 63 ∧ y.toInt = -1 then r = x
    else r.toInt = x.toInt.tdiv y.toInt) ∧
  BinaryDoes .divu (fun x y r => if y = 0 then r = BitVec.allOnes 64 else r.toNat = x.toNat / y.toNat) ∧
  BinaryDoes .rem (fun x y r => if y = 0 then r = x else r.toInt = x.toInt - y.toInt * x.toInt.tdiv y.toInt) ∧
  BinaryDoes .remu (fun x y r => if y = 0 then r = x else r.toNat = x.toNat % y.toNat) ∧
  UnaryDoes .clz (fun x r =>
    (x = 0 ∧ r = 64) ∨ ∃ n, n < 64 ∧ r = word (63 - n) ∧ x.getLsbD n = true ∧ ∀ i, n < i → x.getLsbD i = false) ∧
  UnaryDoes .ctz (fun x r =>
    (x = 0 ∧ r = 64) ∨ ∃ n, n < 64 ∧ r = word n ∧ x.getLsbD n = true ∧ ∀ i, i < n → x.getLsbD i = false) ∧
  UnaryDoes .popc (fun x r => r.toNat = (List.range 64).countP fun i => x.getLsbD i) ∧
  (∀ (s : State) (d a b : BitVec 5) (x y : Word) (s1 s2 s3 : State), legalHere s (.sel d a b) = true →
    readX a s = .ok x s1 → readX b s1 = .ok y s2 →
    writeX d (if s.me.getX d.toNat ≠ 0 then x else y) s2 = .ok () s3 → Completes (.sel d a b) s s3)

/-- ADDI to SLTIU, the immediate shifts and LUI complete with the results of their tables (R233, R234, R235) -/
def Obligations.ImmediateIntegerResults : Prop :=
  (∀ i : BitVec 15,
    UnaryDoes (.addi · · i) (fun x r => r = x + i.signExtend 64) ∧
    UnaryDoes (.andi · · i) (fun x r => r = x &&& i.signExtend 64) ∧
    UnaryDoes (.ori · · i) (fun x r => r = x ||| i.signExtend 64) ∧
    UnaryDoes (.xori · · i) (fun x r => r = x ^^^ i.signExtend 64) ∧
    UnaryDoes (.slti · · i) (fun x r => r = if x.toInt < i.toInt then 1 else 0) ∧
    UnaryDoes (.sltiu · · i) (fun x r => r = if x.toNat < (i.signExtend 64).toNat then 1 else 0)) ∧
  (∀ n : BitVec 6,
    UnaryDoes (.slli · · n) (fun x r => r.toNat = x.toNat * 2 ^ n.toNat % 2 ^ 64) ∧
    UnaryDoes (.srli · · n) (fun x r => r.toNat = x.toNat / 2 ^ n.toNat) ∧
    UnaryDoes (.srai · · n) (fun x r => r.toInt = x.toInt / 2 ^ n.toNat)) ∧
  (∀ (s : State) (d : BitVec 5) (i : BitVec 20) (s1 : State), legalHere s (.lui d i) = true →
    writeX d (sext (i.toNat * 2 ^ 12) 32) s = .ok () s1 → Completes (.lui d i) s s1) ∧
  (∀ (l : BitVec 1) (d a : BitVec 5) (i : BitVec 15),
    encode l (.addi d a i) = some (l ++ 0x21#6 ++ d ++ a ++ i) ∧ encode l (.andi d a i) = some (l ++ 0x22#6 ++ d ++ a ++ i) ∧
    encode l (.ori d a i) = some (l ++ 0x23#6 ++ d ++ a ++ i) ∧ encode l (.xori d a i) = some (l ++ 0x24#6 ++ d ++ a ++ i) ∧
    encode l (.slti d a i) = some (l ++ 0x26#6 ++ d ++ a ++ i) ∧ encode l (.sltiu d a i) = some (l ++ 0x27#6 ++ d ++ a ++ i))

/-- The scalar floating-point words complete with one rounding of the exact result, or the relation, class, sign or
conversion (R236, R237, R67, R80, R70, R238, R239, R240, R241, R75, R77) -/
def Obligations.ScalarFloatWords : Prop :=
  (FloatDoes .fadd (fun f m _ x y => do roundTo f m (← sumVals m [← lowVal f x, ← lowVal f y])) ∧
  FloatDoes .fsub (fun f m _ x y => do
    let u ← lowVal f x
    let v ← lowVal f y
    roundTo f m (← sumVals m [u, v.neg])) ∧
  FloatDoes .fmul (fun f m _ x y => do roundTo f m (← mulVal (← lowVal f x) (← lowVal f y))) ∧
  FloatDoes .fdiv (fun f m _ x y => do roundTo f m (← divVal (← lowVal f x) (← lowVal f y))) ∧
  (∀ (s : State) (d a : BitVec 5) (p : BitVec 2) (x : Word) (s1 : State) (r : Nat) (e : FpEnv) (s2 : State),
    legalHere s (.fsqrt d a p) = true → readX a s = .ok x s1 →
    (do roundTo (Fmt.ofPrec p) s.rmode (← sqrtVal (← lowVal (Fmt.ofPrec p) x)) : F Nat).run ⟨0, s1.me.seed⟩ = (r, e) →
    writeX d (word r) (s1.afterF e) = .ok () s2 → Completes (.fsqrt d a p) s s2) ∧
  FloatDoes .fma (fun f m old x y => do
    let u ← lowVal f x
    let v ← lowVal f y
    let c ← lowVal f old
    roundTo f m (← sumVals m [← mulVal u v, c])) ∧
  FloatDoes .fmin (fun f _ _ x y => (minMax f false (x.toNat % 2 ^ f.width) (y.toNat % 2 ^ f.width))) ∧
  FloatDoes .fmax (fun f _ _ x y => (minMax f true (x.toNat % 2 ^ f.width) (y.toNat % 2 ^ f.width)))) ∧
  (FloatDoes .fcmp (fun f _ _ x y => do
    let u ← lowVal f x
    let v ← lowVal f y
    return if u.isNan || v.isNan then 8 else if cmpVal u v < 0 then 1 else if cmpVal u v = 0 then 2 else 4) ∧
  (∀ (s : State) (d a : BitVec 5) (p : BitVec 2) (x : Word) (s1 s2 : State), legalHere s (.fclass d a p) = true →
    readX a s = .ok x s1 →
    writeX d (word (fclass (Fmt.ofPrec p) (x.toNat % 2 ^ (Fmt.ofPrec p).width))) s1 = .ok () s2 →
    Completes (.fclass d a p) s s2) ∧
  (∀ (f : Fmt) (b : Nat), ∃ i, i < 10 ∧ fclass f b = 2 ^ i) ∧
  FloatDoes .fsgn (fun f _ _ x y => do
    let u ← lowVal f x
    return if u.isNan then f.canon
      else x.toNat % 2 ^ (f.width - 1) + y.toNat % 2 ^ f.width / 2 ^ (f.width - 1) * 2 ^ (f.width - 1)) ∧
  (∀ (s : State) (d a k : BitVec 5) (p : BitVec 2) (x : Word) (s1 : State) (r : Word) (e : FpEnv) (s2 : State),
    legalHere s (.fcvt d a k p) = true → readX a s = .ok x s1 → (fcvt k p s.rmode x).run ⟨0, s1.me.seed⟩ = (r, e) →
    writeX d r (s1.afterF e) = .ok () s2 → Completes (.fcvt d a k p) s s2))

/-- Every NaN that rounding to a scalar format delivers is the canonical quiet NaN of the format (R65) -/
def Obligations.NanResultsAreCanonical : Prop :=
  (∀ (p : BitVec 2) (mode : Nat) (v : Val) (e : FpEnv),
    ((roundTo (Fmt.ofPrec p) mode v).run e).1 < 2 ^ (Fmt.ofPrec p).width ∧
    (((Fmt.ofPrec p).decode ((roundTo (Fmt.ofPrec p) mode v).run e).1).isNan = true →
      ((roundTo (Fmt.ofPrec p) mode v).run e).1 = (Fmt.ofPrec p).canon)) ∧
  Fmt.fp64.canon = 0x7FF8000000000000 ∧ Fmt.fp32.canon = 0x7FC00000 ∧ Fmt.fp16.canon = 0x7E00 ∧
  Fmt.bf16.canon = 0x7FC0 ∧ Fmt.fp8e4.canon = 0x7F ∧ Fmt.fp8e5.canon = 0x7E

/-- A rounding under SR advances SEED by one xorshift step, whatever its value; under any other mode SEED stays
(R70, R72, R73) -/
def Obligations.SeedAdvancesOncePerRounding : Prop :=
  ∀ (f : Fmt) (mode : Nat) (sat : Bool) (v : Val) (e : FpEnv),
    ((roundSat f mode sat v).run e).2.seed = (if mode = 5 then
      (let x := if e.seed = 0 then 0x9E3779B97F4A7C15#64 else e.seed
       let y := x ^^^ (x <<< 13)
       let z := y ^^^ (y >>> 7)
       z ^^^ (z <<< 17)) else e.seed) ∧
    ((roundSat f mode sat v).run e).2.flags ||| e.flags = ((roundSat f mode sat v).run e).2.flags

/-- VADD to VSRA compute every active lane as the table says, keep or zero the others, and change nothing else
(R242, R244, R245, R248) -/
def Obligations.IntegerVectorLanes : Prop :=
  LanesDo .vadd (fun _ _ x y => x + y) ∧
  LanesDo .vsub (fun w _ x y => x + 2 ^ w - y) ∧
  LanesDo .vmul (fun _ _ x y => x * y) ∧
  LanesDo .vmulh (fun w sg x y => (readInt w sg x * readInt w sg y / 2 ^ w % 2 ^ w).toNat) ∧
  LanesDo .vmin (fun w sg x y => if readInt w sg x < readInt w sg y then x else y) ∧
  LanesDo .vmax (fun w sg x y => if readInt w sg x < readInt w sg y then y else x) ∧
  LanesDo .vand (fun _ _ x y => x &&& y) ∧
  LanesDo .vor (fun _ _ x y => x ||| y) ∧
  LanesDo .vxor (fun _ _ x y => x ^^^ y) ∧
  LanesDo .vshl (fun w _ x y => x * 2 ^ (y % w)) ∧
  LanesDo .vshr (fun w _ x y => x / 2 ^ (y % w)) ∧
  LanesDo .vsra (fun w sg x y => (readInt w sg x / 2 ^ (y % w) % 2 ^ w).toNat)

/-- VABS, VADDS, VCMP and VSEL complete with magnitudes, clamped sums with SAT, relation masks and selections (R248,
R249, R250, R56) -/
def Obligations.IntegerVectorSelectsComparesAndClamps : Prop :=
  (∀ (s : State) (d a : BitVec 5) (t : BitVec 4), VectorDoes (.vabs d a t) s d (typeWidth t)
    (lanesOf s d (typeWidth t) (vElems (typeWidth t) (s.me.getV a.toNat)) fun x =>
      pure (((readInt (typeWidth t) (tSigned t) x).natAbs : Int) % 2 ^ typeWidth t).toNat)) ∧
  (∀ (s : State) (d a b : BitVec 5) (t : BitVec 4), VectorDoes (.vadds d a b t) s d (typeWidth t)
    (lanesOf s d (typeWidth t)
      ((vElems (typeWidth t) (s.me.getV a.toNat)).zip (vElems (typeWidth t) (s.me.getV b.toNat))) fun p =>
      clampInt (typeWidth t) (tSigned t)
        (readInt (typeWidth t) (tSigned t) p.1 + readInt (typeWidth t) (tSigned t) p.2))) ∧
  (∀ (s : State) (c : BitVec 2) (k : BitVec 3) (a b : BitVec 5) (t : BitVec 4),
    legalHere s (.vcmp c k a b t) = true → ∃ m : MReg,
      Completes (.vcmp c k a b t) s (s.setMe (s.me.setK k.toNat m)) ∧
      (∀ j, j < lanes (typeWidth t) → m.getLsbD j =
        if s.vmask.getLsbD j then
          (let x := readInt (typeWidth t) (tSigned t) (vElem (typeWidth t) (s.me.getV a.toNat) j)
           let y := readInt (typeWidth t) (tSigned t) (vElem (typeWidth t) (s.me.getV b.toNat) j)
           match c.toNat with
           | 0 => decide (x = y)
           | 1 => decide (x ≠ y)
           | 2 => decide (x < y)
           | _ => decide (x ≤ y))
        else !s.vzero && (s.me.getK k.toNat).getLsbD j) ∧
      ∀ j, lanes (typeWidth t) ≤ j → j < 1024 → m.getLsbD j = (s.me.getK k.toNat).getLsbD j) ∧
  (∀ (s : State) (d a b : BitVec 5) (t : BitVec 4), legalHere s (.vsel d a b t) = true → ∃ v : VReg,
    Completes (.vsel d a b t) s (s.setMe (s.me.setV d.toNat v)) ∧
    ∀ j, j < lanes (typeWidth t) → vElem (typeWidth t) v j =
      if s.vmask.getLsbD j then vElem (typeWidth t) (s.me.getV a.toNat) j
      else vElem (typeWidth t) (s.me.getV b.toNat) j)

/-- The write policy: element j is computed in its turn where the mask is set, else kept or zeroed, and inactive
elements do nothing (R245) -/
def Obligations.ActiveElementsInAscendingOrder : Prop :=
  (∀ (z : Bool) (f : Nat → F Nat) (bs : List Bool) (xs os : List Nat) (e : FpEnv) (j : Nat) (b : Bool) (x o : Nat),
    bs[j]? = some b → xs[j]? = some x → os[j]? = some o →
    ((masked z f bs xs os).run e).1[j]? =
      some (if b then ((f x).run ((masked z f (bs.take j) xs os).run e).2).1 else if z then 0 else o)) ∧
  (∀ (z : Bool) (f : Nat → F Nat) (bs : List Bool) (xs os : List Nat) (e : FpEnv) (j : Nat), bs[j]? = some false →
    ((masked z f (bs.take (j + 1)) xs os).run e).2 = ((masked z f (bs.take j) xs os).run e).2)

/-- The VFP and VSFU words complete: each active element is the exact result rounded once, in ascending order (R251,
R252, R253, R254, R79, R80, R265) -/
def Obligations.VectorFloatArithmetic : Prop :=
  (∀ (s : State) (d a b : BitVec 5) (t : BitVec 4),
    let w := typeWidth t
    let f := Fmt.ofType t
    let ps := (vElems w (s.me.getV a.toNat)).zip (vElems w (s.me.getV b.toNat))
    VectorDoes (.vfadd d a b t) s d w (lanesOf s d w ps fun p => do
      roundTo f s.rmode (← sumVals s.rmode [← rdVal f p.1, ← rdVal f p.2])) ∧
    VectorDoes (.vfsub d a b t) s d w (lanesOf s d w ps fun p => do
      let u ← rdVal f p.1
      let v ← rdVal f p.2
      roundTo f s.rmode (← sumVals s.rmode [u, v.neg])) ∧
    VectorDoes (.vfmul d a b t) s d w (lanesOf s d w ps fun p => do
      roundTo f s.rmode (← mulVal (← rdVal f p.1) (← rdVal f p.2))) ∧
    VectorDoes (.vfmin d a b t) s d w (lanesOf s d w ps fun p => minMax f false p.1 p.2) ∧
    VectorDoes (.vfmax d a b t) s d w (lanesOf s d w ps fun p => minMax f true p.1 p.2) ∧
    VectorDoes (.vfma d a b t) s d w
      (lanesOf s d w ((vElems w (s.me.getV a.toNat)).zip ((vElems w (s.me.getV b.toNat)).zip
        (vElems w (s.me.getV (s.addend d).toNat)))) fun p => do
        let u ← rdVal f p.1
        let v ← rdVal f p.2.1
        let c ← rdVal f p.2.2
        roundTo f s.rmode (← sumVals s.rmode [← mulVal u v, c])) ∧
    VectorDoes (.vfdot d a b t) s d 32
      (lanesOf s d 32 ((pieces (32 / w) 128 ps).zip (vElems 32 (s.me.getV (s.addend d).toNat))) fun p => do
        let ts ← dotTerms f p.1
        let c ← rdVal .fp32 p.2
        roundTo .fp32 s.rmode (← sumVals s.rmode (c :: ts)))) ∧
  (∀ (s : State) (d a : BitVec 5) (t : BitVec 4),
    let w := typeWidth t
    let f := Fmt.ofType t
    let xs := vElems w (s.me.getV a.toNat)
    let sf := fun (g : Val → F Val) => lanesOf s d w xs fun x => do roundTo f s.rmode (← g (← rdVal f x))
    VectorDoes (.vfabs d a t) s d w (lanesOf s d w xs fun x => do
      let v ← rdVal f x
      return if v.isNan then f.canon else x % 2 ^ (f.width - 1)) ∧
    VectorDoes (.vexp2 d a t) s d w (sf sfuExp2) ∧
    VectorDoes (.vlog2 d a t) s d w (sf sfuLog2) ∧
    VectorDoes (.vrcp d a t) s d w (sf sfuRcp) ∧
    VectorDoes (.vrsqrt d a t) s d w (sf sfuRsqrt) ∧
    VectorDoes (.vsin d a t) s d w (sf sfuSin) ∧
    VectorDoes (.vtanh d a t) s d w (sf sfuTanh) ∧
    VectorDoes (.vsigm d a t) s d w (sf sfuSigm)) ∧
  (∀ (s : State) (c : BitVec 2) (k : BitVec 3) (a b : BitVec 5) (t : BitVec 4) (r : List Nat) (e : FpEnv),
    legalHere s (.vfcmp c k a b t) = true →
    (masked s.vzero (fun p => do
        let m ← relate (Fmt.ofType t) p.1 p.2
        return boolNat (match c.toNat with
          | 0 => m == 2
          | 1 => m == 1
          | 2 => m == 1 || m == 2
          | _ => m == 8))
      (maskBits (lanes (typeWidth t)) s.vmask.toNat)
      ((vElems (typeWidth t) (s.me.getV a.toNat)).zip (vElems (typeWidth t) (s.me.getV b.toNat)))
      (elems 1 (lanes (typeWidth t)) (s.me.getK k.toNat).toNat)).run ⟨0, s.me.seed⟩ = (r, e) →
    Completes (.vfcmp c k a b t) s
      (after (putMask k.toNat (lanes (typeWidth t)) r) (s.afterF e)))

/-- VBCAST, VPERM, VSLIDE, VIOTA, VCOMPRESS, VEXPAND, VZIP, VMVX, VMVS and VMOV complete with the elements they name
(R259, R260, R261, R264, R267) -/
def Obligations.MovesPermutationsAndIndices : Prop :=
  (∀ (s : State) (d a b : BitVec 5) (t : BitVec 4) (j : Word) (s1 : State),
    let w := typeWidth t
    let x := s.me.getV a.toNat
    readX b s = .ok j s1 →
    (legalHere s (.vbcast d a b t) = true →
      Completes (.vbcast d a b t) s (after (vecMap d w (List.replicate (lanes w) (pick w x j.toNat)) pure) s1)) ∧
    (legalHere s (.vslide d a b t) = true →
      Completes (.vslide d a b t) s (after (vecMap d w (List.range (lanes w)) fun i =>
        pure (if (i : Int) + j.toInt < 0 then 0 else pick w x ((i : Int) + j.toInt).toNat)) s1)) ∧
    (∀ s2, legalHere s (.vmvs d a b t) = true →
      writeX d (if tSigned t then sext (pick w x j.toNat) w else word (pick w x j.toNat)) s1 = .ok () s2 →
      Completes (.vmvs d a b t) s s2)) ∧
  (∀ (s : State) (d a b : BitVec 5) (t : BitVec 4),
    let w := typeWidth t
    VectorDoes (.vperm d a b t) s d w
      (lanesOf s d w ((groupElems s.me 16 b.toNat (Nat.max 1 (16 / w))).take (lanes w)) fun j =>
        pure (pick w (s.me.getV a.toNat) j)) ∧
    (∀ r e, legalHere s (.vzip d a b t) = true →
      (masked s.vzero pure (maskBits (2 * lanes w) s.vmask.toNat)
        (interleave (vElems w (s.me.getV a.toNat)) (vElems w (s.me.getV b.toNat))) (groupElems s.me w d.toNat 2)).run
          ⟨0, s.me.seed⟩ = (r, e) →
      Completes (.vzip d a b t) s ((s.afterF e).setMe (writeGroup w d.toNat 2 r (s.afterF e).me)))) ∧
  (∀ (s : State) (d a : BitVec 5) (t : BitVec 4),
    let w := typeWidth t
    let x := s.me.getV a.toNat
    let old := vElems w (s.me.getV d.toNat)
    VectorDoes (.vmov d a t) s d w (lanesOf s d w (vElems w x) pure) ∧
    (legalHere s (.vcompress d a t) = true →
      Completes (.vcompress d a t) s (s.setMe (s.me.setV d.toNat (vPack w
        (packInto s.vzero (active (maskBits (lanes w) s.vmask.toNat) (vElems w x)) old))))) ∧
    (legalHere s (.vexpand d a t) = true →
      Completes (.vexpand d a t) s (s.setMe (s.me.setV d.toNat (vPack w
        (spread s.vzero (maskBits (lanes w) s.vmask.toNat) old (vElems w x)))))) ∧
    (∀ (y : Word) (s1 : State), readX a s = .ok y s1 →
      (legalHere s (.viota d a t) = true →
        Completes (.viota d a t) s (after (vecMap d w (List.range (lanes w)) fun i =>
          pure ((y.toNat + i) % 2 ^ w)) s1)) ∧
      (legalHere s (.vmvx d a t) = true →
        Completes (.vmvx d a t) s (after (vecMap d w (List.replicate (lanes w) (y.toNat % 2 ^ w)) pure) s1))))

/-- VCVT, VQUANT and VDEQ complete with the converted groups and the block scales (R255, R256, R257, R258, R61) -/
def Obligations.ConversionsAndBlockScales : Prop :=
  (∀ (s : State) (d a : BitVec 5) (x : BitVec 1) (e t : BitVec 4) (r : List Nat) (v : FpEnv),
    let wd := typeWidth t
    let n := 4096 / Nat.min wd (typeWidth e)
    let src := (groupElems s.me (typeWidth e) a.toNat (cvtGroups t e).2).take n
    let old := groupElems s.me wd d.toNat (cvtGroups t e).1
    let bits := maskBits n s.vmask.toNat
    (legalHere s (.vcvt d a x e t) = true →
      (masked s.vzero (cvtElem t e (x == 1#1) s.rmode) bits src old).run ⟨0, s.me.seed⟩ = (r, v) →
      Completes (.vcvt d a x e t) s
        ((s.afterF v).setMe (writeGroup wd d.toNat (cvtGroups t e).1 r (s.afterF v).me))) ∧
    (legalHere s (.vdeq d a x e t) = true →
      (masked s.vzero (fun (p : Nat × Nat) => do
          let u ← rdVal (Fmt.ofType e) p.1
          roundSat (Fmt.ofType t) s.rmode (x == 1#1)
            (if p.2 = 255 then .nan false else u.shift ((p.2 : Int) - 127)))
        bits (src.zip ((vElems 8 (s.me.getV (s.addend d).toNat)).flatMap fun c => List.replicate 32 c)) old).run
          ⟨0, s.me.seed⟩ = (r, v) →
      Completes (.vdeq d a x e t) s
        ((s.afterF v).setMe (writeGroup wd d.toNat (cvtGroups t e).1 r (s.afterF v).me)))) ∧
  (∀ (s : State) (d a : BitVec 5) (x : BitVec 1) (e t : BitVec 4) (scales r : List Nat) (u v : FpEnv),
    let w := typeWidth t
    let n := lanes w
    let src := (groupElems s.me (typeWidth e) a.toNat (cvtGroups t e).2).take (4096 / Nat.min w (typeWidth e))
    let bytes := vElems 8 (s.me.getV (s.addend d).toNat)
    let bits := maskBits n s.vmask.toNat
    let s1 := (s.afterF u).setMe ((s.afterF u).me.setV (s.addend d).toNat (vPack 8 (scales ++ bytes.drop (n / 32))))
    legalHere s (.vquant d a x e t) = true → s.addend d ≠ d →
    (quantScales t e ((pieces 32 (n / 32) bits).zip (pieces 32 (n / 32) src)) bytes).run ⟨0, s.me.seed⟩ = (scales, u) →
    (masked s.vzero (fun (p : Nat × Nat) => do
        let k ← rdVal (Fmt.ofType e) p.1
        roundSat (Fmt.ofType t) s.rmode (x == 1#1) (if p.2 = 255 then .nan false else k.shift (127 - (p.2 : Int))))
      bits (src.zip (scales.flatMap fun c => List.replicate 32 c)) (vElems w (s.me.getV d.toNat))).run
        ⟨0, s1.me.seed⟩ = (r, v) →
    Completes (.vquant d a x e t) s ((s1.afterF v).setMe ((s1.afterF v).me.setV d.toNat (vPack w r)))) ∧
  (∀ (s : State) (d a : BitVec 5) (x : BitVec 1) (e t : BitVec 4) (r : VReg) (v : FpEnv),
    let n := lanes (typeWidth t)
    let src := (groupElems s.me (typeWidth e) a.toNat (cvtGroups t e).2).take (4096 / Nat.min (typeWidth t) (typeWidth e))
    legalHere s (.vquant d a x e t) = true → s.addend d = d →
    (quantInPlace t e (fun p => do
        let k ← rdVal (Fmt.ofType e) p.1
        roundSat (Fmt.ofType t) s.rmode (x == 1#1) (if p.2 = 255 then .nan false else k.shift (127 - (p.2 : Int))))
      s.vzero (vElems 8 (s.me.getV d.toNat)) 0 ((pieces 32 (n / 32) (maskBits n s.vmask.toNat)).zip (pieces 32 (n / 32) src)) (s.me.getV d.toNat)).run
        ⟨0, s.me.seed⟩ = (r, v) →
    Completes (.vquant d a x e t) s (s.vecDone d r v)) ∧
  (∀ (t e : BitVec 4) (f : Nat × Nat → F Nat) (z : Bool) (bytes : List Nat) (b : Nat) (m : List Bool) (xs : List Nat)
      (ps : List (List Bool × List Nat)) (v : VReg),
    quantInPlace t e f z bytes b [] v = pure v ∧
    quantInPlace t e f z bytes b ((m, xs) :: ps) v = (do
      let c ← blockScale t e (active m xs)
      let x := Nat.max (bytes.getD b 0) c
      let old := vElems (typeWidth t) (vPack 8 ((vElems 8 v).set b x))
      let r ← masked z f m (xs.map fun k => (k, x)) ((old.drop (32 * b)).take 32)
      quantInPlace t e f z bytes (b + 1) ps (vPack (typeWidth t) (old.take (32 * b) ++ r ++ old.drop (32 * (b + 1))))))

/-- VRED, VSCAN and VTOPK complete with the reduction, the prefixes and the mask of the largest magnitudes, and what
each of these is (R262, R263, R81) -/
def Obligations.ReductionsScansAndChoices : Prop :=
  (∀ (s : State) (d a o : BitVec 5) (t : BitVec 4),
    let w := typeWidth t
    let bits := maskBits (lanes w) s.vmask.toNat
    let xs := vElems w (s.me.getV a.toNat)
    let old := s.me.getV d.toNat
    (∀ r e, legalHere s (.vred d a o t) = true → (reduce o.toNat t s.rmode bits xs).run ⟨0, s.me.seed⟩ = (r, e) →
      Completes (.vred d a o t) s
        (s.vecDone d (BitVec.ofNat 4096 ((if s.vzero then 0 else old.toNat / 2 ^ w * 2 ^ w) + r)) e)) ∧
    VectorDoes (.vscan d a o t) s d w (scan o.toNat t s.rmode s.vzero none bits xs (vElems w old))) ∧
  (∀ (s : State) (k : BitVec 3) (a b : BitVec 5) (t : BitVec 4) (n : Word) (s1 : State),
    legalHere s (.vtopk k a b t) = true → readX b s = .ok n s1 →
    let chosen := topMask t n.toNat (maskBits (lanes (typeWidth t)) s.vmask.toNat)
      (vElems (typeWidth t) (s.me.getV a.toNat))
    ∃ m : MReg, Completes (.vtopk k a b t) s (s1.setMe (s1.me.setK k.toNat m)) ∧
      ∀ j, j < 1024 → m.getLsbD j = if j < lanes (typeWidth t) then decide (chosen[j]? = some 1) else (s.me.getK k.toNat).getLsbD j) ∧
  (∀ (o : Nat) (t : BitVec 4) (mode : Nat) (m : List Bool) (xs : List Nat),
    let w := typeWidth t
    let f := Fmt.ofType t
    let act := active m xs
    let val := readInt w (tSigned t)
    (act = [] → reduce o t mode m xs = pure (
      if tFloat t then (if o = 0 ∨ t = 9#4 then 0 else f.canon)
      else if o = 1 then (if tSigned t then 2 ^ (w - 1) - 1 else 2 ^ w - 1)
      else if o = 2 then (if tSigned t then 2 ^ (w - 1) else 0)
      else if o = 3 then 2 ^ w - 1 else 0)) ∧
    (∀ x, act = [x] → reduce o t mode m xs =
      if tFloat t then (do
        let v ← rdVal f x
        return if v.isNan then f.canon else x) else pure x) ∧
    (∀ x y zs, act = x :: y :: zs → (∀ z ∈ act, z < 2 ^ w) →
      (tFloat t = false → ∃ r, reduce o t mode m xs = pure r ∧
        (o = 0 → r = act.sum % 2 ^ w) ∧
        (o = 1 → r ∈ act ∧ ∀ z ∈ act, val r ≤ val z) ∧
        (o = 2 → r ∈ act ∧ ∀ z ∈ act, val z ≤ val r) ∧
        (o = 3 → ∀ j, r.testBit j = act.all (·.testBit j)) ∧
        (o = 4 → ∀ j, r.testBit j = act.any (·.testBit j)) ∧
        (o = 5 → ∀ j, r.testBit j = (act.countP (·.testBit j) % 2 == 1))) ∧
      (tFloat t = true → o = 0 → reduce o t mode m xs = (do
        let r ← tree f mode (lanes w).log2 ((m.zip xs).map fun p => if p.1 then some p.2 else none)
        return r.getD 0)) ∧
      (tFloat t = true → o = 1 ∨ o = 2 → reduce o t mode m xs = (y :: zs).foldlM (minMax f (o == 2)) x))) ∧
  (∀ (f : Fmt) (mode n x y : Nat) (a : Option Nat) (l : List (Option Nat)),
    tree f mode 0 l = pure (l.headD none) ∧ tree f mode (n + 1) l = (do tree f mode n (← treeLevel f mode l)) ∧
    treeLevel f mode (none :: a :: l) = (do return a :: (← treeLevel f mode l)) ∧
    treeLevel f mode (a :: none :: l) = (do return a :: (← treeLevel f mode l)) ∧
    treeLevel f mode (some x :: some y :: l) = (do
      let u ← rdVal f x
      let v ← rdVal f y
      let p ← roundTo f mode (← sumVals mode [u, v])
      return some p :: (← treeLevel f mode l)) ∧ treeLevel f mode [] = pure []) ∧
  (∀ (o : Nat) (t : BitVec 4) (mode : Nat) (z : Bool) (m : List Bool) (xs old : List Nat) (e : FpEnv) (j : Nat) (b : Bool)
      (q : Nat), m.length = xs.length → m.length = old.length → m[j]? = some b → old[j]? = some q →
    ((scan o t mode z none m xs old).run e).1[j]? = some (
      if b then ((match active (m.take (j + 1)) xs with
        | x :: ys => (do
            let v ← if tFloat t then (do
              let u ← rdVal (Fmt.ofType t) x
              return if u.isNan then (Fmt.ofType t).canon else x) else pure x
            ys.foldlM (redOp o t mode) v : F Nat)
        | [] => pure q).run e).1
      else if z then 0 else q)) ∧
  (∀ (o : Nat) (t : BitVec 4) (mode x y : Nat),
    let w := typeWidth t
    let f := Fmt.ofType t
    let less := readInt w (tSigned t) x < readInt w (tSigned t) y
    (tFloat t = true → redOp o t mode x y = if o = 0 then (do
        let u ← rdVal f x
        let v ← rdVal f y
        roundTo f mode (← sumVals mode [u, v])) else minMax f (o != 1) x y) ∧
    (tFloat t = false → redOp o t mode x y = pure (
      if o = 0 then (x + y) % 2 ^ w else if o = 1 then (if less then x else y) else if o = 2 then (if less then y else x)
      else if o = 3 then x &&& y else if o = 4 then x ||| y else x ^^^ y))) ∧
  (∀ (t : BitVec 4) (k : Nat) (m : List Bool) (xs : List Nat) (i : Nat), m.length = xs.length →
    (∀ x ∈ xs, x < 2 ^ typeWidth t) → i < xs.length →
    let w := typeWidth t
    let key := fun (j : Nat) =>
      if tFloat t then (if ((Fmt.ofType t).decode (xs.getD j 0)).isNan then 0 else xs.getD j 0 % 2 ^ (w - 1) + 1)
      else (readInt w (tSigned t) (xs.getD j 0)).natAbs + 1
    let before := (List.range xs.length).countP fun j =>
      m.getD j false && (decide (key i < key j) || (key j == key i && decide (j < i)))
    (topMask t k m xs)[i]? = some (if m.getD i false = true ∧ before < k then 1 else 0))

/-- KAND, KOR, KXOR, KNOT and KMOV complete under the write mask, and KPOPC and KFIRST with the count and the first
set bit (R266, R245) -/
def Obligations.MaskRegisterWords : Prop :=
  (∀ (s : State) (d a b : BitVec 5),
    let put := fun (r : MReg) => s.setMe (s.me.setK d.toNat
      ((r &&& s.vmask) ||| (if s.vzero then 0 else s.me.getK d.toNat &&& ~~~ s.vmask)))
    (legalHere s (.kand d a b) = true → Completes (.kand d a b) s (put (s.me.getK a.toNat &&& s.me.getK b.toNat))) ∧
    (legalHere s (.kor d a b) = true → Completes (.kor d a b) s (put (s.me.getK a.toNat ||| s.me.getK b.toNat))) ∧
    (legalHere s (.kxor d a b) = true → Completes (.kxor d a b) s (put (s.me.getK a.toNat ^^^ s.me.getK b.toNat))) ∧
    (legalHere s (.knot d a) = true → Completes (.knot d a) s (put (~~~ s.me.getK a.toNat))) ∧
    (legalHere s (.kmov d a 0#5) = true → Completes (.kmov d a 0#5) s (put (s.me.getK a.toNat))) ∧
    (legalHere s (.kmov d a 1#5) = true →
      Completes (.kmov d a 1#5) s (put ((s.me.getV a.toNat).setWidth 1024))) ∧
    (legalHere s (.kmov d a 2#5) = true →
      Completes (.kmov d a 2#5) s (s.setMe (s.me.setV d.toNat (BitVec.ofNat 4096
        ((s.me.getV d.toNat).toNat / 2 ^ 1024 * 2 ^ 1024 + (s.me.getK a.toNat).toNat)))))) ∧
  (∀ (s : State) (d a : BitVec 5) (s1 : State),
    let sel := s.me.getK a.toNat &&& s.vmask
    (legalHere s (.kpopc d a) = true →
      writeX d (word ((List.range 1024).countP fun i => sel.getLsbD i)) s = .ok () s1 → Completes (.kpopc d a) s s1) ∧
    (∀ n, legalHere s (.kfirst d a) = true → n < 1024 → sel.getLsbD n = true → (∀ i, i < n → sel.getLsbD i = false) →
      writeX d (word n) s = .ok () s1 → Completes (.kfirst d a) s s1) ∧
    (legalHere s (.kfirst d a) = true → sel = 0 → writeX d (BitVec.allOnes 64) s = .ok () s1 →
      Completes (.kfirst d a) s s1))

/-- TMODE, TZERO, TOP, TOPS and TROWST complete with the tile mode, the cleared tile, the outer products and the row
statistics (R270, R276, R277, R278, R279, R280) -/
def Obligations.TrellisWords : Prop :=
  (∀ (s : State) (n k : BitVec 1) (t : BitVec 4), legalHere s (.tmodeOn n k t) = true →
    let th := s.me.setTstat 12 10 (1 + 2 * n.toNat + 4 * boolNat (t == 2#4))
    Completes (.tmodeOn n k t) s (s.setMe (if k = 0 then zeroV 16 (8 * (n.toNat + 1)) th else th))) ∧
  (∀ s : State, legalHere s .tmodeOff = true → Completes .tmodeOff s (s.setMe (s.me.setTstat 12 10 0))) ∧
  (∀ (s : State) (t : BitVec 1), legalHere s (.tzero t) = true →
    (tileOk s.me t = true → Completes (.tzero t) s (s.setMe (zeroV (tileReg t) 8 s.me))) ∧
    (tileOk s.me t = false → Traps (.tzero t) s .illegalInstruction 0)) ∧
  (∀ (s : State) (t : BitVec 1) (d : BitVec 5), legalHere s (.trowst t d) = true →
    (∀ r e, (tileOk s.me t && !s.me.acc) = true →
      (allStats (pieces 32 32 (tileElems s.me t))).run ⟨0, s.me.seed⟩ = (r, e) →
      Completes (.trowst t d) s (s.vecDone d
        (vPack 32 (r.map (·.1) ++ r.map (·.2.1) ++ r.map (·.2.2) ++ List.replicate 32 0)) e)) ∧
    ((tileOk s.me t && !s.me.acc) = false → Traps (.trowst t d) s .illegalInstruction 0)) ∧
  (∀ (s : State) (t : BitVec 1) (sc : BitVec 4) (a b : BitVec 5) (y : BitVec 4),
    let w := typeWidth y
    let k := lanes w / 32
    let rows := columns 32 (pieces 32 k (vElems w (s.me.getV a.toNat)))
    let cols := columns 32 (pieces 32 k (vElems w (s.me.getV b.toNat)))
    let accs := pieces 32 32 (tileElems s.me t)
    let scales := elems 8 64 (s.me.getV sc.toNat).toNat
    let isInt := y == 0#4 || y == 8#4
    let put := fun (r : List Nat) (e : FpEnv) => (s.afterF e).setMe (writeGroup 32 (tileReg t) 8 r (s.afterF e).me)
    (legalHere s (.top t a b y) = true →
      (tileOk s.me t = true → isInt = s.me.acc → ∀ r e,
        (topRows (fun _ row _ acc col => topElem y isInt s.rmode acc row col) (List.replicate 32 127) cols accs
          (List.replicate 32 127) rows).run ⟨0, s.me.seed⟩ = (r, e) → Completes (.top t a b y) s (put r e)) ∧
      (tileOk s.me t = false ∨ isInt ≠ s.me.acc → Traps (.top t a b y) s .illegalInstruction 0)) ∧
    (legalHere s (.tops t sc a b y) = true →
      (tileOk s.me t = true → s.me.acc = false → ∀ r e,
        (topRows (fun sa row sb acc col => topsElem y s.rmode sa sb acc row col) (scales.drop 32) cols accs
          (scales.take 32) rows).run ⟨0, s.me.seed⟩ = (r, e) → Completes (.tops t sc a b y) s (put r e)) ∧
      (tileOk s.me t = false ∨ s.me.acc = true → Traps (.tops t sc a b y) s .illegalInstruction 0)))

/-- LD in its eight sizes: address, alignment fault, value read and extended, and every way in which it stops (R116,
R102, R100, R87, R113, R139) -/
def Obligations.GlobalLoads : Prop :=
  LoadDoes .ldB 1 (fun v => (BitVec.ofNat 8 v).signExtend 64) ∧ LoadDoes .ldBu 1 (fun v => word v) ∧
  LoadDoes .ldH 2 (fun v => (BitVec.ofNat 16 v).signExtend 64) ∧ LoadDoes .ldHu 2 (fun v => word v) ∧
  LoadDoes .ldW 4 (fun v => (BitVec.ofNat 32 v).signExtend 64) ∧ LoadDoes .ldWu 4 (fun v => word v) ∧
  LoadDoes .ldD 8 (fun v => word v) ∧
  (∀ (s : State) (d a : BitVec 5) (o : BitVec 12) (x : Word) (s1 : State), legalHere s (.ldQ d a o) = true →
    readX a s = .ok x s1 →
    let va := (x + o.signExtend 64 * 16).toNat
    (va % 16 ≠ 0 → Traps (.ldQ d a o) s .misalignedAccess (word va)) ∧
    (va % 16 = 0 → PartStops (.ldQ d a o) .read s s1 va ∧
      ∀ p, Reachable .read s1 [(va, 16)] [p] →
        let s2 := s1.touched [p]
        (readNear s2 s2.cid s2.myCtx p.pa 16 = none → Traps (.ldQ d a o) s .uncorrectableError (word va)) ∧
        ∀ v s3 s4, readNear s2 s2.cid s2.myCtx p.pa 16 = some v →
          writeX d (word v) (after (requestLoad 1 [d.toNat, d.toNat + 1]) s2) = .ok () s3 →
          writeX (d + 1) (word (v / 2 ^ 64)) s3 = .ok () s4 → Completes (.ldQ d a o) s s4))

/-- ST in its five sizes: address, alignment fault, bytes stored, refusal at a poisoned sector, and every stop
(R117, R118, R102, R100, R113, R139, R120) -/
def Obligations.GlobalStores : Prop :=
  StoreDoes .stB 1 ∧ StoreDoes .stH 2 ∧ StoreDoes .stW 4 ∧ StoreDoes .stD 8 ∧
  (∀ (s : State) (d a : BitVec 5) (o : BitVec 12) (v u x : Word) (s1 s2 s3 : State), legalHere s (.stQ d a o) = true →
    readX a s = .ok x s1 → readX d s1 = .ok v s2 → readX (d + 1) s2 = .ok u s3 →
    let va := (x + o.signExtend 64 * 16).toNat
    let s4 := after (gateStores 1) s3
    (va % 16 ≠ 0 → Traps (.stQ d a o) s .misalignedAccess (word va)) ∧
    (va % 16 = 0 → PartStops (.stQ d a o) .write s s4 va ∧
      ∀ p, Reachable .write s4 [(va, 16)] [p] →
        let s5 := s4.touched [p]
        (storeParts s5 [p] [((va, 16), v.toNat + 2 ^ 64 * u.toNat)] = none →
          if s5.gates then Traps (.stQ d a o) s .uncorrectableError (word va)
          else exec (.stQ d a o) s = .next (beginRefused s s5 (word va))) ∧
        ∀ s6, storeParts s5 [p] [((va, 16), v.toNat + 2 ^ 64 * u.toNat)] = some s6 →
          Completes (.stQ d a o) s (after (request 1 []) s6)))

/-- AMOADD to AMOFADD: one read-modify-write with the table's value stored and the old value returned, and every
stop (R126, R127, R102, R100, R113, R139) -/
def Obligations.GlobalAtomics : Prop :=
  AtomicDoes .amoadd (fun w old y => (old + y % 2 ^ w) % 2 ^ w) (fun w old => if w = 32 then sext old 32 else word old) ∧
  AtomicDoes .amoand (fun w old y => old &&& y % 2 ^ w) (fun w old => if w = 32 then sext old 32 else word old) ∧
  AtomicDoes .amoor (fun w old y => old ||| y % 2 ^ w) (fun w old => if w = 32 then sext old 32 else word old) ∧
  AtomicDoes .amoxor (fun w old y => old ^^^ y % 2 ^ w) (fun w old => if w = 32 then sext old 32 else word old) ∧
  AtomicDoes .amomin (fun w old y => if toSigned old w < toSigned y w then old else y % 2 ^ w)
    (fun w old => if w = 32 then sext old 32 else word old) ∧
  AtomicDoes .amomax (fun w old y => if toSigned old w < toSigned y w then y % 2 ^ w else old)
    (fun w old => if w = 32 then sext old 32 else word old) ∧
  AtomicDoes .amominu (fun w old y => min old (y % 2 ^ w)) (fun w old => if w = 32 then sext old 32 else word old) ∧
  AtomicDoes .amomaxu (fun w old y => max old (y % 2 ^ w)) (fun w old => if w = 32 then sext old 32 else word old) ∧
  AtomicDoes .amoswap (fun w _ y => y % 2 ^ w) (fun w old => if w = 32 then sext old 32 else word old) ∧
  AtomicDoes .amofadd (fun w old y =>
    let f := if w = 32 then Fmt.fp32 else Fmt.fp64
    ((rdVal f old >>= fun u => rdVal f (y % 2 ^ w) >>= fun v => sumVals 0 [u, v] >>= roundTo f 0).run ⟨0, 0⟩).1)
    (fun _ old => word old)

/-- CAS, CAS2 and AMOZ: what is stored and returned, the message that AMOZ sends at zero, and every stop (R126,
R127, R129, R97, R102, R113, R139, R130, R131) -/
def Obligations.ComparingAtomics : Prop :=
  ((∀ (s : State) (d a b : BitVec 5) (sz : BitVec 2) (x y : Word) (s1 s2 : State), legalHere s (.cas d a b sz) = true →
    readX a s = .ok x s1 → readX b s1 = .ok y s2 →
    let n := if sz = 0#2 then 4 else 8
    let s3 := after pin s2
    (x.toNat % n ≠ 0 → Traps (.cas d a b sz) s .misalignedAccess x) ∧
    (x.toNat % n = 0 → PartStops (.cas d a b sz) .atomic s s3 x.toNat) ∧
    (x.toNat % n = 0 → ∀ p, Reachable .atomic s3 [(x.toNat, n)] [p] →
      readPa (s3.touched [p]) (s3.touched [p]).mySeed p.pa n = none → Traps (.cas d a b sz) s .uncorrectableError x) ∧
    (x.toNat % n = 0 → ∀ p old s5 s6, Reachable .atomic s3 [(x.toNat, n)] [p] →
      readPa (s3.touched [p]) (s3.touched [p]).mySeed p.pa n = some old →
      (if old = (s.me.getX d.toNat).toNat % 256 ^ n then
        storeParts (s3.touched [p]) [p] [((x.toNat, n), y.toNat % 256 ^ n)] = some s5 else s5 = s3.compared p) →
      writeX d (if n = 4 then sext old 32 else word old) (after (request 1 [d.toNat]) s5) = .ok () s6 →
      Completes (.cas d a b sz) s s6)) ∧
  (∀ (s : State) (d a b : BitVec 5) (x y y1 : Word) (s1 s2 s2' : State), legalHere s (.cas2 d a b) = true →
    readX a s = .ok x s1 → readX b s1 = .ok y s2' → readX (b + 1) s2' = .ok y1 s2 →
    let s3 := after pin s2
    (x.toNat % 16 ≠ 0 → Traps (.cas2 d a b) s .misalignedAccess x) ∧
    (x.toNat % 16 = 0 → PartStops (.cas2 d a b) .atomic s s3 x.toNat) ∧
    (x.toNat % 16 = 0 → ∀ p, Reachable .atomic s3 [(x.toNat, 16)] [p] →
      readPa (s3.touched [p]) (s3.touched [p]).mySeed p.pa 16 = none → Traps (.cas2 d a b) s .uncorrectableError x) ∧
    (x.toNat % 16 = 0 → ∀ p old s5 s6 s7, Reachable .atomic s3 [(x.toNat, 16)] [p] →
      readPa (s3.touched [p]) (s3.touched [p]).mySeed p.pa 16 = some old →
      (if old = (s.me.getX d.toNat).toNat + 2 ^ 64 * (s.me.getX (d.toNat + 1)).toNat then
        storeParts (s3.touched [p]) [p] [((x.toNat, 16), y.toNat + 2 ^ 64 * y1.toNat)] = some s5 else s5 = s3.compared p) →
      writeX d (word old) (after (request 1 [d.toNat, d.toNat + 1]) s5) = .ok () s6 →
      writeX (d + 1) (word (old / 2 ^ 64)) s6 = .ok () s7 → Completes (.cas2 d a b) s s7))) ∧
  (∀ (s : State) (d a b : BitVec 5) (sz : BitVec 2) (x y : Word) (s1 s2 : State), legalHere s (.amoz d a b sz) = true →
    readX a s = .ok x s1 → readX b s1 = .ok y s2 →
    let n := if sz = 0#2 then 4 else 8
    let s3 := after pin s2
    (x.toNat % 16 ≠ 0 → Traps (.amoz d a b sz) s .misalignedAccess x) ∧
    (x.toNat % 16 = 0 → PartStops (.amoz d a b sz) .atomic s s3 x.toNat) ∧
    (x.toNat % 16 = 0 → ∀ p, Reachable .atomic s3 [(x.toNat, 16)] [p] →
      readPa (s3.touched [p]) (s3.touched [p]).mySeed p.pa 16 = none → Traps (.amoz d a b sz) s .uncorrectableError x) ∧
    (x.toNat % 16 = 0 → ∀ p cell, Reachable .atomic s3 [(x.toNat, 16)] [p] →
      readPa (s3.touched [p]) (s3.touched [p]).mySeed p.pa 16 = some cell →
      let desc := cell / 2 ^ 64
      let old := cell % 256 ^ n
      (desc % 2 ^ 64 / 2 ^ 34 ≠ 0 → Traps (.amoz d a b sz) s .descriptorFormat (x + 8)) ∧
      (desc % 2 ^ 64 / 2 ^ 34 = 0 → (768 ≤ desc % 2 ^ 10 ∨ s.npkgs ≤ desc / 2 ^ 10 % 2 ^ 16) →
        Traps (.amoz d a b sz) s .invalidTarget x) ∧
      (desc % 2 ^ 64 / 2 ^ 34 = 0 → desc % 2 ^ 10 < 768 → desc / 2 ^ 10 % 2 ^ 16 < s.npkgs → ∀ s5 s6,
        storeParts (s3.touched [p]) [p] [((x.toNat, n), (old + y.toNat) % 256 ^ n)] = some s5 →
        writeX d (if n = 4 then sext old 32 else word old) (after (request 1 [d.toNat]) s5) = .ok () s6 →
        Completes (.amoz d a b sz) s
          (if (old + y.toNat) % 256 ^ n = 0 then
            let slice := homeSlice s s.mySeed p.pa
            unitSend s6 slice 6 (768 + slice) s6.myCtx (word desc) [x, word s6.cid]
          else s6))))

/-- The parts of a contiguous vector access are the sectors it touches, in ascending order, without gap or overlap
(R120, R119) -/
def Obligations.RangesAreCutIntoSectors : Prop :=
  ∀ va n : Nat,
    ((partsOf va n).map (·.2)).sum = n ∧
    (∀ p ∈ partsOf va n, 0 < p.2 ∧ p.1 % 32 + p.2 ≤ 32) ∧
    ∀ j, ∀ p : Nat × Nat, (partsOf va n)[j]? = some p → p.1 = va + (((partsOf va n).take j).map (·.2)).sum

/-- VLD and VST move 512 bytes as sectors in order, need 32-byte alignment, hold a request entry for every part, and
may go on part by part (R119, R120, R102, R110, R111, R114) -/
def Obligations.ContiguousVectorAccesses : Prop :=
  (∀ (s : State) (d a : BitVec 5) (r g n : BitVec 1) (x : Word) (s1 : State), legalHere s (.vld d a r g n) = true →
    readX a s = .ok x s1 →
    (x.toNat % 32 ≠ 0 → Traps (.vld d a r g n) s .misalignedAccess x) ∧
    (x.toNat % 32 = 0 → ∀ xs vs, Reachable .read s1 (partsOf x.toNat 512) xs →
      Reads (s1.touched xs) xs (partsOf x.toNat 512) vs →
      Completes (.vld d a r g n) s
        ((after (hints r g xs) (after (requestLoad (partsOf x.toNat 512).length [32 + d.toNat]) (s1.touched xs))).putV d
          (BitVec.ofNat 4096 (joinValue (partsOf x.toNat 512) vs))))) ∧
  (∀ (s : State) (g : BitVec 1) (xs : List Xlat),
    let t := after (hints 1 g xs) s
    ∀ x ∈ xs, ∀ d, readSector s (homeSlice s s.mySeed x.pa) (x.pa / 32) = some d →
      ∃ q ∈ t.replicas, q.isAt s.cid s.myCtx (x.pa / 32) = true ∧ q.data = d) ∧
  (∀ (s : State) (d a : BitVec 5) (n : BitVec 1) (x : Word) (s1 : State), legalHere s (.vst d a n) = true →
    readX a s = .ok x s1 →
    (x.toNat % 32 ≠ 0 → Traps (.vst d a n) s .misalignedAccess x) ∧
    (x.toNat % 32 = 0 →
      let ps := partsOf x.toNat 512
      let s2 := after (gateStores ps.length) s1
      let vs := splitValue ps (s.me.getV d.toNat).toNat
      (∀ xs s3, Reachable .write s2 ps xs → storeParts (s2.touched xs) xs vs = some s3 →
        Completes (.vst d a n) s (after (request ps.length []) s3)) ∧
      (∀ xs s3, Passes .write s2 ps xs → s2.partsNow ps.length < ps.length →
        storeParts (s2.touched xs) (xs.take (s2.partsNow ps.length)) (vs.take (s2.partsNow ps.length)) = some s3 →
        exec (.vst d a n) s = .next (beginPark (s3.setMe { s3.me with
          progress := some ⟨xs.map (·.pa), [], s2.partsNow ps.length⟩ }) .parts)) ∧
      (∀ pas k s3, s2.me.progress = some ⟨pas, [], k⟩ → pas.length = ps.length → k ≤ ps.length →
        let xs : List Xlat := pas.map fun a => ⟨a, .write, none, none, []⟩
        (xs.drop k).any (partHeld s2 s2.agent s2.mySeed) = false → s2.partsNow ps.length = ps.length - k →
        storeParts s2 (xs.drop k) (vs.drop k) = some s3 → Completes (.vst d a n) s (after (request ps.length []) s3))))

/-- VLDS, VSTS, VGATH and VSCAT: the elements' addresses, alignment, operand range, and what moves (R119, R120,
R121, R122, R102) -/
def Obligations.StridedAndIndexedVectorAccesses : Prop :=
  (∀ (s : State) (d a b : BitVec 5) (r g n : BitVec 1) (x y : Word) (s1 s2 : State), legalHere s (.vlds d a b r g n) = true →
    readX a s = .ok x s1 → readX b s1 = .ok y s2 →
    let w := 2 ^ (y.toNat / 2 ^ 62)
    let cnt := y.toNat / 2 ^ 52 % 2 ^ 10
    let k := if cnt = 0 then 512 / w else cnt
    let as := (List.range k).map fun i => (x + word i * (BitVec.ofNat 48 y.toNat).signExtend 64).toNat
    (512 / w < k ∨ y.toNat / 2 ^ 48 % 16 ≠ 0 → Traps (.vlds d a b r g n) s .operandRange 0) ∧
    (∀ va, k ≤ 512 / w → y.toNat / 2 ^ 48 % 16 = 0 → as.find? (fun va => va % w != 0) = some va →
      Traps (.vlds d a b r g n) s .misalignedAccess (word va)) ∧
    (k ≤ 512 / w → y.toNat / 2 ^ 48 % 16 = 0 → (∀ va ∈ as, va % w = 0) → ∀ xs vs,
      Reachable .read s2 (as.map fun va => (va, w)) xs → Reads (s2.touched xs) xs (as.map fun va => (va, w)) vs →
      Completes (.vlds d a b r g n) s
        ((after (hints r g xs) (after (requestLoad k [32 + d.toNat]) (s2.touched xs))).putV d
          (vPack (8 * w) (vs ++ (vElems (8 * w) (s.me.getV d.toNat)).drop vs.length))))) ∧
  (∀ (s : State) (d a b : BitVec 5) (n : BitVec 1) (x y : Word) (s1 s2 : State), legalHere s (.vsts d a b n) = true →
    readX a s = .ok x s1 → readX b s1 = .ok y s2 →
    let w := 2 ^ (y.toNat / 2 ^ 62)
    let cnt := y.toNat / 2 ^ 52 % 2 ^ 10
    let k := if cnt = 0 then 512 / w else cnt
    let ps := (List.range k).map fun i => ((x + word i * (BitVec.ofNat 48 y.toNat).signExtend 64).toNat, w)
    let s3 := after (gateStores ps.length) s2
    (512 / w < k ∨ y.toNat / 2 ^ 48 % 16 ≠ 0 → Traps (.vsts d a b n) s .operandRange 0) ∧
    (∀ va, k ≤ 512 / w → y.toNat / 2 ^ 48 % 16 = 0 → (ps.map (·.1)).find? (fun va => va % w != 0) = some va →
      Traps (.vsts d a b n) s .misalignedAccess (word va)) ∧
    (k ≤ 512 / w → y.toNat / 2 ^ 48 % 16 = 0 → (∀ p ∈ ps, p.1 % w = 0) → ∀ xs s4, Reachable .write s3 ps xs →
      storeParts (s3.touched xs) xs (ps.zip (vElems (8 * w) (s.me.getV d.toNat))) = some s4 →
      Completes (.vsts d a b n) s (after (request ps.length []) s4))) ∧
  (∀ (s : State) (d a b : BitVec 5) (g n : BitVec 1) (x : Word) (s1 : State), legalHere s (.vgath d a b g n) = true →
    readX a s = .ok x s1 →
    let es := indexParts x (s.me.getV b.toNat)
    let ps := es.map fun e => (e.2, 4)
    (∀ pre e post, es = pre ++ e :: post → s1.me.progress = none →
      ps.any (fun p => walkHeld s1 s1.agent s1.cid s1.myCtx .read p.1) = false →
      (∀ q ∈ pre, q.2 % 4 = 0 ∧ ∃ x, xlate s1 s1.cid s1.myCtx q.2 .read s1.sup = .ok x) →
      (e.2 % 4 ≠ 0 → Traps (.vgath d a b g n) s .misalignedAccess (word e.2)) ∧
      ∀ c, e.2 % 4 = 0 → xlate s1 s1.cid s1.myCtx e.2 .read s1.sup = .error c → c ≠ .notPresent →
        Traps (.vgath d a b g n) s c (word e.2)) ∧
    ((∀ e ∈ es, e.2 % 4 = 0) → ∀ xs vs, Reachable .read s1 ps xs → Reads (s1.touched xs) xs ps vs →
      Completes (.vgath d a b g n) s
        ((after (hints 0 g xs) (after (requestLoad ps.length [32 + d.toNat]) (s1.touched xs))).putV d
          (vPack 32 (gatherInto ((es.map (·.1)).zip vs) (vElems 32 (s.me.getV d.toNat))))))) ∧
  (∀ (s : State) (d a b : BitVec 5) (n : BitVec 1) (x : Word) (s1 : State), legalHere s (.vscat d a b n) = true →
    readX a s = .ok x s1 →
    let es := indexParts x (s.me.getV b.toNat)
    let ps := es.map fun e => (e.2, 4)
    let s2 := after (gateStores ps.length) s1
    (∀ pre e post, es = pre ++ e :: post → s2.me.progress = none →
      ps.any (fun p => walkHeld s2 s2.agent s2.cid s2.myCtx .write p.1) = false →
      (∀ q ∈ pre, q.2 % 4 = 0 ∧ ∃ x, xlate s2 s2.cid s2.myCtx q.2 .write s2.sup = .ok x) →
      (e.2 % 4 ≠ 0 → Traps (.vscat d a b n) s .misalignedAccess (word e.2)) ∧
      ∀ c, e.2 % 4 = 0 → xlate s2 s2.cid s2.myCtx e.2 .write s2.sup = .error c → c ≠ .notPresent →
        Traps (.vscat d a b n) s c (word e.2)) ∧
    ((∀ e ∈ es, e.2 % 4 = 0) → ∀ xs s3, Reachable .write s2 ps xs →
      storeParts (s2.touched xs) xs (ps.zip (es.map fun e => vElem 32 (s.me.getV d.toNat) e.1)) = some s3 →
      Completes (.vscat d a b n) s (after (request ps.length []) s3))) ∧
  (∀ (x : Word) (v : VReg) (j a : Nat), (j, a) ∈ indexParts x v ↔
    j < 128 ∧ vElem 32 v j ≠ 2 ^ 32 - 1 ∧ a = (x + word (vElem 32 v j)).toNat)

/-- VLDP and VSTP convert blocks of FP6 in order, PREF always completes, CZERO writes zero sectors (R119, R123,
R124, R125, R58) -/
def Obligations.PackedPrefetchAndZeroing : Prop :=
  (∀ (s : State) (d a b : BitVec 5) (r g n : BitVec 1) (x y : Word) (s1 s2 : State), legalHere s (.vldp d a b r g n) = true →
    readX a s = .ok x s1 → readX b s1 = .ok y s2 →
    let k := y.toNat % 32
    let good := 1 ≤ k ∧ k ≤ 16 ∧ y.toNat / 2 ^ 9 = 0 ∧ y.toNat / 2 ^ 5 % 8 = 0
    let ps := partsOf x.toNat (24 * k)
    let src := if y.getLsbD 8 then Fmt.e2m3 else Fmt.e3m2
    let dst := if y.getLsbD 8 then Fmt.fp8e4 else Fmt.fp8e5
    (¬ good → Traps (.vldp d a b r g n) s .operandRange 0) ∧
    (good → x.toNat % 8 ≠ 0 → Traps (.vldp d a b r g n) s .misalignedAccess x) ∧
    (good → x.toNat % 8 = 0 → ∀ xs vs w e, Reachable .read s2 ps xs → Reads (s2.touched xs) xs ps vs →
      (eachF (cvtFF dst src false 0 false) (elems 6 (32 * k) (joinValue ps vs))).run
        ⟨0, s.me.seed⟩ = (w, e) →
      Completes (.vldp d a b r g n) s
        (((after (hints r g xs) (after (requestLoad ps.length [32 + d.toNat]) (s2.touched xs))).afterF e).putV d
          (vPack 8 (w ++ (vElems 8 (s.me.getV d.toNat)).drop (32 * k)))))) ∧
  (∀ (s : State) (d a b : BitVec 5) (n : BitVec 1) (x y : Word) (s1 s2 : State), legalHere s (.vstp d a b n) = true →
    readX a s = .ok x s1 → readX b s1 = .ok y s2 →
    let k := y.toNat % 32
    let good := 1 ≤ k ∧ k ≤ 16 ∧ y.toNat / 2 ^ 10 = 0 ∧ y.toNat / 2 ^ 5 % 8 = 0
    let ps := partsOf x.toNat (24 * k)
    let dst := if y.getLsbD 8 then Fmt.e2m3 else Fmt.e3m2
    let src := if y.getLsbD 8 then Fmt.fp8e4 else Fmt.fp8e5
    (¬ good → Traps (.vstp d a b n) s .operandRange 0) ∧
    (good → x.toNat % 8 ≠ 0 → Traps (.vstp d a b n) s .misalignedAccess x) ∧
    (good → x.toNat % 8 = 0 → ∀ xs w e s5,
      (eachF (cvtFF dst src true (fld s.me.frm 2 0) (y.getLsbD 9)) ((vElems 8 (s.me.getV d.toNat)).take (32 * k))).run
        ⟨0, s.me.seed⟩ = (w, e) →
      let s3 := s2.afterF e
      let s4 := after (gateStores ps.length) s3
      Reachable .write s4 ps xs → storeParts (s4.touched xs) xs (splitValue ps (pack 6 w)) = some s5 →
      Completes (.vstp d a b n) s (after (request ps.length []) s5))) ∧
  (∀ (s : State) (a : BitVec 5) (r g : BitVec 1) (x : Word) (s1 : State), legalHere s (.pref a r g) = true →
    readX a s = .ok x s1 →
    let ps := (partsOf (x.toNat / 32 * 32) 512).filter fun p => !walkHeld s1 s1.agent s1.cid s1.myCtx .read p.1
    let xs := ((ps.filterMap fun p => (xlate s1 s1.cid s1.myCtx p.1 .read s1.sup).toOption).filter fun p =>
      !partHeld s1 s1.agent s1.mySeed p).take (freeEntries s1)
    let t := if xs = [] then s1 else xs.foldl (fun u p => prefetchSector u p r g) (after (request xs.length []) s1)
    Completes (.pref a r g) s t ∧ t.me = { s1.me with requests := t.me.requests } ∧ s1.me = s.me ∧ t.ctxs = s.ctxs ∧
      ∀ c u, (c, u) ≠ s.cur → t.thread c u = s.thread c u) ∧
  (∀ (s : State) (a b : BitVec 5) (x y : Word) (s1 s2 : State), legalHere s (.czero a b) = true →
    readX a s = .ok x s1 → readX b s1 = .ok y s2 →
    (¬ (y.toNat % 32 = 0 ∧ y.toNat ≤ 2 ^ 20) → Traps (.czero a b) s .operandRange 0) ∧
    (y = 0 → Completes (.czero a b) s s2) ∧
    (y ≠ 0 → y.toNat % 32 = 0 → y.toNat ≤ 2 ^ 20 → x.toNat % 32 ≠ 0 → Traps (.czero a b) s .misalignedAccess x) ∧
    (y ≠ 0 → y.toNat % 32 = 0 → y.toNat ≤ 2 ^ 20 → x.toNat % 32 = 0 →
      let ps := (List.range (y.toNat / 32)).map fun i => ((x + word (32 * i)).toNat, 32)
      ∀ xs s3, Reachable .write s2 ps xs → storeParts (s2.touched xs) xs (ps.map fun p => (p, 0)) = some s3 →
        Completes (.czero a b) s (after (request ps.length []) s3)))

/-- LLD and LST with each qualifier: checks in order, the granule waited for, the value or the bytes, and the bits
changed (R199, R196, R197, R198, R192, R116, R117) -/
def Obligations.LocalLoadsAndStores : Prop :=
  (LocalLoadDoes .lld 0 ∧ LocalLoadDoes .lldWf 1 ∧ LocalLoadDoes .lldWfc 2 ∧
  (∀ v, loadExt 0#3 v = (BitVec.ofNat 8 v).signExtend 64 ∧ loadExt 1#3 v = word v ∧
    loadExt 2#3 v = (BitVec.ofNat 16 v).signExtend 64 ∧ loadExt 3#3 v = word v ∧
    loadExt 4#3 v = (BitVec.ofNat 32 v).signExtend 64 ∧ loadExt 5#3 v = word v ∧ loadExt 6#3 v = word v ∧
    loadExt 7#3 v = word v)) ∧
  (LocalStoreDoes .lst 0 ∧ LocalStoreDoes .lstSf 1 ∧ LocalStoreDoes .lstWesf 2)

/-- VLLD and VLST move 512 bytes over 32 granules, LAMOADD and LCAS act on a doubleword and return the old one
(R200, R201, R204, R192, R196) -/
def Obligations.LocalVectorsAndLocalAtomics : Prop :=
  (∀ (s : State) (d a q : BitVec 5) (x : Word) (s1 : State), legalHere s (.vlld d a q) = true → readX a s = .ok x s1 →
    LocalStops (.vlld d a q) s s1.myCore x.toNat 512 16 ∧
    (LocalOpen s1.myCore x.toNat 512 16 →
      (q ≠ 0 → ¬ Served s1 (x.toNat / 16) 32 true → Waits (.vlld d a q) s (.granules (x.toNat / 16) 32 true)) ∧
      ((q ≠ 0 → Served s1 (x.toNat / 16) 32 true) →
        Completes (.vlld d a q) s
          ((if q = 2#5 then after (setFE false (x.toNat / 16) 32) s1 else s1).putV d
            (BitVec.ofNat 4096 (Mem.read s1.myCore.lmem x.toNat 512)))))) ∧
  (∀ (s : State) (d a q : BitVec 5) (x : Word) (s1 : State), legalHere s (.vlst d a q) = true → readX a s = .ok x s1 →
    LocalStops (.vlst d a q) s s1.myCore x.toNat 512 16 ∧
    (LocalOpen s1.myCore x.toNat 512 16 →
      (q = 2 → ¬ Served s1 (x.toNat / 16) 32 false → Waits (.vlst d a q) s (.granules (x.toNat / 16) 32 false)) ∧
      ((q = 2 → Served s1 (x.toNat / 16) 32 false) →
        let s2 := after (lWrite x.toNat 512 (s.me.getV d.toNat).toNat) s1
        Completes (.vlst d a q) s (if q ≠ 0 then after (setFE true (x.toNat / 16) 32) s2 else s2)))) ∧
  (∀ (s : State) (d a b : BitVec 5) (x y : Word) (s1 s2 : State), legalHere s (.lamoadd d a b) = true →
    readX a s = .ok x s1 → readX b s1 = .ok y s2 →
    LocalStops (.lamoadd d a b) s s2.myCore x.toNat 8 8 ∧
    (LocalOpen s2.myCore x.toNat 8 8 →
      let old := Mem.read s2.myCore.lmem x.toNat 8
      ∀ s3, writeX d (word old) (after (lWrite x.toNat 8 ((old + y.toNat) % 2 ^ 64)) s2) = .ok () s3 →
        Completes (.lamoadd d a b) s s3)) ∧
  (∀ (s : State) (d a b : BitVec 5) (x y : Word) (s1 s2 : State), legalHere s (.lcas d a b) = true →
    readX a s = .ok x s1 → readX b s1 = .ok y s2 →
    LocalStops (.lcas d a b) s s2.myCore x.toNat 8 8 ∧
    (LocalOpen s2.myCore x.toNat 8 8 →
      let old := word (Mem.read s2.myCore.lmem x.toNat 8)
      ∀ s3, writeX d old (if old = s.me.getX d.toNat then after (lWrite x.toNat 8 y.toNat) s2 else s2) = .ok () s3 →
        Completes (.lcas d a b) s s3))

/-- LGATH transposes gathered rows of local memory, XST and VXST write a core's back bank and fill its granules
(R202, R203, R422) -/
def Obligations.RowGatherAndExchangeStores : Prop :=
  (∀ (s : State) (d a b : BitVec 5) (x : Word) (s1 : State), legalHere s (.lgath d a b) = true → readX a s = .ok x s1 →
    let base := x.toNat % 2 ^ 18
    let wd := x.toNat / 2 ^ 18 % 4
    let w := 4 * 2 ^ wd
    let idx := fun i => (s.me.getV b.toNat).toNat / 2 ^ (16 * i) % 2 ^ 16
    (x.toNat / 2 ^ 20 ≠ 0 ∨ wd = 3 → Traps (.lgath d a b) s .operandRange 0) ∧
    (x.toNat / 2 ^ 20 = 0 → wd ≠ 3 → base + 16 ≤ s.myCore.xb + s.myCore.xw → base % 16 = 0 →
      (∀ i, i < 32 → idx i = 0xFFFF ∨ base + 16 * idx i + 16 ≤ s.myCore.xb + s.myCore.xw) → s.myCore.xb + s.myCore.xw ≤ 2 ^ 18 →
      ∃ v : VReg, Completes (.lgath d a b) s (s1.putV d v) ∧
        ∀ i k, i < 32 → k < 128 / w → vElem w v (32 * k + i) =
          if idx i = 0xFFFF then 0 else Mem.read s.myCore.lmem (base + 16 * idx i) 16 / 2 ^ (w * k) % 2 ^ w)) ∧
  (∀ (s : State) (d a : BitVec 5) (v x : Word) (s1 s2 : State), legalHere s (.xst d a) = true →
    readX a s = .ok x s1 → readX d s1 = .ok v s2 →
    let c := x.toNat / 2 ^ 18 % 2 ^ 10
    let o := x.toNat % 2 ^ 18
    ExchangeStops (.xst d a) s s2 x 8 8 ∧
    (ExchangeIn s2 x 8 → o % 8 = 0 → s2.away c = false →
      Completes (.xst d a) s (let s3 := after pin s2
        s3.setCore c (((s3.core c).lwrite (o + s2.myCore.xw) 8 v.toNat).setFull ((o + s2.myCore.xw) / 16) 1)))) ∧
  (∀ (s : State) (d a : BitVec 5) (x : Word) (s1 : State), legalHere s (.vxst d a) = true → readX a s = .ok x s1 →
    let c := x.toNat / 2 ^ 18 % 2 ^ 10
    let o := x.toNat % 2 ^ 18
    ExchangeStops (.vxst d a) s s1 x 512 16 ∧
    (ExchangeIn s1 x 512 → o % 16 = 0 → s1.away c = false →
      Completes (.vxst d a) s
        (s1.setCore c (((s1.core c).lwrite (o + s1.myCore.xw) 512 (s.me.getV d.toNat).toNat).setFull
          ((o + s1.myCore.xw) / 16) 32))))

/-- Each conditional branch names its target exactly when its relation holds on the registers before the pair (R287,
R28, R39) -/
def Obligations.ConditionalBranches : Prop :=
  BranchDoes .beq (fun x y => x = y) ∧ BranchDoes .bne (fun x y => x ≠ y) ∧
  BranchDoes .blt (fun x y => x.toInt < y.toInt) ∧ BranchDoes .bge (fun x y => y.toInt ≤ x.toInt) ∧
  BranchDoes .bltu (fun x y => x.toNat < y.toNat) ∧ BranchDoes .bgeu (fun x y => y.toNat ≤ x.toNat)

/-- A word that completes leaves the pc at the target it named, or 4 past a lone word and 8 past a pair (R25, R32,
R287) -/
def Obligations.CompletionAdvancesThePc : Prop :=
  ∀ s : State,
    (complete s).me.pc = s.issue.next.getD (s.me.pc + if s.issue.lone then 4 else 8) ∧ (complete s).me.wait = .none ∧
    (∀ n, (complete s).me.getX n = s.me.getX n) ∧ (complete s).me.v = s.me.v ∧ (complete s).me.k = s.me.k ∧
    (∀ t, t ≠ s.tid → (complete s).myCore.thread t = s.myCore.thread t) ∧
    (∀ c, ((complete s).core c).lmem = (s.core c).lmem) ∧
    (∀ seed pa, readByte (complete s) seed pa = readByte s seed pa)

/-- JAL and JALR link and jump, JALR checks its target first, BKANY and BKALL branch on all 1,024 mask bits (R288,
R289, R290) -/
def Obligations.JumpsAndMaskBranches : Prop :=
  (∀ (s : State) (d : BitVec 5) (i : BitVec 20) (s1 : State), legalHere s (.jal d i) = true →
    writeX d (s.me.pc + if s.issue.lone then 4 else 8) s = .ok () s1 →
    Completes (.jal d i) s (s1.jump (s.me.pc + 4 * i.signExtend 64))) ∧
  (∀ (s : State) (d a : BitVec 5) (i : BitVec 15) (x : Word) (s1 : State), legalHere s (.jalr d a i) = true →
    readX a s = .ok x s1 →
    let t := x + i.signExtend 64
    (t.toNat % 4 ≠ 0 → Traps (.jalr d a i) s .misalignedPair t) ∧
    (t.toNat % 4 = 0 → 2 ^ 52 ≤ t.toNat → Traps (.jalr d a i) s .addressRange t) ∧
    (t.toNat % 4 = 0 → t.toNat < 2 ^ 52 → ∀ s2, writeX d (s.me.pc + if s.issue.lone then 4 else 8) s1 = .ok () s2 →
      Completes (.jalr d a i) s (s2.jump t))) ∧
  (∀ (s : State) (a : BitVec 5) (o : BitVec 15), legalHere s (.bkany a o) = true →
    Completes (.bkany a o) s (if s.me.getK a.toNat = 0 then s else s.jump (s.me.pc + 4 * o.signExtend 64))) ∧
  (∀ (s : State) (a : BitVec 5) (o : BitVec 15), legalHere s (.bkall a o) = true →
    Completes (.bkall a o) s
      (if s.me.getK a.toNat = BitVec.allOnes 1024 then s.jump (s.me.pc + 4 * o.signExtend 64) else s)) ∧
  (∀ t : Thread, t.getK 0 = BitVec.allOnes 1024)

/-- SRRD, SRWR, SRSET and SRCLR: which registers a thread may name, what they read, and what each field takes (R369,
R370, R371, R72, R69) -/
def Obligations.StateRegisterAccess : Prop :=
  (∀ (s : State) (d : BitVec 5) (n : BitVec 12), legalHere s (.srrd d n) = true →
    (¬ SregOpen s n.toNat → Traps (.srrd d n) s .illegalInstruction 0) ∧
    (SregOpen s n.toNat → ∀ v s1, sregValue s n.toNat = some v → writeX d v s = .ok () s1 → Completes (.srrd d n) s s1)) ∧
  SregWriteDoes .srwr false (fun _ x => x) ∧
  SregWriteDoes .srset false (fun old x => old ||| x) ∧
  SregWriteDoes .srclr true (fun old x => old &&& ~~~ x) ∧
  (∀ (s : State) (n : Nat), SregOpen s n → ∃ v, sregValue s n = some v) ∧
  (∀ s : State, sregValue s 0x001 = some s.me.fflags ∧ sregValue s 0x002 = some s.me.frm ∧ sregValue s 0x003 = some s.me.seed ∧
    sregValue s 0x004 = some s.me.fetimeout ∧ sregValue s 0x008 = some (word s.cycle) ∧ sregValue s 0x010 = some s.me.fhook ∧
    sregValue s 0x011 = some s.me.fframe ∧ sregValue s 0x01A = some (word s.myCtx) ∧ sregValue s 0x020 = some (word s.cid) ∧
    sregValue s 0x030 = some s.me.svec ∧ sregValue s 0x031 = some s.me.sframe) ∧
  (∀ (old new x : Word) (c : Bool),
    sregNext 0x000 old new x c = old ∧
    sregNext 0x001 old new x c = (old &&& ~~~ 0x3F#64) ||| (new &&& 0x3F#64) ∧
    sregNext 0x002 old new x c = (if 6 ≤ new.toNat % 8 then old else (old &&& ~~~ 7#64) ||| (new &&& 7#64)) ∧
    sregNext 0x003 old new x c = new ∧ sregNext 0x004 old new x c = new ∧
    sregNext 0x007 old new x true = old ∧ sregNext 0x007 old new x false = old &&& ~~~ (x &&& 0xC000000000000000#64) ∧
    sregNext 0x010 old new x c = (old &&& ~~~ 0x000FFFFFFFFFFFFC#64) ||| (new &&& 0x000FFFFFFFFFFFFC#64) ∧
    sregNext 0x011 old new x c = (old &&& ~~~ 0x3FFC0#64) ||| (new &&& 0x3FFC0#64) ∧
    sregNext 0x030 old new x c = sregNext 0x010 old new x c ∧
    sregNext 0x031 old new x c = (old &&& ~~~ 0x000FFFFFFFFFFE00#64) ||| (new &&& 0x000FFFFFFFFFFE00#64))

/-- SYSCALL takes its trap past the word, TRET restores what the frame holds, and each is illegal where not admitted
(R372, R373, R374, R368, R366) -/
def Obligations.SystemCallAndReturn : Prop :=
  (∀ s : State, legalHere s .syscall = true →
    (s.me.sv = true → exec .syscall s = .next (takeTrap s .illegalInstruction 0 false)) ∧
    (s.me.sv = false → s.issue.lone = true → exec .syscall s = .next (takeTrapAt s (s.me.pc + 4) .syscall 0 false)) ∧
    (s.me.sv = false → s.issue.lone = false → Completes .syscall s s)) ∧
  (∀ s : State, legalHere s .tret = true → (s.issue.lone = false ∨ (s.me.sv = false ∧ s.me.ha = false)) →
    Traps .tret s .illegalInstruction 0) ∧
  (∀ s : State, legalHere s .tret = true → s.issue.lone = true → s.me.sv = false → s.me.ha = true →
    s.me.fframe.toNat + 512 ≤ 2 ^ 18 → s.me.fframe.toNat + 512 ≤ s.myCore.xb + s.myCore.xw →
    let fr := frameWords (Mem.read s.myCore.lmem s.me.fframe.toNat 512)
    (infoReserved (fr.getD 1 0) = true → Traps .tret s .descriptorFormat s.me.fframe) ∧
    (infoReserved (fr.getD 1 0) = false → Completes .tret s ((s.setMe (returnFrom s.me fr)).jump (fr.getD 0 0 &&& ~~~3#64)))) ∧
  (∀ (s : State) (xs : List Xlat) (vs : List Nat), legalHere s .tret = true → s.issue.lone = true → s.me.sv = true →
    let ps := partsOf s.me.sframe.toNat 512
    Reachable .read s ps xs → Reads (s.touched xs) xs ps vs →
    let s1 := after (requestLoad ps.length ((List.range 29).map (· + 1))) (s.touched xs)
    let fr := frameWords (joinValue ps vs)
    (infoReserved (fr.getD 1 0) = true → Traps .tret s .descriptorFormat s.me.sframe) ∧
    (infoReserved (fr.getD 1 0) = false → Completes .tret s ((s1.setMe (returnFrom s1.me fr)).jump (fr.getD 0 0 &&& ~~~3#64)))) ∧
  (∀ (th : Thread) (fr : List Word),
    (∀ n, 1 ≤ n → n ≤ 29 → (returnFrom th fr).getX n = fr.getD (7 + n) 0) ∧
    (returnFrom th fr).rep = (fr.getD 1 0).toNat / 2 ^ 16 % 2 ^ 6 ∧
    (th.sv = true → (returnFrom th fr).sv = false ∧ (returnFrom th fr).ha = th.ha) ∧
    (th.sv = false → (returnFrom th fr).ha = false ∧ (returnFrom th fr).sv = false) ∧
    (returnFrom th fr).v = th.v ∧ (returnFrom th fr).k = th.k ∧ (returnFrom th fr).fflags = th.fflags ∧
    (returnFrom th fr).frm = th.frm ∧ (returnFrom th fr).seed = th.seed ∧ (returnFrom th fr).mo = th.mo)

/-- WFI, TLBINV, SEEDSET, CFLUSH, FENCE, ISYNC, PAIR and UNPAIR: privilege, operands, waits and effects (R372, R375,
R376, R377, R378, R106, R152, R153, R379) -/
def Obligations.SystemAndOrderingWords : Prop :=
  ((∀ s : State, legalHere s .wfi = true →
    (s.me.sv = false → Traps .wfi s .illegalInstruction 0) ∧
    (s.me.sv = true → (s.me.latch = true ∨ s.me.wait = .interrupt true) → Completes .wfi s s) ∧
    (s.me.sv = true → s.me.latch = false → s.me.wait ≠ .interrupt true → Waits .wfi s (.interrupt false))) ∧
  (∀ (s : State) (a b : BitVec 5), legalHere s (.tlbinv a b) = true →
    (s.me.sv = false → Traps (.tlbinv a b) s .illegalInstruction 0) ∧
    (s.me.sv = true → ∀ x y s1 s2, readX a s = .ok x s1 → readX b s1 = .ok y s2 →
      (2 ≤ y.toNat → Traps (.tlbinv a b) s .operandRange 0) ∧
      (y = 0 → Completes (.tlbinv a b) s (dropTlb s2 s2.myCtx none)) ∧
      (y = 1 → Completes (.tlbinv a b) s (dropTlb s2 s2.myCtx (some x.toNat))))) ∧
  (∀ (s : State) (a : BitVec 5), legalHere s (.seedset a) = true →
    (s.me.sv = false → Traps (.seedset a) s .illegalInstruction 0) ∧
    (s.me.sv = true → ∀ x s1, readX a s = .ok x s1 →
      let s2 := moveHolds (flushSeed s1 s.mySeed) (seedGroup s s.mySeed) s.mySeed x
      let s3 := { s2 with replicas := s2.replicas.filter fun r => !(seedGroup s s.mySeed).contains r.ctx }
      Completes (.seedset a) s ((seedGroup s s.mySeed).foldl (fun s c => installSeed s c x) s3))) ∧
  (∀ (s : State) (a b : BitVec 5) (x y : Word) (s1 s2 : State), legalHere s (.cflush a b) = true →
    readX a s = .ok x s1 → readX b s1 = .ok y s2 →
    (x.toNat % 32 ≠ 0 → Traps (.cflush a b) s .misalignedAccess x) ∧
    (x.toNat % 32 = 0 → ¬ (y.toNat % 32 = 0 ∧ y.toNat ≤ 2 ^ 30) → Traps (.cflush a b) s .operandRange 0) ∧
    (x.toNat % 32 = 0 → y.toNat % 32 = 0 → y.toNat ≤ 2 ^ 30 → poolHas s 1 = true → ∀ xs : List Xlat,
      ((List.range (y.toNat / 32)).map fun i => xlate s s.cid s.myCtx (x.toNat + 32 * i) .read s.sup) = xs.map .ok →
      (List.range (y.toNat / 32)).any (fun i => walkHeld s s.agent s.cid s.myCtx .read (x.toNat + 32 * i)) = false →
      xs.any (partHeld s s.agent s.mySeed) = false →
      Completes (.cflush a b) s (after (request 1 []) (xs.foldl (fun u p =>
        let u := applyXlat u u.cid u.myCtx p
        dropReplicas (evictSector u (homeSlice u u.mySeed p.pa) (p.pa / 32)) (p.pa / 32)) s2))))) ∧
  ((∀ (s : State) (v c : BitVec 1), legalHere s (.fence v c) = true →
    ((c = 1#1 → copiesPending s = false) → (v = 1#1 → remotesPending s = false) → Completes (.fence v c) s s) ∧
    (c = 1#1 → copiesPending s = true → Waits (.fence v c) s .copyPlace) ∧
    ((c = 1#1 → copiesPending s = false) → v = 1#1 → remotesPending s = true → Waits (.fence v c) s .fence)) ∧
  (∀ s : State, legalHere s .isync = true → Completes .isync s (s.setMe { s.me with fetched := [] })) ∧
  (∀ (s : State) (d : BitVec 5), legalHere s (.pair d) = true →
    let p := if s.cid % 2 = 0 then s.cid + 1 else s.cid - 1
    let chk := match s.myCore.bound with | some b => b.ld.chk | none => false
    (s.me.wait = .paired → ∀ s1, writeX d (word (min s.cid p)) s = .ok () s1 → Completes (.pair d) s s1) ∧
    (s.me.wait ≠ .paired → s.inLaunch p = false → Traps (.pair d) s .invalidTarget 0) ∧
    (s.me.wait ≠ .paired → s.inLaunch p = true → (s.myCore.pair ≠ .none ∨ chk = true) → Traps (.pair d) s .pairState 0) ∧
    (s.me.wait ≠ .paired → s.inLaunch p = true → s.myCore.pair = .none → chk = false →
      exec (.pair d) s = .next (
        if (launchHere s p (s.coreOrder s.cid) == some true && allWait s s.cid .pairing && allWait s p .pairing) = true
        then beginPark (formPair s (min s.cid p) (partnerOf (min s.cid p))) .paired
        else beginPark s .pairing))) ∧
  (∀ (s : State) (d : BitVec 5), legalHere s (.unpair d) = true →
    (s.me.wait = .paired → ∀ s1, writeX d (word s.cid) s = .ok () s1 → Completes (.unpair d) s s1) ∧
    (s.me.wait ≠ .paired → s.myCore.pair = .none → Traps (.unpair d) s .pairState 0) ∧
    (s.me.wait ≠ .paired → s.myCore.pair ≠ .none → exec (.unpair d) s = .next (beginPark
      (if allWait s s.cid .unpairing = true then s.emit (.intervalCompare s.cid .agree) else s) .unpairing))))

/-- VX runs its A word under the prefix, REP runs one repetition at a time from the index in TSTAT (R43, R44, R45,
R46, R47, R48) -/
def Obligations.PrefixedWords : Prop :=
  (∀ (s : State) (k m : BitVec 3) (z : BitVec 1) (c : BitVec 5),
    (s.issue.lone = true ∨ s.isTh = true → exec (.vx k z m c) s = .next (takeTrap s .illegalInstruction 0 false)) ∧
    (s.issue.lone = false → s.isTh = false →
      let s1 := { s with issue := { s.issue with slotA := true, vx := some ⟨k, z == 1#1, m, c⟩ } }
      (∀ i t, decodeWord s.issue.w1 = .ok i → runA i s1 = .next (complete t) →
        exec (.vx k z m c) s = .next (complete t)) ∧
      ∀ d a b ty, decodeWord s.issue.w1 = .ok (.vadd d a b ty) → legalHere s1 (.vadd d a b ty) = true →
        ∃ v, exec (.vx k z m c) s = .next (complete (s1.setMe (s1.me.setV d.toNat v))))) ∧
  (∀ (s : State) (n : BitVec 6) (d a b : BitVec 2),
    let step := fun j => repInstr s j ([0, 1, 2, 4].getD d.toNat 0) ([0, 1, 2, 4].getD a.toNat 0) ([0, 1, 2, 4].getD b.toNat 0)
    let s1 := { s with issue := { s.issue with slotA := true } }
    ((s.issue.lone = true ∨ ∃ j, j ≤ n.toNat ∧ step j = none) →
      exec (.rep n d a b) s = .next (takeTrap s .illegalInstruction 0 false)) ∧
    (s.issue.lone = false → (∀ j, j ≤ n.toNat → step j ≠ none) → s.me.rep ≤ n.toNat →
      (∀ i t, step s.me.rep = some i → runA i s1 = .next (complete t) →
        exec (.rep n d a b) s = .next (
          if s.me.rep < n.toNat
          then (complete t).setMe { (complete t).me.setTstat 21 16 (s.me.rep + 1) with pc := s.me.pc }
          else (complete t).setMe ((complete t).me.setTstat 21 16 0))) ∧
      ∀ e f g, step s.me.rep = some (.add e f g) → e.toNat < 30 → f.toNat < 30 → g.toNat < 30 → legalHere s1 (.add e f g) = true →
        ∃ t, t = s1.setMe (s1.me.setX e.toNat (s1.me.getX f.toNat + s1.me.getX g.toNat)) ∧
        exec (.rep n d a b) s = .next (
          if s.me.rep < n.toNat
          then (complete t).setMe { (complete t).me.setTstat 21 16 (s.me.rep + 1) with pc := s.me.pc }
          else (complete t).setMe ((complete t).me.setTstat 21 16 0))))

/-- FORK, JOIN, TDONE, YIELD, HBEAT, WFE and SEV complete with their counts, records, latches and idle threads
(R291, R293, R294, R296, R297, R300, R301, R314, R11, R302, R303, R375) -/
def Obligations.TaskAndEventWords : Prop :=
  ((∀ (s : State) (d a b : BitVec 5) (x y : Word) (s1 s2 : State), legalHere s (.fork d a b) = true →
    readX a s = .ok x s1 → readX b s1 = .ok y s2 →
    (x.toNat % 4 ≠ 0 ∨ 2 ^ 52 ≤ x.toNat → Traps (.fork d a b) s .operandRange 0) ∧
    (x.toNat % 4 = 0 → x.toNat < 2 ^ 52 → joinCheck s.myCore y.toNat = none →
      ((joinFlags s.myCore y.toNat).getLsbD 0 = true ∨ (joinFlags s.myCore y.toNat).getLsbD 1 = true →
        Traps (.fork d a b) s .taskState 0) ∧
      ((joinFlags s.myCore y.toNat).getLsbD 0 = false → (joinFlags s.myCore y.toNat).getLsbD 1 = false →
        (128 ≤ s.myCore.deque.length → ∀ s3, writeX d 0 s2 = .ok () s3 → Completes (.fork d a b) s s3) ∧
        (s.myCore.deque.length < 128 → ∃ k : Core,
          k.lmem = Mem.write s2.myCore.lmem y.toNat 8 (Mem.read s2.myCore.lmem y.toNat 8 + 1) ∧
          k.deque = s2.myCore.deque ++ [⟨x, s.me.getX 3, s.me.getX 4, s.me.getX 5, s.me.getX 6, s.me.getX 7, s.me.getX 8,
            s.cid, y.toNat, 0⟩] ∧ k.full = s2.myCore.full ∧
          ∀ s3, writeX d 1 (s2.setMyCore k) = .ok () s3 → Completes (.fork d a b) s s3)))) ∧
  (∀ (s : State) (a : BitVec 5) (x : Word) (s1 : State), legalHere s (.join a) = true → readX a s = .ok x s1 →
    joinCheck s.myCore x.toNat = none → (joinFlags s.myCore x.toNat).getLsbD 0 = false →
    (joinFlags s.myCore x.toNat).getLsbD 1 = false →
    (s.me.mo ≠ [] → Traps (.join a) s .taskState 0) ∧
    (s.me.mo = [] → joinCount s.myCore x.toNat = 0 → Completes (.join a) s s1) ∧
    (s.me.mo = [] → joinCount s.myCore x.toNat ≠ 0 →
      let k := parkRecord s1.myCore x.toNat s.me (s.me.pc + if s.issue.lone then 4 else 8)
      Completes (.join a) s (goIdle (s1.setMyCore
        { k with parked := k.parked.set x.toNat ⟨s.me.taskref.getLsbD 28, s.me.initial, s.me.task⟩ })))) ∧
  (∀ s : State, legalHere s .tdone = true →
    (s.me.taskref.getLsbD 28 = false →
      Completes .tdone s (tryReport (goIdle (finishInitial s s.cid s.me.initial)) s.cid)) ∧
    (s.me.taskref.getLsbD 28 = true →
      let c := s.me.taskref.toNat / 2 ^ 18 % 2 ^ 10
      let j := s.me.taskref.toNat % 2 ^ 18
      let n := joinCount (s.core c) j - 1
      let parked := (joinFlags (s.core c) j).getLsbD 0
      (768 ≤ c → Traps .tdone s .invalidTarget 0) ∧
      (c < 768 → s.away c = true → Waits .tdone s .held) ∧ (c < 768 → s.away c = false → joinCheck (s.core c) j = none →
      (joinCount (s.core c) j ≤ 0 → Traps .tdone s .taskState 0) ∧
      (0 < joinCount (s.core c) j → (n = 0 ∧ parked = true → c = s.cid) →
        let s1 := s.setCore c ((s.core c).lwrite j 8 n.toNat)
        let s2 := s1.setMyCore { s1.myCore with tasksDone := s1.myCore.tasksDone + 1 }
        Completes .tdone s (if n = 0 ∧ parked = true
          then (let s3 := resumeJoin s2 c s.tid j; s3.jump s3.me.pc) else goIdle s2)) ∧
      (0 < joinCount (s.core c) j → n = 0 → parked = true → c ≠ s.cid → ∃ k : Core,
        j ∈ k.runs ∧ (joinFlags k j).getLsbD 0 = false ∧
        Completes .tdone s (goIdle (let s1 := s.setCore c k; s1.setMyCore { s1.myCore with tasksDone := s1.myCore.tasksDone + 1 })))))) ∧
  (∀ s : State, legalHere s .yield = true → Completes .yield s (if s.isTh then s else
    s.setMyCore { s.myCore with sched := { s.myCore.sched with yielded := true } })) ∧
  (∀ s : State, legalHere s .hbeat = true → Completes .hbeat s (if s.isTh then s else s.setMe { s.me with hbcount := 0 }))) ∧
  ((∀ (s : State) (d b : BitVec 5) (y : Word) (s1 : State), legalHere s (.wfe d b) = true → readX b s = .ok y s1 →
    (s.me.latch = true → ∀ s2, writeX d 1 (s1.setMe { s1.me with latch := false }) = .ok () s2 → Completes (.wfe d b) s s2) ∧
    (s.me.latch = false → s.me.wait = .eventOver → ∀ s2, writeX d 0 s1 = .ok () s2 → Completes (.wfe d b) s s2) ∧
    (s.me.latch = false → s.me.wait ≠ .eventOver → Waits (.wfe d b) s
      (.event (if y ≠ 0 then y.toNat else if s.me.fetimeout ≠ 0 then s.me.fetimeout.toNat else 2 ^ 40)))) ∧
  (∀ (s : State) (a : BitVec 5) (x : Word) (s1 : State), legalHere s (.sev a) = true → readX a s = .ok x s1 →
    let c := x.toNat % 2 ^ 10
    (x.toNat / 2 ^ 13 ≠ 0 → Traps (.sev a) s .operandRange 0) ∧
    (x.toNat / 2 ^ 13 = 0 → (decide (c < 768) && s.inLaunch c) = false → Traps (.sev a) s .invalidTarget 0) ∧
    (x.toNat / 2 ^ 13 = 0 → c < 768 → s.inLaunch c = true →
      let l := if x.getLsbD 12 then 15#4 else BitVec.ofNat 4 (2 ^ (x.toNat / 2 ^ 10 % 4))
      let s2 := after pin s1
      Completes (.sev a) s (if c = s2.cid then setLatches s2 c l
        else (s2.setMe { s2.me with sev := some (c, l) }).emit (.eventLatchSet c (s2.coreOrder s2.cid) l)))) ∧
  (∀ (s : State) (c t : Nat) (l : BitVec 4), t < 4 → ((setLatches s c l).thread c t).latch =
    ((s.thread c t).latch || (l.getLsbD t && (s.thread c t).strand != .unbound))))

/-- The barrier words: checks, arrivals, waits and results, and how an arrival completes a phase (R304, R305, R306,
R307, R308, R310, R311, R312) -/
def Obligations.BarrierWordsAndPhases : Prop :=
  ((∀ (s : State) (a b : BitVec 5) (x y : Word) (s1 s2 : State), legalHere s (.binit a b) = true →
    readX a s = .ok x s1 → readX b s1 = .ok y s2 →
    let tmo := y.toNat / 2 ^ 34 % 2 ^ 6
    let op := y.toNat / 2 ^ 30 % 2 ^ 4
    let cores := if y.getLsbD 16 then s.members s.cid else [s.cid]
    let k := s.myCore.bar x.toNat
    let good := x.toNat < 128 ∧ y.toNat / 2 ^ 40 = 0 ∧ y.toNat / 2 ^ 17 % 2 ^ 13 = 0 ∧ y.toNat % 2 ^ 16 ≠ 0 ∧ op ≤ 8 ∧
      (tmo = 0 ∨ 16 ≤ tmo ∧ tmo ≤ 40)
    let busy := cores.any (fun c => (s.core c).barWaiters x.toNat || ((s.core c).bar x.toNat).arrived != 0) = true
    let new : Barrier :=
      { group := y.getLsbD 16, op := BitVec.ofNat 4 op, tmo := BitVec.ofNat 6 tmo, count := BitVec.ofNat 16 y.toNat, arrived := 0,
        phase := k.phase, acc := combineId op, result := k.result, swap := false, tout := false,
        limit := if tmo ≠ 0 then 2 ^ tmo else if s.me.fetimeout = 0 then 2 ^ 40 else s.me.fetimeout.toNat,
        first := none, held := false }
    let s3 := after pin s2
    let s4 := if y.getLsbD 16 then setTouts s3 (s3.coreOrder s3.cid) (·.filter fun p => p.2 ≠ x.toNat) else s3
    (¬ good → Traps (.binit a b) s .operandRange 0) ∧
    (good →
      if y.getLsbD 16 = true ∧ s.barMaster s.cid = s.cid ∧ s.myCore.bound.isSome = true ∧
        cores.any (fun c => launchHere s c (s.coreOrder s.cid) != some true) = true then Waits (.binit a b) s .held
      else if busy ∨ y.getLsbD 16 = true ∧ s.barMaster s.cid ≠ s.cid then Traps (.binit a b) s .barrierState 0
      else Completes (.binit a b) s (cores.foldl (fun s c => s.setCore c ((s.core c).setBar x.toNat new)) s4))) ∧
  (∀ (s : State) (d a b : BitVec 5) (x : Word) (s1 : State), readX a s = .ok x s1 → 128 ≤ x.toNat →
    (legalHere s (.barrive d a) = true → Traps (.barrive d a) s .operandRange 0) ∧
    (legalHere s (.bsync a) = true → Traps (.bsync a) s .operandRange 0) ∧
    (legalHere s (.bswap a) = true → Traps (.bswap a) s .operandRange 0) ∧
    (legalHere s (.bquery d a) = true → Traps (.bquery d a) s .operandRange 0) ∧
    (legalHere s (.bcomb d a b) = true → Traps (.bcomb d a b) s .operandRange 0) ∧
    (legalHere s (.bwait d a b) = true → Traps (.bwait d a b) s .operandRange 0)) ∧
  (∀ (s : State) (d a : BitVec 5) (x : Word) (s1 : State), legalHere s (.barrive d a) = true → readX a s = .ok x s1 →
    x.toNat < 128 → joined x.toNat s1.me.wait = none →
    ((s1.myCore.bar x.toNat).tout = true → Traps (.barrive d a) s .barrierTimeout 0) ∧
    ((s1.myCore.bar x.toNat).tout = false → s1.me.wait ≠ .arrival x.toNat → (s1.myCore.bar x.toNat).group = false → ∀ s3,
      writeX d ((arriveAt (after pin s1) s1.cid x.toNat none false).1.zeroExtend 64)
        (arriveAt (after pin s1) s1.cid x.toNat none false).2 = .ok () s3 → Completes (.barrive d a) s s3) ∧
    ((s1.myCore.bar x.toNat).tout = false → s1.me.wait ≠ .arrival x.toNat → (s1.myCore.bar x.toNat).group = true →
      exec (.barrive d a) s = .next (beginPark (keepPayload s ((after pin s1).emit (.groupBarrierArrival (s1.barMaster s1.cid) s1.cid
        s1.tid x.toNat (s1.coreOrder s1.cid) (combineId (s1.myCore.bar x.toNat).op.toNat) false true))) (.arrival x.toNat)))) ∧
  (∀ (s : State) (d a : BitVec 5) (x : Word) (s1 : State) (ph : BitVec 24), legalHere s (.barrive d a) = true →
    readX a s = .ok x s1 → x.toNat < 128 → s1.me.wait = .joined x.toNat ph → ∀ s2,
    writeX d (ph.zeroExtend 64) s1 = .ok () s2 → Completes (.barrive d a) s s2) ∧
  (∀ (s : State) (d a b : BitVec 5) (x y : Word) (s1 s2 : State), legalHere s (.bwait d a b) = true →
    readX a s = .ok x s1 → readX b s1 = .ok y s2 → x.toNat < 128 →
    (2 ^ 24 ≤ y.toNat → Traps (.bwait d a b) s .operandRange 0) ∧
    (y.toNat < 2 ^ 24 →
      let n := ((s.myCore.bar x.toNat).phase.toNat + 2 ^ 24 - y.toNat) % 2 ^ 24
      (∀ r s3, s.me.wait = .released x.toNat (y.setWidth 24) r → writeX d r s2 = .ok () s3 → Completes (.bwait d a b) s s3) ∧
      ((∀ r, s.me.wait ≠ .released x.toNat (y.setWidth 24) r) →
        ((s.myCore.bar x.toNat).tout = true → Traps (.bwait d a b) s .barrierTimeout 0) ∧
        ((s.myCore.bar x.toNat).tout = false →
          (1 ≤ n ∧ n ≤ 2 ^ 23 → ∀ s3, writeX d (s.myCore.bar x.toNat).result s2 = .ok () s3 → Completes (.bwait d a b) s s3) ∧
          (¬ (1 ≤ n ∧ n ≤ 2 ^ 23) → Waits (.bwait d a b) s (.barrier x.toNat (y.setWidth 24))))))) ∧
  (∀ (s : State) (a : BitVec 5) (x : Word) (s1 : State), legalHere s (.bsync a) = true → readX a s = .ok x s1 → x.toNat < 128 →
    (∀ ph r, s1.me.wait = .released x.toNat ph r → Completes (.bsync a) s s1) ∧
    (∀ ph, joined x.toNat s1.me.wait = some (ph, none) → (s1.myCore.bar x.toNat).tout = false →
      Waits (.bsync a) s (.barrier x.toNat ph)) ∧
    ((∀ ph r, s1.me.wait ≠ .released x.toNat ph r) → (s1.myCore.bar x.toNat).tout = true → Traps (.bsync a) s .barrierTimeout 0) ∧
    (joined x.toNat s1.me.wait = none → s1.me.wait ≠ .arrival x.toNat → (s1.myCore.bar x.toNat).tout = false →
      (s1.myCore.bar x.toNat).group = false →
      let t := arriveAt (after pin s1) s1.cid x.toNat none false
      ((t.2.myCore.bar x.toNat).phase ≠ t.1 → Completes (.bsync a) s t.2) ∧
      ((t.2.myCore.bar x.toNat).phase = t.1 →
        exec (.bsync a) s = .next (beginPark t.2 (.barrier x.toNat t.1))))) ∧
  (∀ (s : State) (d a b : BitVec 5) (x y : Word) (s1 s2 : State), legalHere s (.bcomb d a b) = true → readX a s = .ok x s1 →
    x.toNat < 128 → readX b s1 = .ok y s2 →
    (∀ ph r s3, s2.me.wait = .released x.toNat ph r → writeX d r s2 = .ok () s3 → Completes (.bcomb d a b) s s3) ∧
    (∀ ph, joined x.toNat s2.me.wait = some (ph, none) → (s2.myCore.bar x.toNat).tout = false →
      Waits (.bcomb d a b) s (.barrier x.toNat ph)) ∧
    ((∀ ph r, s2.me.wait ≠ .released x.toNat ph r) → (s2.myCore.bar x.toNat).tout = true →
      Traps (.bcomb d a b) s .barrierTimeout 0) ∧
    (joined x.toNat s2.me.wait = none → s2.me.wait ≠ .arrival x.toNat → (s2.myCore.bar x.toNat).tout = false →
      (s2.myCore.bar x.toNat).group = false →
      let t := arriveAt (after pin s2) s2.cid x.toNat (some y) false
      ((t.2.myCore.bar x.toNat).phase ≠ t.1 → ∀ s3, writeX d (t.2.myCore.bar x.toNat).result t.2 = .ok () s3 →
        Completes (.bcomb d a b) s s3) ∧
      ((t.2.myCore.bar x.toNat).phase = t.1 →
        exec (.bcomb d a b) s = .next (beginPark t.2 (.barrier x.toNat t.1))))) ∧
  (∀ (s : State) (a : BitVec 5) (x : Word) (s1 : State), legalHere s (.bswap a) = true → readX a s = .ok x s1 → x.toNat < 128 →
    s.me.wait = s1.me.wait → (s1.myCore.bar x.toNat) = s.myCore.bar x.toNat →
    (∀ ph r, s1.me.wait = .released x.toNat ph r → Completes (.bswap a) s s1) ∧
    ((s.myCore.bar x.toNat).group = false → joined x.toNat s.me.wait = none → Traps (.bswap a) s .barrierState 0) ∧
    (∀ ph, joined x.toNat s.me.wait = some (ph, none) → (s.myCore.bar x.toNat).tout = false →
      Waits (.bswap a) s (.barrier x.toNat ph)) ∧
    ((s.myCore.bar x.toNat).group = true → (∀ ph r, s.me.wait ≠ .released x.toNat ph r) →
      (s.myCore.bar x.toNat).tout = true → Traps (.bswap a) s .barrierTimeout 0)) ∧
  (∀ (s : State) (d a : BitVec 5) (x : Word) (s1 : State), legalHere s (.bquery d a) = true → readX a s = .ok x s1 →
    x.toNat < 128 → let r := s.myCore.bar x.toNat
    ∀ s2, writeX d (word (boolNat r.group * 2 ^ 63 + boolNat r.tout * 2 ^ 62 + r.op.toNat * 2 ^ 58 + r.count.toNat * 2 ^ 40
      + r.arrived % 2 ^ 16 * 2 ^ 24 + r.phase.toNat)) s1 = .ok () s2 → Completes (.bquery d a) s s2)) ∧
  (∀ (s : State) (c b : Nat) (val : Option Word) (swap : Bool),
    let bar := (s.core c).bar b
    let r := arriveAt s c b val swap
    let now := (r.2.core c).bar b
    let acc0 := if bar.arrived = 0 then combineId bar.op.toNat else bar.acc
    let acc := match val with | some v => combine bar.op.toNat acc0 v | none => acc0
    r.1 = bar.phase ∧
    (bar.arrived + 1 = bar.count.toNat → now.phase = bar.phase + 1 ∧ now.arrived = 0 ∧ now.result = acc ∧
      ∀ t, (s.thread c t).wait = .barrier b bar.phase ∨ (s.thread c t).wait = .joined b bar.phase →
        (r.2.thread c t).wait = .released b bar.phase acc) ∧
    (bar.arrived + 1 ≠ bar.count.toNat → now.phase = bar.phase ∧ now.arrived = bar.arrived + 1 ∧ now.result = bar.result ∧
      now.acc = acc))

/-- COPY, COPY2D, CSTAT, FEWAIT, FESET and FECLR: checks, the copy started, its status, the bits set and cleared
(R205, R207, R211, R212, R213) -/
def Obligations.CopyAndGranuleWords : Prop :=
  (∀ (s : State) (d a : BitVec 5) (twoD : Bool) (x : Word) (s1 : State),
    let i : Instr := if twoD then .copy2d d a else .copy d a
    legalHere s i = true → readX a s = .ok x s1 →
    let w := BitVec.ofNat 256 (s1.myCore.lread x.toNat 32)
    (∀ c l, placedData s1.myCore x.toNat 32 32 = some (c, l) → Traps i s c l) ∧
    (placedData s1.myCore x.toNat 32 32 = none → (copyDesc w).ok twoD = false → Traps i s .descriptorFormat x) ∧
    (placedData s1.myCore x.toNat 32 32 = none → (copyDesc w).ok twoD = true →
      (freePlace s1.myCore = none → Waits i s .copyPlace) ∧
      ∀ p, freePlace s1.myCore = some p →
        let q := s1.myCore.copySeq
        let r : CopyRec :=
          { seq := q % 2 ^ 32, desc := w, twoD := twoD, slot := s1.tid, ctx := s1.myCtx, order := s1.coreOrder s1.cid,
            sup := s1.sup, row := 0, off := 0, state := 0, cause := 0, addr := 0, fin := 0 }
        let s2 := after pin s1
        let s3 := s2.setMyCore { s2.myCore with copySeq := q + 1, copies := s2.myCore.copies.set p r }
        let s4 := if (copyDesc w).len = 0 then copyEnd s3 s3.cid p 1 0 0 else s3.emit (.copyTransfer s1.cid p 1)
        ∀ s5, writeX d (word (q % 2 ^ 32 * 16 + p)) s4 = .ok () s5 → Completes i s s5)) ∧
  (∀ (s : State) (d a : BitVec 5) (x : Word) (s1 : State), legalHere s (.cstat d a) = true → readX a s = .ok x s1 →
    (x.toNat / 2 ^ 36 ≠ 0 → Traps (.cstat d a) s .operandRange 0) ∧
    (x.toNat / 2 ^ 36 = 0 →
      let st := match s.myCore.copies.find? (x.toNat % 16) with
        | some r => if r.seq = x.toNat / 16 then word (r.state.toNat * 2 ^ 62 + r.cause.toNat * 2 ^ 54 + r.addr.toNat)
          else word (3 * 2 ^ 62)
        | none => word (3 * 2 ^ 62)
      ∀ s2, writeX d st s1 = .ok () s2 → Completes (.cstat d a) s s2)) ∧
  (∀ (s : State) (a b : BitVec 5) (x y : Word) (s1 s2 : State), readX a s = .ok x s1 → readX b s1 = .ok y s2 →
    let good := x.toNat % 16 = 0 ∧ y.toNat % 16 = 0 ∧ 16 ≤ y.toNat ∧ y.toNat ≤ 2 ^ 18
    ∀ i : Instr, i = .fewait a b ∨ i = .feset a b ∨ i = .feclr a b → legalHere s i = true →
      (¬ good → Traps i s .operandRange 0) ∧
      (good → ∀ c l, localFault s2.myCore x.toNat y.toNat = some (c, l) → Traps i s c l) ∧
      (good → localFault s2.myCore x.toNat y.toNat = none →
        (i = .fewait a b → ¬ Served s2 (x.toNat / 16) (y.toNat / 16) true →
          Waits i s (.granules (x.toNat / 16) (y.toNat / 16) true)) ∧
        (i = .fewait a b → Served s2 (x.toNat / 16) (y.toNat / 16) true → Completes i s s2) ∧
        (i = .feset a b → Completes i s (after (setFE true (x.toNat / 16) (y.toNat / 16)) s2)) ∧
        (i = .feclr a b → Completes i s (after (setFE false (x.toNat / 16) (y.toNat / 16)) s2)))) ∧
  (∀ (s : State) (full : Bool) (g n j : Nat), g + n ≤ 2 ^ 14 → j < 2 ^ 14 →
    (after (setFE full g n) s).myCore.full.getLsbD j = (if g ≤ j ∧ j < g + n then full else s.myCore.full.getLsbD j))

/-- RTICK, RPUT, RTAKE and RREL: checks, tickets, slots, recorded faults and waits (R216, R217, R218, R224, R225,
R226, R340) -/
def Obligations.RingWords : Prop :=
  (∀ (s : State) (d a : BitVec 5) (h : Word) (s1 : State), legalHere s (.rtick d a) = true → readX a s = .ok h s1 →
    RingStops (.rtick d a) s s1 h false ∧
    (RingOpen s1 h false →
      let s2 := after pin s1
      let c := handleCore h
      let o := handleHdr h
      let r := ringHdr (s2.core c) o
      (r.gen ≠ handleGen h → ∀ s3, writeX d (BitVec.allOnes 64) s2 = .ok () s3 → Completes (.rtick d a) s s3) ∧
      (r.gen = handleGen h → r.depth = r.count ∨ ringHeld s2 c o = true → Waits (.rtick d a) s .ring) ∧
      (r.gen = handleGen h → r.depth ≠ r.count → ringHeld s2 c o = false → ∀ s3 s4,
        mirrorHeader (passTicket c o s2) c o s2.me.sv = .ok s3 → writeX d r.tail s3 = .ok () s4 →
        Completes (.rtick d a) s s4))) ∧
  (∀ (s : State) (c o : Nat) (sv : Bool), let r := ringHdr (s.core c) o
    (Mem.wf (s.core c).lmem = true → ringHdr ((passTicket c o s).core c) o = { r with tail := r.tail + 1 }) ∧
    (r.journ = false → mirrorHeader s c o sv = .ok s)) ∧
  (∀ (s : State) (v a b : BitVec 5) (h t : Word) (s1 s2 : State), legalHere s (.rput v a b) = true → readX a s = .ok h s1 →
    readX b s1 = .ok t s2 →
    let c := handleCore h
    let o := handleHdr h
    let r := ringHdr (s2.core c) o
    let good := r.head.toNat ≤ t.toNat ∧ t.toNat < r.tail.toNat ∧ slotFull (s2.core c) r t.toNat = false
    RingStops (.rput v a b) s s2 h false ∧
    (RingOpen s2 h false →
      (16 < r.ssize → Traps (.rput v a b) s .operandRange 0) ∧
      (r.ssize ≤ 16 → ¬ good → Traps (.rput v a b) s .ringState 0) ∧
      (r.ssize ≤ 16 → good →
        let s3 := if r.journ then withJournal s2 c o s2.me.sv else s2
        let s4 := s3.setCore c ((s3.core c).lwrite (r.slot t.toNat) r.bytes ((s2.me.getV v.toNat).toNat % 256 ^ r.bytes))
        Completes (.rput v a b) s (fillSlot s4 c o t.toNat)))) ∧
  (∀ (s : State) (c o t : Nat), let r := ringHdr (s.core c) o
    fillSlot s c o t = if r.journ then s.emit (.journalWrite c o t (s.coreOrder c))
      else s.setCore c ((s.core c).setFull (r.slot t / 16) (2 * r.ssize))) ∧
  (∀ (s : State) (d a : BitVec 5) (h : Word) (s1 : State), legalHere s (.rtake d a) = true → readX a s = .ok h s1 →
    let c := handleCore h
    let o := handleHdr h
    let r := ringHdr (s1.core c) o
    let fault := r.fvalid = true ∧ r.fticket = r.head
    RingStops (.rtake d a) s s1 h true ∧
    (RingOpen s1 h true →
      (fault → ringCause r.fcause = none → Traps (.rtake d a) s .descriptorFormat (word o)) ∧
      (fault → ∀ z, ringCause r.fcause = some z → exec (.rtake d a) s = .next (takeTrap s z r.faddr true)) ∧
      (¬ fault → takeHeld s c o = true ∨ slotFull (s.core c) r r.head.toNat = false → Waits (.rtake d a) s .ring) ∧
      (¬ fault → takeHeld s c o = false → slotFull (s.core c) r r.head.toNat = true →
        let s2 := if isStageRing s c o = true then s1.setMyCore { s1.myCore with taken := true } else s1
        ∀ s3, writeX d (word (r.slot r.head.toNat)) s2 = .ok () s3 → Completes (.rtake d a) s s3))) ∧
  (∀ (s : State) (d a : BitVec 5) (h : Word) (s1 : State), legalHere s (.rrel d a) = true → readX a s = .ok h s1 →
    let c := handleCore h
    let o := handleHdr h
    let r := ringHdr (s1.core c) o
    RingStops (.rrel d a) s s1 h true ∧
    (RingOpen s1 h true → slotFull (s.core c) r r.head.toNat = false → Traps (.rrel d a) s .ringState 0) ∧
    (RingOpen s1 h true → slotFull (s.core c) r r.head.toNat = true →
      let s2 := after pin s1
      let moved := fun (u : Sub) =>
        let u' := { u with ticket := none }
        let t := { s2 with subs := s2.subs.map fun v => if v.kiosk = u.kiosk ∧ v.id = u.id then u' else v }
        if u.moved = u.tiles then endSub t u' else t
      let released := fun (t : State) =>
        let q := ringHdr (t.core c) o
        let t1 := t.setCore c (setHead ((t.core c).clearFull (q.slot q.head.toNat / 16) (2 * q.ssize)) o (q.head + 1))
        setMirror t1 c o q.head.toNat false
      let done := fun (t : State) => if isStageRing s c o then t.setMyCore { t.myCore with taken := false } else t
      (pullSub s c o = none → ¬ (s.me.wait = .ring ∧ r.fvalid = true ∧ r.fticket = r.head) → ∀ s3 s4,
        mirrorHeader (released s2) c o s2.me.sv = .ok s3 → writeX d r.head (done s3) = .ok () s4 → Completes (.rrel d a) s s4) ∧
      (∀ u, pullSub s c o = some u → u.ticket = some r.head.toNat → ∀ s3 s4,
        mirrorHeader (released (moved u)) c o s2.me.sv = .ok s3 → writeX d r.head (done s3) = .ok () s4 →
        Completes (.rrel d a) s s4) ∧
      (∀ u, pullSub s c o = some u → u.ticket ≠ some r.head.toNat →
        let e := Event.kioskPullTile u.kiosk u.id
        if s.flight.contains e then Waits (.rrel d a) s .ring
        else exec (.rrel d a) s = .next (beginPark (keepPayload s (s2.emit e)) .ring))))

/-- KROUTE delivers the owner of a key's range, SUBS starts a subscription, and UNSUBS ends one (R214, R215, R218,
R338, R339) -/
def Obligations.RoutingAndSubscriptions : Prop :=
  (∀ (s : State) (d a b : BitVec 5) (key x : Word) (s1 s2 : State), legalHere s (.kroute d a b) = true →
    readX a s = .ok key s1 → readX b s1 = .ok x s2 →
    (x.toNat % 64 ≠ 0 → Traps (.kroute d a b) s .misalignedAccess x) ∧
    (x.toNat % 64 = 0 →
      let ps := (List.range 64).map fun i => ((x + 64 + word (16 * i)).toNat, 16)
      (∀ z l df s3, checkAll .read ps s2 = .error (.trap z l df) s3 → exec (.kroute d a b) s = .next (takeTrap s z l df)) ∧
      (∀ l df n s3, checkAll .read ps s2 = .error (.absent l n df) s3 → exec (.kroute d a b) s = .next (beginAbsent s l n df)) ∧
      (∀ w s3, checkAll .read ps s2 = .error (.wait w) s3 → Waits (.kroute d a b) s w) ∧
      ∀ es s3, checkAll .read ps s2 = .ok () s2 → mapM' (fun p => do
        let xs ← checkParts .read true [p]
        let vs ← readParts xs [p]
        return vs.headD 0) ps s2 = .ok es s3 →
      (routeEntry es key.toNat = none → Traps (.kroute d a b) s .descriptorFormat x) ∧
      ∀ e, routeEntry es key.toNat = some e →
        (e / 2 ^ 38 % 2 ^ 8 ≠ 0 → Traps (.kroute d a b) s .descriptorFormat x) ∧
        (e / 2 ^ 38 % 2 ^ 8 = 0 → (word e).getLsbD 46 = true → Waits (.kroute d a b) s .route) ∧
        (e / 2 ^ 38 % 2 ^ 8 = 0 → (word e).getLsbD 46 = false → ∀ s4,
          writeX d (word (e % 2 ^ 28 + e / 2 ^ 48 % 2 ^ 16 * 2 ^ 48)) (after (request 1 [d.toNat]) s3) = .ok () s4 →
          Completes (.kroute d a b) s s4))) ∧
  (∀ (es : List Nat) (key e : Nat), routeEntry es key = some e →
    e ∈ es ∧ entryValid e = true ∧ entryLo e ≤ key ∧
      ∀ f ∈ es, entryValid f = true → entryLo f ≤ key → entryLo f ≤ entryLo e) ∧
  (∀ (s : State) (d a : BitVec 5) (x : Word) (s1 : State), legalHere s (.subs d a) = true → readX a s = .ok x s1 →
    let n := s1.myCore.lread x.toNat 64
    let u := subDesc n
    let c := handleCore u.ring
    let h := handleHdr u.ring
    let r := ringHdr (s.core c) h
    let s2 := after pin s1
    (∀ z l, placedOpen s.myCore x.toNat 64 64 = some (z, l) → Traps (.subs d a) s z l) ∧
    (placedOpen s.myCore x.toNat 64 64 = none → handleReserved u.ring = true → Traps (.subs d a) s .operandRange 0) ∧
    (placedOpen s.myCore x.toNat 64 64 = none → handleReserved u.ring = false → 768 ≤ c →
      Traps (.subs d a) s .invalidTarget 0) ∧
    (placedOpen s.myCore x.toNat 64 64 = none → handleReserved u.ring = false → c < 768 → s.away c = true →
      Waits (.subs d a) s .held) ∧
    (placedOpen s.myCore x.toNat 64 64 = none → handleReserved u.ring = false → ∀ z l, c < 768 → s.away c = false →
      placedFront (s.core c) h 64 64 = some (z, l) → Traps (.subs d a) s z l) ∧
    (placedOpen s.myCore x.toNat 64 64 = none → handleReserved u.ring = false → c < 768 → s.away c = false →
      placedFront (s.core c) h 64 64 = none →
      (u.ok = false → Traps (.subs d a) s .descriptorFormat x) ∧
      (u.ok = true → ringBad (s.core c) r = true → Traps (.subs d a) s .descriptorFormat (word h)) ∧
      (u.ok = true → ringBad (s.core c) r = false → u.rows * u.rowbytes ≠ r.bytes →
        Traps (.subs d a) s .descriptorFormat x) ∧
      (u.ok = true → ringBad (s.core c) r = false → u.rows * u.rowbytes = r.bytes →
        let same := (liveSubs s).any fun v => v.core == c && v.hdr == h && v.pull == (u.mode == 1)
        let many := ((liveSubs s).filter fun v => v.kiosk == u.kiosk).length
        (same = true → ∀ s3, writeX d (-2) s2 = .ok () s3 → Completes (.subs d a) s s3) ∧
        (same = false → 64 ≤ many → ∀ s3, writeX d (-1) s2 = .ok () s3 → Completes (.subs d a) s s3) ∧
        (same = false → many < 64 →
          let id := s.subIds.get u.kiosk 0 % 2 ^ 16
          let sub : Sub :=
            { kiosk := u.kiosk, id := id, pull := u.mode == 1, core := c, hdr := h, gen := handleGen u.ring, base := u.base,
              tstride := u.tstride, rstride := u.rstride, rowbytes := u.rowbytes, rows := u.rows, tiles := u.tiles, moved := 0,
              ticket := none, ctx := s.myCtx, sup := s.sup, order := s.coreOrder s.cid, parts := 0, buf := 0 }
          let t := { s2 with subs := liveSubs s2 ++ [sub], subIds := s2.subIds.set u.kiosk (s2.subIds.get u.kiosk 0 + 1) }
          let t1 := t.setCore c (setLiveBit (t.core c) h (u.mode == 1) true)
          ∀ s3, writeX d (word (u.kiosk * 2 ^ 32 + id)) (if u.mode = 1 then t1 else t1.emit (.kioskPushTile u.kiosk id)) =
            .ok () s3 → Completes (.subs d a) s s3)))) ∧
  (∀ (s : State) (d a : BitVec 5) (x : Word) (s1 : State), legalHere s (.unsubs d a) = true → readX a s = .ok x s1 →
    let k := x.toNat / 2 ^ 32 % 2 ^ 5
    let id := x.toNat % 2 ^ 16
    (x.toNat / 2 ^ 37 ≠ 0 ∨ x.toNat / 2 ^ 16 % 2 ^ 16 ≠ 0 → Traps (.unsubs d a) s .operandRange 0) ∧
    (x.toNat / 2 ^ 37 = 0 → x.toNat / 2 ^ 16 % 2 ^ 16 = 0 →
      let live := (liveSubs s).find? fun v => v.kiosk == k && v.id == id
      (live = none → ∀ s2, writeX d (-1) (after pin s1) = .ok () s2 → Completes (.unsubs d a) s s2) ∧
      ∀ u, live = some u →
        (launchHere s u.core u.order = none ∨ subWaits s k id = true ∨ u.parts ≠ 0 ∨ (u.pull = false ∧ u.ticket ≠ none) → Waits (.unsubs d a) s .ring) ∧
        (launchHere s u.core u.order ≠ none → subWaits s k id = false → u.parts = 0 → u.pull = true ∨ u.ticket = none → ∀ s2,
          writeX d (word u.moved) (endSub (after pin s1) u) = .ok () s2 → Completes (.unsubs d a) s s2)))

/-- SOPEN, SPOP, VSPOP, SADV, STEND, SFIB and SCLOSE: descriptors, elements in order, overruns and fibres (R219,
R220, R221, R422) -/
def Obligations.StreamWords : Prop :=
  (∀ (s : State) (a b : BitVec 5) (x : Word) (s1 : State), legalHere s (.sopen a b) = true → readX b s = .ok x s1 →
    let w := BitVec.ofNat 256 (s1.myCore.lread x.toNat 32)
    (∀ z l, placedOpen s.myCore x.toNat 32 32 = some (z, l) → Traps (.sopen a b) s z l) ∧
    (placedOpen s.myCore x.toNat 32 32 = none → (streamDesc w).bad = true → Traps (.sopen a b) s .descriptorFormat x) ∧
    (placedOpen s.myCore x.toNat 32 32 = none → (streamDesc w).bad = false →
      let t0 := cancelReads s1 s1.cid s1.tid a.toNat
      let t := t0.setMe { t0.me with streams := t0.me.streams.set a.toNat ⟨w, 0, none, 0, []⟩ }
      Completes (.sopen a b) s (if (streamDesc w).kind ≠ 2 ∧ (streamDesc w).count ≠ 0
        then t.emit (.streamReadAhead s.cid s.tid a.toNat) else t))) ∧
  (∀ (s : State) (d a : BitVec 5), s.me.streams.find? a.toNat = none →
    (legalHere s (.spop d a) = true → Traps (.spop d a) s .streamState 0) ∧
    (legalHere s (.vspop d a) = true → Traps (.vspop d a) s .streamState 0) ∧
    (legalHere s (.stend d a) = true → Traps (.stend d a) s .streamState 0) ∧
    (legalHere s (.sfib d a) = true → Traps (.sfib d a) s .streamState 0) ∧
    (∀ x s1, legalHere s (.sadv a d) = true → readX d s = .ok x s1 → Traps (.sadv a d) s .streamState 0)) ∧
  (∀ (s : State) (d a : BitVec 5) (r : StreamReg), legalHere s (.spop d a) = true → s.me.streams.find? a.toNat = some r →
    let kind := (streamDesc r.desc).kind
    let passed := fun (t : State) => t.setMe { t.me with streams := t.me.streams.set a.toNat (r.advance 1) }
    (kind ≠ 2 → r.remaining = 0 → Traps (.spop d a) s .streamOverrun 0) ∧
    (kind ≠ 2 → r.remaining ≠ 0 →
      (∀ e, r.queue.find? (fun q => q.idx == r.pos) = some e →
        (∀ z l, e.fault = some (z, l) → exec (.spop d a) s = .next (takeTrap s z l true)) ∧
        (e.fault = none → ∀ t, writeX d e.val (passed s) = .ok () t → Completes (.spop d a) s t)) ∧
      (r.queue.find? (fun q => q.idx == r.pos) = none →
        let n := elemEntries (streamDesc r.desc)
        (engineFree s s.cid n = false → Waits (.spop d a) s .reg) ∧
        (engineFree s s.cid n = true → ∀ v x s1 t,
          readElem s s.cid s.tid (streamDesc r.desc) r.pos = .ok (v, x, s1) →
          writeX d (word v) (passed (engineHold s1 s.cid n)) = .ok () t → Completes (.spop d a) s t))) ∧
    (kind = 2 → d.toNat % 2 ≠ 0 ∨ d = 30#5 → Traps (.spop d a) s .illegalInstruction 0) ∧
    (kind = 2 → d.toNat % 2 = 0 → d ≠ 30#5 → r.remaining = 0 → ∀ t1 t2, writeX d 0 s = .ok () t1 →
      writeX (d + 1) (BitVec.allOnes 64) t1 = .ok () t2 → Completes (.spop d a) s t2) ∧
    (kind = 2 → d.toNat % 2 = 0 → d ≠ 30#5 → r.remaining ≠ 0 → ∀ e, r.queue.find? (fun q => q.idx == r.pos) = some e →
      e.fault = none → ∀ t1 t2, writeX d e.val (passed s) = .ok () t1 → writeX (d + 1) e.coord t1 = .ok () t2 →
      Completes (.spop d a) s t2)) ∧
  (∀ (s : State) (d a : BitVec 5) (r : StreamReg), legalHere s (.vspop d a) = true → s.me.streams.find? a.toNat = some r →
    let w := (streamDesc r.desc).w
    let n := min r.remaining (512 / w)
    (r.remaining = 0 → Traps (.vspop d a) s .streamOverrun 0) ∧
    ∀ f : Nat → StreamElem, r.remaining ≠ 0 → (∀ i, i < n → r.queue.find? (fun q => q.idx == r.pos + i) = some (f i) ∧
        (f i).fault = none ∧ (f i).val.toNat < 256 ^ w) →
      ∃ v : VReg, Completes (.vspop d a) s
        ((s.setMe { s.me with streams := s.me.streams.set a.toNat (r.advance n) }).putV d v) ∧
        ∀ j, j < 512 / w → vElem (8 * w) v j = if j < n then (f j).val.toNat else vElem (8 * w) (s.me.getV d.toNat) j) ∧
  (∀ (s : State) (a b : BitVec 5) (r : StreamReg) (x : Word) (s1 : State), legalHere s (.sadv a b) = true →
    readX b s = .ok x s1 → s1.me.streams.find? a.toNat = some r →
    Completes (.sadv a b) s
      (s1.setMe { s1.me with streams := s1.me.streams.set a.toNat (r.advance (min x.toNat r.remaining)) })) ∧
  (∀ (s : State) (d a : BitVec 5) (r : StreamReg) (t : State), legalHere s (.stend d a) = true →
    s.me.streams.find? a.toNat = some r → writeX d (word r.remaining) s = .ok () t → Completes (.stend d a) s t) ∧
  (∀ (s : State) (d a : BitVec 5) (r : StreamReg), legalHere s (.sfib d a) = true → s.me.streams.find? a.toNat = some r →
    let sd := streamDesc r.desc
    let f := match r.fib with | none => 0 | some f => f + 1
    let left := fun (t : State) (q : StreamReg) => t.setMe { t.me with streams := t.me.streams.set a.toNat q }
    (sd.kind ≠ 2 → Traps (.sfib d a) s .streamState 0) ∧
    (sd.kind = 2 → engineFree s s.cid 1 = false → Waits (.sfib d a) s .reg) ∧
    (sd.kind = 2 → engineFree s s.cid 1 = true → sd.count ≤ f → ∀ e s1 t, streamIndex s s.cid s.tid sd sd.count = .ok (e, s1) →
      writeX d (BitVec.allOnes 64)
        (left (engineHold s1 s.cid 1) { r with fib := if sd.count = 0 then none else some (sd.count - 1), pos := e, last := e, queue := [] }) =
          .ok () t → Completes (.sfib d a) s t) ∧
    (sd.kind = 2 → engineFree s s.cid 1 = true → f < sd.count → ∀ p s1, streamIndex s s.cid s.tid sd f = .ok (p, s1) →
      let h1 := engineHold s1 s.cid 1
      (engineFree h1 h1.cid 1 = false → Waits (.sfib d a) s .reg) ∧
      (engineFree h1 h1.cid 1 = true → ∀ e s2, streamIndex h1 h1.cid h1.tid sd (f + 1) = .ok (e, s2) →
      (e < p → Traps (.sfib d a) s .descriptorFormat (sd.b + word ((f + 1) * sd.iw))) ∧
      (p ≤ e → ∀ t,
        let s3 := left (engineHold s2 h1.cid 1) { r with fib := some f, pos := p, last := e, queue := [] }
        writeX d (word f) (if p < e then s3.emit (.streamReadAhead s.cid s.tid a.toNat) else s3) = .ok () t →
          Completes (.sfib d a) s t)))) ∧
  (∀ (s : State) (a : BitVec 5), legalHere s (.sclose a) = true →
    let t := cancelReads s s.cid s.tid a.toNat
    Completes (.sclose a) s (t.setMe { t.me with streams := SMap.del t.me.streams a.toNat })) ∧
  (∀ (s : State) (c t n : Nat) (i : PageItem), i ∈ (cancelReads s c t n).pageItems ↔
    i ∈ s.pageItems ∧ ∀ j, i.asker ≠ .stream c t n j)

/-- The law words: an operation on the evaluated object at its home, and its result; LWNOW delivers a clock (R145,
R158, R179, R181, R182, R183, R184, R185, R186, R187, R188, R189) -/
def Obligations.LawWords : Prop :=
  (∀ (s : State) (d a : BitVec 5) (x : Word) (s1 : State), readX a s = .ok x s1 →
    (legalHere s (.lwrd d a) = true →
      LawDoes (.lwrd d a) s s1 x [d.toNat] lawRead fun c e => writeX d (c.entry.out e.v)) ∧
    (legalHere s (.lwrdx d a) = true → LawDoes (.lwrdx d a) s s1 x [d.toNat, d.toNat + 1] lawRead fun c e => do
      writeX d (c.entry.out e.v)
      writeX (d + 1) (word (min e.supp 0xFFFF * 2 ^ 40 + e.first.getD 0 % 2 ^ 24 * 2 ^ 16 + min e.n 0xFFFF)))) ∧
  (∀ (s : State) (d a b : BitVec 5) (x y : Word) (s1 s2 : State), readX a s = .ok x s1 → readX b s1 = .ok y s2 →
    (legalHere s (.lwadd d a b) = true → LawDoes (.lwadd d a b) s s2 x [d.toNat] (lawAdd y) fun c e =>
      writeX d (c.entry.out (if c.entry.kind = 4 then (e.v + y.toNat % 2 ^ 32) % 2 ^ 32
        else c.entry.clamp (e.v + toSigned (y.toNat % 2 ^ 32) 32)))) ∧
    (legalHere s (.lwset d a b) = true → LawDoes (.lwset d a b) s s2 x [d.toNat] (lawSet y) fun c e =>
      writeX d (c.entry.out e.v)) ∧
    (legalHere s (.lwdep a b) = true →
      (y.toNat / 2 ^ 4 % 2 ^ 28 ≠ 0 → Traps (.lwdep a b) s .operandRange 0) ∧
      (y.toNat / 2 ^ 4 % 2 ^ 28 = 0 →
        LawDoes (.lwdep a b) s s2 x [0] (lawDeposit (y.toNat / 2 ^ 32) (y.toNat % 16)) fun _ _ => pure ())) ∧
    (legalHere s (.lwinit d a b) = true → LawInRange x → y.toNat / 2 ^ 8 % 2 ^ 24 ≠ 0 →
      Traps (.lwinit d a b) s .operandRange 0) ∧
    (legalHere s (.lwinit d a b) = true → ¬ LawInRange x → Traps (.lwinit d a b) s .addressRange x) ∧
    (legalHere s (.lwinit d a b) = true → LawInRange x → y.toNat / 2 ^ 8 % 2 ^ 24 = 0 →
      let s3 := after pin s2
      (poolHas s3 1 = false → Waits (.lwinit d a b) s .reg) ∧
      (poolHas s3 1 = true →
        (∀ e, lawOpen s3 s3.lawWho (lawPlace s2 x) (some (y.toNat % 256)) true = .error e → LawStops (.lwinit d a b) s e) ∧
        ∀ c s4 s5, lawOpen s3 s3.lawWho (lawPlace s2 x) (some (y.toNat % 256)) true = .ok (c, s4) →
          writeX d (word c.now) (after (request 1 [d.toNat]) (lawStore s4 s3.lawWho s3.gates c
            ⟨lawWord (c.entry.clamp (c.entry.value y)) c.now (y.toNat % 256), List.replicate c.entry.len 0⟩)) = .ok () s5 →
          Completes (.lwinit d a b) s s5))) ∧
  (∀ (s : State) (d a : BitVec 5) (x : Word) (s1 : State), legalHere s (.lwpeek d a) = true → readX a s = .ok x s1 →
    (¬ LawInRange x → Traps (.lwpeek d a) s .addressRange x) ∧
    (LawInRange x → poolHas s1 1 = false → Waits (.lwpeek d a) s .reg) ∧
    (LawInRange x → poolHas s1 1 = true →
      (∀ e, lawOpen s1 s1.lawWho (lawPlace s1 x) none false = .error e → LawStops (.lwpeek d a) s e) ∧
      ∀ c s2 s3, lawOpen s1 s1.lawWho (lawPlace s1 x) none false = .ok (c, s2) →
        writeX d (c.entry.out (c.entry.advance c.obj c.now).v) (after (request 1 [d.toNat]) s2) = .ok () s3 →
        Completes (.lwpeek d a) s s3)) ∧
  (∀ (s : State) (d a : BitVec 5) (t : State), legalHere s (.lwnow d a) = true →
    writeX d (s.clock s.myCtx a.toNat) s = .ok () t → Completes (.lwnow d a) s t)

/-- LWSTEP advances a stepped domain's clock, and LWSWEEP registers and releases sweep regions (R158, R163, R190,
R191) -/
def Obligations.LawStepAndSweep : Prop :=
  (∀ (s : State) (d a b : BitVec 5) (m : Word) (s1 : State), legalHere s (.lwstep d a b) = true → readX b s = .ok m s1 →
    let x := s.myCtx
    let bad := ∀ dom, (s.ctx x).domains[a.toNat]? = some dom → dom.stepped = false ∨ m = 0 ∨ 2 ^ 20 < m.toNat
    (bad → Traps (.lwstep d a b) s .operandRange 0) ∧
    ∀ dom, (s.ctx x).domains[a.toNat]? = some dom → dom.stepped = true → 1 ≤ m.toNat → m.toNat ≤ 2 ^ 20 →
      let old := dom.clock.toNat
      let passes := (s.ctx x).modes.getLsbD 3 = false ∧ 2 ^ 21 ≤ old % 2 ^ 21 + m.toNat
      let free := passes → firstBehind s x a.toNat = none
      let s2 := after pin s1
      (free → poolHas s2 1 = false → Waits (.lwstep d a b) s .reg) ∧
      (free → poolHas s2 1 = true → ∀ s3, writeX d (dom.clock + m) (after (request 1 [d.toNat]) (s2.setCtx x
          { s2.ctx x with domains := (s2.ctx x).domains.set a.toNat { dom with clock := dom.clock + m } })) = .ok () s3 →
        Completes (.lwstep d a b) s s3) ∧
      (∀ r i, passes → firstBehind s x a.toNat = some (r, i) →
        if s.flight.contains (.horizonSweep x r i) then Waits (.lwstep d a b) s .sweep
        else exec (.lwstep d a b) s = .next (beginPark (keepPayload s (s2.emit (.horizonSweep x r i))) .sweep))) ∧
  (∀ (s : State) (d a b : BitVec 5) (x y : Word) (s1 s2 : State), legalHere s (.lwsweep d a b) = true →
    readX a s = .ok x s1 → readX b s1 = .ok y s2 →
    let c := s.myCtx
    let cx := s.ctx c
    let s3 := after pin s2
    let ok := y.toNat / 2 ^ 40 % 2 ^ 23 = 0 ∧ y.toNat / 2 ^ 34 % 2 ^ 3 = 0 ∧ x.getLsbD 63 = false
    (¬ ok → Traps (.lwsweep d a b) s .operandRange 0) ∧
    (ok → poolHas s3 1 = false → Waits (.lwsweep d a b) s .reg) ∧
    (ok → poolHas s3 1 = true → y.getLsbD 63 = true → y.toNat % 2 ^ 63 ≠ 0 → Traps (.lwsweep d a b) s .operandRange 0) ∧
    (ok → poolHas s3 1 = true → y.getLsbD 63 = true → y.toNat % 2 ^ 63 = 0 → ∀ s4,
      writeX d (if cx.regions.any fun r => r.base == x.toNat then 0 else 4) (after (request 1 [d.toNat]) (s3.setCtx c
        { s3.ctx c with regions := (s3.ctx c).regions.filter fun r => r.base != x.toNat })) = .ok () s4 →
      Completes (.lwsweep d a b) s s4) ∧
    (ok → poolHas s3 1 = true → y.getLsbD 63 = false →
      let sp := [8, 32, 64, 128].getD (y.toNat / 2 ^ 32 % 4) 128
      let n := y.toNat % 2 ^ 32
      let dom := y.toNat / 2 ^ 37 % 2 ^ 3
      let s4 := after (request 1 [d.toNat]) s3
      (x.toNat % sp ≠ 0 → Traps (.lwsweep d a b) s .misalignedAccess x) ∧
      (x.toNat % sp = 0 → n = 0 ∨ 2 ^ 28 < n → Traps (.lwsweep d a b) s .operandRange 0) ∧
      (x.toNat % sp = 0 → n ≠ 0 → n ≤ 2 ^ 28 →
        let st : Word := if cx.modes.getLsbD 3 then 3 else if 64 ≤ cx.regions.length then 1
          else if 2 ^ 57 < sweepLoad s + n * 2 ^ (31 - domainP cx dom) then 2 else 0
        (st ≠ 0 → ∀ s5, writeX d st s4 = .ok () s5 → Completes (.lwsweep d a b) s s5) ∧
        (st = 0 → ∀ s5, writeX d 0 (s4.setCtx c { s4.ctx c with regions := (s4.ctx c).regions ++
          [⟨x.toNat, sp, n, dom, s4.sup, s4.clocks c, n⟩] }) =
          .ok () s5 → Completes (.lwsweep d a b) s s5))))

/-- How a law word evolves, and that a committing operation leaves nothing to evaluate at the same tick (R154, R160,
R161, R167, R168, R169, R170, R181) -/
def Obligations.LawEvaluation : Prop :=
  (∀ (e : LawEntry) (v : Int) (k : Nat),
    (e.kind = 0 → e.evolve v k = (min e.hi (max e.lo v), 0)) ∧
    (e.kind = 1 → e.evolve v k = (min e.hi (max e.lo (v + e.rate * k)), 0)) ∧
    (e.kind = 2 → e.evolve v k =
      (min e.hi (max e.lo (e.rest + ((v - e.rest) * decayPow e.decay k).tdiv (2 ^ 32))), 0)) ∧
    (e.kind = 3 → e.evolve v k = (min e.hi (max e.lo
      (e.rest + e.bias + ((v - (e.rest + e.bias)) * decayPow e.decay k).tdiv (2 ^ 32))), 0)) ∧
    (e.kind = 4 → e.evolve v k = ((v + e.rate * k) % 2 ^ 32,
      ((v + e.rate * k) / 2 ^ 32 - (v + e.rate * (k - 1)) / 2 ^ 32).toNat))) ∧
  (∀ d, decayPow d 0 = 2 ^ 32) ∧ (∀ k, 1 ≤ k → k < 2 ^ 64 → decayPow 0 k = 0) ∧
  (∀ (e : LawEntry) (o : LawObj) (now : Nat), e.kind ≤ 4 → -2 ^ 31 ≤ e.lo → e.lo ≤ e.hi → e.hi < 2 ^ 31 →
    (e.kind = 4 → 0 ≤ e.reset ∧ e.reset < 2 ^ 32) →
    let a := e.advance o now
    let b := e.advance ⟨lawWord a.v now o.index, a.slots⟩ now
    b.v = a.v ∧ b.slots = a.slots ∧ b.n = 0 ∧ b.supp = 0) ∧
  (∀ now k, k < 2 ^ 24 → k ≤ now → elapsed now ((now - k) % 2 ^ 24) = k)

/-- MSEND, HEND, ANXPUT and ANXEND: checks, the message sent, and the ends of an activation (R321, R322, R324, R327,
R328, R330, R344, R345) -/
def Obligations.MessageWords : Prop :=
  (∀ (s : State) (d a : BitVec 5) (x : Word) (s1 : State), legalHere s (.msend d a) = true → readX a s = .ok x s1 →
    let formed := x.toNat / 2 ^ 34 = 0 ∧ ¬ (x.toNat / 2 ^ 26 % 2 ^ 8 = 255 ∧ x.toNat % 2 ^ 10 ≠ 0)
    let there := x.toNat % 2 ^ 10 < 768 ∧ x.toNat / 2 ^ 10 % 2 ^ 16 < s.npkgs
    let m : Msg := ⟨sourceWord s.tid s.pkg s.cid, s.me.seq + 1, x, s.myCtx, s.coreOrder s.cid, s.me.mo⟩
    let s2 := s1.setMe { s1.me with seq := s.me.seq + 1, mo := [] }
    (¬ formed → Traps (.msend d a) s .descriptorFormat 0) ∧
    (formed → ¬ there → Traps (.msend d a) s .invalidTarget 0) ∧
    (formed → there → s.isTh = false → 64 ≤ outboundUsed s s.cid → Waits (.msend d a) s .outbound) ∧
    (formed → there → s.isTh = true ∨ outboundUsed s s.cid < 64 →
      (s.unpinned = false → ∀ s3, writeX d (word (s.me.seq + 1)) (sendOut s2 [.messageArrival m]) = .ok () s3 →
        Completes (.msend d a) s s3) ∧
      (s.unpinned = true → ∀ act, s2.myCore.act = some act →
        (act.heldMsgs.length < 32 → ∀ s3, writeX d (word (s.me.seq + 1)) (s2.setMyCore { s2.myCore with
          act := some { act with heldMsgs := act.heldMsgs ++ [.messageArrival m] } }) = .ok () s3 →
          Completes (.msend d a) s s3) ∧
        (32 ≤ act.heldMsgs.length → ∀ s3,
          writeX d (word (s.me.seq + 1)) (sendOut (after pin s2) [.messageArrival m]) = .ok () s3 →
          Completes (.msend d a) s s3)))) ∧
  (∀ s : State, legalHere s .hend = true →
    (s.isTh = false ∨ s.myCore.act = none → Traps .hend s .illegalInstruction 0) ∧
    ∀ a : Activation, s.isTh = true → s.myCore.act = some a →
      (a.kind ≠ .message → Traps .hend s .annexState 0) ∧
      (a.kind = .message → holdsFit s a = false → Waits .hend s .outbound) ∧
      (a.kind = .message → holdsFit s a = true → Completes .hend s (endActivation s s.cid))) ∧
  (∀ (s : State) (a b : BitVec 5) (x y : Word) (s1 s2 : State), legalHere s (.anxput a b) = true → readX a s = .ok x s1 →
    readX b s1 = .ok y s2 →
    let split := s.isTh = true ∧ ∃ t, s.myCore.act = some t ∧ t.kind = .split
    let len := y.toNat / 2 ^ 18 % 2 ^ 17
    let dst := y.toNat % 2 ^ 18
    (¬ split ∨ annexOn s s.cid false = none → Traps (.anxput a b) s .annexState 0) ∧
    ∀ n, split → annexOn s s.cid false = some n →
      let ok := y.toNat / 2 ^ 36 = 0 ∧ len % 16 = 0 ∧ 16 ≤ len ∧ len ≤ 2 ^ 16
      (¬ ok → Traps (.anxput a b) s .operandRange 0) ∧
      (ok → x.toNat % 16 ≠ 0 → Traps (.anxput a b) s .misalignedAccess x) ∧
      (ok → x.toNat % 16 = 0 → dst % 16 ≠ 0 → Traps (.anxput a b) s .misalignedAccess (word dst)) ∧
      (ok → x.toNat % 16 = 0 → dst % 16 = 0 → localFault s2.myCore x.toNat len = none →
        placedFront (s.core n.y) dst len 16 = none → s.away n.y = true → Waits (.anxput a b) s .ring) ∧
      (ok → x.toNat % 16 = 0 → dst % 16 = 0 → localFault s2.myCore x.toNat len = none →
        placedFront (s.core n.y) dst len 16 = none → s.away n.y = false →
        let k := (s2.core n.y).lwrite dst len (s2.myCore.lread x.toNat len)
        Completes (.anxput a b) s (s2.setCore n.y (if y.getLsbD 35 then k.setFull (dst / 16) (len / 16) else k)))) ∧
  (∀ s : State, legalHere s .anxend = true →
    (s.isTh = false → Traps .anxend s .illegalInstruction 0) ∧
    (s.isTh = true → s.myCore.act = none → Traps .anxend s .annexState 0) ∧
    ∀ a : Activation, s.isTh = true → s.myCore.act = some a →
      (a.kind = .message → Traps .anxend s .annexState 0) ∧
      (a.kind ≠ .message → holdsFit s a = false → Waits .anxend s .outbound) ∧
      (a.kind ≠ .message → holdsFit s a = true →
        let s1 := endActivation s s.cid
        let s2 := match annexOn s1 s1.cid (a.kind == ActKind.merge) with
          | some n => setAnnex s1 n { n with step := n.step + 1 }
          | none => s1
        Completes .anxend s (s2.emit (if a.kind = ActKind.merge then .mergeActivation s.cid else .annexForward s.cid))))

/-- The steps of the copy, stream and kiosk engines, the journals and the law units, and what each leaves (R208,
R209, R216, R217, R220, R339, R173, R175, R176, R177, R178, R191) -/
def Obligations.EnginesAndLawUnitsMove : Prop :=
  ((∀ (s : State) (c p n : Nat), AtHand (.copyTransfer c p n) s →
    (copyBusy s c p = false → Moves .copyTransfer s s) ∧
    (copyBusy s c p = true → (s.core c).fenced = true → NotDue .copyTransfer s) ∧
    (copyBusy s c p = true → (s.core c).fenced = false → (s.pageItems.any fun i => i.asker == .copy c p) = false → ∀ t, copyUnits s c p n = some t →
      Moves .copyTransfer s (if copyBusy t c p then t.emit (.copyTransfer c p n) else t))) ∧
  (∀ (s : State) (c p : Nat) (r : CopyRec) (a : Word) (n v : Nat), (copyDesc r.desc).dstLocal = true →
    localFault (s.core c) a.toNat n = none → ∃ t, copyWrite s c p r a n v = .moved t ∧
      (t.core c).lmem = Mem.write (s.core c).lmem a.toNat n v ∧
      (t.core c).full = (if (copyDesc r.desc).fe then (s.core c).full ||| granMask (a.toNat / 16) (n / 16) else (s.core c).full) ∧
      t.sectors = s.sectors ∧ t.mem = s.mem) ∧
  (∀ (s : State) (c t n : Nat), AtHand (.streamReadAhead c t n) s →
    ((s.thread c t).streams.find? n = none → Moves .streamReadAhead s s) ∧
    (∀ r i, (s.thread c t).streams.find? n = some r → nextAhead r = some i → (s.core c).fenced = false →
      (∀ p ∈ s.pageItems, p.asker ≠ .stream c t n i) → engineFree s c (elemEntries (streamDesc r.desc)) = true →
      (∀ v x u, readElem s c t (streamDesc r.desc) i = .ok (v, x, u) →
        let u1 := engineHold u c (elemEntries (streamDesc r.desc))
        Moves .streamReadAhead s ((queueElem u1 c t n r ⟨i, word v, word x, none⟩).emit (.streamReadAhead c t n))) ∧
      (∀ z a, z ≠ .notPresent → readElem s c t (streamDesc r.desc) i = .error (.fault z a) →
        Moves .streamReadAhead s ((queueElem s c t n r ⟨i, 0, 0, some (z, word a)⟩).emit (.streamReadAhead c t n))))) ∧
  (∀ (s : State) (k id : Nat), AtHand (.kioskPushTile k id) s →
    (findSub s k id = none → Moves .kioskPushTile s s) ∧
    (∀ u, findSub s k id = some u → launchHere s u.core u.order = some false → Moves .kioskPushTile s
      (dropSubItems { s with subs := s.subs.filter fun v => !(v.kiosk == k && v.id == id) } k id)) ∧
    (∀ u, findSub s k id = some u → launchHere s u.core u.order = none → NotDue .kioskPushTile s) ∧
    (∀ u, findSub s k id = some u → subWaits s k id = false → launchHere s u.core u.order = some true →
      ringBad (s.core u.core) (ringHdr (s.core u.core) u.hdr) = false → u.pull = false →
      (∀ h s1, u.ticket = none → (ringHdr (s.core u.core) u.hdr).gen = u.gen → nextTicket s u.core u.hdr u.gen = some h →
        mirrorHeader (passTicket u.core u.hdr s) u.core u.hdr u.sup = .ok s1 →
        Moves .kioskPushTile s ((setSub s1 { u with ticket := some h.toNat }).emit (.kioskPushTile k id))) ∧
      (∀ t va n v s1, u.ticket = some t → (tileParts u u.moved)[u.parts]? = some (va, n) →
        unitRead s .other 768 u.ctx u.sup [(va, n)] = .ok (v, s1) →
        let b := pushBytes (s1.core u.core) (ringHdr (s1.core u.core) u.hdr) t (tileDone u) n v u.buf
        let s2 := s1.setCore u.core b.1
        (u.parts + 1 < (tileParts u u.moved).length →
          Moves .kioskPushTile s ((setSub s2 { u with parts := u.parts + 1, buf := b.2 }).emit (.kioskPushTile k id))) ∧
        (¬ u.parts + 1 < (tileParts u u.moved).length →
          let u1 := { u with ticket := none, moved := u.moved + 1, parts := 0, buf := 0 }
          let t1 := setSub s2 u1
          let s3 := if (ringHdr (t1.core u.core) u.hdr).journ then fillSlot t1 u.core u.hdr t else t1
          Moves .kioskPushTile s (if u.moved + 1 = u.tiles then endSub s3 u1 else s3.emit (.kioskPushTile k id)))))) ∧
  (∀ (k : Core) (r : RingHdr) (t o n v : Nat), r.journ = false → o % 16 = 0 → n % 16 = 0 → n ≠ 0 →
    pushBytes k r t o n v 0 =
      ((k.lwrite (r.slot t + o) n (v % 256 ^ n)).setFull ((r.slot t + o) / 16) (n / 16), v / 256 ^ n)) ∧
  (∀ (s : State) (k id : Nat), AtHand (.kioskPullTile k id) s →
    (findSub s k id = none → Moves .kioskPullTile s s) ∧
    (∀ u, findSub s k id = some u → launchHere s u.core u.order = some false → Moves .kioskPullTile s
      (dropSubItems { s with subs := s.subs.filter fun v => !(v.kiosk == k && v.id == id) } k id)) ∧
    (∀ u va n s1, findSub s k id = some u → subWaits s k id = false → launchHere s u.core u.order = some true →
      ringBad (s.core u.core) (ringHdr (s.core u.core) u.hdr) = false → u.pull = true → u.ticket = none →
      (tileParts u u.moved)[u.parts]? = some (va, n) →
      let r := ringHdr (s.core u.core) u.hdr
      unitWrite s .other 768 u.ctx u.sup [(va, n)] ((s.core u.core).lread (r.slot r.head.toNat + tileDone u) n) = (none, s1) →
      Moves .kioskPullTile s (if u.parts + 1 < (tileParts u u.moved).length
        then (setSub s1 { u with parts := u.parts + 1 }).emit (.kioskPullTile k id)
        else setSub s1 { u with ticket := some r.head.toNat, moved := u.moved + 1, parts := 0 }))) ∧
  (∀ (s s1 s3 : State) (c h t order : Nat), AtHand (.journalWrite c h t order) s →
    let k := s.core c
    let r := ringHdr k h
    let at_ := r.jbase + t % r.count * r.bytes
    (launchHere s c order = some false → Moves .journalWrite s s) ∧
    (launchHere s c order = none → NotDue .journalWrite s) ∧
    (launchHere s c order = some true → ringBad k r = true →
      Moves .journalWrite s (s.setCore c (recordFault k h (word t) .descriptorFormat h))) ∧
    (launchHere s c order = some true → ringBad k r = false →
      unitWrite s .other 768 (s.coreCtx c) (journalSup s c h) (partsOf at_ r.bytes) (k.lread (r.slot t) r.bytes) = (none, s1) →
      let s2 := setMirror (writeThrough s1 (s.coreCtx c) at_ r.bytes) c h t true
      mirrorHeader (s2.setCore c ((s2.core c).setFull (r.slot t / 16) (2 * r.ssize))) c h false = .ok s3 →
      Moves .journalWrite s s3))) ∧
  ((∀ (s : State) (x : Nat) (h : Word) (r : BitVec 256), AtHand (.lawEventRecord x h r) s →
    let c := handleCore h
    let o := handleHdr h
    let fits := handleReserved h = false ∧ c < 768 ∧ ringFault (s.core c) o = none ∧ (ringHdr (s.core c) o).gen = handleGen h
    (¬ fits → Moves .lawEventRecord s (lawError s x)) ∧
    (fits → (s.core c).fenced = false → ∀ t s1, nextTicket s c o (handleGen h) = some t →
      mirrorHeader (passTicket c o s) c o true = .ok s1 → Moves .lawEventRecord s (putSlot s1 c o t.toNat r.toNat))) ∧
  (∀ (s : State) (x : Nat) (list : Word) (k n : Nat), AtHand (.fanOutDeposit x list k n) s →
    let rest := fun (t : State) => if k = 1 then t else t.emit (.fanOutDeposit x (list + 16) (k - 1) n)
    (k = 0 → Moves .fanOutDeposit s s) ∧
    (k ≠ 0 → ∀ w s1, dispRead s x list.toNat 16 = .ok (w, s1) →
      (∀ t, fanOutOne s1 x n (BitVec.ofNat 128 w) = .ok t → Moves .fanOutDeposit s (rest t)) ∧
      (∀ c a, c ≠ .notPresent → fanOutOne s1 x n (BitVec.ofNat 128 w) = .error (.fault c a) →
        Moves .fanOutDeposit s (rest (lawError s1 x)))) ∧
    (k ≠ 0 → ∀ c a, c ≠ .notPresent → dispRead s x list.toNat 16 = .error (.fault c a) →
      Moves .fanOutDeposit s (rest (lawError s x)))) ∧
  (∀ (s : State) (x r i : Nat), AtHand (.horizonSweep x r i) s →
    ((s.ctx x).regions[r]? = none → Moves .horizonSweep s s) ∧
    (∀ g, (s.ctx x).regions[r]? = some g → (s.ctx x).modes.getLsbD 3 = false → i < g.count →
      let w : LawWho := ⟨.other, 768, x, g.sup⟩
      ∀ b : Bool, (b = true ↔ ∃ c0 s0, lawOpen s w (.global_ (g.base + g.spacing * i)) none false = .ok (c0, s0) ∧
        c0.now % 2 ^ 21 < elapsed c0.now (c0.obj.word.toNat / 2 ^ 8 % 2 ^ 24)) →
      (∀ c s1, lawOpen s w (.global_ (g.base + g.spacing * i)) none b = .ok (c, s1) →
        let bnd := c.now - c.now % 2 ^ 21
        let t := sweepTouch s1 x c
        let s2 := t.setCtx x { t.ctx x with regions := (t.ctx x).regions.set r (g.visited (t.clocks x) i) }
        let age := elapsed c.now (c.obj.word.toNat / 2 ^ 8 % 2 ^ 24)
        (age ≤ c.now % 2 ^ 21 → Moves .horizonSweep s s2) ∧
        (c.now % 2 ^ 21 < age → actionsFull s2 w c = false →
          let c1 := { c with now := bnd }
          let a := c1.entry.advance c1.obj bnd
          Moves .horizonSweep s (lawAct (lawStore s2 w false c1 (c1.touched a)) w c1 a))) ∧
      (∀ z a, z ≠ .notPresent → z ≠ .descriptorFormat →
        lawOpen s w (.global_ (g.base + g.spacing * i)) none b = .error (.fault z a) →
        Moves .horizonSweep s (lawError (s.setCtx x { s.ctx x with regions := (s.ctx x).regions.eraseIdx r }) x)))))

/-- The steps of messages, activations, the host mailbox, remote operations and the links, and what each leaves
(R319, R320, R323, R324, R325, R326, R329, R331, R333, R334, R335, R399) -/
def Obligations.MessagesMove : Prop :=
  (∀ (s : State) (m : Msg), AtHand (.messageArrival m) s →
    let c0 := m.desc.toNat % 2 ^ 10
    let h := m.desc.toNat / 2 ^ 26 % 2 ^ 8
    let c := msgCore s c0
    let old := acceptedOf (s.core c) (srcKey m)
    let taken := fun (t : State) => answer (t.setCore c (setAccepted (t.core c) (srcKey m) m.seq)) m none
    (h ≠ 255 → 768 ≤ c0 ∨ (s.ctx m.ctx).live = false → Moves .messageArrival s (answer s m (some (.invalidTarget, 0)))) ∧
    (h ≠ 255 → c0 < 768 → (s.ctx m.ctx).live = true → (s.core c).fenced = false →
      (∀ n, old = some n → m.seq ≤ n → Moves .messageArrival s (answer s m none)) ∧
      ((∀ n, old = some n → n < m.seq) → (old = none → (s.core c).accepted.length < 1024) →
        (∀ t, enqueueMsg s c m (fun t => some (taken t)) = some t → Moves .messageArrival s t) ∧
        ((s.core c).bound ≠ none → s.coreCtx c = m.ctx → (s.core c).inbound.length < 64 →
          ((s.core c).spilled.any fun e => e.2.ctx == m.ctx) = false → Moves .messageArrival s
            (taken ((s.setCore c { s.core c with
              inbound := (s.core c).inbound ++ [m], deliveries := (s.core c).deliveries ++ [(m, s.cycle)] }).emit
                (.handlerActivation c))))))) ∧
  (∀ (s : State) (src : Word) (n : Nat), AtHand (.messageAcknowledgement src n) s →
    let found := s.unacked.find? fun u => u.1 == src && u.2.1 == n
    (found = none → Moves .messageAcknowledgement s s) ∧
    (∀ u, found = some u →
      let t := { s with unacked := s.unacked.erase u, segments := s.segments.filter fun p => p.1 != u.2.2 }
      let h := u.2.2.desc.toNat / 2 ^ 26 % 2 ^ 8
      let c := u.2.2.desc.toNat % 2 ^ 10
      let p := u.2.2.desc.toNat / 2 ^ 10 % 2 ^ 16
      Moves .messageAcknowledgement s (
        if owed t (srcKey u.2.2) p c = true ∨ (240 ≤ h ∧ h < 244) ∨ h = 255 then t
        else if p = s.pkg then t.emit (.messageRelease c src (srcKey u.2.2).2)
        else { t with releases := t.releases ++ [(p, c, src, (srcKey u.2.2).2)] }))) ∧
  (∀ (s : State) (c0 : Nat) (src : Word) (order : Nat), AtHand (.messageRelease c0 src order) s →
    let c := msgCore s c0
    Moves .messageRelease s (if owed s (src, order) s.pkg c0 then s else s.setCore c { s.core c with
      accepted := (s.core c).accepted.filter fun e => !(e.1 == src && e.2.1 == order) })) ∧
  (∀ (s : State) (c : Nat), AtHand (.handlerActivation c) s →
    let x := s.coreCtx c
    (nextMessage (s.core c) x = none → Moves .handlerActivation s s) ∧
    (nextMessage (s.core c) x ≠ none → canActivate s c = false ∨ annexDueOn s c = true → NotDue .handlerActivation s) ∧
    ∀ m fails k, canActivate s c = true → annexDueOn s c = false → nextMessage (s.core c) x = some (m, fails, k) →
      let h := m.desc.toNat / 2 ^ 26 % 2 ^ 8
      let dead := fun (t : State) =>
        faultAnswer (deadNotice (t.setCore c k) c m Cause.descriptorFormat.code) m .descriptorFormat 0
      (240 ≤ h → Moves .handlerActivation s (dead s)) ∧
      (h < 240 → ∀ n s1, dispRead s x ((s.ctx x).hndbase.toNat + 32 * h) 32 = .ok (n, s1) →
        (handlerEntry n = none → Moves .handlerActivation s (dead s1)) ∧
        ∀ budget pc sp, handlerEntry n = some (budget, pc, sp) →
          Moves .handlerActivation s (startActivation (s1.setCore c k) c .message m budget fails pc sp
            [(3, m.src ||| word (m.payload.length * 2 ^ 29)), (4, word m.seq), (5, word h)] (0, 0)))) ∧
  (∀ (s : State) (c : Nat) (a : Activation), AtHand (.budgetFault c) s → (s.core c).act = some a →
    a.start + a.budget ≤ s.cycle → (∀ id, (s.thread c 4).wait ≠ .pageFault id) →
    Moves .budgetFault s (handlerFault s c .budget)) ∧
  (∀ (s : State) (m : Msg) (dead : Bool) (cause : BitVec 8), AtHand (.hostMailboxNotice m dead cause) s →
    dead = true ∨ m.src.toNat / 2 ^ 10 % 2 ^ 16 = s.pkg →
    ((s.ctx m.ctx).live = false →
      Moves .hostMailboxNotice s (if dead then s else answer s m (some (.invalidTarget, 0)))) ∧
    ((s.ctx m.ctx).live = true → (s.queue m.ctx (mailboxQueue s m)).heldNotices = [] → ∀ t,
      tryNotice s m.ctx (mailboxQueue s m) (msgWords m dead cause) = .written t →
      Moves .hostMailboxNotice s (if dead then t else answer t m none))) ∧
  (∀ (s : State) (m : Msg), let w := fun (i : Nat) => m.payload.getD i 0
    let minor := (w 1).toNat
    let own := m.src.toNat / 2 ^ 10 % 2 ^ 16 = s.pkg
    let fin := fun (t : State) => if own ∨ t.issue.status = .kept then t else hear t m
    (∀ i e, (i, e) ∈ [(Instr.remoteLoad, Event.remoteLoad m), (.remoteStore, .remoteStore m), (.remoteAtomic, .remoteAtomic m),
        (.remoteLaw, .remoteLaw m)] → AtHand e s → ¬ own → heardBefore s m = true → Moves i s (answer s m none)) ∧
    (own ∨ heardBefore s m = false →
    (∀ c, AtHand (.remoteLoad m) s → remoteCheck s m 4 (decide ((w 3).toNat / 2 % 2 ^ 63 = 0)) (w 1) = some c →
      Moves .remoteLoad s (fin (answer s m (some (c, 0))))) ∧
    (AtHand (.remoteLoad m) s → remoteCheck s m 4 (decide ((w 3).toNat / 2 % 2 ^ 63 = 0)) (w 1) = none →
      (w 0).toNat % 8 = 0 → ∀ x s1 v, unitXlate s .other 768 m.ctx false .read (w 0).toNat = .ok (x, s1) →
      readPa s1 (s1.ctx m.ctx).seed x.pa 8 = some v → Moves .remoteLoad s
        (fin (answer (sendReply s1 m (homeSlice s1 (s1.ctx m.ctx).seed x.pa) (w 1) [w 2, word v]) m none))) ∧
    (AtHand (.remoteStore m) s → remoteCheck s m 2 true (BitVec.allOnes 64) = none → (w 0).toNat % 8 = 0 →
      ∀ x s1 s2, unitXlate s .other 768 m.ctx false .write (w 0).toNat = .ok (x, s1) →
      writePa s1 (s1.ctx m.ctx).seed x.pa 8 (w 1).toNat = some s2 → Moves .remoteStore s (fin (answer s2 m none))) ∧
    (AtHand (.remoteAtomic m) s →
      let op := (w 1).toNat % 2 ^ 6
      let n := 4 * 2 ^ ((w 1).toNat / 2 ^ 8 % 4)
      remoteCheck s m 6 (decide (op ≤ 10) && decide ((w 1).toNat / 2 ^ 8 % 4 < 2) && decide ((w 1).toNat / 2 ^ 10 = 0) &&
        decide ((w 1).toNat / 2 ^ 6 % 4 = 0)) (w 4) = none → (w 0).toNat % n = 0 →
      ∀ x old s2, unitCheck s .other 768 m.ctx false .atomic (w 0).toNat = .ok x →
      let seed := (s.ctx m.ctx).seed
      let dry := ∃ o, readPa s seed x.pa n = some o ∧ remoteAtomicValue op n o (w 2) (w 3) = none
      ∀ s1, (dry → s1 = applyXlat s 768 m.ctx (x.withoutD s m.ctx)) → (¬ dry → s1 = applyXlat s 768 m.ctx x) →
      readPa s1 seed x.pa n = some old →
      (match remoteAtomicValue op n old (w 2) (w 3) with
        | some v => writePa s1 seed x.pa n v = some s2
        | none => s2 = s1) →
      Moves .remoteAtomic s (fin (answer (sendReply s2 m (homeSlice s2 seed x.pa) (w 4)
        [w 5, atomResult op (8 * n) old]) m none))) ∧
    (AtHand (.remoteLaw m) s → remoteCheck s m 5 (minor == 0 || minor == 3 || minor == 4 || minor == 6) (w 3) = none →
      let who : LawWho := ⟨.other, 768, m.ctx, false⟩
      ∀ c a s1, lawCommit s who false (.global_ (w 0).toNat) (remoteChange minor (w 2)) = .ok (c, a, s1) →
      let v := if minor = 3 then (match lawAdd (w 2) c.entry c.now a with | some r => r.1 | none => 0) else a.v
      let slice := match lawUnit s1 who c with | .inr n => n | .inl n => n
      Moves .remoteLaw s (fin (answer (if minor = 6 then s1 else sendReply s1 m slice (w 3) [w 4, c.entry.out v]) m none))))) ∧
  (∀ (s : State) (src : Word) (x order : Nat) (cause : BitVec 8) (addr : BitVec 52),
    AtHand (.remoteFault src x order cause addr) s →
    let kind := src.toNat / 2 ^ 26 % 2 ^ 3
    let c := src.toNat % 2 ^ 10
    let th := s.thread c kind
    let rf := if th.rfstat.getLsbD 63 then th.rfstat ||| 0x4000000000000000
      else word (2 ^ 63 + th.rfstat.toNat / 2 ^ 62 % 2 * 2 ^ 62 + cause.toNat * 2 ^ 54 + addr.toNat)
    (5 ≤ kind ∨ 768 ≤ c → Moves .remoteFault s (lawError s x)) ∧
    (kind < 5 → c < 768 →
      (launchHere s c order = some true → Moves .remoteFault s (s.setThread c kind { th with rfstat := rf })) ∧
      (launchHere s c order = some false → Moves .remoteFault s s) ∧ (launchHere s c order = none → NotDue .remoteFault s))) ∧
  (∀ (s : State) (m : Msg), AtHand (.drtRetransmit m) s →
    ((∀ p ∈ s.segments, p.1 ≠ m) → NotDue .drtRetransmit s) ∧
    ∀ p, s.segments.find? (fun p => p.1 == m) = some p →
      (s.ns < p.2 + 16000 → NotDue .drtRetransmit s) ∧
      (p.2 + 16000 ≤ s.ns → Moves .drtRetransmit s { s with
        fabric := s.fabric ++ [m], segments := s.segments.map fun q => if q.1 = m then (m, s.ns) else q })) ∧
  (∀ (s : State) (p : Nat), AtHand (.linkPortFailure p) s →
    let t := { s with failedPorts := if s.failedPorts.contains p then s.failedPorts else s.failedPorts ++ [p] }
    let lost := (t.unacked.map (·.2.2)).filter fun m =>
      m.desc.toNat / 2 ^ 10 % 2 ^ 16 != t.pkg && t.routes.get (m.desc.toNat / 2 ^ 10 % 2 ^ 16) 0 != 1
    Moves .linkPortFailure s (if (List.range 48).all t.failedPorts.contains then lost.foldl linkLost t else t))

/-- The steps of latches, time limits, the search for work, steals, the heartbeat and barriers, and what each leaves
(R197, R295, R297, R298, R299, R302, R303, R306, R307, R310, R315, R316) -/
def Obligations.TasksAndBarriersMove : Prop :=
  (∀ (s : State) (c order : Nat) (l : BitVec 4), AtHand (.eventLatchSet c order l) s →
    (launchHere s c order = some true → (s.core c).fenced = false → Moves .eventLatchSet s (setLatches s c l)) ∧
    (launchHere s c order ≠ some true ∨ (s.core c).fenced = true → Moves .eventLatchSet s s)) ∧
  (∀ (s : State) (i : Instr) (e : Event) (c order : Nat), AtHand e s →
    ((∃ t v r, i = .stealAnswer ∧ e = .stealAnswer c t v order r) ∨ (∃ d, i = .strandsDone ∧ e = .strandsDone c d order) ∨
      (i = .launchStop ∧ e = .launchStop c order) ∨
      (∃ d t b v w k, i = .groupBarrierArrival ∧ e = .groupBarrierArrival c d t b order v w k) ∨
      (∃ b p r w, i = .barrierRelease ∧ e = .barrierRelease c b order p r w)) →
    (launchHere s c order = some false → Moves i s s) ∧ (launchHere s c order = none → NotDue i s)) ∧
  (∀ (s : State) (c t n : Nat), AtHand (.wfeTimeout c t) s → (s.thread c t).wait = .event n →
    ((s.thread c t).since + n ≤ s.cycle →
      Moves .wfeTimeout s (s.setThread c t { s.thread c t with wait := .eventOver })) ∧
    (s.cycle < (s.thread c t).since + n → NotDue .wfeTimeout s)) ∧
  (∀ (s : State) (c t g n : Nat) (full : Bool), AtHand (.feTimeout c t) s → (s.thread c t).wait = .granules g n full →
    let limit := if (s.thread c t).fetimeout = 0 then 2 ^ 40 else (s.thread c t).fetimeout.toNat
    ((s.thread c t).since + limit < s.cycle → (s.core c).granulesAre g n full = false →
      Moves .feTimeout s (trapThread s c t .feTimeout 0 false)) ∧
    (s.cycle ≤ (s.thread c t).since + limit → NotDue .feTimeout s)) ∧
  (∀ (s : State) (c t : Nat), AtHand (.pairTimeout c t) s → (s.thread c t).wait = .pairing →
    (s.thread c t).since + (if (s.thread c t).fetimeout = 0 then 2 ^ 40 else (s.thread c t).fetimeout.toNat) < s.cycle →
    Moves .pairTimeout s (trapThread s c t .pairState 0 false)) ∧
  (∀ (s : State) (c t : Nat), AtHand (.workSearch c t) s →
    let k := s.core c
    (searching s c t = false → Moves .workSearch s s) ∧
    (searching s c t = true → (s.thread c t).search.asked = none → lowerFirst s c t = true → NotDue .workSearch s) ∧
    (searching s c t = true → (s.thread c t).search.asked = none → lowerFirst s c t = false →
      (∀ j js, k.runs = j :: js → Moves .workSearch s (resumeJoin s c t j)) ∧
      (∀ r u, k.runs = [] → k.deque.getLast? = some r →
        TaskMirrored (s.setCore c (settlePushes { k with deque := k.deque.dropLast })) u c t r →
        Moves .workSearch s (startTask u c t r)) ∧
      (∀ b, k.runs = [] → k.deque = [] → k.bound = some b →
        Moves .workSearch s (tryVictims s c t (stealOrder b.ld c))))) ∧
  (∀ (s : State) (c t : Nat), AtHand (.backOff c t) s →
    (searching s c t = false → Moves .backOff s s) ∧
    (searching s c t = true → (s.thread c t).search.until_ ≤ s.cycle → Moves .backOff s (s.emit (.workSearch c t)))) ∧
  (∀ (s : State) (c t v order : Nat), AtHand (.steal c t v order) s →
    let k := s.core v
    (launchHere s v order ≠ some true ∨ k.fenced = true ∨ k.deque = [] → Moves .steal s (s.emit (.stealAnswer c t v order none))) ∧
    (∀ r rs, launchHere s v order = some true → k.fenced = false → k.deque = r :: rs →
      Moves .steal s ((s.setCore v (settlePushes { k with deque := rs })).emit (.stealAnswer c t v order (some r))))) ∧
  (∀ (s : State) (c t v order : Nat) (r : Option TaskRec), AtHand (.stealAnswer c t v order r) s →
    launchHere s c order = some true →
    let s1 := monitorEvent s (some c) 0 0 6 (s.coreCtx c) (s.cycle - (s.thread c t).search.asked.getD s.cycle)
    let s2 := s1.setThread c t { s.thread c t with search := { (s.thread c t).search with asked := none } }
    (∀ q u, r = some q → searching s2 c t = true → TaskMirrored s2 u c t q → Moves .stealAnswer s (startTask u c t q)) ∧
    (∀ q, r = some q → searching s2 c t = false → Moves .stealAnswer s (trySendDone (s2.setCore c { s2.core c with
      tree := { (s2.core c).tree with aband := (s2.core c).tree.aband + 1 } }) c)) ∧
    (r = none → Moves .stealAnswer s
      (if searching s2 c t then tryVictims s2 c t (s.thread c t).search.cores else trySendDone s2 c))) ∧
  (∀ (s : State) (c t : Nat) (b : Bound), AtHand (.heartbeatMiss c t) s → (s.core c).bound = some b →
    (s.thread c t).strand = .running →
    ((s.thread c t).hbcount.toNat < 2 ^ b.ld.h → NotDue .heartbeatMiss s) ∧
    (2 ^ b.ld.h ≤ (s.thread c t).hbcount.toNat →
      let near := b.ld.cores.filter fun d => d != c && d / 12 == c / 12
      Moves .heartbeatMiss s (threadFault (near.foldl (fun u d => peerFault u b.record.order d)
        (s.setCore c { s.core c with fenced := true })) c t .heartbeat 0 1))) ∧
  (∀ (s : State) (order d : Nat), launchHere s d order = some true →
    peerFault s order d = s.setCore d { s.core d with peerFaults := (s.core d).peerFaults + 1 }) ∧
  (∀ (s : State) (p c order : Nat), AtHand (.strandsDone p c order) s → launchHere s p order = some true →
    Moves .strandsDone s (tryReport (s.setCore p { s.core p with
      tree := { (s.core p).tree with childReports := c :: (s.core p).tree.childReports } }) p)) ∧
  (∀ (s : State) (c order : Nat), AtHand (.launchStop c order) s → launchHere s c order = some true →
    if ((s.core c).threads.any fun p => decide (p.1 < 4) && p.2.progress.isSome) then NotDue .launchStop s
    else Moves .launchStop s (stopCore s c)) ∧
  (∀ (s : State) (m c t b order : Nat) (val : Word) (swap ack : Bool),
    AtHand (.groupBarrierArrival m c t b order val swap ack) s → launchHere s m order = some true →
    (s.core m).fenced = false → (ack = true → launchHere s c order ≠ none) →
    let r := arriveAt s m b (if ack then some val else none) swap
    let now := (r.2.core m).bar b
    let w : Wait := if c = m ∧ now.phase ≠ r.1 then .released b r.1 now.result else .joined b r.1
    (((s.core m).bar b).tout = true →
      Moves .groupBarrierArrival s (if ack = true ∧ (s.thread c t).wait = .arrival b
        then trapThread s c t .barrierTimeout 0 false else s)) ∧
    (∀ u, ((s.core m).bar b).tout = false → forwarded s m c b order ack = some u → Moves .groupBarrierArrival s u) ∧
    (((s.core m).bar b).tout = false → forwarded s m c b order ack = none → Moves .groupBarrierArrival s
      (if ack = true ∧ (r.2.thread c t).wait = .arrival b then r.2.setThread c t { r.2.thread c t with wait := w } else r.2))) ∧
  (∀ (s : State) (c b order : Nat) (ph : BitVec 24) (r : Word) (swap : Bool), AtHand (.barrierRelease c b order ph r swap) s →
    launchHere s c order = some true → (s.core c).fenced = false → Moves .barrierRelease s (receiveRelease s c b ph r swap)) ∧
  (∀ (s : State) (c b t0 : Nat), AtHand (.barrierTimeout c b) s →
    let bar := (s.core c).bar b
    bar.first = some t0 →
    (s.cycle < t0 + bar.limit ∨ bar.held = true ∨ bar.arrived = 0 → NotDue .barrierTimeout s) ∧
    (t0 + bar.limit ≤ s.cycle → bar.held = false → bar.arrived ≠ 0 → (s.ctx (s.coreCtx c)).modes.getLsbD 5 = false →
      Moves .barrierTimeout s (timeoutBarrier s c b)) ∧
    (t0 + bar.limit ≤ s.cycle → bar.held = false → bar.arrived ≠ 0 → (s.ctx (s.coreCtx c)).modes.getLsbD 5 = true →
      Moves .barrierTimeout s (postNotice (s.setCore c ((s.core c).setBar b { bar with held := true })) (s.coreCtx c)
        (s.coreQueue c) c false 0 [4, word c, word b, bar.phase.zeroExtend 64, 0, 0, 0]).2))

/-- The steps of slices, the base die, replies, refusals and walks, and what each leaves (R86, R87, R97, R98, R107,
R108, R113, R115, R118, R392, R393) -/
def Obligations.MemoryMoves : Prop :=
  (∀ (s : State) (n l : Nat), AtHand (.lineEviction n l) s →
    let held := s.holds.any fun h => h.slice == n && ((List.range 4).map (4 * l + ·)).contains h.sector
    (held = true → NotDue .lineEviction s) ∧
    (held = false →
      let u := evictSector (evictSector (evictSector (evictSector s n (4 * l)) n (4 * l + 1)) n (4 * l + 2)) n (4 * l + 3)
      Moves .lineEviction s { u with replicas := u.replicas.filter fun r => !(r.slice == n && r.sector / 4 == l) })) ∧
  (∀ (s : State) (n t : Nat) (e : SliceSector), s.sectors.find? (sectorKey n t) = some e → SMap.wf s.sectors = true →
    let u := evictSector s n t
    u.sectors.find? (sectorKey n t) = none ∧
    (e.modified = true ∨ e.zero = true → u.mem = Mem.write s.mem (32 * t) 32 e.data.toNat ∧ t ∉ u.poison) ∧
    (e.modified = false → e.zero = false → u.mem = s.mem ∧ u.poison = s.poison)) ∧
  (∀ (s : State) (n t : Nat) (ev : BusEvent), AtHand (.sectorFill n t ev) s →
    (s.ctxs.any fun c => c.2.live && homeSlice s c.2.seed (32 * t) == n) = true → populated s (32 * t) = true →
    s.sectors.find? (sectorKey n t) = none → Moves .sectorFill s (carrySector s n t ev)) ∧
  (∀ (s : State) (n t : Nat), t ∉ s.poison → s.sectors.find? (sectorKey n t) = none →
    readSector (carrySector s n t ⟨.clean, []⟩) n t = some (BitVec.ofNat 256 (Mem.read s.mem (32 * t) 32)) ∧
    ∀ y fs, readSector (carrySector s n t ⟨.uncorrectable y, fs⟩) n t = none ∧
      t ∈ (carrySector s n t ⟨.uncorrectable y, fs⟩).poison) ∧
  (∀ (s : State) (st ch : Nat), AtHand (.channelControllerLoss st ch) s → Moves .channelControllerLoss s
    { s with lostChannels := if s.lostChannels.contains (st, ch) then s.lostChannels else s.lostChannels ++ [(st, ch)] }) ∧
  (∀ (s : State) (c t tag : Nat), AtHand (.loadReply c t tag) s →
    (t = 5 → Moves .loadReply s (s.setCore c { s.core c with engine := (s.core c).engine - tag })) ∧
    (t ≠ 5 → ∃ u, Moves .loadReply s u ∧
    (u.thread c t).requests = (s.thread c t).requests.filter (fun r => r.tag != tag) ∧ u.sectors = s.sectors ∧ u.mem = s.mem)) ∧
  (∀ (s : State) (c t : Nat), AtHand (.storeRefused c t) s →
    let k := s.core c
    let found := k.refused.find? fun r => r.slot == t
    (found = none → Moves .storeRefused s s) ∧
    (∀ r, found = some r →
      let s1 := s.setCore c { k with refused := k.refused.filter fun q => q.slot != t }
      let now := k.thread t
      (now.strand ≠ .running → t ≠ 4 → Moves .storeRefused s (threadFault s1 c t .uncorrectableError r.addr 0)) ∧
      (now.strand = .running ∨ t = 4 →
        let th := { r.thread with
          seq := now.seq, hbcount := now.hbcount, latch := now.latch, requests := now.requests, strand := now.strand,
          task := now.task, initial := now.initial, rfstat := now.rfstat, wait := .none, progress := none }
        let i : Issue := { Issue.reset with lone := r.lone, w0 := r.w0, w1 := r.w1 }
        Moves .storeRefused s
          (takeTrap { s1.setThread c t th with cur := (c, t), issue := i } .uncorrectableError r.addr false)))) ∧
  (∀ (s : State) (c x : Nat) (va : Word) (nd : Rights) (sup : Bool), AtHand (.pageWalk c x va nd sup) s →
    let s1 := s.setCore c { s.core c with
      tlb := (s.core c).tlb.filter fun e => !(e.ctx == x && va.toNat / 2 ^ e.size == e.page) }
    let nd1 : Rights := if needsWrite nd then .read else nd
    (walkHeld s1 .other c x nd1 va.toNat = true → NotDue .pageWalk s) ∧
    (walkHeld s1 .other c x nd1 va.toNat = false →
      (∀ p, xlate s1 c x va.toNat nd1 sup = .ok p → Moves .pageWalk s (applyWalk s1 c x p)) ∧
      (∀ z, xlate s1 c x va.toNat nd1 sup = .error z → Moves .pageWalk s s1)))

/-- The steps of contexts, queues, commands, dispatch, binding, stages and annexes, and what each leaves (R351,
R354, R357, R358, R360, R423, R340, R341, R342, R343, R345, R346) -/
def Obligations.LaunchesAndStagesMove : Prop :=
  ((∀ (s : State) (x : Nat) (d : BitVec 512), AtHand (.contextCreate x d) s →
    ((s.ctx x).live = true → Moves .contextCreate s s) ∧
    ((s.ctx x).live = false →
      let refuse := fun (n : BitVec 3) => s.setCtx x { s.ctx x with live := false, cstat := n }
      let cx := newContext s d
      let domains := dispRead (s.setCtx x cx) x (cx.lawbase.toNat + 0x4000) 128
      (ctxReserved d = true → Moves .contextCreate s (refuse 2)) ∧
      (ctxReserved d = false → ∀ w, domains = .error (.held w) → NotDue .contextCreate s) ∧
      (ctxReserved d = false → ∀ z a, domains = .error (.fault z a) → Moves .contextCreate s (refuse 1)) ∧
      (ctxReserved d = false → ∀ n t, domains = .ok (n, t) →
        (domainDescs n 8 = none → Moves .contextCreate s (refuse 1)) ∧
        ∀ ds, domainDescs n 8 = some ds → ∃ u, Moves .contextCreate s u ∧ u.ctx x = { cx with domains := ds } ∧
          ∀ q, SMap.wf t.queues = true → q < 16 → u.queue x q = Queue.reset))) ∧
  (∀ (s : State) (x : Nat), AtHand (.contextDestroy x) s →
    ((s.ctx x).live = false → Moves .contextDestroy s s) ∧
    ((s.ctx x).live = true → contextBusy s x = true → Moves .contextDestroy s (refuseDestroy s x)) ∧
    ((s.ctx x).live = true → contextBusy s x = false → Moves .contextDestroy s (destroyContext s x))) ∧
  (∀ (s : State) (x q n : Nat), AtHand (.queueEnable x q) s → (s.ctx x).live = true → ∀ s1, dispRead s x (queueHdr s x q) 64 = .ok (n, s1) →
    let h := BitVec.ofNat 512 n
    let w := n / 2 ^ 114 % 2 ^ 4
    let k := s1.queue x q
    (w = 0 → Moves .queueEnable s (setQState (s1.setQueue x q { k with live := true, weight := 0 }) x q 3)) ∧
    (w ≠ 0 → k.weight ≠ 0 → Moves .queueEnable s s1) ∧
    (w ≠ 0 → k.weight = 0 → queueOf k h = none →
      Moves .queueEnable s (setQState (s1.setQueue x q { k with live := true, weight := w }) x q 3)) ∧
    (w ≠ 0 → k.weight = 0 → ∀ k1, queueOf k h = some k1 →
      let head := match k1.cmd with | some c => c.kind == 0 && !k1.decided | none => false
      let k2 := if head then { k1 with age := s1.cycle } else k1
      let u := setQState (s1.setQueue x q k2) x q (enabledState k2)
      let t := (if (u.queue x q).stateDue then u else flushQueue u x q).emit (.commandAccept x q)
      Moves .queueEnable s (if head then t.emit .dispatchDecision else t))) ∧
  (∀ (s : State) (x q : Nat), AtHand (.commandAccept x q) s →
    let u := settleQueue s x q
    let k := u.queue x q
    ((u.ctx x).live = false ∨ serves k = false → Moves .commandAccept s u) ∧
    ((u.ctx x).live = true → serves k = true →
      (k.cmd = none → k.done < k.accepted → ∀ n s1, dispRead u x (cmdAddr k (k.done + 1)) 64 = .ok (n, s1) →
        Moves .commandAccept s (startCommand (s1.emit (.commandAccept x q)) x q { readCommand n with seq := k.done + 1 })) ∧
      (k.cmd ≠ none ∨ k.accepted ≤ k.done → ∀ tail s1, dispRead u x (queueHdr u x q + 48) 8 = .ok (tail, s1) →
        (tail ≤ k.accepted → Moves .commandAccept s s1) ∧
        (k.accepted < tail → ∀ n s2 t, dispRead s1 x (cmdAddr k (k.accepted + 1)) 64 = .ok (n, s2) →
          acceptCommand s2 x q (readCommand n) = some t → Moves .commandAccept s t)))) ∧
  (∀ (s : State) (x q : Nat), AtHand (.signal x q) s →
    (s.command x q 1 = none → Moves .signal s s) ∧
    (∀ c p s1 s2, s.command x q 1 = some c → unitXlate s .other 768 x true .write c.arg1.toNat = .ok (p, s1) →
      writePa s1 (s1.ctx x).seed p.pa 8 c.arg2.toNat = some s2 → Moves .signal s (finishCommand s2 x q 0 0))) ∧
  (∀ (s : State) (x q : Nat), AtHand (.waitForSignal x q) s →
    Moves .waitForSignal s (if s.command x q 2 = none then s else (setQState s x q 1).emit (.signalSatisfied x q))) ∧
  (∀ (s : State) (x q : Nat), AtHand (.signalSatisfied x q) s → ∀ c p s1 v, s.command x q 2 = some c →
    unitXlate s .other 768 x true .read c.arg1.toNat = .ok (p, s1) → readPa s1 (s1.ctx x).seed p.pa 8 = some v →
    (c.arg2.toNat ≤ v → Moves .signalSatisfied s (finishCommand s1 x q 0 0)) ∧
    (v < c.arg2.toNat → NotDue .signalSatisfied s)) ∧
  (∀ (s : State) (x q : Nat), AtHand (.launch x q) s → ∀ c n, s.command x q 0 = some c →
    (launchKnown s x q c.seq = true → Moves .launch s s) ∧
    ∀ s1, launchKnown s x q c.seq = false → dispRead s x c.arg1.toNat 128 = .ok (n, s1) →
    (launchDescOk n = false → Moves .launch s (finishCommand s1 x q 3 0)) ∧
    (launchDescOk n = true →
      let t := { s1 with launches := s1.launches.set (16 * x + q) ⟨x, q, c.seq, c.arg1, launchDesc n, 0, 0, false, []⟩ }
      Moves .launch s ((t.setQueue x q { t.queue x q with decided := false, age := t.cycle }).emit .dispatchDecision))) ∧
  (∀ s : State, AtHand .dispatchDecision s →
    (readyHeads s = [] → Moves .dispatchDecision s s) ∧
    (readyHeads s ≠ [] → let t := dispatchOnce s
      (t.decisions ≠ s.decisions → Moves .dispatchDecision s t) ∧
      (t.decisions = s.decisions → t.reserved ≠ s.reserved → Moves .dispatchDecision s (t.emit .dispatchDecision)) ∧
      (t.decisions = s.decisions → t.reserved = s.reserved → NotDue .dispatchDecision s))) ∧
  (∀ (s : State) (c : Nat), AtHand (.preemption c) s →
    (preempting (s.core c) = none → Moves .preemption s s) ∧
    (∀ i r b t, preempting (s.core c) = some (i, r, b) → quiet s c = true → quiet s (leaderOf s c) = true →
      preemptCore s c i r b = some t → Moves .preemption s t)) ∧
  (∀ (s : State) (c : Nat), AtHand (.bind c) s →
    let k := s.core c
    let next := match k.slots.find? 0 with | some r => some (0, r) | none => bestPending k
    (k.bound ≠ none → (preempting k).isSome = true → s.flight.contains (.preemption c) = false →
      Moves .bind s ((s.emit (.preemption c)).emit (.bind c))) ∧
    (k.bound = none → k.fenced = false → k.retired = false →
      (next = none → Moves .bind s s) ∧
      (∀ i rec, next = some (i, rec) → runOf s rec = none →
        Moves .bind s (s.setCore c { k with slots := SMap.del k.slots i })) ∧
      (∀ i rec r t, next = some (i, rec) → runOf s rec = some r →
        (if rec.resume then bindResume s c i rec r else if owesReleases s c then none else bindFresh s c i rec r) = some t →
        Moves .bind s t))) ∧
  (∀ (s : State) (c : Nat) (w : BitVec 256), AtHand (.hostBindRecord c w) s →
    let r := recordOf w
    let refused := fun (t : State) =>
      (postNotice t r.ctx r.queue c false 0 [6, r.desc, word c, word r.queue, word r.order, 0, 0]).2
    let open_ := (s.core c).slots.find? 4 = none ∧ w.getLsbD 0 = true ∧ (s.ctx r.ctx).live = true ∧
      (s.ctx r.ctx).modes.getLsbD 0 = true
    (¬ open_ → Moves .hostBindRecord s s) ∧
    (open_ → recordBad w = true → Moves .hostBindRecord s (refused s)) ∧
    (open_ → recordBad w = false → ∀ n s1, dispRead s r.ctx r.desc.toNat 128 = .ok (n, s1) →
      (launchDescOk n = false ∨ r.desc.toNat % 64 ≠ 0 → Moves .hostBindRecord s (refused s1)) ∧
      (launchDescOk n = true → r.desc.toNat % 64 = 0 → ∃ t : State, Moves .hostBindRecord s (t.emit (.bind c)) ∧
        (t.core c).slots = (s1.core c).slots.set 4 r ∧ (recordRun t r).isSome = true))) ∧
  (∀ (s : State) (p c order : Nat) (w : BitVec 128), AtHand (.doneWord p c order w) s →
    (launchHere s p order = some false → Moves .doneWord s s) ∧ (launchHere s p order = none → NotDue .doneWord s) ∧
    (launchHere s p order = some true →
    (p ≠ c → Moves .doneWord s (trySendDone (s.setCore p { s.core p with
      tree := { (s.core p).tree with childWords := (s.core p).tree.childWords ++ [(c, w)] } }) p)) ∧
    (p = c → ∀ l, s.boundKey p = some l →
      Moves .doneWord s (completeLaunch (unbindCore s p) l.1 p l.2 w))))) ∧
  ((∀ (s : State) (x q : Nat), AtHand (.stageMonitorSample x q) s →
    (stageRuns s x q = [] → Moves .stageMonitorSample s s) ∧
    (stageRuns s x q ≠ [] → (∀ p ∈ stageRuns s x q, s.cycle < (stageMon s p.1).last + 1024) → NotDue .stageMonitorSample s) ∧
    (∀ key r a, stageRun s x q = some (key, r) → r.ld.stage = some a →
      let old := stageMon s key
      let mon : StageMon := { old with above := [], below := [], last := s.cycle }
      let skip := fun (t : State) => ({ t with stages := t.stages.set key mon }.emit (.stageMonitorSample x q))
      (r ∈ (stageRuns s x q).map (·.2) ∧ old.last + 1024 ≤ s.cycle) ∧
      (∀ d s1, readStage s x (word a) = .ok (d, s1) →
        let bad := (d.owners.filter (runsOn s1 r)).any fun c => ringBad (s1.core c) (ringHdr (s1.core c) d.rhdr)
        (bad = true → Moves .stageMonitorSample s (skip s1)) ∧
        (bad = false → ∀ s2, sampleStage s1 key r (word a) d = .ok s2 →
          Moves .stageMonitorSample s (s2.emit (.stageMonitorSample x q)))) ∧
      (∀ z va, z ≠ .notPresent → readStage s x (word a) = .error (.fault z va) →
        Moves .stageMonitorSample s (skip s)))) ∧
  (∀ (s : State) (x q : Nat), AtHand (.annexPolicy x q) s →
    (s.command x q 3 = none → Moves .annexPolicy s s) ∧
    (∀ c, s.command x q 3 = some c → (s.queue x q).decided = false →
      let legal := (s.ctx x).modes.getLsbD 2 = true ∧ c.arg3.toNat ≤ c.arg2.toNat
      (¬ legal → Moves .annexPolicy s (finishCommand s x q 3 0)) ∧
      (legal → stageLaunch s x c.arg1 = none → Moves .annexPolicy s (finishCommand s x q 3 0)) ∧
      (∀ key r z va, legal → stageLaunch s x c.arg1 = some (key, r) → z ≠ .notPresent →
        readStage s x c.arg1 = .error (.fault z va) → Moves .annexPolicy s (finishCommand s x q 1 0)) ∧
      (∀ key r d s1, legal → stageLaunch s x c.arg1 = some (key, r) → readStage s x c.arg1 = .ok (d, s1) →
        (policyStart s1 key r c d = .ok none → Moves .annexPolicy s (finishCommand s1 x q 1 0)) ∧
        (∀ s2, policyStart s1 key r c d = .ok (some s2) →
          Moves .annexPolicy s ((s2.setQueue x q { s2.queue x q with decided := true }).emit (.annexPolicy x q))))) ∧
    (∀ c, s.command x q 3 = some c → (s.queue x q).decided = true →
      let stands := s.annexes.any fun a => a.stage == c.arg1 && keyCtx a.key == x
      (stands = true → NotDue .annexPolicy s) ∧ (stands = false → Moves .annexPolicy s (finishCommand s x q 1 0)))) ∧
  (∀ (s : State) (o : Nat), AtHand (.splitActivation o) s →
    ((∀ a ∈ s.annexes, ¬ (a.o = o ∧ a.merge = false)) → Moves .splitActivation s s) ∧
    (∀ a, annexOn s o false = some a → (annexRun s a).isSome = true →
      (a.step = 9 → ∀ s1, cancelSplit s a = .ok s1 → Moves .splitActivation s s1) ∧
      (a.step ≠ 3 → a.step ≠ 9 → Moves .splitActivation s s) ∧
      (a.step = 3 → quiescent s o a.hdr = false ∨ canActivate s o = false → NotDue .splitActivation s) ∧
      (a.step = 3 → quiescent s o a.hdr = true → canActivate s o = true → ∀ d s1,
        readStage s (keyCtx a.key) a.stage = .ok (d, s1) →
        Moves .splitActivation s (startActivation (copyLocal s1 o d.soff o d.mbuf d.slen) o .split noMsg (2 ^ 20) 0 (d.spc &&& ~~~3#64) 0
          [(3, a.m), (4, a.b), (5, word a.y), (6, word (d.soff + d.slen * 2 ^ 18)), (7, a.stage)] (d.soff, d.slen))))) ∧
  (∀ (s : State) (o : Nat), AtHand (.annexForward o) s →
    ((∀ a ∈ s.annexes, ¬ (a.o = o ∧ a.merge = false)) → Moves .annexForward s s) ∧
    (∀ a d s1, annexOn s o false = some a → (annexRun s a).isSome = true →
      readStage s (keyCtx a.key) a.stage = .ok (d, s1) →
      (a.step = 4 → ∀ s2, annexGen s1 a d = .ok s2 → Moves .annexForward s (s2.emit (.annexForward o))) ∧
      (a.step = 5 → annexForward s1 a d = .ok none → NotDue .annexForward s) ∧
      (a.step = 5 → ∀ s2 s3, annexForward s1 a d = .ok (some s2) →
        annexClose s2 a (d.entries.getD a.entry 0 / 2 ^ 64 * 2 ^ 64
          + (setFld (word (d.entries.getD a.entry 0)) 46 46 0).toNat) = .ok s3 → Moves .annexForward s s3))) ∧
  (∀ (s : State) (o : Nat), AtHand (.mergeActivation o) s →
    ((∀ a ∈ s.annexes, ¬ (a.o = o ∧ a.merge = true)) → Moves .mergeActivation s s) ∧
    (∀ a d s1, annexOn s o true = some a → (annexRun s a).isSome = true →
      readStage s (keyCtx a.key) a.stage = .ok (d, s1) →
      let t := copyLocal s1 a.y d.soff o d.mbuf d.slen
      let bad := ringBad (s1.core o) (ringHdr (s1.core o) a.hdr) || ringBad (s1.core a.y) (ringHdr (s1.core a.y) a.hdr)
      (bad = true → Moves .mergeActivation s (launchFault { s with annexes := s.annexes.filter fun b => b != a }
        a.o 0 Cause.descriptorFormat.code (word a.hdr) 0 2 none)) ∧
      (bad = false →
      (a.step = 2 → (ringHdr (s1.core a.y) a.hdr).depth ≠ 0 ∨ quiescent s1 a.y a.hdr = false → NotDue .mergeActivation s) ∧
      (a.step = 2 → (ringHdr (s1.core a.y) a.hdr).depth = 0 → quiescent s1 a.y a.hdr = true → Moves .mergeActivation s
        ((setAnnex t a { a with step := 4 }).emit (.mergeActivation o))) ∧
      (a.step = 4 → quiescent s1 o a.hdr = true → canActivate s1 o = true → Moves .mergeActivation s
        ((startActivation s1 o .merge noMsg (2 ^ 20) 0 (d.mpc &&& ~~~3#64) 0 [(3, a.m), (4, a.b), (5, word a.y),
          (6, word (d.mbuf + d.slen * 2 ^ 18)), (7, a.stage)] (d.soff, d.slen)).emit (.mergeActivation o))) ∧
      (a.step ≠ 2 → a.step ≠ 4 → ∀ s2,
        annexClose s1 a (entryOf a.m.toNat (ringHdr (s1.core o) a.hdr).gen false o o a.hdr) = .ok s2 →
        Moves .mergeActivation s s2)))))

/-- The steps of the management core, the host port, resets and losses, and what each leaves (R3, R9, R100, R357,
R363, R376, R382, R384, R387, R395, R397, R398) -/
def Obligations.ManagementMoves : Prop :=
  (∀ (s : State) (x n : Nat) (retry : Bool), AtHand (.pageFaultService x n retry) s →
    let found := s.pageItems.find? fun i => i.id == n && i.ctx == x && !i.declined && i.notice.isNone
    (∀ i, found = some i →
      if retry = true ∧ walkHeld s .other 768 x .write i.va.toNat = true then NotDue .pageFaultService s
      else Moves .pageFaultService s (serveItem (if retry then mapPage s x i.va.toNat else s) i retry)) ∧
    (found = none → NotDue .pageFaultService s)) ∧
  (∀ (s : State) (i : PageItem) (c t : Nat) (d : Bool), i.asker = .thread c t d → t < 4 → (s.thread c t).wait = .pageFault i.id →
    let s1 : State := { s with pageItems := s.pageItems.filter fun j => j.id != i.id }
    ((serveItem s i true).thread c t).wait = .none ∧ (serveItem s i true).pageItems = s1.pageItems ∧
    serveItem s i false = trapThread (s1.setThread c t { s.thread c t with wait := .none }) c t .notPresent i.va d) ∧
  (∀ (s : State) (i : Instr) (e : Event) (code : Nat), AtHand e s →
    (i, e, code) ∈ [(.pageMap, .pageMap, 1), (.pageDecline, .pageDecline, 2), (.barrierExtend, .barrierExtend, 3),
      (.barrierExpire, .barrierExpire, 4), (.contain, .contain, 5), (.attest, .attest, 7),
      (.firmwareStage, .firmwareStage, 8), (.firmwareActivate, .firmwareActivate, 9), (.tlbInvalidate, .tlbInvalidate, 10)] →
    let d := doorbell s
    let busy := d.getLsbD 0 = true ∧ d.toNat / 2 ^ 8 % 2 ^ 8 = code
    (¬ busy → Moves i s s) ∧
    (busy →
      (code = 1 ∨ code = 2 → Moves i s (match pageNotice s with
        | some p => finishMailbox (serveItem s p (code == 1)) 0
        | none => finishMailbox s 1)) ∧
      (∀ c b, heldBarrier s = some (c, b) →
        (code = 3 → Moves i s (finishMailbox (s.setCore c ((s.core c).setBar b
          { (s.core c).bar b with held := false, first := some s.cycle })) 0)) ∧
        (code = 4 → Moves i s (finishMailbox (timeoutBarrier s c b) 0))) ∧
      (∀ r key a g, heldBarrier s = none → heldAside s = some (r, key, a, g) →
        let still := a.held.filter fun e => e.1 != mbArg s 2
        let put := fun (a : SavedTasks) => ({ s with savedTasks := s.savedTasks.set key a } : State)
        (code = 3 → Moves i s (finishMailbox (put { a with held := still, extended := a.extended ++ [mbArg s 2] }) 0)) ∧
        (code = 4 → Moves i s (finishMailbox (expireAside (put { a with held := still }) r (mbArg s 1) (mbArg s 2) g) 0))) ∧
      (heldBarrier s = none → heldAside s = none → code = 3 ∨ code = 4 → Moves i s (finishMailbox s 1)) ∧
      (code = 5 → Moves i s (match s.triage.find? fun t => t.ctx == mbArg s 0 && t.id == mbArg s 1 with
        | some t => if mbArg s 2 < t.inner ∨ 4 < mbArg s 2 then finishMailbox s 1
          else finishMailbox (containAt s t (mbArg s 2)) 0
        | none => finishMailbox s 1)) ∧
      (code = 7 → let body := reportNat s (Mem.read s.dev 0x300000 32)
        let sig := (edSign identity (natBytes body 192)).toNat
        let report : State := { s with dev := Mem.write s.dev 0x300100 256 (body + 2 ^ 1536 * sig) }
        Moves i s (finishMailbox report 0)) ∧
      (code = 8 → let n := mbArg s 1
        Moves i s (if n < 256 then finishMailbox s 1
          else match physRead s (mbArg s 0) 256, physRead s (mbArg s 0 + 256) (n - 256) with
            | some hdr, some body =>
              let image : Image := ⟨BitVec.ofNat 2048 hdr, natBytes body (n - 256)⟩
              if imageGood s.firmware.counter image
              then finishMailbox { s with firmware := { s.firmware with staged := some image } } 0 else finishMailbox s 1
            | _, _ => finishMailbox s 2)) ∧
      (code = 9 → Moves i s (if s.firmware.staged = none then finishMailbox s 1
        else finishMailbox { s with firmware := { s.firmware with activate := true } } 0)) ∧
      (code = 10 → Moves i s (if 64 ≤ mbArg s 0 ∨ 2 ≤ mbArg s 1 ∨ (s.ctx (mbArg s 0)).live = false then finishMailbox s 1
        else finishMailbox (dropTlb s (mbArg s 0) (if mbArg s 1 = 0 then none else some (mbArg s 2))) 0)))) ∧
  (∀ (s : State) (st : Nat), Mem.wf s.dev = true → (doorbell (finishMailbox s st)).getLsbD 0 = false ∧
    (doorbell (finishMailbox s st)).toNat / 2 ^ 24 % 2 ^ 8 = st % 2 ^ 8) ∧
  (∀ (s : State) (i : TriageItem) (l : Nat), let u : State := { s with triage := s.triage.filter fun j => j != i }
    containAt s i 4 = u.emit .warmReset ∧
    (l ≠ 4 → (∀ p ∈ s.launches, p.2.order ≠ i.order) → containAt s i l = u)) ∧
  (∀ (s : State) (m : Nat) (v : Word), AtHand (.monitorConfigWrite m v) s → ∃ t, Moves .monitorConfigWrite s t ∧
    t.monitors = s.monitors.set m (if v.getLsbD 0
      then ⟨v &&& 0x00FFFFFF0000FF01#64, if v.toNat / 2 ^ 32 % 4 = 1 then BitVec.allOnes 64 else 0, List.replicate 16 0⟩
      else { s.monitors.get m ⟨0, 0, List.replicate 16 0⟩ with config := v &&& 0x00FFFFFF0000FF01#64 }) ∧
    t = { s with monitors := t.monitors }) ∧
  (∀ (s : State) (o : Nat) (v : Word), AtHand (.registerWrite o v) s →
    let put := fun (a : Nat) => ({ s with dev := Mem.write s.dev a 8 v.toNat } : State)
    (∀ x i, x < 64 → i < 8 → o = 64 * x + 8 * i →
      let cx := s.ctx x
      let t := put o
      (i = 0 → v.getLsbD 0 = true → cx.live = false →
        Moves .registerWrite s (t.emit (.contextCreate x (BitVec.ofNat 512 (Mem.read t.dev (64 * x) 64))))) ∧
      (i = 0 → v.getLsbD 0 = false → cx.live = true → Moves .registerWrite s (t.emit (.contextDestroy x))) ∧
      (i = 0 → v.getLsbD 0 = true → cx.live = true →
        Moves .registerWrite s (t.setCtx x { cx with root := BitVec.ofNat 39 (v.toNat / 2 ^ 8 % 2 ^ 39) })) ∧
      (cx.live = true → (i = 1 → Moves .registerWrite s (t.setCtx x { cx with seed := v })) ∧
        (i = 2 → Moves .registerWrite s (t.setCtx x { cx with lawbase := v })) ∧
        (i = 3 → Moves .registerWrite s (t.setCtx x { cx with hndbase := v })) ∧
        (i = 4 → Moves .registerWrite s (t.setCtx x { cx with qbase := v })) ∧
        (i = 5 → Moves .registerWrite s (t.setCtx x { cx with spill := v })) ∧
        (i = 6 → Moves .registerWrite s (t.setCtx x { cx with modes := v &&& 0x3F#64 }))) ∧
      (cx.live = false → i ≠ 0 → Moves .registerWrite s t)) ∧
    (∀ c j i, c < 768 → j < 5 → i < 4 → o = 0x100000 + 160 * c + 32 * j + 8 * i →
      (j ≠ 4 ∨ ((s.core c).slots.find? 4).isSome = true ∨ (handedOver s c).isSome = true → Moves .registerWrite s s) ∧
      (j = 4 → (s.core c).slots.find? 4 = none → handedOver s c = none → Moves .registerWrite s (if i = 0 ∧ v.getLsbD 0 = true
        then (put o).emit (.hostBindRecord c (BitVec.ofNat 256 (Mem.read (put o).dev (0x100000 + 160 * c + 128) 32)))
        else put o))) ∧
    (0x300000 ≤ o → o < 0x300040 → Moves .registerWrite s (put o)) ∧
    (o = 0x300080 →
      let d := (v &&& 0xFFFFFFFF0000FF01#64) ||| (doorbell s &&& 0xFF000000#64)
      let t : State := { s with dev := Mem.write s.dev 0x300080 8 d.toNat }
      ((doorbell s).getLsbD 0 = true → Moves .registerWrite s s) ∧
      ((doorbell s).getLsbD 0 = false → d.getLsbD 0 = false → Moves .registerWrite s t) ∧
      ((doorbell s).getLsbD 0 = false → d.getLsbD 0 = true → Moves .registerWrite s
        (match mailboxEvent (d.toNat / 2 ^ 8 % 2 ^ 8) with | some e => t.emit e | none => finishMailbox t 1))) ∧
    (∀ m, m < 6272 → o = 0x400000 + 0x60 * m → Moves .registerWrite s (setMonitor s m v))) ∧
  (∀ (s : State) (f : Nat), AtHand (.clockThrottle f) s → Moves .clockThrottle s { s with mhz := f }) ∧
  (∀ (s : State) (x : Nat) (va : Word) (data : List Byte), AtHand (.hostBar2Write x va data) s →
    let ps := partsOf va.toNat data.length
    (64 ≤ x ∨ (s.ctx x).live = false → Moves .hostBar2Write s { s with portErrors := s.portErrors + 1 }) ∧
    (x < 64 → (s.ctx x).live = true →
      (∀ t, portParts s x .write ps = .ok () → unitWrite s .host 768 x false ps (bytesNat data) = (none, t) →
        Moves .hostBar2Write s
          ((touchedQueues t x va.toNat data.length).foldl (fun s q => noteHeader s x va.toNat data q) t)) ∧
      (∀ z a, z ≠ .notPresent → portParts s x .write ps = .error (.fault z a) →
        Moves .hostBar2Write s { s with portErrors := s.portErrors + 1 }))) ∧
  (∀ (s : State) (x : Nat) (va : Word) (n : Nat), AtHand (.hostBar2Read x va n) s →
    let refused : State := { s with hostReads := s.hostReads ++ [none] }
    (64 ≤ x ∨ (s.ctx x).live = false → Moves .hostBar2Read s refused) ∧
    (x < 64 → (s.ctx x).live = true →
      (∀ v t, unitRead s .host 768 x false (partsOf va.toNat n) = .ok (v, t) →
        Moves .hostBar2Read s { t with hostReads := t.hostReads ++ [some (natBytes v n)] }) ∧
      (∀ z a, z ≠ .notPresent → unitRead s .host 768 x false (partsOf va.toNat n) = .error (.fault z a) →
        Moves .hostBar2Read s refused))) ∧
  (∀ s : State, AtHand .warmReset s →
    let t := warmReset s none
    Moves .warmReset s (if (doorbell s).getLsbD 0 = true ∧ (doorbell s).toNat / 2 ^ 8 % 2 ^ 8 = 6
      then finishMailbox { t with dev := Mem.write t.dev 0x300080 8 (doorbell s).toNat } 0 else t)) ∧
  (∀ (s : State) (lost : Option Nat), s.journals = [] → s.launches = [] → (∀ c, (s.core c).act = none) →
    let t := warmReset s lost
    t.sectors = [] ∧ t.replicas = [] ∧ t.holds = [] ∧ t.monitors = [] ∧ t.arrayLog = [] ∧ t.busLog = [] ∧ t.subs = [] ∧
    t.firmware = installFirmware s.firmware ∧ (∀ n, lost = some n → n ∈ t.retiredSlices) ∧
    ∀ c, (t.core c).bound = none ∧ (t.core c).threads = [] ∧ (t.core c).lmem = [] ∧ (t.core c).full = 0 ∧
      (t.core c).accepted = (s.core c).accepted ∧ (t.core c).inbound = (s.core c).redo.map (·.1) ++ (s.core c).inbound) ∧
  (∀ (s : State), let lose := if s.firmware.spare = true ∧ imageGood s.firmware.counter s.firmware.running = true
      then { s with firmware := { s.firmware with die := 1 - s.firmware.die, spare := false } } else warmReset s none
    (∀ n, AtHand (.unitLoss (.slice n)) s → Moves .unitLoss s (warmReset s (some n))) ∧
    (AtHand (.unitLoss .bridge) s → Moves .unitLoss s (warmReset s none)) ∧
    (∀ st ch, AtHand (.unitLoss (.channel st ch)) s →
      let gone := if s.lostChannels.contains (st, ch) then s.lostChannels else s.lostChannels ++ [(st, ch)]
      Moves .unitLoss s (warmReset { s with lostChannels := gone } none)) ∧
    (AtHand (.unitLoss .management) s → Moves .unitLoss s lose) ∧
    (AtHand .managementFailover s → Moves .managementFailover s lose)) ∧
  (∀ s : State, AtHand .coldReset s → ∃ t, Moves .coldReset s t ∧ t.mem = [] ∧ t.sectors = [] ∧ t.cores = State.reset.cores ∧
    t.ctxs = State.reset.ctxs ∧ t.queues = State.reset.queues ∧ t.launches = State.reset.launches ∧ t.dev = State.reset.dev ∧
    t.firmware.counter = s.firmware.counter) ∧
  (∀ (s : State) (c : Nat), AtHand (.coreLoss c) s →
    let k := s.core c
    let s1 := s.setCore c { k with fenced := true }
    let s2 := if k.act.isSome then handlerFault s1 c .unitLost else s1
    let s3 := (List.range 4).foldl (fun u t =>
      if (u.thread c t).strand = .running then threadFault u c t .unitLost 0 0 else u) s2
    (k.bound = none → Moves .coreLoss s s) ∧
    (k.bound ≠ none → Moves .coreLoss s (if k.deque = [] ∧ k.pushes = [] ∧ k.parked = [] then s3
      else launchFault s3 c 0 Cause.unitLost.code 0 0 2 none))) ∧
  (∀ (s : State) (l : Nat) (v : Verdict), AtHand (.intervalCompare l v) s →
    (∀ f, (s.core l).pair = .leader f →
      (∀ t, v = .agree → releaseInterval s l f 1 0 0 = t → ((t.core l).allIn .unpairing = false ∨ boundThreads (t.core l) = []) →
        Moves .intervalCompare s t) ∧
      (∀ t, v = .agree → releaseInterval s l f 1 0 0 = t → (t.core l).allIn .unpairing = true → boundThreads (t.core l) ≠ [] →
        Moves .intervalCompare s (decouple t l f)) ∧
      (v = .unresolvable → Moves .intervalCompare s (divergence (monitorEvent s (some l) 0 0 8 (s.coreCtx l) 1) l f)) ∧
      (v = .rerunAgrees ∨ v = .tieBreak → ∃ t, Moves .intervalCompare s t)) ∧
    ((∀ f, (s.core l).pair ≠ .leader f) → Moves .intervalCompare s s)) ∧
  (∀ (s : State) (l f a r n : Nat), l ≠ f →
    let t := releaseInterval s l f a r n
    (t.core l).gated = [] ∧ (t.core l).bundles = 0 ∧ (t.core l).pairstat = countInterval (s.core l).pairstat a r n ∧
    (t.core f).pairstat = (t.core l).pairstat ∧ (t.core f).lmem = (s.core l).lmem ∧ (∀ h ∈ t.holds, h.owner ≠ .thread l 9))

/-- Every well-formed instruction decodes from its word, and a word that decodes is the encoding of what it decodes
to (R24, R27, R34, R36, R37, R49, R50, R51) -/
def Obligations.DecodeAgreesWithEncode : Prop :=
  (∀ (l : BitVec 1) (i : Instr) (w : BitVec 32), i.wellFormed = true → encode l i = some w → decodeWord w = .ok i) ∧
  (∀ (w : BitVec 32) (i : Instr), decodeWord w = .ok i → encode (w.extractLsb' 31 1) i = some w)

/-- Every step keeps global memory in canonical form: addresses strictly rising, no zero byte listed
(04_memory_tiers_translation.md) -/
def Obligations.StepsKeepMemoryCanonical : Prop :=
  ∀ s t : State, s.memWf → step s = .next t → t.memWf

/-- The state after a cold reset: memories empty and canonical, no context, nothing bound, cycle 0, registers as the
log says (R10, R228, R369, R395) -/
def Obligations.ResetState : Prop :=
  State.reset.memoriesWf ∧ State.reset.mem = [] ∧ (∀ x, (State.reset.ctx x).live = false) ∧ State.reset.queues = [] ∧
  State.reset.launches = [] ∧ State.reset.subs = [] ∧ State.reset.holds = [] ∧ State.reset.flight = [] ∧
  State.reset.cycle = 0 ∧ State.reset.ns = 0 ∧ State.reset.retiredSlices = [] ∧ State.reset.poison = [] ∧
  ∀ c t, (State.reset.core c).bound = none ∧ (State.reset.core c).act = none ∧ (State.reset.core c).pair = .none ∧
    (State.reset.core c).full = 0 ∧ (∀ o, Mem.get (State.reset.core c).lmem o = 0) ∧
    (State.reset.thread c t).strand = .unbound ∧ (∀ n, (State.reset.thread c t).getX n = 0) ∧
    (∀ n, (State.reset.thread c t).getV n = 0) ∧ (∀ n, 0 < n → (State.reset.thread c t).getK n = 0) ∧
    (State.reset.thread c t).tstat = 0 ∧ (State.reset.thread c t).fflags = 0 ∧ (State.reset.thread c t).frm = 0 ∧
    (State.reset.thread c t).fhook = 0 ∧ (State.reset.thread c t).svec = 0

/-- A step in which a thread's turn comes fetches the bundle at its pc, decodes it and executes what it decodes to
(R25, R26, R27, R28, R32, R33, R193, R284, R373) -/
def Obligations.StepRunsTheDecodedInstruction : Prop :=
  (∀ (s : State) (c t pc o : Nat) (old : Bool), codeOffset (s.core c) pc = some o → (s.thread c t).fetched = [] →
    fetchWord s c t pc old = .ok (BitVec.ofNat 32 ((s.core c).lread o 4), s)) ∧
  (∀ (s : State) (n ns c t : Nat) (who : Who) (ts : List Turn) (s1 : State) (i : Instr), autoStep s = none →
    who = .core c ∨ who = .thread c t → s.turns = ⟨n, ns, who⟩ :: ts →
    (sweepsRun s = true → ns ≤ 2 ^ 20) →
    let s0 := advance { s with turns := ts } n ns
    let r := readyThreads c [0, 1, 2, 3, 4] s0
    select (s0.core c).sched r.2 = some t →
    let k := r.1.core c
    let sched : Sched := { k.sched with yielded := false }
    let sf : State := { r.1.setCore c { k with sched := sched } with cur := (c, t), issue := Issue.reset }
    fetchHeld sf c t sf.me.pc.toNat = false → frameBundle sf = .ok s1 →
    let s2 := s1.setMe { s1.me with fetched := fetchAhead s1 s1.cid s1.tid s1.fall.toNat }
    decodeWord s2.issue.w0 = .ok i → s2.me.rep = 0 → anyPending s2.me (bundleNames s2 i) = false →
    (unanswered s2.me && acts s2 i) = false →
    let keep := fun (u : State) =>
      let v := recordBundle s2 u i
      if v.issue.status = .waiting then v else keepIssue v c t r.2
    let prefixed := match i with | .vx .. | .rep .. => true | _ => false
    (s2.issue.lone = true ∨ prefixed = true → ∀ u, exec i s2 = .next u → step s = .next (keep u)) ∧
    (s2.issue.lone = false → prefixed = false → ∀ ia, s2.aWord = .ok ia →
      (writesClash s2.me i ia = true → step s = .next (keep (illegalAt s2 false))) ∧
      (writesClash s2.me i ia = false → ∀ sc sa, exec i s2 = .next sc → sc.issue.status = .done →
        runA ia (aStart s2 sc i) = .next sa → sa.issue.status = .done →
        let m := afterPair s2 (mergePair s2 sc sa i ia) i
        m.issue.status ≠ .waiting → step s = .next (keep m))))

/-- Words of every family, written out from the encoding tables, decode to the instructions they stand for (R24,
R34, R42, R45, R49, R50) -/
def Obligations.DecodedWords : Prop :=
  decodeWord 0xC0952C0A#32 = .ok (.mulhu 9 10 11) ∧ decodeWord 0xCA424003#32 = .ok (.srai 4 4 3) ∧
  decodeWord 0xD0512345#32 = .ok (.lui 5 0x12345) ∧ decodeWord 0xC2528678#32 = .ok (.addi 5 5 0x678) ∧
  decodeWord 0xD2531E00#32 = .ok (.fadd 5 6 7 2) ∧ decodeWord 0xD421900F#32 = .ok (.vadds 2 3 4 0) ∧
  decodeWord 0x9A451A0B#32 = .ok (.cas2 4 10 6) ∧ decodeWord 0x9E74E408#32 = .ok (.lldWf 7 9 6 8) ∧
  decodeWord 0x3C0C0000#32 = .ok (.vx 0 0 3 0) ∧ decodeWord 0x82530004#32 = .ok (.beq 5 6 4) ∧
  decodeWord 0x8E100100#32 = .ok (.jal 1 0x100) ∧ decodeWord 0x90008000#32 = .ok (.jalr 0 1 0) ∧
  decodeWord 0xB0208008#32 = .ok (.bkall 2 8) ∧ decodeWord 0xB2500020#32 = .ok (.srrd 5 0x020) ∧
  decodeWord 0x80500003#32 = .ok (.pair 5) ∧ decodeWord 0x80052C07#32 = .ok (.cflush 10 11) ∧
  decodeWord 0x94048003#32 = .ok (.bsync 9) ∧ decodeWord 0x94449404#32 = .ok (.bcomb 4 9 5) ∧
  decodeWord 0xA4460000#32 = .ok (.copy 4 12) ∧ decodeWord 0xAA450001#32 = .ok (.lwrdx 4 10) ∧
  decodeWord 0x3E1AA000#32 = .ok (.rep 3 1 1 1)

/-- Taking a trap: the route by hook, supervisor or thread fault, the fault frame in each field, and the state after
it (R365, R366, R367, R368, R374, R425, R328, R100, R139) -/
def Obligations.TakingATrap : Prop :=
  ∀ (s : State) (pc : Word) (cause : Cause) (addr : Word) (d : Bool), Mem.wf s.myCore.lmem = true →
    let t := takeTrapAt s pc cause addr d
    let a := if cause.hasAddr || d then addr else 0
    let e := { s with issue := { s.issue with status := .trapped cause a d } }
    let info := fun (nested : Bool) => word (cause.code.toNat + boolNat d * 2 ^ 8 + boolNat s.issue.slotA * 2 ^ 9
      + boolNat s.issue.lone * 2 ^ 10 + boolNat nested * 2 ^ 11 + s.me.rep * 2 ^ 16)
    let fields := fun (nested : Bool) (ocause : Word) =>
      [pc, info nested, a, word (s.issue.w0.toNat + 2 ^ 32 * s.issue.w1.toNat),
          setFld s.me.tstat 23 22 s.myCore.pair.code, ocause, 0, 0]
        ++ (List.range 31).map fun i => if i + 1 = 30 then 0 else s.me.getX (i + 1)
    let ff := s.me.fframe.toNat
    let hook := cause.hookable = true ∧ s.me.fhook ≠ 0 ∧ s.me.ha = false ∧ s.me.sv = false ∧ s.myCore.cw ≤ ff ∧
      ff + 512 ≤ s.myCore.xb
    (s.tid = 4 → t = handlerFault e s.cid cause) ∧
    (s.tid ≠ 4 → hook →
      t.me.pc = s.me.fhook ∧ t.me.ha = true ∧ t.me.sv = false ∧ t.me.rep = 0 ∧ t.me.wait = .none ∧
      (∀ i, i < 64 → t.myCore.lread (ff + 8 * i) 8 = ((fields false 0).getD i 0).toNat) ∧
      (∀ o, o < ff ∨ ff + 512 ≤ o → Mem.get t.myCore.lmem o = Mem.get s.myCore.lmem o) ∧
      SameButX s.me { t.me with tstat := s.me.tstat } [] ∧ SameMemory s t [s.cid]) ∧
    (s.tid ≠ 4 → ¬ hook → s.me.svec ≠ 0 → s.me.sv = false →
      let oc := if s.me.ha then word (s.myCore.lread (ff + 8) 8) else 0
      let w := frameWrite e s.cid s.myCtx s.me.sframe.toNat 512 (wordsNat (fields s.me.ha oc))
      (w = .faulted → t = threadFault e s.cid s.tid cause a (if cause = .barrierTimeout then 2 else 0)) ∧
      (∀ h, w = .held h → t = beginWait e h) ∧
      (∀ va, w = .absent va → frameItem e va = none → t = beginFrame e va) ∧
      (∀ va i, w = .absent va → frameItem e va = some i →
        t = threadFault { e with pageItems := e.pageItems.filter fun j => j.id != i.id } s.cid s.tid cause a
          (if cause = .barrierTimeout then 2 else 0)) ∧
      (∀ u, w = .written u → t.me.pc = s.me.svec ∧ t.me.sv = true ∧ t.me.ha = s.me.ha ∧ t.me.rep = 0 ∧ t.me.wait = .none ∧
        SameButX s.me { t.me with tstat := s.me.tstat } [] ∧ SameMemory u t [])) ∧
    (s.tid ≠ 4 → ¬ hook → s.me.svec = 0 ∨ s.me.sv = true →
      t = threadFault e s.cid s.tid cause a (if cause = .barrierTimeout then 2 else 0))

/-- An illegal word traps and does nothing else; a legal one completes, traps, waits, or ends at memory as the rules
say (R32, R36, R40, R44, R100, R120, R283) -/
def Obligations.EveryWordEndsInOneWay : Prop :=
  ∀ (s : State) (i : Instr) (w : BitVec 32), (encode 0 i = some w ∨ encode 1 i = some w) →
    (match i with | .vx .. | .rep .. | .syscall => False | _ => True) →
    (legalHere s i = false → Traps i s .illegalInstruction 0) ∧
    (legalHere s i = true →
      (∃ t, Completes i s t) ∨ (∃ c a d, exec i s = .next (takeTrap s c a d)) ∨ (∃ w, Waits i s w) ∨
      (∃ t w, exec i s = .next (beginPark (keepPayload s t) w)) ∨ (∃ t a, exec i s = .next (beginRefused s t a)) ∨
      (∃ a n d, exec i s = .next (beginAbsent s a n d)))

/-- The scalar integer and floating-point words leave memory, other threads and every register but the destination
alone (R28, R38, R39, R71, R231, R233, R236) -/
def Obligations.RegisterWordsLeaveTheRest : Prop :=
  (∀ (d a b : BitVec 5) (i : Instr), i ∈ [.add d a b, .sub d a b, .and d a b, .or d a b, .xor d a b, .sll d a b, .srl d a b,
    .sra d a b, .mul d a b, .mulh d a b, .mulhu d a b, .div d a b, .divu d a b, .rem d a b, .remu d a b, .min d a b,
    .max d a b, .minu d a b, .maxu d a b, .slt d a b, .sltu d a b, .sel d a b, .clz d a, .ctz d a, .popc d a] →
    LeavesTheRest i [d.toNat] false) ∧
  (∀ (d a : BitVec 5) (k : BitVec 15) (n : BitVec 6) (u : BitVec 20) (i : Instr), i ∈ [.addi d a k, .andi d a k,
    .ori d a k, .xori d a k, .slti d a k, .sltiu d a k, .slli d a n, .srli d a n, .srai d a n, .lui d u] →
    LeavesTheRest i [d.toNat] false) ∧
  (∀ (d a b k : BitVec 5) (p : BitVec 2) (i : Instr), i ∈ [.fadd d a b p, .fsub d a b p, .fmul d a b p, .fdiv d a b p,
    .fsqrt d a p, .fmin d a b p, .fmax d a b p, .fma d a b p, .fcmp d a b p, .fcvt d a k p, .fclass d a p,
    .fsgn d a b p] → LeavesTheRest i [d.toNat] true)

/-- A scalar store changes only the bytes at the address it computes, a scalar load none, but for A and D of the
page (R97, R116, R117, R118, R327) -/
def Obligations.GlobalAccessesChangeOnlyTheirBytes : Prop :=
  (∀ (i : BitVec 5 → BitVec 5 → BitVec 12 → Instr) (size : Nat),
    (i, size) ∈ [((Instr.stB : BitVec 5 → BitVec 5 → BitVec 12 → Instr), 1), (.stH, 2), (.stW, 4), (.stD, 8)] →
    ∀ (s : State) (d a : BitVec 5) (o : BitVec 12) (v x : Word) (s1 s2 t : State) (p : Xlat), s.me.progress = none →
      readX a s = .ok x s1 →
      readX d s1 = .ok v s2 → exec (i d a o) s = .next t → t.issue.status = .done →
      let s3 := after (gateStores 1) s2
      xlate s3 s3.cid s3.myCtx (x + o.signExtend 64 * word size).toNat .write s3.sup = .ok p →
      SameButBytes s t ((p.pa, size) :: p.entryBytes) ∧ SameButX s.me t.me []) ∧
  (∀ (i : BitVec 5 → BitVec 5 → BitVec 12 → Instr) (size : Nat),
    (i, size) ∈ [((Instr.ldB : BitVec 5 → BitVec 5 → BitVec 12 → Instr), 1), (.ldBu, 1), (.ldH, 2), (.ldHu, 2), (.ldW, 4),
      (.ldWu, 4), (.ldD, 8)] →
    ∀ (s : State) (d a : BitVec 5) (o : BitVec 12) (x : Word) (s1 t : State) (p : Xlat), s.me.progress = none →
      readX a s = .ok x s1 →
      exec (i d a o) s = .next t → t.issue.status = .done →
      xlate s1 s1.cid s1.myCtx (x + o.signExtend 64 * word size).toNat .read s1.sup = .ok p →
      SameButBytes s t p.entryBytes ∧ SameButX s.me t.me [d.toNat])

/-- A local store changes only the bytes and, where its qualifier says so, the full bit of the granule it computes
(R192, R196, R199, R38) -/
def Obligations.LocalStoresChangeOnlyTheirBytes : Prop :=
  ∀ (i : BitVec 5 → BitVec 5 → BitVec 3 → BitVec 10 → Instr) (q : Bool),
    (i, q) ∈ [((Instr.lst : BitVec 5 → BitVec 5 → BitVec 3 → BitVec 10 → Instr), false), (.lstSf, true), (.lstWesf, true)] →
    ∀ (s : State) (d a : BitVec 5) (sz : BitVec 3) (o : BitVec 10) (v u x : Word) (s1 s2 s3 t : State),
      readX a s = .ok x s1 → readX d s1 = .ok v s2 → (if sz = 7#3 then readX (d + 1) s2 = .ok u s3 else u = 0 ∧ s3 = s2) →
      exec (i d a sz o) s = .next t → t.issue.status = .done →
      let n := [1, 1, 2, 2, 4, 4, 8, 16].getD sz.toNat 0
      let off := (x + o.signExtend 64 * word n).toNat
      (∀ c, c < off ∨ off + n ≤ c → Mem.get t.myCore.lmem c = Mem.get s.myCore.lmem c) ∧
      (Mem.wf s.myCore.lmem = true → t.myCore.lread off n = (v.toNat + 2 ^ 64 * u.toNat) % 256 ^ n) ∧
      (∀ g, q = false ∨ g ≠ off / 16 → t.myCore.full.getLsbD g = s.myCore.full.getLsbD g) ∧
      (q = true → t.myCore.full.getLsbD (off / 16) = true) ∧
      SameMemory s t [s.cid] ∧ SameButX s.me t.me []
end

