-- ==== Sys2Proof/Laws/Map.lean ====
section
/-! SUPPORT. Finite maps and byte memories: reading after writing, and the canonical form that every operation keeps. -/

namespace Sys2Proof

variable {α : Type}

theorem SMap.find?_set_self (m : SMap α) (k : Nat) (v : α) : SMap.find? (SMap.set m k v) k = some v := by
  induction m with
  | nil => simp [SMap.set, SMap.find?]
  | cons p m ih =>
    obtain ⟨j, w⟩ := p
    simp only [SMap.set]
    split
    · simp [SMap.find?]
    · split
      · simp [SMap.find?]
      · rename_i h1 h2
        have : j ≠ k := fun h => h2 h.symm
        simp [SMap.find?, this, ih]

theorem SMap.find?_set_ne (m : SMap α) {k l : Nat} (v : α) (h : l ≠ k) :
    SMap.find? (SMap.set m k v) l = SMap.find? m l := by
  have hk : k ≠ l := fun e => h e.symm
  induction m with
  | nil => simp [SMap.set, SMap.find?, hk]
  | cons p m ih =>
    obtain ⟨j, w⟩ := p
    simp only [SMap.set]
    split
    · simp [SMap.find?, hk]
    · split
      · rename_i h2
        subst h2
        simp [SMap.find?, hk]
      · simp [SMap.find?, ih]

@[simp] theorem SMap.get_set_self (m : SMap α) (k : Nat) (v d : α) : SMap.get (SMap.set m k v) k d = v := by
  simp [SMap.get, SMap.find?_set_self]

theorem SMap.get_set_ne (m : SMap α) {k l : Nat} (v d : α) (h : l ≠ k) :
    SMap.get (SMap.set m k v) l d = SMap.get m l d := by
  simp [SMap.get, SMap.find?_set_ne m v h]

/-- Reading any key after a write. -/
theorem SMap.get_set (m : SMap α) (k l : Nat) (v d : α) :
    SMap.get (SMap.set m k v) l d = if l = k then v else SMap.get m l d := by
  split
  · rename_i h; subst h; simp
  · rename_i h; exact SMap.get_set_ne m v d h

theorem SMap.find?_del_ne (m : SMap α) {k l : Nat} (h : l ≠ k) : SMap.find? (SMap.del m k) l = SMap.find? m l := by
  have hk : k ≠ l := fun e => h e.symm
  induction m with
  | nil => rfl
  | cons p m ih =>
    obtain ⟨j, w⟩ := p
    simp only [SMap.del]
    split
    · rename_i h2
      subst h2
      simp [SMap.find?, hk]
    · simp [SMap.find?, ih]

/-- Below a map's least key there is nothing. -/
theorem SMap.find?_none_of_lt : ∀ (m : SMap α) (lo k : Nat), SMap.wfFrom lo m = true → k < lo → SMap.find? m k = none
  | [], _, _, _, _ => rfl
  | (j, w) :: m, lo, k, h, hk => by
    simp only [SMap.wfFrom, Bool.and_eq_true, decide_eq_true_eq] at h
    have : j ≠ k := by omega
    simp only [SMap.find?, this, if_false]
    exact SMap.find?_none_of_lt m (j + 1) k h.2 (by omega)

theorem SMap.wfFrom_mono : ∀ (m : SMap α) {lo lo' : Nat}, lo ≤ lo' → SMap.wfFrom lo' m = true → SMap.wfFrom lo m = true
  | [], _, _, _, _ => rfl
  | (j, w) :: m, lo, lo', h, hw => by
    simp only [SMap.wfFrom, Bool.and_eq_true, decide_eq_true_eq] at hw ⊢
    exact ⟨by omega, hw.2⟩

theorem SMap.wfFrom_set : ∀ (m : SMap α) {lo k : Nat} (v : α), lo ≤ k → SMap.wfFrom lo m = true →
    SMap.wfFrom lo (SMap.set m k v) = true
  | [], lo, k, v, hk, _ => by simp [SMap.set, SMap.wfFrom, hk]
  | (j, w) :: m, lo, k, v, hk, h => by
    simp only [SMap.wfFrom, Bool.and_eq_true, decide_eq_true_eq] at h
    simp only [SMap.set]
    split
    · rename_i hlt
      simp only [SMap.wfFrom, Bool.and_eq_true, decide_eq_true_eq]
      exact ⟨hk, by omega, h.2⟩
    · split
      · rename_i _ he
        subst he
        simp only [SMap.wfFrom, Bool.and_eq_true, decide_eq_true_eq]
        exact ⟨hk, h.2⟩
      · simp only [SMap.wfFrom, Bool.and_eq_true, decide_eq_true_eq]
        exact ⟨h.1, SMap.wfFrom_set m v (by omega) h.2⟩

theorem SMap.wfFrom_del : ∀ (m : SMap α) {lo : Nat} (k : Nat), SMap.wfFrom lo m = true → SMap.wfFrom lo (SMap.del m k) = true
  | [], _, _, _ => rfl
  | (j, w) :: m, lo, k, h => by
    simp only [SMap.wfFrom, Bool.and_eq_true, decide_eq_true_eq] at h
    simp only [SMap.del]
    split
    · exact SMap.wfFrom_mono m (by omega) h.2
    · simp only [SMap.wfFrom, Bool.and_eq_true, decide_eq_true_eq]
      exact ⟨h.1, SMap.wfFrom_del m k h.2⟩

theorem SMap.find?_del_self : ∀ (m : SMap α) {lo : Nat} (k : Nat), SMap.wfFrom lo m = true → SMap.find? (SMap.del m k) k = none
  | [], _, _, _ => rfl
  | (j, w) :: m, lo, k, h => by
    simp only [SMap.wfFrom, Bool.and_eq_true, decide_eq_true_eq] at h
    simp only [SMap.del]
    split
    · exact SMap.find?_none_of_lt m (j + 1) k h.2 (by omega)
    · rename_i hj
      simp only [SMap.find?, hj, if_false]
      exact SMap.find?_del_self m k h.2

theorem SMap.mem_set {m : SMap α} {k : Nat} {v : α} {p : Nat × α} (h : p ∈ SMap.set m k v) : p = (k, v) ∨ p ∈ m := by
  induction m with
  | nil => simpa [SMap.set] using h
  | cons q m ih =>
    obtain ⟨j, w⟩ := q
    simp only [SMap.set] at h
    split at h
    · simpa using h
    · split at h
      · simp only [List.mem_cons] at h
        rcases h with h | h
        · exact .inl h
        · exact .inr (List.mem_cons_of_mem _ h)
      · simp only [List.mem_cons] at h
        rcases h with h | h
        · exact .inr (by simp [h])
        · rcases ih h with h | h
          · exact .inl h
          · exact .inr (List.mem_cons_of_mem _ h)

theorem SMap.mem_del {m : SMap α} {k : Nat} {p : Nat × α} (h : p ∈ SMap.del m k) : p ∈ m := by
  induction m with
  | nil => exact h
  | cons q m ih =>
    obtain ⟨j, w⟩ := q
    simp only [SMap.del] at h
    split at h
    · exact List.mem_cons_of_mem _ h
    · simp only [List.mem_cons] at h
      rcases h with h | h
      · simp [h]
      · exact List.mem_cons_of_mem _ (ih h)

theorem SMap.mem_of_find? {m : SMap α} {k : Nat} {v : α} (h : SMap.find? m k = some v) : (k, v) ∈ m := by
  induction m with
  | nil => simp [SMap.find?] at h
  | cons q m ih =>
    obtain ⟨j, w⟩ := q
    simp only [SMap.find?] at h
    split at h
    · rename_i hj
      subst hj
      simp only [Option.some.injEq] at h
      simp [h]
    · exact List.mem_cons_of_mem _ (ih h)

namespace Machine

/-! ### Byte memories -/

theorem Mem.wf_iff (m : List Host.Cell) : Mem.wf m = true ↔ SMap.wfFrom 0 m = true ∧ ∀ c ∈ m, c.2 ≠ 0 := by
  simp [Mem.wf, SMap.wf, List.all_eq_true, bne_iff_ne]

theorem Mem.wf_nil : Mem.wf [] = true := rfl

/-- Writing one byte keeps the canonical form. -/
theorem Mem.wf_put {m : List Host.Cell} (a : Nat) (b : Byte) (h : Mem.wf m = true) : Mem.wf (Mem.put m a b) = true := by
  rw [Mem.wf_iff] at h ⊢
  unfold Mem.put
  split
  · exact ⟨SMap.wfFrom_del m a h.1, fun c hc => h.2 c (SMap.mem_del hc)⟩
  · rename_i hb
    refine ⟨SMap.wfFrom_set m b (Nat.zero_le a) h.1, fun c hc => ?_⟩
    rcases SMap.mem_set hc with hc | hc
    · rw [hc]; exact hb
    · exact h.2 c hc

/-- Writing a range keeps the canonical form. -/
theorem Mem.wf_write : ∀ (n : Nat) {m : List Host.Cell} (a v : Nat), Mem.wf m = true → Mem.wf (Mem.write m a n v) = true
  | 0, _, _, _, h => h
  | n + 1, _, a, v, h => Mem.wf_write n (a + 1) (v / 256) (Mem.wf_put a _ h)

theorem Mem.get_put_ne (m : List Host.Cell) {a c : Nat} (b : Byte) (h : c ≠ a) : Mem.get (Mem.put m a b) c = Mem.get m c := by
  unfold Mem.put Mem.get SMap.get
  split
  · rw [SMap.find?_del_ne m h]
  · rw [SMap.find?_set_ne m b h]

theorem Mem.get_put_self {m : List Host.Cell} (a : Nat) (b : Byte) (h : Mem.wf m = true) : Mem.get (Mem.put m a b) a = b := by
  rw [Mem.wf_iff] at h
  unfold Mem.put Mem.get SMap.get
  split
  · rename_i hb
    rw [SMap.find?_del_self m a h.1, hb]; rfl
  · rw [SMap.find?_set_self]; rfl

/-- A byte outside a written range reads as before. -/
theorem Mem.get_write_out : ∀ (n : Nat) (m : List Host.Cell) (a v c : Nat), (c < a ∨ a + n ≤ c) →
    Mem.get (Mem.write m a n v) c = Mem.get m c
  | 0, _, _, _, _, _ => rfl
  | n + 1, m, a, v, c, h => by
    simp only [Mem.write]
    rw [Mem.get_write_out n _ (a + 1) _ c (by omega), Mem.get_put_ne m _ (by omega)]

/-- A byte of a written range reads as written. -/
theorem Mem.get_write_in : ∀ (n : Nat) {m : List Host.Cell} (a v i : Nat), Mem.wf m = true → i < n →
    Mem.get (Mem.write m a n v) (a + i) = BitVec.ofNat 8 (v / 256 ^ i)
  | n + 1, m, a, v, 0, h, _ => by
    simp only [Mem.write, Nat.add_zero, Nat.pow_zero, Nat.div_one]
    rw [Mem.get_write_out n _ (a + 1) _ a (by omega), Mem.get_put_self a _ h]
  | n + 1, m, a, v, i + 1, h, hi => by
    simp only [Mem.write]
    have := Mem.get_write_in n (a + 1) (v / 256) i (Mem.wf_put a (BitVec.ofNat 8 v) h) (by omega)
    rw [show a + 1 + i = a + (i + 1) by omega] at this
    rw [this, Nat.div_div_eq_div_mul, Nat.pow_succ, Nat.mul_comm]

/-- A range read outside a written range reads as before. -/
theorem Mem.read_write_out : ∀ (k : Nat) (n : Nat) (m : List Host.Cell) (a v c : Nat), (c + k ≤ a ∨ a + n ≤ c) →
    Mem.read (Mem.write m a n v) c k = Mem.read m c k
  | 0, _, _, _, _, _, _ => rfl
  | k + 1, n, m, a, v, c, h => by
    simp only [Mem.read]
    rw [Mem.get_write_out n m a v c (by omega), Mem.read_write_out k n m a v (c + 1) (by omega)]

/-- A range reads back as it was written. -/
theorem Mem.read_write_self : ∀ (n : Nat) {m : List Host.Cell} (a v : Nat), Mem.wf m = true →
    Mem.read (Mem.write m a n v) a n = v % 256 ^ n
  | 0, _, _, _, _ => by simp [Mem.read, Nat.mod_one]
  | n + 1, m, a, v, h => by
    simp only [Mem.read, Mem.write]
    rw [Mem.get_write_out n _ (a + 1) _ a (by omega), Mem.get_put_self a _ h,
      Mem.read_write_self n (a + 1) (v / 256) (Mem.wf_put a _ h), Nat.pow_succ, Nat.mul_comm (256 ^ n) 256,
      Nat.mod_mul]
    simp

theorem Mem.read_lt : ∀ (n : Nat) (m : List Host.Cell) (a : Nat), Mem.read m a n < 256 ^ n
  | 0, _, _ => by simp [Mem.read]
  | n + 1, m, a => by
    have h1 := Mem.read_lt n m (a + 1)
    have h2 := (Mem.get m a).isLt
    simp only [Mem.read, Nat.pow_succ]
    omega

end Machine

end Sys2Proof
end

