-- ==== Sys2Proof/Laws/State.lean ====
section
/-! SUPPORT. Field by field, what each update of the state leaves as it was and what it sets: all by rfl, so that no
proof unfolds a record update. -/

namespace Sys2Proof.Machine


@[simp] theorem State.setCore_mem (s : State) (c : Nat) (k : Core) : (s.setCore c k).mem = s.mem := rfl
@[simp] theorem State.setCore_poison (s : State) (c : Nat) (k : Core) : (s.setCore c k).poison = s.poison := rfl
@[simp] theorem State.setCore_failedFills (s : State) (c : Nat) (k : Core) : (s.setCore c k).failedFills = s.failedFills := rfl
@[simp] theorem State.setCore_sectors (s : State) (c : Nat) (k : Core) : (s.setCore c k).sectors = s.sectors := rfl
@[simp] theorem State.setCore_replicas (s : State) (c : Nat) (k : Core) : (s.setCore c k).replicas = s.replicas := rfl
@[simp] theorem State.setCore_leases (s : State) (c : Nat) (k : Core) : (s.setCore c k).leases = s.leases := rfl
@[simp] theorem State.setCore_ltime (s : State) (c : Nat) (k : Core) : (s.setCore c k).ltime = s.ltime := rfl
@[simp] theorem State.setCore_holds (s : State) (c : Nat) (k : Core) : (s.setCore c k).holds = s.holds := rfl
@[simp] theorem State.setCore_retiredSlices (s : State) (c : Nat) (k : Core) : (s.setCore c k).retiredSlices = s.retiredSlices := rfl
@[simp] theorem State.setCore_lostChannels (s : State) (c : Nat) (k : Core) : (s.setCore c k).lostChannels = s.lostChannels := rfl
@[simp] theorem State.setCore_lanes (s : State) (c : Nat) (k : Core) : (s.setCore c k).lanes = s.lanes := rfl
@[simp] theorem State.setCore_arrayLog (s : State) (c : Nat) (k : Core) : (s.setCore c k).arrayLog = s.arrayLog := rfl
@[simp] theorem State.setCore_busLog (s : State) (c : Nat) (k : Core) : (s.setCore c k).busLog = s.busLog := rfl
@[simp] theorem State.setCore_logTimes (s : State) (c : Nat) (k : Core) : (s.setCore c k).logTimes = s.logTimes := rfl
@[simp] theorem State.setCore_ctxs (s : State) (c : Nat) (k : Core) : (s.setCore c k).ctxs = s.ctxs := rfl
@[simp] theorem State.setCore_queues (s : State) (c : Nat) (k : Core) : (s.setCore c k).queues = s.queues := rfl
@[simp] theorem State.setCore_launches (s : State) (c : Nat) (k : Core) : (s.setCore c k).launches = s.launches := rfl
@[simp] theorem State.setCore_orders (s : State) (c : Nat) (k : Core) : (s.setCore c k).orders = s.orders := rfl
@[simp] theorem State.setCore_orderQueues (s : State) (c : Nat) (k : Core) : (s.setCore c k).orderQueues = s.orderQueues := rfl
@[simp] theorem State.setCore_decisions (s : State) (c : Nat) (k : Core) : (s.setCore c k).decisions = s.decisions := rfl
@[simp] theorem State.setCore_reserved (s : State) (c : Nat) (k : Core) : (s.setCore c k).reserved = s.reserved := rfl
@[simp] theorem State.setCore_pageItems (s : State) (c : Nat) (k : Core) : (s.setCore c k).pageItems = s.pageItems := rfl
@[simp] theorem State.setCore_pageSeq (s : State) (c : Nat) (k : Core) : (s.setCore c k).pageSeq = s.pageSeq := rfl
@[simp] theorem State.setCore_triage (s : State) (c : Nat) (k : Core) : (s.setCore c k).triage = s.triage := rfl
@[simp] theorem State.setCore_unitSeq (s : State) (c : Nat) (k : Core) : (s.setCore c k).unitSeq = s.unitSeq := rfl
@[simp] theorem State.setCore_subs (s : State) (c : Nat) (k : Core) : (s.setCore c k).subs = s.subs := rfl
@[simp] theorem State.setCore_subIds (s : State) (c : Nat) (k : Core) : (s.setCore c k).subIds = s.subIds := rfl
@[simp] theorem State.setCore_journals (s : State) (c : Nat) (k : Core) : (s.setCore c k).journals = s.journals := rfl
@[simp] theorem State.setCore_stages (s : State) (c : Nat) (k : Core) : (s.setCore c k).stages = s.stages := rfl
@[simp] theorem State.setCore_savedTasks (s : State) (c : Nat) (k : Core) : (s.setCore c k).savedTasks = s.savedTasks := rfl
@[simp] theorem State.setCore_annexes (s : State) (c : Nat) (k : Core) : (s.setCore c k).annexes = s.annexes := rfl
@[simp] theorem State.setCore_pkg (s : State) (c : Nat) (k : Core) : (s.setCore c k).pkg = s.pkg := rfl
@[simp] theorem State.setCore_npkgs (s : State) (c : Nat) (k : Core) : (s.setCore c k).npkgs = s.npkgs := rfl
@[simp] theorem State.setCore_cxl (s : State) (c : Nat) (k : Core) : (s.setCore c k).cxl = s.cxl := rfl
@[simp] theorem State.setCore_failedPorts (s : State) (c : Nat) (k : Core) : (s.setCore c k).failedPorts = s.failedPorts := rfl
@[simp] theorem State.setCore_unacked (s : State) (c : Nat) (k : Core) : (s.setCore c k).unacked = s.unacked := rfl
@[simp] theorem State.setCore_segments (s : State) (c : Nat) (k : Core) : (s.setCore c k).segments = s.segments := rfl
@[simp] theorem State.setCore_fabric (s : State) (c : Nat) (k : Core) : (s.setCore c k).fabric = s.fabric := rfl
@[simp] theorem State.setCore_routes (s : State) (c : Nat) (k : Core) : (s.setCore c k).routes = s.routes := rfl
@[simp] theorem State.setCore_heard (s : State) (c : Nat) (k : Core) : (s.setCore c k).heard = s.heard := rfl
@[simp] theorem State.setCore_releases (s : State) (c : Nat) (k : Core) : (s.setCore c k).releases = s.releases := rfl
@[simp] theorem State.setCore_acks (s : State) (c : Nat) (k : Core) : (s.setCore c k).acks = s.acks := rfl
@[simp] theorem State.setCore_msix (s : State) (c : Nat) (k : Core) : (s.setCore c k).msix = s.msix := rfl
@[simp] theorem State.setCore_hostReads (s : State) (c : Nat) (k : Core) : (s.setCore c k).hostReads = s.hostReads := rfl
@[simp] theorem State.setCore_portErrors (s : State) (c : Nat) (k : Core) : (s.setCore c k).portErrors = s.portErrors := rfl
@[simp] theorem State.setCore_dev (s : State) (c : Nat) (k : Core) : (s.setCore c k).dev = s.dev := rfl
@[simp] theorem State.setCore_monitors (s : State) (c : Nat) (k : Core) : (s.setCore c k).monitors = s.monitors := rfl
@[simp] theorem State.setCore_firmware (s : State) (c : Nat) (k : Core) : (s.setCore c k).firmware = s.firmware := rfl
@[simp] theorem State.setCore_cycle (s : State) (c : Nat) (k : Core) : (s.setCore c k).cycle = s.cycle := rfl
@[simp] theorem State.setCore_ns (s : State) (c : Nat) (k : Core) : (s.setCore c k).ns = s.ns := rfl
@[simp] theorem State.setCore_mhz (s : State) (c : Nat) (k : Core) : (s.setCore c k).mhz = s.mhz := rfl
@[simp] theorem State.setCore_turns (s : State) (c : Nat) (k : Core) : (s.setCore c k).turns = s.turns := rfl
@[simp] theorem State.setCore_flight (s : State) (c : Nat) (k : Core) : (s.setCore c k).flight = s.flight := rfl
@[simp] theorem State.setCore_cur (s : State) (c : Nat) (k : Core) : (s.setCore c k).cur = s.cur := rfl
@[simp] theorem State.setCore_issue (s : State) (c : Nat) (k : Core) : (s.setCore c k).issue = s.issue := rfl
@[simp] theorem State.setCore_item (s : State) (c : Nat) (k : Core) : (s.setCore c k).item = s.item := rfl
@[simp] theorem State.setCore_free (s : State) (c : Nat) (k : Core) : (s.setCore c k).free = s.free := rfl

@[simp] theorem State.setThread_mem (s : State) (c t : Nat) (th : Thread) : (s.setThread c t th).mem = s.mem := rfl
@[simp] theorem State.setThread_poison (s : State) (c t : Nat) (th : Thread) : (s.setThread c t th).poison = s.poison := rfl
@[simp] theorem State.setThread_failedFills (s : State) (c t : Nat) (th : Thread) : (s.setThread c t th).failedFills = s.failedFills := rfl
@[simp] theorem State.setThread_sectors (s : State) (c t : Nat) (th : Thread) : (s.setThread c t th).sectors = s.sectors := rfl
@[simp] theorem State.setThread_replicas (s : State) (c t : Nat) (th : Thread) : (s.setThread c t th).replicas = s.replicas := rfl
@[simp] theorem State.setThread_leases (s : State) (c t : Nat) (th : Thread) : (s.setThread c t th).leases = s.leases := rfl
@[simp] theorem State.setThread_ltime (s : State) (c t : Nat) (th : Thread) : (s.setThread c t th).ltime = s.ltime := rfl
@[simp] theorem State.setThread_holds (s : State) (c t : Nat) (th : Thread) : (s.setThread c t th).holds = s.holds := rfl
@[simp] theorem State.setThread_retiredSlices (s : State) (c t : Nat) (th : Thread) : (s.setThread c t th).retiredSlices = s.retiredSlices := rfl
@[simp] theorem State.setThread_lostChannels (s : State) (c t : Nat) (th : Thread) : (s.setThread c t th).lostChannels = s.lostChannels := rfl
@[simp] theorem State.setThread_lanes (s : State) (c t : Nat) (th : Thread) : (s.setThread c t th).lanes = s.lanes := rfl
@[simp] theorem State.setThread_arrayLog (s : State) (c t : Nat) (th : Thread) : (s.setThread c t th).arrayLog = s.arrayLog := rfl
@[simp] theorem State.setThread_busLog (s : State) (c t : Nat) (th : Thread) : (s.setThread c t th).busLog = s.busLog := rfl
@[simp] theorem State.setThread_logTimes (s : State) (c t : Nat) (th : Thread) : (s.setThread c t th).logTimes = s.logTimes := rfl
@[simp] theorem State.setThread_ctxs (s : State) (c t : Nat) (th : Thread) : (s.setThread c t th).ctxs = s.ctxs := rfl
@[simp] theorem State.setThread_queues (s : State) (c t : Nat) (th : Thread) : (s.setThread c t th).queues = s.queues := rfl
@[simp] theorem State.setThread_launches (s : State) (c t : Nat) (th : Thread) : (s.setThread c t th).launches = s.launches := rfl
@[simp] theorem State.setThread_orders (s : State) (c t : Nat) (th : Thread) : (s.setThread c t th).orders = s.orders := rfl
@[simp] theorem State.setThread_orderQueues (s : State) (c t : Nat) (th : Thread) : (s.setThread c t th).orderQueues = s.orderQueues := rfl
@[simp] theorem State.setThread_decisions (s : State) (c t : Nat) (th : Thread) : (s.setThread c t th).decisions = s.decisions := rfl
@[simp] theorem State.setThread_reserved (s : State) (c t : Nat) (th : Thread) : (s.setThread c t th).reserved = s.reserved := rfl
@[simp] theorem State.setThread_pageItems (s : State) (c t : Nat) (th : Thread) : (s.setThread c t th).pageItems = s.pageItems := rfl
@[simp] theorem State.setThread_pageSeq (s : State) (c t : Nat) (th : Thread) : (s.setThread c t th).pageSeq = s.pageSeq := rfl
@[simp] theorem State.setThread_triage (s : State) (c t : Nat) (th : Thread) : (s.setThread c t th).triage = s.triage := rfl
@[simp] theorem State.setThread_unitSeq (s : State) (c t : Nat) (th : Thread) : (s.setThread c t th).unitSeq = s.unitSeq := rfl
@[simp] theorem State.setThread_subs (s : State) (c t : Nat) (th : Thread) : (s.setThread c t th).subs = s.subs := rfl
@[simp] theorem State.setThread_subIds (s : State) (c t : Nat) (th : Thread) : (s.setThread c t th).subIds = s.subIds := rfl
@[simp] theorem State.setThread_journals (s : State) (c t : Nat) (th : Thread) : (s.setThread c t th).journals = s.journals := rfl
@[simp] theorem State.setThread_stages (s : State) (c t : Nat) (th : Thread) : (s.setThread c t th).stages = s.stages := rfl
@[simp] theorem State.setThread_savedTasks (s : State) (c t : Nat) (th : Thread) : (s.setThread c t th).savedTasks = s.savedTasks := rfl
@[simp] theorem State.setThread_annexes (s : State) (c t : Nat) (th : Thread) : (s.setThread c t th).annexes = s.annexes := rfl
@[simp] theorem State.setThread_pkg (s : State) (c t : Nat) (th : Thread) : (s.setThread c t th).pkg = s.pkg := rfl
@[simp] theorem State.setThread_npkgs (s : State) (c t : Nat) (th : Thread) : (s.setThread c t th).npkgs = s.npkgs := rfl
@[simp] theorem State.setThread_cxl (s : State) (c t : Nat) (th : Thread) : (s.setThread c t th).cxl = s.cxl := rfl
@[simp] theorem State.setThread_failedPorts (s : State) (c t : Nat) (th : Thread) : (s.setThread c t th).failedPorts = s.failedPorts := rfl
@[simp] theorem State.setThread_unacked (s : State) (c t : Nat) (th : Thread) : (s.setThread c t th).unacked = s.unacked := rfl
@[simp] theorem State.setThread_segments (s : State) (c t : Nat) (th : Thread) : (s.setThread c t th).segments = s.segments := rfl
@[simp] theorem State.setThread_fabric (s : State) (c t : Nat) (th : Thread) : (s.setThread c t th).fabric = s.fabric := rfl
@[simp] theorem State.setThread_routes (s : State) (c t : Nat) (th : Thread) : (s.setThread c t th).routes = s.routes := rfl
@[simp] theorem State.setThread_heard (s : State) (c t : Nat) (th : Thread) : (s.setThread c t th).heard = s.heard := rfl
@[simp] theorem State.setThread_releases (s : State) (c t : Nat) (th : Thread) : (s.setThread c t th).releases = s.releases := rfl
@[simp] theorem State.setThread_acks (s : State) (c t : Nat) (th : Thread) : (s.setThread c t th).acks = s.acks := rfl
@[simp] theorem State.setThread_msix (s : State) (c t : Nat) (th : Thread) : (s.setThread c t th).msix = s.msix := rfl
@[simp] theorem State.setThread_hostReads (s : State) (c t : Nat) (th : Thread) : (s.setThread c t th).hostReads = s.hostReads := rfl
@[simp] theorem State.setThread_portErrors (s : State) (c t : Nat) (th : Thread) : (s.setThread c t th).portErrors = s.portErrors := rfl
@[simp] theorem State.setThread_dev (s : State) (c t : Nat) (th : Thread) : (s.setThread c t th).dev = s.dev := rfl
@[simp] theorem State.setThread_monitors (s : State) (c t : Nat) (th : Thread) : (s.setThread c t th).monitors = s.monitors := rfl
@[simp] theorem State.setThread_firmware (s : State) (c t : Nat) (th : Thread) : (s.setThread c t th).firmware = s.firmware := rfl
@[simp] theorem State.setThread_cycle (s : State) (c t : Nat) (th : Thread) : (s.setThread c t th).cycle = s.cycle := rfl
@[simp] theorem State.setThread_ns (s : State) (c t : Nat) (th : Thread) : (s.setThread c t th).ns = s.ns := rfl
@[simp] theorem State.setThread_mhz (s : State) (c t : Nat) (th : Thread) : (s.setThread c t th).mhz = s.mhz := rfl
@[simp] theorem State.setThread_turns (s : State) (c t : Nat) (th : Thread) : (s.setThread c t th).turns = s.turns := rfl
@[simp] theorem State.setThread_flight (s : State) (c t : Nat) (th : Thread) : (s.setThread c t th).flight = s.flight := rfl
@[simp] theorem State.setThread_cur (s : State) (c t : Nat) (th : Thread) : (s.setThread c t th).cur = s.cur := rfl
@[simp] theorem State.setThread_issue (s : State) (c t : Nat) (th : Thread) : (s.setThread c t th).issue = s.issue := rfl
@[simp] theorem State.setThread_item (s : State) (c t : Nat) (th : Thread) : (s.setThread c t th).item = s.item := rfl
@[simp] theorem State.setThread_free (s : State) (c t : Nat) (th : Thread) : (s.setThread c t th).free = s.free := rfl

@[simp] theorem State.setMe_mem (s : State) (th : Thread) : (s.setMe th).mem = s.mem := rfl
@[simp] theorem State.setMe_poison (s : State) (th : Thread) : (s.setMe th).poison = s.poison := rfl
@[simp] theorem State.setMe_failedFills (s : State) (th : Thread) : (s.setMe th).failedFills = s.failedFills := rfl
@[simp] theorem State.setMe_sectors (s : State) (th : Thread) : (s.setMe th).sectors = s.sectors := rfl
@[simp] theorem State.setMe_replicas (s : State) (th : Thread) : (s.setMe th).replicas = s.replicas := rfl
@[simp] theorem State.setMe_leases (s : State) (th : Thread) : (s.setMe th).leases = s.leases := rfl
@[simp] theorem State.setMe_ltime (s : State) (th : Thread) : (s.setMe th).ltime = s.ltime := rfl
@[simp] theorem State.setMe_holds (s : State) (th : Thread) : (s.setMe th).holds = s.holds := rfl
@[simp] theorem State.setMe_retiredSlices (s : State) (th : Thread) : (s.setMe th).retiredSlices = s.retiredSlices := rfl
@[simp] theorem State.setMe_lostChannels (s : State) (th : Thread) : (s.setMe th).lostChannels = s.lostChannels := rfl
@[simp] theorem State.setMe_lanes (s : State) (th : Thread) : (s.setMe th).lanes = s.lanes := rfl
@[simp] theorem State.setMe_arrayLog (s : State) (th : Thread) : (s.setMe th).arrayLog = s.arrayLog := rfl
@[simp] theorem State.setMe_busLog (s : State) (th : Thread) : (s.setMe th).busLog = s.busLog := rfl
@[simp] theorem State.setMe_logTimes (s : State) (th : Thread) : (s.setMe th).logTimes = s.logTimes := rfl
@[simp] theorem State.setMe_ctxs (s : State) (th : Thread) : (s.setMe th).ctxs = s.ctxs := rfl
@[simp] theorem State.setMe_queues (s : State) (th : Thread) : (s.setMe th).queues = s.queues := rfl
@[simp] theorem State.setMe_launches (s : State) (th : Thread) : (s.setMe th).launches = s.launches := rfl
@[simp] theorem State.setMe_orders (s : State) (th : Thread) : (s.setMe th).orders = s.orders := rfl
@[simp] theorem State.setMe_orderQueues (s : State) (th : Thread) : (s.setMe th).orderQueues = s.orderQueues := rfl
@[simp] theorem State.setMe_decisions (s : State) (th : Thread) : (s.setMe th).decisions = s.decisions := rfl
@[simp] theorem State.setMe_reserved (s : State) (th : Thread) : (s.setMe th).reserved = s.reserved := rfl
@[simp] theorem State.setMe_pageItems (s : State) (th : Thread) : (s.setMe th).pageItems = s.pageItems := rfl
@[simp] theorem State.setMe_pageSeq (s : State) (th : Thread) : (s.setMe th).pageSeq = s.pageSeq := rfl
@[simp] theorem State.setMe_triage (s : State) (th : Thread) : (s.setMe th).triage = s.triage := rfl
@[simp] theorem State.setMe_unitSeq (s : State) (th : Thread) : (s.setMe th).unitSeq = s.unitSeq := rfl
@[simp] theorem State.setMe_subs (s : State) (th : Thread) : (s.setMe th).subs = s.subs := rfl
@[simp] theorem State.setMe_subIds (s : State) (th : Thread) : (s.setMe th).subIds = s.subIds := rfl
@[simp] theorem State.setMe_journals (s : State) (th : Thread) : (s.setMe th).journals = s.journals := rfl
@[simp] theorem State.setMe_stages (s : State) (th : Thread) : (s.setMe th).stages = s.stages := rfl
@[simp] theorem State.setMe_savedTasks (s : State) (th : Thread) : (s.setMe th).savedTasks = s.savedTasks := rfl
@[simp] theorem State.setMe_annexes (s : State) (th : Thread) : (s.setMe th).annexes = s.annexes := rfl
@[simp] theorem State.setMe_pkg (s : State) (th : Thread) : (s.setMe th).pkg = s.pkg := rfl
@[simp] theorem State.setMe_npkgs (s : State) (th : Thread) : (s.setMe th).npkgs = s.npkgs := rfl
@[simp] theorem State.setMe_cxl (s : State) (th : Thread) : (s.setMe th).cxl = s.cxl := rfl
@[simp] theorem State.setMe_failedPorts (s : State) (th : Thread) : (s.setMe th).failedPorts = s.failedPorts := rfl
@[simp] theorem State.setMe_unacked (s : State) (th : Thread) : (s.setMe th).unacked = s.unacked := rfl
@[simp] theorem State.setMe_segments (s : State) (th : Thread) : (s.setMe th).segments = s.segments := rfl
@[simp] theorem State.setMe_fabric (s : State) (th : Thread) : (s.setMe th).fabric = s.fabric := rfl
@[simp] theorem State.setMe_routes (s : State) (th : Thread) : (s.setMe th).routes = s.routes := rfl
@[simp] theorem State.setMe_heard (s : State) (th : Thread) : (s.setMe th).heard = s.heard := rfl
@[simp] theorem State.setMe_releases (s : State) (th : Thread) : (s.setMe th).releases = s.releases := rfl
@[simp] theorem State.setMe_acks (s : State) (th : Thread) : (s.setMe th).acks = s.acks := rfl
@[simp] theorem State.setMe_msix (s : State) (th : Thread) : (s.setMe th).msix = s.msix := rfl
@[simp] theorem State.setMe_hostReads (s : State) (th : Thread) : (s.setMe th).hostReads = s.hostReads := rfl
@[simp] theorem State.setMe_portErrors (s : State) (th : Thread) : (s.setMe th).portErrors = s.portErrors := rfl
@[simp] theorem State.setMe_dev (s : State) (th : Thread) : (s.setMe th).dev = s.dev := rfl
@[simp] theorem State.setMe_monitors (s : State) (th : Thread) : (s.setMe th).monitors = s.monitors := rfl
@[simp] theorem State.setMe_firmware (s : State) (th : Thread) : (s.setMe th).firmware = s.firmware := rfl
@[simp] theorem State.setMe_cycle (s : State) (th : Thread) : (s.setMe th).cycle = s.cycle := rfl
@[simp] theorem State.setMe_ns (s : State) (th : Thread) : (s.setMe th).ns = s.ns := rfl
@[simp] theorem State.setMe_mhz (s : State) (th : Thread) : (s.setMe th).mhz = s.mhz := rfl
@[simp] theorem State.setMe_turns (s : State) (th : Thread) : (s.setMe th).turns = s.turns := rfl
@[simp] theorem State.setMe_flight (s : State) (th : Thread) : (s.setMe th).flight = s.flight := rfl
@[simp] theorem State.setMe_cur (s : State) (th : Thread) : (s.setMe th).cur = s.cur := rfl
@[simp] theorem State.setMe_issue (s : State) (th : Thread) : (s.setMe th).issue = s.issue := rfl
@[simp] theorem State.setMe_item (s : State) (th : Thread) : (s.setMe th).item = s.item := rfl
@[simp] theorem State.setMe_free (s : State) (th : Thread) : (s.setMe th).free = s.free := rfl

@[simp] theorem State.setMyCore_mem (s : State) (k : Core) : (s.setMyCore k).mem = s.mem := rfl
@[simp] theorem State.setMyCore_poison (s : State) (k : Core) : (s.setMyCore k).poison = s.poison := rfl
@[simp] theorem State.setMyCore_failedFills (s : State) (k : Core) : (s.setMyCore k).failedFills = s.failedFills := rfl
@[simp] theorem State.setMyCore_sectors (s : State) (k : Core) : (s.setMyCore k).sectors = s.sectors := rfl
@[simp] theorem State.setMyCore_replicas (s : State) (k : Core) : (s.setMyCore k).replicas = s.replicas := rfl
@[simp] theorem State.setMyCore_leases (s : State) (k : Core) : (s.setMyCore k).leases = s.leases := rfl
@[simp] theorem State.setMyCore_ltime (s : State) (k : Core) : (s.setMyCore k).ltime = s.ltime := rfl
@[simp] theorem State.setMyCore_holds (s : State) (k : Core) : (s.setMyCore k).holds = s.holds := rfl
@[simp] theorem State.setMyCore_retiredSlices (s : State) (k : Core) : (s.setMyCore k).retiredSlices = s.retiredSlices := rfl
@[simp] theorem State.setMyCore_lostChannels (s : State) (k : Core) : (s.setMyCore k).lostChannels = s.lostChannels := rfl
@[simp] theorem State.setMyCore_lanes (s : State) (k : Core) : (s.setMyCore k).lanes = s.lanes := rfl
@[simp] theorem State.setMyCore_arrayLog (s : State) (k : Core) : (s.setMyCore k).arrayLog = s.arrayLog := rfl
@[simp] theorem State.setMyCore_busLog (s : State) (k : Core) : (s.setMyCore k).busLog = s.busLog := rfl
@[simp] theorem State.setMyCore_logTimes (s : State) (k : Core) : (s.setMyCore k).logTimes = s.logTimes := rfl
@[simp] theorem State.setMyCore_ctxs (s : State) (k : Core) : (s.setMyCore k).ctxs = s.ctxs := rfl
@[simp] theorem State.setMyCore_queues (s : State) (k : Core) : (s.setMyCore k).queues = s.queues := rfl
@[simp] theorem State.setMyCore_launches (s : State) (k : Core) : (s.setMyCore k).launches = s.launches := rfl
@[simp] theorem State.setMyCore_orders (s : State) (k : Core) : (s.setMyCore k).orders = s.orders := rfl
@[simp] theorem State.setMyCore_orderQueues (s : State) (k : Core) : (s.setMyCore k).orderQueues = s.orderQueues := rfl
@[simp] theorem State.setMyCore_decisions (s : State) (k : Core) : (s.setMyCore k).decisions = s.decisions := rfl
@[simp] theorem State.setMyCore_reserved (s : State) (k : Core) : (s.setMyCore k).reserved = s.reserved := rfl
@[simp] theorem State.setMyCore_pageItems (s : State) (k : Core) : (s.setMyCore k).pageItems = s.pageItems := rfl
@[simp] theorem State.setMyCore_pageSeq (s : State) (k : Core) : (s.setMyCore k).pageSeq = s.pageSeq := rfl
@[simp] theorem State.setMyCore_triage (s : State) (k : Core) : (s.setMyCore k).triage = s.triage := rfl
@[simp] theorem State.setMyCore_unitSeq (s : State) (k : Core) : (s.setMyCore k).unitSeq = s.unitSeq := rfl
@[simp] theorem State.setMyCore_subs (s : State) (k : Core) : (s.setMyCore k).subs = s.subs := rfl
@[simp] theorem State.setMyCore_subIds (s : State) (k : Core) : (s.setMyCore k).subIds = s.subIds := rfl
@[simp] theorem State.setMyCore_journals (s : State) (k : Core) : (s.setMyCore k).journals = s.journals := rfl
@[simp] theorem State.setMyCore_stages (s : State) (k : Core) : (s.setMyCore k).stages = s.stages := rfl
@[simp] theorem State.setMyCore_savedTasks (s : State) (k : Core) : (s.setMyCore k).savedTasks = s.savedTasks := rfl
@[simp] theorem State.setMyCore_annexes (s : State) (k : Core) : (s.setMyCore k).annexes = s.annexes := rfl
@[simp] theorem State.setMyCore_pkg (s : State) (k : Core) : (s.setMyCore k).pkg = s.pkg := rfl
@[simp] theorem State.setMyCore_npkgs (s : State) (k : Core) : (s.setMyCore k).npkgs = s.npkgs := rfl
@[simp] theorem State.setMyCore_cxl (s : State) (k : Core) : (s.setMyCore k).cxl = s.cxl := rfl
@[simp] theorem State.setMyCore_failedPorts (s : State) (k : Core) : (s.setMyCore k).failedPorts = s.failedPorts := rfl
@[simp] theorem State.setMyCore_unacked (s : State) (k : Core) : (s.setMyCore k).unacked = s.unacked := rfl
@[simp] theorem State.setMyCore_segments (s : State) (k : Core) : (s.setMyCore k).segments = s.segments := rfl
@[simp] theorem State.setMyCore_fabric (s : State) (k : Core) : (s.setMyCore k).fabric = s.fabric := rfl
@[simp] theorem State.setMyCore_routes (s : State) (k : Core) : (s.setMyCore k).routes = s.routes := rfl
@[simp] theorem State.setMyCore_heard (s : State) (k : Core) : (s.setMyCore k).heard = s.heard := rfl
@[simp] theorem State.setMyCore_releases (s : State) (k : Core) : (s.setMyCore k).releases = s.releases := rfl
@[simp] theorem State.setMyCore_acks (s : State) (k : Core) : (s.setMyCore k).acks = s.acks := rfl
@[simp] theorem State.setMyCore_msix (s : State) (k : Core) : (s.setMyCore k).msix = s.msix := rfl
@[simp] theorem State.setMyCore_hostReads (s : State) (k : Core) : (s.setMyCore k).hostReads = s.hostReads := rfl
@[simp] theorem State.setMyCore_portErrors (s : State) (k : Core) : (s.setMyCore k).portErrors = s.portErrors := rfl
@[simp] theorem State.setMyCore_dev (s : State) (k : Core) : (s.setMyCore k).dev = s.dev := rfl
@[simp] theorem State.setMyCore_monitors (s : State) (k : Core) : (s.setMyCore k).monitors = s.monitors := rfl
@[simp] theorem State.setMyCore_firmware (s : State) (k : Core) : (s.setMyCore k).firmware = s.firmware := rfl
@[simp] theorem State.setMyCore_cycle (s : State) (k : Core) : (s.setMyCore k).cycle = s.cycle := rfl
@[simp] theorem State.setMyCore_ns (s : State) (k : Core) : (s.setMyCore k).ns = s.ns := rfl
@[simp] theorem State.setMyCore_mhz (s : State) (k : Core) : (s.setMyCore k).mhz = s.mhz := rfl
@[simp] theorem State.setMyCore_turns (s : State) (k : Core) : (s.setMyCore k).turns = s.turns := rfl
@[simp] theorem State.setMyCore_flight (s : State) (k : Core) : (s.setMyCore k).flight = s.flight := rfl
@[simp] theorem State.setMyCore_cur (s : State) (k : Core) : (s.setMyCore k).cur = s.cur := rfl
@[simp] theorem State.setMyCore_issue (s : State) (k : Core) : (s.setMyCore k).issue = s.issue := rfl
@[simp] theorem State.setMyCore_item (s : State) (k : Core) : (s.setMyCore k).item = s.item := rfl
@[simp] theorem State.setMyCore_free (s : State) (k : Core) : (s.setMyCore k).free = s.free := rfl

@[simp] theorem State.setCtx_cores (s : State) (x : Nat) (k : Context) : (s.setCtx x k).cores = s.cores := rfl
@[simp] theorem State.setCtx_mem (s : State) (x : Nat) (k : Context) : (s.setCtx x k).mem = s.mem := rfl
@[simp] theorem State.setCtx_poison (s : State) (x : Nat) (k : Context) : (s.setCtx x k).poison = s.poison := rfl
@[simp] theorem State.setCtx_failedFills (s : State) (x : Nat) (k : Context) : (s.setCtx x k).failedFills = s.failedFills := rfl
@[simp] theorem State.setCtx_sectors (s : State) (x : Nat) (k : Context) : (s.setCtx x k).sectors = s.sectors := rfl
@[simp] theorem State.setCtx_replicas (s : State) (x : Nat) (k : Context) : (s.setCtx x k).replicas = s.replicas := rfl
@[simp] theorem State.setCtx_leases (s : State) (x : Nat) (k : Context) : (s.setCtx x k).leases = s.leases := rfl
@[simp] theorem State.setCtx_ltime (s : State) (x : Nat) (k : Context) : (s.setCtx x k).ltime = s.ltime := rfl
@[simp] theorem State.setCtx_holds (s : State) (x : Nat) (k : Context) : (s.setCtx x k).holds = s.holds := rfl
@[simp] theorem State.setCtx_retiredSlices (s : State) (x : Nat) (k : Context) : (s.setCtx x k).retiredSlices = s.retiredSlices := rfl
@[simp] theorem State.setCtx_lostChannels (s : State) (x : Nat) (k : Context) : (s.setCtx x k).lostChannels = s.lostChannels := rfl
@[simp] theorem State.setCtx_lanes (s : State) (x : Nat) (k : Context) : (s.setCtx x k).lanes = s.lanes := rfl
@[simp] theorem State.setCtx_arrayLog (s : State) (x : Nat) (k : Context) : (s.setCtx x k).arrayLog = s.arrayLog := rfl
@[simp] theorem State.setCtx_busLog (s : State) (x : Nat) (k : Context) : (s.setCtx x k).busLog = s.busLog := rfl
@[simp] theorem State.setCtx_logTimes (s : State) (x : Nat) (k : Context) : (s.setCtx x k).logTimes = s.logTimes := rfl
@[simp] theorem State.setCtx_queues (s : State) (x : Nat) (k : Context) : (s.setCtx x k).queues = s.queues := rfl
@[simp] theorem State.setCtx_launches (s : State) (x : Nat) (k : Context) : (s.setCtx x k).launches = s.launches := rfl
@[simp] theorem State.setCtx_orders (s : State) (x : Nat) (k : Context) : (s.setCtx x k).orders = s.orders := rfl
@[simp] theorem State.setCtx_orderQueues (s : State) (x : Nat) (k : Context) : (s.setCtx x k).orderQueues = s.orderQueues := rfl
@[simp] theorem State.setCtx_decisions (s : State) (x : Nat) (k : Context) : (s.setCtx x k).decisions = s.decisions := rfl
@[simp] theorem State.setCtx_reserved (s : State) (x : Nat) (k : Context) : (s.setCtx x k).reserved = s.reserved := rfl
@[simp] theorem State.setCtx_pageItems (s : State) (x : Nat) (k : Context) : (s.setCtx x k).pageItems = s.pageItems := rfl
@[simp] theorem State.setCtx_pageSeq (s : State) (x : Nat) (k : Context) : (s.setCtx x k).pageSeq = s.pageSeq := rfl
@[simp] theorem State.setCtx_triage (s : State) (x : Nat) (k : Context) : (s.setCtx x k).triage = s.triage := rfl
@[simp] theorem State.setCtx_unitSeq (s : State) (x : Nat) (k : Context) : (s.setCtx x k).unitSeq = s.unitSeq := rfl
@[simp] theorem State.setCtx_subs (s : State) (x : Nat) (k : Context) : (s.setCtx x k).subs = s.subs := rfl
@[simp] theorem State.setCtx_subIds (s : State) (x : Nat) (k : Context) : (s.setCtx x k).subIds = s.subIds := rfl
@[simp] theorem State.setCtx_journals (s : State) (x : Nat) (k : Context) : (s.setCtx x k).journals = s.journals := rfl
@[simp] theorem State.setCtx_stages (s : State) (x : Nat) (k : Context) : (s.setCtx x k).stages = s.stages := rfl
@[simp] theorem State.setCtx_savedTasks (s : State) (x : Nat) (k : Context) : (s.setCtx x k).savedTasks = s.savedTasks := rfl
@[simp] theorem State.setCtx_annexes (s : State) (x : Nat) (k : Context) : (s.setCtx x k).annexes = s.annexes := rfl
@[simp] theorem State.setCtx_pkg (s : State) (x : Nat) (k : Context) : (s.setCtx x k).pkg = s.pkg := rfl
@[simp] theorem State.setCtx_npkgs (s : State) (x : Nat) (k : Context) : (s.setCtx x k).npkgs = s.npkgs := rfl
@[simp] theorem State.setCtx_cxl (s : State) (x : Nat) (k : Context) : (s.setCtx x k).cxl = s.cxl := rfl
@[simp] theorem State.setCtx_failedPorts (s : State) (x : Nat) (k : Context) : (s.setCtx x k).failedPorts = s.failedPorts := rfl
@[simp] theorem State.setCtx_unacked (s : State) (x : Nat) (k : Context) : (s.setCtx x k).unacked = s.unacked := rfl
@[simp] theorem State.setCtx_segments (s : State) (x : Nat) (k : Context) : (s.setCtx x k).segments = s.segments := rfl
@[simp] theorem State.setCtx_fabric (s : State) (x : Nat) (k : Context) : (s.setCtx x k).fabric = s.fabric := rfl
@[simp] theorem State.setCtx_routes (s : State) (x : Nat) (k : Context) : (s.setCtx x k).routes = s.routes := rfl
@[simp] theorem State.setCtx_heard (s : State) (x : Nat) (k : Context) : (s.setCtx x k).heard = s.heard := rfl
@[simp] theorem State.setCtx_releases (s : State) (x : Nat) (k : Context) : (s.setCtx x k).releases = s.releases := rfl
@[simp] theorem State.setCtx_acks (s : State) (x : Nat) (k : Context) : (s.setCtx x k).acks = s.acks := rfl
@[simp] theorem State.setCtx_msix (s : State) (x : Nat) (k : Context) : (s.setCtx x k).msix = s.msix := rfl
@[simp] theorem State.setCtx_hostReads (s : State) (x : Nat) (k : Context) : (s.setCtx x k).hostReads = s.hostReads := rfl
@[simp] theorem State.setCtx_portErrors (s : State) (x : Nat) (k : Context) : (s.setCtx x k).portErrors = s.portErrors := rfl
@[simp] theorem State.setCtx_dev (s : State) (x : Nat) (k : Context) : (s.setCtx x k).dev = s.dev := rfl
@[simp] theorem State.setCtx_monitors (s : State) (x : Nat) (k : Context) : (s.setCtx x k).monitors = s.monitors := rfl
@[simp] theorem State.setCtx_firmware (s : State) (x : Nat) (k : Context) : (s.setCtx x k).firmware = s.firmware := rfl
@[simp] theorem State.setCtx_cycle (s : State) (x : Nat) (k : Context) : (s.setCtx x k).cycle = s.cycle := rfl
@[simp] theorem State.setCtx_ns (s : State) (x : Nat) (k : Context) : (s.setCtx x k).ns = s.ns := rfl
@[simp] theorem State.setCtx_mhz (s : State) (x : Nat) (k : Context) : (s.setCtx x k).mhz = s.mhz := rfl
@[simp] theorem State.setCtx_turns (s : State) (x : Nat) (k : Context) : (s.setCtx x k).turns = s.turns := rfl
@[simp] theorem State.setCtx_flight (s : State) (x : Nat) (k : Context) : (s.setCtx x k).flight = s.flight := rfl
@[simp] theorem State.setCtx_cur (s : State) (x : Nat) (k : Context) : (s.setCtx x k).cur = s.cur := rfl
@[simp] theorem State.setCtx_issue (s : State) (x : Nat) (k : Context) : (s.setCtx x k).issue = s.issue := rfl
@[simp] theorem State.setCtx_item (s : State) (x : Nat) (k : Context) : (s.setCtx x k).item = s.item := rfl
@[simp] theorem State.setCtx_free (s : State) (x : Nat) (k : Context) : (s.setCtx x k).free = s.free := rfl

@[simp] theorem State.setQueue_cores (s : State) (x q : Nat) (k : Queue) : (s.setQueue x q k).cores = s.cores := rfl
@[simp] theorem State.setQueue_mem (s : State) (x q : Nat) (k : Queue) : (s.setQueue x q k).mem = s.mem := rfl
@[simp] theorem State.setQueue_poison (s : State) (x q : Nat) (k : Queue) : (s.setQueue x q k).poison = s.poison := rfl
@[simp] theorem State.setQueue_failedFills (s : State) (x q : Nat) (k : Queue) : (s.setQueue x q k).failedFills = s.failedFills := rfl
@[simp] theorem State.setQueue_sectors (s : State) (x q : Nat) (k : Queue) : (s.setQueue x q k).sectors = s.sectors := rfl
@[simp] theorem State.setQueue_replicas (s : State) (x q : Nat) (k : Queue) : (s.setQueue x q k).replicas = s.replicas := rfl
@[simp] theorem State.setQueue_leases (s : State) (x q : Nat) (k : Queue) : (s.setQueue x q k).leases = s.leases := rfl
@[simp] theorem State.setQueue_ltime (s : State) (x q : Nat) (k : Queue) : (s.setQueue x q k).ltime = s.ltime := rfl
@[simp] theorem State.setQueue_holds (s : State) (x q : Nat) (k : Queue) : (s.setQueue x q k).holds = s.holds := rfl
@[simp] theorem State.setQueue_retiredSlices (s : State) (x q : Nat) (k : Queue) : (s.setQueue x q k).retiredSlices = s.retiredSlices := rfl
@[simp] theorem State.setQueue_lostChannels (s : State) (x q : Nat) (k : Queue) : (s.setQueue x q k).lostChannels = s.lostChannels := rfl
@[simp] theorem State.setQueue_lanes (s : State) (x q : Nat) (k : Queue) : (s.setQueue x q k).lanes = s.lanes := rfl
@[simp] theorem State.setQueue_arrayLog (s : State) (x q : Nat) (k : Queue) : (s.setQueue x q k).arrayLog = s.arrayLog := rfl
@[simp] theorem State.setQueue_busLog (s : State) (x q : Nat) (k : Queue) : (s.setQueue x q k).busLog = s.busLog := rfl
@[simp] theorem State.setQueue_logTimes (s : State) (x q : Nat) (k : Queue) : (s.setQueue x q k).logTimes = s.logTimes := rfl
@[simp] theorem State.setQueue_ctxs (s : State) (x q : Nat) (k : Queue) : (s.setQueue x q k).ctxs = s.ctxs := rfl
@[simp] theorem State.setQueue_launches (s : State) (x q : Nat) (k : Queue) : (s.setQueue x q k).launches = s.launches := rfl
@[simp] theorem State.setQueue_orders (s : State) (x q : Nat) (k : Queue) : (s.setQueue x q k).orders = s.orders := rfl
@[simp] theorem State.setQueue_orderQueues (s : State) (x q : Nat) (k : Queue) : (s.setQueue x q k).orderQueues = s.orderQueues := rfl
@[simp] theorem State.setQueue_decisions (s : State) (x q : Nat) (k : Queue) : (s.setQueue x q k).decisions = s.decisions := rfl
@[simp] theorem State.setQueue_reserved (s : State) (x q : Nat) (k : Queue) : (s.setQueue x q k).reserved = s.reserved := rfl
@[simp] theorem State.setQueue_pageItems (s : State) (x q : Nat) (k : Queue) : (s.setQueue x q k).pageItems = s.pageItems := rfl
@[simp] theorem State.setQueue_pageSeq (s : State) (x q : Nat) (k : Queue) : (s.setQueue x q k).pageSeq = s.pageSeq := rfl
@[simp] theorem State.setQueue_triage (s : State) (x q : Nat) (k : Queue) : (s.setQueue x q k).triage = s.triage := rfl
@[simp] theorem State.setQueue_unitSeq (s : State) (x q : Nat) (k : Queue) : (s.setQueue x q k).unitSeq = s.unitSeq := rfl
@[simp] theorem State.setQueue_subs (s : State) (x q : Nat) (k : Queue) : (s.setQueue x q k).subs = s.subs := rfl
@[simp] theorem State.setQueue_subIds (s : State) (x q : Nat) (k : Queue) : (s.setQueue x q k).subIds = s.subIds := rfl
@[simp] theorem State.setQueue_journals (s : State) (x q : Nat) (k : Queue) : (s.setQueue x q k).journals = s.journals := rfl
@[simp] theorem State.setQueue_stages (s : State) (x q : Nat) (k : Queue) : (s.setQueue x q k).stages = s.stages := rfl
@[simp] theorem State.setQueue_savedTasks (s : State) (x q : Nat) (k : Queue) : (s.setQueue x q k).savedTasks = s.savedTasks := rfl
@[simp] theorem State.setQueue_annexes (s : State) (x q : Nat) (k : Queue) : (s.setQueue x q k).annexes = s.annexes := rfl
@[simp] theorem State.setQueue_pkg (s : State) (x q : Nat) (k : Queue) : (s.setQueue x q k).pkg = s.pkg := rfl
@[simp] theorem State.setQueue_npkgs (s : State) (x q : Nat) (k : Queue) : (s.setQueue x q k).npkgs = s.npkgs := rfl
@[simp] theorem State.setQueue_cxl (s : State) (x q : Nat) (k : Queue) : (s.setQueue x q k).cxl = s.cxl := rfl
@[simp] theorem State.setQueue_failedPorts (s : State) (x q : Nat) (k : Queue) : (s.setQueue x q k).failedPorts = s.failedPorts := rfl
@[simp] theorem State.setQueue_unacked (s : State) (x q : Nat) (k : Queue) : (s.setQueue x q k).unacked = s.unacked := rfl
@[simp] theorem State.setQueue_segments (s : State) (x q : Nat) (k : Queue) : (s.setQueue x q k).segments = s.segments := rfl
@[simp] theorem State.setQueue_fabric (s : State) (x q : Nat) (k : Queue) : (s.setQueue x q k).fabric = s.fabric := rfl
@[simp] theorem State.setQueue_routes (s : State) (x q : Nat) (k : Queue) : (s.setQueue x q k).routes = s.routes := rfl
@[simp] theorem State.setQueue_heard (s : State) (x q : Nat) (k : Queue) : (s.setQueue x q k).heard = s.heard := rfl
@[simp] theorem State.setQueue_releases (s : State) (x q : Nat) (k : Queue) : (s.setQueue x q k).releases = s.releases := rfl
@[simp] theorem State.setQueue_acks (s : State) (x q : Nat) (k : Queue) : (s.setQueue x q k).acks = s.acks := rfl
@[simp] theorem State.setQueue_msix (s : State) (x q : Nat) (k : Queue) : (s.setQueue x q k).msix = s.msix := rfl
@[simp] theorem State.setQueue_hostReads (s : State) (x q : Nat) (k : Queue) : (s.setQueue x q k).hostReads = s.hostReads := rfl
@[simp] theorem State.setQueue_portErrors (s : State) (x q : Nat) (k : Queue) : (s.setQueue x q k).portErrors = s.portErrors := rfl
@[simp] theorem State.setQueue_dev (s : State) (x q : Nat) (k : Queue) : (s.setQueue x q k).dev = s.dev := rfl
@[simp] theorem State.setQueue_monitors (s : State) (x q : Nat) (k : Queue) : (s.setQueue x q k).monitors = s.monitors := rfl
@[simp] theorem State.setQueue_firmware (s : State) (x q : Nat) (k : Queue) : (s.setQueue x q k).firmware = s.firmware := rfl
@[simp] theorem State.setQueue_cycle (s : State) (x q : Nat) (k : Queue) : (s.setQueue x q k).cycle = s.cycle := rfl
@[simp] theorem State.setQueue_ns (s : State) (x q : Nat) (k : Queue) : (s.setQueue x q k).ns = s.ns := rfl
@[simp] theorem State.setQueue_mhz (s : State) (x q : Nat) (k : Queue) : (s.setQueue x q k).mhz = s.mhz := rfl
@[simp] theorem State.setQueue_turns (s : State) (x q : Nat) (k : Queue) : (s.setQueue x q k).turns = s.turns := rfl
@[simp] theorem State.setQueue_flight (s : State) (x q : Nat) (k : Queue) : (s.setQueue x q k).flight = s.flight := rfl
@[simp] theorem State.setQueue_cur (s : State) (x q : Nat) (k : Queue) : (s.setQueue x q k).cur = s.cur := rfl
@[simp] theorem State.setQueue_issue (s : State) (x q : Nat) (k : Queue) : (s.setQueue x q k).issue = s.issue := rfl
@[simp] theorem State.setQueue_item (s : State) (x q : Nat) (k : Queue) : (s.setQueue x q k).item = s.item := rfl
@[simp] theorem State.setQueue_free (s : State) (x q : Nat) (k : Queue) : (s.setQueue x q k).free = s.free := rfl

@[simp] theorem State.emit_cores (s : State) (e : Event) : (s.emit e).cores = s.cores := rfl
@[simp] theorem State.emit_mem (s : State) (e : Event) : (s.emit e).mem = s.mem := rfl
@[simp] theorem State.emit_poison (s : State) (e : Event) : (s.emit e).poison = s.poison := rfl
@[simp] theorem State.emit_failedFills (s : State) (e : Event) : (s.emit e).failedFills = s.failedFills := rfl
@[simp] theorem State.emit_sectors (s : State) (e : Event) : (s.emit e).sectors = s.sectors := rfl
@[simp] theorem State.emit_replicas (s : State) (e : Event) : (s.emit e).replicas = s.replicas := rfl
@[simp] theorem State.emit_leases (s : State) (e : Event) : (s.emit e).leases = s.leases := rfl
@[simp] theorem State.emit_ltime (s : State) (e : Event) : (s.emit e).ltime = s.ltime := rfl
@[simp] theorem State.emit_holds (s : State) (e : Event) : (s.emit e).holds = s.holds := rfl
@[simp] theorem State.emit_retiredSlices (s : State) (e : Event) : (s.emit e).retiredSlices = s.retiredSlices := rfl
@[simp] theorem State.emit_lostChannels (s : State) (e : Event) : (s.emit e).lostChannels = s.lostChannels := rfl
@[simp] theorem State.emit_lanes (s : State) (e : Event) : (s.emit e).lanes = s.lanes := rfl
@[simp] theorem State.emit_arrayLog (s : State) (e : Event) : (s.emit e).arrayLog = s.arrayLog := rfl
@[simp] theorem State.emit_busLog (s : State) (e : Event) : (s.emit e).busLog = s.busLog := rfl
@[simp] theorem State.emit_logTimes (s : State) (e : Event) : (s.emit e).logTimes = s.logTimes := rfl
@[simp] theorem State.emit_ctxs (s : State) (e : Event) : (s.emit e).ctxs = s.ctxs := rfl
@[simp] theorem State.emit_queues (s : State) (e : Event) : (s.emit e).queues = s.queues := rfl
@[simp] theorem State.emit_launches (s : State) (e : Event) : (s.emit e).launches = s.launches := rfl
@[simp] theorem State.emit_orders (s : State) (e : Event) : (s.emit e).orders = s.orders := rfl
@[simp] theorem State.emit_orderQueues (s : State) (e : Event) : (s.emit e).orderQueues = s.orderQueues := rfl
@[simp] theorem State.emit_decisions (s : State) (e : Event) : (s.emit e).decisions = s.decisions := rfl
@[simp] theorem State.emit_reserved (s : State) (e : Event) : (s.emit e).reserved = s.reserved := rfl
@[simp] theorem State.emit_pageItems (s : State) (e : Event) : (s.emit e).pageItems = s.pageItems := rfl
@[simp] theorem State.emit_pageSeq (s : State) (e : Event) : (s.emit e).pageSeq = s.pageSeq := rfl
@[simp] theorem State.emit_triage (s : State) (e : Event) : (s.emit e).triage = s.triage := rfl
@[simp] theorem State.emit_unitSeq (s : State) (e : Event) : (s.emit e).unitSeq = s.unitSeq := rfl
@[simp] theorem State.emit_subs (s : State) (e : Event) : (s.emit e).subs = s.subs := rfl
@[simp] theorem State.emit_subIds (s : State) (e : Event) : (s.emit e).subIds = s.subIds := rfl
@[simp] theorem State.emit_journals (s : State) (e : Event) : (s.emit e).journals = s.journals := rfl
@[simp] theorem State.emit_stages (s : State) (e : Event) : (s.emit e).stages = s.stages := rfl
@[simp] theorem State.emit_savedTasks (s : State) (e : Event) : (s.emit e).savedTasks = s.savedTasks := rfl
@[simp] theorem State.emit_annexes (s : State) (e : Event) : (s.emit e).annexes = s.annexes := rfl
@[simp] theorem State.emit_pkg (s : State) (e : Event) : (s.emit e).pkg = s.pkg := rfl
@[simp] theorem State.emit_npkgs (s : State) (e : Event) : (s.emit e).npkgs = s.npkgs := rfl
@[simp] theorem State.emit_cxl (s : State) (e : Event) : (s.emit e).cxl = s.cxl := rfl
@[simp] theorem State.emit_failedPorts (s : State) (e : Event) : (s.emit e).failedPorts = s.failedPorts := rfl
@[simp] theorem State.emit_unacked (s : State) (e : Event) : (s.emit e).unacked = s.unacked := rfl
@[simp] theorem State.emit_segments (s : State) (e : Event) : (s.emit e).segments = s.segments := rfl
@[simp] theorem State.emit_fabric (s : State) (e : Event) : (s.emit e).fabric = s.fabric := rfl
@[simp] theorem State.emit_routes (s : State) (e : Event) : (s.emit e).routes = s.routes := rfl
@[simp] theorem State.emit_heard (s : State) (e : Event) : (s.emit e).heard = s.heard := rfl
@[simp] theorem State.emit_releases (s : State) (e : Event) : (s.emit e).releases = s.releases := rfl
@[simp] theorem State.emit_acks (s : State) (e : Event) : (s.emit e).acks = s.acks := rfl
@[simp] theorem State.emit_msix (s : State) (e : Event) : (s.emit e).msix = s.msix := rfl
@[simp] theorem State.emit_hostReads (s : State) (e : Event) : (s.emit e).hostReads = s.hostReads := rfl
@[simp] theorem State.emit_portErrors (s : State) (e : Event) : (s.emit e).portErrors = s.portErrors := rfl
@[simp] theorem State.emit_dev (s : State) (e : Event) : (s.emit e).dev = s.dev := rfl
@[simp] theorem State.emit_monitors (s : State) (e : Event) : (s.emit e).monitors = s.monitors := rfl
@[simp] theorem State.emit_firmware (s : State) (e : Event) : (s.emit e).firmware = s.firmware := rfl
@[simp] theorem State.emit_cycle (s : State) (e : Event) : (s.emit e).cycle = s.cycle := rfl
@[simp] theorem State.emit_ns (s : State) (e : Event) : (s.emit e).ns = s.ns := rfl
@[simp] theorem State.emit_mhz (s : State) (e : Event) : (s.emit e).mhz = s.mhz := rfl
@[simp] theorem State.emit_turns (s : State) (e : Event) : (s.emit e).turns = s.turns := rfl
@[simp] theorem State.emit_cur (s : State) (e : Event) : (s.emit e).cur = s.cur := rfl
@[simp] theorem State.emit_issue (s : State) (e : Event) : (s.emit e).issue = s.issue := rfl
@[simp] theorem State.emit_item (s : State) (e : Event) : (s.emit e).item = s.item := rfl
@[simp] theorem State.emit_free (s : State) (e : Event) : (s.emit e).free = s.free := rfl

@[simp] theorem State.emitAll_cores (s : State) (es : List Event) : (s.emitAll es).cores = s.cores := rfl
@[simp] theorem State.emitAll_mem (s : State) (es : List Event) : (s.emitAll es).mem = s.mem := rfl
@[simp] theorem State.emitAll_poison (s : State) (es : List Event) : (s.emitAll es).poison = s.poison := rfl
@[simp] theorem State.emitAll_failedFills (s : State) (es : List Event) : (s.emitAll es).failedFills = s.failedFills := rfl
@[simp] theorem State.emitAll_sectors (s : State) (es : List Event) : (s.emitAll es).sectors = s.sectors := rfl
@[simp] theorem State.emitAll_replicas (s : State) (es : List Event) : (s.emitAll es).replicas = s.replicas := rfl
@[simp] theorem State.emitAll_leases (s : State) (es : List Event) : (s.emitAll es).leases = s.leases := rfl
@[simp] theorem State.emitAll_ltime (s : State) (es : List Event) : (s.emitAll es).ltime = s.ltime := rfl
@[simp] theorem State.emitAll_holds (s : State) (es : List Event) : (s.emitAll es).holds = s.holds := rfl
@[simp] theorem State.emitAll_retiredSlices (s : State) (es : List Event) : (s.emitAll es).retiredSlices = s.retiredSlices := rfl
@[simp] theorem State.emitAll_lostChannels (s : State) (es : List Event) : (s.emitAll es).lostChannels = s.lostChannels := rfl
@[simp] theorem State.emitAll_lanes (s : State) (es : List Event) : (s.emitAll es).lanes = s.lanes := rfl
@[simp] theorem State.emitAll_arrayLog (s : State) (es : List Event) : (s.emitAll es).arrayLog = s.arrayLog := rfl
@[simp] theorem State.emitAll_busLog (s : State) (es : List Event) : (s.emitAll es).busLog = s.busLog := rfl
@[simp] theorem State.emitAll_logTimes (s : State) (es : List Event) : (s.emitAll es).logTimes = s.logTimes := rfl
@[simp] theorem State.emitAll_ctxs (s : State) (es : List Event) : (s.emitAll es).ctxs = s.ctxs := rfl
@[simp] theorem State.emitAll_queues (s : State) (es : List Event) : (s.emitAll es).queues = s.queues := rfl
@[simp] theorem State.emitAll_launches (s : State) (es : List Event) : (s.emitAll es).launches = s.launches := rfl
@[simp] theorem State.emitAll_orders (s : State) (es : List Event) : (s.emitAll es).orders = s.orders := rfl
@[simp] theorem State.emitAll_orderQueues (s : State) (es : List Event) : (s.emitAll es).orderQueues = s.orderQueues := rfl
@[simp] theorem State.emitAll_decisions (s : State) (es : List Event) : (s.emitAll es).decisions = s.decisions := rfl
@[simp] theorem State.emitAll_reserved (s : State) (es : List Event) : (s.emitAll es).reserved = s.reserved := rfl
@[simp] theorem State.emitAll_pageItems (s : State) (es : List Event) : (s.emitAll es).pageItems = s.pageItems := rfl
@[simp] theorem State.emitAll_pageSeq (s : State) (es : List Event) : (s.emitAll es).pageSeq = s.pageSeq := rfl
@[simp] theorem State.emitAll_triage (s : State) (es : List Event) : (s.emitAll es).triage = s.triage := rfl
@[simp] theorem State.emitAll_unitSeq (s : State) (es : List Event) : (s.emitAll es).unitSeq = s.unitSeq := rfl
@[simp] theorem State.emitAll_subs (s : State) (es : List Event) : (s.emitAll es).subs = s.subs := rfl
@[simp] theorem State.emitAll_subIds (s : State) (es : List Event) : (s.emitAll es).subIds = s.subIds := rfl
@[simp] theorem State.emitAll_journals (s : State) (es : List Event) : (s.emitAll es).journals = s.journals := rfl
@[simp] theorem State.emitAll_stages (s : State) (es : List Event) : (s.emitAll es).stages = s.stages := rfl
@[simp] theorem State.emitAll_savedTasks (s : State) (es : List Event) : (s.emitAll es).savedTasks = s.savedTasks := rfl
@[simp] theorem State.emitAll_annexes (s : State) (es : List Event) : (s.emitAll es).annexes = s.annexes := rfl
@[simp] theorem State.emitAll_pkg (s : State) (es : List Event) : (s.emitAll es).pkg = s.pkg := rfl
@[simp] theorem State.emitAll_npkgs (s : State) (es : List Event) : (s.emitAll es).npkgs = s.npkgs := rfl
@[simp] theorem State.emitAll_cxl (s : State) (es : List Event) : (s.emitAll es).cxl = s.cxl := rfl
@[simp] theorem State.emitAll_failedPorts (s : State) (es : List Event) : (s.emitAll es).failedPorts = s.failedPorts := rfl
@[simp] theorem State.emitAll_unacked (s : State) (es : List Event) : (s.emitAll es).unacked = s.unacked := rfl
@[simp] theorem State.emitAll_segments (s : State) (es : List Event) : (s.emitAll es).segments = s.segments := rfl
@[simp] theorem State.emitAll_fabric (s : State) (es : List Event) : (s.emitAll es).fabric = s.fabric := rfl
@[simp] theorem State.emitAll_routes (s : State) (es : List Event) : (s.emitAll es).routes = s.routes := rfl
@[simp] theorem State.emitAll_heard (s : State) (es : List Event) : (s.emitAll es).heard = s.heard := rfl
@[simp] theorem State.emitAll_releases (s : State) (es : List Event) : (s.emitAll es).releases = s.releases := rfl
@[simp] theorem State.emitAll_acks (s : State) (es : List Event) : (s.emitAll es).acks = s.acks := rfl
@[simp] theorem State.emitAll_msix (s : State) (es : List Event) : (s.emitAll es).msix = s.msix := rfl
@[simp] theorem State.emitAll_hostReads (s : State) (es : List Event) : (s.emitAll es).hostReads = s.hostReads := rfl
@[simp] theorem State.emitAll_portErrors (s : State) (es : List Event) : (s.emitAll es).portErrors = s.portErrors := rfl
@[simp] theorem State.emitAll_dev (s : State) (es : List Event) : (s.emitAll es).dev = s.dev := rfl
@[simp] theorem State.emitAll_monitors (s : State) (es : List Event) : (s.emitAll es).monitors = s.monitors := rfl
@[simp] theorem State.emitAll_firmware (s : State) (es : List Event) : (s.emitAll es).firmware = s.firmware := rfl
@[simp] theorem State.emitAll_cycle (s : State) (es : List Event) : (s.emitAll es).cycle = s.cycle := rfl
@[simp] theorem State.emitAll_ns (s : State) (es : List Event) : (s.emitAll es).ns = s.ns := rfl
@[simp] theorem State.emitAll_mhz (s : State) (es : List Event) : (s.emitAll es).mhz = s.mhz := rfl
@[simp] theorem State.emitAll_turns (s : State) (es : List Event) : (s.emitAll es).turns = s.turns := rfl
@[simp] theorem State.emitAll_cur (s : State) (es : List Event) : (s.emitAll es).cur = s.cur := rfl
@[simp] theorem State.emitAll_issue (s : State) (es : List Event) : (s.emitAll es).issue = s.issue := rfl
@[simp] theorem State.emitAll_item (s : State) (es : List Event) : (s.emitAll es).item = s.item := rfl
@[simp] theorem State.emitAll_free (s : State) (es : List Event) : (s.emitAll es).free = s.free := rfl

@[simp] theorem State.emit_flight (s : State) (e : Event) : (s.emit e).flight = s.flight ++ [e] := rfl
@[simp] theorem State.emitAll_flight (s : State) (es : List Event) : (s.emitAll es).flight = s.flight ++ es := rfl
@[simp] theorem State.setCore_cores (s : State) (c : Nat) (k : Core) : (s.setCore c k).cores = s.cores.set c k := rfl
@[simp] theorem State.setCtx_ctxs (s : State) (x : Nat) (k : Context) : (s.setCtx x k).ctxs = s.ctxs.set x k := rfl
@[simp] theorem State.setQueue_queues (s : State) (x q : Nat) (k : Queue) : (s.setQueue x q k).queues = s.queues.set (16 * x + q) k := rfl
@[simp] theorem State.cid_setMe (s : State) (th : Thread) : (s.setMe th).cid = s.cid := rfl
@[simp] theorem State.tid_setMe (s : State) (th : Thread) : (s.setMe th).tid = s.tid := rfl
@[simp] theorem State.cid_setMyCore (s : State) (k : Core) : (s.setMyCore k).cid = s.cid := rfl
@[simp] theorem State.tid_setMyCore (s : State) (k : Core) : (s.setMyCore k).tid = s.tid := rfl

@[simp] theorem Core.setThread_lmem (k : Core) (t : Nat) (th : Thread) : (k.setThread t th).lmem = k.lmem := rfl
@[simp] theorem Core.setThread_full (k : Core) (t : Nat) (th : Thread) : (k.setThread t th).full = k.full := rfl
@[simp] theorem Core.setThread_copies (k : Core) (t : Nat) (th : Thread) : (k.setThread t th).copies = k.copies := rfl
@[simp] theorem Core.setThread_copySeq (k : Core) (t : Nat) (th : Thread) : (k.setThread t th).copySeq = k.copySeq := rfl
@[simp] theorem Core.setThread_copyFin (k : Core) (t : Nat) (th : Thread) : (k.setThread t th).copyFin = k.copyFin := rfl
@[simp] theorem Core.setThread_deque (k : Core) (t : Nat) (th : Thread) : (k.setThread t th).deque = k.deque := rfl
@[simp] theorem Core.setThread_pushes (k : Core) (t : Nat) (th : Thread) : (k.setThread t th).pushes = k.pushes := rfl
@[simp] theorem Core.setThread_tasksDone (k : Core) (t : Nat) (th : Thread) : (k.setThread t th).tasksDone = k.tasksDone := rfl
@[simp] theorem Core.setThread_parked (k : Core) (t : Nat) (th : Thread) : (k.setThread t th).parked = k.parked := rfl
@[simp] theorem Core.setThread_runs (k : Core) (t : Nat) (th : Thread) : (k.setThread t th).runs = k.runs := rfl
@[simp] theorem Core.setThread_peerFaults (k : Core) (t : Nat) (th : Thread) : (k.setThread t th).peerFaults = k.peerFaults := rfl
@[simp] theorem Core.setThread_barriers (k : Core) (t : Nat) (th : Thread) : (k.setThread t th).barriers = k.barriers := rfl
@[simp] theorem Core.setThread_inbound (k : Core) (t : Nat) (th : Thread) : (k.setThread t th).inbound = k.inbound := rfl
@[simp] theorem Core.setThread_deliveries (k : Core) (t : Nat) (th : Thread) : (k.setThread t th).deliveries = k.deliveries := rfl
@[simp] theorem Core.setThread_spilled (k : Core) (t : Nat) (th : Thread) : (k.setThread t th).spilled = k.spilled := rfl
@[simp] theorem Core.setThread_accepted (k : Core) (t : Nat) (th : Thread) : (k.setThread t th).accepted = k.accepted := rfl
@[simp] theorem Core.setThread_redo (k : Core) (t : Nat) (th : Thread) : (k.setThread t th).redo = k.redo := rfl
@[simp] theorem Core.setThread_act (k : Core) (t : Nat) (th : Thread) : (k.setThread t th).act = k.act := rfl
@[simp] theorem Core.setThread_bound (k : Core) (t : Nat) (th : Thread) : (k.setThread t th).bound = k.bound := rfl
@[simp] theorem Core.setThread_slots (k : Core) (t : Nat) (th : Thread) : (k.setThread t th).slots = k.slots := rfl
@[simp] theorem Core.setThread_tlb (k : Core) (t : Nat) (th : Thread) : (k.setThread t th).tlb = k.tlb := rfl
@[simp] theorem Core.setThread_sched (k : Core) (t : Nat) (th : Thread) : (k.setThread t th).sched = k.sched := rfl
@[simp] theorem Core.setThread_taken (k : Core) (t : Nat) (th : Thread) : (k.setThread t th).taken = k.taken := rfl
@[simp] theorem Core.setThread_pair (k : Core) (t : Nat) (th : Thread) : (k.setThread t th).pair = k.pair := rfl
@[simp] theorem Core.setThread_pairstat (k : Core) (t : Nat) (th : Thread) : (k.setThread t th).pairstat = k.pairstat := rfl
@[simp] theorem Core.setThread_gated (k : Core) (t : Nat) (th : Thread) : (k.setThread t th).gated = k.gated := rfl
@[simp] theorem Core.setThread_bundles (k : Core) (t : Nat) (th : Thread) : (k.setThread t th).bundles = k.bundles := rfl
@[simp] theorem Core.setThread_undo (k : Core) (t : Nat) (th : Thread) : (k.setThread t th).undo = k.undo := rfl
@[simp] theorem Core.setThread_blames (k : Core) (t : Nat) (th : Thread) : (k.setThread t th).blames = k.blames := rfl
@[simp] theorem Core.setThread_agreed (k : Core) (t : Nat) (th : Thread) : (k.setThread t th).agreed = k.agreed := rfl
@[simp] theorem Core.setThread_engine (k : Core) (t : Nat) (th : Thread) : (k.setThread t th).engine = k.engine := rfl
@[simp] theorem Core.setThread_tree (k : Core) (t : Nat) (th : Thread) : (k.setThread t th).tree = k.tree := rfl
@[simp] theorem Core.setThread_refused (k : Core) (t : Nat) (th : Thread) : (k.setThread t th).refused = k.refused := rfl
@[simp] theorem Core.setThread_fenced (k : Core) (t : Nat) (th : Thread) : (k.setThread t th).fenced = k.fenced := rfl
@[simp] theorem Core.setThread_retired (k : Core) (t : Nat) (th : Thread) : (k.setThread t th).retired = k.retired := rfl
@[simp] theorem Core.setThread_threads (k : Core) (t : Nat) (th : Thread) : (k.setThread t th).threads = k.threads.set t th := rfl
@[simp] theorem Core.lwrite_threads (k : Core) (o n v : Nat) : (k.lwrite o n v).threads = k.threads := rfl
@[simp] theorem Core.lwrite_full (k : Core) (o n v : Nat) : (k.lwrite o n v).full = k.full := rfl
@[simp] theorem Core.lwrite_copies (k : Core) (o n v : Nat) : (k.lwrite o n v).copies = k.copies := rfl
@[simp] theorem Core.lwrite_copySeq (k : Core) (o n v : Nat) : (k.lwrite o n v).copySeq = k.copySeq := rfl
@[simp] theorem Core.lwrite_copyFin (k : Core) (o n v : Nat) : (k.lwrite o n v).copyFin = k.copyFin := rfl
@[simp] theorem Core.lwrite_deque (k : Core) (o n v : Nat) : (k.lwrite o n v).deque = k.deque := rfl
@[simp] theorem Core.lwrite_pushes (k : Core) (o n v : Nat) : (k.lwrite o n v).pushes = k.pushes := rfl
@[simp] theorem Core.lwrite_tasksDone (k : Core) (o n v : Nat) : (k.lwrite o n v).tasksDone = k.tasksDone := rfl
@[simp] theorem Core.lwrite_parked (k : Core) (o n v : Nat) : (k.lwrite o n v).parked = k.parked := rfl
@[simp] theorem Core.lwrite_runs (k : Core) (o n v : Nat) : (k.lwrite o n v).runs = k.runs := rfl
@[simp] theorem Core.lwrite_peerFaults (k : Core) (o n v : Nat) : (k.lwrite o n v).peerFaults = k.peerFaults := rfl
@[simp] theorem Core.lwrite_barriers (k : Core) (o n v : Nat) : (k.lwrite o n v).barriers = k.barriers := rfl
@[simp] theorem Core.lwrite_inbound (k : Core) (o n v : Nat) : (k.lwrite o n v).inbound = k.inbound := rfl
@[simp] theorem Core.lwrite_deliveries (k : Core) (o n v : Nat) : (k.lwrite o n v).deliveries = k.deliveries := rfl
@[simp] theorem Core.lwrite_spilled (k : Core) (o n v : Nat) : (k.lwrite o n v).spilled = k.spilled := rfl
@[simp] theorem Core.lwrite_accepted (k : Core) (o n v : Nat) : (k.lwrite o n v).accepted = k.accepted := rfl
@[simp] theorem Core.lwrite_redo (k : Core) (o n v : Nat) : (k.lwrite o n v).redo = k.redo := rfl
@[simp] theorem Core.lwrite_act (k : Core) (o n v : Nat) : (k.lwrite o n v).act = k.act := rfl
@[simp] theorem Core.lwrite_bound (k : Core) (o n v : Nat) : (k.lwrite o n v).bound = k.bound := rfl
@[simp] theorem Core.lwrite_slots (k : Core) (o n v : Nat) : (k.lwrite o n v).slots = k.slots := rfl
@[simp] theorem Core.lwrite_tlb (k : Core) (o n v : Nat) : (k.lwrite o n v).tlb = k.tlb := rfl
@[simp] theorem Core.lwrite_sched (k : Core) (o n v : Nat) : (k.lwrite o n v).sched = k.sched := rfl
@[simp] theorem Core.lwrite_taken (k : Core) (o n v : Nat) : (k.lwrite o n v).taken = k.taken := rfl
@[simp] theorem Core.lwrite_pair (k : Core) (o n v : Nat) : (k.lwrite o n v).pair = k.pair := rfl
@[simp] theorem Core.lwrite_pairstat (k : Core) (o n v : Nat) : (k.lwrite o n v).pairstat = k.pairstat := rfl
@[simp] theorem Core.lwrite_gated (k : Core) (o n v : Nat) : (k.lwrite o n v).gated = k.gated := rfl
@[simp] theorem Core.lwrite_bundles (k : Core) (o n v : Nat) : (k.lwrite o n v).bundles = k.bundles := rfl
@[simp] theorem Core.lwrite_blames (k : Core) (o n v : Nat) : (k.lwrite o n v).blames = k.blames := rfl
@[simp] theorem Core.lwrite_agreed (k : Core) (o n v : Nat) : (k.lwrite o n v).agreed = k.agreed := rfl
@[simp] theorem Core.lwrite_engine (k : Core) (o n v : Nat) : (k.lwrite o n v).engine = k.engine := rfl
@[simp] theorem Core.lwrite_tree (k : Core) (o n v : Nat) : (k.lwrite o n v).tree = k.tree := rfl
@[simp] theorem Core.lwrite_refused (k : Core) (o n v : Nat) : (k.lwrite o n v).refused = k.refused := rfl
@[simp] theorem Core.lwrite_fenced (k : Core) (o n v : Nat) : (k.lwrite o n v).fenced = k.fenced := rfl
@[simp] theorem Core.lwrite_retired (k : Core) (o n v : Nat) : (k.lwrite o n v).retired = k.retired := rfl
@[simp] theorem Core.lwrite_lmem (k : Core) (o n v : Nat) : (k.lwrite o n v).lmem = Mem.write k.lmem o n v := rfl
@[simp] theorem Core.setFull_threads (k : Core) (g n : Nat) : (k.setFull g n).threads = k.threads := rfl
@[simp] theorem Core.setFull_lmem (k : Core) (g n : Nat) : (k.setFull g n).lmem = k.lmem := rfl
@[simp] theorem Core.setFull_copies (k : Core) (g n : Nat) : (k.setFull g n).copies = k.copies := rfl
@[simp] theorem Core.setFull_copySeq (k : Core) (g n : Nat) : (k.setFull g n).copySeq = k.copySeq := rfl
@[simp] theorem Core.setFull_copyFin (k : Core) (g n : Nat) : (k.setFull g n).copyFin = k.copyFin := rfl
@[simp] theorem Core.setFull_deque (k : Core) (g n : Nat) : (k.setFull g n).deque = k.deque := rfl
@[simp] theorem Core.setFull_pushes (k : Core) (g n : Nat) : (k.setFull g n).pushes = k.pushes := rfl
@[simp] theorem Core.setFull_tasksDone (k : Core) (g n : Nat) : (k.setFull g n).tasksDone = k.tasksDone := rfl
@[simp] theorem Core.setFull_parked (k : Core) (g n : Nat) : (k.setFull g n).parked = k.parked := rfl
@[simp] theorem Core.setFull_runs (k : Core) (g n : Nat) : (k.setFull g n).runs = k.runs := rfl
@[simp] theorem Core.setFull_peerFaults (k : Core) (g n : Nat) : (k.setFull g n).peerFaults = k.peerFaults := rfl
@[simp] theorem Core.setFull_barriers (k : Core) (g n : Nat) : (k.setFull g n).barriers = k.barriers := rfl
@[simp] theorem Core.setFull_inbound (k : Core) (g n : Nat) : (k.setFull g n).inbound = k.inbound := rfl
@[simp] theorem Core.setFull_deliveries (k : Core) (g n : Nat) : (k.setFull g n).deliveries = k.deliveries := rfl
@[simp] theorem Core.setFull_spilled (k : Core) (g n : Nat) : (k.setFull g n).spilled = k.spilled := rfl
@[simp] theorem Core.setFull_accepted (k : Core) (g n : Nat) : (k.setFull g n).accepted = k.accepted := rfl
@[simp] theorem Core.setFull_redo (k : Core) (g n : Nat) : (k.setFull g n).redo = k.redo := rfl
@[simp] theorem Core.setFull_act (k : Core) (g n : Nat) : (k.setFull g n).act = k.act := rfl
@[simp] theorem Core.setFull_bound (k : Core) (g n : Nat) : (k.setFull g n).bound = k.bound := rfl
@[simp] theorem Core.setFull_slots (k : Core) (g n : Nat) : (k.setFull g n).slots = k.slots := rfl
@[simp] theorem Core.setFull_tlb (k : Core) (g n : Nat) : (k.setFull g n).tlb = k.tlb := rfl
@[simp] theorem Core.setFull_sched (k : Core) (g n : Nat) : (k.setFull g n).sched = k.sched := rfl
@[simp] theorem Core.setFull_taken (k : Core) (g n : Nat) : (k.setFull g n).taken = k.taken := rfl
@[simp] theorem Core.setFull_pair (k : Core) (g n : Nat) : (k.setFull g n).pair = k.pair := rfl
@[simp] theorem Core.setFull_pairstat (k : Core) (g n : Nat) : (k.setFull g n).pairstat = k.pairstat := rfl
@[simp] theorem Core.setFull_gated (k : Core) (g n : Nat) : (k.setFull g n).gated = k.gated := rfl
@[simp] theorem Core.setFull_bundles (k : Core) (g n : Nat) : (k.setFull g n).bundles = k.bundles := rfl
@[simp] theorem Core.setFull_undo (k : Core) (g n : Nat) : (k.setFull g n).undo = k.undo := rfl
@[simp] theorem Core.setFull_blames (k : Core) (g n : Nat) : (k.setFull g n).blames = k.blames := rfl
@[simp] theorem Core.setFull_agreed (k : Core) (g n : Nat) : (k.setFull g n).agreed = k.agreed := rfl
@[simp] theorem Core.setFull_engine (k : Core) (g n : Nat) : (k.setFull g n).engine = k.engine := rfl
@[simp] theorem Core.setFull_tree (k : Core) (g n : Nat) : (k.setFull g n).tree = k.tree := rfl
@[simp] theorem Core.setFull_refused (k : Core) (g n : Nat) : (k.setFull g n).refused = k.refused := rfl
@[simp] theorem Core.setFull_fenced (k : Core) (g n : Nat) : (k.setFull g n).fenced = k.fenced := rfl
@[simp] theorem Core.setFull_retired (k : Core) (g n : Nat) : (k.setFull g n).retired = k.retired := rfl
@[simp] theorem Core.clearFull_threads (k : Core) (g n : Nat) : (k.clearFull g n).threads = k.threads := rfl
@[simp] theorem Core.clearFull_lmem (k : Core) (g n : Nat) : (k.clearFull g n).lmem = k.lmem := rfl
@[simp] theorem Core.clearFull_copies (k : Core) (g n : Nat) : (k.clearFull g n).copies = k.copies := rfl
@[simp] theorem Core.clearFull_copySeq (k : Core) (g n : Nat) : (k.clearFull g n).copySeq = k.copySeq := rfl
@[simp] theorem Core.clearFull_copyFin (k : Core) (g n : Nat) : (k.clearFull g n).copyFin = k.copyFin := rfl
@[simp] theorem Core.clearFull_deque (k : Core) (g n : Nat) : (k.clearFull g n).deque = k.deque := rfl
@[simp] theorem Core.clearFull_pushes (k : Core) (g n : Nat) : (k.clearFull g n).pushes = k.pushes := rfl
@[simp] theorem Core.clearFull_tasksDone (k : Core) (g n : Nat) : (k.clearFull g n).tasksDone = k.tasksDone := rfl
@[simp] theorem Core.clearFull_parked (k : Core) (g n : Nat) : (k.clearFull g n).parked = k.parked := rfl
@[simp] theorem Core.clearFull_runs (k : Core) (g n : Nat) : (k.clearFull g n).runs = k.runs := rfl
@[simp] theorem Core.clearFull_peerFaults (k : Core) (g n : Nat) : (k.clearFull g n).peerFaults = k.peerFaults := rfl
@[simp] theorem Core.clearFull_barriers (k : Core) (g n : Nat) : (k.clearFull g n).barriers = k.barriers := rfl
@[simp] theorem Core.clearFull_inbound (k : Core) (g n : Nat) : (k.clearFull g n).inbound = k.inbound := rfl
@[simp] theorem Core.clearFull_deliveries (k : Core) (g n : Nat) : (k.clearFull g n).deliveries = k.deliveries := rfl
@[simp] theorem Core.clearFull_spilled (k : Core) (g n : Nat) : (k.clearFull g n).spilled = k.spilled := rfl
@[simp] theorem Core.clearFull_accepted (k : Core) (g n : Nat) : (k.clearFull g n).accepted = k.accepted := rfl
@[simp] theorem Core.clearFull_redo (k : Core) (g n : Nat) : (k.clearFull g n).redo = k.redo := rfl
@[simp] theorem Core.clearFull_act (k : Core) (g n : Nat) : (k.clearFull g n).act = k.act := rfl
@[simp] theorem Core.clearFull_bound (k : Core) (g n : Nat) : (k.clearFull g n).bound = k.bound := rfl
@[simp] theorem Core.clearFull_slots (k : Core) (g n : Nat) : (k.clearFull g n).slots = k.slots := rfl
@[simp] theorem Core.clearFull_tlb (k : Core) (g n : Nat) : (k.clearFull g n).tlb = k.tlb := rfl
@[simp] theorem Core.clearFull_sched (k : Core) (g n : Nat) : (k.clearFull g n).sched = k.sched := rfl
@[simp] theorem Core.clearFull_taken (k : Core) (g n : Nat) : (k.clearFull g n).taken = k.taken := rfl
@[simp] theorem Core.clearFull_pair (k : Core) (g n : Nat) : (k.clearFull g n).pair = k.pair := rfl
@[simp] theorem Core.clearFull_pairstat (k : Core) (g n : Nat) : (k.clearFull g n).pairstat = k.pairstat := rfl
@[simp] theorem Core.clearFull_gated (k : Core) (g n : Nat) : (k.clearFull g n).gated = k.gated := rfl
@[simp] theorem Core.clearFull_bundles (k : Core) (g n : Nat) : (k.clearFull g n).bundles = k.bundles := rfl
@[simp] theorem Core.clearFull_undo (k : Core) (g n : Nat) : (k.clearFull g n).undo = k.undo := rfl
@[simp] theorem Core.clearFull_blames (k : Core) (g n : Nat) : (k.clearFull g n).blames = k.blames := rfl
@[simp] theorem Core.clearFull_agreed (k : Core) (g n : Nat) : (k.clearFull g n).agreed = k.agreed := rfl
@[simp] theorem Core.clearFull_engine (k : Core) (g n : Nat) : (k.clearFull g n).engine = k.engine := rfl
@[simp] theorem Core.clearFull_tree (k : Core) (g n : Nat) : (k.clearFull g n).tree = k.tree := rfl
@[simp] theorem Core.clearFull_refused (k : Core) (g n : Nat) : (k.clearFull g n).refused = k.refused := rfl
@[simp] theorem Core.clearFull_fenced (k : Core) (g n : Nat) : (k.clearFull g n).fenced = k.fenced := rfl
@[simp] theorem Core.clearFull_retired (k : Core) (g n : Nat) : (k.clearFull g n).retired = k.retired := rfl

@[simp] theorem Thread.setV_pc (t : Thread) (n : Nat) (v : VReg) : (t.setV n v).pc = t.pc := rfl
@[simp] theorem Thread.setV_strand (t : Thread) (n : Nat) (v : VReg) : (t.setV n v).strand = t.strand := rfl
@[simp] theorem Thread.setV_finished (t : Thread) (n : Nat) (v : VReg) : (t.setV n v).finished = t.finished := rfl
@[simp] theorem Thread.setV_initial (t : Thread) (n : Nat) (v : VReg) : (t.setV n v).initial = t.initial := rfl
@[simp] theorem Thread.setV_sp0 (t : Thread) (n : Nat) (v : VReg) : (t.setV n v).sp0 = t.sp0 := rfl
@[simp] theorem Thread.setV_x (t : Thread) (n : Nat) (v : VReg) : (t.setV n v).x = t.x := rfl
@[simp] theorem Thread.setV_k (t : Thread) (n : Nat) (v : VReg) : (t.setV n v).k = t.k := rfl
@[simp] theorem Thread.setV_streams (t : Thread) (n : Nat) (v : VReg) : (t.setV n v).streams = t.streams := rfl
@[simp] theorem Thread.setV_tstat (t : Thread) (n : Nat) (v : VReg) : (t.setV n v).tstat = t.tstat := rfl
@[simp] theorem Thread.setV_fflags (t : Thread) (n : Nat) (v : VReg) : (t.setV n v).fflags = t.fflags := rfl
@[simp] theorem Thread.setV_frm (t : Thread) (n : Nat) (v : VReg) : (t.setV n v).frm = t.frm := rfl
@[simp] theorem Thread.setV_seed (t : Thread) (n : Nat) (v : VReg) : (t.setV n v).seed = t.seed := rfl
@[simp] theorem Thread.setV_fetimeout (t : Thread) (n : Nat) (v : VReg) : (t.setV n v).fetimeout = t.fetimeout := rfl
@[simp] theorem Thread.setV_hbcount (t : Thread) (n : Nat) (v : VReg) : (t.setV n v).hbcount = t.hbcount := rfl
@[simp] theorem Thread.setV_taskref (t : Thread) (n : Nat) (v : VReg) : (t.setV n v).taskref = t.taskref := rfl
@[simp] theorem Thread.setV_rfstat (t : Thread) (n : Nat) (v : VReg) : (t.setV n v).rfstat = t.rfstat := rfl
@[simp] theorem Thread.setV_fhook (t : Thread) (n : Nat) (v : VReg) : (t.setV n v).fhook = t.fhook := rfl
@[simp] theorem Thread.setV_fframe (t : Thread) (n : Nat) (v : VReg) : (t.setV n v).fframe = t.fframe := rfl
@[simp] theorem Thread.setV_svec (t : Thread) (n : Nat) (v : VReg) : (t.setV n v).svec = t.svec := rfl
@[simp] theorem Thread.setV_sframe (t : Thread) (n : Nat) (v : VReg) : (t.setV n v).sframe = t.sframe := rfl
@[simp] theorem Thread.setV_latch (t : Thread) (n : Nat) (v : VReg) : (t.setV n v).latch = t.latch := rfl
@[simp] theorem Thread.setV_seq (t : Thread) (n : Nat) (v : VReg) : (t.setV n v).seq = t.seq := rfl
@[simp] theorem Thread.setV_mo (t : Thread) (n : Nat) (v : VReg) : (t.setV n v).mo = t.mo := rfl
@[simp] theorem Thread.setV_wait (t : Thread) (n : Nat) (v : VReg) : (t.setV n v).wait = t.wait := rfl
@[simp] theorem Thread.setV_since (t : Thread) (n : Nat) (v : VReg) : (t.setV n v).since = t.since := rfl
@[simp] theorem Thread.setV_requests (t : Thread) (n : Nat) (v : VReg) : (t.setV n v).requests = t.requests := rfl
@[simp] theorem Thread.setV_progress (t : Thread) (n : Nat) (v : VReg) : (t.setV n v).progress = t.progress := rfl
@[simp] theorem Thread.setV_sev (t : Thread) (n : Nat) (v : VReg) : (t.setV n v).sev = t.sev := rfl
@[simp] theorem Thread.setV_fetched (t : Thread) (n : Nat) (v : VReg) : (t.setV n v).fetched = t.fetched := rfl
@[simp] theorem Thread.setV_search (t : Thread) (n : Nat) (v : VReg) : (t.setV n v).search = t.search := rfl
@[simp] theorem Thread.setV_task (t : Thread) (n : Nat) (v : VReg) : (t.setV n v).task = t.task := rfl
@[simp] theorem Thread.setV_crc (t : Thread) (n : Nat) (v : VReg) : (t.setV n v).crc = t.crc := rfl
@[simp] theorem Thread.setV_v (t : Thread) (n : Nat) (v : VReg) : (t.setV n v).v = t.v.set n v := rfl
@[simp] theorem Thread.setK_pc (t : Thread) (n : Nat) (v : MReg) : (t.setK n v).pc = t.pc := rfl
@[simp] theorem Thread.setK_strand (t : Thread) (n : Nat) (v : MReg) : (t.setK n v).strand = t.strand := rfl
@[simp] theorem Thread.setK_finished (t : Thread) (n : Nat) (v : MReg) : (t.setK n v).finished = t.finished := rfl
@[simp] theorem Thread.setK_initial (t : Thread) (n : Nat) (v : MReg) : (t.setK n v).initial = t.initial := rfl
@[simp] theorem Thread.setK_sp0 (t : Thread) (n : Nat) (v : MReg) : (t.setK n v).sp0 = t.sp0 := rfl
@[simp] theorem Thread.setK_x (t : Thread) (n : Nat) (v : MReg) : (t.setK n v).x = t.x := rfl
@[simp] theorem Thread.setK_v (t : Thread) (n : Nat) (v : MReg) : (t.setK n v).v = t.v := rfl
@[simp] theorem Thread.setK_streams (t : Thread) (n : Nat) (v : MReg) : (t.setK n v).streams = t.streams := rfl
@[simp] theorem Thread.setK_tstat (t : Thread) (n : Nat) (v : MReg) : (t.setK n v).tstat = t.tstat := rfl
@[simp] theorem Thread.setK_fflags (t : Thread) (n : Nat) (v : MReg) : (t.setK n v).fflags = t.fflags := rfl
@[simp] theorem Thread.setK_frm (t : Thread) (n : Nat) (v : MReg) : (t.setK n v).frm = t.frm := rfl
@[simp] theorem Thread.setK_seed (t : Thread) (n : Nat) (v : MReg) : (t.setK n v).seed = t.seed := rfl
@[simp] theorem Thread.setK_fetimeout (t : Thread) (n : Nat) (v : MReg) : (t.setK n v).fetimeout = t.fetimeout := rfl
@[simp] theorem Thread.setK_hbcount (t : Thread) (n : Nat) (v : MReg) : (t.setK n v).hbcount = t.hbcount := rfl
@[simp] theorem Thread.setK_taskref (t : Thread) (n : Nat) (v : MReg) : (t.setK n v).taskref = t.taskref := rfl
@[simp] theorem Thread.setK_rfstat (t : Thread) (n : Nat) (v : MReg) : (t.setK n v).rfstat = t.rfstat := rfl
@[simp] theorem Thread.setK_fhook (t : Thread) (n : Nat) (v : MReg) : (t.setK n v).fhook = t.fhook := rfl
@[simp] theorem Thread.setK_fframe (t : Thread) (n : Nat) (v : MReg) : (t.setK n v).fframe = t.fframe := rfl
@[simp] theorem Thread.setK_svec (t : Thread) (n : Nat) (v : MReg) : (t.setK n v).svec = t.svec := rfl
@[simp] theorem Thread.setK_sframe (t : Thread) (n : Nat) (v : MReg) : (t.setK n v).sframe = t.sframe := rfl
@[simp] theorem Thread.setK_latch (t : Thread) (n : Nat) (v : MReg) : (t.setK n v).latch = t.latch := rfl
@[simp] theorem Thread.setK_seq (t : Thread) (n : Nat) (v : MReg) : (t.setK n v).seq = t.seq := rfl
@[simp] theorem Thread.setK_mo (t : Thread) (n : Nat) (v : MReg) : (t.setK n v).mo = t.mo := rfl
@[simp] theorem Thread.setK_wait (t : Thread) (n : Nat) (v : MReg) : (t.setK n v).wait = t.wait := rfl
@[simp] theorem Thread.setK_since (t : Thread) (n : Nat) (v : MReg) : (t.setK n v).since = t.since := rfl
@[simp] theorem Thread.setK_requests (t : Thread) (n : Nat) (v : MReg) : (t.setK n v).requests = t.requests := rfl
@[simp] theorem Thread.setK_progress (t : Thread) (n : Nat) (v : MReg) : (t.setK n v).progress = t.progress := rfl
@[simp] theorem Thread.setK_sev (t : Thread) (n : Nat) (v : MReg) : (t.setK n v).sev = t.sev := rfl
@[simp] theorem Thread.setK_fetched (t : Thread) (n : Nat) (v : MReg) : (t.setK n v).fetched = t.fetched := rfl
@[simp] theorem Thread.setK_search (t : Thread) (n : Nat) (v : MReg) : (t.setK n v).search = t.search := rfl
@[simp] theorem Thread.setK_task (t : Thread) (n : Nat) (v : MReg) : (t.setK n v).task = t.task := rfl
@[simp] theorem Thread.setK_crc (t : Thread) (n : Nat) (v : MReg) : (t.setK n v).crc = t.crc := rfl
@[simp] theorem Thread.setK_k (t : Thread) (n : Nat) (v : MReg) : (t.setK n v).k = t.k.set n v := rfl
@[simp] theorem Thread.setTstat_pc (t : Thread) (hi lo v : Nat) : (t.setTstat hi lo v).pc = t.pc := rfl
@[simp] theorem Thread.setTstat_strand (t : Thread) (hi lo v : Nat) : (t.setTstat hi lo v).strand = t.strand := rfl
@[simp] theorem Thread.setTstat_finished (t : Thread) (hi lo v : Nat) : (t.setTstat hi lo v).finished = t.finished := rfl
@[simp] theorem Thread.setTstat_initial (t : Thread) (hi lo v : Nat) : (t.setTstat hi lo v).initial = t.initial := rfl
@[simp] theorem Thread.setTstat_sp0 (t : Thread) (hi lo v : Nat) : (t.setTstat hi lo v).sp0 = t.sp0 := rfl
@[simp] theorem Thread.setTstat_x (t : Thread) (hi lo v : Nat) : (t.setTstat hi lo v).x = t.x := rfl
@[simp] theorem Thread.setTstat_v (t : Thread) (hi lo v : Nat) : (t.setTstat hi lo v).v = t.v := rfl
@[simp] theorem Thread.setTstat_k (t : Thread) (hi lo v : Nat) : (t.setTstat hi lo v).k = t.k := rfl
@[simp] theorem Thread.setTstat_streams (t : Thread) (hi lo v : Nat) : (t.setTstat hi lo v).streams = t.streams := rfl
@[simp] theorem Thread.setTstat_fflags (t : Thread) (hi lo v : Nat) : (t.setTstat hi lo v).fflags = t.fflags := rfl
@[simp] theorem Thread.setTstat_frm (t : Thread) (hi lo v : Nat) : (t.setTstat hi lo v).frm = t.frm := rfl
@[simp] theorem Thread.setTstat_seed (t : Thread) (hi lo v : Nat) : (t.setTstat hi lo v).seed = t.seed := rfl
@[simp] theorem Thread.setTstat_fetimeout (t : Thread) (hi lo v : Nat) : (t.setTstat hi lo v).fetimeout = t.fetimeout := rfl
@[simp] theorem Thread.setTstat_hbcount (t : Thread) (hi lo v : Nat) : (t.setTstat hi lo v).hbcount = t.hbcount := rfl
@[simp] theorem Thread.setTstat_taskref (t : Thread) (hi lo v : Nat) : (t.setTstat hi lo v).taskref = t.taskref := rfl
@[simp] theorem Thread.setTstat_rfstat (t : Thread) (hi lo v : Nat) : (t.setTstat hi lo v).rfstat = t.rfstat := rfl
@[simp] theorem Thread.setTstat_fhook (t : Thread) (hi lo v : Nat) : (t.setTstat hi lo v).fhook = t.fhook := rfl
@[simp] theorem Thread.setTstat_fframe (t : Thread) (hi lo v : Nat) : (t.setTstat hi lo v).fframe = t.fframe := rfl
@[simp] theorem Thread.setTstat_svec (t : Thread) (hi lo v : Nat) : (t.setTstat hi lo v).svec = t.svec := rfl
@[simp] theorem Thread.setTstat_sframe (t : Thread) (hi lo v : Nat) : (t.setTstat hi lo v).sframe = t.sframe := rfl
@[simp] theorem Thread.setTstat_latch (t : Thread) (hi lo v : Nat) : (t.setTstat hi lo v).latch = t.latch := rfl
@[simp] theorem Thread.setTstat_seq (t : Thread) (hi lo v : Nat) : (t.setTstat hi lo v).seq = t.seq := rfl
@[simp] theorem Thread.setTstat_mo (t : Thread) (hi lo v : Nat) : (t.setTstat hi lo v).mo = t.mo := rfl
@[simp] theorem Thread.setTstat_wait (t : Thread) (hi lo v : Nat) : (t.setTstat hi lo v).wait = t.wait := rfl
@[simp] theorem Thread.setTstat_since (t : Thread) (hi lo v : Nat) : (t.setTstat hi lo v).since = t.since := rfl
@[simp] theorem Thread.setTstat_requests (t : Thread) (hi lo v : Nat) : (t.setTstat hi lo v).requests = t.requests := rfl
@[simp] theorem Thread.setTstat_progress (t : Thread) (hi lo v : Nat) : (t.setTstat hi lo v).progress = t.progress := rfl
@[simp] theorem Thread.setTstat_sev (t : Thread) (hi lo v : Nat) : (t.setTstat hi lo v).sev = t.sev := rfl
@[simp] theorem Thread.setTstat_fetched (t : Thread) (hi lo v : Nat) : (t.setTstat hi lo v).fetched = t.fetched := rfl
@[simp] theorem Thread.setTstat_search (t : Thread) (hi lo v : Nat) : (t.setTstat hi lo v).search = t.search := rfl
@[simp] theorem Thread.setTstat_task (t : Thread) (hi lo v : Nat) : (t.setTstat hi lo v).task = t.task := rfl
@[simp] theorem Thread.setTstat_crc (t : Thread) (hi lo v : Nat) : (t.setTstat hi lo v).crc = t.crc := rfl
@[simp] theorem Thread.setX_pc (t : Thread) (n : Nat) (v : Word) : (t.setX n v).pc = t.pc := by
  unfold Thread.setX; split <;> rfl
@[simp] theorem Thread.setX_strand (t : Thread) (n : Nat) (v : Word) : (t.setX n v).strand = t.strand := by
  unfold Thread.setX; split <;> rfl
@[simp] theorem Thread.setX_finished (t : Thread) (n : Nat) (v : Word) : (t.setX n v).finished = t.finished := by
  unfold Thread.setX; split <;> rfl
@[simp] theorem Thread.setX_initial (t : Thread) (n : Nat) (v : Word) : (t.setX n v).initial = t.initial := by
  unfold Thread.setX; split <;> rfl
@[simp] theorem Thread.setX_sp0 (t : Thread) (n : Nat) (v : Word) : (t.setX n v).sp0 = t.sp0 := by
  unfold Thread.setX; split <;> rfl
@[simp] theorem Thread.setX_v (t : Thread) (n : Nat) (v : Word) : (t.setX n v).v = t.v := by
  unfold Thread.setX; split <;> rfl
@[simp] theorem Thread.setX_k (t : Thread) (n : Nat) (v : Word) : (t.setX n v).k = t.k := by
  unfold Thread.setX; split <;> rfl
@[simp] theorem Thread.setX_streams (t : Thread) (n : Nat) (v : Word) : (t.setX n v).streams = t.streams := by
  unfold Thread.setX; split <;> rfl
@[simp] theorem Thread.setX_tstat (t : Thread) (n : Nat) (v : Word) : (t.setX n v).tstat = t.tstat := by
  unfold Thread.setX; split <;> rfl
@[simp] theorem Thread.setX_fflags (t : Thread) (n : Nat) (v : Word) : (t.setX n v).fflags = t.fflags := by
  unfold Thread.setX; split <;> rfl
@[simp] theorem Thread.setX_frm (t : Thread) (n : Nat) (v : Word) : (t.setX n v).frm = t.frm := by
  unfold Thread.setX; split <;> rfl
@[simp] theorem Thread.setX_seed (t : Thread) (n : Nat) (v : Word) : (t.setX n v).seed = t.seed := by
  unfold Thread.setX; split <;> rfl
@[simp] theorem Thread.setX_fetimeout (t : Thread) (n : Nat) (v : Word) : (t.setX n v).fetimeout = t.fetimeout := by
  unfold Thread.setX; split <;> rfl
@[simp] theorem Thread.setX_hbcount (t : Thread) (n : Nat) (v : Word) : (t.setX n v).hbcount = t.hbcount := by
  unfold Thread.setX; split <;> rfl
@[simp] theorem Thread.setX_taskref (t : Thread) (n : Nat) (v : Word) : (t.setX n v).taskref = t.taskref := by
  unfold Thread.setX; split <;> rfl
@[simp] theorem Thread.setX_rfstat (t : Thread) (n : Nat) (v : Word) : (t.setX n v).rfstat = t.rfstat := by
  unfold Thread.setX; split <;> rfl
@[simp] theorem Thread.setX_fhook (t : Thread) (n : Nat) (v : Word) : (t.setX n v).fhook = t.fhook := by
  unfold Thread.setX; split <;> rfl
@[simp] theorem Thread.setX_fframe (t : Thread) (n : Nat) (v : Word) : (t.setX n v).fframe = t.fframe := by
  unfold Thread.setX; split <;> rfl
@[simp] theorem Thread.setX_svec (t : Thread) (n : Nat) (v : Word) : (t.setX n v).svec = t.svec := by
  unfold Thread.setX; split <;> rfl
@[simp] theorem Thread.setX_sframe (t : Thread) (n : Nat) (v : Word) : (t.setX n v).sframe = t.sframe := by
  unfold Thread.setX; split <;> rfl
@[simp] theorem Thread.setX_latch (t : Thread) (n : Nat) (v : Word) : (t.setX n v).latch = t.latch := by
  unfold Thread.setX; split <;> rfl
@[simp] theorem Thread.setX_seq (t : Thread) (n : Nat) (v : Word) : (t.setX n v).seq = t.seq := by
  unfold Thread.setX; split <;> rfl
@[simp] theorem Thread.setX_mo (t : Thread) (n : Nat) (v : Word) : (t.setX n v).mo = t.mo := by
  unfold Thread.setX; split <;> rfl
@[simp] theorem Thread.setX_wait (t : Thread) (n : Nat) (v : Word) : (t.setX n v).wait = t.wait := by
  unfold Thread.setX; split <;> rfl
@[simp] theorem Thread.setX_since (t : Thread) (n : Nat) (v : Word) : (t.setX n v).since = t.since := by
  unfold Thread.setX; split <;> rfl
@[simp] theorem Thread.setX_requests (t : Thread) (n : Nat) (v : Word) : (t.setX n v).requests = t.requests := by
  unfold Thread.setX; split <;> rfl
@[simp] theorem Thread.setX_progress (t : Thread) (n : Nat) (v : Word) : (t.setX n v).progress = t.progress := by
  unfold Thread.setX; split <;> rfl
@[simp] theorem Thread.setX_sev (t : Thread) (n : Nat) (v : Word) : (t.setX n v).sev = t.sev := by
  unfold Thread.setX; split <;> rfl
@[simp] theorem Thread.setX_fetched (t : Thread) (n : Nat) (v : Word) : (t.setX n v).fetched = t.fetched := by
  unfold Thread.setX; split <;> rfl
@[simp] theorem Thread.setX_search (t : Thread) (n : Nat) (v : Word) : (t.setX n v).search = t.search := by
  unfold Thread.setX; split <;> rfl
@[simp] theorem Thread.setX_task (t : Thread) (n : Nat) (v : Word) : (t.setX n v).task = t.task := by
  unfold Thread.setX; split <;> rfl
@[simp] theorem Thread.setX_crc (t : Thread) (n : Nat) (v : Word) : (t.setX n v).crc = t.crc := by
  unfold Thread.setX; split <;> rfl

end Sys2Proof.Machine
end

