-- ==== Sys2Proof/Laws/Ops.lean ====
section
/-! SUPPORT. What the shared operations do, said once: the effects of a word in sequence, how a word and a step end,
reading and writing registers, and the checks. -/

namespace Sys2Proof.Machine

/-! ### Effects in sequence -/

variable {α β : Type}

theorem M.bind_ok {m : M α} {f : α → M β} {s s1 : State} {a : α} (h : m s = .ok a s1) : (m >>= f) s = f a s1 := by
  simp [bind, EStateM.bind, h]

theorem M.bind_error {m : M α} {f : α → M β} {s s1 : State} {e : Stop} (h : m s = .error e s1) :
    (m >>= f) s = .error e s1 := by
  simp [bind, EStateM.bind, h]

@[simp] theorem M.pure_run (a : α) (s : State) : (pure a : M α) s = .ok a s := rfl
@[simp] theorem M.get_run (s : State) : (get : M State) s = .ok s s := rfl
@[simp] theorem M.set_run (s t : State) : (set t : M PUnit) s = .ok ⟨⟩ t := rfl
@[simp] theorem M.modify_run (f : State → State) (s : State) : (modify f : M PUnit) s = .ok ⟨⟩ (f s) := rfl
@[simp] theorem M.throw_run (e : Stop) (s : State) : (throw e : M α) s = .error e s := rfl
@[simp] theorem M.trap_run (c : Cause) (a : Word) (s : State) : (trap c a : M α) s = .error (.trap c a false) s := rfl
@[simp] theorem M.waitFor_run (w : Wait) (s : State) : (waitFor w : M α) s = .error (.wait w) s := rfl
@[simp] theorem M.illegal_run (s : State) : (illegal : M α) s = .error (.trap .illegalInstruction 0 false) s := rfl
@[simp] theorem M.modMe_run (f : Thread → Thread) (s : State) : modMe f s = .ok ⟨⟩ (s.setMe (f s.me)) := rfl
@[simp] theorem M.modCore_run (f : Core → Core) (s : State) : modCore f s = .ok ⟨⟩ (s.setMyCore (f s.myCore)) := rfl
@[simp] theorem M.emitM_run (e : Event) (s : State) : emitM e s = .ok ⟨⟩ (s.emit e) := rfl
@[simp] theorem M.need_true (c : Cause) (a : Word) : need true c a = (pure () : M Unit) := rfl
@[simp] theorem M.need_false (c : Cause) (a : Word) : need false c a = trap c a := rfl

theorem M.bind_run (m : M α) (f : α → M β) (s : State) :
    (m >>= f) s = match m s with | .ok a s1 => f a s1 | .error e s1 => .error e s1 := by
  simp only [bind, EStateM.bind]
  cases m s <;> rfl

theorem M.map_run (f : α → β) (m : M α) (s : State) :
    (f <$> m) s = match m s with | .ok a s1 => .ok (f a) s1 | .error e s1 => .error e s1 := by
  simp only [Functor.map, EStateM.map]
  cases m s <;> rfl

@[simp] theorem M.bind_pure_run (a : α) (f : α → M β) (s : State) : ((pure a : M α) >>= f) s = f a s := rfl
@[simp] theorem M.bind_get_run (f : State → M β) (s : State) : ((get : M State) >>= f) s = f s s := rfl
@[simp] theorem M.bind_set_run (t : State) (f : PUnit → M β) (s : State) : ((set t : M PUnit) >>= f) s = f ⟨⟩ t := rfl
@[simp] theorem M.bind_modify_run (g : State → State) (f : PUnit → M β) (s : State) :
    ((modify g : M PUnit) >>= f) s = f ⟨⟩ (g s) := rfl
@[simp] theorem M.bind_throw_run (e : Stop) (f : α → M β) (s : State) : ((throw e : M α) >>= f) s = .error e s := rfl
@[simp] theorem M.bind_trap_run (c : Cause) (a : Word) (f : α → M β) (s : State) :
    ((trap c a : M α) >>= f) s = .error (.trap c a false) s := rfl

/-- A condition that holds is passed. -/
theorem M.need_run {b : Bool} (h : b = true) (c : Cause) (a : Word) (s : State) : need b c a s = .ok () s := by
  subst h; rfl

/-- A condition that fails traps. -/
theorem M.need_trap {b : Bool} (h : b = false) (c : Cause) (a : Word) (s : State) :
    need b c a s = .error (.trap c a false) s := by
  subst h; rfl

/-! ### How a word ends -/

/-- The six ends of a word that is legal here, and the trap of one that is not. -/
theorem run_ends (i : Instr) (s : State) (m : M Unit) :
    (legalHere s i = false ∧ run i s m = .next (takeTrap s .illegalInstruction 0 false)) ∨
    (legalHere s i = true ∧
      ((∃ s', m s = .ok () s' ∧ run i s m = .next (complete s')) ∨
       (∃ c a d s', m s = .error (.trap c a d) s' ∧ run i s m = .next (takeTrap s c a d)) ∨
       (∃ w s', m s = .error (.wait w) s' ∧ run i s m = .next (beginWait s w)) ∨
       (∃ w s', m s = .error (.park w) s' ∧ run i s m = .next (beginPark (keepPayload s s') w)) ∨
       (∃ a s', m s = .error (.refused a) s' ∧ run i s m = .next (beginRefused s s' a)) ∨
       (∃ a n d s', m s = .error (.absent a n d) s' ∧ run i s m = .next (beginAbsent s a n d)))) := by
  unfold run
  cases h : legalHere s i
  · exact .inl ⟨rfl, rfl⟩
  · refine .inr ⟨rfl, ?_⟩
    cases hm : m s with
    | ok a s' => exact .inl ⟨s', rfl, by simp⟩
    | error e s' =>
      cases e with
      | trap c a d => exact .inr (.inl ⟨c, a, d, s', rfl, by simp⟩)
      | wait w => exact .inr (.inr (.inl ⟨w, s', rfl, by simp⟩))
      | park w => exact .inr (.inr (.inr (.inl ⟨w, s', rfl, by simp⟩)))
      | refused a => exact .inr (.inr (.inr (.inr (.inl ⟨a, s', rfl, by simp⟩))))
      | absent a n d => exact .inr (.inr (.inr (.inr (.inr ⟨a, n, d, s', rfl, by simp⟩))))

theorem run_ok {i : Instr} {s s' : State} {m : M Unit} (hl : legalHere s i = true) (hm : m s = .ok () s') :
    run i s m = .next (complete s') := by
  simp [run, hl, hm]

theorem run_trap {i : Instr} {s s' : State} {m : M Unit} {c : Cause} {a : Word} {d : Bool} (hl : legalHere s i = true)
    (hm : m s = .error (.trap c a d) s') : run i s m = .next (takeTrap s c a d) := by
  simp [run, hl, hm]

theorem run_illegal {i : Instr} {s : State} (m : M Unit) (hl : legalHere s i = false) :
    run i s m = .next (takeTrap s .illegalInstruction 0 false) := by
  simp [run, hl]

theorem run_wait {i : Instr} {s s' : State} {m : M Unit} {w : Wait} (hl : legalHere s i = true)
    (hm : m s = .error (.wait w) s') : run i s m = .next (beginWait s w) := by
  simp [run, hl, hm]

theorem run_park {i : Instr} {s s' : State} {m : M Unit} {w : Wait} (hl : legalHere s i = true)
    (hm : m s = .error (.park w) s') : run i s m = .next (beginPark (keepPayload s s') w) := by
  simp [run, hl, hm]

/-- Outside the handler thread nothing is unread again. -/
theorem keepPayload_compute {s s' : State} (h : s.isTh = false) : keepPayload s s' = s' := by simp [keepPayload, h]

/-- A word that th may not execute and that is legal here is a compute thread's. -/
theorem compute_of_legal {i : Instr} {s : State} (hl : legalHere s i = true) (hf : thForbidden i = true) : s.isTh = false := by
  cases ht : s.isTh with
  | false => rfl
  | true => simp [legalHere, ht, hf] at hl

/-- A compute thread's word that begins a wait and keeps its effects. -/
theorem run_park_compute {i : Instr} {s s' : State} {m : M Unit} {w : Wait} (hl : legalHere s i = true)
    (hf : thForbidden i = true) (hm : m s = .error (.park w) s') : run i s m = .next (beginPark s' w) := by
  rw [run_park hl hm, keepPayload_compute (compute_of_legal hl hf)]

@[simp] theorem complete_status (s : State) : (complete s).issue.status = .done := rfl
@[simp] theorem beginWait_status (s : State) (w : Wait) : (beginWait s w).issue.status = .waiting := rfl
@[simp] theorem beginPark_status (s : State) (w : Wait) : (beginPark s w).issue.status = .parked := rfl
@[simp] theorem complete_mem (s : State) : (complete s).mem = s.mem := rfl
@[simp] theorem complete_sectors (s : State) : (complete s).sectors = s.sectors := rfl
@[simp] theorem beginWait_mem (s : State) (w : Wait) : (beginWait s w).mem = s.mem := rfl

/-! ### How a step of another agent ends -/

theorem runStep_due {e : Event} {s t : State} {f : State → Option State} (hw : e.wellFormed = true) (hf : f s = some t) :
    runStep e s f = .next (endStep t) := by
  simp [runStep, hw, hf]

/-- A step that does not stay where it is is over. -/
theorem endStep_over {t : State} (h : t.issue.status ≠ .kept) : endStep t = { t with issue := { t.issue with status := .done } } := by
  simp [endStep, h]

theorem runStep_notDue {e : Event} {s : State} {f : State → Option State} (hw : e.wellFormed = true) (hf : f s = none) :
    runStep e s f = .next { s with issue := { s.issue with status := .waiting } } := by
  simp [runStep, hw, hf]

theorem runStep_malformed {e : Event} {s : State} {f : State → Option State} (hw : e.wellFormed = false) :
    runStep e s f = .fault .noSuchAgent := by
  simp [runStep, hw]

/-! ### Registers (R38, R39) -/

/-- Any register but x30 is read without effect. -/
theorem readX_plain {n : BitVec 5} (h : n ≠ 30#5) (s : State) : readX n s = .ok (s.me.getX n.toNat) s := by
  simp [readX, h]

/-- x0 to x29 are written in place; a write of x0 is discarded by `Thread.setX`. -/
theorem writeX_plain {n : BitVec 5} (h0 : n ≠ 30#5) (h1 : n ≠ 31#5) (v : Word) (s : State) :
    writeX n v s = .ok () (s.setMe (s.me.setX n.toNat v)) := by
  simp [writeX, h0, h1]

/-- Reading a scalar operand changes nothing, but that x30 takes a word from the activation's payload. -/
theorem readX_ends {n : BitVec 5} {s s1 : State} {x : Word} (h : readX n s = .ok x s1) :
    s1 = s ∨ ∃ a rest, n = 30#5 ∧ s.isTh = true ∧ s.myCore.act = some a ∧ a.left = x :: rest ∧
      s1 = s.setMyCore { s.myCore with act := some { a with left := rest } } := by
  by_cases hn : n = 30#5
  · subst hn
    simp only [readX, if_true, popMq, M.bind_get_run] at h
    cases hth : s.isTh with
    | false => simp [hth] at h
    | true =>
      simp only [hth, if_true] at h
      cases ha : s.myCore.act with
      | none => simp [ha] at h
      | some a =>
        simp only [ha] at h
        cases hb : a.left with
        | nil => simp [hb] at h
        | cons w rest =>
          simp only [hb, M.bind_run, M.modCore_run, M.pure_run, EStateM.Result.ok.injEq] at h
          exact .inr ⟨a, rest, rfl, rfl, rfl, by rw [hb, h.1], h.2.symm⟩
  · rw [readX_plain hn] at h
    simp only [EStateM.Result.ok.injEq] at h
    exact .inl h.2.symm

@[simp] theorem readV_run (n : BitVec 5) (s : State) : readV n s = .ok (s.me.getV n.toNat) s := rfl
@[simp] theorem writeV_run (n : BitVec 5) (v : VReg) (s : State) : writeV n v s = .ok () (s.setMe (s.me.setV n.toNat v)) := rfl
@[simp] theorem readK_run (n : Nat) (s : State) : readK n s = .ok (s.me.getK n) s := rfl
@[simp] theorem writeK_run (n : Nat) (v : MReg) (s : State) : writeK n v s = .ok () (s.setMe (s.me.setK n v)) := rfl

@[simp] theorem State.core_setCore (s : State) (c : Nat) (k : Core) : (s.setCore c k).core c = k := by
  simp [State.core, State.setCore]

theorem State.core_setCore_ne (s : State) {c d : Nat} (k : Core) (h : d ≠ c) : (s.setCore c k).core d = s.core d := by
  simp only [State.core, State.setCore]
  exact SMap.get_set_ne _ _ _ h

@[simp] theorem Core.thread_setThread (k : Core) (t : Nat) (th : Thread) : (k.setThread t th).thread t = th := by
  simp [Core.thread, Core.setThread]

theorem Core.thread_setThread_ne (k : Core) {t u : Nat} (th : Thread) (h : u ≠ t) : (k.setThread t th).thread u = k.thread u := by
  simp only [Core.thread, Core.setThread]
  exact SMap.get_set_ne _ _ _ h

@[simp] theorem State.me_setMe (s : State) (th : Thread) : (s.setMe th).me = th := by
  simp [State.me, State.thread, State.setMe, State.setThread, State.cid, State.tid, State.core, State.setCore, Core.thread,
    Core.setThread]

/-- The issuing thread is as it was when its core changes in another respect. -/
theorem State.me_setMyCore (s : State) (k : Core) : (s.setMyCore k).me = k.thread s.tid := by
  simp [State.me, State.thread, State.setMyCore, State.cid, State.tid, State.core, State.setCore]

@[simp] theorem Thread.getX_zero (t : Thread) : t.getX 0 = 0 := rfl

theorem Thread.getX_setX (t : Thread) {n m : Nat} (v : Word) (hm : m ≠ 31) :
    (t.setX n v).getX m = if m = n ∧ n ≠ 0 then v else t.getX m := by
  by_cases h0 : n = 0
  · simp [Thread.setX, h0]
  · by_cases hz : m = 0
    · have : ¬ (m = n ∧ n ≠ 0) := by omega
      rw [if_neg this]; simp [Thread.getX, hz]
    · simp only [Thread.getX, hz, hm, if_false, Thread.setX, h0]
      rw [SMap.get_set]
      by_cases he : m = n <;> simp [he, h0]

theorem Thread.getV_setV (t : Thread) (n m : Nat) (v : VReg) : (t.setV n v).getV m = if m = n then v else t.getV m := by
  simp only [Thread.getV, Thread.setV, SMap.get_set]

theorem Thread.getK_setK (t : Thread) {n m : Nat} (v : MReg) :
    (t.setK n v).getK m = if m = n ∧ m ≠ 0 then v else t.getK m := by
  unfold Thread.getK
  by_cases hm : m = 0
  · simp [hm]
  · simp only [hm, if_false, Thread.setK, SMap.get_set]
    by_cases he : m = n <;> simp [he]
    omega

/-! ### Local memory (R192, R199) -/

/-- Local stores and loads of a core. -/
theorem Core.lread_lwrite_out (k : Core) (o n v c m : Nat) (h : c + m ≤ o ∨ o + n ≤ c) :
    (k.lwrite o n v).lread c m = k.lread c m := Mem.read_write_out m n k.lmem o v c h

theorem Core.lread_lwrite_self (k : Core) (o n v : Nat) (h : Mem.wf k.lmem = true) :
    (k.lwrite o n v).lread o n = v % 256 ^ n := Mem.read_write_self n o v h

/-- A local write keeps the canonical form. -/
theorem Core.wf_lwrite (k : Core) (o n v : Nat) (h : Mem.wf k.lmem = true) : Mem.wf (k.lwrite o n v).lmem = true :=
  Mem.wf_write n o v h

/-- A local access in range, aligned and in an open region passes its checks. -/
theorem localCheck_ok {o n align : Nat} {s : State} (h1 : o + n ≤ 2 ^ 18) (h2 : o % align = 0)
    (h3 : o + n ≤ s.myCore.xb + s.myCore.xw) : localCheck o n align s = .ok () s := by
  have hf : localFault s.myCore o n = none := by
    unfold localFault
    rw [if_neg (by omega), if_neg (by omega)]
  unfold localCheck
  rw [M.bind_ok (M.need_run (by simpa using h1) _ _ _), M.bind_ok (M.need_run (by simp [h2]) _ _ _)]
  simp [checkLocal, hf]

end Sys2Proof.Machine
end

