-- ==== Sys2Proof/Laws/Access.lean ====
section
/-! SUPPORT. Global accesses, said once: an access that goes through at once, its reads and its stores, the request
that it leaves, what the slices do beside, and the operations that never stop. -/

namespace Sys2Proof.Machine

theorem after_ok {m : M Unit} {s t : State} (h : m s = .ok () t) : after m s = t := by simp [after, h]

/-- Holding request entries never stops. -/
theorem request_run (n : Nat) (regs : List Nat) (s : State) : request n regs s = .ok () (after (request n regs) s) := rfl

theorem requestLoad_run (n : Nat) (regs : List Nat) (s : State) :
    requestLoad n regs s = .ok () (after (requestLoad n regs) s) := rfl

/-- A load's request differs from another in its tag word alone. -/
theorem after_request (n : Nat) (regs : List Nat) (s : State) : after (request n regs) s = after (requestAs false n regs) s := rfl

/-- Recording a store never stops, and does nothing outside a checked pair's leader. -/
theorem recordStore_run (a n v : Nat) (s : State) : recordStore a n v s = .ok () (after (recordStore a n v) s) := by
  unfold recordStore after
  simp only [M.bind_get_run]
  cases s.myCore.pair <;> rfl

theorem recordStore_plain {a n v : Nat} {s : State} (h : s.myCore.pair = .none) : after (recordStore a n v) s = s := by
  unfold recordStore after
  simp [h]

/-- Pinning never stops, and does nothing in a compute thread. -/
theorem pin_run (s : State) : pin s = .ok () (after pin s) := by
  unfold pin
  simp only [M.bind_get_run, after]
  split <;> simp_all

theorem pin_compute {s : State} (h : s.isTh = false) : after pin s = s := by
  simp [after, pin, h]

/-- Counting held stores never stops, and does nothing outside an unpinned activation. -/
theorem gateStores_run (n : Nat) (s : State) : gateStores n s = .ok () (after (gateStores n) s) := by
  unfold gateStores
  simp only [M.bind_get_run, after]
  split
  · cases s.myCore.act with
    | none => rfl
    | some a =>
      simp only
      split
      · rw [pin_run]
      · rfl
  · rfl

theorem gateStores_plain {s : State} {n : Nat} (h : s.unpinned = false) : after (gateStores n) s = s := by
  simp [after, gateStores, h]

/-- No part of the word has been performed, and the turn performs n parts at once (R120). -/
def State.atOnce (s : State) (n : Nat) : Prop := s.me.progress = none ∧ s.partsNow n = n

/-! ### What an access does at the slices leaves the cores as they are -/

/-- The cores but for their translations, the issue and the contexts are as they were. -/
def SameThreads (s t : State) : Prop :=
  (∀ c u, t.thread c u = s.thread c u) ∧ t.issue = s.issue ∧ t.cur = s.cur ∧ t.ctxs = s.ctxs

theorem SameThreads.refl (s : State) : SameThreads s s := ⟨fun _ _ => rfl, rfl, rfl, rfl⟩
theorem SameThreads.trans {s t u : State} (h : SameThreads s t) (k : SameThreads t u) : SameThreads s u :=
  ⟨fun c v => (k.1 c v).trans (h.1 c v), k.2.1.trans h.2.1, k.2.2.1.trans h.2.2.1, k.2.2.2.trans h.2.2.2⟩
theorem SameThreads.of_cores {s t : State} (h : t.cores = s.cores) (hi : t.issue = s.issue) (hc : t.cur = s.cur)
    (hx : t.ctxs = s.ctxs) : SameThreads s t :=
  ⟨fun c u => by unfold State.thread State.core; rw [h], hi, hc, hx⟩

theorem SameThreads.me {s t : State} (h : SameThreads s t) : t.me = s.me := by
  unfold State.me State.cid State.tid
  rw [h.2.2.1, h.1]

theorem SameThreads.atOnce {s t : State} {n : Nat} (h : SameThreads s t) (k : s.atOnce n) : t.atOnce n := by
  unfold State.atOnce State.partsNow State.partsDone at *
  rw [h.me, h.2.1]; exact k

theorem sameThreads_fetchSector (s : State) (n k : Nat) : SameThreads s (fetchSector s n k) := by
  unfold fetchSector
  split
  · exact .refl s
  · split
    · exact .refl s
    · exact .of_cores rfl rfl rfl rfl

theorem sameThreads_allocSector (s : State) (n k : Nat) : SameThreads s (allocSector s n k) := by
  unfold allocSector
  split
  · exact .of_cores rfl rfl rfl rfl
  · exact .refl s

theorem sameThreads_renewReplica (s : State) (c x n k : Nat) : SameThreads s (renewReplica s c x n k) := by
  unfold renewReplica
  split
  · exact .refl s
  · exact .of_cores rfl rfl rfl rfl

theorem sameThreads_leaseRead (s : State) (c x pa : Nat) : SameThreads s (leaseRead s c x pa) := by
  unfold leaseRead
  split
  · exact .refl s
  · simp only
    split
    · exact ((sameThreads_fetchSector _ _ _).trans (.of_cores rfl rfl rfl rfl)).trans (sameThreads_renewReplica _ _ _ _ _)
    · exact (sameThreads_fetchSector _ _ _).trans (.of_cores rfl rfl rfl rfl)

theorem sameThreads_countAccess (s : State) (n x : Nat) : SameThreads s (countAccess s n x) := .of_cores rfl rfl rfl rfl

theorem sameThreads_touchSlice (s : State) (c x : Nat) (nd : Rights) (pa : Nat) : SameThreads s (touchSlice s c x nd pa) := by
  unfold touchSlice
  cases nd
  · exact (sameThreads_countAccess _ _ _).trans (sameThreads_leaseRead _ _ _ _)
  · exact sameThreads_countAccess _ _ _
  · exact ((sameThreads_countAccess _ _ _).trans (sameThreads_fetchSector _ _ _)).trans (sameThreads_allocSector _ _ _)
  · exact (sameThreads_countAccess _ _ _).trans (sameThreads_leaseRead _ _ _ _)

theorem sameThreads_writeSector (s : State) (n k : Nat) (d : BitVec 256) (w z : Bool) : SameThreads s (writeSector s n k d w z) := by
  unfold writeSector passLease
  simp only
  split <;> exact .of_cores rfl rfl rfl rfl

theorem sameThreads_writePa {s t : State} {seed : Word} {pa n v : Nat} (h : writePa s seed pa n v = some t) : SameThreads s t := by
  unfold writePa at h
  simp only at h
  split at h
  · simp only [Option.some.injEq] at h; subst h; exact sameThreads_writeSector _ _ _ _ _ _
  · simp only [Option.map_eq_some_iff] at h
    obtain ⟨d, _, rfl⟩ := h; exact (sameThreads_fetchSector _ _ _).trans (sameThreads_writeSector _ _ _ _ _ _)

theorem sameThreads_touches (c x : Nat) : ∀ (as : List Nat) (s : State),
    SameThreads s (as.foldl (fun s a => touchSlice s c x .read a) s)
  | [], s => .refl s
  | a :: as, s => (sameThreads_touchSlice s c x .read a).trans (sameThreads_touches c x as _)

theorem sameThreads_tlbFill (s : State) (c : Nat) (e : TlbEntry) : SameThreads s (s.setCore c (tlbFill (s.core c) e)) := by
  refine ⟨fun d u => ?_, rfl, rfl, rfl⟩
  by_cases h : d = c
  · subst h; unfold State.thread; rw [State.core_setCore]; rfl
  · unfold State.thread; rw [State.core_setCore_ne s _ h]

theorem sameThreads_applyXlat (s : State) (c x : Nat) (p : Xlat) : SameThreads s (applyXlat s c x p) := by
  unfold applyXlat
  refine SameThreads.trans ?_ (sameThreads_touchSlice _ _ _ _ _)
  unfold applyWalk
  have h1 := sameThreads_touches 768 x p.walk s
  generalize List.foldl _ _ _ = s1 at h1 ⊢
  have h2 : SameThreads s1 (match p.update with
      | none => s1
      | some (a, e) => (writePa (sliceAccess s1 x a) (s1.ctx x).seed a 8 e).getD s1) := by
    split
    · exact .refl _
    · rename_i a e _
      cases hw : writePa (sliceAccess s1 x a) (s1.ctx x).seed a 8 e with
      | none => exact .refl _
      | some t => exact (sameThreads_countAccess _ _ _).trans (sameThreads_writePa hw)
  refine (h1.trans h2).trans ?_
  show SameThreads _ (match p.fill with | none => _ | some e => State.setCore _ c (tlbFill (State.core _ c) e))
  cases p.fill with
  | none => exact .refl _
  | some e => exact sameThreads_tlbFill _ _ _

theorem sameThreads_touched (xs : List Xlat) (s : State) : SameThreads s (s.touched xs) := by
  have : ∀ (xs : List Xlat) (c x : Nat → Nat) (s : State), s.cid = c 0 → s.myCtx = x 0 →
      SameThreads s (xs.foldl (fun s x => applyXlat s s.cid s.myCtx x) s) := by
    intro xs
    induction xs with
    | nil => intro c x s _ _; exact .refl s
    | cons a as ih =>
      intro c x s _ _
      exact (sameThreads_applyXlat s _ _ a).trans (ih (fun _ => _) (fun _ => _) _ rfl rfl)
  exact this xs (fun _ => _) (fun _ => _) s rfl rfl

/-! ### The checks -/

theorem worst_nil (b : Bool) : worst b [] = none := rfl

theorem partXlat_one (s : State) (nd : Rights) (va : Nat) : partXlat s nd 1 va = xlate s s.cid s.myCtx va nd s.sup := by
  simp [partXlat, Nat.mod_one]

theorem partXlat_aligned {s : State} {nd : Rights} {al va : Nat} (h : va % al = 0) :
    partXlat s nd al va = xlate s s.cid s.myCtx va nd s.sup := by
  simp [partXlat, h]

/-- The translations of an access that none of its parts faults. -/
theorem filterMap_ok {f : Nat → Except Cause Xlat} : ∀ {ps : List (Nat × Nat)} {xs : List Xlat},
    ps.map (fun p => f p.1) = xs.map .ok →
    (ps.map fun p => (p.1, f p.1)).filterMap partFault = [] ∧
      (ps.map fun p => (p.1, f p.1)).filterMap (fun r => r.2.toOption) = xs
  | [], [], _ => ⟨rfl, rfl⟩
  | [], _ :: _, h => by simp at h
  | _ :: _, [], h => by simp at h
  | p :: ps, x :: xs, h => by
    simp only [List.map_cons, List.cons.injEq] at h
    obtain ⟨h1, h2⟩ := filterMap_ok h.2
    simp only [List.map_cons, List.filterMap_cons, h.1, partFault]
    refine ⟨h1, ?_⟩
    show x :: _ = _
    rw [h2]

theorem Passes.length {nd : Rights} {ps : List (Nat × Nat)} {xs : List Xlat} {s : State} (h : Passes nd s ps xs) :
    xs.length = ps.length := by
  have := congrArg List.length h.1
  simpa using this.symm

/-- The turn still performs all the parts after the translations. -/
theorem Reachable.atOnce {nd : Rights} {ps : List (Nat × Nat)} {xs : List Xlat} {s : State} (h : Reachable nd s ps xs) :
    (s.touched xs).atOnce ps.length := (sameThreads_touched xs s).atOnce ⟨h.1.2.2.2.2, h.2⟩

theorem Reachable.length {nd : Rights} {ps : List (Nat × Nat)} {xs : List Xlat} {s : State} (h : Reachable nd s ps xs) :
    xs.length = ps.length := h.1.length

/-- An access whose parts are aligned and translate, that no other agent holds up, and for which entries are free, is checked
without a stop; its translations are then performed. -/
theorem Passes.checked {al : Nat} {nd : Rights} {b : Bool} {ps : List (Nat × Nat)} {xs : List Xlat} {s : State}
    (ha : ∀ p ∈ ps, p.1 % al = 0) (h : Passes nd s ps xs) : checkPartsAt al nd b ps s = .ok xs (s.touched xs) := by
  obtain ⟨h1, hw, h2, h3, hp⟩ := h
  have h1' : ps.map (fun p => partXlat s nd al p.1) = xs.map .ok := by
    rw [← h1]
    exact List.map_congr_left fun p hm => partXlat_aligned (ha p hm)
  obtain ⟨e1, e2⟩ := filterMap_ok h1'
  unfold checkPartsAt
  rw [M.bind_get_run]
  simp only [hp, hw, Bool.false_eq_true, if_false]
  rw [e1, e2, worst_nil]
  simp only [h2, h3]
  rfl

theorem checkPartsAt_ok {al : Nat} {nd : Rights} {b : Bool} {ps : List (Nat × Nat)} {xs : List Xlat} {s : State}
    (ha : ∀ p ∈ ps, p.1 % al = 0) (h : Reachable nd s ps xs) : checkPartsAt al nd b ps s = .ok xs (s.touched xs) :=
  h.1.checked ha

theorem checkParts_ok {nd : Rights} {b : Bool} {ps : List (Nat × Nat)} {xs : List Xlat} {s : State}
    (h : Reachable nd s ps xs) : checkParts nd b ps s = .ok xs (s.touched xs) :=
  checkPartsAt_ok (fun p _ => Nat.mod_one p.1) h

/-- Part of a word whose part the walk of a held entry holds up. -/
theorem checkParts_one_walk {nd : Rights} {b : Bool} {va n : Nat} {s : State} (hp : s.me.progress = none)
    (h : walkHeld s s.agent s.cid s.myCtx nd va = true) :
    checkParts nd b [(va, n)] s = .error (.wait (walkWait s s.agent s.cid s.myCtx nd [va])) s := by
  unfold checkParts checkPartsAt
  rw [M.bind_get_run]
  simp [hp, h]

/-- A part whose translation faults: the cause and the address, or the page-fault service for a page that is not
present (R100, R102). -/
theorem checkParts_one_error {nd : Rights} {b : Bool} {va n : Nat} {c : Cause} {s : State} (hp : s.me.progress = none)
    (hw : walkHeld s s.agent s.cid s.myCtx nd va = false)
    (h : xlate s s.cid s.myCtx va nd s.sup = .error c) : checkParts nd b [(va, n)] s = xlatFault nd c va s := by
  unfold checkParts checkPartsAt
  rw [M.bind_get_run]
  simp [hp, hw, h, worst, partFault, partXlat_one]

theorem checkParts_one_held {nd : Rights} {b : Bool} {va n : Nat} {x : Xlat} {s : State} (hp : s.me.progress = none)
    (hw : walkHeld s s.agent s.cid s.myCtx nd va = false)
    (h : xlate s s.cid s.myCtx va nd s.sup = .ok x) (hh : partHeld s s.agent s.mySeed x = true) :
    checkParts nd b [(va, n)] s = .error (.wait (partsWait s s.agent s.mySeed [x])) s := by
  have e : worst b (List.filterMap partFault [(va, .ok x)]) = none := rfl
  unfold checkParts checkPartsAt
  rw [M.bind_get_run]
  simp only [hp, List.any_cons, List.any_nil, hw, Bool.or_false, Bool.false_eq_true, if_false, List.map_cons, List.map_nil,
    partXlat_one, h, e]
  simp [Except.toOption, hh]

theorem checkParts_one_full {nd : Rights} {b : Bool} {va n : Nat} {x : Xlat} {s : State} (hp : s.me.progress = none)
    (hw : walkHeld s s.agent s.cid s.myCtx nd va = false)
    (h : xlate s s.cid s.myCtx va nd s.sup = .ok x) (hh : partHeld s s.agent s.mySeed x = false) (hq : poolHas s 1 = false) :
    checkParts nd b [(va, n)] s = .error (.wait .reg) s := by
  have e : worst b (List.filterMap partFault [(va, .ok x)]) = none := rfl
  unfold checkParts checkPartsAt
  rw [M.bind_get_run]
  simp only [hp, List.any_cons, List.any_nil, hw, Bool.or_false, Bool.false_eq_true, if_false, List.map_cons, List.map_nil,
    partXlat_one, h, e]
  simp [Except.toOption, hh, hq]

/-! ### Parts -/

theorem readPart_ok {x : Xlat} {va n v : Nat} {s : State} (h : readNear s s.cid s.myCtx x.pa n = some v) :
    readPart x va n s = .ok v s := by
  simp [readPart, partValue, h]

theorem readHome_ok {x : Xlat} {va n v : Nat} {s : State} (h : readPa s s.mySeed x.pa n = some v) :
    readHome x va n s = .ok v s := by
  simp [readHome, partValue, h]

theorem readEach_ok {s : State} : ∀ {xs : List Xlat} {ps : List (Nat × Nat)} {vs : List Nat}, Reads s xs ps vs →
    readEach xs ps s = .ok vs s
  | [], [], [], _ => rfl
  | [], [], _ :: _, h => by simp [Reads] at h
  | [], _ :: _, _, h => by simp [Reads] at h
  | _ :: _, [], _, h => by simp [Reads] at h
  | x :: xs, (va, n) :: ps, [], h => by simp [Reads] at h
  | x :: xs, (va, n) :: ps, v :: vs, h => by
    simp only [Reads, List.length_cons, Nat.succ.injEq, List.zip_cons_cons, List.map_cons, List.cons.injEq] at h
    rw [readEach, M.bind_ok (readPart_ok h.2.1), M.bind_ok (readEach_ok ⟨h.1, h.2.2⟩)]
    rfl

theorem State.atOnce.done {s : State} {n : Nat} (h : s.atOnce n) : s.partsDone = 0 := by
  simp [State.partsDone, h.1]

/-- A turn performs at least one part. -/
theorem State.atOnce_one {s : State} (h : s.me.progress = none) : s.atOnce 1 := by
  refine ⟨h, ?_⟩
  have hd : s.partsDone = 0 := by simp [State.partsDone, h]
  unfold State.partsNow
  rw [hd]
  split
  · rfl
  · rename_i q _
    exact Nat.min_eq_left (Nat.le_max_left 1 q)

/-- One part that is poisoned. -/
theorem readParts_poisoned {x : Xlat} {va n : Nat} {s : State} (ho : s.me.progress = none)
    (h : readNear s s.cid s.myCtx x.pa n = none) :
    readParts [x] [(va, n)] s = .error (.trap .uncorrectableError (word va) false) s := by
  have h1 := State.atOnce_one ho
  unfold readParts
  rw [M.bind_get_run]
  show (readEach (List.take (s.partsNow 1) (List.drop s.partsDone [x]))
    (List.take (s.partsNow 1) (List.drop s.partsDone [(va, n)])) >>= _) s = _
  rw [h1.done, h1.2]
  refine M.bind_error ?_
  show readEach [x] [(va, n)] s = _
  rw [readEach]
  refine M.bind_error ?_
  simp [readPart, partValue, h]

/-- Parts of which none is poisoned are read in order, and nothing changes. -/
theorem readParts_ok {s : State} {xs : List Xlat} {ps : List (Nat × Nat)} {vs : List Nat} (ho : s.atOnce ps.length)
    (h : Reads s xs ps vs) : readParts xs ps s = .ok vs s := by
  have hv : s.partVals = [] := by simp [State.partVals, ho.1]
  unfold readParts
  rw [M.bind_get_run]
  simp only [ho.done, ho.2, List.drop_zero, List.take_length, hv, List.nil_append, Nat.zero_add, Nat.lt_irrefl, if_false]
  rw [List.take_of_length_le (l := xs) (by rw [h.1]), M.bind_ok (readEach_ok h)]
  rfl

theorem writePart_eq {x : Xlat} {va n v : Nat} {s s2 : State}
    (h : writePa (if s.gates then addHold s s.agent (homeSlice s s.mySeed x.pa) (x.pa / 32) else s) s.mySeed x.pa n v = some s2) :
    writePart x va n v s = .ok () (after (recordStore va n v) s2) := by
  unfold writePart
  rw [M.bind_get_run]
  simp only [h, M.bind_set_run, recordStore_run]

/-- Stores that no slice refuses are performed in order. -/
theorem writeEach_ok : ∀ {xs : List Xlat} {ps : List ((Nat × Nat) × Nat)} {s t : State}, storeParts s xs ps = some t →
    writeEach xs ps s = .ok () t
  | [], ps, s, t, h => by
    cases ps <;> · simp only [storeParts, Option.some.injEq] at h; subst h; rfl
  | x :: xs, [], s, t, h => by
    simp only [storeParts, Option.some.injEq] at h; subst h; rfl
  | x :: xs, ((va, n), v) :: ps, s, t, h => by
    simp only [storeParts] at h
    cases hw : writePa (if s.gates then addHold s s.agent (homeSlice s s.mySeed x.pa) (x.pa / 32) else s) s.mySeed x.pa n v with
    | none => simp [hw] at h
    | some s2 =>
      rw [hw] at h
      rw [writeEach, M.bind_ok (writePart_eq hw)]
      exact writeEach_ok h

theorem writeParts_ok {xs : List Xlat} {ps : List ((Nat × Nat) × Nat)} {s t : State} (ho : s.atOnce ps.length)
    (hl : xs.length = ps.length) (h : storeParts s xs ps = some t) : writeParts xs ps s = .ok () t := by
  unfold writeParts
  rw [M.bind_get_run]
  simp only [ho.done, ho.2, List.drop_zero, List.take_length, Nat.zero_add, Nat.lt_irrefl, if_false]
  rw [List.take_of_length_le (l := xs) (by rw [hl]), M.bind_ok (writeEach_ok h)]
  rfl

/-- One part that its slice refuses. -/
theorem writeParts_refused {x : Xlat} {va n v : Nat} {s : State} (ho : s.me.progress = none)
    (h : storeParts s [x] [((va, n), v)] = none) :
    writeParts [x] [((va, n), v)] s =
      .error (if s.gates then .trap .uncorrectableError (word va) false else .refused (word va)) s := by
  have hw : writePa (if s.gates then addHold s s.agent (homeSlice s s.mySeed x.pa) (x.pa / 32) else s) s.mySeed x.pa n v = none := by
    simp only [storeParts] at h
    cases hq : writePa (if s.gates then addHold s s.agent (homeSlice s s.mySeed x.pa) (x.pa / 32) else s) s.mySeed x.pa n v with
    | none => rfl
    | some t => rw [hq] at h; simp at h
  have h1 := State.atOnce_one ho
  have e : writePart x va n v s =
      .error (if s.gates then .trap .uncorrectableError (word va) false else .refused (word va)) s := by
    unfold writePart
    rw [M.bind_get_run]
    simp only [hw]
    split <;> rfl
  unfold writeParts
  rw [M.bind_get_run]
  show (writeEach (List.take (s.partsNow 1) (List.drop s.partsDone [x]))
    (List.take (s.partsNow 1) (List.drop s.partsDone [((va, n), v)])) >>= _) s = _
  rw [h1.done, h1.2]
  refine M.bind_error ?_
  show writeEach [x] [((va, n), v)] s = _
  rw [writeEach]
  exact M.bind_error e

/-- A read of one part, of several, and the stores, wherever they go through at once. -/
theorem gRead_ok {va n v : Nat} {regs : List Nat} {x : Xlat} {s : State} (h : Reachable .read s [(va, n)] [x])
    (hr : Reads (s.touched [x]) [x] [(va, n)] [v]) :
    gRead va n regs s = .ok v (after (requestLoad 1 regs) (s.touched [x])) := by
  unfold gRead
  rw [M.bind_ok (checkParts_ok h), M.bind_ok (readParts_ok h.atOnce hr), M.bind_ok (requestLoad_run 1 regs _)]
  rfl

theorem gWrite_ok {va n v : Nat} {x : Xlat} {s t : State} (h : Reachable .write (after (gateStores 1) s) [(va, n)] [x])
    (hw : storeParts ((after (gateStores 1) s).touched [x]) [x] [((va, n), v)] = some t) :
    gWrite va n v s = .ok () (after (request 1 []) t) := by
  unfold gWrite
  rw [M.bind_ok (gateStores_run 1 s), M.bind_ok (checkParts_ok h), M.bind_ok (writeParts_ok h.atOnce rfl hw)]
  exact request_run 1 [] t

theorem gReadRange_ok {va n : Nat} {vs regs : List Nat} {xs : List Xlat} {s : State} (h : Reachable .read s (partsOf va n) xs)
    (hr : Reads (s.touched xs) xs (partsOf va n) vs) :
    gReadRange va n regs s = .ok (joinValue (partsOf va n) vs) (after (requestLoad (partsOf va n).length regs) (s.touched xs)) := by
  unfold gReadRange
  rw [M.bind_ok (checkParts_ok h), M.bind_ok (readParts_ok h.atOnce hr), M.bind_ok (requestLoad_run _ regs _)]
  rfl

@[simp] theorem splitValue_length : ∀ (ps : List (Nat × Nat)) (v : Nat), (splitValue ps v).length = ps.length
  | [], _ => rfl
  | (_, _) :: ps, v => by simp [splitValue, splitValue_length ps]

theorem gWriteRange_ok {va n v : Nat} {xs : List Xlat} {s t : State}
    (h : Reachable .write (after (gateStores (partsOf va n).length) s) (partsOf va n) xs)
    (hw : storeParts ((after (gateStores (partsOf va n).length) s).touched xs) xs (splitValue (partsOf va n) v) = some t) :
    gWriteRange va n v s = .ok () (after (request (partsOf va n).length []) t) := by
  unfold gWriteRange
  rw [M.bind_ok (gateStores_run _ s), M.bind_ok (checkParts_ok h),
    M.bind_ok (writeParts_ok (by simpa using h.atOnce) (by simpa using h.length) hw)]
  exact request_run _ [] t

end Sys2Proof.Machine
end

