-- ==== Sys2Proof/Laws/Flags.lean ====
section
/-! SUPPORT. Computations that raise flags and draw from SEED, run step by step. -/

namespace Sys2Proof.Machine

variable {α β : Type}

@[simp] theorem F.bind_run (m : F α) (f : α → F β) (e : FpEnv) : (m >>= f).run e = (f (m.run e).1).run (m.run e).2 := rfl
@[simp] theorem F.pure_run (a : α) (e : FpEnv) : (pure a : F α).run e = (a, e) := rfl
@[simp] theorem F.map_run (g : α → β) (m : F α) (e : FpEnv) : (g <$> m).run e = (g (m.run e).1, (m.run e).2) := rfl
@[simp] theorem F.raise_run (fl : Nat) (e : FpEnv) : (raise fl).run e = ((), { e with flags := e.flags ||| fl }) := rfl
@[simp] theorem F.raiseIf_run (b : Bool) (fl : Nat) (e : FpEnv) :
    (raiseIf b fl).run e = ((), if b then { e with flags := e.flags ||| fl } else e) := by
  cases b <;> rfl
@[simp] theorem F.draw_run (e : FpEnv) : draw.run e = (fld (seedNext e.seed) 63 32, { e with seed := seedNext e.seed }) := rfl

/-- A draw advances SEED under SR alone. -/
@[simp] theorem F.drawFor_run (mode : Nat) (e : FpEnv) :
    (drawFor mode).run e =
      if mode = 5 then (fld (seedNext e.seed) 63 32, { e with seed := seedNext e.seed }) else (0, e) := by
  unfold drawFor
  split <;> rfl

@[simp] theorem F.rdVal_run (f : Fmt) (b : Nat) (e : FpEnv) :
    (rdVal f b).run e = (f.decode b, if (f.decode b).isSig then { e with flags := e.flags ||| flagNV } else e) := by
  unfold rdVal
  rw [F.bind_run, F.raiseIf_run, F.pure_run]

/-- What an instruction keeps of a computation: SEED as it left it, and its flags ORed in. -/
theorem liftF_run (f : F α) (s : State) : liftF f s = .ok (f.run ⟨0, s.me.seed⟩).1
    (s.setMe { s.me with
      seed := (f.run ⟨0, s.me.seed⟩).2.seed, fflags := s.me.fflags ||| word (f.run ⟨0, s.me.seed⟩).2.flags }) := rfl

end Sys2Proof.Machine
end

