-- ==== Sys2Proof/Laws/Vec.lean ====
section
/-! SUPPORT. Elements of vector registers, and the write policy of R245 element by element. -/

namespace Sys2Proof.Machine

@[simp] theorem elems_length (w : Nat) : ∀ n v, (elems w n v).length = n
  | 0, _ => rfl
  | n + 1, v => by simp [elems, elems_length w n]

theorem elems_getElem? (w : Nat) : ∀ (n v j : Nat), j < n → (elems w n v)[j]? = some (v / 2 ^ (w * j) % 2 ^ w)
  | n + 1, v, 0, _ => by simp [elems]
  | n + 1, v, j + 1, h => by
    simp only [elems, List.getElem?_cons_succ]
    rw [elems_getElem? w n (v / 2 ^ w) j (by omega), Nat.div_div_eq_div_mul, ← Nat.pow_add]
    congr 3
    rw [Nat.mul_succ, Nat.add_comm]

theorem pack_lt (w : Nat) : ∀ l : List Nat, pack w l < 2 ^ (w * l.length)
  | [] => by simp [pack]
  | e :: es => by
    have h1 := pack_lt w es
    have h2 : e % 2 ^ w < 2 ^ w := Nat.mod_lt _ (Nat.two_pow_pos w)
    simp only [pack, List.length_cons, Nat.mul_succ, Nat.pow_add]
    have h3 : pack w es + 1 ≤ 2 ^ (w * es.length) := h1
    calc e % 2 ^ w + 2 ^ w * pack w es < 2 ^ w + 2 ^ w * pack w es := by omega
      _ = 2 ^ w * (pack w es + 1) := by rw [Nat.mul_succ, Nat.add_comm]
      _ ≤ 2 ^ w * 2 ^ (w * es.length) := Nat.mul_le_mul_left _ h3
      _ = 2 ^ (w * es.length) * 2 ^ w := Nat.mul_comm _ _

theorem pack_elem (w : Nat) : ∀ (l : List Nat) (j : Nat), pack w l / 2 ^ (w * j) % 2 ^ w = (l[j]?.getD 0) % 2 ^ w
  | [], j => by simp [pack]
  | e :: es, 0 => by
    simp [pack, Nat.add_mod]
  | e :: es, j + 1 => by
    simp only [pack, List.getElem?_cons_succ, Nat.mul_succ]
    rw [Nat.add_comm (w * j) w, Nat.pow_add, ← Nat.div_div_eq_div_mul]
    rw [Nat.add_mul_div_left _ _ (Nat.two_pow_pos w), Nat.div_eq_of_lt (Nat.mod_lt _ (Nat.two_pow_pos w)), Nat.zero_add]
    exact pack_elem w es j

/-- Element j of a register that has been packed from a list. -/
theorem vElem_vPack {w : Nat} {l : List Nat} (hl : w * l.length ≤ 4096) (j : Nat) :
    vElem w (vPack w l) j = (l[j]?.getD 0) % 2 ^ w := by
  unfold vElem vPack
  rw [BitVec.toNat_ofNat, Nat.mod_eq_of_lt (Nat.lt_of_lt_of_le (pack_lt w l) (Nat.pow_le_pow_right (by omega) hl))]
  exact pack_elem w l j

theorem vElems_getElem? {w : Nat} (v : VReg) {j : Nat} (h : j < lanes w) : (vElems w v)[j]? = some (vElem w v j) :=
  elems_getElem? w _ _ _ h

@[simp] theorem vElems_length (w : Nat) (v : VReg) : (vElems w v).length = lanes w := elems_length _ _ _

theorem maskBits_getElem? {n m j : Nat} (h : j < n) : (maskBits n m)[j]? = some (m.testBit j) := by
  unfold maskBits
  rw [List.getElem?_map, elems_getElem? 1 n m j h]
  simp [Nat.testBit, Nat.shiftRight_eq_div_pow]

@[simp] theorem maskBits_length (n m : Nat) : (maskBits n m).length = n := by simp [maskBits]

/-- Computations without flags and draws leave both alone, element by element. -/
theorem masked_pure {α : Type} (z : Bool) (g : α → Nat) (e : FpEnv) : ∀ (bs : List Bool) (xs : List α) (os : List Nat),
    (masked z (fun x => pure (g x)) bs xs os).run e =
      ((bs.zip (xs.zip os)).map (fun p => if p.1 then g p.2.1 else if z then 0 else p.2.2), e)
  | b :: bs, x :: xs, o :: os => by
    simp only [masked]
    cases b
    · simp only [Bool.false_eq_true, if_false]
      rw [F.bind_run, F.pure_run, F.bind_run, masked_pure z g e bs xs os]
      rfl
    · simp only [if_true]
      rw [F.bind_run, F.pure_run, F.bind_run, masked_pure z g e bs xs os]
      rfl
  | [], _, _ => rfl
  | _ :: _, [], _ => rfl
  | _ :: _, _ :: _, [] => rfl

theorem SMap_set_set {α : Type} : ∀ (m : SMap α) (k : Nat) (v w : α), SMap.set (SMap.set m k v) k w = SMap.set m k w
  | [], k, v, w => by simp [SMap.set]
  | (j, u) :: m, k, v, w => by
    simp only [SMap.set]
    split
    · simp [SMap.set]
    · split
      · simp [SMap.set]
      · rename_i h1 h2
        simp [SMap.set, h1, h2, SMap_set_set m k v w]

/-- Two updates of the issuing thread are the last one. -/
theorem State.setMe_setMe (s : State) (t u : Thread) : (s.setMe t).setMe u = s.setMe u := by
  simp only [State.setMe, State.setThread, State.setCore, State.core, State.cid, State.tid, Core.setThread, SMap.get_set_self,
    SMap_set_set]

/-- An elementwise instruction: what it writes, and what the flags and SEED become. -/
theorem vecMap_run {α : Type} (d : BitVec 5) (w : Nat) (xs : List α) (f : α → F Nat) (s : State) :
    vecMap d w xs f s = .ok ()
      (let r := (masked s.vzero f (maskBits (lanes w) s.vmask.toNat) xs (vElems w (s.me.getV d.toNat))).run ⟨0, s.me.seed⟩
       s.setMe { s.me.setV d.toNat (vPack w r.1) with seed := r.2.seed, fflags := s.me.fflags ||| word r.2.flags }) := by
  simp only [vecMap, M.bind_get_run]
  rw [M.bind_run, liftF_run]
  simp only [writeV_run, State.setMe_setMe, State.me_setMe]
  rfl

end Sys2Proof.Machine
end

