-- ==== Sys2Proof/Laws/Does.lean ====
section
/-! SUPPORT. From a meaning's effect to how its word ends: one lemma for each shape of word that Safety names, so that a
statement about a word cites it and unfolds nothing. -/

namespace Sys2Proof.Machine

/-- A word of two scalar sources does what its function gives. -/
theorem binDoes {i : BitVec 5 → BitVec 5 → BitVec 5 → Instr} {f : Word → Word → Word} {P : Word → Word → Word → Prop}
    (h : ∀ d a b s, exec (i d a b) s = run (i d a b) s (intOp d a b f)) (hP : ∀ x y, P x y (f x y)) : BinaryDoes i P := by
  intro s d a b x y s1 s2 hl h1 h2
  refine ⟨f x y, hP x y, fun s3 h3 => ?_⟩
  show exec _ _ = _
  rw [h]
  refine run_ok hl ?_
  unfold intOp; rw [M.bind_ok h1, M.bind_ok h2, h3]

/-- A word of one scalar source does what its function gives. -/
theorem unDoes {i : BitVec 5 → BitVec 5 → Instr} {f : Word → Word} {P : Word → Word → Prop}
    (h : ∀ d a s, exec (i d a) s = run (i d a) s (intUn d a f)) (hP : ∀ x, P x (f x)) : UnaryDoes i P := by
  intro s d a x s1 hl h1
  refine ⟨f x, hP x, fun s3 h3 => ?_⟩
  show exec _ _ = _
  rw [h]
  refine run_ok hl ?_
  unfold intUn; rw [M.bind_ok h1, h3]

/-- A shift amount is the low six bits. -/
theorem shamt_eq (b : Word) : shamt b = b.toNat % 64 := by
  simp [shamt, fld]

/-- Reading a source leaves the thread as it was. -/
theorem me_readX {n : BitVec 5} {s s1 : State} {x : Word} (h : readX n s = .ok x s1) : s1.me = s.me := by
  rcases readX_ends h with h | ⟨a, rest, _, _, _, _, h⟩
  · rw [h]
  · rw [h, State.me_setMyCore]; rfl

/-- Reading a source leaves the issue as it was. -/
theorem issue_readX {n : BitVec 5} {s s1 : State} {x : Word} (h : readX n s = .ok x s1) : s1.issue = s.issue := by
  rcases readX_ends h with h | ⟨a, rest, _, _, _, _, h⟩ <;> rw [h]; rfl

/-- Reading a source leaves the rounding mode as it was. -/
theorem rmode_readX {n : BitVec 5} {s s1 : State} {x : Word} (h : readX n s = .ok x s1) : s1.rmode = s.rmode := by
  unfold State.rmode; rw [me_readX h, issue_readX h]

/-- An arithmetic result is written to d. -/
theorem liftPath {d : BitVec 5} {f : F Nat} {r : Nat} {e : FpEnv} {s s1 : State} (hf : f.run ⟨0, s.me.seed⟩ = (r, e))
   (h : writeX d (word r) (s.afterF e) = .ok () s1) : (liftF f >>= fun r => writeX d (word r)) s = .ok () s1 := by
  have : liftF f s = .ok r (s.afterF e) := by
    unfold liftF
    simp only [M.bind_get_run]
    rw [hf]; rfl
  rw [M.bind_ok this, h]

/-- A legal word whose effect goes through completes. -/
theorem completes_of {i : Instr} {s t : State} {m : M Unit} (h : exec i s = run i s m) (hl : legalHere s i = true)
    (hm : m s = .ok () t) : Completes i s t := by
  unfold Completes; rw [h]; exact run_ok hl hm

/-- A legal word whose effect traps traps. -/
theorem traps_of {i : Instr} {s s1 : State} {m : M Unit} {c : Cause} {a : Word} (h : exec i s = run i s m) (hl : legalHere s i = true)
    (hm : m s = .error (.trap c a false) s1) : Traps i s c a := by
  unfold Traps; rw [h]; exact run_trap hl hm

/-- A legal word whose effect waits_of waits_of. -/
theorem waits_of {i : Instr} {s s1 : State} {m : M Unit} {w : Wait} (h : exec i s = run i s m) (hl : legalHere s i = true)
    (hm : m s = .error (.wait w) s1) : Waits i s w := by
  unfold Waits; rw [h]; exact run_wait hl hm

/-- One part is stored as storeParts stores it. -/
theorem writePart_ok {x : Xlat} {va n v : Nat} {s s2 : State} (h : storeParts s [x] [((va, n), v)] = some s2) :
    writePart x va n v s = .ok () s2 := by
  have := writeEach_ok h
  rw [writeEach] at this
  rw [M.bind_run] at this
  cases h : writePart x va n v s with
  | ok a t => rw [h] at this; exact this
  | error e t => rw [h] at this; exact absurd this (by simp)

/-- An atomic access that is reachable reads, stores and requests. -/
theorem gAtomic_ok {va n old : Nat} {regs : List Nat} {f : Nat → Option Nat} {p : Xlat} {s s5 : State}
    (hr : Reachable .atomic (after pin s) [(va, n)] [p])
    (hv : readPa ((after pin s).touched [p]) ((after pin s).touched [p]).mySeed p.pa n = some old)
    (hw : (match f old with | some v => storeParts ((after pin s).touched [p]) [p] [((va, n), v)] = some s5 | none => s5 = (after pin s).compared p)) :
    gAtomic va n regs f s = .ok old (after (request 1 regs) s5) := by
  unfold gAtomic
  rw [M.bind_ok (pin_run s), M.bind_get_run, M.bind_ok (checkParts_ok hr)]
  show (readHome p va n >>= _) _ = _
  rw [M.bind_ok (readHome_ok hv)]
  cases hf : f old with
  | none => rw [hf] at hw; subst hw; rfl
  | some v => rw [hf] at hw; simp only; rw [M.bind_ok (writePart_ok hw)]; rfl

/-- What stops an access of one part stops its word. -/
theorem partStops {i : Instr} {s s1 : State} {m : M Unit} {k : List Xlat → M Unit} {nd : Rights} {b : Bool} {va n : Nat}
    (h : exec i s = run i s m) (hl : legalHere s i = true) (hm : m s = (checkParts nd b [(va, n)] >>= k) s1) :
    PartStops i nd s s1 va := by
  intro ho
  refine ⟨fun hw => ?_, fun hw => ⟨fun c hc => ?_, fun x hx => ⟨fun hh => ?_, fun hh hp => ?_⟩⟩⟩
  · refine waits_of h hl (s1 := s1) ?_
    rw [hm]; exact M.bind_error (checkParts_one_walk ho hw)
  · rw [h]
    rw [M.bind_run, checkParts_one_error ho hw hc] at hm
    unfold xlatFault at hm
    split
    · rename_i e; rw [if_pos e] at hm
      simp only [M.throw_run] at hm
      simp [run, hl, hm]
    · rename_i e; rw [if_neg e] at hm
      exact run_trap hl hm
  · refine waits_of h hl (s1 := s1) ?_
    rw [hm]; exact M.bind_error (checkParts_one_held ho hw hx hh)
  · refine waits_of h hl (s1 := s1) ?_
    rw [hm]; exact M.bind_error (checkParts_one_full ho hw hx hh hp)

/-- A load does what LoadDoes says. -/
theorem loadDoes {i : BitVec 5 → BitVec 5 → BitVec 12 → Instr} {size : Nat} {ext : Nat → Word}
    (h : ∀ d a o s, exec (i d a o) s = run (i d a o) s (ldOp d a o size ext)) : LoadDoes i size ext := by
  intro s d a o x s1 hl h1 va
  refine ⟨?_, ?_⟩
  · intro hm
    refine traps_of (h _ _ _ _) hl (s1 := s1) ?_
    unfold ldOp
    rw [M.bind_ok h1]
    exact M.bind_error (M.need_trap (by simp only [beq_eq_false_iff_ne]; exact hm) _ _ _)
  · intro hm
    have e : ldOp d a o size ext s = (checkParts .read true [(va, size)] >>= fun xs => readParts xs [(va, size)] >>= fun vs => requestLoad 1 [d.toNat] >>= fun _ => writeX d (ext (vs.headD 0))) s1 := by
      unfold ldOp
      rw [M.bind_ok h1, M.bind_ok (M.need_run (by simp only [beq_iff_eq]; exact hm) _ _ _)]
      unfold gRead; simp only [bind_assoc]; rfl
    refine ⟨partStops (h _ _ _ _) hl e, ?_⟩
    intro p hr s2
    refine ⟨?_, ?_⟩
    · intro hv
      refine traps_of (h _ _ _ _) hl (s1 := s2) ?_
      rw [e, M.bind_ok (checkParts_ok hr)]
      exact M.bind_error (readParts_poisoned hr.atOnce.1 hv)
    · intro v s3 hv h2
      refine completes_of (h _ _ _ _) hl ?_
      rw [e, M.bind_ok (checkParts_ok hr)]
      have hrd : Reads s2 [p] [(va, size)] [v] := ⟨rfl, by simp [hv]⟩
      rw [M.bind_ok (readParts_ok hr.atOnce hrd), M.bind_ok (requestLoad_run _ _ _)]
      exact h2

/-- A store does what StoreDoes says. -/
theorem storeDoes {i : BitVec 5 → BitVec 5 → BitVec 12 → Instr} {size : Nat}
    (h : ∀ d a o s, exec (i d a o) s = run (i d a o) s (stOp d a o size)) : StoreDoes i size := by
  intro s d a o v x s1 s2 hl h1 h2 va s3
  refine ⟨?_, ?_⟩
  · intro hm
    refine traps_of (h _ _ _ _) hl (s1 := s2) ?_
    unfold stOp
    rw [M.bind_ok h1, M.bind_ok h2]
    exact M.bind_error (M.need_trap (by simp only [beq_eq_false_iff_ne]; exact hm) _ _ _)
  · intro hm
    have e : stOp d a o size s = (checkParts .write true [(va, size)] >>= fun xs => writeParts xs [((va, size), v.toNat % 256 ^ size)] >>= fun _ => request 1 []) s3 := by
      unfold stOp
      rw [M.bind_ok h1, M.bind_ok h2, M.bind_ok (M.need_run (by simp only [beq_iff_eq]; exact hm) _ _ _)]
      unfold gWrite; rw [M.bind_ok (gateStores_run 1 _)]; rfl
    refine ⟨partStops (h _ _ _ _) hl e, ?_⟩
    intro p hr s4
    refine ⟨?_, ?_⟩
    · intro hw
      have : stOp d a o size s =
          .error (if s4.gates then .trap .uncorrectableError (word va) false else .refused (word va)) s4 := by
        rw [e, M.bind_ok (checkParts_ok hr)]
        exact M.bind_error (writeParts_refused hr.atOnce.1 hw)
      split at this
      · rename_i hg
        rw [if_pos hg]; exact traps_of (h _ _ _ _) hl this
      · rename_i hg
        rw [if_neg hg, h]; simp [run, hl, this]
    · intro s5 hw
      refine completes_of (h _ _ _ _) hl ?_
      rw [e, M.bind_ok (checkParts_ok hr), M.bind_ok (writeParts_ok hr.atOnce rfl hw)]
      exact request_run 1 [] s5

/-- An atomic does what AtomicDoes says. -/
theorem atomicDoes {i : BitVec 5 → BitVec 5 → BitVec 5 → BitVec 2 → Instr} {op : Nat} {f : Nat → Nat → Nat → Nat} {ret : Nat → Nat → Word}
    (h : ∀ d a b sz s, exec (i d a b sz) s = run (i d a b sz) s (amoOp op d a b sz))
    (hf : ∀ w old y, atomValue op w old y = f w old y) (hr : ∀ w old, atomResult op w old = ret w old) : AtomicDoes i f ret := by
  intro s d a b sz x y s1 s2 hl h1 h2 n s3
  refine ⟨?_, ?_⟩
  · intro hm
    refine traps_of (h _ _ _ _ _) hl (s1 := s2) ?_
    unfold amoOp
    rw [M.bind_ok h1, M.bind_ok h2]
    exact M.bind_error (M.need_trap (by simp only [beq_eq_false_iff_ne]; exact hm) _ _ _)
  · intro hm
    refine ⟨?_, ?_⟩
    · have : ∃ k, amoOp op d a b sz s = (checkParts .atomic true [(x.toNat, n)] >>= k) s3 := by
        unfold amoOp
        rw [M.bind_ok h1, M.bind_ok h2, M.bind_ok (M.need_run (by simp only [beq_iff_eq]; exact hm) _ _ _)]
        unfold gAtomic; simp only [bind_assoc]; rw [M.bind_ok (pin_run _), M.bind_get_run]; exact ⟨_, rfl⟩
      obtain ⟨k, hk⟩ := this
      exact partStops (h _ _ _ _ _) hl hk
    · intro p hre s4
      refine ⟨?_, ?_⟩
      · intro hv
        refine traps_of (h _ _ _ _ _) hl (s1 := s4) ?_
        unfold amoOp
        rw [M.bind_ok h1, M.bind_ok h2, M.bind_ok (M.need_run (by simp only [beq_iff_eq]; exact hm) _ _ _)]
        refine M.bind_error ?_
        unfold gAtomic
        rw [M.bind_ok (pin_run _), M.bind_get_run, M.bind_ok (checkParts_ok (s := after pin s2) (ps := [(x.toNat, atomSize sz)]) hre)]
        show (readHome _ _ _ >>= _) _ = _
        refine M.bind_error ?_
        have hv' : readPa s4 s4.mySeed p.pa (atomSize sz) = none := hv
        have : readHome p x.toNat (atomSize sz) s4 = .error (.trap .uncorrectableError (word x.toNat) false) s4 := by
          simp [readHome, partValue, hv']
        rw [this]; simp [word]
      · intro old s5 s6 hv hw h6
        refine completes_of (h _ _ _ _ _) hl ?_
        unfold amoOp
        rw [M.bind_ok h1, M.bind_ok h2, M.bind_ok (M.need_run (by simp only [beq_iff_eq]; exact hm) _ _ _)]
        rw [M.bind_ok (gAtomic_ok (n := atomSize sz) (s := s2) (s5 := s5) hre hv (by simp only [hf]; exact hw)), hr]
        exact h6

/-- The hints of a load always go through. -/
theorem hints_run (r g : BitVec 1) (xs : List Xlat) (s : State) : hints r g xs s = .ok () (after (hints r g xs) s) := rfl

/-- Aligned addresses pass. -/
theorem checkAligned_ok {w : Nat} {as : List Nat} {s : State} (h : ∀ va ∈ as, va % w = 0) : checkAligned w as s = .ok () s := by
  have : as.find? (fun va => va % w != 0) = none := by
    rw [List.find?_eq_none]; intro a ha; simp [h a ha]
  simp [checkAligned, this]

/-- Widening converts the elements in order. -/
theorem widen_eq (src dst : Fmt) (es : List Nat) : execVldp.widen src dst es = eachF (cvtFF dst src false 0 false) es := by
  induction es with
  | nil => rfl
  | cons e es ih => rw [execVldp.widen, eachF, ih]

/-- Narrowing converts the elements in order. -/
theorem narrow_eq (src dst : Fmt) (m : Nat) (sat : Bool) (es : List Nat) : execVstp.narrow src dst m sat es = eachF (cvtFF dst src true m sat) es := by
  induction es with
  | nil => rfl
  | cons e es ih => rw [execVstp.narrow, eachF, ih]

/-- An arithmetic effect in a thread. -/
theorem liftF_ok {α : Type} {f : F α} {w : α} {e : FpEnv} {s : State} (h : f.run ⟨0, s.me.seed⟩ = (w, e)) : liftF f s = .ok w (s.afterF e) := by
  unfold liftF
  simp only [M.bind_get_run]
  rw [h]; rfl

/-- An open local access passes its checks. -/
theorem localCheck_open {o n align : Nat} {s : State} (h : LocalOpen s.myCore o n align) : localCheck o n align s = .ok () s :=
  localCheck_ok h.1 h.2.1 h.2.2

/-- What a local access stops on stops its word. -/
theorem localStops {i : Instr} {s s1 : State} {m : M Unit} {o n align : Nat} (h : exec i s = run i s m) (hl : legalHere s i = true)
    (hm : ∃ k : Unit → M Unit, m s = (localCheck o n align >>= k) s1) : LocalStops i s s1.myCore o n align := by
  obtain ⟨k, hm⟩ := hm
  refine ⟨fun h1 => ?_, fun h1 h2 => ?_, fun h1 h2 h3 => ?_⟩
  · refine traps_of h hl (s1 := s1) ?_
    rw [hm]; refine M.bind_error ?_
    unfold localCheck
    exact M.bind_error (M.need_trap (by simp; omega) _ _ _)
  · refine traps_of h hl (s1 := s1) ?_
    rw [hm]; refine M.bind_error ?_
    unfold localCheck
    rw [M.bind_ok (M.need_run (by simp; omega) _ _ _)]
    exact M.bind_error (M.need_trap (by simpa using h2) _ _ _)
  · refine traps_of h hl (s1 := s1) ?_
    rw [hm]; refine M.bind_error ?_
    unfold localCheck
    rw [M.bind_ok (M.need_run (by simp; omega) _ _ _), M.bind_ok (M.need_run (by simp [h2]) _ _ _)]
    have hf : localFault s1.myCore o n = some (.localProtection, word (Nat.max o (s1.myCore.xb + s1.myCore.xw))) := by
      unfold localFault; rw [if_neg (by omega), if_pos (by omega)]
    simp [checkLocal, hf]

/-- A load qualifier that is served goes on. -/
theorem loadQual_ok {q g n : Nat} {s : State} (h : q ≠ 0 → Served s g n true) : loadQual q g n s = .ok () s := by
  unfold loadQual
  by_cases hq : q = 0
  · simp [hq]
  · obtain ⟨a, b⟩ := h hq
    simp [hq, waitGranules, a, b]

/-- A load qualifier that is not served waits_of. -/
theorem loadQual_wait {q g n : Nat} {s : State} (hq : q ≠ 0) (h : ¬ Served s g n true) :
    loadQual q g n s = .error (.wait (.granules g n true)) s := by
  unfold loadQual Served at *
  simp only [hq, if_false, waitGranules, M.bind_get_run]
  rw [if_neg]; rfl
  simpa using h

/-- A store qualifier that is served goes on. -/
theorem storeQual_ok {q g n : Nat} {s : State} (h : q = 2 → Served s g n false) : storeQual q g n s = .ok () s := by
  unfold storeQual
  by_cases hq : q = 2
  · obtain ⟨a, b⟩ := h hq
    simp [hq, waitGranules, a, b]
  · simp [hq]

/-- A store qualifier that is not served waits_of. -/
theorem storeQual_wait {q g n : Nat} {s : State} (hq : q = 2) (h : ¬ Served s g n false) :
    storeQual q g n s = .error (.wait (.granules g n false)) s := by
  unfold storeQual Served at *
  simp only [hq, if_true, waitGranules, M.bind_get_run]
  rw [if_neg]; rfl
  simpa using h

/-- Logging granules always goes through. -/
theorem logGranules_run (g n : Nat) (s : State) : logGranules g n s = .ok () (after (logGranules g n) s) := by
  unfold logGranules after
  simp only [M.bind_get_run]
  split
  · cases s.myCore.act with
    | none => rfl
    | some a =>
      simp only
      split
      · rw [pin_run]
      · rfl
  · rfl

/-- Setting full bits always goes through. -/
theorem setFE_run (b : Bool) (g n : Nat) (s : State) : setFE b g n s = .ok () (after (setFE b g n) s) := by
  unfold setFE after; rw [M.bind_ok (logGranules_run g n s)]; rfl

/-- A local write always goes through. -/
theorem lWrite_run (o n v : Nat) (s : State) : lWrite o n v s = .ok () (after (lWrite o n v) s) := by
  unfold lWrite after
  rw [M.bind_ok (logGranules_run _ _ s), M.bind_ok (M.modCore_run _ _), recordStore_run]

/-- The sizes of the local size codes. -/
theorem localSize_eq (sz : BitVec 3) : localSize sz = [1, 1, 2, 2, 4, 4, 8, 16].getD sz.toNat 0 := by
  revert sz; decide

/-- A local load does what LocalLoadDoes says. -/
theorem localLoadDoes {i : BitVec 5 → BitVec 5 → BitVec 3 → BitVec 10 → Instr} {q : Nat} (_ : q < 3)
    (h : ∀ d a sz o s, exec (i d a sz o) s = run (i d a sz o) s (lldOp d a sz o q)) : LocalLoadDoes i q := by
  intro s d a sz o x s1 hl h1
  rw [← localSize_eq]
  intro n off v
  have pre : ∃ k : Unit → M Unit, k = (fun _ => loadQual q (off / 16) 1 >>= fun _ => lRead off n >>= fun w => (if q = 2 then setFE false (off / 16) 1 >>= fun _ => (writeX d (loadExt sz w) >>= fun _ => if sz = 7#3 then writeX (d + 1) (word (w / 2 ^ 64)) else pure ()) else (writeX d (loadExt sz w) >>= fun _ => if sz = 7#3 then writeX (d + 1) (word (w / 2 ^ 64)) else pure ()))) ∧ lldOp d a sz o q s = (localCheck off n n >>= k) s1 := by
    refine ⟨_, rfl, ?_⟩
    unfold lldOp
    rw [M.bind_ok h1]; rfl
  obtain ⟨k, hk, e⟩ := pre
  refine ⟨localStops (h _ _ _ _ _) hl ⟨_, e⟩, fun ho => ⟨fun hq hs => ?_, fun hs => ?_⟩⟩
  · refine waits_of (h _ _ _ _ _) hl (s1 := s1) ?_
    rw [e, M.bind_ok (localCheck_open ho), hk]
    exact M.bind_error (loadQual_wait hq hs)
  · intro s2 s3 s4 h3 h4
    refine completes_of (h _ _ _ _ _) hl ?_
    rw [e, M.bind_ok (localCheck_open ho), hk]
    simp only
    rw [M.bind_ok (loadQual_ok hs), M.bind_ok (show lRead off n s1 = .ok v s1 from rfl)]
    have e4 : (writeX d (loadExt sz v) >>= fun _ => (if sz = 7#3 then writeX (d + 1) (word (v / 2 ^ 64)) else pure ())) s2 = .ok () s4 := by
      rw [M.bind_ok h3]
      by_cases h7 : sz = 7#3
      · rw [if_pos h7] at h4 ⊢; exact h4
      · rw [if_neg h7] at h4 ⊢; subst h4; rfl
    by_cases h2 : q = 2
    · rw [if_pos h2, M.bind_ok (setFE_run _ _ _ _)]
      have : s2 = after (setFE false (off / 16) 1) s1 := if_pos h2
      rw [← this]; exact e4
    · rw [if_neg h2]
      have : s2 = s1 := if_neg h2
      rw [← this]; exact e4

/-- A local store does what LocalStoreDoes says. -/
theorem localStoreDoes {i : BitVec 5 → BitVec 5 → BitVec 3 → BitVec 10 → Instr} {q : Nat} (_ : q < 3)
    (h : ∀ d a sz o s, exec (i d a sz o) s = run (i d a sz o) s (lstOp d a sz o q)) : LocalStoreDoes i q := by
  intro s d a sz o v u x s1 s2 s3 hl h1 h2 h3
  rw [← localSize_eq]
  intro n off
  have pre : ∃ k : Unit → M Unit, k = (fun _ => storeQual q (off / 16) 1 >>= fun _ => lWrite off n ((v.toNat + 2 ^ 64 * u.toNat) % 256 ^ n) >>= fun _ => if q ≠ 0 then setFE true (off / 16) 1 else pure ()) ∧ lstOp d a sz o q s = (localCheck off n n >>= k) s3 := by
    refine ⟨_, rfl, ?_⟩
    unfold lstOp
    rw [M.bind_ok h1, M.bind_ok h2]
    by_cases h7 : sz = 7#3
    · rw [if_pos h7] at h3 ⊢
      exact (M.bind_ok h3).trans rfl
    · rw [if_neg h7] at h3 ⊢
      obtain ⟨rfl, rfl⟩ := h3
      rfl
  obtain ⟨k, hk, e⟩ := pre
  refine ⟨localStops (h _ _ _ _ _) hl ⟨_, e⟩, fun ho => ⟨fun hq hs => ?_, fun hs => ?_⟩⟩
  · refine waits_of (h _ _ _ _ _) hl (s1 := s3) ?_
    rw [e, M.bind_ok (localCheck_open ho), hk]
    exact M.bind_error (storeQual_wait hq hs)
  · refine completes_of (h _ _ _ _ _) hl ?_
    rw [e, M.bind_ok (localCheck_open ho), hk]
    simp only
    rw [M.bind_ok (storeQual_ok hs), M.bind_ok (lWrite_run _ _ _ _)]
    by_cases h0 : q = 0
    · simp [h0]
    · simp only [h0, ne_eq, not_false_iff, if_true]; exact setFE_run _ _ _ _

/-- A branch does what BranchDoes says. -/
theorem branchDoes {i : BitVec 5 → BitVec 5 → BitVec 15 → Instr} {g : Word → Word → Bool} {f : Word → Word → Prop}
    (h : ∀ a b o s, exec (i a b o) s = run (i a b o) s (branch a b o g)) (hg : ∀ x y, g x y = true ↔ f x y) : BranchDoes i f := by
  intro s a b o x y s1 s2 hl h1 h2
  have e : s2.me.pc = s.me.pc := by rw [me_readX h2, me_readX h1]
  refine ⟨fun hf => ?_, fun hf => ?_⟩
  · refine completes_of (h _ _ _ _) hl ?_
    unfold branch
    rw [M.bind_ok h1, M.bind_ok h2, if_pos ((hg _ _).2 hf), ← e]; rfl
  · refine completes_of (h _ _ _ _) hl ?_
    unfold branch
    rw [M.bind_ok h1, M.bind_ok h2, if_neg (fun hh => hf ((hg _ _).1 hh))]; rfl

/-- An open state register has a value. -/
theorem sregOpen_some {s : State} {n : Nat} (h : SregOpen s n) : ∃ v, sregValue s n = some v := by
  have := h.1
  simp only [List.mem_cons, List.not_mem_nil, or_false] at this
  rcases this with h | h | h | h | h | h | h | h | h | h | h | h | h | h | h | h | h | h <;> (rw [h]; exact ⟨_, rfl⟩)

/-- Only the listed state registers have a value. -/
theorem sregValue_listed {s : State} {n : Nat} {v : Word} (h : sregValue s n = some v) : n ∈ [0x000, 0x001, 0x002, 0x003, 0x004, 0x005, 0x006, 0x007, 0x008, 0x010, 0x011, 0x018, 0x019, 0x01A, 0x020, 0x021,
      0x030, 0x031] := by
  unfold sregValue at h
  simp only at h
  split at h <;> first | (simp at h; done) | simp

/-- An open state register opens. -/
theorem sregOpen_yes {s : State} {n : Nat} {w : Bool} {v : Word} (h : SregOpen s n) (hw : w = true → ¬ SregRo n) (hv : sregValue s n = some v) :
    sregOpen n w s = .ok v s := by
  unfold sregOpen
  simp only [M.bind_get_run, hv]
  rw [M.bind_ok (M.need_run _ _ _ _)]; rfl
  obtain ⟨h1, h2, h3⟩ := h
  have a1 : (s.isTh && sregNotTh n) = false := by
    cases ht : s.isTh with
    | false => rfl
    | true => have := h2 ht; simpa [sregNotTh] using this
  have a2 : (!sregSup n || s.sup) = true := by
    by_cases hn : n = 0x030 ∨ n = 0x031
    · have := h3 hn; simp [State.sup, this]
    · simp [sregSup]; left; omega
  have a3 : (w && sregRo n) = false := by
    cases w with
    | false => rfl
    | true => have := hw rfl; simpa [sregRo, SregRo] using this
  rw [a1, a2, a3]; rfl

/-- A closed state register traps. -/
theorem sregOpen_no {s : State} {n : Nat} {w : Bool} (h : ¬ SregOpen s n ∨ (w = true ∧ SregRo n)) :
    sregOpen n w s = .error (.trap .illegalInstruction 0 false) s := by
  unfold sregOpen
  simp only [M.bind_get_run]
  cases hv : sregValue s n with
  | none => rfl
  | some v =>
    refine M.bind_error (M.need_trap ?_ _ _ _)
    cases hb : (!(s.isTh && sregNotTh n) && (!sregSup n || s.sup) && !(w && sregRo n)) with
    | false => rfl
    | true =>
      exfalso
      simp only [Bool.and_eq_true, Bool.not_eq_true'] at hb
      obtain ⟨⟨b1, b2⟩, b3⟩ := hb
      rcases h with h | ⟨h, h'⟩
      · apply h
        refine ⟨sregValue_listed hv, fun ht => ?_, fun hn => ?_⟩
        · rw [ht] at b1; simpa [sregNotTh] using b1
        · rcases hn with hn | hn <;> (subst hn; simpa [sregSup, State.sup] using b2)
      · rw [h] at b3
        have : sregRo n = true := by simpa [sregRo, SregRo] using h'
        simp [this] at b3

/-- A writing state-register word does what SregWriteDoes says. -/
theorem sregWriteDoes {i : BitVec 5 → BitVec 5 → BitVec 12 → Instr} {clr : Bool} {f : Word → Word → Word}
    (h : ∀ d a n s, exec (i d a n) s = run (i d a n) s (sregWrite d a n clr f)) : SregWriteDoes i clr f := by
  intro s d a n hl
  refine ⟨fun hn => ?_, fun ho hr x old s1 s2 h1 hv h2 => ?_⟩
  · refine traps_of (h _ _ _ _) hl (s1 := s) ?_
    unfold sregWrite
    exact M.bind_error (sregOpen_no (hn.elim .inl fun e => .inr ⟨rfl, e⟩))
  · refine completes_of (h _ _ _ _) hl ?_
    unfold sregWrite
    rw [M.bind_ok (sregOpen_yes ho (fun _ => hr) hv), M.bind_ok h1]
    exact h2

/-- A flush of reachable parts goes through. -/
theorem flushParts_ok {s s2 : State} : ∀ {ps : List (Nat × Nat)} {xs : List Xlat},
    (ps.any fun p => walkHeld s s.agent s.cid s.myCtx .read p.1) = false →
    ps.map (fun p => xlate s s.cid s.myCtx p.1 .read s.sup) = xs.map .ok → xs.any (partHeld s s.agent s.mySeed) = false →
    flushParts s ps s2 = .ok () (xs.foldl (fun u p =>
        let u := applyXlat u u.cid u.myCtx p
        dropReplicas (evictSector u (homeSlice u u.mySeed p.pa) (p.pa / 32)) (p.pa / 32)) s2) := by
  intro ps
  induction ps generalizing s2 with
  | nil => intro xs _ h _; cases xs with
    | nil => rfl
    | cons => simp at h
  | cons p ps ih =>
    intro xs hw h hh
    cases xs with
    | nil => simp at h
    | cons x xs =>
      simp only [List.map_cons, List.cons.injEq] at h
      simp only [List.any_cons, Bool.or_eq_false_iff] at hh hw
      rw [flushParts, h.1]
      simp only [hh.1, hw.1]
      exact (M.bind_ok (M.modify_run _ _)).trans (ih hw.2 h.2 hh.2)

/-- A good placement passes. -/
theorem checkPlaced_ok {f : Option (Cause × Word)} {s : State} (h : f = none) : checkPlaced f s = .ok () s := by subst h; rfl

/-- A barrier number in range passes. -/
theorem barNum_ok {x : Word} {s : State} (h : x.toNat < 128) : barNum x s = .ok x.toNat s := by
  have f1 : fld x 63 7 = 0 := by simp only [fld]; omega
  have f2 : fld x 6 0 = x.toNat := by simp only [fld]; omega
  unfold barNum; rw [f1, f2]; rfl

/-- A barrier number out of range traps. -/
theorem barNum_bad {x : Word} {s : State} (h : 128 ≤ x.toNat) : barNum x s = .error (.trap .operandRange 0 false) s := by
  have f1 : fld x 63 7 ≠ 0 := by simp only [fld]; have := x.isLt; omega
  unfold barNum; exact M.bind_error (M.need_trap (by simpa using f1) _ _ _)

/-- A thread that has joined its phase does not arrive again. -/
theorem arriveM_joined {b : Nat} {val : Option Word} {sw : Bool} {s : State} {j : BitVec 24 × Option Word} (h : joined b s.me.wait = some j) :
    arriveM b val sw s = .ok j s := by
  unfold arriveM; simp only [M.bind_get_run, h]; rfl

/-- An arrival at a barrier of the core. -/
theorem arriveM_local {b : Nat} {val : Option Word} {sw : Bool} {s : State} (h : joined b s.me.wait = none) (ht : (s.myCore.bar b).tout = false)
    (hw : s.me.wait ≠ .arrival b) (hg : (s.myCore.bar b).group = false) :
    arriveM b val sw s = .ok ((arriveAt (after pin s) s.cid b val sw).1, if ((arriveAt (after pin s) s.cid b val sw).2.myCore.bar b).phase = (arriveAt (after pin s) s.cid b val sw).1 then none else some ((arriveAt (after pin s) s.cid b val sw).2.myCore.bar b).result) (arriveAt (after pin s) s.cid b val sw).2 := by
  unfold arriveM; simp only [M.bind_get_run, h]
  refine (M.bind_ok (M.need_run (by simp [ht]) _ _ _)).trans ((M.bind_ok (pin_run _)).trans ?_)
  rw [if_neg hw, if_neg (by simp [hg])]
  rfl

/-- An open handle opens. -/
theorem openRing_ok {h : Word} {own : Bool} {s : State} (ho : RingOpen s h own) :
    openRing h own s = .ok (handleCore h, handleHdr h, ringHdr (s.core (handleCore h)) (handleHdr h)) s := by
  obtain ⟨a, b, c, w, d⟩ := ho
  unfold openRing
  simp only [M.bind_get_run]
  refine (M.bind_ok (M.need_run (by simp [a]) _ _ _)).trans ((M.bind_ok (M.need_run (by simp [b]) _ _ _)).trans ((M.bind_ok (M.need_run ?_ _ _ _)).trans ?_))
  · cases own with
    | false => rfl
    | true => simp [c]
  · rw [if_neg (by simp [w])]
    exact (M.bind_ok (checkPlaced_ok d)).trans rfl

/-- What a ring handle stops on stops its word. -/
theorem ringStops {i : Instr} {s s1 : State} {m : M Unit} {h : Word} {own : Bool} (he : exec i s = run i s m) (hl : legalHere s i = true)
    (hm : ∃ k : (Nat × Nat × RingHdr) → M Unit, m s = (openRing h own >>= k) s1) : RingStops i s s1 h own := by
  obtain ⟨k, hm⟩ := hm
  refine ⟨fun a => ?_, fun a b => ?_, fun a b c => ⟨fun w => ?_, fun w z l hf => ?_⟩⟩
  · refine traps_of he hl (s1 := s1) (hm.trans (M.bind_error ?_))
    unfold openRing
    simp only [M.bind_get_run]
    exact M.bind_error (M.need_trap (by simp [a]) _ _ _)
  · refine traps_of he hl (s1 := s1) (hm.trans (M.bind_error ?_))
    unfold openRing
    simp only [M.bind_get_run]
    refine (M.bind_ok (M.need_run (by simp [a]) _ _ _)).trans ?_
    by_cases hb : handleCore h < 768
    · refine (M.bind_ok (M.need_run (by simp [hb]) _ _ _)).trans (M.bind_error (M.need_trap ?_ _ _ _))
      rcases b with b | ⟨b, b'⟩
      · omega
      · simp [b, b']
    · exact M.bind_error (M.need_trap (by simp [hb]) _ _ _)
  · refine waits_of he hl (s1 := s1) (hm.trans (M.bind_error ?_))
    unfold openRing
    simp only [M.bind_get_run]
    refine (M.bind_ok (M.need_run (by simp [a]) _ _ _)).trans ((M.bind_ok (M.need_run (by simp [b]) _ _ _)).trans ((M.bind_ok (M.need_run ?_ _ _ _)).trans ?_))
    · cases own with
      | false => rfl
      | true => simp [c]
    · rw [if_pos w]; rfl
  · refine traps_of he hl (s1 := s1) (hm.trans (M.bind_error ?_))
    unfold openRing
    simp only [M.bind_get_run]
    refine (M.bind_ok (M.need_run (by simp [a]) _ _ _)).trans ((M.bind_ok (M.need_run (by simp [b]) _ _ _)).trans ((M.bind_ok (M.need_run ?_ _ _ _)).trans ?_))
    · cases own with
      | false => rfl
      | true => simp [c]
    · rw [if_neg (by simp [w])]
      refine M.bind_error ?_
      rw [hf]; rfl

/-- A law address in range names its place. -/
theorem lawAddr_ok {x : Word} {s : State} (h : LawInRange x) : lawAddr x s = .ok (lawPlace s x) s := by
  unfold lawAddr lawPlace bit
  cases hb : x.getLsbD 63 with
  | false => rfl
  | true =>
    have h0 := h hb
    have f1 : (fld x 62 18 == 0) = true := by simp only [fld]; simpa using h0
    have f2 : fld x 17 0 = x.toNat % 2 ^ 18 := by simp [fld]
    simp only [if_true]
    exact (M.bind_ok (M.need_run f1 _ _ _)).trans (by simp only [M.bind_get_run, f2]; rfl)

/-- A law address out of range traps. -/
theorem lawAddr_bad {x : Word} {s : State} (h : ¬ LawInRange x) : lawAddr x s = .error (.trap .addressRange x false) s := by
  unfold LawInRange at h
  have hb : x.getLsbD 63 = true := by by_cases hb : x.getLsbD 63 = true; exact hb; exact absurd (fun h' => absurd h' hb) h
  have h0 : x.toNat / 2 ^ 18 % 2 ^ 45 ≠ 0 := fun h0 => h (fun _ => h0)
  unfold lawAddr bit
  rw [if_pos hb]
  refine M.bind_error (M.need_trap ?_ _ _ _)
  simp only [fld]; simpa using h0

/-- What stops a law operation stops its word. -/
theorem lawStops_run {α : Type} {i : Instr} {s s1 : State} {m : M Unit} {e : LawStop} (h : exec i s = run i s m) (hl : legalHere s i = true)
    {k : α → M Unit} (hm : m s = ((lawStopM e : M α) >>= k) s1) : LawStops i s e := by
  cases e with
  | held w => exact waits_of h hl (hm.trans rfl)
  | full => exact waits_of h hl (hm.trans rfl)
  | fault c a =>
    show exec i s = _
    rw [h]
    by_cases hc : c = .notPresent
    · subst hc; rw [if_pos rfl]
      have : m s = .error (.absent a 3 false) s1 := hm
      simp [run, hl, this]
    · rw [if_neg hc]
      refine run_trap hl (s' := s1) (hm.trans ?_)
      cases c <;> first | rfl | exact absurd rfl hc

/-- A law word does what LawDoes says. -/
theorem lawDoes {i : Instr} {s s1 : State} {x : Word} {regs : List Nat} {f : LawChange} {fin : LawCell → LawEval → M Unit} {m : M Unit}
    (h : exec i s = run i s m) (hl : legalHere s i = true) (hm : m s = (lawM x regs f >>= fun p => fin p.1 p.2) s1) :
    LawDoes i s s1 x regs f fin := by
  unfold LawDoes
  intro s2
  refine ⟨fun hr => ?_, fun hr hp => ?_, fun hr hp => ⟨fun e he => ?_, fun c e s3 s4 hc h4 => ?_⟩⟩
  · exact traps_of h hl (hm.trans (M.bind_error (M.bind_error (lawAddr_bad hr))))
  · refine waits_of h hl (s1 := s2) (hm.trans (M.bind_error ?_))
    unfold lawM
    refine (M.bind_ok (lawAddr_ok hr)).trans ((M.bind_ok (pin_run _)).trans ?_)
    simp only [M.bind_get_run]
    rw [if_pos (by simp; exact hp)]; rfl
  · refine lawStops_run (α := LawCell × LawEval) (k := fun p => fin p.1 p.2) h hl (s1 := s2) (e := e) (hm.trans ?_)
    unfold lawM
    simp only [bind_assoc]
    refine (M.bind_ok (lawAddr_ok hr)).trans ((M.bind_ok (pin_run _)).trans ?_)
    simp only [M.bind_get_run]
    rw [if_neg (by simp; exact hp), he]
  · refine completes_of h hl (hm.trans ?_)
    refine (M.bind_ok (a := (c, e)) (s1 := after (request 1 regs) s3) ?_).trans h4
    unfold lawM
    refine (M.bind_ok (lawAddr_ok hr)).trans ((M.bind_ok (pin_run _)).trans ?_)
    simp only [M.bind_get_run]
    rw [if_neg (by simp; exact hp), hc]
    rfl

/-- A step that is due moves_of. -/
theorem moves_of {i : Instr} {e : Event} {s t : State} {f : State → Option State} (h : AtHand e s) (he : exec i s = runStep e s f) (hf : f s = some t) :
    Moves i s t := by
  unfold Moves; rw [he]; exact runStep_due h.2 hf

/-- A step that is not due waits_of. -/
theorem notDue_of {i : Instr} {e : Event} {s : State} {f : State → Option State} (h : AtHand e s) (he : exec i s = runStep e s f) (hf : f s = none) :
    NotDue i s := by
  unfold NotDue; rw [he]; simp [runStep, h.2, hf]

end Sys2Proof.Machine
end

