-- ==== Sys2Proof/Laws/PerInstr.lean ====
section
/-! SUPPORT. A statement for each instruction: the bits that its row of the opcode table fixes stand in its word. -/

namespace Sys2Proof.Laws.RowBits

set_option Elab.async false
set_option linter.unusedSimpArgs false

/-- Concatenation as arithmetic. -/
theorem cat_toNat {n m : Nat} (x : BitVec n) (y : BitVec m) : (x ++ y).toNat = x.toNat * 2 ^ m + y.toNat := by
  rw [BitVec.toNat_append, Nat.shiftLeft_eq, Nat.mul_comm, ← Nat.two_pow_add_eq_or_of_lt y.isLt]

/-- The fixed fields of an instruction's row: lowest bit, length, value. -/
def fixedBits : Instr → List (Nat × Nat × Nat)
  | .syscall => [(0, 31, 0)]
  | .tret => [(0, 32, 2147483649)]
  | .wfi => [(0, 31, 2)]
  | .pair .. => [(0, 20, 3), (25, 6, 0)]
  | .unpair .. => [(0, 20, 4), (25, 6, 0)]
  | .tlbinv .. => [(0, 10, 5), (20, 11, 0)]
  | .seedset .. => [(0, 15, 6), (20, 11, 0)]
  | .cflush .. => [(0, 10, 7), (20, 11, 0)]
  | .beq .. => [(25, 6, 1)]
  | .bne .. => [(25, 6, 2)]
  | .blt .. => [(25, 6, 3)]
  | .bge .. => [(25, 6, 4)]
  | .bltu .. => [(25, 6, 5)]
  | .bgeu .. => [(25, 6, 6)]
  | .jal .. => [(25, 6, 7)]
  | .jalr .. => [(25, 6, 8)]
  | .fork .. => [(0, 10, 0), (25, 6, 9)]
  | .join .. => [(0, 15, 1), (20, 11, 288)]
  | .tdone => [(0, 31, 301989890)]
  | .yield => [(0, 31, 301989891)]
  | .hbeat => [(0, 31, 301989892)]
  | .wfe .. => [(0, 10, 5), (15, 5, 0), (25, 6, 9)]
  | .sev .. => [(0, 15, 6), (20, 11, 288)]
  | .binit .. => [(0, 10, 0), (20, 11, 320)]
  | .barrive .. => [(0, 15, 1), (25, 6, 10)]
  | .bwait .. => [(0, 10, 2), (25, 6, 10)]
  | .bsync .. => [(0, 15, 3), (20, 11, 320)]
  | .bcomb .. => [(0, 10, 4), (25, 6, 10)]
  | .bswap .. => [(0, 15, 5), (20, 11, 320)]
  | .bquery .. => [(0, 15, 6), (25, 6, 10)]
  | .ldB .. => [(12, 3, 0), (25, 6, 11)]
  | .ldBu .. => [(12, 3, 1), (25, 6, 11)]
  | .ldH .. => [(12, 3, 2), (25, 6, 11)]
  | .ldHu .. => [(12, 3, 3), (25, 6, 11)]
  | .ldW .. => [(12, 3, 4), (25, 6, 11)]
  | .ldWu .. => [(12, 3, 5), (25, 6, 11)]
  | .ldD .. => [(12, 3, 6), (25, 6, 11)]
  | .ldQ .. => [(12, 3, 7), (25, 6, 11)]
  | .stB .. => [(12, 3, 0), (25, 6, 12)]
  | .stH .. => [(12, 3, 2), (25, 6, 12)]
  | .stW .. => [(12, 3, 4), (25, 6, 12)]
  | .stD .. => [(12, 3, 6), (25, 6, 12)]
  | .stQ .. => [(12, 3, 7), (25, 6, 12)]
  | .amoadd .. => [(0, 8, 0), (25, 6, 13)]
  | .amoand .. => [(0, 8, 1), (25, 6, 13)]
  | .amoor .. => [(0, 8, 2), (25, 6, 13)]
  | .amoxor .. => [(0, 8, 3), (25, 6, 13)]
  | .amomin .. => [(0, 8, 4), (25, 6, 13)]
  | .amomax .. => [(0, 8, 5), (25, 6, 13)]
  | .amominu .. => [(0, 8, 6), (25, 6, 13)]
  | .amomaxu .. => [(0, 8, 7), (25, 6, 13)]
  | .amoswap .. => [(0, 8, 8), (25, 6, 13)]
  | .amofadd .. => [(0, 8, 9), (25, 6, 13)]
  | .cas .. => [(0, 8, 10), (25, 6, 13)]
  | .cas2 .. => [(0, 10, 523), (25, 6, 13)]
  | .amoz .. => [(0, 8, 12), (25, 6, 13)]
  | .vld .. => [(0, 7, 0), (10, 5, 0), (25, 6, 14)]
  | .vst .. => [(0, 7, 1), (8, 7, 0), (25, 6, 14)]
  | .vlds .. => [(0, 7, 2), (25, 6, 14)]
  | .vsts .. => [(0, 7, 3), (8, 2, 0), (25, 6, 14)]
  | .vgath .. => [(0, 7, 4), (9, 1, 0), (25, 6, 14)]
  | .vscat .. => [(0, 7, 5), (8, 2, 0), (25, 6, 14)]
  | .vldp .. => [(0, 7, 6), (25, 6, 14)]
  | .vstp .. => [(0, 7, 7), (8, 2, 0), (25, 6, 14)]
  | .pref .. => [(0, 8, 8), (10, 5, 0), (20, 11, 448)]
  | .czero .. => [(0, 10, 9), (20, 11, 448)]
  | .lld .. => [(10, 2, 0), (25, 6, 15)]
  | .lldWf .. => [(10, 2, 1), (25, 6, 15)]
  | .lldWfc .. => [(10, 2, 2), (25, 6, 15)]
  | .lst .. => [(10, 2, 0), (25, 6, 16)]
  | .lstSf .. => [(10, 2, 1), (25, 6, 16)]
  | .lstWesf .. => [(10, 2, 2), (25, 6, 16)]
  | .vlld .. => [(0, 10, 0), (25, 6, 17)]
  | .vlst .. => [(0, 10, 1), (25, 6, 17)]
  | .lgath .. => [(0, 10, 2), (25, 6, 17)]
  | .xst .. => [(0, 15, 3), (25, 6, 17)]
  | .vxst .. => [(0, 15, 4), (25, 6, 17)]
  | .lamoadd .. => [(0, 10, 5), (25, 6, 17)]
  | .lcas .. => [(0, 10, 6), (25, 6, 17)]
  | .copy .. => [(0, 15, 0), (25, 6, 18)]
  | .copy2d .. => [(0, 15, 1), (25, 6, 18)]
  | .cstat .. => [(0, 15, 2), (25, 6, 18)]
  | .fewait .. => [(0, 10, 3), (20, 11, 576)]
  | .feset .. => [(0, 10, 4), (20, 11, 576)]
  | .feclr .. => [(0, 10, 5), (20, 11, 576)]
  | .subs .. => [(0, 15, 6), (25, 6, 18)]
  | .unsubs .. => [(0, 15, 7), (25, 6, 18)]
  | .sopen .. => [(0, 10, 0), (20, 11, 608)]
  | .spop .. => [(0, 15, 1), (25, 6, 19)]
  | .vspop .. => [(0, 15, 2), (25, 6, 19)]
  | .sadv .. => [(0, 10, 3), (20, 11, 608)]
  | .stend .. => [(0, 15, 4), (25, 6, 19)]
  | .sfib .. => [(0, 15, 5), (25, 6, 19)]
  | .sclose .. => [(0, 15, 6), (20, 11, 608)]
  | .rtick .. => [(0, 15, 0), (25, 6, 20)]
  | .rput .. => [(0, 10, 1), (25, 6, 20)]
  | .rtake .. => [(0, 15, 2), (25, 6, 20)]
  | .rrel .. => [(0, 15, 3), (25, 6, 20)]
  | .kroute .. => [(0, 10, 4), (25, 6, 20)]
  | .lwrd .. => [(0, 15, 0), (25, 6, 21)]
  | .lwrdx .. => [(0, 15, 1), (25, 6, 21)]
  | .lwpeek .. => [(0, 15, 2), (25, 6, 21)]
  | .lwadd .. => [(0, 10, 3), (25, 6, 21)]
  | .lwset .. => [(0, 10, 4), (25, 6, 21)]
  | .lwinit .. => [(0, 10, 5), (25, 6, 21)]
  | .lwdep .. => [(0, 10, 6), (20, 11, 672)]
  | .lwnow .. => [(0, 15, 7), (25, 6, 21)]
  | .lwstep .. => [(0, 10, 8), (25, 6, 21)]
  | .lwsweep .. => [(0, 10, 9), (25, 6, 21)]
  | .msend .. => [(0, 15, 0), (25, 6, 22)]
  | .hend => [(0, 31, 738197505)]
  | .anxput .. => [(0, 10, 2), (20, 11, 704)]
  | .anxend => [(0, 31, 738197507)]
  | .fence .. => [(0, 20, 0), (22, 9, 184)]
  | .isync => [(0, 31, 771751937)]
  | .bkany .. => [(15, 5, 0), (25, 6, 24)]
  | .bkall .. => [(15, 5, 1), (25, 6, 24)]
  | .srrd .. => [(12, 8, 0), (25, 6, 25)]
  | .srwr .. => [(12, 3, 1), (25, 6, 25)]
  | .srset .. => [(12, 3, 2), (25, 6, 25)]
  | .srclr .. => [(12, 3, 3), (25, 6, 25)]
  | .vx .. => [(0, 13, 0), (25, 7, 30)]
  | .rep .. => [(0, 13, 0), (25, 7, 31)]
  | .add .. => [(0, 10, 0), (25, 6, 32)]
  | .sub .. => [(0, 10, 1), (25, 6, 32)]
  | .and .. => [(0, 10, 2), (25, 6, 32)]
  | .or .. => [(0, 10, 3), (25, 6, 32)]
  | .xor .. => [(0, 10, 4), (25, 6, 32)]
  | .sll .. => [(0, 10, 5), (25, 6, 32)]
  | .srl .. => [(0, 10, 6), (25, 6, 32)]
  | .sra .. => [(0, 10, 7), (25, 6, 32)]
  | .mul .. => [(0, 10, 8), (25, 6, 32)]
  | .mulh .. => [(0, 10, 9), (25, 6, 32)]
  | .mulhu .. => [(0, 10, 10), (25, 6, 32)]
  | .div .. => [(0, 10, 11), (25, 6, 32)]
  | .divu .. => [(0, 10, 12), (25, 6, 32)]
  | .rem .. => [(0, 10, 13), (25, 6, 32)]
  | .remu .. => [(0, 10, 14), (25, 6, 32)]
  | .min .. => [(0, 10, 15), (25, 6, 32)]
  | .max .. => [(0, 10, 16), (25, 6, 32)]
  | .minu .. => [(0, 10, 17), (25, 6, 32)]
  | .maxu .. => [(0, 10, 18), (25, 6, 32)]
  | .slt .. => [(0, 10, 19), (25, 6, 32)]
  | .sltu .. => [(0, 10, 20), (25, 6, 32)]
  | .sel .. => [(0, 10, 21), (25, 6, 32)]
  | .clz .. => [(0, 15, 22), (25, 6, 32)]
  | .ctz .. => [(0, 15, 23), (25, 6, 32)]
  | .popc .. => [(0, 15, 24), (25, 6, 32)]
  | .addi .. => [(25, 6, 33)]
  | .andi .. => [(25, 6, 34)]
  | .ori .. => [(25, 6, 35)]
  | .xori .. => [(25, 6, 36)]
  | .slli .. => [(6, 9, 0), (25, 6, 37)]
  | .srli .. => [(6, 9, 128), (25, 6, 37)]
  | .srai .. => [(6, 9, 256), (25, 6, 37)]
  | .slti .. => [(25, 6, 38)]
  | .sltiu .. => [(25, 6, 39)]
  | .lui .. => [(25, 6, 40)]
  | .fadd .. => [(0, 8, 0), (25, 6, 41)]
  | .fsub .. => [(0, 8, 1), (25, 6, 41)]
  | .fmul .. => [(0, 8, 2), (25, 6, 41)]
  | .fdiv .. => [(0, 8, 3), (25, 6, 41)]
  | .fsqrt .. => [(0, 8, 4), (10, 5, 0), (25, 6, 41)]
  | .fmin .. => [(0, 8, 5), (25, 6, 41)]
  | .fmax .. => [(0, 8, 6), (25, 6, 41)]
  | .fma .. => [(0, 8, 7), (25, 6, 41)]
  | .fcmp .. => [(0, 8, 8), (25, 6, 41)]
  | .fcvt .. => [(0, 8, 9), (25, 6, 41)]
  | .fclass .. => [(0, 8, 10), (10, 5, 0), (25, 6, 41)]
  | .fsgn .. => [(0, 8, 11), (25, 6, 41)]
  | .vadd .. => [(0, 6, 0), (25, 6, 42)]
  | .vsub .. => [(0, 6, 1), (25, 6, 42)]
  | .vmul .. => [(0, 6, 2), (25, 6, 42)]
  | .vmulh .. => [(0, 6, 3), (25, 6, 42)]
  | .vmin .. => [(0, 6, 4), (25, 6, 42)]
  | .vmax .. => [(0, 6, 5), (25, 6, 42)]
  | .vand .. => [(0, 6, 6), (25, 6, 42)]
  | .vor .. => [(0, 6, 7), (25, 6, 42)]
  | .vxor .. => [(0, 6, 8), (25, 6, 42)]
  | .vshl .. => [(0, 6, 9), (25, 6, 42)]
  | .vshr .. => [(0, 6, 10), (25, 6, 42)]
  | .vsra .. => [(0, 6, 11), (25, 6, 42)]
  | .vabs .. => [(0, 6, 12), (10, 5, 0), (25, 6, 42)]
  | .vcmp .. => [(0, 6, 13), (25, 6, 42)]
  | .vsel .. => [(0, 6, 14), (25, 6, 42)]
  | .vadds .. => [(0, 6, 15), (25, 6, 42)]
  | .vfadd .. => [(0, 6, 0), (25, 6, 43)]
  | .vfsub .. => [(0, 6, 1), (25, 6, 43)]
  | .vfmul .. => [(0, 6, 2), (25, 6, 43)]
  | .vfma .. => [(0, 6, 3), (25, 6, 43)]
  | .vfmin .. => [(0, 6, 4), (25, 6, 43)]
  | .vfmax .. => [(0, 6, 5), (25, 6, 43)]
  | .vfcmp .. => [(0, 6, 6), (25, 6, 43)]
  | .vfabs .. => [(0, 6, 7), (10, 5, 0), (25, 6, 43)]
  | .vfdot .. => [(0, 6, 8), (25, 6, 43)]
  | .vcvt .. => [(0, 6, 0), (25, 6, 44)]
  | .vquant .. => [(0, 6, 1), (25, 6, 44)]
  | .vdeq .. => [(0, 6, 2), (25, 6, 44)]
  | .vbcast .. => [(0, 6, 0), (25, 6, 45)]
  | .vperm .. => [(0, 6, 1), (25, 6, 45)]
  | .vslide .. => [(0, 6, 2), (25, 6, 45)]
  | .viota .. => [(0, 6, 3), (10, 5, 0), (25, 6, 45)]
  | .vcompress .. => [(0, 6, 4), (10, 5, 0), (25, 6, 45)]
  | .vexpand .. => [(0, 6, 5), (10, 5, 0), (25, 6, 45)]
  | .vred .. => [(0, 6, 6), (25, 6, 45)]
  | .vscan .. => [(0, 6, 7), (25, 6, 45)]
  | .vtopk .. => [(0, 6, 8), (23, 8, 180)]
  | .vzip .. => [(0, 6, 9), (25, 6, 45)]
  | .vexp2 .. => [(0, 6, 0), (10, 5, 0), (25, 6, 46)]
  | .vlog2 .. => [(0, 6, 1), (10, 5, 0), (25, 6, 46)]
  | .vrcp .. => [(0, 6, 2), (10, 5, 0), (25, 6, 46)]
  | .vrsqrt .. => [(0, 6, 3), (10, 5, 0), (25, 6, 46)]
  | .vsin .. => [(0, 6, 4), (10, 5, 0), (25, 6, 46)]
  | .vtanh .. => [(0, 6, 5), (10, 5, 0), (25, 6, 46)]
  | .vsigm .. => [(0, 6, 6), (10, 5, 0), (25, 6, 46)]
  | .kand .. => [(0, 10, 0), (25, 6, 47)]
  | .kor .. => [(0, 10, 1), (25, 6, 47)]
  | .kxor .. => [(0, 10, 2), (25, 6, 47)]
  | .knot .. => [(0, 15, 3), (25, 6, 47)]
  | .kpopc .. => [(0, 15, 4), (25, 6, 47)]
  | .kfirst .. => [(0, 15, 5), (25, 6, 47)]
  | .kmov .. => [(0, 10, 6), (25, 6, 47)]
  | .vmvx .. => [(0, 6, 0), (10, 5, 0), (25, 6, 48)]
  | .vmvs .. => [(0, 6, 1), (25, 6, 48)]
  | .vmov .. => [(0, 6, 2), (10, 5, 0), (25, 6, 48)]
  | .tmodeOn .. => [(0, 6, 0), (10, 6, 32), (17, 7, 0), (25, 6, 49)]
  | .tmodeOff => [(0, 31, 1644167168)]
  | .tzero .. => [(0, 24, 1), (25, 6, 49)]
  | .top .. => [(0, 6, 2), (20, 4, 0), (25, 6, 49)]
  | .tops .. => [(0, 6, 3), (25, 6, 49)]
  | .trowst .. => [(0, 15, 900), (20, 4, 0), (25, 6, 49)]
  | .loadReply | .storeRefused | .pageWalk | .pageFaultService | .sectorFill | .channelControllerLoss
  | .lineEviction | .copyTransfer | .kioskPushTile | .kioskPullTile | .journalWrite | .horizonSweep
  | .streamReadAhead | .lawEventRecord | .fanOutDeposit | .messageArrival | .hostMailboxNotice
  | .messageAcknowledgement | .messageRelease | .handlerActivation | .budgetFault | .remoteLoad | .remoteStore
  | .remoteAtomic | .remoteLaw | .remoteFault | .drtRetransmit | .linkPortFailure | .workSearch | .backOff
  | .steal | .stealAnswer | .eventLatchSet | .wfeTimeout | .feTimeout | .groupBarrierArrival | .barrierRelease
  | .barrierTimeout | .heartbeatMiss | .strandsDone | .launchStop | .doneWord | .queueEnable | .commandAccept
  | .launch | .signal | .waitForSignal | .signalSatisfied | .annexPolicy | .dispatchDecision | .bind
  | .preemption | .hostBindRecord | .contextCreate | .contextDestroy | .pageMap | .pageDecline | .barrierExtend
  | .barrierExpire | .contain | .warmReset | .attest | .firmwareStage | .firmwareActivate | .tlbInvalidate
  | .unitLoss | .coldReset | .managementFailover | .intervalCompare | .stageMonitorSample | .splitActivation
  | .annexForward | .mergeActivation | .hostBar2Write | .hostBar2Read | .monitorConfigWrite | .registerWrite
  | .clockThrottle | .pairTimeout | .coreLoss => []

/-- A word of the instruction, lone or not, carries its row's fixed bits. -/
def Statement (i : Instr) : Prop :=
  ∀ (l : BitVec 1) (w : BitVec 32), encode l i = some w → ∀ f ∈ fixedBits i, w.toNat / 2 ^ f.1 % 2 ^ f.2.1 = f.2.2

theorem syscall : Statement (.syscall) := by
  intro l w h
  cases h
  simp only [fixedBits, List.forall_mem_cons, List.not_mem_nil, false_implies, implies_true, and_true, cat_toNat, BitVec.toNat_ofNat]
  omega
theorem tret : Statement (.tret) := by
  intro l w h
  cases h
  simp only [fixedBits, List.forall_mem_cons, List.not_mem_nil, false_implies, implies_true, and_true, cat_toNat, BitVec.toNat_ofNat]
  omega
theorem wfi : Statement (.wfi) := by
  intro l w h
  cases h
  simp only [fixedBits, List.forall_mem_cons, List.not_mem_nil, false_implies, implies_true, and_true, cat_toNat, BitVec.toNat_ofNat]
  omega
theorem pair (d : BitVec 5) : Statement (.pair d) := by
  intro l w h
  cases h
  simp only [fixedBits, List.forall_mem_cons, List.not_mem_nil, false_implies, implies_true, and_true, cat_toNat, BitVec.toNat_ofNat]
  omega
theorem unpair (d : BitVec 5) : Statement (.unpair d) := by
  intro l w h
  cases h
  simp only [fixedBits, List.forall_mem_cons, List.not_mem_nil, false_implies, implies_true, and_true, cat_toNat, BitVec.toNat_ofNat]
  omega
theorem tlbinv (a b : BitVec 5) : Statement (.tlbinv a b) := by
  intro l w h
  cases h
  simp only [fixedBits, List.forall_mem_cons, List.not_mem_nil, false_implies, implies_true, and_true, cat_toNat, BitVec.toNat_ofNat]
  omega
theorem seedset (a : BitVec 5) : Statement (.seedset a) := by
  intro l w h
  cases h
  simp only [fixedBits, List.forall_mem_cons, List.not_mem_nil, false_implies, implies_true, and_true, cat_toNat, BitVec.toNat_ofNat]
  omega
theorem cflush (a b : BitVec 5) : Statement (.cflush a b) := by
  intro l w h
  cases h
  simp only [fixedBits, List.forall_mem_cons, List.not_mem_nil, false_implies, implies_true, and_true, cat_toNat, BitVec.toNat_ofNat]
  omega
theorem beq (a b : BitVec 5) (o : BitVec 15) : Statement (.beq a b o) := by
  intro l w h
  cases h
  simp only [fixedBits, List.forall_mem_cons, List.not_mem_nil, false_implies, implies_true, and_true, cat_toNat, BitVec.toNat_ofNat]
  omega
theorem bne (a b : BitVec 5) (o : BitVec 15) : Statement (.bne a b o) := by
  intro l w h
  cases h
  simp only [fixedBits, List.forall_mem_cons, List.not_mem_nil, false_implies, implies_true, and_true, cat_toNat, BitVec.toNat_ofNat]
  omega
theorem blt (a b : BitVec 5) (o : BitVec 15) : Statement (.blt a b o) := by
  intro l w h
  cases h
  simp only [fixedBits, List.forall_mem_cons, List.not_mem_nil, false_implies, implies_true, and_true, cat_toNat, BitVec.toNat_ofNat]
  omega
theorem bge (a b : BitVec 5) (o : BitVec 15) : Statement (.bge a b o) := by
  intro l w h
  cases h
  simp only [fixedBits, List.forall_mem_cons, List.not_mem_nil, false_implies, implies_true, and_true, cat_toNat, BitVec.toNat_ofNat]
  omega
theorem bltu (a b : BitVec 5) (o : BitVec 15) : Statement (.bltu a b o) := by
  intro l w h
  cases h
  simp only [fixedBits, List.forall_mem_cons, List.not_mem_nil, false_implies, implies_true, and_true, cat_toNat, BitVec.toNat_ofNat]
  omega
theorem bgeu (a b : BitVec 5) (o : BitVec 15) : Statement (.bgeu a b o) := by
  intro l w h
  cases h
  simp only [fixedBits, List.forall_mem_cons, List.not_mem_nil, false_implies, implies_true, and_true, cat_toNat, BitVec.toNat_ofNat]
  omega
theorem jal (d : BitVec 5) (i : BitVec 20) : Statement (.jal d i) := by
  intro l w h
  cases h
  simp only [fixedBits, List.forall_mem_cons, List.not_mem_nil, false_implies, implies_true, and_true, cat_toNat, BitVec.toNat_ofNat]
  omega
theorem jalr (d a : BitVec 5) (i : BitVec 15) : Statement (.jalr d a i) := by
  intro l w h
  cases h
  simp only [fixedBits, List.forall_mem_cons, List.not_mem_nil, false_implies, implies_true, and_true, cat_toNat, BitVec.toNat_ofNat]
  omega
theorem fork (d a b : BitVec 5) : Statement (.fork d a b) := by
  intro l w h
  cases h
  simp only [fixedBits, List.forall_mem_cons, List.not_mem_nil, false_implies, implies_true, and_true, cat_toNat, BitVec.toNat_ofNat]
  omega
theorem join (a : BitVec 5) : Statement (.join a) := by
  intro l w h
  cases h
  simp only [fixedBits, List.forall_mem_cons, List.not_mem_nil, false_implies, implies_true, and_true, cat_toNat, BitVec.toNat_ofNat]
  omega
theorem tdone : Statement (.tdone) := by
  intro l w h
  cases h
  simp only [fixedBits, List.forall_mem_cons, List.not_mem_nil, false_implies, implies_true, and_true, cat_toNat, BitVec.toNat_ofNat]
  omega
theorem yield : Statement (.yield) := by
  intro l w h
  cases h
  simp only [fixedBits, List.forall_mem_cons, List.not_mem_nil, false_implies, implies_true, and_true, cat_toNat, BitVec.toNat_ofNat]
  omega
theorem hbeat : Statement (.hbeat) := by
  intro l w h
  cases h
  simp only [fixedBits, List.forall_mem_cons, List.not_mem_nil, false_implies, implies_true, and_true, cat_toNat, BitVec.toNat_ofNat]
  omega
theorem wfe (d b : BitVec 5) : Statement (.wfe d b) := by
  intro l w h
  cases h
  simp only [fixedBits, List.forall_mem_cons, List.not_mem_nil, false_implies, implies_true, and_true, cat_toNat, BitVec.toNat_ofNat]
  omega
theorem sev (a : BitVec 5) : Statement (.sev a) := by
  intro l w h
  cases h
  simp only [fixedBits, List.forall_mem_cons, List.not_mem_nil, false_implies, implies_true, and_true, cat_toNat, BitVec.toNat_ofNat]
  omega
theorem binit (a b : BitVec 5) : Statement (.binit a b) := by
  intro l w h
  cases h
  simp only [fixedBits, List.forall_mem_cons, List.not_mem_nil, false_implies, implies_true, and_true, cat_toNat, BitVec.toNat_ofNat]
  omega
theorem barrive (d a : BitVec 5) : Statement (.barrive d a) := by
  intro l w h
  cases h
  simp only [fixedBits, List.forall_mem_cons, List.not_mem_nil, false_implies, implies_true, and_true, cat_toNat, BitVec.toNat_ofNat]
  omega
theorem bwait (d a b : BitVec 5) : Statement (.bwait d a b) := by
  intro l w h
  cases h
  simp only [fixedBits, List.forall_mem_cons, List.not_mem_nil, false_implies, implies_true, and_true, cat_toNat, BitVec.toNat_ofNat]
  omega
theorem bsync (a : BitVec 5) : Statement (.bsync a) := by
  intro l w h
  cases h
  simp only [fixedBits, List.forall_mem_cons, List.not_mem_nil, false_implies, implies_true, and_true, cat_toNat, BitVec.toNat_ofNat]
  omega
theorem bcomb (d a b : BitVec 5) : Statement (.bcomb d a b) := by
  intro l w h
  cases h
  simp only [fixedBits, List.forall_mem_cons, List.not_mem_nil, false_implies, implies_true, and_true, cat_toNat, BitVec.toNat_ofNat]
  omega
theorem bswap (a : BitVec 5) : Statement (.bswap a) := by
  intro l w h
  cases h
  simp only [fixedBits, List.forall_mem_cons, List.not_mem_nil, false_implies, implies_true, and_true, cat_toNat, BitVec.toNat_ofNat]
  omega
theorem bquery (d a : BitVec 5) : Statement (.bquery d a) := by
  intro l w h
  cases h
  simp only [fixedBits, List.forall_mem_cons, List.not_mem_nil, false_implies, implies_true, and_true, cat_toNat, BitVec.toNat_ofNat]
  omega
theorem ldB (d a : BitVec 5) (o : BitVec 12) : Statement (.ldB d a o) := by
  intro l w h
  cases h
  simp only [fixedBits, List.forall_mem_cons, List.not_mem_nil, false_implies, implies_true, and_true, cat_toNat, BitVec.toNat_ofNat]
  omega
theorem ldBu (d a : BitVec 5) (o : BitVec 12) : Statement (.ldBu d a o) := by
  intro l w h
  cases h
  simp only [fixedBits, List.forall_mem_cons, List.not_mem_nil, false_implies, implies_true, and_true, cat_toNat, BitVec.toNat_ofNat]
  omega
theorem ldH (d a : BitVec 5) (o : BitVec 12) : Statement (.ldH d a o) := by
  intro l w h
  cases h
  simp only [fixedBits, List.forall_mem_cons, List.not_mem_nil, false_implies, implies_true, and_true, cat_toNat, BitVec.toNat_ofNat]
  omega
theorem ldHu (d a : BitVec 5) (o : BitVec 12) : Statement (.ldHu d a o) := by
  intro l w h
  cases h
  simp only [fixedBits, List.forall_mem_cons, List.not_mem_nil, false_implies, implies_true, and_true, cat_toNat, BitVec.toNat_ofNat]
  omega
theorem ldW (d a : BitVec 5) (o : BitVec 12) : Statement (.ldW d a o) := by
  intro l w h
  cases h
  simp only [fixedBits, List.forall_mem_cons, List.not_mem_nil, false_implies, implies_true, and_true, cat_toNat, BitVec.toNat_ofNat]
  omega
theorem ldWu (d a : BitVec 5) (o : BitVec 12) : Statement (.ldWu d a o) := by
  intro l w h
  cases h
  simp only [fixedBits, List.forall_mem_cons, List.not_mem_nil, false_implies, implies_true, and_true, cat_toNat, BitVec.toNat_ofNat]
  omega
theorem ldD (d a : BitVec 5) (o : BitVec 12) : Statement (.ldD d a o) := by
  intro l w h
  cases h
  simp only [fixedBits, List.forall_mem_cons, List.not_mem_nil, false_implies, implies_true, and_true, cat_toNat, BitVec.toNat_ofNat]
  omega
theorem ldQ (d a : BitVec 5) (o : BitVec 12) : Statement (.ldQ d a o) := by
  intro l w h
  cases h
  simp only [fixedBits, List.forall_mem_cons, List.not_mem_nil, false_implies, implies_true, and_true, cat_toNat, BitVec.toNat_ofNat]
  omega
theorem stB (d a : BitVec 5) (o : BitVec 12) : Statement (.stB d a o) := by
  intro l w h
  cases h
  simp only [fixedBits, List.forall_mem_cons, List.not_mem_nil, false_implies, implies_true, and_true, cat_toNat, BitVec.toNat_ofNat]
  omega
theorem stH (d a : BitVec 5) (o : BitVec 12) : Statement (.stH d a o) := by
  intro l w h
  cases h
  simp only [fixedBits, List.forall_mem_cons, List.not_mem_nil, false_implies, implies_true, and_true, cat_toNat, BitVec.toNat_ofNat]
  omega
theorem stW (d a : BitVec 5) (o : BitVec 12) : Statement (.stW d a o) := by
  intro l w h
  cases h
  simp only [fixedBits, List.forall_mem_cons, List.not_mem_nil, false_implies, implies_true, and_true, cat_toNat, BitVec.toNat_ofNat]
  omega
theorem stD (d a : BitVec 5) (o : BitVec 12) : Statement (.stD d a o) := by
  intro l w h
  cases h
  simp only [fixedBits, List.forall_mem_cons, List.not_mem_nil, false_implies, implies_true, and_true, cat_toNat, BitVec.toNat_ofNat]
  omega
theorem stQ (d a : BitVec 5) (o : BitVec 12) : Statement (.stQ d a o) := by
  intro l w h
  cases h
  simp only [fixedBits, List.forall_mem_cons, List.not_mem_nil, false_implies, implies_true, and_true, cat_toNat, BitVec.toNat_ofNat]
  omega
theorem amoadd (d a b : BitVec 5) (s : BitVec 2) : Statement (.amoadd d a b s) := by
  intro l w h
  cases h
  simp only [fixedBits, List.forall_mem_cons, List.not_mem_nil, false_implies, implies_true, and_true, cat_toNat, BitVec.toNat_ofNat]
  omega
theorem amoand (d a b : BitVec 5) (s : BitVec 2) : Statement (.amoand d a b s) := by
  intro l w h
  cases h
  simp only [fixedBits, List.forall_mem_cons, List.not_mem_nil, false_implies, implies_true, and_true, cat_toNat, BitVec.toNat_ofNat]
  omega
theorem amoor (d a b : BitVec 5) (s : BitVec 2) : Statement (.amoor d a b s) := by
  intro l w h
  cases h
  simp only [fixedBits, List.forall_mem_cons, List.not_mem_nil, false_implies, implies_true, and_true, cat_toNat, BitVec.toNat_ofNat]
  omega
theorem amoxor (d a b : BitVec 5) (s : BitVec 2) : Statement (.amoxor d a b s) := by
  intro l w h
  cases h
  simp only [fixedBits, List.forall_mem_cons, List.not_mem_nil, false_implies, implies_true, and_true, cat_toNat, BitVec.toNat_ofNat]
  omega
theorem amomin (d a b : BitVec 5) (s : BitVec 2) : Statement (.amomin d a b s) := by
  intro l w h
  cases h
  simp only [fixedBits, List.forall_mem_cons, List.not_mem_nil, false_implies, implies_true, and_true, cat_toNat, BitVec.toNat_ofNat]
  omega
theorem amomax (d a b : BitVec 5) (s : BitVec 2) : Statement (.amomax d a b s) := by
  intro l w h
  cases h
  simp only [fixedBits, List.forall_mem_cons, List.not_mem_nil, false_implies, implies_true, and_true, cat_toNat, BitVec.toNat_ofNat]
  omega
theorem amominu (d a b : BitVec 5) (s : BitVec 2) : Statement (.amominu d a b s) := by
  intro l w h
  cases h
  simp only [fixedBits, List.forall_mem_cons, List.not_mem_nil, false_implies, implies_true, and_true, cat_toNat, BitVec.toNat_ofNat]
  omega
theorem amomaxu (d a b : BitVec 5) (s : BitVec 2) : Statement (.amomaxu d a b s) := by
  intro l w h
  cases h
  simp only [fixedBits, List.forall_mem_cons, List.not_mem_nil, false_implies, implies_true, and_true, cat_toNat, BitVec.toNat_ofNat]
  omega
theorem amoswap (d a b : BitVec 5) (s : BitVec 2) : Statement (.amoswap d a b s) := by
  intro l w h
  cases h
  simp only [fixedBits, List.forall_mem_cons, List.not_mem_nil, false_implies, implies_true, and_true, cat_toNat, BitVec.toNat_ofNat]
  omega
theorem amofadd (d a b : BitVec 5) (s : BitVec 2) : Statement (.amofadd d a b s) := by
  intro l w h
  cases h
  simp only [fixedBits, List.forall_mem_cons, List.not_mem_nil, false_implies, implies_true, and_true, cat_toNat, BitVec.toNat_ofNat]
  omega
theorem cas (d a b : BitVec 5) (s : BitVec 2) : Statement (.cas d a b s) := by
  intro l w h
  cases h
  simp only [fixedBits, List.forall_mem_cons, List.not_mem_nil, false_implies, implies_true, and_true, cat_toNat, BitVec.toNat_ofNat]
  omega
theorem cas2 (d a b : BitVec 5) : Statement (.cas2 d a b) := by
  intro l w h
  cases h
  simp only [fixedBits, List.forall_mem_cons, List.not_mem_nil, false_implies, implies_true, and_true, cat_toNat, BitVec.toNat_ofNat]
  omega
theorem amoz (d a b : BitVec 5) (s : BitVec 2) : Statement (.amoz d a b s) := by
  intro l w h
  cases h
  simp only [fixedBits, List.forall_mem_cons, List.not_mem_nil, false_implies, implies_true, and_true, cat_toNat, BitVec.toNat_ofNat]
  omega
theorem vld (d a : BitVec 5) (r g n : BitVec 1) : Statement (.vld d a r g n) := by
  intro l w h
  cases h
  simp only [fixedBits, List.forall_mem_cons, List.not_mem_nil, false_implies, implies_true, and_true, cat_toNat, BitVec.toNat_ofNat]
  omega
theorem vst (d a : BitVec 5) (n : BitVec 1) : Statement (.vst d a n) := by
  intro l w h
  cases h
  simp only [fixedBits, List.forall_mem_cons, List.not_mem_nil, false_implies, implies_true, and_true, cat_toNat, BitVec.toNat_ofNat]
  omega
theorem vlds (d a b : BitVec 5) (r g n : BitVec 1) : Statement (.vlds d a b r g n) := by
  intro l w h
  cases h
  simp only [fixedBits, List.forall_mem_cons, List.not_mem_nil, false_implies, implies_true, and_true, cat_toNat, BitVec.toNat_ofNat]
  omega
theorem vsts (d a b : BitVec 5) (n : BitVec 1) : Statement (.vsts d a b n) := by
  intro l w h
  cases h
  simp only [fixedBits, List.forall_mem_cons, List.not_mem_nil, false_implies, implies_true, and_true, cat_toNat, BitVec.toNat_ofNat]
  omega
theorem vgath (d a b : BitVec 5) (g n : BitVec 1) : Statement (.vgath d a b g n) := by
  intro l w h
  cases h
  simp only [fixedBits, List.forall_mem_cons, List.not_mem_nil, false_implies, implies_true, and_true, cat_toNat, BitVec.toNat_ofNat]
  omega
theorem vscat (d a b : BitVec 5) (n : BitVec 1) : Statement (.vscat d a b n) := by
  intro l w h
  cases h
  simp only [fixedBits, List.forall_mem_cons, List.not_mem_nil, false_implies, implies_true, and_true, cat_toNat, BitVec.toNat_ofNat]
  omega
theorem vldp (d a b : BitVec 5) (r g n : BitVec 1) : Statement (.vldp d a b r g n) := by
  intro l w h
  cases h
  simp only [fixedBits, List.forall_mem_cons, List.not_mem_nil, false_implies, implies_true, and_true, cat_toNat, BitVec.toNat_ofNat]
  omega
theorem vstp (d a b : BitVec 5) (n : BitVec 1) : Statement (.vstp d a b n) := by
  intro l w h
  cases h
  simp only [fixedBits, List.forall_mem_cons, List.not_mem_nil, false_implies, implies_true, and_true, cat_toNat, BitVec.toNat_ofNat]
  omega
theorem pref (a : BitVec 5) (r g : BitVec 1) : Statement (.pref a r g) := by
  intro l w h
  cases h
  simp only [fixedBits, List.forall_mem_cons, List.not_mem_nil, false_implies, implies_true, and_true, cat_toNat, BitVec.toNat_ofNat]
  omega
theorem czero (a b : BitVec 5) : Statement (.czero a b) := by
  intro l w h
  cases h
  simp only [fixedBits, List.forall_mem_cons, List.not_mem_nil, false_implies, implies_true, and_true, cat_toNat, BitVec.toNat_ofNat]
  omega
theorem lld (d a : BitVec 5) (s : BitVec 3) (o : BitVec 10) : Statement (.lld d a s o) := by
  intro l w h
  cases h
  simp only [fixedBits, List.forall_mem_cons, List.not_mem_nil, false_implies, implies_true, and_true, cat_toNat, BitVec.toNat_ofNat]
  omega
theorem lldWf (d a : BitVec 5) (s : BitVec 3) (o : BitVec 10) : Statement (.lldWf d a s o) := by
  intro l w h
  cases h
  simp only [fixedBits, List.forall_mem_cons, List.not_mem_nil, false_implies, implies_true, and_true, cat_toNat, BitVec.toNat_ofNat]
  omega
theorem lldWfc (d a : BitVec 5) (s : BitVec 3) (o : BitVec 10) : Statement (.lldWfc d a s o) := by
  intro l w h
  cases h
  simp only [fixedBits, List.forall_mem_cons, List.not_mem_nil, false_implies, implies_true, and_true, cat_toNat, BitVec.toNat_ofNat]
  omega
theorem lst (d a : BitVec 5) (s : BitVec 3) (o : BitVec 10) : Statement (.lst d a s o) := by
  intro l w h
  cases h
  simp only [fixedBits, List.forall_mem_cons, List.not_mem_nil, false_implies, implies_true, and_true, cat_toNat, BitVec.toNat_ofNat]
  omega
theorem lstSf (d a : BitVec 5) (s : BitVec 3) (o : BitVec 10) : Statement (.lstSf d a s o) := by
  intro l w h
  cases h
  simp only [fixedBits, List.forall_mem_cons, List.not_mem_nil, false_implies, implies_true, and_true, cat_toNat, BitVec.toNat_ofNat]
  omega
theorem lstWesf (d a : BitVec 5) (s : BitVec 3) (o : BitVec 10) : Statement (.lstWesf d a s o) := by
  intro l w h
  cases h
  simp only [fixedBits, List.forall_mem_cons, List.not_mem_nil, false_implies, implies_true, and_true, cat_toNat, BitVec.toNat_ofNat]
  omega
theorem vlld (d a q : BitVec 5) : Statement (.vlld d a q) := by
  intro l w h
  cases h
  simp only [fixedBits, List.forall_mem_cons, List.not_mem_nil, false_implies, implies_true, and_true, cat_toNat, BitVec.toNat_ofNat]
  omega
theorem vlst (d a q : BitVec 5) : Statement (.vlst d a q) := by
  intro l w h
  cases h
  simp only [fixedBits, List.forall_mem_cons, List.not_mem_nil, false_implies, implies_true, and_true, cat_toNat, BitVec.toNat_ofNat]
  omega
theorem lgath (d a b : BitVec 5) : Statement (.lgath d a b) := by
  intro l w h
  cases h
  simp only [fixedBits, List.forall_mem_cons, List.not_mem_nil, false_implies, implies_true, and_true, cat_toNat, BitVec.toNat_ofNat]
  omega
theorem xst (d a : BitVec 5) : Statement (.xst d a) := by
  intro l w h
  cases h
  simp only [fixedBits, List.forall_mem_cons, List.not_mem_nil, false_implies, implies_true, and_true, cat_toNat, BitVec.toNat_ofNat]
  omega
theorem vxst (d a : BitVec 5) : Statement (.vxst d a) := by
  intro l w h
  cases h
  simp only [fixedBits, List.forall_mem_cons, List.not_mem_nil, false_implies, implies_true, and_true, cat_toNat, BitVec.toNat_ofNat]
  omega
theorem lamoadd (d a b : BitVec 5) : Statement (.lamoadd d a b) := by
  intro l w h
  cases h
  simp only [fixedBits, List.forall_mem_cons, List.not_mem_nil, false_implies, implies_true, and_true, cat_toNat, BitVec.toNat_ofNat]
  omega
theorem lcas (d a b : BitVec 5) : Statement (.lcas d a b) := by
  intro l w h
  cases h
  simp only [fixedBits, List.forall_mem_cons, List.not_mem_nil, false_implies, implies_true, and_true, cat_toNat, BitVec.toNat_ofNat]
  omega
theorem copy (d a : BitVec 5) : Statement (.copy d a) := by
  intro l w h
  cases h
  simp only [fixedBits, List.forall_mem_cons, List.not_mem_nil, false_implies, implies_true, and_true, cat_toNat, BitVec.toNat_ofNat]
  omega
theorem copy2d (d a : BitVec 5) : Statement (.copy2d d a) := by
  intro l w h
  cases h
  simp only [fixedBits, List.forall_mem_cons, List.not_mem_nil, false_implies, implies_true, and_true, cat_toNat, BitVec.toNat_ofNat]
  omega
theorem cstat (d a : BitVec 5) : Statement (.cstat d a) := by
  intro l w h
  cases h
  simp only [fixedBits, List.forall_mem_cons, List.not_mem_nil, false_implies, implies_true, and_true, cat_toNat, BitVec.toNat_ofNat]
  omega
theorem fewait (a b : BitVec 5) : Statement (.fewait a b) := by
  intro l w h
  cases h
  simp only [fixedBits, List.forall_mem_cons, List.not_mem_nil, false_implies, implies_true, and_true, cat_toNat, BitVec.toNat_ofNat]
  omega
theorem feset (a b : BitVec 5) : Statement (.feset a b) := by
  intro l w h
  cases h
  simp only [fixedBits, List.forall_mem_cons, List.not_mem_nil, false_implies, implies_true, and_true, cat_toNat, BitVec.toNat_ofNat]
  omega
theorem feclr (a b : BitVec 5) : Statement (.feclr a b) := by
  intro l w h
  cases h
  simp only [fixedBits, List.forall_mem_cons, List.not_mem_nil, false_implies, implies_true, and_true, cat_toNat, BitVec.toNat_ofNat]
  omega
theorem subs (d a : BitVec 5) : Statement (.subs d a) := by
  intro l w h
  cases h
  simp only [fixedBits, List.forall_mem_cons, List.not_mem_nil, false_implies, implies_true, and_true, cat_toNat, BitVec.toNat_ofNat]
  omega
theorem unsubs (d a : BitVec 5) : Statement (.unsubs d a) := by
  intro l w h
  cases h
  simp only [fixedBits, List.forall_mem_cons, List.not_mem_nil, false_implies, implies_true, and_true, cat_toNat, BitVec.toNat_ofNat]
  omega
theorem sopen (a b : BitVec 5) : Statement (.sopen a b) := by
  intro l w h
  cases h
  simp only [fixedBits, List.forall_mem_cons, List.not_mem_nil, false_implies, implies_true, and_true, cat_toNat, BitVec.toNat_ofNat]
  omega
theorem spop (d a : BitVec 5) : Statement (.spop d a) := by
  intro l w h
  cases h
  simp only [fixedBits, List.forall_mem_cons, List.not_mem_nil, false_implies, implies_true, and_true, cat_toNat, BitVec.toNat_ofNat]
  omega
theorem vspop (d a : BitVec 5) : Statement (.vspop d a) := by
  intro l w h
  cases h
  simp only [fixedBits, List.forall_mem_cons, List.not_mem_nil, false_implies, implies_true, and_true, cat_toNat, BitVec.toNat_ofNat]
  omega
theorem sadv (a b : BitVec 5) : Statement (.sadv a b) := by
  intro l w h
  cases h
  simp only [fixedBits, List.forall_mem_cons, List.not_mem_nil, false_implies, implies_true, and_true, cat_toNat, BitVec.toNat_ofNat]
  omega
theorem stend (d a : BitVec 5) : Statement (.stend d a) := by
  intro l w h
  cases h
  simp only [fixedBits, List.forall_mem_cons, List.not_mem_nil, false_implies, implies_true, and_true, cat_toNat, BitVec.toNat_ofNat]
  omega
theorem sfib (d a : BitVec 5) : Statement (.sfib d a) := by
  intro l w h
  cases h
  simp only [fixedBits, List.forall_mem_cons, List.not_mem_nil, false_implies, implies_true, and_true, cat_toNat, BitVec.toNat_ofNat]
  omega
theorem sclose (a : BitVec 5) : Statement (.sclose a) := by
  intro l w h
  cases h
  simp only [fixedBits, List.forall_mem_cons, List.not_mem_nil, false_implies, implies_true, and_true, cat_toNat, BitVec.toNat_ofNat]
  omega
theorem rtick (d a : BitVec 5) : Statement (.rtick d a) := by
  intro l w h
  cases h
  simp only [fixedBits, List.forall_mem_cons, List.not_mem_nil, false_implies, implies_true, and_true, cat_toNat, BitVec.toNat_ofNat]
  omega
theorem rput (d a b : BitVec 5) : Statement (.rput d a b) := by
  intro l w h
  cases h
  simp only [fixedBits, List.forall_mem_cons, List.not_mem_nil, false_implies, implies_true, and_true, cat_toNat, BitVec.toNat_ofNat]
  omega
theorem rtake (d a : BitVec 5) : Statement (.rtake d a) := by
  intro l w h
  cases h
  simp only [fixedBits, List.forall_mem_cons, List.not_mem_nil, false_implies, implies_true, and_true, cat_toNat, BitVec.toNat_ofNat]
  omega
theorem rrel (d a : BitVec 5) : Statement (.rrel d a) := by
  intro l w h
  cases h
  simp only [fixedBits, List.forall_mem_cons, List.not_mem_nil, false_implies, implies_true, and_true, cat_toNat, BitVec.toNat_ofNat]
  omega
theorem kroute (d a b : BitVec 5) : Statement (.kroute d a b) := by
  intro l w h
  cases h
  simp only [fixedBits, List.forall_mem_cons, List.not_mem_nil, false_implies, implies_true, and_true, cat_toNat, BitVec.toNat_ofNat]
  omega
theorem lwrd (d a : BitVec 5) : Statement (.lwrd d a) := by
  intro l w h
  cases h
  simp only [fixedBits, List.forall_mem_cons, List.not_mem_nil, false_implies, implies_true, and_true, cat_toNat, BitVec.toNat_ofNat]
  omega
theorem lwrdx (d a : BitVec 5) : Statement (.lwrdx d a) := by
  intro l w h
  cases h
  simp only [fixedBits, List.forall_mem_cons, List.not_mem_nil, false_implies, implies_true, and_true, cat_toNat, BitVec.toNat_ofNat]
  omega
theorem lwpeek (d a : BitVec 5) : Statement (.lwpeek d a) := by
  intro l w h
  cases h
  simp only [fixedBits, List.forall_mem_cons, List.not_mem_nil, false_implies, implies_true, and_true, cat_toNat, BitVec.toNat_ofNat]
  omega
theorem lwadd (d a b : BitVec 5) : Statement (.lwadd d a b) := by
  intro l w h
  cases h
  simp only [fixedBits, List.forall_mem_cons, List.not_mem_nil, false_implies, implies_true, and_true, cat_toNat, BitVec.toNat_ofNat]
  omega
theorem lwset (d a b : BitVec 5) : Statement (.lwset d a b) := by
  intro l w h
  cases h
  simp only [fixedBits, List.forall_mem_cons, List.not_mem_nil, false_implies, implies_true, and_true, cat_toNat, BitVec.toNat_ofNat]
  omega
theorem lwinit (d a b : BitVec 5) : Statement (.lwinit d a b) := by
  intro l w h
  cases h
  simp only [fixedBits, List.forall_mem_cons, List.not_mem_nil, false_implies, implies_true, and_true, cat_toNat, BitVec.toNat_ofNat]
  omega
theorem lwdep (a b : BitVec 5) : Statement (.lwdep a b) := by
  intro l w h
  cases h
  simp only [fixedBits, List.forall_mem_cons, List.not_mem_nil, false_implies, implies_true, and_true, cat_toNat, BitVec.toNat_ofNat]
  omega
theorem lwnow (d a : BitVec 5) : Statement (.lwnow d a) := by
  intro l w h
  cases h
  simp only [fixedBits, List.forall_mem_cons, List.not_mem_nil, false_implies, implies_true, and_true, cat_toNat, BitVec.toNat_ofNat]
  omega
theorem lwstep (d a b : BitVec 5) : Statement (.lwstep d a b) := by
  intro l w h
  cases h
  simp only [fixedBits, List.forall_mem_cons, List.not_mem_nil, false_implies, implies_true, and_true, cat_toNat, BitVec.toNat_ofNat]
  omega
theorem lwsweep (d a b : BitVec 5) : Statement (.lwsweep d a b) := by
  intro l w h
  cases h
  simp only [fixedBits, List.forall_mem_cons, List.not_mem_nil, false_implies, implies_true, and_true, cat_toNat, BitVec.toNat_ofNat]
  omega
theorem msend (d a : BitVec 5) : Statement (.msend d a) := by
  intro l w h
  cases h
  simp only [fixedBits, List.forall_mem_cons, List.not_mem_nil, false_implies, implies_true, and_true, cat_toNat, BitVec.toNat_ofNat]
  omega
theorem hend : Statement (.hend) := by
  intro l w h
  cases h
  simp only [fixedBits, List.forall_mem_cons, List.not_mem_nil, false_implies, implies_true, and_true, cat_toNat, BitVec.toNat_ofNat]
  omega
theorem anxput (a b : BitVec 5) : Statement (.anxput a b) := by
  intro l w h
  cases h
  simp only [fixedBits, List.forall_mem_cons, List.not_mem_nil, false_implies, implies_true, and_true, cat_toNat, BitVec.toNat_ofNat]
  omega
theorem anxend : Statement (.anxend) := by
  intro l w h
  cases h
  simp only [fixedBits, List.forall_mem_cons, List.not_mem_nil, false_implies, implies_true, and_true, cat_toNat, BitVec.toNat_ofNat]
  omega
theorem fence (s c : BitVec 1) : Statement (.fence s c) := by
  intro l w h
  cases h
  simp only [fixedBits, List.forall_mem_cons, List.not_mem_nil, false_implies, implies_true, and_true, cat_toNat, BitVec.toNat_ofNat]
  omega
theorem isync : Statement (.isync) := by
  intro l w h
  cases h
  simp only [fixedBits, List.forall_mem_cons, List.not_mem_nil, false_implies, implies_true, and_true, cat_toNat, BitVec.toNat_ofNat]
  omega
theorem bkany (a : BitVec 5) (o : BitVec 15) : Statement (.bkany a o) := by
  intro l w h
  cases h
  simp only [fixedBits, List.forall_mem_cons, List.not_mem_nil, false_implies, implies_true, and_true, cat_toNat, BitVec.toNat_ofNat]
  omega
theorem bkall (a : BitVec 5) (o : BitVec 15) : Statement (.bkall a o) := by
  intro l w h
  cases h
  simp only [fixedBits, List.forall_mem_cons, List.not_mem_nil, false_implies, implies_true, and_true, cat_toNat, BitVec.toNat_ofNat]
  omega
theorem srrd (d : BitVec 5) (n : BitVec 12) : Statement (.srrd d n) := by
  intro l w h
  cases h
  simp only [fixedBits, List.forall_mem_cons, List.not_mem_nil, false_implies, implies_true, and_true, cat_toNat, BitVec.toNat_ofNat]
  omega
theorem srwr (d a : BitVec 5) (n : BitVec 12) : Statement (.srwr d a n) := by
  intro l w h
  cases h
  simp only [fixedBits, List.forall_mem_cons, List.not_mem_nil, false_implies, implies_true, and_true, cat_toNat, BitVec.toNat_ofNat]
  omega
theorem srset (d a : BitVec 5) (n : BitVec 12) : Statement (.srset d a n) := by
  intro l w h
  cases h
  simp only [fixedBits, List.forall_mem_cons, List.not_mem_nil, false_implies, implies_true, and_true, cat_toNat, BitVec.toNat_ofNat]
  omega
theorem srclr (d a : BitVec 5) (n : BitVec 12) : Statement (.srclr d a n) := by
  intro l w h
  cases h
  simp only [fixedBits, List.forall_mem_cons, List.not_mem_nil, false_implies, implies_true, and_true, cat_toNat, BitVec.toNat_ofNat]
  omega
theorem vx (k : BitVec 3) (z : BitVec 1) (m : BitVec 3) (c : BitVec 5) : Statement (.vx k z m c) := by
  intro l w h
  cases h
  simp only [fixedBits, List.forall_mem_cons, List.not_mem_nil, false_implies, implies_true, and_true, cat_toNat, BitVec.toNat_ofNat]
  omega
theorem rep (n : BitVec 6) (d a b : BitVec 2) : Statement (.rep n d a b) := by
  intro l w h
  cases h
  simp only [fixedBits, List.forall_mem_cons, List.not_mem_nil, false_implies, implies_true, and_true, cat_toNat, BitVec.toNat_ofNat]
  omega
theorem add (d a b : BitVec 5) : Statement (.add d a b) := by
  intro l w h
  cases h
  simp only [fixedBits, List.forall_mem_cons, List.not_mem_nil, false_implies, implies_true, and_true, cat_toNat, BitVec.toNat_ofNat]
  omega
theorem sub (d a b : BitVec 5) : Statement (.sub d a b) := by
  intro l w h
  cases h
  simp only [fixedBits, List.forall_mem_cons, List.not_mem_nil, false_implies, implies_true, and_true, cat_toNat, BitVec.toNat_ofNat]
  omega
theorem and (d a b : BitVec 5) : Statement (.and d a b) := by
  intro l w h
  cases h
  simp only [fixedBits, List.forall_mem_cons, List.not_mem_nil, false_implies, implies_true, and_true, cat_toNat, BitVec.toNat_ofNat]
  omega
theorem or (d a b : BitVec 5) : Statement (.or d a b) := by
  intro l w h
  cases h
  simp only [fixedBits, List.forall_mem_cons, List.not_mem_nil, false_implies, implies_true, and_true, cat_toNat, BitVec.toNat_ofNat]
  omega
theorem xor (d a b : BitVec 5) : Statement (.xor d a b) := by
  intro l w h
  cases h
  simp only [fixedBits, List.forall_mem_cons, List.not_mem_nil, false_implies, implies_true, and_true, cat_toNat, BitVec.toNat_ofNat]
  omega
theorem sll (d a b : BitVec 5) : Statement (.sll d a b) := by
  intro l w h
  cases h
  simp only [fixedBits, List.forall_mem_cons, List.not_mem_nil, false_implies, implies_true, and_true, cat_toNat, BitVec.toNat_ofNat]
  omega
theorem srl (d a b : BitVec 5) : Statement (.srl d a b) := by
  intro l w h
  cases h
  simp only [fixedBits, List.forall_mem_cons, List.not_mem_nil, false_implies, implies_true, and_true, cat_toNat, BitVec.toNat_ofNat]
  omega
theorem sra (d a b : BitVec 5) : Statement (.sra d a b) := by
  intro l w h
  cases h
  simp only [fixedBits, List.forall_mem_cons, List.not_mem_nil, false_implies, implies_true, and_true, cat_toNat, BitVec.toNat_ofNat]
  omega
theorem mul (d a b : BitVec 5) : Statement (.mul d a b) := by
  intro l w h
  cases h
  simp only [fixedBits, List.forall_mem_cons, List.not_mem_nil, false_implies, implies_true, and_true, cat_toNat, BitVec.toNat_ofNat]
  omega
theorem mulh (d a b : BitVec 5) : Statement (.mulh d a b) := by
  intro l w h
  cases h
  simp only [fixedBits, List.forall_mem_cons, List.not_mem_nil, false_implies, implies_true, and_true, cat_toNat, BitVec.toNat_ofNat]
  omega
theorem mulhu (d a b : BitVec 5) : Statement (.mulhu d a b) := by
  intro l w h
  cases h
  simp only [fixedBits, List.forall_mem_cons, List.not_mem_nil, false_implies, implies_true, and_true, cat_toNat, BitVec.toNat_ofNat]
  omega
theorem div (d a b : BitVec 5) : Statement (.div d a b) := by
  intro l w h
  cases h
  simp only [fixedBits, List.forall_mem_cons, List.not_mem_nil, false_implies, implies_true, and_true, cat_toNat, BitVec.toNat_ofNat]
  omega
theorem divu (d a b : BitVec 5) : Statement (.divu d a b) := by
  intro l w h
  cases h
  simp only [fixedBits, List.forall_mem_cons, List.not_mem_nil, false_implies, implies_true, and_true, cat_toNat, BitVec.toNat_ofNat]
  omega
theorem rem (d a b : BitVec 5) : Statement (.rem d a b) := by
  intro l w h
  cases h
  simp only [fixedBits, List.forall_mem_cons, List.not_mem_nil, false_implies, implies_true, and_true, cat_toNat, BitVec.toNat_ofNat]
  omega
theorem remu (d a b : BitVec 5) : Statement (.remu d a b) := by
  intro l w h
  cases h
  simp only [fixedBits, List.forall_mem_cons, List.not_mem_nil, false_implies, implies_true, and_true, cat_toNat, BitVec.toNat_ofNat]
  omega
theorem min (d a b : BitVec 5) : Statement (.min d a b) := by
  intro l w h
  cases h
  simp only [fixedBits, List.forall_mem_cons, List.not_mem_nil, false_implies, implies_true, and_true, cat_toNat, BitVec.toNat_ofNat]
  omega
theorem max (d a b : BitVec 5) : Statement (.max d a b) := by
  intro l w h
  cases h
  simp only [fixedBits, List.forall_mem_cons, List.not_mem_nil, false_implies, implies_true, and_true, cat_toNat, BitVec.toNat_ofNat]
  omega
theorem minu (d a b : BitVec 5) : Statement (.minu d a b) := by
  intro l w h
  cases h
  simp only [fixedBits, List.forall_mem_cons, List.not_mem_nil, false_implies, implies_true, and_true, cat_toNat, BitVec.toNat_ofNat]
  omega
theorem maxu (d a b : BitVec 5) : Statement (.maxu d a b) := by
  intro l w h
  cases h
  simp only [fixedBits, List.forall_mem_cons, List.not_mem_nil, false_implies, implies_true, and_true, cat_toNat, BitVec.toNat_ofNat]
  omega
theorem slt (d a b : BitVec 5) : Statement (.slt d a b) := by
  intro l w h
  cases h
  simp only [fixedBits, List.forall_mem_cons, List.not_mem_nil, false_implies, implies_true, and_true, cat_toNat, BitVec.toNat_ofNat]
  omega
theorem sltu (d a b : BitVec 5) : Statement (.sltu d a b) := by
  intro l w h
  cases h
  simp only [fixedBits, List.forall_mem_cons, List.not_mem_nil, false_implies, implies_true, and_true, cat_toNat, BitVec.toNat_ofNat]
  omega
theorem sel (d a b : BitVec 5) : Statement (.sel d a b) := by
  intro l w h
  cases h
  simp only [fixedBits, List.forall_mem_cons, List.not_mem_nil, false_implies, implies_true, and_true, cat_toNat, BitVec.toNat_ofNat]
  omega
theorem clz (d a : BitVec 5) : Statement (.clz d a) := by
  intro l w h
  cases h
  simp only [fixedBits, List.forall_mem_cons, List.not_mem_nil, false_implies, implies_true, and_true, cat_toNat, BitVec.toNat_ofNat]
  omega
theorem ctz (d a : BitVec 5) : Statement (.ctz d a) := by
  intro l w h
  cases h
  simp only [fixedBits, List.forall_mem_cons, List.not_mem_nil, false_implies, implies_true, and_true, cat_toNat, BitVec.toNat_ofNat]
  omega
theorem popc (d a : BitVec 5) : Statement (.popc d a) := by
  intro l w h
  cases h
  simp only [fixedBits, List.forall_mem_cons, List.not_mem_nil, false_implies, implies_true, and_true, cat_toNat, BitVec.toNat_ofNat]
  omega
theorem addi (d a : BitVec 5) (i : BitVec 15) : Statement (.addi d a i) := by
  intro l w h
  cases h
  simp only [fixedBits, List.forall_mem_cons, List.not_mem_nil, false_implies, implies_true, and_true, cat_toNat, BitVec.toNat_ofNat]
  omega
theorem andi (d a : BitVec 5) (i : BitVec 15) : Statement (.andi d a i) := by
  intro l w h
  cases h
  simp only [fixedBits, List.forall_mem_cons, List.not_mem_nil, false_implies, implies_true, and_true, cat_toNat, BitVec.toNat_ofNat]
  omega
theorem ori (d a : BitVec 5) (i : BitVec 15) : Statement (.ori d a i) := by
  intro l w h
  cases h
  simp only [fixedBits, List.forall_mem_cons, List.not_mem_nil, false_implies, implies_true, and_true, cat_toNat, BitVec.toNat_ofNat]
  omega
theorem xori (d a : BitVec 5) (i : BitVec 15) : Statement (.xori d a i) := by
  intro l w h
  cases h
  simp only [fixedBits, List.forall_mem_cons, List.not_mem_nil, false_implies, implies_true, and_true, cat_toNat, BitVec.toNat_ofNat]
  omega
theorem slli (d a : BitVec 5) (n : BitVec 6) : Statement (.slli d a n) := by
  intro l w h
  cases h
  simp only [fixedBits, List.forall_mem_cons, List.not_mem_nil, false_implies, implies_true, and_true, cat_toNat, BitVec.toNat_ofNat]
  omega
theorem srli (d a : BitVec 5) (n : BitVec 6) : Statement (.srli d a n) := by
  intro l w h
  cases h
  simp only [fixedBits, List.forall_mem_cons, List.not_mem_nil, false_implies, implies_true, and_true, cat_toNat, BitVec.toNat_ofNat]
  omega
theorem srai (d a : BitVec 5) (n : BitVec 6) : Statement (.srai d a n) := by
  intro l w h
  cases h
  simp only [fixedBits, List.forall_mem_cons, List.not_mem_nil, false_implies, implies_true, and_true, cat_toNat, BitVec.toNat_ofNat]
  omega
theorem slti (d a : BitVec 5) (i : BitVec 15) : Statement (.slti d a i) := by
  intro l w h
  cases h
  simp only [fixedBits, List.forall_mem_cons, List.not_mem_nil, false_implies, implies_true, and_true, cat_toNat, BitVec.toNat_ofNat]
  omega
theorem sltiu (d a : BitVec 5) (i : BitVec 15) : Statement (.sltiu d a i) := by
  intro l w h
  cases h
  simp only [fixedBits, List.forall_mem_cons, List.not_mem_nil, false_implies, implies_true, and_true, cat_toNat, BitVec.toNat_ofNat]
  omega
theorem lui (d : BitVec 5) (i : BitVec 20) : Statement (.lui d i) := by
  intro l w h
  cases h
  simp only [fixedBits, List.forall_mem_cons, List.not_mem_nil, false_implies, implies_true, and_true, cat_toNat, BitVec.toNat_ofNat]
  omega
theorem fadd (d a b : BitVec 5) (p : BitVec 2) : Statement (.fadd d a b p) := by
  intro l w h
  cases h
  simp only [fixedBits, List.forall_mem_cons, List.not_mem_nil, false_implies, implies_true, and_true, cat_toNat, BitVec.toNat_ofNat]
  omega
theorem fsub (d a b : BitVec 5) (p : BitVec 2) : Statement (.fsub d a b p) := by
  intro l w h
  cases h
  simp only [fixedBits, List.forall_mem_cons, List.not_mem_nil, false_implies, implies_true, and_true, cat_toNat, BitVec.toNat_ofNat]
  omega
theorem fmul (d a b : BitVec 5) (p : BitVec 2) : Statement (.fmul d a b p) := by
  intro l w h
  cases h
  simp only [fixedBits, List.forall_mem_cons, List.not_mem_nil, false_implies, implies_true, and_true, cat_toNat, BitVec.toNat_ofNat]
  omega
theorem fdiv (d a b : BitVec 5) (p : BitVec 2) : Statement (.fdiv d a b p) := by
  intro l w h
  cases h
  simp only [fixedBits, List.forall_mem_cons, List.not_mem_nil, false_implies, implies_true, and_true, cat_toNat, BitVec.toNat_ofNat]
  omega
theorem fsqrt (d a : BitVec 5) (p : BitVec 2) : Statement (.fsqrt d a p) := by
  intro l w h
  cases h
  simp only [fixedBits, List.forall_mem_cons, List.not_mem_nil, false_implies, implies_true, and_true, cat_toNat, BitVec.toNat_ofNat]
  omega
theorem fmin (d a b : BitVec 5) (p : BitVec 2) : Statement (.fmin d a b p) := by
  intro l w h
  cases h
  simp only [fixedBits, List.forall_mem_cons, List.not_mem_nil, false_implies, implies_true, and_true, cat_toNat, BitVec.toNat_ofNat]
  omega
theorem fmax (d a b : BitVec 5) (p : BitVec 2) : Statement (.fmax d a b p) := by
  intro l w h
  cases h
  simp only [fixedBits, List.forall_mem_cons, List.not_mem_nil, false_implies, implies_true, and_true, cat_toNat, BitVec.toNat_ofNat]
  omega
theorem fma (d a b : BitVec 5) (p : BitVec 2) : Statement (.fma d a b p) := by
  intro l w h
  cases h
  simp only [fixedBits, List.forall_mem_cons, List.not_mem_nil, false_implies, implies_true, and_true, cat_toNat, BitVec.toNat_ofNat]
  omega
theorem fcmp (d a b : BitVec 5) (p : BitVec 2) : Statement (.fcmp d a b p) := by
  intro l w h
  cases h
  simp only [fixedBits, List.forall_mem_cons, List.not_mem_nil, false_implies, implies_true, and_true, cat_toNat, BitVec.toNat_ofNat]
  omega
theorem fcvt (d a k : BitVec 5) (p : BitVec 2) : Statement (.fcvt d a k p) := by
  intro l w h
  cases h
  simp only [fixedBits, List.forall_mem_cons, List.not_mem_nil, false_implies, implies_true, and_true, cat_toNat, BitVec.toNat_ofNat]
  omega
theorem fclass (d a : BitVec 5) (p : BitVec 2) : Statement (.fclass d a p) := by
  intro l w h
  cases h
  simp only [fixedBits, List.forall_mem_cons, List.not_mem_nil, false_implies, implies_true, and_true, cat_toNat, BitVec.toNat_ofNat]
  omega
theorem fsgn (d a b : BitVec 5) (p : BitVec 2) : Statement (.fsgn d a b p) := by
  intro l w h
  cases h
  simp only [fixedBits, List.forall_mem_cons, List.not_mem_nil, false_implies, implies_true, and_true, cat_toNat, BitVec.toNat_ofNat]
  omega
theorem vadd (d a b : BitVec 5) (t : BitVec 4) : Statement (.vadd d a b t) := by
  intro l w h
  cases h
  simp only [fixedBits, List.forall_mem_cons, List.not_mem_nil, false_implies, implies_true, and_true, cat_toNat, BitVec.toNat_ofNat]
  omega
theorem vsub (d a b : BitVec 5) (t : BitVec 4) : Statement (.vsub d a b t) := by
  intro l w h
  cases h
  simp only [fixedBits, List.forall_mem_cons, List.not_mem_nil, false_implies, implies_true, and_true, cat_toNat, BitVec.toNat_ofNat]
  omega
theorem vmul (d a b : BitVec 5) (t : BitVec 4) : Statement (.vmul d a b t) := by
  intro l w h
  cases h
  simp only [fixedBits, List.forall_mem_cons, List.not_mem_nil, false_implies, implies_true, and_true, cat_toNat, BitVec.toNat_ofNat]
  omega
theorem vmulh (d a b : BitVec 5) (t : BitVec 4) : Statement (.vmulh d a b t) := by
  intro l w h
  cases h
  simp only [fixedBits, List.forall_mem_cons, List.not_mem_nil, false_implies, implies_true, and_true, cat_toNat, BitVec.toNat_ofNat]
  omega
theorem vmin (d a b : BitVec 5) (t : BitVec 4) : Statement (.vmin d a b t) := by
  intro l w h
  cases h
  simp only [fixedBits, List.forall_mem_cons, List.not_mem_nil, false_implies, implies_true, and_true, cat_toNat, BitVec.toNat_ofNat]
  omega
theorem vmax (d a b : BitVec 5) (t : BitVec 4) : Statement (.vmax d a b t) := by
  intro l w h
  cases h
  simp only [fixedBits, List.forall_mem_cons, List.not_mem_nil, false_implies, implies_true, and_true, cat_toNat, BitVec.toNat_ofNat]
  omega
theorem vand (d a b : BitVec 5) (t : BitVec 4) : Statement (.vand d a b t) := by
  intro l w h
  cases h
  simp only [fixedBits, List.forall_mem_cons, List.not_mem_nil, false_implies, implies_true, and_true, cat_toNat, BitVec.toNat_ofNat]
  omega
theorem vor (d a b : BitVec 5) (t : BitVec 4) : Statement (.vor d a b t) := by
  intro l w h
  cases h
  simp only [fixedBits, List.forall_mem_cons, List.not_mem_nil, false_implies, implies_true, and_true, cat_toNat, BitVec.toNat_ofNat]
  omega
theorem vxor (d a b : BitVec 5) (t : BitVec 4) : Statement (.vxor d a b t) := by
  intro l w h
  cases h
  simp only [fixedBits, List.forall_mem_cons, List.not_mem_nil, false_implies, implies_true, and_true, cat_toNat, BitVec.toNat_ofNat]
  omega
theorem vshl (d a b : BitVec 5) (t : BitVec 4) : Statement (.vshl d a b t) := by
  intro l w h
  cases h
  simp only [fixedBits, List.forall_mem_cons, List.not_mem_nil, false_implies, implies_true, and_true, cat_toNat, BitVec.toNat_ofNat]
  omega
theorem vshr (d a b : BitVec 5) (t : BitVec 4) : Statement (.vshr d a b t) := by
  intro l w h
  cases h
  simp only [fixedBits, List.forall_mem_cons, List.not_mem_nil, false_implies, implies_true, and_true, cat_toNat, BitVec.toNat_ofNat]
  omega
theorem vsra (d a b : BitVec 5) (t : BitVec 4) : Statement (.vsra d a b t) := by
  intro l w h
  cases h
  simp only [fixedBits, List.forall_mem_cons, List.not_mem_nil, false_implies, implies_true, and_true, cat_toNat, BitVec.toNat_ofNat]
  omega
theorem vabs (d a : BitVec 5) (t : BitVec 4) : Statement (.vabs d a t) := by
  intro l w h
  cases h
  simp only [fixedBits, List.forall_mem_cons, List.not_mem_nil, false_implies, implies_true, and_true, cat_toNat, BitVec.toNat_ofNat]
  omega
theorem vcmp (c : BitVec 2) (k : BitVec 3) (a b : BitVec 5) (t : BitVec 4) : Statement (.vcmp c k a b t) := by
  intro l w h
  cases h
  simp only [fixedBits, List.forall_mem_cons, List.not_mem_nil, false_implies, implies_true, and_true, cat_toNat, BitVec.toNat_ofNat]
  omega
theorem vsel (d a b : BitVec 5) (t : BitVec 4) : Statement (.vsel d a b t) := by
  intro l w h
  cases h
  simp only [fixedBits, List.forall_mem_cons, List.not_mem_nil, false_implies, implies_true, and_true, cat_toNat, BitVec.toNat_ofNat]
  omega
theorem vadds (d a b : BitVec 5) (t : BitVec 4) : Statement (.vadds d a b t) := by
  intro l w h
  cases h
  simp only [fixedBits, List.forall_mem_cons, List.not_mem_nil, false_implies, implies_true, and_true, cat_toNat, BitVec.toNat_ofNat]
  omega
theorem vfadd (d a b : BitVec 5) (t : BitVec 4) : Statement (.vfadd d a b t) := by
  intro l w h
  cases h
  simp only [fixedBits, List.forall_mem_cons, List.not_mem_nil, false_implies, implies_true, and_true, cat_toNat, BitVec.toNat_ofNat]
  omega
theorem vfsub (d a b : BitVec 5) (t : BitVec 4) : Statement (.vfsub d a b t) := by
  intro l w h
  cases h
  simp only [fixedBits, List.forall_mem_cons, List.not_mem_nil, false_implies, implies_true, and_true, cat_toNat, BitVec.toNat_ofNat]
  omega
theorem vfmul (d a b : BitVec 5) (t : BitVec 4) : Statement (.vfmul d a b t) := by
  intro l w h
  cases h
  simp only [fixedBits, List.forall_mem_cons, List.not_mem_nil, false_implies, implies_true, and_true, cat_toNat, BitVec.toNat_ofNat]
  omega
theorem vfma (d a b : BitVec 5) (t : BitVec 4) : Statement (.vfma d a b t) := by
  intro l w h
  cases h
  simp only [fixedBits, List.forall_mem_cons, List.not_mem_nil, false_implies, implies_true, and_true, cat_toNat, BitVec.toNat_ofNat]
  omega
theorem vfmin (d a b : BitVec 5) (t : BitVec 4) : Statement (.vfmin d a b t) := by
  intro l w h
  cases h
  simp only [fixedBits, List.forall_mem_cons, List.not_mem_nil, false_implies, implies_true, and_true, cat_toNat, BitVec.toNat_ofNat]
  omega
theorem vfmax (d a b : BitVec 5) (t : BitVec 4) : Statement (.vfmax d a b t) := by
  intro l w h
  cases h
  simp only [fixedBits, List.forall_mem_cons, List.not_mem_nil, false_implies, implies_true, and_true, cat_toNat, BitVec.toNat_ofNat]
  omega
theorem vfcmp (c : BitVec 2) (k : BitVec 3) (a b : BitVec 5) (t : BitVec 4) : Statement (.vfcmp c k a b t) := by
  intro l w h
  cases h
  simp only [fixedBits, List.forall_mem_cons, List.not_mem_nil, false_implies, implies_true, and_true, cat_toNat, BitVec.toNat_ofNat]
  omega
theorem vfabs (d a : BitVec 5) (t : BitVec 4) : Statement (.vfabs d a t) := by
  intro l w h
  cases h
  simp only [fixedBits, List.forall_mem_cons, List.not_mem_nil, false_implies, implies_true, and_true, cat_toNat, BitVec.toNat_ofNat]
  omega
theorem vfdot (d a b : BitVec 5) (t : BitVec 4) : Statement (.vfdot d a b t) := by
  intro l w h
  cases h
  simp only [fixedBits, List.forall_mem_cons, List.not_mem_nil, false_implies, implies_true, and_true, cat_toNat, BitVec.toNat_ofNat]
  omega
theorem vcvt (d a : BitVec 5) (x : BitVec 1) (e t : BitVec 4) : Statement (.vcvt d a x e t) := by
  intro l w h
  cases h
  simp only [fixedBits, List.forall_mem_cons, List.not_mem_nil, false_implies, implies_true, and_true, cat_toNat, BitVec.toNat_ofNat]
  omega
theorem vquant (d a : BitVec 5) (x : BitVec 1) (e t : BitVec 4) : Statement (.vquant d a x e t) := by
  intro l w h
  cases h
  simp only [fixedBits, List.forall_mem_cons, List.not_mem_nil, false_implies, implies_true, and_true, cat_toNat, BitVec.toNat_ofNat]
  omega
theorem vdeq (d a : BitVec 5) (x : BitVec 1) (e t : BitVec 4) : Statement (.vdeq d a x e t) := by
  intro l w h
  cases h
  simp only [fixedBits, List.forall_mem_cons, List.not_mem_nil, false_implies, implies_true, and_true, cat_toNat, BitVec.toNat_ofNat]
  omega
theorem vbcast (d a b : BitVec 5) (t : BitVec 4) : Statement (.vbcast d a b t) := by
  intro l w h
  cases h
  simp only [fixedBits, List.forall_mem_cons, List.not_mem_nil, false_implies, implies_true, and_true, cat_toNat, BitVec.toNat_ofNat]
  omega
theorem vperm (d a b : BitVec 5) (t : BitVec 4) : Statement (.vperm d a b t) := by
  intro l w h
  cases h
  simp only [fixedBits, List.forall_mem_cons, List.not_mem_nil, false_implies, implies_true, and_true, cat_toNat, BitVec.toNat_ofNat]
  omega
theorem vslide (d a b : BitVec 5) (t : BitVec 4) : Statement (.vslide d a b t) := by
  intro l w h
  cases h
  simp only [fixedBits, List.forall_mem_cons, List.not_mem_nil, false_implies, implies_true, and_true, cat_toNat, BitVec.toNat_ofNat]
  omega
theorem viota (d a : BitVec 5) (t : BitVec 4) : Statement (.viota d a t) := by
  intro l w h
  cases h
  simp only [fixedBits, List.forall_mem_cons, List.not_mem_nil, false_implies, implies_true, and_true, cat_toNat, BitVec.toNat_ofNat]
  omega
theorem vcompress (d a : BitVec 5) (t : BitVec 4) : Statement (.vcompress d a t) := by
  intro l w h
  cases h
  simp only [fixedBits, List.forall_mem_cons, List.not_mem_nil, false_implies, implies_true, and_true, cat_toNat, BitVec.toNat_ofNat]
  omega
theorem vexpand (d a : BitVec 5) (t : BitVec 4) : Statement (.vexpand d a t) := by
  intro l w h
  cases h
  simp only [fixedBits, List.forall_mem_cons, List.not_mem_nil, false_implies, implies_true, and_true, cat_toNat, BitVec.toNat_ofNat]
  omega
theorem vred (d a o : BitVec 5) (t : BitVec 4) : Statement (.vred d a o t) := by
  intro l w h
  cases h
  simp only [fixedBits, List.forall_mem_cons, List.not_mem_nil, false_implies, implies_true, and_true, cat_toNat, BitVec.toNat_ofNat]
  omega
theorem vscan (d a o : BitVec 5) (t : BitVec 4) : Statement (.vscan d a o t) := by
  intro l w h
  cases h
  simp only [fixedBits, List.forall_mem_cons, List.not_mem_nil, false_implies, implies_true, and_true, cat_toNat, BitVec.toNat_ofNat]
  omega
theorem vtopk (k : BitVec 3) (a b : BitVec 5) (t : BitVec 4) : Statement (.vtopk k a b t) := by
  intro l w h
  cases h
  simp only [fixedBits, List.forall_mem_cons, List.not_mem_nil, false_implies, implies_true, and_true, cat_toNat, BitVec.toNat_ofNat]
  omega
theorem vzip (d a b : BitVec 5) (t : BitVec 4) : Statement (.vzip d a b t) := by
  intro l w h
  cases h
  simp only [fixedBits, List.forall_mem_cons, List.not_mem_nil, false_implies, implies_true, and_true, cat_toNat, BitVec.toNat_ofNat]
  omega
theorem vexp2 (d a : BitVec 5) (t : BitVec 4) : Statement (.vexp2 d a t) := by
  intro l w h
  cases h
  simp only [fixedBits, List.forall_mem_cons, List.not_mem_nil, false_implies, implies_true, and_true, cat_toNat, BitVec.toNat_ofNat]
  omega
theorem vlog2 (d a : BitVec 5) (t : BitVec 4) : Statement (.vlog2 d a t) := by
  intro l w h
  cases h
  simp only [fixedBits, List.forall_mem_cons, List.not_mem_nil, false_implies, implies_true, and_true, cat_toNat, BitVec.toNat_ofNat]
  omega
theorem vrcp (d a : BitVec 5) (t : BitVec 4) : Statement (.vrcp d a t) := by
  intro l w h
  cases h
  simp only [fixedBits, List.forall_mem_cons, List.not_mem_nil, false_implies, implies_true, and_true, cat_toNat, BitVec.toNat_ofNat]
  omega
theorem vrsqrt (d a : BitVec 5) (t : BitVec 4) : Statement (.vrsqrt d a t) := by
  intro l w h
  cases h
  simp only [fixedBits, List.forall_mem_cons, List.not_mem_nil, false_implies, implies_true, and_true, cat_toNat, BitVec.toNat_ofNat]
  omega
theorem vsin (d a : BitVec 5) (t : BitVec 4) : Statement (.vsin d a t) := by
  intro l w h
  cases h
  simp only [fixedBits, List.forall_mem_cons, List.not_mem_nil, false_implies, implies_true, and_true, cat_toNat, BitVec.toNat_ofNat]
  omega
theorem vtanh (d a : BitVec 5) (t : BitVec 4) : Statement (.vtanh d a t) := by
  intro l w h
  cases h
  simp only [fixedBits, List.forall_mem_cons, List.not_mem_nil, false_implies, implies_true, and_true, cat_toNat, BitVec.toNat_ofNat]
  omega
theorem vsigm (d a : BitVec 5) (t : BitVec 4) : Statement (.vsigm d a t) := by
  intro l w h
  cases h
  simp only [fixedBits, List.forall_mem_cons, List.not_mem_nil, false_implies, implies_true, and_true, cat_toNat, BitVec.toNat_ofNat]
  omega
theorem kand (d a b : BitVec 5) : Statement (.kand d a b) := by
  intro l w h
  cases h
  simp only [fixedBits, List.forall_mem_cons, List.not_mem_nil, false_implies, implies_true, and_true, cat_toNat, BitVec.toNat_ofNat]
  omega
theorem kor (d a b : BitVec 5) : Statement (.kor d a b) := by
  intro l w h
  cases h
  simp only [fixedBits, List.forall_mem_cons, List.not_mem_nil, false_implies, implies_true, and_true, cat_toNat, BitVec.toNat_ofNat]
  omega
theorem kxor (d a b : BitVec 5) : Statement (.kxor d a b) := by
  intro l w h
  cases h
  simp only [fixedBits, List.forall_mem_cons, List.not_mem_nil, false_implies, implies_true, and_true, cat_toNat, BitVec.toNat_ofNat]
  omega
theorem knot (d a : BitVec 5) : Statement (.knot d a) := by
  intro l w h
  cases h
  simp only [fixedBits, List.forall_mem_cons, List.not_mem_nil, false_implies, implies_true, and_true, cat_toNat, BitVec.toNat_ofNat]
  omega
theorem kpopc (d a : BitVec 5) : Statement (.kpopc d a) := by
  intro l w h
  cases h
  simp only [fixedBits, List.forall_mem_cons, List.not_mem_nil, false_implies, implies_true, and_true, cat_toNat, BitVec.toNat_ofNat]
  omega
theorem kfirst (d a : BitVec 5) : Statement (.kfirst d a) := by
  intro l w h
  cases h
  simp only [fixedBits, List.forall_mem_cons, List.not_mem_nil, false_implies, implies_true, and_true, cat_toNat, BitVec.toNat_ofNat]
  omega
theorem kmov (d a v : BitVec 5) : Statement (.kmov d a v) := by
  intro l w h
  cases h
  simp only [fixedBits, List.forall_mem_cons, List.not_mem_nil, false_implies, implies_true, and_true, cat_toNat, BitVec.toNat_ofNat]
  omega
theorem vmvx (d a : BitVec 5) (t : BitVec 4) : Statement (.vmvx d a t) := by
  intro l w h
  cases h
  simp only [fixedBits, List.forall_mem_cons, List.not_mem_nil, false_implies, implies_true, and_true, cat_toNat, BitVec.toNat_ofNat]
  omega
theorem vmvs (d a b : BitVec 5) (t : BitVec 4) : Statement (.vmvs d a b t) := by
  intro l w h
  cases h
  simp only [fixedBits, List.forall_mem_cons, List.not_mem_nil, false_implies, implies_true, and_true, cat_toNat, BitVec.toNat_ofNat]
  omega
theorem vmov (d a : BitVec 5) (t : BitVec 4) : Statement (.vmov d a t) := by
  intro l w h
  cases h
  simp only [fixedBits, List.forall_mem_cons, List.not_mem_nil, false_implies, implies_true, and_true, cat_toNat, BitVec.toNat_ofNat]
  omega
theorem tmodeOn (n k : BitVec 1) (t : BitVec 4) : Statement (.tmodeOn n k t) := by
  intro l w h
  cases h
  simp only [fixedBits, List.forall_mem_cons, List.not_mem_nil, false_implies, implies_true, and_true, cat_toNat, BitVec.toNat_ofNat]
  omega
theorem tmodeOff : Statement (.tmodeOff) := by
  intro l w h
  cases h
  simp only [fixedBits, List.forall_mem_cons, List.not_mem_nil, false_implies, implies_true, and_true, cat_toNat, BitVec.toNat_ofNat]
  omega
theorem tzero (t : BitVec 1) : Statement (.tzero t) := by
  intro l w h
  cases h
  simp only [fixedBits, List.forall_mem_cons, List.not_mem_nil, false_implies, implies_true, and_true, cat_toNat, BitVec.toNat_ofNat]
  omega
theorem top (t : BitVec 1) (a b : BitVec 5) (y : BitVec 4) : Statement (.top t a b y) := by
  intro l w h
  cases h
  simp only [fixedBits, List.forall_mem_cons, List.not_mem_nil, false_implies, implies_true, and_true, cat_toNat, BitVec.toNat_ofNat]
  omega
theorem tops (t : BitVec 1) (s : BitVec 4) (a b : BitVec 5) (y : BitVec 4) : Statement (.tops t s a b y) := by
  intro l w h
  cases h
  simp only [fixedBits, List.forall_mem_cons, List.not_mem_nil, false_implies, implies_true, and_true, cat_toNat, BitVec.toNat_ofNat]
  omega
theorem trowst (t : BitVec 1) (d : BitVec 5) : Statement (.trowst t d) := by
  intro l w h
  cases h
  simp only [fixedBits, List.forall_mem_cons, List.not_mem_nil, false_implies, implies_true, and_true, cat_toNat, BitVec.toNat_ofNat]
  omega
theorem loadReply : Statement .loadReply := by
  intro l w h
  cases h
theorem storeRefused : Statement .storeRefused := by
  intro l w h
  cases h
theorem pageWalk : Statement .pageWalk := by
  intro l w h
  cases h
theorem pageFaultService : Statement .pageFaultService := by
  intro l w h
  cases h
theorem sectorFill : Statement .sectorFill := by
  intro l w h
  cases h
theorem channelControllerLoss : Statement .channelControllerLoss := by
  intro l w h
  cases h
theorem lineEviction : Statement .lineEviction := by
  intro l w h
  cases h
theorem copyTransfer : Statement .copyTransfer := by
  intro l w h
  cases h
theorem kioskPushTile : Statement .kioskPushTile := by
  intro l w h
  cases h
theorem kioskPullTile : Statement .kioskPullTile := by
  intro l w h
  cases h
theorem journalWrite : Statement .journalWrite := by
  intro l w h
  cases h
theorem horizonSweep : Statement .horizonSweep := by
  intro l w h
  cases h
theorem streamReadAhead : Statement .streamReadAhead := by
  intro l w h
  cases h
theorem lawEventRecord : Statement .lawEventRecord := by
  intro l w h
  cases h
theorem fanOutDeposit : Statement .fanOutDeposit := by
  intro l w h
  cases h
theorem messageArrival : Statement .messageArrival := by
  intro l w h
  cases h
theorem hostMailboxNotice : Statement .hostMailboxNotice := by
  intro l w h
  cases h
theorem messageAcknowledgement : Statement .messageAcknowledgement := by
  intro l w h
  cases h
theorem messageRelease : Statement .messageRelease := by
  intro l w h
  cases h
theorem handlerActivation : Statement .handlerActivation := by
  intro l w h
  cases h
theorem budgetFault : Statement .budgetFault := by
  intro l w h
  cases h
theorem remoteLoad : Statement .remoteLoad := by
  intro l w h
  cases h
theorem remoteStore : Statement .remoteStore := by
  intro l w h
  cases h
theorem remoteAtomic : Statement .remoteAtomic := by
  intro l w h
  cases h
theorem remoteLaw : Statement .remoteLaw := by
  intro l w h
  cases h
theorem remoteFault : Statement .remoteFault := by
  intro l w h
  cases h
theorem drtRetransmit : Statement .drtRetransmit := by
  intro l w h
  cases h
theorem linkPortFailure : Statement .linkPortFailure := by
  intro l w h
  cases h
theorem workSearch : Statement .workSearch := by
  intro l w h
  cases h
theorem backOff : Statement .backOff := by
  intro l w h
  cases h
theorem steal : Statement .steal := by
  intro l w h
  cases h
theorem stealAnswer : Statement .stealAnswer := by
  intro l w h
  cases h
theorem eventLatchSet : Statement .eventLatchSet := by
  intro l w h
  cases h
theorem wfeTimeout : Statement .wfeTimeout := by
  intro l w h
  cases h
theorem feTimeout : Statement .feTimeout := by
  intro l w h
  cases h
theorem groupBarrierArrival : Statement .groupBarrierArrival := by
  intro l w h
  cases h
theorem barrierRelease : Statement .barrierRelease := by
  intro l w h
  cases h
theorem barrierTimeout : Statement .barrierTimeout := by
  intro l w h
  cases h
theorem heartbeatMiss : Statement .heartbeatMiss := by
  intro l w h
  cases h
theorem strandsDone : Statement .strandsDone := by
  intro l w h
  cases h
theorem launchStop : Statement .launchStop := by
  intro l w h
  cases h
theorem doneWord : Statement .doneWord := by
  intro l w h
  cases h
theorem queueEnable : Statement .queueEnable := by
  intro l w h
  cases h
theorem commandAccept : Statement .commandAccept := by
  intro l w h
  cases h
theorem launch : Statement .launch := by
  intro l w h
  cases h
theorem signal : Statement .signal := by
  intro l w h
  cases h
theorem waitForSignal : Statement .waitForSignal := by
  intro l w h
  cases h
theorem signalSatisfied : Statement .signalSatisfied := by
  intro l w h
  cases h
theorem annexPolicy : Statement .annexPolicy := by
  intro l w h
  cases h
theorem dispatchDecision : Statement .dispatchDecision := by
  intro l w h
  cases h
theorem bind : Statement .bind := by
  intro l w h
  cases h
theorem preemption : Statement .preemption := by
  intro l w h
  cases h
theorem hostBindRecord : Statement .hostBindRecord := by
  intro l w h
  cases h
theorem contextCreate : Statement .contextCreate := by
  intro l w h
  cases h
theorem contextDestroy : Statement .contextDestroy := by
  intro l w h
  cases h
theorem pageMap : Statement .pageMap := by
  intro l w h
  cases h
theorem pageDecline : Statement .pageDecline := by
  intro l w h
  cases h
theorem barrierExtend : Statement .barrierExtend := by
  intro l w h
  cases h
theorem barrierExpire : Statement .barrierExpire := by
  intro l w h
  cases h
theorem contain : Statement .contain := by
  intro l w h
  cases h
theorem warmReset : Statement .warmReset := by
  intro l w h
  cases h
theorem attest : Statement .attest := by
  intro l w h
  cases h
theorem firmwareStage : Statement .firmwareStage := by
  intro l w h
  cases h
theorem firmwareActivate : Statement .firmwareActivate := by
  intro l w h
  cases h
theorem tlbInvalidate : Statement .tlbInvalidate := by
  intro l w h
  cases h
theorem unitLoss : Statement .unitLoss := by
  intro l w h
  cases h
theorem coldReset : Statement .coldReset := by
  intro l w h
  cases h
theorem managementFailover : Statement .managementFailover := by
  intro l w h
  cases h
theorem intervalCompare : Statement .intervalCompare := by
  intro l w h
  cases h
theorem stageMonitorSample : Statement .stageMonitorSample := by
  intro l w h
  cases h
theorem splitActivation : Statement .splitActivation := by
  intro l w h
  cases h
theorem annexForward : Statement .annexForward := by
  intro l w h
  cases h
theorem mergeActivation : Statement .mergeActivation := by
  intro l w h
  cases h
theorem hostBar2Write : Statement .hostBar2Write := by
  intro l w h
  cases h
theorem hostBar2Read : Statement .hostBar2Read := by
  intro l w h
  cases h
theorem monitorConfigWrite : Statement .monitorConfigWrite := by
  intro l w h
  cases h
theorem registerWrite : Statement .registerWrite := by
  intro l w h
  cases h
theorem clockThrottle : Statement .clockThrottle := by
  intro l w h
  cases h
theorem pairTimeout : Statement .pairTimeout := by
  intro l w h
  cases h
theorem coreLoss : Statement .coreLoss := by
  intro l w h
  cases h

end Sys2Proof.Laws.RowBits
end

