-- ==== Sys2Proof/Tests/Slice0.lean ====
section
/-! SUPPORT. Tests of the model, each on one word or one step: words written out from the encoding tables, results that the
specification states or that are worked out by hand from its rules, and for each statement for the provers a state and
operands that meet its hypotheses. -/

namespace Sys2Proof.Tests

open Sys2Proof.Machine

set_option Elab.async false

/-! ### Small states -/

/-- A thread with scalar registers at given values, running at address 64. -/
def thread (xs : List (Nat × Word)) : Thread := { Thread.reset with strand := .running, pc := 64, x := xs }

/-- A launch on cores 0 to 3, four threads each. -/
def aLaunch : LaunchDesc := { placedLaunch with n := 4, count := 4 }

/-- Core 0 with that launch bound in context 0 and a thread, and the first gibibyte of the address space cached as
identity with every right. -/
def core (t : Nat) (th : Thread) : Core :=
  { Core.reset with
    threads := [(t, th)]
    bound := some ⟨⟨0, 1, 0, 0, 0, 0, false⟩, aLaunch, 0⟩
    tlb := [⟨0, 0, 30, 0, true, true, true, true, true⟩] }

/-- The run of that launch. -/
def boundRun : LaunchRun := { ctx := 0, queue := 1, seq := 0, descAddr := 0, ld := aLaunch, order := 1, rebinds := 0, redone := false, touts := [] }

/-- The package with that core, whose thread t issues a lone word. -/
def onCore (t : Nat) (k : Core) : State :=
  { State.reset with
    cores := [(0, k)]
    cur := (0, t)
    ctxs := [(0, { Context.reset with live := true })] }

/-- Compute thread t0 with these registers issues. -/
def cpu (xs : List (Nat × Word)) : State := onCore 0 (core 0 (thread xs))

/-- An activation of a message with this payload, pinned or not. -/
def activation (pinned : Bool) (payload : List Word) : Activation where
  kind := .message
  msg := ⟨0, 1, 0, 0, 1, payload⟩
  left := payload
  pinned := pinned
  start := 0
  budget := 100000
  heldMsgs := []
  stores := 0
  log := []
  fflags := 0
  frm := 0
  seed := 0
  seq := 0
  fails := 0
  region := (0, 0)

/-- The handler thread with an activation issues. -/
def handler (pinned : Bool) (xs : List (Nat × Word)) (payload : List Word) : State :=
  onCore 4 { core 4 (thread xs) with act := some (activation pinned payload) }

/-- The word completes and leaves a state of which p holds. -/
def completes (i : Instr) (s : State) (p : State → Bool) : Bool :=
  match exec i s with
  | .next t => t.issue.status == .done && p t
  | _ => false

/-- The word traps with this cause and address. -/
def trapsWith (i : Instr) (s : State) (c : Cause) (a : Word) : Bool :=
  match exec i s with
  | .next t => t.issue.status == .trapped c a false
  | _ => false

/-- The word begins to wait, and for this. -/
def waitsFor (i : Instr) (s : State) (w : Wait) : Bool :=
  match exec i s with
  | .next t => t.issue.status == .waiting && t.me.wait == w
  | _ => false

/-- The word begins its effect and waits for this. -/
def parksFor (i : Instr) (s : State) (w : Wait) : Bool :=
  match exec i s with
  | .next t => t.issue.status == .parked && t.me.wait == w
  | _ => false

/-- An effect goes through. -/
def goes {α : Type} (m : M α) (s : State) : Bool :=
  match m s with
  | .ok _ _ => true
  | .error _ _ => false

/-- Every word listed is legal for the issuing thread. -/
def legal (s : State) (is : List Instr) : Bool := is.all (legalHere s)

/-- Doublewords stored in local memory, one after the other. -/
def lput (ps : List (Nat × Nat)) (k : Core) : Core := ps.foldl (fun (k : Core) p => k.lwrite p.1 8 p.2) k

/-- The units outside the cores, which the number 768 stands for, cache the same page. -/
def atHome (s : State) : State := { s with cores := s.cores ++ [(768, { Core.reset with tlb := [⟨0, 0, 30, 0, true, true, true, true, true⟩] })] }

/-! ### Decoding: words written out from R24, R34, R42, R45, R49 and R50 -/

theorem test_decode_int : decodeWord 0xC0952C0A#32 = .ok (.mulhu 9 10 11) := by decide +kernel
theorem test_decode_shift : decodeWord 0xCA424003#32 = .ok (.srai 4 4 3) := by decide +kernel
theorem test_decode_lui : decodeWord 0xD0512345#32 = .ok (.lui 5 0x12345) := by decide +kernel
theorem test_decode_addi : decodeWord 0xC2528678#32 = .ok (.addi 5 5 0x678) := by decide +kernel
theorem test_decode_fp : decodeWord 0xD2531E00#32 = .ok (.fadd 5 6 7 2) := by decide +kernel
theorem test_decode_vec : decodeWord 0xD421900F#32 = .ok (.vadds 2 3 4 0) := by decide +kernel
theorem test_decode_vmem : decodeWord 0x9C352C06#32 = .ok (.vldp 3 10 11 0 0 0) := by decide +kernel
theorem test_decode_atomic : decodeWord 0x9A451A0B#32 = .ok (.cas2 4 10 6) := by decide +kernel
theorem test_decode_local : decodeWord 0x9E74E408#32 = .ok (.lldWf 7 9 6 8) := by decide +kernel
theorem test_decode_prefix : decodeWord 0x3C0C0000#32 = .ok (.vx 0 0 3 0) := by decide +kernel
theorem test_decode_repetition : decodeWord 0x3E1AA000#32 = .ok (.rep 3 1 1 1) := by decide +kernel
theorem test_decode_vadd_paired : decodeWord 0x54044080#32 = .ok (.vadd 0 8 16 2) := by decide +kernel
theorem test_decode_branch : decodeWord 0x82530004#32 = .ok (.beq 5 6 4) := by decide +kernel
theorem test_decode_branch_back : decodeWord 0x04307FF8#32 = .ok (.bne 3 0 0x7FF8) := by decide +kernel
theorem test_decode_jump : decodeWord 0x8E100100#32 = .ok (.jal 1 0x100) := by decide +kernel
theorem test_decode_return : decodeWord 0x90008000#32 = .ok (.jalr 0 1 0) := by decide +kernel
theorem test_decode_mask_branch : decodeWord 0xB0208008#32 = .ok (.bkall 2 8) := by decide +kernel
theorem test_decode_sreg : decodeWord 0xB2039010#32 = .ok (.srwr 0 7 0x010) := by decide +kernel
theorem test_decode_sys : decodeWord 0x80052C05#32 = .ok (.tlbinv 10 11) := by decide +kernel
theorem test_decode_barrier : decodeWord 0x94449404#32 = .ok (.bcomb 4 9 5) := by decide +kernel
theorem test_decode_copy : decodeWord 0xA4460000#32 = .ok (.copy 4 12) := by decide +kernel
theorem test_decode_law : decodeWord 0xAA519808#32 = .ok (.lwstep 5 3 6) := by decide +kernel
/-- The bytes of a word lie least significant first (R5). -/
theorem test_decode_bytes : decodeBytes [0x0A, 0x2C, 0x95, 0xC0, 0xFF] = some (.mulhu 9 10 11, [0xFF]) := by decide +kernel
/-- Reserved encodings do not fall through to a neighbour (R36, R50): SHI kind 3, a reserved major, a nonzero field. -/
theorem test_decode_refuses : (decodeTableWord 32 0xCA426003, decodeTableWord 32 0x80000008, decodeTableWord 32 0x80000400)
    = (none, none, none) := by decide +kernel
/-- Prefixes and TRET fix the lone bit (R27, R372). -/
theorem test_decode_lone_bit : (decodeTableWord 32 0xBC0C0000, decodeTableWord 32 0x00000001, decodeTableWord 32 0x80000001)
    = (none, none, some .tret) := by decide +kernel
/-- The row statements hold of an instance. -/
theorem test_row_bits : Laws.RowBits.Statement (.vadd 2 3 4 2) := Laws.RowBits.vadd 2 3 4 2

/-! ### Well-formedness: an ill-formed term for each check -/

theorem test_wf_x30 : [Instr.pair 30, .jal 30 0, .fork 30 1 2, .bquery 30 1, .ldB 30 1 0, .amoadd 30 1 2 0, .lamoadd 30 1 2,
    .copy 30 1, .rtick 30 1, .lwrd 30 1, .srrd 30 0, .add 30 1 2, .clz 30 1, .addi 30 1 0, .slli 30 1 0, .lui 30 0,
    .fadd 30 1 2 0, .fclass 30 1 0, .kpopc 30 1, .vmvs 30 1 2 0].all (fun i => !i.wellFormed) = true := by decide +kernel
theorem test_wf_pairs : [Instr.ldQ 3 1 0, .stQ 30 1 0, .cas2 4 1 7, .lld 5 1 7 0, .lst 5 1 7 0, .lwrdx 3 1].all
    (fun i => !i.wellFormed) = true := by decide +kernel
theorem test_wf_sizes : [Instr.amoadd 1 2 3 2, .lst 1 2 1 0, .vlld 1 2 3, .vlst 1 2 3].all (fun i => !i.wellFormed) = true := by
  decide +kernel
theorem test_wf_low_registers : [Instr.sopen 8 1, .spop 1 8, .lwnow 1 8, .lwstep 1 8 2, .bkany 8 0, .kand 0 1 2, .kor 1 8 2,
    .knot 1 8, .kmov 0 1 0, .kmov 1 2 3, .vcmp 0 0 1 2 0, .vtopk 0 1 2 0].all (fun i => !i.wellFormed) = true := by decide +kernel
theorem test_wf_types : [Instr.vadd 1 2 3 9, .vmul 1 2 3 8, .vsra 1 2 3 4, .vabs 1 2 4, .vfadd 1 2 3 11, .vfmin 1 2 3 8,
    .vfdot 1 2 3 14, .viota 1 2 8, .vred 1 2 0 9, .vred 1 2 6 0, .vexp2 1 2 15, .vmvx 1 2 8, .tmodeOn 0 0 0, .top 0 1 2 1,
    .tops 0 0 1 2 12, .fcvt 1 2 6 0].all (fun i => !i.wellFormed) = true := by decide +kernel
theorem test_wf_groups : [Instr.vcvt 1 2 0 12 14, .vcvt 2 1 0 14 12, .vperm 1 2 1 0, .vzip 1 2 4 0, .vquant 1 2 0 12 12,
    .vdeq 1 2 0 12 12].all (fun i => !i.wellFormed) = true := by decide +kernel
theorem test_wf_others : [Instr.msend 30 1, .msend 31 1, .vx 0 0 7 0].all (fun i => !i.wellFormed) = true := by decide +kernel
theorem test_wf_events : [Event.loadReply 768 0 0, .loadReply 0 6 0, .pageWalk 0 64 0 .read false, .sectorFill 160 0 ⟨.clean, []⟩,
    .channelControllerLoss 8 0, .copyTransfer 0 16 1, .kioskPushTile 32 0, .streamReadAhead 0 0 8, .linkPortFailure 48,
    .workSearch 0 4, .queueEnable 0 16, .barrierTimeout 0 128, .unitLoss (.slice 160), .registerWrite 4 0, .clockThrottle 2750,
    .monitorConfigWrite 6272 0].all (fun e => !e.wellFormed) = true := by decide +kernel
/-- Each has a well-formed neighbour. -/
theorem test_wf_good : [Instr.pair 29, .ldQ 2 1 0, .amoadd 29 1 2 1, .vadd 1 2 3 8, .vcvt 2 2 0 12 14,
    .kand 7 7 0, .top 1 31 31 13, .vx 0 0 6 0].all Instr.wellFormed = true := by decide +kernel

/-! ### Scalar words: results and witnesses -/

/-- x1 = 5, x2 = -3. -/
abbrev sInt : State := cpu [(1, 5), (2, -3)]

theorem test_add : completes (.add 3 1 2) sInt (fun t => t.me.getX 3 == 2 && t.me.pc == 68) = true := by decide +kernel
theorem test_div_truncates : completes (.div 3 2 1) (cpu [(1, 2), (2, -7)]) (fun t => t.me.getX 3 == -3) = true := by decide +kernel
theorem test_div_by_zero : completes (.div 3 1 0) sInt (fun t => t.me.getX 3 == -1) = true := by decide +kernel
theorem test_div_overflow : completes (.div 3 1 2) (cpu [(1, 0x8000000000000000), (2, -1)]) (fun t => t.me.getX 3 == 0x8000000000000000) = true := by
  decide +kernel
theorem test_mulh : completes (.mulh 3 1 2) sInt (fun t => t.me.getX 3 == -1) = true := by decide +kernel
theorem test_sra : completes (.sra 3 2 1) sInt (fun t => t.me.getX 3 == -1) = true := by decide +kernel
theorem test_lui : completes (.lui 5 0x80000) sInt (fun t => t.me.getX 5 == 0xFFFFFFFF80000000) = true := by decide +kernel
theorem test_sltiu : completes (.sltiu 3 1 0x7FFF) sInt (fun t => t.me.getX 3 == 1) = true := by decide +kernel
theorem test_x0_discards : completes (.add 0 1 2) sInt (fun t => t.me.getX 0 == 0) = true := by decide +kernel
theorem test_x31_pushes : completes (.add 31 1 2) sInt (fun t => t.me.mo == [2]) = true := by decide +kernel
theorem test_x30_in_compute : trapsWith (.add 3 30 1) sInt .illegalInstruction 0 = true := by decide +kernel

/-- Hypotheses of the statements on words of two sources and of one, with x0, a plain register and x31 as destinations. -/
theorem wit_two_sources : readX 1 sInt = .ok 5 sInt ∧ readX 2 sInt = .ok (-3) sInt ∧
    (∀ i ∈ [(.add : BitVec 5 → BitVec 5 → BitVec 5 → Instr), .sub, .and, .or, .xor, .sll, .srl, .sra, .mul, .mulh, .mulhu, .div,
      .divu, .rem, .remu, .min, .max, .minu, .maxu, .slt, .sltu, .sel], ∀ d ∈ [0#5, 3#5, 31#5], legalHere sInt (i d 1 2) = true) ∧
    goes (writeX 0 7) sInt = true ∧ goes (writeX 3 7) sInt = true ∧ goes (writeX 31 7) sInt = true :=
  ⟨rfl, rfl, by decide +kernel, by decide +kernel, by decide +kernel, by decide +kernel⟩
theorem wit_one_source : (∀ i ∈ [(.clz : BitVec 5 → BitVec 5 → Instr), .ctz, .popc, (.addi · · 5), (.andi · · 5), (.ori · · 5),
      (.xori · · 5), (.slti · · 5), (.sltiu · · 5), (.slli · · 63), (.srli · · 63), (.srai · · 63), fun d _ => .lui d 1],
    ∀ d ∈ [0#5, 3#5, 31#5], legalHere sInt (i d 1) = true) := by decide +kernel
/-- Division by zero, and the one overflow, are operands. -/
theorem wit_division_corners : readX 0 sInt = .ok 0 sInt ∧ (0x8000000000000000#64).toInt = -2 ^ 63 ∧ (-1#64).toInt = -1 :=
  ⟨rfl, by decide +kernel, by decide +kernel⟩
/-- The roles of x0, x30 and x31: payload left and none left in a handler, 30 and 31 words pushed. -/
theorem wit_roles : (handler true [] [7]).isTh = true ∧ (∃ a, (handler true [] [7]).myCore.act = some a ∧ a.left = [7]) ∧
    (∃ a, (handler true [] []).myCore.act = some a ∧ a.left = []) ∧ sInt.isTh = false ∧
    30 ∈ writeSet sInt.me 0 (.add 30 1 2) :=
  ⟨rfl, ⟨_, rfl, rfl⟩, ⟨_, rfl, rfl⟩, rfl, by decide +kernel⟩
theorem wit_pushes : (thread []).mo.length < 31 ∧ 31 ≤ ({ thread [] with mo := List.replicate 31 0 } : Thread).mo.length ∧
    sInt.issue.sent = false := by decide +kernel
theorem test_pop_order : (match readX 30 (handler true [] [7, 8]) with
    | .ok w t => w == 7 && (match readX 30 t with | .ok v _ => v == 8 | _ => false)
    | _ => false) = true := by decide +kernel

/-! ### Scalar floating point -/

/-- x1 = 1.0 and x2 = 3.0 in fp64, mode 0. -/
abbrev sFp : State := cpu [(1, 0x3FF0000000000000), (2, 0x4008000000000000), (3, 0x4000000000000000)]

theorem test_fadd : completes (.fadd 4 1 2 0) sFp (fun t => t.me.getX 4 == 0x4010000000000000 && t.me.fflags == 0) = true := by
  decide +kernel
theorem test_fdiv_inexact : completes (.fdiv 4 1 2 0) sFp (fun t => t.me.getX 4 == 0x3FD5555555555555 && t.me.fflags == 1) = true := by
  decide +kernel
theorem test_fma : completes (.fma 3 1 2 0) sFp (fun t => t.me.getX 3 == 0x4014000000000000) = true := by decide +kernel
theorem test_fcmp : completes (.fcmp 4 1 2 0) sFp (fun t => t.me.getX 4 == 1) = true := by decide +kernel
theorem wit_fp : readX 1 sFp = .ok 0x3FF0000000000000 sFp ∧ readX 2 sFp = .ok 0x4008000000000000 sFp ∧
    (∀ p ∈ [0#2, 1#2, 2#2, 3#2], ∀ i ∈ [Instr.fadd 3 1 2 p, .fsub 3 1 2 p, .fmul 3 1 2 p, .fdiv 3 1 2 p, .fsqrt 3 1 p, .fmin 3 1 2 p,
      .fmax 3 1 2 p, .fma 3 1 2 p, .fcmp 3 1 2 p, .fclass 3 1 p, .fsgn 3 1 2 p, .fcvt 3 1 0 p, .fcvt 3 1 5 p, .fcvt 3 1 8 p,
      .fcvt 3 1 11 p], legalHere sFp i = true ∧ goes (writeX 3 1) sFp = true) :=
  ⟨rfl, rfl, by decide +kernel⟩
/-- A NaN is delivered: the sum of the infinities of opposite signs. -/
theorem wit_nan : (((roundTo .fp64 0 (.nan false)).run ⟨0, 0⟩).1 = 0x7FF8000000000000) := by decide +kernel
/-- The zero seed counts as the constant of R72. -/
theorem test_seed_zero : ((roundSat .fp64 5 false (.fin false 1 0 false)).run ⟨0, 0⟩).2.seed = seedNext 0 := by decide +kernel

/-! ### Vector words -/

/-- v1 = 250, 1, 3, 4 and v2 = 10, 2, 255, 1 as bytes, k1 selects the even elements, x2 = 1. -/
abbrev thVec : Thread :=
  { thread [(1, 5), (2, 1)] with
    v := [(1, 0x040301FA), (2, 0x01FF020A), (3, 0x77777777)]
    k := [(1, BitVec.ofNat 1024 0x55)] }
abbrev sVec : State := onCore 0 (core 0 thVec)
/-- The same thread under a VX prefix. -/
def under (k : BitVec 3) (z : Bool) (rm : BitVec 3) (vc : BitVec 5) (s : State) : State :=
  { s with issue := { s.issue with lone := false, slotA := true, vx := some ⟨k, z, rm, vc⟩ } }
def low (n : Nat) (v : VReg) : Nat := v.toNat % 2 ^ n

theorem test_vadd_wraps : completes (.vadd 3 1 2 4) sVec (fun t => low 32 (t.me.getV 3) == 0x05020304) = true := by decide +kernel
theorem test_vadd_merges : completes (.vadd 3 1 2 4) (under 1 false 0 0 sVec) (fun t => low 32 (t.me.getV 3) == 0x77027704) = true := by
  decide +kernel
theorem test_vadd_zeroes : completes (.vadd 3 1 2 4) (under 1 true 0 0 sVec) (fun t => low 32 (t.me.getV 3) == 0x00020004) = true := by
  decide +kernel
theorem test_vadds_saturates : completes (.vadds 3 1 2 4) sVec (fun t => low 32 (t.me.getV 3) == 0x05FF03FF && bit t.me.fflags 5) = true := by
  decide +kernel
theorem test_vcmp : completes (.vcmp 2 1 1 2 4) sVec (fun t => t.me.getK 1 % 16#1024 == 6#1024) = true := by decide +kernel
theorem test_vred : completes (.vred 3 1 0 4) sVec (fun t => low 8 (t.me.getV 3) == 2) = true := by decide +kernel
theorem test_viota : completes (.viota 3 1 4) sVec (fun t => low 32 (t.me.getV 3) == 0x08070605) = true := by decide +kernel
theorem test_vfadd : completes (.vfadd 3 1 2 14)
    (onCore 0 (core 0 { thread [] with v := [(1, 0x3F800000), (2, 0x40400000)] })) (fun t => low 32 (t.me.getV 3) == 0x40800000) = true := by
  decide +kernel
theorem test_kfirst : completes (.kfirst 3 1) sVec (fun t => t.me.getX 3 == 0) = true := by decide +kernel
theorem test_kpopc : completes (.kpopc 3 1) sVec (fun t => t.me.getX 3 == 4) = true := by decide +kernel
theorem test_vquant_needs_prefix : (legalHere sVec (.vquant 3 1 0 14 10), legalHere (under 0 false 0 4 sVec) (.vquant 3 4 0 14 10))
    = (false, true) := by decide +kernel

theorem wit_int_lanes : (∀ t ∈ [0#4, 3#4, 7#4], legal sVec [.vadd 3 1 2 t, .vsub 3 1 2 t, .vmul 3 1 2 t, .vmulh 3 1 2 t, .vmin 3 1 2 t,
    .vmax 3 1 2 t, .vand 3 1 2 t, .vor 3 1 2 t, .vxor 3 1 2 t, .vshl 3 1 2 t, .vshr 3 1 2 t, .vadds 3 1 2 t, .vsel 3 1 2 t,
    .vcmp 0 1 1 2 t, .vcmp 3 7 1 2 t] = true) ∧ legal sVec [.vsra 3 1 2 0, .vsra 3 1 2 3, .vabs 3 1 0, .vabs 3 1 8, .vadd 3 1 2 8] = true ∧
    legal (under 1 true 0 0 sVec) [.vadd 3 1 2 0, .vcmp 0 1 1 2 0] = true := by decide +kernel
theorem wit_float_lanes : (∀ t ∈ [12#4, 13#4, 14#4, 15#4], legal sVec [.vfadd 3 1 2 t, .vfsub 3 1 2 t, .vfmul 3 1 2 t, .vfma 3 1 2 t] = true)
    ∧ (∀ t ∈ [9#4, 12#4, 15#4], legal sVec [.vfmin 3 1 2 t, .vfmax 3 1 2 t, .vfabs 3 1 t, .vfcmp 0 1 1 2 t, .vfcmp 3 7 1 2 t] = true)
    ∧ (∀ t ∈ [12#4, 13#4, 14#4], legal sVec [.vexp2 3 1 t, .vlog2 3 1 t, .vrcp 3 1 t, .vrsqrt 3 1 t, .vsin 3 1 t, .vtanh 3 1 t, .vsigm 3 1 t]
      = true) ∧ legal sVec [.vfdot 3 1 2 9, .vfdot 3 1 2 13] = true := by decide +kernel
theorem wit_moves : legal sVec [.vbcast 3 1 2 0, .vslide 3 1 2 15, .vmvs 3 1 2 0, .vperm 3 1 2 0, .vzip 4 1 2 0, .vmov 3 1 0,
    .vcompress 3 1 0, .vexpand 3 1 0, .viota 3 1 7, .vmvx 3 1 0] = true ∧ readX 2 sVec = .ok 1 sVec ∧ goes (writeX 3 0) sVec = true :=
  ⟨by decide +kernel, rfl, by decide +kernel⟩
theorem wit_conversions : legal sVec [.vcvt 4 1 0 12 14, .vcvt 3 4 0 14 12, .vcvt 3 1 1 0 0] = true ∧
    legal (under 0 false 0 4 sVec) [.vquant 3 4 0 14 10, .vdeq 4 3 0 10 14] = true := by decide +kernel
theorem wit_reductions : legal sVec [.vred 3 1 0 0, .vred 3 1 5 8, .vscan 3 1 0 15, .vscan 3 1 2 9, .vtopk 1 1 2 0] = true := by
  decide +kernel
theorem wit_masks : legal sVec [.kand 1 2 3, .kor 1 2 3, .kxor 1 2 3, .knot 1 2, .kmov 1 2 0, .kmov 1 3 1, .kmov 3 1 2, .kpopc 3 1,
    .kfirst 3 1] = true ∧ (sVec.me.getK 1 &&& sVec.vmask).getLsbD 0 = true ∧ sVec.me.getK 2 &&& sVec.vmask = 0 := by decide +kernel
/-- Positions 0 and 1 of a mask, of inputs and of old elements; and a mask with no bit set. -/
theorem wit_policy : [true, false][0]? = some true ∧ [true, false][1]? = some false ∧ (∀ b ∈ [false, false], b = false) := by decide

/-- Tile mode on with two tiles, in the floating-point mode and in the integer one. -/
abbrev sTile (acc : Bool) : State :=
  onCore 0 (core 0 ({ thVec with tstat := 0 }.setTstat 12 10 (if acc then 7 else 3)))
theorem wit_trellis : legal sVec [.tmodeOn 1 0 14, .tmodeOn 0 1 2, .tmodeOff, .tzero 0, .top 0 1 2 0, .top 1 1 2 13, .tops 0 3 1 2 9,
    .trowst 1 3] = true ∧ tileOk sVec.me 0 = false ∧ tileOk (sTile false).me 0 = true ∧ tileOk (sTile false).me 1 = true ∧
    (sTile false).me.acc = false ∧ (sTile true).me.acc = true ∧ tileOk (sTile true).me 1 = true := by decide +kernel
theorem test_top_needs_mode : trapsWith (.top 0 1 2 0) sVec .illegalInstruction 0 = true ∧
    trapsWith (.top 0 1 2 0) (sTile false) .illegalInstruction 0 = true := by decide +kernel
theorem test_tmode_on : completes (.tmodeOn 1 0 14) sVec (fun t => t.me.tm && t.me.tiles && !t.me.acc) = true := by decide +kernel

/-! ### Global memory -/

/-- x1 = 0x1000, x2 = 7, x4 = 0x1001; the cached page maps every address to itself. -/
abbrev sMem : State := cpu [(1, 0x1000), (2, 7), (4, 0x1001)]
/-- The translation of an address by the cached page. -/
def hitFor (nd : Rights) (pa : Nat) : Xlat := ⟨pa, nd, none, none, []⟩
abbrev hit (pa : Nat) : Xlat := hitFor .read pa
/-- The same with memory that holds 1 to 16 at 0x1000. -/
abbrev sMemFull : State := { sMem with mem := (List.range 16).map fun i => (0x1000 + i, BitVec.ofNat 8 (i + 1)) }

theorem test_ld_sign : completes (.ldB 3 1 0) { sMem with mem := [(0x1000, 0x80)] } (fun t => t.me.getX 3 == 0xFFFFFFFFFFFFFF80) = true := by
  decide +kernel
theorem test_ld_order : completes (.ldW 3 1 1) sMemFull (fun t => t.me.getX 3 == 0x08070605) = true := by decide +kernel
theorem test_ldq : completes (.ldQ 4 1 0) sMemFull (fun t => t.me.getX 4 == 0x0807060504030201 && t.me.getX 5 == 0x100F0E0D0C0B0A09) = true := by
  decide +kernel
theorem test_st : completes (.stH 2 1 1) sMemFull (fun t => readByte t 0 0x1002 == some 7 && readByte t 0 0x1003 == some 0
    && readByte t 0 0x1001 == some 2 && readByte t 0 0x1004 == some 5) = true := by decide +kernel
theorem test_ld_misaligned : trapsWith (.ldW 3 4 0) sMem .misalignedAccess 0x1001 = true := by decide +kernel
theorem test_ld_range : trapsWith (.ldW 3 5 0) (cpu [(5, 0x10000000000000)]) .addressRange 0x10000000000000 = true := by decide +kernel
theorem test_amo : completes (.amoadd 3 1 2 0) sMemFull (fun t => t.me.getX 3 == 0x04030201 && readByte t 0 0x1000 == some 8) = true := by
  decide +kernel
theorem test_cas_fails : completes (.cas 3 1 2 0) sMemFull (fun t => t.me.getX 3 == 0x04030201 && readByte t 0 0x1000 == some 1) = true := by
  decide +kernel
theorem test_amoz_descriptor : trapsWith (.amoz 3 1 2 0) sMemFull .descriptorFormat 0x1008 = true := by decide +kernel
theorem test_vld : completes (.vld 3 1 0 0 0) sMemFull (fun t => t.me.getV 3 == 0x100F0E0D0C0B0A090807060504030201) = true := by
  decide +kernel
theorem test_vlds_range : trapsWith (.vlds 3 1 4 0 0 0) (cpu [(1, 0x1000), (4, 0x1000000000000)]) .operandRange 0 = true := by decide +kernel
theorem test_czero_range : trapsWith (.czero 1 2) sMem .operandRange 0 = true := by decide +kernel

theorem wit_loads : readX 1 sMem = .ok 0x1000 sMem ∧
    (∀ i ∈ [(.ldB : BitVec 5 → BitVec 5 → BitVec 12 → Instr), .ldBu, .ldH, .ldHu, .ldW, .ldWu, .ldD],
      ∀ d ∈ [0#5, 3#5, 31#5], legalHere sMem (i d 1 0) = true) ∧ legalHere sMem (.ldQ 2 1 0) = true ∧
    (∀ n ∈ [1, 2, 4, 8, 16], readNear (sMem.touched [hit 0x1000]) 0 0 0x1000 n = some 0) :=
  ⟨rfl, by decide +kernel, by decide +kernel, by decide +kernel⟩
theorem wit_reachable : (∀ n ∈ [1, 2, 4, 8, 16], Reachable .read sMem [(0x1000, n)] [hit 0x1000]) ∧
    (∀ n ∈ [1, 2, 4, 8, 16], Reachable .write (after (gateStores 1) sMem) [(0x1000, n)] [hitFor .write 0x1000]) ∧
    (∀ n ∈ [4, 8, 16], Reachable .atomic (after pin sMem) [(0x1000, n)] [hitFor .atomic 0x1000]) := by
  unfold Reachable Passes; decide +kernel
/-- What stops an access: no translation, a page that is not present, a held sector, no entries. -/
theorem wit_access_stops : xlate sMem 0 0 (2 ^ 52) .read false = .error .addressRange ∧
    xlate sMem 0 0 (2 ^ 40) .read false = .error .notPresent ∧ walkHeld sMem sMem.agent 0 0 .read 0x1000 = false ∧
    walkHeld { sMem with holds := [⟨.host, 0, homeSlice sMem 0 0, none⟩] } sMem.agent 0 0 .read (2 ^ 40) = true ∧
    partHeld { sMem with holds := [⟨.host, 128, homeSlice sMem 0 0x1000, none⟩] } sMem.agent 0 (hit 0x1000) = true ∧
    poolHas (onCore 0 (core 0 { thread [] with requests := [⟨1, false, 512, [], 0, 0⟩] })) 1 = false := by decide +kernel
theorem wit_poison : readNear ({ sMem with poison := [128] }.touched [hit 0x1000]) 0 0 0x1000 4 = none ∧
    readPa ({ sMem with poison := [128] }.touched [hitFor .atomic 0x1000]) 0 0x1000 4 = none ∧
    (storeParts ({ sMem with poison := [128] }.touched [hitFor .write 0x1000]) [hitFor .write 0x1000] [((0x1000, 4), 7)]).isNone = true ∧
    sMem.gates = false := by decide +kernel
theorem wit_stores : (∀ i ∈ [(.stB : BitVec 5 → BitVec 5 → BitVec 12 → Instr), .stH, .stW, .stD], legalHere sMem (i 2 1 0) = true) ∧
    legalHere sMem (.stQ 2 1 0) = true ∧ readX 2 sMem = .ok 7 sMem ∧
    (storeParts (sMem.touched [hitFor .write 0x1000]) [hitFor .write 0x1000] [((0x1000, 8), 7)]).isSome = true ∧
    readX 4 sMem = .ok 0x1001 sMem :=
  ⟨by decide +kernel, by decide +kernel, rfl, by decide +kernel, rfl⟩
theorem wit_atomics : (∀ sz ∈ [0#2, 1#2], legal sMem [.amoadd 3 1 2 sz, .amoand 3 1 2 sz, .amoor 3 1 2 sz, .amoxor 3 1 2 sz,
    .amomin 3 1 2 sz, .amomax 3 1 2 sz, .amominu 3 1 2 sz, .amomaxu 3 1 2 sz, .amoswap 3 1 2 sz, .amofadd 3 1 2 sz, .cas 3 1 2 sz,
    .amoz 3 1 2 sz] = true) ∧ legalHere sMem (.cas2 2 1 4) = true := by decide +kernel
/-- The old value is, and is not, the expected one; an AMOZ descriptor is good, malformed, and names no core and no package. -/
theorem wit_cas_and_amoz : (0 = (sMem.me.getX 3).toNat % 256 ^ 4) ∧ (0 ≠ (sMem.me.getX 2).toNat % 256 ^ 4) ∧
    (let good := fun (d : Nat) => (decide (d % 2 ^ 64 / 2 ^ 34 = 0), decide (d % 2 ^ 10 < 768), decide (d / 2 ^ 10 % 2 ^ 16 < sMem.npkgs))
     good 767 = (true, true, true) ∧ good 768 = (true, false, true) ∧ good (2 ^ 10) = (true, true, false) ∧ good (2 ^ 34) = (false, true, true)) := by
  decide +kernel
theorem wit_ranges : (partsOf 0x101 64)[1]? = some (0x120, 32) ∧ (partsOf 0x101 64)[2]? = some (0x140, 1) := by decide +kernel
theorem wit_vector_contiguous : legal sMem [.vld 3 1 0 0 0, .vld 3 1 1 1 1, .vst 3 1 0] = true ∧
    Reachable .read sMem (partsOf 0x1000 512) ((List.range 16).map fun i => hit (0x1000 + 32 * i)) ∧
    Reads (sMem.touched ((List.range 16).map fun i => hit (0x1000 + 32 * i))) ((List.range 16).map fun i => hit (0x1000 + 32 * i))
      (partsOf 0x1000 512) (List.replicate 16 0) ∧
    Reachable .write (after (gateStores 16) sMem) (partsOf 0x1000 512) ((List.range 16).map fun i => hitFor .write (0x1000 + 32 * i)) := by
  unfold Reachable Passes Reads; decide +kernel
/-- x3 names two words at a stride of 4: size code 2, count 2. -/
abbrev sStride : State := cpu [(1, 0x1000), (3, word (2 * 2 ^ 62 + 2 * 2 ^ 52 + 4))]
theorem wit_strided : legal sStride [.vlds 5 1 3 0 0 0, .vsts 5 1 3 0] = true ∧
    Reachable .read sStride [(0x1000, 4), (0x1004, 4)] [hit 0x1000, hit 0x1004] ∧
    Reads (sStride.touched [hit 0x1000, hit 0x1004]) [hit 0x1000, hit 0x1004] [(0x1000, 4), (0x1004, 4)] [0, 0] ∧
    Reachable .write (after (gateStores 2) sStride) [(0x1000, 4), (0x1004, 4)] [hitFor .write 0x1000, hitFor .write 0x1004] := by
  unfold Reachable Passes Reads; decide +kernel
/-- v2 names two elements, at offsets 0 and 8; every other offset is all ones. -/
def vIdx : VReg := BitVec.allOnes 4096 - BitVec.ofNat 4096 (2 ^ 32 - 1 + (2 ^ 32 - 9) * 2 ^ 32)
abbrev sIdx : State := onCore 0 (core 0 { thread [(1, 0x1000)] with v := [(2, vIdx)] })
theorem wit_indexed : legal sIdx [.vgath 3 1 2 0 0, .vscat 3 1 2 0] = true ∧ indexParts 0x1000 vIdx = [(0, 0x1000), (1, 0x1008)] ∧
    Reachable .read sIdx [(0x1000, 4), (0x1008, 4)] [hit 0x1000, hit 0x1008] ∧
    Reads (sIdx.touched [hit 0x1000, hit 0x1008]) [hit 0x1000, hit 0x1008] [(0x1000, 4), (0x1008, 4)] [0, 0] ∧
    Reachable .write (after (gateStores 2) sIdx) [(0x1000, 4), (0x1008, 4)] [hitFor .write 0x1000, hitFor .write 0x1008] := by
  unfold Reachable Passes Reads; decide +kernel
/-- One block of FP6 from an aligned address; 0 and 17 blocks and reserved bits are out of range. -/
theorem wit_packed : legal sMem [.vldp 3 1 2 0 0 0, .vstp 3 1 2 0] = true ∧
    (∀ y ∈ [1, 16, 0x110], 1 ≤ y % 32 ∧ y % 32 ≤ 16 ∧ y / 2 ^ 9 = 0 ∧ y / 2 ^ 5 % 8 = 0) ∧
    (∀ y ∈ [0, 17, 0x21], ¬ (1 ≤ y % 32 ∧ y % 32 ≤ 16 ∧ y / 2 ^ 9 = 0 ∧ y / 2 ^ 5 % 8 = 0)) ∧
    Reachable .read sMem (partsOf 0x1000 24) [hit 0x1000] ∧ Reads (sMem.touched [hit 0x1000]) [hit 0x1000] (partsOf 0x1000 24) [0] ∧
    Reachable .write (after (gateStores 1) sMem) (partsOf 0x1000 24) [hitFor .write 0x1000] ∧ (1000 : Nat) % 8 = 0 ∧ (1001 : Nat) % 8 ≠ 0 := by
  unfold Reachable Passes Reads; decide +kernel
theorem wit_pref_czero : legal sMem [.pref 1 0 0, .pref 1 1 1, .czero 1 2] = true ∧ poolHas sMem 16 = true ∧
    (∀ y ∈ [32, 0x100000], y ≠ 0 ∧ y % 32 = 0 ∧ y ≤ 2 ^ 20) ∧
    (∀ y ∈ [31, 0x100020], ¬ (y % 32 = 0 ∧ y ≤ 2 ^ 20)) ∧ xlate sMem 0 0 0x1000 .write false = .ok (hitFor .write 0x1000) ∧
    Reachable .write sMem [(0x1000, 32)] [hitFor .write 0x1000] ∧ freeEntries sMem = 512 := by
  unfold Reachable Passes; decide +kernel
/-- A turn that performs three of the sixteen parts of a VST; the word of which they are done, and its end. -/
theorem wit_parts :
    let s : State := { sMem with issue := { sMem.issue with quota := some 3 } }
    let ps := partsOf 0x1000 512
    let xs := ps.map fun p => hitFor .write p.1
    let th : Thread := { sMem.me with progress := some ⟨ps.map (·.1), [], 3⟩ }
    Passes .write s ps xs ∧ s.partsNow 16 = 3 ∧ (storeParts (s.touched xs) (xs.take 3) ((splitValue ps 7).take 3)).isSome = true ∧
    (sMem.setMe th).partsNow 16 = 13 ∧ (xs.drop 3).any (partHeld (sMem.setMe th) sMem.agent 0) = false ∧
    (storeParts (sMem.setMe th) (xs.drop 3) ((splitValue ps 7).drop 3)).isSome = true := by
  unfold Passes; decide +kernel
/-- The second element is the first that is misaligned, and the first that does not translate. -/
theorem wit_index_stops :
    let es : List (Nat × Nat) := [(0, 0x1000), (1, 0x1001), (2, 2 ^ 52)]
    es = [(0, 0x1000)] ++ (1, 0x1001) :: [(2, 2 ^ 52)] ∧ (0x1001 : Nat) % 4 ≠ 0 ∧
    xlate sIdx 0 0 0x1000 .read false = .ok (hit 0x1000) ∧ xlate sIdx 0 0 (2 ^ 52) .read false = .error .addressRange ∧
    ([0x1000, 0x1001].find? fun va => va % 4 != 0) = some 0x1001 := by decide +kernel

/-! ### Local memory -/

/-- x1 = 0x8000 in the data region, x4 = 0x3DFFC near its end; granule 0x800 holds 1 to 8 and is full. -/
abbrev kLoc : Core :=
  { (core 0 (thread [(1, 0x8000), (2, 7), (4, 0x3DFFC)])) with
    lmem := (List.range 8).map fun i => (0x8000 + i, BitVec.ofNat 8 (i + 1)) }.setFull 0x800 1
abbrev sLoc : State := onCore 0 kLoc

theorem test_lld : completes (.lld 3 1 4 0) sLoc (fun t => t.me.getX 3 == 0x04030201) = true := by decide +kernel
theorem test_lld_wfc_clears : completes (.lldWfc 3 1 6 0) sLoc (fun t => t.me.getX 3 == 0x0807060504030201 && !t.myCore.full.getLsbD 0x800) = true := by
  decide +kernel
theorem test_lld_wf_waits : waitsFor (.lldWf 3 1 6 2) sLoc (.granules 0x801 1 true) = true := by decide +kernel
theorem test_lst_wesf : completes (.lstWesf 2 1 6 2) sLoc (fun t => Mem.read t.myCore.lmem 0x8010 8 == 7 && t.myCore.full.getLsbD 0x801) = true := by
  decide +kernel
theorem test_local_range : trapsWith (.lld 3 5 6 0) (cpu [(5, 0x3DFFC)]) .misalignedAccess 0x3DFFC = true
    ∧ trapsWith (.lld 3 5 4 0) (cpu [(5, 0x40000)]) .localRange 0 = true := by decide +kernel
theorem test_lamoadd : completes (.lamoadd 3 1 2) sLoc (fun t => t.me.getX 3 == 0x0807060504030201 && Mem.read t.myCore.lmem 0x8000 8 == 0x0807060504030208) = true := by
  decide +kernel

theorem wit_local_loads : (∀ sz ∈ [0#3, 1#3, 2#3, 3#3, 4#3, 5#3, 6#3], legal sLoc [.lld 3 1 sz 0, .lldWf 3 1 sz 0, .lldWfc 3 1 sz 0] = true)
    ∧ legal sLoc [.lld 2 1 7 0, .lldWf 2 1 7 0, .lldWfc 2 1 7 0] = true ∧ readX 1 sLoc = .ok 0x8000 sLoc ∧ goes (writeX 3 0) sLoc = true :=
  ⟨by decide +kernel, by decide +kernel, rfl, by decide +kernel⟩
theorem wit_local_stores : (∀ sz ∈ [0#3, 2#3, 4#3, 6#3, 7#3], legal sLoc [.lst 2 1 sz 0, .lstSf 2 1 sz 0, .lstWesf 2 1 sz 0] = true) ∧
    readX 2 sLoc = .ok 7 sLoc ∧ readX 3 sLoc = .ok 0 sLoc := ⟨by decide +kernel, rfl, rfl⟩
/-- The data region ends at 0x3E000 with no exchange window: accesses at its last doubleword, past it, misaligned, and past the end. -/
theorem wit_local_checks : LocalOpen kLoc 0x3DFF8 8 8 ∧ LocalOpen kLoc 0x8000 8 8 ∧
    (0x3DFFC + 8 ≤ 2 ^ 18 ∧ 0x3DFFC % 8 ≠ 0) ∧ (0x3E000 + 8 ≤ 2 ^ 18 ∧ 0x3E000 % 8 = 0 ∧ kLoc.xb + kLoc.xw < 0x3E000 + 8) ∧
    2 ^ 18 < 0x3FFFF + 8 := by unfold LocalOpen; decide +kernel
theorem wit_granules : Served sLoc 0x800 1 true ∧ ¬ Served sLoc 0x801 1 true ∧ Served sLoc 0x801 1 false ∧ ¬ Served sLoc 0x800 1 false := by
  unfold Served; decide +kernel
theorem wit_local_vectors : legal sLoc [.vlld 3 1 0, .vlld 3 1 1, .vlld 3 1 2, .vlst 3 1 0, .vlst 3 1 1, .vlst 3 1 2, .lamoadd 3 1 2,
    .lcas 3 1 2] = true ∧ LocalOpen kLoc 0x8000 512 16 ∧ ¬ Served sLoc 0x800 32 true ∧ Served sLoc 0x820 32 false ∧
    ¬ Served sLoc 0x800 32 false ∧ Served (onCore 0 (kLoc.setFull 0x800 32)) 0x800 32 true := by
  unfold LocalOpen Served; decide +kernel
/-- An exchange window of one bank of 4,096 bytes on cores 0 to 3 of the launch. -/
abbrev kXch : Core :=
  { core 0 (thread [(1, word (2 ^ 18 + 0x3C000)), (2, 7), (3, word (2 ^ 28)), (4, word (4 * 2 ^ 18 + 0x3C000)), (5, word (2 ^ 18 + 0x3BFF8))]) with
    bound := some ⟨⟨0, 1, 0, 0, 0, 0, false⟩, { aLaunch with xw := 1 }, 0⟩ }
abbrev sXch : State := { onCore 0 kXch with cores := [(0, kXch), (1, kXch)] }
theorem wit_exchange : legal sXch [.xst 2 1, .vxst 3 1, .lgath 3 1 4] = true ∧ kXch.xb = 0x3C000 ∧ kXch.xw = 0x1000 ∧ sXch.inLaunch 1 = true ∧
    sXch.inLaunch 4 = false ∧ launchHere sXch 1 (sXch.coreOrder 0) = some true ∧ readX 1 sXch = .ok (word (2 ^ 18 + 0x3C000)) sXch :=
  ⟨by decide +kernel, by decide +kernel, by decide +kernel, by decide +kernel, by decide +kernel, by decide +kernel, rfl⟩
/-- Core 1 is fenced: a store to it waits. -/
abbrev sAway : State := { onCore 0 kXch with cores := [(0, kXch), (1, { kXch with fenced := true })] }
theorem wit_exchange_waits : sXch.away 1 = false ∧ sAway.inLaunch 1 = true ∧ sAway.away 1 = true ∧ waitsFor (.xst 2 1) sAway .held = true ∧
    readX 2 sXch = .ok 7 sXch := ⟨by decide +kernel, by decide +kernel, by decide +kernel, by decide +kernel, rfl⟩
theorem test_xst : completes (.xst 2 1) sXch (fun t => Mem.read (t.core 1).lmem 0x3D000 8 == 7 && (t.core 1).full.getLsbD 0x3D00) = true := by
  decide +kernel
theorem test_xst_traps : trapsWith (.xst 2 3) sXch .operandRange 0 = true ∧ trapsWith (.xst 2 4) sXch .invalidTarget 0 = true ∧
    trapsWith (.xst 2 5) sXch .localProtection 0x3BFF8 = true := by decide +kernel
/-- Rows of 16 bytes at 0x8000: index 0, and the index that names none. -/
theorem wit_lgath : 0x8000 / 2 ^ 20 = 0 ∧ 0x8000 / 2 ^ 18 % 4 ≠ 3 ∧ (3 * 2 ^ 18) / 2 ^ 18 % 4 = 3 ∧ 0x8000 + 16 ≤ kLoc.xb + kLoc.xw ∧
    kLoc.xb + kLoc.xw ≤ 2 ^ 18 ∧ (∀ i, i < 32 → (BitVec.ofNat 4096 0xFFFF).toNat / 2 ^ (16 * i) % 2 ^ 16 = 0xFFFF ∨
      0x8000 + 16 * ((BitVec.ofNat 4096 0xFFFF).toNat / 2 ^ (16 * i) % 2 ^ 16) + 16 ≤ kLoc.xb + kLoc.xw) := by decide +kernel

/-! ### Control flow, state registers, system words -/

abbrev sFlow : State := cpu [(1, 5), (2, -3), (3, 5), (4, 0x1002), (6, 0x1000), (7, 0x10000000000000)]

theorem test_beq : completes (.beq 1 3 4) sFlow (fun t => t.me.pc == 80) = true ∧ completes (.beq 1 2 4) sFlow (fun t => t.me.pc == 68) = true := by
  decide +kernel
theorem test_blt_signed : completes (.blt 2 1 4) sFlow (fun t => t.me.pc == 80) = true ∧ completes (.bltu 2 1 4) sFlow (fun t => t.me.pc == 68) = true := by
  decide +kernel
theorem test_bne_back : completes (.bne 1 0 0x7FF8) sFlow (fun t => t.me.pc == 32) = true := by decide +kernel
theorem test_jal : completes (.jal 1 0x100) sFlow (fun t => t.me.pc == 64 + 0x400 && t.me.getX 1 == 68) = true := by decide +kernel
theorem test_jalr_misaligned : trapsWith (.jalr 1 4 0) sFlow .misalignedPair 0x1002 = true ∧ trapsWith (.jalr 1 7 0) sFlow .addressRange 0x10000000000000 = true := by
  decide +kernel
theorem test_srwr_frm : completes (.srwr 0 1 2) sFlow (fun t => t.me.frm == 5) = true ∧ completes (.srwr 0 1 2) (cpu [(1, 6)]) (fun t => t.me.frm == 0) = true := by
  decide +kernel
theorem test_srrd_closed : trapsWith (.srrd 3 0x030) sFlow .illegalInstruction 0 = true := by decide +kernel

theorem wit_branches : legal sFlow [.beq 1 3 4, .bne 1 2 4, .blt 2 1 4, .bge 1 2 4, .bltu 1 2 4, .bgeu 2 1 4, .jal 1 0x100, .jalr 0 6 0,
    .bkany 1 8, .bkall 0 8] = true ∧ readX 1 sFlow = .ok 5 sFlow ∧ readX 2 sFlow = .ok (-3) sFlow ∧ goes (writeX 1 68) sFlow = true ∧
    sFlow.me.getK 1 = 0 ∧ sFlow.me.getK 0 = BitVec.allOnes 1024 :=
  ⟨by decide +kernel, rfl, rfl, by decide +kernel, by decide +kernel, by decide +kernel⟩
theorem wit_jalr : (0x1000#64).toNat % 4 = 0 ∧ (0x1002#64).toNat % 4 ≠ 0 ∧ (0xFFFFFFFFFFFFC#64).toNat < 2 ^ 52 ∧ 2 ^ 52 ≤ (0x10000000000000#64).toNat := by
  decide +kernel
/-- A thread in supervisor code, and one in its hook. -/
abbrev sSup : State := onCore 0 (core 0 ({ thread [(1, 5), (2, 1), (3, 2)] with sframe := 0x2000 }.setTstat 15 15 1))
abbrev sHook : State := onCore 0 (core 0 ({ thread [] with fframe := 0x8000 }.setTstat 14 14 1))
theorem wit_sregs : SregOpen sFlow 0x000 ∧ SregOpen sFlow 0x004 ∧ SregOpen sFlow 0x021 ∧ ¬ SregOpen sFlow 0x030 ∧ ¬ SregOpen sFlow 0x009 := by
  unfold SregOpen; decide +kernel
theorem wit_sregs_modes : SregOpen sSup 0x031 ∧ ¬ SregOpen (handler true [] []) 0x010 ∧ SregRo 0x005 ∧ ¬ SregRo 0x004 := by
  unfold SregOpen SregRo; decide +kernel
theorem wit_sreg_words : legal sFlow [.srrd 3 0, .srwr 3 1 4, .srset 3 1 1, .srclr 3 1 1] = true := by decide +kernel
theorem wit_system : legal sFlow [.syscall, .tret, .wfi, .tlbinv 1 2, .seedset 1, .cflush 6 0, .isync, .fence 0 0, .fence 1 1, .pair 5, .unpair 5]
    = true ∧ sFlow.me.sv = false ∧ sFlow.me.ha = false ∧ sSup.me.sv = true ∧ sHook.me.ha = true ∧ sHook.me.sv = false ∧ sFlow.issue.lone = true ∧
    (under 0 false 0 0 sFlow).issue.lone = false ∧ sSup.me.latch = false := by decide +kernel
theorem wit_tret_hook : sHook.me.fframe.toNat + 512 ≤ 2 ^ 18 ∧ sHook.me.fframe.toNat + 512 ≤ sHook.myCore.xb + sHook.myCore.xw ∧
    infoReserved ((frameWords (Mem.read sHook.myCore.lmem 0x8000 512)).getD 1 0) = false ∧ infoReserved 0x1000 = true ∧
    infoReserved 0x3F0FFF = false := by decide +kernel
theorem wit_tret_supervisor : Reachable .read sSup (partsOf 0x2000 512) ((List.range 16).map fun i => hit (0x2000 + 32 * i)) ∧
    Reads (sSup.touched ((List.range 16).map fun i => hit (0x2000 + 32 * i))) ((List.range 16).map fun i => hit (0x2000 + 32 * i))
      (partsOf 0x2000 512) (List.replicate 16 0) := by unfold Reachable Passes Reads; decide +kernel
theorem test_syscall_in_supervisor : trapsWith .syscall sSup .illegalInstruction 0 = true := by decide +kernel
/-- The frame of a hook holds a pc with its low bits set: the thread goes on with them zero. -/
theorem test_tret_hook : completes .tret sHook (fun t => !t.me.ha && t.me.pc == 0) = true ∧
    completes .tret (onCore 0 ({ sHook.myCore with lmem := Mem.write [] 0x8000 8 0x1007 })) (fun t => t.me.pc == 0x1004) = true := by
  decide +kernel
theorem wit_tlbinv : readX 2 sSup = .ok 1 sSup ∧ readX 3 sSup = .ok 2 sSup ∧ (0#64 : Word).toNat < 2 := ⟨rfl, rfl, by decide⟩
theorem test_wfi : waitsFor .wfi sSup (.interrupt false) = true := by decide +kernel
theorem wit_seedset : sSup.holds.any (fun h => h.slice == homeSlice sSup sSup.mySeed (32 * h.sector)) = false ∧
    { sSup with holds := [⟨.host, 128, homeSlice sSup 0 0x1000, none⟩] }.holds.any
      (fun h => h.slice == homeSlice sSup sSup.mySeed (32 * h.sector)) = true := by decide +kernel
theorem wit_cflush : (0x1000 % 32 = 0 ∧ (32 % 32 = 0 ∧ 32 ≤ 2 ^ 30) ∧ ¬ (33 % 32 = 0 ∧ 33 ≤ 2 ^ 30) ∧ ¬ (2 ^ 30 + 32 ≤ 2 ^ 30)) ∧ poolHas sFlow 1 = true ∧
    xlate sFlow 0 0 0x1000 .read false = .ok (hit 0x1000) ∧ partHeld sFlow sFlow.agent 0 (hit 0x1000) = false := by decide +kernel
/-- A copy in flight and a remote access in flight hold a FENCE. -/
theorem wit_fence : copiesPending sFlow = false ∧ remotesPending sFlow = false ∧
    copiesPending (onCore 0 { core 0 (thread []) with copies := [(0, ⟨1, 0, false, 0, 0, 1, false, 0, 0, 0, 0, 0, 0⟩)] }) = true := by
  decide +kernel
/-- Both cores of a pair in one launch; a launch that is checked already; a pair formed; the partner outside the launch. -/
theorem wit_pairing : sXch.inLaunch 1 = true ∧ sXch.myCore.pair = .none ∧ sXch.me.wait ≠ .paired ∧ allWait sXch 0 .pairing = true ∧
    allWait sXch 1 .pairing = false ∧ { kXch with pair := .leader 1 }.pair ≠ .none ∧
    (onCore 0 { kXch with bound := some ⟨⟨0, 1, 0, 0, 0, 0, false⟩, { aLaunch with count := 1 }, 0⟩ }).inLaunch 1 = false := by decide +kernel
/-- VX before VADD, and a repetition of four before VADD, one before ADD. -/
theorem wit_prefixes : (let s := { sFlow with issue := { sFlow.issue with lone := false, w0 := 0x3C0C0000, w1 := 0x54044080 } }
     s.issue.lone = false ∧ s.isTh = false ∧ decodeWord s.issue.w1 = .ok (.vadd 0 8 16 2) ∧
     legalHere { s with issue := { s.issue with slotA := true, vx := some ⟨0, false, 3, 0⟩ } } (.vadd 0 8 16 2) = false ∧
     legalHere { s with issue := { s.issue with slotA := true, vx := some ⟨1, true, 0, 0⟩ } } (.vadd 0 8 16 2) = true ∧
     (List.range 4).all (fun j => (repInstr s j 1 1 1).isSome) = true ∧ s.me.rep ≤ 3) ∧
    (let s := { sFlow with issue := { sFlow.issue with lone := false, w0 := 0x3E000000, w1 := 0x40328400 } }
     repInstr s 0 0 0 0 = some (.add 3 5 1) ∧ repInstr s 27 1 0 0 = none ∧ legalHere { s with issue := { s.issue with slotA := true } } (.add 3 5 1) = true) := by
  decide +kernel

/-! ### Tasks, events, barriers -/

/-- A join record at 0x8000 with this count and these flags; x1 names a pc, x2 the record. -/
def kTask (count flags : Nat) (th : Thread) : Core := { (core 0 th) with lmem := Mem.write (Mem.write [] 0x8000 8 count) 0x8008 8 flags }
abbrev thTask : Thread := thread [(1, 0x1000), (2, 0x8000), (3, 33), (4, 0x1002), (5, 0x10000000000000)]
def sTask (count flags : Nat) : State := onCore 0 (kTask count flags thTask)
/-- The thread runs a task whose parent waits at 0x8000 of core 0. -/
def sChild (count flags : Nat) : State := onCore 0 (kTask count flags { thTask with taskref := 0x10008000 })

theorem test_fork : completes (.fork 6 1 2) (sTask 0 0) (fun t => t.me.getX 6 == 1 && joinCount t.myCore 0x8000 == 1
    && t.myCore.deque == [⟨0x1000, 33, 0x1002, 0x10000000000000, 0, 0, 0, 0, 0x8000, 0⟩]) = true := by decide +kernel
theorem test_fork_parked : trapsWith (.fork 6 1 2) (sTask 1 1) .taskState 0 = true := by decide +kernel
theorem test_join_parks : completes (.join 2) (sTask 1 0) (fun t => t.me.strand == .idle && Mem.read t.myCore.lmem 0x8010 8 == 68
    && Mem.read t.myCore.lmem 0x8018 8 == 0x1000 && (joinFlags t.myCore 0x8000).getLsbD 0) = true := by decide +kernel
theorem test_join_goes_on : completes (.join 2) (sTask 0 0) (fun t => t.me.strand == .running && t.me.pc == 68) = true := by decide +kernel
theorem test_tdone_counts : completes .tdone (sChild 2 0) (fun t => t.me.strand == .idle && joinCount t.myCore 0x8000 == 1) = true := by
  decide +kernel
theorem test_wfe : completes (.wfe 3 1) (onCore 0 (core 0 { thTask with latch := true })) (fun t => t.me.getX 3 == 1 && !t.me.latch) = true ∧
    waitsFor (.wfe 3 1) (sTask 0 0) (.event 0x1000) = true ∧ waitsFor (.wfe 3 0) (sTask 0 0) (.event (2 ^ 40)) = true := by decide +kernel
theorem test_sev : completes (.sev 0) (sTask 0 0) (fun t => t.me.latch) = true := by decide +kernel

theorem wit_fork : legal (sTask 0 0) [.fork 6 1 2, .fork 0 1 2, .fork 31 1 2] = true ∧ readX 1 (sTask 0 0) = .ok 0x1000 (sTask 0 0) ∧
    readX 2 (sTask 0 0) = .ok 0x8000 (sTask 0 0) ∧ joinCheck (sTask 0 0).myCore 0x8000 = none ∧ goes (writeX 6 1) (sTask 0 0) = true ∧
    (joinFlags (sTask 0 0).myCore 0x8000).getLsbD 0 = false ∧ (joinFlags (sTask 0 1).myCore 0x8000).getLsbD 0 = true ∧
    (joinFlags (sTask 0 2).myCore 0x8000).getLsbD 1 = true ∧ (sTask 0 0).myCore.deque.length < 128 :=
  ⟨by decide +kernel, rfl, rfl, by decide +kernel, by decide +kernel, by decide +kernel, by decide +kernel, by decide +kernel, by decide +kernel⟩
theorem wit_fork_full : 128 ≤ ({ kTask 0 0 thTask with deque := List.replicate 128 ⟨0, 0, 0, 0, 0, 0, 0, 0, 0x8000, 0⟩ } : Core).deque.length := by
  decide +kernel
theorem wit_join : legal (sTask 1 0) [.join 2] = true ∧ joinCount (sTask 0 0).myCore 0x8000 = 0 ∧ joinCount (sTask 1 0).myCore 0x8000 ≠ 0 ∧
    (sTask 1 0).me.mo = [] ∧ ({ thTask with mo := [1] } : Thread).mo ≠ [] := by decide +kernel
theorem wit_tdone : legal (sChild 1 0) [.tdone, .yield, .hbeat] = true ∧ (sTask 0 0).me.taskref.getLsbD 28 = false ∧
    (sChild 1 0).me.taskref.getLsbD 28 = true ∧ (sChild 1 0).me.taskref.toNat / 2 ^ 18 % 2 ^ 10 = 0 ∧
    (sChild 1 0).me.taskref.toNat % 2 ^ 18 = 0x8000 ∧ launchHere (sChild 1 0) 0 ((sChild 1 0).coreOrder 0) ≠ none ∧
    joinCount (sChild 0 0).myCore 0x8000 ≤ 0 ∧ 0 < joinCount (sChild 1 1).myCore 0x8000 ∧
    (joinFlags (sChild 1 1).myCore 0x8000).getLsbD 0 = true := by decide +kernel
/-- The parent of the task lies on core 1. -/
theorem wit_tdone_remote :
    let k := kTask 1 1 { thTask with taskref := 0x10048000 }
    let s := { onCore 0 k with cores := [(0, k), (1, k)] }
    s.me.taskref.toNat / 2 ^ 18 % 2 ^ 10 = 1 ∧ launchHere s 1 (s.coreOrder 0) ≠ none ∧ joinCheck (s.core 1) 0x8000 = none ∧
    0 < joinCount (s.core 1) 0x8000 ∧ joinCount (s.core 1) 0x8000 - 1 = 0 ∧ (joinFlags (s.core 1) 0x8000).getLsbD 0 = true := by
  decide +kernel
theorem wit_events : legal (sTask 0 0) [.wfe 3 1, .sev 1] = true ∧ (sTask 0 0).me.latch = false ∧ (sTask 0 0).me.wait ≠ .eventOver ∧
    (sTask 0 0).inLaunch 3 = true ∧ (sTask 0 0).inLaunch 4 = false ∧ 2 ^ 13 / 2 ^ 13 ≠ 0 ∧ (2 ^ 13 - 1) / 2 ^ 13 = 0 := by decide +kernel

/-- Barrier b5 is local with a count of two and the operation ADD; b6 belongs to the group. -/
def aBar (arrived : Nat) (group tout : Bool) : Barrier :=
  { Barrier.reset with count := 2, op := 0, arrived := arrived, group := group, tout := tout, phase := 9, acc := 4 }
def sBar (arrived : Nat) (group tout : Bool) (w : Wait) : State :=
  onCore 0 { core 0 { thread [(1, 5), (2, 9), (3, 128), (4, 8), (5, 2)] with wait := w } with barriers := [(5, aBar arrived group tout)] }

theorem test_barrive : completes (.barrive 6 1) (sBar 0 false false .none) (fun t => t.me.getX 6 == 9 && (t.myCore.bar 5).arrived == 1
    && (t.myCore.bar 5).phase == 9) = true := by decide +kernel
/-- The answer of the master completes a BARRIVE at a group barrier, and it parts again from a BSYNC, which goes on waiting. -/
theorem test_barrive_group : completes (.barrive 6 1) (sBar 0 true false (.joined 5 9)) (fun t => t.me.getX 6 == 9) = true ∧
    waitsFor (.bsync 1) (sBar 0 true false (.joined 5 9)) (.barrier 5 9) = true ∧
    blocked (sBar 0 true false (.joined 5 9)) (sBar 0 true false (.joined 5 9)).me = false := by decide +kernel
/-- A payload word that an arrival of th has popped is read again when its wait is over. -/
theorem test_barrive_payload : (match exec (.barrive 6 30) (handler true [] [5]) with
    | .next t => t.me.getX 6 == 0 && (t.myCore.act.map (·.left)) == some [] | _ => false) = true ∧
    (let s := handler true [] [5]
     match exec (.barrive 6 30) (s.setMyCore { s.myCore with barriers := [(5, aBar 0 true false)] }) with
    | .next t => t.me.wait == .arrival 5 && (t.myCore.act.map (·.left)) == some [5] | _ => false) = true := by decide +kernel
theorem test_bcomb_releases : completes (.bcomb 6 1 2) (sBar 1 false false .none) (fun t => t.me.getX 6 == 13 && (t.myCore.bar 5).phase == 10) = true := by
  decide +kernel
theorem test_bsync_waits : parksFor (.bsync 1) (sBar 0 false false .none) (.barrier 5 9) = true := by decide +kernel
theorem test_bwait_passed : completes (.bwait 6 1 4) (sBar 0 false false .none) (fun _ => true) = true ∧
    waitsFor (.bwait 6 1 2) (sBar 0 false false .none) (.barrier 5 9) = true := by decide +kernel
theorem test_binit : completes (.binit 1 5) (sBar 0 false false .none) (fun t => (t.myCore.bar 5).count == 2 && (t.myCore.bar 5).phase == 9) = true := by
  decide +kernel
theorem test_bquery : completes (.bquery 6 1) (sBar 1 false false .none) (fun t => t.me.getX 6 == word (2 * 2 ^ 40 + 2 ^ 24 + 9)) = true := by
  decide +kernel

theorem wit_barriers : legal (sBar 0 false false .none) [.binit 1 5, .barrive 6 1, .bwait 6 1 4, .bsync 1, .bcomb 6 1 2, .bswap 1, .bquery 6 1]
    = true ∧ readX 1 (sBar 0 false false .none) = .ok 5 (sBar 0 false false .none) ∧ readX 3 (sBar 0 false false .none) = .ok 128 (sBar 0 false false .none) ∧
    joined 5 (sBar 0 false false .none).me.wait = none ∧ ((sBar 0 false true .none).myCore.bar 5).tout = true ∧
    ((sBar 0 true false .none).myCore.bar 5).group = true ∧ ((sBar 0 false false .none).myCore.bar 5).group = false :=
  ⟨by decide +kernel, rfl, rfl, rfl, rfl, rfl, rfl⟩
theorem wit_barrier_waits : (sBar 0 false false (.joined 5 9)).me.wait = .joined 5 9 ∧ (sBar 0 false false (.released 5 9 1)).me.wait = .released 5 9 1 ∧
    (sBar 0 false false .none).me.wait ≠ .arrival 5 := by decide
/-- Phases: the next one is 1 ahead; 2^23 is the last that counts as passed, 0 and one more do not. -/
theorem wit_bwait : (let n := fun (y : Nat) => (9 + 2 ^ 24 - y) % 2 ^ 24
    n 8 = 1 ∧ n (9 + 2 ^ 24 - 2 ^ 23) = 2 ^ 23 ∧ n 9 = 0 ∧ n (9 + 2 ^ 24 - 2 ^ 23 - 1) = 2 ^ 23 + 1) := by decide
theorem wit_binit : (2 / 2 ^ 40 = 0 ∧ 2 / 2 ^ 17 % 2 ^ 13 = 0 ∧ 2 % 2 ^ 16 ≠ 0 ∧ 2 / 2 ^ 30 % 2 ^ 4 ≤ 8 ∧ 2 / 2 ^ 34 % 2 ^ 6 = 0) ∧
    ((sBar 0 false false .none).core 0).barWaiters 5 = false ∧ (sBar 0 false false .none).barMaster 0 = 0 := by decide +kernel
theorem wit_arrivals : (aBar 1 false false).arrived + 1 = (aBar 1 false false).count.toNat ∧
    (aBar 0 false false).arrived + 1 ≠ (aBar 0 false false).count.toNat := by decide

/-! ### Copies, rings, kiosks -/

/-- A copy of 32 bytes from global 0x1000 to local 0x9000, full bits set; and one of no bytes. The descriptor is at 0x8000. -/
def kCopy (len : Nat) : Core := lput [(0x8000, len * 2 ^ 16 + 2 ^ 15), (0x8008, 0x1000), (0x8010, 0x9000), (0x8018, 0)]
  (core 0 (thread [(1, 0x8000), (2, 0x8008), (3, 0x10), (4, 0x20), (5, 0x1000000000)]))
def sCopy (len : Nat) : State := onCore 0 (kCopy len)
/-- The first copy of the core, in place 0, with this state. -/
def aCopy (st : BitVec 2) : CopyRec :=
  ⟨0, BitVec.ofNat 256 (32 * 2 ^ 16 + 2 ^ 15 + 0x1000 * 2 ^ 64 + 0x9000 * 2 ^ 128), false, 0, 0, 1, false, 0, 0, st, 0, 0, 0⟩

theorem test_copy : completes (.copy 6 1) (sCopy 32) (fun t => t.me.getX 6 == 0 && t.flight == [.copyTransfer 0 0 1]
    && (t.myCore.copies.find? 0).map (fun r => r.state) == some 0) = true := by decide +kernel
theorem test_copy_nothing : completes (.copy 6 1) (sCopy 0) (fun t => t.flight == []
    && (t.myCore.copies.find? 0).map (fun r => r.state) == some 1) = true := by decide +kernel
theorem test_copy_checks : trapsWith (.copy 6 2) (sCopy 32) .misalignedAccess 0x8008 = true ∧
    trapsWith (.copy2d 6 1) (sCopy 32) .descriptorFormat 0x8000 = true := by decide +kernel
theorem test_cstat : completes (.cstat 6 0) { sCopy 32 with cores := [(0, { kCopy 32 with copies := [(0, aCopy 2)] })] }
      (fun t => t.me.getX 6 == 0x8000000000000000) = true ∧
    completes (.cstat 6 1) (sCopy 32) (fun t => t.me.getX 6 == 0xC000000000000000) = true ∧
    trapsWith (.cstat 6 5) (sCopy 32) .operandRange 0 = true := by decide +kernel
theorem test_feset : completes (.feset 3 4) (sCopy 32) (fun t => t.myCore.full.getLsbD 1 && t.myCore.full.getLsbD 2
    && !t.myCore.full.getLsbD 0 && !t.myCore.full.getLsbD 3) = true ∧ waitsFor (.fewait 3 4) (sCopy 32) (.granules 1 2 true) = true := by
  decide +kernel

theorem wit_copies : legal (sCopy 32) [.copy 6 1, .copy2d 6 1, .cstat 6 1, .fewait 3 4, .feset 3 4, .feclr 3 4] = true ∧
    readX 1 (sCopy 32) = .ok 0x8000 (sCopy 32) ∧ placedData (kCopy 32) 0x8000 32 32 = none ∧ (placedData (kCopy 32) 0x8008 32 32).isSome = true :=
  ⟨by decide +kernel, rfl, by decide +kernel, by decide +kernel⟩
theorem wit_copy_descriptors : (copyDesc (aCopy 0).desc).ok false = true ∧ (copyDesc (aCopy 0).desc).ok true = false ∧
    (copyDesc (aCopy 0).desc).len = 32 ∧ freePlace (kCopy 32) = some 0 ∧
    freePlace { kCopy 32 with copies := (List.range 16).map fun p => (p, aCopy 0) } = none ∧
    freePlace { kCopy 32 with copies := (List.range 16).map fun p => (p, { aCopy (if p = 3 then 1 else 0) with fin := 1 }) } = some 3 := by
  decide +kernel
theorem wit_granule_ranges : (0x10 % 16 = 0 ∧ 0x20 % 16 = 0 ∧ 16 ≤ 0x20 ∧ 0x20 ≤ 2 ^ 18) ∧ ¬ (8 % 16 = 0) ∧
    (localFault (kCopy 0) 0x3FFF0 0x20).isSome = true ∧ localFault (kCopy 0) 0x10 0x20 = none ∧ ¬ Served (sCopy 0) 1 2 true ∧
    Served (onCore 0 ((kCopy 0).setFull 1 2)) 1 2 true := by unfold Served; decide +kernel

/-- A ring of two slots of 32 bytes at 0x9000, its header at 0x8000, generation 5; head and tail as given, and the
doubleword of its fault. x1 is its handle, x2 one of another generation, x3 one with a reserved bit, x4 one for core 1. -/
def kRing (head tail fault : Nat) : Core :=
  lput [(0x8018, 5 * 2 ^ 48 + 0x9000 * 2 ^ 30 + 2 ^ 26 + 2 ^ 18), (0x8020, fault), (0x8028, head), (0x8030, head), (0x8038, tail)]
    (core 0 { thread [(1, word (5 * 2 ^ 48 + 0x8000)), (2, word (6 * 2 ^ 48 + 0x8000)), (3, word (2 ^ 28)), (4, word (2 ^ 18 + 0x8000)),
      (5, word (5 * 2 ^ 48 + 0x8000)), (7, 7)] with v := [(3, 0x0807060504030201)] })
def sRing (head tail fault : Nat) : State := onCore 0 (kRing head tail fault)
/-- The same ring with the slot of ticket 7 filled. -/
def kTile (fault : Nat) : Core := (kRing 7 8 fault).setFull 0x902 2
def sSlot (fault : Nat) : State := onCore 0 (kTile fault)

theorem test_rtick : completes (.rtick 6 1) (sRing 7 8 0) (fun t => t.me.getX 6 == 8 && (ringHdr t.myCore 0x8000).tail == 9) = true ∧
    waitsFor (.rtick 6 1) (sRing 7 9 0) .ring = true ∧
    completes (.rtick 6 2) (sRing 7 9 0) (fun t => t.me.getX 6 == 0xFFFFFFFFFFFFFFFF) = true := by decide +kernel
theorem test_rput : completes (.rput 3 1 7) (sRing 7 8 0) (fun t => Mem.read t.myCore.lmem 0x9020 8 == 0x0807060504030201
    && t.myCore.full.getLsbD 0x902 && t.myCore.full.getLsbD 0x903 && !t.myCore.full.getLsbD 0x904) = true ∧
    trapsWith (.rput 3 1 7) (sSlot 0) .ringState 0 = true := by decide +kernel
theorem test_rtake : completes (.rtake 6 1) (sSlot 0) (fun t => t.me.getX 6 == 0x9020) = true ∧
    waitsFor (.rtake 6 1) (sRing 7 8 0) .ring = true ∧ trapsWith (.rtake 6 4) (sSlot 0) .invalidTarget 0 = true := by decide +kernel
theorem test_rrel : completes (.rrel 6 1) (sSlot 0) (fun t => t.me.getX 6 == 7 && (ringHdr t.myCore 0x8000).head == 8
    && !t.myCore.full.getLsbD 0x902) = true ∧ trapsWith (.rrel 6 1) (sRing 7 8 0) .ringState 0 = true := by decide +kernel

theorem wit_rings : legal (sRing 7 8 0) [.rtick 6 1, .rput 3 1 7, .rtake 6 1, .rrel 6 1] = true ∧
    readX 1 (sRing 7 8 0) = .ok (word (5 * 2 ^ 48 + 0x8000)) (sRing 7 8 0) ∧ readX 7 (sRing 7 8 0) = .ok 7 (sRing 7 8 0) :=
  ⟨by decide +kernel, rfl, rfl⟩
theorem wit_ring_handles : RingOpen (sRing 7 8 0) (word (5 * 2 ^ 48 + 0x8000)) true ∧ handleReserved (word (2 ^ 28)) = true ∧
    handleCore (word (767 * 2 ^ 18)) < 768 ∧ 768 ≤ handleCore (word (768 * 2 ^ 18)) ∧ handleCore (word (2 ^ 18 + 0x8000)) ≠ (sRing 7 8 0).cid ∧
    (ringFault (kRing 7 8 0) 0x8020).isSome = true ∧ (ringFault (kRing 7 8 0) 0x8040).isSome = true := by
  unfold RingOpen; decide +kernel
theorem wit_tickets : nextTicket (sRing 7 9 0) 0 0x8000 5 = none ∧ nextTicket (sRing 7 8 0) 0 0x8000 5 = some 8 ∧
    (ringHdr (kRing 7 9 0) 0x8000).depth = (ringHdr (kRing 7 9 0) 0x8000).count ∧ ringHeld (sRing 7 8 0) 0 0x8000 = false ∧
    (ringHdr (kRing 7 8 0) 0x8000).gen = 5 ∧ Mem.wf (kRing 7 8 0).lmem = true ∧
    ringHeld { sRing 7 8 0 with launches := [(2, boundRun)], annexes := [⟨2, 0, false, 1, 0, 0, 0, 0, 1, 0, 0, 0x8000, 0⟩] } 0 0x8000 = true ∧
    ringHeld { sRing 7 8 0 with launches := [(2, boundRun)], annexes := [⟨3, 0, false, 1, 0, 0, 0, 0, 1, 0, 0, 0x8000, 0⟩] } 0 0x8000 = false ∧
    (match mirrorHeader (passTicket 0 0x8000 (sRing 7 8 0)) 0 0x8000 false with | .ok _ => true | .error _ => false) = true := by decide +kernel
theorem wit_puts : (ringHdr (kRing 7 8 0) 0x8000).ssize ≤ 16 ∧ (let r := ringHdr (kRing 7 8 0) 0x8000
    r.head.toNat ≤ 7 ∧ 7 < r.tail.toNat ∧ slotFull (kRing 7 8 0) r 7 = false) ∧
    16 < (ringHdr (lput [(0x8018, 5 * 2 ^ 48 + 0x9000 * 2 ^ 30 + 2 ^ 26 + 17 * 2 ^ 18)] (kRing 7 8 0)) 0x8000).ssize ∧
    RingOpen (onCore 0 (lput [(0x8018, 5 * 2 ^ 48 + 0x9000 * 2 ^ 30 + 2 ^ 26 + 17 * 2 ^ 18)] (kRing 7 8 0))) (word (5 * 2 ^ 48 + 0x8000)) false := by
  unfold RingOpen; decide +kernel
/-- Recorded faults: not-present at 0x5000, and a code that no thread raises. -/
theorem wit_ring_faults : (let r := ringHdr (kRing 7 8 (0x5000 * 2 ^ 12 + Cause.notPresent.code.toNat * 2 ^ 4 + 8)) 0x8000
    r.fvalid = true ∧ r.fticket = r.head ∧ ringCause r.fcause = some .notPresent ∧ r.faddr = 0x5000) ∧
    (let r := ringHdr (kRing 7 8 (255 * 2 ^ 4 + 8)) 0x8000
     r.fvalid = true ∧ r.fticket = r.head ∧ ringCause r.fcause = none) ∧ (ringHdr (kTile 0) 0x8000).fvalid = false ∧
    takeHeld (sSlot 0) 0 0x8000 = false ∧ isStageRing (sSlot 0) 0 0x8000 = false ∧ slotFull (kTile 0) (ringHdr (kTile 0) 0x8000) 7 = true := by
  decide +kernel

/-- A subscription of the ring in kiosk 2. -/
def aSub (pull : Bool) (ticket : Option Nat) (moved : Nat) : Sub :=
  { kiosk := 2, id := 3, pull := pull, core := 0, hdr := 0x8000, gen := 5, base := 0x1000, tstride := 64, rstride := 32, rowbytes := 16, rows := 2,
    tiles := 2, moved := moved, ticket := ticket, ctx := 0, sup := false, order := 1, parts := 0, buf := 0 }
theorem wit_pulls : pullSub (sSlot 0) 0 0x8000 = none ∧ (sSlot 0).me.wait ≠ .ring ∧
    pullSub { sSlot 0 with subs := [aSub true (some 7) 1] } 0 0x8000 = some (aSub true (some 7) 1) ∧
    pullSub { sSlot 0 with subs := [aSub true none 0] } 0 0x8000 = some (aSub true none 0) := by decide +kernel

/-- A route table at 0x1000: keys from 16 up to core 3, then from 32 up to core 4 (held), and from 64 an entry with a bad byte. -/
def sRoute : State :=
  { cpu [(1, 20), (2, 0x1000), (3, 40), (4, 3), (5, 70), (6, 0x1010)] with
    mem := Mem.write (Mem.write (Mem.write [] 0x1040 16 (16 * 2 ^ 64 + 9 * 2 ^ 48 + 2 ^ 47 + 3 * 2 ^ 18 + 0x8000)) 0x1050 16
      (32 * 2 ^ 64 + 2 ^ 47 + 2 ^ 46 + 4 * 2 ^ 18)) 0x1060 16 (64 * 2 ^ 64 + 2 ^ 47 + 2 ^ 40) }
theorem test_kroute : completes (.kroute 8 1 2) sRoute (fun t => t.me.getX 8 == word (9 * 2 ^ 48 + 3 * 2 ^ 18 + 0x8000)) = true := by
  decide +kernel
theorem test_kroute_stops : waitsFor (.kroute 8 3 2) sRoute .route = true ∧ trapsWith (.kroute 8 4 2) sRoute .descriptorFormat 0x1000 = true ∧
    trapsWith (.kroute 8 1 6) sRoute .misalignedAccess 0x1010 = true := by decide +kernel
theorem wit_kroute : legal sRoute [.kroute 8 1 2] = true ∧ readX 1 sRoute = .ok 20 sRoute ∧ readX 2 sRoute = .ok 0x1000 sRoute ∧
    trapsWith (.kroute 8 5 2) sRoute .descriptorFormat 0x1000 = true :=
  ⟨by decide +kernel, rfl, rfl, by decide +kernel⟩
theorem wit_routes : routeEntry [16 * 2 ^ 64 + 2 ^ 47, 32 * 2 ^ 64 + 2 ^ 47, 40 * 2 ^ 64] 41 = some (32 * 2 ^ 64 + 2 ^ 47) ∧
    routeEntry [16 * 2 ^ 64 + 2 ^ 47] 3 = none := by decide

/-- A subscription descriptor at 0xA000 for the ring at 0x8000: rows of 16 bytes, two tiles, kiosk 2, push or pull. -/
def kSubs (mode rows : Nat) : Core :=
  lput [(0xA018, 2 * 2 ^ 32 + 2 * 2 ^ 11 + mode * 2 ^ 9), (0xA020, 32 * 2 ^ 32 + 16 * 2 ^ 16 + rows), (0xA028, 64), (0xA030, 0x1000),
      (0xA038, 5 * 2 ^ 48 + 0x8000)] (kRing 7 7 0)
def sSubs (mode rows : Nat) (subs : List Sub) : State :=
  { onCore 0 { kSubs mode rows with threads := [(0, thread [(1, 0xA000), (2, word (2 * 2 ^ 32 + 3)), (3, word (2 ^ 16)), (4, 0xA020)])] } with
    subs := subs, subIds := [(2, 4)] }

theorem test_subs_push : completes (.subs 6 1) (sSubs 0 2 []) (fun t => t.me.getX 6 == word (2 * 2 ^ 32 + 4) && t.subs.length == 1
    && (ringHdr t.myCore 0x8000).push && t.flight == [.kioskPushTile 2 4]) = true := by decide +kernel
theorem test_subs_stops : completes (.subs 6 1) (sSubs 0 2 [aSub false none 0]) (fun t => t.me.getX 6 == -2) = true ∧
    trapsWith (.subs 6 1) (sSubs 0 3 []) .descriptorFormat 0xA000 = true ∧ trapsWith (.subs 6 4) (sSubs 0 2 []) .misalignedAccess 0xA020 = true := by
  decide +kernel
theorem test_unsubs : completes (.unsubs 6 2) (sSubs 0 2 [aSub false none 1]) (fun t => t.me.getX 6 == 1 && t.subs == []) = true ∧
    completes (.unsubs 6 2) (sSubs 0 2 []) (fun t => t.me.getX 6 == -1) = true ∧
    waitsFor (.unsubs 6 2) (sSubs 0 2 [aSub false (some 7) 1]) .ring = true ∧ trapsWith (.unsubs 6 3) (sSubs 0 2 []) .operandRange 0 = true := by
  decide +kernel

theorem wit_subs : legal (sSubs 0 2 []) [.subs 6 1, .unsubs 6 2] = true ∧ readX 1 (sSubs 0 2 []) = .ok 0xA000 (sSubs 0 2 []) ∧
    readX 2 (sSubs 0 2 []) = .ok (word (2 * 2 ^ 32 + 3)) (sSubs 0 2 []) :=
  ⟨by decide +kernel, rfl, rfl⟩
theorem wit_sub_descriptors : (let u := subDesc ((sSubs 1 2 []).myCore.lread 0xA000 64)
    u.ok = true ∧ u.mode = 1 ∧ u.rows * u.rowbytes = (ringHdr (sSubs 1 2 []).myCore 0x8000).bytes) ∧
    (subDesc ((sSubs 2 2 []).myCore.lread 0xA000 64)).ok = false ∧ placedOpen (sSubs 0 2 []).myCore 0xA000 64 64 = none ∧
    (placedOpen (sSubs 0 2 []).myCore 0xA020 64 64).isSome = true ∧ ringBad (sSubs 0 2 []).myCore (ringHdr (sSubs 0 2 []).myCore 0x8000) = false ∧
    ringBad (sSubs 0 2 []).myCore (ringHdr (sSubs 0 2 []).myCore 0x9000) = true := by decide +kernel
/-- 64 subscriptions of kiosk 2 on other rings. -/
theorem wit_many_subs : 64 ≤ ((List.replicate 64 { aSub false none 0 with hdr := 0x8040 }).filter fun v => v.kiosk == 2).length ∧
    ((List.replicate 64 { aSub false none 0 with hdr := 0x8040 }).any fun v => v.core == 0 && v.hdr == 0x8000 && v.pull == false) = false ∧
    subWaits { sSubs 0 2 [] with pageItems := [⟨0, none, 0, .kiosk 2 3, 0, false⟩] } 2 3 = true ∧ subWaits (sSubs 0 2 []) 2 3 = false := by
  decide +kernel

/-! ### Streams -/

/-- Streams of bytes: s0 of three elements at a stride of 1, read ahead or not; s1 a fibre stream over two fibres, its first
selected with one element left; s2 exhausted; s3 closed. A descriptor of three words is at 0x8000, a reserved kind at 0x8020. -/
def dAffine (count : Nat) : BitVec 256 := BitVec.ofNat 256 (count * 2 ^ 32 + 2 ^ 64 + 0x1000 * 2 ^ 192)
def dFibre (count : Nat) : BitVec 256 := BitVec.ofNat 256 (count * 2 ^ 32 + 2 + 0x2000 * 2 ^ 64 + 0x3000 * 2 ^ 128 + 0x1000 * 2 ^ 192)
def elem (i : Nat) : StreamElem := ⟨i, word (10 + i), word (20 + i), none⟩
def sStream : State :=
  { onCore 0 (lput [(0x8000, 3 * 2 ^ 32 + 2 * 2 ^ 4), (0x8008, 4), (0x8010, 0), (0x8018, 0x1000), (0x8020, 3)]
      (core 0 { thread [(1, 0x8000), (2, 0x8020), (3, 2)] with
        streams := [(0, ⟨dAffine 3, 0, none, 0, []⟩), (1, ⟨dFibre 2, 0, some 0, 1, [elem 0]⟩), (2, ⟨dAffine 3, 3, none, 0, []⟩),
          (4, ⟨dAffine 3, 1, none, 0, [elem 1, elem 2]⟩), (5, ⟨dAffine 3, 1, none, 0, [⟨1, 0, 0, some (.notPresent, 0x1001)⟩]⟩),
          (6, ⟨dFibre 2, 1, some 0, 1, []⟩)] })) with
    mem := [(0x1000, 9), (0x1001, 8), (0x2000, 0), (0x2004, 1), (0x2008, 2)] }

theorem test_sopen : completes (.sopen 3 1) sStream (fun t => (t.me.streams.find? 3).map (fun r => (streamDesc r.desc).count) == some 3
    && t.flight == [.streamReadAhead 0 0 3]) = true ∧ trapsWith (.sopen 3 2) sStream .descriptorFormat 0x8020 = true := by decide +kernel
theorem test_spop : completes (.spop 7 0) sStream (fun t => t.me.getX 7 == 9 && (t.me.streams.find? 0).map (fun r => r.pos) == some 1) = true ∧
    completes (.spop 8 1) sStream (fun t => t.me.getX 8 == 10 && t.me.getX 9 == 20) = true := by decide +kernel
theorem test_spop_ends : trapsWith (.spop 7 2) sStream .streamOverrun 0 = true ∧ trapsWith (.spop 7 3) sStream .streamState 0 = true ∧
    completes (.spop 8 6) sStream (fun t => t.me.getX 8 == 0 && t.me.getX 9 == 0xFFFFFFFFFFFFFFFF) = true := by decide +kernel
theorem test_vspop : completes (.vspop 3 4) sStream (fun t => t.me.getV 3 == 0x0C0B && (t.me.streams.find? 4).map (fun r => r.pos) == some 3) = true := by
  decide +kernel
theorem test_sfib : completes (.sfib 7 1) sStream (fun t => t.me.getX 7 == 1 && (t.me.streams.find? 1).map (fun r => (r.pos, r.last)) == some (1, 2)) = true := by
  decide +kernel
theorem test_sadv : completes (.sadv 0 3) sStream (fun t => (t.me.streams.find? 0).map (fun r => r.pos) == some 2) = true ∧
    completes (.stend 7 0) sStream (fun t => t.me.getX 7 == 3) = true ∧ completes (.sclose 0) sStream (fun t => (t.me.streams.find? 0).isNone) = true := by
  decide +kernel

theorem wit_streams : legal sStream [.sopen 3 1, .spop 8 1, .vspop 3 4, .sadv 0 3, .stend 7 0, .sfib 7 1, .sclose 0] = true ∧
    readX 1 sStream = .ok 0x8000 sStream ∧ readX 3 sStream = .ok 2 sStream ∧ placedOpen sStream.myCore 0x8000 32 32 = none ∧
    (placedOpen sStream.myCore 0x8010 32 32).isSome = true :=
  ⟨by decide +kernel, rfl, rfl, by decide +kernel, by decide +kernel⟩
theorem wit_stream_elements : (readElem sStream 0 0 (streamDesc (dAffine 3)) 0).toOption.isSome = true ∧
    (sStream.me.streams.find? 4).map (fun r => (r.remaining, r.queue.find? (fun q => q.idx == r.pos))) = some (2, some (elem 1)) ∧
    (sStream.me.streams.find? 5).map (fun r => r.queue.find? (fun q => q.idx == r.pos)) = some (some ⟨1, 0, 0, some (.notPresent, 0x1001)⟩) ∧
    (sStream.me.streams.find? 6).map (fun r => r.remaining) = some 0 ∧ (elem 1).val.toNat < 256 ^ 1 := by decide +kernel
theorem wit_fibres : (streamIndex sStream 0 0 (streamDesc (dFibre 2)) 1).toOption.isSome = true ∧
    (streamIndex sStream 0 0 (streamDesc (dFibre 2)) 2).toOption.isSome = true ∧ (streamDesc (dFibre 2)).kind = 2 ∧
    completes (.sfib 7 1) (sStream.setMe { sStream.me with streams := [(1, ⟨dFibre 2, 2, some 1, 2, []⟩)] })
      (fun t => t.me.getX 7 == 0xFFFFFFFFFFFFFFFF) = true ∧
    trapsWith (.sfib 7 1) { sStream with mem := [(0x2004, 3), (0x2008, 2)] } .descriptorFormat 0x2008 = true := by decide +kernel
/-! ### Law words -/

/-- The law table at 0x4000: entry 1 LEAK with rest 0 and D = 0.9375, entry 2 RAMP of 1 a tick with four slots, theta 5 and an
event record, entry 3 PHASE of half a turn a tick with fan-out, entry 4 invalid. -/
def lawTable : List Host.Cell :=
  let bounds := 2 ^ 15 + 0x7FFF0000 * 2 ^ 32 + 0x80000000 * 2 ^ 192 + 0x7FFFFFFF * 2 ^ 224
  Mem.write (Mem.write (Mem.write [] 0x4040 64 (bounds + 2 + 0xF0000000 * 2 ^ 128))
    0x4080 64 (2 ^ 15 + 1 + 2 ^ 10 + 2 ^ 13 + 5 * 2 ^ 32 + 2 ^ 64 + 0x80000000 * 2 ^ 192 + 0x7FFFFFFF * 2 ^ 224 + (5 * 2 ^ 48 + 0x8000) * 2 ^ 384))
    0x40C0 64 (2 ^ 15 + 4 + 3 * 2 ^ 13 + 0x80000000 * 2 ^ 64 + 0x5000 * 2 ^ 320 + 2 ^ 448)

/-- A context whose domain d0 runs free from this origin and whose domain d1 is stepped. -/
def cxLaw (now : Nat) : Context :=
  { Context.reset with live := true, lawbase := 0x4000, domains := [⟨word now, false, 0⟩, ⟨word now, true, 0⟩] }
/-- The package with that context; a law word at 0x1000 and in local memory at 0x9000. -/
def sLaw (now w : Nat) : State :=
  { onCore 0 (lput [(0x9000, w)] (core 0 (thread [(1, 0x1000), (2, word (2 ^ 63 + 0x9000)), (3, word (2 ^ 63 + 2 ^ 18)), (4, 0x20000), (5, word (7 * 2 ^ 32 + 1)),
      (6, 0x1004), (7, 2), (8, 0x101)]))) with
    ctxs := [(0, cxLaw now)], mem := Mem.write lawTable 0x1000 8 w }

/-- The worked example of R169: a LEAK word of 1.5 + 2^-16 after three ticks. -/
theorem test_lwrd_example : completes (.lwrd 9 1) (atHome (sLaw 3 0x0001800100000001)) (fun t => t.me.getX 9 == 0x00013C68
    && Mem.read t.mem 0x1000 8 == 0x0001800100000001 && readByte t 0 0x1001 == some 3 && readByte t 0 0x1004 == some 0x68) = true := by
  decide +kernel
theorem test_lwrd_local : completes (.lwrd 9 2) (atHome (sLaw 3 0x0001800100000001)) (fun t => t.me.getX 9 == 0x00013C68
    && Mem.read t.myCore.lmem 0x9000 8 == 0x00013C6800000301) = true ∧
    trapsWith (.lwrd 9 3) (atHome (sLaw 3 1)) .addressRange (word (2 ^ 63 + 2 ^ 18)) = true := by decide +kernel
theorem test_lwpeek : completes (.lwpeek 9 2) (atHome (sLaw 3 0x0001800100000001)) (fun t => t.me.getX 9 == 0x00013C68
    && Mem.read t.myCore.lmem 0x9000 8 == 0x0001800100000001) = true := by decide +kernel
/-- A ramp of 1 a tick crosses 5 at the fifth tick, is reset to 0 there and goes on. -/
theorem test_lwrdx : completes (.lwrdx 10 1) (atHome (sLaw 7 2)) (fun t => t.me.getX 10 == 2 && t.me.getX 11 == word (5 * 2 ^ 16 + 1)
    && t.flight.contains (.lawEventRecord 0 0x5000000008000 0x200000001000000000000000500000000000000050200000000001000)) = true := by decide +kernel
theorem test_lwadd : completes (.lwadd 9 2 4) (atHome (sLaw 0 0x0001000000000001)) (fun t => t.me.getX 9 == 0x00030000) = true := by decide +kernel
theorem test_lwset : completes (.lwset 9 2 4) (atHome (sLaw 0 0x0001000000000001)) (fun t => t.me.getX 9 == 0x00010000
    && Mem.read t.myCore.lmem 0x9004 4 == 0x00020000) = true := by decide +kernel
theorem test_lwdep : completes (.lwdep 1 5) (atHome (sLaw 0 2)) (fun t => readByte t 0 0x100C == some 7) = true ∧
    trapsWith (.lwdep 1 5) (atHome (sLaw 0 1)) .operandRange 0 = true ∧ trapsWith (.lwdep 1 4) (atHome (sLaw 0 2)) .operandRange 0 = true := by
  decide +kernel
theorem test_lwinit : completes (.lwinit 9 2 7) (atHome (sLaw 9 1)) (fun t => t.me.getX 9 == 9 && Mem.read t.myCore.lmem 0x9000 8 == 0x902) = true ∧
    trapsWith (.lwinit 9 2 8) (atHome (sLaw 9 1)) .operandRange 0 = true := by decide +kernel
theorem test_lwnow : completes (.lwnow 9 0) { sLaw 9 1 with ns := 5 } (fun t => t.me.getX 9 == 14) = true ∧
    completes (.lwnow 9 1) { sLaw 9 1 with ns := 5 } (fun t => t.me.getX 9 == 9) = true := by decide +kernel
theorem test_law_checks : trapsWith (.lwrd 9 1) (atHome (sLaw 0 4)) .descriptorFormat 0x4100 = true ∧
    trapsWith (.lwrd 9 6) { atHome (sLaw 0 0) with mem := Mem.write lawTable 0x1000 16 (2 ^ 32) } .misalignedAccess 0x1004 = true := by decide +kernel

theorem wit_law_words : legal (sLaw 3 1) [.lwrd 9 1, .lwrdx 10 1, .lwadd 9 1 4, .lwset 9 1 4, .lwdep 1 5, .lwinit 9 1 7, .lwpeek 9 1, .lwnow 9 0]
    = true ∧ readX 1 (sLaw 3 1) = .ok 0x1000 (sLaw 3 1) ∧ readX 4 (sLaw 3 1) = .ok 0x20000 (sLaw 3 1) :=
  ⟨by decide +kernel, rfl, rfl⟩
theorem wit_law_ranges : LawInRange 0x1000 ∧ LawInRange (word (2 ^ 63 + 2 ^ 18 - 1)) ∧ ¬ LawInRange (word (2 ^ 63 + 2 ^ 18)) ∧
    poolHas (sLaw 3 1) 1 = true ∧ (0x20000#64).toNat / 2 ^ 4 % 2 ^ 28 ≠ 0 ∧ (word (7 * 2 ^ 32 + 1)).toNat / 2 ^ 4 % 2 ^ 28 = 0 ∧
    (2#64).toNat / 2 ^ 8 % 2 ^ 24 = 0 ∧ (0x100#64).toNat / 2 ^ 8 % 2 ^ 24 ≠ 0 := by unfold LawInRange; decide +kernel
theorem wit_law_opens : (lawOpen (atHome (sLaw 3 1)) (sLaw 3 1).lawWho (.global_ 0x1000) none true).toOption.isSome = true ∧
    (lawOpen (atHome (sLaw 3 1)) (sLaw 3 1).lawWho (.local_ 0 0x9000) (some 2) true).toOption.isSome = true ∧
    (lawCommit (atHome (sLaw 3 1)) (sLaw 3 1).lawWho false (.global_ 0x1000) lawRead).toOption.isSome = true ∧
    (lawCommit (atHome (sLaw 3 1)) (sLaw 3 1).lawWho false (.global_ (2 ^ 40)) lawRead).toOption.isSome = false := by decide +kernel

/-- d1 stands 16 ticks before an epoch boundary; a region of one cell at 0x1000 whose word was touched at this tick. -/
def sStep (touched modes : Nat) : State :=
  { atHome (sLaw (2 ^ 22 - 16) (touched * 2 ^ 8 + 5)) with
    ctxs := [(0, { cxLaw (2 ^ 22 - 16) with modes := word modes, regions := [⟨0x1000, 8, 1, 1, false, [], 0⟩] })]
    mem := Mem.write (Mem.write lawTable 0x4140 64 (2 ^ 15 + 2 ^ 6 + 2 ^ 32 + 0x80000000 * 2 ^ 192 + 0x7FFFFFFF * 2 ^ 224)) 0x1000 8 (touched * 2 ^ 8 + 5) }
theorem test_lwstep : completes (.lwstep 9 1 7) (sStep 0 0) (fun t => t.me.getX 9 == word (2 ^ 22 - 14) && t.clock 0 1 == word (2 ^ 22 - 14)) = true ∧
    trapsWith (.lwstep 9 0 7) (sStep 0 0) .operandRange 0 = true ∧ trapsWith (.lwstep 9 1 0) (sStep 0 0) .operandRange 0 = true := by
  decide +kernel
/-- Passing the boundary waits for the cell touched before the last one, and asks for its sweep. -/
theorem test_lwstep_waits : (match exec (.lwstep 9 1 4) (sStep (2 ^ 21 - 1) 0) with
    | .next t => t.me.wait == .sweep && t.flight == [.horizonSweep 0 0 0]
    | _ => false) = true ∧ completes (.lwstep 9 1 4) (sStep (2 ^ 21) 0) (fun _ => true) = true ∧
    completes (.lwstep 9 1 4) (sStep (2 ^ 21 - 1) 8) (fun _ => true) = true := by decide +kernel
/-- x1 = 0x1000; one cell of 8 bytes in d1, registered or released. -/
def sSweep (modes : Nat) (rs : List Region) : State :=
  { cpu [(1, 0x1000), (2, word (2 ^ 37 + 1)), (3, word (2 ^ 63)), (4, word (2 ^ 34)), (5, word (2 ^ 37)), (6, 0x1001), (7, word (2 ^ 63 + 1))] with
    ctxs := [(0, { cxLaw 0 with modes := word modes, regions := rs })] }
theorem test_lwsweep : completes (.lwsweep 9 1 2) (sSweep 0 []) (fun t => t.me.getX 9 == 0 && ((t.ctx 0).regions.map fun r => (r.base, r.spacing, r.count, r.domain)) == [(0x1000, 8, 1, 1)]) = true ∧
    completes (.lwsweep 9 1 3) (sSweep 0 [⟨0x1000, 8, 1, 1, false, [], 0⟩]) (fun t => t.me.getX 9 == 0 && (t.ctx 0).regions == []) = true ∧
    completes (.lwsweep 9 1 3) (sSweep 0 []) (fun t => t.me.getX 9 == 4) = true ∧ completes (.lwsweep 9 1 2) (sSweep 8 []) (fun t => t.me.getX 9 == 3) = true := by
  decide +kernel
theorem test_lwsweep_checks : trapsWith (.lwsweep 9 1 4) (sSweep 0 []) .operandRange 0 = true ∧ trapsWith (.lwsweep 9 1 5) (sSweep 0 []) .operandRange 0 = true ∧
    trapsWith (.lwsweep 9 6 2) (sSweep 0 []) .misalignedAccess 0x1001 = true ∧ trapsWith (.lwsweep 9 1 7) (sSweep 0 []) .operandRange 0 = true := by
  decide +kernel
theorem wit_sweeps : legal (sSweep 0 []) [.lwstep 9 1 7, .lwsweep 9 1 2] = true ∧ readX 1 (sSweep 0 []) = .ok 0x1000 (sSweep 0 []) ∧
    readX 2 (sSweep 0 []) = .ok (word (2 ^ 37 + 1)) (sSweep 0 []) ∧ 64 ≤ (List.replicate 64 (⟨0, 8, 1, 1, false, [], 0⟩ : Region)).length ∧
    2 ^ 57 < sweepLoad (sSweep 0 [⟨0, 8, 2 ^ 26, 1, false, [], 0⟩]) + 1 * 2 ^ (31 - domainP (cxLaw 0) 1) :=
  ⟨by decide +kernel, rfl, rfl, by decide, by decide +kernel⟩
theorem wit_steps : firstBehind (sStep (2 ^ 21 - 1) 0) 0 1 = some (0, 0) ∧ firstBehind (sStep (2 ^ 21) 0) 0 1 = none := by decide +kernel

/-- Entries of every kind within the bounds of the statement; a tick count of one. -/
theorem wit_evaluation : (let e := fun (w : BitVec 512) => lawEntry w
    let leak := e (BitVec.ofNat 512 (2 ^ 15 + 2 + 0x7FFF0000 * 2 ^ 32 + 0xF0000000 * 2 ^ 128 + 0x80000000 * 2 ^ 192 + 0x7FFFFFFF * 2 ^ 224))
    leak.ok = true ∧ leak.kind = 2 ∧ -2 ^ 31 ≤ leak.lo ∧ leak.lo ≤ leak.hi ∧ leak.hi < 2 ^ 31 ∧ decayPow leak.decay 3 = 0xD2F00000) ∧
    (let phase := lawEntry (BitVec.ofNat 512 (2 ^ 15 + 4 + 0x80000000 * 2 ^ 64))
     phase.ok = true ∧ phase.kind = 4 ∧ 0 ≤ phase.reset ∧ phase.reset < 2 ^ 32 ∧ phase.evolve 0x80000000 1 = (0, 1)) := by decide +kernel

/-! ### Messages -/

/-- x1 names handler 2 of core 1, x2 core 768, x3 a bad descriptor; two words have been pushed. -/
def thMsg : Thread := { thread [(1, word (2 * 2 ^ 26 + 1)), (2, 768), (3, word (2 ^ 34)), (5, 0x8000), (6, word (32 * 2 ^ 18 + 0x9000)), (7, word (31 * 2 ^ 18))] with mo := [4, 5], seq := 9 }
def sMsg : State := onCore 0 (core 0 thMsg)
theorem test_msend : completes (.msend 8 1) sMsg (fun t => t.me.getX 8 == 10 && t.me.mo == [] && (t.flight.any fun e => match e with
    | .messageArrival m => m.desc == word (2 * 2 ^ 26 + 1) && m.payload == [4, 5] && m.seq == 10
    | _ => false)) = true := by decide +kernel
theorem test_msend_checks : trapsWith (.msend 8 2) sMsg .invalidTarget 0 = true ∧ trapsWith (.msend 8 3) sMsg .descriptorFormat 0 = true := by
  decide +kernel
/-- The handler thread in an activation of this kind, with messages held, on a core that an annex occupies. -/
def sTh (kind : ActKind) (pinned : Bool) (held : List Event) : State :=
  let k := { core 4 thMsg with act := some { activation pinned [] with kind := kind, heldMsgs := held } }
  { onCore 4 k with
    cores := [(0, k), (1, core 0 (thread []))]
    launches := [(2, boundRun)]
    annexes := [⟨2, 0, false, 1, 0, 0, 0, 0, 1, 0, 0, 0x8000, 0⟩, ⟨2, 0, true, 1, 0, 0, 0, 0, 1, 0, 0, 0x8000, 0⟩] }
theorem test_msend_held : completes (.msend 8 1) (sTh .message false []) (fun t => t.flight == [] && (t.myCore.act.map fun a => a.heldMsgs.length) == some 1) = true := by
  decide +kernel
theorem test_hend : completes .hend (sTh .message false []) (fun t => t.myCore.act == none) = true ∧ trapsWith .hend (sTh .split false []) .annexState 0 = true ∧
    trapsWith .hend sMsg .illegalInstruction 0 = true := by decide +kernel
theorem test_anxput : completes (.anxput 5 6) (sTh .split false []) (fun _ => true) = true ∧ trapsWith (.anxput 5 7) (sTh .split false []) .misalignedAccess 0 = false ∧
    trapsWith (.anxput 5 6) (sTh .message false []) .annexState 0 = true := by decide +kernel
theorem test_anxend : completes .anxend (sTh .split false []) (fun t => t.flight == [.annexForward 0] && t.myCore.act == none) = true ∧
    completes .anxend (sTh .merge false []) (fun t => t.flight == [.mergeActivation 0]) = true ∧ trapsWith .anxend (sTh .message false []) .annexState 0 = true := by
  decide +kernel
theorem wit_messages : legal sMsg [.msend 8 1] = true ∧ legal (sTh .split false []) [.hend, .anxput 5 6, .anxend] = true ∧
    readX 1 sMsg = .ok (word (2 * 2 ^ 26 + 1)) sMsg ∧ outboundUsed sMsg 0 < 64 ∧ sMsg.isTh = false ∧ (sTh .split false []).isTh = true ∧
    (sTh .message false []).unpinned = true ∧ (sTh .message true []).unpinned = false ∧ annexOn (sTh .split false []) 0 false ≠ none ∧
    annexOn sMsg 0 false = none :=
  ⟨by decide +kernel, by decide +kernel, rfl, by decide +kernel, by decide +kernel, by decide +kernel, by decide +kernel, by decide +kernel,
    by decide +kernel, by decide +kernel⟩
/-- A full outbound buffer, and an activation whose held messages do not fit it. -/
theorem wit_outbound : let full := List.replicate 64 (Event.messageArrival ⟨sourceWord 0 0 0, 1, 0, 0, 1, []⟩)
    64 ≤ outboundUsed { sMsg with flight := full } 0 ∧ (32 ≤ (full.take 32).length) ∧
    holdsFit { sTh .message false [] with flight := full } { activation false [] with heldMsgs := full.take 1 } = false ∧
    holdsFit (sTh .message false []) (activation false []) = true := by decide +kernel
/-- ANXPUT: 32 bytes to 0x9000 are in order; 8 bytes and reserved bits are not. -/
theorem wit_anxput : let ok := fun (y : Nat) => y / 2 ^ 36 = 0 ∧ y / 2 ^ 18 % 2 ^ 17 % 16 = 0 ∧ 16 ≤ y / 2 ^ 18 % 2 ^ 17 ∧ y / 2 ^ 18 % 2 ^ 17 ≤ 2 ^ 16
    ok (32 * 2 ^ 18 + 0x9000) ∧ ok (2 ^ 34) ∧ ¬ ok (8 * 2 ^ 18) ∧ ¬ ok (2 ^ 36 + 32 * 2 ^ 18) ∧ ¬ ok (2 ^ 34 + 2 ^ 22) ∧
    localFault (sTh .split false []).myCore 0x8000 32 = none ∧ placedFront ((sTh .split false []).core 1) 0x9000 32 16 = none := by decide +kernel
/-! ### Steps of other agents -/

/-- The state with a step of another agent at hand. -/
def hand (e : Event) (s : State) : State := { s with item := some e }
/-- The step takes place, its operands in range, and leaves a state of which p holds. -/
def moves (i : Instr) (e : Event) (s : State) (p : State → Bool) : Bool :=
  match exec i (hand e s) with
  | .next t => e.wellFormed && t.issue.status == .done && p t
  | _ => false
/-- The step is not due. -/
def waitsStep (i : Instr) (e : Event) (s : State) : Bool :=
  match exec i (hand e s) with
  | .next t => e.wellFormed && t.issue.status == .waiting
  | _ => false

theorem wit_at_hand : AtHand (.copyTransfer 0 0 1) (hand (.copyTransfer 0 0 1) sMem) := by unfold AtHand; decide

def sCopying : State := onCore 0 { kCopy 32 with copies := [(0, aCopy 0)] }
theorem test_copy_transfer : moves .copyTransfer (.copyTransfer 0 0 1) { sCopying with mem := [(0x1000, 9)] } (fun t =>
    Mem.read t.myCore.lmem 0x9000 8 == 9 && t.myCore.full.getLsbD 0x900 && t.myCore.full.getLsbD 0x901) = true := by decide +kernel
theorem wit_copy_transfer : copyBusy sCopying 0 0 = true ∧ copyBusy (sCopy 32) 0 0 = false ∧
    (sCopying.pageItems.any fun i => i.asker == .copy 0 0) = false ∧ (copyUnits sCopying 0 0 1).isSome = true ∧
    (copyDesc (aCopy 0).desc).dstLocal = true ∧ localFault (sCopying.core 0) 0x9000 32 = none := by decide +kernel
theorem test_stream_read_ahead : moves .streamReadAhead (.streamReadAhead 0 0 0) sStream (fun t =>
    (t.me.streams.find? 0).map (fun r => r.queue) == some [⟨0, 9, 0, none⟩] && t.flight.contains (.streamReadAhead 0 0 0)) = true := by decide +kernel
theorem wit_stream_read_ahead : engineFree sStream 0 1 = true ∧ (sStream.thread 0 0).streams.find? 3 = none ∧ nextAhead ⟨dAffine 3, 0, none, 0, []⟩ = some 0 ∧
    nextAhead ⟨BitVec.ofNat 256 (3 * 2 ^ 32 + 2 ^ 52 * 2 ^ 192), 0, none, 0, []⟩ = some 0 ∧
    (match readElem sStream 0 0 (streamDesc (BitVec.ofNat 256 (3 * 2 ^ 32 + 2 ^ 52 * 2 ^ 192))) 0 with
      | .error (.fault c a) => c == .addressRange && a == 2 ^ 52
      | _ => false) = true := by decide +kernel
/-- A push subscription of the empty ring, a pull of a filled one; the tile lies at 0x1000. -/
def sPush : State := { atHome (sSubs 0 2 [aSub false none 0]) with mem := [(0x1000, 1), (0x1020, 2)] }
/-- The same with the ticket taken, and with the first row moved. -/
def sPushing (parts : Nat) : State := { passTicket 0 0x8000 sPush with subs := [{ aSub false (some 7) 0 with parts := parts }] }
theorem test_push_tile : moves .kioskPushTile (.kioskPushTile 2 3) sPush (fun t => (t.subs.map fun u => u.ticket) == [some 7]
      && (ringHdr (t.core 0) 0x8000).tail == 8 && t.flight == [.kioskPushTile 2 3]) = true ∧
    moves .kioskPushTile (.kioskPushTile 2 3) (sPushing 0) (fun t => Mem.read t.myCore.lmem 0x9020 32 == 1
      && t.myCore.full.getLsbD 0x902 && !t.myCore.full.getLsbD 0x903 && (t.subs.map fun u => u.parts) == [1]) = true ∧
    moves .kioskPushTile (.kioskPushTile 2 3) (sPushing 1) (fun t => Mem.read t.myCore.lmem 0x9030 16 == 2
      && t.myCore.full.getLsbD 0x903 && (t.subs.map fun u => (u.moved, u.ticket, u.parts)) == [(1, none, 0)]) = true := by
  decide +kernel
theorem wit_push_tile : findSub (sSubs 0 2 []) 2 3 = none ∧ (sPush.subs.map fun u => u.ticket == none && !u.pull) = [true] ∧
    subWaits sPush 2 3 = false ∧ (ringHdr (sPush.core 0) 0x8000).gen = (aSub false none 0).gen ∧
    nextTicket sPush 0 0x8000 5 = some 7 ∧ launchHere sPush 0 1 = some true ∧ ringBad (sPush.core 0) (ringHdr (sPush.core 0) 0x8000) = false ∧
    tileParts (aSub false none 0) 0 = [(0x1000, 16), (0x1020, 16)] ∧
    (unitRead sPush .other 768 0 false [(0x1000, 16)]).toOption.map (·.1) = some 1 := by decide +kernel
def sPull (parts : Nat) : State := atHome { onCore 0 ((kTile 0).lwrite 0x9020 8 5) with subs := [{ aSub true none 0 with parts := parts }] }
theorem test_pull_tile : moves .kioskPullTile (.kioskPullTile 2 3) (sPull 0) (fun t => readByte t 0 0x1000 == some 5
      && (t.subs.map fun u => (u.parts, u.moved)) == [(1, 0)] && t.flight == [.kioskPullTile 2 3]) = true ∧
    moves .kioskPullTile (.kioskPullTile 2 3) (sPull 1) (fun t => (t.subs.map fun u => (u.moved, u.ticket, u.parts)) == [(1, some 7, 0)]) = true := by
  decide +kernel
theorem wit_pull_tile : findSub (sPull 0) 2 3 = some (aSub true none 0) ∧ (aSub true none 0).pull = true ∧ subWaits (sPull 0) 2 3 = false ∧
    (unitWrite (sPull 0) .other 768 0 false [(0x1000, 16)] 5).1 = none := by decide +kernel
/-- The same ring with its journal at 0x10000. -/
def sJournal : State :=
  atHome (onCore 0 (lput [(0x8010, 0x10000 * 2 ^ 20), (0x8018, 5 * 2 ^ 48 + 0x9000 * 2 ^ 30 + 2 ^ 26 + 2 ^ 18 + 2 ^ 17)] ((kRing 7 8 0).lwrite 0x9020 8 5)))
theorem test_journal_write : moves .journalWrite (.journalWrite 0 0x8000 7 1) sJournal (fun t => readByte t 0 0x10020 == some 5
    && t.myCore.full.getLsbD 0x902) = true ∧ (ringHdr (sJournal.core 0) 0x8000).jbase = 0x10000 := by decide +kernel

theorem test_event_record : moves .lawEventRecord (.lawEventRecord 0 (word (5 * 2 ^ 48 + 0x8000)) 9) (sRing 7 7 0) (fun t =>
    Mem.read t.myCore.lmem 0x9020 8 == 9 && t.myCore.full.getLsbD 0x902 && (t.ctx 0).lawErr == 0) = true ∧
    moves .lawEventRecord (.lawEventRecord 0 (word (6 * 2 ^ 48 + 0x8000)) 9) (sRing 7 7 0) (fun t => (t.ctx 0).lawErr == 1) = true := by
  decide +kernel
theorem wit_event_record : (let h := word (5 * 2 ^ 48 + 0x8000)
    handleReserved h = false ∧ handleCore h < 768 ∧ ringFault ((sRing 7 7 0).core 0) 0x8000 = none ∧
    (ringHdr ((sRing 7 7 0).core 0) 0x8000).gen = handleGen h) ∧ handleReserved (word (2 ^ 28)) = true := by decide +kernel
/-- A list of one entry at 0x6000: 3 times the amount 2 into the word at 0x1000 after one tick. -/
def sFan : State := let s := atHome (sLaw 0 2); { s with mem := Mem.write s.mem 0x6000 16 (0x1000 + 2 ^ 64 + 2 * 2 ^ 96) }
theorem test_fan_out : moves .fanOutDeposit (.fanOutDeposit 0 0x6000 1 3) sFan (fun t => readByte t 0 0x100C == some 6 && t.flight == []) = true ∧
    moves .fanOutDeposit (.fanOutDeposit 0 0x6000 2 3) { sFan with mem := Mem.write sFan.mem 0x6000 16 (2 ^ 64 * 16) } (fun t =>
      (t.ctx 0).lawErr == 1 && t.flight == [.fanOutDeposit 0 0x6010 1 3]) = true := by decide +kernel
theorem wit_fan_out : (dispRead sFan 0 0x6000 16).toOption.isSome = true ∧
    (match dispRead sFan 0 (2 ^ 52) 16 with | .error (.fault c _) => c == .addressRange | _ => false) = true := by decide +kernel
/-- The region of one cell: a stamp before the boundary is moved to it, one after it stays. -/
theorem test_horizon_sweep : moves .horizonSweep (.horizonSweep 0 0 0) (sStep (2 ^ 21 - 1) 0) (fun t => readByte t 0 0x1003 == some 0x20
      && readByte t 0 0x1001 == some 0) = true ∧ moves .horizonSweep (.horizonSweep 0 0 0) (sStep (2 ^ 21 + 1) 0) (fun t => readByte t 0 0x1001 == some 1) = true := by
  decide +kernel
theorem wit_horizon_sweep : ((sStep 0 0).ctx 0).regions[1]? = none ∧ ((sStep 0 0).ctx 0).regions[0]? = some ⟨0x1000, 8, 1, 1, false, [], 0⟩ ∧
    ((sStep 0 0).ctx 0).modes.getLsbD 3 = false ∧
    (lawOpen (sStep 0 0) ⟨.other, 768, 0, true⟩ (.global_ 0x1000) none false).toOption.isSome = true ∧
    moves .horizonSweep (.horizonSweep 0 0 0) ((sStep 0 0).setCtx 0 { (sStep 0 0).ctx 0 with regions := [⟨2 ^ 52, 8, 1, 1, false, [], 0⟩] }) (fun t =>
      (t.ctx 0).regions == [] && (t.ctx 0).lawErr == 1) = true := by decide +kernel

/-- A message from thread 0 of core 1 to handler 2 of core 0. -/
def aMsg (seq : Nat) : Msg := ⟨sourceWord 0 0 1, seq, word (2 * 2 ^ 26), 0, 1, [7]⟩
/-- Core 0 with its handler thread free; handler 2's entry is at 0x7040. -/
def sHnd (entry : Nat) : State :=
  { atHome (onCore 4 (core 4 { thread [] with strand := .idle })) with
    ctxs := [(0, { Context.reset with live := true, hndbase := 0x7000 })]
    mem := Mem.write [] 0x7040 32 entry }
theorem test_arrival : moves .messageArrival (.messageArrival (aMsg 3)) (sHnd 0) (fun t => t.myCore.inbound == [aMsg 3]
    && acceptedOf t.myCore (srcKey (aMsg 3)) == some 3) = true ∧
    moves .messageArrival (.messageArrival (aMsg 3)) { sHnd 0 with cores := [(0, setAccepted ((sHnd 0).core 0) (srcKey (aMsg 3)) 3)] }
      (fun t => t.myCore.inbound == []) = true := by decide +kernel
theorem wit_arrival : (aMsg 3).desc.toNat % 2 ^ 10 < 768 ∧ ((sHnd 0).ctx 0).live = true ∧ ((sHnd 0).ctx 1).live = false ∧
    acceptedOf ((sHnd 0).core 0) (srcKey (aMsg 3)) = none ∧ ((sHnd 0).core 0).accepted.length < 1024 ∧
    (enqueueMsg (sHnd 0) 0 (aMsg 3) some).isSome = true := by decide +kernel
theorem test_acknowledgement : moves .messageAcknowledgement (.messageAcknowledgement (sourceWord 0 0 1) 3) { sHnd 0 with unacked := [(sourceWord 0 0 1, 3, aMsg 3)] }
    (fun t => t.unacked == [] && t.flight == [.messageRelease 0 (sourceWord 0 0 1) 1]) = true ∧
    moves .messageAcknowledgement (.messageAcknowledgement (sourceWord 0 0 1) 3) (sHnd 0) (fun t => t.flight == []) = true := by decide +kernel
theorem test_release : moves .messageRelease (.messageRelease 0 (sourceWord 0 0 1) 1) { sHnd 0 with cores := [(0, setAccepted ((sHnd 0).core 0) (srcKey (aMsg 3)) 3)] }
    (fun t => t.myCore.accepted == []) = true ∧ owed (sHnd 0) (srcKey (aMsg 3)) 0 0 = false := by decide +kernel
def pend (s : State) : State := s.setCore 0 { s.core 0 with inbound := [aMsg 3] }
theorem test_activation : moves .handlerActivation (.handlerActivation 0) (pend (sHnd (1 + 0x2000 * 2 ^ 64 + 0x9000 * 2 ^ 128))) (fun t =>
    let h := t.thread 0 4
    h.pc == 0x2000 && h.getX 2 == 0x9000 && h.getX 4 == 3 && h.getX 5 == 2 && h.strand == .running
      && (t.myCore.act.map fun a => (a.budget, a.left)) == some (2 ^ 20, [7])) = true := by decide +kernel
theorem test_dead_message : moves .handlerActivation (.handlerActivation 0) (pend (sHnd 0)) (fun t => t.myCore.act == none && t.myCore.inbound == []) = true := by
  decide +kernel
theorem wit_activation : canActivate (pend (sHnd 0)) 0 = true ∧ (nextMessage ((pend (sHnd 0)).core 0) 0).isSome = true ∧
    (nextMessage ((sHnd 0).core 0) 0).isNone = true ∧ (dispRead (sHnd 0) 0 0x7040 32).toOption.map (·.1) = some 0 ∧ annexDueOn (pend (sHnd 0)) 0 = false ∧ handlerEntry 0 = none ∧
    handlerEntry (1 + 0x2000 * 2 ^ 64 + 0x9000 * 2 ^ 128) = some (2 ^ 20, 0x2000, 0x9000) ∧ handlerEntry (1 + 15 * 2) = none ∧
    handlerEntry (1 + 34 * 2) = some (2 ^ 34, 0, 0) := by decide +kernel
theorem test_budget : moves .budgetFault (.budgetFault 0) { sTh .message false [] with cycle := 100000 } (fun t => t.myCore.act == none) = true ∧
    ((sTh .message false []).myCore.act.map fun a => a.start + a.budget) = some 100000 ∧ (sTh .message false []).me.wait = .none := by decide +kernel
theorem test_mailbox : moves .hostMailboxNotice (.hostMailboxNotice (aMsg 3) true 7) { sHnd 0 with ctxs := [] } (fun t => t.flight == []) = true ∧
    moves .hostMailboxNotice (.hostMailboxNotice (aMsg 3) false 0) (sHnd 0) (fun t => t.flight == [.messageAcknowledgement (sourceWord 0 0 1) 3]) = true := by
  decide +kernel

/-- Remote operations on the doubleword at 0x1000, which holds 5; the reply goes to handler 2 of core 1. -/
def remote (ps : List Word) : Msg := { aMsg 3 with payload := ps }
def sRemote : State := { atHome sMem with mem := [(0x1000, 5)], ctxs := [(0, { cxLaw 0 with live := true })] }
theorem test_remote_load : moves .remoteLoad (.remoteLoad (remote [0x1000, word (2 * 2 ^ 26 + 1), 9, 0])) sRemote (fun t => t.flight.any fun e => match e with
    | .messageArrival m => m.payload == [9, 5]
    | _ => false) = true := by decide +kernel
theorem test_remote_store : moves .remoteStore (.remoteStore (remote [0x1000, 6])) sRemote (fun t => readByte t 0 0x1000 == some 6) = true := by
  decide +kernel
theorem test_remote_atomic : moves .remoteAtomic (.remoteAtomic (remote [0x1000, 2 ^ 8, 7, 0, word (2 * 2 ^ 26 + 1), 9])) sRemote (fun t =>
    readByte t 0 0x1000 == some 12 && t.flight.any fun e => match e with
      | .messageArrival m => m.payload == [9, 5]
      | _ => false) = true := by decide +kernel
theorem test_remote_law : moves .remoteLaw (.remoteLaw (remote [0x1000, 0, 0, word (2 * 2 ^ 26 + 1), 9])) (atHome (sLaw 3 0x0001800100000001)) (fun t =>
    t.flight.any fun e => match e with
      | .messageArrival m => m.payload == [9, 0x00013C68]
      | _ => false) = true := by decide +kernel
theorem wit_remote : remoteCheck sRemote (remote [0x1000, word (2 * 2 ^ 26 + 1), 9, 0]) 4 true (word (2 * 2 ^ 26 + 1)) = none ∧
    (remoteCheck sRemote (remote [0x1000]) 4 true (word (2 * 2 ^ 26 + 1))).isSome = true ∧
    remoteCheck sRemote (remote [0x1000, 6]) 2 true (BitVec.allOnes 64) = none ∧
    (unitXlate sRemote .other 768 0 false .atomic 0x1000).toOption.isSome = true ∧ remoteAtomicValue 0 8 5 7 0 = some 12 ∧
    remoteAtomicValue 10 8 5 7 4 = none ∧
    (lawCommit (atHome (sLaw 3 1)) ⟨.other, 768, 0, false⟩ false (.global_ 0x1000) (remoteChange 0 0)).toOption.isSome = true := by decide +kernel
theorem test_remote_fault : moves .remoteFault (.remoteFault (sourceWord 0 0 0) 0 1 7 0x123) sMem (fun t => t.me.rfstat == word (2 ^ 63 + 7 * 2 ^ 54 + 0x123)) = true ∧
    moves .remoteFault (.remoteFault (word (5 * 2 ^ 26)) 0 1 7 0x123) sMem (fun t => (t.ctx 0).lawErr == 1) = true := by decide +kernel
theorem test_links : moves .drtRetransmit (.drtRetransmit { aMsg 3 with desc := word (2 ^ 10) }) { sMem with ns := 16000, segments := [({ aMsg 3 with desc := word (2 ^ 10) }, 0)] }
    (fun t => t.fabric.length == 1) = true ∧ moves .linkPortFailure (.linkPortFailure 5) sMem (fun t => t.failedPorts == [5]) = true := by decide +kernel
/-- A message of package 1, its number noted; the last port fails while a message is under way to package 1. -/
theorem wit_other_package : let m : Msg := { aMsg 3 with src := word (2 ^ 10 + 1) }
    m.src.toNat / 2 ^ 10 % 2 ^ 16 ≠ sMem.pkg ∧ heardBefore (hear sMem m) m = true ∧ heardBefore sMem m = false ∧
    (List.range 48).all (List.range 48).contains = true := by decide +kernel
theorem test_last_port : moves .linkPortFailure (.linkPortFailure 47) { sMem with
    failedPorts := List.range 47, unacked := [(sourceWord 0 0 0, 3, { aMsg 3 with desc := word (2 ^ 10) })] } (fun t => t.unacked == []) = true := by
  decide +kernel
/-! ### Steps: tasks, barriers, memory -/

theorem test_latch_set : moves .eventLatchSet (.eventLatchSet 0 1 1) (sTask 0 0) (fun t => t.me.latch) = true ∧
    launchHere (sTask 0 0) 0 1 = some true ∧ launchHere (sTask 0 0) 0 0 = some false ∧ launchHere { sTask 0 0 with launches := [(0, { boundRun with order := 2 })] } 0 2 = none := by decide +kernel
def sWait (w : Wait) (cycle : Nat) : State := { onCore 0 (core 0 { thTask with wait := w }) with cycle := cycle }
theorem test_wfe_timeout : moves .wfeTimeout (.wfeTimeout 0 0) (sWait (.event 50) 50) (fun t => t.me.wait == .eventOver) = true ∧
    waitsStep .wfeTimeout (.wfeTimeout 0 0) (sWait (.event 50) 49) = true := by decide +kernel
theorem test_fe_timeout : moves .feTimeout (.feTimeout 0 0) (sWait (.granules 3 1 true) (2 ^ 40 + 1)) (fun t => t.me.wait == .none
    && t.me.strand != .running) = true ∧ waitsStep .feTimeout (.feTimeout 0 0) (sWait (.granules 3 1 true) (2 ^ 40)) = true ∧
    ((sWait .none 0).core 0).granulesAre 3 1 true = false := by decide +kernel
theorem test_pair_timeout : moves .pairTimeout (.pairTimeout 0 0) (sWait .pairing (2 ^ 40 + 1)) (fun t => t.me.strand != .running) = true := by
  decide +kernel

def aTask : TaskRec := ⟨0x1000, 33, 0x1002, 0x10000000000000, 0, 0, 0, 0, 0x8000, 0⟩
/-- Thread 0 is idle in a running launch on cores 0 to 3; core 0 has these records and continuations. -/
def sSearch (runs : List Nat) (deque : List TaskRec) : State :=
  let k := { core 0 { thread [] with strand := .idle, finished := true } with
    runs := runs, deque := deque, bound := some ⟨⟨0, 1, 0, 0, 0, 0, false⟩, { aLaunch with steal := 1 }, 0⟩ }
  { onCore 0 k with cores := [(0, k), (1, core 0 (thread []))] }
theorem test_work_search : moves .workSearch (.workSearch 0 0) (sSearch [] [aTask]) (fun t => t.me.strand == .running && t.me.pc == 0x1000
    && t.myCore.deque == []) = true ∧ moves .workSearch (.workSearch 0 0) (sSearch [] []) (fun t => t.me.search.asked.isSome) = true := by
  decide +kernel
theorem wit_work_search : searching (sSearch [] []) 0 0 = true ∧ searching (sTask 0 0) 0 0 = false ∧ ((sSearch [] []).thread 0 0).search.asked = none ∧
    ((sSearch [0x8000] []).core 0).runs = [0x8000] ∧ ((sSearch [] []).core 0).bound.isSome = true := by decide +kernel
theorem test_back_off : moves .backOff (.backOff 0 0) (sSearch [] []) (fun t => t.flight == [.workSearch 0 0]) = true ∧
    ((sSearch [] []).thread 0 0).search.until_ ≤ (sSearch [] []).cycle := by decide +kernel
theorem test_steal : moves .steal (.steal 1 0 0 1) (sSearch [] [aTask, { aTask with pc := 8 }]) (fun t => t.flight == [.stealAnswer 1 0 0 1 (some aTask)]
    && t.myCore.deque.length == 1) = true ∧ moves .steal (.steal 1 0 0 1) (sSearch [] []) (fun t => t.flight == [.stealAnswer 1 0 0 1 none]) = true := by
  decide +kernel
theorem test_steal_answer : moves .stealAnswer (.stealAnswer 0 0 1 1 (some aTask)) (sSearch [] []) (fun t => t.me.pc == 0x1000) = true ∧
    moves .stealAnswer (.stealAnswer 0 0 1 1 (some aTask)) { sTask 0 0 with cores := [(0, core 0 (thread []))] } (fun t => t.myCore.tree.aband == 1) = true ∧
    moves .stealAnswer (.stealAnswer 0 0 1 1 none) (sSearch [] []) (fun t => t.me.strand == .idle) = true := by decide +kernel
/-- Cores 0 and 1 run a launch whose heartbeat limit is 2^16 bundles. -/
def sBeat (n : Nat) : State :=
  let k := { core 0 { thread [] with hbcount := word n } with bound := some ⟨⟨0, 1, 0, 0, 0, 0, false⟩, { aLaunch with h := 16, count := 2 }, 0⟩ }
  { onCore 0 k with cores := [(0, k), (1, k)] }
theorem test_heartbeat_miss : moves .heartbeatMiss (.heartbeatMiss 0 0) (sBeat (2 ^ 16)) (fun t => t.myCore.fenced && (t.core 1).peerFaults == 1
    && (t.core 2).peerFaults == 0) = true ∧ waitsStep .heartbeatMiss (.heartbeatMiss 0 0) (sBeat (2 ^ 16 - 1)) = true := by decide +kernel
theorem test_tree : moves .strandsDone (.strandsDone 0 1 1) (sTask 0 0) (fun t => t.myCore.tree.childReports.contains 1) = true ∧
    moves .launchStop (.launchStop 0 1) (sSearch [] []) (fun t => t.myCore.tree.stopped) = true := by decide +kernel

/-- Barrier b5 of the group, its master core 0. -/
def sGroup (arrived : Nat) (tout : Bool) : State := sBar arrived true tout (.arrival 5)
theorem test_group_arrival : moves .groupBarrierArrival (.groupBarrierArrival 0 0 0 5 1 7 false true) (sGroup 0 false) (fun t =>
    (t.myCore.bar 5).acc == 7 && t.me.wait == .joined 5 9) = true ∧
    moves .groupBarrierArrival (.groupBarrierArrival 0 0 0 5 1 7 false true) (sGroup 0 true) (fun t => t.me.strand != .running) = true := by
  decide +kernel
theorem wit_group_arrival : launchHere (sGroup 0 false) 0 1 = some true ∧ (((sGroup 0 true).core 0).bar 5).tout = true ∧
    (((sGroup 0 false).core 0).bar 5).tout = false := by decide +kernel
theorem test_barrier_release : moves .barrierRelease (.barrierRelease 0 5 1 9 21 false) (sBar 0 true false (.barrier 5 9)) (fun t =>
    (t.myCore.bar 5).phase == 10 && t.me.wait == .released 5 9 21) = true := by decide +kernel
def sLate (held : Bool) (cycle mode : Nat) : State :=
  { onCore 0 { core 0 { thread [] with wait := .barrier 5 9 } with barriers := [(5, { aBar 1 false false with first := some 0, limit := 100, held := held })] } with
    cycle := cycle, ctxs := [(0, { Context.reset with live := true, modes := word mode })] }
theorem test_barrier_timeout : moves .barrierTimeout (.barrierTimeout 0 5) (sLate false 100 0) (fun t => (t.myCore.bar 5).tout) = true ∧
    moves .barrierTimeout (.barrierTimeout 0 5) (sLate false 100 32) (fun t => (t.myCore.bar 5).held && !(t.myCore.bar 5).tout) = true ∧
    waitsStep .barrierTimeout (.barrierTimeout 0 5) (sLate false 99 0) = true ∧ waitsStep .barrierTimeout (.barrierTimeout 0 5) (sLate true 100 0) = true := by
  decide +kernel

/-- Slice 3 holds sector 128, line 32, modified. -/
def sSlice : State := { sMem with sectors := [(sectorKey 3 128, ⟨9, true, false⟩)], poison := [128] }
theorem test_eviction : moves .lineEviction (.lineEviction 3 32) sSlice (fun t => t.sectors == [] && Mem.read t.mem 0x1000 32 == 9 && t.poison == []) = true ∧
    waitsStep .lineEviction (.lineEviction 3 32) { sSlice with holds := [⟨.host, 130, 3, none⟩] } = true := by decide +kernel
theorem wit_eviction : sSlice.sectors.find? (sectorKey 3 128) = some ⟨9, true, false⟩ ∧ SMap.wf sSlice.sectors = true := by decide +kernel
theorem test_fill : moves .sectorFill (.sectorFill (homeSlice sMem 0 0x1000) 128 ⟨.clean, []⟩) sMemFull (fun t =>
    (t.sectors.find? (sectorKey (homeSlice sMem 0 0x1000) 128)).map (fun e => (e.data.toNat % 2 ^ 64, e.modified)) == some (0x0807060504030201, false)) = true := by
  decide +kernel
theorem wit_fill : (sMem.ctxs.any fun c => c.2.live && homeSlice sMem c.2.seed 0x1000 == homeSlice sMem 0 0x1000) = true ∧ populated sMem 0x1000 = true ∧
    sMem.sectors.find? (sectorKey (homeSlice sMem 0 0x1000) 128) = none ∧ 128 ∉ sMem.poison ∧
    readSector (carrySector sMem 3 128 ⟨.uncorrectable 0, []⟩) 3 128 = none := by decide +kernel
theorem test_channel_loss : moves .channelControllerLoss (.channelControllerLoss 7 31) sMem (fun t => t.lostChannels == [(7, 31)]) = true := by decide +kernel
theorem test_load_reply : moves .loadReply (.loadReply 0 0 4) (onCore 0 (core 0 { thread [] with requests := [⟨4, true, 1, [3], 0, 0⟩, ⟨5, true, 1, [6], 0, 0⟩] }))
    (fun t => t.me.requests == [⟨5, true, 1, [6], 0, 0⟩]) = true := by decide +kernel
/-- A store at pc 16 was refused; the thread has gone on to pc 64. -/
def sRefused (st : Strand) : State :=
  onCore 0 { core 0 { thread [(1, 5)] with strand := st } with refused := [⟨0, { thread [(1, 4)] with pc := 16 }, 0, 0, true, 0x1000⟩] }
theorem test_store_refused : moves .storeRefused (.storeRefused 0 0) (sRefused .running) (fun t => t.myCore.refused == []) = true ∧
    moves .storeRefused (.storeRefused 0 0) (sRefused .idle) (fun t => t.myCore.refused == []) = true ∧
    moves .storeRefused (.storeRefused 0 0) sMem (fun t => t.me.pc == 64) = true := by decide +kernel
theorem test_page_walk : moves .pageWalk (.pageWalk 0 0 0x1000 .read false) sMem (fun t => t.myCore.tlb == []) = true ∧
    (match xlate { sMem with cores := [(0, { (sMem.core 0) with tlb := [] })] } 0 0 0x1000 .read false with | .error c => c == .notPresent | .ok _ => false) = true := by
  decide +kernel
/-- A page table: 0x200000 in a page of 2 MiB at 0x400000 with R and W, 0x1000 in one of 4 KiB at 0x7000 with R, 0x2000 with W
but not R, 0x3000 not valid, all for user code. -/
def sTable : State :=
  { sMem with
    cores := [(0, { (sMem.core 0) with tlb := [] })]
    ctxs := [(0, { Context.reset with live := true, root := BitVec.ofNat 39 (0x100000 / 128) })]
    mem := [(0x100000, 0x101001), (0x101000, 0x102001), (0x102000, 0x103001), (0x103000, 0x104001), (0x103008, 0x40002F),
      (0x104008, 0x7027), (0x104010, 0x702B)].foldl (fun m p => Mem.write m p.1 8 p.2) [] }
def walked (va : Nat) (nd : Rights) : Except Cause (Nat × Option (Nat × Nat)) := (xlate sTable 0 0 va nd false).map fun x => (x.pa, x.update)
theorem test_walk : walked 0x212345 .write = .ok (0x412345, some (0x103008, 0x40032F)) ∧ walked 0x1234 .read = .ok (0x7234, some (0x104008, 0x7127)) := by
  decide +kernel
theorem test_walk_faults : walked 0x1234 .write = .error .accessRights ∧ walked 0x2000 .write = .error .pageTableFormat ∧
    walked 0x3000 .read = .error .notPresent ∧ walked 0x10000000000000 .read = .error .addressRange := by decide +kernel
/-- A launch that keeps no mirror; one of two idle threads that search; a copy's arrival at a group barrier of core 1. -/
theorem wit_search_order : TaskMirrored (sSearch [] []) (sSearch [] []) 0 0 aTask ∧ lowerFirst (sSearch [] []) 0 1 = false ∧
    lowerFirst { sSearch [] [] with flight := [.workSearch 0 0] } 0 1 = true ∧ searching (sSearch [] []) 0 0 = true :=
  ⟨rfl, by decide +kernel, by decide +kernel, by decide +kernel⟩
theorem wit_forwarded : forwarded (sGroup 0 false) 0 0 5 1 true = none ∧
    (let k := { core 0 (thread []) with barriers := [(5, aBar 0 true false)] }
     (forwarded { onCore 0 k with cores := [(1, k)] } 1 1 5 1 false).isSome) = true := by decide +kernel
/-! ### Steps: contexts, queues, launches -/

/-- Context 0 with its queue headers at 0x20000 and the handling units' translations cached; queue 0 as given. -/
def sQueue (k : Queue) (mem : List Host.Cell) : State :=
  { atHome sMem with
    ctxs := [(0, { Context.reset with live := true, qbase := 0x20000, lawbase := 0x4000 })]
    queues := [(0, k)]
    mem := mem }
/-- A queue in service whose commands lie at 0x21000, with this command running. -/
def aQueue (accepted : Nat) (cmd : Option Command) : Queue :=
  { Queue.reset with live := true, weight := 1, cbase := 0x21000, accepted := accepted, cmd := cmd }
def aCmd (kind arg1 arg2 : Nat) : Command := ⟨1, kind, word arg1, word arg2, 0, true⟩
/-- The command in the place of sequence number 1: its kind and its arguments. -/
def inPlace (kind arg1 arg2 : Nat) : List Host.Cell := Mem.write [] 0x21080 64 (1 + kind * 2 ^ 64 + arg1 * 2 ^ 128 + arg2 * 2 ^ 192)

/-- A context descriptor whose law table's domain descriptors are zeros, and one with a reserved bit. -/
theorem test_context_create : moves .contextCreate (.contextCreate 0 (BitVec.ofNat 512 (1 + 77 * 2 ^ 64 + 0x4000 * 2 ^ 128))) { sQueue Queue.reset [] with ctxs := [] } (fun t =>
      (t.ctx 0).live && (t.ctx 0).seed == 77 && (t.ctx 0).domains.length == 8) = true ∧
    moves .contextCreate (.contextCreate 0 (BitVec.ofNat 512 (1 + 2 ^ 47))) { sQueue Queue.reset [] with ctxs := [] } (fun t =>
      !(t.ctx 0).live && (t.ctx 0).cstat == 2) = true := by decide +kernel
theorem test_context_destroy : moves .contextDestroy (.contextDestroy 0) (sQueue Queue.reset []) (fun t => (t.ctx 0).live && (t.ctx 0).cstat == 3) = true ∧
    moves .contextDestroy (.contextDestroy 0) { sQueue Queue.reset [] with cores := [] } (fun t => !(t.ctx 0).live && (t.ctx 0).cstat == 0) = true := by decide +kernel
theorem wit_contexts : ctxReserved (BitVec.ofNat 512 (1 + 2 ^ 47)) = true ∧ ctxReserved (BitVec.ofNat 512 (1 + 2 ^ 46)) = false ∧
    contextBusy (sQueue Queue.reset []) 0 = true ∧ contextBusy { sQueue Queue.reset [] with cores := [] } 0 = false := by decide +kernel
/-- A header of weight 2 with commands at 0x21000; one with a reserved bit. -/
theorem test_queue_enable : moves .queueEnable (.queueEnable 0 0) (sQueue Queue.reset (Mem.write [] 0x20000 64 (2 * 2 ^ 114 + 0x21000 * 2 ^ 448))) (fun t =>
      (t.queue 0 0).live && (t.queue 0 0).cbase == 0x21000 && (t.queue 0 0).weight == 2 && (t.queue 0 0).state == 0
      && t.flight.contains (.commandAccept 0 0)) = true ∧
    moves .queueEnable (.queueEnable 0 0) (sQueue Queue.reset (Mem.write [] 0x20000 64 (2 * 2 ^ 114 + 1))) (fun t => (t.queue 0 0).state == 3) = true ∧
    moves .queueEnable (.queueEnable 0 0) (sQueue Queue.reset []) (fun t => (t.queue 0 0).state == 3) = true := by decide +kernel
theorem test_command_accept : moves .commandAccept (.commandAccept 0 0) (sQueue (aQueue 1 none) (inPlace 1 0x1000 6)) (fun t =>
      t.flight.contains (.signal 0 0)) = true ∧
    moves .commandAccept (.commandAccept 0 0) (sQueue (aQueue 0 none) (Mem.write (inPlace 1 0x1000 6) 0x20030 8 1)) (fun t =>
      (t.queue 0 0).accepted == 1 && Mem.read t.mem 0x20028 8 == 1) = true := by decide +kernel
theorem wit_commands : serves (aQueue 1 none) = true ∧ serves Queue.reset = false ∧ (aQueue 1 none).done < (aQueue 1 none).accepted ∧
    (sQueue (aQueue 1 (some (aCmd 1 0x1000 6))) []).command 0 0 1 = some (aCmd 1 0x1000 6) ∧ (sQueue (aQueue 1 none) []).command 0 0 1 = none ∧
    queueOf Queue.reset (BitVec.ofNat 512 (2 * 2 ^ 114)) ≠ none ∧ queueOf Queue.reset (BitVec.ofNat 512 (12 * 2 ^ 124)) = none := by decide +kernel
theorem test_signal : moves .signal (.signal 0 0) (sQueue (aQueue 1 (some (aCmd 1 0x1000 6))) []) (fun t => readByte t 0 0x1000 == some 6
    && (t.queue 0 0).done == 1 && (t.queue 0 0).cmd == none) = true := by decide +kernel
theorem test_wait_for_signal : moves .waitForSignal (.waitForSignal 0 0) (sQueue (aQueue 1 (some (aCmd 2 0x1000 6))) []) (fun t => (t.queue 0 0).state == 1
    && t.flight.contains (.signalSatisfied 0 0)) = true ∧
    moves .signalSatisfied (.signalSatisfied 0 0) (sQueue (aQueue 1 (some (aCmd 2 0x1000 6))) [(0x1000, 6)]) (fun t => (t.queue 0 0).done == 1) = true ∧
    waitsStep .signalSatisfied (.signalSatisfied 0 0) (sQueue (aQueue 1 (some (aCmd 2 0x1000 6))) [(0x1000, 5)]) = true := by decide +kernel
/-- A launch descriptor at 0x22000 for cores 0 to 3; one with no cores. -/
def descNat (count : Nat) : Nat := count * 2 ^ 332 + 16 * 2 ^ 322
def sLaunch (count : Nat) : State := sQueue (aQueue 1 (some (aCmd 0 0x22000 0))) (Mem.write [] 0x22000 128 (descNat count))
theorem test_launch : moves .launch (.launch 0 0) (sLaunch 4) (fun t => (t.launches.map fun p => p.2.ld.count) == [4] && t.flight.contains .dispatchDecision) = true ∧
    moves .launch (.launch 0 0) (sLaunch 0) (fun t => t.launches == [] && (t.queue 0 0).done == 1) = true := by decide +kernel
theorem wit_launch : launchDescOk (descNat 4) = true ∧ launchDescOk (descNat 0) = false ∧ (dispRead (sLaunch 4) 0 0x22000 128).toOption.map (·.1) = some (descNat 4) := by
  decide +kernel
/-- A ready head for the free cores 0 to 3. -/
def aRun : LaunchRun := ⟨0, 0, 1, 0x22000, launchDesc (descNat 4), 0, 0, false, []⟩
def sReady : State := { sLaunch 4 with cores := [(768, { Core.reset with tlb := [⟨0, 0, 30, 0, true, true, true, true, true⟩] })], launches := [(0, aRun)] }
theorem test_dispatch : moves .dispatchDecision .dispatchDecision sReady (fun t => (List.range 4).all (fun c => ((t.core c).slots.map (·.1)) == [1])
    && ((t.core 4).slots == []) && (t.queue 0 0).decided) = true := by decide +kernel
theorem wit_dispatch : readyHeads sReady ≠ [] ∧ readyHeads (sLaunch 4) = [] ∧ (dispatchOnce sReady).decisions ≠ sReady.decisions := by decide +kernel
/-- Core 0 with a record of that launch in slot 1. -/
def aRec : BindRec := ⟨0x22000, 1, 0, 0, 0, 0, false⟩
def sBind (level : Nat) (bound : Bool) : State :=
  let k := { core 0 (thread []) with slots := [(1, { aRec with order := 1, level := level })] }
  { sReady with
    cores := [(0, if bound then { k with bound := some ⟨⟨0, 2, 0, 0, 0, 3, false⟩, { aLaunch with savebase := 0x40000 }, 0⟩ } else { k with bound := none, threads := [] })] ++ sReady.cores
    launches := [(0, { aRun with order := 1 })] }
theorem test_bind : moves .bind (.bind 0) (sBind 0 false) (fun t => t.myCore.bound.isSome && (t.thread 0 0).strand == .running && t.myCore.slots.map (·.1) == [0]) = true := by
  decide +kernel
theorem wit_bind : preempting ((sBind 0 true).core 0) ≠ none ∧ preempting ((sBind 0 false).core 0) = none ∧ (bestPending ((sBind 0 false).core 0)).isSome = true ∧
    (runOf (sBind 0 false) { aRec with order := 1 }).isSome = true ∧ runOf (sBind 0 false) { aRec with order := 7 } = none ∧ owesReleases (sBind 0 false) 0 = false := by
  decide +kernel
theorem wit_preemption : quiet (sBind 0 true) 0 = true ∧ moves .preemption (.preemption 0) (sBind 0 false) (fun t => t.myCore.bound == none) = true := by decide +kernel
/-- The follower of a checked pair writes no save area: the record that waited takes slot 0, and its own waits to be resumed. -/
def sFollower : State :=
  let k := { core 0 (thread []) with
    slots := [(1, { aRec with order := 1 })], pair := .follower 0
    bound := some ⟨⟨0, 2, 0, 0, 0, 3, false⟩, { aLaunch with savebase := 0x40000, chk := true }, 0⟩ }
  { sReady with cores := [(0, { core 0 (thread []) with pair := .leader 1 }), (1, k)] ++ sReady.cores }
theorem test_preemption : moves .preemption (.preemption 1) sFollower (fun t => (t.core 1).bound == none && (t.core 1).slots.map (·.1) == [0, 1]
    && (t.core 1).slots.map (fun p => p.2.resume) == [false, true]) = true ∧ quiet sFollower 1 = true ∧ quiet sFollower (leaderOf sFollower 1) = true := by
  decide +kernel
/-- The host's record for core 0, for a context in which the host dispatches. -/
def hostRec : BitVec 256 := BitVec.ofNat 256 (1 + 0x22000 * 2 ^ 192 + 9 * 2 ^ 144)
def sHost (count : Nat) : State := let s := sLaunch count; s.setCtx 0 { s.ctx 0 with modes := 1 }
theorem test_host_record : moves .hostBindRecord (.hostBindRecord 0 hostRec) (sHost 4) (fun t => (t.myCore.slots.map (·.1)) == [4] && t.flight == [.bind 0]) = true ∧
    moves .hostBindRecord (.hostBindRecord 0 hostRec) (sHost 0) (fun t => t.myCore.slots == []) = true ∧
    moves .hostBindRecord (.hostBindRecord 0 hostRec) (sLaunch 4) (fun t => t.myCore.slots == []) = true ∧ recordBad hostRec = false ∧ recordBad (hostRec + 2) = true := by
  decide +kernel
/-- Core 1's done word reaches its parent; the root's word completes the launch. -/
def sDone : State := { sBind 0 true with launches := [(0, { aRun with order := 2, descAddr := 0 })] }
theorem test_done_word : moves .doneWord (.doneWord 0 1 2 5) sDone (fun t => t.myCore.tree.childWords == [(1, 5)]) = true ∧
    moves .doneWord (.doneWord 0 0 2 5) sDone (fun t => t.launches == [] && (t.queue 0 0).done == 1) = true := by decide +kernel
theorem wit_done_word : launchHere sDone 0 2 = some true ∧
    (List.find? (fun (l : Nat × LaunchRun) => l.2.order == 2) sDone.launches).isSome = true := by decide +kernel

/-! ### Steps: stages -/

/-- A stage on cores 0 and 1: the descriptor at 0x23000, the ring header at 0x8000, core 0 owns every key, core 1 is spare;
t0 of both has ended. The entries, and the annexes in progress, as given. -/
def stageLd : LaunchDesc := { placedLaunch with count := 2, args := [0, 0, 0, 0, 0, word (2 ^ 63 + 0x23000)] }
def sStage (busy cycle mode : Nat) (entries : List Nat) (annexes : List Annex) (k : Queue) : State :=
  let c := { kRing 7 8 0 with
    threads := [(0, { thread [] with strand := .idle, finished := true }), (4, { thread [] with strand := .idle })]
    bound := some ⟨⟨0x22000, 1, 0, 0, 0, 0, false⟩, stageLd, 0⟩ }
  let desc := busy + 3 * 2 ^ 288 * 0 + 0x8000 * 2 ^ 216 + 0xA000 * 2 ^ 270 + 16 * 2 ^ 252 + 0xB000 * 2 ^ 234
  { sQueue k ((entries.zipIdx).foldl (fun m e => Mem.write m (0x23040 + 16 * e.2) 16 e.1) (Mem.write [] 0x23000 64 desc)) with
    cores := [(0, c), (1, c), (768, { Core.reset with tlb := [⟨0, 0, 30, 0, true, true, true, true, true⟩] })]
    ctxs := [(0, { Context.reset with live := true, qbase := 0x20000, modes := word mode })]
    launches := [(1, { aRun with ld := stageLd, order := 1, queue := 1 })]
    annexes := annexes
    cycle := cycle }
/-- An annex or a merge at this step: from key 64 up, owner core 0, twin core 1. -/
def anAnnex (merge : Bool) (step : Nat) : Annex := ⟨1, 0x23000, merge, step, 1, 64, 0, 0, 1, 8, 0, 0x8000, 0⟩
def range0 : Nat := entryOf 0 5 false 0 0 0x8000
theorem test_sample : moves .stageMonitorSample (.stageMonitorSample 0 1) (sStage 0 1024 0 [range0] [] Queue.reset) (fun t => t.flight == [.stageMonitorSample 0 1]
    && (t.stages.get 1 ⟨[], [], 0, [], []⟩).last == 1024) = true ∧
    waitsStep .stageMonitorSample (.stageMonitorSample 0 1) (sStage 0 1023 0 [range0] [] Queue.reset) = true := by decide +kernel
/-- The host's command to annex from key 64; a key below the range's; a merge where no twin is. -/
def policy (m r : Nat) : Queue := aQueue 1 (some ⟨1, 3, 0x23000, word m, word r, true⟩)
/-- A stage descriptor with a reserved bit set is malformed: the sample is skipped and its counts start again, and the command
completes with status 1 (R423). -/
theorem test_stage_malformed :
    readStage (sStage 2 1024 4 [range0] [] Queue.reset) 0 0x23000 = .error (.fault .descriptorFormat 0x23000) ∧
    moves .stageMonitorSample (.stageMonitorSample 0 1) { sStage 2 1024 0 [range0] [] Queue.reset with stages := [(1, ⟨[(0, 3)], [], 0, [], []⟩)] }
      (fun t => t.stages == [(1, ⟨[], [], 1024, [], []⟩)] && t.flight == [.stageMonitorSample 0 1]) = true ∧
    moves .annexPolicy (.annexPolicy 0 0) (sStage 2 0 4 [range0] [] (policy 64 0)) (fun t =>
      (t.queue 0 0).done == 1 && readByte t 0 0x21000 != none) = true := by decide +kernel
theorem test_annex_policy : moves .annexPolicy (.annexPolicy 0 0) (sStage 0 0 4 [range0] [] (policy 64 0)) (fun t =>
      t.annexes.map (fun a => (a.o, a.y, a.m)) == [(0, 1, 64)] && t.flight.contains (.splitActivation 0) && (t.queue 0 0).decided) = true ∧
    moves .annexPolicy (.annexPolicy 0 0) (sStage 0 0 4 [range0] [] (policy 0 64)) (fun t => (t.queue 0 0).done == 1) = true ∧
    moves .annexPolicy (.annexPolicy 0 0) (sStage 1 0 4 [range0] [] (policy 64 0)) (fun t => t.annexes == [] && (t.queue 0 0).done == 1) = true ∧
    waitsStep .annexPolicy (.annexPolicy 0 0) (sStage 1 0 4 [range0] [anAnnex false 3] { policy 64 0 with decided := true }) = true := by decide +kernel
theorem wit_annex_policy : stageLaunch (sStage 0 0 4 [range0] [] (policy 64 0)) 0 0x23000 ≠ none ∧ stageLaunch (sStage 0 0 4 [range0] [] (policy 64 0)) 0 0x24000 = none ∧
    ((sStage 0 0 4 [range0] [] (policy 64 0)).ctx 0).modes.getLsbD 2 = true := by decide +kernel
theorem test_split : moves .splitActivation (.splitActivation 0) (sStage 1 0 0 [range0, entryOf 64 6 true 0 1 0x8000] [anAnnex false 3] Queue.reset) (fun t =>
    (t.core 0).act.isSome && (t.thread 0 4).getX 3 == 64 && (t.thread 0 4).getX 5 == 1) = true := by decide +kernel
theorem test_annex_gen : moves .annexForward (.annexForward 0) (sStage 1 0 0 [range0, entryOf 64 6 true 0 1 0x8000] [anAnnex false 4] Queue.reset) (fun t =>
    (ringHdr (t.core 0) 0x8000).gen == 6 && readByte t 0 0x23046 == some 6 && t.annexes.map (fun a => (a.step, a.tailT)) == [(5, 8)]) = true := by decide +kernel
/-- Step 5: no record is full yet at ticket 7, so it waits; with none left the entry is released and busy clears. -/
theorem test_annex_close : waitsStep .annexForward (.annexForward 0) (sStage 1 0 0 [range0, entryOf 64 6 true 0 1 0x8000] [anAnnex false 5] Queue.reset) = true ∧
    moves .annexForward (.annexForward 0) (sStage 1 0 0 [range0, entryOf 64 6 true 0 1 0x8000] [{ anAnnex false 5 with tailT := 7 }] Queue.reset) (fun t =>
      t.annexes == [] && readByte t 0 0x23055 == some 0x80 && readByte t 0 0x23000 == some 0) = true := by decide +kernel
theorem test_merge : waitsStep .mergeActivation (.mergeActivation 0) (sStage 1 0 0 [range0] [anAnnex true 2] Queue.reset) = true ∧
    moves .mergeActivation (.mergeActivation 0) (sStage 1 0 0 [range0] [anAnnex true 4] Queue.reset) (fun t => (t.core 0).act.isSome) = true ∧
    moves .mergeActivation (.mergeActivation 0) (sStage 1 0 0 [range0, entryOf 64 6 true 0 1 0x8000] [anAnnex true 5] Queue.reset) (fun t => t.annexes == []
      && readByte t 0 0x23000 == some 0) = true := by decide +kernel
theorem wit_stages : (let s := sStage 1 0 0 [range0] [anAnnex false 3, anAnnex true 2] Queue.reset
    annexOn s 0 false = some (anAnnex false 3) ∧ annexOn s 0 true = some (anAnnex true 2) ∧ annexOn s 1 false = none ∧
    (annexRun s (anAnnex false 3)).isSome = true ∧ quiescent s 0 0x8000 = true ∧ canActivate s 0 = true ∧ quiescent s 1 0x8000 = true) ∧
    (ringHdr (kRing 7 8 0) 0x8000).depth ≠ 0 ∧ (ringHdr (kRing 7 7 0) 0x8000).depth = 0 := by decide +kernel
/-! ### Steps: management, the host, resets -/

/-- Thread 0 waits on item 1 of the page-fault service, which carries notice 9. -/
def sPage : State :=
  { sWait (.pageFault 1) 0 with
    pageItems := [⟨1, some 9, 0, .thread 0 0 false, 0x5000, false⟩]
    ctxs := [(0, { Context.reset with live := true })] }
/-- The same item in the hands of the management firmware, the page made present by a leaf of 1 GiB in the meantime. -/
def sServed : State :=
  { sPage with
    pageItems := [⟨1, none, 0, .thread 0 0 false, 0x5000, false⟩]
    mem := Mem.write (Mem.write (Mem.write [] 0 8 0x1001) 0x1000 8 0x2001) 0x2000 8 7 }
theorem test_page_service : moves .pageFaultService (.pageFaultService 0 1 true) sServed (fun t => t.me.wait == .none && t.me.strand == .running && t.pageItems == []) = true ∧
    moves .pageFaultService (.pageFaultService 0 1 false) sServed (fun t => t.me.strand != .running) = true ∧
    waitsStep .pageFaultService (.pageFaultService 0 2 true) sServed = true ∧ waitsStep .pageFaultService (.pageFaultService 0 1 true) sPage = true := by decide +kernel

/-- The mailbox is busy with a command and its arguments. -/
def asked (s : State) (code : Nat) (args : List Nat) : State :=
  { s with dev := (args.zipIdx).foldl (fun m a => Mem.write m (0x300000 + 8 * a.2) 8 a.1) (Mem.write [] 0x300080 8 (1 + 256 * code)) }
/-- Busy is clear and the status is this. -/
def answered (n : Nat) (t : State) : Bool := !(doorbell t).getLsbD 0 && (doorbell t).toNat / 2 ^ 24 % 2 ^ 8 == n && Mem.read t.dev 0x300040 8 == (doorbell t).toNat
theorem test_page_map : moves .pageMap .pageMap (asked sPage 1 [0, 9]) (fun t => answered 0 t && t.me.wait == .none) = true ∧
    moves .pageMap .pageMap (asked sPage 1 [0, 8]) (fun t => answered 1 t && t.me.wait == .pageFault 1) = true ∧
    moves .pageDecline .pageDecline (asked sPage 2 [0, 9]) (fun t => answered 0 t && t.me.strand != .running) = true := by decide +kernel
theorem test_mailbox_idle : moves .pageMap .pageMap (asked sPage 2 [0, 9]) (fun t => (doorbell t).getLsbD 0 && t.me.wait == .pageFault 1) = true := by decide +kernel
/-- The host holds barrier b5 of core 0 at phase 9. -/
theorem test_barrier_commands : moves .barrierExtend .barrierExtend (asked (sLate true 100 32) 3 [0, 0, 5]) (fun t => answered 0 t && !(t.myCore.bar 5).held
      && (t.myCore.bar 5).first == some 100) = true ∧
    moves .barrierExpire .barrierExpire (asked (sLate true 100 32) 4 [0, 0, 5]) (fun t => answered 0 t && (t.myCore.bar 5).tout) = true ∧
    moves .barrierExtend .barrierExtend (asked (sLate true 100 32) 3 [0, 0, 6]) (answered 1) = true := by decide +kernel
def aTriage : TriageItem := ⟨3, 0, 0, 0, 1, 0, 1, 1, none⟩
theorem test_contain : moves .contain .contain (asked { sTask 0 0 with triage := [aTriage] } 5 [0, 3, 1]) (fun t => answered 0 t && t.triage == []) = true ∧
    moves .contain .contain (asked { sTask 0 0 with triage := [aTriage] } 5 [0, 3, 5]) (fun t => answered 1 t && t.triage == [aTriage]) = true ∧
    moves .contain .contain (asked { sTask 0 0 with triage := [aTriage] } 5 [0, 4, 1]) (answered 1) = true := by decide +kernel
/-- ATTEST writes 256 bytes of report; an image shorter than its header is refused; nothing staged cannot be activated. -/
theorem test_firmware : moves .firmwareStage .firmwareStage (asked sMem 8 [0x1000, 255]) (fun t => answered 1 t && t.firmware.staged == none) = true ∧
    moves .firmwareActivate .firmwareActivate (asked sMem 9 []) (answered 1) = true ∧
    moves .firmwareActivate .firmwareActivate (asked { sMem with firmware := { sMem.firmware with staged := some ⟨0, []⟩ } } 9 []) (fun t => answered 0 t && t.firmware.activate) = true := by
  decide +kernel
theorem wit_attest : AtHand .attest (hand .attest (asked sMem 7 [])) ∧ (doorbell (asked sMem 7 [])).getLsbD 0 = true ∧
    (doorbell (asked sMem 7 [])).toNat / 2 ^ 8 % 2 ^ 8 = 7 := by unfold AtHand; decide +kernel
theorem test_tlb_invalidate : moves .tlbInvalidate .tlbInvalidate (asked sMem 10 [0, 0]) (fun t => answered 0 t && t.myCore.tlb == []) = true ∧
    moves .tlbInvalidate .tlbInvalidate (asked sMem 10 [1, 0]) (answered 1) = true ∧ moves .tlbInvalidate .tlbInvalidate (asked sMem 10 [0, 2]) (answered 1) = true := by
  decide +kernel
theorem test_registers : moves .registerWrite (.registerWrite 0x300008 5) sMem (fun t => mbArg t 1 == 5) = true ∧
    moves .registerWrite (.registerWrite 0x300080 0x101) sMem (fun t => t.flight == [.pageMap]) = true ∧
    moves .registerWrite (.registerWrite 0x40 1) { sMem with ctxs := [] } (fun t => t.flight == [.contextCreate 1 1]) = true ∧
    moves .registerWrite (.registerWrite 0x100080 1) sMem (fun t => t.flight == [.hostBindRecord 0 1]) = true ∧
    moves .registerWrite (.registerWrite 0x400000 1) sMem (fun t => (t.monitors.get 0 ⟨0, 0, []⟩).config == 1) = true := by decide +kernel
theorem test_monitor_and_clock : moves .monitorConfigWrite (.monitorConfigWrite 7 0x0100000000000001) sMem (fun t => (t.monitors.get 7 ⟨0, 0, []⟩).config == 1
      && (t.monitors.get 7 ⟨0, 9, []⟩).result == 0) = true ∧ moves .clockThrottle (.clockThrottle 1200) sMem (fun t => t.mhz == 1200) = true ∧
    (Event.clockThrottle 1250).wellFormed = false := by decide +kernel
theorem test_host_access : moves .hostBar2Write (.hostBar2Write 0 0x1000 [7, 8]) (atHome sMem) (fun t => readByte t 0 0x1000 == some 7 && readByte t 0 0x1001 == some 8) = true ∧
    moves .hostBar2Read (.hostBar2Read 0 0x1000 2) (atHome sMemFull) (fun t => t.hostReads == [some [1, 2]]) = true ∧
    moves .hostBar2Write (.hostBar2Write 1 0x1000 [7, 8]) (atHome sMem) (fun t => t.portErrors == 1) = true ∧
    moves .hostBar2Read (.hostBar2Read 0 0x10000000000000 2) (atHome sMem) (fun t => t.hostReads == [none] && t.portErrors == 0) = true := by decide +kernel
theorem test_warm_reset : moves .warmReset .warmReset { asked sSlice 6 [] with flight := [.workSearch 0 0] } (fun t => answered 0 t && t.sectors == []
    && Mem.read t.mem 0x1000 32 == 9 && t.myCore.bound == none) = true := by decide +kernel
theorem test_unit_loss : moves .unitLoss (.unitLoss (.slice 3)) sSlice (fun t => t.sectors == [] && t.retiredSlices == [3] && Mem.read t.mem 0x1000 32 == 0) = true ∧
    moves .unitLoss (.unitLoss .management) { sSlice with firmware := { sMem.firmware with spare := false } } (fun t => t.sectors == []) = true ∧
    moves .unitLoss (.unitLoss (.channel 2 3)) sMem (fun t => t.lostChannels == [(2, 3)]) = true ∧
    moves .managementFailover .managementFailover { sSlice with firmware := { sMem.firmware with spare := false } } (fun t => t.sectors == []) = true := by decide +kernel
theorem test_cold_reset : moves .coldReset .coldReset sSlice (fun t => t.mem == [] && t.cores == [] && t.sectors == []) = true := by decide +kernel
theorem test_core_loss : moves .coreLoss (.coreLoss 0) sXch (fun t => (t.core 0).fenced) = true := by decide +kernel
/-- Cores 0 and 1 are a checked pair with a gated message. -/
def sPair : State :=
  { sXch with cores := [(0, { kXch with pair := .leader 1, gated := [.messageArrival (aMsg 3)], bundles := 4 }), (1, { kXch with pair := .follower 0 })] }
theorem test_interval : moves .intervalCompare (.intervalCompare 0 .agree) sPair (fun t => (t.core 0).gated == [] && (t.core 0).bundles == 0
      && t.flight.contains (.messageArrival (aMsg 3))) = true ∧
    moves .intervalCompare (.intervalCompare 0 .agree) sXch (fun t => t.flight == []) = true := by decide +kernel

/-! ### Steps of the machine -/

/-- Right after reset with ADDI x1, x0, 7 placed: 1 100001 00001 00000 000000000000111. -/
def sPlaced : State := State.reset.withFetchWord 32 0xC2100007
/-- A pair placed: SRRD x5, 0x008 and ADDI x1, x0, 7. -/
def sPlaced2 : State := let s := State.reset.withFetchWord 32 0x32500008; s.setCore 0 ((s.core 0).lwrite 4 4 0x42100007)
theorem test_step : (match step sPlaced with | .next t => (t.thread 0 0).getX 1 == 7 && (t.thread 0 0).pc == 4 | _ => false) = true := by decide +kernel
theorem test_step_pair : (match step sPlaced2 with | .next t => (t.thread 0 0).getX 1 == 7 && (t.thread 0 0).pc == 8 | _ => false) = true := by decide +kernel
/-- The thread that is selected, its bundle framed and decoded: nothing holds the fetch, no register is pending. -/
theorem wit_step : autoStep sPlaced = none ∧ sPlaced.turns = [⟨0, 0, .thread 0 0⟩] ∧ codeOffset (sPlaced.core 0) 0 = some 0 ∧
    (sPlaced.thread 0 0).fetched = [] ∧
    (let s0 := advance { sPlaced with turns := [] } 0 0
     let r := readyThreads 0 [0, 1, 2, 3, 4] s0
     let k := r.1.core 0
     let sf : State := { r.1.setCore 0 { k with sched := { k.sched with yielded := false } } with cur := (0, 0), issue := Issue.reset }
     select (s0.core 0).sched r.2 = some 0 ∧ fetchHeld sf 0 0 sf.me.pc.toNat = false ∧
     (match frameBundle sf with
      | .ok s1 =>
        let s2 := s1.setMe { s1.me with fetched := fetchAhead s1 s1.cid s1.tid s1.fall.toNat };
        (match decodeWord s2.issue.w0 with
          | .ok i => i == .addi 1 0 7 && !anyPending s2.me (bundleNames s2 i) && !(unanswered s2.me && acts s2 i)
          | .error _ => false) && s2.me.rep == 0
      | .error _ => false) = true) := by decide +kernel
theorem wit_frame_bundle : (match frameBundle sPlaced with | .ok s => s.issue.lone && s.issue.w0 == 0xC2100007 | .error _ => false) = true ∧
    (match frameBundle sPlaced2 with
      | .ok s => !s.issue.lone && s.issue.w1 == 0x42100007 && (match s.aWord with | .ok i => i == .addi 1 0 7 | .error _ => false)
      | .error _ => false) = true ∧
    writesClash (thread []) (.srrd 5 8) (.addi 1 0 7) = false ∧ writesClash (thread []) (.srrd 1 8) (.addi 1 0 7) = true := by decide +kernel
/-- Threads whose trap goes to the hook, to the supervisor, and nowhere. -/
def sHooked : State := onCore 0 (core 0 { thread [(1, 5)] with fhook := 0x400, fframe := 0x9000, svec := 0x800, sframe := 0x2000 })
def sVectored : State := onCore 0 (core 0 { thread [(1, 5)] with svec := 0x800, sframe := 0x2000 })
theorem test_trap_hook : trapsWith (.jalr 1 2 0) (sHooked.setMe (sHooked.me.setX 2 0x1002)) .misalignedPair 0x1002 = true ∧
    (let t := takeTrap sHooked .misalignedPair 0x1002 false
     t.me.pc = 0x400 ∧ t.me.ha = true ∧ t.myCore.lread 0x9000 8 = 64 ∧ t.myCore.lread 0x9010 8 = 0x1002 ∧ t.myCore.lread 0x9040 8 = 5) := by decide +kernel
theorem test_trap_supervisor : (let t := takeTrap sVectored .misalignedPair 0x1002 false
    t.me.pc = 0x800 ∧ t.me.sv = true ∧ t.me.ha = false ∧ readByte t 0 0x2000 = some 64 ∧ readByte t 0 0x2040 = some 5) := by decide +kernel
theorem wit_traps : Mem.wf sHooked.myCore.lmem = true ∧ Cause.misalignedPair.hookable = true ∧ sHooked.me.fhook ≠ 0 ∧ sHooked.me.ha = false ∧
    sHooked.me.sv = false ∧ sHooked.myCore.cw ≤ 0x9000 ∧ 0x9000 + 512 ≤ sHooked.myCore.xb ∧ sVectored.me.fhook = 0 ∧ sVectored.me.svec ≠ 0 ∧
    (match frameWrite sVectored 0 0 0x2000 512 1 with | .written _ => true | _ => false) = true ∧
    (match frameWrite sVectored 0 0 (2 ^ 52) 512 1 with | .faulted => true | _ => false) = true ∧
    (match frameWrite sVectored 0 0 (2 ^ 40) 512 1 with | .absent va => va == 2 ^ 40 | _ => false) = true ∧
    (match frameWrite { sVectored with holds := [⟨.host, 256, homeSlice sVectored 0 0x2000, none⟩] } 0 0 0x2000 512 1 with
      | .held _ => true | _ => false) = true ∧
    frameItem sVectored (2 ^ 40) = none ∧
    (frameItem { sVectored with pageItems := [⟨1, none, 0, .frame 0 0, 2 ^ 40, true⟩] } (2 ^ 40)).isSome = true ∧ sMem.me.svec = 0 ∧
    (handler true [] []).tid = 4 := by decide +kernel
/-- A frame whose page is not present waits on the service, and the thread faults once the service has declined. -/
theorem test_frame_waits :
    (let s := sVectored.setMe { sVectored.me with sframe := 2 ^ 40 }
     let t := takeTrap s .misalignedPair 0x1002 false
     let u := takeTrap { t with pageItems := t.pageItems.map fun i => { i with declined := true } } .misalignedPair 0x1002 false
     t.me.wait == .pageFault 1 && t.pageItems.length == 1 && t.me.pc == s.me.pc && !t.me.sv && u.pageItems.length == 0 && u.me.pc == s.me.pc) = true := by
  decide +kernel
theorem wit_frames : completes (.add 3 1 2) sMem (fun _ => true) = true ∧ completes (.addi 3 1 5) sMem (fun _ => true) = true ∧
    completes (.fadd 3 1 2 2) sMem (fun _ => true) = true ∧ completes (.stW 2 1 0) sMem (fun _ => true) = true ∧
    xlate sMem 0 0 0x1000 .write false = .ok (hitFor .write 0x1000) ∧ xlate sMem 0 0 0x1000 .read false = .ok (hit 0x1000) ∧ sMem.me.progress = none ∧ completes (.ldW 3 1 0) sMem (fun _ => true) = true ∧
    completes (.lstSf 2 1 6 0) sLoc (fun _ => true) = true ∧ completes (.lst 2 1 7 0) sLoc (fun _ => true) = true := by decide +kernel
theorem wit_encodings : (∀ l ∈ [0#1, 1#1], (encode l (.add 3 1 2)).isSome = true) ∧ Instr.wellFormed (.add 3 1 2) = true ∧
    legalHere sMem (.add 3 1 2) = true ∧ legalHere sMem (.add 30 1 2) = false := by decide +kernel
theorem wit_memories : State.reset.memWf ∧ sPlaced.memWf ∧ goesOn sPlaced := by
  refine ⟨rfl, rfl, ?_⟩
  have h : (match step sPlaced with | .next _ => true | _ => false) = true := by decide +kernel
  unfold goesOn
  revert h
  cases step sPlaced with
  | next t => exact fun _ => ⟨t, rfl⟩
  | fault _ => exact fun h => nomatch h
  | refused _ => exact fun h => nomatch h

/-! ### Monitors -/

/-- The latencies of R404's worked example, as a histogram takes them. -/
def latencies (shift : Nat) : List Nat :=
  ([1, 3, 700, 40000].foldl Monitor.take ⟨word (shift * 2 ^ 34 + 0x300000301), 0, List.replicate 16 0⟩).bins.map (·.toNat)
theorem test_histogram : latencies 0 = [1, 1, 0, 0, 0, 0, 0, 0, 0, 1, 0, 0, 0, 0, 0, 1] ∧
    latencies 4 = [2, 0, 0, 0, 0, 1, 0, 0, 0, 0, 0, 1, 0, 0, 0, 0] := by decide +kernel

/-- Two monitors of die 0, of any unit: law operations and slice accesses. -/
def monitored (s : State) : State := { s with monitors := [(0, ⟨0x2201, 0, []⟩), (1, ⟨0x2001, 0, []⟩), (64, ⟨0x2201, 0, []⟩)] }
theorem test_die_monitors : completes (.lwrd 9 2) (monitored (atHome (sLaw 3 0x0001800100000001))) (fun t =>
    (t.monitors.get 0 ⟨0, 0, []⟩).result == 3 && (t.monitors.get 1 ⟨0, 0, []⟩).result == 2 && (t.monitors.get 64 ⟨0, 0, []⟩).result == 0) = true ∧
    completes (.lwrd 9 1) (monitored (atHome (sLaw 3 0x0001800100000001))) (fun t =>
      ((t.monitors.get 0 ⟨0, 0, []⟩).result == 3) != ((t.monitors.get 64 ⟨0, 0, []⟩).result == 3)) = true := by decide +kernel

/-- A leader whose thread waits on a sector that another pair holds ends its interval at that access (R147); one with 1,024
granules in its undo log ends it too (R381). -/
theorem test_interval_ends :
    (let k := { core 0 (thread []) with pair := .leader 1, bundles := 1 }
     let s := onCore 0 (k.setThread 0 { thread [] with wait := .held })
     intervalOver s 0 (s.core 0) = false ∧
       (let t := onCore 0 (k.setThread 0 { thread [] with wait := .heldPair }); intervalOver t 0 (t.core 0) = true) ∧
       intervalOver s 0 { k with undo := List.range 1024 } = true ∧ intervalOver s 0 { k with undo := List.range 1023 } = false) := by
  decide +kernel
/-- The undo log takes the granule that a local store of the pair changes. -/
theorem test_undo_log : completes (.lst 0 1 6 0) (onCore 0 { core 0 (thread [(1, 0x9008)]) with pair := .leader 1 }) (fun t =>
    t.myCore.undo == [0x900]) = true := by decide +kernel
/-! ### Clauses at their boundaries -/

/-- BINIT where a member has arrived, with an operation above 8, for barrier 128, and of a group whose cores are not all bound. -/
theorem wit_binit_stops : trapsWith (.binit 1 5) (sBar 1 false false .none) .barrierState 0 = true ∧
    trapsWith (.binit 1 0) (sBar 0 false false .none) .operandRange 0 = true ∧ trapsWith (.binit 3 5) (sBar 0 false false .none) .operandRange 0 = true ∧
    (let s := sBar 0 false false .none
     let s := s.setMe (s.me.setX 5 0x10002)
     waitsFor (.binit 1 5) s .held = true ∧ s.barMaster s.cid = s.cid ∧ (s.members s.cid).length = 4 ∧
     trapsWith (.binit 1 5) { s with cores := [(2, s.myCore)], cur := (2, 0) } .barrierState 0 = true) := by decide +kernel
/-- BWAIT released, past a time-out and for a phase out of range; the other words at a barrier that has timed out, and BCOMB
before the last arrival. -/
theorem wit_barrier_ends : completes (.bwait 6 1 2) (sBar 0 false true (.released 5 9 21)) (fun t => t.me.getX 6 == 21) = true ∧
    trapsWith (.bwait 6 1 2) (sBar 0 false true .none) .barrierTimeout 0 = true ∧
    trapsWith (.bwait 6 1 2) ((sBar 0 false false .none).setMe ((sBar 0 false false .none).me.setX 2 (2 ^ 24))) .operandRange 0 = true ∧
    trapsWith (.bsync 1) (sBar 0 false true .none) .barrierTimeout 0 = true ∧ trapsWith (.bcomb 6 1 2) (sBar 0 false true .none) .barrierTimeout 0 = true ∧
    trapsWith (.bswap 1) (sBar 0 true true .none) .barrierTimeout 0 = true ∧ parksFor (.bcomb 6 1 2) (sBar 0 false false .none) (.barrier 5 9) = true ∧
    trapsWith (.bcomb 6 3 2) (sBar 0 false false .none) .operandRange 0 = true ∧
    waitsFor (.bcomb 6 1 2) (sBar 0 false false (.joined 5 9)) (.barrier 5 9) = true ∧
    waitsFor (.bswap 1) (sBar 0 false false (.joined 5 9)) (.barrier 5 9) = true := by decide +kernel
/-- A vector to an exchange area: in range, unaligned, reaching past its end, to no core of the launch, and to a core that is
fenced; a doubleword unaligned and past the end. -/
theorem wit_exchange_stops : completes (.vxst 3 1) sXch (fun t => (t.core 1).full.getLsbD 0x3D00) = true ∧
    (let at_ := fun (o : Nat) => sXch.setMe (sXch.me.setX 1 (word o))
     trapsWith (.vxst 3 1) (at_ (2 ^ 18 + 0x3C008)) .misalignedAccess 0x3C008 = true ∧
     trapsWith (.vxst 3 1) (at_ (2 ^ 18 + 0x3CE10)) .localProtection 0x3D000 = true ∧
     completes (.vxst 3 1) (at_ (2 ^ 18 + 0x3CE00)) (fun _ => true) = true ∧
     trapsWith (.xst 2 1) (at_ (2 ^ 18 + 0x3CFF9)) .localProtection 0x3D000 = true ∧
     trapsWith (.xst 2 1) (at_ (2 ^ 18 + 0x3C004)) .misalignedAccess 0x3C004 = true) ∧
    trapsWith (.vxst 3 3) sXch .operandRange 0 = true ∧ trapsWith (.vxst 3 4) sXch .invalidTarget 0 = true ∧
    trapsWith (.vxst 3 5) sXch .localProtection 0x3BFF8 = true ∧ waitsFor (.vxst 3 1) sAway .held = true := by decide +kernel
/-- CAS, CAS2 and AMOZ of a page that is not present, of a held sector and of a poisoned one. -/
theorem wit_atomic_stops : (let far := sMem.setMe (sMem.me.setX 1 (2 ^ 40))
     let held : State := { sMem with holds := [⟨.host, 128, homeSlice sMem 0 0x1000, none⟩] }
     let bad : State := { sMem with poison := [128] }
     let all := fun (p : Instr → Bool) => [.cas 8 1 2 1, .cas2 8 1 2].all p
     all (fun i => match exec i far with | .next t => t.me.wait == .pageFault 1 | _ => false) = true ∧
     all (fun i => waitsFor i held .held) = true ∧ all (fun i => trapsWith i bad .uncorrectableError 0x1000) = true) ∧
    (sMem.compared (hitFor .atomic 0x1000)).mem = sMem.mem := by decide +kernel
/-- TDONE of a task whose parent names core 768, and of one whose parent's core is fenced. -/
theorem wit_tdone_stops : (let k := kTask 1 1 { thTask with taskref := word (2 ^ 28 + 768 * 2 ^ 18 + 0x8000) }
     trapsWith .tdone (onCore 0 k) .invalidTarget 0 = true) ∧
    (let k := kTask 1 1 { thTask with taskref := 0x10048000 }
     let s := { onCore 0 k with cores := [(0, k), (1, { k with fenced := true })] }
     s.away 1 = true ∧ waitsFor .tdone s .held = true) := by decide +kernel
/-- An element that is not active, among others, leaves the environment of the operation alone (R245). -/
theorem wit_inactive : ([true, false, true] : List Bool)[1]? = some false ∧
    (let r := (masked false (fun (x : Nat) => fun e => ((x + 1, { e with flags := e.flags + x }) : Nat × FpEnv)) [true, false, true] [1, 2, 4] [7, 8, 9]).run ⟨0, 0⟩
     r.1 = [2, 8, 5] ∧ r.2.flags = 5) := by decide +kernel
/-- KROUTE whose first entry lies in a page that is present and whose later ones do not. -/
theorem wit_route_parts : (let s := sRoute.setMe (sRoute.me.setX 2 (2 ^ 30 - 512))
     match exec (.kroute 8 1 2) s with
     | .next t => t.me.wait == .pageFault 1 && (t.pageItems.map fun (x : PageItem) => x.va) == [2 ^ 30]
     | _ => false) = true ∧
    waitsFor (.kroute 8 1 2) { sRoute with holds := [⟨.host, 0x10C0 / 32, homeSlice sRoute 0 0x10C0, none⟩] } .held = true := by decide +kernel
/-- SUBS where the ring's core is fenced; a subscription that ended with its launch counts no more, and one whose launch is set
aside is waited for. -/
theorem wit_sub_launches : (let s := sSubs 0 2 []
     let s := s.setMyCore ((s.myCore).lwrite 0xA038 8 (5 * 2 ^ 48 + 2 ^ 18 + 0x8000))
     waitsFor (.subs 6 1) { s with cores := s.cores ++ [(1, { s.myCore with fenced := true })] } .held = true) ∧
    liveSubs (sSubs 0 2 [{ aSub false none 0 with order := 4 }]) = [] ∧
    completes (.subs 6 1) (sSubs 0 2 [{ aSub false none 0 with order := 4 }]) (fun t => t.me.getX 6 == word (2 * 2 ^ 32 + 4) && t.subs.length == 1) = true ∧
    (let s := { sSubs 0 2 [{ aSub false none 0 with order := 4 }] with launches := [(1, { boundRun with order := 4 })] }
     launchHere s 0 4 = none ∧ waitsFor (.unsubs 6 2) s .ring = true ∧
     waitsStep .kioskPushTile (.kioskPushTile 2 3) s = true ∧ waitsStep .kioskPullTile (.kioskPullTile 2 3) { s with subs := [{ aSub true none 0 with order := 4 }] } = true) ∧
    moves .kioskPushTile (.kioskPushTile 2 3) (sSubs 0 2 [{ aSub false none 0 with order := 4 }]) (fun t => t.subs == []) = true ∧
    moves .kioskPullTile (.kioskPullTile 2 3) (sSubs 0 2 [{ aSub true none 0 with order := 4 }]) (fun t => t.subs == []) = true := by decide +kernel
/-- A core whose engines hold every entry: SFIB waits. -/
theorem wit_engine_full : (let s := engineHold sStream 0 enginePool
     engineFree s 0 1 = false ∧ waitsFor (.sfib 7 1) s .reg = true ∧ engineFree (engineHold sStream 0 (enginePool - 1)) 0 1 = true ∧
     waitsFor (.sfib 7 1) (engineHold sStream 0 (enginePool - 1)) .reg = true) := by decide +kernel
/-- Steps for a launch that has ended come to nothing, those for one that is set aside wait. -/
theorem wit_launch_gone : (let gone := sTask 0 0
     let aside : State := { sTask 0 0 with launches := [(2, { boundRun with order := 9 })] }
     let all : List (Instr × Event) := [(.stealAnswer, .stealAnswer 0 0 1 9 none), (.strandsDone, .strandsDone 0 1 9), (.launchStop, .launchStop 0 9),
       (.groupBarrierArrival, .groupBarrierArrival 0 0 0 5 9 7 false true), (.barrierRelease, .barrierRelease 0 5 9 9 21 false), (.doneWord, .doneWord 0 1 9 5),
       (.remoteFault, .remoteFault (sourceWord 0 0 0) 0 9 7 0x123), (.journalWrite, .journalWrite 0 0x8000 7 9)]
     launchHere gone 0 9 = some false ∧ launchHere aside 0 9 = none ∧
     all.all (fun p => moves p.1 p.2 gone fun t => t.cores == gone.cores) = true ∧ all.all (fun p => waitsStep p.1 p.2 aside) = true ∧
     moves .eventLatchSet (.eventLatchSet 0 9 1) aside (fun t => !t.me.latch) = true ∧
     moves .eventLatchSet (.eventLatchSet 0 1 1) { gone with cores := [(0, { gone.myCore with fenced := true })] } (fun t => !t.me.latch) = true) := by
  decide +kernel
/-- A copy and a stream of a fenced core wait. -/
theorem wit_fenced_engines : waitsStep .copyTransfer (.copyTransfer 0 0 1) { sCopying with cores := [(0, { sCopying.myCore with fenced := true })] } = true ∧
    waitsStep .streamReadAhead (.streamReadAhead 0 0 0) { sStream with cores := [(0, { sStream.myCore with fenced := true })] } = true := by decide +kernel
/-- A journal write of a ring whose header is malformed is recorded as its fault. -/
theorem wit_journal_bad : moves .journalWrite (.journalWrite 0 0x8000 7 1) (sJournal.setCore 0 ((sJournal.core 0).lwrite 0x8018 8 (5 * 2 ^ 48 + 0x9000 * 2 ^ 30 + 2 ^ 26)))
    (fun t => (ringHdr (t.core 0) 0x8000).fvalid) = true := by decide +kernel
/-- A context whose law table lies in a held sector is not decided yet; one whose table does not translate is refused. -/
theorem wit_context_checks : (let s : State := { sQueue Queue.reset [] with ctxs := [] }
     let d := BitVec.ofNat 512 (1 + 77 * 2 ^ 64 + 0x4000 * 2 ^ 128)
     let held : State := { s with holds := [⟨.host, 0x8000 / 32, homeSlice s 77 0x8000, none⟩] }
     waitsStep .contextCreate (.contextCreate 0 d) held = true ∧
     moves .contextCreate (.contextCreate 0 (BitVec.ofNat 512 (1 + 2 ^ 52 * 2 ^ 128))) s (fun t => !(t.ctx 0).live && (t.ctx 0).cstat == 1) = true ∧
     moves .contextCreate (.contextCreate 0 d) { s with mem := Mem.write [] 0x8000 8 32 } (fun t => !(t.ctx 0).live && (t.ctx 0).cstat == 1) = true) := by
  decide +kernel
/-- A launch that the host's record has named already is not read again. -/
theorem wit_launch_known : (let s := { sLaunch 4 with launches := [(0, { aRun with order := 5 })] }
     launchKnown s 0 0 1 = true ∧ launchKnown (sLaunch 4) 0 0 1 = false ∧ moves .launch (.launch 0 0) s (fun t => t.launches == s.launches && t.flight == []) = true) := by
  decide +kernel
/-- A stage ring whose header is malformed: the sample is skipped, and a merge ends with its fault. -/
theorem wit_stage_rings : (let bad := fun (s : State) => s.setCore 0 ((s.core 0).lwrite 0x8018 8 (5 * 2 ^ 48 + 0x9000 * 2 ^ 30 + 2 ^ 26))
     moves .stageMonitorSample (.stageMonitorSample 0 1) { bad (sStage 0 1024 0 [range0] [] Queue.reset) with stages := [(1, ⟨[(0, 3)], [], 0, [], []⟩)] }
       (fun t => t.stages == [(1, ⟨[], [], 1024, [], []⟩)]) = true ∧
     moves .mergeActivation (.mergeActivation 0) (bad (sStage 1 0 0 [range0] [anAnnex true 4] Queue.reset)) (fun t => t.annexes == [] && (t.core 0).act.isNone) = true) ∧
    stageRuns (sStage 0 1024 0 [range0] [] Queue.reset) 0 1 ≠ [] ∧ stageRuns (sStage 0 1024 0 [range0] [] Queue.reset) 0 2 = [] := by decide +kernel
/-- A phase of a launch that is set aside: the host extends it and expires it. -/
theorem wit_held_aside : (let k : SavedTasks := ⟨[], [], [], [], [], [], Tree.reset, 0, false, 0, .none, [(5, false)], []⟩
     let s : State := { sTask 0 0 with cores := [], launches := [(2, { boundRun with order := 9 })], savedTasks := [(savedKey 9 0, k)] }
     heldBarrier (asked s 3 [0, 0, 5]) = none ∧ (heldAside (asked s 3 [0, 0, 5])).isSome = true ∧
     moves .barrierExtend .barrierExtend (asked s 3 [0, 0, 5]) (fun t => answered 0 t && t.savedTasks.any fun p => p.2.held == [] && p.2.extended == [5]) = true ∧
     moves .barrierExpire .barrierExpire (asked s 4 [0, 0, 5]) (fun t => answered 0 t && t.savedTasks.any fun p => p.2.held == []) = true ∧
     moves .barrierExtend .barrierExtend (asked s 3 [0, 0, 6]) (answered 1) = true) := by decide +kernel
/-- A record that the host has handed over and dispatch has not taken up bars another. -/
theorem wit_handed_over : (let s := { sMem with flight := [.hostBindRecord 0 1] }
     (handedOver s 0).isSome = true ∧ handedOver sMem 0 = none ∧
     moves .registerWrite (.registerWrite 0x100080 1) s (fun t => t.flight == s.flight) = true) := by decide +kernel
/-- A page-fault service whose mapping would write an entry that another agent holds waits. -/
theorem wit_service_held : (let s := { sServed with holds := [⟨.host, 0x2000 / 32, homeSlice sServed 0 0x2000, none⟩] }
     walkHeld s .other 768 0 .write 0x5000 = true ∧ waitsStep .pageFaultService (.pageFaultService 0 1 true) s = true) := by decide +kernel
/-- A segment is sent again after 16 µs, one that has been acknowledged is not. -/
theorem wit_segments : (let m := { aMsg 3 with desc := word (2 ^ 10) }
     waitsStep .drtRetransmit (.drtRetransmit m) { sMem with ns := 15999, segments := [(m, 0)] } = true ∧
     waitsStep .drtRetransmit (.drtRetransmit m) { sMem with ns := 16000 } = true) := by decide +kernel
/-- Kiosks with a region to visit cut a turn. -/
theorem wit_sweeps_run : sweepsRun (sStep 0 0) = true ∧ sweepsRun (sStep 0 8) = false ∧ sweepsRun sMem = false := by decide +kernel
/-- A cell whose stamp is behind the last boundary. -/
theorem wit_law_behind : (let s := sStep (2 ^ 21 - 1) 0
     match lawOpen s ⟨.other, 768, 0, true⟩ (.global_ 0x1000) none false with
     | .ok (c, _) => decide (c.now % 2 ^ 21 < elapsed c.now (c.obj.word.toNat / 2 ^ 8 % 2 ^ 24))
     | .error _ => false) = true := by decide +kernel
/-- ANXPUT to a twin that is fenced waits. -/
theorem wit_anxput_waits : (let s := sTh .split false []
     waitsFor (.anxput 5 6) { s with cores := [(0, s.myCore), (1, { core 0 (thread []) with fenced := true })] } .ring = true) := by decide +kernel
/-- A ready head whose cores cannot take its records is reserved, and a later decision finds it so. -/
theorem wit_reserved : (let s := sReady.setCore 0 { (sReady.core 0) with slots := [(1, { aRec with order := 7 }), (2, { aRec with order := 8 }), (3, { aRec with order := 9 })] }
     let t := dispatchOnce s
     t.decisions = s.decisions ∧ t.reserved ≠ s.reserved ∧ (dispatchOnce t).reserved = t.reserved ∧ (dispatchOnce t).decisions = t.decisions ∧
     moves .dispatchDecision .dispatchDecision s (fun t => t.reserved != [] && t.flight == [.dispatchDecision]) = true ∧
     waitsStep .dispatchDecision .dispatchDecision t = true) := by decide +kernel

end Sys2Proof.Tests
end

section
/-! SUPPORT. The steps of the management core, the host port, resets and losses (R3, R9, R100, R357, R363, R376, R382,
R384, R387, R395, R397, R398): what each does, said once, and O50 from it. -/

namespace Sys2Proof.Machine

/-! ### What sending leaves as it was: the intervals of checked pairs and the held sectors (R147, R381) -/

/-- What the comparison of a checked pair's interval rests on at a core (R381): the entries it gates, its bundles, its
count, and the local memory. -/
def Core.interval (k : Core) : List Event × Nat × Word × List Host.Cell := (k.gated, k.bundles, k.pairstat, k.lmem)

/-- Every core's interval and every held sector are as they were. -/
def SameIntervals (s t : State) : Prop := (∀ c, (t.core c).interval = (s.core c).interval) ∧ t.holds = s.holds

theorem SameIntervals.refl (s : State) : SameIntervals s s := ⟨fun _ => rfl, rfl⟩

theorem SameIntervals.trans {s t u : State} (h : SameIntervals s t) (k : SameIntervals t u) : SameIntervals s u :=
  ⟨fun c => (k.1 c).trans (h.1 c), k.2.trans h.2⟩

theorem SameIntervals.of_cores {s t : State} (hc : t.cores = s.cores) (hh : t.holds = s.holds) : SameIntervals s t :=
  ⟨fun c => by unfold State.core; rw [hc], hh⟩

theorem sameIntervals_setCore (s : State) (c : Nat) {k : Core} (h : k.interval = (s.core c).interval) :
    SameIntervals s (s.setCore c k) := by
  refine ⟨fun d => ?_, rfl⟩
  by_cases hd : d = c
  · subst hd; rw [State.core_setCore, h]
  · rw [State.core_setCore_ne s k hd]

theorem SameIntervals.foldl {α : Type} {f : State → α → State} (h : ∀ s a, SameIntervals s (f s a)) :
    ∀ (as : List α) (s : State), SameIntervals s (as.foldl f s)
  | [], s => .refl s
  | a :: as, s => (h s a).trans (SameIntervals.foldl h as (f s a))

/-! #### Accesses at the slices -/

theorem sameIntervals_fetchSector (s : State) (n k : Nat) : SameIntervals s (fetchSector s n k) := by
  unfold fetchSector
  split
  · exact .refl s
  · split
    · exact .refl s
    · exact .of_cores rfl rfl

theorem sameIntervals_allocSector (s : State) (n k : Nat) : SameIntervals s (allocSector s n k) := by
  unfold allocSector
  split
  · exact .of_cores rfl rfl
  · exact .refl s

theorem sameIntervals_leaseRead (s : State) (c x pa : Nat) : SameIntervals s (leaseRead s c x pa) := by
  unfold leaseRead renewReplica
  split
  · exact .refl s
  · have hf := fun n => (sameIntervals_fetchSector s n (pa / 32)).trans (u := grantLease _ n (pa / 32) 64) (.of_cores rfl rfl)
    simp only
    split
    · split
      · exact hf _
      · exact (hf _).trans (.of_cores rfl rfl)
    · exact hf _

theorem sameIntervals_touchSlice (s : State) (c x : Nat) (nd : Rights) (pa : Nat) :
    SameIntervals s (touchSlice s c x nd pa) := by
  have hc : ∀ n, SameIntervals s (countAccess s n x) := fun n => .of_cores rfl rfl
  unfold touchSlice
  cases nd with
  | write => exact hc _
  | read => exact (hc _).trans (sameIntervals_leaseRead _ _ _ _)
  | execute => exact (hc _).trans (sameIntervals_leaseRead _ _ _ _)
  | atomic => exact ((hc _).trans (sameIntervals_fetchSector _ _ _)).trans (sameIntervals_allocSector _ _ _)

theorem sameIntervals_writeSector (s : State) (n k : Nat) (d : BitVec 256) (w z : Bool) :
    SameIntervals s (writeSector s n k d w z) := by
  unfold writeSector passLease
  simp only
  split <;> exact .of_cores rfl rfl

theorem sameIntervals_writePa {s t : State} {seed : Word} {pa n v : Nat} (h : writePa s seed pa n v = some t) :
    SameIntervals s t := by
  unfold writePa at h
  simp only at h
  split at h
  · cases h; exact sameIntervals_writeSector _ _ _ _ _ _
  · obtain ⟨d, _, rfl⟩ := Option.map_eq_some_iff.mp h
    exact (sameIntervals_fetchSector _ _ _).trans (sameIntervals_writeSector _ _ _ _ _ _)

theorem sameIntervals_applyXlat (s : State) (c x : Nat) (p : Xlat) : SameIntervals s (applyXlat s c x p) := by
  unfold applyXlat applyWalk
  refine SameIntervals.trans ?_ (sameIntervals_touchSlice _ _ _ _ _)
  have hreads := SameIntervals.foldl (fun s a => sameIntervals_touchSlice s 768 x .read a) p.walk s
  generalize List.foldl _ _ _ = s1 at hreads ⊢
  have hupdate : ∀ a e, SameIntervals s ((writePa (sliceAccess s1 x a) (s1.ctx x).seed a 8 e).getD s1) := by
    intro a e
    cases hw : writePa (sliceAccess s1 x a) (s1.ctx x).seed a 8 e with
    | none => exact hreads
    | some t => exact (hreads.trans (t := s1) (u := sliceAccess s1 x a) (.of_cores rfl rfl)).trans (sameIntervals_writePa hw)
  rcases p with ⟨pa, nd, _ | f, _ | ⟨a, e⟩, walk⟩
  · exact hreads
  · exact hupdate a e
  · exact hreads.trans (sameIntervals_setCore _ _ rfl)
  · exact (hupdate a e).trans (sameIntervals_setCore _ _ rfl)

/-! #### Accesses of the package's units -/

theorem sameIntervals_unitXlate {s t : State} {who : Agent} {c x : Nat} {sup : Bool} {nd : Rights} {va : Nat} {p : Xlat}
    (h : unitXlate s who c x sup nd va = .ok (p, t)) : SameIntervals s t := by
  unfold unitXlate at h
  split at h
  · cases h
  · cases h; exact sameIntervals_applyXlat _ _ _ _

theorem sameIntervals_unitReadAs {nd : Rights} {who : Agent} {c x : Nat} {sup : Bool} : ∀ {ps : List (Nat × Nat)} {s t : State} {v : Nat},
    unitReadAs nd s who c x sup ps = .ok (v, t) → SameIntervals s t
  | [], s, t, v, h => by cases h; exact .refl s
  | (va, n) :: ps, s, t, v, h => by
    unfold unitReadAs at h
    split at h
    · cases h
    · next hx =>
      split at h
      · cases h
      · split at h
        · cases h
        · next hr => cases h; exact (sameIntervals_unitXlate hx).trans (sameIntervals_unitReadAs hr)

theorem sameIntervals_unitWrite {who : Agent} {c x : Nat} {sup : Bool} : ∀ (ps : List (Nat × Nat)) (s : State) (v : Nat),
    SameIntervals s (unitWrite s who c x sup ps v).2
  | [], s, v => .refl s
  | (va, n) :: ps, s, v => by
    unfold unitWrite
    split
    · exact .refl s
    · next hx =>
      split
      · exact sameIntervals_unitXlate hx
      · next hw => exact ((sameIntervals_unitXlate hx).trans (sameIntervals_writePa hw)).trans (sameIntervals_unitWrite ps _ _)

theorem sameIntervals_writeThrough (s : State) (x va n : Nat) : SameIntervals s (writeThrough s x va n) := by
  refine SameIntervals.foldl (fun s p => ?_) _ s
  split
  · exact .refl s
  · simp only
    split
    · exact .refl s
    · exact .of_cores rfl rfl

theorem sameIntervals_dispStore {s t : State} {x va n v : Nat} (h : dispStore s x va n v = .ok t) : SameIntervals s t := by
  unfold dispStore dispWrite at h
  have hw := sameIntervals_unitWrite (who := .other) (c := 768) (x := x) (sup := true) (partsOf va n) s v
  split at h
  · next hu =>
    cases h
    rw [hu] at hw
    exact hw.trans (sameIntervals_writeThrough _ _ _ _)
  · cases h

/-! #### Notices and what a denied one leaves -/

theorem sameIntervals_noticeOf (s : State) (x c : Nat) (dead : Bool) (cause : BitVec 8) (ws : List Word) :
    SameIntervals s (noticeOf s x c dead cause ws).2 := .of_cores rfl rfl

theorem sameIntervals_askQueuePage (s : State) (x q va : Nat) : SameIntervals s (askQueuePage s x q va) := by
  unfold askQueuePage
  split
  · exact .refl s
  · simp only
    split <;> exact .of_cores rfl rfl

theorem sameIntervals_qStateDenied (s : State) (x q : Nat) (ask : Bool) (d : Denied) :
    SameIntervals s (qStateDenied s x q ask d) := by
  unfold qStateDenied
  split
  · exact .of_cores rfl rfl
  · split
    · exact sameIntervals_askQueuePage _ _ _ _
    · exact .of_cores rfl rfl

theorem sameIntervals_writeQState (s : State) (x q : Nat) (ask : Bool) : SameIntervals s (writeQState s x q ask) := by
  unfold writeQState
  simp only
  split
  · exact sameIntervals_qStateDenied _ _ _ _ _
  · next hr =>
    split
    · exact sameIntervals_qStateDenied _ _ _ _ _
    · next hw => exact ((sameIntervals_unitReadAs hr).trans (sameIntervals_dispStore hw)).trans (.of_cores rfl rfl)

theorem sameIntervals_failQueue (s : State) (x q va : Nat) : SameIntervals s (failQueue s x q va) :=
  SameIntervals.trans (t := s.setQueue x q _) (.of_cores rfl rfl) (sameIntervals_writeQState _ _ _ _)

theorem sameIntervals_tryNotice {s t : State} {x q : Nat} {ws : List Word} (h : tryNotice s x q ws = .written t) :
    SameIntervals s t := by
  unfold tryNotice at h
  simp only at h
  split at h
  · cases h
  · next hr =>
    split at h
    · cases h
    · split at h
      · cases h
      · next hw =>
        split at h
        · cases h
        · next hn =>
          cases h
          exact (((sameIntervals_unitReadAs hr).trans (sameIntervals_dispStore hw)).trans (sameIntervals_dispStore hn)).trans
            (.of_cores rfl rfl)

theorem sameIntervals_holdNotices (s : State) (x q : Nat) (ws : List (List Word)) (e : NoticeEnd) :
    SameIntervals s (holdNotices s x q ws e) := by
  have hq : SameIntervals s (s.setQueue x q { s.queue x q with heldNotices := ws }) := .of_cores rfl rfl
  unfold holdNotices
  simp only
  split
  · exact .of_cores rfl rfl
  · exact hq.trans (sameIntervals_askQueuePage _ _ _ _)
  · exact hq.trans (sameIntervals_failQueue _ _ _ _)
  · exact hq

theorem sameIntervals_putNotice (s : State) (x q : Nat) (ws : List Word) : SameIntervals s (putNotice s x q ws) := by
  unfold putNotice
  simp only
  split
  · exact .of_cores rfl rfl
  · split
    · next hw => exact sameIntervals_tryNotice hw
    · exact sameIntervals_holdNotices _ _ _ _ _

theorem sameIntervals_postNotice (s : State) (x q c : Nat) (dead : Bool) (cause : BitVec 8) (ws : List Word) :
    SameIntervals s (postNotice s x q c dead cause ws).2 :=
  (sameIntervals_noticeOf s x c dead cause ws).trans (sameIntervals_putNotice _ _ _ _)

/-! #### Containment and routing -/

theorem sameIntervals_postFault (s : State) (x q c t order : Nat) (cause : BitVec 8) (addr : Word) (errBit inner : Nat)
    (task : Option TaskRec) : SameIntervals s (postFault s x q c t order cause addr errBit inner task) :=
  (sameIntervals_postNotice s x q c false 0 [3, cause.zeroExtend 64, word c, addr, word inner]).trans (.of_cores rfl rfl)

theorem sameIntervals_stopAfterError (s : State) (c errBit : Nat) (cause : BitVec 8) :
    SameIntervals s (stopLaunch (coreError s c errBit cause) c) := by
  have he : SameIntervals s (coreError s c errBit cause) := sameIntervals_setCore _ _ rfl
  unfold stopLaunch
  split
  · exact he
  · exact he.trans (.of_cores rfl rfl)

theorem sameIntervals_launchFault (s : State) (c t : Nat) (cause : BitVec 8) (addr : Word) (errBit inner : Nat)
    (task : Option TaskRec) : SameIntervals s (launchFault s c t cause addr errBit inner task) := by
  unfold launchFault
  simp only
  split
  · exact sameIntervals_postFault _ _ _ _ _ _ _ _ _ _ _
  · exact sameIntervals_stopAfterError _ _ _ _

theorem sameIntervals_containLaunch (s : State) (c errBit : Nat) (cause : BitVec 8) (r : LaunchRun) :
    SameIntervals s (containLaunch s c errBit cause r) := by
  unfold containLaunch
  split
  · exact sameIntervals_stopAfterError _ _ _ _
  · simp only
    split <;> exact .of_cores rfl rfl

theorem sameIntervals_orderFault (s : State) (c t order : Nat) (cause : BitVec 8) :
    SameIntervals s (orderFault s c t order cause) := by
  unfold orderFault
  split
  · exact sameIntervals_launchFault _ _ _ _ _ _ _ _
  · split
    · exact .refl s
    · split
      · exact sameIntervals_postFault _ _ _ _ _ _ _ _ _ _ _
      · exact sameIntervals_containLaunch _ _ _ _ _

theorem sameIntervals_linkLost (s : State) (m : Msg) : SameIntervals s (linkLost s m) := by
  unfold linkLost
  simp only
  split
  · exact SameIntervals.trans (t := { s with unacked := _, segments := _ }) (.of_cores rfl rfl) (sameIntervals_orderFault _ _ _ _ _)
  · exact .of_cores rfl rfl

theorem sameIntervals_toPackage (s : State) (m : Msg) : SameIntervals s (toPackage s m) := by
  unfold toPackage
  simp only
  split
  · exact .of_cores rfl rfl
  · split
    · exact SameIntervals.trans (t := { s with unacked := _ }) (.of_cores rfl rfl) (sameIntervals_linkLost _ _)
    · exact .of_cores rfl rfl

/-- A message sent leaves every interval and every held sector as they were. -/
theorem sameIntervals_routeMsg (s : State) (m : Msg) : SameIntervals s (routeMsg s m) := by
  unfold routeMsg
  split
  · exact sameIntervals_toPackage s m
  · split <;> exact .of_cores rfl rfl

theorem releaseInterval_leaves {s : State} {l f : Nat} (a r n : Nat) (hlf : l ≠ f) :
    let t := releaseInterval s l f a r n
    (t.core l).gated = [] ∧ (t.core l).bundles = 0 ∧ (t.core l).pairstat = countInterval (s.core l).pairstat a r n ∧
    (t.core f).pairstat = (t.core l).pairstat ∧ (t.core f).lmem = (s.core l).lmem ∧ (∀ h ∈ t.holds, h.owner ≠ .thread l 9) := by
  intro t
  let kl := agree { s.core l with gated := [], bundles := 0, undo := [], pairstat := countInterval (s.core l).pairstat a r n }
  let u := dropHolds ((s.setCore l kl).setCore f { mirrorCore kl (s.core f) with pairstat := kl.pairstat }) (.thread l 9)
  have hsend : SameIntervals u t := by
    refine SameIntervals.foldl (fun s e => ?_) (s.core l).gated u
    split
    · exact sameIntervals_routeMsg _ _
    · exact .of_cores rfl rfl
  have hl : u.core l = kl := (State.core_setCore_ne _ _ hlf).trans (State.core_setCore s l kl)
  have hf : u.core f = { mirrorCore kl (s.core f) with pairstat := kl.pairstat } := State.core_setCore _ f _
  have il := hsend.1 l
  have jf := hsend.1 f
  rw [hl] at il
  rw [hf] at jf
  simp only [Core.interval, Prod.mk.injEq] at il jf
  obtain ⟨hg, hb, hp, _⟩ := il
  obtain ⟨_, _, hpf, hm⟩ := jf
  refine ⟨hg, hb, hp, hpf.trans hp.symm, hm, fun h hh => ?_⟩
  rw [hsend.2] at hh
  simpa using (List.mem_filter.mp hh).2

/-! ### The warm reset (R387) -/

/-- What a warm reset takes over of the machine's cores, launches, journaled rings and firmware. -/
def State.runs (s : State) : SMap Core × SMap LaunchRun × List Journal × Firmware := (s.cores, s.launches, s.journals, s.firmware)

/-- What no pass of a fold changes, the fold leaves. -/
theorem foldl_keeps {α β : Type} (g : State → β) {f : State → α → State} (h : ∀ s a, g (f s a) = g s) :
    ∀ (as : List α) (s : State), g (as.foldl f s) = g s
  | [], _ => rfl
  | a :: as, s => (foldl_keeps g h as (f s a)).trans (h s a)

theorem runs_endCopies (s : State) (slice sector : Nat) : (endCopies s slice sector).runs = s.runs := by
  unfold endCopies passLease
  simp only
  split <;> rfl

theorem runs_undoHolds (s : State) (who : Agent) : (undoHolds s who).runs = s.runs := by
  refine foldl_keeps State.runs (fun s h => ?_) (s.holds.filter (·.owner == who)) s
  rw [← runs_endCopies s h.slice h.sector]
  cases h.old <;> rfl

theorem runs_undoThreads (s : State) : (undoThreads s).runs = s.runs := by
  refine foldl_keeps State.runs (fun s h => ?_) s.holds s
  split
  · exact runs_undoHolds s _
  · rfl

theorem emptySlices_keeps (s : State) (lost : Option Nat) :
    (emptySlices s lost).runs = s.runs ∧ (emptySlices s lost).holds = s.holds := by
  refine Prod.mk.inj (foldl_keeps (fun s => (s.runs, s.holds)) (fun s e => ?_) s.sectors s)
  split <;> rfl

/-- With no activation on any core a reset has none to stop. -/
theorem resetActivations_idle {s : State} (ha : ∀ c, (s.core c).act = none) :
    ∀ ps : List (Nat × Core), ps.foldl (fun s p => resetActivation s p.1) s = s
  | [] => rfl
  | p :: ps => by
    have hp : resetActivation s p.1 = s := by simp only [resetActivation, ha]
    rw [List.foldl_cons, hp]
    exact resetActivations_idle ha ps

theorem find?_map_resetCore (m : SMap Core) (c : Nat) :
    SMap.find? (m.map fun (p : Nat × Core) => (p.1, resetCore p.2)) c = (SMap.find? m c).map resetCore := by
  induction m with
  | nil => rfl
  | cons p m ih =>
    simp only [List.map_cons, SMap.find?, ih]
    split <;> rfl

theorem core_map_resetCore {s t : State} (h : t.cores = s.cores.map fun (p : Nat × Core) => (p.1, resetCore p.2)) (c : Nat) :
    t.core c = resetCore (s.core c) := by
  unfold State.core SMap.get
  rw [h, find?_map_resetCore]
  cases SMap.find? s.cores c <;> rfl

/-- Nothing is bound again after a reset where nothing ran. -/
theorem resume_none {w : State} {f : State → Nat × LaunchRun → State} (hj : w.journals = []) (hl : w.launches = []) :
    (rebuildAll w).launches.foldl f (rebuildAll w) = w := by
  have hw : rebuildAll w = w := by unfold rebuildAll; rw [hj]; rfl
  rw [hw, hl]
  rfl

/-- A warm reset of a package without launches, journals and activations (R387). -/
theorem warmReset_calm {s : State} (lost : Option Nat) (hj : s.journals = []) (hl : s.launches = [])
    (ha : ∀ c, (s.core c).act = none) :
    let t := warmReset s lost
    t.sectors = [] ∧ t.replicas = [] ∧ t.holds = [] ∧ t.monitors = [] ∧ t.arrayLog = [] ∧ t.busLog = [] ∧ t.subs = [] ∧
    t.firmware = installFirmware s.firmware ∧ (∀ n, lost = some n → n ∈ t.retiredSlices) ∧
    ∀ c, t.core c = resetCore (s.core c) := by
  obtain ⟨hruns, hholds⟩ := emptySlices_keeps (undoThreads s) lost
  have hundo := runs_undoThreads s
  rw [hundo] at hruns
  simp only [State.runs, Prod.mk.injEq] at hundo hruns
  obtain ⟨hcores, hlaunches, hjournals, hfirmware⟩ := hruns
  obtain ⟨_, hulaunches, _, _⟩ := hundo
  intro t
  have ht : t = warmReset s lost := rfl
  unfold warmReset at ht
  simp only [resetActivations_idle ha, hulaunches.trans hl, List.filter_nil, List.any_nil, List.filter_false, List.foldl_nil] at ht
  replace ht := ht.trans (resume_none (hjournals.trans hj) (hlaunches.trans hl))
  rw [ht]
  refine ⟨rfl, rfl, hholds, rfl, rfl, rfl, rfl, congrArg installFirmware hfirmware, fun n hn => ?_, core_map_resetCore ?_⟩
  · subst hn
    simp only
    split
    · next hc => simpa using hc
    · simp
  · rw [← hcores]
    rfl

/-! ### The page-fault service (R100) -/

theorem pageFaultService_serves {s : State} {x n : Nat} {retry : Bool} {i : PageItem}
    (h : AtHand (.pageFaultService x n retry) s)
    (hf : s.pageItems.find? (fun i => i.id == n && i.ctx == x && !i.declined && i.notice.isNone) = some i)
    (hw : ¬ (retry = true ∧ walkHeld s .other 768 x .write i.va.toNat = true)) :
    Moves .pageFaultService s (serveItem (if retry then mapPage s x i.va.toNat else s) i retry) :=
  moves_of h (by change execPageFaultService s = _; rw [execPageFaultService, h.1]) (by
    simp only [hf]
    rw [if_neg (by simpa using hw)])

theorem pageFaultService_waitsHeld {s : State} {x n : Nat} {retry : Bool} {i : PageItem}
    (h : AtHand (.pageFaultService x n retry) s)
    (hf : s.pageItems.find? (fun i => i.id == n && i.ctx == x && !i.declined && i.notice.isNone) = some i)
    (hw : retry = true ∧ walkHeld s .other 768 x .write i.va.toNat = true) : NotDue .pageFaultService s :=
  notDue_of h (by change execPageFaultService s = _; rw [execPageFaultService, h.1]) (by
    simp only [hf]
    rw [if_pos (by simpa using hw)])

theorem pageFaultService_waitsMissing {s : State} {x n : Nat} {retry : Bool} (h : AtHand (.pageFaultService x n retry) s)
    (hf : s.pageItems.find? (fun i => i.id == n && i.ctx == x && !i.declined && i.notice.isNone) = none) :
    NotDue .pageFaultService s :=
  notDue_of h (by change execPageFaultService s = _; rw [execPageFaultService, h.1]) (by simp only [hf])

/-- An item of a compute thread that still waits for it: the wait ends, and a declined fault traps. -/
theorem serveItem_thread {s : State} {i : PageItem} {c t : Nat} {d : Bool} (hi : i.asker = .thread c t d) (ht : t < 4)
    (hw : (s.thread c t).wait = .pageFault i.id) (retry : Bool) :
    serveItem s i retry =
      let u := ({ s with pageItems := s.pageItems.filter fun j => j.id != i.id } : State).setThread c t { s.thread c t with wait := .none }
      if retry then u else trapThread u c t .notPresent i.va d := by
  have h4 : t ≠ 4 := by omega
  unfold serveItem
  rw [hi]
  simp only [h4, if_false]
  rw [if_pos (by exact hw)]
  rfl

/-! ### The mailbox (R397, R398) -/

/-- The doorbell is busy with the command of a code. -/
def MailboxBusy (s : State) (code : Nat) : Prop := (doorbell s).getLsbD 0 = true ∧ (doorbell s).toNat / 2 ^ 8 % 2 ^ 8 = code

theorem mailboxBusy_iff (s : State) (code : Nat) :
    (bit (doorbell s) 0 && fld (doorbell s) 15 8 == code) = true ↔ MailboxBusy s code := by
  simp [MailboxBusy, bit, fld]

/-- A command that the doorbell is busy with answers: its status goes to the response and the doorbell. -/
theorem moves_of_command {i : Instr} {e : Event} {s : State} {code : Nat} {f : State → Nat × State} {st : Nat} {t : State} (h : AtHand e s)
    (he : exec i s = runStep e s fun s => mailbox s code f) (hb : MailboxBusy s code) (hr : f s = (st, t)) :
    Moves i s (finishMailbox t st) :=
  moves_of h he (by simp only [mailbox, if_pos ((mailboxBusy_iff s code).mpr hb), hr])

/-- Any other step of the mailbox leaves everything as it was. -/
theorem moves_of_idle {i : Instr} {e : Event} {s : State} {code : Nat} {f : State → Nat × State} (h : AtHand e s)
    (he : exec i s = runStep e s fun s => mailbox s code f) (hb : ¬ MailboxBusy s code) : Moves i s s :=
  moves_of h he (by rw [mailbox, if_neg (fun hc => hb ((mailboxBusy_iff s code).mp hc))])

/-- The commands of the mailbox but the warm reset: the step, the event and the code of each (R398). -/
def mailboxCommands : List (Instr × Event × Nat) :=
  [(.pageMap, .pageMap, 1), (.pageDecline, .pageDecline, 2), (.barrierExtend, .barrierExtend, 3),
    (.barrierExpire, .barrierExpire, 4), (.contain, .contain, 5), (.attest, .attest, 7),
    (.firmwareStage, .firmwareStage, 8), (.firmwareActivate, .firmwareActivate, 9), (.tlbInvalidate, .tlbInvalidate, 10)]

theorem mailboxCommand_idle {s : State} {i : Instr} {e : Event} {code : Nat} (h : AtHand e s) (hm : (i, e, code) ∈ mailboxCommands)
    (hb : ¬ MailboxBusy s code) : Moves i s s := by
  simp only [mailboxCommands, List.mem_cons, Prod.mk.injEq, List.not_mem_nil, or_false] at hm
  rcases hm with ⟨rfl, rfl, rfl⟩ | ⟨rfl, rfl, rfl⟩ | ⟨rfl, rfl, rfl⟩ | ⟨rfl, rfl, rfl⟩ | ⟨rfl, rfl, rfl⟩ | ⟨rfl, rfl, rfl⟩ |
    ⟨rfl, rfl, rfl⟩ | ⟨rfl, rfl, rfl⟩ | ⟨rfl, rfl, rfl⟩
  · exact moves_of_idle h (by change execPageMap s = _; rw [execPageMap, h.1]) hb
  · exact moves_of_idle h (by change execPageDecline s = _; rw [execPageDecline, h.1]) hb
  · exact moves_of_idle h (by change execBarrierExtend s = _; rw [execBarrierExtend, h.1]) hb
  · exact moves_of_idle h (by change execBarrierExpire s = _; rw [execBarrierExpire, h.1]) hb
  · exact moves_of_idle h (by change execContain s = _; rw [execContain, h.1]) hb
  · exact moves_of_idle h (by change execAttest s = _; rw [execAttest, h.1]) hb
  · exact moves_of_idle h (by change execFirmwareStage s = _; rw [execFirmwareStage, h.1]) hb
  · exact moves_of_idle h (by change execFirmwareActivate s = _; rw [execFirmwareActivate, h.1]) hb
  · exact moves_of_idle h (by change execTlbInvalidate s = _; rw [execTlbInvalidate, h.1]) hb

theorem pageAnswer_found {s : State} {p : PageItem} (retry : Bool) (hp : pageNotice s = some p) :
    pageAnswer retry s = (0, serveItem s p retry) := by
  simp only [pageAnswer, hp]

theorem pageAnswer_missing {s : State} (retry : Bool) (hp : pageNotice s = none) : pageAnswer retry s = (1, s) := by
  simp only [pageAnswer, hp]

theorem pageMap_answers {s : State} (h : AtHand .pageMap s) (hb : MailboxBusy s 1) :
    Moves .pageMap s (finishMailbox (pageAnswer true s).2 (pageAnswer true s).1) :=
  moves_of_command h (by change execPageMap s = _; rw [execPageMap, h.1]) hb rfl

theorem pageDecline_answers {s : State} (h : AtHand .pageDecline s) (hb : MailboxBusy s 2) :
    Moves .pageDecline s (finishMailbox (pageAnswer false s).2 (pageAnswer false s).1) :=
  moves_of_command h (by change execPageDecline s = _; rw [execPageDecline, h.1]) hb rfl

section Barriers
variable {s : State} {c b : Nat}

theorem barrierExtend_held (h : AtHand .barrierExtend s) (hb : MailboxBusy s 3) (hh : heldBarrier s = some (c, b)) :
    Moves .barrierExtend s (finishMailbox (s.setCore c ((s.core c).setBar b
      { (s.core c).bar b with held := false, first := some s.cycle })) 0) :=
  moves_of_command h (by change execBarrierExtend s = _; rw [execBarrierExtend, h.1]) hb (by simp only [hh])

theorem barrierExpire_held (h : AtHand .barrierExpire s) (hb : MailboxBusy s 4) (hh : heldBarrier s = some (c, b)) :
    Moves .barrierExpire s (finishMailbox (timeoutBarrier s c b) 0) :=
  moves_of_command h (by change execBarrierExpire s = _; rw [execBarrierExpire, h.1]) hb (by simp only [hh])

variable {r : LaunchRun} {key : Nat} {a : SavedTasks} {g : Bool}

theorem barrierExtend_aside (h : AtHand .barrierExtend s) (hb : MailboxBusy s 3) (hh : heldBarrier s = none)
    (ha : heldAside s = some (r, key, a, g)) :
    Moves .barrierExtend s (finishMailbox { s with
      savedTasks := s.savedTasks.set key { a with held := a.held.filter (fun e => e.1 != mbArg s 2), extended := a.extended ++ [mbArg s 2] } } 0) :=
  moves_of_command h (by change execBarrierExtend s = _; rw [execBarrierExtend, h.1]) hb (by simp only [hh, ha])

theorem barrierExpire_aside (h : AtHand .barrierExpire s) (hb : MailboxBusy s 4) (hh : heldBarrier s = none)
    (ha : heldAside s = some (r, key, a, g)) :
    Moves .barrierExpire s (finishMailbox (expireAside { s with
      savedTasks := s.savedTasks.set key { a with held := a.held.filter fun e => e.1 != mbArg s 2 } } r (mbArg s 1) (mbArg s 2) g) 0) :=
  moves_of_command h (by change execBarrierExpire s = _; rw [execBarrierExpire, h.1]) hb (by simp only [hh, ha]; rfl)

theorem barrierExtend_missing (h : AtHand .barrierExtend s) (hb : MailboxBusy s 3) (hh : heldBarrier s = none)
    (ha : heldAside s = none) : Moves .barrierExtend s (finishMailbox s 1) :=
  moves_of_command h (by change execBarrierExtend s = _; rw [execBarrierExtend, h.1]) hb (by simp only [hh, ha])

theorem barrierExpire_missing (h : AtHand .barrierExpire s) (hb : MailboxBusy s 4) (hh : heldBarrier s = none)
    (ha : heldAside s = none) : Moves .barrierExpire s (finishMailbox s 1) :=
  moves_of_command h (by change execBarrierExpire s = _; rw [execBarrierExpire, h.1]) hb (by simp only [hh, ha])

end Barriers

section Contain
variable {s : State} (h : AtHand .contain s) (hb : MailboxBusy s 5)
include h hb

theorem contain_missing (ht : s.triage.find? (fun t => t.ctx == mbArg s 0 && t.id == mbArg s 1) = none) :
    Moves .contain s (finishMailbox s 1) :=
  moves_of_command h (by change execContain s = _; rw [execContain, h.1]) hb (by simp only [ht])

theorem contain_refused {t : TriageItem} (ht : s.triage.find? (fun t => t.ctx == mbArg s 0 && t.id == mbArg s 1) = some t)
    (hl : mbArg s 2 < t.inner ∨ 4 < mbArg s 2) : Moves .contain s (finishMailbox s 1) :=
  moves_of_command h (by change execContain s = _; rw [execContain, h.1]) hb (by simp only [ht, if_pos hl])

theorem contain_performed {t : TriageItem} (ht : s.triage.find? (fun t => t.ctx == mbArg s 0 && t.id == mbArg s 1) = some t)
    (hl : ¬ (mbArg s 2 < t.inner ∨ 4 < mbArg s 2)) : Moves .contain s (finishMailbox (containAt s t (mbArg s 2)) 0) :=
  moves_of_command h (by change execContain s = _; rw [execContain, h.1]) hb (by simp only [ht, if_neg hl])

end Contain

theorem attest_reports {s : State} (h : AtHand .attest s) (hb : MailboxBusy s 7) :
    let body := reportNat s (Mem.read s.dev 0x300000 32)
    let sig := (edSign identity (natBytes body 192)).toNat
    Moves .attest s (finishMailbox { s with dev := Mem.write s.dev 0x300100 256 (body + 2 ^ 1536 * sig) } 0) :=
  moves_of_command h (by change execAttest s = _; rw [execAttest, h.1]) hb rfl

section FirmwareStage
variable {s : State} (h : AtHand .firmwareStage s) (hb : MailboxBusy s 8)
include h hb

theorem firmwareStage_short (hn : mbArg s 1 < 256) : Moves .firmwareStage s (finishMailbox s 1) :=
  moves_of_command h (by change execFirmwareStage s = _; rw [execFirmwareStage, h.1]) hb (by simp only [if_pos hn])

theorem firmwareStage_unread (hn : ¬ mbArg s 1 < 256)
    (hp : ∀ hdr body, physRead s (mbArg s 0) 256 = some hdr → physRead s (mbArg s 0 + 256) (mbArg s 1 - 256) = some body → False) :
    Moves .firmwareStage s (finishMailbox s 2) :=
  moves_of_command h (by change execFirmwareStage s = _; rw [execFirmwareStage, h.1]) hb (by
    rw [if_neg hn]
    split
    · next hh hd => exact (hp _ _ hh hd).elim
    · rfl)

theorem firmwareStage_read {hdr body : Nat} (hn : ¬ mbArg s 1 < 256) (hh : physRead s (mbArg s 0) 256 = some hdr)
    (hd : physRead s (mbArg s 0 + 256) (mbArg s 1 - 256) = some body) :
    let image : Image := ⟨BitVec.ofNat 2048 hdr, natBytes body (mbArg s 1 - 256)⟩
    Moves .firmwareStage s (if imageGood s.firmware.counter image
      then finishMailbox { s with firmware := { s.firmware with staged := some image } } 0 else finishMailbox s 1) := by
  intro image
  split
  · next hg =>
    exact moves_of_command h (by change execFirmwareStage s = _; rw [execFirmwareStage, h.1]) hb (by simp only [if_neg hn, hh, hd]; exact if_pos hg)
  · next hg =>
    exact moves_of_command h (by change execFirmwareStage s = _; rw [execFirmwareStage, h.1]) hb (by simp only [if_neg hn, hh, hd]; exact if_neg hg)

end FirmwareStage

theorem firmwareActivate_answers {s : State} (h : AtHand .firmwareActivate s) (hb : MailboxBusy s 9) :
    Moves .firmwareActivate s (if s.firmware.staged = none then finishMailbox s 1
      else finishMailbox { s with firmware := { s.firmware with activate := true } } 0) := by
  split
  · next hs =>
    exact moves_of_command h (by change execFirmwareActivate s = _; rw [execFirmwareActivate, h.1]) hb (by simp only [hs]; rfl)
  · next hs =>
    exact moves_of_command h (by change execFirmwareActivate s = _; rw [execFirmwareActivate, h.1]) hb
      (by exact if_pos (Option.isSome_iff_ne_none.mpr hs))

theorem tlbInvalidate_answers {s : State} (h : AtHand .tlbInvalidate s) (hb : MailboxBusy s 10) :
    Moves .tlbInvalidate s (if 64 ≤ mbArg s 0 ∨ 2 ≤ mbArg s 1 ∨ (s.ctx (mbArg s 0)).live = false then finishMailbox s 1
      else finishMailbox (dropTlb s (mbArg s 0) (if mbArg s 1 = 0 then none else some (mbArg s 2))) 0) := by
  split
  · next hx =>
    exact moves_of_command h (by change execTlbInvalidate s = _; rw [execTlbInvalidate, h.1]) hb (by exact if_pos (by simpa using hx))
  · next hx =>
    exact moves_of_command h (by change execTlbInvalidate s = _; rw [execTlbInvalidate, h.1]) hb (by exact if_neg (by simpa using hx))

/-- The doorbell after a command: the status in bits 31:24 and busy clear. -/
theorem doorbell_finishMailbox {s : State} (st : Nat) (hw : Mem.wf s.dev = true) :
    doorbell (finishMailbox s st) = setFld (setFld (doorbell s) 31 24 st) 0 0 0 := by
  have hread : ∀ (m : List Host.Cell) (d : Word), Mem.wf m = true →
      word (Mem.read (Mem.write m 0x300080 8 d.toNat) 0x300080 8) = d := by
    intro m d hm
    rw [Mem.read_write_self 8 _ _ hm, Nat.mod_eq_of_lt (show _ < 256 ^ 8 from d.isLt)]
    exact BitVec.ofNat_toNat 64 d
  exact hread _ _ (Mem.wf_write 64 _ _ hw)

theorem toNat_setFld_status (d : Word) (st : Nat) : (setFld (setFld d 31 24 st) 0 0 0).toNat =
    d.toNat - d.toNat / 2 ^ 24 % 2 ^ 8 * 2 ^ 24 + st % 2 ^ 8 * 2 ^ 24 - d.toNat % 2 := by
  have hd := d.isLt
  simp only [setFld, BitVec.toNat_ofNat]
  omega

theorem finishMailbox_answers {s : State} (st : Nat) (hw : Mem.wf s.dev = true) :
    (doorbell (finishMailbox s st)).getLsbD 0 = false ∧ (doorbell (finishMailbox s st)).toNat / 2 ^ 24 % 2 ^ 8 = st % 2 ^ 8 := by
  rw [doorbell_finishMailbox st hw]
  have hd := (doorbell s).isLt
  refine ⟨?_, ?_⟩
  · rw [BitVec.getLsbD, Nat.testBit_zero, toNat_setFld_status]
    simp only [decide_eq_false_iff_not]
    omega
  · rw [toNat_setFld_status]
    omega

theorem containAt_reset (s : State) (i : TriageItem) :
    containAt s i 4 = ({ s with triage := s.triage.filter fun j => j != i } : State).emit .warmReset := rfl

theorem containAt_gone {s : State} {i : TriageItem} {l : Nat} (hl : l ≠ 4) (hn : ∀ p ∈ s.launches, p.2.order ≠ i.order) :
    containAt s i l = { s with triage := s.triage.filter fun j => j != i } := by
  have hf : List.find? (fun (p : Nat × LaunchRun) => p.2.order == i.order) s.launches = none :=
    List.find?_eq_none.mpr (by simpa using hn)
  simp only [containAt, hf]

/-! ### Monitors and device registers (R348, R357, R397, R402) -/

/-- Masking a monitor's configuration twice is masking it once. -/
theorem monitorConfig_mask (v : Word) :
    v &&& 0x00FFFFFF0000FF01#64 ||| (v &&& 0x000000FF00000000#64) = v &&& 0x00FFFFFF0000FF01#64 := by
  rw [← BitVec.and_or_distrib_left]
  rfl

/-- The mask keeps the operation of a configuration. -/
theorem monitorConfig_op (v : Word) : fld (v &&& 0x00FFFFFF0000FF01#64) 33 32 = v.toNat / 2 ^ 32 % 4 := by
  have hx : (v &&& 0x00FFFFFF0000FF01#64).extractLsb' 32 2 = v.extractLsb' 32 2 := by
    rw [BitVec.extractLsb'_and, show (0x00FFFFFF0000FF01#64).extractLsb' 32 2 = BitVec.allOnes 2 from by decide,
      BitVec.and_allOnes]
  have := congrArg BitVec.toNat hx
  simpa [fld, BitVec.extractLsb'_toNat, Nat.shiftRight_eq_div_pow] using this

theorem setMonitor_monitors (s : State) (m : Nat) (v : Word) :
    (setMonitor s m v).monitors = s.monitors.set m (if v.getLsbD 0
      then ⟨v &&& 0x00FFFFFF0000FF01#64, if v.toNat / 2 ^ 32 % 4 = 1 then BitVec.allOnes 64 else 0, List.replicate 16 0⟩
      else { s.monitors.get m ⟨0, 0, List.replicate 16 0⟩ with config := v &&& 0x00FFFFFF0000FF01#64 }) := by
  have h0 : bit (v &&& 0x00FFFFFF0000FF01#64) 0 = v.getLsbD 0 := by simp [bit]
  simp only [setMonitor, monitorConfig_mask, monitorConfig_op, h0]
  rfl

/-- A write of a doubleword of the device register space (R83), by the registers that stand behind its offset. -/
theorem registerWrite_ctx {s : State} {o : Nat} {v : Word} (h : AtHand (.registerWrite o v) s) (ho : o < 64 * 64) :
    Moves .registerWrite s (writeCtxReg s (o / 64) (o % 64 / 8) v) :=
  moves_of h (by change execRegisterWrite s = _; rw [execRegisterWrite, h.1]) (by rw [if_pos ho])

theorem registerWrite_slot {s : State} {o : Nat} {v : Word} (h : AtHand (.registerWrite o v) s) (h1 : 0x100000 ≤ o)
    (h2 : o < 0x100000 + 160 * 768) : Moves .registerWrite s
      (writeSlotReg s ((o - 0x100000) / 160) ((o - 0x100000) % 160 / 32) ((o - 0x100000) % 32 / 8) v) :=
  moves_of h (by change execRegisterWrite s = _; rw [execRegisterWrite, h.1]) (by
    rw [if_neg (by omega), if_pos ⟨h1, h2⟩])

theorem registerWrite_request {s : State} {o : Nat} {v : Word} (h : AtHand (.registerWrite o v) s) (h1 : 0x300000 ≤ o)
    (h2 : o < 0x300040) : Moves .registerWrite s { s with dev := Mem.write s.dev o 8 v.toNat } :=
  moves_of h (by change execRegisterWrite s = _; rw [execRegisterWrite, h.1]) (by
    rw [if_neg (by omega), if_neg (by omega), if_pos ⟨h1, h2⟩])

theorem registerWrite_doorbell {s : State} {v : Word} (h : AtHand (.registerWrite 0x300080 v) s) :
    Moves .registerWrite s (writeDoorbell s v) :=
  moves_of h (by change execRegisterWrite s = _; rw [execRegisterWrite, h.1]) (by
    rw [if_neg (by omega), if_neg (by omega), if_neg (by omega), if_pos rfl])

theorem registerWrite_monitor {s : State} {m : Nat} {v : Word} (h : AtHand (.registerWrite (0x400000 + 0x60 * m) v) s)
    (hm : m < 6272) : Moves .registerWrite s (setMonitor s m v) :=
  moves_of h (by change execRegisterWrite s = _; rw [execRegisterWrite, h.1]) (by
    rw [if_neg (by omega), if_neg (by omega), if_neg (by omega), if_neg (by omega), if_pos (by omega),
      show (0x400000 + 0x60 * m - 0x400000) / 0x60 = m by omega])

/-- A write of doubleword i of the descriptor of context x. -/
theorem registerWrite_field {s : State} {x i : Nat} {v : Word} (h : AtHand (.registerWrite (64 * x + 8 * i) v) s) (hx : x < 64)
    (hi : i < 8) : Moves .registerWrite s (writeCtxReg s x i v) := by
  have hw := registerWrite_ctx h (by omega)
  rwa [show (64 * x + 8 * i) / 64 = x by omega, show (64 * x + 8 * i) % 64 / 8 = i by omega] at hw

/-- A write of doubleword i of slot j of core c. -/
theorem registerWrite_record {s : State} {c j i : Nat} {v : Word}
    (h : AtHand (.registerWrite (0x100000 + 160 * c + 32 * j + 8 * i) v) s) (hc : c < 768) (hj : j < 5) (hi : i < 4) :
    Moves .registerWrite s (writeSlotReg s c j i v) := by
  have hw := registerWrite_slot h (by omega) (by omega)
  rwa [show (0x100000 + 160 * c + 32 * j + 8 * i - 0x100000) / 160 = c by omega,
    show (0x100000 + 160 * c + 32 * j + 8 * i - 0x100000) % 160 / 32 = j by omega,
    show (0x100000 + 160 * c + 32 * j + 8 * i - 0x100000) % 32 / 8 = i by omega] at hw

section Descriptor
variable (s : State) (x : Nat) (v : Word)

theorem writeCtxReg_create (hv : v.getLsbD 0 = true) (hl : (s.ctx x).live = false) :
    let t : State := { s with dev := Mem.write s.dev (64 * x + 8 * 0) 8 v.toNat }
    writeCtxReg s x 0 v = t.emit (.contextCreate x (BitVec.ofNat 512 (Mem.read t.dev (64 * x) 64))) := by
  have hc : (bit v 0 && !(s.ctx x).live) = true := by rw [show bit v 0 = true from hv, hl]; rfl
  exact if_pos hc

theorem writeCtxReg_destroy (hv : v.getLsbD 0 = false) (hl : (s.ctx x).live = true) :
    writeCtxReg s x 0 v =
      ({ s with dev := Mem.write s.dev (64 * x + 8 * 0) 8 v.toNat } : State).emit (.contextDestroy x) := by
  have h1 : ¬ (bit v 0 && !(s.ctx x).live) = true := by simp [hl]
  have h2 : (!bit v 0 && (s.ctx x).live) = true := by rw [show bit v 0 = false from hv, hl]; rfl
  exact (if_neg h1).trans (if_pos h2)

theorem writeCtxReg_root (hv : v.getLsbD 0 = true) (hl : (s.ctx x).live = true) :
    writeCtxReg s x 0 v = ({ s with dev := Mem.write s.dev (64 * x + 8 * 0) 8 v.toNat } : State).setCtx x
      { s.ctx x with root := BitVec.ofNat 39 (v.toNat / 2 ^ 8 % 2 ^ 39) } := by
  have h1 : ¬ (bit v 0 && !(s.ctx x).live) = true := by simp [hl]
  have h2 : ¬ (!bit v 0 && (s.ctx x).live) = true := by rw [show bit v 0 = true from hv]; simp
  exact (if_neg h1).trans ((if_neg h2).trans (if_pos hl))

/-- The other fields of a context that exists take effect at once. -/
theorem writeCtxReg_live (hl : (s.ctx x).live = true) :
    let put := fun (i : Nat) => ({ s with dev := Mem.write s.dev (64 * x + 8 * i) 8 v.toNat } : State)
    let cx := s.ctx x
    writeCtxReg s x 1 v = (put 1).setCtx x { cx with seed := v } ∧
    writeCtxReg s x 2 v = (put 2).setCtx x { cx with lawbase := v } ∧
    writeCtxReg s x 3 v = (put 3).setCtx x { cx with hndbase := v } ∧
    writeCtxReg s x 4 v = (put 4).setCtx x { cx with qbase := v } ∧
    writeCtxReg s x 5 v = (put 5).setCtx x { cx with spill := v } ∧
    writeCtxReg s x 6 v = (put 6).setCtx x { cx with modes := v &&& 0x3F#64 } := by
  refine ⟨?_, ?_, ?_, ?_, ?_, ?_⟩ <;> exact if_pos hl

theorem writeCtxReg_absent {i : Nat} (hi : i ≠ 0) (hl : (s.ctx x).live = false) :
    writeCtxReg s x i v = { s with dev := Mem.write s.dev (64 * x + 8 * i) 8 v.toNat } :=
  (if_neg hi).trans (if_neg (by exact Bool.eq_false_iff.mp hl))

end Descriptor

theorem writeSlotReg_ignored (s : State) (c j i : Nat) (v : Word)
    (h : j ≠ 4 ∨ (SMap.find? (s.core c).slots 4).isSome = true ∨ (handedOver s c).isSome = true) : writeSlotReg s c j i v = s :=
  if_pos (by simpa [or_assoc] using h)

theorem writeSlotReg_open (s : State) (c i : Nat) (v : Word) (hs : SMap.find? (s.core c).slots 4 = none)
    (hh : handedOver s c = none) :
    let t : State := { s with dev := Mem.write s.dev (0x100000 + 160 * c + 32 * 4 + 8 * i) 8 v.toNat }
    writeSlotReg s c 4 i v = if i = 0 ∧ v.getLsbD 0 = true
      then t.emit (.hostBindRecord c (BitVec.ofNat 256 (Mem.read t.dev (0x100000 + 160 * c + 128) 32))) else t :=
  if_neg (by simp [hs, hh])

section Doorbell
variable (s : State) (v : Word)

/-- The doorbell as a write leaves it: the status is read-only, reserved bits stay zero (R3, R397). -/
def rungDoorbell : Word := (v &&& 0xFFFFFFFF0000FF01#64) ||| (doorbell s &&& 0xFF000000#64)

theorem writeDoorbell_busy (hb : (doorbell s).getLsbD 0 = true) : writeDoorbell s v = s := if_pos hb

theorem writeDoorbell_idle (hb : (doorbell s).getLsbD 0 = false) (hd : (rungDoorbell s v).getLsbD 0 = false) :
    writeDoorbell s v = { s with dev := Mem.write s.dev 0x300080 8 (rungDoorbell s v).toNat } :=
  (if_neg (by exact Bool.eq_false_iff.mp hb)).trans (if_neg (by exact Bool.eq_false_iff.mp hd))

theorem writeDoorbell_rung (hb : (doorbell s).getLsbD 0 = false) (hd : (rungDoorbell s v).getLsbD 0 = true) :
    let t : State := { s with dev := Mem.write s.dev 0x300080 8 (rungDoorbell s v).toNat }
    writeDoorbell s v = match mailboxEvent ((rungDoorbell s v).toNat / 2 ^ 8 % 2 ^ 8) with
      | some e => t.emit e
      | none => finishMailbox t 1 :=
  (if_neg (by exact Bool.eq_false_iff.mp hb)).trans (if_pos (by exact hd))

end Doorbell

/-! ### The host port (R394, R395) -/

section HostPort
variable {s : State} {x : Nat} {va : Word}

theorem hostBar2Write_noContext {data : List Byte} (h : AtHand (.hostBar2Write x va data) s) (hx : 64 ≤ x ∨ (s.ctx x).live = false) :
    Moves .hostBar2Write s { s with portErrors := s.portErrors + 1 } :=
  moves_of h (by change execHostBar2Write s = _; rw [execHostBar2Write, h.1]) (by
    rw [if_pos (by simpa using hx)]
    rfl)

theorem hostBar2Write_written {data : List Byte} {t : State} (h : AtHand (.hostBar2Write x va data) s) (hx : x < 64)
    (hl : (s.ctx x).live = true) (hp : portParts s x .write (partsOf va.toNat data.length) = .ok ())
    (hw : unitWrite s .host 768 x false (partsOf va.toNat data.length) (bytesNat data) = (none, t)) :
    Moves .hostBar2Write s
      ((touchedQueues t x va.toNat data.length).foldl (fun s q => noteHeader s x va.toNat data q) t) :=
  moves_of h (by change execHostBar2Write s = _; rw [execHostBar2Write, h.1]) (by
    rw [if_neg (by simp [hl, hx])]
    simp only [hp, hw])

theorem hostBar2Write_dropped {data : List Byte} {z : Cause} {a : Nat} (h : AtHand (.hostBar2Write x va data) s) (hx : x < 64)
    (hl : (s.ctx x).live = true) (hz : z ≠ .notPresent)
    (hp : portParts s x .write (partsOf va.toNat data.length) = .error (.fault z a)) :
    Moves .hostBar2Write s { s with portErrors := s.portErrors + 1 } :=
  moves_of h (by change execHostBar2Write s = _; rw [execHostBar2Write, h.1]) (by
    rw [if_neg (by simp [hl, hx])]
    simp only [hp]
    exact if_neg hz)

theorem hostBar2Read_noContext {n : Nat} (h : AtHand (.hostBar2Read x va n) s) (hx : 64 ≤ x ∨ (s.ctx x).live = false) :
    Moves .hostBar2Read s { s with hostReads := s.hostReads ++ [none] } :=
  moves_of h (by change execHostBar2Read s = _; rw [execHostBar2Read, h.1]) (by
    rw [if_pos (by simpa using hx)])

theorem hostBar2Read_delivered {n v : Nat} {t : State} (h : AtHand (.hostBar2Read x va n) s) (hx : x < 64)
    (hl : (s.ctx x).live = true) (hr : unitRead s .host 768 x false (partsOf va.toNat n) = .ok (v, t)) :
    Moves .hostBar2Read s { t with hostReads := t.hostReads ++ [some (natBytes v n)] } :=
  moves_of h (by change execHostBar2Read s = _; rw [execHostBar2Read, h.1]) (by
    rw [if_neg (by simp [hl, hx])]
    simp only [hr])

theorem hostBar2Read_refused {n a : Nat} {z : Cause} (h : AtHand (.hostBar2Read x va n) s) (hx : x < 64)
    (hl : (s.ctx x).live = true) (hz : z ≠ .notPresent)
    (hr : unitRead s .host 768 x false (partsOf va.toNat n) = .error (.fault z a)) :
    Moves .hostBar2Read s { s with hostReads := s.hostReads ++ [none] } :=
  moves_of h (by change execHostBar2Read s = _; rw [execHostBar2Read, h.1]) (by
    rw [if_neg (by simp [hl, hx])]
    simp only [hr]
    exact if_neg hz)

end HostPort

/-! ### Resets and losses (R9, R383, R387, R390) -/

theorem warmReset_moves {s : State} (h : AtHand .warmReset s) :
    let t := warmReset s none
    Moves .warmReset s (if (doorbell s).getLsbD 0 = true ∧ (doorbell s).toNat / 2 ^ 8 % 2 ^ 8 = 6
      then finishMailbox { t with dev := Mem.write t.dev 0x300080 8 (doorbell s).toNat } 0 else t) := by
  intro t
  refine moves_of h (by change execWarmReset s = _; rw [execWarmReset, h.1]) ?_
  split
  · next hb => simp only [if_pos ((mailboxBusy_iff s 6).mpr hb)]; rfl
  · next hb => simp only [if_neg (fun hc => hb ((mailboxBusy_iff s 6).mp hc))]; rfl

/-- The management core fails: the spare that verifies its image takes over, else the package is reset. -/
theorem loseManagement_eq (s : State) :
    loseManagement s = if s.firmware.spare = true ∧ imageGood s.firmware.counter s.firmware.running = true
      then { s with firmware := { s.firmware with die := 1 - s.firmware.die, spare := false } } else warmReset s none := by
  simp only [loseManagement, Firmware.takesOver, Bool.and_eq_true, failover]

section UnitLoss
variable {s : State}

theorem unitLoss_slice {n : Nat} (h : AtHand (.unitLoss (.slice n)) s) : Moves .unitLoss s (warmReset s (some n)) :=
  moves_of h (by change execUnitLoss s = _; rw [execUnitLoss, h.1]) (by rfl)

theorem unitLoss_bridge (h : AtHand (.unitLoss .bridge) s) : Moves .unitLoss s (warmReset s none) :=
  moves_of h (by change execUnitLoss s = _; rw [execUnitLoss, h.1]) (by rfl)

theorem unitLoss_channel {st ch : Nat} (h : AtHand (.unitLoss (.channel st ch)) s) :
    let gone := if s.lostChannels.contains (st, ch) then s.lostChannels else s.lostChannels ++ [(st, ch)]
    Moves .unitLoss s (warmReset { s with lostChannels := gone } none) :=
  moves_of h (by change execUnitLoss s = _; rw [execUnitLoss, h.1]) (by rfl)

theorem unitLoss_management (h : AtHand (.unitLoss .management) s) : Moves .unitLoss s (loseManagement s) :=
  moves_of h (by change execUnitLoss s = _; rw [execUnitLoss, h.1]) (by rfl)

end UnitLoss

theorem managementFailover_moves {s : State} (h : AtHand .managementFailover s) : Moves .managementFailover s (loseManagement s) :=
  moves_of h (by change execManagementFailover s = _; rw [execManagementFailover, h.1]) rfl

/-- A cold reset leaves the reset state, its fused counter kept. -/
theorem coldReset_moves {s : State} (h : AtHand .coldReset s) : ∃ t, Moves .coldReset s t ∧ t.mem = [] ∧ t.sectors = [] ∧
    t.cores = State.reset.cores ∧ t.ctxs = State.reset.ctxs ∧ t.queues = State.reset.queues ∧
    t.launches = State.reset.launches ∧ t.dev = State.reset.dev ∧ t.firmware.counter = s.firmware.counter := by
  refine ⟨_, moves_of h (by change execColdReset s = _; rw [execColdReset, h.1]) (by rfl), ?_⟩
  exact ⟨rfl, rfl, rfl, rfl, rfl, rfl, rfl, rfl⟩

theorem coreLoss_moves {s : State} {c : Nat} (h : AtHand (.coreLoss c) s) : Moves .coreLoss s (loseCore s c) :=
  moves_of h (by change execCoreLoss s = _; rw [execCoreLoss, h.1]) rfl

theorem loseCore_unbound {s : State} {c : Nat} (hb : (s.core c).bound = none) : loseCore s c = s :=
  if_pos (by rw [hb]; rfl)

theorem loseCore_bound {s : State} {c : Nat} (hb : (s.core c).bound ≠ none) :
    let k := s.core c
    let s1 := s.setCore c { k with fenced := true }
    let s2 := if k.act.isSome then handlerFault s1 c .unitLost else s1
    let s3 := (List.range 4).foldl (fun u t =>
      if (u.thread c t).strand = .running then threadFault u c t .unitLost 0 0 else u) s2
    loseCore s c = if k.deque = [] ∧ k.pushes = [] ∧ k.parked = [] then s3
      else launchFault s3 c 0 Cause.unitLost.code 0 0 2 none := by
  have hsome : ¬ (s.core c).bound.isNone = true := by simpa using hb
  refine (if_neg hsome).trans ?_
  simp only [Bool.and_eq_true, beq_iff_eq, and_assoc]

/-! ### The comparison of a checked pair (R379, R381, R382) -/

section Compare
variable {s : State} {l f : Nat} {v : Verdict} (h : AtHand (.intervalCompare l v) s)
include h

theorem intervalCompare_leader (hp : (s.core l).pair = .leader f) : Moves .intervalCompare s (compareInterval s l f v) :=
  moves_of h (by change execIntervalCompare s = _; rw [execIntervalCompare, h.1]) (by simp only [hp])

theorem intervalCompare_other (hp : ∀ f, (s.core l).pair ≠ .leader f) : Moves .intervalCompare s s :=
  moves_of h (by change execIntervalCompare s = _; rw [execIntervalCompare, h.1]) (by
    split
    · next g hg => exact (hp g hg).elim
    · rfl)

end Compare

theorem compareInterval_goesOn {s : State} {l f : Nat}
    (hu : ((releaseInterval s l f 1 0 0).core l).allIn .unpairing = false ∨ boundThreads ((releaseInterval s l f 1 0 0).core l) = []) :
    compareInterval s l f .agree = releaseInterval s l f 1 0 0 := by
  refine if_neg ?_
  rcases hu with hu | hu <;> simp [hu]

theorem compareInterval_parts {s : State} {l f : Nat} (hw : ((releaseInterval s l f 1 0 0).core l).allIn .unpairing = true)
    (hb : boundThreads ((releaseInterval s l f 1 0 0).core l) ≠ []) :
    compareInterval s l f .agree = decouple (releaseInterval s l f 1 0 0) l f :=
  if_pos (by simp [hw, hb])

theorem compareInterval_unresolvable (s : State) (l f : Nat) :
    compareInterval s l f .unresolvable = divergence (monitorEvent s (some l) 0 0 8 (s.coreCtx l) 1) l f := rfl

/-! ### The statement -/

/-- Settles O50: clause by clause from what the steps do above. -/
theorem managementMoves : Obligations.ManagementMoves := by
  unfold Obligations.ManagementMoves
  refine ⟨?service, ?served, ?commands, fun _ st hw => finishMailbox_answers st hw, ?containment, ?monitors, ?registers,
    ?clock, ?write, ?read, fun _ h => warmReset_moves h, ?calm, ?losses, fun _ h => coldReset_moves h, ?coreLoss, ?compare,
    fun _ _ _ a r n hlf => releaseInterval_leaves a r n hlf⟩
  case service =>
    intro s x n retry h found
    refine ⟨fun i hf => ?_, pageFaultService_waitsMissing h⟩
    split
    · next hw => exact pageFaultService_waitsHeld h hf hw
    · next hw => exact pageFaultService_serves h hf hw
  case served =>
    intro s i c t d hi ht hw s1
    rw [serveItem_thread hi ht hw true, serveItem_thread hi ht hw false]
    refine ⟨?_, rfl, rfl⟩
    simp [State.thread, State.setThread]
  case commands =>
    intro s i e code h hm d busy
    refine ⟨mailboxCommand_idle h hm, fun hb => ⟨?pages, ?held, ?aside, ?missing, ?contain, ?attest, ?stage, ?activate, ?tlb⟩⟩
    case pages =>
      rintro (rfl | rfl)
      · obtain ⟨rfl, rfl⟩ : i = .pageMap ∧ e = .pageMap := by simpa using hm
        have hw := pageMap_answers h hb
        split
        · next p hp => rw [pageAnswer_found true hp] at hw; exact hw
        · next hp => rwa [pageAnswer_missing true hp] at hw
      · obtain ⟨rfl, rfl⟩ : i = .pageDecline ∧ e = .pageDecline := by simpa using hm
        have hw := pageDecline_answers h hb
        split
        · next p hp => rw [pageAnswer_found false hp] at hw; exact hw
        · next hp => rwa [pageAnswer_missing false hp] at hw
    case held =>
      intro c b hh
      constructor <;> rintro rfl
      · obtain ⟨rfl, rfl⟩ : i = .barrierExtend ∧ e = .barrierExtend := by simpa using hm
        exact barrierExtend_held h hb hh
      · obtain ⟨rfl, rfl⟩ : i = .barrierExpire ∧ e = .barrierExpire := by simpa using hm
        exact barrierExpire_held h hb hh
    case aside =>
      intro r key a g hh ha still put
      constructor <;> rintro rfl
      · obtain ⟨rfl, rfl⟩ : i = .barrierExtend ∧ e = .barrierExtend := by simpa using hm
        exact barrierExtend_aside h hb hh ha
      · obtain ⟨rfl, rfl⟩ : i = .barrierExpire ∧ e = .barrierExpire := by simpa using hm
        exact barrierExpire_aside h hb hh ha
    case missing =>
      rintro hh ha (rfl | rfl)
      · obtain ⟨rfl, rfl⟩ : i = .barrierExtend ∧ e = .barrierExtend := by simpa using hm
        exact barrierExtend_missing h hb hh ha
      · obtain ⟨rfl, rfl⟩ : i = .barrierExpire ∧ e = .barrierExpire := by simpa using hm
        exact barrierExpire_missing h hb hh ha
    case contain =>
      rintro rfl
      obtain ⟨rfl, rfl⟩ : i = .contain ∧ e = .contain := by simpa using hm
      split
      · next t ht =>
        split
        · next hl => exact contain_refused h hb ht hl
        · next hl => exact contain_performed h hb ht hl
      · next ht => exact contain_missing h hb ht
    case attest =>
      rintro rfl
      obtain ⟨rfl, rfl⟩ : i = .attest ∧ e = .attest := by simpa using hm
      exact attest_reports h hb
    case stage =>
      rintro rfl
      obtain ⟨rfl, rfl⟩ : i = .firmwareStage ∧ e = .firmwareStage := by simpa using hm
      intro n
      split
      · next hn => exact firmwareStage_short h hb hn
      · next hn =>
        split
        · next hh hd => exact firmwareStage_read h hb hn hh hd
        · next hp => exact firmwareStage_unread h hb hn hp
    case activate =>
      rintro rfl
      obtain ⟨rfl, rfl⟩ : i = .firmwareActivate ∧ e = .firmwareActivate := by simpa using hm
      exact firmwareActivate_answers h hb
    case tlb =>
      rintro rfl
      obtain ⟨rfl, rfl⟩ : i = .tlbInvalidate ∧ e = .tlbInvalidate := by simpa using hm
      exact tlbInvalidate_answers h hb
  case containment =>
    intro s i l u
    exact ⟨containAt_reset s i, containAt_gone⟩
  case monitors =>
    intro s m v h
    refine ⟨setMonitor s m v, moves_of h (by change execMonitorConfigWrite s = _; rw [execMonitorConfigWrite, h.1]) (by rfl),
      setMonitor_monitors s m v, rfl⟩
  case registers =>
    intro s o v h put
    refine ⟨?ctx, ?slot, registerWrite_request h, ?doorbell, ?monitor⟩
    case ctx =>
      rintro x i hx hi rfl cx t
      have hw := registerWrite_field h hx hi
      refine ⟨?create, ?destroy, ?root, ?live, ?absent⟩
      case create =>
        rintro rfl hv hl
        rwa [writeCtxReg_create s x v hv hl] at hw
      case destroy =>
        rintro rfl hv hl
        rwa [writeCtxReg_destroy s x v hv hl] at hw
      case root =>
        rintro rfl hv hl
        rwa [writeCtxReg_root s x v hv hl] at hw
      case live =>
        intro hl
        obtain ⟨hseed, hlaw, hhnd, hq, hspill, hmodes⟩ := writeCtxReg_live s x v hl
        refine ⟨?_, ?_, ?_, ?_, ?_, ?_⟩ <;> rintro rfl
        · rwa [hseed] at hw
        · rwa [hlaw] at hw
        · rwa [hhnd] at hw
        · rwa [hq] at hw
        · rwa [hspill] at hw
        · rwa [hmodes] at hw
      case absent =>
        intro hl hi0
        rwa [writeCtxReg_absent s x v hi0 hl] at hw
    case slot =>
      rintro c j i hc hj hi rfl
      have hw := registerWrite_record h hc hj hi
      refine ⟨fun hignored => ?_, ?_⟩
      · rwa [writeSlotReg_ignored s c j i v hignored] at hw
      · rintro rfl hs hh
        rwa [writeSlotReg_open s c i v hs hh] at hw
    case doorbell =>
      rintro rfl d t
      have hw := registerWrite_doorbell h
      refine ⟨fun hb => ?_, fun hb hd => ?_, fun hb hd => ?_⟩
      · rwa [writeDoorbell_busy s v hb] at hw
      · rwa [writeDoorbell_idle s v hb hd] at hw
      · rw [writeDoorbell_rung s v hb hd] at hw
        exact hw
    case monitor =>
      rintro m hm rfl
      exact registerWrite_monitor h hm
  case clock =>
    intro s f h
    exact moves_of h (by change execClockThrottle s = _; rw [execClockThrottle, h.1]) (by rfl)
  case write =>
    intro s x va data h ps
    exact ⟨hostBar2Write_noContext h, fun hx hl => ⟨fun t hp hw => hostBar2Write_written h hx hl hp hw,
      fun z a hz hp => hostBar2Write_dropped h hx hl hz hp⟩⟩
  case read =>
    intro s x va n h refused
    exact ⟨hostBar2Read_noContext h, fun hx hl => ⟨fun v t hr => hostBar2Read_delivered h hx hl hr,
      fun z a hz hr => hostBar2Read_refused h hx hl hz hr⟩⟩
  case calm =>
    intro s lost hj hl ha t
    obtain ⟨hsectors, hreplicas, hholds, hmonitors, harray, hbus, hsubs, hfirmware, hretired, hcores⟩ := warmReset_calm lost hj hl ha
    refine ⟨hsectors, hreplicas, hholds, hmonitors, harray, hbus, hsubs, hfirmware, hretired, fun c => ?_⟩
    rw [hcores c]
    exact ⟨rfl, rfl, rfl, rfl, rfl, rfl⟩
  case losses =>
    intro s lose
    refine ⟨fun n => unitLoss_slice, unitLoss_bridge, fun st ch => unitLoss_channel, fun h => ?_, fun h => ?_⟩
    · have hw := unitLoss_management h
      rwa [loseManagement_eq] at hw
    · have hw := managementFailover_moves h
      rwa [loseManagement_eq] at hw
  case coreLoss =>
    intro s c h k s1 s2 s3
    have hw := coreLoss_moves h
    refine ⟨fun hb => ?_, fun hb => ?_⟩
    · rwa [loseCore_unbound hb] at hw
    · rwa [loseCore_bound hb] at hw
  case compare =>
    intro s l v h
    refine ⟨fun f hp => ?_, intervalCompare_other h⟩
    have hw := intervalCompare_leader h hp
    refine ⟨?_, ?_, ?_, fun _ => ⟨_, hw⟩⟩
    · rintro t rfl rfl hu
      rwa [compareInterval_goesOn hu] at hw
    · rintro t rfl rfl hu hb
      rwa [compareInterval_parts hu hb] at hw
    · rintro rfl
      exact hw

end Sys2Proof.Machine
end

section
/-! SUPPORT. The state after a cold reset (R10, R228, R369, R395): an agent that no map lists is its own reset, and
what a reset core and a reset thread read; O53 from these. -/

namespace Sys2Proof

/-- The empty map answers the default at every key. -/
@[simp] theorem SMap.get_nil {α : Type} (k : Nat) (d : α) : SMap.get [] k d = d := rfl

namespace Machine

/-- A memory with nothing listed reads 0 (log 2). -/
@[simp] theorem Mem.get_nil (a : Nat) : Mem.get [] a = 0 := SMap.get_nil a 0

/-! ### The agents of the reset package -/

@[simp] theorem State.reset_core (c : Nat) : State.reset.core c = Core.reset := SMap.get_nil c _

@[simp] theorem State.reset_ctx (x : Nat) : State.reset.ctx x = Context.reset := SMap.get_nil x _

@[simp] theorem Core.reset_thread (t : Nat) : Core.reset.thread t = Thread.reset := SMap.get_nil t _

@[simp] theorem State.reset_thread (c t : Nat) : State.reset.thread c t = Thread.reset := by
  rw [State.thread, State.reset_core, Core.reset_thread]

theorem State.reset_memoriesWf : State.reset.memoriesWf :=
  ⟨Mem.wf_nil, fun _ listed => absurd listed List.not_mem_nil⟩

/-! ### The registers of a thread slot after reset (R38, R227, log 3) -/

/-- x31 reads the number of payload words pushed, which is 0 too. -/
theorem Thread.reset_getX (n : Nat) : Thread.reset.getX n = 0 := by
  unfold Thread.getX
  split
  case isTrue => rfl
  case isFalse =>
    split
    case isTrue => rfl
    case isFalse => exact SMap.get_nil n 0

theorem Thread.reset_getV (n : Nat) : Thread.reset.getV n = 0 := SMap.get_nil n 0

/-- Mask register 0 is no register of the file: it reads all ones. -/
theorem Thread.reset_getK {n : Nat} (h : 0 < n) : Thread.reset.getK n = 0 :=
  (if_neg h.ne').trans (SMap.get_nil n 0)

/-- Settles O53: the package's own fields are those of State.reset, and every context, core and thread slot is its
reset, whose registers read as above. -/
theorem resetState : Obligations.ResetState := by
  refine ⟨State.reset_memoriesWf, rfl, fun x => ?live, rfl, rfl, rfl, rfl, rfl, rfl, rfl, rfl, rfl, fun c t => ?slots⟩
  case live =>
    rw [State.reset_ctx]
    rfl
  case slots =>
    rw [State.reset_core, State.reset_thread]
    exact ⟨rfl, rfl, rfl, rfl, Mem.get_nil, rfl, Thread.reset_getX, Thread.reset_getV, fun _ => Thread.reset_getK,
      rfl, rfl, rfl, rfl, rfl⟩

end Machine

end Sys2Proof
end

section
/-! SUPPORT. Words field by field (R24, R34, R36, R49 to R51): a word is the concatenation of its fields, so encoding
and decoding come down to equations between fields; O51, and O55 from it. -/

namespace Sys2Proof

/-! ### Fields of a word -/

theorem append_eq_iff {n m : Nat} {x : BitVec n} {y : BitVec m} {w : BitVec (n + m)} :
    x ++ y = w ↔ x = w.extractLsb' m n ∧ y = w.extractLsb' 0 m := by
  constructor
  · rintro rfl
    exact ⟨BitVec.extractLsb'_append_eq_left.symm, BitVec.extractLsb'_append_eq_right.symm⟩
  · rintro ⟨rfl, rfl⟩
    rw [BitVec.extractLsb'_append_extractLsb'_eq_extractLsb' (Nat.zero_add m).symm, BitVec.extractLsb'_eq_self]

/-- A field of a field is a field of the word. -/
theorem extractLsb'_extractLsb' {n s k t m : Nat} (w : BitVec n) (inside : t + m ≤ k) :
    (w.extractLsb' s k).extractLsb' t m = w.extractLsb' (s + t) m := by
  ext j hj
  simp only [BitVec.getElem_extractLsb', BitVec.getLsbD_extractLsb', Nat.add_assoc, Bool.and_eq_right_iff_imp,
    decide_eq_true_eq]
  omega

/-- What two fields side by side hold. -/
theorem append_eq_field_iff {w : BitVec 32} {s n m : Nat} {x : BitVec n} {y : BitVec m} :
    x ++ y = w.extractLsb' s (n + m) ↔ x = w.extractLsb' (s + m) n ∧ y = w.extractLsb' s m := by
  rw [append_eq_iff, extractLsb'_extractLsb' w (Nat.add_comm n m).ge, extractLsb'_extractLsb' w (by omega)]
  rfl

theorem ofNat_eq_append (n m v : Nat) :
    BitVec.ofNat (n + m) v = BitVec.ofNat n (v / 2 ^ m) ++ BitVec.ofNat m v := by
  apply BitVec.eq_of_toNat_eq
  rw [Laws.RowBits.cat_toNat, BitVec.toNat_ofNat, BitVec.toNat_ofNat, BitVec.toNat_ofNat, Nat.add_comm n m,
    Nat.pow_add, Nat.mod_mul, Nat.add_comm, Nat.mul_comm]

/-- A constant of the encoding that spans two fields the decoder reads apart, `n` bits over `m` bits from bit `s`. -/
theorem constant_eq_fields_iff {w : BitVec 32} (n m s v : Nat) : BitVec.ofNat (n + m) v = w.extractLsb' s (n + m) ↔
    BitVec.ofNat n (v / 2 ^ m) = w.extractLsb' (s + m) n ∧ BitVec.ofNat m v = w.extractLsb' s m := by
  rw [ofNat_eq_append, append_eq_field_iff]

theorem ofNat_eq_iff_toNat {n v : Nat} {x : BitVec n} : BitVec.ofNat n v = x ↔ x.toNat = v % 2 ^ n := by
  rw [← BitVec.toNat_inj, BitVec.toNat_ofNat, eq_comm]

/-- What is left of one bit, and of three, when the decoder has looked at the other values. -/
theorem toNat_eq_one_of_ne {x : BitVec 1} (h0 : ¬ x.toNat = 0) : x.toNat = 1 := by
  have := x.isLt
  omega

theorem toNat_eq_seven_of_ne {x : BitVec 3} (h0 : ¬ x.toNat = 0) (h1 : ¬ x.toNat = 1) (h2 : ¬ x.toNat = 2)
    (h3 : ¬ x.toNat = 3) (h4 : ¬ x.toNat = 4) (h5 : ¬ x.toNat = 5) (h6 : ¬ x.toNat = 6) : x.toNat = 7 := by
  have := x.isLt
  omega

/-! ### The instructions by where their words hold the operation -/

/-- Where a word holds its operation below the major: a branch's one bit, the low ten bits, the low six bits, or some
other field or none. TRET and TMODE have encodings of their own; the steps of other agents have no word. -/
inductive OpPlace where
  | branch | lowTen | lowSix | inside | irregular | none

def Instr.opPlace : Instr → OpPlace
  | .beq .. | .bne .. | .blt .. | .bge .. | .bltu .. | .bgeu .. | .jal .. | .jalr .. | .bkany .. | .bkall .. => .branch
  | .syscall | .wfi | .pair .. | .unpair .. | .tlbinv .. | .seedset .. | .cflush .. | .fork .. | .join ..
  | .tdone | .yield | .hbeat | .wfe .. | .sev .. | .binit .. | .barrive .. | .bwait .. | .bsync .. | .bcomb ..
  | .bswap .. | .bquery .. | .vlld .. | .vlst .. | .lgath .. | .xst .. | .vxst .. | .lamoadd .. | .lcas ..
  | .copy .. | .copy2d .. | .cstat .. | .fewait .. | .feset .. | .feclr .. | .subs .. | .unsubs .. | .sopen ..
  | .spop .. | .vspop .. | .sadv .. | .stend .. | .sfib .. | .sclose .. | .rtick .. | .rput .. | .rtake ..
  | .rrel .. | .kroute .. | .lwrd .. | .lwrdx .. | .lwpeek .. | .lwadd .. | .lwset .. | .lwinit .. | .lwdep ..
  | .lwnow .. | .lwstep .. | .lwsweep .. | .msend .. | .hend | .anxput .. | .anxend | .fence .. | .isync
  | .add .. | .sub .. | .and .. | .or .. | .xor .. | .sll .. | .srl .. | .sra .. | .mul .. | .mulh .. | .mulhu ..
  | .div .. | .divu .. | .rem .. | .remu .. | .min .. | .max .. | .minu .. | .maxu .. | .slt .. | .sltu ..
  | .sel .. | .clz .. | .ctz .. | .popc .. => .lowTen
  | .amoadd .. | .amoand .. | .amoor .. | .amoxor .. | .amomin .. | .amomax .. | .amominu .. | .amomaxu ..
  | .amoswap .. | .amofadd .. | .cas .. | .cas2 .. | .amoz .. | .vld .. | .vst .. | .vlds .. | .vsts ..
  | .vgath .. | .vscat .. | .vldp .. | .vstp .. | .pref .. | .czero .. | .fadd .. | .fsub .. | .fmul ..
  | .fdiv .. | .fsqrt .. | .fmin .. | .fmax .. | .fma .. | .fcmp .. | .fcvt .. | .fclass .. | .fsgn .. | .vadd ..
  | .vsub .. | .vmul .. | .vmulh .. | .vmin .. | .vmax .. | .vand .. | .vor .. | .vxor .. | .vshl .. | .vshr ..
  | .vsra .. | .vabs .. | .vcmp .. | .vsel .. | .vadds .. | .vfadd .. | .vfsub .. | .vfmul .. | .vfma ..
  | .vfmin .. | .vfmax .. | .vfcmp .. | .vfabs .. | .vfdot .. | .vcvt .. | .vquant .. | .vdeq .. | .vbcast ..
  | .vperm .. | .vslide .. | .viota .. | .vcompress .. | .vexpand .. | .vred .. | .vscan .. | .vtopk ..
  | .vzip .. | .vexp2 .. | .vlog2 .. | .vrcp .. | .vrsqrt .. | .vsin .. | .vtanh .. | .vsigm .. | .kand ..
  | .kor .. | .kxor .. | .knot .. | .kpopc .. | .kfirst .. | .kmov .. | .vmvx .. | .vmvs .. | .vmov ..
  | .tzero .. | .top .. | .tops .. | .trowst .. => .lowSix
  | .ldB .. | .ldBu .. | .ldH .. | .ldHu .. | .ldW .. | .ldWu .. | .ldD .. | .ldQ .. | .stB .. | .stH ..
  | .stW .. | .stD .. | .stQ .. | .lld .. | .lldWf .. | .lldWfc .. | .lst .. | .lstSf .. | .lstWesf .. | .srrd ..
  | .srwr .. | .srset .. | .srclr .. | .vx .. | .rep .. | .addi .. | .andi .. | .ori .. | .xori .. | .slli ..
  | .srli .. | .srai .. | .slti .. | .sltiu .. | .lui .. => .inside
  | .tret | .tmodeOn .. | .tmodeOff => .irregular
  | _ => .none

/-! ### The decoder reads the fields that the encoder wrote -/

theorem decodeFields_of_encode_branch {l : BitVec 1} {i : Instr} {w : BitVec 32} (place : i.opPlace = .branch)
    (h : encode l i = some w) : decodeFields w = .ok i := by
  unfold decodeFields decodeBk
  cases i <;> cases place
  all_goals
    have fields := append_eq_field_iff.1 ((Option.some.inj h).trans BitVec.extractLsb'_eq_self.symm)
    simp only [append_eq_field_iff, Nat.zero_add] at fields
    simp only [constant_eq_fields_iff 4 1 15, Nat.reduceAdd, Nat.reducePow, Nat.reduceDiv] at fields
    simp -iota only [← fields]
    rfl

theorem decodeFields_of_encode_lowTen {l : BitVec 1} {i : Instr} {w : BitVec 32} (place : i.opPlace = .lowTen)
    (h : encode l i = some w) : decodeFields w = .ok i := by
  unfold decodeFields decodeSys decodeTask decodeBarr decodeLvec decodeCopy decodeStrm decodeRing decodeLaw
    decodeMsg decodeOrd decodeInt
  cases i <;> cases place
  all_goals
    have fields := append_eq_field_iff.1 ((Option.some.inj h).trans BitVec.extractLsb'_eq_self.symm)
    simp only [append_eq_field_iff, Nat.zero_add] at fields
    simp only [constant_eq_fields_iff 6 25 0, constant_eq_fields_iff 15 10 0, constant_eq_fields_iff 10 10 0,
      constant_eq_fields_iff 6 5 20, constant_eq_fields_iff 5 10 0, constant_eq_fields_iff 6 3 22, Nat.reduceAdd,
      Nat.reducePow, Nat.reduceDiv, BitVec.reduceOfNat] at fields
    simp -iota only [← fields]
    rfl

theorem decodeFields_of_encode_lowSix {l : BitVec 1} {i : Instr} {w : BitVec 32} (place : i.opPlace = .lowSix)
    (h : encode l i = some w) : decodeFields w = .ok i := by
  unfold decodeFields decodeAtom decodeVmem decodeFp decodeVint decodeVfp decodeVcvt decodeVperm decodeVsfu
    decodeMask decodeVmov decodeTrel
  cases i <;> cases place
  all_goals
    have fields := append_eq_field_iff.1 ((Option.some.inj h).trans BitVec.extractLsb'_eq_self.symm)
    simp only [append_eq_field_iff, Nat.zero_add] at fields
    simp only [constant_eq_fields_iff 2 6 0, constant_eq_fields_iff 4 6 0, constant_eq_fields_iff 1 6 0,
      constant_eq_fields_iff 6 5 20, constant_eq_fields_iff 6 2 23, constant_eq_fields_iff 9 6 0,
      constant_eq_fields_iff 18 6 0, Nat.reduceAdd, Nat.reducePow, Nat.reduceDiv, BitVec.reduceOfNat] at fields
    simp -iota only [← fields]
    rfl

theorem decodeFields_of_encode_inside {l : BitVec 1} {i : Instr} {w : BitVec 32} (place : i.opPlace = .inside)
    (h : encode l i = some w) : decodeFields w = .ok i := by
  unfold decodeFields decodeLd decodeSt decodeLld decodeLst decodeSreg decodeShi
  cases i <;> cases place
  all_goals
    have fields := append_eq_field_iff.1 ((Option.some.inj h).trans BitVec.extractLsb'_eq_self.symm)
    simp only [append_eq_field_iff, Nat.zero_add] at fields
    simp only [constant_eq_fields_iff 5 3 12, constant_eq_fields_iff 1 6 25, constant_eq_fields_iff 2 7 6,
      Nat.reduceAdd, Nat.reducePow, Nat.reduceDiv, BitVec.reduceOfNat] at fields
    simp -iota only [← fields]
    rfl

theorem decodeFields_of_encode_irregular {l : BitVec 1} {i : Instr} {w : BitVec 32} (place : i.opPlace = .irregular)
    (h : encode l i = some w) : decodeFields w = .ok i := by
  cases i <;> cases place
  case tret =>
    cases h
    rfl
  all_goals
    cases h
    unfold decodeFields decodeTrel
    simp (disch := decide) only [BitVec.extractLsb'_append_eq_of_le, BitVec.extractLsb'_append_eq_of_add_le,
      Nat.reduceSub, BitVec.extractLsb'_eq_self, BitVec.reduceExtractLsb', BitVec.reduceToNat, BitVec.reduceEq,
      and_self, reduceIte]

/-! ### The encoder writes the fields that the decoder reads -/

theorem encode_of_decodeFields_decodeSys {i : Instr} {w : BitVec 32}
    (major : (w.extractLsb' 25 6).toNat = 0) (h : decodeFields w = .ok i)
    (lone : loneBitOk (w.extractLsb' 31 1) i = true) : encode (w.extractLsb' 31 1) i = some w := by
  simp only [decodeFields, major, decodeSys] at h
  repeat' split at h
  all_goals cases h
  case h_2.isTrue.refl minor zeros =>
    refine congrArg some (((constant_eq_fields_iff 1 31 0 2147483649).2 ⟨(beq_iff_eq.1 lone).symm, ?_⟩).trans
      BitVec.extractLsb'_eq_self)
    exact (constant_eq_fields_iff 6 25 0 1).2 ⟨ofNat_eq_iff_toNat.2 major,
      (constant_eq_fields_iff 15 10 0 1).2 ⟨zeros.symm, ofNat_eq_iff_toNat.2 minor⟩⟩
  all_goals
    refine congrArg some ((append_eq_field_iff.2 ?_).trans BitVec.extractLsb'_eq_self)
    simp only [append_eq_field_iff, Nat.zero_add]
    simp only [constant_eq_fields_iff 6 25 0, constant_eq_fields_iff 15 10 0, constant_eq_fields_iff 10 10 0,
      constant_eq_fields_iff 6 5 20, constant_eq_fields_iff 5 10 0, Nat.reduceAdd, Nat.reducePow, Nat.reduceDiv]
    simp only [ofNat_eq_iff_toNat, Nat.reducePow, Nat.reduceMod, and_self, *]

theorem encode_of_decodeFields_branch {i : Instr} {w : BitVec 32}
    (major : (w.extractLsb' 25 6).toNat ∈ [1, 2, 3, 4, 5, 6, 7, 8, 24]) (h : decodeFields w = .ok i)
    (lone : loneBitOk (w.extractLsb' 31 1) i = true) : encode (w.extractLsb' 31 1) i = some w := by
  simp only [List.mem_cons, List.not_mem_nil, or_false] at major
  rcases major with major | major | major | major | major | major | major | major | major <;>
    simp only [decodeFields, major, decodeBk] at h
  repeat' split at h
  all_goals cases h
  case' h_2.isTrue.refl others _ => have := toNat_eq_one_of_ne others
  all_goals
    refine congrArg some ((append_eq_field_iff.2 ?_).trans BitVec.extractLsb'_eq_self)
    simp only [append_eq_field_iff, Nat.zero_add]
    simp only [constant_eq_fields_iff 4 1 15, Nat.reduceAdd, Nat.reducePow, Nat.reduceDiv]
    simp only [ofNat_eq_iff_toNat, Nat.reducePow, Nat.reduceMod, and_self, *]

theorem encode_of_decodeFields_lowTen {i : Instr} {w : BitVec 32}
    (major : (w.extractLsb' 25 6).toNat ∈ [9, 10, 17, 18, 19, 20, 21, 22, 23, 32]) (h : decodeFields w = .ok i)
    (lone : loneBitOk (w.extractLsb' 31 1) i = true) : encode (w.extractLsb' 31 1) i = some w := by
  simp only [List.mem_cons, List.not_mem_nil, or_false] at major
  rcases major with major | major | major | major | major | major | major | major | major | major <;>
    simp only [decodeFields, major, decodeTask, decodeBarr, decodeLvec, decodeCopy, decodeStrm, decodeRing, decodeLaw,
      decodeMsg, decodeOrd, decodeInt] at h
  repeat' split at h
  all_goals cases h
  all_goals
    refine congrArg some ((append_eq_field_iff.2 ?_).trans BitVec.extractLsb'_eq_self)
    simp only [append_eq_field_iff, Nat.zero_add]
    simp only [constant_eq_fields_iff 6 25 0, constant_eq_fields_iff 15 10 0, constant_eq_fields_iff 10 10 0,
      constant_eq_fields_iff 6 5 20, constant_eq_fields_iff 5 10 0, constant_eq_fields_iff 6 3 22, Nat.reduceAdd,
      Nat.reducePow, Nat.reduceDiv, BitVec.reduceOfNat]
    simp only [ofNat_eq_iff_toNat, Nat.reducePow, Nat.reduceMod, and_self, *]

theorem encode_of_decodeFields_lowSix {i : Instr} {w : BitVec 32}
    (major : (w.extractLsb' 25 6).toNat ∈ [13, 14, 41, 42, 43, 44, 45, 46, 47, 48, 49]) (h : decodeFields w = .ok i)
    (lone : loneBitOk (w.extractLsb' 31 1) i = true) : encode (w.extractLsb' 31 1) i = some w := by
  simp only [List.mem_cons, List.not_mem_nil, or_false] at major
  rcases major with major | major | major | major | major | major | major | major | major | major | major <;>
    simp only [decodeFields, major, decodeAtom, decodeVmem, decodeFp, decodeVint, decodeVfp, decodeVcvt, decodeVperm,
      decodeVsfu, decodeMask, decodeVmov, decodeTrel] at h
  repeat' split at h
  all_goals cases h
  all_goals
    refine congrArg some ((append_eq_field_iff.2 ?_).trans BitVec.extractLsb'_eq_self)
    simp only [append_eq_field_iff, Nat.zero_add]
    simp only [constant_eq_fields_iff 2 6 0, constant_eq_fields_iff 4 6 0, constant_eq_fields_iff 1 6 0,
      constant_eq_fields_iff 6 5 20, constant_eq_fields_iff 6 2 23, constant_eq_fields_iff 9 6 0,
      constant_eq_fields_iff 6 25 0, constant_eq_fields_iff 18 6 0, constant_eq_fields_iff 19 6 0, Nat.reduceAdd,
      Nat.reducePow, Nat.reduceDiv, BitVec.reduceOfNat]
    simp only [ofNat_eq_iff_toNat, Nat.reducePow, Nat.reduceMod, and_self, *]

theorem encode_of_decodeFields_inside {i : Instr} {w : BitVec 32}
    (major : (w.extractLsb' 25 6).toNat ∈ [11, 12, 15, 16, 25, 30, 31, 33, 34, 35, 36, 37, 38, 39, 40])
    (h : decodeFields w = .ok i) (lone : loneBitOk (w.extractLsb' 31 1) i = true) :
    encode (w.extractLsb' 31 1) i = some w := by
  simp only [List.mem_cons, List.not_mem_nil, or_false] at major
  rcases major with major | major | major | major | major | major | major | major | major | major | major | major |
    major | major | major <;>
    simp only [decodeFields, major, decodeLd, decodeSt, decodeLld, decodeLst, decodeSreg, decodeShi] at h
  repeat' split at h
  all_goals cases h
  case' h_8.refl h0 h1 h2 h3 h4 h5 h6 => have := toNat_eq_seven_of_ne h0 h1 h2 h3 h4 h5 h6
  all_goals simp only [loneBitOk, beq_iff_eq] at lone
  all_goals
    refine congrArg some ((append_eq_field_iff.2 ?_).trans BitVec.extractLsb'_eq_self)
    simp only [append_eq_field_iff, Nat.zero_add]
    simp only [constant_eq_fields_iff 5 3 12, constant_eq_fields_iff 1 6 25, constant_eq_fields_iff 2 7 6,
      Nat.reduceAdd, Nat.reducePow, Nat.reduceDiv, BitVec.reduceOfNat]
    simp only [ofNat_eq_iff_toNat, Nat.reducePow, Nat.reduceMod, and_self, *]

/-! ### The decoder and the encoder agree -/

theorem decodeWord_eq_ok_iff {w : BitVec 32} {i : Instr} : decodeWord w = .ok i ↔
    decodeFields w = .ok i ∧ i.wellFormed = true ∧ loneBitOk (w.extractLsb' 31 1) i = true := by
  unfold decodeWord
  cases decodeFields w with
  | error e => simp
  | ok j =>
    constructor
    · intro h
      dsimp only at h
      split at h
      · cases h
      · split at h
        · cases h
        · cases h
          simp_all
    · rintro ⟨⟨⟩, formed, lone⟩
      simp [formed, lone]

/-- The encoder writes the lone bit that the decoder asks for. -/
theorem loneBitOk_of_encode {l : BitVec 1} {i : Instr} {w : BitVec 32} (h : encode l i = some w) :
    loneBitOk (w.extractLsb' 31 1) i = true := by
  unfold loneBitOk
  split
  case h_1 | h_2 =>
    have fields := append_eq_field_iff.1 ((Option.some.inj h).trans BitVec.extractLsb'_eq_self.symm)
    simp only [append_eq_field_iff, Nat.zero_add] at fields
    simp only [constant_eq_fields_iff 1 6 25, Nat.reduceAdd, Nat.reducePow, Nat.reduceDiv] at fields
    simp only [← fields]
    rfl
  case h_3 =>
    cases h
    rfl
  case h_4 => rfl

theorem decodeFields_of_encode {l : BitVec 1} {i : Instr} {w : BitVec 32} (h : encode l i = some w) :
    decodeFields w = .ok i := by
  cases place : i.opPlace with
  | branch => exact decodeFields_of_encode_branch place h
  | lowTen => exact decodeFields_of_encode_lowTen place h
  | lowSix => exact decodeFields_of_encode_lowSix place h
  | inside => exact decodeFields_of_encode_inside place h
  | irregular => exact decodeFields_of_encode_irregular place h
  | none => cases i <;> cases place <;> cases h

theorem decodeWord_of_encode {l : BitVec 1} {i : Instr} {w : BitVec 32} (formed : i.wellFormed = true)
    (h : encode l i = some w) : decodeWord w = .ok i :=
  decodeWord_eq_ok_iff.2 ⟨decodeFields_of_encode h, formed, loneBitOk_of_encode h⟩

/-- The majors that R49 assigns, in the groups of the lemmas above. -/
theorem major_of_decodeFields {i : Instr} {w : BitVec 32} (h : decodeFields w = .ok i) :
    (w.extractLsb' 25 6).toNat = 0 ∨ (w.extractLsb' 25 6).toNat ∈ [1, 2, 3, 4, 5, 6, 7, 8, 24] ∨
    (w.extractLsb' 25 6).toNat ∈ [9, 10, 17, 18, 19, 20, 21, 22, 23, 32] ∨
    (w.extractLsb' 25 6).toNat ∈ [13, 14, 41, 42, 43, 44, 45, 46, 47, 48, 49] ∨
    (w.extractLsb' 25 6).toNat ∈ [11, 12, 15, 16, 25, 30, 31, 33, 34, 35, 36, 37, 38, 39, 40] := by
  unfold decodeFields at h
  split at h
  case h_47 => cases h
  all_goals simp [*]

theorem encode_of_decodeFields {i : Instr} {w : BitVec 32} (h : decodeFields w = .ok i)
    (lone : loneBitOk (w.extractLsb' 31 1) i = true) : encode (w.extractLsb' 31 1) i = some w := by
  rcases major_of_decodeFields h with major | major | major | major | major
  · exact encode_of_decodeFields_decodeSys major h lone
  · exact encode_of_decodeFields_branch major h lone
  · exact encode_of_decodeFields_lowTen major h lone
  · exact encode_of_decodeFields_lowSix major h lone
  · exact encode_of_decodeFields_inside major h lone

theorem encode_of_decodeWord {i : Instr} {w : BitVec 32} (h : decodeWord w = .ok i) :
    encode (w.extractLsb' 31 1) i = some w := by
  obtain ⟨fields, -, lone⟩ := decodeWord_eq_ok_iff.1 h
  exact encode_of_decodeFields fields lone

/-- Settles O51: both ways the fields of the word are equated one by one, for each place of the operation. -/
theorem decodeAgreesWithEncode : Obligations.DecodeAgreesWithEncode :=
  ⟨fun _ _ _ => decodeWord_of_encode, fun _ _ => encode_of_decodeWord⟩

/-- Settles O55: each word listed is the encoding of the instruction named with it, so it decodes to it (O51). -/
theorem decodedWords : Obligations.DecodedWords := by
  have lone {i : Instr} {w : BitVec 32} := @decodeWord_of_encode 1#1 i w
  have paired {i : Instr} {w : BitVec 32} := @decodeWord_of_encode 0#1 i w
  exact ⟨lone rfl rfl, lone rfl rfl, lone rfl rfl, lone rfl rfl, lone rfl rfl, lone rfl rfl, lone rfl rfl,
    lone rfl rfl, paired rfl rfl, lone rfl rfl, lone rfl rfl, lone rfl rfl, lone rfl rfl, lone rfl rfl,
    lone rfl rfl, lone rfl rfl, lone rfl rfl, lone rfl rfl, lone rfl rfl, lone rfl rfl, paired rfl rfl⟩

end Sys2Proof
end

section
/-! SUPPORT. A word performs one effect under `run` (R32); O57 from its ends. -/

namespace Sys2Proof.Machine

/-- Every word but the two prefixes, which run another word, and SYSCALL, which ends in a state of its own. -/
def performsOneEffect : Instr → Prop
  | .vx .. | .rep .. | .syscall => False
  | _ => True

theorem exec_eq_run {l : BitVec 1} {i : Instr} {w : BitVec 32} (one : performsOneEffect i)
    (coded : encode l i = some w) (s : State) : ∃ m, exec i s = run i s m := by
  cases i <;> cases coded
  case vx | rep | syscall => exact one.elim
  all_goals
    unfold exec
    exact ⟨_, rfl⟩

/-- Settles O57: the ends of `run`. -/
theorem everyWordEndsInOneWay : Obligations.EveryWordEndsInOneWay := by
  intro s i w coded one
  obtain ⟨m, performs⟩ : ∃ m, exec i s = run i s m :=
    coded.elim (exec_eq_run one · s) (exec_eq_run one · s)
  simp only [Completes, Traps, Waits, performs]
  obtain ⟨illegal, trapped⟩ | ⟨legal, ends⟩ := run_ends i s m
  · exact ⟨fun _ => trapped, fun legal => absurd (illegal.symm.trans legal) Bool.false_ne_true⟩
  · refine ⟨fun illegal => absurd (illegal.symm.trans legal) Bool.false_ne_true, fun _ => ?_⟩
    obtain ⟨s', -, completed⟩ | ⟨c, a, d, -, -, trapped⟩ | ⟨v, -, -, waits⟩ | ⟨v, s', -, parked⟩ |
      ⟨a, s', -, refused⟩ | ⟨a, n, d, -, -, absent⟩ := ends
    · exact .inl ⟨s', completed⟩
    · exact .inr (.inl ⟨c, a, d, trapped⟩)
    · exact .inr (.inr (.inl ⟨v, waits⟩))
    · exact .inr (.inr (.inr (.inl ⟨s', v, parked⟩)))
    · exact .inr (.inr (.inr (.inr (.inl ⟨s', a, refused⟩))))
    · exact .inr (.inr (.inr (.inr (.inr ⟨a, n, d, absent⟩))))

end Sys2Proof.Machine
end

section
/-! SUPPORT. The rules of the scalar registers that are no plain registers, x30 and x31 (R38), and the words whose write
set includes x30; O1 from these. -/

namespace Sys2Proof.Machine

/-! ### x30 and x31 as operands -/

theorem readX_x30_payload {s : State} {a : Activation} {w : Word} {ws : List Word} (th : s.isTh = true)
    (running : s.myCore.act = some a) (left : a.left = w :: ws) :
    readX 30#5 s = .ok w (s.setMyCore { s.myCore with act := some { a with left := ws } }) := by
  simp [readX, popMq, th, running, left, M.map_run]

theorem readX_x30_overread {s : State} {a : Activation} (th : s.isTh = true) (running : s.myCore.act = some a)
    (left : a.left = []) : readX 30#5 s = .error (.trap .messageOverread 0 false) s := by
  simp [readX, popMq, th, running, left]

theorem readX_x30_idle {s : State} (th : s.isTh = true) (idle : s.myCore.act = none) :
    readX 30#5 s = .error (.trap .illegalInstruction 0 false) s := by
  simp [readX, popMq, th, idle]

theorem readX_x30_compute {s : State} (compute : s.isTh = false) :
    readX 30#5 s = .error (.trap .illegalInstruction 0 false) s := by
  simp [readX, popMq, compute]

theorem writeX_x30 (v : Word) (s : State) : writeX 30#5 v s = .error (.trap .illegalInstruction 0 false) s := rfl

/-- x31 takes a word while fewer than 31 are pushed, and a word that has sent them takes the next. -/
theorem writeX_x31_push {s : State} (room : s.me.mo.length < 31 ∨ s.issue.sent = true) (v : Word) :
    writeX 31#5 v s = .ok () (s.setMe { s.me with mo := s.me.mo ++ [v] }) := by
  simp [writeX, room]

theorem writeX_x31_full {s : State} (full : ¬ (s.me.mo.length < 31 ∨ s.issue.sent = true)) (v : Word) :
    writeX 31#5 v s = .error (.trap .messageOverflow 0 false) s := by
  simp [writeX, full]

/-! ### No well-formed word but SPOP writes x30 -/

theorem x30_ne_of_okX {d : BitVec 5} (h : okX d = true) : 30 ≠ xNum d := by
  revert d
  decide

theorem x30_ne_of_okPair {d : BitVec 5} (h : okPair d = true) : 30 ≠ xNum d := by
  revert d
  decide

theorem x30_ne_succ_of_okPair {d : BitVec 5} (h : okPair d = true) : 30 ≠ xNum (d + 1) := by
  revert d
  decide

theorem x30_notMem_quadRegs {z : BitVec 3} {d : BitVec 5} (h : (if z == 7#3 then okPair d else okX d) = true) :
    30 ∉ quadRegs z d := by
  unfold quadRegs
  by_cases hz : z = 7#3
  · rw [if_pos (beq_iff_eq.2 hz)] at h
    simp only [hz, if_true, List.mem_cons, x30_ne_of_okPair h, x30_ne_succ_of_okPair h, List.not_mem_nil, or_self,
      not_false_eq_true]
  · rw [if_neg (mt beq_iff_eq.1 hz)] at h
    simp [hz, x30_ne_of_okX h]

/-- The other namespaces are numbered from 32 (R31). -/
theorem x30_ne_vNum (d : BitVec 5) : 30 ≠ vNum d := by
  unfold vNum
  omega

theorem x30_ne_kNum (d : BitVec 5) : 30 ≠ kNum d := by
  unfold kNum
  omega

theorem x30_ne_mask (k : BitVec 3) : 30 ≠ 64 + k.toNat := by omega

theorem x30_ne_movedTo (k : BitVec 5) (d : BitVec 5) : 30 ≠ if k.toNat = 2 then vNum d else kNum d := by
  split
  · exact x30_ne_vNum d
  · exact x30_ne_kNum d

theorem x30_notMem_vRun (d : BitVec 5) (n : Nat) : 30 ∉ vRun d n := by
  simp only [vRun, List.mem_map, not_exists, not_and]
  omega

theorem x30_notMem_tileRun (first n : Nat) : 30 ∉ tileRun first n := by
  simp only [tileRun, List.mem_map, not_exists, not_and]
  omega

theorem x30_notMem_tiles (k : BitVec 1) (n : Nat) : 30 ∉ if k = 0 then tileRun 16 n else [] := by
  split
  · exact x30_notMem_tileRun 16 n
  · exact List.not_mem_nil

theorem wellFormed_of_legal {s : State} {i : Instr} (legal : legalHere s i = true) : i.wellFormed = true := by
  unfold legalHere at legal
  rw [Bool.and_assoc, Bool.and_eq_true] at legal
  exact legal.1

/-- R38: of the words that write a scalar register, SPOP alone is well formed with x30 among what it may write. -/
theorem x30_notMem_writeSet {th : Thread} {vc : BitVec 5} {i : Instr}
    (other : match i with | .spop .. => False | _ => True) (formed : i.wellFormed = true) :
    30 ∉ writeSet th vc i := by
  cases i
  case spop => exact other.elim
  all_goals
    unfold writeSet
    simp only [Instr.wellFormed, Bool.and_eq_true] at formed
    simp only [x30_ne_of_okX, x30_ne_of_okPair, x30_ne_succ_of_okPair, x30_notMem_quadRegs, x30_notMem_vRun,
      x30_notMem_tileRun, x30_notMem_tiles, x30_ne_vNum, x30_ne_kNum, x30_ne_mask, x30_ne_movedTo, List.mem_cons,
      List.not_mem_nil, or_self, not_false_eq_true, formed]

/-- Settles O1: the rules of the registers above, and the write sets of well-formed words. -/
theorem scalarOperandsFollowTheirRoles : Obligations.ScalarOperandsFollowTheirRoles := by
  refine ⟨readX_plain (by decide), readX_plain (by decide), fun s n nonzero below => ?plain,
    fun s a w ws th running left => readX_x30_payload th running left,
    fun s a th running left => readX_x30_overread th running left, fun s compute => readX_x30_compute compute,
    fun s v => writeX_plain (by decide) (by decide) v s, fun s n v nonzero below => ?written,
    fun s v room => writeX_x31_push (.inl room) v, fun s v fresh full => ?full, fun s v => writeX_x30 v s,
    fun s vc i other writes => ?illegal⟩
  case plain =>
    have h30 : n ≠ 30#5 := fun h => absurd below (h ▸ by decide)
    have h0 : n.toNat ≠ 0 := fun h => nonzero (BitVec.eq_of_toNat_eq h)
    rw [readX_plain h30, Thread.getX, if_neg h0, if_neg (by omega)]
  case written =>
    have h30 : n ≠ 30#5 := fun h => absurd below (h ▸ by decide)
    have h31 : n ≠ 31#5 := fun h => absurd below (h ▸ by decide)
    have h0 : n.toNat ≠ 0 := fun h => nonzero (BitVec.eq_of_toNat_eq h)
    rw [writeX_plain h30 h31, Thread.setX, if_neg h0]
  case full =>
    refine writeX_x31_full (fun room => ?_) v
    rcases room with room | sent
    · omega
    · exact Bool.false_ne_true (fresh.symm.trans sent)
  case illegal =>
    exact Bool.eq_false_iff.2 fun legal => x30_notMem_writeSet other (wellFormed_of_legal legal) writes

end Sys2Proof.Machine
end

section
/-! SUPPORT. Taking a trap never leaves the word completed (R32, R283, R366): what happens on the way leaves the issue
as it is, and the status says trapped or waiting. -/

namespace Sys2Proof.Machine

/-! ### What a trap sets off leaves the issue as it is -/

theorem foldl_issue {α : Type} {f : State → α → State} (h : ∀ s a, (f s a).issue = s.issue) :
    ∀ (as : List α) (s : State), (as.foldl f s).issue = s.issue
  | [], _ => rfl
  | a :: as, s => (foldl_issue h as (f s a)).trans (h s a)

theorem applyXlat_issue (s : State) (c x : Nat) (p : Xlat) : (applyXlat s c x p).issue = s.issue :=
  (sameThreads_applyXlat s c x p).2.1

theorem writePa_issue {s t : State} {seed : Word} {pa n v : Nat} (h : writePa s seed pa n v = some t) :
    t.issue = s.issue := (sameThreads_writePa h).2.1

theorem unitXlate_issue {s t : State} {who : Agent} {c x : Nat} {sup : Bool} {nd : Rights} {va : Nat} {p : Xlat}
    (h : unitXlate s who c x sup nd va = .ok (p, t)) : t.issue = s.issue := by
  unfold unitXlate at h
  split at h
  · cases h
  · cases h
    exact applyXlat_issue _ _ _ _

theorem unitReadAs_issue {nd : Rights} {who : Agent} {c x : Nat} {sup : Bool} :
    ∀ {ps : List (Nat × Nat)} {s t : State} {v : Nat}, unitReadAs nd s who c x sup ps = .ok (v, t) → t.issue = s.issue
  | [], s, t, v, h => by
    cases h
    rfl
  | (va, n) :: ps, s, t, v, h => by
    unfold unitReadAs at h
    split at h
    · cases h
    · next hx =>
      split at h
      · cases h
      · split at h
        · cases h
        · next hr =>
          cases h
          exact (unitReadAs_issue hr).trans (unitXlate_issue hx)

theorem unitWrite_issue {who : Agent} {c x : Nat} {sup : Bool} : ∀ (ps : List (Nat × Nat)) (s : State) (v : Nat),
    (unitWrite s who c x sup ps v).2.issue = s.issue
  | [], _, _ => rfl
  | (va, n) :: ps, s, v => by
    unfold unitWrite
    split
    · rfl
    · next hx =>
      split
      · exact unitXlate_issue hx
      · next hw => exact (unitWrite_issue ps _ _).trans ((writePa_issue hw).trans (unitXlate_issue hx))

theorem writeThrough_issue (s : State) (x va n : Nat) : (writeThrough s x va n).issue = s.issue := by
  refine foldl_issue (fun s p => ?_) _ s
  split
  · rfl
  · simp only
    split <;> rfl

theorem dispStore_issue {s t : State} {x va n v : Nat} (h : dispStore s x va n v = .ok t) : t.issue = s.issue := by
  unfold dispStore dispWrite at h
  have hw := unitWrite_issue (who := .other) (c := 768) (x := x) (sup := true) (partsOf va n) s v
  split at h
  · next hu =>
    cases h
    rw [hu] at hw
    exact (writeThrough_issue _ _ _ _).trans hw
  · cases h

theorem askQueuePage_issue (s : State) (x q va : Nat) : (askQueuePage s x q va).issue = s.issue := by
  unfold askQueuePage
  split
  · rfl
  · simp only
    split <;> rfl

theorem qStateDenied_issue (s : State) (x q : Nat) (ask : Bool) (d : Denied) :
    (qStateDenied s x q ask d).issue = s.issue := by
  unfold qStateDenied
  split
  · rfl
  · split
    · exact askQueuePage_issue _ _ _ _
    · rfl

theorem writeQState_issue (s : State) (x q : Nat) (ask : Bool) : (writeQState s x q ask).issue = s.issue := by
  unfold writeQState
  simp only
  split
  · exact qStateDenied_issue _ _ _ _ _
  · next hr =>
    split
    · exact qStateDenied_issue _ _ _ _ _
    · next hw => exact (dispStore_issue hw).trans (unitReadAs_issue hr)

theorem failQueue_issue (s : State) (x q va : Nat) : (failQueue s x q va).issue = s.issue := writeQState_issue _ _ _ _

theorem tryNotice_issue {s t : State} {x q : Nat} {ws : List Word} (h : tryNotice s x q ws = .written t) :
    t.issue = s.issue := by
  unfold tryNotice at h
  simp only at h
  split at h
  · cases h
  · next hr =>
    split at h
    · cases h
    · split at h
      · cases h
      · next hw =>
        split at h
        · cases h
        · next hn =>
          cases h
          exact (dispStore_issue hn).trans ((dispStore_issue hw).trans (unitReadAs_issue hr))

theorem holdNotices_issue (s : State) (x q : Nat) (ws : List (List Word)) (e : NoticeEnd) :
    (holdNotices s x q ws e).issue = s.issue := by
  unfold holdNotices
  simp only
  split
  · rfl
  · exact askQueuePage_issue _ _ _ _
  · exact failQueue_issue _ _ _ _
  · rfl

theorem putNotice_issue (s : State) (x q : Nat) (ws : List Word) : (putNotice s x q ws).issue = s.issue := by
  unfold putNotice
  simp only
  split
  · rfl
  · split
    · next hw => exact tryNotice_issue hw
    · exact holdNotices_issue _ _ _ _ _

theorem postNotice_issue (s : State) (x q c : Nat) (dead : Bool) (cause : BitVec 8) (ws : List Word) :
    (postNotice s x q c dead cause ws).2.issue = s.issue := putNotice_issue _ _ _ _

theorem askPage_issue (s : State) (x q core agent : Nat) (va : Word) (access : Nat) (asker : Asker) :
    (askPage s x q core agent va access asker).2.issue = s.issue := by
  unfold askPage
  simp only
  split
  · exact postNotice_issue _ _ _ _ _ _ _
  · rfl

/-! #### Faults and their containment -/

theorem stopLaunch_issue (s : State) (c : Nat) : (stopLaunch s c).issue = s.issue := by
  unfold stopLaunch
  split <;> rfl

theorem launchFault_issue (s : State) (c t : Nat) (cause : BitVec 8) (addr : Word) (errBit inner : Nat)
    (task : Option TaskRec) : (launchFault s c t cause addr errBit inner task).issue = s.issue := by
  unfold launchFault
  simp only
  split
  · exact postNotice_issue _ _ _ _ _ _ _
  · exact stopLaunch_issue _ _

theorem endStrand_issue (s : State) (c t : Nat) : (endStrand s c t).issue = s.issue := by
  unfold endStrand
  simp only
  split <;> rfl

theorem pushAgain_issue (s : State) (order d : Nat) (r : TaskRec) : (pushAgain s order d r).issue = s.issue := by
  unfold pushAgain
  split <;> rfl

theorem repushTask_issue {s t : State} {ld : LaunchDesc} {order c : Nat} {task : Option TaskRec}
    (h : repushTask s ld order c task = some t) : t.issue = s.issue := by
  obtain ⟨r, -, pushed⟩ := Option.bind_eq_some_iff.1 h
  split at pushed
  · cases pushed
  · obtain ⟨d, -, rfl⟩ := Option.map_eq_some_iff.1 pushed
    exact pushAgain_issue _ _ _ _

theorem threadFault_issue (s : State) (c t : Nat) (cause : Cause) (addr : Word) (errBit : Nat) :
    (threadFault s c t cause addr errBit).issue = s.issue := by
  have ended : ((endStrand s c t).emit (.workSearch c t)).issue = s.issue := endStrand_issue s c t
  unfold threadFault
  simp only
  split
  · next s' again =>
    have pushed : s'.issue = s.issue := by
      split at again
      · obtain ⟨b, -, repushed⟩ := Option.bind_eq_some_iff.1 again
        exact (repushTask_issue repushed).trans ended
      · cases again
    split
    · exact (launchFault_issue _ _ _ _ _ _ _ _).trans ended
    · exact pushed
  · exact (launchFault_issue _ _ _ _ _ _ _ _).trans ended

/-! #### Faults of the handler thread -/

theorem endCopies_issue (s : State) (slice sector : Nat) : (endCopies s slice sector).issue = s.issue := by
  unfold endCopies passLease
  split <;> rfl

theorem undoHolds_issue (s : State) (who : Agent) : (undoHolds s who).issue = s.issue := by
  refine foldl_issue (fun s h => ?_) _ s
  simp only
  split <;> exact endCopies_issue _ _ _

theorem nudgeStop_issue (s : State) (c : Nat) : (nudgeStop s c).issue = s.issue := by
  unfold nudgeStop
  split <;> rfl

theorem rollback_issue (s : State) (c : Nat) (a : Activation) : (rollback s c a).issue = s.issue :=
  (nudgeStop_issue _ _).trans (undoHolds_issue _ _)

theorem dropActivation_issue (s : State) (c : Nat) : (dropActivation s c).issue = s.issue := nudgeStop_issue _ _

theorem handlerFault_issue (s : State) (c : Nat) (cause : Cause) : (handlerFault s c cause).issue = s.issue := by
  unfold handlerFault deadNotice
  split
  · exact endStrand_issue _ _ _
  · simp only
    split
    · split
      · exact dropActivation_issue _ _
      · split <;> exact rollback_issue _ _ _
    · split
      · exact (launchFault_issue _ _ _ _ _ _ _ _).trans (dropActivation_issue _ _)
      · split <;> exact rollback_issue _ _ _
    · split
      · exact (launchFault_issue _ _ _ _ _ _ _ _).trans (dropActivation_issue _ _)
      · split
        · split
          · exact rollback_issue _ _ _
          · exact (launchFault_issue _ _ _ _ _ _ _ _).trans (rollback_issue _ _ _)
        · exact rollback_issue _ _ _

/-! #### Frames -/

theorem addHold_issue (s : State) (who : Agent) (slice sector : Nat) :
    (addHold s who slice sector).issue = s.issue := by
  unfold addHold
  split <;> rfl

/-- Storing the parts of a range in order. -/
theorem storeRange_issue {seed : Word} : ∀ (ps : List ((Nat × Nat) × Xlat)) (o : Option (State × Nat)) {s : State}
    {r : State × Nat}, (∀ q, o = some q → q.1.issue = s.issue) →
    ps.foldl (fun (o : Option (State × Nat)) px => o.bind fun (s, v) =>
      (writePa s seed px.2.pa px.1.2 v).map fun s' => (s', v / 256 ^ px.1.2)) o = some r → r.1.issue = s.issue
  | [], _, _, _, before, h => before _ h
  | p :: ps, o, s, r, before, h => by
    refine storeRange_issue ps _ (fun q stored => ?_) h
    obtain ⟨q', old, written⟩ := Option.bind_eq_some_iff.1 stored
    obtain ⟨t, wrote, rfl⟩ := Option.map_eq_some_iff.1 written
    exact (writePa_issue wrote).trans (before q' old)

theorem frameWrite_issue {s t : State} {c x va n v : Nat} (h : frameWrite s c x va n v = .written t) :
    t.issue = s.issue := by
  unfold frameWrite at h
  simp only at h
  split at h
  · cases h
  · split at h
    · cases h
    · cases h
    · next xs _ =>
      have translated : (xs.foldl (fun s p => applyXlat s c x p) s).issue = s.issue :=
        foldl_issue (fun s p => applyXlat_issue s c x p) xs s
      split at h
      · cases h
      · split at h
        · next stored =>
          cases h
          refine storeRange_issue _ _ (fun q begun => ?_) stored
          cases begun
          simp only
          split
          · exact translated
          · exact (foldl_issue (fun s p => addHold_issue _ _ _ _) xs _).trans translated
        · cases h

/-! ### How a trap ends -/

theorem takeTrap_status (s : State) (cause : Cause) (addr : Word) (d : Bool) :
    (takeTrap s cause addr d).issue.status ≠ .done := by
  unfold takeTrap takeTrapAt
  simp only
  split
  · rw [handlerFault_issue]
    exact nofun
  · split
    · exact nofun
    · split
      · split
        · next written => exact fun h => nomatch (congrArg Issue.status (frameWrite_issue written)).symm.trans h
        · exact nofun
        · split
          · rw [threadFault_issue]
            exact nofun
          · exact nofun
        · rw [threadFault_issue]
          exact nofun
      · rw [threadFault_issue]
        exact nofun

end Sys2Proof.Machine
end

section
/-! SUPPORT. What a word of scalar registers leaves as it was (R28, R38, R39, R71): each step of its effect, said once;
O58 and O29 from these. -/

namespace Sys2Proof.Machine

/-! ### What the steps of such a word have in common -/

/-- Between s and t the issuing thread has changed its scalar registers, among those below x31 none but ds, its pushed
payload, its pc and its wait only, its activation has read payload, and where it rounds FFLAGS has gained flags and SEED
has moved on. -/
structure LeftAlone (ds : List Nat) (rounds : Bool) (s t : State) : Prop where
  package : t = { s with cores := t.cores, issue := t.issue }
  others : ∀ c, c ≠ s.cid → t.core c = s.core c
  core : t.myCore = { s.myCore with threads := t.myCore.threads, act := t.myCore.act }
  act : ∀ a, s.myCore.act = some a → ∃ l, t.myCore.act = some { a with left := l }
  threads : ∀ u, u ≠ s.tid → t.thread s.cid u = s.thread s.cid u
  me : t.me = { s.me with
    x := t.me.x, mo := t.me.mo, pc := t.me.pc, wait := t.me.wait, progress := t.me.progress, fflags := t.me.fflags,
    seed := t.me.seed }
  regs : ∀ n, n < 31 → n ∉ ds → t.me.getX n = s.me.getX n
  payload : 31 ∉ ds → t.me.mo = s.me.mo
  flags : if rounds then s.me.fflags &&& t.me.fflags = s.me.fflags
    else t.me.fflags = s.me.fflags ∧ t.me.seed = s.me.seed

variable {ds : List Nat} {rounds : Bool} {s t u : State}

theorem LeftAlone.cur (h : LeftAlone ds rounds s t) : t.cur = s.cur := by
  rw [h.package]

theorem LeftAlone.refl : LeftAlone ds rounds s s where
  package := rfl
  others _ _ := rfl
  core := rfl
  act a h := ⟨a.left, h⟩
  threads _ _ := rfl
  me := rfl
  regs _ _ _ := rfl
  payload _ := rfl
  flags := by cases rounds <;> simp

theorem LeftAlone.trans (h : LeftAlone ds rounds s t) (k : LeftAlone ds rounds t u) : LeftAlone ds rounds s u where
  package := by
    rw [k.package, h.package]
  others c hc := by
    have other : c ≠ t.cid := by rwa [State.cid, h.cur]
    rw [k.others c other, h.others c hc]
  core := by
    rw [k.core, h.core]
  act a ha := by
    obtain ⟨l, hl⟩ := h.act a ha
    obtain ⟨l', hl'⟩ := k.act _ hl
    exact ⟨l', hl'⟩
  threads v hv := by
    have other : v ≠ t.tid := by rwa [State.tid, h.cur]
    have same := k.threads v other
    rw [State.cid, h.cur] at same
    rw [State.cid, same, ← State.cid, h.threads v hv]
  me := by
    rw [k.me, h.me]
  regs n hn hd := (k.regs n hn hd).trans (h.regs n hn hd)
  payload hd := (k.payload hd).trans (h.payload hd)
  flags := by
    have hf := h.flags
    have kf := k.flags
    cases rounds with
    | false => exact ⟨kf.1.trans hf.1, kf.2.trans hf.2⟩
    | true =>
      simp only [if_true] at hf kf ⊢
      rw [← hf, BitVec.and_assoc, kf]

theorem State.myCore_setMe (s : State) (th : Thread) : (s.setMe th).myCore = s.myCore.setThread s.tid th :=
  State.core_setCore _ _ _

/-- The issuing thread changes, in those respects alone. -/
theorem LeftAlone.setMe {th : Thread}
    (me : th = { s.me with
      x := th.x, mo := th.mo, pc := th.pc, wait := th.wait, progress := th.progress, fflags := th.fflags,
      seed := th.seed })
    (regs : ∀ n, n < 31 → n ∉ ds → th.getX n = s.me.getX n) (payload : 31 ∉ ds → th.mo = s.me.mo)
    (flags : if rounds then s.me.fflags &&& th.fflags = s.me.fflags
      else th.fflags = s.me.fflags ∧ th.seed = s.me.seed) : LeftAlone ds rounds s (s.setMe th) where
  package := rfl
  others _ hc := State.core_setCore_ne _ _ hc
  core := by
    rw [s.myCore_setMe th]
    rfl
  act a ha := by
    rw [s.myCore_setMe th]
    exact ⟨a.left, ha⟩
  threads v hv := by
    show (s.setMe th).myCore.thread v = _
    rw [s.myCore_setMe th, Core.thread_setThread_ne _ _ hv]
    rfl
  me := by rw [State.me_setMe, ← me]
  regs n hn hd := by rw [State.me_setMe, regs n hn hd]
  payload hd := by rw [State.me_setMe, payload hd]
  flags := by rw [State.me_setMe]; exact flags

/-- The activation reads payload. -/
theorem LeftAlone.setLeft {a : Activation} (running : s.myCore.act = some a) (l : List Word) :
    LeftAlone ds rounds s (s.setMyCore { s.myCore with act := some { a with left := l } }) := by
  have mine : (s.setMyCore { s.myCore with act := some { a with left := l } }).myCore =
      { s.myCore with act := some { a with left := l } } := State.core_setCore _ _ _
  have me : (s.setMyCore { s.myCore with act := some { a with left := l } }).me = s.me := State.me_setMyCore _ _
  exact {
    package := rfl
    others := fun _ hc => State.core_setCore_ne _ _ hc
    core := by rw [mine]
    act := fun b hb => ⟨l, by rw [mine, Option.some.inj (running.symm.trans hb)]⟩
    threads := fun v _ => by
      show ((s.setMyCore _).myCore).thread v = _
      rw [mine]
      rfl
    me := by rw [me]
    regs := fun _ _ _ => by rw [me]
    payload := fun _ => by rw [me]
    flags := by
      rw [me]
      exact (LeftAlone.refl (ds := ds)).flags }

/-! ### The steps of such a word -/

/-- The effect changes scalar registers only, those below x31 none but ds, or traps. -/
def ScalarEffect {α : Type} (ds : List Nat) (rounds : Bool) (m : M α) : Prop :=
  ∀ s, match m s with
    | .ok _ t => LeftAlone ds rounds s t
    | .error e _ => ∃ c a d, e = .trap c a d

theorem scalarEffect_bind {α β : Type} {m : M α} {f : α → M β} (hm : ScalarEffect ds rounds m)
    (hf : ∀ a, ScalarEffect ds rounds (f a)) : ScalarEffect ds rounds (m >>= f) := by
  intro s
  have first := hm s
  rw [M.bind_run]
  cases h : m s with
  | error e t =>
    rw [h] at first
    exact first
  | ok a t =>
    rw [h] at first
    have second := hf a t
    cases k : f a t with
    | error e u =>
      rw [k] at second
      simpa [k] using second
    | ok b u =>
      rw [k] at second
      simpa [k] using first.trans second

theorem scalarEffect_get : ScalarEffect ds rounds (get : M State) := fun _ => .refl

theorem scalarEffect_readX (n : BitVec 5) : ScalarEffect ds rounds (readX n) := by
  intro s
  by_cases hn : n = 30#5
  · subst hn
    cases th : s.isTh with
    | false =>
      rw [readX_x30_compute th]
      exact ⟨_, _, _, rfl⟩
    | true =>
      cases running : s.myCore.act with
      | none =>
        rw [readX_x30_idle th running]
        exact ⟨_, _, _, rfl⟩
      | some a =>
        cases left : a.left with
        | nil =>
          rw [readX_x30_overread th running left]
          exact ⟨_, _, _, rfl⟩
        | cons w ws =>
          rw [readX_x30_payload th running left]
          exact .setLeft running ws
  · rw [readX_plain hn]
    exact .refl

theorem scalarEffect_writeX (d : BitVec 5) (v : Word) : ScalarEffect [d.toNat] rounds (writeX d v) := by
  intro s
  by_cases h30 : d = 30#5
  · subst h30
    exact ⟨_, _, _, rfl⟩
  · by_cases h31 : d = 31#5
    · subst h31
      by_cases room : s.me.mo.length < 31 ∨ s.issue.sent = true
      · rw [writeX_x31_push room]
        exact .setMe rfl (fun n hn _ => by simp only [Thread.getX, hn.ne, if_false])
          (fun h => absurd (List.mem_singleton_self _) h) (LeftAlone.refl (ds := [])).flags
      · rw [writeX_x31_full room]
        exact ⟨_, _, _, rfl⟩
    · rw [writeX_plain h30 h31]
      refine .setMe ?me (fun n hn hds => ?regs) (fun _ => Thread.setX_mo _ _ _) ?flags
      case me =>
        unfold Thread.setX
        split <;> rfl
      case regs =>
        have other : ¬ (n = d.toNat ∧ d.toNat ≠ 0) := fun h => hds (List.mem_singleton.2 h.1)
        rw [Thread.getX_setX _ _ hn.ne, if_neg other]
      case flags =>
        rw [Thread.setX_fflags, Thread.setX_seed]
        exact (LeftAlone.refl (ds := [])).flags

/-- Flags are ORed in: none is cleared (R71). -/
theorem and_or_self_eq (x y : Word) : x &&& (x ||| y) = x := by
  ext i hi
  rw [BitVec.getElem_and, BitVec.getElem_or]
  cases x[i] <;> rfl

theorem scalarEffect_liftF {α : Type} (f : F α) : ScalarEffect ds true (liftF f) := by
  intro s
  rw [liftF_run]
  exact .setMe rfl (fun _ _ _ => rfl) (fun _ => rfl) (and_or_self_eq _ _)

theorem scalarEffect_intOp (d a b : BitVec 5) (f : Word → Word → Word) :
    ScalarEffect [d.toNat] false (intOp d a b f) :=
  scalarEffect_bind (scalarEffect_readX a) fun _ => scalarEffect_bind (scalarEffect_readX b) fun _ =>
    scalarEffect_writeX d _

theorem scalarEffect_intUn (d a : BitVec 5) (f : Word → Word) : ScalarEffect [d.toNat] false (intUn d a f) :=
  scalarEffect_bind (scalarEffect_readX a) fun _ => scalarEffect_writeX d _

/-- What a floating-point word does with its result. -/
theorem scalarEffect_liftWrite {α : Type} (d : BitVec 5) (f : F α) (g : α → Word) :
    ScalarEffect [d.toNat] true (liftF f >>= fun r => writeX d (g r)) :=
  scalarEffect_bind (scalarEffect_liftF f) fun _ => scalarEffect_writeX d _

theorem scalarEffect_fpBin (d a b : BitVec 5) (p : BitVec 2) (f : Val → Val → Nat → F Val) :
    ScalarEffect [d.toNat] true (fpBin d a b p f) :=
  scalarEffect_bind (scalarEffect_readX a) fun _ => scalarEffect_bind (scalarEffect_readX b) fun _ =>
    scalarEffect_bind scalarEffect_get fun _ => scalarEffect_liftWrite d _ _

theorem scalarEffect_fpRaw (d a b : BitVec 5) (p : BitVec 2) (f : Fmt → Nat → Nat → F Nat) :
    ScalarEffect [d.toNat] true (fpRaw d a b p f) :=
  scalarEffect_bind (scalarEffect_readX a) fun _ => scalarEffect_bind (scalarEffect_readX b) fun _ =>
    scalarEffect_liftWrite d _ _

/-! ### Such a word completes -/

theorem LeftAlone.setIssue (i : Issue) : LeftAlone ds rounds s { s with issue := i } where
  package := rfl
  others _ _ := rfl
  core := rfl
  act a h := ⟨a.left, h⟩
  threads _ _ := rfl
  me := rfl
  regs _ _ _ := rfl
  payload _ := rfl
  flags := (LeftAlone.refl (ds := ds)).flags

theorem complete_me (s : State) : (complete s).me =
    { s.me with pc := s.issue.next.getD s.fall, wait := .none, progress := none } := State.me_setMe _ _

theorem LeftAlone.complete : LeftAlone ds rounds s (complete s) :=
  (LeftAlone.setMe (th := { s.me with pc := s.issue.next.getD s.fall, wait := .none, progress := none }) rfl
    (fun _ _ _ => rfl) (fun _ => rfl) (LeftAlone.refl (ds := ds)).flags).trans (.setIssue _)

theorem LeftAlone.sameMemory (h : LeftAlone ds rounds s t) : SameMemory s t [] := by
  refine ⟨fun seed pa => ?_, fun c _ => ?_⟩
  · rw [h.package]
    rfl
  · by_cases hc : c = s.cid
    · subst hc
      have mine : t.myCore = t.core s.cid := congrArg t.core (congrArg Prod.fst h.cur)
      rw [← mine, h.core]
      rfl
    · rw [h.others c hc]

/-- Only a word that completes ends so, and such a word changes scalar registers only. -/
theorem leavesTheRest_of_effect {i : Instr}
    (performs : ∀ s, ∃ m, exec i s = run i s m ∧ ScalarEffect ds rounds m) : LeavesTheRest i ds rounds := by
  intro s t ran ended
  obtain ⟨m, performed, effect⟩ := performs s
  rw [performed] at ran
  have left := effect s
  have done : ∃ u, LeftAlone ds rounds s u ∧ t = complete u := by
    unfold run at ran
    split at ran
    · cases h : m s with
      | ok a u =>
        rw [h] at ran left
        cases ran
        exact ⟨u, left, rfl⟩
      | error e u =>
        rw [h] at ran left
        obtain ⟨c, a, d, rfl⟩ := left
        cases ran
        exact absurd ended (takeTrap_status _ _ _ _)
    · cases ran
      exact absurd ended (takeTrap_status _ _ _ _)
  obtain ⟨u, left, rfl⟩ := done
  have all := left.trans (LeftAlone.complete (s := u))
  have me := all.me
  rw [complete_me] at me
  refine ⟨all.package, all.sameMemory, all.others, all.core, all.act, all.threads, ?_, all.regs, all.payload, all.flags⟩
  rw [complete_me]
  exact me

/-- Settles O58: every step of these words leaves the rest alone, and no other end of a word says that it completed. -/
theorem registerWordsLeaveTheRest : Obligations.RegisterWordsLeaveTheRest := by
  refine ⟨fun d a b i hi => ?int, fun d a k n u i hi => ?imm, fun d a b k p i hi => ?float⟩
  all_goals simp only [List.mem_cons, List.not_mem_nil, or_false] at hi
  case int =>
    rcases hi with rfl | rfl | rfl | rfl | rfl | rfl | rfl | rfl | rfl | rfl | rfl | rfl | rfl | rfl | rfl | rfl | rfl |
      rfl | rfl | rfl | rfl | rfl | rfl | rfl | rfl
    all_goals
      refine leavesTheRest_of_effect fun s => ?_
      unfold exec
      exact ⟨_, rfl, by simp only [scalarEffect_intOp, scalarEffect_intUn]⟩
  case imm =>
    rcases hi with rfl | rfl | rfl | rfl | rfl | rfl | rfl | rfl | rfl | rfl
    all_goals
      refine leavesTheRest_of_effect fun s => ?_
      unfold exec
      exact ⟨_, rfl, by simp only [scalarEffect_intUn, scalarEffect_writeX]⟩
  case float =>
    rcases hi with rfl | rfl | rfl | rfl | rfl | rfl | rfl | rfl | rfl | rfl | rfl | rfl
    all_goals
      refine leavesTheRest_of_effect fun s => ?_
      unfold exec
      exact ⟨_, rfl, by simp only [scalarEffect_fpBin, scalarEffect_fpRaw, scalarEffect_bind, scalarEffect_readX,
        scalarEffect_liftF, scalarEffect_liftWrite, scalarEffect_writeX, implies_true]⟩

/-- Settles O29: the thread after completing, and what completing leaves alone. -/
theorem completionAdvancesThePc : Obligations.CompletionAdvancesThePc := by
  intro s
  have left := LeftAlone.complete (ds := []) (rounds := false) (s := s)
  rw [complete_me]
  exact ⟨rfl, rfl, fun _ => rfl, rfl, rfl, fun t other => left.threads t other,
    fun c => left.sameMemory.2 c List.not_mem_nil, left.sameMemory.1⟩

end Sys2Proof.Machine
end

section
/-! SUPPORT. The prefixes VX and REP (R42 to R48): where each is illegal, and what its A word does under it; O34 from
these. -/

namespace Sys2Proof.Machine

/-! ### VX -/

theorem execVx_illegal {s : State} (h : s.issue.lone = true ∨ s.isTh = true) (k : BitVec 3) (z : BitVec 1)
    (m : BitVec 3) (c : BitVec 5) : execVx k z m c s = .next (takeTrap s .illegalInstruction 0 false) := by
  unfold execVx
  rw [if_pos (by simpa using h)]

/-- The state in which the A word of VX executes. -/
def State.underVx (s : State) (k : BitVec 3) (z : BitVec 1) (m : BitVec 3) (c : BitVec 5) : State :=
  { s with issue := { s.issue with slotA := true, vx := some ⟨k, z == 1#1, m, c⟩ } }

theorem execVx_pair {s : State} {i : Instr} (pair : s.issue.lone = false) (compute : s.isTh = false)
    (word : decodeWord s.issue.w1 = .ok i) (k : BitVec 3) (z : BitVec 1) (m : BitVec 3) (c : BitVec 5) :
    execVx k z m c s = runA i (s.underVx k z m c) := by
  have word' : (s.underVx k z m c).aWord = .ok i := word
  unfold execVx
  rw [if_neg (by simp [pair, compute])]
  show (match (s.underVx k z m c).aWord with
    | .ok i => runA i (s.underVx k z m c)
    | .error _ => .next (takeTrap (s.underVx k z m c) .illegalInstruction 0 false)) = _
  rw [word']

/-- A vector computation of elements without flags and draws writes vd alone. -/
theorem vecMap_pure {α : Type} (d : BitVec 5) (w : Nat) (xs : List α) (g : α → Nat) (s : State) :
    ∃ v, vecMap d w xs (fun x => pure (g x)) s = .ok () (s.setMe (s.me.setV d.toNat v)) := by
  refine ⟨vPack w (((maskBits (lanes w) s.vmask.toNat).zip (xs.zip (vElems w (s.me.getV d.toNat)))).map fun p =>
    if p.1 then g p.2.1 else if s.vzero then 0 else p.2.2), ?_⟩
  rw [vecMap_run, masked_pure]
  have unflagged : s.me.fflags ||| word 0 = s.me.fflags := BitVec.or_zero
  simp only [unflagged]
  rfl

theorem execVadd_completes {s : State} {d a b : BitVec 5} {t : BitVec 4} (legal : legalHere s (.vadd d a b t) = true) :
    ∃ v, execVadd d a b t s = .next (complete (s.setMe (s.me.setV d.toNat v))) := by
  obtain ⟨v, computed⟩ := vecMap_pure d (typeWidth t)
    ((vElems (typeWidth t) (s.me.getV a.toNat)).zip (vElems (typeWidth t) (s.me.getV b.toNat)))
    (fun p => (p.1 + p.2) % 2 ^ typeWidth t) s
  exact ⟨v, run_ok legal computed⟩

/-! ### REP -/

/-- The instruction of repetition j under REP's three steps. -/
def repetition (s : State) (d a b : BitVec 2) (j : Nat) : Option Instr := repInstr s j (stepOf d) (stepOf a) (stepOf b)

/-- The state in which an A word of REP executes. -/
def State.underRep (s : State) : State := { s with issue := { s.issue with slotA := true } }

theorem execRep_illegal {s : State} {n : BitVec 6} {d a b : BitVec 2}
    (h : s.issue.lone = true ∨ ∃ j, j ≤ n.toNat ∧ repetition s d a b j = none) :
    execRep n d a b s = .next (takeTrap s .illegalInstruction 0 false) := by
  refine if_pos ?_
  rw [Bool.or_eq_true, Bool.not_eq_true', List.all_eq_false]
  refine h.imp id ?_
  rintro ⟨j, inside, broken⟩
  refine ⟨j, List.mem_range.2 (Nat.lt_succ_of_le inside), ?_⟩
  show ¬ (repetition s d a b j).isSome = true
  rw [broken]
  exact Bool.false_ne_true

/-- A repetition whose A word completes: the next one is at the pair, or the pair is passed (R46). -/
theorem execRep_repetition {s t : State} {n : BitVec 6} {d a b : BitVec 2} {i : Instr} (pair : s.issue.lone = false)
    (whole : ∀ j, j ≤ n.toNat → repetition s d a b j ≠ none) (inside : s.me.rep ≤ n.toNat)
    (current : repetition s d a b s.me.rep = some i) (completes : runA i s.underRep = .next (complete t)) :
    execRep n d a b s = .next (
      if s.me.rep < n.toNat then (complete t).setMe { (complete t).me.setTstat 21 16 (s.me.rep + 1) with pc := s.me.pc }
      else (complete t).setMe ((complete t).me.setTstat 21 16 0)) := by
  have legal : ¬ ((s.issue.lone || !((List.range (n.toNat + 1)).all fun j => (repetition s d a b j).isSome)) = true) := by
    rw [pair, Bool.false_or, Bool.not_eq_true', List.all_eq_false]
    rintro ⟨j, hj, broken⟩
    exact whole j (Nat.le_of_lt_succ (List.mem_range.1 hj)) (Option.not_isSome_iff_eq_none.1 broken)
  have more : ¬ n.toNat + 1 ≤ s.me.rep := by omega
  refine (if_neg legal).trans ((if_neg more).trans ?_)
  show (match repetition s d a b s.me.rep with
    | none => Host.Outcome.next (takeTrap s .illegalInstruction 0 false)
    | some j => match runA j s.underRep with
      | .next s' => .next (if s'.issue.status = IssueStatus.done then afterRep s.me.pc s.me.rep (n.toNat + 1) s' else s')
      | o => o) = _
  rw [current]
  show (match runA i s.underRep with
      | .next s' => Host.Outcome.next (
          if s'.issue.status = IssueStatus.done then afterRep s.me.pc s.me.rep (n.toNat + 1) s' else s')
      | o => o) = _
  rw [completes]
  simp only [complete_status, if_true, afterRep, Nat.add_lt_add_iff_right]

theorem execAdd_plain {s : State} {d a b : BitVec 5} (hd : d.toNat < 30) (ha : a.toNat < 30) (hb : b.toNat < 30)
    (legal : legalHere s (.add d a b) = true) :
    execAdd d a b s = .next (complete (s.setMe (s.me.setX d.toNat (s.me.getX a.toNat + s.me.getX b.toNat)))) := by
  have plain : ∀ {r n : BitVec 5}, r.toNat < 30 → 30 ≤ n.toNat → r ≠ n := fun below above e => by
    subst e
    omega
  refine run_ok legal ?_
  unfold intOp
  rw [M.bind_ok (readX_plain (plain ha (by decide)) s), M.bind_ok (readX_plain (plain hb (by decide)) s)]
  exact writeX_plain (plain hd (by decide)) (plain hd (by decide)) _ s

/-- Settles O34: the lemmas on both prefixes, and that VADD and ADD complete. -/
theorem prefixedWords : Obligations.PrefixedWords := by
  refine ⟨fun s k m z c => ⟨fun h => execVx_illegal h k z m c, fun pair compute => ⟨fun i t word completes => ?vx,
    fun d a b ty word legal => ?vadd⟩⟩, fun s n d a b => ⟨fun h => execRep_illegal h, fun pair whole inside =>
    ⟨fun i t current completes => execRep_repetition pair whole inside current completes,
      fun e f g current he hf hg legal => ⟨_, rfl, ?add⟩⟩⟩⟩
  case vx => exact (execVx_pair pair compute word k z m c).trans completes
  case vadd =>
    obtain ⟨v, completes⟩ := execVadd_completes legal
    exact ⟨v, (execVx_pair pair compute word k z m c).trans completes⟩
  case add => exact execRep_repetition pair whole inside current (execAdd_plain he hf hg legal)

end Sys2Proof.Machine
end

section
/-! SUPPORT. From the step of the package down to the bundle that a thread issues (R27 to R33, R284), one equation for
each function on the way; O54 from these. -/

namespace Sys2Proof.Machine

/-! ### Fetching -/

/-- A word in the code window is read from local memory, and the fetch leaves the state as it is. -/
theorem fetchWord_codeWindow {s : State} {c t pc o : Nat} (old : Bool) (inside : codeOffset (s.core c) pc = some o)
    (fresh : (s.thread c t).fetched = []) :
    fetchWord s c t pc old = .ok (BitVec.ofNat 32 ((s.core c).lread o 4), s) := by
  have peek : peekWord s c t pc = .ok ((s.core c).lread o 4, none) := by
    unfold peekWord
    rw [inside]
  have noneAhead : (if old then (s.thread c t).fetched.find? (·.1 == pc) else none) = none := by
    rw [fresh, List.find?_nil, ite_self]
  unfold fetchWord
  simp only [peek, noneAhead]

/-! ### One bundle -/

/-- The prefix words, which execute by themselves in a pair (R42, R45). -/
def isPrefix (i : Instr) : Bool := match i with | .vx .. | .rep .. => true | _ => false

theorem issuePair_clash {s : State} {i ia : Instr} (word : s.aWord = .ok ia) (clash : writesClash s.me i ia = true) :
    issuePair s i = .next (illegalAt s false) := by
  unfold issuePair
  rw [word]
  exact if_pos clash

/-- Both words of a pair complete: the pair's joint effect. -/
theorem issuePair_joint {s sc sa : State} {i ia : Instr} (word : s.aWord = .ok ia)
    (apart : writesClash s.me i ia = false) (cSlot : exec i s = .next sc) (cDone : sc.issue.status = .done)
    (aSlot : runA ia (aStart s sc i) = .next sa) (aDone : sa.issue.status = .done)
    (goesOn : (afterPair s (mergePair s sc sa i ia) i).issue.status ≠ .waiting) :
    issuePair s i = .next (afterPair s (mergePair s sc sa i ia) i) := by
  unfold issuePair
  simp only [word, apart, cSlot, cDone, aSlot, aDone, goesOn, Bool.false_eq_true, reduceCtorEq, if_false]

/-- No repetition is running, and the bundle has nothing to wait for. -/
def unhindered (s : State) (i : Instr) : Prop :=
  s.me.rep = 0 ∧ anyPending s.me (bundleNames s i) = false ∧ (unanswered s.me && acts s i) = false

/-- An unhindered bundle executes as a lone word or prefix or as a pair, and retires. -/
theorem issueDecoded_unhindered {s u : State} {i : Instr} (free : unhindered s i)
    (runs : (if s.issue.lone || isPrefix i then exec i s else issuePair s i) = .next u) :
    issueDecoded s i = .next (recordBundle s u i) := by
  obtain ⟨idle, ready, answered⟩ := free
  have noRepetition : ∀ b : Bool, ¬ ((decide (s.me.rep ≠ 0) && b) = true) := fun b => by simp [idle]
  have noWait : ¬ ((anyPending s.me (bundleNames s i) || (unanswered s.me && acts s i)) = true) := by
    rw [ready, answered]
    exact Bool.false_ne_true
  refine (if_neg (noRepetition _)).trans ((if_neg noWait).trans ?_)
  show (match if s.issue.lone || isPrefix i then exec i s else issuePair s i with
    | .next s' => Host.Outcome.next (recordBundle s s' i)
    | o => o) = _
  rw [runs]

/-- A thread after the fetch of its bundle: it holds the words ahead (R151). -/
def fetchedAhead (s : State) : State := s.setMe { s.me with fetched := fetchAhead s s.cid s.tid s.fall.toNat }

theorem issueBundle_decoded {s s1 : State} {i : Instr} (free : fetchHeld s s.cid s.tid s.me.pc.toNat = false)
    (framed : frameBundle s = .ok s1) (word : decodeWord (fetchedAhead s1).issue.w0 = .ok i) :
    issueBundle s = issueDecoded (fetchedAhead s1) i := by
  have held : ¬ (fetchHeld s s.cid s.tid s.me.pc.toNat = true) := by rw [free]; exact Bool.false_ne_true
  refine (if_neg held).trans ?_
  rw [framed]
  show (match decodeWord (fetchedAhead s1).issue.w0 with
    | .error _ => Host.Outcome.next (illegalAt (fetchedAhead s1) (fetchedAhead s1).issue.slotA)
    | .ok ic => issueDecoded (fetchedAhead s1) ic) = _
  rw [word]

/-! ### A cycle of a core -/

/-- A turn whose cycle goes to core c, or to its thread t, is that core's turn when nothing falls due of itself. -/
theorem step_core {s : State} {n ns c t : Nat} {who : Who} {ts : List Turn} {ready : List Nat} {r : State}
    (quiet : autoStep s = none) (mover : who = .core c ∨ who = .thread c t) (next : s.turns = ⟨n, ns, who⟩ :: ts)
    (short : sweepsRun s = true → ns ≤ 2 ^ 20)
    (tried : readyThreads c [0, 1, 2, 3, 4] (advance { s with turns := ts } n ns) = (r, ready))
    (selected : select ((advance { s with turns := ts } n ns).core c).sched ready = some t) :
    step s = threadTurn r c t ready none := by
  have whole : ¬ ((sweepsRun s && decide (sweepStep < ns)) = true) := by
    rw [Bool.and_eq_true, decide_eq_true_iff, sweepStep]
    exact fun h => absurd (short h.1) (Nat.not_le_of_lt h.2)
  have issues : ∀ may : Nat → Bool, may t = true →
      ofCore (coreTurn (advance { s with turns := ts } n ns) c may none) = threadTurn r c t ready none := by
    intro may allowed
    unfold coreTurn
    simp only [tried, selected, allowed, if_true, ofCore]
  unfold step turn
  rw [quiet, next]
  refine (if_neg whole).trans ?_
  obtain rfl | rfl := mover
  · exact issues (fun _ => true) rfl
  · exact issues (· == t) (beq_self_eq_true t)

/-- The state in which thread t of core c tries its bundle. -/
def attempting (s : State) (c t : Nat) : State :=
  { s.setCore c { s.core c with sched := { (s.core c).sched with yielded := false } } with
    cur := (c, t), issue := Issue.reset }

theorem threadTurn_next {s u : State} {c t : Nat} {ready : List Nat} (issued : issueBundle (attempting s c t) = .next u) :
    threadTurn s c t ready none = .next (if u.issue.status = .waiting then u else keepIssue u c t ready) := by
  have tried : attempt s c t none = .next u := issued
  unfold threadTurn
  rw [tried]

/-- Settles O54: the step is a thread's turn, that turn is the bundle's, and the bundle is its words'. -/
theorem stepRunsTheDecodedInstruction : Obligations.StepRunsTheDecodedInstruction := by
  refine ⟨fun s c t pc o old inside fresh => fetchWord_codeWindow old inside fresh, ?_⟩
  intro s n ns c t who ts s1 i quiet mover next short s0 r selected k sched sf free framed s2 word idle ready answered keep
    prefixed
  have step_keep : ∀ u, (if s2.issue.lone || isPrefix i then exec i s2 else issuePair s2 i) = .next u →
      step s = .next (keep u) := fun u runs =>
    have issued : issueBundle (attempting r.1 c t) = .next (recordBundle s2 u i) :=
      (issueBundle_decoded free framed word).trans (issueDecoded_unhindered ⟨idle, ready, answered⟩ runs)
    (step_core quiet mover next short rfl selected).trans (threadTurn_next issued)
  have kind : prefixed = isPrefix i := rfl
  refine ⟨fun solo u runs => step_keep u ?_, fun pair bare ia aWord => ?_⟩
  · rw [if_pos (by rw [← kind, Bool.or_eq_true]; exact solo)]
    exact runs
  · have joint : (if s2.issue.lone || isPrefix i then exec i s2 else issuePair s2 i) = issuePair s2 i :=
      if_neg (by rw [← kind, pair, bare]; exact Bool.false_ne_true)
    exact ⟨fun clash => step_keep _ (joint.trans (issuePair_clash aWord clash)),
      fun apart sc sa cSlot cDone aSlot aDone goesOn =>
        step_keep _ (joint.trans (issuePair_joint aWord apart cSlot cDone aSlot aDone goesOn))⟩

end Sys2Proof.Machine
end

section
/-! SUPPORT. What RoundTo delivers (R65, R68, R70, R73, R76): the pattern and the flags of a value as functions of the
draw, and the patterns of a format that are no NaN; O6 and O7 from these. -/

namespace Sys2Proof.Machine

/-! ### The environment of one rounding -/

/-- What a rounding delivers and raises, given the draw: it reads no other part of the environment. -/
def rounded (f : Fmt) (mode : Nat) (sat : Bool) (s : Nat) : Val → Nat × Nat
  | .nan _ => if f.nan then (f.canon, 0) else (0, flagNV)
  | .inf neg =>
    if f.inf then (f.signed neg f.infMag, 0)
    else if sat || !f.nan then (f.signed neg f.maxMag, flagNX)
    else (f.canon, flagNV)
  | .fin neg m e st => roundFin f mode sat neg m e st s

/-- A rounding draws once, before it looks at the value, and then only adds flags. -/
theorem roundSat_run (f : Fmt) (mode : Nat) (sat : Bool) (v : Val) (e : FpEnv) :
    (roundSat f mode sat v).run e =
      ((rounded f mode sat ((drawFor mode).run e).1 v).1,
        { ((drawFor mode).run e).2 with
          flags := ((drawFor mode).run e).2.flags ||| (rounded f mode sat ((drawFor mode).run e).1 v).2 }) := by
  unfold roundSat rounded
  rw [F.bind_run]
  cases v with
  | nan sig =>
    cases f.nan
    · rfl
    · simp only [if_true, Nat.or_zero]
      rfl
  | inf neg =>
    cases f.inf
    · cases sat || !f.nan <;> rfl
    · simp only [if_true, Nat.or_zero]
      rfl
  | fin neg m e st => rfl

theorem F.drawFor_seed (mode : Nat) (e : FpEnv) :
    ((drawFor mode).run e).2.seed = if mode = 5 then seedNext e.seed else e.seed := by
  rw [F.drawFor_run]
  split <;> rfl

theorem F.drawFor_flags (mode : Nat) (e : FpEnv) : ((drawFor mode).run e).2.flags = e.flags := by
  rw [F.drawFor_run]
  split <;> rfl

/-- Settles O7: the draw alone touches SEED, and the flags of the rounding are ORed into those that were there. -/
theorem seedAdvancesOncePerRounding : Obligations.SeedAdvancesOncePerRounding := by
  intro f mode sat v e
  rw [roundSat_run]
  refine ⟨F.drawFor_seed mode e, ?_⟩
  rw [F.drawFor_flags, Nat.or_right_comm, Nat.or_self]

/-! ### Patterns of a format with infinities -/

/-- The formats whose largest exponent is kept for infinities and NaNs, as IEEE 754 lays them out (R57). -/
structure Fmt.Ieee (f : Fmt) : Prop where
  inf : f.inf = true
  nan : f.nan = true
  width : f.width = f.eb + f.mb + 1
  mb_pos : 0 < f.mb

theorem Fmt.ofPrec_ieee (p : BitVec 2) : (Fmt.ofPrec p).Ieee := by
  unfold Fmt.ofPrec
  split <;> constructor <;> decide

/-- A signed magnitude up to the infinity's: a number or an infinity of the format, no NaN. -/
def Fmt.IsNumber (f : Fmt) (b : Nat) : Prop := ∃ neg, ∃ mag ≤ f.infMag, b = f.signed neg mag

namespace Fmt.Ieee

variable {f : Fmt} (ieee : f.Ieee)
include ieee

theorem width_sub_one : f.width - 1 = f.eb + f.mb := Nat.sub_eq_of_eq_add ieee.width

theorem two_pow_width : 2 ^ f.width = 2 ^ (f.width - 1) * 2 := by
  rw [ieee.width_sub_one, ieee.width, Nat.pow_succ]

/-- The magnitudes from the infinity up to 2^(width-1) are as many as the mantissas. -/
theorem infMag_add : f.infMag + 2 ^ f.mb = 2 ^ (f.width - 1) := by
  unfold Fmt.infMag
  rw [ieee.width_sub_one, Nat.pow_add, ← Nat.succ_mul, Nat.succ_eq_add_one, Nat.sub_add_cancel Nat.one_le_two_pow]

theorem infMag_lt : f.infMag < 2 ^ (f.width - 1) := by
  rw [← ieee.infMag_add]
  exact Nat.lt_add_of_pos_right (Nat.two_pow_pos f.mb)

theorem canon_lt : f.canon < 2 ^ f.width := by
  have := ieee.infMag_add
  have half : 2 ^ (f.mb - 1) < 2 ^ f.mb := Nat.pow_lt_pow_right (by decide) (Nat.sub_lt ieee.mb_pos Nat.one_pos)
  have canon : f.canon = f.infMag + 2 ^ (f.mb - 1) := if_pos ieee.inf
  have := ieee.two_pow_width
  omega

theorem maxMag_le_infMag : f.maxMag ≤ f.infMag := by
  unfold Fmt.maxMag
  rw [if_pos ieee.inf]
  exact Nat.sub_le _ _

theorem isNumber_lt {b : Nat} (number : f.IsNumber b) : b < 2 ^ f.width := by
  obtain ⟨neg, mag, small, rfl⟩ := number
  have := ieee.infMag_lt
  have sign : boolNat neg ≤ 1 := by cases neg <;> decide
  have : boolNat neg * 2 ^ (f.width - 1) ≤ 1 * 2 ^ (f.width - 1) := Nat.mul_le_mul_right _ sign
  rw [ieee.two_pow_width, Fmt.signed]
  omega

/-- The NaNs: the exponent's bits all set, and some mantissa bit (R57). -/
theorem isNan_decode_iff {b : Nat} :
    (f.decode b).isNan = true ↔ b / 2 ^ f.mb % 2 ^ f.eb = 2 ^ f.eb - 1 ∧ b % 2 ^ f.mb ≠ 0 := by
  unfold Fmt.decode
  rw [ieee.inf]
  by_cases top : b / 2 ^ f.mb % 2 ^ f.eb = 2 ^ f.eb - 1
  · by_cases mantissa : b % 2 ^ f.mb = 0 <;> simp [top, mantissa, Val.isNan]
  · simp only [beq_false_of_ne top, top, Bool.and_false, Bool.false_and, Bool.false_eq_true, if_false, false_and,
      iff_false]
    split <;> exact Bool.false_ne_true

/-- A NaN's magnitude lies above the infinity's. -/
theorem infMag_lt_of_isNan {b : Nat} (isNan : (f.decode b).isNan = true) : f.infMag < b % 2 ^ (f.width - 1) := by
  obtain ⟨top, mantissa⟩ := ieee.isNan_decode_iff.mp isNan
  rw [ieee.width_sub_one, Nat.add_comm, Nat.pow_add, Nat.mod_mul, top, Nat.mul_comm]
  exact Nat.lt_add_of_pos_left (Nat.pos_of_ne_zero mantissa)

theorem not_isNan_of_isNumber {b : Nat} (number : f.IsNumber b) : (f.decode b).isNan ≠ true := by
  obtain ⟨neg, mag, small, rfl⟩ := number
  have below : mag < 2 ^ (f.width - 1) := small.trans_lt ieee.infMag_lt
  intro isNan
  have above := ieee.infMag_lt_of_isNan isNan
  rw [Fmt.signed, Nat.add_mul_mod_self_right, Nat.mod_eq_of_lt below] at above
  exact absurd small (Nat.not_le_of_lt above)

/-! ### What a rounding to such a format delivers (R76) -/

theorem isNumber_overflow (mode : Nat) (sat neg : Bool) : f.IsNumber (overflow f mode sat neg) := by
  have largest_or_inf (toMax : Bool) : f.IsNumber (if toMax then f.signed neg f.maxMag
      else if f.inf then f.signed neg f.infMag else f.canon) := by
    cases toMax
    case true => exact ⟨neg, f.maxMag, ieee.maxMag_le_infMag, rfl⟩
    case false => exact ⟨neg, f.infMag, le_rfl, if_pos ieee.inf⟩
  exact largest_or_inf _

theorem isNumber_roundFin (mode : Nat) (sat neg : Bool) (m : Nat) (e : Int) (st : Bool) (s : Nat) :
    f.IsNumber (roundFin f mode sat neg m e st s).1 := by
  have overflow_or_mag (mag flO fl : Nat) : f.IsNumber
      (if f.maxMag < mag then (overflow f mode sat neg, flO) else (f.signed neg mag, fl)).1 := by
    split
    case isTrue => exact ieee.isNumber_overflow mode sat neg
    case isFalse inRange => exact ⟨neg, mag, (Nat.le_of_not_lt inRange).trans ieee.maxMag_le_infMag, rfl⟩
  unfold roundFin
  split
  case isTrue => exact ⟨neg, 0, Nat.zero_le _, rfl⟩
  case isFalse => exact overflow_or_mag _ _ _

/-- What is delivered is the canonical NaN or no NaN at all (R65). -/
theorem canon_or_isNumber_rounded (mode : Nat) (sat : Bool) (s : Nat) (v : Val) :
    (rounded f mode sat s v).1 = f.canon ∨ f.IsNumber (rounded f mode sat s v).1 := by
  cases v with
  | nan sig => exact .inl (by rw [rounded, if_pos ieee.nan])
  | inf neg => exact .inr ⟨neg, f.infMag, le_rfl, by rw [rounded, if_pos ieee.inf]⟩
  | fin neg m e st => exact .inr (ieee.isNumber_roundFin mode sat neg m e st s)

end Fmt.Ieee

/-- Settles O6: what is rounded is the canonical NaN or a number, and a number decodes as no NaN. -/
theorem nanResultsAreCanonical : Obligations.NanResultsAreCanonical := by
  refine ⟨fun p mode v e => ?_, by decide, by decide, by decide, by decide, by decide, by decide⟩
  have ieee := Fmt.ofPrec_ieee p
  rw [roundTo, roundSat_run]
  rcases ieee.canon_or_isNumber_rounded mode false ((drawFor mode).run e).1 v with canon | number
  · rw [canon]
    exact ⟨ieee.canon_lt, fun _ => rfl⟩
  · exact ⟨ieee.isNumber_lt number, fun isNan => absurd isNan (ieee.not_isNan_of_isNumber number)⟩

end Sys2Proof.Machine
end

section
/-! SUPPORT. A store that pins its activation sends what the activation held (R327, R328), and a message that no link
carries any more is reported to the host in a notice, in global memory (R363, R399, R424); O59 fails by it. -/

namespace Sys2Proof.Machine

/-- A message of core 0's handler thread to core 0 of package 1 (R318, R324). -/
def farMessage : Msg := { src := 4 * 2 ^ 26, seq := 1, desc := 2 ^ 10, ctx := 0, order := 1, payload := [] }

/-- An unpinned activation that holds that message and as many stores as there is room for (R327). -/
def fullActivation : Activation where
  kind := .message
  msg := { src := 0, seq := 1, desc := 0, ctx := 0, order := 1, payload := [] }
  left := []
  pinned := false
  start := 0
  budget := 100000
  heldMsgs := [.messageArrival farMessage]
  stores := 64
  log := []
  fflags := 0
  frm := 0
  seed := 0
  seq := 0
  fails := 0
  region := (0, 0)

/-- Package 0 of two, whose 48 link ports have failed. The handler thread of core 0 runs that activation, with 0x8000 in x1
and 7 in x2. Its context posts launch faults for the host's triage; page tables at 0x1000, 0x2000 and 0x3000 map the first
gibibyte as identity, A and D set; queue 0 has its header at 0x10000 and its notice ring at 0x20000. -/
def cutOffPackage : State :=
  { State.reset with
    cores := [(0, { Core.reset with
      threads := [(4, { Thread.reset with strand := .running, x := [(1, 0x8000), (2, 7)] })]
      act := some fullActivation
      bound := some { record := { desc := 0, order := 1, pos := 0, ctx := 0, queue := 0, level := 0, resume := false },
                      ld := placedLaunch, rebinds := 0 } })]
    mem := [(0x1000, 0x01), (0x1001, 0x20), (0x2000, 0x01), (0x2001, 0x30), (0x3000, 0x2F), (0x3001, 0x03)]
    ctxs := [(0, { Context.reset with live := true, modes := 0x10, qbase := 0x10000, root := 0x20 })]
    queues := [(0, { Queue.reset with live := true, nbase := 0x20000 })]
    npkgs := 2
    failedPorts := List.range 48
    cur := (0, 4) }

/-- The word completes, and byte pa of global memory then reads b. -/
def completesReading (i : Instr) (s : State) (pa : Nat) (b : Byte) : Bool :=
  match exec i s with
  | .next t => t.issue.status == .done && readByte t 0 pa == some b
  | _ => false

theorem exists_of_completesReading {i : Instr} {s : State} {pa : Nat} {b : Byte} (h : completesReading i s pa b = true) :
    ∃ t, exec i s = .next t ∧ t.issue.status = .done ∧ readByte t 0 pa = some b := by
  unfold completesReading at h
  split at h
  · next t ran =>
    rw [Bool.and_eq_true, beq_iff_eq, beq_iff_eq] at h
    exact ⟨t, ran, h.1, h.2⟩
  · cases h

/-- ST.b [x1], x2 completes, and byte 0x10014, the notices written in the header of queue 0 (R351), has become 1. -/
theorem cutOffStore_postsNotice : completesReading (.stB 2 1 0) cutOffPackage 0x10014 1 = true := by decide +kernel

theorem cutOffPackage_noNotice : readByte cutOffPackage 0 0x10014 = some 0 := by decide +kernel

/-- The store itself goes to 0x8000, and its walk has neither A nor D to set. -/
theorem cutOffStore_translates :
    let s := after (gateStores 1) cutOffPackage
    xlate s s.cid s.myCtx (0x8000#64 + (0#12).signExtend 64 * word 1).toNat .write s.sup =
      .ok { pa := 0x8000, nd := .write, update := none, walk := [0x1000, 0x2000, 0x3000]
            fill := some { ctx := 0, page := 0, size := 30, frame := 0, r := true, w := true, x := false, u := true, d := true } } := by
  decide +kernel

/-- Refutes O59: the 65th store of an activation pins it, which sends the message that it held; no link port is left, and
the notice of the lost message is written into the queue of the launch, beside the byte stored. -/
theorem not_globalAccessesChangeOnlyTheirBytes : ¬ Obligations.GlobalAccessesChangeOnlyTheirBytes := by
  rintro ⟨stores, -⟩
  obtain ⟨t, ran, ended, posted⟩ := exists_of_completesReading cutOffStore_postsNotice
  obtain ⟨⟨bytes, -⟩, -⟩ := stores .stB 1 List.mem_cons_self cutOffPackage 2 1 0 7 0x8000 cutOffPackage cutOffPackage t _
    rfl (readX_plain (by decide) _) (readX_plain (by decide) _) ran ended cutOffStore_translates
  have untouched : readByte t 0 0x10014 = readByte cutOffPackage 0 0x10014 :=
    bytes 0 0x10014 (by decide) (by simp [Xlat.entryBytes])
  rw [posted, cutOffPackage_noNotice] at untouched
  exact absurd untouched (by decide)

end Sys2Proof.Machine
end

section
/-! SUPPORT. The steps of slices, the base die, replies, refusals and walks (R86, R87, R97, R98, R107, R108, R113, R118,
R392, R393): what each does, said once, and O48 from it. -/

namespace Sys2Proof.Machine

/-! ### Evictions (R107, R108) -/

section Eviction
variable {s : State} {n l : Nat} (h : AtHand (.lineEviction n l) s)
include h

theorem lineEviction_held
    (held : (s.holds.any fun h => h.slice == n && ((List.range 4).map (4 * l + ·)).contains h.sector) = true) :
    NotDue .lineEviction s :=
  notDue_of h (by change execLineEviction s = _; rw [execLineEviction, h.1]) (if_pos held)

theorem lineEviction_moves
    (held : (s.holds.any fun h => h.slice == n && ((List.range 4).map (4 * l + ·)).contains h.sector) = false) :
    let u := evictSector (evictSector (evictSector (evictSector s n (4 * l)) n (4 * l + 1)) n (4 * l + 2)) n (4 * l + 3)
    Moves .lineEviction s { u with replicas := u.replicas.filter fun r => !(r.slice == n && r.sector / 4 == l) } :=
  moves_of h (by change execLineEviction s = _; rw [execLineEviction, h.1]) (by
    simp only [held, Bool.false_eq_true, if_false]
    rfl)

end Eviction

section EvictedSector
variable {s : State} {n t : Nat} {e : SliceSector} (found : s.sectors.find? (sectorKey n t) = some e)
include found

theorem evictSector_sectors : (evictSector s n t).sectors = SMap.del s.sectors (sectorKey n t) := by
  unfold evictSector
  simp only [found]
  split <;> rfl

/-- A modified or zero-flagged sector is written to memory whole, which ends its poison. -/
theorem evictSector_written (dirty : e.modified = true ∨ e.zero = true) :
    (evictSector s n t).mem = Mem.write s.mem (32 * t) 32 e.data.toNat ∧ t ∉ (evictSector s n t).poison := by
  have write : (e.modified || e.zero) = true := by simpa using dirty
  unfold evictSector
  simp [found, write]

theorem evictSector_dropped (clean : e.modified = false) (nonzero : e.zero = false) :
    (evictSector s n t).mem = s.mem ∧ (evictSector s n t).poison = s.poison := by
  unfold evictSector
  simp [found, clean, nonzero]

end EvictedSector

/-! ### Fills, and what the base die meets (R87, R107, R392, R393) -/

theorem sectorFill_moves {s : State} {n t : Nat} {ev : BusEvent} (h : AtHand (.sectorFill n t ev) s)
    (serves : (s.ctxs.any fun c => c.2.live && homeSlice s c.2.seed (32 * t) == n) = true)
    (behind : populated s (32 * t) = true) (lacks : s.sectors.find? (sectorKey n t) = none) :
    Moves .sectorFill s (carrySector s n t ev) :=
  moves_of h (by change execSectorFill s = _; rw [execSectorFill, h.1]) (by simp [serves, behind, lacks])

/-- A fetch of a sector that the slice lacks brings the bytes that it reads, and the slice serves these. -/
theorem readSector_fetchSector {s : State} {n t : Nat} {d : BitVec 256} (lacks : s.sectors.find? (sectorKey n t) = none)
    (reads : readSector s n t = some d) : readSector (fetchSector s n t) n t = some d := by
  unfold fetchSector
  simp only [lacks, reads]
  unfold readSector
  simp only [SMap.find?_set_self]

/-- A transfer without failures fills the sector from memory. -/
theorem readSector_carrySector_clean {s : State} {n t : Nat} (sound : t ∉ s.poison)
    (lacks : s.sectors.find? (sectorKey n t) = none) :
    readSector (carrySector s n t ⟨.clean, []⟩) n t = some (BitVec.ofNat 256 (Mem.read s.mem (32 * t) 32)) := by
  refine readSector_fetchSector (s := { s with failedFills := s.failedFills.filter (· ≠ sectorKey n t) }) lacks ?_
  unfold readSector
  simp [lacks, sound]

theorem readSector_poisoned {s : State} {n t : Nat} (lacks : s.sectors.find? (sectorKey n t) = none)
    (poisoned : t ∈ s.poison) : readSector s n t = none := by
  unfold readSector
  simp [lacks, poisoned]

theorem logEvent_sectors (s : State) (which stack key : Nat) : (logEvent s which stack key).sectors = s.sectors := by
  unfold logEvent
  simp only
  split <;> rfl

/-- After an uncorrectable error the sector is poisoned, and its slice has nothing to serve. -/
theorem carrySector_uncorrectable {s : State} {n t : Nat} (lacks : s.sectors.find? (sectorKey n t) = none)
    (y : BitVec 5) (fs : List (BitVec 3 × BitVec 6)) :
    readSector (carrySector s n t ⟨.uncorrectable y, fs⟩) n t = none ∧
      t ∈ (carrySector s n t ⟨.uncorrectable y, fs⟩).poison := by
  have poisoned : t ∈ (carrySector s n t ⟨.uncorrectable y, fs⟩).poison := by
    change t ∈ List.insert t _
    exact List.mem_insert_self
  refine ⟨readSector_poisoned ?_ poisoned, poisoned⟩
  suffices kept : (carrySector s n t ⟨.uncorrectable y, fs⟩).sectors = s.sectors by rw [kept, lacks]
  unfold carrySector
  simp only
  split
  · exact logEvent_sectors _ _ _ _
  · rfl

theorem channelControllerLoss_moves {s : State} {st ch : Nat} (h : AtHand (.channelControllerLoss st ch) s) :
    Moves .channelControllerLoss s
      { s with lostChannels := if s.lostChannels.contains (st, ch) then s.lostChannels else s.lostChannels ++ [(st, ch)] } :=
  moves_of h (by change execChannelControllerLoss s = _; rw [execChannelControllerLoss, h.1]) rfl

/-! ### Replies (R113, R114) -/

/-- The answer to the engines frees so many of their entries. -/
theorem loadReply_engines {s : State} {c tag : Nat} (h : AtHand (.loadReply c 5 tag) s) :
    Moves .loadReply s (s.setCore c { s.core c with engine := (s.core c).engine - tag }) :=
  moves_of h (by change execLoadReply s = _; rw [execLoadReply, h.1]) rfl

theorem State.thread_setThread (s : State) (c t : Nat) (th : Thread) : (s.setThread c t th).thread c t = th := by
  unfold State.thread State.setThread
  rw [State.core_setCore, Core.thread_setThread]

theorem loadReply_thread {s : State} {c t tag : Nat} (h : AtHand (.loadReply c t tag) s) (thread : t ≠ 5) :
    ∃ u, Moves .loadReply s u ∧ (u.thread c t).requests = (s.thread c t).requests.filter (fun r => r.tag != tag) ∧
      u.sectors = s.sectors ∧ u.mem = s.mem := by
  refine ⟨_, moves_of h (by change execLoadReply s = _; rw [execLoadReply, h.1]) (if_neg thread), ?_⟩
  rw [State.thread_setThread]
  refine ⟨rfl, ?_⟩
  split <;> exact ⟨rfl, rfl⟩

/-! ### Refusals (R115, R118) -/

section Refusal
variable {s : State} {c t : Nat} (h : AtHand (.storeRefused c t) s)
include h

theorem storeRefused_answered (found : (s.core c).refused.find? (fun r => r.slot == t) = none) : Moves .storeRefused s s :=
  moves_of h (by change execStoreRefused s = _; rw [execStoreRefused, h.1]) (by simp only [found])

variable {r : Refused} (found : (s.core c).refused.find? (fun r => r.slot == t) = some r)
include found

/-- The strand has ended since: its thread faults at once. -/
theorem storeRefused_ended (ended : ((s.core c).thread t).strand ≠ .running) (compute : t ≠ 4) :
    Moves .storeRefused s (threadFault
      (s.setCore c { s.core c with refused := (s.core c).refused.filter fun q => q.slot != t }) c t .uncorrectableError r.addr 0) :=
  moves_of h (by change execStoreRefused s = _; rw [execStoreRefused, h.1]) (by
    simp only [found]
    rw [if_pos ⟨ended, compute⟩])

/-- The thread goes back to its store and traps there. -/
theorem storeRefused_traps (runs : ((s.core c).thread t).strand = .running ∨ t = 4) :
    let s1 := s.setCore c { s.core c with refused := (s.core c).refused.filter fun q => q.slot != t }
    let now := (s.core c).thread t
    let th := { r.thread with
      seq := now.seq, hbcount := now.hbcount, latch := now.latch, requests := now.requests, strand := now.strand,
      task := now.task, initial := now.initial, rfstat := now.rfstat, wait := .none, progress := none }
    let i : Issue := { Issue.reset with lone := r.lone, w0 := r.w0, w1 := r.w1 }
    Moves .storeRefused s
      (takeTrap { s1.setThread c t th with cur := (c, t), issue := i } .uncorrectableError r.addr false) :=
  moves_of h (by change execStoreRefused s = _; rw [execStoreRefused, h.1]) (by
    simp only [found]
    rw [if_neg (fun ended => runs.elim ended.1 ended.2)])

end Refusal

/-! ### Walks (R97, R98) -/

/-- What core c's TLBs hold for an address of context x is gone (R98). -/
def State.dropTranslations (s : State) (c x va : Nat) : State :=
  s.setCore c { s.core c with tlb := (s.core c).tlb.filter fun e => !(e.ctx == x && va / 2 ^ e.size == e.page) }

section Walk
variable {s : State} {c x : Nat} {va : Word} {nd : Rights} {sup : Bool} (h : AtHand (.pageWalk c x va nd sup) s)
include h

theorem pageWalk_held
    (held : walkHeld (s.dropTranslations c x va.toNat) .other c x (if needsWrite nd then .read else nd) va.toNat = true) :
    NotDue .pageWalk s :=
  notDue_of h (by change execPageWalk s = _; rw [execPageWalk, h.1]) (if_pos held)

variable
  (free : walkHeld (s.dropTranslations c x va.toNat) .other c x (if needsWrite nd then .read else nd) va.toNat = false)
include free

theorem pageWalk_translates {p : Xlat}
    (walked : xlate (s.dropTranslations c x va.toNat) c x va.toNat (if needsWrite nd then .read else nd) sup = .ok p) :
    Moves .pageWalk s (applyWalk (s.dropTranslations c x va.toNat) c x p) :=
  moves_of h (by change execPageWalk s = _; rw [execPageWalk, h.1]) (by
    unfold State.dropTranslations at free walked ⊢
    simp only [free, walked, Bool.false_eq_true, if_false])

theorem pageWalk_faults {z : Cause}
    (walked : xlate (s.dropTranslations c x va.toNat) c x va.toNat (if needsWrite nd then .read else nd) sup = .error z) :
    Moves .pageWalk s (s.dropTranslations c x va.toNat) :=
  moves_of h (by change execPageWalk s = _; rw [execPageWalk, h.1]) (by
    unfold State.dropTranslations at free walked ⊢
    simp only [free, walked, Bool.false_eq_true, if_false])

end Walk

/-- Settles O48: clause by clause from what the steps do above. -/
theorem memoryMoves : Obligations.MemoryMoves := by
  refine ⟨fun s n l h => ⟨lineEviction_held h, lineEviction_moves h⟩, ?evicted, fun s n t ev h => sectorFill_moves h, ?carried,
    fun s st ch h => channelControllerLoss_moves h, ?reply, ?refusal, ?walk⟩
  case evicted =>
    intro s n t e found wf u
    refine ⟨?_, evictSector_written found, evictSector_dropped found⟩
    rw [evictSector_sectors found]
    exact SMap.find?_del_self _ _ wf
  case carried =>
    intro s n t sound lacks
    exact ⟨readSector_carrySector_clean sound lacks, carrySector_uncorrectable lacks⟩
  case reply =>
    intro s c t tag h
    refine ⟨?_, loadReply_thread h⟩
    rintro rfl
    exact loadReply_engines h
  case refusal =>
    intro s c t h
    exact ⟨storeRefused_answered h, fun r found => ⟨storeRefused_ended h found, storeRefused_traps h found⟩⟩
  case walk =>
    intro s c x va nd sup h
    exact ⟨pageWalk_held h, fun free => ⟨fun p => pageWalk_translates h free, fun z => pageWalk_faults h free⟩⟩

end Sys2Proof.Machine
end

section
/-! SUPPORT. The sectors of a range (R120): each part ends at a sector's end or with the range; O21. -/

namespace Sys2Proof.Machine

theorem sectorParts_zero (va : Nat) : ∀ fuel, sectorParts va fuel 0 = []
  | 0 => rfl
  | _ + 1 => rfl

theorem sectorParts_succ {n : Nat} (va fuel : Nat) (nonempty : n ≠ 0) :
    sectorParts va (fuel + 1) n =
      (va, min n (32 - va % 32)) :: sectorParts (va + min n (32 - va % 32)) fuel (n - min n (32 - va % 32)) :=
  if_neg nonempty

/-- Behind the first part lies nothing, or the range goes on at the start of a sector. -/
theorem rest_of_firstPart (va n : Nat) :
    n - min n (32 - va % 32) = 0 ∨
      (va + min n (32 - va % 32)) % 32 = 0 ∧ n - min n (32 - va % 32) + 32 = n + va % 32 := by
  omega

/-- With fuel for every sector that the range touches, the parts make up the range. -/
theorem sectorParts_sum : ∀ (fuel va n : Nat), n + va % 32 ≤ 32 * fuel →
    ((sectorParts va fuel n).map (·.2)).sum = n
  | 0, _, _, enough => (Nat.eq_zero_of_add_eq_zero (Nat.le_zero.1 enough)).1.symm
  | fuel + 1, va, n, enough => by
    by_cases hn : n = 0
    · subst hn
      rfl
    · rw [sectorParts_succ va fuel hn, List.map_cons, List.sum_cons]
      have rest : ((sectorParts (va + min n (32 - va % 32)) fuel (n - min n (32 - va % 32))).map (·.2)).sum =
          n - min n (32 - va % 32) := by
        rcases rest_of_firstPart va n with ended | ⟨start, shorter⟩
        · rw [ended, sectorParts_zero]
          rfl
        · exact sectorParts_sum fuel _ _ (by omega)
      rw [rest]
      omega

theorem sectorParts_inSector : ∀ (fuel va n : Nat), ∀ p ∈ sectorParts va fuel n, 0 < p.2 ∧ p.1 % 32 + p.2 ≤ 32
  | 0, _, _, _, hp => absurd hp List.not_mem_nil
  | fuel + 1, va, n, p, hp => by
    by_cases hn : n = 0
    · rw [hn, sectorParts_zero] at hp
      exact absurd hp List.not_mem_nil
    · rw [sectorParts_succ va fuel hn] at hp
      rcases List.mem_cons.1 hp with rfl | hp
      · exact ⟨by omega, by omega⟩
      · exact sectorParts_inSector fuel _ _ p hp

/-- Each part begins where those before it end. -/
theorem sectorParts_consecutive : ∀ (fuel va n j : Nat) (p : Nat × Nat), (sectorParts va fuel n)[j]? = some p →
    p.1 = va + (((sectorParts va fuel n).take j).map (·.2)).sum
  | 0, _, _, _, _, hp => nomatch hp
  | fuel + 1, va, n, j, p, hp => by
    by_cases hn : n = 0
    · rw [hn, sectorParts_zero] at hp
      nomatch hp
    · rw [sectorParts_succ va fuel hn] at hp ⊢
      cases j with
      | zero =>
        cases hp
        rfl
      | succ j =>
        rw [List.getElem?_cons_succ] at hp
        rw [sectorParts_consecutive fuel _ _ j p hp, List.take_succ_cons, List.map_cons, List.sum_cons, Nat.add_assoc]

/-- Settles O21: partsOf has fuel for every sector of its range. -/
theorem rangesAreCutIntoSectors : Obligations.RangesAreCutIntoSectors := fun va n =>
  ⟨sectorParts_sum _ va n (by omega), sectorParts_inSector _ va n, sectorParts_consecutive _ va n⟩

end Sys2Proof.Machine
end

section
/-! SUPPORT. A word followed from one shared operation to the next: what is left of its effect, and how it ends; the
scalar accesses to global memory and the atomics (R100, R102, R113 to R118, R126 to R131), O17 to O20 from these. -/

namespace Sys2Proof.Machine

/-! ### What is left of a word's effect -/

/-- The word i is legal at s, and where its effect has come to s1, m is what is left of it. -/
def Performs (i : Instr) (s : State) (m : M Unit) (s1 : State) : Prop :=
  legalHere s i = true ∧ ∃ effect, exec i s = run i s effect ∧ effect s = m s1

namespace Performs

variable {α : Type} {i : Instr} {s s1 s2 : State} {m : M Unit}

theorem start (legal : legalHere s i = true) (runs : exec i s = run i s m) : Performs i s m s := ⟨legal, m, runs, rfl⟩

theorem step {n : M α} {k : α → M Unit} {a : α} (p : Performs i s (n >>= k) s1) (done : n s1 = .ok a s2) :
    Performs i s (k a) s2 := by
  obtain ⟨legal, effect, runs, left⟩ := p
  exact ⟨legal, effect, runs, left.trans (M.bind_ok done)⟩

/-- A check of the word that holds. -/
theorem met {b : Bool} {c : Cause} {a : Word} {k : Unit → M Unit} (p : Performs i s (need b c a >>= k) s1)
    (holds : b = true) : Performs i s (k ()) s1 := p.step (M.need_run holds _ _ _)

theorem completes {t : State} (p : Performs i s m s1) (done : m s1 = .ok () t) : Completes i s t := by
  obtain ⟨legal, effect, runs, left⟩ := p
  exact completes_of runs legal (left.trans done)

theorem traps {c : Cause} {a : Word} (p : Performs i s m s1) (stopped : m s1 = .error (.trap c a false) s2) :
    Traps i s c a := by
  obtain ⟨legal, effect, runs, left⟩ := p
  exact traps_of runs legal (left.trans stopped)

theorem unmet {b : Bool} {c : Cause} {a : Word} {k : Unit → M Unit} (p : Performs i s (need b c a >>= k) s1)
    (fails : b = false) : Traps i s c a := p.traps (M.bind_error (M.need_trap fails _ _ _))

theorem aligned {va n : Nat} {c : Cause} {a : Word} {k : Unit → M Unit}
    (p : Performs i s (need (va % n == 0) c a >>= k) s1) (multiple : va % n = 0) : Performs i s (k ()) s1 :=
  p.met (beq_iff_eq.2 multiple)

theorem misaligned {va n : Nat} {c : Cause} {a : Word} {k : Unit → M Unit}
    (p : Performs i s (need (va % n == 0) c a >>= k) s1) (other : va % n ≠ 0) : Traps i s c a :=
  p.unmet (beq_false_of_ne other)

theorem refused {a : Word} (p : Performs i s m s1) (stopped : m s1 = .error (.refused a) s2) :
    exec i s = .next (beginRefused s s2 a) := by
  obtain ⟨legal, effect, runs, left⟩ := p
  rw [runs]
  simp only [run, legal, if_true, left, stopped]

theorem stops {nd : Rights} {b : Bool} {va n : Nat} {k : List Xlat → M Unit}
    (p : Performs i s (checkParts nd b [(va, n)] >>= k) s1) : PartStops i nd s s1 va := by
  obtain ⟨legal, effect, runs, left⟩ := p
  exact partStops runs legal left

end Performs

/-! ### Accesses of one part (R87, R116 to R118, R127) -/

section OnePart

variable {i : Instr} {s s1 : State} {va n v : Nat} {regs : List Nat} {x : Xlat}

theorem gRead_stops {k : Nat → M Unit} (p : Performs i s (gRead va n regs >>= k) s1) : PartStops i .read s s1 va := by
  unfold gRead at p
  rw [bind_assoc] at p
  exact p.stops

theorem gRead_poisoned (reached : Reachable .read s [(va, n)] [x])
    (poisoned : readNear (s.touched [x]) (s.touched [x]).cid (s.touched [x]).myCtx x.pa n = none) :
    gRead va n regs s = .error (.trap .uncorrectableError (word va) false) (s.touched [x]) :=
  (M.bind_ok (checkParts_ok reached)).trans (M.bind_error (readParts_poisoned reached.atOnce.1 poisoned))

theorem gWrite_stops (p : Performs i s (gWrite va n v) s1) : PartStops i .write s (after (gateStores 1) s1) va :=
  (p.step (gateStores_run 1 s1)).stops

theorem gWrite_refused (reached : Reachable .write (after (gateStores 1) s) [(va, n)] [x])
    (refused : storeParts ((after (gateStores 1) s).touched [x]) [x] [((va, n), v)] = none) :
    gWrite va n v s = .error
      (if ((after (gateStores 1) s).touched [x]).gates then .trap .uncorrectableError (word va) false
        else .refused (word va))
      ((after (gateStores 1) s).touched [x]) :=
  (M.bind_ok (gateStores_run 1 s)).trans
    ((M.bind_ok (checkParts_ok reached)).trans (M.bind_error (writeParts_refused reached.atOnce.1 refused)))

theorem readHome_poisoned (poisoned : readPa s s.mySeed x.pa n = none) :
    readHome x va n s = .error (.trap .uncorrectableError (word va) false) s := by
  simp [readHome, partValue, poisoned]

variable {f : Nat → Option Nat}

theorem gAtomic_stops {k : Nat → M Unit} (p : Performs i s (gAtomic va n regs f >>= k) s1) :
    PartStops i .atomic s (after pin s1) va := by
  unfold gAtomic at p
  simp only [bind_assoc] at p
  exact ((p.step (pin_run s1)).step (M.get_run _)).stops

theorem gAtomic_poisoned (reached : Reachable .atomic (after pin s) [(va, n)] [x])
    (poisoned : readPa ((after pin s).touched [x]) ((after pin s).touched [x]).mySeed x.pa n = none) :
    gAtomic va n regs f s = .error (.trap .uncorrectableError (word va) false) ((after pin s).touched [x]) :=
  (M.bind_ok (pin_run s)).trans ((M.bind_ok (checkParts_ok reached)).trans (M.bind_error (readHome_poisoned poisoned)))

/-- A comparison stores the new value at an equal one, and nothing at another (R127, R97). -/
theorem gAtomic_compares {old cmp new : Nat} {t : State} (reached : Reachable .atomic (after pin s) [(va, n)] [x])
    (reads : readPa ((after pin s).touched [x]) ((after pin s).touched [x]).mySeed x.pa n = some old)
    (stored : if old = cmp then storeParts ((after pin s).touched [x]) [x] [((va, n), new)] = some t
      else t = (after pin s).compared x) :
    gAtomic va n regs (fun old => if old = cmp then some new else none) s = .ok old (after (request 1 regs) t) := by
  refine gAtomic_ok reached reads ?_
  by_cases equal : old = cmp
  · simpa only [if_pos equal] using stored
  · simpa only [if_neg equal] using stored

end OnePart

/-! ### Loads and stores -/

/-- Settles O17: the loads of one register by loadDoes, LD.q by its read of 16 bytes. -/
theorem globalLoads : Obligations.GlobalLoads := by
  refine ⟨loadDoes fun _ _ _ _ => rfl, loadDoes fun _ _ _ _ => rfl, loadDoes fun _ _ _ _ => rfl,
    loadDoes fun _ _ _ _ => rfl, loadDoes fun _ _ _ _ => rfl, loadDoes fun _ _ _ _ => rfl,
    loadDoes fun _ _ _ _ => rfl, ?quad⟩
  intro s d a o x s1 legal base va
  have p := (Performs.start (i := .ldQ d a o) legal rfl).step base
  refine ⟨p.misaligned, fun aligned => ⟨gRead_stops (p.aligned aligned), ?_⟩⟩
  intro x reached s2
  have p := p.aligned aligned
  refine ⟨fun poisoned => p.traps (M.bind_error (gRead_poisoned reached poisoned)), fun v s3 s4 reads low high => ?_⟩
  exact ((p.step (gRead_ok reached ⟨rfl, by simpa using reads⟩)).step low).completes high

/-- Settles O18: the stores of one register by storeDoes, ST.q by its write of 16 bytes. -/
theorem globalStores : Obligations.GlobalStores := by
  refine ⟨storeDoes fun _ _ _ _ => rfl, storeDoes fun _ _ _ _ => rfl, storeDoes fun _ _ _ _ => rfl,
    storeDoes fun _ _ _ _ => rfl, ?quad⟩
  intro s d a o v u x s1 s2 s3 legal base low high va s4
  have p := (((Performs.start (i := .stQ d a o) legal rfl).step base).step low).step high
  refine ⟨p.misaligned, fun aligned => ⟨gWrite_stops (p.aligned aligned), ?_⟩⟩
  intro x reached s5
  have p := p.aligned aligned
  refine ⟨fun refused => ?_, fun s6 stored => p.completes (gWrite_ok reached stored)⟩
  have stopped := gWrite_refused reached refused
  split
  case isTrue gated => exact p.traps (stopped.trans (by rw [if_pos gated]))
  case isFalse free => exact p.refused (stopped.trans (by rw [if_neg free]))

/-! ### Atomics -/

/-- Only AMOFADD returns a word without its sign (R127). -/
theorem atomResult_signed {op : Nat} (integer : op ≠ 9) (w old : Nat) :
    atomResult op w old = if w = 32 then sext old 32 else word old := by
  simp [atomResult, integer]

theorem atomResult_size {op : Nat} (integer : op ≠ 9) (sz : BitVec 2) (old : Nat) :
    atomResult op (8 * atomSize sz) old = if atomSize sz = 4 then sext old 32 else word old := by
  rw [atomResult_signed integer]
  exact if_congr (by omega) rfl rfl

theorem atomValue_minu (w old y : Nat) : atomValue 6 w old y = min old (y % 2 ^ w) := by
  change (if old < y % 2 ^ w then old else y % 2 ^ w) = _
  split <;> omega

theorem atomValue_maxu (w old y : Nat) : atomValue 7 w old y = max old (y % 2 ^ w) := by
  change (if old < y % 2 ^ w then y % 2 ^ w else old) = _
  split <;> omega

/-- Settles O19: atomicDoes, with what each operation of R126 stores and returns. -/
theorem globalAtomics : Obligations.GlobalAtomics := by
  have signed {op : Nat} (integer : op ≠ 9) := atomResult_signed integer
  exact ⟨atomicDoes (fun _ _ _ _ _ => rfl) (fun _ _ _ => rfl) (signed (by decide)),
    atomicDoes (fun _ _ _ _ _ => rfl) (fun _ _ _ => rfl) (signed (by decide)),
    atomicDoes (fun _ _ _ _ _ => rfl) (fun _ _ _ => rfl) (signed (by decide)),
    atomicDoes (fun _ _ _ _ _ => rfl) (fun _ _ _ => rfl) (signed (by decide)),
    atomicDoes (fun _ _ _ _ _ => rfl) (fun _ _ _ => rfl) (signed (by decide)),
    atomicDoes (fun _ _ _ _ _ => rfl) (fun _ _ _ => rfl) (signed (by decide)),
    atomicDoes (fun _ _ _ _ _ => rfl) atomValue_minu (signed (by decide)),
    atomicDoes (fun _ _ _ _ _ => rfl) atomValue_maxu (signed (by decide)),
    atomicDoes (fun _ _ _ _ _ => rfl) (fun _ _ _ => rfl) (signed (by decide)),
    atomicDoes (fun _ _ _ _ _ => rfl) (fun _ _ _ => rfl) (fun _ _ => by simp [atomResult])⟩

theorem word_toNat (x : Word) : word x.toNat = x := by simp [word]

/-- The fields of AMOZ's descriptor, the upper half of its cell (R130). -/
theorem fld_descriptor_reserved (desc : Nat) : fld (word desc) 63 34 = desc % 2 ^ 64 / 2 ^ 34 := by
  simp only [fld, word, BitVec.toNat_ofNat]
  omega

theorem fld_descriptor_core (desc : Nat) : fld (word desc) 9 0 = desc % 2 ^ 10 := by
  simp only [fld, word, BitVec.toNat_ofNat]
  omega

theorem fld_descriptor_package (desc : Nat) : fld (word desc) 25 10 = desc / 2 ^ 10 % 2 ^ 16 := by
  simp only [fld, word, BitVec.toNat_ofNat]
  omega

/-- What AMOZ leaves in its counter (R130). -/
theorem atomValue_amoz (sz : BitVec 2) (old y : Nat) :
    atomValue 12 (8 * atomSize sz) old y = (old + y) % 256 ^ atomSize sz := by
  change (old + y % 2 ^ (8 * atomSize sz)) % 2 ^ (8 * atomSize sz) = _
  rw [Nat.pow_mul, Nat.add_mod_mod]

/-- Settles O20: CAS and CAS2 compare in one atomic access; AMOZ checks its descriptor, stores, and sends at zero. -/
theorem comparingAtomics : Obligations.ComparingAtomics := by
  refine ⟨⟨?cas, ?cas2⟩, ?amoz⟩
  case cas =>
    intro s d a b sz x y s1 s2 legal base operand n s3
    have p := ((Performs.start (i := .cas d a b sz) legal rfl).step base).step operand
    refine ⟨p.misaligned, fun aligned => gAtomic_stops (p.aligned aligned), fun aligned q reached poisoned => ?_,
      fun aligned q old s5 s6 reached reads stored written => ?_⟩
    · rw [← word_toNat x]
      exact (p.aligned aligned).traps (M.bind_error (gAtomic_poisoned reached poisoned))
    · refine ((p.aligned aligned).step (gAtomic_compares reached reads stored)).completes ?_
      rw [atomResult_size (by decide)]
      exact written
  case cas2 =>
    intro s d a b x y y1 s1 s2 s2' legal base low high s3
    have p := (((Performs.start (i := .cas2 d a b) legal rfl).step base).step low).step high
    refine ⟨p.misaligned, fun aligned => gAtomic_stops (p.aligned aligned), fun aligned q reached poisoned => ?_,
      fun aligned q old s5 s6 s7 reached reads stored low high => ?_⟩
    · rw [← word_toNat x]
      exact (p.aligned aligned).traps (M.bind_error (gAtomic_poisoned reached poisoned))
    · exact (((p.aligned aligned).step (gAtomic_compares reached reads stored)).step low).completes high
  case amoz =>
    intro s d a b sz x y s1 s2 legal base operand n s3
    have p := ((Performs.start (i := .amoz d a b sz) legal rfl).step base).step operand
    refine ⟨p.misaligned, fun aligned => ((p.aligned aligned).step (pin_run s2)).stops,
      fun aligned q reached poisoned => ?_, fun aligned q cell reached reads => ?_⟩
    · rw [← word_toNat x]
      exact (((p.aligned aligned).step (pin_run s2)).step (checkParts_ok reached)).traps
        (M.bind_error (readHome_poisoned poisoned))
    · have p := (((p.aligned aligned).step (pin_run s2)).step (checkParts_ok reached)).step (readHome_ok reads)
      intro desc old
      simp only [fld_descriptor_reserved, fld_descriptor_core, fld_descriptor_package, atomValue_amoz,
        atomResult_size (op := 12) (by decide)] at p
      refine ⟨fun dirty => p.unmet (beq_false_of_ne dirty), fun clear absent => (p.met (beq_iff_eq.2 clear)).unmet ?_,
        fun clear core package s5 s6 stored written => ?_⟩
      · exact Bool.and_eq_false_iff.2
          (absent.imp (fun h => decide_eq_false (Nat.not_lt.2 h)) fun h => decide_eq_false (Nat.not_lt.2 h))
      · have p := p.met (beq_iff_eq.2 clear)
        have p := p.met (Bool.and_eq_true_iff.2 ⟨decide_eq_true core, decide_eq_true package⟩)
        have p := ((p.step (writePart_ok stored)).step (request_run 1 [d.toNat] s5)).step written
        by_cases zero : (old + y.toNat) % 256 ^ n = 0
        · rw [if_pos zero]
          exact p.completes (congrFun (if_pos zero) s6)
        · rw [if_neg zero]
          exact p.completes (congrFun (if_neg zero) s6)

end Sys2Proof.Machine
end

section
/-! SUPPORT. Vector accesses to global memory (R102, R110, R111, R114, R119, R120): loads and stores of many parts, at
once or as far as a turn goes, and the copies that a load leaves; O22 from these. -/

namespace Sys2Proof.Machine

/-! ### Loads and stores of parts (R113, R114, R120) -/

section Parts

variable {i : Instr} {s s1 t : State} {al : Nat} {b : Bool} {ps : List (Nat × Nat)} {xs : List Xlat}

/-- A load whose parts are read leaves its request and its hints. -/
theorem Performs.loadParts {vs regs : List Nat} {r g : BitVec 1} {k : List Nat → M Unit}
    (p : Performs i s (checkPartsAt al .read b ps >>= fun xs => readParts xs ps >>= fun vs =>
      requestLoad ps.length regs >>= fun _ => hints r g xs >>= fun _ => k vs) s1)
    (aligned : ∀ q ∈ ps, q.1 % al = 0) (reached : Reachable .read s1 ps xs) (reads : Reads (s1.touched xs) xs ps vs) :
    Performs i s (k vs) (after (hints r g xs) (after (requestLoad ps.length regs) (s1.touched xs))) :=
  (((p.step (checkPartsAt_ok aligned reached)).step (readParts_ok reached.atOnce reads)).step
    (requestLoad_run _ _ _)).step (hints_run _ _ _ _)

/-- Parts that their word has checked need no alignment of their own. -/
theorem one_aligned (ps : List (Nat × Nat)) : ∀ q ∈ ps, q.1 % 1 = 0 := fun q _ => Nat.mod_one q.1

/-- A store whose parts are all stored leaves its request. -/
theorem Performs.storesParts {ws : List ((Nat × Nat) × Nat)}
    (p : Performs i s (checkPartsAt al .write b ps >>= fun xs => writeParts xs ws >>= fun _ => request ps.length []) s1)
    (values : ws.length = ps.length) (aligned : ∀ q ∈ ps, q.1 % al = 0) (reached : Reachable .write s1 ps xs)
    (stored : storeParts (s1.touched xs) xs ws = some t) : Completes i s (after (request ps.length []) t) :=
  ((p.step (checkPartsAt_ok aligned reached)).step
    (writeParts_ok (by rw [values]; exact reached.atOnce) (by rw [values, reached.length]) stored)).completes
    (request_run _ _ _)

end Parts

/-! ### Stores part by part (R120) -/

section PartByPart

variable {s t : State} {xs : List Xlat} {ws : List ((Nat × Nat) × Nat)}

theorem SameThreads.partsNow (h : SameThreads s t) (n : Nat) : t.partsNow n = s.partsNow n := by
  unfold State.partsNow State.partsDone
  rw [h.me, h.2.1]

/-- A turn that performs only some of the parts stores these, and the thread waits. -/
theorem writeParts_first (fresh : s.me.progress = none) (short : s.partsNow ws.length < ws.length)
    (stored : storeParts s (xs.take (s.partsNow ws.length)) (ws.take (s.partsNow ws.length)) = some t) :
    writeParts xs ws s = .error (.park .parts)
      (t.setMe { t.me with progress := some ⟨xs.map (·.pa), [], s.partsNow ws.length⟩ }) := by
  have done : s.partsDone = 0 := by simp [State.partsDone, fresh]
  unfold writeParts
  rw [M.bind_get_run]
  simp only [done, List.drop_zero, Nat.zero_add, short, if_true]
  rw [M.bind_ok (writeEach_ok stored)]
  rfl

/-- A turn that performs all the parts that remain stores these. -/
theorem writeParts_rest {pas vals : List Nat} {k : Nat} (begun : s.me.progress = some ⟨pas, vals, k⟩)
    (length : xs.length = ws.length) (within : k ≤ ws.length) (whole : s.partsNow ws.length = ws.length - k)
    (stored : storeParts s (xs.drop k) (ws.drop k) = some t) : writeParts xs ws s = .ok () t := by
  have done : s.partsDone = k := by simp [State.partsDone, begun]
  have ended : ¬ k + (ws.length - k) < ws.length := by omega
  have all_xs : (xs.drop k).take (ws.length - k) = xs.drop k := List.take_of_length_le (by simp [length])
  have all_ws : (ws.drop k).take (ws.length - k) = ws.drop k := List.take_of_length_le (by simp)
  unfold writeParts
  rw [M.bind_get_run]
  simp only [done, whole, ended, if_false, all_xs, all_ws]
  rw [M.bind_ok (writeEach_ok stored)]
  rfl

/-- A word of which parts have been performed takes up their addresses again. -/
theorem checkParts_resumed {nd : Rights} {b : Bool} {ps : List (Nat × Nat)} {p : Progress}
    (begun : s.me.progress = some p) (free : ((p.xlats nd).drop p.done).any (partHeld s s.agent s.mySeed) = false) :
    checkParts nd b ps s = .ok (p.xlats nd) s := by
  unfold checkParts checkPartsAt
  rw [M.bind_get_run]
  simp only [begun, free, Bool.false_eq_true, if_false]
  rfl

theorem Performs.parks {i : Instr} {s1 : State} {m : M Unit} {w : Wait} (p : Performs i s m s1)
    (vector : thForbidden i = true) (stopped : m s1 = .error (.park w) t) : exec i s = .next (beginPark t w) := by
  obtain ⟨legal, effect, runs, left⟩ := p
  rw [runs]
  exact run_park_compute legal vector (left.trans stopped)

end PartByPart

/-! ### Replicas under the replicate hint (R110, R111, log 24) -/

/-- The slices serve what they did: only leases and replicas may differ. -/
def SameSectors (s t : State) : Prop := t = { s with leases := t.leases, replicas := t.replicas }

theorem sameSectors_longLease (s : State) (n k : Nat) (g : BitVec 1) : SameSectors s (longLease s n k g) := by
  unfold longLease
  split <;> rfl

theorem replicas_longLease (s : State) (n k : Nat) (g : BitVec 1) : (longLease s n k g).replicas = s.replicas := by
  unfold longLease
  split <;> rfl

theorem sameSectors_leaveReplica (s : State) (c x n k : Nat) (r : BitVec 1) :
    SameSectors s (leaveReplica s c x n k r) := by
  unfold leaveReplica
  split <;> rfl

theorem SameSectors.trans {s t u : State} (h : SameSectors s t) (k : SameSectors t u) : SameSectors s u := by
  unfold SameSectors at *
  rw [k, h]

/-- What the home slice of a part serves. -/
def State.served (s : State) (x : Xlat) : Option (BitVec 256) := readSector s (homeSlice s s.mySeed x.pa) (x.pa / 32)

theorem SameSectors.served {s t : State} (h : SameSectors s t) (x : Xlat) : t.served x = s.served x := by
  rw [h]
  rfl

/-- Parts of one sector have one home slice (R104). -/
theorem served_congr {s : State} {x y : Xlat} (sector : x.pa / 32 = y.pa / 32) : s.served x = s.served y := by
  have line : x.pa / 128 = y.pa / 128 := by omega
  unfold State.served homeSlice hashSlice
  rw [sector, line]

/-- What the hints do at the sector of one part. -/
def hintAt (r g : BitVec 1) (s : State) (x : Xlat) : State :=
  leaveReplica (longLease s (homeSlice s s.mySeed x.pa) (x.pa / 32) g) s.cid s.myCtx (homeSlice s s.mySeed x.pa)
    (x.pa / 32) r

theorem after_hints_cons (r g : BitVec 1) (x : Xlat) (xs : List Xlat) (s : State) :
    after (hints r g (x :: xs)) s = after (hints r g xs) (hintAt r g s x) := rfl

theorem prefetchSector_eq (s : State) (x : Xlat) (r g : BitVec 1) :
    prefetchSector s x r g = hintAt r g (applyXlat s s.cid s.myCtx x) x := rfl

theorem sameSectors_hintAt (r g : BitVec 1) (s : State) (x : Xlat) : SameSectors s (hintAt r g s x) :=
  (sameSectors_longLease _ _ _ _).trans (sameSectors_leaveReplica _ _ _ _ _ _)

/-- The near slice of the issuing core keeps a copy d of the sector of x. -/
def State.keepsCopy (s : State) (x : Xlat) (d : BitVec 256) : Prop :=
  ∃ q ∈ s.replicas, q.isAt s.cid s.myCtx (x.pa / 32) = true ∧ q.data = d

theorem keepsCopy_hintAt_iff {r g : BitVec 1} {s : State} {x y : Xlat} {d : BitVec 256} :
    (hintAt r g s y).keepsCopy x d ↔
      ∃ q ∈ (hintAt r g s y).replicas, q.isAt s.cid s.myCtx (x.pa / 32) = true ∧ q.data = d := by
  unfold State.keepsCopy
  rw [sameSectors_hintAt r g s y]
  rfl

/-- The replicate hint leaves a copy of what the slice serves. -/
theorem keepsCopy_hintAt_self {s : State} {x : Xlat} {d : BitVec 256} (g : BitVec 1) (serves : s.served x = some d) :
    (hintAt 1 g s x).keepsCopy x d := by
  have reads : readSector (longLease s (homeSlice s s.mySeed x.pa) (x.pa / 32) g) (homeSlice s s.mySeed x.pa)
      (x.pa / 32) = some d := by
    rw [sameSectors_longLease s _ _ g]
    exact serves
  rw [keepsCopy_hintAt_iff]
  simp [hintAt, leaveReplica, reads, Replica.isAt]

/-- A replica of another sector stays. -/
theorem mem_leaveReplica {s : State} {c x n k : Nat} {r : BitVec 1} {q : Replica} (kept : q ∈ s.replicas)
    (other : q.isAt c x k = false) : q ∈ (leaveReplica s c x n k r).replicas := by
  unfold leaveReplica
  split
  · exact kept
  · exact List.mem_cons_of_mem _ (List.mem_filter.2 ⟨kept, by rw [other]; rfl⟩)

/-- The hint at another part replaces a copy of the same sector only, and that by the same bytes. -/
theorem keepsCopy_hintAt {s : State} {x y : Xlat} {d : BitVec 256} (g : BitVec 1) (serves : s.served x = some d)
    (keeps : s.keepsCopy x d) : (hintAt 1 g s y).keepsCopy x d := by
  by_cases sector : x.pa / 32 = y.pa / 32
  · have own := keepsCopy_hintAt_self g ((served_congr sector).symm.trans serves)
    rw [keepsCopy_hintAt_iff] at own ⊢
    rwa [sector]
  · obtain ⟨q, kept, copy, data⟩ := keeps
    have place : q.sector = x.pa / 32 := beq_iff_eq.1 (Bool.and_eq_true_iff.1 copy).2
    rw [keepsCopy_hintAt_iff]
    refine ⟨q, mem_leaveReplica ?_ ?_, copy, data⟩
    · rw [replicas_longLease]
      exact kept
    · simp [Replica.isAt, place, sector]

/-- Under the replicate hint the near slice keeps a copy of every part's sector. -/
theorem keepsCopy_hints {g : BitVec 1} {x : Xlat} {d : BitVec 256} : ∀ {xs : List Xlat} {s : State},
    s.served x = some d → x ∈ xs ∨ s.keepsCopy x d → (after (hints 1 g xs) s).keepsCopy x d
  | [], _, _, listedOrKept => listedOrKept.resolve_left List.not_mem_nil
  | y :: xs, s, serves, listedOrKept => by
    have serves' : (hintAt 1 g s y).served x = some d := ((sameSectors_hintAt 1 g s y).served x).trans serves
    rw [after_hints_cons]
    refine keepsCopy_hints serves' ?_
    rcases listedOrKept with mem | keeps
    · rcases List.mem_cons.1 mem with rfl | mem
      · exact .inr (keepsCopy_hintAt_self g serves)
      · exact .inl mem
    · exact .inr (keepsCopy_hintAt g serves keeps)

theorem sameSectors_hints (r g : BitVec 1) : ∀ (xs : List Xlat) (s : State), SameSectors s (after (hints r g xs) s)
  | [], _ => rfl
  | x :: xs, s => by
    rw [after_hints_cons]
    exact (sameSectors_hintAt r g s x).trans (sameSectors_hints r g xs _)

/-! ### VLD and VST -/

/-- Settles O22: the parts of 512 bytes, moved at once, or stored as far as the turn goes. -/
theorem contiguousVectorAccesses : Obligations.ContiguousVectorAccesses := by
  refine ⟨?load, ?copies, ?store⟩
  case load =>
    intro s d a r g n x s1 legal base
    have p := (Performs.start (i := .vld d a r g n) legal rfl).step base
    refine ⟨p.misaligned, fun aligned xs vs reached reads => ?_⟩
    exact ((p.aligned aligned).loadParts (one_aligned _) reached reads).completes (writeV_run _ _ _)
  case copies =>
    intro s g xs t x mem d serves
    obtain ⟨q, kept, copy, data⟩ := keepsCopy_hints (g := g) serves (.inl mem)
    rw [sameSectors_hints 1 g xs s] at copy
    exact ⟨q, kept, copy, data⟩
  case store =>
    intro s d a n x s1 legal base
    have p := ((Performs.start (i := .vst d a n) legal rfl).step (readV_run d s)).step base
    refine ⟨p.misaligned, fun aligned => ?_⟩
    intro ps s2 vs
    have p := (p.aligned aligned).step (gateStores_run ps.length s1)
    have length : vs.length = ps.length := splitValue_length _ _
    refine ⟨fun xs s3 reached stored => p.storesParts length (one_aligned _) reached stored,
      fun xs s3 passes short stored => ?_, fun pas k s3 begun pieces within => ?_⟩
    · have same := sameThreads_touched xs s2
      rw [← length, ← same.partsNow] at short stored ⊢
      refine (p.step (passes.checked (one_aligned _))).parks rfl (M.bind_error (writeParts_first ?_ short stored))
      rw [same.me]
      exact passes.2.2.2.2
    · intro xs free whole stored
      have p := p.step (checkParts_resumed (nd := .write) begun free)
      rw [← length] at within whole
      have written := writeParts_rest (xs := xs) begun (by rw [length, ← pieces]; exact List.length_map _) within whole
        stored
      exact (p.step written).completes (request_run _ _ _)

end Sys2Proof.Machine
end

section
/-! SUPPORT. Strided and indexed vector accesses (R121, R122): what the stride word and the index vector name, and the
first fault of an indexed access; O23 from these. -/

namespace Sys2Proof.Machine

/-! ### The stride word (R121) -/

def strideWidth (y : Word) : Nat := 2 ^ (y.toNat / 2 ^ 62)

/-- A count of 0 stands for all elements of a register. -/
def strideCount (y : Word) : Nat :=
  if y.toNat / 2 ^ 52 % 2 ^ 10 = 0 then 512 / strideWidth y else y.toNat / 2 ^ 52 % 2 ^ 10

def strideAddrs (x y : Word) : List Nat :=
  (List.range (strideCount y)).map fun i => (x + word i * (BitVec.ofNat 48 y.toNat).signExtend 64).toNat

theorem strideParts_eq (x y : Word) : strideParts x y =
    if 512 / strideWidth y < strideCount y ∨ y.toNat / 2 ^ 48 % 16 ≠ 0 then none
    else some (strideWidth y, strideAddrs x y) := by
  have width : fld y 63 62 = y.toNat / 2 ^ 62 := Nat.mod_eq_of_lt (by omega)
  have stride : sext (fld y 47 0) 48 = (BitVec.ofNat 48 y.toNat).signExtend 64 :=
    congrArg (BitVec.signExtend 64) (BitVec.eq_of_toNat_eq (by simp [fld]))
  unfold strideParts
  rw [width, stride]
  rfl

theorem strideParts_bad {x y : Word} (bad : 512 / strideWidth y < strideCount y ∨ y.toNat / 2 ^ 48 % 16 ≠ 0) :
    strideParts x y = none := by
  rw [strideParts_eq, if_pos bad]

theorem strideParts_good {x y : Word} (count : strideCount y ≤ 512 / strideWidth y)
    (clear : y.toNat / 2 ^ 48 % 16 = 0) : strideParts x y = some (strideWidth y, strideAddrs x y) := by
  rw [strideParts_eq, if_neg (fun bad => bad.elim (Nat.not_lt.2 count) (absurd clear))]

/-- As many elements as the stride word may count are in a register. -/
theorem lanes_eight_mul (w : Nat) : lanes (8 * w) = 512 / w := (Nat.div_div_eq_div_mul 4096 8 w).symm

theorem checkAligned_misaligned {w va : Nat} {as : List Nat} (first : as.find? (fun va => va % w != 0) = some va)
    (s : State) : checkAligned w as s = .error (.trap .misalignedAccess (word va) false) s := by
  unfold checkAligned
  rw [first]
  rfl

/-! ### The index vector (R122) -/

theorem vElems_eq_map (w : Nat) (v : VReg) : vElems w v = (List.range (lanes w)).map (vElem w v) := by
  refine List.ext_getElem? fun j => ?_
  by_cases inside : j < lanes w
  · rw [vElems_getElem? v inside, List.getElem?_map, List.getElem?_range inside]
    rfl
  · rw [List.getElem?_eq_none (by rw [vElems_length]; omega), List.getElem?_eq_none (by simp; omega)]

/-- An index of all ones marks an absent element. -/
theorem mem_indexParts {x : Word} {v : VReg} {j a : Nat} : (j, a) ∈ indexParts x v ↔
    j < 128 ∧ vElem 32 v j ≠ 2 ^ 32 - 1 ∧ a = (x + word (vElem 32 v j)).toNat := by
  have elements : (List.range 128).zip (vElems 32 v) = (List.range 128).map fun j => (j, vElem 32 v j) := by
    rw [vElems_eq_map, List.map_prod_left_eq_zip]
    rfl
  unfold indexParts
  rw [elements, List.mem_filterMap]
  constructor
  · rintro ⟨e, mem, present⟩
    obtain ⟨k, inside, rfl⟩ := List.mem_map.1 mem
    simp only [Option.ite_none_left_eq_some, Option.some.injEq, Prod.mk.injEq] at present
    obtain ⟨present, rfl, rfl⟩ := present
    exact ⟨List.mem_range.1 inside, present, rfl⟩
  · rintro ⟨inside, present, rfl⟩
    exact ⟨_, List.mem_map.2 ⟨j, List.mem_range.2 inside, rfl⟩, if_neg present⟩

/-! ### The first fault of an indexed access (R102) -/

theorem worst_first (e : Cause × Nat) : ∀ es, worst false (e :: es) = some e
  | [] => rfl
  | f :: es => by
    unfold worst
    split <;> rfl

section FirstFault

variable {s : State} {nd : Rights} {al : Nat} {pre post : List (Nat × Nat)} {q : Nat × Nat} {c : Cause}

theorem checkPartsAt_firstFault (fresh : s.me.progress = none)
    (free : ((pre ++ q :: post).any fun p => walkHeld s s.agent s.cid s.myCtx nd p.1) = false)
    (good : ∀ p ∈ pre, ∃ x, partXlat s nd al p.1 = .ok x) (fault : partXlat s nd al q.1 = .error c) :
    checkPartsAt al nd false (pre ++ q :: post) s = xlatFault nd c q.1 s := by
  have clean : (pre.map fun p => (p.1, partXlat s nd al p.1)).filterMap partFault = [] := by
    rw [List.filterMap_eq_nil_iff]
    intro r listed
    obtain ⟨p, mem, rfl⟩ := List.mem_map.1 listed
    obtain ⟨x, translated⟩ := good p mem
    rw [translated]
    rfl
  unfold checkPartsAt
  rw [M.bind_get_run]
  simp only [fresh, free, Bool.false_eq_true, if_false]
  have first : partFault (q.1, .error c) = some (c, q.1) := rfl
  rw [List.map_append, List.filterMap_append, clean, List.map_cons, fault, List.nil_append,
    List.filterMap_cons_some first, worst_first]

/-- An element that is misaligned or does not translate, none before it being so, decides how an indexed access ends. -/
theorem Performs.indexFault {i : Instr} {s1 : State} {k : List Xlat → M Unit} {es pre post : List (Nat × Nat)}
    {e : Nat × Nat}
    (p : Performs i s (checkPartsAt 4 nd false (es.map fun e => (e.2, 4)) >>= k) s1) (split : es = pre ++ e :: post)
    (fresh : s1.me.progress = none)
    (free : ((es.map fun e => (e.2, 4)).any fun p => walkHeld s1 s1.agent s1.cid s1.myCtx nd p.1) = false)
    (good : ∀ q ∈ pre, q.2 % 4 = 0 ∧ ∃ x, xlate s1 s1.cid s1.myCtx q.2 nd s1.sup = .ok x) :
    (e.2 % 4 ≠ 0 → Traps i s .misalignedAccess (word e.2)) ∧
      ∀ c, e.2 % 4 = 0 → xlate s1 s1.cid s1.myCtx e.2 nd s1.sup = .error c → c ≠ .notPresent →
        Traps i s c (word e.2) := by
  subst split
  have good' : ∀ p ∈ pre.map (fun e => (e.2, 4)), ∃ x, partXlat s1 nd 4 p.1 = .ok x := by
    intro p listed
    obtain ⟨q, mem, rfl⟩ := List.mem_map.1 listed
    obtain ⟨aligned, x, translated⟩ := good q mem
    exact ⟨x, (partXlat_aligned aligned).trans translated⟩
  have trapped {c : Cause} (fault : partXlat s1 nd 4 e.2 = .error c) (other : c ≠ .notPresent) :
      Traps i s c (word e.2) := by
    refine p.traps (s2 := s1) (M.bind_error ?_)
    rw [List.map_append, List.map_cons] at free ⊢
    rw [checkPartsAt_firstFault fresh free good' fault, xlatFault, if_neg other]
    rfl
  exact ⟨fun misaligned => trapped (if_neg misaligned) nofun,
    fun c aligned fault other => trapped ((partXlat_aligned aligned).trans fault) other⟩

end FirstFault

/-! ### VLDS, VSTS, VGATH and VSCAT -/

/-- Settles O23: the addresses that the stride word and the index vector name, checked and moved. -/
theorem stridedAndIndexedVectorAccesses : Obligations.StridedAndIndexedVectorAccesses := by
  refine ⟨?vlds, ?vsts, ?vgath, ?vscat, fun x v j a => mem_indexParts⟩
  case vlds =>
    intro s d a b r g n x y s1 s2 legal base stride w cnt k as
    have p := ((Performs.start (i := .vlds d a b r g n) legal rfl).step base).step stride
    refine ⟨fun bad => ?_, fun va count clear first => ?_, fun count clear aligned xs vs reached reads => ?_⟩
    · rw [strideParts_bad bad] at p
      exact p.traps (M.trap_run _ _ _)
    · rw [strideParts_good count clear] at p
      exact p.traps (M.bind_error (checkAligned_misaligned first _))
    · rw [strideParts_good count clear] at p
      have length : (as.map fun va => (va, w)).length = k := by simp [as]
      rw [← length]
      exact ((p.step (checkAligned_ok aligned)).loadParts (one_aligned _) reached reads).completes (writeV_run _ _ _)
  case vsts =>
    intro s d a b n x y s1 s2 legal base stride w cnt k ps s3
    have p := (((Performs.start (i := .vsts d a b n) legal rfl).step (readV_run d s)).step base).step stride
    have parts : (strideAddrs x y).map (fun va => (va, strideWidth y)) = ps := List.map_map
    have addrs : strideAddrs x y = ps.map (·.1) := by
      rw [← parts, List.map_map]
      exact (List.map_id _).symm
    refine ⟨fun bad => ?_, fun va count clear first => ?_, fun count clear aligned xs s4 reached stored => ?_⟩
    · rw [strideParts_bad bad] at p
      exact p.traps (M.trap_run _ _ _)
    · rw [strideParts_good count clear] at p
      exact p.traps (M.bind_error (checkAligned_misaligned (addrs ▸ first) _))
    · rw [strideParts_good count clear] at p
      have p := p.step (checkAligned_ok (addrs ▸ List.forall_mem_map.2 aligned))
      have length : (ps.zip (vElems (8 * w) (s.me.getV d.toNat))).length = ps.length := by
        rw [List.length_zip, vElems_length, lanes_eight_mul]
        exact Nat.min_eq_left (by simpa [ps] using count)
      simp only [parts] at p
      exact (p.step (gateStores_run _ _)).storesParts length (one_aligned _) reached stored
  case vgath =>
    intro s d a b g n x s1 legal base es ps
    have p := ((Performs.start (i := .vgath d a b g n) legal rfl).step base).step (readV_run b s1)
    rw [me_readX base] at p
    refine ⟨fun pre e post split fresh free good => p.indexFault split fresh free good,
      fun aligned xs vs reached reads => ?_⟩
    exact (p.loadParts (List.forall_mem_map.2 aligned) reached reads).completes (writeV_run _ _ _)
  case vscat =>
    intro s d a b n x s1 legal base es ps s2
    have p := (((Performs.start (i := .vscat d a b n) legal rfl).step (readV_run d s)).step base).step (readV_run b s1)
    rw [me_readX base] at p
    have p := p.step (gateStores_run _ _)
    refine ⟨fun pre e post split fresh free good => p.indexFault split fresh free good,
      fun aligned xs s3 reached stored => ?_⟩
    exact p.storesParts (by simp) (List.forall_mem_map.2 aligned) reached stored

end Sys2Proof.Machine
end

section
/-! SUPPORT. Packed accesses, prefetches and zeroed sectors (R58, R123 to R125): the packed word, and what a prefetch
leaves as it was; O24 from these. -/

namespace Sys2Proof.Machine

/-! ### The packed word (R123) -/

/-- The packed word of a load or a store is in range: a load leaves one bit more clear. -/
def PackedInRange (y : Word) (load : Bool) : Prop :=
  1 ≤ y.toNat % 32 ∧ y.toNat % 32 ≤ 16 ∧ y.toNat / 2 ^ (cond load 9 10) = 0 ∧ y.toNat / 2 ^ 5 % 8 = 0

theorem fld_blocks (y : Word) : fld y 4 0 = y.toNat % 32 := by simp [fld]

theorem packedInRange_iff (y : Word) (load : Bool) : PackedInRange y load ↔
    ¬ (fld y 4 0 = 0 ∨ 16 < fld y 4 0 ∨ fld y 63 10 ≠ 0 ∨ fld y 7 5 ≠ 0 ∨ (load && bit y 9) = true) := by
  have upper : fld y 63 10 = y.toNat / 2 ^ 10 := Nat.mod_eq_of_lt (by omega)
  have reserved : fld y 7 5 = y.toNat / 2 ^ 5 % 8 := rfl
  have ninth : bit y 9 = decide (y.toNat / 2 ^ 9 % 2 = 1) := Nat.testBit_eq_decide_div_mod_eq
  unfold PackedInRange
  rw [fld_blocks, upper, reserved, ninth]
  cases load
  · simp only [Bool.false_and, Bool.false_eq_true, or_false, cond_false]
    omega
  · simp only [Bool.true_and, decide_eq_true_eq, cond_true]
    omega

theorem packedWord_bad {y : Word} {load : Bool} (bad : ¬ PackedInRange y load) : packedWord y load = none :=
  if_pos (Decidable.of_not_not (mt (packedInRange_iff y load).2 bad))

theorem packedWord_good {y : Word} {load : Bool} (good : PackedInRange y load) :
    packedWord y load = some (y.toNat % 32, y.getLsbD 8, y.getLsbD 9) := by
  rw [← fld_blocks]
  exact if_neg ((packedInRange_iff y load).1 good)

/-! ### What a request and a prefetch leave as they were (R113, R124) -/

theorem SameSectors.threads {s t : State} (h : SameSectors s t) : SameThreads s t := by
  rw [h]
  exact .of_cores rfl rfl rfl rfl

theorem sameThreads_readX {n : BitVec 5} {s s1 : State} {x : Word} (h : readX n s = .ok x s1) : SameThreads s s1 := by
  rcases readX_ends h with rfl | ⟨a, rest, -, -, -, -, rfl⟩
  · exact .refl s1
  · refine ⟨fun c u => ?_, rfl, rfl, rfl⟩
    unfold State.thread
    by_cases own : c = s.cid
    · subst own
      rw [State.setMyCore, State.core_setCore]
      rfl
    · rw [State.setMyCore, State.core_setCore_ne s _ own]

/-- Of all threads the issuing one alone has changed, in its requests; the contexts are as they were. -/
def OnlyRequests (s t : State) : Prop :=
  t.me = { s.me with requests := t.me.requests } ∧ t.ctxs = s.ctxs ∧ t.cur = s.cur ∧
    ∀ c u, (c, u) ≠ s.cur → t.thread c u = s.thread c u

theorem SameThreads.onlyRequests {s t : State} (h : SameThreads s t) : OnlyRequests s t := by
  refine ⟨by rw [h.me], h.2.2.2, h.2.2.1, fun c u _ => h.1 c u⟩

theorem onlyRequests_requestAs (load : Bool) (n : Nat) (regs : List Nat) (s : State) :
    OnlyRequests s (after (requestAs load n regs) s) := by
  obtain ⟨th, me, e, ran⟩ : ∃ th, th = { s.me with requests := th.requests } ∧
      ∃ e, after (requestAs load n regs) s = (s.setMe th).emit e := ⟨_, rfl, _, rfl⟩
  have mine : ((s.setMe th).emit e).me = th := State.me_setMe s th
  rw [ran]
  refine ⟨by rw [mine]; exact me, rfl, rfl, fun c u other => ?_⟩
  show (s.setMe th).thread c u = s.thread c u
  unfold State.setMe State.setThread State.thread
  by_cases own : c = s.cid
  · subst own
    rw [State.core_setCore, Core.thread_setThread_ne _ _ fun slot => other (by rw [slot]; rfl)]
  · rw [State.core_setCore_ne s _ own]

theorem OnlyRequests.trans {s t u : State} (h : OnlyRequests s t) (k : OnlyRequests t u) : OnlyRequests s u := by
  obtain ⟨me, ctxs, cur, others⟩ := h
  obtain ⟨me', ctxs', cur', others'⟩ := k
  refine ⟨?_, ctxs'.trans ctxs, cur'.trans cur, fun c v other => ?_⟩
  · rw [me', me]
  · rw [others' c v (by rwa [cur]), others c v other]

theorem sameThreads_prefetchSectors (r g : BitVec 1) : ∀ (xs : List Xlat) (s : State),
    SameThreads s (xs.foldl (fun s x => prefetchSector s x r g) s)
  | [], s => .refl s
  | x :: xs, s => by
    rw [List.foldl_cons, prefetchSector_eq]
    exact ((sameThreads_applyXlat s s.cid s.myCtx x).trans (sameSectors_hintAt r g _ x).threads).trans
      (sameThreads_prefetchSectors r g xs _)

/-- A vector load changes of its thread only the requests before its register is written. -/
theorem onlyRequests_load (r g : BitVec 1) (xs : List Xlat) (n : Nat) (regs : List Nat) (s : State) :
    OnlyRequests s (after (hints r g xs) (after (requestLoad n regs) (s.touched xs))) :=
  ((sameThreads_touched xs s).onlyRequests.trans (onlyRequests_requestAs true n regs _)).trans
    (sameSectors_hints r g xs _).threads.onlyRequests

theorem writePartsBack_ok {back : Thread → Thread} {xs : List Xlat} {ws : List ((Nat × Nat) × Nat)} {s t : State}
    (h : writeParts xs ws s = .ok () t) : writePartsBack back xs ws s = .ok () t := by
  unfold writePartsBack
  rw [h]

/-! ### VLDP, VSTP, PREF and CZERO -/

/-- Settles O24: the packed word and the length in range or not, the parts moved, and PREF's sectors brought. -/
theorem packedPrefetchAndZeroing : Obligations.PackedPrefetchAndZeroing := by
  refine ⟨?vldp, ?vstp, ?pref, ?czero⟩
  case vldp =>
    intro s d a b r g n x y s1 s2 legal base packed k good ps src dst
    have p := ((Performs.start (i := .vldp d a b r g n) legal rfl).step base).step packed
    refine ⟨fun bad => ?_, fun good => ?_, fun good => ?_⟩
    · rw [packedWord_bad (y := y) (load := true) bad] at p
      exact p.traps (M.trap_run _ _ _)
    · rw [packedWord_good (y := y) (load := true) good] at p
      exact p.misaligned
    · rw [packedWord_good (y := y) (load := true) good] at p
      intro aligned xs vs w e reached reads widened
      have p := (p.aligned aligned).loadParts (one_aligned _) reached reads
      have seed : (after (hints r g xs) (after (requestLoad ps.length [vReg d]) (s2.touched xs))).me.seed =
          s.me.seed := by
        rw [(onlyRequests_load r g xs ps.length [vReg d] s2).1, me_readX packed, me_readX base]
      rw [← widen_eq, ← seed] at widened
      exact (p.step (liftF_ok widened)).completes (writeV_run _ _ _)
  case vstp =>
    intro s d a b n x y s1 s2 legal base packed k good ps dst src
    have p := (((Performs.start (i := .vstp d a b n) legal rfl).step (readV_run d s)).step base).step packed
    refine ⟨fun bad => ?_, fun good => ?_, fun good => ?_⟩
    · rw [packedWord_bad (y := y) (load := false) bad] at p
      exact p.traps (M.trap_run _ _ _)
    · rw [packedWord_good (y := y) (load := false) good] at p
      exact p.misaligned
    · rw [packedWord_good (y := y) (load := false) good] at p
      intro aligned xs w e s5 narrowed s3 s4 reached stored
      have p := p.aligned aligned
      have seed : s2.me.seed = s.me.seed := by rw [me_readX packed, me_readX base]
      rw [← narrow_eq, ← seed] at narrowed
      have p := ((p.step (liftF_ok narrowed)).step (gateStores_run _ _)).step (checkParts_ok reached)
      have written := writeParts_ok (ps := splitValue ps (pack 6 w)) (by rw [splitValue_length]; exact reached.atOnce)
        (by rw [splitValue_length, reached.length]) stored
      exact (p.step (writePartsBack_ok written)).completes (request_run _ _ _)
  case pref =>
    intro s a r g x s1 legal base ps xs t
    have p := ((Performs.start (i := .pref a r g) legal rfl).step base).step (M.get_run s1)
    have operand := sameThreads_readX base
    suffices brought : Completes (.pref a r g) s t ∧ OnlyRequests s1 t by
      obtain ⟨completes, me, ctxs, cur, others⟩ := brought
      refine ⟨completes, me, operand.me, ctxs.trans operand.2.2.2, fun c u other => ?_⟩
      rw [others c u (by rwa [operand.2.2.1]), operand.1]
    by_cases dropped : xs = []
    · have stays : t = s1 := if_pos dropped
      rw [stays]
      exact ⟨p.completes (congrFun (if_neg (c := (!xs.isEmpty) = true) (by simp [dropped])) s1),
        (SameThreads.refl s1).onlyRequests⟩
    · have brings : t = xs.foldl (fun u p => prefetchSector u p r g) (after (request xs.length []) s1) := if_neg dropped
      rw [brings]
      exact ⟨p.completes (congrFun (if_pos (c := (!xs.isEmpty) = true) (by simp [dropped])) s1),
        (onlyRequests_requestAs false xs.length [] s1).trans (sameThreads_prefetchSectors r g xs _).onlyRequests⟩
  case czero =>
    intro s a b x y s1 s2 legal base length
    have p := ((Performs.start (i := .czero a b) legal rfl).step base).step length
    refine ⟨fun bad => p.unmet ?_, fun zero => ?_, fun nonzero multiple short => ?_, fun nonzero multiple short => ?_⟩
    · rw [← Bool.not_eq_true, Bool.and_eq_true_iff, beq_iff_eq, decide_eq_true_eq]
      exact bad
    · subst zero
      exact (p.met rfl).completes rfl
    · have p := p.met (Bool.and_eq_true_iff.2 ⟨beq_iff_eq.2 multiple, decide_eq_true short⟩)
      rw [if_neg nonzero] at p
      exact p.misaligned
    · have p := p.met (Bool.and_eq_true_iff.2 ⟨beq_iff_eq.2 multiple, decide_eq_true short⟩)
      rw [if_neg nonzero] at p
      intro aligned ps xs s3 reached stored
      exact (p.aligned aligned).storesParts (List.length_map _) (one_aligned _) reached stored

end Sys2Proof.Machine
end

section
/-! SUPPORT. The law words (R145, R158, R179, R181 to R189): the fields of an operand, and a word followed to the object it
names; O41 from these. -/

namespace Sys2Proof.Machine

/-! ### The operand's fields (R185, R187, R188) -/

theorem fld_low {n : Nat} (w : BitVec n) (hi : Nat) : fld w hi 0 = w.toNat % 2 ^ (hi + 1) := by simp [fld]

theorem fld_index (y : Word) : fld y 7 0 = y.toNat % 256 := fld_low y 7

theorem fld_amount (y : Word) : fld y 63 32 = y.toNat / 2 ^ 32 := Nat.mod_eq_of_lt (by omega)

/-- What LWADD delivers is the value that it leaves (R185). -/
theorem lawAdd_value (y : Word) (entry : LawEntry) (now : Nat) (a : LawEval) :
    ((lawAdd y entry now a).getD (0, [])).1 =
      if entry.kind = 4 then (a.v + y.toNat % 2 ^ 32) % 2 ^ 32
      else entry.clamp (a.v + toSigned (y.toNat % 2 ^ 32) 32) := by
  simp [lawAdd, fld_low]

/-! ### How a law word ends (R179, R181) -/

namespace Performs

variable {i : Instr} {s s1 : State} {x : Word}

theorem waits {m : M Unit} {w : Wait} {s2 : State} (p : Performs i s m s1) (stopped : m s1 = .error (.wait w) s2) :
    Waits i s w := by
  obtain ⟨legal, effect, runs, left⟩ := p
  exact waits_of runs legal (left.trans stopped)

theorem lawStops {e : LawStop} (p : Performs i s (lawStopM e) s1) : LawStops i s e := by
  obtain ⟨legal, effect, runs, left⟩ := p
  exact lawStops_run (k := pure) runs legal (left.trans (by rw [bind_pure]))

theorem lawDoes {regs : List Nat} {f : LawChange} {fin : LawCell → LawEval → M Unit}
    (p : Performs i s (lawM x regs f >>= fun q => fin q.1 q.2) s1) : LawDoes i s s1 x regs f fin := by
  obtain ⟨legal, effect, runs, left⟩ := p
  exact Machine.lawDoes runs legal left

theorem lawAddress {k : LawPlace → M Unit} (p : Performs i s (lawAddr x >>= k) s1) (inside : LawInRange x) :
    Performs i s (k (lawPlace s1 x)) s1 := p.step (lawAddr_ok inside)

theorem lawAddress_outside {k : LawPlace → M Unit} (p : Performs i s (lawAddr x >>= k) s1) (outside : ¬ LawInRange x) :
    Traps i s .addressRange x := p.traps (M.bind_error (lawAddr_bad outside))

/-- Where an object is asked for: the wait for a request entry, what stops the opening, and the object at hand (R328). -/
theorem asks {opened : Except LawStop (LawCell × State)} {rest : LawCell → State → M Unit}
    (p : Performs i s (if (!poolHas s1 1) = true then waitFor .reg
      else match opened with
        | .error e => lawStopM e
        | .ok (c, t) => rest c t) s1) :
    (poolHas s1 1 = false → Waits i s .reg) ∧
      (poolHas s1 1 = true → (∀ e, opened = .error e → LawStops i s e) ∧
        ∀ c t, opened = .ok (c, t) → Performs i s (rest c t) s1) := by
  refine ⟨fun full => ?_, fun room => ?_⟩
  · rw [if_pos (by rw [full]; rfl)] at p
    exact p.waits (M.waitFor_run _ _)
  · rw [if_neg (by rw [room]; nofun)] at p
    refine ⟨fun e stopped => ?_, fun c t opens => ?_⟩
    · subst stopped
      exact p.lawStops
    · subst opens
      exact p

/-- What follows the opening: the state it leaves, the request, and the register written. -/
theorem answers {t v : State} {regs : List Nat} {d : BitVec 5} {w : Word}
    (p : Performs i s (set t >>= fun _ => request 1 regs >>= fun _ => writeX d w) s1)
    (written : writeX d w (after (request 1 regs) t) = .ok () v) : Completes i s v :=
  ((p.step (M.set_run s1 t)).step (request_run 1 regs t)).completes written

end Performs

/-! ### The words -/

/-- Settles O41: the committing words by lawDoes; LWPEEK and LWINIT open their object and look, or write a fresh one. -/
theorem lawWords : Obligations.LawWords := by
  refine ⟨?reads, ?changes, ?lwpeek, ?lwnow⟩
  case reads =>
    intro s d a x s1 address
    exact ⟨fun legal => ((Performs.start (i := .lwrd d a) legal rfl).step address).lawDoes,
      fun legal => ((Performs.start (i := .lwrdx d a) legal rfl).step address).lawDoes⟩
  case changes =>
    intro s d a b x y s1 s2 address operand
    refine ⟨fun legal => ?lwadd, fun legal => ?lwset, fun legal => ?lwdep, fun legal inside dirty => ?lwinitDirty,
      fun legal outside => ?lwinitOutside, fun legal inside clear => ?lwinit⟩
    case lwadd =>
      have p := ((Performs.start (i := .lwadd d a b) legal rfl).step address).step operand
      simp only [lawAdd_value] at p
      exact p.lawDoes
    case lwset => exact (((Performs.start (i := .lwset d a b) legal rfl).step address).step operand).lawDoes
    case lwdep =>
      have p := ((Performs.start (i := .lwdep a b) legal rfl).step address).step operand
      rw [fld_amount, fld_low] at p
      exact ⟨fun dirty => p.unmet (beq_false_of_ne dirty), fun clear => (p.met (beq_iff_eq.2 clear)).lawDoes⟩
    all_goals have p := ((Performs.start (i := .lwinit d a b) legal rfl).step address).step operand
    case lwinitDirty => exact (p.lawAddress inside).unmet (beq_false_of_ne dirty)
    case lwinitOutside => exact p.lawAddress_outside outside
    case lwinit =>
      have p := (((p.lawAddress inside).met (beq_iff_eq.2 clear)).step (pin_run s2)).step (M.get_run _)
      rw [fld_index] at p
      refine ⟨p.asks.1, fun free => ?_⟩
      obtain ⟨stops, opens⟩ := p.asks.2 free
      exact ⟨stops, fun c s4 s5 opened written => (opens c s4 opened).answers written⟩
  case lwpeek =>
    intro s d a x s1 legal address
    have p := (Performs.start (i := .lwpeek d a) legal rfl).step address
    have looks := fun inside => ((p.lawAddress inside).step (M.get_run s1)).asks
    refine ⟨p.lawAddress_outside, fun inside => (looks inside).1, fun inside free => ?_⟩
    obtain ⟨stops, opens⟩ := (looks inside).2 free
    exact ⟨stops, fun c s2 s3 opened written => (opens c s2 opened).answers written⟩
  case lwnow =>
    intro s d a t legal written
    exact (Performs.start (i := .lwnow d a) legal rfl).completes written

end Sys2Proof.Machine
end

section
/-! SUPPORT. The evaluation of a law word (R154, R160, R167 to R170, R181): how a value evolves, that it stays one that
its word can hold, and what is left to evaluate at the tick of the stamp; O43 from these. -/

namespace Sys2Proof.Machine

/-! ### How a value evolves (R168, R169) -/

namespace LawEntry

variable {e : LawEntry}

theorem clamp_bounded (bounded : e.kind ≠ 4) (x : Int) : e.clamp x = min e.hi (max e.lo x) := if_neg bounded

theorem evolve_hold (hold : e.kind = 0) (v : Int) (k : Nat) : e.evolve v k = (min e.hi (max e.lo v), 0) := by
  simp [evolve, clamp, hold]

theorem evolve_ramp (ramp : e.kind = 1) (v : Int) (k : Nat) :
    e.evolve v k = (min e.hi (max e.lo (v + e.rate * k)), 0) := by
  simp [evolve, clamp, ramp]

theorem evolve_leak (leak : e.kind = 2) (v : Int) (k : Nat) : e.evolve v k =
    (min e.hi (max e.lo (e.rest + ((v - e.rest) * decayPow e.decay k).tdiv (2 ^ 32))), 0) := by
  simp [evolve, clamp, leak]

theorem evolve_lif (lif : e.kind = 3) (v : Int) (k : Nat) : e.evolve v k = (min e.hi (max e.lo
    (e.rest + e.bias + ((v - (e.rest + e.bias)) * decayPow e.decay k).tdiv (2 ^ 32))), 0) := by
  simp [evolve, clamp, lif]

theorem evolve_phase (phase : e.kind = 4) (v : Int) (k : Nat) : e.evolve v k = ((v + e.rate * k) % 2 ^ 32,
    ((v + e.rate * k) / 2 ^ 32 - (v + e.rate * (k - 1)) / 2 ^ 32).toNat) := by
  simp [evolve, phase]

end LawEntry

theorem decayPow_zero (d : Nat) : decayPow d 0 = 2 ^ 32 := by
  unfold decayPow powLoop
  exact if_pos rfl

/-- The base 0 takes the power to 0 with the lowest bit set of the exponent, and keeps it there. -/
theorem powLoop_zero : ∀ (fuel r k : Nat), 1 ≤ k → k < 2 ^ fuel → powLoop fuel r 0 k = 0
  | 0, _, _, positive, short => by omega
  | fuel + 1, r, k, positive, short => by
    have round : powLoop (fuel + 1) r 0 k = powLoop fuel (if k % 2 = 1 then 0 else r) 0 (k / 2) := by
      simp [powLoop, Nat.ne_of_gt positive]
    rw [round]
    by_cases last : k = 1
    · subst last
      cases fuel <;> rfl
    · exact powLoop_zero fuel _ (k / 2) (by omega) (by omega)

/-! ### The values that a law word holds (R154, R167, R170) -/

namespace LawEntry

variable {e : LawEntry}

/-- A value of 32 bits: unsigned in a phase, else two's complement. -/
def Fits (e : LawEntry) (v : Int) : Prop := if e.kind = 4 then 0 ≤ v ∧ v < 2 ^ 32 else -2 ^ 31 ≤ v ∧ v < 2 ^ 31

/-- The bounds and the reset value of the entry are values of its word. -/
structure Bounded (e : LawEntry) : Prop where
  kind : e.kind ≤ 4
  lo : -2 ^ 31 ≤ e.lo
  ordered : e.lo ≤ e.hi
  hi : e.hi < 2 ^ 31
  reset : e.kind = 4 → 0 ≤ e.reset ∧ e.reset < 2 ^ 32

theorem fits_phase (phase : e.kind = 4) {v : Int} : e.Fits v ↔ 0 ≤ v ∧ v < 2 ^ 32 := by rw [Fits, if_pos phase]

theorem fits_signed (signed : e.kind ≠ 4) {v : Int} : e.Fits v ↔ -2 ^ 31 ≤ v ∧ v < 2 ^ 31 := by rw [Fits, if_neg signed]

theorem fits_mod (phase : e.kind = 4) (v : Int) : e.Fits (v % 2 ^ 32) := (fits_phase phase).2 (by omega)

theorem Bounded.fits_clamped (b : e.Bounded) (signed : e.kind ≠ 4) (x : Int) : e.Fits (min e.hi (max e.lo x)) := by
  obtain ⟨-, lo, ordered, hi, -⟩ := b
  exact (fits_signed signed).2 (by omega)

theorem Bounded.fits_clamp (b : e.Bounded) (signed : e.kind ≠ 4) (x : Int) : e.Fits (e.clamp x) := by
  rw [clamp_bounded signed]
  exact b.fits_clamped signed x

theorem Bounded.fits_evolve (b : e.Bounded) (v : Int) (k : Nat) : e.Fits (e.evolve v k).1 := by
  have kinds : e.kind = 0 ∨ e.kind = 1 ∨ e.kind = 2 ∨ e.kind = 3 ∨ e.kind = 4 := by have := b.kind; omega
  obtain hold | ramp | leak | lif | phase := kinds
  · rw [evolve_hold hold]
    exact b.fits_clamped (by omega) _
  · rw [evolve_ramp ramp]
    exact b.fits_clamped (by omega) _
  · rw [evolve_leak leak]
    exact b.fits_clamped (by omega) _
  · rw [evolve_lif lif]
    exact b.fits_clamped (by omega) _
  · rw [evolve_phase phase]
    exact fits_mod phase _

theorem Bounded.fits_addSlot (b : e.Bounded) (v : Int) (slot : BitVec 32) : e.Fits (e.addSlot v slot).1 := by
  unfold addSlot
  split
  case isTrue phase => exact fits_mod phase _
  case isFalse signed => exact b.fits_clamp signed _

theorem Bounded.fits_resetTo (b : e.Bounded) {v : Int} (fits : e.Fits v) (wraps : Nat) :
    e.Fits (e.resetTo v wraps).1 := by
  by_cases phase : e.kind = 4
  · cases subtract : e.subtract
    · simpa [resetTo, phase, subtract] using (fits_phase phase).2 (b.reset phase)
    · simpa [resetTo, phase, subtract] using fits
  · cases subtract : e.subtract
    · simpa [resetTo, phase, subtract] using b.fits_clamp phase e.reset
    · simpa [resetTo, phase, subtract] using b.fits_clamp phase (v - e.theta)

/-- A tick leaves the value evolved, with a slot added that is not 0, and reset if that has crossed. -/
theorem tick_v (e : LawEntry) (a : LawEval) (t : Nat) : ∃ slot wraps, (e.tick a t).v =
    (let u := (e.evolve a.vs (t - a.start)).1
     let v := if slot = 0 then u else (e.addSlot u slot).1
     if e.crossed v wraps then (e.resetTo v wraps).1 else v) := by
  refine ⟨if e.len = 0 then 0 else a.slots.getD (t % e.len) 0, ?_⟩
  simp only [tick, apply_ite Prod.fst]
  exact ⟨_, rfl⟩

theorem Bounded.fits_tick (b : e.Bounded) (a : LawEval) (t : Nat) : e.Fits (e.tick a t).v := by
  obtain ⟨slot, wraps, left⟩ := tick_v e a t
  rw [left]
  extract_lets u v
  have added : e.Fits v := by
    unfold v
    split
    · exact b.fits_evolve _ _
    · exact b.fits_addSlot _ _
  split
  · exact b.fits_resetTo added wraps
  · exact added

theorem ticks_zero (e : LawEntry) (t : Nat) (a : LawEval) : e.ticks 0 t a = a := rfl

theorem Bounded.fits_ticks (b : e.Bounded) : ∀ (m t : Nat) {a : LawEval}, e.Fits a.v → e.Fits (e.ticks m t a).v
  | 0, _, _, fits => fits
  | m + 1, t, a, _ => b.fits_ticks m (t + 1) (b.fits_tick a (t + 1))

theorem fits_value (e : LawEntry) (w : Word) : e.Fits (e.value w) := by
  unfold value
  split
  case isTrue phase =>
    have := fld_amount w
    exact (fits_phase phase).2 (by omega)
  case isFalse signed => exact (fits_signed signed).2 ⟨BitVec.le_toInt _, BitVec.toInt_lt⟩

theorem Bounded.fits_advance (b : e.Bounded) (o : LawObj) (now : Nat) : e.Fits (e.advance o now).v :=
  b.fits_ticks _ _ (fits_value e o.word)

end LawEntry

/-! ### A law word written back (R154, R181) -/

section WrittenBack

variable {index : Nat} (v : Int) (stamp : Nat)

theorem toNat_lawWord (short : index < 256) :
    (lawWord v stamp index).toNat = (v % 2 ^ 32).toNat * 2 ^ 32 + stamp % 2 ^ 24 * 2 ^ 8 + index := by
  rw [lawWord, word, BitVec.toNat_ofNat]
  omega

theorem fld_stamp_lawWord (short : index < 256) : fld (lawWord v stamp index) 31 8 = stamp % 2 ^ 24 := by
  rw [fld, toNat_lawWord v stamp short]
  omega

theorem fld_value_lawWord (short : index < 256) : fld (lawWord v stamp index) 63 32 = (v % 2 ^ 32).toNat := by
  rw [fld_amount, toNat_lawWord v stamp short]
  omega

theorem toSigned_emod {v : Int} (signed : -2 ^ 31 ≤ v ∧ v < 2 ^ 31) : toSigned (v % 2 ^ 32).toNat 32 = v := by
  rw [toSigned, BitVec.toInt_ofNat', Int.bmod_def]
  omega

theorem LawEntry.value_lawWord {e : LawEntry} {v : Int} (fits : e.Fits v) (short : index < 256) :
    e.value (lawWord v stamp index) = v := by
  rw [LawEntry.value, fld_value_lawWord v stamp short]
  split
  case isTrue phase =>
    have := (fits_phase phase).1 fits
    omega
  case isFalse signed => exact toSigned_emod ((fits_signed signed).1 fits)

end WrittenBack

theorem LawObj.index_lt (o : LawObj) : o.index < 256 := Nat.mod_lt _ (by decide)

theorem elapsed_self (now : Nat) : elapsed now (now % 2 ^ 24) = 0 := by unfold elapsed; omega

theorem elapsed_before {now k : Nat} (recent : k < 2 ^ 24) (past : k ≤ now) : elapsed now ((now - k) % 2 ^ 24) = k := by
  unfold elapsed
  omega

/-- An object whose stamp is now has no tick to evaluate (R167). -/
theorem LawEntry.advance_current {e : LawEntry} {o : LawObj} {now : Nat} (current : elapsed now (fld o.word 31 8) = 0) :
    ∃ t, e.advance o now = ⟨e.value o.word, t, e.value o.word, o.slots, 0, 0, none, 0⟩ := by
  unfold LawEntry.advance
  rw [current]
  exact ⟨_, LawEntry.ticks_zero ..⟩

/-- A value written back at now is read back at now: no tick lies between (R160, R167). -/
theorem LawEntry.advance_writtenBack {e : LawEntry} {v : Int} {index : Nat} (fits : e.Fits v) (short : index < 256)
    (slots : List (BitVec 32)) (now : Nat) :
    let b := e.advance ⟨lawWord v now index, slots⟩ now
    b.v = v ∧ b.slots = slots ∧ b.n = 0 ∧ b.supp = 0 := by
  have current : elapsed now (fld (lawWord v now index) 31 8) = 0 := by
    rw [fld_stamp_lawWord v now short, elapsed_self]
  obtain ⟨t, left⟩ := LawEntry.advance_current (e := e) (o := ⟨lawWord v now index, slots⟩) current
  rw [LawEntry.value_lawWord now fits short] at left
  simp only [left, and_self]

/-- Settles O43: the kinds one by one, and the value evaluated, which fits its word, written back. -/
theorem lawEvaluation : Obligations.LawEvaluation := by
  refine ⟨fun _ v k => ⟨(LawEntry.evolve_hold · v k), (LawEntry.evolve_ramp · v k), (LawEntry.evolve_leak · v k),
    (LawEntry.evolve_lif · v k), (LawEntry.evolve_phase · v k)⟩, decayPow_zero, powLoop_zero 64 _, ?again,
    fun _ _ => elapsed_before⟩
  intro e o now kind lo ordered hi reset
  have bounded : e.Bounded := ⟨kind, lo, ordered, hi, reset⟩
  exact LawEntry.advance_writtenBack (bounded.fits_advance o now) o.index_lt _ now

end Sys2Proof.Machine
end

section
/-! SUPPORT. LWSTEP and LWSWEEP (R158, R163, R190, R191): the wait for a request entry, the count and the boundary that a
step looks at, a region's fields and the status of a registration; O42 from these. -/

namespace Sys2Proof.Machine

/-! ### A word followed into a branch -/

namespace Performs

variable {i : Instr} {s s1 : State}

theorem taken {c : Prop} [Decidable c] {m n : M Unit} (p : Performs i s (if c then m else n) s1) (holds : c) :
    Performs i s m s1 := by rwa [if_pos holds] at p

theorem passed {c : Prop} [Decidable c] {m n : M Unit} (p : Performs i s (if c then m else n) s1) (fails : ¬ c) :
    Performs i s n s1 := by rwa [if_neg fails] at p

/-- Without a request entry the word waits, and goes on with one (R328). -/
theorem entry {stuck : Unit → M Unit} {rest : M Unit}
    (p : Performs i s (get >>= fun t => if (!poolHas t 1) = true then waitFor .reg >>= stuck else rest) s1) :
    (poolHas s1 1 = false → Waits i s .reg) ∧ (poolHas s1 1 = true → Performs i s rest s1) :=
  have p := p.step (M.get_run s1)
  ⟨fun full => (p.taken (by rw [full]; rfl)).waits (M.bind_error (M.waitFor_run _ _)),
    fun room => p.passed (by rw [room]; nofun)⟩

/-- A wait that keeps what the word has done, but for the payload read (R39). -/
theorem parksKeeping {m : M Unit} {w : Wait} {t : State} (p : Performs i s m s1) (stopped : m s1 = .error (.park w) t) :
    exec i s = .next (beginPark (keepPayload s t) w) := by
  obtain ⟨legal, effect, runs, left⟩ := p
  rw [runs]
  exact run_park legal (left.trans stopped)

end Performs

/-! ### The count and the boundary of LWSTEP (R163, R190) -/

theorem stepOperands_iff {stepped : Bool} {n : Nat} :
    (stepped && decide (1 ≤ n) && decide (n ≤ 2 ^ 20)) = true ↔ stepped = true ∧ 1 ≤ n ∧ n ≤ 2 ^ 20 := by
  rw [Bool.and_eq_true_iff, Bool.and_eq_true_iff, decide_eq_true_eq, decide_eq_true_eq, and_assoc]

section Boundary

variable {α : Type} {modes : Word} {ticks : Nat} {behind : Option α}

/-- In hardware mode a step past a boundary looks at the sweep of the last one. -/
theorem looked_passing (passes : modes.getLsbD 3 = false ∧ 2 ^ 21 ≤ ticks) :
    (if (bit modes 3 || decide (ticks < 2 ^ 21)) = true then none else behind) = behind := by
  obtain ⟨hardware, far⟩ := passes
  refine if_neg ?_
  rw [bit, hardware, Bool.false_or, decide_eq_true_eq]
  exact Nat.not_lt.2 far

theorem looked_free (free : modes.getLsbD 3 = false ∧ 2 ^ 21 ≤ ticks → behind = none) :
    (if (bit modes 3 || decide (ticks < 2 ^ 21)) = true then none else behind) = none := by
  by_cases passes : modes.getLsbD 3 = false ∧ 2 ^ 21 ≤ ticks
  · rw [looked_passing passes, free passes]
  · refine if_pos ?_
    rw [Bool.or_eq_true, decide_eq_true_eq, ← Bool.not_eq_false]
    by_cases hardware : modes.getLsbD 3 = false
    · exact .inr (Nat.lt_of_not_le fun far => passes ⟨hardware, far⟩)
    · exact .inl hardware

end Boundary

/-! ### The fields of LWSWEEP and the status of a registration (R191) -/

theorem sweepOperands_iff {x y : Word} :
    (fld y 62 40 == 0 && fld y 36 34 == 0 && !bit x 63) = true ↔
      y.toNat / 2 ^ 40 % 2 ^ 23 = 0 ∧ y.toNat / 2 ^ 34 % 2 ^ 3 = 0 ∧ x.getLsbD 63 = false := by
  rw [Bool.and_eq_true_iff, Bool.and_eq_true_iff, beq_iff_eq, beq_iff_eq, Bool.not_eq_true', and_assoc]
  rfl

/-- The spacing of a region's cells. -/
def regionSpacing (y : Word) : Nat := match fld y 33 32 with | 0 => 8 | 1 => 32 | 2 => 64 | _ => 128

theorem regionSpacing_eq (y : Word) : regionSpacing y = [8, 32, 64, 128].getD (y.toNat / 2 ^ 32 % 4) 128 := by
  have field : fld y 33 32 = y.toNat / 2 ^ 32 % 4 := rfl
  have small : y.toNat / 2 ^ 32 % 4 < 4 := Nat.mod_lt _ (by decide)
  unfold regionSpacing
  rw [field]
  generalize y.toNat / 2 ^ 32 % 4 = k at small
  interval_cases k <;> rfl

theorem regionCount_iff {n : Nat} : (n != 0 && decide (n ≤ 2 ^ 28)) = true ↔ n ≠ 0 ∧ n ≤ 2 ^ 28 := by
  rw [Bool.and_eq_true_iff, bne_iff_ne, decide_eq_true_eq]

/-- What a registration delivers, and that it adds its region with 0 alone. -/
theorem Performs.registers {i : Instr} {s s1 : State} {host full heavy : Prop} [Decidable host] [Decidable full]
    [Decidable heavy] {d : BitVec 5} {add : M Unit} (p : Performs i s (if host then writeX d 3 else
      if full then writeX d 1 else if heavy then writeX d 2 else add) s1) :
    let st : Word := if host then 3 else if full then 1 else if heavy then 2 else 0
    (st ≠ 0 → Performs i s (writeX d st) s1) ∧ (st = 0 → Performs i s add s1) := by
  by_cases hosted : host
  · simpa [hosted] using p
  by_cases filled : full
  · simpa [hosted, filled] using p
  by_cases loaded : heavy
  · simpa [hosted, filled, loaded] using p
  · simpa [hosted, filled, loaded] using p

/-! ### The words -/

/-- Settles O42: a step's checks, its boundary and its clock; a sweep's checks, its release and its registration. -/
theorem lawStepAndSweep : Obligations.LawStepAndSweep := by
  refine ⟨?lwstep, ?lwsweep⟩
  case lwstep =>
    intro s d a b m s1 legal count x _
    have p := (Performs.start (i := .lwstep d a b) legal rfl).step count
    refine ⟨fun wrong => ?_, fun dom (found : (s.ctx s.myCtx).domains[a.toNat]? = _) stepped positive few => ?_⟩
    · cases found : (s.ctx s.myCtx).domains[a.toNat]? with
      | none =>
        simp only [found] at p
        exact p.traps (M.trap_run _ _ _)
      | some dom =>
        simp only [found] at p
        refine p.unmet (Bool.eq_false_iff.2 fun met => ?_)
        obtain ⟨stepped, positive, few⟩ := stepOperands_iff.1 met
        rcases wrong dom found with free | rfl | many
        · exact Bool.noConfusion (stepped.symm.trans free)
        · exact absurd positive (by decide)
        · exact absurd many (Nat.not_lt.2 few)
    · intro old passes free s2
      simp only [found] at p
      have p := (p.met (stepOperands_iff.2 ⟨stepped, positive, few⟩)).step (pin_run s1)
      refine ⟨fun clear => ?_, fun clear room s3 written => ?_, fun r j passing late => ?_⟩
      · rw [looked_free clear] at p
        exact p.entry.1
      · rw [looked_free clear] at p
        have p := (p.entry.2 room).step (M.modify_run _ _)
        exact (p.step (request_run _ _ _)).completes written
      · rw [looked_passing passing, late] at p
        split
        case isTrue asked => exact (p.taken asked).waits (M.bind_error (M.waitFor_run _ _))
        case isFalse unasked => exact ((p.passed unasked).step (M.emitM_run _ _)).parksKeeping (M.throw_run _ _)
  case lwsweep =>
    intro s d a b x y s1 s2 legal base operand c cx s3 ok
    have p := ((Performs.start (i := .lwsweep d a b) legal rfl).step base).step operand
    have asks := fun good : ok => ((p.met (sweepOperands_iff.2 good)).step (pin_run s2)).entry
    refine ⟨fun dirty => p.unmet (Bool.eq_false_iff.2 (mt sweepOperands_iff.1 dirty)), fun good => (asks good).1,
      fun good room release => ?_, fun good room release clear s4 written => ?_, fun good room register => ?_⟩
    · have p := ((asks good).2 room).taken release
      rw [fld_low] at p
      exact fun dirty => p.unmet (beq_false_of_ne dirty)
    · have p := ((asks good).2 room).taken release
      rw [fld_low] at p
      have p := (p.met (beq_iff_eq.2 clear)).step (M.modify_run _ _)
      exact (p.step (request_run _ _ _)).completes written
    · have p := ((asks good).2 room).passed (by rw [bit, register]; nofun)
      rw [fld_low] at p
      rw [← regionSpacing_eq y]
      intro sp n dom s4
      have counts := fun aligned : x.toNat % sp = 0 => p.aligned aligned
      refine ⟨p.misaligned, fun aligned wrong => (counts aligned).unmet ?_, fun aligned positive few => ?_⟩
      · exact Bool.eq_false_iff.2 fun met => by have := regionCount_iff.1 met; omega
      · have p := ((counts aligned).met (regionCount_iff.2 ⟨positive, few⟩)).step (request_run _ _ _)
        obtain ⟨refused, added⟩ := p.registers
        exact ⟨fun no s5 written => (refused no).completes written,
          fun yes s5 written => ((added yes).step (M.modify_run _ _)).completes written⟩

end Sys2Proof.Machine
end

section
/-! SUPPORT. Local memory's words (R192, R196 to R204, R422): loads, stores and atomics of a core's own bytes, their full
bits, the transposing gather and the exchange stores; O25, O26 and O27 from these. -/

namespace Sys2Proof.Machine

/-! ### Local accesses followed from check to check (R192, R196, R199) -/

namespace Performs

variable {i : Instr} {s s1 : State} {k : Unit → M Unit}

theorem localStops {o n align : Nat} (p : Performs i s (localCheck o n align >>= k) s1) :
    LocalStops i s s1.myCore o n align := by
  obtain ⟨legal, effect, runs, left⟩ := p
  exact Machine.localStops runs legal ⟨k, left⟩

theorem opened {o n align : Nat} (p : Performs i s (localCheck o n align >>= k) s1)
    (inside : LocalOpen s1.myCore o n align) : Performs i s (k ()) s1 := p.step (localCheck_open inside)

theorem loadServed {q g n : Nat} (p : Performs i s (loadQual q g n >>= k) s1) (served : q ≠ 0 → Served s1 g n true) :
    Performs i s (k ()) s1 := p.step (loadQual_ok served)

theorem loadWaits {q g n : Nat} (p : Performs i s (loadQual q g n >>= k) s1) (asks : q ≠ 0)
    (early : ¬ Served s1 g n true) : Waits i s (.granules g n true) := p.waits (M.bind_error (loadQual_wait asks early))

theorem storeServed {q g n : Nat} (p : Performs i s (storeQual q g n >>= k) s1)
    (served : q = 2 → Served s1 g n false) : Performs i s (k ()) s1 := p.step (storeQual_ok served)

theorem storeWaits {q g n : Nat} (p : Performs i s (storeQual q g n >>= k) s1) (asks : q = 2)
    (early : ¬ Served s1 g n false) : Waits i s (.granules g n false) := p.waits (M.bind_error (storeQual_wait asks early))

end Performs

/-- Settles O25: each word is LLD's or LST's operation with its qualifier. -/
theorem localLoadsAndStores : Obligations.LocalLoadsAndStores := by
  refine ⟨⟨localLoadDoes (by decide) fun _ _ _ _ _ => rfl, localLoadDoes (by decide) fun _ _ _ _ _ => rfl,
    localLoadDoes (by decide) fun _ _ _ _ _ => rfl, fun _ => ⟨rfl, rfl, rfl, rfl, rfl, rfl, rfl, rfl⟩⟩, ?stores⟩
  exact ⟨localStoreDoes (by decide) fun _ _ _ _ _ => rfl, localStoreDoes (by decide) fun _ _ _ _ _ => rfl,
    localStoreDoes (by decide) fun _ _ _ _ _ => rfl⟩

/-- A vector qualifier is its number (R196). -/
theorem qualifier_ne_zero {q : BitVec 5} : q.toNat ≠ 0 ↔ q ≠ 0 := by
  rw [Ne, Ne, ← BitVec.toNat_inj]
  rfl

theorem qualifier_eq_two {q : BitVec 5} : q.toNat = 2 ↔ q = 2 := by
  rw [← BitVec.toNat_inj]
  rfl

/-- Settles O26: each word followed through its checks, its qualifier, its bytes and its bits. -/
theorem localVectorsAndLocalAtomics : Obligations.LocalVectorsAndLocalAtomics := by
  refine ⟨?vlld, ?vlst, ?lamoadd, ?lcas⟩
  case vlld =>
    intro s d a q x s1 legal offset
    have p := (Performs.start (i := .vlld d a q) legal rfl).step offset
    refine ⟨p.localStops, fun inside => ?_⟩
    have p := p.opened inside
    refine ⟨fun asks => p.loadWaits (qualifier_ne_zero.2 asks), fun served => ?_⟩
    have p := (p.loadServed fun asks => served (qualifier_ne_zero.1 asks)).step (show lRead _ _ s1 = .ok _ s1 from rfl)
    by_cases clears : q = 2#5
    · rw [if_pos clears]
      exact ((p.taken clears).step (setFE_run _ _ _ _)).completes (writeV_run _ _ _)
    · rw [if_neg clears]
      exact (p.passed clears).completes (writeV_run _ _ _)
  case vlst =>
    intro s d a q x s1 legal offset
    have p := ((Performs.start (i := .vlst d a q) legal rfl).step (readV_run d s)).step offset
    refine ⟨p.localStops, fun inside => ?_⟩
    have p := p.opened inside
    refine ⟨fun asks => p.storeWaits (qualifier_eq_two.2 asks), fun served => ?_⟩
    intro s2
    have p := (p.storeServed fun asks => served (qualifier_eq_two.1 asks)).step (lWrite_run _ _ _ s1)
    by_cases sets : q ≠ 0
    · rw [if_pos sets]
      exact (p.taken sets).completes (setFE_run _ _ _ _)
    · rw [if_neg sets]
      exact (p.passed sets).completes rfl
  case lamoadd =>
    intro s d a b x y s1 s2 legal offset operand
    have p := ((Performs.start (i := .lamoadd d a b) legal rfl).step offset).step operand
    refine ⟨p.localStops, fun inside => ?_⟩
    intro old s3 written
    have p := (p.opened inside).step (show lRead _ _ s2 = .ok old s2 from rfl)
    exact (p.step (lWrite_run _ _ _ s2)).completes written
  case lcas =>
    intro s d a b x y s1 s2 legal offset operand
    have p := ((Performs.start (i := .lcas d a b) legal rfl).step offset).step operand
    refine ⟨p.localStops, fun inside => ?_⟩
    intro old s3 written
    have p := (p.opened inside).step (show lRead _ _ s2 = .ok _ s2 from rfl)
    by_cases equal : old = s.me.getX d.toNat
    · rw [if_pos equal] at written
      exact ((p.taken equal).step (lWrite_run _ _ _ s2)).completes written
    · rw [if_neg equal] at written
      exact (p.passed equal).completes written

/-! ### The transposing gather (R202) -/

/-- Elements packed are their sum at their places. -/
theorem pack_map_range (w : Nat) : ∀ (n : Nat) (f : Nat → Nat),
    pack w ((List.range n).map f) = ((List.range n).map fun j => f j % 2 ^ w * 2 ^ (w * j)).sum
  | 0, _ => rfl
  | n + 1, f => by
    have shifted : ((List.range n).map fun j => f (j + 1) % 2 ^ w * 2 ^ (w * (j + 1))) =
        (List.range n).map fun j => 2 ^ w * (f (j + 1) % 2 ^ w * 2 ^ (w * j)) := by
      refine List.map_congr_left fun j _ => ?_
      rw [Nat.mul_succ, Nat.pow_add, Nat.mul_comm (2 ^ (w * j)), Nat.mul_left_comm]
    simp only [List.range_succ_eq_map, List.map_cons, List.map_map, Function.comp_def, pack, List.sum_cons]
    rw [pack_map_range w n, shifted, List.sum_map_mul_left, Nat.mul_zero, Nat.pow_zero, Nat.mul_one]

/-- A sum over blocks of m is the sum over all of them. -/
theorem sum_map_range_blocks (m : Nat) (f : Nat → Nat) : ∀ n : Nat,
    ((List.range n).map fun k => ((List.range m).map fun i => f (m * k + i)).sum).sum = ((List.range (m * n)).map f).sum
  | 0 => rfl
  | n + 1 => by
    rw [List.range_succ, List.map_append, List.sum_append, sum_map_range_blocks m f n, Nat.mul_succ, List.range_add,
      List.map_append, List.sum_append, List.map_map]
    simp [Function.comp_def]

theorem ite_div_mod (c : Prop) [Decidable c] (v m n : Nat) :
    (if c then 0 else v) / m % n = if c then 0 else v / m % n := by
  split
  · rw [Nat.zero_div, Nat.zero_mod]
  · rfl

/-- LGATH's columns as elements in order: element 32k + i is element k of row i (R202). -/
theorem gatherCols_eq_pack (w : Nat) (row : Nat → Nat) : gatherCols w ((List.range 32).map row) =
    pack w ((List.range (32 * (128 / w))).map fun j => row (j % 32) / 2 ^ (w * (j / 32))) := by
  rw [pack_map_range, ← sum_map_range_blocks]
  have zipped : (List.range 32).zip ((List.range 32).map row) = (List.range 32).map fun i => (i, row i) := by
    simpa using List.zip_map' (f := id) (g := row) (l := List.range 32)
  unfold gatherCols
  refine congrArg List.sum (List.map_congr_left fun k _ => ?_)
  rw [zipped, List.map_map]
  refine congrArg List.sum (List.map_congr_left fun i inside => ?_)
  have small : i < 32 := List.mem_range.1 inside
  rw [Nat.mul_add_mod, Nat.mod_eq_of_lt small, Nat.mul_add_div (by decide), Nat.div_eq_of_lt small]
  rfl

theorem vElem_gatherCols {w i k : Nat} (row : Nat → Nat) (small : i < 32) (inside : k < 128 / w) :
    vElem w (BitVec.ofNat 4096 (gatherCols w ((List.range 32).map row))) (32 * k + i) = row i / 2 ^ (w * k) % 2 ^ w := by
  have fits : w * ((List.range (32 * (128 / w))).map fun j => row (j % 32) / 2 ^ (w * (j / 32))).length ≤ 4096 := by
    have := Nat.mul_div_le 128 w
    rw [List.length_map, List.length_range, Nat.mul_left_comm]
    omega
  rw [gatherCols_eq_pack]
  refine (vElem_vPack fits _).trans ?_
  rw [List.getElem?_map, List.getElem?_range (by omega)]
  simp only [Option.map_some, Option.getD_some]
  rw [Nat.mul_add_mod, Nat.mod_eq_of_lt small, Nat.mul_add_div (by decide), Nat.div_eq_of_lt small, Nat.add_zero]

theorem fld_high {n : Nat} (w : BitVec n) {hi : Nat} (all : n = hi + 1) (lo : Nat) : fld w hi lo = w.toNat / 2 ^ lo := by
  subst all
  refine Nat.mod_eq_of_lt (Nat.div_lt_of_lt_mul (w.isLt.trans_le ?_))
  rw [← Nat.pow_add]
  exact Nat.pow_le_pow_right (by decide) (by omega)

theorem eachM_ok {α : Type} {f : α → M Unit} {s : State} : ∀ {as : List α}, (∀ a ∈ as, f a s = .ok () s) →
    eachM f as s = .ok () s
  | [], _ => rfl
  | _ :: _, passes => (M.bind_ok (passes _ List.mem_cons_self)).trans
      (eachM_ok fun a inside => passes a (List.mem_cons_of_mem _ inside))

/-- Reading an operand moves no region of local memory. -/
theorem bound_readX {n : BitVec 5} {s s1 : State} {x : Word} (read : readX n s = .ok x s1) :
    s1.myCore.bound = s.myCore.bound := by
  rcases readX_ends read with same | ⟨a, rest, _, _, _, _, popped⟩
  · rw [same]
  · rw [popped, show (State.setMyCore s _).myCore = _ from State.core_setCore _ _ _]

theorem window_of_bound {k l : Core} (same : k.bound = l.bound) : k.xw = l.xw ∧ k.xb = l.xb := by
  have width : k.xw = l.xw := by rw [Core.xw, Core.xw, same]
  exact ⟨width, by rw [Core.xb, Core.xb, width]⟩

theorem localFault_open {k : Core} {o n : Nat} (inside : o + n ≤ k.xb + k.xw) (short : o + n ≤ 2 ^ 18) :
    localFault k o n = none := by
  rw [localFault, if_neg (Nat.not_lt.2 short), if_neg (Nat.not_lt.2 inside)]

theorem placedOpen_open {k : Core} {o n align : Nat} (inside : o + n ≤ k.xb + k.xw) (short : o + n ≤ 2 ^ 18)
    (aligned : o % align = 0) : placedOpen k o n align = none := by
  rw [placedOpen, placed, if_neg (Nat.not_lt.2 short), if_neg (not_not.2 aligned), if_neg (by omega)]

theorem checkLocal_ok {o n : Nat} {s : State} (open_ : localFault s.myCore o n = none) : checkLocal o n s = .ok () s := by
  simp [checkLocal, open_]

/-! ### Exchange stores (R203) -/

namespace Performs

variable {α : Type} {i : Instr} {s s1 : State}

theorem takenFirst {c : Prop} [Decidable c] {m n : M α} {k : α → M Unit}
    (p : Performs i s ((if c then m else n) >>= k) s1) (holds : c) : Performs i s (m >>= k) s1 := by
  rwa [if_pos holds] at p

theorem passedFirst {c : Prop} [Decidable c] {m n : M α} {k : α → M Unit}
    (p : Performs i s ((if c then m else n) >>= k) s1) (fails : ¬ c) : Performs i s (n >>= k) s1 := by
  rwa [if_neg fails] at p

theorem regroup {β : Type} {m : M α} {f : α → M β} {k : β → M Unit} (p : Performs i s ((m >>= f) >>= k) s1) :
    Performs i s (m >>= fun a => f a >>= k) s1 := by
  rwa [bind_assoc] at p

theorem trapsFirst {c : Cause} {a : Word} {k : α → M Unit} (p : Performs i s (trap c a >>= k) s1) : Traps i s c a :=
  p.traps (M.bind_error (M.trap_run _ _ _))

/-- The checks of an exchange store in their order, and the target that passes them. -/
theorem exchanges {x : Word} {n align : Nat} {k : Nat × Nat → M Unit}
    (p : Performs i s (exchangeTarget x n align >>= k) s1) : ExchangeStops i s s1 x n align ∧
      (ExchangeIn s1 x n → x.toNat % 2 ^ 18 % align = 0 → s1.away (x.toNat / 2 ^ 18 % 2 ^ 10) = false →
        Performs i s (k (x.toNat / 2 ^ 18 % 2 ^ 10, x.toNat % 2 ^ 18 + s1.myCore.xw)) s1) := by
  have offset : fld x 17 0 = x.toNat % 2 ^ 18 := fld_low x 17
  unfold exchangeTarget at p
  simp only [bind_assoc, offset, fld_high x rfl] at p
  have p := p.step (M.get_run s1)
  have cores := fun clean : x.toNat / 2 ^ 28 = 0 => p.met (beq_iff_eq.2 clean)
  have windows := fun clean (within : fld x 27 18 < 768 ∧ s1.inLaunch (fld x 27 18) = true) =>
    (cores clean).met (Bool.and_eq_true_iff.2 ⟨decide_eq_true within.1, within.2⟩)
  have ends := fun clean within (window : s1.myCore.xw ≠ 0 ∧ s1.myCore.xb ≤ x.toNat % 2 ^ 18) =>
    (windows clean within).passedFirst (not_or.2 ⟨window.1, Nat.not_lt.2 window.2⟩)
  have offsets := fun clean within window (fits : x.toNat % 2 ^ 18 + n ≤ s1.myCore.xb + s1.myCore.xw) =>
    ((ends clean within window).passedFirst (Nat.not_lt.2 fits)).regroup
  have reaches := fun clean within window fits (aligned : x.toNat % 2 ^ 18 % align = 0) =>
    (offsets clean within window fits).aligned aligned
  refine ⟨⟨fun dirty => p.unmet (beq_false_of_ne dirty), fun clean outside => (cores clean).unmet outside,
    fun clean small inside => ⟨fun before => ((windows clean ⟨small, inside⟩).takenFirst before).trapsFirst,
      fun nonempty from_ beyond => ((ends clean ⟨small, inside⟩ ⟨nonempty, from_⟩).takenFirst beyond).trapsFirst⟩,
    ?misaligned, ?away⟩, ?reached⟩
  case misaligned =>
    rintro ⟨clean, within, nonempty, from_, fits⟩ odd
    exact (offsets clean within ⟨nonempty, from_⟩ fits).misaligned odd
  case away =>
    rintro ⟨clean, within, nonempty, from_, fits⟩ aligned away
    exact ((reaches clean within ⟨nonempty, from_⟩ fits aligned).takenFirst away).waits (M.bind_error (M.waitFor_run _ _))
  case reached =>
    rintro ⟨clean, within, nonempty, from_, fits⟩ aligned near
    exact ((reaches clean within ⟨nonempty, from_⟩ fits aligned).passedFirst (Bool.eq_false_iff.1 near)).step (M.pure_run _ _)

end Performs

theorem xw_aligned (k : Core) : k.xw % 16 = 0 := by
  unfold Core.xw
  split <;> omega

/-- Settles O27: LGATH's elements by its sum of columns; the exchange stores through the checks of their target. -/
theorem rowGatherAndExchangeStores : Obligations.RowGatherAndExchangeStores := by
  refine ⟨?lgath, ?xst, ?vxst⟩
  case lgath =>
    intro s d a b x s1 legal base
    extract_lets o wd w idx
    have p := ((Performs.start (i := .lgath d a b) legal rfl).step base).step (readV_run b s1)
    have width : fld x 19 18 = wd := rfl
    have index : ∀ i, fld (s.me.getV b.toNat) (16 * i + 15) (16 * i) = idx i := fun i => by
      rw [fld, show 16 * i + 15 + 1 - 16 * i = 16 by omega]
    rw [me_readX base, fld_high x rfl, fld_low, width] at p
    refine ⟨fun wrong => p.unmet ?_, fun clean narrow inside aligned rows short => ?_⟩
    · rw [Bool.and_eq_false_iff, beq_eq_false_iff_ne, bne_eq_false_iff_eq]
      exact wrong
    · have p := p.met (Bool.and_eq_true_iff.2 ⟨beq_iff_eq.2 clean, bne_iff_ne.2 narrow⟩)
      have p := p.step (checkPlaced_ok (placedOpen_open inside (by omega) aligned))
      obtain ⟨xw, xb⟩ := window_of_bound (bound_readX base)
      have p := p.step (eachM_ok fun i listed => ?_)
      · refine ⟨_, p.completes (writeV_run _ _ _), fun i k small inRow => ?_⟩
        rw [List.map_map]
        refine (vElem_gatherCols _ small inRow).trans ?_
        rw [Function.comp_apply, index i]
        exact ite_div_mod _ _ _ _
      · obtain ⟨j, member, rfl⟩ := List.mem_map.1 listed
        rw [index j]
        refine (rows j (List.mem_range.1 member)).elim (fun absent => by rw [if_pos absent]; rfl) fun open_ => ?_
        split
        · rfl
        · exact checkLocal_ok (localFault_open (by rw [xw, xb]; exact open_) (by omega))
  case xst =>
    intro s d a v x s1 s2 legal target value
    extract_lets c o
    have p := ((Performs.start (i := .xst d a) legal rfl).step target).step value
    refine ⟨p.exchanges.1, fun inside aligned near => ?_⟩
    have one : granuleCount (o + s2.myCore.xw) 8 = 1 := by
      have := xw_aligned s2.myCore
      unfold granuleCount
      omega
    have p := (p.exchanges.2 inside aligned near).step (pin_run s2)
    have done := p.completes (M.modify_run _ _)
    rwa [one] at done
  case vxst =>
    intro s d a x s1 legal target
    extract_lets c o
    have p := ((Performs.start (i := .vxst d a) legal rfl).step (readV_run d s)).step target
    refine ⟨p.exchanges.1, fun inside aligned near => ?_⟩
    have all : granuleCount (o + s1.myCore.xw) 512 = 32 := by
      have := xw_aligned s1.myCore
      unfold granuleCount
      omega
    have done := (p.exchanges.2 inside aligned near).completes (M.modify_run _ _)
    rwa [all] at done

end Sys2Proof.Machine
end

section
/-! SUPPORT. A local store that fills the log of its activation pins it (R327, R328): what the activation held is sent, and
the loss of a message that no link carries any more is reported in global memory (R363, R399, R424); O60 fails by it. -/

namespace Sys2Proof.Machine

/-- An unpinned activation that holds a message to package 1 and whose log of 256 granules is full (R327). -/
def loggedActivation : Activation := { fullActivation with stores := 0, log := List.replicate 256 (0x3FFF, 0, false) }

/-- The cut-off package with that activation on core 0. -/
def loggedPackage : State := cutOffPackage.setMyCore { cutOffPackage.myCore with act := some loggedActivation }

/-- LST.b [x1], x2 completes, and byte 0x10014, the notices written in the header of queue 0 (R351), has become 1. -/
theorem loggedStore_postsNotice : completesReading (.lst 2 1 0 0) loggedPackage 0x10014 1 = true := by decide +kernel

theorem loggedPackage_noNotice : readByte loggedPackage 0 0x10014 = some 0 := by decide +kernel

/-- Refutes O60: a store to a granule that is new to a full log pins its activation, which sends the message that it held;
no link port is left, and the notice of the lost message is written into the queue of the launch, in global memory. -/
theorem not_localStoresChangeOnlyTheirBytes : ¬ Obligations.LocalStoresChangeOnlyTheirBytes := by
  intro stores
  obtain ⟨t, ran, ended, posted⟩ := exists_of_completesReading loggedStore_postsNotice
  have leaves := stores .lst false List.mem_cons_self loggedPackage 2 1 0 0 7 0 0x8000 loggedPackage loggedPackage
    loggedPackage t (readX_plain (by decide) _) (readX_plain (by decide) _) ⟨rfl, rfl⟩ ran ended
  obtain ⟨-, -, -, -, ⟨bytes, -⟩, -⟩ := leaves
  have untouched := bytes 0 0x10014
  rw [posted, loggedPackage_noNotice] at untouched
  exact absurd untouched (by decide)

end Sys2Proof.Machine
end

section
/-! SUPPORT. What pinning an activation leaves as it was (R327, R328): whatever sending its messages sets off, every full bit,
every subscription and who issues stay. -/

namespace Sys2Proof.Machine

/-- Who issues, the subscriptions of the package, and the full bits of each core. -/
def State.steady (s : State) : (Nat × Nat) × List Sub × (Nat → BitVec 16384) := (s.cur, s.subs, fun c => (s.core c).full)

variable {s t : State}

theorem steady_of_cores (cores : t.cores = s.cores) (subs : t.subs = s.subs) (cur : t.cur = s.cur) : t.steady = s.steady := by
  unfold State.steady State.core
  rw [cores, subs, cur]

theorem steady_setCore (s : State) (c : Nat) {k : Core} (same : k.full = (s.core c).full) :
    (s.setCore c k).steady = s.steady := by
  refine Prod.ext rfl (Prod.ext rfl (funext fun d => ?_))
  by_cases here : d = c
  · subst here
    exact (congrArg Core.full (State.core_setCore s d k)).trans same
  · exact congrArg Core.full (State.core_setCore_ne s k here)

/-! ### Accesses at the slices -/

@[simp] theorem steady_fetchSector (s : State) (n k : Nat) : (fetchSector s n k).steady = s.steady := by
  unfold fetchSector
  split
  · rfl
  · split <;> rfl

@[simp] theorem steady_leaseRead (s : State) (c x pa : Nat) : (leaseRead s c x pa).steady = s.steady := by
  have granted (n : Nat) : (grantLease (fetchSector s n (pa / 32)) n (pa / 32) 64).steady = s.steady :=
    steady_fetchSector s n (pa / 32)
  unfold leaseRead renewReplica
  split
  · rfl
  · simp only
    split
    · split
      · exact granted _
      · exact granted _
    · exact granted _

@[simp] theorem steady_touchSlice (s : State) (c x : Nat) (nd : Rights) (pa : Nat) :
    (touchSlice s c x nd pa).steady = s.steady := by
  unfold touchSlice
  cases nd with
  | write => rfl
  | read => exact steady_leaseRead _ _ _ _
  | execute => exact steady_leaseRead _ _ _ _
  | atomic =>
    unfold allocSector
    simp only
    split <;> exact steady_fetchSector _ _ _

theorem steady_writePa {seed : Word} {pa n v : Nat} (written : writePa s seed pa n v = some t) :
    t.steady = s.steady := by
  have sector (u : State) (n k : Nat) (d : BitVec 256) (w z : Bool) : (writeSector u n k d w z).steady = u.steady := by
    unfold writeSector passLease
    simp only
    split <;> rfl
  unfold writePa at written
  simp only at written
  split at written
  · cases written
    exact sector _ _ _ _ _ _
  · obtain ⟨d, _, rfl⟩ := Option.map_eq_some_iff.mp written
    exact (sector _ _ _ _ _ _).trans (steady_fetchSector _ _ _)

@[simp] theorem steady_applyXlat (s : State) (c x : Nat) (p : Xlat) : (applyXlat s c x p).steady = s.steady := by
  unfold applyXlat applyWalk
  rw [steady_touchSlice]
  have reads : (p.walk.foldl (fun s a => touchSlice s 768 x .read a) s).steady = s.steady :=
    foldl_keeps State.steady (fun s a => steady_touchSlice s 768 x .read a) p.walk s
  generalize List.foldl _ _ _ = s1 at reads ⊢
  have update (a e : Nat) : ((writePa (sliceAccess s1 x a) (s1.ctx x).seed a 8 e).getD s1).steady = s.steady := by
    cases written : writePa (sliceAccess s1 x a) (s1.ctx x).seed a 8 e with
    | none => exact reads
    | some t => exact (steady_writePa written).trans reads
  rcases p with ⟨pa, nd, _ | f, _ | ⟨a, e⟩, walk⟩
  · exact reads
  · exact update a e
  · exact (steady_setCore _ c (k := tlbFill _ f) rfl).trans reads
  · exact (steady_setCore _ c (k := tlbFill _ f) rfl).trans (update a e)

/-! ### Accesses of the package's units -/

theorem steady_unitXlate {who : Agent} {c x : Nat} {sup : Bool} {nd : Rights} {va : Nat} {p : Xlat}
    (translated : unitXlate s who c x sup nd va = .ok (p, t)) : t.steady = s.steady := by
  unfold unitXlate at translated
  split at translated
  · cases translated
  · cases translated
    exact steady_applyXlat _ _ _ _

theorem steady_unitReadAs {nd : Rights} {who : Agent} {c x : Nat} {sup : Bool} : ∀ {ps : List (Nat × Nat)} {s t : State}
    {v : Nat}, unitReadAs nd s who c x sup ps = .ok (v, t) → t.steady = s.steady
  | [], s, t, v, read => by
    cases read
    rfl
  | (va, n) :: ps, s, t, v, read => by
    unfold unitReadAs at read
    split at read
    · cases read
    · next translated =>
      split at read
      · cases read
      · split at read
        · cases read
        · next rest =>
          cases read
          exact (steady_unitReadAs rest).trans (steady_unitXlate translated)

theorem steady_unitWrite {who : Agent} {c x : Nat} {sup : Bool} : ∀ (ps : List (Nat × Nat)) (s : State) (v : Nat),
    (unitWrite s who c x sup ps v).2.steady = s.steady
  | [], _, _ => rfl
  | (va, n) :: ps, s, v => by
    unfold unitWrite
    split
    · rfl
    · next translated =>
      split
      · exact steady_unitXlate translated
      · next written =>
        exact (steady_unitWrite ps _ _).trans ((steady_writePa written).trans (steady_unitXlate translated))

theorem steady_dispStore {x va n v : Nat} (stored : dispStore s x va n v = .ok t) : t.steady = s.steady := by
  have through (u : State) : (writeThrough u x va n).steady = u.steady := by
    refine foldl_keeps State.steady (fun u p => ?_) _ u
    split
    · rfl
    · simp only
      split <;> rfl
  unfold dispStore dispWrite at stored
  have written := steady_unitWrite (who := .other) (c := 768) (x := x) (sup := true) (partsOf va n) s v
  split at stored
  · next whole =>
    cases stored
    rw [whole] at written
    exact (through _).trans written
  · cases stored

/-! ### Notices and what a denied one leaves -/

@[simp] theorem steady_askQueuePage (s : State) (x q va : Nat) : (askQueuePage s x q va).steady = s.steady := by
  unfold askQueuePage
  split
  · rfl
  · simp only
    split <;> exact steady_of_cores rfl rfl rfl

@[simp] theorem steady_writeQState (s : State) (x q : Nat) (ask : Bool) :
    (writeQState s x q ask).steady = s.steady := by
  have denied (d : Denied) : (qStateDenied s x q ask d).steady = s.steady := by
    unfold qStateDenied
    split
    · rfl
    · split
      · exact steady_askQueuePage _ _ _ _
      · rfl
  unfold writeQState
  simp only
  split
  · exact denied _
  · next read =>
    split
    · exact denied _
    · next stored => exact (steady_dispStore stored).trans (steady_unitReadAs read)

theorem steady_tryNotice {x q : Nat} {ws : List Word} (written : tryNotice s x q ws = .written t) :
    t.steady = s.steady := by
  unfold tryNotice at written
  simp only at written
  split at written
  · cases written
  · next read =>
    split at written
    · cases written
    · split at written
      · cases written
      · next body =>
        split at written
        · cases written
        · next count =>
          cases written
          exact (steady_dispStore count).trans ((steady_dispStore body).trans (steady_unitReadAs read))

@[simp] theorem steady_putNotice (s : State) (x q : Nat) (ws : List Word) :
    (putNotice s x q ws).steady = s.steady := by
  unfold putNotice
  simp only
  split
  · rfl
  · split
    · next written => exact steady_tryNotice written
    · unfold holdNotices
      simp only
      split
      · rfl
      · exact steady_askQueuePage _ _ _ _
      · exact steady_writeQState _ _ _ _
      · rfl

/-! ### Containment and routing -/

@[simp] theorem steady_postFault (s : State) (x q c t order : Nat) (cause : BitVec 8) (addr : Word) (errBit inner : Nat)
    (task : Option TaskRec) : (postFault s x q c t order cause addr errBit inner task).steady = s.steady :=
  steady_putNotice _ _ _ _

@[simp] theorem steady_stopAfterError (s : State) (c errBit : Nat) (cause : BitVec 8) :
    (stopLaunch (coreError s c errBit cause) c).steady = s.steady := by
  have recorded : (coreError s c errBit cause).steady = s.steady := steady_setCore _ _ rfl
  unfold stopLaunch
  split <;> exact recorded

@[simp] theorem steady_orderFault (s : State) (c t order : Nat) (cause : BitVec 8) :
    (orderFault s c t order cause).steady = s.steady := by
  unfold orderFault
  split
  · unfold launchFault
    simp only
    split
    · exact steady_postFault _ _ _ _ _ _ _ _ _ _ _
    · exact steady_stopAfterError _ _ _ _
  · split
    · rfl
    · split
      · exact steady_postFault _ _ _ _ _ _ _ _ _ _ _
      · unfold containLaunch
        split
        · exact steady_stopAfterError _ _ _ _
        · simp only
          split <;> rfl

/-- A message sent leaves every full bit and every subscription as they were. -/
@[simp] theorem steady_routeMsg (s : State) (m : Msg) : (routeMsg s m).steady = s.steady := by
  unfold routeMsg toPackage linkLost
  simp only
  split
  · split
    · rfl
    · split
      · split
        · exact steady_orderFault _ _ _ _ _
        · rfl
      · rfl
  · split <;> rfl

@[simp] theorem steady_pinState (s : State) : (pinState s).steady = s.steady := by
  have sent (u : State) (es : List Event) : (sendOut u es).steady = u.steady := by
    unfold sendOut
    split
    · refine foldl_keeps State.steady (fun u e => ?_) es u
      split
      · exact steady_routeMsg _ _
      · rfl
    · exact steady_setCore _ _ rfl
  have released (u : State) (c : Nat) : (releaseStores u c).steady = u.steady := by
    unfold releaseStores
    split <;> rfl
  unfold pinState
  split
  · split
    · rfl
    · exact (sent _ _).trans ((released _ _).trans (steady_setCore _ _ rfl))
  · rfl

@[simp] theorem steady_pin (s : State) : (after pin s).steady = s.steady := by
  unfold after pin
  rw [M.bind_get_run]
  by_cases handler : s.isTh = true
  · rw [if_pos handler]
    exact steady_pinState s
  · rw [if_neg handler]
    rfl

theorem cur_pin (s : State) : (after pin s).cur = s.cur := congrArg Prod.fst (steady_pin s)

theorem subs_pin (s : State) : (after pin s).subs = s.subs := congrArg (·.2.1) (steady_pin s)

theorem full_pin (s : State) (c : Nat) : ((after pin s).core c).full = (s.core c).full :=
  congrFun (congrArg (·.2.2) (steady_pin s)) c

theorem myCore_pin_full (s : State) : (after pin s).myCore.full = s.myCore.full := by
  rw [State.myCore, full_pin, State.cid, cur_pin]
  rfl

end Sys2Proof.Machine
end

section
/-! SUPPORT. The copy words and the words on ranges of full bits (R205, R207, R211 to R213), and the bits that the latter set
and clear; O37 from these. -/

namespace Sys2Proof.Machine

/-! ### Ranges of granules (R213) -/

/-- The operands of FEWAIT, FESET and FECLR are multiples of 16, the length from 16 to 2^18. -/
def FeOperands (x y : Word) : Prop := x.toNat % 16 = 0 ∧ y.toNat % 16 = 0 ∧ 16 ≤ y.toNat ∧ y.toNat ≤ 2 ^ 18

theorem feOperands_iff {x y : Word} :
    (fld x 3 0 == 0 && fld y 3 0 == 0 && decide (16 ≤ y.toNat) && decide (y.toNat ≤ 2 ^ 18)) = true ↔ FeOperands x y := by
  simp only [Bool.and_eq_true, beq_iff_eq, decide_eq_true_eq, and_assoc, fld_low]
  rfl

namespace Performs

variable {i : Instr} {s s1 : State}

/-- A placement checked: what it faults with, or the rest of the word (R422). -/
theorem placed {f : Option (Cause × Word)} {k : Unit → M Unit} (p : Performs i s (checkPlaced f >>= k) s1) :
    (∀ z l, f = some (z, l) → Traps i s z l) ∧ (f = none → Performs i s (k ()) s1) := by
  refine ⟨fun z l bad => p.traps (M.bind_error (s1 := s1) ?_), fun good => p.step (checkPlaced_ok good)⟩
  rw [bad]
  rfl

/-- The regions of a local access checked (R192). -/
theorem regions {o n : Nat} {k : Unit → M Unit} (p : Performs i s (checkLocal o n >>= k) s1) :
    (∀ z l, localFault s1.myCore o n = some (z, l) → Traps i s z l) ∧
      (localFault s1.myCore o n = none → Performs i s (k ()) s1) := by
  refine ⟨fun z l bad => p.traps (M.bind_error (s1 := s1) ?_), fun good => p.step (checkLocal_ok good)⟩
  simp [checkLocal, bad]

/-- A range of granules, check by check. -/
theorem granules {a b : BitVec 5} {x y : Word} {s2 : State} {k : Nat × Nat → M Unit}
    (p : Performs i s (feRange a b >>= k) s) (offset : readX a s = .ok x s1) (length : readX b s1 = .ok y s2) :
    (¬ FeOperands x y → Traps i s .operandRange 0) ∧
    (FeOperands x y → (∀ z l, localFault s2.myCore x.toNat y.toNat = some (z, l) → Traps i s z l) ∧
      (localFault s2.myCore x.toNat y.toNat = none → Performs i s (k (x.toNat / 16, y.toNat / 16)) s2)) := by
  unfold feRange at p
  simp only [bind_assoc] at p
  have p := (p.step offset).step length
  refine ⟨fun bad => p.unmet (Bool.eq_false_iff.2 (mt feOperands_iff.1 bad)), fun good => ?_⟩
  have p := p.met (feOperands_iff.2 good)
  exact ⟨p.regions.1, fun open_ => (p.regions.2 open_).step (M.pure_run _ _)⟩

end Performs

theorem waitGranules_served {g n : Nat} {full : Bool} {s : State} (served : Served s g n full) :
    waitGranules g n full s = .ok () s := by
  obtain ⟨state, first⟩ := served
  simp [waitGranules, state, first]

theorem waitGranules_early {g n : Nat} {full : Bool} {s : State} (early : ¬ Served s g n full) :
    waitGranules g n full s = .error (.wait (.granules g n full)) s := by
  have unmet : ¬ (s.myCore.granulesAre g n full && !olderWaiter s g n (.granules g n full)) = true := by
    simpa [Served] using early
  unfold waitGranules
  rw [M.bind_get_run]
  exact congrFun (if_neg unmet) s

/-! ### The bits that a word sets and clears (R213) -/

theorem granMask_getLsbD (g n : Nat) {j : Nat} (small : j < 2 ^ 14) :
    (granMask g n).getLsbD j = decide (g ≤ j ∧ j < g + n) := by
  have below : (2 ^ n - 1).testBit (j - g) = decide (j - g < n) := Nat.testBit_two_pow_sub_one n (j - g)
  simp only [granMask, BitVec.getLsbD_ofNat, Nat.testBit_mul_two_pow, below]
  rw [Bool.eq_iff_iff]
  simp
  omega

theorem myCore_setMyCore (s : State) (k : Core) : (s.setMyCore k).myCore = k := State.core_setCore _ _ _

/-- Logging granules changes no full bit, also where it pins the activation (R328). -/
theorem full_logGranules (g n : Nat) (s : State) : (after (logGranules g n) s).myCore.full = s.myCore.full := by
  unfold logGranules
  rw [after, M.bind_get_run]
  by_cases unpinned : s.unpinned = true
  · rw [if_pos unpinned]
    cases running : s.myCore.act with
    | none => rfl
    | some a =>
      simp only
      by_cases long : 256 < a.log.length + ((List.range' g n).filter fun i =>
          !(decide (a.region.1 ≤ 16 * i) && decide (16 * i < a.region.1 + a.region.2)) && !a.log.any (·.1 == i)).length
      · rw [if_pos long]
        exact myCore_pin_full s
      · rw [if_neg long]
        simp only [M.modCore_run, myCore_setMyCore]
  · rw [if_neg unpinned]
    rfl

theorem full_setFE (full : Bool) (g n : Nat) (s : State) : (after (setFE full g n) s).myCore.full =
    if full then s.myCore.full ||| granMask g n else s.myCore.full &&& ~~~ granMask g n := by
  have set : after (setFE full g n) s = (after (logGranules g n) s).setMyCore
      { (if full then (after (logGranules g n) s).myCore.setFull g n else (after (logGranules g n) s).myCore.clearFull g n) with
        undo := (after (logGranules g n) s).myCore.undoWith g n } := by
    refine after_ok ?_
    unfold setFE
    exact (M.bind_ok (logGranules_run g n s)).trans (M.modCore_run _ _)
  rw [set, myCore_setMyCore, ← full_logGranules g n s]
  cases full <;> rfl

/-- Settles O37: the descriptor's checks, the place and the copy started; a handle's fields; the bits of a range. -/
theorem copyAndGranuleWords : Obligations.CopyAndGranuleWords := by
  refine ⟨?copy, ?cstat, ?ranges, ?bits⟩
  case copy =>
    intro s d a twoD x s1 i legal offset w
    have p : Performs i s (copyOp twoD d a) s := by cases twoD <;> exact Performs.start legal rfl
    have p := (p.step offset).step (M.get_run s1)
    have checked := fun open_ => (p.placed.2 open_).step (show lRead _ _ s1 = .ok _ s1 from rfl)
    have pinned := fun open_ good => ((checked open_).met good).step (pin_run s1)
    refine ⟨p.placed.1, fun open_ bad => (checked open_).unmet bad, fun open_ good => ⟨fun none_ => ?full, fun n free => ?place⟩⟩
    case full =>
      have p := pinned open_ good
      simp only [none_] at p
      exact p.waits (M.waitFor_run _ _)
    case place =>
      intro q r s2 s3 s4 s5 written
      have p := pinned open_ good
      simp only [free] at p
      have p := p.step (M.modCore_run _ _)
      by_cases nothing : (copyDesc w).len = 0
      · have ends : s4 = copyEnd s3 s3.cid n 1 0 0 := if_pos nothing
        rw [ends] at written
        exact ((p.taken nothing).step (M.modify_run _ _)).completes written
      · have starts : s4 = s3.emit (.copyTransfer s1.cid n 1) := if_neg nothing
        rw [starts] at written
        exact ((p.passed nothing).step (M.emitM_run _ _)).completes written
  case cstat =>
    intro s d a x s1 legal handle
    have p := (Performs.start (i := .cstat d a) legal rfl).step handle
    rw [fld_high x rfl] at p
    refine ⟨fun dirty => p.unmet (beq_false_of_ne dirty), fun clean => ?_⟩
    intro st s2 written
    have p := p.met (beq_iff_eq.2 clean)
    have number : fld x 35 4 = x.toNat / 16 := Nat.mod_eq_of_lt (by omega)
    rw [number, fld_low] at p
    change writeX d (match s.myCore.copies.find? (x.toNat % 2 ^ 4) with | some _ => _ | none => _) s1 = _ at written
    split at p
    · next r found =>
      simp only [found] at written
      split at p
      · next own => exact p.completes (by rwa [if_pos own] at written)
      · next other => exact p.completes (by rwa [if_neg other] at written)
    · next missing =>
      simp only [missing] at written
      exact p.completes written
  case ranges =>
    intro s a b x y s1 s2 offset length good i named legal
    rcases named with rfl | rfl | rfl
    · obtain ⟨stops, good⟩ := (Performs.start (i := .fewait a b) legal rfl).granules offset length
      refine ⟨stops, fun fits => (good fits).1, fun fits open_ => ?_⟩
      refine ⟨fun _ early => ?_, fun _ served => ?_, nofun, nofun⟩
      · exact ((good fits).2 open_).waits (waitGranules_early early)
      · exact ((good fits).2 open_).completes (waitGranules_served served)
    · obtain ⟨stops, good⟩ := (Performs.start (i := .feset a b) legal rfl).granules offset length
      exact ⟨stops, fun fits => (good fits).1, fun fits open_ => ⟨nofun, nofun,
        fun _ => ((good fits).2 open_).completes (setFE_run _ _ _ _), nofun⟩⟩
    · obtain ⟨stops, good⟩ := (Performs.start (i := .feclr a b) legal rfl).granules offset length
      exact ⟨stops, fun fits => (good fits).1, fun fits open_ => ⟨nofun, nofun, nofun,
        fun _ => ((good fits).2 open_).completes (setFE_run _ _ _ _)⟩⟩
  case bits =>
    intro s full g n j inside small
    have word : j < 16384 := small
    rw [full_setFE]
    by_cases covered : g ≤ j ∧ j < g + n
    · have mask := (granMask_getLsbD g n small).trans (decide_eq_true covered)
      rw [if_pos covered]
      cases full <;> simp [mask]
    · have mask := (granMask_getLsbD g n small).trans (decide_eq_false covered)
      rw [if_neg covered]
      cases full
      · simp only [Bool.false_eq_true, if_false, BitVec.getLsbD_and, BitVec.getLsbD_not, mask, decide_eq_true word,
          Bool.not_false, Bool.and_true]
      · simp only [if_true, BitVec.getLsbD_or, mask, Bool.or_false]

end Sys2Proof.Machine
end

section
/-! SUPPORT. The words of reorder rings (R216, R217, R223 to R226, R340): a handle opened, the header and its copy in the
journal, and the slot released; O38 from these. -/

namespace Sys2Proof.Machine

namespace Performs

variable {i : Instr} {s s1 : State}

/-- A ring's handle opened (R223, R224). -/
theorem ring {h : Word} {own : Bool} {k : Nat × Nat × RingHdr → M Unit} (p : Performs i s (openRing h own >>= k) s1) :
    RingStops i s s1 h own ∧ (RingOpen s1 h own →
      Performs i s (k (handleCore h, handleHdr h, ringHdr (s1.core (handleCore h)) (handleHdr h))) s1) := by
  refine ⟨?stops, fun open_ => p.step (openRing_ok open_)⟩
  obtain ⟨legal, effect, runs, left⟩ := p
  exact ringStops runs legal ⟨k, left⟩

/-- The header's copy in the journal rewritten at once (R226). -/
theorem mirrors {c o : Nat} {f : State → State} {t : State} {k : Unit → M Unit} (p : Performs i s (mirrored c o f >>= k) s1)
    (written : mirrorHeader (f s1) c o s1.me.sv = .ok t) : Performs i s (k ()) t := by
  refine p.step (s2 := t) ?_
  unfold mirrored
  rw [M.bind_get_run, written]
  rfl

/-- A fault that the header records is raised as a deferred one (R225). -/
theorem raises {r : RingHdr} {o : Nat} (p : Performs i s (ringRaise r o) s1) :
    (ringCause r.fcause = none → Traps i s .descriptorFormat (word o)) ∧
      ∀ z, ringCause r.fcause = some z → exec i s = .next (takeTrap s z r.faddr true) := by
  unfold ringRaise at p
  refine ⟨fun unlisted => ?_, fun z listed => ?_⟩
  · rw [unlisted] at p
    exact p.traps (M.trap_run _ _ _)
  · rw [listed] at p
    obtain ⟨legal, effect, runs, left⟩ := p
    rw [runs]
    exact run_trap legal (left.trans (M.throw_run _ _))

end Performs

/-! ### The header (R223) -/

theorem core_passTicket (c o : Nat) (s : State) :
    (passTicket c o s).core c = (s.core c).lwrite (o + 56) 8 ((ringHdr (s.core c) o).tail + 1).toNat :=
  State.core_setCore _ _ _

/-- A new tail changes the tail of the header, and nothing else of it. -/
theorem ringHdr_setTail {k : Core} (o : Nat) (t : Word) (canonical : Mem.wf k.lmem = true) :
    ringHdr (setTail k o t) o = { ringHdr k o with tail := t } := by
  have tail : (setTail k o t).lread (o + 8 * 7) 8 = t.toNat := by
    rw [setTail, Core.lread_lwrite_self k _ 8 _ canonical]
    exact Nat.mod_eq_of_lt t.isLt
  have others (i : Nat) (below : i < 7) : (setTail k o t).lread (o + 8 * i) 8 = k.lread (o + 8 * i) 8 :=
    Core.lread_lwrite_out k _ 8 _ _ 8 (.inl (by omega))
  unfold ringHdr
  simp only [tail, others 0 (by decide), others 1 (by decide), others 2 (by decide), others 3 (by decide),
    others 4 (by decide), others 5 (by decide), others 6 (by decide), word_toNat]

/-- Without a journal no copy of the header is kept. -/
theorem mirrorHeader_plain {s : State} {c o : Nat} (plain : (ringHdr (s.core c) o).journ = false) (sv : Bool) :
    mirrorHeader s c o sv = .ok s := by
  unfold mirrorHeader
  simp only [plain, Bool.false_eq_true, if_false]

/-! ### What reading an operand leaves of a core -/

/-- Reading an operand leaves local memory and the full bits. -/
theorem core_readX {n : BitVec 5} {s s1 : State} {x : Word} (read : readX n s = .ok x s1) (c : Nat) :
    (s1.core c).full = (s.core c).full ∧ (s1.core c).lmem = (s.core c).lmem := by
  rcases readX_ends read with same | ⟨a, rest, _, _, _, _, popped⟩
  · rw [same]
    exact ⟨rfl, rfl⟩
  · rw [popped]
    by_cases mine : c = s.cid
    · subst mine
      rw [show (State.setMyCore s _).core s.cid = _ from State.core_setCore _ _ _]
      exact ⟨rfl, rfl⟩
    · rw [show (State.setMyCore s _).core c = _ from State.core_setCore_ne _ _ mine]
      exact ⟨rfl, rfl⟩

theorem slotFull_congr {k l : Core} (same : k.full = l.full) (r : RingHdr) (t : Nat) : slotFull k r t = slotFull l r t := by
  rw [slotFull, slotFull, Core.allFull, Core.allFull, same]

theorem slotFull_readX {n : BitVec 5} {s s1 : State} {x : Word} (read : readX n s = .ok x s1) (c : Nat) (r : RingHdr) (t : Nat) :
    slotFull (s1.core c) r t = slotFull (s.core c) r t := slotFull_congr (core_readX read c).1 r t

/-- Reading an operand leaves the subscriptions. -/
theorem subs_readX {n : BitVec 5} {s s1 : State} {x : Word} (read : readX n s = .ok x s1) : s1.subs = s.subs := by
  rcases readX_ends read with same | ⟨a, rest, _, _, _, _, popped⟩
  · rw [same]
  · rw [popped]
    rfl

/-! ### The pull subscription of a ring (R216) -/

section Pull

variable {s t : State} {c o : Nat}

theorem pullSub_congr (same : t.subs = s.subs) (c o : Nat) : pullSub t c o = pullSub s c o := by
  rw [pullSub, pullSub, same]

theorem endPulled_none (none : pullSub s c o = none) : endPulled s c o = s := by
  unfold endPulled
  rw [none]

theorem endPulled_some {u : Sub} (pulled : pullSub s c o = some u) : endPulled s c o =
    let u' := { u with ticket := none }
    let t := { s with subs := s.subs.map fun v => if v.kiosk = u.kiosk ∧ v.id = u.id then u' else v }
    if u.moved = u.tiles then endSub t u' else t := by
  unfold endPulled
  rw [pulled]

end Pull

/-! ### Tickets and slots (R225, R226) -/

theorem recorded_iff {s : State} {r : RingHdr} : (s.me.wait = .ring && r.fvalid && r.fticket == r.head) = true ↔
    s.me.wait = .ring ∧ r.fvalid = true ∧ r.fticket = r.head := by
  rw [Bool.and_eq_true_iff, Bool.and_eq_true_iff, decide_eq_true_eq, beq_iff_eq, and_assoc]

section Ticket

variable {s : State} {c o gen : Nat}

theorem nextTicket_stale (stale : (ringHdr (s.core c) o).gen ≠ gen) : nextTicket s c o gen = some (BitVec.allOnes 64) :=
  if_pos stale

theorem nextTicket_none (own : (ringHdr (s.core c) o).gen = gen)
    (shut : (ringHdr (s.core c) o).depth = (ringHdr (s.core c) o).count ∨ ringHeld s c o = true) :
    nextTicket s c o gen = none := (if_neg (not_not.2 own)).trans (if_pos shut)

theorem nextTicket_some (own : (ringHdr (s.core c) o).gen = gen)
    (room : (ringHdr (s.core c) o).depth ≠ (ringHdr (s.core c) o).count) (free : ringHeld s c o = false) :
    nextTicket s c o gen = some (ringHdr (s.core c) o).tail :=
  (if_neg (not_not.2 own)).trans (if_neg (not_or.2 ⟨room, Bool.eq_false_iff.1 free⟩))

end Ticket

theorem core_journaled (s : State) (c o : Nat) (journ sv : Bool) :
    (if journ = true then withJournal s c o sv else s).core c = s.core c := by
  unfold withJournal
  split
  · split <;> rfl
  · rfl

theorem putSlot_eq {s : State} {k : Core} {c o t v : Nat} (same : s.core c = k) : putSlot s c o t v =
    fillSlot (s.setCore c ((s.core c).lwrite ((ringHdr k o).slot t) (ringHdr k o).bytes v)) c o t := by
  rw [putSlot, same]

/-! ### The words -/

theorem ticketInside_iff {r : RingHdr} {t : Word} {full : Bool} : (r.head.ule t && t.ult r.tail && !full) = true ↔
    r.head.toNat ≤ t.toNat ∧ t.toNat < r.tail.toNat ∧ full = false := by
  rw [Bool.and_eq_true_iff, Bool.and_eq_true_iff, BitVec.ule_iff_toNat_le, BitVec.ult_iff_toNat_lt, Bool.not_eq_true', and_assoc]

/-- Settles O38: the five words followed from their operands on, and what a new ticket and a filled slot leave. -/
theorem ringWords : Obligations.RingWords := by
  refine ⟨?rtick, ?header, ?rput, fun _ _ _ _ => rfl, ?rtake, ?rrel⟩
  case rtick =>
    intro s d a h s1 legal handle
    have p := (Performs.start (i := .rtick d a) legal rfl).step handle
    refine ⟨p.ring.1, fun open_ => ?_⟩
    intro s2 c o r
    have p := ((p.ring.2 open_).step (pin_run s1)).step (M.get_run s2)
    refine ⟨fun stale s3 written => ?_, fun own shut => ?_, fun own room free s3 s4 copied written => ?_⟩
    · rw [nextTicket_stale stale] at p
      exact (p.passed stale).completes written
    · rw [nextTicket_none own shut] at p
      exact p.waits (M.waitFor_run _ _)
    · rw [nextTicket_some own room free] at p
      exact ((p.taken own).mirrors copied).completes written
  case header =>
    intro s c o sv r
    refine ⟨fun canonical => ?_, fun plain => mirrorHeader_plain plain sv⟩
    rw [core_passTicket]
    exact ringHdr_setTail o _ canonical
  case rput =>
    intro s v a b h t s1 s2 legal handle ticket c o r good
    have p := (((Performs.start (i := .rput v a b) legal rfl).step handle).step ticket).step (readV_run v s2)
    refine ⟨p.ring.1, fun open_ => ?_⟩
    have p := p.ring.2 open_
    have fits := fun short => p.met (decide_eq_true short)
    have still : slotFull (s.core c) r t.toNat = slotFull (s2.core c) r t.toNat := by
      rw [slotFull_readX ticket, slotFull_readX handle]
    refine ⟨fun long => p.unmet (decide_eq_false (Nat.not_le.2 long)),
      fun short bad => (fits short).unmet (Bool.eq_false_iff.2 fun inside => bad ?_), fun short inside => ?_⟩
    · obtain ⟨first, last, empty⟩ := ticketInside_iff.1 inside
      exact ⟨first, last, still.symm.trans empty⟩
    · obtain ⟨first, last, empty⟩ := inside
      intro s3 s4
      have p := (fits short).met (ticketInside_iff.2 ⟨first, last, still.trans empty⟩)
      rw [← putSlot_eq (core_journaled s2 c o r.journ s2.me.sv)]
      exact p.completes (M.modify_run _ _)
  case rtake =>
    intro s d a h s1 legal handle c o r fault
    have p := (Performs.start (i := .rtake d a) legal rfl).step handle
    refine ⟨p.ring.1, fun open_ => ?_⟩
    have p := p.ring.2 open_
    have recorded : (r.fvalid && r.fticket == r.head) = true ↔ fault := by
      rw [Bool.and_eq_true_iff, beq_iff_eq]
    refine ⟨fun faulty => (p.taken (recorded.2 faulty)).raises.1, fun faulty => (p.taken (recorded.2 faulty)).raises.2,
      fun sound stuck => ?_, fun sound free full => ?_⟩
    · have p := (p.passed (mt recorded.1 sound)).taken (by
        rw [Bool.or_eq_true, Bool.not_eq_true']
        exact stuck)
      exact p.waits (M.waitFor_run _ _)
    · intro s2 s3 written
      have p := (p.passed (mt recorded.1 sound)).passed (by
        rw [Bool.or_eq_true, Bool.not_eq_true', free, full]
        nofun)
      by_cases stage : isStageRing s c o = true
      · have marked : s2 = s1.setMyCore { s1.myCore with taken := true } := if_pos stage
        rw [marked] at written
        exact ((p.taken stage).step (M.modCore_run _ _)).completes written
      · have plain : s2 = s1 := if_neg stage
        rw [plain] at written
        exact (p.passed stage).completes written
  case rrel =>
    intro s d a h s1 legal handle c o r
    have p := (Performs.start (i := .rrel d a) legal rfl).step handle
    have slot := fun open_ => p.ring.2 open_
    refine ⟨p.ring.1, fun open_ empty => (slot open_).unmet empty, fun open_ full => ?_⟩
    have p := ((slot open_).met full).step (pin_run s1)
    intro s2 moved released done
    have same : pullSub s2 c o = pullSub s c o := pullSub_congr ((subs_pin s1).trans (subs_readX handle)) c o
    have marks : ∀ t s4 : State, Performs (.rrel d a) s
        (if isStageRing s c o then modCore (fun k => { k with taken := false }) >>= fun _ => writeX d r.head
          else writeX d r.head) t →
        writeX d r.head (done t) = .ok () s4 → Completes (.rrel d a) s s4 := by
      intro t s4 p written
      by_cases stage : isStageRing s c o = true
      · rw [show done t = _ from if_pos stage] at written
        exact ((p.taken stage).step (M.modCore_run _ _)).completes written
      · rw [show done t = t from if_neg stage] at written
        exact (p.passed stage).completes written
    refine ⟨fun unpulled sound s3 s4 copied written => ?_, fun u pulled last s3 s4 copied written => ?_,
      fun u pulled behind => ?_⟩
    · rw [unpulled] at p
      have p := p.passed (mt recorded_iff.1 sound)
      exact marks _ _ (p.mirrors ((congrArg (mirrorHeader · _ _ _)
        (congrArg (freeSlot · c o) (endPulled_none (same.trans unpulled)))).trans copied)) written
    · rw [pulled] at p
      have p := p.taken last
      exact marks _ _ (p.mirrors ((congrArg (mirrorHeader · _ _ _)
        (congrArg (freeSlot · c o) (endPulled_some (same.trans pulled)))).trans copied)) written
    · rw [pulled] at p
      have p := p.passed behind
      intro e
      split
      next asked => exact (p.taken asked).waits (M.waitFor_run _ _)
      next fresh => exact ((p.passed fresh).step (M.emitM_run _ _)).parksKeeping (M.throw_run _ _)

end Sys2Proof.Machine
end

section
/-! SUPPORT. Routing and subscriptions (R214, R215, R218, R338, R339): the entry of a key, and the words that route, subscribe
and end a subscription; O39 from these. -/

namespace Sys2Proof.Machine

namespace Performs

variable {i : Instr} {s s1 s2 : State} {m : M Unit}

theorem trapped {z : Cause} {l : Word} {df : Bool} (p : Performs i s m s1) (stopped : m s1 = .error (.trap z l df) s2) :
    exec i s = .next (takeTrap s z l df) := by
  obtain ⟨legal, effect, runs, left⟩ := p
  rw [runs]
  exact run_trap legal (left.trans stopped)

/-- A page that is not present is asked for (R100). -/
theorem absent {l : Word} {n : Nat} {df : Bool} (p : Performs i s m s1) (stopped : m s1 = .error (.absent l n df) s2) :
    exec i s = .next (beginAbsent s l n df) := by
  obtain ⟨legal, effect, runs, left⟩ := p
  rw [runs]
  simp only [run, legal, if_true, left, stopped]

end Performs

/-! ### The entry of a key (R338, R339) -/

/-- Of two entries the one of larger lo, the first of equals. -/
def largerLo (b : Option Nat) (e : Nat) : Option Nat :=
  match b with
  | none => some e
  | some f => if entryLo f < entryLo e then some e else some f

theorem routeEntry_eq (es : List Nat) (key : Nat) : routeEntry es key =
    let los := (es.filter entryValid).map entryLo
    if los.length ≠ los.eraseDups.length then none
    else ((es.filter entryValid).filter fun e => decide (entryLo e ≤ key)).foldl largerLo none := rfl

/-- The larger of two is one of them, and neither's lo is above its own. -/
theorem largerLo_spec (b : Option Nat) (e : Nat) : ∃ c, largerLo b e = some c ∧ (b = some c ∨ c = e) ∧
    entryLo e ≤ entryLo c ∧ ∀ g, b = some g → entryLo g ≤ entryLo c := by
  cases b with
  | none => exact ⟨e, rfl, .inr rfl, le_rfl, nofun⟩
  | some f =>
    by_cases below : entryLo f < entryLo e
    · exact ⟨e, if_pos below, .inr rfl, le_rfl, fun g same => by cases same; exact below.le⟩
    · exact ⟨f, if_neg below, .inl rfl, not_lt.1 below, fun g same => by cases same; exact le_rfl⟩

/-- What the fold over the entries ends with is one of them, and has the largest lo. -/
theorem foldl_largerLo {e : Nat} : ∀ (l : List Nat) (b : Option Nat), l.foldl largerLo b = some e →
    (b = some e ∨ e ∈ l) ∧ ∀ f, b = some f ∨ f ∈ l → entryLo f ≤ entryLo e
  | [], _, ends => ⟨.inl ends, fun f one => by
      obtain same | none := one
      · cases ends.symm.trans same
        exact le_rfl
      · cases none⟩
  | a :: l, b, ends => by
    obtain ⟨c, larger, one, aboveA, aboveB⟩ := largerLo_spec b a
    rw [List.foldl_cons, larger] at ends
    obtain ⟨found, largest⟩ := foldl_largerLo l (some c) ends
    have aboveC := largest c (.inl rfl)
    refine ⟨?_, fun f given => ?_⟩
    · obtain same | later := found
      · cases same
        exact one.imp_right fun here => List.mem_cons.2 (.inl here)
      · exact .inr (List.mem_cons_of_mem _ later)
    · obtain before | now := given
      · exact (aboveB f before).trans aboveC
      · obtain rfl | later := List.mem_cons.1 now
        · exact aboveA.trans aboveC
        · exact largest f (.inr later)

theorem routeEntry_some {es : List Nat} {key e : Nat} (routed : routeEntry es key = some e) :
    e ∈ es ∧ entryValid e = true ∧ entryLo e ≤ key ∧ ∀ f ∈ es, entryValid f = true → entryLo f ≤ key → entryLo f ≤ entryLo e := by
  have serves (f : Nat) : f ∈ (es.filter entryValid).filter (fun e => decide (entryLo e ≤ key)) ↔
      f ∈ es ∧ entryValid f = true ∧ entryLo f ≤ key := by
    rw [List.mem_filter, List.mem_filter, decide_eq_true_eq, and_assoc]
  rw [routeEntry_eq] at routed
  dsimp only at routed
  split at routed
  · cases routed
  · obtain ⟨found, largest⟩ := foldl_largerLo _ _ routed
    obtain ⟨one, valid, low⟩ := (serves e).1 (found.resolve_left nofun)
    exact ⟨one, valid, low, fun f given valid low => largest f (.inr ((serves f).2 ⟨given, valid, low⟩))⟩

/-- The bits [45:38] of an entry are reserved. -/
theorem entryReserved (e : Nat) : fld (word e) 45 38 = e / 2 ^ 38 % 2 ^ 8 := by
  have all : (word e).toNat = e % 2 ^ 64 := BitVec.toNat_ofNat _ _
  rw [fld, all]
  omega

/-- The handle of an entry: its bits [47:28] are not the handle's. -/
theorem entryHandle (e : Nat) : setFld (word e) 47 28 0 = word (e % 2 ^ 28 + e / 2 ^ 48 % 2 ^ 16 * 2 ^ 48) := by
  have all : (word e).toNat = e % 2 ^ 64 := BitVec.toNat_ofNat _ _
  refine BitVec.eq_of_toNat_eq ?_
  rw [setFld, all, word, BitVec.toNat_ofNat, BitVec.toNat_ofNat]
  omega

/-! ### The words -/

/-- A tile of the subscription is in progress (R218). -/
theorem tileMoves_iff {s : State} {k id : Nat} {u : Sub} :
    (subWaits s k id || decide (u.parts ≠ 0) || (!u.pull && u.ticket.isSome)) = true ↔
      subWaits s k id = true ∨ u.parts ≠ 0 ∨ u.pull = false ∧ u.ticket ≠ none := by
  rw [Bool.or_eq_true, Bool.or_eq_true, Bool.and_eq_true_iff, decide_eq_true_eq, Bool.not_eq_true', Option.isSome_iff_ne_none,
    or_assoc]

/-- Settles O39: the three words followed check by check; an entry's lo is the largest by induction on the entries. -/
theorem routingAndSubscriptions : Obligations.RoutingAndSubscriptions := by
  refine ⟨?kroute, fun _ _ _ => routeEntry_some, ?subs, ?unsubs⟩
  case kroute =>
    intro s d a b key x s1 s2 legal first second
    have p := ((Performs.start (i := .kroute d a b) legal rfl).step first).step second
    refine ⟨p.misaligned, fun multiple => ?_⟩
    intro ps
    have p := p.aligned multiple
    refine ⟨fun z l df s3 stopped => p.trapped (M.bind_error stopped), fun l df n s3 stopped => p.absent (M.bind_error stopped),
      fun w s3 stopped => p.waits (M.bind_error stopped), fun es s3 checked reads => ?_⟩
    have p := (p.step checked).step reads
    refine ⟨fun unserved => ?_, fun e routed => ?_⟩
    · rw [unserved] at p
      exact p.traps (M.trap_run _ _ _)
    · rw [routed] at p
      dsimp only at p
      rw [entryReserved] at p
      have sound := fun zero => p.met (beq_iff_eq.2 zero)
      refine ⟨fun reserved => p.unmet (beq_false_of_ne reserved), fun zero held => ((sound zero).taken held).waits
        (M.waitFor_run _ _), fun zero free s4 written => ?_⟩
      have p := ((sound zero).passed (Bool.eq_false_iff.1 free)).step (request_run 1 _ s3)
      rw [← entryHandle] at written
      exact p.completes written
  case subs =>
    intro s d a x s1 legal read n u c h r s2
    have p := (Performs.start (i := .subs d a) legal rfl).step read
    have named := fun inside => (p.placed.2 inside).step (show lRead x.toNat 64 s1 = .ok n s1 from rfl)
    have proper := fun inside (clean : handleReserved u.ring = false) => (named inside).met (by rw [clean]; rfl)
    have listed := fun inside clean (low : c < 768) => (proper inside clean).met (decide_eq_true low)
    have near := fun inside clean low (here : s.away c = false) => (listed inside clean low).passed (Bool.eq_false_iff.1 here)
    refine ⟨p.placed.1, fun inside reserved => (named inside).unmet (by rw [reserved]; rfl),
      fun inside clean high => (proper inside clean).unmet (decide_eq_false (Nat.not_lt.2 high)),
      fun inside clean low away => ((listed inside clean low).taken away).waits (M.bind_error (M.waitFor_run _ _)),
      fun inside clean z l low here => (near inside clean low here).placed.1 z l, fun inside clean low here front => ?_⟩
    have p := (near inside clean low here).placed.2 front
    have limits := fun (ok : u.ok = true) => p.met ok
    have ring := fun ok (well : ringBad (s.core c) r = false) => (limits ok).met (by rw [well]; rfl)
    refine ⟨p.unmet, fun ok bad => (limits ok).unmet (by rw [bad]; rfl),
      fun ok well other => (ring ok well).unmet (beq_false_of_ne other), fun ok well fits => ?_⟩
    have p := ((ring ok well).met (beq_iff_eq.2 fits)).step (pin_run s1)
    intro same many
    refine ⟨fun second s3 written => (p.taken second).completes written, fun first full s3 written =>
      ((p.passed (Bool.eq_false_iff.1 first)).taken full).completes written, fun first room => ?_⟩
    intro id sub t t1 s3 written
    have p := ((p.passed (Bool.eq_false_iff.1 first)).passed (Nat.not_le.2 room)).step (M.modify_run _ _)
    refine p.completes (Eq.trans (congrArg (writeX d _) ?_) written)
    exact if_congr beq_iff_eq rfl rfl
  case unsubs =>
    intro s d a x s1 legal read k id
    have p := (Performs.start (i := .unsubs d a) legal rfl).step read
    have top : fld x 63 37 = x.toNat / 2 ^ 37 := fld_high x rfl 37
    have middle : fld x 31 16 = x.toNat / 2 ^ 16 % 2 ^ 16 := rfl
    refine ⟨fun reserved => p.unmet ?_, fun high low => ?_⟩
    · rw [top, middle, Bool.and_eq_false_iff]
      exact reserved.imp beq_false_of_ne beq_false_of_ne
    · intro live
      have p := (p.met (by rw [top, middle, high, low]; rfl)).step (pin_run s1)
      dsimp only at p
      rw [show fld x 36 32 = k from rfl, show fld x 15 0 = id from fld_low x 15] at p
      refine ⟨fun unknown s2 written => ?_, fun u known => ?_⟩
      · rw [show List.find? _ _ = none from unknown] at p
        exact p.completes written
      · rw [show List.find? _ _ = some u from known] at p
        have bound := fun (here : launchHere s u.core u.order ≠ none) => p.passed (mt beq_iff_eq.1 here)
        refine ⟨fun busy => ?_, fun here free whole between s2 written => ?_⟩
        · by_cases aside : launchHere s u.core u.order = none
          · exact (p.taken (beq_iff_eq.2 aside)).waits (M.bind_error (M.waitFor_run _ _))
          · exact ((bound aside).taken (tileMoves_iff.2 (busy.resolve_left aside))).waits (M.waitFor_run _ _)
        · have idle : ¬ (subWaits s k id = true ∨ u.parts ≠ 0 ∨ u.pull = false ∧ u.ticket ≠ none) := by
            rintro (asked | moving | ⟨push, given⟩)
            · exact absurd asked (Bool.eq_false_iff.1 free)
            · exact moving whole
            · exact between.elim (Bool.eq_false_iff.1 push) given
          exact (((bound here).passed (mt tileMoves_iff.1 idle)).step (M.modify_run _ _)).completes written

end Sys2Proof.Machine
end

section
/-! SUPPORT. Stream registers (R219 to R221): a stream opened, an element delivered, a pointer read and a row of elements
packed; O40 from these. -/

namespace Sys2Proof.Machine

/-! ### What the words share -/

section Stream

variable {s s1 : State} {a : BitVec 5} {r : StreamReg}

theorem openStream_closed (closed : s.me.streams.find? a.toNat = none) :
    openStream a s = .error (.trap .streamState 0 false) s := by
  unfold openStream
  rw [M.bind_get_run, closed]
  rfl

theorem openStream_opened (opened : s.me.streams.find? a.toNat = some r) : openStream a s = .ok r s := by
  unfold openStream
  rw [M.bind_get_run, opened]
  rfl

/-- The stream register with a new state (R221). -/
def withStream (s : State) (a : BitVec 5) (r : StreamReg) : State :=
  s.setMe { s.me with streams := s.me.streams.set a.toNat r }

theorem setStream_run (a : BitVec 5) (r : StreamReg) (s : State) : setStream a r s = .ok () (withStream s a r) := rfl

variable {i : Nat} {e : StreamElem}

theorem deliverElem_queued (queued : r.queue.find? (·.idx == i) = some e) (whole : e.fault = none) :
    deliverElem r i s = .ok (e.val, e.coord) s := by
  unfold deliverElem
  rw [queued]
  dsimp only
  rw [whole]
  rfl

theorem deliverElem_poisoned {z : Cause} {l : Word} (queued : r.queue.find? (·.idx == i) = some e)
    (poisoned : e.fault = some (z, l)) : deliverElem r i s = .error (.trap z l true) s := by
  unfold deliverElem
  rw [queued]
  dsimp only
  rw [poisoned]
  rfl

theorem deliverElem_busy (unread : r.queue.find? (·.idx == i) = none)
    (busy : engineFree s s.cid (elemEntries (streamDesc r.desc)) = false) : deliverElem r i s = .error (.wait .reg) s := by
  unfold deliverElem
  rw [unread]
  dsimp only
  rw [M.bind_get_run, busy]
  rfl

theorem deliverElem_read {v x : Nat} (unread : r.queue.find? (·.idx == i) = none)
    (free : engineFree s s.cid (elemEntries (streamDesc r.desc)) = true)
    (reads : readElem s s.cid s.tid (streamDesc r.desc) i = .ok (v, x, s1)) :
    deliverElem r i s = .ok (word v, word x) (engineHold s1 s.cid (elemEntries (streamDesc r.desc))) := by
  unfold deliverElem
  rw [unread]
  dsimp only
  rw [M.bind_get_run, free, reads]
  rfl

variable {d : StreamDesc} {v : Nat}

theorem pointer_busy (busy : engineFree s s.cid 1 = false) : pointer d i s = .error (.wait .reg) s := by
  unfold pointer
  rw [M.bind_get_run, busy]
  rfl

theorem pointer_read (free : engineFree s s.cid 1 = true) (reads : streamIndex s s.cid s.tid d i = .ok (v, s1)) :
    pointer d i s = .ok v (engineHold s1 s.cid 1) := by
  unfold pointer
  rw [M.bind_get_run, free, reads]
  rfl

/-- An element is 1, 2, 4 or 8 bytes wide (R219). -/
theorem streamDesc_w (x : BitVec 256) :
    (streamDesc x).w = 1 ∨ (streamDesc x).w = 2 ∨ (streamDesc x).w = 4 ∨ (streamDesc x).w = 8 := by
  have small : fld x 5 4 < 4 := Nat.mod_lt _ (by decide)
  have width : (streamDesc x).w = 2 ^ fld x 5 4 := rfl
  rw [width]
  generalize fld x 5 4 = n at small
  interval_cases n <;> decide

/-- An item that cancelled reads leave is not one of the stream's. -/
theorem mem_cancelReads {c t n : Nat} {i : PageItem} : i ∈ (cancelReads s c t n).pageItems ↔
    i ∈ s.pageItems ∧ ∀ j, i.asker ≠ .stream c t n j := by
  refine List.mem_filter.trans (and_congr_right fun _ => ?_)
  cases asker : i.asker with
  | stream e u m k =>
    simp only [Bool.not_eq_true', Bool.and_eq_false_iff, beq_eq_false_iff_ne, ne_eq, Asker.stream.injEq]
    refine ⟨fun other j ⟨core, thread, number, _⟩ => ?_, fun other => ?_⟩
    · exact other.elim (Or.elim · (absurd core) (absurd thread)) (absurd number)
    · by_contra same
      simp only [not_or, not_not] at same
      obtain ⟨⟨core, thread⟩, number⟩ := same
      exact other k ⟨core, thread, number, rfl⟩
  | _ => exact ⟨fun _ _ => nofun, fun _ => rfl⟩

end Stream

/-! ### A row of elements (R221) -/

/-- Where an effect changes nothing, a list of them delivers what each delivers. -/
theorem mapM'_ok {α β : Type} {f : α → M β} {g : α → β} {s : State} : ∀ {as : List α},
    (∀ a ∈ as, f a s = .ok (g a) s) → mapM' f as s = .ok (as.map g) s
  | [], _ => rfl
  | a :: _, each => (M.bind_ok (each a List.mem_cons_self)).trans
      (M.bind_ok (mapM'_ok fun b inside => each b (List.mem_cons_of_mem _ inside)))

/-- The first n elements of a register replaced. -/
def lowElems (w n : Nat) (f : Nat → Nat) (old : VReg) : VReg :=
  BitVec.ofNat 4096 (old.toNat / 2 ^ (w * n) * 2 ^ (w * n) + pack w ((List.range n).map f))

theorem vElem_lowElems {w n : Nat} (fits : w * n ≤ 4096) (f : Nat → Nat) (old : VReg) (j : Nat) :
    vElem w (lowElems w n f old) j = if j < n then f j % 2 ^ w else vElem w old j := by
  have below : pack w ((List.range n).map f) < 2 ^ (w * n) := by
    simpa using pack_lt w ((List.range n).map f)
  have whole : (lowElems w n f old).toNat =
      pack w ((List.range n).map f) + 2 ^ (w * n) * (old.toNat / 2 ^ (w * n)) := by
    have top : old.toNat / 2 ^ (w * n) < 2 ^ (4096 - w * n) :=
      Nat.div_lt_of_lt_mul (by rw [← Nat.pow_add, Nat.add_sub_cancel' fits]; exact old.isLt)
    rw [lowElems, BitVec.toNat_ofNat, Nat.add_comm, Nat.mul_comm]
    refine Nat.mod_eq_of_lt (lt_of_lt_of_eq ((Nat.div_lt_iff_lt_mul (k := 2 ^ (w * n)) (by positivity)).1 (lt_of_eq_of_lt ?_ top))
      (by rw [← Nat.pow_add, Nat.sub_add_cancel fits]))
    rw [Nat.add_mul_div_left _ _ (by positivity), Nat.div_eq_of_lt below, Nat.zero_add]
  unfold vElem
  rw [whole]
  split
  next low =>
    have digit := pack_elem w ((List.range n).map f) j
    rw [List.getElem?_map, List.getElem?_range low] at digit
    refine Eq.trans ?_ digit
    obtain ⟨m, rfl⟩ := Nat.exists_eq_add_of_lt low
    have cut : 2 ^ (w * (j + m + 1)) = 2 ^ (w * j) * (2 ^ w * 2 ^ (w * m)) := by
      rw [← Nat.pow_add, ← Nat.pow_add]
      congr 1
      ring
    rw [cut, Nat.mul_assoc, Nat.add_mul_div_left _ _ (by positivity), Nat.mul_assoc, Nat.add_mul_mod_self_left]
  next high =>
    obtain ⟨m, rfl⟩ := Nat.exists_eq_add_of_le (Nat.not_lt.1 high)
    rw [Nat.mul_add, Nat.pow_add, ← Nat.div_div_eq_div_mul, ← Nat.div_div_eq_div_mul,
      Nat.add_mul_div_left _ _ (by positivity), Nat.div_eq_of_lt below, Nat.zero_add]

/-- The elements as the word packs them, each below 2^w. -/
theorem lowElems_zip {w n : Nat} (f : Nat → Word) (old : VReg) (small : ∀ i < n, (f i).toNat % 2 ^ w = (f i).toNat) :
    BitVec.ofNat 4096 (old.toNat / 2 ^ (w * n) * 2 ^ (w * n) +
      (((List.range n).zip ((List.range n).map f)).map fun e => e.2.toNat * 2 ^ (w * e.1)).sum) =
    lowElems w n (fun i => (f i).toNat) old := by
  have zipped : (List.range n).zip ((List.range n).map f) = (List.range n).map fun i => (i, f i) := by
    simpa using List.zip_map' (f := id) (g := f) (l := List.range n)
  rw [lowElems, pack_map_range, zipped, List.map_map]
  refine congrArg (fun l : List Nat => BitVec.ofNat 4096 (_ + l.sum)) (List.map_congr_left fun i inside => ?_)
  rw [small i (List.mem_range.1 inside)]
  rfl

/-- Settles O40: each word followed from the stream register on. -/
theorem streamWords : Obligations.StreamWords := by
  refine ⟨?sopen, ?closed, ?spop, ?vspop, ?sadv, ?stend, ?sfib, ?sclose, fun _ _ _ _ _ => mem_cancelReads⟩
  case sopen =>
    intro s a b x s1 legal read w
    have p := (Performs.start (i := .sopen a b) legal rfl).step read
    have described := fun inside => (p.placed.2 inside).step (show lRead x.toNat 32 s1 = .ok _ s1 from rfl)
    refine ⟨p.placed.1, fun inside bad => (described inside).unmet (by rw [bad]; rfl), fun inside sound => ?_⟩
    have p := (((described inside).met (by rw [sound]; rfl)).step (M.modify_run _ _)).step (setStream_run _ _ _)
    intro t0 t
    by_cases reads : (streamDesc w).kind ≠ 2 ∧ (streamDesc w).count ≠ 0
    · rw [if_pos reads]
      exact (p.taken reads).completes (M.emitM_run _ _)
    · rw [if_neg reads]
      exact (p.passed reads).completes rfl
  case closed =>
    intro s d a closed
    have stops := openStream_closed closed
    refine ⟨fun legal => (Performs.start (i := .spop d a) legal rfl).traps (M.bind_error stops),
      fun legal => (Performs.start (i := .vspop d a) legal rfl).traps (M.bind_error stops),
      fun legal => (Performs.start (i := .stend d a) legal rfl).traps (M.bind_error stops),
      fun legal => (Performs.start (i := .sfib d a) legal rfl).traps (M.bind_error stops), fun x s1 legal read => ?_⟩
    exact ((Performs.start (i := .sadv a d) legal rfl).step read).traps
      (M.bind_error (openStream_closed ((congrArg (·.streams.find? a.toNat) (me_readX read)).trans closed)))
  case spop =>
    intro s d a r legal opened kind passed
    have p := (Performs.start (i := .spop d a) legal rfl).step (openStream_opened opened)
    have plain := fun other : kind ≠ 2 => p.passed other
    have fibre := fun same : kind = 2 => p.taken same
    refine ⟨fun other none => (plain other).unmet (by rw [none]; rfl), fun other some => ?_,
      fun same odd => ((fibre same).taken odd).traps (M.trap_run _ _ _), fun same even link none t1 t2 first second => ?_,
      fun same even link some e queued whole t1 t2 first second => ?_⟩
    · have p := (plain other).met (bne_iff_ne.2 some)
      refine ⟨fun e queued => ⟨fun z l poisoned => p.trapped (M.bind_error (deliverElem_poisoned queued poisoned)),
        fun whole t written => ?_⟩, fun unread => ?_⟩
      · exact ((p.step (deliverElem_queued queued whole)).step (setStream_run _ _ _)).completes written
      · intro n
        exact ⟨fun busy => p.waits (M.bind_error (deliverElem_busy unread busy)), fun free v x s1 t reads written =>
          ((p.step (deliverElem_read unread free reads)).step (setStream_run _ _ _)).completes written⟩
    · have p := ((fibre same).passed (not_or.2 ⟨not_not.2 even, link⟩)).taken none
      exact (p.step first).completes second
    · have p := ((fibre same).passed (not_or.2 ⟨not_not.2 even, link⟩)).passed some
      exact (((p.step (deliverElem_queued queued whole)).step (setStream_run _ _ _)).step first).completes second
  case vspop =>
    intro s d a r legal opened w n
    have p := (Performs.start (i := .vspop d a) legal rfl).step (openStream_opened opened)
    have width : 0 < w ∧ w ≤ 512 ∧ 8 * w * (512 / w) = 4096 := by
      obtain h | h | h | h := streamDesc_w r.desc <;> rw [show w = _ from h] <;> decide
    obtain ⟨positive, wide, row⟩ := width
    refine ⟨fun none => p.unmet (c := .streamOverrun) (bne_eq_false_iff_eq.2 ?_), fun f some queued => ?_⟩
    · rw [none]
      exact Nat.zero_min _
    have some : n ≠ 0 := (lt_min (Nat.pos_of_ne_zero some) (Nat.div_pos wide positive)).ne'
    have fits : 8 * w * n ≤ 4096 := row ▸ Nat.mul_le_mul_left _ (min_le_right _ _)
    have each := mapM'_ok (f := fun i => do return (← deliverElem r (r.pos + i)).1) (g := fun i => (f i).val) (s := s)
      (as := List.range n) fun i inside => by
        obtain ⟨here, whole, -⟩ := queued i (List.mem_range.1 inside)
        exact M.bind_ok (deliverElem_queued here whole)
    have p := ((p.met (bne_iff_ne.2 some)).step each).step (setStream_run _ _ _)
    have small (i : Nat) (inside : i < n) : (f i).val.toNat % 2 ^ (8 * w) = (f i).val.toNat := by
      obtain ⟨-, -, below⟩ := queued i inside
      rw [Nat.pow_mul]
      exact Nat.mod_eq_of_lt below
    refine ⟨lowElems (8 * w) n (fun i => (f i).val.toNat) (s.me.getV d.toNat), ?_, fun j inside => ?_⟩
    · refine p.completes ((writeV_run _ _ _).trans ?_)
      rw [← lowElems_zip (fun i => (f i).val) _ small]
      rfl
    · rw [vElem_lowElems fits]
      split
      next early => exact small j early
      next late => rfl
  case sadv =>
    intro s a b r x s1 legal read opened
    exact (((Performs.start (i := .sadv a b) legal rfl).step read).step (openStream_opened opened)).completes
      (setStream_run _ _ _)
  case stend =>
    intro s d a r t legal opened written
    exact ((Performs.start (i := .stend d a) legal rfl).step (openStream_opened opened)).completes written
  case sfib =>
    intro s d a r legal opened sd f left
    have p := (Performs.start (i := .sfib d a) legal rfl).step (openStream_opened opened)
    have fibre := fun same : sd.kind = 2 => p.met (beq_iff_eq.2 same)
    refine ⟨fun other => p.unmet (beq_false_of_ne other), fun same busy => ?_, fun same free last e s1 t reads written => ?_,
      fun same free next p1 s1 reads => ?_⟩
    · by_cases last : sd.count ≤ f
      · exact ((fibre same).taken last).waits (M.bind_error (pointer_busy busy))
      · exact ((fibre same).passed last).waits (M.bind_error (pointer_busy busy))
    · exact ((((fibre same).taken last).step (pointer_read free reads)).step (setStream_run _ _ _)).completes written
    · have p := ((fibre same).passed (Nat.not_le.2 next)).step (pointer_read free reads)
      intro h1
      refine ⟨fun busy => p.waits (M.bind_error (pointer_busy busy)), fun room e s2 ends => ?_⟩
      have p := p.step (pointer_read room ends)
      refine ⟨fun less => p.unmet (decide_eq_false (Nat.not_le.2 less)), fun ordered t => ?_⟩
      intro s3 written
      have p := (p.met (decide_eq_true ordered)).step (setStream_run _ _ _)
      by_cases some : p1 < e
      · rw [if_pos some] at written
        exact ((p.taken some).step (M.emitM_run _ _)).completes written
      · rw [if_neg some] at written
        exact (p.passed some).completes written
  case sclose =>
    intro s a legal t
    have runs : exec (.sclose a) s = execSclose a s := rfl
    unfold execSclose at runs
    have p := Performs.start legal runs
    have p := p.step (M.modify_run _ s)
    exact p.completes (M.modMe_run _ _)

end Sys2Proof.Machine
end

section
/-! SUPPORT. The steps of the engines and of the law units: a step at hand followed branch by branch, what the kiosks and the
journals ask of a subscription, a header and a launch; O45 from these. -/

namespace Sys2Proof.Machine

/-! ### Following a step of another agent -/

/-- The step i of another agent leaves r, or is not due. -/
def Steps (i : Instr) (s : State) (r : Option State) : Prop :=
  (∀ t, r = some t → Moves i s t) ∧ (r = none → NotDue i s)

namespace Steps

variable {i : Instr} {s : State}

theorem start {e : Event} {f : State → Option State} (hand : AtHand e s) (runs : exec i s = runStep e s f) : Steps i s (f s) :=
  ⟨fun _ => moves_of hand runs, notDue_of hand runs⟩

theorem moves {t : State} (p : Steps i s (some t)) : Moves i s t := p.1 t rfl

theorem waits (p : Steps i s none) : NotDue i s := p.2 rfl

theorem taken {c : Prop} [Decidable c] {r q : Option State} (p : Steps i s (if c then r else q)) (holds : c) : Steps i s r := by
  rwa [if_pos holds] at p

theorem passed {c : Prop} [Decidable c] {r q : Option State} (p : Steps i s (if c then r else q)) (fails : ¬ c) :
    Steps i s q := by
  rwa [if_neg fails] at p

theorem of_eq {r q : Option State} (p : Steps i s r) (same : r = q) : Steps i s q := same ▸ p

end Steps

/-! ### A launch, a header and a subscription (R216 to R218, R226) -/

section Unit

variable {s t : State} {c h k id : Nat} {sup : Bool}

theorem atLaunch_bound {order : Nat} {f : State → Option State} (bound : launchHere s c order = some true) :
    atLaunch s c order f = f s := by
  unfold atLaunch
  rw [bound]

theorem atLaunch_gone {order : Nat} {f : State → Option State} (gone : launchHere s c order = some false) :
    atLaunch s c order f = some s := by
  unfold atLaunch
  rw [gone]

theorem atLaunch_aside {order : Nat} {f : State → Option State} (aside : launchHere s c order = none) :
    atLaunch s c order f = none := by
  unfold atLaunch
  rw [aside]

theorem withMirror_ok {f : State → State} {go : State → Option State} (written : mirrorHeader (f s) c h sup = .ok t) :
    withMirror s c h sup f go = go t := by
  unfold withMirror
  rw [written]

variable {u : Sub} {f : Sub → Option State}

theorem withSub_gone (unknown : findSub s k id = none) : withSub s k id f = some s := by
  unfold withSub
  rw [unknown]

theorem withSub_ended (found : findSub s k id = some u) (ended : launchHere s u.core u.order = some false) :
    withSub s k id f = some (dropSubItems { s with subs := s.subs.filter fun v => !(v.kiosk == k && v.id == id) } k id) := by
  unfold withSub
  rw [found]
  dsimp only
  rw [ended]

theorem withSub_aside (found : findSub s k id = some u) (aside : launchHere s u.core u.order = none) :
    withSub s k id f = none := by
  unfold withSub
  rw [found]
  dsimp only
  rw [aside]

/-- The service has declined nothing of a subscription that it has nothing of. -/
theorem subDeclined_none (free : subWaits s k id = false) : subDeclined s k id = none := by
  rw [subWaits, List.any_eq_false] at free
  rw [subDeclined, List.find?_eq_none]
  exact fun i given both => free i given (Bool.and_eq_true_iff.1 both).1

theorem withSub_acts (found : findSub s k id = some u) (free : subWaits s k id = false)
    (bound : launchHere s u.core u.order = some true)
    (sound : ringBad (s.core u.core) (ringHdr (s.core u.core) u.hdr) = false) : withSub s k id f = f u := by
  unfold withSub
  rw [found]
  dsimp only
  rw [bound]
  dsimp only
  rw [subDeclined_none free]
  dsimp only
  rw [free, sound]
  rfl

end Unit

/-! ### The kiosks' tiles (R142, R144, R216) -/

/-- What a push leaves when a part of its tile has come: the tile's next part, or the next tile. -/
theorem pushPart_read {s s1 : State} {u : Sub} {t va n v : Nat} (part : (tileParts u u.moved)[u.parts]? = some (va, n))
    (reads : unitRead s .other 768 u.ctx u.sup [(va, n)] = .ok (v, s1)) : pushPart s u t =
      let b := pushBytes (s1.core u.core) (ringHdr (s1.core u.core) u.hdr) t (tileDone u) n v u.buf
      let s2 := s1.setCore u.core b.1
      if u.parts + 1 < (tileParts u u.moved).length then
        some ((setSub s2 { u with parts := u.parts + 1, buf := b.2 }).emit (.kioskPushTile u.kiosk u.id))
      else
        let u1 := { u with ticket := none, moved := u.moved + 1, parts := 0, buf := 0 }
        let t1 := setSub s2 u1
        let s3 := if (ringHdr (t1.core u.core) u.hdr).journ then fillSlot t1 u.core u.hdr t else t1
        some (if u.moved + 1 = u.tiles then endSub s3 u1 else s3.emit (.kioskPushTile u.kiosk u.id)) := by
  unfold pushPart
  dsimp only
  rw [part]
  dsimp only
  rw [reads]

/-- Whole granules that come with nothing kept go into the slot at once, each with its full bit. -/
theorem pushBytes_whole (k : Core) {r : RingHdr} (t : Nat) {o n : Nat} (v : Nat) (plain : r.journ = false)
    (start : o % 16 = 0) (whole : n % 16 = 0) (some : n ≠ 0) : pushBytes k r t o n v 0 =
      ((k.lwrite (r.slot t + o) n (v % 256 ^ n)).setFull ((r.slot t + o) / 16) (n / 16), v / 256 ^ n) := by
  have len : n / 16 * 16 = n := by omega
  simp [pushBytes, plain, start, len, some]

/-- The identifiers under which a subscription is found are its own. -/
theorem findSub_key {s : State} {k id : Nat} {u : Sub} (found : findSub s k id = some u) : u.kiosk = k ∧ u.id = id := by
  simpa using List.find?_some found

/-! ### The law units' records, deposits and sweeps (R162, R176, R178) -/

/-- A fault of a unit that is not of a page not present has the fate given. -/
theorem unitFate_fault {s : State} {x q core va access : Nat} {c : Cause} {fate : State → Option State}
    (other : c ≠ .notPresent) : unitFate s x q core c va access fate = fate s := if_neg other

theorem deniedFate_fault {s : State} {x q core va access : Nat} {c : Cause} {fate : Cause → Nat → State → Option State}
    (other : c ≠ .notPresent) : deniedFate s x q core access fate (.fault c va) = fate c va s := unitFate_fault other

/-- A law event's record has a ring to go into. -/
theorem recordFits_iff {s : State} {h : Word} {c o : Nat} :
    (¬ (handleReserved h || decide (768 ≤ c) || (ringFault (s.core c) o).isSome) = true ∧
      (ringHdr (s.core c) o).gen = handleGen h) ↔
    handleReserved h = false ∧ c < 768 ∧ ringFault (s.core c) o = none ∧ (ringHdr (s.core c) o).gen = handleGen h := by
  simp only [Bool.or_eq_true, decide_eq_true_eq, not_or, Bool.not_eq_true, Nat.not_le, Option.isSome_eq_false_iff,
    Option.isNone_iff_eq_none, and_assoc]

theorem behind_iff {c : LawCell} : c.behind = true ↔ c.now % 2 ^ 21 < elapsed c.now (c.obj.word.toNat / 2 ^ 8 % 2 ^ 24) := by
  rw [LawCell.behind, decide_eq_true_eq]
  rfl

/-- The sweep of a cell finds it behind the last epoch boundary. -/
def sweepFinds (s : State) (w : LawWho) (cell : LawPlace) : Bool :=
  match lawOpen s w cell none false with
  | .ok (c, _) => c.behind
  | .error _ => false

theorem sweepFinds_iff {s : State} {w : LawWho} {cell : LawPlace} : sweepFinds s w cell = true ↔
    ∃ c s1, lawOpen s w cell none false = .ok (c, s1) ∧
      c.now % 2 ^ 21 < elapsed c.now (c.obj.word.toNat / 2 ^ 8 % 2 ^ 24) := by
  unfold sweepFinds
  cases lawOpen s w cell none false with
  | error stop => exact ⟨nofun, fun ⟨_, _, same, _⟩ => by cases same⟩
  | ok opened =>
    refine behind_iff.trans ⟨fun behind => ⟨_, _, rfl, behind⟩, fun ⟨_, _, same, behind⟩ => ?_⟩
    cases same
    exact behind

/-- The visit of a cell is noted in its region. -/
def sweepNoted (s : State) (x r i : Nat) (g : Region) : State :=
  s.setCtx x { s.ctx x with regions := (s.ctx x).regions.set r (g.visited (s.clocks x) i) }

/-- The visit of cell i of a region, which the cell's value makes a writing one. -/
def sweepVisit (s : State) (x r i : Nat) (g : Region) (writes : Bool) : Option State :=
  match lawOpen s (g.sweeper x) (.global_ (g.base + g.spacing * i)) none writes with
  | .error (.held _) | .error .full => none
  | .error (.fault .descriptorFormat _) => some (sweepNoted s x r i g)
  | .error (.fault c va) => unitFate s x 0 0 c va.toNat 3 fun s =>
      some (lawError (s.setCtx x { s.ctx x with regions := (s.ctx x).regions.eraseIdx r }) x)
  | .ok (c, s) =>
    let s := sweepNoted (sweepTouch s x c) x r i g
    if !c.behind then some s
    else if actionsFull s (g.sweeper x) c then none
    else
      let bnd := c.now - c.now % 2 ^ 21
      let c := { c with now := bnd }
      let a := c.entry.advance c.obj bnd
      some (lawAct (lawStore s (g.sweeper x) false c (c.touched a)) (g.sweeper x) c a)

section Sweep

variable {s : State} {x r i : Nat} {g : Region}

/-- HORIZON_SWEEP visits a cell of a region of a context in hardware mode. -/
theorem sweepVisit_steps (hand : AtHand (.horizonSweep x r i) s) (held : (s.ctx x).regions[r]? = some g)
    (hardware : (s.ctx x).modes.getLsbD 3 = false) (inside : i < g.count) : Steps .horizonSweep s
      (sweepVisit s x r i g (sweepFinds s (g.sweeper x) (.global_ (g.base + g.spacing * i)))) := by
  have q := Steps.start (i := .horizonSweep) hand (by change execHorizonSweep s = _; rw [execHorizonSweep, hand.1])
  dsimp only at q
  rw [held] at q
  exact q.passed (by
    rw [show bit (s.ctx x).modes 3 = false from hardware, decide_eq_false (Nat.not_le.2 inside)]
    nofun)

variable {b : Bool}

theorem sweepVisit_opened {c : LawCell} {s1 : State}
    (opened : lawOpen s (g.sweeper x) (.global_ (g.base + g.spacing * i)) none b = .ok (c, s1)) : sweepVisit s x r i g b =
      let s2 := sweepNoted (sweepTouch s1 x c) x r i g
      if !c.behind then some s2
      else if actionsFull s2 (g.sweeper x) c then none
      else
        let bnd := c.now - c.now % 2 ^ 21
        let c1 := { c with now := bnd }
        let a := c1.entry.advance c1.obj bnd
        some (lawAct (lawStore s2 (g.sweeper x) false c1 (c1.touched a)) (g.sweeper x) c1 a) := by
  unfold sweepVisit
  rw [opened]

theorem sweepVisit_fault {z : Cause} {a : Word} (present : z ≠ .notPresent) (proper : z ≠ .descriptorFormat)
    (denied : lawOpen s (g.sweeper x) (.global_ (g.base + g.spacing * i)) none b = .error (.fault z a)) :
    sweepVisit s x r i g b =
      some (lawError (s.setCtx x { s.ctx x with regions := (s.ctx x).regions.eraseIdx r }) x) := by
  unfold sweepVisit
  rw [denied]
  split
  next same => cases same
  next same => cases same
  next same =>
    cases same
    exact absurd rfl proper
  next same =>
    cases same
    exact unitFate_fault present
  next same => cases same

end Sweep

/-! ### A unit's bytes in local memory (R142) -/

theorem copyWrite_local {s : State} {c : Nat} (p : Nat) {r : CopyRec} {a : Word} {n : Nat} (v : Nat)
    (near : (copyDesc r.desc).dstLocal = true) (inside : localFault (s.core c) a.toNat n = none) : copyWrite s c p r a n v =
      .moved (s.setCore c (if (copyDesc r.desc).fe then ((s.core c).lwrite a.toNat n v).setFull (a.toNat / 16) (n / 16)
        else (s.core c).lwrite a.toNat n v)) := by
  unfold copyWrite
  dsimp only
  rw [if_pos near, inside]

/-- Settles O45: each step followed branch by branch from the event at hand. -/
theorem enginesAndLawUnitsMove : Obligations.EnginesAndLawUnitsMove := by
  refine ⟨⟨?copy, ?copyWrite, ?stream, ?push, fun k _ t _ _ v => pushBytes_whole k t v, ?pull, ?journal⟩, ?event, ?fanOut,
    ?sweep⟩
  case copy =>
    intro s c p n hand
    have q := Steps.start (i := .copyTransfer) hand (by change execCopyTransfer s = _; rw [execCopyTransfer, hand.1])
    have busy := fun busy : copyBusy s c p = true => q.passed (by rw [busy]; nofun)
    refine ⟨fun idle => (q.taken (by rw [idle]; rfl)).moves, fun on fenced => ((busy on).taken (by rw [fenced]; rfl)).waits,
      fun on free idle t moved => ?_⟩
    exact (((busy on).passed (by rw [free, idle]; nofun)).of_eq (congrArg (Option.map _) moved)).moves
  case copyWrite =>
    intro s c p r a n v near open_
    refine ⟨_, copyWrite_local p v near open_, ?_, ?_, rfl, rfl⟩
    · rw [State.core_setCore]
      split <;> rfl
    · rw [State.core_setCore]
      split <;> rfl
  case stream =>
    intro s c t n hand
    have q := Steps.start (i := .streamReadAhead) hand (by change execStreamReadAhead s = _; rw [execStreamReadAhead, hand.1])
    dsimp only at q
    refine ⟨fun closed => ?_, fun r i opened next free unasked room => ?_⟩
    · rw [closed] at q
      exact q.moves
    · rw [opened] at q
      dsimp only at q
      have q := q.passed fun stuck => by
        rw [free, room, next, Bool.false_or, Bool.or_eq_true, List.any_eq_true] at stuck
        obtain ⟨p, given, mine⟩ := stuck.resolve_right nofun
        cases asker : p.asker with
        | stream d u m j =>
          rw [asker] at mine
          simp only [Bool.and_eq_true_iff, beq_iff_eq, Option.some.injEq] at mine
          obtain ⟨⟨⟨rfl, rfl⟩, rfl⟩, rfl⟩ := mine
          exact unasked p given asker
        | _ =>
          rw [asker] at mine
          cases mine
      rw [next] at q
      dsimp only at q
      refine ⟨fun v x u reads => ?_, fun z a other reads => ?_⟩
      · rw [reads] at q
        exact q.moves
      · rw [reads] at q
        split at q
        next same => cases same
        next same => cases same
        next same =>
          cases same
          exact absurd rfl other
        next same =>
          cases same
          exact q.moves
  case push =>
    intro s k id hand
    have q := Steps.start (i := .kioskPushTile) hand (by change execKioskPushTile s = _; rw [execKioskPushTile, hand.1])
    refine ⟨fun unknown => (q.of_eq (withSub_gone unknown)).moves,
      fun u found ended => (q.of_eq (withSub_ended found ended)).moves,
      fun u found aside => (q.of_eq (withSub_aside found aside)).waits, fun u found free bound sound push => ?_⟩
    have q := (q.of_eq (withSub_acts found free bound sound)).passed (by rw [push]; nofun)
    obtain ⟨rfl, rfl⟩ := findSub_key found
    refine ⟨fun h s1 unticketed own next written => ?_, fun t va n v s1 ticket part reads => ?_⟩
    · rw [unticketed] at q
      dsimp only at q
      rw [next] at q
      exact ((q.passed (not_not.2 own)).of_eq (withMirror_ok written)).moves
    · rw [ticket] at q
      have q := q.of_eq (pushPart_read part reads)
      intro b s2
      exact ⟨fun more => (q.taken more).moves, fun last => (q.passed last).moves⟩
  case pull =>
    intro s k id hand
    have q := Steps.start (i := .kioskPullTile) hand (by change execKioskPullTile s = _; rw [execKioskPullTile, hand.1])
    refine ⟨fun unknown => (q.of_eq (withSub_gone unknown)).moves,
      fun u found ended => (q.of_eq (withSub_ended found ended)).moves,
      fun u va n s1 found free bound sound pull unticketed part => ?_⟩
    intro r written
    have q := (q.of_eq (withSub_acts found free bound sound)).passed (by rw [pull, unticketed]; nofun)
    dsimp only at q
    rw [part] at q
    dsimp only at q
    rw [written] at q
    dsimp only at q
    split
    next more => exact (q.taken more).moves
    next last => exact (q.passed last).moves
  case journal =>
    intro s s1 s3 c h t order hand k r at_
    have q := Steps.start (i := .journalWrite) hand (by change execJournalWrite s = _; rw [execJournalWrite, hand.1])
    have here := fun bound => q.of_eq (atLaunch_bound bound)
    refine ⟨fun gone => (q.of_eq (atLaunch_gone gone)).moves, fun aside => (q.of_eq (atLaunch_aside aside)).waits,
      fun bound bad => ((here bound).taken bad).moves, fun bound sound written => ?_⟩
    intro s2 copied
    have q := (here bound).passed (Bool.eq_false_iff.1 sound)
    dsimp only at q
    rw [show unitWrite _ _ _ _ _ _ _ = _ from written] at q
    exact (q.of_eq (withMirror_ok copied)).moves
  case event =>
    intro s x h r hand c o fits
    have q := Steps.start (i := .lawEventRecord) hand (by change execLawEventRecord s = _; rw [execLawEventRecord, hand.1])
    refine ⟨fun misfit => ?_, fun fit free t s1 next copied => ?_⟩
    · by_cases bad : (handleReserved h || decide (768 ≤ c) || (ringFault (s.core c) o).isSome) = true
      · exact (q.taken bad).moves
      · exact ((q.passed bad).taken fun same => misfit (recordFits_iff.1 ⟨bad, same⟩)).moves
    · obtain ⟨sound, own⟩ := recordFits_iff.2 fit
      have q := ((q.passed sound).passed (not_not.2 own)).passed (Bool.eq_false_iff.1 free)
      rw [next] at q
      exact (q.of_eq (withMirror_ok copied)).moves
  case fanOut =>
    intro s x list k n hand rest
    have q := Steps.start (i := .fanOutDeposit) hand (by change execFanOutDeposit s = _; rw [execFanOutDeposit, hand.1])
    refine ⟨fun none => (q.taken none).moves, fun more w s1 reads => ?_, fun more c a other denied => ?_⟩
    · have q := q.passed more
      dsimp only at q
      rw [reads] at q
      dsimp only at q
      refine ⟨fun t done => ?_, fun c a other denied => ?_⟩
      · rw [done] at q
        exact q.moves
      · rw [denied] at q
        exact (q.of_eq (unitFate_fault other)).moves
    · have q := q.passed more
      dsimp only at q
      rw [denied] at q
      exact (q.of_eq (deniedFate_fault other)).moves
  case sweep =>
    intro s x r i hand
    have q := Steps.start (i := .horizonSweep) hand (by change execHorizonSweep s = _; rw [execHorizonSweep, hand.1])
    refine ⟨fun gone => ?_, fun g held hardware inside => ?_⟩
    · dsimp only at q
      rw [gone] at q
      exact q.moves
    · intro w b lies
      have q := sweepVisit_steps hand held hardware inside
      rw [show sweepFinds s (g.sweeper x) _ = b from Bool.eq_iff_iff.2 (sweepFinds_iff.trans lies.symm)] at q
      refine ⟨fun c s1 opened => ?_, fun z a present proper denied => ?_⟩
      · have q := q.of_eq (sweepVisit_opened opened)
        intro bnd t s2 age
        refine ⟨fun young => (q.taken (by
          rw [Bool.eq_false_iff.2 (mt behind_iff.1 (Nat.not_lt.2 young))]
          rfl)).moves, fun old room => ?_⟩
        have q := q.passed (by
          rw [behind_iff.2 old]
          nofun)
        exact (q.passed (Bool.eq_false_iff.1 room)).moves
      · exact (q.of_eq (sweepVisit_fault present proper denied)).moves

end Sys2Proof.Machine
end

section
/-! SUPPORT. The steps of tasks and barriers: a launch reached over the network, a task's record mirrored, a victim's oldest
record, and an arrival at a group barrier; O47 from these. -/

namespace Sys2Proof.Machine

/-! ### A launch reached over the network (R315) -/

section Live

variable {s : State} {c order : Nat} {f : State → Option State}

theorem atLive_bound (bound : launchHere s c order = some true) (free : (s.core c).fenced = false) :
    atLive s c order f = f s := by
  unfold atLive
  rw [free]
  exact atLaunch_bound bound

theorem atLive_gone (gone : launchHere s c order = some false) : atLive s c order f = some s := by
  unfold atLive
  rw [gone, Bool.and_comm]
  exact atLaunch_gone gone

theorem atLive_aside (aside : launchHere s c order = none) : atLive s c order f = none := by
  unfold atLive
  rw [aside, Bool.and_comm]
  exact atLaunch_aside aside

end Live

/-! ### A task's record (R299, R384) -/

theorem mirrorTask_mirrored {s0 u v : State} {c t : Nat} {r : TaskRec} {go : State → Option State}
    (mirrored : TaskMirrored u v c t r) : mirrorTask s0 u c t r go = go v := by
  unfold TaskMirrored at mirrored
  unfold mirrorTask
  cases bound : (u.core c).bound with
  | none =>
    rw [bound] at mirrored
    exact congrArg go mirrored.symm
  | some b =>
    rw [bound] at mirrored
    dsimp only at mirrored ⊢
    by_cases kept : b.ld.rst = true ∧ b.ld.savebase ≠ 0
    · rw [if_pos kept] at mirrored
      rw [if_neg (by rw [kept.1, beq_false_of_ne kept.2]; nofun), mirrored]
    · rw [if_neg kept] at mirrored
      rw [if_pos (by
        rw [Bool.or_eq_true, Bool.not_eq_true', beq_iff_eq]
        by_contra both
        rw [not_or, Bool.not_eq_false] at both
        exact kept both), mirrored]

/-- What a victim offers of its deque: nothing where it cannot be reached or has nothing. -/
theorem offered_nil {s : State} {v order : Nat}
    (shut : launchHere s v order ≠ some true ∨ (s.core v).fenced = true ∨ (s.core v).deque = []) :
    (if launchHere s v order = some true && !(s.core v).fenced then (s.core v).deque else []) = [] := by
  split
  next reached =>
    rw [Bool.and_eq_true_iff, decide_eq_true_eq, Bool.not_eq_true'] at reached
    obtain away | fenced | empty := shut
    · exact absurd reached.1 away
    · rw [reached.2] at fenced
      cases fenced
    · exact empty
  next => rfl

/-- A fenced core tells the cores where the launch is bound (R315). -/
theorem peerFault_bound {s : State} {order d : Nat} (bound : launchHere s d order = some true) :
    peerFault s order d = s.setCore d { s.core d with peerFaults := (s.core d).peerFaults + 1 } := if_pos bound

/-! ### Barriers (R306, R310) -/

/-- A barrier's state is no part of what is bound. -/
theorem coreQueue_setBar (s : State) (c b : Nat) (r : Barrier) :
    (s.setCore c ((s.core c).setBar b r)).coreQueue c = s.coreQueue c := by
  unfold State.coreQueue
  rw [State.core_setCore]
  rfl

/-- Settles O47: each step followed branch by branch from the event at hand. -/
theorem tasksAndBarriersMove : Obligations.TasksAndBarriersMove := by
  refine ⟨?latch, ?launch, ?wfe, ?fe, ?pair, ?search, ?backOff, ?steal, ?answer, ?heartbeat, fun _ _ _ => peerFault_bound, ?done,
    ?stop, ?arrival, ?release, ?timeout⟩
  case latch =>
    intro s c order l hand
    have q := Steps.start (i := .eventLatchSet) hand (by change execEventLatchSet s = _; rw [execEventLatchSet, hand.1])
    refine ⟨fun bound free => ?_, fun lost => ?_⟩
    · have q := q.moves
      rwa [bound, free] at q
    · have q := q.moves
      rwa [if_neg (by
        rw [Bool.and_eq_true_iff, beq_iff_eq, Bool.not_eq_true']
        rintro ⟨bound, free⟩
        obtain away | fenced := lost
        · exact away bound
        · rw [free] at fenced
          cases fenced)] at q
  case launch =>
    rintro s i e c order hand (⟨t, v, r, rfl, rfl⟩ | ⟨d, rfl, rfl⟩ | ⟨rfl, rfl⟩ |
      ⟨d, t, b, v, w, k, rfl, rfl⟩ | ⟨b, p, r, w, rfl, rfl⟩)
    · have q := Steps.start (i := .stealAnswer) hand (by change execStealAnswer s = _; rw [execStealAnswer, hand.1])
      exact ⟨fun gone => (q.of_eq (atLaunch_gone gone)).moves, fun aside => (q.of_eq (atLaunch_aside aside)).waits⟩
    · have q := Steps.start (i := .strandsDone) hand (by change execStrandsDone s = _; rw [execStrandsDone, hand.1])
      exact ⟨fun gone => (q.of_eq (atLaunch_gone gone)).moves, fun aside => (q.of_eq (atLaunch_aside aside)).waits⟩
    · have q := Steps.start (i := .launchStop) hand (by change execLaunchStop s = _; rw [execLaunchStop, hand.1])
      exact ⟨fun gone => (q.of_eq (atLaunch_gone gone)).moves, fun aside => (q.of_eq (atLaunch_aside aside)).waits⟩
    · have q := Steps.start (i := .groupBarrierArrival) hand
        (by change execGroupBarrierArrival s = _; rw [execGroupBarrierArrival, hand.1])
      exact ⟨fun gone => (q.of_eq (atLive_gone gone)).moves, fun aside => (q.of_eq (atLive_aside aside)).waits⟩
    · have q := Steps.start (i := .barrierRelease) hand (by change execBarrierRelease s = _; rw [execBarrierRelease, hand.1])
      exact ⟨fun gone => (q.of_eq (atLive_gone gone)).moves, fun aside => (q.of_eq (atLive_aside aside)).waits⟩
  case wfe =>
    intro s c t n hand waiting
    have q := Steps.start (i := .wfeTimeout) hand (by change execWfeTimeout s = _; rw [execWfeTimeout, hand.1])
    dsimp only at q
    rw [waiting] at q
    exact ⟨fun passed => (q.taken passed).moves, fun early => (q.passed (Nat.not_le.2 early)).waits⟩
  case fe =>
    intro s c t g n full hand waiting limit
    have q := Steps.start (i := .feTimeout) hand (by change execFeTimeout s = _; rw [execFeTimeout, hand.1])
    dsimp only at q
    rw [waiting] at q
    refine ⟨fun passed unserved => (q.taken ?_).moves, fun early => (q.passed ?_).waits⟩
    · rw [unserved, Bool.and_eq_true_iff, decide_eq_true_eq]
      exact ⟨passed, rfl⟩
    · rw [Bool.and_eq_true_iff, decide_eq_true_eq]
      exact fun both => Nat.not_lt.2 early both.1
  case pair =>
    intro s c t hand waiting passed
    have q := Steps.start (i := .pairTimeout) hand (by change execPairTimeout s = _; rw [execPairTimeout, hand.1])
    exact (q.taken ⟨waiting, passed⟩).moves
  case search =>
    intro s c t hand k
    have q := Steps.start (i := .workSearch) hand (by change execWorkSearch s = _; rw [execWorkSearch, hand.1])
    have idle := fun looks : searching s c t = true => q.passed (by rw [looks]; nofun)
    have unasked := fun looks (none : (s.thread c t).search.asked = none) => (idle looks).passed (by rw [none]; nofun)
    refine ⟨fun busy => (q.taken (by rw [busy]; rfl)).moves, fun looks none lower => ((unasked looks none).taken lower).waits,
      fun looks none first => ?_⟩
    have q := (unasked looks none).passed (Bool.eq_false_iff.1 first)
    dsimp only at q
    refine ⟨fun j js runs => ?_, fun r u runs last mirrored => ?_, fun b runs empty bound => ?_⟩
    · rw [show (s.core c).runs = j :: js from runs] at q
      exact q.moves
    · rw [show (s.core c).runs = [] from runs] at q
      dsimp only at q
      rw [show (s.core c).deque.getLast? = some r from last] at q
      rw [runs] at mirrored
      exact (q.of_eq (mirrorTask_mirrored mirrored)).moves
    · rw [show (s.core c).runs = [] from runs, show (s.core c).deque = [] from empty,
        show (s.core c).bound = some b from bound] at q
      exact q.moves
  case backOff =>
    intro s c t hand
    have q := Steps.start (i := .backOff) hand (by change execBackOff s = _; rw [execBackOff, hand.1])
    exact ⟨fun busy => (q.taken (by rw [busy]; rfl)).moves, fun looks past =>
      ((q.passed (by rw [looks]; nofun)).passed (Nat.not_lt.2 past)).moves⟩
  case steal =>
    intro s c t v order hand k
    have q := Steps.start (i := .steal) hand (by change execSteal s = _; rw [execSteal, hand.1])
    dsimp only at q
    refine ⟨fun shut => ?_, fun r rs bound free some => ?_⟩
    · rw [offered_nil shut] at q
      exact q.moves
    · rw [bound, show (s.core v).fenced = false from free, show (s.core v).deque = r :: rs from some] at q
      rw [free]
      exact q.moves
  case answer =>
    intro s c t v order r hand bound s1 s2
    have q := Steps.start (i := .stealAnswer) hand (by change execStealAnswer s = _; rw [execStealAnswer, hand.1])
    have q := q.of_eq (atLaunch_bound bound)
    refine ⟨fun p u given looks mirrored => ?_, fun p given busy => ?_, fun none => ?_⟩
    · subst given
      exact ((q.taken looks).of_eq (mirrorTask_mirrored mirrored)).moves
    · subst given
      exact (q.passed (Bool.eq_false_iff.1 busy)).moves
    · subst none
      split
      next looks => exact (q.taken looks).moves
      next busy => exact (q.passed busy).moves
  case heartbeat =>
    intro s c t b hand bound running
    have q := Steps.start (i := .heartbeatMiss) hand (by change execHeartbeatMiss s = _; rw [execHeartbeatMiss, hand.1])
    dsimp only at q
    split at q
    next unbound => cases bound.symm.trans unbound
    next b' same =>
      cases bound.symm.trans same
      exact ⟨fun beats => (q.taken (.inr beats)).waits, fun missed =>
        (q.passed (not_or.2 ⟨not_not.2 running, Nat.not_lt.2 missed⟩)).moves⟩
  case done =>
    intro s p c order hand bound
    have q := Steps.start (i := .strandsDone) hand (by change execStrandsDone s = _; rw [execStrandsDone, hand.1])
    exact (q.of_eq (atLaunch_bound bound)).moves
  case stop =>
    intro s c order hand bound
    have q := Steps.start (i := .launchStop) hand (by change execLaunchStop s = _; rw [execLaunchStop, hand.1])
    have q := q.of_eq (atLaunch_bound bound)
    split
    next within => exact (q.taken within).waits
    next between => exact (q.passed between).moves
  case arrival =>
    intro s m c t b order val swap ack hand bound free known r now w
    have q := Steps.start (i := .groupBarrierArrival) hand
      (by change execGroupBarrierArrival s = _; rw [execGroupBarrierArrival, hand.1])
    have q := (q.of_eq (atLive_bound bound free)).passed (by
      rw [Bool.and_eq_true_iff, beq_iff_eq]
      exact fun both => known both.1 both.2)
    refine ⟨fun late => ?_, fun u early onward => ?_, fun early here => ?_⟩
    · have q := (q.taken late).moves
      simpa only [Bool.and_eq_true_iff, beq_iff_eq] using q
    · have q := (q.passed (Bool.eq_false_iff.1 early)).taken (by rw [onward]; rfl)
      exact (q.of_eq onward).moves
    · have q : Steps .groupBarrierArrival s (if ack = true then
          some (if (r.2.thread c t).wait = .arrival b then r.2.setThread c t { r.2.thread c t with wait := w } else r.2)
          else some r.2) := (q.passed (Bool.eq_false_iff.1 early)).passed (by rw [here]; nofun)
      split
      next both => exact ((q.taken both.1).of_eq (congrArg some (if_pos both.2))).moves
      next other =>
        by_cases asks : ack = true
        · exact ((q.taken asks).of_eq (congrArg some (if_neg fun same => other ⟨asks, same⟩))).moves
        · exact (q.passed asks).moves
  case release =>
    intro s c b order ph r swap hand bound free
    have q := Steps.start (i := .barrierRelease) hand (by change execBarrierRelease s = _; rw [execBarrierRelease, hand.1])
    exact (q.of_eq (atLive_bound bound free)).moves
  case timeout =>
    intro s c b t0 hand bar first
    have q := Steps.start (i := .barrierTimeout) hand (by change execBarrierTimeout s = _; rw [execBarrierTimeout, hand.1])
    dsimp only at q
    split at q
    next unarmed => cases first.symm.trans unarmed
    next t1 same =>
      cases first.symm.trans same
      have due := fun (passed : t0 + bar.limit ≤ s.cycle) (free : bar.held = false) (some : bar.arrived ≠ 0) =>
        q.passed (not_or.2 ⟨Nat.not_lt.2 passed, not_or.2 ⟨Bool.eq_false_iff.1 free, some⟩⟩)
      refine ⟨fun early => (q.taken early).waits, fun passed free some alone =>
        ((due passed free some).passed (Bool.eq_false_iff.1 alone)).moves, fun passed free some assisted => ?_⟩
      have q := ((due passed free some).taken assisted).moves
      rwa [coreQueue_setBar] at q

end Sys2Proof.Machine
end

section
/-! SUPPORT. What the INT instructions compute (R55, R231, R232): the high halves of products, the divisions and the bit
counts as numbers; O3 from these. -/

namespace Sys2Proof.Machine

/-! ### Products of 128 bits -/

theorem toNat_mulHU (x y : Word) : (mulHU x y).toNat = x.toNat * y.toNat / 2 ^ 64 := by
  have inRange : x.toNat * y.toNat / 2 ^ 64 < 2 ^ 64 :=
    Nat.div_lt_of_lt_mul (Nat.mul_lt_mul'' x.isLt y.isLt)
  rw [mulHU, word, BitVec.toNat_ofNat, Nat.mod_eq_of_lt inRange]

/-- A product of two signed doublewords is at most 2^126 in magnitude. -/
theorem abs_toInt_mul_toInt_le (x y : Word) : |x.toInt * y.toInt| ≤ 2 ^ 126 := by
  have magnitude (z : Word) : |z.toInt| ≤ 2 ^ 63 := abs_le.2 ⟨z.le_toInt, z.toInt_lt.le⟩
  rw [abs_mul]
  exact mul_le_mul (magnitude x) (magnitude y) (abs_nonneg _) (by decide)

theorem toInt_mulHS (x y : Word) : (mulHS x y).toInt = x.toInt * y.toInt / 2 ^ 64 := by
  obtain ⟨low, high⟩ := abs_le.1 (abs_toInt_mul_toInt_le x y)
  exact BitVec.toInt_ofInt_eq_self (by decide) (by omega) (by omega)

/-- The low half of the product is the same for signed and for unsigned factors. -/
theorem toNat_mul_eq_toInt_emod (x y : Word) : ((x * y).toNat : Int) = x.toInt * y.toInt % 2 ^ 64 := by
  have product : x * y = BitVec.ofInt 64 (x.toInt * y.toInt) := by
    rw [BitVec.ofInt_mul, BitVec.ofInt_toInt, BitVec.ofInt_toInt]
  rw [product, BitVec.toNat_ofInt]
  exact Int.toNat_of_nonneg (Int.emod_nonneg _ (by decide))

/-! ### Divisions (R55) -/

theorem divS_of_ne_zero {x y : Word} (hy : y ≠ 0) : divS x y = x.sdiv y := by
  rw [divS, if_neg hy, ← BitVec.toInt_inj, BitVec.toInt_ofInt, BitVec.toInt_sdiv]

theorem remS_of_ne_zero {x y : Word} (hy : y ≠ 0) : remS x y = x.srem y := by
  rw [remS, if_neg hy, ← BitVec.toInt_srem, BitVec.ofInt_toInt]

/-- The one quotient that does not fit is that of -2^63 by -1. -/
theorem toInt_sdiv_of_not_overflow {x y : Word} (fits : ¬ (x.toInt = -2 ^ 63 ∧ y.toInt = -1)) :
    (x.sdiv y).toInt = x.toInt.tdiv y.toInt := by
  refine BitVec.toInt_sdiv_of_ne_or_ne x y (not_and_or.1 fun both => fits ?_)
  rw [both.1, both.2]
  decide

theorem sdiv_of_overflow {x y : Word} (hx : x.toInt = -2 ^ 63) (hy : y.toInt = -1) : x.sdiv y = x := by
  rw [← BitVec.toInt_inj, BitVec.toInt_sdiv, hx, hy]
  decide

theorem toNat_divU {x y : Word} (hy : y ≠ 0) : (divU x y).toNat = x.toNat / y.toNat := by
  rw [divU, if_neg hy, word, BitVec.toNat_ofNat, Nat.mod_eq_of_lt (Nat.lt_of_le_of_lt (Nat.div_le_self _ _) x.isLt)]

theorem toNat_remU {x y : Word} (hy : y ≠ 0) : (remU x y).toNat = x.toNat % y.toNat := by
  rw [remU, if_neg hy, word, BitVec.toNat_ofNat, Nat.mod_eq_of_lt (Nat.lt_of_le_of_lt (Nat.mod_le _ _) x.isLt)]

/-! ### Bit counts -/

theorem clz_of_ne_zero {x : Word} (hx : x ≠ 0) : ∃ n, n < 64 ∧ clz x = word (63 - n) ∧ x.getLsbD n = true ∧
    ∀ i, n < i → x.getLsbD i = false := by
  have hx' : x.toNat ≠ 0 := fun h => hx (BitVec.eq_of_toNat_eq h)
  refine ⟨x.toNat.log2, (Nat.log2_lt hx').2 x.isLt, if_neg hx, ?_, fun i above => ?_⟩
  · rw [← BitVec.testBit_toNat, Nat.testBit_log2 hx']
  · rw [← BitVec.testBit_toNat]
    exact Nat.testBit_lt_two_pow (Nat.lt_log2_self.trans_le (Nat.pow_le_pow_right (by decide) above))

theorem ctz_zero : ctz 0 = 64 := by decide

theorem ctz_of_ne_zero {x : Word} (hx : x ≠ 0) : ∃ n, n < 64 ∧ ctz x = word n ∧ x.getLsbD n = true ∧
    ∀ i, i < n → x.getLsbD i = false := by
  unfold ctz
  cases found : (List.range 64).find? fun i => bit x i with
  | none =>
    refine absurd (BitVec.eq_of_getLsbD_eq fun i hi => ?_) hx
    have := List.find?_range_eq_none.1 found i hi
    simpa [bit] using this
  | some n =>
    obtain ⟨one, listed, below⟩ := List.find?_range_eq_some.1 found
    exact ⟨n, List.mem_range.1 listed, rfl, one, fun i hi => by simpa [bit] using below i hi⟩

theorem toNat_word_popCount (x : Word) : (word (popCount x)).toNat = (List.range 64).countP fun i => x.getLsbD i := by
  have small : popCount x < 2 ^ 64 :=
    (List.length_filter_le _ (List.range 64)).trans_lt (by rw [List.length_range]; decide)
  rw [word, BitVec.toNat_ofNat, Nat.mod_eq_of_lt small, popCount, List.countP_eq_length_filter]
  rfl

/-! ### The words -/

/-- Settles O3: each word completes with its function's value (binDoes, unDoes), and the lemmas above say which number
that is; SEL is followed through its sources. -/
theorem integerDivisionHighProductsAndCounts : Obligations.IntegerDivisionHighProductsAndCounts := by
  refine ⟨binDoes (fun _ _ _ _ => rfl) fun x y => ?mulh, binDoes (fun _ _ _ _ => rfl) fun x y => ?mulhu,
    binDoes (fun _ _ _ _ => rfl) fun x y => ?div, binDoes (fun _ _ _ _ => rfl) fun x y => ?divu,
    binDoes (fun _ _ _ _ => rfl) fun x y => ?rem, binDoes (fun _ _ _ _ => rfl) fun x y => ?remu,
    unDoes (fun _ _ _ => rfl) fun x => ?clz, unDoes (fun _ _ _ => rfl) fun x => ?ctz,
    unDoes (fun _ _ _ => rfl) toNat_word_popCount, ?sel⟩
  case mulh => rw [toInt_mulHS, toNat_mul_eq_toInt_emod, Int.ediv_mul_add_emod]
  case mulhu => rw [toNat_mulHU, BitVec.toNat_mul, Nat.div_add_mod']
  case div =>
    split_ifs with zero overflow
    · exact if_pos zero
    · rw [divS_of_ne_zero zero, sdiv_of_overflow overflow.1 overflow.2]
    · rw [divS_of_ne_zero zero, toInt_sdiv_of_not_overflow overflow]
  case divu =>
    split
    case isTrue zero => exact if_pos zero
    case isFalse nonzero => exact toNat_divU nonzero
  case rem =>
    split
    case isTrue zero => exact if_pos zero
    case isFalse nonzero => rw [remS_of_ne_zero nonzero, BitVec.toInt_srem, Int.tmod_def]
  case remu =>
    split
    case isTrue zero => exact if_pos zero
    case isFalse nonzero => exact toNat_remU nonzero
  case clz =>
    by_cases zero : x = 0
    · exact .inl ⟨zero, if_pos zero⟩
    · exact .inr (clz_of_ne_zero zero)
  case ctz =>
    by_cases zero : x = 0
    · exact .inl ⟨zero, zero ▸ ctz_zero⟩
    · exact .inr (ctz_of_ne_zero zero)
  case sel =>
    intro s d a b x y s1 s2 s3 legal left right written
    rw [ite_not] at written
    exact (((Performs.start (i := .sel d a b) legal rfl).step left).step right).completes written

end Sys2Proof.Machine
end

section
/-! SUPPORT. The INT words of two sources and the immediate forms (R231 to R235): their results as numbers; O2 and O4 from
these. -/

namespace Sys2Proof.Machine

/-! ### Results of operations -/

theorem toNat_sub_word (x y : Word) : (x - y).toNat = (x.toNat + 2 ^ 64 - y.toNat) % 2 ^ 64 := by
  have := y.isLt
  rw [BitVec.toNat_sub]
  omega

theorem toNat_shiftLeft_word (x : Word) (n : Nat) : (x <<< n).toNat = x.toNat * 2 ^ n % 2 ^ 64 := by
  rw [BitVec.toNat_shiftLeft, Nat.shiftLeft_eq]

theorem toNat_ushiftRight_word (x : Word) (n : Nat) : (x >>> n).toNat = x.toNat / 2 ^ n := by
  rw [BitVec.toNat_ushiftRight, Nat.shiftRight_eq_div_pow]

theorem toInt_sshiftRight_word (x : Word) (n : Nat) : (x.sshiftRight n).toInt = x.toInt / 2 ^ n := by
  rw [BitVec.toInt_sshiftRight, Int.shiftRight_eq_div_pow, Nat.cast_pow, Nat.cast_ofNat]

theorem toInt_ite_slt (x y : Word) : (if x.slt y then x else y).toInt = min x.toInt y.toInt := by
  simp only [BitVec.slt_iff_toInt_lt]
  split <;> omega

theorem toInt_ite_slt_swap (x y : Word) : (if x.slt y then y else x).toInt = max x.toInt y.toInt := by
  simp only [BitVec.slt_iff_toInt_lt]
  split <;> omega

theorem toNat_ite_ult (x y : Word) : (if x.ult y then x else y).toNat = min x.toNat y.toNat := by
  simp only [BitVec.ult_iff_toNat_lt]
  split <;> omega

theorem toNat_ite_ult_swap (x y : Word) : (if x.ult y then y else x).toNat = max x.toNat y.toNat := by
  simp only [BitVec.ult_iff_toNat_lt]
  split <;> omega

theorem wordOfBool_slt (x y : Word) : wordOfBool (x.slt y) = if x.toInt < y.toInt then 1 else 0 :=
  if_congr BitVec.slt_iff_toInt_lt rfl rfl

theorem wordOfBool_ult (x y : Word) : wordOfBool (x.ult y) = if x.toNat < y.toNat then 1 else 0 :=
  if_congr BitVec.ult_iff_toNat_lt rfl rfl

/-- Settles O2: each word completes with its function's value (binDoes), which is the number that the table gives. -/
theorem integerResultsOfTwoSources : Obligations.IntegerResultsOfTwoSources :=
  ⟨binDoes (fun _ _ _ _ => rfl) fun x y => BitVec.toNat_add x y,
    binDoes (fun _ _ _ _ => rfl) toNat_sub_word,
    binDoes (fun _ _ _ _ => rfl) fun _ _ _ => BitVec.getLsbD_and,
    binDoes (fun _ _ _ _ => rfl) fun _ _ _ => BitVec.getLsbD_or,
    binDoes (fun _ _ _ _ => rfl) fun _ _ _ => BitVec.getLsbD_xor,
    binDoes (fun _ _ _ _ => rfl) fun x y => shamt_eq y ▸ toNat_shiftLeft_word x (shamt y),
    binDoes (fun _ _ _ _ => rfl) fun x y => shamt_eq y ▸ toNat_ushiftRight_word x (shamt y),
    binDoes (fun _ _ _ _ => rfl) fun x y => shamt_eq y ▸ toInt_sshiftRight_word x (shamt y),
    binDoes (fun _ _ _ _ => rfl) fun x y => BitVec.toNat_mul x y,
    binDoes (fun _ _ _ _ => rfl) toInt_ite_slt, binDoes (fun _ _ _ _ => rfl) toInt_ite_slt_swap,
    binDoes (fun _ _ _ _ => rfl) toNat_ite_ult, binDoes (fun _ _ _ _ => rfl) toNat_ite_ult_swap,
    binDoes (fun _ _ _ _ => rfl) wordOfBool_slt, binDoes (fun _ _ _ _ => rfl) wordOfBool_ult⟩

/-! ### Immediates (R233 to R235) -/

theorem wordOfBool_slt_imm15 (x : Word) (i : BitVec 15) :
    wordOfBool (x.slt (imm15 i)) = if x.toInt < i.toInt then 1 else 0 := by
  rw [wordOfBool_slt, imm15, BitVec.toInt_signExtend_of_le (by decide)]

/-- LUI's immediate stands above twelve zero bits. -/
theorem sext_imm20 (i : BitVec 20) : sext (i.toNat * 2 ^ 12) 32 = (i ++ 0#12 : BitVec 32).signExtend 64 := by
  have shifted : BitVec.ofNat 32 (i.toNat * 2 ^ 12) = i ++ 0#12 := by
    apply BitVec.eq_of_toNat_eq
    rw [Laws.RowBits.cat_toNat, BitVec.toNat_ofNat, BitVec.toNat_zero, Nat.add_zero, Nat.mod_eq_of_lt (by omega)]
  rw [sext, shifted]

/-- Settles O4: each word completes with its function's value (unDoes); LUI writes its immediate; the encoder's rows. -/
theorem immediateIntegerResults : Obligations.ImmediateIntegerResults := by
  refine ⟨fun i => ⟨unDoes (fun _ _ _ => rfl) fun _ => rfl, unDoes (fun _ _ _ => rfl) fun _ => rfl,
      unDoes (fun _ _ _ => rfl) fun _ => rfl, unDoes (fun _ _ _ => rfl) fun _ => rfl,
      unDoes (fun _ _ _ => rfl) fun x => wordOfBool_slt_imm15 x i,
      unDoes (fun _ _ _ => rfl) fun x => wordOfBool_ult x (imm15 i)⟩,
    fun n => ⟨unDoes (fun _ _ _ => rfl) fun x => toNat_shiftLeft_word x n.toNat,
      unDoes (fun _ _ _ => rfl) fun x => toNat_ushiftRight_word x n.toNat,
      unDoes (fun _ _ _ => rfl) fun x => toInt_sshiftRight_word x n.toNat⟩,
    fun s d i s1 legal written => ?lui, fun l d a i => ⟨rfl, rfl, rfl, rfl, rfl, rfl⟩⟩
  case lui =>
    rw [sext_imm20] at written
    exact (Performs.start (i := .lui d i) legal rfl).completes written

end Sys2Proof.Machine
end

section
/-! SUPPORT. The scalar floating-point words (R236 to R241): the shapes of their effects, each followed once to the write of
its result; O5 from these. -/

namespace Sys2Proof.Machine

/-! ### The shapes of their effects (R237) -/

/-- An arithmetic computation and the write of its result, as what is left of a word. -/
theorem Performs.computes {α : Type} {i : Instr} {s s1 s2 : State} {d : BitVec 5} {f : F α} {g : α → Word} {r : α}
    {e : FpEnv} (p : Performs i s (liftF f >>= fun r => writeX d (g r)) s1) (ran : f.run ⟨0, s1.me.seed⟩ = (r, e))
    (written : writeX d (g r) (s1.afterF e) = .ok () s2) : Completes i s s2 :=
  (p.step (liftF_ok ran)).completes written

/-- A word that rounds once the exact result of two sources (R237). -/
theorem floatDoes_fpBin {i : BitVec 5 → BitVec 5 → BitVec 5 → BitVec 2 → Instr} {op : Val → Val → Nat → F Val}
    (runs : ∀ d a b p s, exec (i d a b p) s = run (i d a b p) s (fpBin d a b p op)) :
    FloatDoes i (fun f m _ x y => do
      let u ← lowVal f x
      let v ← lowVal f y
      roundTo f m (← op u v m)) := by
  intro s d a b p x y s1 s2 r e s3 legal left right ran written
  have q := ((Performs.start legal (runs d a b p s)).step left).step right
  have mode : s2.rmode = s.rmode := (rmode_readX right).trans (rmode_readX left)
  rw [← mode] at ran
  exact (q.step (M.get_run s2)).computes ran written

/-- A word of two sources that does not round. -/
theorem floatDoes_fpRaw {i : BitVec 5 → BitVec 5 → BitVec 5 → BitVec 2 → Instr} {f : Fmt → Nat → Nat → F Nat}
    {g : Fmt → Nat → Word → Word → Word → F Nat}
    (runs : ∀ d a b p s, exec (i d a b p) s = run (i d a b p) s (fpRaw d a b p f))
    (same : ∀ fm m old x y, g fm m old x y = f fm (lowBits fm x) (lowBits fm y)) : FloatDoes i g := by
  intro s d a b p x y s1 s2 r e s3 legal left right ran written
  rw [same] at ran
  exact (((Performs.start legal (runs d a b p s)).step left).step right).computes ran written

/-! ### Relations, classes and signs (R238, R240, R241) -/

theorem relate_lowBits (f : Fmt) (x y : Word) : relate f (lowBits f x) (lowBits f y) = do
    let u ← lowVal f x
    let v ← lowVal f y
    return if u.isNan || v.isNan then 8 else if cmpVal u v < 0 then 1 else if cmpVal u v = 0 then 2 else 4 := by
  unfold relate
  simp only [apply_ite pure]
  rfl

theorem fsgn_lowBits (f : Fmt) (x y : Word) : fsgn f (lowBits f x) (lowBits f y) = do
    let u ← lowVal f x
    return if u.isNan then f.canon
      else x.toNat % 2 ^ (f.width - 1) + y.toNat % 2 ^ f.width / 2 ^ (f.width - 1) * 2 ^ (f.width - 1) := by
  have magnitude : lowBits f x % 2 ^ (f.width - 1) = x.toNat % 2 ^ (f.width - 1) :=
    Nat.mod_mod_of_dvd _ (Nat.pow_dvd_pow 2 (Nat.sub_le _ _))
  rw [fsgn, magnitude]
  rfl

/-- Exactly one of the ten classes (R240). -/
theorem fclass_eq_two_pow (f : Fmt) (b : Nat) : ∃ i, i < 10 ∧ fclass f b = 2 ^ i := by
  unfold fclass
  cases f.decode b with
  | nan signalling =>
    cases signalling
    exacts [⟨9, by decide, rfl⟩, ⟨8, by decide, rfl⟩]
  | inf neg =>
    cases neg
    exacts [⟨7, by decide, rfl⟩, ⟨0, by decide, rfl⟩]
  | fin neg m e st =>
    dsimp only
    split_ifs
    exacts [⟨3, by decide, rfl⟩, ⟨4, by decide, rfl⟩, ⟨2, by decide, rfl⟩, ⟨5, by decide, rfl⟩, ⟨1, by decide, rfl⟩,
      ⟨6, by decide, rfl⟩]

/-! ### The words -/

/-- Settles O5: the words of two sources by their shape, the others followed through their source. -/
theorem scalarFloatWords : Obligations.ScalarFloatWords := by
  refine ⟨⟨floatDoes_fpBin (i := .fadd) fun _ _ _ _ _ => rfl, floatDoes_fpBin (i := .fsub) fun _ _ _ _ _ => rfl,
      floatDoes_fpBin (i := .fmul) fun _ _ _ _ _ => rfl, floatDoes_fpBin (i := .fdiv) fun _ _ _ _ _ => rfl,
      ?fsqrt, ?fma,
      floatDoes_fpRaw (fun _ _ _ _ _ => rfl) fun _ _ _ _ _ => rfl,
      floatDoes_fpRaw (fun _ _ _ _ _ => rfl) fun _ _ _ _ _ => rfl⟩,
    floatDoes_fpRaw (fun _ _ _ _ _ => rfl) fun f _ _ x y => (relate_lowBits f x y).symm, ?fclass, fclass_eq_two_pow,
    floatDoes_fpRaw (fun _ _ _ _ _ => rfl) fun f _ _ x y => (fsgn_lowBits f x y).symm, ?fcvt⟩
  case fsqrt =>
    intro s d a p x s1 r e s2 legal source ran written
    exact ((Performs.start (i := .fsqrt d a p) legal rfl).step source).computes ran written
  case fma =>
    intro s d a b p x y s1 s2 r e s3 legal left right ran written
    exact (((Performs.start (i := .fma d a b p) legal rfl).step left).step right).computes ran written
  case fclass =>
    intro s d a p x s1 s2 legal source written
    exact ((Performs.start (i := .fclass d a p) legal rfl).step source).completes written
  case fcvt =>
    intro s d a k p x s1 r e s2 legal source ran written
    exact ((Performs.start (i := .fcvt d a k p) legal rfl).step source).computes ran written

end Sys2Proof.Machine
end

section
/-! SUPPORT. The write policy of R245 position by position, and the integer vector words (R248 to R250) as instances of it:
O8, O9 and O10 from these. -/

namespace Sys2Proof.Machine

variable {α : Type}

/-! ### The write policy (R245) -/

/-- The computation at one position: that of its input where the mask is set, else nothing but the policy's element. -/
def maskedAt (z : Bool) (f : α → F Nat) (b : Bool) (x : α) (o : Nat) : F Nat :=
  if b then f x else pure (if z then 0 else o)

theorem masked_cons_run (z : Bool) (f : α → F Nat) (b : Bool) (bs : List Bool) (x : α) (xs : List α) (o : Nat)
    (os : List Nat) (e : FpEnv) :
    (masked z f (b :: bs) (x :: xs) (o :: os)).run e =
      (((maskedAt z f b x o).run e).1 :: ((masked z f bs xs os).run ((maskedAt z f b x o).run e).2).1,
        ((masked z f bs xs os).run ((maskedAt z f b x o).run e).2).2) := by
  cases b <;> rfl

/-- A position is computed with the flags and the seed that the positions before it left. -/
theorem masked_getElem? (z : Bool) (f : α → F Nat) : ∀ (bs : List Bool) (xs : List α) (os : List Nat) (e : FpEnv) (j : Nat)
    (b : Bool) (x : α) (o : Nat), bs[j]? = some b → xs[j]? = some x → os[j]? = some o →
    ((masked z f bs xs os).run e).1[j]? =
      some ((maskedAt z f b x o).run ((masked z f (bs.take j) xs os).run e).2).1
  | [], _, _, _, _, _, _, _, hb, _, _ => by simp at hb
  | _ :: _, [], _, _, _, _, _, _, _, hx, _ => by simp at hx
  | _ :: _, _ :: _, [], _, _, _, _, _, _, _, ho => by simp at ho
  | _ :: _, _ :: _, _ :: _, _, 0, _, _, _, hb, hx, ho => by
    simp only [List.getElem?_cons_zero, Option.some.injEq] at hb hx ho
    subst hb hx ho
    rw [masked_cons_run]
    rfl
  | _ :: bs, _ :: xs, _ :: os, e, j + 1, b, x, o, hb, hx, ho => by
    rw [masked_cons_run, List.getElem?_cons_succ, List.take_succ_cons, masked_cons_run]
    exact masked_getElem? z f bs xs os _ j b x o hb hx ho

/-- An inactive position leaves the flags and the seed as they were. -/
theorem masked_take_succ_inactive (z : Bool) (f : α → F Nat) : ∀ (bs : List Bool) (xs : List α) (os : List Nat) (e : FpEnv)
    (j : Nat), bs[j]? = some false →
    ((masked z f (bs.take (j + 1)) xs os).run e).2 = ((masked z f (bs.take j) xs os).run e).2
  | [], _, _, _, _, hb => by simp at hb
  | _ :: _, [], _, _, 0, _ => rfl
  | _ :: _, [], _, _, _ + 1, _ => rfl
  | _ :: _, _ :: _, [], _, 0, _ => rfl
  | _ :: _, _ :: _, [], _, _ + 1, _ => rfl
  | _ :: _, _ :: _, _ :: _, _, 0, hb => by
    simp only [List.getElem?_cons_zero, Option.some.injEq] at hb
    subst hb
    rfl
  | _ :: bs, _ :: xs, _ :: os, e, j + 1, hb => by
    rw [List.take_succ_cons, List.take_succ_cons, masked_cons_run, masked_cons_run]
    exact masked_take_succ_inactive z f bs xs os _ j hb

/-- Settles O10: by induction along the positions. -/
theorem activeElementsInAscendingOrder : Obligations.ActiveElementsInAscendingOrder := by
  refine ⟨fun z f bs xs os e j b x o hb hx ho => ?_, fun z f bs xs os e j => masked_take_succ_inactive z f bs xs os e j⟩
  rw [masked_getElem? z f bs xs os e j b x o hb hx ho]
  cases b <;> rfl

/-- A register has no more elements than a mask has bits. -/
theorem lanes_typeWidth_le (t : BitVec 4) : lanes (typeWidth t) ≤ 1024 := by
  have wide : 4 ≤ typeWidth t := by
    unfold typeWidth
    split <;> decide
  exact Nat.div_le_of_le_mul (by omega)

/-! ### Elements computed without flags and draws -/

theorem zip_getElem?_eq_some {β : Type} {l : List α} {m : List β} {j : Nat} {x : α} {y : β} (left : l[j]? = some x)
    (right : m[j]? = some y) : (l.zip m)[j]? = some (x, y) := List.getElem?_zip_eq_some.2 ⟨left, right⟩

theorem maskBits_vmask_getElem? (s : State) {n j : Nat} (inside : j < n) :
    (maskBits n s.vmask.toNat)[j]? = some (s.vmask.getLsbD j) := by
  rw [maskBits_getElem? inside, BitVec.testBit_toNat]

theorem vElem_lt (w : Nat) (v : VReg) (j : Nat) : vElem w v j < 2 ^ w := Nat.mod_lt _ (Nat.two_pow_pos w)

theorem vElem_vPack_of_getElem? {w j x : Nat} {l : List Nat} (fits : l.length ≤ lanes w) (at_j : l[j]? = some x) :
    vElem w (vPack w l) j = x % 2 ^ w := by
  rw [vElem_vPack ((Nat.mul_le_mul_left w fits).trans (Nat.mul_div_le 4096 w)), at_j]
  rfl

theorem masked_pure_quiet (z : Bool) (g : α → Nat) (bs : List Bool) (xs : List α) (os : List Nat) (e : FpEnv) :
    ((masked z (fun x => pure (g x)) bs xs os).run e).2 = e := by rw [masked_pure]

theorem masked_pure_length_le (z : Bool) (g : α → Nat) (bs : List Bool) (xs : List α) (os : List Nat) (e : FpEnv) :
    ((masked z (fun x => pure (g x)) bs xs os).run e).1.length ≤ bs.length := by
  rw [masked_pure, List.length_map, List.length_zip]
  exact Nat.min_le_left _ _

theorem masked_pure_getElem? (z : Bool) (g : α → Nat) {bs : List Bool} {xs : List α} {os : List Nat} (e : FpEnv) {j : Nat}
    {b : Bool} {x : α} {o : Nat} (hb : bs[j]? = some b) (hx : xs[j]? = some x) (ho : os[j]? = some o) :
    ((masked z (fun x => pure (g x)) bs xs os).run e).1[j]? = some (if b then g x else if z then 0 else o) := by
  rw [masked_getElem? z _ bs xs os e j b x o hb hx ho]
  cases b <;> rfl

/-- Such a computation leaves the thread as it was. -/
theorem liftF_quiet {β : Type} {f : F β} {s : State} (quiet : (f.run ⟨0, s.me.seed⟩).2 = ⟨0, s.me.seed⟩) :
    liftF f s = .ok (f.run ⟨0, s.me.seed⟩).1 (s.setMe s.me) := by
  have unflagged : s.me.fflags ||| word 0 = s.me.fflags := BitVec.or_zero
  rw [liftF_run, quiet]
  simp only [unflagged]

/-- Such a computation writes vd alone: each active element modulo 2^w, and zeros or old elements elsewhere. -/
theorem vecMap_pure_elem (d : BitVec 5) (w : Nat) (xs : List α) (g : α → Nat) (s : State) :
    ∃ v, vecMap d w xs (fun x => pure (g x)) s = .ok () (s.setMe (s.me.setV d.toNat v)) ∧
      ∀ j x, j < lanes w → xs[j]? = some x → vElem w v j =
        if s.vmask.getLsbD j then g x % 2 ^ w else if s.vzero then 0 else vElem w (s.me.getV d.toNat) j := by
  unfold vecMap
  rw [M.bind_get_run, M.bind_ok (liftF_quiet (masked_pure_quiet ..)), writeV_run, State.me_setMe, State.setMe_setMe]
  refine ⟨_, rfl, fun j x inside at_j => ?_⟩
  rw [vElem_vPack_of_getElem? ((masked_pure_length_le ..).trans (maskBits_length _ _).le)
    (masked_pure_getElem? _ _ _ (maskBits_vmask_getElem? s inside) at_j (vElems_getElem? _ inside))]
  split
  · rfl
  · split
    · exact Nat.zero_mod _
    · exact Nat.mod_eq_of_lt (vElem_lt _ _ _)

/-! ### Words of one to three vector sources (R36, R245) -/

section Sources

variable {i : Instr} {s : State} {d a b : BitVec 5} {w : Nat}

theorem vectorDoes_vecUn {f : Nat → F Nat} (runs : exec i s = run i s (vecUn d a w f)) :
    VectorDoes i s d w (lanesOf s d w (vElems w (s.me.getV a.toNat)) f) :=
  fun legal => completes_of runs legal (vecMap_run d w _ f s)

theorem vectorDoes_vecBin {f : Nat → Nat → F Nat} (runs : exec i s = run i s (vecBin d a b w f)) :
    VectorDoes i s d w (lanesOf s d w ((vElems w (s.me.getV a.toNat)).zip (vElems w (s.me.getV b.toNat)))
      fun p => f p.1 p.2) :=
  fun legal => completes_of runs legal (vecMap_run d w _ (fun p : Nat × Nat => f p.1 p.2) s)

theorem vectorDoes_vecTer {f : Nat → Nat → Nat → F Nat} (runs : exec i s = run i s (vecTer d a b w f)) :
    VectorDoes i s d w (lanesOf s d w ((vElems w (s.me.getV a.toNat)).zip ((vElems w (s.me.getV b.toNat)).zip
      (vElems w (s.me.getV (s.addend d).toNat)))) fun p => f p.1 p.2.1 p.2.2) :=
  fun legal => completes_of runs legal (vecMap_run d w _ (fun p : Nat × Nat × Nat => f p.1 p.2.1 p.2.2) s)

end Sources

/-! ### VADD to VSRA (R248) -/

/-- An integer word of two vector sources, by its function. -/
theorem lanesDo {i : BitVec 5 → BitVec 5 → BitVec 5 → BitVec 4 → Instr} {f : Nat → Bool → Nat → Nat → Nat}
    (runs : ∀ d a b t s, exec (i d a b t) s = run (i d a b t) s (vintBin d a b t fun w sg x y => pure (f w sg x y))) :
    LanesDo i f := by
  intro s d a b t legal
  obtain ⟨v, written, elements⟩ := vecMap_pure_elem d (typeWidth t)
    ((vElems (typeWidth t) (s.me.getV a.toNat)).zip (vElems (typeWidth t) (s.me.getV b.toNat)))
    (fun p => f (typeWidth t) (tSigned t) p.1 p.2) s
  exact ⟨v, completes_of (runs d a b t s) legal written, fun j inside =>
    elements j _ inside (zip_getElem?_eq_some (vElems_getElem? _ inside) (vElems_getElem? _ inside))⟩

/-- The same where the meaning reduces its result itself. -/
theorem lanesDo_mod {i : BitVec 5 → BitVec 5 → BitVec 5 → BitVec 4 → Instr} {f : Nat → Bool → Nat → Nat → Nat}
    (runs : ∀ d a b t s, exec (i d a b t) s =
      run (i d a b t) s (vintBin d a b t fun w sg x y => pure (f w sg x y % 2 ^ w))) : LanesDo i f := by
  have reduced := lanesDo runs
  simpa only [LanesDo, Nat.mod_mod] using reduced

/-- Settles O8: each word is the write policy over its function, which is the table's modulo 2^w. -/
theorem integerVectorLanes : Obligations.IntegerVectorLanes :=
  ⟨lanesDo_mod fun _ _ _ _ _ => rfl, lanesDo_mod fun _ _ _ _ _ => rfl, lanesDo_mod fun _ _ _ _ _ => rfl,
    lanesDo fun _ _ _ _ _ => rfl, lanesDo fun _ _ _ _ _ => rfl, lanesDo fun _ _ _ _ _ => rfl,
    lanesDo fun _ _ _ _ _ => rfl, lanesDo fun _ _ _ _ _ => rfl, lanesDo fun _ _ _ _ _ => rfl,
    lanesDo_mod fun _ _ _ _ _ => rfl, lanesDo fun _ _ _ _ _ => rfl, lanesDo fun _ _ _ _ _ => rfl⟩

/-! ### VABS, VADDS, VCMP and VSEL (R248 to R250) -/

theorem testBit_pack_one (l : List Nat) (j : Nat) : (pack 1 l).testBit j = decide (l[j]?.getD 0 % 2 = 1) := by
  have digit := pack_elem 1 l j
  rw [Nat.one_mul, Nat.pow_one] at digit
  rw [Nat.testBit_eq_decide_div_mod_eq, digit]

/-- The low bits of a mask register replaced: what putMask writes. -/
def lowBitsOf (old : MReg) (n : Nat) (l : List Nat) : MReg := BitVec.ofNat 1024 (old.toNat / 2 ^ n * 2 ^ n + pack 1 l)

theorem putMask_run (k n : Nat) (l : List Nat) (s : State) :
    putMask k n l s = .ok () (s.setMe (s.me.setK k (lowBitsOf (s.me.getK k) n l))) := rfl

theorem getLsbD_lowBitsOf (old : MReg) {n j : Nat} {l : List Nat} (all : l.length = n) (inside : j < 1024) :
    (lowBitsOf old n l).getLsbD j = if j < n then decide (l[j]?.getD 0 % 2 = 1) else old.getLsbD j := by
  have below : pack 1 l < 2 ^ n := by simpa [all] using pack_lt 1 l
  rw [lowBitsOf, BitVec.getLsbD_ofNat, Nat.mul_comm, Nat.testBit_two_pow_mul_add _ below, testBit_pack_one]
  simp only [inside, decide_true, Bool.true_and, Nat.testBit_div_two_pow]
  split
  next => rfl
  next above => rw [Nat.sub_add_cancel (Nat.not_lt.1 above), BitVec.testBit_toNat]

theorem boolNat_mod_two (b : Bool) : decide (boolNat b % 2 = 1) = b := by cases b <;> rfl

/-- An element of a mask is its bit. -/
theorem elems_one_getElem? (m : MReg) {n j : Nat} (inside : j < n) :
    (elems 1 n m.toNat)[j]? = some (boolNat (m.getLsbD j)) := by
  rw [elems_getElem? 1 n _ j inside, ← BitVec.testBit_toNat, Nat.testBit_eq_decide_div_mod_eq, Nat.one_mul]
  rcases Nat.mod_two_eq_zero_or_one (m.toNat / 2 ^ j) with h | h <;> simp [h, boolNat]

/-- The bits that a comparison computes for its mask register. -/
def cmpBits (s : State) (k : BitVec 3) (a b : BitVec 5) (w : Nat) (f : Nat → Nat → F Bool) : F (List Nat) :=
  masked s.vzero (fun p => do return boolNat (← f p.1 p.2)) (maskBits (lanes w) s.vmask.toNat)
    ((vElems w (s.me.getV a.toNat)).zip (vElems w (s.me.getV b.toNat))) (elems 1 (lanes w) (s.me.getK k.toNat).toNat)

theorem vecCmp_apply (k : BitVec 3) (a b : BitVec 5) (w : Nat) (f : Nat → Nat → F Bool) (s : State) :
    vecCmp k a b w f s = (liftF (cmpBits s k a b w f) >>= putMask k.toNat (lanes w)) s := rfl

theorem cmpBits_pure (s : State) (k : BitVec 3) (a b : BitVec 5) (w : Nat) (r : Nat → Nat → Bool) :
    cmpBits s k a b w (fun x y => pure (r x y)) =
      masked s.vzero (fun p => pure (boolNat (r p.1 p.2))) (maskBits (lanes w) s.vmask.toNat)
        ((vElems w (s.me.getV a.toNat)).zip (vElems w (s.me.getV b.toNat)))
        (elems 1 (lanes w) (s.me.getK k.toNat).toNat) := rfl

/-- A comparison without flags: the relation at active positions, zeros or the old bits at the others. -/
theorem vecCmp_pure (k : BitVec 3) (a b : BitVec 5) (w : Nat) (r : Nat → Nat → Bool) (s : State) :
    ∃ m, vecCmp k a b w (fun x y => pure (r x y)) s = .ok () (s.setMe (s.me.setK k.toNat m)) ∧
      ∀ j, j < 1024 → m.getLsbD j =
        if j < lanes w then
          if s.vmask.getLsbD j then r (vElem w (s.me.getV a.toNat) j) (vElem w (s.me.getV b.toNat) j)
          else !s.vzero && (s.me.getK k.toNat).getLsbD j
        else (s.me.getK k.toNat).getLsbD j := by
  rw [vecCmp_apply, cmpBits_pure, M.bind_ok (liftF_quiet (masked_pure_quiet ..)), putMask_run, State.me_setMe,
    State.setMe_setMe]
  refine ⟨_, rfl, fun j inside => ?_⟩
  rw [getLsbD_lowBitsOf _ (by simp [masked_pure]) inside]
  split
  next low =>
    rw [masked_pure_getElem? _ _ _ (maskBits_vmask_getElem? s low)
      (zip_getElem?_eq_some (vElems_getElem? _ low) (vElems_getElem? _ low)) (elems_one_getElem? _ low)]
    cases s.vmask.getLsbD j
    · cases s.vzero
      · exact boolNat_mod_two _
      · rfl
    · exact boolNat_mod_two _
  next => rfl

theorem vectorDoes_vadds {s : State} {d a b : BitVec 5} {t : BitVec 4} : VectorDoes (.vadds d a b t) s d (typeWidth t)
    (lanesOf s d (typeWidth t)
      ((vElems (typeWidth t) (s.me.getV a.toNat)).zip (vElems (typeWidth t) (s.me.getV b.toNat))) fun p =>
      clampInt (typeWidth t) (tSigned t)
        (readInt (typeWidth t) (tSigned t) p.1 + readInt (typeWidth t) (tSigned t) p.2)) :=
  vectorDoes_vecBin (f := fun x y => clampInt (typeWidth t) (tSigned t)
    (readInt (typeWidth t) (tSigned t) x + readInt (typeWidth t) (tSigned t) y)) rfl

/-- Settles O9: VABS and VADDS by the write policy, VCMP as a comparison without flags, VSEL element by element. -/
theorem integerVectorSelectsComparesAndClamps : Obligations.IntegerVectorSelectsComparesAndClamps := by
  refine ⟨fun s d a t => vectorDoes_vecUn rfl, fun s d a b t => vectorDoes_vadds, fun s c k a b t legal => ?vcmp,
    fun s d a b t legal => ?vsel⟩
  case vcmp =>
    obtain ⟨m, written, bits⟩ := vecCmp_pure k a b (typeWidth t) (fun x y =>
      vcmpRel c (readInt (typeWidth t) (tSigned t) x) (readInt (typeWidth t) (tSigned t) y)) s
    refine ⟨m, completes_of (i := .vcmp c k a b t) rfl legal written, fun j low => ?_, fun j high inside => ?_⟩
    · rw [bits j (low.trans_le (lanes_typeWidth_le t)), if_pos low]
      rfl
    · rw [bits j inside, if_neg (Nat.not_lt.2 high)]
  case vsel =>
    refine ⟨_, show execVsel d a b t s = _ from run_ok legal rfl, fun j inside => ?_⟩
    have at_j := zip_getElem?_eq_some (maskBits_vmask_getElem? s inside)
      (zip_getElem?_eq_some (vElems_getElem? (s.me.getV a.toNat) inside) (vElems_getElem? (s.me.getV b.toNat) inside))
    rw [vElem_vPack_of_getElem? (by simp) (List.getElem?_map.trans (congrArg _ at_j))]
    cases s.vmask.getLsbD j
    · exact Nat.mod_eq_of_lt (vElem_lt _ _ _)
    · exact Nat.mod_eq_of_lt (vElem_lt _ _ _)

end Sys2Proof.Machine
end

section
/-! SUPPORT. The floating-point vector words and the special functions (R251 to R254, R265): instances of the write policy,
but for VFCMP, which compares; O11 from these. -/

namespace Sys2Proof.Machine

theorem vectorDoes_sfu {i : Instr} {s : State} {d a : BitVec 5} {t : BitVec 4} {g : Val → F Val}
    (runs : exec i s = run i s (sfu d a t g)) :
    VectorDoes i s d (typeWidth t) (lanesOf s d (typeWidth t) (vElems (typeWidth t) (s.me.getV a.toNat)) fun x => do
      roundTo (Fmt.ofType t) s.rmode (← g (← rdVal (Fmt.ofType t) x))) :=
  fun legal => completes_of runs legal (by unfold sfu; rw [M.bind_get_run]; exact vecMap_run ..)

theorem vectorDoes_vfdot {s : State} {d a b : BitVec 5} {t : BitVec 4} : VectorDoes (.vfdot d a b t) s d 32
    (lanesOf s d 32 ((pieces (32 / typeWidth t) 128 ((vElems (typeWidth t) (s.me.getV a.toNat)).zip
      (vElems (typeWidth t) (s.me.getV b.toNat)))).zip (vElems 32 (s.me.getV (s.addend d).toNat))) fun p => do
      let ts ← dotTerms (Fmt.ofType t) p.1
      let c ← rdVal .fp32 p.2
      roundTo .fp32 s.rmode (← sumVals s.rmode (c :: ts))) := by
  intro legal
  show execVfdot d a b t s = _
  refine run_ok legal ?_
  rw [M.bind_ok (readV_run a s), M.bind_ok (readV_run b s), M.bind_ok (readV_run (s.addend d) s)]
  exact vecMap_run ..

theorem vfcmp_completes {s : State} {c : BitVec 2} {k : BitVec 3} {a b : BitVec 5} {t : BitVec 4} {r : List Nat} {e : FpEnv}
    (legal : legalHere s (.vfcmp c k a b t) = true)
    (ran : (cmpBits s k a b (typeWidth t) fun x y => do return vfcmpRel c (← relate (Fmt.ofType t) x y)).run
      ⟨0, s.me.seed⟩ = (r, e)) :
    Completes (.vfcmp c k a b t) s (after (putMask k.toNat (lanes (typeWidth t)) r) (s.afterF e)) := by
  refine completes_of (m := vecCmp k a b (typeWidth t) fun x y => do return vfcmpRel c (← relate (Fmt.ofType t) x y))
    rfl legal ?_
  rw [vecCmp_apply, M.bind_ok (liftF_ok ran)]
  rfl

/-- Settles O11: each word computes its elements by the write policy, and VFCMP the bits of its mask. The special functions
are the model's own, in fixed point where a value is not dyadic (log 50). -/
theorem vectorFloatArithmetic : Obligations.VectorFloatArithmetic := by
  refine ⟨fun s d a b t => ?_, fun s d a t => ?_, fun s c k a b t r e legal ran => vfcmp_completes legal ran⟩
  · exact ⟨vectorDoes_vecBin (f := fAdd (Fmt.ofType t) s.rmode false) rfl,
      vectorDoes_vecBin (f := fAdd (Fmt.ofType t) s.rmode true) rfl,
      vectorDoes_vecBin (f := fMul (Fmt.ofType t) s.rmode) rfl,
      vectorDoes_vecBin (f := minMax (Fmt.ofType t) false) rfl,
      vectorDoes_vecBin (f := minMax (Fmt.ofType t) true) rfl,
      vectorDoes_vecTer (f := fMulAdd (Fmt.ofType t) s.rmode) rfl, vectorDoes_vfdot⟩
  · exact ⟨vectorDoes_vecUn (f := execVfabs.fsgnZero (Fmt.ofType t)) rfl, vectorDoes_sfu rfl, vectorDoes_sfu rfl,
      vectorDoes_sfu rfl, vectorDoes_sfu rfl, vectorDoes_sfu rfl, vectorDoes_sfu rfl, vectorDoes_sfu rfl⟩

end Sys2Proof.Machine
end

section
/-! SUPPORT. Moves, permutations and conversions (R255 to R261, R264, R267): each word followed from its operands on; O12 and
O13 from these. -/

namespace Sys2Proof.Machine

variable {s s1 : State} {d a b : BitVec 5} {t : BitVec 4}

theorem vecMap_ok {α : Type} (d : BitVec 5) (w : Nat) (xs : List α) (f : α → F Nat) (s : State) :
    vecMap d w xs f s = .ok () (after (vecMap d w xs f) s) := by
  rw [after, vecMap_run]

/-- What is left once a computation has been kept and vd written. -/
theorem writeV_afterF (d : BitVec 5) (v : VReg) (e : FpEnv) (s : State) :
    writeV d v (s.afterF e) = .ok () (s.vecDone d v e) := by
  rw [writeV_run, State.afterF, State.me_setMe, State.setMe_setMe]
  rfl

/-! ### Moves and permutations (R259 to R261, R264, R267) -/

theorem vbcast_completes {j : Word} (legal : legalHere s (.vbcast d a b t) = true) (index : readX b s = .ok j s1) :
    Completes (.vbcast d a b t) s (after (vecMap d (typeWidth t)
      (List.replicate (lanes (typeWidth t)) (pick (typeWidth t) (s.me.getV a.toNat) j.toNat)) pure) s1) :=
  (((Performs.start (i := .vbcast d a b t) legal rfl).step (readV_run a s)).step index).completes (vecMap_ok ..)

theorem vslide_completes {k : Word} (legal : legalHere s (.vslide d a b t) = true) (amount : readX b s = .ok k s1) :
    Completes (.vslide d a b t) s (after (vecMap d (typeWidth t) (List.range (lanes (typeWidth t))) fun i =>
      pure (if (i : Int) + k.toInt < 0 then 0
        else pick (typeWidth t) (s.me.getV a.toNat) ((i : Int) + k.toInt).toNat)) s1) :=
  (((Performs.start (i := .vslide d a b t) legal rfl).step (readV_run a s)).step amount).completes (vecMap_ok ..)

theorem vmvs_completes {j : Word} {s2 : State} (legal : legalHere s (.vmvs d a b t) = true) (index : readX b s = .ok j s1)
    (written : writeX d (if tSigned t then sext (pick (typeWidth t) (s.me.getV a.toNat) j.toNat) (typeWidth t)
      else word (pick (typeWidth t) (s.me.getV a.toNat) j.toNat)) s1 = .ok () s2) :
    Completes (.vmvs d a b t) s s2 :=
  (((Performs.start (i := .vmvs d a b t) legal rfl).step (readV_run a s)).step index).completes written

theorem vectorDoes_vperm : VectorDoes (.vperm d a b t) s d (typeWidth t)
    (lanesOf s d (typeWidth t) ((groupElems s.me 16 b.toNat (Nat.max 1 (16 / typeWidth t))).take (lanes (typeWidth t)))
      fun j => pure (pick (typeWidth t) (s.me.getV a.toNat) j)) := by
  intro legal
  show execVperm d a b t s = _
  refine run_ok legal ?_
  rw [M.bind_ok (readV_run a s)]
  exact vecMap_run ..

theorem vzip_completes {r : List Nat} {e : FpEnv} (legal : legalHere s (.vzip d a b t) = true)
    (ran : (masked s.vzero pure (maskBits (2 * lanes (typeWidth t)) s.vmask.toNat)
      (interleave (vElems (typeWidth t) (s.me.getV a.toNat)) (vElems (typeWidth t) (s.me.getV b.toNat)))
      (groupElems s.me (typeWidth t) d.toNat 2)).run ⟨0, s.me.seed⟩ = (r, e)) :
    Completes (.vzip d a b t) s ((s.afterF e).setMe (writeGroup (typeWidth t) d.toNat 2 r (s.afterF e).me)) := by
  show execVzip d a b t s = _
  refine run_ok legal ?_
  rw [M.bind_ok (readV_run a s), M.bind_ok (readV_run b s), M.bind_ok (liftF_ok ran)]
  rfl

theorem viota_completes {y : Word} (legal : legalHere s (.viota d a t) = true) (first : readX a s = .ok y s1) :
    Completes (.viota d a t) s (after (vecMap d (typeWidth t) (List.range (lanes (typeWidth t))) fun i =>
      pure ((y.toNat + i) % 2 ^ typeWidth t)) s1) :=
  ((Performs.start (i := .viota d a t) legal rfl).step first).completes (vecMap_ok ..)

theorem vmvx_completes {y : Word} (legal : legalHere s (.vmvx d a t) = true) (value : readX a s = .ok y s1) :
    Completes (.vmvx d a t) s (after (vecMap d (typeWidth t)
      (List.replicate (lanes (typeWidth t)) (y.toNat % 2 ^ typeWidth t)) pure) s1) :=
  ((Performs.start (i := .vmvx d a t) legal rfl).step value).completes (vecMap_ok ..)

/-- Settles O12: each word followed from its operands on. -/
theorem movesPermutationsAndIndices : Obligations.MovesPermutationsAndIndices := by
  refine ⟨fun s d a b t j s1 => ?_, fun s d a b t => ?_, fun s d a t => ?_⟩
  · intro w x index
    exact ⟨fun legal => vbcast_completes legal index, fun legal => vslide_completes legal index,
      fun s2 legal written => vmvs_completes legal index written⟩
  · exact ⟨vectorDoes_vperm, fun r e legal ran => vzip_completes legal ran⟩
  · refine ⟨vectorDoes_vecUn rfl, fun legal => ?vcompress, fun legal => ?vexpand,
      fun y s1 scalar => ⟨fun legal => viota_completes legal scalar, fun legal => vmvx_completes legal scalar⟩⟩
    case vcompress => exact show execVcompress d a t s = _ from run_ok legal rfl
    case vexpand => exact show execVexpand d a t s = _ from run_ok legal rfl

/-! ### Conversions and block scales (R255 to R258) -/

/-- A group of registers is written from the computation of its elements. -/
theorem cvtGroup_ok {α : Type} {d : BitVec 5} {dt st : BitVec 4} {xs : List α} {f : α → F Nat} {r : List Nat} {v : FpEnv}
    {s : State} (ran : (masked s.vzero f (maskBits (4096 / Nat.min (typeWidth dt) (typeWidth st)) s.vmask.toNat) xs
      (groupElems s.me (typeWidth dt) d.toNat (cvtGroups dt st).1)).run ⟨0, s.me.seed⟩ = (r, v)) :
    cvtGroup d dt st xs f s = .ok () ((s.afterF v).setMe
      (writeGroup (typeWidth dt) d.toNat (cvtGroups dt st).1 r (s.afterF v).me)) := by
  unfold cvtGroup
  rw [M.bind_get_run]
  exact M.bind_ok (liftF_ok ran)

theorem cvtSource_run (a : BitVec 5) (dt st : BitVec 4) (s : State) : cvtSource a dt st s = .ok
    ((groupElems s.me (typeWidth st) a.toNat (cvtGroups dt st).2).take (4096 / Nat.min (typeWidth dt) (typeWidth st))) s :=
  rfl

/-- A scale of 255 makes the value a NaN, which is then rounded as any value is (R257, R258). -/
theorem roundSat_scaled (f : Fmt) (mode : Nat) (sat : Bool) (c : Nat) (v : Val) :
    (if c = 255 then roundSat f mode sat (.nan false) else roundSat f mode sat v) =
      roundSat f mode sat (if c = 255 then .nan false else v) := by split <;> rfl

theorem quantElem_eq (dt st : BitVec 4) (sat : Bool) (mode : Nat) : quantElem dt st sat mode = fun p => (do
    let k ← rdVal (Fmt.ofType st) p.1
    roundSat (Fmt.ofType dt) mode sat (if p.2 = 255 then .nan false else k.shift (127 - (p.2 : Int)))) := by
  funext p
  simp only [quantElem, roundSat_scaled]

/-- Settles O13: each word followed from its source group on, VQUANT in both of its forms; that where vc is vd is the
model's choice (log 44). -/
theorem conversionsAndBlockScales : Obligations.ConversionsAndBlockScales := by
  refine ⟨fun s d a x e t r v => ⟨fun legal ran => ?vcvt, fun legal ran => ?vdeq⟩,
    fun s d a x e t scales r u v legal apart scaled ran => ?vquant, fun s d a x e t r v legal same ran => ?inPlace,
    fun t e f z bytes b m xs ps v => ⟨rfl, rfl⟩⟩
  case vcvt =>
    show execVcvt d a x e t s = _
    refine run_ok legal ?_
    rw [M.bind_ok (cvtSource_run ..)]
    exact cvtGroup_ok ran
  case vdeq =>
    show execVdeq d a x e t s = _
    refine run_ok legal ?_
    rw [M.bind_ok (cvtSource_run ..), M.bind_ok (readV_run (s.addend d) s)]
    simp only [roundSat_scaled]
    exact cvtGroup_ok ran
  case vquant =>
    show execVquant d a x e t s = _
    refine run_ok legal ?_
    rw [M.bind_ok (cvtSource_run ..), M.bind_ok (readV_run (s.addend d) s)]
    simp only [quantElem_eq, if_neg apart]
    rw [M.bind_ok (liftF_ok scaled), M.bind_ok (writeV_run ..)]
    exact M.bind_ok (liftF_ok ran)
  case inPlace =>
    show execVquant d a x e t s = _
    refine run_ok legal ?_
    rw [M.bind_ok (cvtSource_run ..), M.bind_ok (readV_run (s.addend d) s)]
    simp only [quantElem_eq, if_pos same]
    rw [same, M.bind_ok (liftF_ok ran)]
    exact writeV_afterF ..

end Sys2Proof.Machine
end

section
/-! SUPPORT. The choice of VTOPK (R263): its threshold is the key of the last element chosen, and an element is chosen where
fewer than k active ones rank before it. -/

namespace Sys2Proof.Machine

/-! ### Keys and ranks -/

/-- The rank keys of the elements, none where the mask is clear. -/
def topKeys (t : BitVec 4) (m : List Bool) (xs : List Nat) : List (Option Nat) :=
  (m.zip xs).map fun p => if p.1 then some (topKey t p.2) else none

theorem topKeys_getElem? {t : BitVec 4} {m : List Bool} {xs : List Nat} {i : Nat} {b : Bool} {x : Nat} (hb : m[i]? = some b)
    (hx : xs[i]? = some x) : (topKeys t m xs)[i]? = some (if b then some (topKey t x) else none) := by
  rw [topKeys, List.getElem?_map, zip_getElem?_eq_some hb hx]
  rfl

/-- Of the active keys, how many rank before position i if its key is x: the larger ones, and the equal ones below i. -/
def ahead (ks : List (Option Nat)) (i x : Nat) : Nat :=
  (ks.filterMap id).countP (fun y => decide (x < y)) + (ks.take i).countP (fun o => o == some x)

theorem countP_ranks_before (t : BitVec 4) (x : Nat) : ∀ (m : List Bool) (xs : List Nat) (i : Nat), m.length = xs.length →
    ((List.range xs.length).countP fun j => m.getD j false &&
      (decide (x < topKey t (xs.getD j 0)) || (topKey t (xs.getD j 0) == x && decide (j < i)))) =
      ahead (topKeys t m xs) i x
  | [], [], _, _ => by simp [ahead, topKeys]
  | b :: m, y :: xs, i, same => by
    have rest := countP_ranks_before t x m xs (i - 1) (Nat.succ.inj same)
    rw [List.length_cons, List.range_succ_eq_map, List.countP_cons, List.countP_map]
    have shifted : ((fun j => (b :: m).getD j false && (decide (x < topKey t ((y :: xs).getD j 0)) ||
        (topKey t ((y :: xs).getD j 0) == x && decide (j < i)))) ∘ Nat.succ) = fun j => m.getD j false &&
        (decide (x < topKey t (xs.getD j 0)) || (topKey t (xs.getD j 0) == x && decide (j < i - 1))) := by
      funext j
      simp [Nat.lt_sub_iff_add_lt]
    rw [shifted, rest]
    cases b
    · cases i <;> simp [ahead, topKeys]
    · cases i
      · simp [ahead, topKeys, List.countP_cons]
      · simp only [ahead, topKeys, List.zip_cons_cons, List.map_cons, if_true, List.filterMap_cons, id, List.countP_cons,
          List.take_succ_cons]
        by_cases less : x < topKey t y
        · simp [less, less.ne']; omega
        · by_cases eq : topKey t y = x <;> simp [less, eq]; omega

theorem countP_le_eq_lt_add (x : Nat) : ∀ l : List Nat, (l.countP fun y => decide (x ≤ y)) =
    (l.countP fun y => decide (x < y)) + l.countP fun y => y == x
  | [] => rfl
  | y :: l => by
    simp only [List.countP_cons, countP_le_eq_lt_add x l, decide_eq_true_eq, beq_iff_eq]
    split_ifs <;> omega

/-- An active position has fewer elements ahead of it than are active with its key or a larger one. -/
theorem ahead_lt {ks : List (Option Nat)} {i x : Nat} (here : ks[i]? = some (some x)) :
    ahead ks i x < (ks.filterMap id).countP fun y => decide (x ≤ y) := by
  have among : (ks.filterMap id).countP (fun y => y == x) = ks.countP fun o => o == some x := by
    rw [List.countP_filterMap]
    exact List.countP_congr fun o _ => by cases o <;> simp
  have itself : ((ks.take (i + 1)).countP fun o => o == some x) = ((ks.take i).countP fun o => o == some x) + 1 := by
    simp [List.take_add_one, here]
  have all := (List.take_sublist (i + 1) ks).countP_le (p := fun o => o == some x)
  rw [countP_le_eq_lt_add, among, ahead]
  omega

/-! ### The threshold -/

theorem threshold_spec (keys : List Nat) (k : Nat) : ∀ (n low : Nat),
    k ≤ (keys.countP fun x => decide (low ≤ x)) → (keys.countP fun x => decide (low + 2 ^ n ≤ x)) < k →
    k ≤ (keys.countP fun x => decide (threshold keys k n low ≤ x)) ∧
      (keys.countP fun x => decide (threshold keys k n low < x)) < k
  | 0, _, reached, beyond => ⟨reached, beyond⟩
  | n + 1, low, reached, beyond => by
    rw [threshold, ← List.countP_eq_length_filter]
    split
    next more => exact threshold_spec keys k n _ more (by rwa [Nat.add_assoc, ← Nat.two_mul, ← Nat.pow_succ'])
    next fewer => exact threshold_spec keys k n low reached (Nat.not_le.1 fewer)

theorem typeWidth_le (t : BitVec 4) : typeWidth t ≤ 64 := by
  unfold typeWidth
  split <;> decide

theorem natAbs_readInt_le {w x : Nat} (sg : Bool) (small : x < 2 ^ w) : (readInt w sg x).natAbs ≤ 2 ^ w := by
  cases sg
  · exact small.le
  · have := BitVec.toInt_lt (x := BitVec.ofNat w x)
    have := BitVec.le_toInt (x := BitVec.ofNat w x)
    have half : (2 : Int) ^ (w - 1) ≤ 2 ^ w := by exact_mod_cast Nat.pow_le_pow_right (by decide) (Nat.sub_le w 1)
    simp only [readInt, if_true, toSigned]
    zify
    rw [abs_le]
    omega

theorem topKey_lt {t : BitVec 4} {x : Nat} (small : x < 2 ^ typeWidth t) : topKey t x < 2 ^ 66 := by
  have wide : 2 ^ typeWidth t ≤ 2 ^ 64 := Nat.pow_le_pow_right (by decide) (typeWidth_le t)
  unfold topKey
  dsimp only
  split
  · have half : 2 ^ (typeWidth t - 1) ≤ 2 ^ 64 := (Nat.pow_le_pow_right (by decide) (Nat.sub_le _ _)).trans wide
    have := Nat.mod_lt x (Nat.two_pow_pos (typeWidth t - 1))
    split <;> omega
  · have := natAbs_readInt_le (tSigned t) small
    omega

/-! ### The choice -/

theorem choose_length (th : Nat) : ∀ (left : Nat) (ks : List (Option Nat)), (choose th left ks).length = ks.length
  | _, [] => rfl
  | left, none :: ks => by simp [choose, choose_length th left ks]
  | left, some x :: ks => by
    rw [choose]
    split_ifs <;> simp [choose_length]

theorem choose_getElem?_none (th : Nat) : ∀ (left : Nat) (ks : List (Option Nat)) (i : Nat), ks[i]? = some none →
    (choose th left ks)[i]? = some 0
  | _, [], _, here => by simp at here
  | _, none :: _, 0, _ => rfl
  | _, some _ :: _, 0, here => by simp at here
  | left, none :: ks, i + 1, here => choose_getElem?_none th left ks i here
  | left, some x :: ks, i + 1, here => by
    rw [choose]
    split_ifs
    · exact choose_getElem?_none th left ks i here
    · exact choose_getElem?_none th (left - 1) ks i here
    · exact choose_getElem?_none th left ks i here

/-- An active element is chosen above the threshold, and at it as long as some are left. -/
theorem choose_getElem?_some (th y : Nat) : ∀ (left : Nat) (ks : List (Option Nat)) (i : Nat), ks[i]? = some (some y) →
    (choose th left ks)[i]? = some
      (if th < y ∨ (y = th ∧ ((ks.take i).countP fun o => o == some th) < left) then 1 else 0)
  | _, [], _, here => by simp at here
  | _, none :: _, 0, here => by simp at here
  | left, some x :: ks, 0, here => by
    simp only [List.getElem?_cons_zero, Option.some.injEq] at here
    subst here
    rw [choose, List.take_zero, List.countP_nil]
    by_cases above : th < x
    · simp [above]
    · by_cases equal : x = th <;> by_cases none_left : left = 0 <;> simp [above, equal, none_left, Nat.pos_iff_ne_zero]
  | left, none :: ks, i + 1, here => choose_getElem?_some th y left ks i here
  | left, some x :: ks, i + 1, here => by
    rw [choose, List.take_succ_cons, List.countP_cons]
    have at_i (left : Nat) := choose_getElem?_some th y left ks i here
    split
    next above =>
      rw [List.getElem?_cons_succ, at_i]
      simp [above.ne']
    next =>
    split
    next taken =>
      rw [List.getElem?_cons_succ, at_i]
      simp [taken.1, Nat.lt_sub_iff_add_lt]
    next refused =>
      rw [List.getElem?_cons_succ, at_i]
      by_cases equal : x = th
      · have none_left : left = 0 := not_not.1 fun some_left => refused ⟨equal, some_left⟩
        simp [none_left]
      · simp [equal]

/-- Where nothing is to be chosen or nothing is active, nothing is chosen. -/
theorem topMask_of_zero {t : BitVec 4} {k : Nat} {m : List Bool} {xs : List Nat}
    (zero : min k ((topKeys t m xs).filterMap id).length = 0) : topMask t k m xs = (topKeys t m xs).map fun _ => 0 :=
  if_pos zero

/-- Else there is a threshold that at least so many active keys reach as are to be chosen, and fewer exceed. -/
theorem topMask_of_ne_zero {t : BitVec 4} {k : Nat} {m : List Bool} {xs : List Nat} (small : ∀ x ∈ xs, x < 2 ^ typeWidth t)
    (nonzero : min k ((topKeys t m xs).filterMap id).length ≠ 0) : ∃ th,
    min k ((topKeys t m xs).filterMap id).length ≤ (((topKeys t m xs).filterMap id).countP fun x => decide (th ≤ x)) ∧
    (((topKeys t m xs).filterMap id).countP fun x => decide (th < x)) < min k ((topKeys t m xs).filterMap id).length ∧
    topMask t k m xs = choose th (min k ((topKeys t m xs).filterMap id).length -
      ((topKeys t m xs).filterMap id).countP fun x => decide (th < x)) (topKeys t m xs) := by
  have bounded : ∀ y ∈ (topKeys t m xs).filterMap id, y < 2 ^ 66 := by
    intro y listed
    obtain ⟨o, mem, same⟩ := List.mem_filterMap.1 listed
    obtain ⟨⟨b, x⟩, pair, key⟩ := List.mem_map.1 mem
    cases b
    · simp [← key] at same
    · simp only [← key, if_true, id, Option.some.injEq] at same
      exact same ▸ topKey_lt (small x (List.of_mem_zip pair).2)
  have beyond : (((topKeys t m xs).filterMap id).countP fun x => decide (0 + 2 ^ 66 ≤ x)) = 0 :=
    List.countP_eq_zero.2 fun y listed => by have := bounded y listed; simp; omega
  obtain ⟨reached, exceeded⟩ := threshold_spec ((topKeys t m xs).filterMap id)
    (min k ((topKeys t m xs).filterMap id).length) 66 0 (by simp) (by omega)
  refine ⟨_, reached, exceeded, ?_⟩
  rw [List.countP_eq_length_filter]
  exact if_neg nonzero

theorem topMask_length (t : BitVec 4) (k : Nat) (m : List Bool) (xs : List Nat) :
    (topMask t k m xs).length = min m.length xs.length := by
  have keys : (topKeys t m xs).length = min m.length xs.length := by simp [topKeys]
  rw [← keys]
  by_cases zero : min k ((topKeys t m xs).filterMap id).length = 0
  · rw [topMask_of_zero zero, List.length_map]
  · exact (congrArg List.length (if_neg zero)).trans (choose_length ..)

/-- VTOPK chooses the active elements before which fewer than k active ones rank (R263). -/
theorem topMask_getElem? {t : BitVec 4} {m : List Bool} {xs : List Nat} {i : Nat} {b : Bool} {x : Nat} (k : Nat)
    (small : ∀ x ∈ xs, x < 2 ^ typeWidth t) (hb : m[i]? = some b) (hx : xs[i]? = some x) :
    (topMask t k m xs)[i]? = some (if b = true ∧ ahead (topKeys t m xs) i (topKey t x) < k then 1 else 0) := by
  have here := topKeys_getElem? (t := t) hb hx
  cases b
  · by_cases zero : min k ((topKeys t m xs).filterMap id).length = 0
    · rw [topMask_of_zero zero, List.getElem?_map, here]
      rfl
    · obtain ⟨th, -, -, chosen⟩ := topMask_of_ne_zero small zero
      rw [chosen, choose_getElem?_none _ _ _ _ here]
      simp
  · have fewer := ahead_lt here
    have total := List.countP_le_length (p := fun y => decide (topKey t x ≤ y)) (l := (topKeys t m xs).filterMap id)
    by_cases zero : min k ((topKeys t m xs).filterMap id).length = 0
    · rw [topMask_of_zero zero, List.getElem?_map, here]
      have none_left : k = 0 := by omega
      simp [none_left]
    · obtain ⟨th, reached, exceeded, chosen⟩ := topMask_of_ne_zero small zero
      rw [chosen, choose_getElem?_some _ _ _ _ _ here]
      simp only [true_and]
      congr 1
      refine if_congr ?_ rfl rfl
      rcases Nat.lt_trichotomy th (topKey t x) with above | equal | below
      · have := List.countP_mono_left (l := (topKeys t m xs).filterMap id) (p := fun y => decide (topKey t x ≤ y))
          (q := fun y => decide (th < y)) fun y _ large => by simp at large ⊢; omega
        omega
      · subst equal
        unfold ahead at fewer ⊢
        omega
      · have := List.countP_mono_left (l := (topKeys t m xs).filterMap id) (p := fun y => decide (th ≤ y))
          (q := fun y => decide (topKey t x < y)) fun y _ large => by simp at large ⊢; omega
        unfold ahead at fewer ⊢
        omega

end Sys2Proof.Machine
end

section
/-! SUPPORT. Reductions and scans (R262, R81): what each operation makes of a list of elements, whole or as far as a scan has
come; O14 from these. -/

namespace Sys2Proof.Machine

/-! ### Reductions over lists -/

/-- A fold that keeps one of two elements that stands in R to both keeps one that stands in R to all. -/
theorem foldl_choice {α : Type} {op : α → α → α} {R : α → α → Prop} (trans : ∀ x y z, R x y → R y z → R x z)
    (refl : ∀ x, R x x) (one : ∀ x y, op x y = x ∨ op x y = y) (both : ∀ x y, R (op x y) x ∧ R (op x y) y) :
    ∀ (l : List α) (x : α), l.foldl op x ∈ x :: l ∧ ∀ z ∈ x :: l, R (l.foldl op x) z
  | [], x => by simp [refl]
  | y :: l, x => by
    obtain ⟨mem, below⟩ := foldl_choice trans refl one both l (op x y)
    have kept := below _ List.mem_cons_self
    constructor
    · rcases List.mem_cons.1 mem with kept_first | later
      · rw [List.foldl_cons, kept_first]
        rcases one x y with same | same <;> simp [same]
      · exact List.mem_cons_of_mem _ (List.mem_cons_of_mem _ later)
    · rintro z (_ | ⟨_, _ | ⟨_, later⟩⟩)
      · exact trans _ _ _ kept (both x y).1
      · exact trans _ _ _ kept (both x y).2
      · exact below z (List.mem_cons_of_mem _ later)

theorem least_of_two {α : Type} (val : α → Int) (x y : α) :
    val (if val x < val y then x else y) ≤ val x ∧ val (if val x < val y then x else y) ≤ val y := by
  split <;> omega

theorem greatest_of_two {α : Type} (val : α → Int) (x y : α) :
    val x ≤ val (if val x < val y then y else x) ∧ val y ≤ val (if val x < val y then y else x) := by
  split <;> omega

theorem foldl_add_mod (w : Nat) : ∀ (l : List Nat) (x : Nat), x < 2 ^ w →
    l.foldl (fun x y => (x + y) % 2 ^ w) x = (x :: l).sum % 2 ^ w
  | [], x, small => by simp [Nat.mod_eq_of_lt small]
  | y :: l, x, _ => by
    rw [List.foldl_cons, foldl_add_mod w l _ (Nat.mod_lt _ (Nat.two_pow_pos w))]
    simp [Nat.add_assoc]

theorem testBit_foldl_and (j : Nat) : ∀ (l : List Nat) (x : Nat),
    (l.foldl (· &&& ·) x).testBit j = (x :: l).all (·.testBit j)
  | [], x => by simp
  | y :: l, x => by
    rw [List.foldl_cons, testBit_foldl_and j l, List.all_cons, Nat.testBit_and, Bool.and_assoc]
    rfl

theorem testBit_foldl_or (j : Nat) : ∀ (l : List Nat) (x : Nat),
    (l.foldl (· ||| ·) x).testBit j = (x :: l).any (·.testBit j)
  | [], x => by simp
  | y :: l, x => by
    rw [List.foldl_cons, testBit_foldl_or j l, List.any_cons, Nat.testBit_or, Bool.or_assoc]
    rfl

theorem testBit_foldl_xor (j : Nat) : ∀ (l : List Nat) (x : Nat),
    (l.foldl (· ^^^ ·) x).testBit j = ((x :: l).countP (·.testBit j) % 2 == 1)
  | [], x => by cases h : x.testBit j <;> simp [h]
  | y :: l, x => by
    rw [List.foldl_cons, testBit_foldl_xor j l]
    simp only [List.countP_cons, Nat.testBit_xor]
    cases x.testBit j <;> cases y.testBit j <;> simp
    omega

/-! ### The operations (R262) -/

/-- The integer operation of VRED and VSCAN. -/
def redInt (o : Nat) (t : BitVec 4) (x y : Nat) : Nat :=
  let less := readInt (typeWidth t) (tSigned t) x < readInt (typeWidth t) (tSigned t) y
  if o = 0 then (x + y) % 2 ^ typeWidth t else if o = 1 then (if less then x else y)
  else if o = 2 then (if less then y else x)
  else if o = 3 then x &&& y else if o = 4 then x ||| y else x ^^^ y

theorem redOp_int {t : BitVec 4} (int : tFloat t = false) (o mode x y : Nat) :
    redOp o t mode x y = pure (redInt o t x y) := by
  unfold redOp redInt
  rw [int]
  rcases o with _ | _ | _ | _ | _ | o <;> rfl

theorem redOp_sum {t : BitVec 4} (float : tFloat t = true) (mode x y : Nat) : redOp 0 t mode x y = (do
    let u ← rdVal (Fmt.ofType t) x
    let v ← rdVal (Fmt.ofType t) y
    roundTo (Fmt.ofType t) mode (← sumVals mode [u, v])) := by
  unfold redOp
  rw [float]
  rfl

theorem redOp_minMax {t : BitVec 4} (float : tFloat t = true) {o : Nat} (nonzero : o ≠ 0) (mode x y : Nat) :
    redOp o t mode x y = minMax (Fmt.ofType t) (o != 1) x y := by
  unfold redOp
  rw [float]
  rcases o with _ | _ | o
  · exact absurd rfl nonzero
  · rfl
  · rfl

theorem redFold_eq_foldlM (o : Nat) (t : BitVec 4) (mode : Nat) : ∀ (l : List Nat) (x : Nat),
    redFold o t mode x l = l.foldlM (redOp o t mode) x
  | [], _ => rfl
  | _ :: l, _ => by
    rw [redFold, List.foldlM_cons]
    exact bind_congr fun r => redFold_eq_foldlM o t mode l r

/-! ### VRED (R262) -/

variable {o : Nat} {t : BitVec 4} {mode : Nat} {m : List Bool} {xs : List Nat}

theorem reduce_nil (none_active : active m xs = []) : reduce o t mode m xs = pure (
    if tFloat t then (if o = 0 ∨ t = 9#4 then 0 else (Fmt.ofType t).canon)
    else if o = 1 then (if tSigned t then 2 ^ (typeWidth t - 1) - 1 else 2 ^ typeWidth t - 1)
    else if o = 2 then (if tSigned t then 2 ^ (typeWidth t - 1) else 0)
    else if o = 3 then 2 ^ typeWidth t - 1 else 0) := by
  unfold reduce
  rw [none_active]
  refine congrArg pure ?_
  unfold redEmpty
  cases tFloat t
  · rcases o with _ | _ | _ | _ | o <;> rfl
  · simp [ite_or]

theorem reduce_singleton {x : Nat} (one : active m xs = [x]) : reduce o t mode m xs = deliver t x := by
  unfold reduce
  rw [one]

section Several

variable {x y : Nat} {zs : List Nat}

theorem reduce_tree (several : active m xs = x :: y :: zs) (float : tFloat t = true) : reduce 0 t mode m xs = (do
    let r ← tree (Fmt.ofType t) mode (lanes (typeWidth t)).log2 ((m.zip xs).map fun p => if p.1 then some p.2 else none)
    return r.getD 0) := by
  unfold reduce
  rw [several, float]
  rfl

theorem reduce_minMax (several : active m xs = x :: y :: zs) (float : tFloat t = true) (choice : o = 1 ∨ o = 2) :
    reduce o t mode m xs = (y :: zs).foldlM (minMax (Fmt.ofType t) (o == 2)) x := by
  have nonzero : o ≠ 0 := by omega
  have op : redOp o t mode = minMax (Fmt.ofType t) (o == 2) := by
    funext u v
    rw [redOp_minMax float nonzero]
    rcases choice with rfl | rfl <;> rfl
  unfold reduce
  rw [several, float]
  simp only [Bool.true_and, beq_iff_eq, nonzero, if_false]
  rw [redFold_eq_foldlM, op]

theorem reduce_int (several : active m xs = x :: y :: zs) (int : tFloat t = false) :
    reduce o t mode m xs = pure ((y :: zs).foldl (redInt o t) x) := by
  have op : redOp o t mode = fun u v => pure (redInt o t u v) := by
    funext u v
    exact redOp_int int o mode u v
  unfold reduce
  rw [several, int]
  simp only [Bool.false_and, Bool.false_eq_true, if_false]
  rw [redFold_eq_foldlM, op, List.foldlM_pure]

end Several

/-- What an integer reduction of several elements is, by its operation. -/
theorem foldl_redInt (t : BitVec 4) {x : Nat} {l : List Nat} (small : ∀ z ∈ x :: l, z < 2 ^ typeWidth t) :
    (o = 0 → l.foldl (redInt o t) x = (x :: l).sum % 2 ^ typeWidth t) ∧
    (o = 1 → l.foldl (redInt o t) x ∈ x :: l ∧ ∀ z ∈ x :: l,
      readInt (typeWidth t) (tSigned t) (l.foldl (redInt o t) x) ≤ readInt (typeWidth t) (tSigned t) z) ∧
    (o = 2 → l.foldl (redInt o t) x ∈ x :: l ∧ ∀ z ∈ x :: l,
      readInt (typeWidth t) (tSigned t) z ≤ readInt (typeWidth t) (tSigned t) (l.foldl (redInt o t) x)) ∧
    (o = 3 → ∀ j, (l.foldl (redInt o t) x).testBit j = (x :: l).all (·.testBit j)) ∧
    (o = 4 → ∀ j, (l.foldl (redInt o t) x).testBit j = (x :: l).any (·.testBit j)) ∧
    (o = 5 → ∀ j, (l.foldl (redInt o t) x).testBit j = ((x :: l).countP (·.testBit j) % 2 == 1)) := by
  refine ⟨?_, ?_, ?_, ?_, ?_, ?_⟩ <;> rintro rfl
  · exact foldl_add_mod (typeWidth t) l x (small x List.mem_cons_self)
  · refine foldl_choice (R := fun u v => readInt (typeWidth t) (tSigned t) u ≤ readInt (typeWidth t) (tSigned t) v)
      (fun _ _ _ => le_trans) (fun _ => le_refl _) (fun u v => ?_) (fun u v => ?_) l x
    · exact ite_eq_or_eq ..
    · exact least_of_two ..
  · refine foldl_choice (R := fun u v => readInt (typeWidth t) (tSigned t) v ≤ readInt (typeWidth t) (tSigned t) u)
      (fun _ _ _ => ge_trans) (fun _ => le_refl _) (fun u v => ?_) (fun u v => ?_) l x
    · exact (ite_eq_or_eq ..).symm
    · exact greatest_of_two ..
  · exact fun j => testBit_foldl_and j l x
  · exact fun j => testBit_foldl_or j l x
  · exact fun j => testBit_foldl_xor j l x

/-! ### VSCAN (R262) -/

/-- A scan as far as it has come: the elements l reduced onto acc, the result so far; q where there is nothing. -/
def scanned (o : Nat) (t : BitVec 4) (mode q : Nat) : Option Nat → List Nat → F Nat
  | some a, l => l.foldlM (redOp o t mode) a
  | none, x :: l => do
    let v ← deliver t x
    l.foldlM (redOp o t mode) v
  | none, [] => pure q

theorem scanned_cons (q : Nat) (acc : Option Nat) (x : Nat) (l : List Nat) :
    scanned o t mode q acc (x :: l) = scanned o t mode q acc [x] >>= fun r => scanned o t mode q (some r) l := by
  cases acc with
  | none => rfl
  | some a => rfl

theorem scan_cons_true (z : Bool) (acc : Option Nat) (q p x : Nat) (bs : List Bool) (xs os : List Nat) (e : FpEnv) :
    ((scan o t mode z acc (true :: bs) (x :: xs) (p :: os)).run e).1 =
      ((scanned o t mode q acc [x]).run e).1 ::
        ((scan o t mode z (some ((scanned o t mode q acc [x]).run e).1) bs xs os).run
          ((scanned o t mode q acc [x]).run e).2).1 := by
  cases acc <;> rfl

theorem scan_cons_false (z : Bool) (acc : Option Nat) (p x : Nat) (bs : List Bool) (xs os : List Nat) (e : FpEnv) :
    ((scan o t mode z acc (false :: bs) (x :: xs) (p :: os)).run e).1 =
      (if z then 0 else p) :: ((scan o t mode z acc bs xs os).run e).1 := rfl

/-- An active position receives the reduction of the active elements up to it. -/
theorem scan_getElem? (z : Bool) (q : Nat) : ∀ (m : List Bool) (xs old : List Nat) (acc : Option Nat) (e : FpEnv) (j : Nat)
    (b : Bool), m.length = xs.length → m.length = old.length → m[j]? = some b → old[j]? = some q →
    ((scan o t mode z acc m xs old).run e).1[j]? = some (
      if b then ((scanned o t mode q acc (active (m.take (j + 1)) xs)).run e).1 else if z then 0 else q)
  | [], _, _, _, _, _, _, _, _, hb, _ => by simp at hb
  | true :: m, x :: xs, p :: old, acc, e, j, b, hx, ho, hb, hq => by
    rw [scan_cons_true z acc q, List.take_succ_cons]
    show _ = some (if b then ((scanned o t mode q acc (x :: active (m.take j) xs)).run e).1 else _)
    rw [scanned_cons q acc x (active (m.take j) xs), F.bind_run]
    cases j with
    | zero =>
      simp only [List.getElem?_cons_zero, Option.some.injEq] at hb
      subst hb
      rfl
    | succ j => exact scan_getElem? z q m xs old _ _ j b (Nat.succ.inj hx) (Nat.succ.inj ho) hb hq
  | false :: m, x :: xs, p :: old, acc, e, j, b, hx, ho, hb, hq => by
    rw [scan_cons_false, List.take_succ_cons]
    cases j with
    | zero =>
      simp only [List.getElem?_cons_zero, Option.some.injEq] at hb hq
      subst hb hq
      rfl
    | succ j => exact scan_getElem? z q m xs old acc e j b (Nat.succ.inj hx) (Nat.succ.inj ho) hb hq

/-! ### The words -/

theorem vred_completes {s : State} {d a : BitVec 5} {f : BitVec 5} {r : Nat} {e : FpEnv}
    (legal : legalHere s (.vred d a f t) = true)
    (ran : (reduce f.toNat t s.rmode (maskBits (lanes (typeWidth t)) s.vmask.toNat)
      (vElems (typeWidth t) (s.me.getV a.toNat))).run ⟨0, s.me.seed⟩ = (r, e)) :
    Completes (.vred d a f t) s (s.vecDone d (BitVec.ofNat 4096 ((if s.vzero then 0
      else (s.me.getV d.toNat).toNat / 2 ^ typeWidth t * 2 ^ typeWidth t) + r)) e) := by
  show execVred d a f t s = _
  refine run_ok legal ?_
  rw [M.bind_ok (readV_run a s), M.bind_ok (liftF_ok ran)]
  exact writeV_afterF ..

theorem vectorDoes_vscan {s : State} {d a f : BitVec 5} : VectorDoes (.vscan d a f t) s d (typeWidth t)
    (scan f.toNat t s.rmode s.vzero none (maskBits (lanes (typeWidth t)) s.vmask.toNat)
      (vElems (typeWidth t) (s.me.getV a.toNat)) (vElems (typeWidth t) (s.me.getV d.toNat))) := by
  intro legal
  show execVscan d a f t s = _
  refine run_ok legal ?_
  rw [M.bind_ok (readV_run a s), M.bind_ok (liftF_run _ s)]
  exact writeV_afterF ..

theorem elems_lt (w : Nat) : ∀ (n v : Nat), ∀ x ∈ elems w n v, x < 2 ^ w
  | 0, _, x, listed => by simp [elems] at listed
  | n + 1, v, x, listed => by
    rcases List.mem_cons.1 listed with rfl | later
    · exact Nat.mod_lt _ (Nat.two_pow_pos w)
    · exact elems_lt w n _ x later

theorem vtopk_completes {s s1 : State} {k : BitVec 3} {a b : BitVec 5} {n : Word}
    (legal : legalHere s (.vtopk k a b t) = true) (count : readX b s = .ok n s1) :
    let chosen := topMask t n.toNat (maskBits (lanes (typeWidth t)) s.vmask.toNat)
      (vElems (typeWidth t) (s.me.getV a.toNat))
    ∃ m : MReg, Completes (.vtopk k a b t) s (s1.setMe (s1.me.setK k.toNat m)) ∧ ∀ j, j < 1024 → m.getLsbD j =
      if j < lanes (typeWidth t) then decide (chosen[j]? = some 1) else (s.me.getK k.toNat).getLsbD j := by
  intro chosen
  have all : chosen.length = lanes (typeWidth t) := by simp [chosen, topMask_length]
  refine ⟨lowBitsOf (s1.me.getK k.toNat) (lanes (typeWidth t)) chosen, ?_, fun j inside => ?_⟩
  · show execVtopk k a b t s = _
    refine run_ok legal ?_
    rw [M.bind_ok (readV_run a s), M.bind_ok count]
    exact putMask_run ..
  · rw [getLsbD_lowBitsOf _ all inside, me_readX count]
    split
    next low =>
      have at_j := topMask_getElem? n.toNat (elems_lt _ _ (s.me.getV a.toNat).toNat) (maskBits_vmask_getElem? s low)
        (vElems_getElem? (s.me.getV a.toNat) low)
      rw [show chosen[j]? = _ from at_j]
      split <;> rfl
    next => rfl

/-- Settles O14: the words by their computations, and the lemmas above on reductions, scans and the choice. -/
theorem reductionsScansAndChoices : Obligations.ReductionsScansAndChoices := by
  refine ⟨fun s d a f t => ⟨fun r e legal ran => vred_completes legal ran, vectorDoes_vscan⟩,
    fun s k a b t n s1 legal count => vtopk_completes legal count, fun o t mode m xs => ?reductions,
    fun f mode n x y a l => ?trees, fun o t mode z m xs old e j b q hx ho hb hq => ?scans,
    fun o t mode x y => ?operations, fun t k m xs i same small inside => ?choice⟩
  case reductions =>
    refine ⟨reduce_nil, fun x one => reduce_singleton one, fun x y zs several small => ⟨fun int => ?_, fun float sum => ?_,
      fun float choice => reduce_minMax several float choice⟩⟩
    · refine ⟨_, reduce_int several int, ?_⟩
      rw [several] at small ⊢
      exact foldl_redInt t small
    · subst sum
      exact reduce_tree several float
  case trees =>
    refine ⟨rfl, rfl, rfl, ?_, rfl, rfl⟩
    cases a <;> rfl
  case scans =>
    rw [scan_getElem? z q m xs old none e j b hx ho hb hq]
    cases active (m.take (j + 1)) xs with
    | nil => rfl
    | cons x ys =>
      unfold scanned deliver
      cases tFloat t <;> rfl
  case operations =>
    refine ⟨fun float => ?_, fun int => redOp_int int o mode x y⟩
    split
    next sum => exact sum ▸ redOp_sum float mode x y
    next choice => exact redOp_minMax float choice mode x y
  case choice =>
    intro w key before
    have hx : xs[i]? = some (xs.getD i 0) := by simp [List.getD, inside]
    have hb : m[i]? = some (m.getD i false) := by simp [List.getD, same, inside]
    rw [topMask_getElem? k small hb hx, ← countP_ranks_before t _ m xs i same]
    rfl

end Sys2Proof.Machine
end

section
/-! SUPPORT. The words of mask registers (R266): O15 from these. -/

namespace Sys2Proof.Machine

variable {s s1 : State} {d a : BitVec 5}

theorem popCount_eq_countP {n : Nat} (x : BitVec n) : popCount x = (List.range n).countP fun i => x.getLsbD i :=
  List.countP_eq_length_filter.symm

theorem kpopc_completes (legal : legalHere s (.kpopc d a) = true)
    (written : writeX d (word ((List.range 1024).countP fun i => (s.me.getK a.toNat &&& s.vmask).getLsbD i)) s = .ok () s1) :
    Completes (.kpopc d a) s s1 := by
  show execKpopc d a s = _
  rw [← popCount_eq_countP] at written
  exact run_ok legal written

theorem kfirst_some_completes {n : Nat} (legal : legalHere s (.kfirst d a) = true)
    (found : ((List.range 1024).find? fun i => bit (s.me.getK a.toNat &&& s.vmask) i) = some n)
    (written : writeX d (word n) s = .ok () s1) : Completes (.kfirst d a) s s1 := by
  show execKfirst d a s = _
  unfold execKfirst
  rw [found]
  exact run_ok legal written

theorem kfirst_none_completes (legal : legalHere s (.kfirst d a) = true)
    (found : ((List.range 1024).find? fun i => bit (s.me.getK a.toNat &&& s.vmask) i) = none)
    (written : writeX d (BitVec.allOnes 64) s = .ok () s1) : Completes (.kfirst d a) s s1 := by
  show execKfirst d a s = _
  unfold execKfirst
  rw [found]
  exact run_ok legal written

/-- A mask-writing word completes under the write mask. -/
theorem maskOp_completes {i : Instr} {r : MReg} (runs : exec i s = run i s (maskOp d r)) (legal : legalHere s i = true) :
    Completes i s (s.setMe (s.me.setK d.toNat
      ((r &&& s.vmask) ||| (if s.vzero then 0 else s.me.getK d.toNat &&& ~~~ s.vmask)))) :=
  completes_of runs legal rfl

/-- Settles O15: the masks under the write policy, and the count and the first of the selected bits. -/
theorem maskRegisterWords : Obligations.MaskRegisterWords := by
  refine ⟨fun s d a b => ⟨maskOp_completes rfl, maskOp_completes rfl, maskOp_completes rfl, maskOp_completes rfl,
      maskOp_completes rfl, maskOp_completes rfl, fun legal => show execKmov d a 2#5 s = _ from run_ok legal rfl⟩,
    fun s d a s1 => ⟨fun legal written => kpopc_completes legal written, fun n legal inside one below written => ?first,
      fun legal zero written => ?none⟩⟩
  case first =>
    exact kfirst_some_completes legal
      (List.find?_range_eq_some.2 ⟨one, List.mem_range.2 inside, fun i less => by simp [bit, below i less]⟩) written
  case none =>
    refine kfirst_none_completes legal (List.find?_range_eq_none.2 fun i _ => ?_) written
    simp only [zero]
    simp [bit]

end Sys2Proof.Machine
end

section
/-! SUPPORT. The memory stays canonical (O52): one lemma for each function of the model that makes a state, in the
order in which the functions use one another. A function whose value is a state has `memWf_f : (f s ..).memWf`, one
that answers an option or an outcome has `memWf_f : f s .. = some t → t.memWf`, an effect of `M` has
`keeps_f : Keeps (f ..)`. -/

namespace Sys2Proof.Machine

section
variable {s t : State} {α β : Type}

/-- An effect leaves canonical memory, whether it completes or stops. -/
def EndsWf (m : M α) (s : State) : Prop := match m s with | .ok _ t => t.memWf | .error _ t => t.memWf

/-- An effect keeps the memory canonical. -/
structure Keeps (m : M α) : Prop where
  ends : ∀ s, s.memWf → EndsWf m s

theorem Keeps.modify {f : State → State} (hf : ∀ s, s.memWf → (f s).memWf) : Keeps (modify f : M PUnit) := ⟨hf⟩

theorem keeps_pure (a : α) : Keeps (pure a : M α) := ⟨fun _ wf => wf⟩

theorem keeps_throw (e : Stop) : Keeps (throw e : M α) := ⟨fun _ wf => wf⟩

theorem keeps_trap (c : Cause) (a : Word) : Keeps (trap c a : M α) := ⟨fun _ wf => wf⟩

theorem keeps_illegal : Keeps (illegal : M α) := ⟨fun _ wf => wf⟩

theorem keeps_waitFor (w : Wait) : Keeps (waitFor w : M α) := ⟨fun _ wf => wf⟩

theorem keeps_get : Keeps (get : M State) := ⟨fun _ wf => wf⟩

theorem keeps_modMe (f : Thread → Thread) : Keeps (modMe f) := ⟨fun _ wf => wf⟩

theorem keeps_modCore (f : Core → Core) : Keeps (modCore f) := ⟨fun _ wf => wf⟩

theorem keeps_emitM (e : Event) : Keeps (emitM e) := ⟨fun _ wf => wf⟩

theorem keeps_need (b : Bool) (c : Cause) (a : Word) : Keeps (need b c a) := ⟨fun _ wf => by cases b <;> exact wf⟩

theorem EndsWf.bind {m : M α} {f : α → M β} (hm : EndsWf m s) (hf : ∀ a t, t.memWf → EndsWf (f a) t) : EndsWf
  (m >>= f) s := by
  unfold EndsWf at *
  rw [M.bind_run]
  cases h : m s <;> simp only [h] at hm ⊢
  · exact hf _ _ hm
  · exact hm

theorem Keeps.bind {m : M α} {f : α → M β} (hm : Keeps m) (hf : ∀ a, Keeps (f a)) : Keeps (m >>= f) :=
  ⟨fun s h => (hm.ends s h).bind fun a t h => (hf a).ends t h⟩

theorem Keeps.ifThen {c : Prop} [Decidable c] {m : M β} {n : M α} (hm : Keeps m) (hn : Keeps n) :
    Keeps (if c then m >>= fun _ => n else n) := by
  split
  · exact hm.bind fun _ => hn
  · exact hn

theorem Keeps.getBind {f : State → M β} (hf : ∀ s, s.memWf → EndsWf (f s) s) : Keeps (get >>= f) := ⟨hf⟩

theorem memWf_foldl {α : Type} {f : State → α → State} (hf : ∀ s a, s.memWf → (f s a).memWf) :
    ∀ (as : List α) {s : State}, s.memWf → (as.foldl f s).memWf
  | [], _, h => h
  | a :: as, s, h => memWf_foldl hf as (hf s a h)

theorem memWf_ite {c : Prop} [Decidable c] (hs : s.memWf) (ht : t.memWf) : (if c then s else t).memWf := by
  split
  · exact hs
  · exact ht

theorem memWf_sndIte {c : Prop} [Decidable c] {p q : α × State} (hp : p.2.memWf) (hq : q.2.memWf) :
    (if c then p else q).2.memWf := by
  split
  · exact hp
  · exact hq

theorem memWf_snd {p : α × State} {a : α} (h : p.2.memWf) (e : p = (a, t)) : t.memWf := by
  subst e
  exact h

/-- A continuation keeps the memory canonical. -/
def KeepsSome (f : State → Option State) : Prop := ∀ u v, u.memWf → f u = some v → v.memWf

/-- What an `Except` that maps to a result gave before the map. -/
theorem exceptMap_ok {ε : Type} {x : Except ε α} {f : α → β} {b : β} (e : x.map f = .ok b) : ∃ a, x = .ok a ∧ f a =
  b := by
  cases x with
  | error _ => cases e
  | ok a => exact ⟨a, rfl, Except.ok.inj e⟩

end

section
/-! ### Traps, waits, walks and the end of an issue -/

variable {s t : State} {α β : Type} (wf : s.memWf)
include wf

theorem memWf_setCore (c : Nat) (k : Core) : (State.setCore s c k).memWf := wf

theorem memWf_setThread (c t : Nat) (th : Thread) : (State.setThread s c t th).memWf := wf

theorem memWf_finishInitial (c i : Nat) : (finishInitial s c i).memWf := wf

theorem memWf_endStrand (c t : Nat) : (endStrand s c t).memWf := by
  unfold endStrand
  dsimp only
  exact memWf_setThread (memWf_ite wf (memWf_finishInitial wf ..)) ..

theorem memWf_coreError (c errBit : Nat) (cause : BitVec 8) : (coreError s c errBit cause).memWf := wf

theorem memWf_emit (e : Event) : (State.emit s e).memWf := wf

theorem memWf_deadNotice (c : Nat) (m : Msg) (cause : BitVec 8) : (deadNotice s c m cause).memWf := wf

theorem memWf_nudgeStop (c : Nat) : (nudgeStop s c).memWf := by
  unfold nudgeStop
  split
  · exact memWf_emit wf ..
  · exact wf

theorem memWf_dropActivation (c : Nat) : (dropActivation s c).memWf := by
  unfold dropActivation
  dsimp only
  exact memWf_nudgeStop (memWf_setCore wf ..) ..

theorem memWf_dropHolds (who : Agent) : (dropHolds s who).memWf := wf

theorem memWf_passLease (key : Nat) : (passLease s key).memWf := by
  unfold passLease
  split
  · exact wf
  · exact wf

theorem memWf_endCopies (slice sector : Nat) : (endCopies s slice sector).memWf := by
  unfold endCopies
  dsimp only
  exact memWf_passLease wf ..

theorem memWf_undoHolds (who : Agent) : (undoHolds s who).memWf := by
  refine memWf_dropHolds (memWf_foldl (fun s h wf => ?_) _ wf) who
  have ended := memWf_endCopies wf h.slice h.sector
  grind [State.memWf]

theorem memWf_rollback (c : Nat) (a : Activation) : (rollback s c a).memWf := by
  unfold rollback
  dsimp only
  exact memWf_nudgeStop (memWf_setCore (memWf_undoHolds wf ..) ..) ..

theorem memWf_setCtx (x : Nat) (k : Context) : (State.setCtx s x k).memWf := wf

theorem memWf_nextUnitSeq (u : Nat) : (State.nextUnitSeq s u).2.memWf := wf

theorem memWf_noticeOf (x core : Nat) (dead : Bool) (cause : BitVec 8) (payload : List Word) :
    (noticeOf s x core dead cause payload).2.memWf := wf

theorem memWf_setQueue (x q : Nat) (k : Queue) : (State.setQueue s x q k).memWf := wf

theorem memWf_monitorEvent (core : Option Nat) (die unit code ctx v : Nat) :
    (monitorEvent s core die unit code ctx v).memWf := wf

theorem memWf_countAccess (n ctx : Nat) : (countAccess s n ctx).memWf := wf

theorem memWf_grantLease (slice sector n : Nat) : (grantLease s slice sector n).memWf := wf

theorem memWf_fillMonitor (slice sector : Nat) : (fillMonitor s slice sector).memWf := wf

theorem memWf_fetchSector (slice sector : Nat) : (fetchSector s slice sector).memWf := by
  grind [State.memWf, fetchSector, memWf_fillMonitor]

theorem memWf_renewReplica (core ctx slice sector : Nat) : (renewReplica s core ctx slice sector).memWf := by
  unfold renewReplica
  split
  · exact wf
  · exact wf

theorem memWf_leaseRead (core ctx pa : Nat) : (leaseRead s core ctx pa).memWf := by
  unfold leaseRead
  split
  · exact wf
  · dsimp only
    split
    · exact memWf_renewReplica (memWf_grantLease (memWf_fetchSector wf ..) ..) ..
    · exact memWf_grantLease (memWf_fetchSector wf ..) ..

theorem memWf_allocSector (slice sector : Nat) : (allocSector s slice sector).memWf := by
  unfold allocSector
  split
  · exact wf
  · exact wf

theorem memWf_touchSlice (core ctx : Nat) (nd : Rights) (pa : Nat) : (touchSlice s core ctx nd pa).memWf := by
  cases nd <;> grind [touchSlice, memWf_countAccess, memWf_fetchSector, memWf_leaseRead, memWf_allocSector]

theorem memWf_writeSector (slice sector : Nat) (d : BitVec 256) (whole zero : Bool) :
    (writeSector s slice sector d whole zero).memWf := by
  unfold writeSector
  dsimp only
  exact memWf_passLease wf ..

theorem memWf_writePa {seed : Word} {pa n v : Nat} (e : writePa s seed pa n v = some t) : t.memWf := by
  grind [writePa, = Option.map_eq_some_iff, memWf_fetchSector, memWf_writeSector]

theorem memWf_sliceAccess (ctx pa : Nat) : (sliceAccess s ctx pa).memWf := wf

theorem memWf_applyWalk (core ctx : Nat) (x : Xlat) : (applyWalk s core ctx x).memWf := by
  have reads := memWf_foldl (f := fun s a => touchSlice s 768 ctx .read a) (fun _ _ wf => memWf_touchSlice wf ..)
    x.walk wf
  unfold applyWalk
  generalize List.foldl _ _ _ = u at reads ⊢
  have updated : ∀ a e, ((writePa (sliceAccess u ctx a) (u.ctx ctx).seed a 8 e).getD u).memWf := fun a e => by
    cases written : writePa (sliceAccess u ctx a) (u.ctx ctx).seed a 8 e with
    | none => exact reads
    | some v => exact memWf_writePa (memWf_sliceAccess reads ..) written
  grind [memWf_setCore]

theorem memWf_applyXlat (core ctx : Nat) (x : Xlat) : (applyXlat s core ctx x).memWf :=
    (memWf_touchSlice (memWf_applyWalk wf ..) ..)

theorem memWf_unitXlate {a' : _} {who : Agent} {core ctx : Nat} {sup : Bool} {nd : Rights} {va : Nat}
    (e : unitXlate s who core ctx sup nd va = .ok (a', t)) : t.memWf := by
  unfold unitXlate at e
  split at e
  · cases e
  · cases e; exact memWf_applyXlat wf ..

theorem memWf_unitReadAs {nd : Rights} {who : Agent} {core ctx : Nat} {sup : Bool} {ps : List (Nat × Nat)} {v : Nat}
    (e : unitReadAs nd s who core ctx sup ps = .ok (v, t)) : t.memWf := by
  induction ps generalizing s v with
  | nil => grind [unitReadAs]
  | cons p ps ih => grind [unitReadAs, → memWf_unitXlate]

theorem memWf_unitRead {a' : _} {who : Agent} {core ctx : Nat} {sup : Bool} {ps : List (Nat × Nat)}
    (e : unitRead s who core ctx sup ps = .ok (a', t)) : t.memWf := by
  unfold unitRead at e
  exact memWf_unitReadAs wf e

theorem memWf_dispRead {a' : _} {ctx va n : Nat} (e : dispRead s ctx va n = .ok (a', t)) : t.memWf := by
  unfold dispRead at e
  exact memWf_unitRead wf e

theorem memWf_writeThrough (ctx va n : Nat) : (writeThrough s ctx va n).memWf := by
  refine memWf_foldl (fun s p wf => ?_) _ wf
  grind [State.memWf, Mem.wf_write]

theorem memWf_unitWrite (who : Agent) (core ctx : Nat) (sup : Bool) (ps : List (Nat × Nat)) (v : Nat) :
    (unitWrite s who core ctx sup ps v).2.memWf := by
  induction ps generalizing s v with
  | nil => grind [unitWrite]
  | cons p ps ih => grind [unitWrite, → memWf_writePa, → memWf_unitXlate]

theorem memWf_dispWrite {ctx va n v : Nat} (e : dispWrite s ctx va n v = .ok t) : t.memWf := by
  unfold dispWrite at e
  split at e
  next eq1 =>
    have wf2 := memWf_snd (memWf_unitWrite wf ..) eq1
    cases e; exact wf2
  · cases e

theorem memWf_dispStore {ctx : Nat} {va : Nat} {n : Nat} {v : Nat} (e : dispStore s ctx va n v = .ok t) : t.memWf := by
  unfold dispStore at e
  cases written : dispWrite s ctx va n v with
  | error d => rw [written] at e; cases e
  | ok u => rw [written] at e; cases e; exact memWf_writeThrough (memWf_dispWrite wf written) ..

theorem memWf_tryNotice {x q : Nat} {ws : List Word} (e : tryNotice s x q ws = .written t) : t.memWf := by
  unfold tryNotice at e
  dsimp only at e
  split at e
  · cases e
  next read =>
    split at e
    · cases e
    split at e
    · cases e
    next stored =>
      split at e
      · cases e
      next counted =>
        cases e
        have done := memWf_dispStore (memWf_dispStore (memWf_dispRead wf read) stored) counted
        exact done

theorem memWf_askQueuePage (x q va : Nat) : (askQueuePage s x q va).memWf := by
  grind [State.memWf, askQueuePage, memWf_emit, memWf_noticeOf, memWf_setQueue]

theorem memWf_qStateDenied (x : Nat) (q : Nat) (ask : Bool) (d : Denied) : (qStateDenied s x q ask d).memWf := by
  cases d <;> grind [qStateDenied, memWf_emit, memWf_setQueue, memWf_askQueuePage]

theorem memWf_writeQState (x q : Nat) (ask : Bool) : (writeQState s x q ask).memWf := by
  unfold writeQState
  dsimp only
  split
  · exact memWf_qStateDenied wf ..
  next eq1 =>
    have wf2 := memWf_dispRead wf eq1
    split
    · exact memWf_qStateDenied wf ..
    next eq3 =>
      have wf4 := memWf_dispStore wf2 eq3
      exact memWf_setQueue wf4 ..

theorem memWf_failQueue (x q va : Nat) : (failQueue s x q va).memWf := by
  unfold failQueue
  dsimp only
  exact memWf_writeQState (memWf_setQueue wf ..) ..

theorem memWf_holdNotices {x : Nat} {q : Nat} {held : List (List Word)} (e : NoticeEnd) :
    (holdNotices s x q held e).memWf := by
  unfold holdNotices
  dsimp only
  grind [memWf_emit, memWf_setQueue, memWf_askQueuePage, memWf_failQueue]

theorem memWf_putNotice (x q : Nat) (ws : List Word) : (putNotice s x q ws).memWf := by
  unfold putNotice
  dsimp only
  split
  · exact memWf_setQueue wf ..
  · split
    next eq1 =>
      have wf2 := memWf_tryNotice wf eq1
      exact wf2
    · exact memWf_holdNotices wf ..

theorem memWf_postNotice (x q core : Nat) (dead : Bool) (cause : BitVec 8) (payload : List Word) :
    (postNotice s x q core dead cause payload).2.memWf := by
  grind [State.memWf, postNotice, memWf_noticeOf, memWf_putNotice]

theorem memWf_postFault (x q c t order : Nat) (cause : BitVec 8) (addr : Word) (errBit inner : Nat)
    (task : Option TaskRec) : (postFault s x q c t order cause addr errBit inner task).memWf := by
  unfold postFault
  dsimp only
  exact memWf_postNotice wf ..

theorem memWf_emitAll (es : List Event) : (State.emitAll s es).memWf := wf

theorem memWf_stopLaunch (c : Nat) : (stopLaunch s c).memWf := by
  unfold stopLaunch
  split
  · exact wf
  · dsimp only
    exact memWf_emitAll wf ..

theorem memWf_launchFault (c t : Nat) (cause : BitVec 8) (addr : Word) (errBit inner : Nat) (task : Option TaskRec)
    : (launchFault s c t cause addr errBit inner task).memWf := by
  unfold launchFault
  dsimp only
  split
  · exact memWf_postFault wf ..
  · exact memWf_stopLaunch (memWf_coreError wf ..) ..

theorem memWf_setAnnex (old new : Annex) : (setAnnex s old new).memWf := wf

theorem memWf_handlerFault (c : Nat) (cause : Cause) : (handlerFault s c cause).memWf := by
  unfold handlerFault
  split
  · exact memWf_endStrand wf ..
  · split
    · split
      · exact memWf_deadNotice (memWf_dropActivation wf ..) ..
      · dsimp only
        split
        · exact memWf_emit (memWf_setCore (memWf_rollback wf ..) ..) ..
        · exact memWf_deadNotice (memWf_rollback wf ..) ..
    · split
      · exact memWf_launchFault (memWf_dropActivation wf ..) ..
      · dsimp only
        split
        · exact memWf_emit (memWf_setAnnex (memWf_rollback wf ..) ..) ..
        · exact memWf_rollback wf ..
    · split
      · exact memWf_launchFault (memWf_dropActivation wf ..) ..
      · dsimp only
        split
        · split
          · exact memWf_setAnnex (memWf_rollback wf ..) ..
          · exact memWf_launchFault (memWf_rollback wf ..) ..
        · exact memWf_rollback wf ..

theorem memWf_addHold (who : Agent) (slice sector : Nat) : (addHold s who slice sector).memWf := by
  unfold addHold
  split
  · exact wf
  · exact wf

omit wf in
/-- The parts of a frame, written one after another. -/
theorem memWf_frameParts {seed : Word} : ∀ (ps : List ((Nat × Nat) × Xlat)) (o : Option (State × Nat))
    {r : State × Nat},
    (∀ q, o = some q → q.1.memWf) → ps.foldl (fun (o : Option (State × Nat)) px => o.bind fun (s, v) =>
      (writePa s seed px.2.pa px.1.2 v).map fun s' => (s', v / 256 ^ px.1.2)) o = some r → r.1.memWf
  | [], _, _, before, done => before _ done
  | _ :: ps, o, _, before, done => by
    refine memWf_frameParts ps _ (fun q stored => ?_) done
    obtain ⟨q', old, written⟩ := Option.bind_eq_some_iff.1 stored
    obtain ⟨_, wrote, rfl⟩ := Option.map_eq_some_iff.1 written
    exact memWf_writePa (before q' old) wrote

theorem memWf_frameWrite {c ctx va n v : Nat} (e : frameWrite s c ctx va n v = .written t) : t.memWf := by
  have walked := fun xs => memWf_foldl (f := fun s x => applyXlat s c ctx x) (fun _ _ wf => memWf_applyXlat wf ..) xs wf
  unfold frameWrite at e
  dsimp only at e
  split at e
  · cases e
  · split at e
    · cases e
    · cases e
    · split at e
      · cases e
      · split at e
        next parts =>
          cases e
          refine memWf_frameParts _ _ (fun q begun => ?_) parts
          cases begun
          dsimp only
          split
          · exact walked _
          · exact memWf_foldl (fun _ _ wf => memWf_addHold wf ..) _ (walked _)
        next => cases e

theorem memWf_setMe (th : Thread) : (State.setMe s th).memWf := wf

theorem memWf_beginWait (w : Wait) : (beginWait s w).memWf := wf

theorem memWf_pushAgain (order d : Nat) (r : TaskRec) : (pushAgain s order d r).memWf := by
  unfold pushAgain
  split
  · exact wf
  · dsimp only
    exact memWf_setCore wf ..

theorem memWf_repushTask {ld : LaunchDesc} {order c : Nat} {task : Option TaskRec}
    (e : repushTask s ld order c task = some t) :
    t.memWf := by
  grind [repushTask, = Option.bind_eq_some_iff, = Option.map_eq_some_iff, memWf_pushAgain]

theorem memWf_threadFault (c : Nat) (t : Nat) (cause : Cause) (addr : Word) (errBit : Nat) :
    (threadFault s c t cause addr errBit).memWf := by
  have ended := memWf_emit (memWf_endStrand wf c t) (.workSearch c t)
  unfold threadFault
  dsimp only
  generalize (endStrand s c t).emit (.workSearch c t) = u at ended ⊢
  grind [memWf_launchFault, → memWf_repushTask, = Option.bind_eq_some_iff]

theorem memWf_askPage (x q core agent : Nat) (va : Word) (access : Nat) (asker : Asker) :
    (askPage s x q core agent va access asker).2.memWf := by
  grind [State.memWf, askPage, memWf_postNotice]

theorem memWf_beginFrame (va : Nat) : (beginFrame s va).memWf := by
  unfold beginFrame
  dsimp only
  exact memWf_beginWait (memWf_askPage wf ..) ..

theorem memWf_takeTrapAt (pc : Word) (cause : Cause) (addr : Word) (deferred : Bool) :
    (takeTrapAt s pc cause addr deferred).memWf := by
  unfold takeTrapAt
  dsimp only
  have named : ({ s with issue := { s.issue with 
      status := .trapped cause (if cause.hasAddr || deferred then addr else 0) deferred } } : State).memWf := wf
  generalize ({ s with issue := { s.issue with 
      status := .trapped cause (if cause.hasAddr || deferred then addr else 0) deferred } } : State) = u at named ⊢
  split
  · exact memWf_handlerFault named _ _
  split
  · exact memWf_setThread (memWf_setCore named _ _) _ _ _
  split
  · split
    next written => exact memWf_setThread (memWf_frameWrite named written) _ _ _
    · exact memWf_beginWait named _
    · split
      · exact memWf_threadFault (by exact wf) _ _ _ _ _
      · exact memWf_beginFrame named _
    · exact memWf_threadFault named _ _ _ _ _
  · exact memWf_threadFault named _ _ _ _ _

theorem memWf_complete : (complete s).memWf := wf

theorem memWf_takeTrap (cause : Cause) (addr : Word) (deferred : Bool) : (takeTrap s cause addr deferred).memWf :=
    (memWf_takeTrapAt wf ..)

theorem memWf_execSyscall (e : execSyscall s = .next t) : t.memWf := by
  unfold execSyscall at e
  split at e
  · split at e
    · cases e; exact memWf_takeTrapAt wf ..
    · cases e; exact memWf_complete wf
  · cases e; exact memWf_takeTrap wf ..

theorem memWf_beginPark (w : Wait) : (beginPark s w).memWf := wf

theorem memWf_setMyCore (k : Core) : (State.setMyCore s k).memWf := wf

omit wf in
theorem memWf_keepPayload {s' : State} (wf_s' : s'.memWf) : (keepPayload s s').memWf := by
  unfold keepPayload
  split
  · split
    · exact memWf_setMyCore wf_s' ..
    · exact wf_s'
  · exact wf_s'

theorem memWf_beginRefused (s0 : State) (va : Word) : (beginRefused s0 s va).memWf := wf

theorem memWf_beginAbsent (va : Word) (access : Nat) (deferred : Bool) : (beginAbsent s va access deferred).memWf := by
  unfold beginAbsent
  split
  · exact memWf_beginWait wf ..
  · dsimp only
    exact memWf_beginWait (memWf_askPage wf ..) ..

theorem memWf_run {i : Instr} {m : M Unit} (hm : Keeps m) (e : run i s m = .next t) : t.memWf := by
  have ends := hm.ends s wf
  unfold EndsWf at ends
  grind [run, memWf_beginWait, memWf_complete, memWf_takeTrap, memWf_beginPark, memWf_keepPayload,
    memWf_beginRefused, memWf_beginAbsent]

end

section
/-! ### Effects of the scalar, task, barrier and memory words -/

variable {s t : State} {α β : Type} (wf : s.memWf)
include wf

omit wf in
theorem keeps_xlatFault {α : Type} (nd : Rights) (c : Cause) (va : Nat) : Keeps (xlatFault nd c va : M α) := by
  unfold xlatFault
  split
  · exact keeps_throw _
  · exact keeps_trap ..

omit wf in
theorem keeps_checkPartsAt (align : Nat) (nd : Rights) (lowest : Bool) (ps : List (Nat × Nat)) :
    Keeps (checkPartsAt align nd lowest ps) := Keeps.getBind fun s wf => by
  have walked := fun xs : List Xlat => memWf_foldl (f := fun s x => applyXlat s s.cid s.myCtx x)
    (fun _ _ wf => memWf_applyXlat wf ..) xs wf
  split
  · dsimp only
    split <;> exact wf
  · split
    · exact wf
    · dsimp only
      split
      · exact (keeps_xlatFault ..).ends s wf
      · split
        · exact wf
        · split
          · exact wf
          · exact walked _

omit wf in
theorem keeps_checkParts (nd : Rights) (lowest : Bool) (ps : List (Nat × Nat)) : Keeps (checkParts nd lowest ps) :=
    keeps_checkPartsAt ..

omit wf in
theorem keeps_partValue (v : Option Nat) (va : Nat) : Keeps (partValue v va) := by
  unfold partValue
  split
  · exact keeps_pure _
  · exact keeps_trap ..

omit wf in
theorem keeps_readPart (x : Xlat) (va n : Nat) : Keeps (readPart x va n) :=
  keeps_get.bind fun _ => keeps_partValue ..

omit wf in
theorem keeps_readEach : ∀ (xs : List Xlat) (ps : List (Nat × Nat)), Keeps (readEach xs ps)
  | _ :: xs, _ :: ps =>
    (keeps_readPart ..).bind fun _ => (keeps_readEach xs ps).bind fun _ => keeps_pure _
  | [], _ | _ :: _, [] => keeps_pure _

omit wf in
theorem keeps_parkParts (xs : List Xlat) (vals : List Nat) (done : Nat) : Keeps (parkParts xs vals done) :=
    (keeps_modMe ..).bind fun _ => keeps_throw _

omit wf in
theorem keeps_readParts (xs : List Xlat) (ps : List (Nat × Nat)) : Keeps (readParts xs ps) :=
    keeps_get.bind fun _ => (keeps_readEach ..).bind fun _ => Keeps.ifThen (keeps_parkParts ..) (keeps_pure _)

omit wf in
theorem keeps_requestAs (load : Bool) (n : Nat) (regs : List Nat) : Keeps (requestAs load n regs) :=
    keeps_get.bind fun _ => (keeps_modMe ..).bind fun _ => keeps_emitM ..

omit wf in
theorem keeps_requestLoad (n : Nat) (regs : List Nat) : Keeps (requestLoad n regs) := keeps_requestAs ..

omit wf in
theorem keeps_gReadRange (va n : Nat) (regs : List Nat) : Keeps (gReadRange va n regs) :=
    (keeps_checkParts ..).bind fun _ => (keeps_readParts ..).bind fun _ => (keeps_requestLoad ..).bind fun _ =>
    keeps_pure _

omit wf in
theorem keeps_checkLocal (o n : Nat) : Keeps (checkLocal o n) := by
  unfold checkLocal
  refine keeps_get.bind fun _ => ?_
  split
  · exact keeps_pure _
  · exact keeps_trap ..

omit wf in
theorem keeps_lRead (o n : Nat) : Keeps (lRead o n) := keeps_get.bind fun _ => keeps_pure _

theorem memWf_execTret (e : execTret s = .next t) : t.memWf := by
  refine memWf_run wf ?_ e
  refine (keeps_need ..).bind fun _ => ?_
  refine .bind ?_ fun _ => ?_
  · split
    · exact keeps_gReadRange ..
    · exact (keeps_checkLocal ..).bind fun _ => keeps_lRead ..
  · exact (keeps_need ..).bind fun _ => (keeps_modMe ..).bind fun _ => Keeps.modify fun _ wf => wf

theorem memWf_execWfi (e : execWfi s = .next t) : t.memWf := by
  refine memWf_run wf ?_ e
  refine (keeps_need ..).bind fun _ => ?_
  split
  · exact keeps_pure _
  · exact keeps_waitFor ..

omit wf in
theorem keeps_writeX (n : BitVec 5) (v : Word) : Keeps (writeX n v) := by
  unfold writeX
  split
  · exact keeps_illegal ..
  · split
    · refine keeps_get.bind fun _ => ?_
      split
      · exact keeps_modMe ..
      · exact keeps_trap ..
    · exact keeps_modMe ..

theorem memWf_formPair (l f : Nat) : (formPair s l f).memWf := by
  have dropped : ((s.core f).copies.foldl (fun s p => dropHolds s (.copy f p.1)) s).memWf :=
    memWf_foldl (fun _ _ wf => memWf_dropHolds wf _) _ wf
  exact dropped

theorem memWf_execPair {d : BitVec 5} (e : execPair d s = .next t) : t.memWf := by
  refine memWf_run wf ?_ e
  dsimp only
  split
  · exact keeps_writeX ..
  · refine (keeps_need ..).bind fun _ => ?_
    refine (keeps_need ..).bind fun _ => ?_
    split
    · exact (Keeps.modify fun _ wf => (memWf_formPair wf ..)).bind fun _ => keeps_throw _
    · exact keeps_throw _

theorem memWf_execUnpair {d : BitVec 5} (e : execUnpair d s = .next t) : t.memWf := by
  refine memWf_run wf ?_ e
  split
  · exact keeps_writeX ..
  · exact (keeps_need ..).bind fun _ => Keeps.ifThen (keeps_emitM ..) (keeps_throw _)

omit wf in
theorem keeps_popMq : Keeps (popMq) := by
  unfold popMq
  refine keeps_get.bind fun _ => ?_
  split
  · split
    · exact keeps_illegal ..
    · split
      · exact keeps_trap ..
      · exact (keeps_modCore ..).bind fun _ => keeps_pure _
  · exact keeps_illegal ..

omit wf in
theorem keeps_readX (n : BitVec 5) : Keeps (readX n) := by
  unfold readX
  split
  · exact keeps_popMq ..
  · exact keeps_get.bind fun _ => keeps_pure _

theorem memWf_dropTlb (x : Nat) (va : Option Nat) : (dropTlb s x va).memWf := wf

theorem memWf_execTlbinv {a b : BitVec 5} (e : execTlbinv a b s = .next t) : t.memWf :=
    memWf_run wf ((keeps_need ..).bind fun _ => (keeps_readX ..).bind fun _ => (keeps_readX ..).bind fun _ =>
    (keeps_need ..).bind fun _ => Keeps.modify fun _ wf => (memWf_dropTlb wf ..)) e

theorem memWf_evictSector (slice sector : Nat) : (evictSector s slice sector).memWf := by
  unfold evictSector
  split
  · exact wf
  · dsimp only
    split
    · exact Mem.wf_write _ _ _ wf
    · exact wf

theorem memWf_flushSeed (seed : Word) : (flushSeed s seed).memWf :=
    (memWf_foldl (fun _ _ wf => (memWf_evictSector wf ..)) _ wf)

theorem memWf_installSeed (c : Nat) (x : Word) : (installSeed s c x).memWf := wf

theorem memWf_execSeedset {a : BitVec 5} (e : execSeedset a s = .next t) : t.memWf := by
  refine memWf_run wf ((keeps_need ..).bind fun _ => (keeps_readX ..).bind fun _ => Keeps.modify fun u wf => ?_) e
  exact memWf_foldl (fun _ _ wf => memWf_installSeed wf ..) _ (memWf_flushSeed wf _)

theorem memWf_dropReplicas (sector : Nat) : (dropReplicas s sector).memWf := wf

omit wf in
theorem keeps_flushParts (s : State) : ∀ ps : List (Nat × Nat), Keeps (flushParts s ps)
  | [] => keeps_pure _
  | (va, _) :: ps => by
    unfold flushParts
    split
    · exact keeps_waitFor _
    · split
      · exact keeps_xlatFault ..
      · split
        · exact keeps_waitFor _
        · exact (Keeps.modify fun _ wf => memWf_dropReplicas (memWf_evictSector (memWf_applyXlat wf ..) ..) _).bind
            fun _ => keeps_flushParts s ps

omit wf in
theorem keeps_request (n : Nat) (regs : List Nat) : Keeps (request n regs) := keeps_requestAs ..

theorem memWf_execCflush {a b : BitVec 5} (e : execCflush a b s = .next t) : t.memWf := by
  refine memWf_run wf ?_ e
  refine (keeps_readX ..).bind fun _ => ?_
  refine (keeps_readX ..).bind fun _ => ?_
  refine (keeps_need ..).bind fun _ => ?_
  refine (keeps_need ..).bind fun _ => ?_
  split
  · exact keeps_waitFor ..
  · exact (keeps_flushParts ..).bind fun _ => keeps_request ..

omit wf in
theorem keeps_goTo (t : Word) : Keeps (goTo t) := Keeps.modify fun _ wf => wf

omit wf in
theorem keeps_branch (a b : BitVec 5) (o : BitVec 15) (f : Word → Word → Bool) : Keeps (branch a b o f) := by
  unfold branch
  refine (keeps_readX ..).bind fun _ => ?_
  refine (keeps_readX ..).bind fun _ => ?_
  split
  · exact keeps_get.bind fun _ => keeps_goTo ..
  · exact keeps_pure _

theorem memWf_execBeq {a b : BitVec 5} {o : BitVec 15} (e : execBeq a b o s = .next t) : t.memWf :=
    memWf_run wf (keeps_branch ..) e

theorem memWf_execBne {a b : BitVec 5} {o : BitVec 15} (e : execBne a b o s = .next t) : t.memWf :=
    memWf_run wf (keeps_branch ..) e

theorem memWf_execBlt {a b : BitVec 5} {o : BitVec 15} (e : execBlt a b o s = .next t) : t.memWf :=
    memWf_run wf (keeps_branch ..) e

theorem memWf_execBge {a b : BitVec 5} {o : BitVec 15} (e : execBge a b o s = .next t) : t.memWf :=
    memWf_run wf (keeps_branch ..) e

theorem memWf_execBltu {a b : BitVec 5} {o : BitVec 15} (e : execBltu a b o s = .next t) : t.memWf :=
    memWf_run wf (keeps_branch ..) e

theorem memWf_execBgeu {a b : BitVec 5} {o : BitVec 15} (e : execBgeu a b o s = .next t) : t.memWf :=
    memWf_run wf (keeps_branch ..) e

theorem memWf_execJal {d : BitVec 5} {i : BitVec 20} (e : execJal d i s = .next t) : t.memWf :=
    memWf_run wf ((keeps_writeX ..).bind fun _ => keeps_goTo ..) e

theorem memWf_execJalr {d a : BitVec 5} {i : BitVec 15} (e : execJalr d a i s = .next t) : t.memWf :=
    memWf_run wf ((keeps_readX ..).bind fun _ => (keeps_need ..).bind fun _ => (keeps_need ..).bind fun _ =>
    (keeps_writeX ..).bind fun _ => keeps_goTo ..) e

omit wf in
theorem keeps_checkPlaced (f : Option (Cause × Word)) : Keeps (checkPlaced f) := by
  unfold checkPlaced
  split
  · exact keeps_pure _
  · exact keeps_trap ..

theorem memWf_execFork {d a b : BitVec 5} (e : execFork d a b s = .next t) : t.memWf := by
  refine memWf_run wf ?_ e
  refine (keeps_readX ..).bind fun _ => ?_
  refine (keeps_readX ..).bind fun _ => ?_
  refine (keeps_need ..).bind fun _ => ?_
  refine (keeps_checkPlaced ..).bind fun _ => ?_
  refine (keeps_need ..).bind fun _ => ?_
  dsimp only
  split
  · exact keeps_writeX ..
  · exact (keeps_modCore ..).bind fun _ => keeps_writeX ..

theorem memWf_goIdle : (goIdle s).memWf := wf

theorem memWf_execJoin {a : BitVec 5} (e : execJoin a s = .next t) : t.memWf := by
  refine memWf_run wf ?_ e
  refine (keeps_readX ..).bind fun _ => ?_
  refine (keeps_checkPlaced ..).bind fun _ => ?_
  refine (keeps_need ..).bind fun _ => ?_
  dsimp only
  split
  · exact keeps_pure _
  · exact (keeps_modCore ..).bind fun _ => Keeps.modify fun _ wf => memWf_goIdle wf

theorem memWf_resumeJoin (c t j : Nat) : (resumeJoin s c t j).memWf := wf

omit wf in
theorem keeps_execTdone_goNext : Keeps (execTdone.goNext) := Keeps.modify fun _ wf => wf

theorem memWf_tryReport (c : Nat) : (tryReport s c).memWf := by
  unfold tryReport
  dsimp only
  split
  · exact wf
  · split
    · exact wf
    · split
      · exact memWf_stopLaunch (memWf_setCore wf ..) ..
      · exact memWf_emit (memWf_setCore wf ..) ..

theorem memWf_execTdone (e : execTdone s = .next t) : t.memWf := by
  refine memWf_run wf ?_ e
  dsimp only
  split
  · refine (keeps_need ..).bind fun _ => ?_
    refine Keeps.ifThen (keeps_waitFor ..) ?_
    refine (keeps_checkPlaced ..).bind fun _ => ?_
    refine (keeps_need ..).bind fun _ => ?_
    refine (Keeps.modify fun _ wf => (memWf_setCore wf ..)).bind fun _ => ?_
    refine (keeps_modCore ..).bind fun _ => ?_
    split
    · exact (Keeps.modify fun _ wf => (memWf_resumeJoin wf ..)).bind fun _ => keeps_execTdone_goNext ..
    · exact Keeps.modify fun _ wf => memWf_goIdle wf
  · exact Keeps.modify fun _ wf => (memWf_tryReport (memWf_goIdle (memWf_finishInitial wf ..) ..) ..)

theorem memWf_execYield (e : execYield s = .next t) : t.memWf := by
  refine memWf_run wf ?_ e
  split
  · exact keeps_pure _
  · exact keeps_modCore ..

theorem memWf_execHbeat (e : execHbeat s = .next t) : t.memWf := by
  refine memWf_run wf ?_ e
  split
  · exact keeps_pure _
  · exact keeps_modMe ..

theorem memWf_execWfe {d b : BitVec 5} (e : execWfe d b s = .next t) : t.memWf := by
  refine memWf_run wf ?_ e
  refine (keeps_readX ..).bind fun _ => ?_
  dsimp only
  split
  · exact (keeps_modMe ..).bind fun _ => keeps_writeX ..
  · split
    · exact keeps_writeX ..
    · exact keeps_waitFor ..

theorem memWf_containLaunch (c errBit : Nat) (cause : BitVec 8) (r : LaunchRun) :
    (containLaunch s c errBit cause r).memWf := by
  grind [State.memWf, containLaunch, memWf_coreError, memWf_emitAll, memWf_stopLaunch]

theorem memWf_orderFault (c t order : Nat) (cause : BitVec 8) : (orderFault s c t order cause).memWf := by
  unfold orderFault
  split
  · exact memWf_launchFault wf ..
  · split
    · exact wf
    · split
      · exact memWf_postFault wf ..
      · exact memWf_containLaunch wf ..

theorem memWf_lawError (x : Nat) : (lawError s x).memWf := wf

theorem memWf_linkLost (m : Msg) : (linkLost s m).memWf := by
  unfold linkLost
  dsimp only
  split
  · exact memWf_orderFault (by exact wf) ..
  · exact memWf_lawError (by exact wf) ..

theorem memWf_toPackage (m : Msg) : (toPackage s m).memWf := by
  unfold toPackage
  dsimp only
  split
  · exact by exact wf
  · split
    · exact memWf_linkLost (by exact wf) ..
    · exact by exact wf

theorem memWf_routeMsg (m : Msg) : (routeMsg s m).memWf := by
  grind [State.memWf, routeMsg, memWf_emit, memWf_toPackage]

theorem memWf_sendOut (es : List Event) : (sendOut s es).memWf := by
  grind [State.memWf, sendOut, memWf_emit, memWf_setMyCore, memWf_routeMsg, memWf_foldl, = Option.bind_eq_some_iff,
    = Option.map_eq_some_iff, Mem.wf_write]

theorem memWf_releaseStores (c : Nat) : (releaseStores s c).memWf := by
  unfold releaseStores
  split
  · exact memWf_dropHolds wf ..
  · exact wf

theorem memWf_pinState : (pinState s).memWf := by
  unfold pinState
  split
  · split
    · exact wf
    · dsimp only
      exact memWf_sendOut (memWf_releaseStores (memWf_setMyCore wf ..) ..) ..
  · exact wf

omit wf in
theorem keeps_pin : Keeps pin := Keeps.getBind fun s wf => by
  split
  · exact memWf_pinState wf
  · exact wf

theorem memWf_setLatches (c : Nat) (l : BitVec 4) : (setLatches s c l).memWf :=
    (memWf_foldl (fun _ _ wf => (memWf_ite (memWf_setThread wf ..) wf)) _ wf)

theorem memWf_execSev {a : BitVec 5} (e : execSev a s = .next t) : t.memWf := by
  refine memWf_run wf ((keeps_readX ..).bind fun _ => (keeps_need ..).bind fun _ => (keeps_need ..).bind fun _ =>
    keeps_pin.bind fun _ => Keeps.modify fun u wf => ?_) e
  split
  · exact memWf_setLatches wf ..
  · exact wf

omit wf in
theorem keeps_barNum (x : Word) : Keeps (barNum x) := (keeps_need ..).bind fun _ => keeps_pure _

theorem memWf_setTouts (order : Nat) (f : List (Nat × Nat) → List (Nat × Nat)) : (setTouts s order f).memWf := wf

theorem memWf_execBinit {a b : BitVec 5} (e : execBinit a b s = .next t) : t.memWf := by
  refine memWf_run wf ?_ e
  refine (keeps_readX ..).bind fun _ => (keeps_readX ..).bind fun _ => (keeps_barNum ..).bind fun _ => ?_
  refine (keeps_need ..).bind fun _ => .ifThen (keeps_waitFor _) ?_
  refine (keeps_need ..).bind fun _ => (keeps_need ..).bind fun _ => keeps_pin.bind fun _ => Keeps.modify fun u wf => ?_
  refine memWf_foldl (fun _ _ wf => memWf_setCore wf ..) _ ?_
  split
  · exact memWf_setTouts wf ..
  · exact wf

theorem memWf_receiveRelease (c b : Nat) (ph : BitVec 24) (r : Word) (swap : Bool) :
    (receiveRelease s c b ph r swap).memWf := wf

theorem memWf_arriveAt (c b : Nat) (val : Option Word) (swap : Bool) : (arriveAt s c b val swap).2.memWf := by
  unfold arriveAt
  dsimp only
  split
  · split <;> exact wf
  · exact wf

omit wf in
theorem keeps_arriveM (b : Nat) (val : Option Word) (swap : Bool) : Keeps (arriveM b val swap) := Keeps.getBind fun
  s wf => by
  split
  · exact wf
  · refine ((keeps_need ..).ends s wf).bind fun _ u wf => (keeps_pin.ends u wf).bind fun _ u wf => ?_
    split
    · exact wf
    · split
      · exact wf
      · exact memWf_arriveAt wf ..

theorem memWf_execBarrive {d a : BitVec 5} (e : execBarrive d a s = .next t) : t.memWf :=
    memWf_run wf ((keeps_readX ..).bind fun _ => (keeps_barNum ..).bind fun _ => (keeps_arriveM ..).bind fun _ =>
    keeps_writeX ..) e

omit wf in
theorem keeps_execBwait_waitPhase (d : BitVec 5) (n : Nat) (bar : Barrier) (ph : BitVec 24) : Keeps
    (execBwait.waitPhase d n bar ph) := by
  unfold execBwait.waitPhase
  refine (keeps_need ..).bind fun _ => ?_
  split
  · exact keeps_writeX ..
  · exact keeps_waitFor ..

theorem memWf_execBwait {d a b : BitVec 5} (e : execBwait d a b s = .next t) : t.memWf := by
  refine memWf_run wf ?_ e
  refine (keeps_readX ..).bind fun _ => ?_
  refine (keeps_barNum ..).bind fun _ => ?_
  refine (keeps_readX ..).bind fun _ => ?_
  refine (keeps_need ..).bind fun _ => ?_
  dsimp only
  split
  · split
    · exact keeps_writeX ..
    · exact keeps_execBwait_waitPhase ..
  · exact keeps_execBwait_waitPhase ..

omit wf in
theorem keeps_awaitPhase (b : Nat) (j : BitVec 24 × Option Word) : Keeps (awaitPhase b j) := by
  unfold awaitPhase
  split
  · exact keeps_pure _
  · refine keeps_get.bind fun _ => ?_
    refine (keeps_need ..).bind fun _ => ?_
    split
    · exact keeps_waitFor ..
    · exact keeps_throw _

theorem memWf_execBsync {a : BitVec 5} (e : execBsync a s = .next t) : t.memWf :=
    memWf_run wf ((keeps_readX ..).bind fun _ => (keeps_barNum ..).bind fun _ => (keeps_arriveM ..).bind fun _ =>
    (keeps_awaitPhase ..).bind fun _ => keeps_pure _) e

theorem memWf_execBcomb {d a b : BitVec 5} (e : execBcomb d a b s = .next t) : t.memWf :=
    memWf_run wf ((keeps_readX ..).bind fun _ => (keeps_barNum ..).bind fun _ => (keeps_readX ..).bind fun _ =>
    (keeps_arriveM ..).bind fun _ => (keeps_awaitPhase ..).bind fun _ => keeps_writeX ..) e

theorem memWf_execBswap {a : BitVec 5} (e : execBswap a s = .next t) : t.memWf :=
    memWf_run wf ((keeps_readX ..).bind fun _ => (keeps_barNum ..).bind fun _ => (keeps_need ..).bind fun _ =>
    (keeps_arriveM ..).bind fun _ => (keeps_awaitPhase ..).bind fun _ => keeps_pure _) e

theorem memWf_execBquery {d a : BitVec 5} (e : execBquery d a s = .next t) : t.memWf :=
    memWf_run wf ((keeps_readX ..).bind fun _ => (keeps_barNum ..).bind fun _ => keeps_writeX ..) e

omit wf in
theorem keeps_gRead (va n : Nat) (regs : List Nat) : Keeps (gRead va n regs) := (keeps_checkParts ..).bind fun _ =>
    (keeps_readParts ..).bind fun _ => (keeps_requestLoad ..).bind fun _ => keeps_pure _

omit wf in
theorem keeps_ldOp (d a : BitVec 5) (o : BitVec 12) (size : Nat) (f : Nat → Word) : Keeps (ldOp d a o size f) :=
    (keeps_readX ..).bind fun _ => (keeps_need ..).bind fun _ => (keeps_gRead ..).bind fun _ => keeps_writeX ..

theorem memWf_execLdB {d a : BitVec 5} {o : BitVec 12} (e : execLdB d a o s = .next t) : t.memWf :=
    memWf_run wf (keeps_ldOp ..) e

theorem memWf_execLdBu {d a : BitVec 5} {o : BitVec 12} (e : execLdBu d a o s = .next t) : t.memWf :=
    memWf_run wf (keeps_ldOp ..) e

theorem memWf_execLdH {d a : BitVec 5} {o : BitVec 12} (e : execLdH d a o s = .next t) : t.memWf :=
    memWf_run wf (keeps_ldOp ..) e

theorem memWf_execLdHu {d a : BitVec 5} {o : BitVec 12} (e : execLdHu d a o s = .next t) : t.memWf :=
    memWf_run wf (keeps_ldOp ..) e

theorem memWf_execLdW {d a : BitVec 5} {o : BitVec 12} (e : execLdW d a o s = .next t) : t.memWf :=
    memWf_run wf (keeps_ldOp ..) e

theorem memWf_execLdWu {d a : BitVec 5} {o : BitVec 12} (e : execLdWu d a o s = .next t) : t.memWf :=
    memWf_run wf (keeps_ldOp ..) e

theorem memWf_execLdD {d a : BitVec 5} {o : BitVec 12} (e : execLdD d a o s = .next t) : t.memWf :=
    memWf_run wf (keeps_ldOp ..) e

theorem memWf_execLdQ {d a : BitVec 5} {o : BitVec 12} (e : execLdQ d a o s = .next t) : t.memWf :=
    memWf_run wf ((keeps_readX ..).bind fun _ => (keeps_need ..).bind fun _ => (keeps_gRead ..).bind fun _ =>
    (keeps_writeX ..).bind fun _ => keeps_writeX ..) e

omit wf in
theorem keeps_gateStores (n : Nat) : Keeps (gateStores n) := by
  unfold gateStores
  refine keeps_get.bind fun _ => ?_
  split
  · split
    · split
      · exact keeps_pin ..
      · exact keeps_modCore ..
    · exact keeps_pure _
  · exact keeps_pure _

omit wf in
theorem keeps_recordStore (a n v : Nat) : Keeps (recordStore a n v) := by
  unfold recordStore
  refine keeps_get.bind fun _ => ?_
  split
  · exact keeps_modMe ..
  · exact keeps_pure _

omit wf in
theorem keeps_writePart (x : Xlat) (va n v : Nat) : Keeps (writePart x va n v) := Keeps.getBind fun s wf => by
  have held : (if s.gates then addHold s s.agent (homeSlice s s.mySeed x.pa) (x.pa / 32) else s).memWf := by
    split
    · exact memWf_addHold wf ..
    · exact wf
  dsimp only
  split
  next written => exact (keeps_recordStore ..).ends _ (memWf_writePa held written)
  next => split <;> exact wf

omit wf in
theorem keeps_writeEach : ∀ (xs : List Xlat) (ps : List ((Nat × Nat) × Nat)), Keeps (writeEach xs ps)
  | _ :: xs, (_, _) :: ps => (keeps_writePart ..).bind fun _ => keeps_writeEach xs ps
  | [], _ | _ :: _, [] => keeps_pure _

omit wf in
theorem keeps_writeParts (xs : List Xlat) (ps : List ((Nat × Nat) × Nat)) : Keeps (writeParts xs ps) := by
  unfold writeParts
  refine keeps_get.bind fun _ => ?_
  refine (keeps_writeEach ..).bind fun _ => ?_
  split
  · exact keeps_parkParts ..
  · exact keeps_pure _

omit wf in
theorem keeps_gWrite (va n v : Nat) : Keeps (gWrite va n v) := (keeps_gateStores ..).bind fun _ =>
    (keeps_checkParts ..).bind fun _ => (keeps_writeParts ..).bind fun _ => keeps_request ..

omit wf in
theorem keeps_stOp (d a : BitVec 5) (o : BitVec 12) (size : Nat) : Keeps (stOp d a o size) :=
    (keeps_readX ..).bind fun _ => (keeps_readX ..).bind fun _ => (keeps_need ..).bind fun _ => keeps_gWrite ..

theorem memWf_execStB {d a : BitVec 5} {o : BitVec 12} (e : execStB d a o s = .next t) : t.memWf :=
    memWf_run wf (keeps_stOp ..) e

theorem memWf_execStH {d a : BitVec 5} {o : BitVec 12} (e : execStH d a o s = .next t) : t.memWf :=
    memWf_run wf (keeps_stOp ..) e

theorem memWf_execStW {d a : BitVec 5} {o : BitVec 12} (e : execStW d a o s = .next t) : t.memWf :=
    memWf_run wf (keeps_stOp ..) e

theorem memWf_execStD {d a : BitVec 5} {o : BitVec 12} (e : execStD d a o s = .next t) : t.memWf :=
    memWf_run wf (keeps_stOp ..) e

theorem memWf_execStQ {d a : BitVec 5} {o : BitVec 12} (e : execStQ d a o s = .next t) : t.memWf :=
    memWf_run wf ((keeps_readX ..).bind fun _ => (keeps_readX ..).bind fun _ => (keeps_readX ..).bind fun _ =>
    (keeps_need ..).bind fun _ => keeps_gWrite ..) e

omit wf in
theorem keeps_readHome (x : Xlat) (va n : Nat) : Keeps (readHome x va n) :=
  keeps_get.bind fun _ => keeps_partValue ..

omit wf in
theorem keeps_gAtomic (va n : Nat) (regs : List Nat) (f : Nat → Option Nat) : Keeps (gAtomic va n regs f) := by
  refine keeps_pin.bind fun _ => Keeps.getBind fun s wf => ((keeps_checkParts ..).ends s wf).bind fun xs u wfu => ?_
  split
  · exact wfu
  · refine ((keeps_readHome ..).ends u wfu).bind fun old v wfv => ?_
    split
    · exact ((keeps_request 1 regs).bind fun _ => keeps_pure old).ends _ (memWf_applyXlat wf ..)
    · exact ((keeps_writePart ..).bind fun _ => (keeps_request 1 regs).bind fun _ => keeps_pure old).ends v wfv

omit wf in
theorem keeps_amoOp (op : Nat) (d a b : BitVec 5) (sz : BitVec 2) : Keeps (amoOp op d a b sz) :=
    (keeps_readX ..).bind fun _ => (keeps_readX ..).bind fun _ => (keeps_need ..).bind fun _ =>
    (keeps_gAtomic ..).bind fun _ => keeps_writeX ..

theorem memWf_execAmoadd {d a b : BitVec 5} {sz : BitVec 2} (e : execAmoadd d a b sz s = .next t) : t.memWf :=
    memWf_run wf (keeps_amoOp ..) e

theorem memWf_execAmoand {d a b : BitVec 5} {sz : BitVec 2} (e : execAmoand d a b sz s = .next t) : t.memWf :=
    memWf_run wf (keeps_amoOp ..) e

theorem memWf_execAmoor {d a b : BitVec 5} {sz : BitVec 2} (e : execAmoor d a b sz s = .next t) : t.memWf :=
    memWf_run wf (keeps_amoOp ..) e

theorem memWf_execAmoxor {d a b : BitVec 5} {sz : BitVec 2} (e : execAmoxor d a b sz s = .next t) : t.memWf :=
    memWf_run wf (keeps_amoOp ..) e

theorem memWf_execAmomin {d a b : BitVec 5} {sz : BitVec 2} (e : execAmomin d a b sz s = .next t) : t.memWf :=
    memWf_run wf (keeps_amoOp ..) e

theorem memWf_execAmomax {d a b : BitVec 5} {sz : BitVec 2} (e : execAmomax d a b sz s = .next t) : t.memWf :=
    memWf_run wf (keeps_amoOp ..) e

theorem memWf_execAmominu {d a b : BitVec 5} {sz : BitVec 2} (e : execAmominu d a b sz s = .next t) : t.memWf :=
    memWf_run wf (keeps_amoOp ..) e

theorem memWf_execAmomaxu {d a b : BitVec 5} {sz : BitVec 2} (e : execAmomaxu d a b sz s = .next t) : t.memWf :=
    memWf_run wf (keeps_amoOp ..) e

theorem memWf_execAmoswap {d a b : BitVec 5} {sz : BitVec 2} (e : execAmoswap d a b sz s = .next t) : t.memWf :=
    memWf_run wf (keeps_amoOp ..) e

theorem memWf_execAmofadd {d a b : BitVec 5} {sz : BitVec 2} (e : execAmofadd d a b sz s = .next t) : t.memWf :=
    memWf_run wf (keeps_amoOp ..) e

theorem memWf_execCas {d a b : BitVec 5} {sz : BitVec 2} (e : execCas d a b sz s = .next t) : t.memWf :=
    memWf_run wf ((keeps_readX ..).bind fun _ => (keeps_readX ..).bind fun _ => (keeps_need ..).bind fun _ =>
    (keeps_gAtomic ..).bind fun _ => keeps_writeX ..) e

theorem memWf_execCas2 {d a b : BitVec 5} (e : execCas2 d a b s = .next t) : t.memWf :=
    memWf_run wf ((keeps_readX ..).bind fun _ => (keeps_readX ..).bind fun _ => (keeps_readX ..).bind fun _ =>
    (keeps_need ..).bind fun _ => (keeps_gAtomic ..).bind fun _ => (keeps_writeX ..).bind fun _ =>
    keeps_writeX ..) e

theorem memWf_unitSend (u kind unit ctx : Nat) (desc : Word) (payload : List Word) :
    (unitSend s u kind unit ctx desc payload).memWf := by
  unfold unitSend
  dsimp only
  exact memWf_routeMsg (memWf_nextUnitSeq wf ..) ..

theorem memWf_execAmoz {d a b : BitVec 5} {sz : BitVec 2} (e : execAmoz d a b sz s = .next t) : t.memWf := by
  refine memWf_run wf ?_ e
  refine (keeps_readX ..).bind fun _ => ?_
  refine (keeps_readX ..).bind fun _ => ?_
  refine (keeps_need ..).bind fun _ => ?_
  refine (keeps_pin ..).bind fun _ => ?_
  refine (keeps_checkParts ..).bind fun _ => ?_
  dsimp only
  split
  · exact keeps_pure _
  · refine (keeps_readHome ..).bind fun _ => ?_
    refine (keeps_need ..).bind fun _ => ?_
    refine (keeps_need ..).bind fun _ => ?_
    refine (keeps_writePart ..).bind fun _ => ?_
    refine (keeps_request ..).bind fun _ => ?_
    refine (keeps_writeX ..).bind fun _ => ?_
    split
    · exact Keeps.modify fun _ wf => (memWf_unitSend wf ..)
    · exact keeps_pure _

theorem memWf_leaveReplica (core ctx slice sector : Nat) (r : BitVec 1) :
    (leaveReplica s core ctx slice sector r).memWf := by
  unfold leaveReplica
  split
  · exact wf
  · dsimp only
    exact wf

end

section
/-! ### Copies, rings, streams and laws -/

variable {s t : State} {α β : Type} (wf : s.memWf)
include wf

theorem memWf_longLease (slice sector : Nat) (g : BitVec 1) : (longLease s slice sector g).memWf := by
  unfold longLease
  split
  · exact memWf_grantLease wf ..
  · exact wf

omit wf in
theorem keeps_hints (r g : BitVec 1) (xs : List Xlat) : Keeps (hints r g xs) :=
  Keeps.modify fun _ wf => memWf_foldl (fun _ _ wf => memWf_leaveReplica (memWf_longLease wf ..) ..) xs wf

omit wf in
theorem keeps_writeV (n : BitVec 5) (v : VReg) : Keeps (writeV n v) := keeps_modMe ..

theorem memWf_execVld {d a : BitVec 5} {r g n : BitVec 1} (e : execVld d a r g n s = .next t) : t.memWf :=
    memWf_run wf ((keeps_readX ..).bind fun _ => (keeps_need ..).bind fun _ => (keeps_checkParts ..).bind fun _ =>
    (keeps_readParts ..).bind fun _ => (keeps_requestLoad ..).bind fun _ => (keeps_hints ..).bind fun _ =>
    keeps_writeV ..) e

omit wf in
theorem keeps_readV (n : BitVec 5) : Keeps (readV n) := keeps_get.bind fun _ => keeps_pure _

omit wf in
theorem keeps_gWriteRange (va n v : Nat) : Keeps (gWriteRange va n v) := (keeps_gateStores ..).bind fun _ =>
    (keeps_checkParts ..).bind fun _ => (keeps_writeParts ..).bind fun _ => keeps_request ..

theorem memWf_execVst {d a : BitVec 5} {n : BitVec 1} (e : execVst d a n s = .next t) : t.memWf :=
    memWf_run wf ((keeps_readV ..).bind fun _ => (keeps_readX ..).bind fun _ => (keeps_need ..).bind fun _ =>
    keeps_gWriteRange ..) e

omit wf in
theorem keeps_checkAligned (w : Nat) (as : List Nat) : Keeps (checkAligned w as) := by
  unfold checkAligned
  split
  · exact keeps_trap ..
  · exact keeps_pure _

theorem memWf_execVlds {d a b : BitVec 5} {r g n : BitVec 1} (e : execVlds d a b r g n s = .next t) : t.memWf := by
  refine memWf_run wf ?_ e
  refine (keeps_readX ..).bind fun _ => ?_
  refine (keeps_readX ..).bind fun _ => ?_
  split
  · exact keeps_trap ..
  · exact (keeps_checkAligned ..).bind fun _ => (keeps_checkParts ..).bind fun _ =>
      (keeps_readParts ..).bind fun _ => (keeps_requestLoad ..).bind fun _ => (keeps_hints ..).bind fun _ =>
      keeps_writeV ..

theorem memWf_execVsts {d a b : BitVec 5} {n : BitVec 1} (e : execVsts d a b n s = .next t) : t.memWf := by
  refine memWf_run wf ?_ e
  refine (keeps_readV ..).bind fun _ => ?_
  refine (keeps_readX ..).bind fun _ => ?_
  refine (keeps_readX ..).bind fun _ => ?_
  split
  · exact keeps_trap ..
  · exact (keeps_checkAligned ..).bind fun _ => (keeps_gateStores ..).bind fun _ =>
      (keeps_checkParts ..).bind fun _ => (keeps_writeParts ..).bind fun _ => keeps_request ..

theorem memWf_execVgath {d a b : BitVec 5} {g n : BitVec 1} (e : execVgath d a b g n s = .next t) : t.memWf :=
    memWf_run wf ((keeps_readX ..).bind fun _ => (keeps_readV ..).bind fun _ =>
    (keeps_checkPartsAt ..).bind fun _ => (keeps_readParts ..).bind fun _ => (keeps_requestLoad ..).bind fun _ =>
    (keeps_hints ..).bind fun _ => keeps_writeV ..) e

theorem memWf_execVscat {d a b : BitVec 5} {n : BitVec 1} (e : execVscat d a b n s = .next t) : t.memWf :=
    memWf_run wf ((keeps_readV ..).bind fun _ => (keeps_readX ..).bind fun _ => (keeps_readV ..).bind fun _ =>
    (keeps_gateStores ..).bind fun _ => (keeps_checkPartsAt ..).bind fun _ => (keeps_writeParts ..).bind fun _ =>
    keeps_request ..) e

omit wf in
theorem keeps_liftF (f : F α) : Keeps (liftF f) := by
  unfold liftF
  refine keeps_get.bind fun _ => ?_
  split
  · exact (keeps_modMe ..).bind fun _ => keeps_pure _

theorem memWf_execVldp {d a b : BitVec 5} {r g n : BitVec 1} (e : execVldp d a b r g n s = .next t) : t.memWf := by
  refine memWf_run wf ?_ e
  refine (keeps_readX ..).bind fun _ => ?_
  refine (keeps_readX ..).bind fun _ => ?_
  split
  · exact keeps_trap ..
  · exact (keeps_need ..).bind fun _ => (keeps_checkParts ..).bind fun _ => (keeps_readParts ..).bind fun _ =>
      (keeps_requestLoad ..).bind fun _ => (keeps_hints ..).bind fun _ => (keeps_liftF ..).bind fun _ =>
      keeps_writeV ..

omit wf in
theorem keeps_writePartsBack (back : Thread → Thread) (xs : List Xlat) (ps : List ((Nat × Nat) × Nat)) :
    Keeps (writePartsBack back xs ps) := ⟨fun s wf => by
  have ends := (keeps_writeParts xs ps).ends s wf
  unfold EndsWf writePartsBack at *
  cases written : writeParts xs ps s with
  | ok a u => rw [written] at ends; exact ends
  | error stop u => rw [written] at ends; cases stop <;> exact ends⟩

theorem memWf_execVstp {d a b : BitVec 5} {n : BitVec 1} (e : execVstp d a b n s = .next t) : t.memWf := by
  refine memWf_run wf ?_ e
  refine (keeps_readV ..).bind fun _ => ?_
  refine (keeps_readX ..).bind fun _ => ?_
  refine (keeps_readX ..).bind fun _ => ?_
  split
  · exact keeps_trap ..
  · exact (keeps_need ..).bind fun _ => (keeps_liftF ..).bind fun _ => (keeps_gateStores ..).bind fun _ =>
      (keeps_checkParts ..).bind fun _ => (keeps_writePartsBack ..).bind fun _ => keeps_request ..

theorem memWf_prefetchSector (x : Xlat) (r g : BitVec 1) : (prefetchSector s x r g).memWf := by
  unfold prefetchSector
  dsimp only
  exact memWf_leaveReplica (memWf_longLease (memWf_applyXlat wf ..) ..) ..

theorem memWf_execPref {a : BitVec 5} {r g : BitVec 1} (e : execPref a r g s = .next t) : t.memWf := by
  refine memWf_run wf ((keeps_readX ..).bind fun _ => keeps_get.bind fun _ => ?_) e
  dsimp only
  split
  · exact (keeps_request ..).bind fun _ => Keeps.modify fun _ wf =>
      memWf_foldl (fun _ _ wf => memWf_prefetchSector wf ..) _ wf
  · exact keeps_pure _

theorem memWf_execCzero {a b : BitVec 5} (e : execCzero a b s = .next t) : t.memWf := by
  refine memWf_run wf ?_ e
  refine (keeps_readX ..).bind fun _ => ?_
  refine (keeps_readX ..).bind fun _ => ?_
  refine (keeps_need ..).bind fun _ => ?_
  split
  · exact keeps_pure _
  · exact (keeps_need ..).bind fun _ => (keeps_checkParts ..).bind fun _ => (keeps_writeParts ..).bind fun _ =>
      keeps_request ..

omit wf in
theorem keeps_localCheck (o n align : Nat) : Keeps (localCheck o n align) := (keeps_need ..).bind fun _ =>
    (keeps_need ..).bind fun _ => keeps_checkLocal ..

omit wf in
theorem keeps_waitGranules (g n : Nat) (full : Bool) : Keeps (waitGranules g n full) := by
  unfold waitGranules
  refine keeps_get.bind fun _ => ?_
  dsimp only
  split
  · exact keeps_pure _
  · exact keeps_waitFor ..

omit wf in
theorem keeps_loadQual (q g n : Nat) : Keeps (loadQual q g n) := by
  unfold loadQual
  split
  · exact keeps_pure _
  · exact keeps_waitGranules ..

omit wf in
theorem keeps_logGranules (g n : Nat) : Keeps (logGranules g n) := by
  unfold logGranules
  refine keeps_get.bind fun _ => ?_
  split
  · split
    · exact keeps_pure _
    · dsimp only
      split
      · exact keeps_pin ..
      · exact keeps_modCore ..
  · exact keeps_pure _

omit wf in
theorem keeps_setFE (full : Bool) (g n : Nat) : Keeps (setFE full g n) := (keeps_logGranules ..).bind fun _ =>
    keeps_modCore ..

omit wf in
theorem keeps_lldOp (d a : BitVec 5) (sz : BitVec 3) (o : BitVec 10) (q : Nat) : Keeps (lldOp d a sz o q) := by
  unfold lldOp
  refine (keeps_readX ..).bind fun _ => ?_
  refine (keeps_localCheck ..).bind fun _ => ?_
  refine (keeps_loadQual ..).bind fun _ => ?_
  refine (keeps_lRead ..).bind fun _ => ?_
  refine Keeps.ifThen (keeps_setFE ..) ?_
  refine (keeps_writeX ..).bind fun _ => ?_
  split
  · exact keeps_writeX ..
  · exact keeps_pure _

theorem memWf_execLld {d a : BitVec 5} {sz : BitVec 3} {o : BitVec 10} (e : execLld d a sz o s = .next t) : t.memWf :=
    memWf_run wf (keeps_lldOp ..) e

theorem memWf_execLldWf {d a : BitVec 5} {sz : BitVec 3} {o : BitVec 10} (e : execLldWf d a sz o s = .next t) :
    t.memWf :=
    memWf_run wf (keeps_lldOp ..) e

theorem memWf_execLldWfc {d a : BitVec 5} {sz : BitVec 3} {o : BitVec 10} (e : execLldWfc d a sz o s = .next t) :
    t.memWf :=
    memWf_run wf (keeps_lldOp ..) e

omit wf in
theorem keeps_storeQual (q g n : Nat) : Keeps (storeQual q g n) := by
  unfold storeQual
  split
  · exact keeps_waitGranules ..
  · exact keeps_pure _

omit wf in
theorem keeps_lWrite (o n v : Nat) : Keeps (lWrite o n v) := (keeps_logGranules ..).bind fun _ =>
    (keeps_modCore ..).bind fun _ => keeps_recordStore ..

omit wf in
theorem keeps_lstOp (d a : BitVec 5) (sz : BitVec 3) (o : BitVec 10) (q : Nat) : Keeps (lstOp d a sz o q) := by
  unfold lstOp
  refine (keeps_readX ..).bind fun _ => ?_
  refine (keeps_readX ..).bind fun _ => ?_
  dsimp only
  split
  · refine (keeps_readX ..).bind fun _ => ?_
    refine (keeps_localCheck ..).bind fun _ => ?_
    refine (keeps_storeQual ..).bind fun _ => ?_
    refine (keeps_lWrite ..).bind fun _ => ?_
    split
    · exact keeps_setFE ..
    · exact keeps_pure _
  · refine (keeps_pure _).bind fun _ => ?_
    refine (keeps_localCheck ..).bind fun _ => ?_
    refine (keeps_storeQual ..).bind fun _ => ?_
    refine (keeps_lWrite ..).bind fun _ => ?_
    split
    · exact keeps_setFE ..
    · exact keeps_pure _

theorem memWf_execLst {d a : BitVec 5} {sz : BitVec 3} {o : BitVec 10} (e : execLst d a sz o s = .next t) : t.memWf :=
    memWf_run wf (keeps_lstOp ..) e

theorem memWf_execLstSf {d a : BitVec 5} {sz : BitVec 3} {o : BitVec 10} (e : execLstSf d a sz o s = .next t) :
    t.memWf :=
    memWf_run wf (keeps_lstOp ..) e

theorem memWf_execLstWesf {d a : BitVec 5} {sz : BitVec 3} {o : BitVec 10} (e : execLstWesf d a sz o s = .next t) :
    t.memWf :=
    memWf_run wf (keeps_lstOp ..) e

theorem memWf_execVlld {d a q : BitVec 5} (e : execVlld d a q s = .next t) : t.memWf :=
    memWf_run wf ((keeps_readX ..).bind fun _ => (keeps_localCheck ..).bind fun _ =>
    (keeps_loadQual ..).bind fun _ => (keeps_lRead ..).bind fun _ =>
    Keeps.ifThen (keeps_setFE ..) (keeps_writeV ..)) e

theorem memWf_execVlst {d a q : BitVec 5} (e : execVlst d a q s = .next t) : t.memWf := by
  refine memWf_run wf ?_ e
  refine (keeps_readV ..).bind fun _ => ?_
  refine (keeps_readX ..).bind fun _ => ?_
  refine (keeps_localCheck ..).bind fun _ => ?_
  refine (keeps_storeQual ..).bind fun _ => ?_
  refine (keeps_lWrite ..).bind fun _ => ?_
  split
  · exact keeps_setFE ..
  · exact keeps_pure _

omit wf in
theorem keeps_eachM {f : α → M Unit} (hf : ∀ a, Keeps (f a)) : ∀ as : List α, Keeps (eachM f as)
  | [] => keeps_pure _
  | a :: as => (hf a).bind fun _ => keeps_eachM hf as

theorem memWf_execLgath {d a b : BitVec 5} (e : execLgath d a b s = .next t) : t.memWf := by
  have rowInRange : ∀ base i : Nat, Keeps (if i = 0xFFFF then pure () else checkLocal (base + 16 * i) 16) := fun
    base i => by
    split
    · exact keeps_pure _
    · exact keeps_checkLocal ..
  exact memWf_run wf ((keeps_readX ..).bind fun _ => (keeps_readV ..).bind fun _ => (keeps_need ..).bind fun _ =>
    (keeps_checkPlaced ..).bind fun _ => (keeps_eachM (rowInRange _) _).bind fun _ => keeps_writeV ..) e

omit wf in
theorem keeps_exchangeTarget (x : Word) (n align : Nat) : Keeps (exchangeTarget x n align) := by
  unfold exchangeTarget
  refine keeps_get.bind fun _ => ?_
  refine (keeps_need ..).bind fun _ => ?_
  refine (keeps_need ..).bind fun _ => ?_
  dsimp only
  split
  · exact keeps_trap ..
  · split
    · exact keeps_trap ..
    · exact (keeps_need ..).bind fun _ => Keeps.ifThen (keeps_waitFor ..) (keeps_pure _)

omit wf in
theorem keeps_exchangeStore (c o n v : Nat) : Keeps (exchangeStore c o n v) :=
    Keeps.modify fun _ wf => (memWf_setCore wf ..)

theorem memWf_execXst {d a : BitVec 5} (e : execXst d a s = .next t) : t.memWf := by
  refine memWf_run wf ?_ e
  refine (keeps_readX ..).bind fun _ => ?_
  refine (keeps_readX ..).bind fun _ => ?_
  refine (keeps_exchangeTarget ..).bind fun _ => ?_
  split
  · exact (keeps_pin ..).bind fun _ => keeps_exchangeStore ..

theorem memWf_execVxst {d a : BitVec 5} (e : execVxst d a s = .next t) : t.memWf := by
  refine memWf_run wf ?_ e
  refine (keeps_readV ..).bind fun _ => ?_
  refine (keeps_readX ..).bind fun _ => ?_
  refine (keeps_exchangeTarget ..).bind fun _ => ?_
  split
  · exact keeps_exchangeStore ..

theorem memWf_execLamoadd {d a b : BitVec 5} (e : execLamoadd d a b s = .next t) : t.memWf :=
    memWf_run wf ((keeps_readX ..).bind fun _ => (keeps_readX ..).bind fun _ => (keeps_localCheck ..).bind fun _ =>
    (keeps_lRead ..).bind fun _ => (keeps_lWrite ..).bind fun _ => keeps_writeX ..) e

theorem memWf_execLcas {d a b : BitVec 5} (e : execLcas d a b s = .next t) : t.memWf :=
    memWf_run wf ((keeps_readX ..).bind fun _ => (keeps_readX ..).bind fun _ => (keeps_localCheck ..).bind fun _ =>
    (keeps_lRead ..).bind fun _ => Keeps.ifThen (keeps_lWrite ..) (keeps_writeX ..)) e

theorem memWf_copyArrive (c b order : Nat) : (copyArrive s c b order).memWf := by
  unfold copyArrive
  dsimp only
  split
  · exact memWf_emit wf ..
  · split
    · exact wf
    · split
      · exact memWf_emit wf ..
      · exact memWf_arriveAt wf ..

theorem memWf_copyEnd (c p : Nat) (st : BitVec 2) (cause : BitVec 8) (addr : BitVec 52) :
    (copyEnd s c p st cause addr).memWf := by
  unfold copyEnd
  dsimp only
  split
  · exact wf
  · split
    · exact memWf_copyArrive (memWf_dropHolds (memWf_setCore wf ..) ..) ..
    · exact memWf_dropHolds (memWf_setCore wf ..) ..

omit wf in
theorem keeps_copyOp (twoD : Bool) (d a : BitVec 5) : Keeps (copyOp twoD d a) := by
  unfold copyOp
  refine (keeps_readX ..).bind fun _ => ?_
  refine keeps_get.bind fun _ => ?_
  refine (keeps_checkPlaced ..).bind fun _ => ?_
  refine (keeps_lRead ..).bind fun _ => ?_
  refine (keeps_need ..).bind fun _ => ?_
  refine (keeps_pin ..).bind fun _ => ?_
  dsimp only
  split
  · exact keeps_waitFor ..
  · refine (keeps_modCore ..).bind fun _ => ?_
    split
    · exact (Keeps.modify fun _ wf => (memWf_copyEnd wf ..)).bind fun _ => keeps_writeX ..
    · exact (keeps_emitM ..).bind fun _ => keeps_writeX ..

theorem memWf_execCopy {d a : BitVec 5} (e : execCopy d a s = .next t) : t.memWf := memWf_run wf (keeps_copyOp ..) e

theorem memWf_execCopy2d {d a : BitVec 5} (e : execCopy2d d a s = .next t) : t.memWf :=
    memWf_run wf (keeps_copyOp ..) e

theorem memWf_execCstat {d a : BitVec 5} (e : execCstat d a s = .next t) : t.memWf := by
  refine memWf_run wf ?_ e
  refine (keeps_readX ..).bind fun _ => ?_
  refine (keeps_need ..).bind fun _ => ?_
  split
  · split
    · exact keeps_writeX ..
    · exact keeps_writeX ..
  · exact keeps_writeX ..

omit wf in
theorem keeps_feRange (a b : BitVec 5) : Keeps (feRange a b) := (keeps_readX ..).bind fun _ =>
    (keeps_readX ..).bind fun _ => (keeps_need ..).bind fun _ => (keeps_checkLocal ..).bind fun _ => keeps_pure _

theorem memWf_execFewait {a b : BitVec 5} (e : execFewait a b s = .next t) : t.memWf := by
  refine memWf_run wf ?_ e
  refine (keeps_feRange ..).bind fun _ => ?_
  split
  · exact keeps_waitGranules ..

theorem memWf_execFeset {a b : BitVec 5} (e : execFeset a b s = .next t) : t.memWf := by
  refine memWf_run wf ?_ e
  refine (keeps_feRange ..).bind fun _ => ?_
  split
  · exact keeps_setFE ..

theorem memWf_execFeclr {a b : BitVec 5} (e : execFeclr a b s = .next t) : t.memWf := by
  refine memWf_run wf ?_ e
  refine (keeps_feRange ..).bind fun _ => ?_
  split
  · exact keeps_setFE ..

theorem memWf_execSubs {d a : BitVec 5} (e : execSubs d a s = .next t) : t.memWf := by
  refine memWf_run wf ?_ e
  refine (keeps_readX ..).bind fun _ => (keeps_checkPlaced ..).bind fun _ => (keeps_lRead ..).bind fun _ => ?_
  refine (keeps_need ..).bind fun _ => (keeps_need ..).bind fun _ => .ifThen (keeps_waitFor _) ?_
  refine (keeps_checkPlaced ..).bind fun _ => (keeps_need ..).bind fun _ => (keeps_need ..).bind fun _ => ?_
  refine (keeps_need ..).bind fun _ => keeps_pin.bind fun _ => ?_
  dsimp only
  split
  · exact keeps_writeX ..
  split
  · exact keeps_writeX ..
  · refine .bind (.modify fun u wf => ?_) fun _ => keeps_writeX ..
    split <;> exact wf

theorem memWf_endSub (u : Sub) : (endSub s u).memWf := wf

theorem memWf_execUnsubs {d a : BitVec 5} (e : execUnsubs d a s = .next t) : t.memWf := by
  refine memWf_run wf ?_ e
  refine (keeps_readX ..).bind fun _ => ?_
  refine (keeps_need ..).bind fun _ => ?_
  refine (keeps_pin ..).bind fun _ => ?_
  dsimp only
  split
  · exact keeps_writeX ..
  · refine Keeps.ifThen (keeps_waitFor ..) ?_
    split
    · exact keeps_waitFor ..
    · exact (Keeps.modify fun _ wf => (memWf_endSub wf ..)).bind fun _ => keeps_writeX ..

theorem memWf_cancelReads (c t n : Nat) : (cancelReads s c t n).memWf := wf

omit wf in
theorem keeps_setStream (n : BitVec 5) (r : StreamReg) : Keeps (setStream n r) := keeps_modMe ..

theorem memWf_execSopen {a b : BitVec 5} (e : execSopen a b s = .next t) : t.memWf := by
  refine memWf_run wf ?_ e
  refine (keeps_readX ..).bind fun _ => ?_
  refine (keeps_checkPlaced ..).bind fun _ => ?_
  refine (keeps_lRead ..).bind fun _ => ?_
  refine (keeps_need ..).bind fun _ => ?_
  refine (Keeps.modify fun _ wf => (memWf_cancelReads wf ..)).bind fun _ => ?_
  refine (keeps_setStream ..).bind fun _ => ?_
  split
  · exact keeps_emitM ..
  · exact keeps_pure _

omit wf in
theorem keeps_openStream (n : BitVec 5) : Keeps (openStream n) := by
  unfold openStream
  refine keeps_get.bind fun _ => ?_
  split
  · exact keeps_pure _
  · exact keeps_trap ..

theorem memWf_streamRead {v : Nat} {c i : Nat} {va : Word} {n : Nat} (e : streamRead s c i va n = .ok (v, t)) :
    t.memWf := by
  unfold streamRead at e
  split at e
  · cases e
  · exact memWf_unitReadAs wf e

theorem memWf_streamIndex {v : Nat} {c i : Nat} {d : StreamDesc} {n : Nat} (e : streamIndex s c i d n = .ok (v, t))
    : t.memWf :=
  memWf_streamRead wf e

theorem memWf_readElem {v x : Nat} {c i : Nat} {d : StreamDesc} {n : Nat} (e : readElem s c i d n = .ok (v, x, t)) :
    t.memWf := by
  unfold readElem at e
  split at e
  · obtain ⟨_, read, kept⟩ := exceptMap_ok e
    cases kept
    exact memWf_streamRead wf read
  · split at e
    · cases e
    next index =>
      obtain ⟨_, read, kept⟩ := exceptMap_ok e
      cases kept
      exact memWf_streamRead (memWf_streamIndex wf index) read
  · split at e
    · cases e
    next value =>
      obtain ⟨_, read, kept⟩ := exceptMap_ok e
      cases kept
      exact memWf_streamRead (memWf_streamRead wf value) read

theorem memWf_engineHold (c n : Nat) : (engineHold s c n).memWf := by
  unfold engineHold
  split
  · exact wf
  · dsimp only
    exact memWf_emit (memWf_setCore wf ..) ..

omit wf in
theorem keeps_deliverElem (r : StreamReg) (i : Nat) : Keeps (deliverElem r i) := by
  unfold deliverElem
  split
  · split
    · exact keeps_throw _
    · exact keeps_pure _
  · refine Keeps.getBind fun s wf => ?_
    dsimp only
    split
    · exact wf
    · split
      next read => exact memWf_engineHold (memWf_readElem wf read) ..
      all_goals exact wf

theorem memWf_execSpop {d a : BitVec 5} (e : execSpop d a s = .next t) : t.memWf := by
  refine memWf_run wf ?_ e
  refine (keeps_openStream ..).bind fun _ => ?_
  split
  · split
    · exact keeps_illegal ..
    · split
      · exact (keeps_writeX ..).bind fun _ => keeps_writeX ..
      · refine (keeps_deliverElem ..).bind fun _ => ?_
        split
        · exact (keeps_setStream ..).bind fun _ => (keeps_writeX ..).bind fun _ => keeps_writeX ..
  · refine (keeps_need ..).bind fun _ => ?_
    refine (keeps_deliverElem ..).bind fun _ => ?_
    split
    · exact (keeps_setStream ..).bind fun _ => keeps_writeX ..

omit wf in
theorem keeps_mapM' {f : α → M β} (hf : ∀ a, Keeps (f a)) : ∀ as : List α, Keeps (mapM' f as)
  | [] => keeps_pure _
  | a :: as => (hf a).bind fun _ => (keeps_mapM' hf as).bind fun _ => keeps_pure _

theorem memWf_execVspop {d a : BitVec 5} (e : execVspop d a s = .next t) : t.memWf :=
  memWf_run wf ((keeps_openStream ..).bind fun _ => (keeps_need ..).bind fun _ =>
    (keeps_mapM' (fun _ => (keeps_deliverElem ..).bind fun _ => keeps_pure _) _).bind fun _ =>
      (keeps_setStream ..).bind fun _ => keeps_writeV ..) e

theorem memWf_execSadv {a b : BitVec 5} (e : execSadv a b s = .next t) : t.memWf :=
    memWf_run wf ((keeps_readX ..).bind fun _ => (keeps_openStream ..).bind fun _ => keeps_setStream ..) e

theorem memWf_execStend {d a : BitVec 5} (e : execStend d a s = .next t) : t.memWf :=
    memWf_run wf ((keeps_openStream ..).bind fun _ => keeps_writeX ..) e

omit wf in
theorem keeps_pointer (d : StreamDesc) (i : Nat) : Keeps (pointer d i) := Keeps.getBind fun s wf => by
  dsimp only
  split
  · exact wf
  · split
    next read => exact memWf_engineHold (memWf_streamIndex wf read) ..
    all_goals exact wf

theorem memWf_execSfib {d a : BitVec 5} (e : execSfib d a s = .next t) : t.memWf := by
  refine memWf_run wf ((keeps_openStream ..).bind fun _ => (keeps_need ..).bind fun _ => ?_) e
  dsimp only
  split
  all_goals
    split
    · exact (keeps_pointer ..).bind fun _ => (keeps_setStream ..).bind fun _ => keeps_writeX ..
    · exact (keeps_pointer ..).bind fun _ => (keeps_pointer ..).bind fun _ => (keeps_need ..).bind fun _ =>
        (keeps_setStream ..).bind fun _ => .ifThen (keeps_emitM _) (keeps_writeX ..)

theorem memWf_execSclose {a : BitVec 5} (e : execSclose a s = .next t) : t.memWf :=
    memWf_run wf ((Keeps.modify fun _ wf => (memWf_cancelReads wf ..)).bind fun _ => keeps_modMe ..) e

omit wf in
theorem keeps_openRing (h : Word) (own : Bool) : Keeps (openRing h own) :=
  keeps_get.bind fun _ => (keeps_need ..).bind fun _ => (keeps_need ..).bind fun _ => (keeps_need ..).bind fun _ =>
    Keeps.ifThen (keeps_waitFor ..) ((keeps_checkPlaced ..).bind fun _ => keeps_pure _)

theorem memWf_withJournal (c h : Nat) (sup : Bool) : (withJournal s c h sup).memWf := by
  unfold withJournal
  split
  · exact wf
  · exact wf

theorem memWf_mirrorHeader {c h : Nat} {sup : Bool} (e : mirrorHeader s c h sup = .ok t) : t.memWf := by
  unfold mirrorHeader at e
  dsimp only at e
  split at e
  · split at e
    next eq1 =>
      have wf2 := memWf_snd (memWf_unitWrite (memWf_withJournal wf ..) ..) eq1
      cases e; exact memWf_writeThrough wf2 ..
    · cases e
  · cases e; exact wf

theorem memWf_askUnit {b' : _} {agent x q core va access : Nat} (e : askUnit agent s x q core va access = some
  (b', t)) :
    t.memWf := by
  unfold askUnit at e
  dsimp only at e
  split at e
  · split at e
    · cases e; exact wf
    · cases e
  · cases e; exact memWf_askPage wf ..

theorem memWf_askOther {b' : _} {x q core va access : Nat} (e : askOther s x q core va access = some (b', t)) :
  t.memWf := by
  unfold askOther at e
  exact memWf_askUnit wf e

omit wf in
theorem keeps_mirrored (c h : Nat) {f : State → State} (hf : ∀ s, s.memWf → (f s).memWf) : Keeps (mirrored c h f) :=
  Keeps.getBind fun s wf => by
    split
    next mirrored => exact memWf_mirrorHeader (hf s wf) mirrored
    · exact wf
    · split
      · exact wf
      next asked => exact hf _ (memWf_askOther wf asked)
      next asked => exact memWf_askOther wf asked
    · exact hf s wf

theorem memWf_passTicket (c h : Nat) : (passTicket c h s).memWf := wf

theorem memWf_execRtick {d a : BitVec 5} (e : execRtick d a s = .next t) : t.memWf := by
  refine memWf_run wf ((keeps_readX ..).bind fun _ => (keeps_openRing ..).bind fun _ => keeps_pin.bind fun _ =>
    keeps_get.bind fun _ => ?_) e
  split
  · exact keeps_waitFor _
  · exact .ifThen (keeps_mirrored _ _ fun _ wf => memWf_passTicket wf ..) (keeps_writeX ..)

theorem memWf_fillSlot (c h t : Nat) : (fillSlot s c h t).memWf := by
  unfold fillSlot
  dsimp only
  split
  · exact memWf_emit wf ..
  · exact memWf_setCore wf ..

theorem memWf_putSlot (c h t v : Nat) : (putSlot s c h t v).memWf := by
  unfold putSlot
  dsimp only
  exact memWf_fillSlot (memWf_setCore wf ..) ..

theorem memWf_execRput {d a b : BitVec 5} (e : execRput d a b s = .next t) : t.memWf := by
  refine memWf_run wf ((keeps_readX ..).bind fun _ => (keeps_readX ..).bind fun _ => (keeps_readV ..).bind fun _ =>
    (keeps_openRing ..).bind fun _ => (keeps_need ..).bind fun _ => (keeps_need ..).bind fun _ => .modify fun u
      wf => ?_) e
  refine memWf_putSlot ?_ ..
  split
  · exact memWf_withJournal wf ..
  · exact wf

omit wf in
theorem keeps_ringRaise (r : RingHdr) (h : Nat) : Keeps (ringRaise r h : M α) := by
  unfold ringRaise
  split
  · exact keeps_throw _
  · exact keeps_trap ..

theorem memWf_execRtake {d a : BitVec 5} (e : execRtake d a s = .next t) : t.memWf := by
  refine memWf_run wf ((keeps_readX ..).bind fun _ => (keeps_openRing ..).bind fun _ => ?_) e
  dsimp only
  split
  · exact keeps_ringRaise ..
  · split
    · exact keeps_waitFor _
    · exact .ifThen (keeps_modCore _) (keeps_writeX ..)

theorem memWf_setMirror (c h t : Nat) (keep : Bool) : (setMirror s c h t keep).memWf := wf

theorem memWf_freeSlot (c h : Nat) : (freeSlot s c h).memWf := wf

theorem memWf_endPulled (c h : Nat) : (endPulled s c h).memWf := by
  unfold endPulled
  split
  · exact wf
  · dsimp only
    split
    · exact memWf_endSub (by exact wf) ..
    · exact wf

theorem memWf_execRrel {d a : BitVec 5} (e : execRrel d a s = .next t) : t.memWf := by
  have released : ∀ (c o : Nat) (stage : Bool) (f : Core → Core) (v : Word), Keeps (do
      mirrored c o fun s => freeSlot (endPulled s c o) c o
      if stage then modCore f
      writeX d v) := fun c o _ _ _ =>
    (keeps_mirrored _ _ fun _ wf => memWf_freeSlot (memWf_endPulled wf ..) ..).bind fun _ => .ifThen
      (keeps_modCore _) (keeps_writeX ..)
  refine memWf_run wf ((keeps_readX ..).bind fun _ => (keeps_openRing ..).bind fun _ => (keeps_need ..).bind fun _ =>
    keeps_pin.bind fun _ => ?_) e
  dsimp only
  split
  · split
    · exact released ..
    · exact .ifThen (keeps_waitFor _) ((keeps_emitM _).bind fun _ => (keeps_throw _).bind fun _ => released ..)
  · exact .ifThen (keeps_ringRaise ..) (released ..)

omit wf in
theorem keeps_checkAll (nd : Rights) (ps : List (Nat × Nat)) : Keeps (checkAll nd ps) := by
  unfold checkAll
  refine keeps_get.bind fun _ => ?_
  split
  · exact keeps_waitFor ..
  · dsimp only
    split
    · exact keeps_xlatFault ..
    · split
      · exact keeps_waitFor ..
      · exact keeps_pure _

theorem memWf_execKroute {d a b : BitVec 5} (e : execKroute d a b s = .next t) : t.memWf := by
  refine memWf_run wf ((keeps_readX ..).bind fun _ => (keeps_readX ..).bind fun _ => (keeps_need ..).bind fun _ =>
    (keeps_checkAll ..).bind fun _ => .bind (keeps_mapM' (fun _ => (keeps_checkParts ..).bind fun _ =>
      (keeps_readParts ..).bind fun _ => keeps_pure _) _) fun _ => ?_) e
  split
  · exact keeps_trap ..
  · refine (keeps_need ..).bind fun _ => ?_
    split
    · exact keeps_waitFor _
    · exact (keeps_request ..).bind fun _ => keeps_writeX ..

omit wf in
theorem keeps_lawAddr (x : Word) : Keeps (lawAddr x) := by
  unfold lawAddr
  split
  · exact (keeps_need ..).bind fun _ => keeps_get.bind fun _ => keeps_pure _
  · exact keeps_pure _

theorem memWf_lawTouch (w : LawWho) (commit first : Bool) (x : Xlat) : (lawTouch s w commit first x).memWf := by
  unfold lawTouch
  dsimp only
  split
  · exact (memWf_allocSector (memWf_fetchSector (memWf_ite (memWf_countAccess (memWf_applyWalk wf ..) ..)
      (memWf_applyWalk wf ..)) ..) ..)
  · exact memWf_fetchSector (memWf_ite (memWf_countAccess (memWf_applyWalk wf ..) ..) (memWf_applyWalk wf ..)) ..

theorem memWf_lawXlate {w : LawWho} {commit first : Bool} {ps : List (Nat × Nat)} {xs : List ((Nat × Nat) × Nat)}
    (e : lawXlate s w commit first ps = .ok (xs, t)) : t.memWf := by
  induction ps generalizing s first xs with
  | nil => grind [lawXlate]
  | cons p ps ih => grind [lawXlate, memWf_lawTouch]

theorem memWf_lawBytes {v : Nat} {ps : List ((Nat × Nat) × Nat)} {w : LawWho} {p : LawPlace} {commit : Bool} {n : Nat}
    (e : lawBytes s w p commit n = .ok (v, ps, t)) : t.memWf := by
  cases p <;> grind [lawBytes, → memWf_lawXlate]

theorem memWf_lawLookup {a' : _} {x i : Nat} (e : lawLookup s x i = .ok (a', t)) : t.memWf := by
  unfold lawLookup at e
  split at e
  · cases e
  next eq1 =>
    have wf2 := memWf_dispRead wf eq1
    dsimp only at e
    split at e
    · split at e
      · split at e
        · cases e; exact wf2
        · cases e; exact wf2
      · cases e; exact memWf_setCtx wf2 ..
    · cases e; exact wf2

theorem memWf_lawMonitor (w : LawWho) (c : LawCell) : (lawMonitor s w c).memWf := by
  unfold lawMonitor
  dsimp only
  split
  · exact memWf_monitorEvent wf ..
  · exact memWf_monitorEvent wf ..

theorem memWf_lawOpen {a' : _} {w : LawWho} {p : LawPlace} {idx : Option Nat} {commit : Bool}
    (e : lawOpen s w p idx commit = .ok (a', t)) : t.memWf := by
  unfold lawOpen at e
  split at e
  · cases e
  · dsimp only at e
    split at e
    · cases e
    · cases e
    next eq3 =>
      have wf4 := memWf_lawLookup wf eq3
      split at e
      · cases e
      · split at e
        · cases e
        · split at e
          · cases e
          next eq5 =>
            have wf6 := memWf_lawBytes wf4 eq5
            cases e; exact memWf_ite (memWf_lawMonitor wf6 ..) wf6

theorem memWf_lawWriteParts (w : LawWho) (gate : Bool) (ps : List ((Nat × Nat) × Nat)) (v : Nat) :
    (lawWriteParts s w gate ps v).memWf := by
  induction ps generalizing s v with
  | nil => exact wf
  | cons p ps ih =>
    have held : ∀ seed : Word, (if gate then addHold s w.who (homeSlice s seed p.2) (p.2 / 32) else s).memWf := fun
      seed => by
      split
      · exact memWf_addHold wf ..
      · exact wf
    refine ih ?_ _
    cases written : writePa (if gate then addHold s w.who (homeSlice s (s.ctx w.ctx).seed p.2) (p.2 / 32) else s)
        (s.ctx w.ctx).seed p.2 p.1.2 (v % 256 ^ p.1.2) with
    | none => exact held _
    | some u => exact memWf_writePa (held _) written

theorem memWf_lawStore (w : LawWho) (gate : Bool) (c : LawCell) (o : LawObj) : (lawStore s w gate c o).memWf := by
  unfold lawStore
  split
  · exact memWf_setCore wf ..
  · exact memWf_lawWriteParts wf ..

end

section
/-! ### The law words and the register words -/

variable {s t : State} {α β : Type} (wf : s.memWf)
include wf

theorem memWf_lawAct (w : LawWho) (c : LawCell) (a : LawEval) : (lawAct s w c a).memWf := by
  unfold lawAct
  split
  · exact wf
  · dsimp only
    split
    · exact wf
    · exact memWf_emit wf ..
    · split
      · split
        · exact memWf_unitSend wf ..
        · exact memWf_unitSend wf ..
      · exact memWf_lawError wf ..
    · exact memWf_emit wf ..

theorem memWf_lawCommit {a' b' : _} {w : LawWho} {gate : Bool} {p : LawPlace} {f : LawChange}
    (e : lawCommit s w gate p f = .ok (a', b', t)) : t.memWf := by
  unfold lawCommit at e
  split at e
  · cases e
  next eq1 =>
    have wf2 := memWf_lawOpen wf eq1
    dsimp only at e
    split at e
    · cases e
    · split at e
      · cases e
      · cases e; exact memWf_lawAct (memWf_lawStore wf2 ..) ..

omit wf in
theorem keeps_lawStopM (stop : LawStop) : Keeps (lawStopM stop : M α) := by
  unfold lawStopM
  split
  · exact keeps_throw _
  · exact keeps_trap ..
  · exact keeps_waitFor _
  · exact keeps_waitFor _

omit wf in
theorem keeps_lawM (x : Word) (regs : List Nat) (f : LawChange) : Keeps (lawM x regs f) := by
  refine (keeps_lawAddr _).bind fun _ => keeps_pin.bind fun _ => Keeps.getBind fun s wf => ?_
  split
  · exact wf
  · split
    · exact (keeps_lawStopM _).ends s wf
    next c a u committed =>
      exact ((keeps_request 1 regs).bind fun _ => keeps_pure (c, a)).ends u (memWf_lawCommit wf committed)

theorem memWf_execLwrd {d a : BitVec 5} (e : execLwrd d a s = .next t) : t.memWf := by
  refine memWf_run wf ?_ e
  refine (keeps_readX ..).bind fun _ => ?_
  refine (keeps_lawM ..).bind fun _ => ?_
  split
  · exact keeps_writeX ..

theorem memWf_execLwrdx {d a : BitVec 5} (e : execLwrdx d a s = .next t) : t.memWf := by
  refine memWf_run wf ?_ e
  refine (keeps_readX ..).bind fun _ => ?_
  refine (keeps_lawM ..).bind fun _ => ?_
  split
  · exact (keeps_writeX ..).bind fun _ => keeps_writeX ..

theorem memWf_execLwpeek {d a : BitVec 5} (e : execLwpeek d a s = .next t) : t.memWf := by
  refine memWf_run wf ((keeps_readX ..).bind fun _ => (keeps_lawAddr ..).bind fun _ => Keeps.getBind fun s wf => ?_) e
  split
  · exact wf
  · split
    · exact (keeps_lawStopM _).ends s wf
    next opened =>
      exact ((keeps_request ..).bind fun _ => keeps_writeX ..).ends _ (memWf_lawOpen wf opened)

theorem memWf_execLwadd {d a b : BitVec 5} (e : execLwadd d a b s = .next t) : t.memWf := by
  refine memWf_run wf ?_ e
  refine (keeps_readX ..).bind fun _ => ?_
  refine (keeps_readX ..).bind fun _ => ?_
  refine (keeps_lawM ..).bind fun _ => ?_
  split
  · exact keeps_writeX ..

theorem memWf_execLwset {d a b : BitVec 5} (e : execLwset d a b s = .next t) : t.memWf := by
  refine memWf_run wf ?_ e
  refine (keeps_readX ..).bind fun _ => ?_
  refine (keeps_readX ..).bind fun _ => ?_
  refine (keeps_lawM ..).bind fun _ => ?_
  split
  · exact keeps_writeX ..

theorem memWf_execLwinit {d a b : BitVec 5} (e : execLwinit d a b s = .next t) : t.memWf := by
  refine memWf_run wf ((keeps_readX ..).bind fun _ => (keeps_readX ..).bind fun _ => (keeps_lawAddr ..).bind fun _ =>
    (keeps_need ..).bind fun _ => keeps_pin.bind fun _ => Keeps.getBind fun s wf => ?_) e
  split
  · exact wf
  · split
    · exact (keeps_lawStopM _).ends s wf
    next opened =>
      exact ((keeps_request ..).bind fun _ => keeps_writeX ..).ends _ (memWf_lawStore (memWf_lawOpen wf opened) ..)

theorem memWf_execLwdep {a b : BitVec 5} (e : execLwdep a b s = .next t) : t.memWf :=
    memWf_run wf ((keeps_readX ..).bind fun _ => (keeps_readX ..).bind fun _ => (keeps_need ..).bind fun _ =>
    (keeps_lawM ..).bind fun _ => keeps_pure _) e

theorem memWf_execLwnow {d a : BitVec 5} (e : execLwnow d a s = .next t) : t.memWf := memWf_run wf (keeps_writeX ..) e

theorem memWf_execLwstep {d a b : BitVec 5} (e : execLwstep d a b s = .next t) : t.memWf := by
  refine memWf_run wf ?_ e
  refine (keeps_readX ..).bind fun _ => ?_
  dsimp only
  split
  · exact keeps_trap ..
  · refine (keeps_need ..).bind fun _ => ?_
    refine (keeps_pin ..).bind fun _ => ?_
    split
    · exact Keeps.ifThen (keeps_waitFor ..) ((keeps_emitM ..).bind fun _ => keeps_throw _)
    · exact keeps_get.bind fun _ =>
        Keeps.ifThen (keeps_waitFor ..) ((Keeps.modify fun _ wf => (memWf_setCtx wf ..)).bind fun _ =>
        (keeps_request ..).bind fun _ => keeps_writeX ..)

theorem memWf_execLwsweep {d a b : BitVec 5} (e : execLwsweep d a b s = .next t) : t.memWf := by
  refine memWf_run wf ?_ e
  refine (keeps_readX ..).bind fun _ => ?_
  refine (keeps_readX ..).bind fun _ => ?_
  refine (keeps_need ..).bind fun _ => ?_
  refine (keeps_pin ..).bind fun _ => ?_
  refine keeps_get.bind fun _ => ?_
  refine Keeps.ifThen (keeps_waitFor ..) ?_
  dsimp only
  split
  · exact (keeps_need ..).bind fun _ => (Keeps.modify fun _ wf => (memWf_setCtx wf ..)).bind fun _ =>
      (keeps_request ..).bind fun _ => keeps_writeX ..
  · refine (keeps_need ..).bind fun _ => ?_
    refine (keeps_need ..).bind fun _ => ?_
    refine (keeps_request ..).bind fun _ => ?_
    split
    · exact keeps_writeX ..
    · split
      · exact keeps_writeX ..
      · split
        · exact keeps_writeX ..
        · exact (Keeps.modify fun _ wf => (memWf_setCtx wf ..)).bind fun _ => keeps_writeX ..

theorem memWf_execMsend {d a : BitVec 5} (e : execMsend d a s = .next t) : t.memWf := by
  refine memWf_run wf ?_ e
  refine (keeps_readX ..).bind fun _ => ?_
  refine (keeps_need ..).bind fun _ => ?_
  refine (keeps_need ..).bind fun _ => ?_
  split
  · exact keeps_waitFor ..
  · refine (keeps_modMe ..).bind fun _ => ?_
    refine keeps_get.bind fun _ => ?_
    dsimp only
    split
    · split
      · split
        · exact (keeps_modCore ..).bind fun _ => keeps_writeX ..
        · exact (keeps_pin ..).bind fun _ => (Keeps.modify fun _ wf => (memWf_sendOut wf ..)).bind fun _ =>
            keeps_writeX ..
      · exact (Keeps.modify fun _ wf => (memWf_sendOut wf ..)).bind fun _ => keeps_writeX ..
    · exact (Keeps.modify fun _ wf => (memWf_sendOut wf ..)).bind fun _ => keeps_writeX ..

theorem memWf_endActivation (c : Nat) : (endActivation s c).memWf := by
  unfold endActivation
  split
  · exact wf
  · dsimp only
    exact memWf_nudgeStop (memWf_setCore (memWf_pinState (memWf_monitorEvent wf ..)) ..) ..

theorem memWf_execHend (e : execHend s = .next t) : t.memWf := by
  refine memWf_run wf ?_ e
  refine (keeps_need ..).bind fun _ => ?_
  split
  · exact keeps_illegal ..
  · refine (keeps_need ..).bind fun _ => ?_
    split
    · exact Keeps.modify fun _ wf => (memWf_endActivation wf ..)
    · exact keeps_waitFor ..

theorem memWf_execAnxput {a b : BitVec 5} (e : execAnxput a b s = .next t) : t.memWf := by
  refine memWf_run wf ?_ e
  refine (keeps_readX ..).bind fun _ => ?_
  refine (keeps_readX ..).bind fun _ => ?_
  refine (keeps_need ..).bind fun _ => ?_
  split
  · exact keeps_trap ..
  · refine (keeps_need ..).bind fun _ => ?_
    refine (keeps_need ..).bind fun _ => ?_
    refine (keeps_need ..).bind fun _ => ?_
    refine (keeps_checkLocal ..).bind fun _ => ?_
    refine (keeps_checkPlaced ..).bind fun _ => ?_
    dsimp only
    split
    · exact keeps_waitFor ..
    · exact Keeps.modify fun _ wf => (memWf_setCore wf ..)

theorem memWf_execAnxend (e : execAnxend s = .next t) : t.memWf := by
  refine memWf_run wf ((keeps_need ..).bind fun _ => keeps_get.bind fun _ => ?_) e
  split
  · exact keeps_trap ..
  · refine (keeps_need ..).bind fun _ => ?_
    split
    · refine Keeps.modify fun u wf => ?_
      have ended := memWf_endActivation wf u.cid
      dsimp only
      split <;> exact ended
    · exact keeps_waitFor _

theorem memWf_execFence {v c : BitVec 1} (e : execFence v c s = .next t) : t.memWf := by
  refine memWf_run wf ?_ e
  split
  · exact keeps_waitFor ..
  · split
    · exact keeps_waitFor ..
    · exact keeps_pure _

theorem memWf_execIsync (e : execIsync s = .next t) : t.memWf := memWf_run wf (keeps_modMe ..) e

theorem memWf_execBkany {a : BitVec 5} {o : BitVec 15} (e : execBkany a o s = .next t) : t.memWf := by
  refine memWf_run wf ?_ e
  split
  · exact keeps_goTo ..
  · exact keeps_pure _

theorem memWf_execBkall {a : BitVec 5} {o : BitVec 15} (e : execBkall a o s = .next t) : t.memWf := by
  refine memWf_run wf ?_ e
  split
  · exact keeps_goTo ..
  · exact keeps_pure _

omit wf in
theorem keeps_sregOpen (n : Nat) (write : Bool) : Keeps (sregOpen n write) := by
  unfold sregOpen
  refine keeps_get.bind fun _ => ?_
  split
  · exact keeps_illegal ..
  · exact (keeps_need ..).bind fun _ => keeps_pure _

theorem memWf_execSrrd {d : BitVec 5} {n : BitVec 12} (e : execSrrd d n s = .next t) : t.memWf :=
    memWf_run wf ((keeps_sregOpen ..).bind fun _ => keeps_writeX ..) e

omit wf in
theorem keeps_sregWrite (d a : BitVec 5) (n : BitVec 12) (clr : Bool) (f : Word → Word → Word) : Keeps
    (sregWrite d a n clr f) :=
    (keeps_sregOpen ..).bind fun _ => (keeps_readX ..).bind fun _ => (keeps_modMe ..).bind fun _ => keeps_writeX ..

theorem memWf_execSrwr {d a : BitVec 5} {n : BitVec 12} (e : execSrwr d a n s = .next t) : t.memWf :=
    memWf_run wf (keeps_sregWrite ..) e

theorem memWf_execSrset {d a : BitVec 5} {n : BitVec 12} (e : execSrset d a n s = .next t) : t.memWf :=
    memWf_run wf (keeps_sregWrite ..) e

theorem memWf_execSrclr {d a : BitVec 5} {n : BitVec 12} (e : execSrclr d a n s = .next t) : t.memWf :=
    memWf_run wf (keeps_sregWrite ..) e

omit wf in
theorem keeps_intOp (d a b : BitVec 5) (f : Word → Word → Word) : Keeps (intOp d a b f) :=
    (keeps_readX ..).bind fun _ => (keeps_readX ..).bind fun _ => keeps_writeX ..

theorem memWf_execAdd {d a b : BitVec 5} (e : execAdd d a b s = .next t) : t.memWf := memWf_run wf (keeps_intOp ..) e

theorem memWf_execSub {d a b : BitVec 5} (e : execSub d a b s = .next t) : t.memWf := memWf_run wf (keeps_intOp ..) e

theorem memWf_execAnd {d a b : BitVec 5} (e : execAnd d a b s = .next t) : t.memWf := memWf_run wf (keeps_intOp ..) e

theorem memWf_execOr {d a b : BitVec 5} (e : execOr d a b s = .next t) : t.memWf := memWf_run wf (keeps_intOp ..) e

theorem memWf_execXor {d a b : BitVec 5} (e : execXor d a b s = .next t) : t.memWf := memWf_run wf (keeps_intOp ..) e

theorem memWf_execSll {d a b : BitVec 5} (e : execSll d a b s = .next t) : t.memWf := memWf_run wf (keeps_intOp ..) e

theorem memWf_execSrl {d a b : BitVec 5} (e : execSrl d a b s = .next t) : t.memWf := memWf_run wf (keeps_intOp ..) e

theorem memWf_execSra {d a b : BitVec 5} (e : execSra d a b s = .next t) : t.memWf := memWf_run wf (keeps_intOp ..) e

theorem memWf_execMul {d a b : BitVec 5} (e : execMul d a b s = .next t) : t.memWf := memWf_run wf (keeps_intOp ..) e

theorem memWf_execMulh {d a b : BitVec 5} (e : execMulh d a b s = .next t) : t.memWf :=
    memWf_run wf (keeps_intOp ..) e

theorem memWf_execMulhu {d a b : BitVec 5} (e : execMulhu d a b s = .next t) : t.memWf :=
    memWf_run wf (keeps_intOp ..) e

theorem memWf_execDiv {d a b : BitVec 5} (e : execDiv d a b s = .next t) : t.memWf := memWf_run wf (keeps_intOp ..) e

theorem memWf_execDivu {d a b : BitVec 5} (e : execDivu d a b s = .next t) : t.memWf :=
    memWf_run wf (keeps_intOp ..) e

theorem memWf_execRem {d a b : BitVec 5} (e : execRem d a b s = .next t) : t.memWf := memWf_run wf (keeps_intOp ..) e

theorem memWf_execRemu {d a b : BitVec 5} (e : execRemu d a b s = .next t) : t.memWf :=
    memWf_run wf (keeps_intOp ..) e

theorem memWf_execMin {d a b : BitVec 5} (e : execMin d a b s = .next t) : t.memWf := memWf_run wf (keeps_intOp ..) e

theorem memWf_execMax {d a b : BitVec 5} (e : execMax d a b s = .next t) : t.memWf := memWf_run wf (keeps_intOp ..) e

theorem memWf_execMinu {d a b : BitVec 5} (e : execMinu d a b s = .next t) : t.memWf :=
    memWf_run wf (keeps_intOp ..) e

theorem memWf_execMaxu {d a b : BitVec 5} (e : execMaxu d a b s = .next t) : t.memWf :=
    memWf_run wf (keeps_intOp ..) e

theorem memWf_execSlt {d a b : BitVec 5} (e : execSlt d a b s = .next t) : t.memWf := memWf_run wf (keeps_intOp ..) e

theorem memWf_execSltu {d a b : BitVec 5} (e : execSltu d a b s = .next t) : t.memWf :=
    memWf_run wf (keeps_intOp ..) e

theorem memWf_execSel {d a b : BitVec 5} (e : execSel d a b s = .next t) : t.memWf := memWf_run wf (keeps_intOp ..) e

omit wf in
theorem keeps_intUn (d a : BitVec 5) (f : Word → Word) : Keeps (intUn d a f) := (keeps_readX ..).bind fun _ =>
    keeps_writeX ..

theorem memWf_execClz {d a : BitVec 5} (e : execClz d a s = .next t) : t.memWf := memWf_run wf (keeps_intUn ..) e

theorem memWf_execCtz {d a : BitVec 5} (e : execCtz d a s = .next t) : t.memWf := memWf_run wf (keeps_intUn ..) e

theorem memWf_execPopc {d a : BitVec 5} (e : execPopc d a s = .next t) : t.memWf := memWf_run wf (keeps_intUn ..) e

theorem memWf_execAddi {d a : BitVec 5} {i : BitVec 15} (e : execAddi d a i s = .next t) : t.memWf :=
    memWf_run wf (keeps_intUn ..) e

theorem memWf_execAndi {d a : BitVec 5} {i : BitVec 15} (e : execAndi d a i s = .next t) : t.memWf :=
    memWf_run wf (keeps_intUn ..) e

theorem memWf_execOri {d a : BitVec 5} {i : BitVec 15} (e : execOri d a i s = .next t) : t.memWf :=
    memWf_run wf (keeps_intUn ..) e

theorem memWf_execXori {d a : BitVec 5} {i : BitVec 15} (e : execXori d a i s = .next t) : t.memWf :=
    memWf_run wf (keeps_intUn ..) e

theorem memWf_execSlli {d a : BitVec 5} {n : BitVec 6} (e : execSlli d a n s = .next t) : t.memWf :=
    memWf_run wf (keeps_intUn ..) e

theorem memWf_execSrli {d a : BitVec 5} {n : BitVec 6} (e : execSrli d a n s = .next t) : t.memWf :=
    memWf_run wf (keeps_intUn ..) e

theorem memWf_execSrai {d a : BitVec 5} {n : BitVec 6} (e : execSrai d a n s = .next t) : t.memWf :=
    memWf_run wf (keeps_intUn ..) e

theorem memWf_execSlti {d a : BitVec 5} {i : BitVec 15} (e : execSlti d a i s = .next t) : t.memWf :=
    memWf_run wf (keeps_intUn ..) e

theorem memWf_execSltiu {d a : BitVec 5} {i : BitVec 15} (e : execSltiu d a i s = .next t) : t.memWf :=
    memWf_run wf (keeps_intUn ..) e

theorem memWf_execLui {d : BitVec 5} {i : BitVec 20} (e : execLui d i s = .next t) : t.memWf :=
    memWf_run wf (keeps_writeX ..) e

omit wf in
theorem keeps_fpBin (d a b : BitVec 5) (p : BitVec 2) (f : Val → Val → Nat → F Val) : Keeps (fpBin d a b p f) :=
    (keeps_readX ..).bind fun _ => (keeps_readX ..).bind fun _ => keeps_get.bind fun _ =>
    (keeps_liftF ..).bind fun _ => keeps_writeX ..

theorem memWf_execFadd {d a b : BitVec 5} {p : BitVec 2} (e : execFadd d a b p s = .next t) : t.memWf :=
    memWf_run wf (keeps_fpBin ..) e

theorem memWf_execFsub {d a b : BitVec 5} {p : BitVec 2} (e : execFsub d a b p s = .next t) : t.memWf :=
    memWf_run wf (keeps_fpBin ..) e

theorem memWf_execFmul {d a b : BitVec 5} {p : BitVec 2} (e : execFmul d a b p s = .next t) : t.memWf :=
    memWf_run wf (keeps_fpBin ..) e

theorem memWf_execFdiv {d a b : BitVec 5} {p : BitVec 2} (e : execFdiv d a b p s = .next t) : t.memWf :=
    memWf_run wf (keeps_fpBin ..) e

theorem memWf_execFsqrt {d a : BitVec 5} {p : BitVec 2} (e : execFsqrt d a p s = .next t) : t.memWf :=
    memWf_run wf ((keeps_readX ..).bind fun _ => (keeps_liftF ..).bind fun _ => keeps_writeX ..) e

omit wf in
theorem keeps_fpRaw (d a b : BitVec 5) (p : BitVec 2) (f : Fmt → Nat → Nat → F Nat) : Keeps (fpRaw d a b p f) :=
    (keeps_readX ..).bind fun _ => (keeps_readX ..).bind fun _ => (keeps_liftF ..).bind fun _ => keeps_writeX ..

theorem memWf_execFmin {d a b : BitVec 5} {p : BitVec 2} (e : execFmin d a b p s = .next t) : t.memWf :=
    memWf_run wf (keeps_fpRaw ..) e

theorem memWf_execFmax {d a b : BitVec 5} {p : BitVec 2} (e : execFmax d a b p s = .next t) : t.memWf :=
    memWf_run wf (keeps_fpRaw ..) e

theorem memWf_execFma {d a b : BitVec 5} {p : BitVec 2} (e : execFma d a b p s = .next t) : t.memWf :=
    memWf_run wf ((keeps_readX ..).bind fun _ => (keeps_readX ..).bind fun _ => (keeps_liftF ..).bind fun _ =>
    keeps_writeX ..) e

theorem memWf_execFcmp {d a b : BitVec 5} {p : BitVec 2} (e : execFcmp d a b p s = .next t) : t.memWf :=
    memWf_run wf (keeps_fpRaw ..) e

theorem memWf_execFcvt {d a k : BitVec 5} {p : BitVec 2} (e : execFcvt d a k p s = .next t) : t.memWf :=
    memWf_run wf ((keeps_readX ..).bind fun _ => (keeps_liftF ..).bind fun _ => keeps_writeX ..) e

theorem memWf_execFclass {d a : BitVec 5} {p : BitVec 2} (e : execFclass d a p s = .next t) : t.memWf :=
    memWf_run wf ((keeps_readX ..).bind fun _ => keeps_writeX ..) e

theorem memWf_execFsgn {d a b : BitVec 5} {p : BitVec 2} (e : execFsgn d a b p s = .next t) : t.memWf :=
    memWf_run wf (keeps_fpRaw ..) e

omit wf in
theorem keeps_vecMap (d : BitVec 5) (w : Nat) (xs : List α) (f : α → F Nat) : Keeps (vecMap d w xs f) :=
    keeps_get.bind fun _ => (keeps_liftF ..).bind fun _ => keeps_writeV ..

omit wf in
theorem keeps_vecBin (d a b : BitVec 5) (w : Nat) (f : Nat → Nat → F Nat) : Keeps (vecBin d a b w f) :=
    (keeps_readV ..).bind fun _ => (keeps_readV ..).bind fun _ => keeps_vecMap ..

omit wf in
theorem keeps_vintBin (d a b : BitVec 5) (t : BitVec 4) (f : Nat → Bool → Nat → Nat → F Nat) : Keeps
    (vintBin d a b t f) :=
    keeps_vecBin ..

theorem memWf_execVadd {d a b : BitVec 5} {i : BitVec 4} (e : execVadd d a b i s = .next t) : t.memWf :=
    memWf_run wf (keeps_vintBin ..) e

theorem memWf_execVsub {d a b : BitVec 5} {i : BitVec 4} (e : execVsub d a b i s = .next t) : t.memWf :=
    memWf_run wf (keeps_vintBin ..) e

theorem memWf_execVmul {d a b : BitVec 5} {i : BitVec 4} (e : execVmul d a b i s = .next t) : t.memWf :=
    memWf_run wf (keeps_vintBin ..) e

theorem memWf_execVmulh {d a b : BitVec 5} {i : BitVec 4} (e : execVmulh d a b i s = .next t) : t.memWf :=
    memWf_run wf (keeps_vintBin ..) e

theorem memWf_execVmin {d a b : BitVec 5} {i : BitVec 4} (e : execVmin d a b i s = .next t) : t.memWf :=
    memWf_run wf (keeps_vintBin ..) e

theorem memWf_execVmax {d a b : BitVec 5} {i : BitVec 4} (e : execVmax d a b i s = .next t) : t.memWf :=
    memWf_run wf (keeps_vintBin ..) e

theorem memWf_execVand {d a b : BitVec 5} {i : BitVec 4} (e : execVand d a b i s = .next t) : t.memWf :=
    memWf_run wf (keeps_vintBin ..) e

theorem memWf_execVor {d a b : BitVec 5} {i : BitVec 4} (e : execVor d a b i s = .next t) : t.memWf :=
    memWf_run wf (keeps_vintBin ..) e

theorem memWf_execVxor {d a b : BitVec 5} {i : BitVec 4} (e : execVxor d a b i s = .next t) : t.memWf :=
    memWf_run wf (keeps_vintBin ..) e

theorem memWf_execVshl {d a b : BitVec 5} {i : BitVec 4} (e : execVshl d a b i s = .next t) : t.memWf :=
    memWf_run wf (keeps_vintBin ..) e

theorem memWf_execVshr {d a b : BitVec 5} {i : BitVec 4} (e : execVshr d a b i s = .next t) : t.memWf :=
    memWf_run wf (keeps_vintBin ..) e

theorem memWf_execVsra {d a b : BitVec 5} {i : BitVec 4} (e : execVsra d a b i s = .next t) : t.memWf :=
    memWf_run wf (keeps_vintBin ..) e

omit wf in
theorem keeps_vecUn (d a : BitVec 5) (w : Nat) (f : Nat → F Nat) : Keeps (vecUn d a w f) :=
    (keeps_readV ..).bind fun _ => keeps_vecMap ..

theorem memWf_execVabs {d a : BitVec 5} {i : BitVec 4} (e : execVabs d a i s = .next t) : t.memWf :=
    memWf_run wf (keeps_vecUn ..) e

omit wf in
theorem keeps_readK (n : Nat) : Keeps (readK n) := keeps_get.bind fun _ => keeps_pure _

omit wf in
theorem keeps_writeK (n : Nat) (v : MReg) : Keeps (writeK n v) := keeps_modMe ..

omit wf in
theorem keeps_putMask (kd n : Nat) (l : List Nat) : Keeps (putMask kd n l) := (keeps_readK ..).bind fun _ =>
    keeps_writeK ..

end

section
/-! ### Vectors, prefixes, and the steps of walks, fills, copies and kiosks -/

variable {s t : State} {α β : Type} (wf : s.memWf)
include wf

omit wf in
theorem keeps_vecCmp (kd : BitVec 3) (a b : BitVec 5) (w : Nat) (f : Nat → Nat → F Bool) : Keeps (vecCmp kd a b w f) :=
    keeps_get.bind fun _ => (keeps_readV ..).bind fun _ => (keeps_readV ..).bind fun _ =>
    (keeps_liftF ..).bind fun _ => keeps_putMask ..

theorem memWf_execVcmp {c : BitVec 2} {k : BitVec 3} {a b : BitVec 5} {i : BitVec 4}
    (e : execVcmp c k a b i s = .next t) : t.memWf :=
    memWf_run wf (keeps_vecCmp ..) e

theorem memWf_execVsel {d a b : BitVec 5} {i : BitVec 4} (e : execVsel d a b i s = .next t) : t.memWf :=
    memWf_run wf ((keeps_readV ..).bind fun _ => (keeps_readV ..).bind fun _ => keeps_writeV ..) e

theorem memWf_execVadds {d a b : BitVec 5} {i : BitVec 4} (e : execVadds d a b i s = .next t) : t.memWf :=
    memWf_run wf (keeps_vintBin ..) e

theorem memWf_execVfadd {d a b : BitVec 5} {i : BitVec 4} (e : execVfadd d a b i s = .next t) : t.memWf :=
    memWf_run wf (keeps_vecBin ..) e

theorem memWf_execVfsub {d a b : BitVec 5} {i : BitVec 4} (e : execVfsub d a b i s = .next t) : t.memWf :=
    memWf_run wf (keeps_vecBin ..) e

theorem memWf_execVfmul {d a b : BitVec 5} {i : BitVec 4} (e : execVfmul d a b i s = .next t) : t.memWf :=
    memWf_run wf (keeps_vecBin ..) e

omit wf in
theorem keeps_vecTer (d a b : BitVec 5) (w : Nat) (f : Nat → Nat → Nat → F Nat) : Keeps (vecTer d a b w f) :=
    (keeps_readV ..).bind fun _ => (keeps_readV ..).bind fun _ => keeps_get.bind fun _ =>
    (keeps_readV ..).bind fun _ => keeps_vecMap ..

theorem memWf_execVfma {d a b : BitVec 5} {i : BitVec 4} (e : execVfma d a b i s = .next t) : t.memWf :=
    memWf_run wf (keeps_vecTer ..) e

theorem memWf_execVfmin {d a b : BitVec 5} {i : BitVec 4} (e : execVfmin d a b i s = .next t) : t.memWf :=
    memWf_run wf (keeps_vecBin ..) e

theorem memWf_execVfmax {d a b : BitVec 5} {i : BitVec 4} (e : execVfmax d a b i s = .next t) : t.memWf :=
    memWf_run wf (keeps_vecBin ..) e

theorem memWf_execVfcmp {c : BitVec 2} {k : BitVec 3} {a b : BitVec 5} {i : BitVec 4}
    (e : execVfcmp c k a b i s = .next t) : t.memWf :=
    memWf_run wf (keeps_vecCmp ..) e

theorem memWf_execVfabs {d a : BitVec 5} {i : BitVec 4} (e : execVfabs d a i s = .next t) : t.memWf :=
    memWf_run wf (keeps_vecUn ..) e

theorem memWf_execVfdot {d a b : BitVec 5} {i : BitVec 4} (e : execVfdot d a b i s = .next t) : t.memWf :=
    memWf_run wf ((keeps_readV ..).bind fun _ => (keeps_readV ..).bind fun _ => (keeps_readV ..).bind fun _ =>
    keeps_vecMap ..) e

omit wf in
theorem keeps_cvtSource (a : BitVec 5) (dt st : BitVec 4) : Keeps (cvtSource a dt st) := by
  unfold cvtSource
  refine keeps_get.bind fun _ => ?_
  split
  · exact keeps_pure _

omit wf in
theorem keeps_cvtGroup (d : BitVec 5) (dt st : BitVec 4) (xs : List α) (f : α → F Nat) : Keeps
    (cvtGroup d dt st xs f) :=
  keeps_get.bind fun _ => (keeps_liftF ..).bind fun _ => keeps_modMe _

theorem memWf_execVcvt {d a : BitVec 5} {x : BitVec 1} {ev i : BitVec 4} (e : execVcvt d a x ev i s = .next t) :
    t.memWf :=
    memWf_run wf ((keeps_cvtSource ..).bind fun _ => keeps_cvtGroup ..) e

theorem memWf_execVquant {d a : BitVec 5} {x : BitVec 1} {ev i : BitVec 4} (e : execVquant d a x ev i s = .next t)
    : t.memWf := by
  refine memWf_run wf ?_ e
  refine (keeps_cvtSource ..).bind fun _ => ?_
  refine (keeps_readV ..).bind fun _ => ?_
  dsimp only
  split
  · exact (keeps_liftF ..).bind fun _ => keeps_writeV ..
  · exact (keeps_liftF ..).bind fun _ => (keeps_writeV ..).bind fun _ => (keeps_liftF ..).bind fun _ =>
      keeps_writeV ..

theorem memWf_execVdeq {d a : BitVec 5} {x : BitVec 1} {ev i : BitVec 4} (e : execVdeq d a x ev i s = .next t) :
    t.memWf :=
    memWf_run wf ((keeps_cvtSource ..).bind fun _ => (keeps_readV ..).bind fun _ => keeps_cvtGroup ..) e

theorem memWf_execVbcast {d a b : BitVec 5} {i : BitVec 4} (e : execVbcast d a b i s = .next t) : t.memWf :=
    memWf_run wf ((keeps_readV ..).bind fun _ => (keeps_readX ..).bind fun _ => keeps_vecMap ..) e

theorem memWf_execVperm {d a b : BitVec 5} {i : BitVec 4} (e : execVperm d a b i s = .next t) : t.memWf :=
    memWf_run wf ((keeps_readV ..).bind fun _ => keeps_vecMap ..) e

theorem memWf_execVslide {d a b : BitVec 5} {i : BitVec 4} (e : execVslide d a b i s = .next t) : t.memWf :=
    memWf_run wf ((keeps_readV ..).bind fun _ => (keeps_readX ..).bind fun _ => keeps_vecMap ..) e

theorem memWf_execViota {d a : BitVec 5} {i : BitVec 4} (e : execViota d a i s = .next t) : t.memWf :=
    memWf_run wf ((keeps_readX ..).bind fun _ => keeps_vecMap ..) e

theorem memWf_execVcompress {d a : BitVec 5} {i : BitVec 4} (e : execVcompress d a i s = .next t) : t.memWf :=
    memWf_run wf ((keeps_readV ..).bind fun _ => keeps_writeV ..) e

theorem memWf_execVexpand {d a : BitVec 5} {i : BitVec 4} (e : execVexpand d a i s = .next t) : t.memWf :=
    memWf_run wf ((keeps_readV ..).bind fun _ => keeps_writeV ..) e

theorem memWf_execVred {d a o : BitVec 5} {i : BitVec 4} (e : execVred d a o i s = .next t) : t.memWf :=
    memWf_run wf ((keeps_readV ..).bind fun _ => (keeps_liftF ..).bind fun _ => keeps_writeV ..) e

theorem memWf_execVscan {d a o : BitVec 5} {i : BitVec 4} (e : execVscan d a o i s = .next t) : t.memWf :=
    memWf_run wf ((keeps_readV ..).bind fun _ => (keeps_liftF ..).bind fun _ => keeps_writeV ..) e

theorem memWf_execVtopk {k : BitVec 3} {a b : BitVec 5} {i : BitVec 4} (e : execVtopk k a b i s = .next t) : t.memWf :=
    memWf_run wf ((keeps_readV ..).bind fun _ => (keeps_readX ..).bind fun _ => keeps_putMask ..) e

theorem memWf_execVzip {d a b : BitVec 5} {i : BitVec 4} (e : execVzip d a b i s = .next t) : t.memWf :=
    memWf_run wf ((keeps_readV ..).bind fun _ => (keeps_readV ..).bind fun _ => (keeps_liftF ..).bind fun _ =>
    keeps_modMe ..) e

omit wf in
theorem keeps_sfu (d a : BitVec 5) (t : BitVec 4) (f : Val → F Val) : Keeps (sfu d a t f) :=
    keeps_get.bind fun _ => keeps_vecUn ..

theorem memWf_execVexp2 {d a : BitVec 5} {i : BitVec 4} (e : execVexp2 d a i s = .next t) : t.memWf :=
    memWf_run wf (keeps_sfu ..) e

theorem memWf_execVlog2 {d a : BitVec 5} {i : BitVec 4} (e : execVlog2 d a i s = .next t) : t.memWf :=
    memWf_run wf (keeps_sfu ..) e

theorem memWf_execVrcp {d a : BitVec 5} {i : BitVec 4} (e : execVrcp d a i s = .next t) : t.memWf :=
    memWf_run wf (keeps_sfu ..) e

theorem memWf_execVrsqrt {d a : BitVec 5} {i : BitVec 4} (e : execVrsqrt d a i s = .next t) : t.memWf :=
    memWf_run wf (keeps_sfu ..) e

theorem memWf_execVsin {d a : BitVec 5} {i : BitVec 4} (e : execVsin d a i s = .next t) : t.memWf :=
    memWf_run wf (keeps_sfu ..) e

theorem memWf_execVtanh {d a : BitVec 5} {i : BitVec 4} (e : execVtanh d a i s = .next t) : t.memWf :=
    memWf_run wf (keeps_sfu ..) e

theorem memWf_execVsigm {d a : BitVec 5} {i : BitVec 4} (e : execVsigm d a i s = .next t) : t.memWf :=
    memWf_run wf (keeps_sfu ..) e

omit wf in
theorem keeps_maskOp (d : BitVec 5) (r : MReg) : Keeps (maskOp d r) := keeps_get.bind fun _ => keeps_writeK ..

theorem memWf_execKand {d a b : BitVec 5} (e : execKand d a b s = .next t) : t.memWf :=
    memWf_run wf (keeps_maskOp ..) e

theorem memWf_execKor {d a b : BitVec 5} (e : execKor d a b s = .next t) : t.memWf := memWf_run wf (keeps_maskOp ..) e

theorem memWf_execKxor {d a b : BitVec 5} (e : execKxor d a b s = .next t) : t.memWf :=
    memWf_run wf (keeps_maskOp ..) e

theorem memWf_execKnot {d a : BitVec 5} (e : execKnot d a s = .next t) : t.memWf := memWf_run wf (keeps_maskOp ..) e

theorem memWf_execKpopc {d a : BitVec 5} (e : execKpopc d a s = .next t) : t.memWf := memWf_run wf (keeps_writeX ..) e

theorem memWf_execKfirst {d a : BitVec 5} (e : execKfirst d a s = .next t) : t.memWf :=
    memWf_run wf (keeps_writeX ..) e

theorem memWf_execKmov {d a v : BitVec 5} (e : execKmov d a v s = .next t) : t.memWf := by
  refine memWf_run wf ?_ e
  split
  · exact keeps_maskOp ..
  · exact keeps_maskOp ..
  · exact keeps_writeV ..

theorem memWf_execVmvx {d a : BitVec 5} {i : BitVec 4} (e : execVmvx d a i s = .next t) : t.memWf :=
    memWf_run wf ((keeps_readX ..).bind fun _ => keeps_vecMap ..) e

theorem memWf_execVmvs {d a b : BitVec 5} {i : BitVec 4} (e : execVmvs d a b i s = .next t) : t.memWf :=
    memWf_run wf ((keeps_readV ..).bind fun _ => (keeps_readX ..).bind fun _ => keeps_writeX ..) e

theorem memWf_execVmov {d a : BitVec 5} {i : BitVec 4} (e : execVmov d a i s = .next t) : t.memWf :=
    memWf_run wf (keeps_vecUn ..) e

theorem memWf_execTmodeOn {n k : BitVec 1} {i : BitVec 4} (e : execTmodeOn n k i s = .next t) : t.memWf :=
    memWf_run wf (keeps_modMe ..) e

theorem memWf_execTmodeOff (e : execTmodeOff s = .next t) : t.memWf := memWf_run wf (keeps_modMe ..) e

theorem memWf_execTzero {i : BitVec 1} (e : execTzero i s = .next t) : t.memWf := by
  refine memWf_run wf ?_ e
  split
  · exact keeps_modMe ..
  · exact keeps_illegal ..

omit wf in
theorem keeps_outer (t : BitVec 1) (a b : BitVec 5) (y : BitVec 4) (scales : List Nat)
    (f : Nat → Nat → Nat → List Nat → List Nat → F Nat) : Keeps (outer t a b y scales f) :=
    keeps_get.bind fun _ => (keeps_liftF ..).bind fun _ => keeps_modMe ..

theorem memWf_execTop {i : BitVec 1} {a b : BitVec 5} {y : BitVec 4} (e : execTop i a b y s = .next t) : t.memWf := by
  refine memWf_run wf ?_ e
  dsimp only
  split
  · exact keeps_outer ..
  · exact keeps_illegal ..

theorem memWf_execTops {i : BitVec 1} {sc : BitVec 4} {a b : BitVec 5} {y : BitVec 4}
    (e : execTops i sc a b y s = .next t) : t.memWf := by
  refine memWf_run wf ?_ e
  split
  · exact keeps_outer ..
  · exact keeps_illegal ..

theorem memWf_execTrowst {i : BitVec 1} {d : BitVec 5} (e : execTrowst i d s = .next t) : t.memWf := by
  refine memWf_run wf ?_ e
  split
  · exact (keeps_liftF ..).bind fun _ => keeps_writeV ..
  · exact keeps_illegal ..

theorem memWf_runA {i : Instr} (e : runA i s = .next t) : t.memWf := by
  cases i with
  | add => exact memWf_execAdd wf e
  | sub => exact memWf_execSub wf e
  | and => exact memWf_execAnd wf e
  | or => exact memWf_execOr wf e
  | xor => exact memWf_execXor wf e
  | sll => exact memWf_execSll wf e
  | srl => exact memWf_execSrl wf e
  | sra => exact memWf_execSra wf e
  | mul => exact memWf_execMul wf e
  | mulh => exact memWf_execMulh wf e
  | mulhu => exact memWf_execMulhu wf e
  | div => exact memWf_execDiv wf e
  | divu => exact memWf_execDivu wf e
  | rem => exact memWf_execRem wf e
  | remu => exact memWf_execRemu wf e
  | min => exact memWf_execMin wf e
  | max => exact memWf_execMax wf e
  | minu => exact memWf_execMinu wf e
  | maxu => exact memWf_execMaxu wf e
  | slt => exact memWf_execSlt wf e
  | sltu => exact memWf_execSltu wf e
  | sel => exact memWf_execSel wf e
  | clz => exact memWf_execClz wf e
  | ctz => exact memWf_execCtz wf e
  | popc => exact memWf_execPopc wf e
  | addi => exact memWf_execAddi wf e
  | andi => exact memWf_execAndi wf e
  | ori => exact memWf_execOri wf e
  | xori => exact memWf_execXori wf e
  | slli => exact memWf_execSlli wf e
  | srli => exact memWf_execSrli wf e
  | srai => exact memWf_execSrai wf e
  | slti => exact memWf_execSlti wf e
  | sltiu => exact memWf_execSltiu wf e
  | lui => exact memWf_execLui wf e
  | fadd => exact memWf_execFadd wf e
  | fsub => exact memWf_execFsub wf e
  | fmul => exact memWf_execFmul wf e
  | fdiv => exact memWf_execFdiv wf e
  | fsqrt => exact memWf_execFsqrt wf e
  | fmin => exact memWf_execFmin wf e
  | fmax => exact memWf_execFmax wf e
  | fma => exact memWf_execFma wf e
  | fcmp => exact memWf_execFcmp wf e
  | fcvt => exact memWf_execFcvt wf e
  | fclass => exact memWf_execFclass wf e
  | fsgn => exact memWf_execFsgn wf e
  | vadd => exact memWf_execVadd wf e
  | vsub => exact memWf_execVsub wf e
  | vmul => exact memWf_execVmul wf e
  | vmulh => exact memWf_execVmulh wf e
  | vmin => exact memWf_execVmin wf e
  | vmax => exact memWf_execVmax wf e
  | vand => exact memWf_execVand wf e
  | vor => exact memWf_execVor wf e
  | vxor => exact memWf_execVxor wf e
  | vshl => exact memWf_execVshl wf e
  | vshr => exact memWf_execVshr wf e
  | vsra => exact memWf_execVsra wf e
  | vabs => exact memWf_execVabs wf e
  | vcmp => exact memWf_execVcmp wf e
  | vsel => exact memWf_execVsel wf e
  | vadds => exact memWf_execVadds wf e
  | vfadd => exact memWf_execVfadd wf e
  | vfsub => exact memWf_execVfsub wf e
  | vfmul => exact memWf_execVfmul wf e
  | vfma => exact memWf_execVfma wf e
  | vfmin => exact memWf_execVfmin wf e
  | vfmax => exact memWf_execVfmax wf e
  | vfcmp => exact memWf_execVfcmp wf e
  | vfabs => exact memWf_execVfabs wf e
  | vfdot => exact memWf_execVfdot wf e
  | vcvt => exact memWf_execVcvt wf e
  | vquant => exact memWf_execVquant wf e
  | vdeq => exact memWf_execVdeq wf e
  | vbcast => exact memWf_execVbcast wf e
  | vperm => exact memWf_execVperm wf e
  | vslide => exact memWf_execVslide wf e
  | viota => exact memWf_execViota wf e
  | vcompress => exact memWf_execVcompress wf e
  | vexpand => exact memWf_execVexpand wf e
  | vred => exact memWf_execVred wf e
  | vscan => exact memWf_execVscan wf e
  | vtopk => exact memWf_execVtopk wf e
  | vzip => exact memWf_execVzip wf e
  | vexp2 => exact memWf_execVexp2 wf e
  | vlog2 => exact memWf_execVlog2 wf e
  | vrcp => exact memWf_execVrcp wf e
  | vrsqrt => exact memWf_execVrsqrt wf e
  | vsin => exact memWf_execVsin wf e
  | vtanh => exact memWf_execVtanh wf e
  | vsigm => exact memWf_execVsigm wf e
  | kand => exact memWf_execKand wf e
  | kor => exact memWf_execKor wf e
  | kxor => exact memWf_execKxor wf e
  | knot => exact memWf_execKnot wf e
  | kpopc => exact memWf_execKpopc wf e
  | kfirst => exact memWf_execKfirst wf e
  | kmov => exact memWf_execKmov wf e
  | vmvx => exact memWf_execVmvx wf e
  | vmvs => exact memWf_execVmvs wf e
  | vmov => exact memWf_execVmov wf e
  | tmodeOn => exact memWf_execTmodeOn wf e
  | tmodeOff => exact memWf_execTmodeOff wf e
  | tzero => exact memWf_execTzero wf e
  | top => exact memWf_execTop wf e
  | tops => exact memWf_execTops wf e
  | trowst => exact memWf_execTrowst wf e
  | _ => exact Host.Outcome.next.inj e ▸ memWf_takeTrap wf ..

theorem memWf_execVx {k : BitVec 3} {z : BitVec 1} {m : BitVec 3} {c : BitVec 5} (e : execVx k z m c s = .next t) :
    t.memWf := by
  unfold execVx at e
  split at e
  · cases e; exact memWf_takeTrap wf ..
  · dsimp only at e
    split at e
    · exact memWf_runA (by exact wf) e
    · cases e; exact memWf_takeTrap (by exact wf) ..

theorem memWf_afterRep (pc : Word) (i count : Nat) : (afterRep pc i count s).memWf := by
  unfold afterRep
  split
  · exact memWf_setMe wf ..
  · exact memWf_setMe wf ..

theorem memWf_execRep {n : BitVec 6} {d a b : BitVec 2} (e : execRep n d a b s = .next t) : t.memWf := by
  unfold execRep at e
  dsimp only at e
  split at e
  · cases e; exact memWf_takeTrap wf ..
  · split at e
    · cases e; exact memWf_complete (by exact wf)
    · split at e
      · cases e; exact memWf_takeTrap wf ..
      · split at e
        next ran =>
          have ranWf := memWf_runA (by exact wf) ran
          cases e
          split
          · exact memWf_afterRep ranWf ..
          · exact ranWf
        next other => exact absurd e (other _)

theorem memWf_endStep : (endStep s).memWf := wf

theorem memWf_runStep {ev : Event} {f : State → Option State} (hf : KeepsSome f) (e : runStep ev s f = .next t) :
    t.memWf := by
  unfold runStep at e
  split at e
  · split at e
    next moved => cases e; exact memWf_endStep (hf _ _ wf moved)
    · cases e; exact wf
  · cases e

theorem memWf_execLoadReply (e : execLoadReply s = .next t) : t.memWf := by
  unfold execLoadReply at e
  split at e
  · refine memWf_runStep wf (fun _ _ wf e => ?_) e
    split at e
    · cases e; exact memWf_setCore wf ..
    · dsimp only at e
      split at e
      · cases e; exact memWf_setThread (memWf_monitorEvent wf ..) ..
      · cases e; exact memWf_setThread wf ..
  · cases e; exact wf

theorem memWf_execStoreRefused (e : execStoreRefused s = .next t) : t.memWf := by
  have trapped : ∀ (u : State) (cur : Nat × Nat) (i : Issue) (a : Word), u.memWf →
      (takeTrap { u with cur := cur, issue := i } .uncorrectableError a false).memWf := fun _ _ _ _ wf =>
        memWf_takeTrap (by exact wf) ..
  unfold execStoreRefused at e
  split at e
  · refine memWf_runStep wf (fun _ _ wf e => ?_) e
    dsimp only at e
    split at e
    · cases e; exact wf
    · split at e
      · cases e; exact memWf_threadFault (memWf_setCore wf ..) ..
      · cases e; exact trapped _ _ _ _ (memWf_setThread (memWf_setCore wf ..) ..)
  · cases e; exact wf

theorem memWf_execPageWalk (e : execPageWalk s = .next t) : t.memWf := by
  unfold execPageWalk at e
  split at e
  · refine memWf_runStep wf (fun _ _ wf e => ?_) e
    obtain ⟨_, e⟩ := Option.ite_none_left_eq_some.1 e
    split at e
    · cases e; exact memWf_applyWalk (memWf_setCore wf ..) ..
    · cases e; exact memWf_setCore wf ..
  · cases e; exact wf

theorem memWf_trapThread (c t : Nat) (cause : Cause) (addr : Word) (deferred : Bool) :
    (trapThread s c t cause addr deferred).memWf :=
    (memWf_takeTrap (by exact wf) ..)

theorem memWf_copyFault (c p : Nat) (cause : Cause) (va : Nat) : (copyFault s c p cause va).memWf :=
    (memWf_copyEnd wf ..)

theorem memWf_queueElem {c t n : Nat} {r : StreamReg} (e : StreamElem) : (queueElem s c t n r e).memWf := wf

theorem memWf_liftFences (cs : List Nat) : (liftFences s cs).memWf :=
    (memWf_foldl (fun _ _ wf => (memWf_setCore wf ..)) _ wf)

theorem memWf_putRecord (x q : Nat) (r : Nat × Nat × BitVec 128) : (putRecord s x q r).memWf := by
  unfold putRecord
  dsimp only
  split
  · split
    · exact memWf_emit (memWf_setQueue wf ..) ..
    · exact memWf_askQueuePage (memWf_setQueue wf ..) ..
    · exact memWf_failQueue (memWf_setQueue wf ..) ..
  next eq1 =>
    have wf2 := memWf_dispStore wf eq1
    split
    · split
      · exact memWf_emit (memWf_setQueue wf ..) ..
      · exact memWf_askQueuePage (memWf_setQueue wf ..) ..
      · exact memWf_failQueue (memWf_setQueue wf ..) ..
    next eq3 =>
      have wf4 := memWf_dispStore wf2 eq3
      exact memWf_emit (memWf_liftFences (memWf_setQueue wf4 ..) ..) ..

theorem memWf_flushNotices (x q : Nat) (held : List (List Word)) : (flushNotices s x q held).memWf := by
  induction held generalizing s with
  | nil => exact wf
  | cons ws rest ih =>
    unfold flushNotices
    split
    next written => exact ih (memWf_setQueue (memWf_tryNotice wf written) ..)
    · exact memWf_holdNotices wf ..

theorem memWf_flushQueue (x q : Nat) : (flushQueue s x q).memWf := by
  grind [State.memWf, flushQueue, memWf_putRecord, memWf_flushNotices]

theorem memWf_settleQueue (x q : Nat) : (settleQueue s x q).memWf := by
  grind [State.memWf, settleQueue, memWf_writeQState, memWf_flushQueue]

theorem memWf_serveItem (i : PageItem) (retry : Bool) : (serveItem s i retry).memWf := by
  unfold serveItem
  dsimp only
  split
  · split
    · split
      · exact memWf_setCore (by exact wf) ..
      · exact memWf_trapThread (memWf_setCore (by exact wf) ..) ..
    · exact wf
  · split
    · exact wf
    · exact memWf_copyFault (by exact wf) ..
  · split
    · exact wf
    · split
      · exact wf
      · split
        · exact memWf_queueElem (by exact wf) ..
        · exact wf
  · split
    · split
      · exact memWf_setThread (by exact wf) ..
      · exact wf
    · exact by exact memWf_ite (memWf_setThread (by exact wf) ..) (by exact wf)
  · split
    · exact memWf_settleQueue (by exact wf) ..
    · exact memWf_failQueue (by exact wf) ..
  · split
    · exact wf
    · exact by exact wf
  · split
    · exact wf
    · exact by exact wf

theorem memWf_zeroTable (seed : Word) (frame : Nat) : (zeroTable s seed frame).memWf :=
    (memWf_foldl (fun _ _ wf => (memWf_writeSector wf ..)) _ wf)

omit wf in
/-- The last level of a walk that maps a page (R100): the leaf is written where it is not present. -/
theorem mapFrom_zero (s : State) (seed : Word) (va table : Nat) : mapFrom s seed va table 0 =
    if (readPa s seed (table + 8 * (va / 2 ^ 12 % 512)) 8).any fun e => e % 2 == 0 then
      (writePa { s with free := s.free + 1 } seed (table + 8 * (va / 2 ^ 12 % 512)) 8
        (1 + 2 + 4 + fld (Config.freePte s.free) 5 3 * 8 + chosenFrame (Config.freePte s.free))).getD s
    else s := rfl

omit wf in
/-- A level above the last, with the walk below it: the recursion opened once. (Lean cannot generate the equations of
`mapFrom`: evaluating its table addresses exhausts the recursion depth.) -/
theorem mapFrom_succ (s : State) (seed : Word) (va table l : Nat) : mapFrom s seed va table (l + 1) =
    mapFrom._f seed va (l + 1) ⟨fun s table => mapFrom s seed va table l,
      (Nat.brecOn.go (motive := fun _ => State → Nat → State) l (mapFrom._f seed va)).2⟩ s table := by
  have opened : ∀ n, mapFrom s seed va table n =
      mapFrom._f seed va n (Nat.brecOn.go (motive := fun _ => State → Nat → State) n (mapFrom._f seed va)).2 s
        table := fun n => by
    delta mapFrom
    exact congrFun (congrFun (Nat.brecOn.eq (motive := fun _ => State → Nat → State) n (mapFrom._f seed va)) s) table
  rw [opened]
  congr 1
  delta mapFrom
  rfl

theorem memWf_mapFrom (seed : Word) (va table level : Nat) : (mapFrom s seed va table level).memWf := by
  induction level generalizing s table with
  | zero =>
    have stored : ∀ (a e : Nat), ((writePa { s with free := s.free + 1 } seed a 8 e).getD s).memWf := fun a e => by
      cases written : writePa { s with free := s.free + 1 } seed a 8 e with
      | none => exact wf
      | some u => exact memWf_writePa (by exact wf) written
    rw [mapFrom_zero]
    split
    · exact stored ..
    · exact wf
  | succ l ih =>
    have zeroed := memWf_zeroTable (s := { s with free := s.free + 1 }) wf seed (chosenFrame (Config.freePte s.free))
    rw [mapFrom_succ]
    delta mapFrom._f
    dsimp only
    generalize readPa s seed _ 8 = entry
    generalize zeroTable { s with free := s.free + 1 } seed (chosenFrame (Config.freePte s.free)) = u at zeroed ⊢
    cases entry with
    | none => exact wf
    | some e =>
      dsimp only
      split
      · split
        · exact wf
        · exact ih wf _
      · split
        · exact zeroed
        next written => exact ih (memWf_writePa zeroed written) _

theorem memWf_mapPage (x va : Nat) : (mapPage s x va).memWf := memWf_mapFrom wf ..

theorem memWf_execPageFaultService (e : execPageFaultService s = .next t) : t.memWf := by
  unfold execPageFaultService at e
  split at e
  · refine memWf_runStep wf (fun _ _ wf e => ?_) e
    split at e
    · cases e
    · split at e
      · cases e
      · cases e; exact memWf_serveItem (memWf_ite (memWf_mapPage wf ..) wf) ..
  · cases e; exact wf

theorem memWf_logEvent (which stack key : Nat) : (logEvent s which stack key).memWf := by
  unfold logEvent
  dsimp only
  split
  · exact by exact wf
  · exact by exact wf

theorem memWf_transfer {st ch : Nat} {log : State → Nat → Nat → Nat → State}
    (hlog : ∀ u a b c, u.memWf → (log u a b c).memWf) (last streak : Nat) (first : Bool)
      (fs : List (BitVec 3 × BitVec 6)) :
    (transfer st ch log s last streak first fs).2.memWf := by
  induction fs generalizing s last streak first with
  | nil => exact wf
  | cons p fs ih =>
    have logged := hlog s 2 p.2.toNat p.1.toNat wf
    have spared : ∀ (u : State) (lanes : List (Nat × Nat × Nat × Nat)), u.memWf → State.memWf
      { u with lanes := lanes } :=
      fun _ _ wf => wf
    unfold transfer
    dsimp only
    generalize (if first then 0 else if p.2.toNat = last then streak + 1 else 1) = n
    split
    · exact ih logged ..
    · split
      · have again := fun ls => hlog _ 3 p.2.toNat p.1.toNat (spared _ ls logged)
        split
        · exact again _
        · exact hlog _ _ _ _ (again _)
      · exact logged

theorem memWf_fillSector (slice sector : Nat) : (fillSector s slice sector).memWf :=
    (memWf_fetchSector (by exact wf) ..)

theorem memWf_carrySector (slice sector : Nat) (ev : BusEvent) : (carrySector s slice sector ev).memWf := by
  grind [State.memWf, carrySector, memWf_logEvent, memWf_transfer, memWf_fillSector]

theorem memWf_execSectorFill (e : execSectorFill s = .next t) : t.memWf := by
  unfold execSectorFill at e
  split at e
  · refine memWf_runStep wf (fun _ _ wf e => ?_) e
    dsimp only at e
    split at e
    · cases e
    · cases e; exact memWf_carrySector wf ..
  · cases e; exact wf

theorem memWf_execChannelControllerLoss (e : execChannelControllerLoss s = .next t) : t.memWf := by
  unfold execChannelControllerLoss at e
  split at e
  · refine memWf_runStep wf (fun _ _ wf e => ?_) e
    cases e; exact wf
  · cases e; exact wf

theorem memWf_execLineEviction (e : execLineEviction s = .next t) : t.memWf := by
  unfold execLineEviction at e
  split at e
  · refine memWf_runStep wf (fun _ _ wf e => ?_) e
    dsimp only at e
    split at e
    · cases e
    · cases e; exact by exact memWf_foldl (fun _ _ wf => (memWf_evictSector wf ..)) _ wf
  · cases e; exact wf

theorem memWf_copyRead {c p : Nat} {r : CopyRec} {a : Word} {n : Nat} {v : Nat}
    (e : copyRead s c p r a n = .ok (v, t)) :
    t.memWf := by
  unfold copyRead at e
  split at e
  · split at e <;> cases e
    exact wf
  · exact memWf_unitRead wf e

theorem memWf_takeLine {who : Agent} {slice sector : Nat} (e : takeLine s who slice sector = some t) : t.memWf := by
  unfold takeLine at e
  dsimp only at e
  split at e
  · cases e
  · split at e
    · cases e; exact wf
    · cases e; exact wf

theorem memWf_dropLine (who : Agent) (sector : Nat) : (dropLine s who sector).memWf := wf

omit wf in
/-- What a unit of a copy leaves has canonical memory. -/
def UnitEnd.memWf : UnitEnd → Prop
  | .moved s => s.memWf
  | .held => True
  | .fault s _ _ _ => s.memWf

theorem memWf_copyWrite (c p : Nat) (r : CopyRec) (a : Word) (n v : Nat) : (copyWrite s c p r a n v).memWf := by
  unfold copyWrite
  dsimp only
  split
  · split <;> exact wf
  · split
    · trivial
    · exact wf
    next xlated =>
      have xlatedWf := memWf_unitXlate wf xlated
      split
      · trivial
      next taken =>
        have takenWf := memWf_takeLine xlatedWf taken
        split
        · exact takenWf
        next written =>
          have writtenWf := memWf_writePa takenWf written
          show State.memWf (if _ then _ else _)
          split
          · exact writtenWf
          · exact memWf_dropLine writtenWf ..

theorem memWf_copyUnit (c p : Nat) : (copyUnit s c p).memWf := by
  have ends : ∀ {more : Prop} [Decidable more] {u : State}, u.memWf →
      (UnitEnd.moved (if more then u else copyEnd u c p 1 0 0)).memWf := fun {more} _ {u} wf => by
    show State.memWf (if _ then _ else _)
    split
    · exact wf
    · exact memWf_copyEnd wf ..
  unfold copyUnit
  split
  · exact wf
  · dsimp only
    split
    · trivial
    · split
      · trivial
      · exact wf
      next read =>
        have wrote := memWf_copyWrite (memWf_copyRead wf read)
        split
        next moved =>
          have movedWf : State.memWf _ := moved ▸ wrote ..
          exact ends (memWf_engineHold (memWf_setCore movedWf ..) ..)
        · exact wrote ..

theorem memWf_copyUnits {c p n : Nat} (e : copyUnits s c p n = some t) : t.memWf := by
  induction n generalizing s t with
  | zero => cases e; exact wf
  | succ n ih =>
    unfold copyUnits at e
    have unit := memWf_copyUnit wf c p
    split at e
    · cases e; exact wf
    · split at e
      next moved =>
        have movedWf : State.memWf _ := moved ▸ unit
        cases e
        cases rest : copyUnits _ c p n with
        | none => exact movedWf
        | some u => exact ih movedWf rest
      · cases e
      next fault =>
        have faultWf : State.memWf _ := fault ▸ unit
        split at e
        · cases e; exact memWf_askPage wf ..
        · cases e; exact memWf_copyFault faultWf ..

theorem memWf_execCopyTransfer (e : execCopyTransfer s = .next t) : t.memWf := by
  unfold execCopyTransfer at e
  split at e
  · refine memWf_runStep wf (fun _ _ wf e => ?_) e
    split at e
    · cases e; exact wf
    · obtain ⟨_, e⟩ := Option.ite_none_left_eq_some.1 e
      obtain ⟨_, moved, rfl⟩ := Option.map_eq_some_iff.1 e
      have movedWf := memWf_copyUnits wf moved
      exact memWf_ite (memWf_emit movedWf _) movedWf
  · cases e; exact wf

theorem memWf_dropSubItems (kiosk id : Nat) : (dropSubItems s kiosk id).memWf := wf

theorem memWf_tileFault (u : Sub) (c : Cause) (va : Nat) : (tileFault s u c va).memWf := by
  unfold tileFault
  dsimp only
  split
  · exact memWf_endSub (memWf_setCore wf ..) ..
  · exact memWf_putSlot (memWf_endSub (memWf_setCore wf ..) ..) ..

theorem memWf_headerFault (u : Sub) : (headerFault s u).memWf := wf

theorem memWf_withSub {k id : Nat} {f : Sub → Option State} (hf : ∀ a v, f a = some v → v.memWf)
    (e : withSub s k id f = some t) : t.memWf := by
  unfold withSub at e
  split at e
  · cases e; exact wf
  · split at e
    · cases e
    · cases e; exact memWf_dropSubItems (by exact wf) ..
    · split at e
      · cases e; exact memWf_tileFault (memWf_dropSubItems wf ..) ..
      · split at e
        · cases e
        · split at e
          · cases e; exact memWf_headerFault wf ..
          · exact hf _ _ e

theorem memWf_tileDenied {u : Sub} {ev : Event} {access : Nat} {d : Denied}
    (e : tileDenied s u ev access d = some t) : t.memWf := by
  unfold tileDenied at e
  split at e
  · cases e
  · cases e; exact memWf_emit (memWf_askPage wf ..) _
  · cases e; exact memWf_tileFault wf ..

theorem memWf_setSub (u : Sub) : (setSub s u).memWf := wf

theorem memWf_pushPart {u : Sub} {i : Nat} (e : pushPart s u i = some t) : t.memWf := by
  unfold pushPart at e
  dsimp only at e
  split at e
  · cases e; exact wf
  · split at e
    · exact memWf_tileDenied wf e
    next eq1 =>
      have wf2 := memWf_unitRead wf eq1
      split at e
      · cases e; exact memWf_emit (memWf_setSub (memWf_setCore wf2 ..) ..) ..
      · cases e
        exact (memWf_ite (memWf_endSub (memWf_ite (memWf_fillSlot (memWf_setSub (memWf_setCore wf2 ..) ..) ..)
          (memWf_setSub (memWf_setCore wf2 ..) ..)) ..) (memWf_emit
          (memWf_ite (memWf_fillSlot (memWf_setSub (memWf_setCore wf2 ..) ..) ..)
          (memWf_setSub (memWf_setCore wf2 ..) ..)) ..))

theorem memWf_stays : (stays s).memWf := wf

theorem memWf_orAsk {s0 : State} (wf0 : s0.memWf) {x q core access : Nat} {skip : State → Option State} {d : Denied}
    (hskip : KeepsSome skip) (e : orAsk s0 s x q core access skip d = some t) : t.memWf := by
  unfold orAsk at e
  split at e
  · cases e
  · split at e
    · cases e
    next asked => exact hskip _ _ (memWf_askOther wf asked) e
    · split at e
      next asked => cases e; exact memWf_stays (memWf_askOther wf0 asked)
      · cases e
  · exact hskip _ _ wf e

theorem memWf_withMirror {c h : Nat} {sup : Bool} {f : State → State} {go : State → Option State}
    (hf : ∀ u, u.memWf → (f u).memWf) (hgo : KeepsSome go) (e : withMirror s c h sup f go = some t) : t.memWf := by
  unfold withMirror at e
  split at e
  next eq1 =>
    have wf2 := memWf_mirrorHeader (hf _ wf) eq1
    exact hgo _ _ wf2 e
  · refine memWf_orAsk (hf _ wf) wf (fun _ _ wf3 e => ?_) e
    exact hgo _ _ wf3 e

theorem memWf_execKioskPushTile (e : execKioskPushTile s = .next t) : t.memWf := by
  unfold execKioskPushTile at e
  split at e
  · refine memWf_runStep wf (fun s v wf moved => memWf_withSub wf (fun u w moved => ?_) moved) e
    split at moved
    · cases moved; exact wf
    · split at moved
      · exact memWf_pushPart wf moved
      · split at moved
        · cases moved
        · split at moved
          · cases moved; exact memWf_endSub wf _
          · refine memWf_withMirror wf (fun _ wf => memWf_passTicket wf ..) (fun _ _ wf moved => ?_) moved
            cases moved; exact memWf_emit (memWf_setSub wf _) _
  · cases e; exact wf

end

section
/-! ### Messages, tasks, queues, launches and stages -/

variable {s t : State} {α β : Type} (wf : s.memWf)
include wf

theorem memWf_execKioskPullTile (e : execKioskPullTile s = .next t) : t.memWf := by
  unfold execKioskPullTile at e
  split at e
  · refine memWf_runStep wf (fun _ _ wf e => ?_) e
    refine memWf_withSub wf (fun _ _ e => ?_) e
    split at e
    · cases e; exact wf
    · dsimp only at e
      split at e
      · cases e; exact wf
      · split at e
        next eq2 =>
          have wf3 := memWf_snd (memWf_unitWrite wf ..) eq2
          exact memWf_tileDenied wf3 e
        next eq4 =>
          have wf5 := memWf_snd (memWf_unitWrite wf ..) eq4
          split at e
          · cases e; exact memWf_emit (memWf_setSub wf5 ..) ..
          · cases e; exact memWf_setSub wf5 ..
  · cases e; exact wf

theorem memWf_atLaunch {c order : Nat} {f : State → Option State} (hf : KeepsSome f)
    (e : atLaunch s c order f = some t) : t.memWf := by
  unfold atLaunch at e
  split at e
  · exact hf _ _ wf e
  · cases e; exact wf
  · cases e

theorem memWf_agentFate {agent x q core : Nat} {c : Cause} {va access : Nat} {fate : State → Option State}
    (hfate : KeepsSome fate) (e : agentFate agent s x q core c va access fate = some t) : t.memWf := by
  unfold agentFate at e
  split at e
  · split at e
    · cases e
    next eq1 =>
      have wf2 := memWf_askUnit wf eq1
      exact hfate _ _ wf2 e
    next eq3 =>
      have wf4 := memWf_askUnit wf eq3
      cases e; exact memWf_stays wf4
  · exact hfate _ _ wf e

theorem memWf_unitFate {x q core : Nat} {c : Cause} {va access : Nat} {fate : State → Option State}
    (hfate : KeepsSome fate) (e : unitFate s x q core c va access fate = some t) : t.memWf := by
  unfold unitFate at e
  refine memWf_agentFate wf (fun _ _ wf1 e => ?_) e
  exact hfate _ _ wf1 e

theorem memWf_deniedFate {x q core access : Nat} {fate : Cause → Nat → State → Option State} {a1 : Denied}
    (hfate : ∀ a b u v, u.memWf → fate a b u = some v → v.memWf) (e : deniedFate s x q core access fate a1 = some t)
    : t.memWf := by
  unfold deniedFate at e
  split at e
  · cases e
  · refine memWf_unitFate wf (fun _ _ wf1 e => ?_) e
    exact hfate _ _ _ _ wf1 e

theorem memWf_execJournalWrite (e : execJournalWrite s = .next t) : t.memWf := by
  unfold execJournalWrite at e
  split at e
  · refine memWf_runStep wf (fun _ _ wf e => ?_) e
    refine memWf_atLaunch wf (fun _ _ wf1 e => ?_) e
    dsimp only at e
    split at e
    · cases e; exact memWf_setCore wf1 ..
    · split at e
      next eq2 =>
        have wf3 := memWf_snd (memWf_unitWrite wf1 ..) eq2
        refine memWf_withMirror wf3 (fun _ wf => (memWf_setCore (memWf_setMirror (memWf_writeThrough wf ..) ..)
          ..)) (fun _ _ wf4 e => ?_) e
        cases e; exact wf4
      next eq5 =>
        have wf6 := memWf_snd (memWf_unitWrite wf1 ..) eq5
        refine memWf_deniedFate wf6 (fun _ _ _ _ wf7 e => ?_) e
        refine memWf_withMirror wf7 (fun _ wf => (memWf_setCore (memWf_setCore wf ..) ..)) (fun _ _ wf8 e => ?_) e
        cases e; exact wf8
  · cases e; exact wf

theorem memWf_sweepTouch (x : Nat) (c : LawCell) : (sweepTouch s x c).memWf := wf

theorem memWf_execHorizonSweep (e : execHorizonSweep s = .next t) : t.memWf := by
  unfold execHorizonSweep at e
  split at e
  · refine memWf_runStep wf (fun _ _ wf e => ?_) e
    split at e
    · cases e; exact wf
    · split at e
      · cases e; exact wf
      · dsimp only at e
        split at e
        · cases e
        · cases e
        · cases e; exact memWf_setCtx wf ..
        · refine memWf_unitFate wf (fun _ _ wf1 e => ?_) e
          cases e; exact memWf_lawError (memWf_setCtx wf1 ..) ..
        next eq2 =>
          have wf3 := memWf_lawOpen wf eq2
          split at e
          · cases e; exact memWf_setCtx (memWf_sweepTouch wf3 ..) ..
          · split at e
            · cases e
            · cases e; exact memWf_lawAct (memWf_lawStore (memWf_setCtx (memWf_sweepTouch wf3 ..) ..) ..) ..
  · cases e; exact wf

theorem memWf_execStreamReadAhead (e : execStreamReadAhead s = .next t) : t.memWf := by
  unfold execStreamReadAhead at e
  split at e
  · refine memWf_runStep wf (fun _ _ wf e => ?_) e
    split at e
    · cases e; exact wf
    · dsimp only at e
      split at e
      · cases e
      · split at e
        · split at e
          · cases e
          · cases e; exact wf
        · split at e
          next eq1 =>
            have wf2 := memWf_readElem wf eq1
            cases e; exact memWf_emit (memWf_queueElem (memWf_engineHold wf2 ..) ..) ..
          · cases e
          · split at e
            · cases e
            · cases e; exact memWf_emit (memWf_askPage wf ..) ..
          · cases e; exact memWf_emit (memWf_queueElem wf ..) ..
  · cases e; exact wf

theorem memWf_execLawEventRecord (e : execLawEventRecord s = .next t) : t.memWf := by
  unfold execLawEventRecord at e
  split at e
  · refine memWf_runStep wf (fun _ _ wf e => ?_) e
    dsimp only at e
    split at e
    · cases e; exact memWf_lawError wf ..
    · split at e
      · cases e; exact memWf_lawError wf ..
      · split at e
        · cases e
        · split at e
          · cases e
          · refine memWf_withMirror wf (fun _ wf => (memWf_passTicket wf ..)) (fun _ _ wf1 e => ?_) e
            cases e; exact memWf_putSlot wf1 ..
  · cases e; exact wf

theorem memWf_fanOutOne {x n : Nat} {ev : BitVec 128} (e : fanOutOne s x n ev = .ok t) : t.memWf := by
  unfold fanOutOne at e
  split at e
  · cases e
  · obtain ⟨r, committed, rfl⟩ := exceptMap_ok e
    exact memWf_lawCommit wf committed

theorem memWf_execFanOutDeposit (e : execFanOutDeposit s = .next t) : t.memWf := by
  unfold execFanOutDeposit at e
  split at e
  · refine memWf_runStep wf (fun _ _ wf e => ?_) e
    split at e
    · cases e; exact wf
    · dsimp only at e
      split at e
      · refine memWf_deniedFate wf (fun _ _ _ _ wf1 e => ?_) e
        cases e; exact memWf_ite (memWf_lawError wf1 ..) (memWf_emit (memWf_lawError wf1 ..) ..)
      next eq2 =>
        have wf3 := memWf_dispRead wf eq2
        split at e
        next eq4 =>
          have wf5 := memWf_fanOutOne wf3 eq4
          cases e; exact memWf_ite wf5 (memWf_emit wf5 ..)
        · cases e
        · cases e
        · refine memWf_unitFate wf3 (fun _ _ wf6 e => ?_) e
          cases e; exact memWf_ite (memWf_lawError wf6 ..) (memWf_emit (memWf_lawError wf6 ..) ..)
  · cases e; exact wf

theorem memWf_answer (m : Msg) (fault : Option (Cause × Nat)) : (answer s m fault).memWf := by
  unfold answer
  dsimp only
  split
  · exact wf
  · split
    · exact memWf_emit (memWf_emit wf ..) ..
    · exact memWf_emit wf ..

theorem memWf_hear (m : Msg) : (hear s m).memWf := wf

theorem memWf_onceOnly {m : Msg} {f : State → Option State} (hf : KeepsSome f)
    (e : onceOnly s m f = some t) : t.memWf := by
  unfold onceOnly at e
  split at e
  · exact hf _ _ wf e
  · split at e
    · cases e; exact memWf_answer wf ..
    · obtain ⟨u, done, rfl⟩ := Option.map_eq_some_iff.1 e
      have doneWf := hf _ _ wf done
      exact memWf_ite doneWf (memWf_hear doneWf _)

theorem memWf_mailboxTake {m : Msg} {dead : Bool} {cause : BitVec 8} (e : mailboxTake s m dead cause = some t) :
    t.memWf := by
  unfold mailboxTake at e
  dsimp only at e
  split at e
  · cases e; exact memWf_ite wf (memWf_answer wf ..)
  · split at e
    · cases e
    · split at e
      next eq1 =>
        have wf2 := memWf_tryNotice wf eq1
        cases e; exact memWf_ite wf2 (memWf_answer wf2 ..)
      · cases e
      · cases e
      · cases e; exact memWf_ite (memWf_holdNotices wf ..) (memWf_answer (memWf_holdNotices wf ..) ..)

theorem memWf_spillMsg {s0 : State} (wf0 : s0.memWf) {c : Nat} {m : Msg} {go : State → Option State}
    (hgo : KeepsSome go) (e : spillMsg s0 s c m go = some t) : t.memWf := by
  obtain ⟨i, _, e⟩ := Option.bind_eq_some_iff.1 e
  dsimp only at e
  have wf1 := memWf_setCore wf c { s.core c with spilled := (s.core c).spilled ++ [(i, m)] }
  split at e
  next stored => exact hgo _ _ (memWf_dispStore wf1 stored) e
  · exact memWf_orAsk wf1 wf0 hgo e

theorem memWf_enqueueMsg {c : Nat} {m : Msg} {go : State → Option State} (hgo : KeepsSome go)
    (e : enqueueMsg s c m go = some t) : t.memWf := by
  unfold enqueueMsg at e
  dsimp only at e
  split at e
  · exact hgo _ _ (memWf_emit (memWf_setCore wf ..) ..) e
  · refine memWf_spillMsg (memWf_setCore wf ..) wf (fun _ _ wf1 e => ?_) e
    exact hgo _ _ (memWf_ite (memWf_emit wf1 ..) wf1) e

theorem memWf_execMessageArrival (e : execMessageArrival s = .next t) : t.memWf := by
  unfold execMessageArrival at e
  split at e
  · refine memWf_runStep wf (fun _ _ wf e => ?_) e
    dsimp only at e
    split at e
    · refine memWf_onceOnly wf (fun _ _ wf1 e => ?_) e
      exact memWf_mailboxTake wf1 e
    · split at e
      · cases e; exact memWf_answer wf ..
      · split at e
        · cases e; exact memWf_answer wf ..
        · split at e
          · cases e
          · split at e
            · split at e
              · cases e; exact memWf_answer wf ..
              · refine memWf_enqueueMsg wf (fun _ _ wf2 e => ?_) e
                cases e; exact memWf_answer (memWf_setCore wf2 ..) ..
            · split at e
              · cases e
              · refine memWf_enqueueMsg wf (fun _ _ wf3 e => ?_) e
                cases e; exact memWf_answer (memWf_setCore wf3 ..) ..
  · cases e; exact wf

theorem memWf_execHostMailboxNotice (e : execHostMailboxNotice s = .next t) : t.memWf := by
  unfold execHostMailboxNotice at e
  split at e
  · refine memWf_runStep wf (fun _ _ wf e => ?_) e
    split at e
    · exact memWf_mailboxTake wf e
    · refine memWf_onceOnly wf (fun _ _ wf1 e => ?_) e
      exact memWf_mailboxTake wf1 e
  · cases e; exact wf

theorem memWf_execMessageAcknowledgement (e : execMessageAcknowledgement s = .next t) : t.memWf := by
  unfold execMessageAcknowledgement at e
  split at e
  · refine memWf_runStep wf (fun _ _ wf e => ?_) e
    split at e
    · cases e; exact wf
    · cases e; exact memWf_ite (by exact wf) (memWf_ite (memWf_emit (by exact wf) ..) (by exact (by exact wf)))
  · cases e; exact wf

theorem memWf_execMessageRelease (e : execMessageRelease s = .next t) : t.memWf := by
  unfold execMessageRelease at e
  split at e
  · refine memWf_runStep wf (fun _ _ wf e => ?_) e
    split at e
    · cases e; exact wf
    · cases e; exact memWf_setCore wf ..
  · cases e; exact wf

theorem memWf_faultAnswer (m : Msg) (c : Cause) (a : Nat) : (faultAnswer s m c a).memWf := by
  unfold faultAnswer
  split
  · exact wf
  · exact memWf_emit wf ..

theorem memWf_badHandler (c : Nat) (m : Msg) : (badHandler s c m).memWf :=
    (memWf_faultAnswer (memWf_deadNotice wf ..) ..)

theorem memWf_startActivation (c : Nat) (kind : ActKind) (m : Msg) (budget fails : Nat) (pc sp : Word)
    (xs : List (Nat × Word)) (region : Nat × Nat) : (startActivation s c kind m budget fails pc sp xs
    region).memWf := wf

theorem memWf_execHandlerActivation (e : execHandlerActivation s = .next t) : t.memWf := by
  unfold execHandlerActivation at e
  split at e
  · refine memWf_runStep wf (fun _ _ wf e => ?_) e
    split at e
    · split at e
      · cases e; exact wf
      · cases e
    · dsimp only at e
      split at e
      · cases e; exact wf
      · split at e
        · cases e
        · split at e
          · cases e; exact memWf_badHandler (memWf_setCore wf ..) ..
          · split at e
            · refine memWf_deniedFate wf (fun _ _ _ _ wf1 e => ?_) e
              cases e; exact memWf_deadNotice (memWf_setCore wf1 ..) ..
            next eq2 =>
              have wf3 := memWf_dispRead wf eq2
              split at e
              · cases e; exact memWf_badHandler (memWf_setCore wf3 ..) ..
              · cases e; exact memWf_startActivation (memWf_setCore wf3 ..) ..
  · cases e; exact wf

theorem memWf_execBudgetFault (e : execBudgetFault s = .next t) : t.memWf := by
  unfold execBudgetFault at e
  split at e
  · refine memWf_runStep wf (fun _ _ wf e => ?_) e
    split at e
    · cases e
    · obtain ⟨_, e⟩ := Option.ite_none_left_eq_some.1 e
      cases e; exact memWf_handlerFault wf ..
  · cases e; exact wf

theorem memWf_remoteAccess {m : Msg} {va n : Nat} {nd : Rights} {dry : State → Xlat → Bool}
    {f : State → Xlat → Option State}
    (hf : ∀ u a v, u.memWf → f u a = some v → v.memWf) (e : remoteAccess s m va n nd dry f = some t) : t.memWf := by
  unfold remoteAccess at e
  split at e
  · cases e; exact memWf_answer wf ..
  · split at e
    · cases e
    · refine memWf_unitFate wf (fun _ _ wf e => ?_) e
      cases e; exact memWf_answer wf ..
    · split at e
      next done => cases e; exact memWf_answer (hf _ _ _ (memWf_applyXlat wf ..) done) ..
      · cases e; exact memWf_answer wf ..

theorem memWf_sendReply (m : Msg) (slice : Nat) (desc : Word) (payload : List Word) :
    (sendReply s m slice desc payload).memWf := by
  unfold sendReply
  split
  · exact wf
  · exact memWf_unitSend wf ..

theorem memWf_execRemoteLoad (e : execRemoteLoad s = .next t) : t.memWf := by
  unfold execRemoteLoad at e
  split at e
  · refine memWf_runStep wf (fun _ _ wf e => memWf_onceOnly wf (fun _ _ wf e => ?_) e) e
    dsimp only at e
    split at e
    · cases e; exact memWf_answer wf ..
    · refine memWf_remoteAccess wf (fun _ _ _ wf e => ?_) e
      obtain ⟨_, _, rfl⟩ := Option.map_eq_some_iff.1 e
      exact memWf_sendReply wf ..
  · cases e; exact wf

theorem memWf_execRemoteStore (e : execRemoteStore s = .next t) : t.memWf := by
  unfold execRemoteStore at e
  split at e
  · refine memWf_runStep wf (fun _ _ wf e => ?_) e
    refine memWf_onceOnly wf (fun _ _ wf1 e => ?_) e
    dsimp only at e
    split at e
    · cases e; exact memWf_answer wf1 ..
    · refine memWf_remoteAccess wf1 (fun _ _ _ wf2 e => ?_) e
      exact memWf_writePa wf2 e
  · cases e; exact wf

theorem memWf_execRemoteAtomic (e : execRemoteAtomic s = .next t) : t.memWf := by
  unfold execRemoteAtomic at e
  split at e
  · refine memWf_runStep wf (fun _ _ wf e => memWf_onceOnly wf (fun _ _ wf e => ?_) e) e
    dsimp only at e
    split at e
    · cases e; exact memWf_answer wf ..
    · refine memWf_remoteAccess wf (fun _ _ _ wf e => ?_) e
      split at e
      · cases e
      · obtain ⟨_, written, rfl⟩ := Option.map_eq_some_iff.1 e
        split at written
        · exact memWf_sendReply (memWf_writePa wf written) ..
        · cases written; exact memWf_sendReply wf ..
  · cases e; exact wf

theorem memWf_execRemoteLaw (e : execRemoteLaw s = .next t) : t.memWf := by
  unfold execRemoteLaw at e
  split at e
  · refine memWf_runStep wf (fun _ _ wf e => ?_) e
    refine memWf_onceOnly wf (fun _ _ wf1 e => ?_) e
    dsimp only at e
    split at e
    · cases e; exact memWf_answer wf1 ..
    · split at e
      · cases e
      · cases e
      · refine memWf_unitFate wf1 (fun _ _ wf2 e => ?_) e
        cases e; exact memWf_answer wf2 ..
      next eq3 =>
        have wf4 := memWf_lawCommit wf1 eq3
        cases e; exact memWf_answer (memWf_ite wf4 (memWf_sendReply wf4 ..)) ..
  · cases e; exact wf

theorem memWf_execRemoteFault (e : execRemoteFault s = .next t) : t.memWf := by
  unfold execRemoteFault at e
  split at e
  · refine memWf_runStep wf (fun _ _ wf e => ?_) e
    dsimp only at e
    split at e
    · cases e; exact memWf_lawError wf ..
    · refine memWf_atLaunch wf (fun _ _ wf1 e => ?_) e
      cases e; exact memWf_setThread wf1 ..
  · cases e; exact wf

theorem memWf_execDrtRetransmit (e : execDrtRetransmit s = .next t) : t.memWf := by
  unfold execDrtRetransmit at e
  split at e
  · refine memWf_runStep wf (fun _ _ wf e => ?_) e
    split at e
    · cases e
    · split at e
      · cases e
      · cases e; exact wf
  · cases e; exact wf

theorem memWf_losePaths (lost : Nat → Bool) : (losePaths s lost).memWf :=
    (memWf_foldl (fun _ _ wf => (memWf_linkLost wf ..)) _ wf)

theorem memWf_execLinkPortFailure (e : execLinkPortFailure s = .next t) : t.memWf := by
  unfold execLinkPortFailure at e
  split at e
  · refine memWf_runStep wf (fun _ _ wf e => ?_) e
    cases e; exact memWf_ite (memWf_losePaths (by exact wf) ..) (by exact wf)
  · cases e; exact wf

theorem memWf_mirrorTask {s0 : State} {c i : Nat} {r : TaskRec} {go : State → Option State} (wf_s0 : s0.memWf)
    (hgo : KeepsSome go) (e : mirrorTask s0 s c i r go = some t) : t.memWf := by
  unfold mirrorTask at e
  split at e
  · exact hgo _ _ wf e
  · split at e
    · exact hgo _ _ wf e
    · dsimp only at e
      split at e
      next eq1 =>
        have wf2 := memWf_snd (memWf_unitWrite wf ..) eq1
        exact hgo _ _ wf2 e
      · refine memWf_orAsk wf wf_s0 (fun _ _ wf5 e => ?_) e
        exact hgo _ _ wf5 e

theorem memWf_startTask (c t : Nat) (r : TaskRec) : (startTask s c t r).memWf := wf

theorem memWf_backOff (c t : Nat) : (backOff s c t).memWf := wf

theorem memWf_tryVictims (c t : Nat) (a1 : List Nat) : (tryVictims s c t a1).memWf := by
  unfold tryVictims
  split
  · exact memWf_backOff wf ..
  · dsimp only
    exact memWf_emit (memWf_setThread wf ..) ..

theorem memWf_execWorkSearch (e : execWorkSearch s = .next t) : t.memWf := by
  unfold execWorkSearch at e
  split at e
  · refine memWf_runStep wf (fun _ _ wf e => ?_) e
    split at e
    · cases e; exact wf
    · split at e
      · cases e; exact wf
      · split at e
        · cases e
        · dsimp only at e
          split at e
          · cases e; exact memWf_resumeJoin wf ..
          · split at e
            · refine memWf_mirrorTask (memWf_setCore wf ..) wf (fun _ _ wf1 e => ?_) e
              cases e; exact memWf_startTask wf1 ..
            · split at e
              · cases e; exact memWf_tryVictims wf ..
              · cases e
  · cases e; exact wf

theorem memWf_execBackOff (e : execBackOff s = .next t) : t.memWf := by
  unfold execBackOff at e
  split at e
  · refine memWf_runStep wf (fun _ _ wf e => ?_) e
    split at e
    · cases e; exact wf
    · split at e
      · cases e
      · cases e; exact memWf_emit wf ..
  · cases e; exact wf

theorem memWf_execSteal (e : execSteal s = .next t) : t.memWf := by
  unfold execSteal at e
  split at e
  · refine memWf_runStep wf (fun _ _ wf e => ?_) e
    dsimp only at e
    split at e
    · cases e; exact memWf_emit (memWf_setCore wf ..) ..
    · cases e; exact memWf_emit wf ..
  · cases e; exact wf

theorem memWf_unbindCore (c : Nat) : (unbindCore s c).memWf := wf

theorem memWf_trySendDone (c : Nat) : (trySendDone s c).memWf := by
  unfold trySendDone
  dsimp only
  split
  · exact wf
  · split
    · exact wf
    · exact (memWf_emit (memWf_ite (memWf_unbindCore (memWf_ite (memWf_setCore wf ..)
        (memWf_unbindCore (memWf_setCore wf ..) ..)) ..) (memWf_ite (memWf_setCore wf ..)
        (memWf_unbindCore (memWf_setCore wf ..) ..))) ..)

theorem memWf_execStealAnswer (e : execStealAnswer s = .next t) : t.memWf := by
  unfold execStealAnswer at e
  split at e
  · refine memWf_runStep wf (fun _ _ wf e => ?_) e
    refine memWf_atLaunch wf (fun _ _ wf1 e => ?_) e
    dsimp only at e
    split at e
    · split at e
      · refine memWf_mirrorTask (memWf_setThread (memWf_monitorEvent wf1 ..) ..) wf (fun _ _ wf2 e => ?_) e
        cases e; exact memWf_startTask wf2 ..
      · cases e; exact memWf_trySendDone (memWf_setCore (memWf_setThread (memWf_monitorEvent wf1 ..) ..) ..) ..
    · split at e
      · cases e; exact memWf_tryVictims (memWf_setThread (memWf_monitorEvent wf1 ..) ..) ..
      · cases e; exact memWf_trySendDone (memWf_setThread (memWf_monitorEvent wf1 ..) ..) ..
  · cases e; exact wf

theorem memWf_execEventLatchSet (e : execEventLatchSet s = .next t) : t.memWf := by
  unfold execEventLatchSet at e
  split at e
  · refine memWf_runStep wf (fun _ _ wf e => ?_) e
    cases e; exact memWf_ite (memWf_setLatches wf ..) wf
  · cases e; exact wf

theorem memWf_execWfeTimeout (e : execWfeTimeout s = .next t) : t.memWf := by
  unfold execWfeTimeout at e
  split at e
  · refine memWf_runStep wf (fun _ _ wf e => ?_) e
    dsimp only at e
    split at e
    · split at e
      · cases e; exact memWf_setThread wf ..
      · cases e
    · cases e
  · cases e; exact wf

theorem memWf_execFeTimeout (e : execFeTimeout s = .next t) : t.memWf := by
  unfold execFeTimeout at e
  split at e
  · refine memWf_runStep wf (fun _ _ wf e => ?_) e
    dsimp only at e
    split at e
    · obtain ⟨_, e⟩ := Option.ite_none_right_eq_some.1 e
      cases e; exact memWf_trapThread wf ..
    · cases e
  · cases e; exact wf

theorem memWf_atLive {c order : Nat} {f : State → Option State} (hf : KeepsSome f)
    (e : atLive s c order f = some t) : t.memWf := by
  unfold atLive at e
  split at e
  · cases e
  · refine memWf_atLaunch wf (fun _ _ wf1 e => ?_) e
    exact hf _ _ wf1 e

theorem memWf_forwarded {m c b order : Nat} {ack : Bool} (e : forwarded s m c b order ack = some t) : t.memWf := by
  unfold forwarded at e
  split at e
  · cases e; exact memWf_emit wf ..
  · cases e

theorem memWf_execGroupBarrierArrival (e : execGroupBarrierArrival s = .next t) : t.memWf := by
  unfold execGroupBarrierArrival at e
  split at e
  · refine memWf_runStep wf (fun _ _ wf e => ?_) e
    refine memWf_atLive wf (fun _ _ wf1 e => ?_) e
    split at e
    · cases e
    · split at e
      · cases e; exact memWf_ite (memWf_trapThread wf1 ..) wf1
      · split at e
        · exact memWf_forwarded wf1 e
        · dsimp only at e
          split at e
          · cases e; exact memWf_ite (memWf_setThread (memWf_arriveAt wf1 ..) ..) (memWf_arriveAt wf1 ..)
          · cases e; exact memWf_arriveAt wf1 ..
  · cases e; exact wf

theorem memWf_execBarrierRelease (e : execBarrierRelease s = .next t) : t.memWf := by
  unfold execBarrierRelease at e
  split at e
  · refine memWf_runStep wf (fun _ _ wf e => ?_) e
    refine memWf_atLive wf (fun _ _ wf1 e => ?_) e
    cases e; exact memWf_receiveRelease wf1 ..
  · cases e; exact wf

theorem memWf_timeoutBarrier (c b : Nat) : (timeoutBarrier s c b).memWf := by
  unfold timeoutBarrier
  dsimp only
  exact (memWf_foldl (fun _ _ wf => (memWf_foldl (fun _ _ wf => (memWf_ite
    (memWf_trapThread (memWf_setThread wf ..) ..) wf)) _ wf)) _ (memWf_foldl (fun _ _ wf => (memWf_setCore wf ..))
    _ (memWf_setTouts wf ..)))

theorem memWf_execBarrierTimeout (e : execBarrierTimeout s = .next t) : t.memWf := by
  unfold execBarrierTimeout at e
  split at e
  · refine memWf_runStep wf (fun _ _ wf e => ?_) e
    dsimp only at e
    split at e
    · cases e
    · split at e
      · cases e
      · split at e
        · cases e; exact memWf_postNotice (memWf_setCore wf ..) ..
        · cases e; exact memWf_timeoutBarrier wf ..
  · cases e; exact wf

theorem memWf_peerFault (order d : Nat) : (peerFault s order d).memWf := by
  unfold peerFault
  split
  · exact memWf_setCore wf ..
  · split
    · exact wf
    · exact wf

theorem memWf_execHeartbeatMiss (e : execHeartbeatMiss s = .next t) : t.memWf := by
  unfold execHeartbeatMiss at e
  split at e
  · refine memWf_runStep wf (fun _ _ wf e => ?_) e
    dsimp only at e
    split at e
    · cases e
    · split at e
      · cases e
      · cases e
        exact memWf_threadFault (memWf_foldl (fun _ _ wf => (memWf_peerFault wf ..)) _ (memWf_setCore wf ..)) ..
  · cases e; exact wf

theorem memWf_execStrandsDone (e : execStrandsDone s = .next t) : t.memWf := by
  unfold execStrandsDone at e
  split at e
  · refine memWf_runStep wf (fun _ _ wf e => ?_) e
    refine memWf_atLaunch wf (fun _ _ wf1 e => ?_) e
    cases e; exact memWf_tryReport (memWf_setCore wf1 ..) ..
  · cases e; exact wf

theorem memWf_stopCore (c : Nat) : (stopCore s c).memWf := by
  unfold stopCore
  dsimp only
  split
  · exact wf
  · split
    · exact memWf_setCore wf ..
    · split
      · exact memWf_trySendDone wf ..
      · exact memWf_trySendDone (memWf_setCore wf ..) ..

theorem memWf_execLaunchStop (e : execLaunchStop s = .next t) : t.memWf := by
  unfold execLaunchStop at e
  split at e
  · refine memWf_runStep wf (fun _ _ wf e => ?_) e
    refine memWf_atLaunch wf (fun _ _ wf1 e => ?_) e
    split at e
    · cases e
    · cases e; exact memWf_stopCore wf1 ..
  · cases e; exact wf

theorem memWf_retirePairs (ld : LaunchDesc) : (retirePairs s ld).memWf :=
    (memWf_foldl (fun _ _ wf => (memWf_ite (memWf_setCore (memWf_setCore wf ..) ..) (memWf_setCore wf ..))) _ wf)

theorem memWf_forgetLaunch (key : Nat) (r : LaunchRun) (keepJournals : Bool) :
    (forgetLaunch s key r keepJournals).memWf := wf

theorem memWf_writeBackSeed (seed : Word) : (writeBackSeed s seed).memWf := by
  refine memWf_foldl (fun s p wf => ?_) _ wf
  dsimp only
  split
  · split
    · exact Mem.wf_write _ _ _ wf
    · exact wf
  · exact wf

theorem memWf_bindAgain (key : Nat) (r : LaunchRun) : (bindAgain s key r).memWf := by
  unfold bindAgain
  dsimp only
  exact memWf_emit (memWf_setQueue (by exact (memWf_liftFences wf ..)) ..) ..

theorem memWf_setQState (x q st : Nat) : (setQState s x q st).memWf := memWf_writeQState (memWf_setQueue wf ..) ..

theorem memWf_finishCommand (x q status : Nat) (w : BitVec 128) : (finishCommand s x q status w).memWf := by
  unfold finishCommand
  split
  · exact wf
  · dsimp only
    exact memWf_putRecord (memWf_ite (memWf_setQState wf ..) wf) ..

theorem memWf_endLaunch (key : Nat) (r : LaunchRun) (w : BitVec 128) : (endLaunch s key r w).memWf := by
  have ended : ∀ {u : State}, u.memWf → ∀ (c d : Prop) [Decidable c] [Decidable d] (x q st : Nat),
      (if c then (if d then u else setQState u x q st) else u).memWf := fun wf c d _ _ x q st =>
    memWf_ite (memWf_ite wf (memWf_setQState wf ..)) wf
  unfold endLaunch
  refine ended ?_ ..
  dsimp only
  split
  · exact memWf_finishCommand (memWf_setQueue (by exact wf) ..) ..
  · exact memWf_liftFences (by exact wf) _

theorem memWf_completeLaunch (key c : Nat) (r : LaunchRun) (w : BitVec 128) : (completeLaunch s key c r w).memWf := by
  have forgotten := fun again => memWf_forgetLaunch (memWf_retirePairs (memWf_setCtx wf r.ctx
    { s.ctx r.ctx with lawErr := 0, lawCache := [] }) r.ld) key r again
  have replicasGone : ∀ (u : State) (rs : List Replica), u.memWf → State.memWf { u with replicas := rs } := fun _ _
    wf => wf
  have finished : ∀ {u : State}, u.memWf → ∀ (c again : Prop) [Decidable c] [Decidable again] (seed : Word)
    (r' : LaunchRun)
      (w : BitVec 128), (if again then bindAgain (if c then u else writeBackSeed u seed) key r'
        else endLaunch (if c then u else writeBackSeed u seed) key r w).memWf := fun wf _ _ _ _ seed r' w =>
    have written := memWf_ite wf (memWf_writeBackSeed wf seed)
    memWf_ite (memWf_bindAgain written ..) (memWf_endLaunch written ..)
  exact finished (replicasGone _ _ (forgotten _)) ..

theorem memWf_execDoneWord (e : execDoneWord s = .next t) : t.memWf := by
  unfold execDoneWord at e
  split at e
  · refine memWf_runStep wf (fun _ _ wf e => ?_) e
    refine memWf_atLaunch wf (fun _ _ wf1 e => ?_) e
    dsimp only at e
    split at e
    · cases e; exact memWf_trySendDone (memWf_setCore wf1 ..) ..
    · split at e
      · cases e; exact memWf_unbindCore wf1 ..
      · cases e; exact memWf_completeLaunch (memWf_unbindCore wf1 ..) ..
  · cases e; exact wf

theorem memWf_disableQueue (x q : Nat) : (disableQueue s x q).memWf := memWf_setQState (memWf_setQueue wf ..) ..

theorem memWf_enableQueue (x q : Nat) (k : Queue) : (enableQueue s x q k).memWf := by
  have enabled : ∀ {u : State}, u.memWf → ∀ (c : Prop) [Decidable c] (ev dv : Event) (b : Bool),
      (if b then ((if c then u else flushQueue u x q).emit ev).emit dv else
        (if c then u else flushQueue u x q).emit ev).memWf :=
    fun wf _ _ ev dv b =>
      have flushed := memWf_emit (memWf_ite wf (memWf_flushQueue wf x q)) ev
      memWf_ite (memWf_emit flushed dv) flushed
  exact enabled (memWf_setQState (memWf_setQueue wf ..) ..) ..

theorem memWf_execQueueEnable (e : execQueueEnable s = .next t) : t.memWf := by
  unfold execQueueEnable at e
  split at e
  · refine memWf_runStep wf (fun _ _ wf e => ?_) e
    split at e
    · cases e; exact wf
    · split at e
      · refine memWf_deniedFate wf (fun _ _ _ _ wf1 e => ?_) e
        cases e; exact memWf_failQueue (memWf_setQueue wf1 ..) ..
      next eq2 =>
        have wf3 := memWf_dispRead wf eq2
        dsimp only at e
        split at e
        · cases e; exact memWf_disableQueue wf3 ..
        · split at e
          · cases e; exact wf3
          · split at e
            · cases e; exact memWf_setQState (memWf_setQueue wf3 ..) ..
            · cases e; exact memWf_enableQueue wf3 ..
  · cases e; exact wf

theorem memWf_queueFate {x q access : Nat} {a1 : Denied} (e : queueFate s x q access a1 = some t) : t.memWf := by
  unfold queueFate at e
  refine memWf_deniedFate wf (fun _ _ _ _ wf1 e => ?_) e
  cases e; exact memWf_failQueue wf1 ..

theorem memWf_startCommand (x q : Nat) (c : Command) : (startCommand s x q c).memWf := by
  unfold startCommand
  dsimp only
  split
  · exact memWf_finishCommand (memWf_setQueue wf ..) ..
  · split
    · exact memWf_finishCommand (memWf_setQueue wf ..) ..
    · exact memWf_emit (memWf_setQueue wf ..) ..

theorem memWf_acceptCommand {x q : Nat} {c : Command} (e : acceptCommand s x q c = some t) : t.memWf := by
  unfold acceptCommand at e
  dsimp only at e
  split at e
  · cases e; exact wf
  · split at e
    · split at e
      · exact memWf_queueFate wf e
      next eq1 =>
        have wf2 := memWf_dispStore wf eq1
        cases e; exact memWf_emit (memWf_setQueue wf2 ..) ..
    · split at e
      · cases e; exact wf
      · split at e
        · exact memWf_queueFate wf e
        next eq3 =>
          have wf4 := memWf_dispStore wf eq3
          cases e; exact memWf_putRecord wf4 ..

theorem memWf_execCommandAccept (e : execCommandAccept s = .next t) : t.memWf := by
  unfold execCommandAccept at e
  split at e
  · refine memWf_runStep wf (fun _ _ wf e => ?_) e
    dsimp only at e
    split at e
    · cases e; exact memWf_settleQueue wf ..
    · split at e
      · split at e
        · exact memWf_queueFate (memWf_settleQueue wf ..) e
        next eq1 =>
          have wf2 := memWf_dispRead (memWf_settleQueue wf ..) eq1
          cases e; exact memWf_startCommand (memWf_emit wf2 ..) ..
      · split at e
        · exact memWf_queueFate (memWf_settleQueue wf ..) e
        next eq3 =>
          have wf4 := memWf_dispRead (memWf_settleQueue wf ..) eq3
          split at e
          · cases e; exact wf4
          · split at e
            · exact memWf_queueFate wf4 e
            next eq5 =>
              have wf6 := memWf_dispRead wf4 eq5
              exact memWf_acceptCommand wf6 e
  · cases e; exact wf

theorem memWf_execLaunch (e : execLaunch s = .next t) : t.memWf := by
  unfold execLaunch at e
  split at e
  · refine memWf_runStep wf (fun _ _ wf e => ?_) e
    split at e
    · cases e; exact wf
    · split at e
      · cases e; exact wf
      · split at e
        · refine memWf_deniedFate wf (fun _ _ _ _ wf1 e => ?_) e
          cases e; exact memWf_finishCommand wf1 ..
        next eq2 =>
          have wf3 := memWf_dispRead wf eq2
          split at e
          · cases e; exact memWf_emit (memWf_setQueue (by exact wf3) ..) ..
          · cases e; exact memWf_finishCommand wf3 ..
  · cases e; exact wf

theorem memWf_execSignal (e : execSignal s = .next t) : t.memWf := by
  unfold execSignal at e
  split at e
  · refine memWf_runStep wf (fun _ _ wf e => ?_) e
    split at e
    · cases e; exact wf
    · split at e
      · cases e
      · refine memWf_unitFate wf (fun _ _ wf1 e => ?_) e
        cases e; exact memWf_finishCommand wf1 ..
      next eq2 =>
        have wf3 := memWf_unitXlate wf eq2
        split at e
        next eq4 =>
          have wf5 := memWf_writePa wf3 eq4
          cases e; exact memWf_finishCommand wf5 ..
        · cases e; exact memWf_finishCommand wf3 ..
  · cases e; exact wf

theorem memWf_execWaitForSignal (e : execWaitForSignal s = .next t) : t.memWf := by
  unfold execWaitForSignal at e
  split at e
  · refine memWf_runStep wf (fun _ _ wf e => ?_) e
    split at e
    · cases e; exact wf
    · cases e; exact memWf_emit (memWf_setQState wf ..) ..
  · cases e; exact wf

theorem memWf_execSignalSatisfied (e : execSignalSatisfied s = .next t) : t.memWf := by
  unfold execSignalSatisfied at e
  split at e
  · refine memWf_runStep wf (fun _ _ wf e => ?_) e
    split at e
    · cases e; exact wf
    · split at e
      · cases e
      · refine memWf_unitFate wf (fun _ _ wf1 e => ?_) e
        cases e; exact memWf_finishCommand wf1 ..
      next eq2 =>
        have wf3 := memWf_unitXlate wf eq2
        split at e
        · cases e; exact memWf_finishCommand wf3 ..
        · split at e
          · cases e; exact memWf_finishCommand wf3 ..
          · cases e
  · cases e; exact wf

theorem memWf_readStage {a' : _} {x : Nat} {a : Word} (e : readStage s x a = .ok (a', t)) : t.memWf := by
  unfold readStage at e
  split at e
  · cases e
  next eq1 =>
    have wf2 := memWf_unitRead wf eq1
    split at e
    · cases e
    · split at e
      · cases e
      · cases e; exact wf2

theorem memWf_writeStage {x : Nat} {a : Word} {off n v : Nat} (e : writeStage s x a off n v = .ok t) : t.memWf := by
  unfold writeStage at e
  split at e
  next eq1 =>
    have wf2 := memWf_snd (memWf_unitWrite wf ..) eq1
    cases e; exact wf2
  · cases e

theorem memWf_writeBusy {x : Nat} {a : Word} {b : Bool} (e : writeBusy s x a b = .ok t) : t.memWf := by
  unfold writeBusy at e
  exact memWf_writeStage wf e

theorem memWf_writeEntry {x : Nat} {a : Word} {i ev : Nat} (e : writeEntry s x a i ev = .ok t) : t.memWf := by
  unfold writeEntry at e
  exact memWf_writeStage wf e

theorem memWf_copyHeader {c h : Nat} (e : copyHeader s c h = .ok t) : t.memWf := by
  unfold copyHeader at e
  split at e
  · split at e
    · cases e
    · cases e; exact wf
  · exact memWf_mirrorHeader wf e

theorem memWf_bumpGen {c h : Nat} (e : bumpGen s c h = .ok t) : t.memWf := by
  unfold bumpGen at e
  split at e
  · cases e
  · exact memWf_copyHeader (memWf_setCore wf ..) e

omit wf in
theorem memWf_ringsThenBusy {o : Except Denied Unit} {x : Nat} {a : Word} {b : Bool} (wf : s.memWf)
    (e : (o.bind fun _ => writeBusy s x a b) = .ok t) : t.memWf := by
  cases o with
  | error _ => cases e
  | ok _ => exact memWf_writeBusy wf e

theorem memWf_mergeStep {key : Nat} {r : LaunchRun} {a : Word} {d : StageDesc} {i ev y o : Nat}
    (e : mergeStep s key r a d i ev y o = .ok t) : t.memWf := by
  unfold mergeStep at e
  split at e
  · cases e
  next busy =>
    split at e
    · cases e
    next entry =>
      obtain ⟨_, bumped, rfl⟩ := exceptMap_ok e
      have bumpedWf := memWf_bumpGen (memWf_writeEntry (memWf_ringsThenBusy wf busy) entry) bumped
      exact bumpedWf

omit wf in
theorem mapError_ok {ε δ : Type} {x : Except ε α} {f : ε → δ} {a : α} (e : x.mapError f = .ok a) : x = .ok a := by
  cases x with
  | error _ => cases e
  | ok _ => exact congrArg Except.ok (Except.ok.inj e)

theorem memWf_startMerge {key : Nat} {r : LaunchRun} {a : Word} {d : StageDesc} {i ev : Nat}
    (e : startMerge s key r a d i ev = .ok (some t)) : t.memWf := by
  unfold startMerge at e
  dsimp only at e
  split at e
  · obtain ⟨_, started, same⟩ := exceptMap_ok (mapError_ok e)
    cases same; exact memWf_mergeStep wf started
  · cases e

theorem memWf_annexSteps {key : Nat} {r : LaunchRun} {a : Word} {d : StageDesc} {ev m o y i : Nat}
    (e : annexSteps s key r a d ev m o y i = .ok t) : t.memWf := by
  unfold annexSteps at e
  split at e
  · cases e
  next busy =>
    dsimp only at e
    split at e
    · cases e
    next bumped =>
      obtain ⟨_, entry, rfl⟩ := exceptMap_ok e
      have entryWf := memWf_writeEntry (memWf_bumpGen (memWf_setCore (memWf_ringsThenBusy wf busy) ..) bumped) entry
      exact entryWf

theorem memWf_startAnnex {key : Nat} {r : LaunchRun} {a : Word} {d : StageDesc} {ev m : Nat}
    (e : startAnnex s key r a d ev m = .ok (some t)) : t.memWf := by
  unfold startAnnex at e
  dsimp only at e
  split at e
  · split at e
    · obtain ⟨_, started, same⟩ := exceptMap_ok (mapError_ok e)
      cases same; exact memWf_annexSteps wf started
    · cases e
  · cases e

theorem memWf_policyStart {key : Nat} {r : LaunchRun} {c : Command} {d : StageDesc}
    (e : policyStart s key r c d = .ok (some t)) : t.memWf := by
  unfold policyStart at e
  dsimp only at e
  split at e
  · cases e
  · split at e
    · split at e
      · exact memWf_startMerge wf e
      · cases e
    · split at e
      · cases e
      · split at e
        · exact memWf_startAnnex wf e
        · cases e

theorem memWf_startDenied {key : Nat} {a : Word} {fin : State → State} {d : Denied × Nat}
    (hfin : ∀ u, u.memWf → (fin u).memWf) (e : startDenied s key a fin d = some t) : t.memWf := by
  unfold startDenied at e
  split at e
  · cases e
  · refine memWf_unitFate wf (fun u _ wf e => ?_) e
    have busy : ((writeBusy u (keyCtx key) a true).toOption.getD u).memWf := by
      cases written : writeBusy u (keyCtx key) a true with
      | error _ => exact wf
      | ok v => exact memWf_writeBusy wf written
    cases e
    exact hfin _ (memWf_launchFault (memWf_ite wf busy) ..)

theorem memWf_execAnnexPolicy (e : execAnnexPolicy s = .next t) : t.memWf := by
  unfold execAnnexPolicy at e
  split at e
  · refine memWf_runStep wf (fun _ _ wf e => ?_) e
    split at e
    · cases e; exact wf
    · split at e
      · split at e
        · cases e
        · cases e; exact memWf_finishCommand wf ..
      · split at e
        · cases e; exact memWf_finishCommand wf ..
        · split at e
          · cases e; exact memWf_finishCommand wf ..
          · dsimp only at e
            split at e
            · refine memWf_deniedFate wf (fun _ _ _ _ wf1 e => ?_) e
              cases e; exact memWf_finishCommand wf1 ..
            next eq2 =>
              have wf3 := memWf_readStage wf eq2
              split at e
              · exact memWf_startDenied wf (fun _ wf => (memWf_finishCommand wf ..)) e
              · cases e; exact memWf_finishCommand wf3 ..
              next eq4 =>
                have wf5 := memWf_policyStart wf3 eq4
                cases e; exact memWf_emit (memWf_setQueue wf5 ..) ..
  · cases e; exact wf

theorem memWf_writeRecords (key : Nat) (r : LaunchRun) : (writeRecords s key r).memWf := by
  refine memWf_foldl (fun s c wf => ?_) _ (by exact wf)
  dsimp only
  split
  · exact wf
  · exact memWf_emit (memWf_setCore wf ..) _

theorem memWf_decide_ (p : Nat × LaunchRun) (credit : Bool) : (decide_ s p credit).memWf :=
  memWf_writeRecords wf p.1 p.2

theorem memWf_nameHead {all hs : List (Nat × LaunchRun)} {p : Nat × LaunchRun} {credit : Bool}
    (e : nameHead s all hs = some (p, credit, t)) : t.memWf := by
  unfold nameHead at e
  dsimp only at e
  split at e
  · cases e; exact wf
  · split at e
    · cases e; exact wf
    · obtain ⟨_, _, named⟩ := Option.map_eq_some_iff.1 e
      cases named; exact wf

theorem memWf_decideAmong (all : List (Nat × LaunchRun)) (n : Nat) (hs : List (Nat × LaunchRun)) :
    (decideAmong s all n hs).memWf := by
  induction n generalizing s hs with
  | zero => exact wf
  | succ n ih =>
    unfold decideAmong
    split
    · exact wf
    next named =>
      have namedWf := memWf_nameHead wf named
      dsimp only
      split
      · exact ih (by exact namedWf) _
      · split
        · exact ih namedWf _
        · exact memWf_decide_ namedWf ..

theorem memWf_dispatchOnce : (dispatchOnce s).memWf := by
  unfold dispatchOnce
  dsimp only
  split
  · exact memWf_decide_ (by exact wf) ..
  · exact memWf_decideAmong (by exact wf) ..

end

section
/-! ### Pre-emption, the host's mailbox, resets and the other steps -/

variable {s t : State} {α β : Type} (wf : s.memWf)
include wf

theorem memWf_execDispatchDecision (e : execDispatchDecision s = .next t) : t.memWf := by
  unfold execDispatchDecision at e
  split at e
  · refine memWf_runStep wf (fun _ _ wf e => ?_) e
    split at e
    · cases e; exact wf
    · dsimp only at e
      split at e
      · cases e; exact memWf_dispatchOnce wf
      · split at e
        · cases e; exact memWf_emit (memWf_dispatchOnce wf) ..
        · cases e
  · cases e; exact wf

theorem memWf_areaFate {x q c access : Nat} {fate : Cause → Nat → State → Option State} {a1 : Denied}
    (hfate : ∀ a b u v, u.memWf → fate a b u = some v → v.memWf) (e : areaFate s x q c access fate a1 = some t) :
    t.memWf := by
  unfold areaFate at e
  split at e
  · cases e
  · refine memWf_agentFate wf (fun _ _ wf1 e => ?_) e
    exact hfate _ _ _ _ wf1 e

theorem memWf_readPiece {a' : _} {c x a n : Nat} (e : readPiece s c x a n = .ok (a', t)) : t.memWf := by
  unfold readPiece at e
  exact memWf_unitRead wf e

theorem memWf_readThreads {c x base : Nat} {r : LaunchRun} {rec : BindRec} {ts : List Nat} {l : List Thread}
    (e : readThreads s c x base r rec ts = .ok (l, t)) : t.memWf := by
  induction ts generalizing s l with
  | nil => cases e; exact wf
  | cons i ts ih =>
    unfold readThreads at e
    split at e
    · cases e
    next piece =>
      have pieceWf := memWf_readPiece wf piece
      split at e
      · cases e
      next rest => cases e; exact ih pieceWf rest

theorem memWf_applyTouts (c order : Nat) : (applyTouts s c order).memWf := by
  unfold applyTouts
  dsimp only
  split
  · exact wf
  · exact memWf_setCore (memWf_setTouts wf ..) ..

theorem memWf_resumeIn (c : Nat) (k : Core) (rec : BindRec) : (resumeIn s c k rec).memWf := by
  unfold resumeIn
  dsimp only
  split
  · exact memWf_applyTouts (memWf_setCore wf ..) ..
  · exact memWf_setCore (memWf_applyTouts (memWf_setCore wf ..) ..) ..

theorem memWf_afterBind (c : Nat) (r : LaunchRun) : (afterBind s c r).memWf := by
  unfold afterBind
  dsimp only
  split
  · exact wf
  · exact memWf_emitAll (memWf_emitAll (memWf_emitAll wf ..) ..) ..

theorem memWf_readLocal {c x base : Nat} {ps : List (Nat × Nat)} {m : List Host.Cell}
    (e : readLocal s c x base ps = .ok (m, t)) :
    t.memWf := by
  induction ps generalizing s m with
  | nil => cases e; exact wf
  | cons p ps ih =>
    unfold readLocal at e
    split at e
    · cases e
    next piece =>
      have pieceWf := memWf_readPiece wf piece
      split at e
      · cases e
      next rest => cases e; exact ih pieceWf rest

theorem memWf_bindResume {c i : Nat} {rec : BindRec} {r : LaunchRun} (e : bindResume s c i rec r = some t) :
    t.memWf := by
  unfold bindResume at e
  dsimp only at e
  split at e
  · refine memWf_areaFate wf (fun _ _ _ _ wf1 e => ?_) e
    cases e; exact memWf_launchFault (memWf_setCore wf1 ..) ..
  next eq2 =>
    have wf3 := memWf_readThreads wf eq2
    split at e
    · refine memWf_areaFate wf (fun _ _ _ _ wf4 e => ?_) e
      cases e; exact memWf_launchFault (memWf_setCore wf4 ..) ..
    next eq5 =>
      have wf6 := memWf_readPiece wf3 eq5
      split at e
      · split at e
        · refine memWf_areaFate wf (fun _ _ _ _ wf7 e => ?_) e
          cases e; exact memWf_launchFault (memWf_setCore wf7 ..) ..
        next eq8 =>
          have wf9 := memWf_readLocal wf6 eq8
          split at e
          · refine memWf_areaFate wf (fun _ _ _ _ wf10 e => ?_) e
            cases e; exact memWf_launchFault (memWf_setCore wf10 ..) ..
          next eq11 =>
            have wf12 := memWf_readPiece wf9 eq11
            cases e; exact memWf_afterBind (by exact (memWf_resumeIn wf12 ..)) ..
      · cases e; exact memWf_afterBind (by exact (memWf_resumeIn wf6 ..)) ..

omit wf in
/-- The handler of a denied read of a rebuild keeps the memory canonical, where what it goes on with does. -/
def KeepsOn (on : Denied → (State → Option State) → State → Option State) : Prop :=
  ∀ d g, KeepsSome g → KeepsSome (on d g)

omit wf in
theorem memWf_rebuildSlots {on : Denied → (State → Option State) → State → Option State} (hon : KeepsOn on)
    {j : Journal}
    {r : RingHdr} {go : State → Option State} (hgo : KeepsSome go) (ts : List Nat) : KeepsSome
      (rebuildSlots on j r go ts) := by
  induction ts with
  | nil => exact hgo
  | cons i ts ih =>
    intro s t wf e
    unfold rebuildSlots at e
    split at e
    · exact hon _ _ ih _ _ wf e
    next read => exact ih _ _ (memWf_setCore (memWf_dispRead wf read) ..) e

omit wf in
theorem memWf_rebuildRings {on : Nat → Denied → (State → Option State) → State → Option State}
    (hon : ∀ c, KeepsOn (on c))
    {go : State → Option State} (hgo : KeepsSome go) (js : List Journal) : KeepsSome (rebuildRings on go js) := by
  induction js with
  | nil => exact hgo
  | cons j js ih =>
    intro s t wf e
    unfold rebuildRings at e
    split at e
    · exact hon _ _ _ ih _ _ wf e
    next read => exact memWf_rebuildSlots (hon _) ih _ _ _ (memWf_setCore (memWf_dispRead wf read) ..) e

theorem memWf_rebuildCore {s0 : State} (wf0 : s0.memWf) {c x q : Nat} {go : State → Option State} (hgo : KeepsSome go)
    (e : rebuildCore s0 s c x q go = some t) : t.memWf :=
  memWf_rebuildRings (fun _ _ _ hg _ _ wf e => memWf_orAsk wf wf0 hg e) hgo _ _ _ wf e

theorem memWf_bindFresh {c i : Nat} {rec : BindRec} {r : LaunchRun} (e : bindFresh s c i rec r = some t) : t.memWf := by
  unfold bindFresh at e
  dsimp only at e
  split at e
  · refine memWf_deniedFate wf (fun _ _ _ _ wf1 e => ?_) e
    cases e; exact memWf_launchFault (memWf_setCore (memWf_setCore wf1 ..) ..) ..
  next eq2 =>
    have wf3 := memWf_unitReadAs wf eq2
    split at e
    · cases e
      exact (memWf_ite (memWf_emit (memWf_afterBind (memWf_applyTouts (memWf_setCore wf3 ..) ..) ..) ..)
        (memWf_afterBind (memWf_applyTouts (memWf_setCore wf3 ..) ..) ..))
    · refine memWf_rebuildCore (memWf_applyTouts (memWf_setCore wf3 ..) ..) wf (fun _ _ wf4 e => ?_) e
      cases e; exact memWf_ite (memWf_emit (memWf_afterBind wf4 ..) ..) (memWf_afterBind wf4 ..)

theorem memWf_execBind (e : execBind s = .next t) : t.memWf := by
  unfold execBind at e
  split at e
  · refine memWf_runStep wf (fun _ _ wf e => ?_) e
    dsimp only at e
    split at e
    · split at e
      · cases e; exact memWf_emit (memWf_emit wf ..) ..
      · split at e
        · cases e; exact wf
        · cases e
    · split at e
      · cases e
      · split at e
        · cases e; exact wf
        · split at e
          · cases e; exact memWf_setCore wf ..
          · split at e
            · exact memWf_bindResume wf e
            · split at e
              · cases e
              · exact memWf_bindFresh wf e
  · cases e; exact wf

theorem memWf_spillEach {s0 : State} (wf0 : s0.memWf) {c : Nat} {go : State → Option State} {ms : List Msg}
    (hgo : KeepsSome go) (e : spillEach s0 s c go ms = some t) : t.memWf := by
  induction ms generalizing s t with
  | nil => exact hgo _ _ wf e
  | cons m ms ih => exact memWf_spillMsg wf wf0 (fun _ _ wf e => ih wf e) e

theorem memWf_spillAll {c : Nat} {go : State → Option State} (hgo : KeepsSome go) (e : spillAll s c go = some t) :
    t.memWf := by
  unfold spillAll at e
  refine memWf_spillEach (memWf_setCore wf ..) wf (fun _ _ wf1 e => ?_) e
  dsimp only at e
  exact hgo _ _ (memWf_setCore wf1 ..) e

theorem memWf_writePieces {c x base : Nat} {ps : List (Nat × Nat × Nat)} (e : writePieces s c x base ps = .ok t) :
    t.memWf := by
  induction ps generalizing s with
  | nil => cases e; exact wf
  | cons p ps ih =>
    unfold writePieces at e
    split at e
    next stored => exact ih (memWf_snd (memWf_unitWrite wf ..) stored) e
    · cases e

theorem memWf_areaDenied {c x access : Nat} {a1 : Denied} (e : areaDenied s c x access a1 = some t) : t.memWf := by
  unfold areaDenied at e
  refine memWf_areaFate wf (fun _ _ _ _ wf1 e => ?_) e
  cases e; exact memWf_launchFault wf1 ..

theorem memWf_leaveCore (c i : Nat) (r : BindRec) (b : Bound) : (leaveCore s c i r b).memWf := wf

theorem memWf_preemptCore {c i : Nat} {r : BindRec} {b : Bound} (e : preemptCore s c i r b = some t) : t.memWf := by
  unfold preemptCore at e
  refine memWf_spillAll wf (fun _ _ wf1 e => ?_) e
  dsimp only at e
  split at e
  · exact memWf_areaDenied wf e
  next eq2 =>
    have wf3 := memWf_writePieces wf1 eq2
    cases e; exact memWf_leaveCore wf3 ..

theorem memWf_execPreemption (e : execPreemption s = .next t) : t.memWf := by
  unfold execPreemption at e
  split at e
  · refine memWf_runStep wf (fun _ _ wf e => ?_) e
    split at e
    · cases e; exact wf
    · dsimp only at e
      split at e
      · exact memWf_preemptCore wf e
      · split at e
        · cases e; exact memWf_emit (memWf_emit wf ..) ..
        · cases e
  · cases e; exact wf

theorem memWf_execHostBindRecord (e : execHostBindRecord s = .next t) : t.memWf := by
  unfold execHostBindRecord at e
  split at e
  · refine memWf_runStep wf (fun _ _ wf e => ?_) e
    dsimp only at e
    split at e
    · cases e; exact wf
    · split at e
      · cases e; exact memWf_postNotice wf ..
      · split at e
        · refine memWf_deniedFate wf (fun _ _ _ _ wf1 e => ?_) e
          cases e; exact memWf_postNotice wf1 ..
        next eq2 =>
          have wf3 := memWf_dispRead wf eq2
          split at e
          · cases e; exact memWf_postNotice wf3 ..
          · cases e; exact memWf_emit (memWf_setCore (memWf_ite wf3 (by exact wf3)) ..) ..
  · cases e; exact wf

theorem memWf_createContext {x : Nat} {d : BitVec 512} (e : createContext s x d = some t) : t.memWf := by
  unfold createContext at e
  dsimp only at e
  split at e
  · cases e; exact memWf_setCtx wf ..
  · split at e
    · cases e
    · cases e; exact memWf_setCtx wf ..
    next read =>
      have readWf := memWf_dispRead (memWf_setCtx wf ..) read
      split at e
      · cases e; exact memWf_setCtx wf ..
      · cases e; exact readWf

theorem memWf_execContextCreate (e : execContextCreate s = .next t) : t.memWf := by
  unfold execContextCreate at e
  split at e
  · refine memWf_runStep wf (fun _ _ wf e => ?_) e
    split at e
    · cases e; exact wf
    · exact memWf_createContext wf e
  · cases e; exact wf

theorem memWf_refuseDestroy (x : Nat) : (refuseDestroy s x).memWf := wf

theorem memWf_destroyContext (x : Nat) : (destroyContext s x).memWf :=
  memWf_setCtx (memWf_writeBackSeed (by exact wf) _) ..

theorem memWf_execContextDestroy (e : execContextDestroy s = .next t) : t.memWf := by
  unfold execContextDestroy at e
  split at e
  · refine memWf_runStep wf (fun _ _ wf e => ?_) e
    cases e; exact memWf_ite wf (memWf_ite (memWf_refuseDestroy wf ..) (memWf_destroyContext wf ..))
  · cases e; exact wf

theorem memWf_finishMailbox (status : Nat) : (finishMailbox s status).memWf := by
  grind [State.memWf, finishMailbox]

theorem memWf_mailbox {code : Nat} {f : State → Nat × State} (hf : ∀ u, u.memWf → (f u).2.memWf)
    (e : mailbox s code f = some t) : t.memWf := by
  unfold mailbox at e
  split at e
  · cases e; exact memWf_finishMailbox (hf _ wf) _
  · cases e; exact wf

theorem memWf_pageAnswer (retry : Bool) : (pageAnswer retry s).2.memWf := by
  grind [State.memWf, pageAnswer, memWf_serveItem]

theorem memWf_execPageMap (e : execPageMap s = .next t) : t.memWf := by
  unfold execPageMap at e
  split at e
  · refine memWf_runStep wf (fun _ _ wf e => memWf_mailbox wf (fun u wf => ?_) e) e
    exact memWf_pageAnswer wf _
  · cases e; exact wf

theorem memWf_execPageDecline (e : execPageDecline s = .next t) : t.memWf := by
  unfold execPageDecline at e
  split at e
  · refine memWf_runStep wf (fun _ _ wf e => memWf_mailbox wf (fun u wf => ?_) e) e
    exact memWf_pageAnswer wf _
  · cases e; exact wf

theorem memWf_execBarrierExtend (e : execBarrierExtend s = .next t) : t.memWf := by
  unfold execBarrierExtend at e
  split at e
  · refine memWf_runStep wf (fun _ _ wf e => memWf_mailbox wf (fun u wf => ?_) e) e
    dsimp only
    split
    · exact memWf_setCore wf ..
    · exact wf
    · exact wf
  · cases e; exact wf

theorem memWf_expireAside (r : LaunchRun) (c b : Nat) (group : Bool) : (expireAside s r c b group).memWf := by
  unfold expireAside
  dsimp only
  exact memWf_foldl (fun _ _ wf => (memWf_applyTouts wf ..)) _ (memWf_setTouts wf ..)

theorem memWf_execBarrierExpire (e : execBarrierExpire s = .next t) : t.memWf := by
  unfold execBarrierExpire at e
  split at e
  · refine memWf_runStep wf (fun _ _ wf e => memWf_mailbox wf (fun u wf => ?_) e) e
    dsimp only
    split
    · exact memWf_timeoutBarrier wf ..
    · exact memWf_expireAside (by exact wf) ..
    · exact wf
  · cases e; exact wf

theorem memWf_containAt (i : TriageItem) (level : Nat) : (containAt s i level).memWf := by
  have taken : State.memWf { s with triage := s.triage.filter fun j => j != i } := wf
  unfold containAt
  dsimp only
  generalize { s with triage := s.triage.filter fun j => j != i } = u at taken ⊢
  split
  · exact memWf_emit taken _
  · exact taken
  · cases pushed : repushTask u _ i.order i.core i.task with
    | none => exact memWf_containLaunch taken ..
    | some v => exact memWf_repushTask taken pushed
  · exact memWf_setQState (memWf_containLaunch taken ..) ..
  · exact memWf_containLaunch taken ..

theorem memWf_execContain (e : execContain s = .next t) : t.memWf := by
  unfold execContain at e
  split at e
  · refine memWf_runStep wf (fun _ _ wf e => memWf_mailbox wf (fun u wf => ?_) e) e
    dsimp only
    split
    · exact wf
    next i _ =>
      generalize mbArg u 2 = level
      exact memWf_sndIte wf (memWf_containAt wf i level)
  · cases e; exact wf

theorem memWf_copyLocal (src so dst d n : Nat) : (copyLocal s src so dst d n).memWf := wf

theorem memWf_cancelSplit {a : Annex} (e : cancelSplit s a = .ok t) : t.memWf := by
  unfold cancelSplit at e
  dsimp only at e
  split at e
  · cases e
  next read =>
    split at e
    · cases e
    next entry =>
      obtain ⟨_, busy, rfl⟩ := exceptMap_ok e
      have busyWf := memWf_writeBusy (memWf_writeEntry (memWf_copyLocal (memWf_readStage wf read) ..) entry) busy
      exact memWf_postNotice (by exact busyWf) ..

theorem memWf_resetActivation (c : Nat) : (resetActivation s c).memWf := by
  have cancelled : ∀ {u : State} (n : Annex), u.memWf → ((cancelSplit u n).toOption.getD u).memWf := fun {u} n wf => by
    cases ends : cancelSplit u n with
    | error _ => exact wf
    | ok v => exact memWf_cancelSplit wf ends
  unfold resetActivation
  split
  · exact wf
  · split
    · exact memWf_deadNotice (memWf_dropActivation wf _) ..
    · exact memWf_setCore (memWf_rollback wf ..) ..
    · dsimp only
      split
      · exact cancelled _ (memWf_setAnnex (memWf_rollback wf ..) ..)
      · exact memWf_rollback wf ..
    · exact memWf_dropActivation wf _
    · exact memWf_rollback wf ..

theorem memWf_undoThreads : (undoThreads s).memWf := by
  grind [State.memWf, undoThreads, memWf_undoHolds, memWf_foldl, = Option.bind_eq_some_iff, =
    Option.map_eq_some_iff, Mem.wf_write]

theorem memWf_resetRegisters : (resetRegisters s).memWf := wf

theorem memWf_emptySlices (lost : Option Nat) : (emptySlices s lost).memWf := by
  grind [State.memWf, emptySlices, memWf_foldl, = Option.bind_eq_some_iff, = Option.map_eq_some_iff, Mem.wf_write]

theorem memWf_rebuildAll : (rebuildAll s).memWf := by
  refine memWf_foldl (fun s j wf => ?_) _ wf
  have asks : ∀ c, KeepsOn fun d go s => match d with
      | .fault .notPresent va => go ((askOther s j.ctx 0 c va 1).elim s (·.2))
      | _ => go s := fun c d g hg u v wf e => by
    dsimp only at e
    split at e
    next va =>
      refine hg _ _ ?_ e
      cases asked : askOther u j.ctx 0 c va 1 with
      | none => exact wf
      | some p => exact memWf_askOther wf (b' := p.1) asked
    · exact hg _ _ wf e
  cases rebuilt : rebuildRings _ some [j] s with
  | none => exact wf
  | some u => exact memWf_rebuildRings asks (fun _ _ wf e => by cases e; exact wf) _ _ _ wf rebuilt

theorem memWf_resetLaunch (running torn : Bool) (key : Nat) (r : LaunchRun) :
    (resetLaunch running torn s key r).memWf := by
  unfold resetLaunch
  dsimp only
  split
  · exact wf
  · split
    · exact memWf_bindAgain wf ..
    · split
      · split
        · exact memWf_endLaunch wf ..
        · exact memWf_setQState (memWf_endLaunch wf ..) ..
      · split
        · split
          · exact memWf_endLaunch wf ..
          · exact memWf_bindAgain wf ..
        · split
          · exact memWf_bindAgain wf ..
          · exact memWf_endLaunch wf ..

theorem memWf_warmReset (lost : Option Nat) : (warmReset s lost).memWf := by
  unfold warmReset
  dsimp only
  exact (memWf_foldl (fun _ _ wf => (memWf_postNotice wf ..)) _ (memWf_foldl
    (fun _ _ wf => (memWf_resetLaunch wf ..)) _ (memWf_rebuildAll
    (by exact (memWf_resetRegisters (memWf_emptySlices (memWf_undoThreads
    (memWf_foldl (fun _ _ wf => (memWf_resetActivation wf ..)) _ wf)) ..))))))

theorem memWf_execWarmReset (e : execWarmReset s = .next t) : t.memWf := by
  unfold execWarmReset at e
  split at e
  · refine memWf_runStep wf (fun _ _ wf e => ?_) e
    cases e; exact memWf_ite (memWf_finishMailbox (by exact (memWf_warmReset wf ..)) ..) (memWf_warmReset wf ..)
  · cases e; exact wf

theorem memWf_execAttest (e : execAttest s = .next t) : t.memWf := by
  unfold execAttest at e
  split at e
  · refine memWf_runStep wf (fun _ _ wf e => memWf_mailbox wf (fun u wf => ?_) e) e
    have kept : ∀ dev : List Host.Cell, State.memWf { u with dev := dev } := fun _ => wf
    exact kept _
  · cases e; exact wf

theorem memWf_execFirmwareStage (e : execFirmwareStage s = .next t) : t.memWf := by
  unfold execFirmwareStage at e
  split at e
  · refine memWf_runStep wf (fun _ _ wf e => memWf_mailbox wf (fun u wf => ?_) e) e
    dsimp only
    split
    · exact wf
    · split
      · split <;> exact wf
      · exact wf
  · cases e; exact wf

theorem memWf_execFirmwareActivate (e : execFirmwareActivate s = .next t) : t.memWf := by
  unfold execFirmwareActivate at e
  split at e
  · refine memWf_runStep wf (fun _ _ wf e => memWf_mailbox wf (fun u wf => ?_) e) e
    exact memWf_sndIte (by exact wf) wf
  · cases e; exact wf

theorem memWf_execTlbInvalidate (e : execTlbInvalidate s = .next t) : t.memWf := by
  unfold execTlbInvalidate at e
  split at e
  · refine memWf_runStep wf (fun _ _ wf e => memWf_mailbox wf (fun u wf => ?_) e) e
    dsimp only
    generalize mbArg u 0 = x, mbArg u 1 = mode, mbArg u 2 = va
    exact memWf_sndIte wf (memWf_dropTlb wf ..)
  · cases e; exact wf

theorem memWf_failover : (failover s).memWf := wf

theorem memWf_loseManagement : (loseManagement s).memWf := by
  unfold loseManagement
  split
  · exact memWf_failover wf
  · exact memWf_warmReset wf ..

theorem memWf_execUnitLoss (e : execUnitLoss s = .next t) : t.memWf := by
  unfold execUnitLoss at e
  split at e
  next u _ =>
    refine memWf_runStep wf (fun _ _ wf e => ?_) e
    cases e
    cases u with
    | slice n => exact memWf_warmReset wf _
    | bridge => exact memWf_warmReset wf _
    | channel st ch => exact memWf_warmReset (by exact wf) _
    | management => exact memWf_loseManagement wf
  · cases e; exact wf

omit wf in
theorem memWf_reset : State.reset.memWf := rfl

theorem memWf_execColdReset (e : execColdReset s = .next t) : t.memWf := by
  unfold execColdReset at e
  split at e
  · refine memWf_runStep wf (fun _ _ _ e => ?_) e
    cases e; exact memWf_reset
  · cases e; exact wf

theorem memWf_execManagementFailover (e : execManagementFailover s = .next t) : t.memWf := by
  unfold execManagementFailover at e
  split at e
  · refine memWf_runStep wf (fun _ _ wf e => ?_) e
    cases e; exact memWf_loseManagement wf
  · cases e; exact wf

theorem memWf_decouple (l f : Nat) : (decouple s l f).memWf := wf

theorem memWf_releaseInterval (l f agreed reruns ties : Nat) : (releaseInterval s l f agreed reruns ties).memWf := by
  grind [State.memWf, releaseInterval, memWf_setCore, memWf_emit, memWf_dropHolds, memWf_routeMsg, memWf_foldl, =
    Option.bind_eq_some_iff, = Option.map_eq_some_iff, Mem.wf_write]

theorem memWf_divergence (l f : Nat) : (divergence s l f).memWf := by
  unfold divergence
  dsimp only
  split
  · exact memWf_launchFault (memWf_setCore (memWf_setCore (memWf_undoHolds wf ..) ..) ..) ..
  · exact (memWf_foldl (fun _ _ wf => (memWf_ite (memWf_threadFault wf ..) wf)) _
      (memWf_setCore (memWf_setCore (memWf_undoHolds wf ..) ..) ..))

theorem memWf_compareInterval (l f : Nat) (v : Verdict) : (compareInterval s l f v).memWf := by
  have parts : ∀ {u : State}, u.memWf → ∀ (c : Prop) [Decidable c], (if c then decouple u l f else u).memWf :=
    fun wf _ _ => memWf_ite (memWf_decouple wf ..) wf
  have reruns : ∀ {u : State}, u.memWf → (monitorEvent u (some l) 0 0 8 (u.coreCtx l) 1).memWf := fun wf =>
    memWf_monitorEvent wf ..
  have chosen : ∀ {u : State} (b : Nat) (k : Core), u.memWf → (State.setCore { u with free := u.free + 1 } b k).memWf :=
    fun _ _ wf => wf
  unfold compareInterval
  cases v with
  | agree => exact parts (memWf_releaseInterval wf ..) _
  | rerunAgrees => exact parts (reruns (memWf_releaseInterval wf ..)) _
  | tieBreak => exact parts (reruns (memWf_releaseInterval (chosen _ _ wf) ..)) _
  | unresolvable => exact memWf_divergence (reruns wf) ..

theorem memWf_execIntervalCompare (e : execIntervalCompare s = .next t) : t.memWf := by
  unfold execIntervalCompare at e
  split at e
  · refine memWf_runStep wf (fun _ _ wf e => ?_) e
    split at e
    · cases e; exact memWf_compareInterval wf ..
    · cases e; exact wf
  · cases e; exact wf

theorem memWf_monitorPost (r : LaunchRun) (a : Word) (d : StageDesc) (mon : StageMon) :
    (monitorPost s r a d mon).1.memWf := by
  grind [State.memWf, monitorPost, memWf_postNotice, memWf_foldl, = Option.bind_eq_some_iff, =
    Option.map_eq_some_iff, Mem.wf_write]

theorem memWf_monitorStart {key : Nat} {r : LaunchRun} {a : Word} {d : StageDesc} {mon : StageMon}
    (e : monitorStart s key r a d mon = .ok (some t)) : t.memWf := by
  unfold monitorStart at e
  split at e
  · exact memWf_startAnnex wf e
  · split at e
    · exact memWf_startMerge wf e
    · cases e

theorem memWf_sampleStage {key : Nat} {r : LaunchRun} {a : Word} {d : StageDesc} (e : sampleStage s key r a d = .ok t) :
    t.memWf := by
  unfold sampleStage at e
  dsimp only at e
  split at e
  · have posted := fun mon => memWf_monitorPost wf r a d mon
    cases e
    exact posted _
  · obtain ⟨o, begun, rfl⟩ := exceptMap_ok e
    cases o with
    | none => exact wf
    | some u => exact memWf_monitorStart (by exact wf) begun

theorem memWf_execStageMonitorSample (e : execStageMonitorSample s = .next t) : t.memWf := by
  unfold execStageMonitorSample at e
  have again : ∀ (u : State) (ms : SMap StageMon) (ev : Event), u.memWf →
    (State.emit { u with stages := ms } ev).memWf :=
    fun _ _ _ wf => wf
  split at e
  · refine memWf_runStep wf (fun _ _ wf e => ?_) e
    split at e
    · split at e
      · cases e; exact wf
      · cases e
    · split at e
      · cases e; exact wf
      · dsimp only at e
        split at e
        · refine memWf_deniedFate wf (fun _ _ _ _ wf e => ?_) e
          cases e; exact again _ _ _ wf
        next read =>
          have readWf := memWf_readStage wf read
          split at e
          · cases e; exact again _ _ _ readWf
          · split at e
            · exact memWf_startDenied wf (fun _ wf => again _ _ _ wf) e
            next sampled => cases e; exact memWf_emit (memWf_sampleStage readWf sampled) _
  · cases e; exact wf

theorem memWf_withAnnex {o : Nat} {merge : Bool} {f : Annex → Option State} (hf : ∀ a v, f a = some v → v.memWf)
    (e : withAnnex s o merge f = some t) : t.memWf := by
  unfold withAnnex at e
  split at e
  · split at e
    · exact hf _ _ e
    · cases e
  · split at e
    · cases e
    · cases e; exact wf

theorem memWf_annexDenied {a : Annex} {access : Nat} {a1 : Denied} (e : annexDenied s a access a1 = some t) :
    t.memWf := by
  unfold annexDenied at e
  refine memWf_deniedFate wf (fun _ _ _ _ wf1 e => ?_) e
  cases e; exact memWf_launchFault (by exact wf1) ..

theorem memWf_execSplitActivation (e : execSplitActivation s = .next t) : t.memWf := by
  unfold execSplitActivation at e
  split at e
  · refine memWf_runStep wf (fun _ _ wf e => ?_) e
    refine memWf_withAnnex wf (fun _ _ e => ?_) e
    split at e
    · split at e
      · exact memWf_annexDenied wf e
      next eq2 =>
        have wf3 := memWf_cancelSplit wf eq2
        cases e; exact wf3
    · split at e
      · cases e; exact wf
      · split at e
        · cases e
        · split at e
          · exact memWf_annexDenied wf e
          next eq4 =>
            have wf5 := memWf_readStage wf eq4
            cases e; exact memWf_startActivation (memWf_copyLocal wf5 ..) ..
  · cases e; exact wf

theorem memWf_bumpEntries {x : Nat} {a : Word} {gen : Nat} {es : List (Nat × Nat)}
    (e : bumpEntries s x a gen es = .ok t) :
    t.memWf := by
  induction es generalizing s with
  | nil => cases e; exact wf
  | cons p es ih =>
    unfold bumpEntries at e
    split at e
    · cases e
    next entry => exact ih (memWf_writeEntry wf entry) e

theorem memWf_annexGen {a : Annex} {d : StageDesc} (e : annexGen s a d = .ok t) : t.memWf := by
  unfold annexGen at e
  split at e
  · cases e
  next bumped =>
    obtain ⟨_, entries, rfl⟩ := exceptMap_ok e
    exact memWf_setAnnex (memWf_bumpEntries (memWf_bumpGen wf bumped) entries) ..

theorem memWf_forwardSlot (y h v : Nat) : (forwardSlot s y h v).memWf := by
  unfold forwardSlot
  dsimp only
  exact memWf_putSlot (memWf_setCore wf ..) ..

theorem memWf_rewriteSlot {o h i v : Nat} (e : rewriteSlot s o h i v = .ok t) : t.memWf := by
  unfold rewriteSlot at e
  dsimp only at e
  split at e
  · split at e
    next eq1 =>
      have wf2 := memWf_snd (memWf_unitWrite (memWf_setCore wf ..) ..) eq1
      cases e; exact memWf_writeThrough wf2 ..
    · cases e
  · cases e; exact memWf_setCore wf ..

theorem memWf_forwardRecords {a : Annex} {d : StageDesc} {n : Nat} {rs : List (Nat × Nat)} {m : Nat}
    (e : forwardRecords s a d n rs = .ok (m, t)) : t.memWf := by
  induction rs generalizing s n with
  | nil => cases e; exact wf
  | cons r rs ih =>
    unfold forwardRecords at e
    dsimp only at e
    generalize (if a.b = 0 then 2 ^ 64 else a.b.toNat) = hi at e
    split at e
    · exact ih (memWf_forwardSlot wf ..) e
    · split at e
      · cases e
      next slot => exact ih (memWf_rewriteSlot wf slot) e

theorem memWf_clearTickets (o h n t : Nat) : (clearTickets s o h n t).memWf :=
    (memWf_foldl (fun _ _ wf => (memWf_setMirror (memWf_setCore wf ..) ..)) _ wf)

theorem memWf_annexForward {a : Annex} {d : StageDesc} (e : annexForward s a d = .ok (some t)) : t.memWf := by
  unfold annexForward at e
  dsimp only at e
  split at e
  · cases e
  · split at e
    · cases e
    · split at e
      · cases e
      next forwarded =>
        obtain ⟨_, header, same⟩ := exceptMap_ok e
        cases same
        exact memWf_copyHeader (memWf_clearTickets (memWf_setCore (memWf_forwardRecords wf forwarded) ..) ..) header

theorem memWf_finishPolicy (a : Annex) : (finishPolicy s a).memWf := by
  unfold finishPolicy
  dsimp only
  split
  · exact memWf_finishCommand (by exact wf) ..
  · exact wf

theorem memWf_annexClose {a : Annex} {ev : Nat} (e : annexClose s a ev = .ok t) : t.memWf := by
  unfold annexClose at e
  split at e
  · cases e
  next entry =>
    obtain ⟨_, busy, rfl⟩ := exceptMap_ok e
    exact memWf_finishPolicy (memWf_writeBusy (memWf_writeEntry wf entry) busy) _

theorem memWf_execAnnexForward (e : execAnnexForward s = .next t) : t.memWf := by
  unfold execAnnexForward at e
  split at e
  · refine memWf_runStep wf (fun _ _ wf e => ?_) e
    refine memWf_withAnnex wf (fun _ _ e => ?_) e
    split at e
    · exact memWf_annexDenied wf e
    next eq2 =>
      have wf3 := memWf_readStage wf eq2
      split at e
      · split at e
        · exact memWf_annexDenied wf e
        next eq4 =>
          have wf5 := memWf_annexGen wf3 eq4
          cases e; exact memWf_emit wf5 ..
      · split at e
        · split at e
          · exact memWf_annexDenied wf e
          · cases e
          next eq6 =>
            have wf7 := memWf_annexForward wf3 eq6
            dsimp only at e
            split at e
            · exact memWf_annexDenied wf e
            next eq8 =>
              have wf9 := memWf_annexClose wf7 eq8
              cases e; exact wf9
        · cases e; exact wf
  · cases e; exact wf

theorem memWf_execMergeActivation (e : execMergeActivation s = .next t) : t.memWf := by
  unfold execMergeActivation at e
  split at e
  · refine memWf_runStep wf (fun _ _ wf e => ?_) e
    refine memWf_withAnnex wf (fun _ _ e => ?_) e
    split at e
    · exact memWf_annexDenied wf e
    next eq2 =>
      have wf3 := memWf_readStage wf eq2
      split at e
      · exact memWf_annexDenied wf e
      · split at e
        · split at e
          · cases e
          · cases e; exact memWf_emit (memWf_setAnnex (memWf_copyLocal wf3 ..) ..) ..
        · split at e
          · split at e
            · cases e
            · cases e; exact memWf_emit (memWf_startActivation wf3 ..) ..
          · split at e
            · exact memWf_annexDenied wf e
            next eq4 =>
              have wf5 := memWf_annexClose wf3 eq4
              cases e; exact wf5
  · cases e; exact wf

theorem memWf_portError : (portError s).memWf := wf

theorem memWf_noteHeader (x va : Nat) (data : List Byte) (q : Nat) : (noteHeader s x va data q).memWf := by
  grind [State.memWf, noteHeader, memWf_emit, memWf_settleQueue, memWf_disableQueue]

theorem memWf_execHostBar2Write (e : execHostBar2Write s = .next t) : t.memWf := by
  unfold execHostBar2Write at e
  split at e
  · refine memWf_runStep wf (fun _ _ wf e => ?_) e
    split at e
    · cases e; exact memWf_portError wf
    · dsimp only at e
      split at e
      · split at e
        · cases e
        · refine memWf_unitFate wf (fun _ _ wf1 e => ?_) e
          cases e; exact memWf_portError wf1
      · split at e
        · split at e
          · cases e
          · refine memWf_unitFate wf (fun _ _ wf4 e => ?_) e
            cases e; exact memWf_portError wf4
        next eq5 =>
          have wf6 := memWf_snd (memWf_unitWrite wf ..) eq5
          cases e; exact memWf_foldl (fun _ _ wf => (memWf_noteHeader wf ..)) _ wf6
  · cases e; exact wf

theorem memWf_execHostBar2Read (e : execHostBar2Read s = .next t) : t.memWf := by
  unfold execHostBar2Read at e
  split at e
  · refine memWf_runStep wf (fun _ _ wf e => ?_) e
    dsimp only at e
    split at e
    · cases e; exact wf
    · split at e
      · cases e
      · refine memWf_unitFate wf (fun _ _ wf1 e => ?_) e
        cases e; exact wf1
      next eq2 =>
        have wf3 := memWf_unitRead wf eq2
        cases e; exact wf3
  · cases e; exact wf

theorem memWf_setMonitor (m : Nat) (v : Word) : (setMonitor s m v).memWf := wf

theorem memWf_execMonitorConfigWrite (e : execMonitorConfigWrite s = .next t) : t.memWf := by
  unfold execMonitorConfigWrite at e
  split at e
  · refine memWf_runStep wf (fun _ _ wf e => ?_) e
    cases e; exact memWf_setMonitor wf ..
  · cases e; exact wf

theorem memWf_writeCtxReg (x i : Nat) (v : Word) : (writeCtxReg s x i v).memWf := by
  unfold writeCtxReg
  dsimp only
  split
  · split
    · exact memWf_emit (by exact wf) ..
    · split
      · exact memWf_emit (by exact wf) ..
      · split
        · exact memWf_setCtx (by exact wf) ..
        · exact wf
  · split
    · exact memWf_setCtx (by exact wf) ..
    · exact wf

theorem memWf_writeSlotReg (c j i : Nat) (v : Word) : (writeSlotReg s c j i v).memWf := by
  unfold writeSlotReg
  split
  · exact wf
  · dsimp only
    split
    · exact memWf_emit (by exact wf) ..
    · exact wf

theorem memWf_writeDoorbell (v : Word) : (writeDoorbell s v).memWf := by
  unfold writeDoorbell
  split
  · exact wf
  · dsimp only
    split
    · split
      · exact memWf_emit (by exact wf) ..
      · exact memWf_finishMailbox (by exact wf) ..
    · exact wf

theorem memWf_execRegisterWrite (e : execRegisterWrite s = .next t) : t.memWf := by
  unfold execRegisterWrite at e
  split at e
  · refine memWf_runStep wf (fun _ _ wf e => ?_) e
    cases e
    exact (memWf_ite (memWf_writeCtxReg wf ..) (memWf_ite (memWf_writeSlotReg wf ..)
      (memWf_ite (by exact wf) (memWf_ite (memWf_writeDoorbell wf ..) (memWf_ite (memWf_setMonitor wf ..) wf)))))
  · cases e; exact wf

theorem memWf_execClockThrottle (e : execClockThrottle s = .next t) : t.memWf := by
  unfold execClockThrottle at e
  split at e
  · refine memWf_runStep wf (fun _ _ wf e => ?_) e
    cases e; exact wf
  · cases e; exact wf

theorem memWf_execPairTimeout (e : execPairTimeout s = .next t) : t.memWf := by
  unfold execPairTimeout at e
  split at e
  · refine memWf_runStep wf (fun _ _ wf e => ?_) e
    obtain ⟨_, e⟩ := Option.ite_none_right_eq_some.1 e
    cases e; exact memWf_trapThread wf ..
  · cases e; exact wf

theorem memWf_loseCore (c : Nat) : (loseCore s c).memWf := by
  unfold loseCore
  dsimp only
  split
  · exact wf
  · split
    · exact (memWf_foldl (fun _ _ wf => (memWf_ite (memWf_threadFault wf ..) wf)) _
        (memWf_ite (memWf_handlerFault (memWf_setCore wf ..) ..) (memWf_setCore wf ..)))
    · exact (memWf_launchFault (memWf_foldl (fun _ _ wf => (memWf_ite (memWf_threadFault wf ..) wf)) _
        (memWf_ite (memWf_handlerFault (memWf_setCore wf ..) ..) (memWf_setCore wf ..))) ..)

theorem memWf_execCoreLoss (e : execCoreLoss s = .next t) : t.memWf := by
  unfold execCoreLoss at e
  split at e
  · refine memWf_runStep wf (fun _ _ wf e => ?_) e
    cases e; exact memWf_loseCore wf ..
  · cases e; exact wf











theorem memWf_advance (cycles ns : Nat) : (advance s cycles ns).memWf := wf

end

section
/-! ### The instruction, the bundle, the turn and the step -/

variable {s t : State} {α β : Type} (wf : s.memWf)
include wf

theorem memWf_exec (i : Instr) (e : exec i s = .next t) : t.memWf := by
  cases i with
  | syscall => exact memWf_execSyscall wf e
  | tret => exact memWf_execTret wf e
  | wfi => exact memWf_execWfi wf e
  | pair => exact memWf_execPair wf e
  | unpair => exact memWf_execUnpair wf e
  | tlbinv => exact memWf_execTlbinv wf e
  | seedset => exact memWf_execSeedset wf e
  | cflush => exact memWf_execCflush wf e
  | beq => exact memWf_execBeq wf e
  | bne => exact memWf_execBne wf e
  | blt => exact memWf_execBlt wf e
  | bge => exact memWf_execBge wf e
  | bltu => exact memWf_execBltu wf e
  | bgeu => exact memWf_execBgeu wf e
  | jal => exact memWf_execJal wf e
  | jalr => exact memWf_execJalr wf e
  | fork => exact memWf_execFork wf e
  | join => exact memWf_execJoin wf e
  | tdone => exact memWf_execTdone wf e
  | yield => exact memWf_execYield wf e
  | hbeat => exact memWf_execHbeat wf e
  | wfe => exact memWf_execWfe wf e
  | sev => exact memWf_execSev wf e
  | binit => exact memWf_execBinit wf e
  | barrive => exact memWf_execBarrive wf e
  | bwait => exact memWf_execBwait wf e
  | bsync => exact memWf_execBsync wf e
  | bcomb => exact memWf_execBcomb wf e
  | bswap => exact memWf_execBswap wf e
  | bquery => exact memWf_execBquery wf e
  | ldB => exact memWf_execLdB wf e
  | ldBu => exact memWf_execLdBu wf e
  | ldH => exact memWf_execLdH wf e
  | ldHu => exact memWf_execLdHu wf e
  | ldW => exact memWf_execLdW wf e
  | ldWu => exact memWf_execLdWu wf e
  | ldD => exact memWf_execLdD wf e
  | ldQ => exact memWf_execLdQ wf e
  | stB => exact memWf_execStB wf e
  | stH => exact memWf_execStH wf e
  | stW => exact memWf_execStW wf e
  | stD => exact memWf_execStD wf e
  | stQ => exact memWf_execStQ wf e
  | amoadd => exact memWf_execAmoadd wf e
  | amoand => exact memWf_execAmoand wf e
  | amoor => exact memWf_execAmoor wf e
  | amoxor => exact memWf_execAmoxor wf e
  | amomin => exact memWf_execAmomin wf e
  | amomax => exact memWf_execAmomax wf e
  | amominu => exact memWf_execAmominu wf e
  | amomaxu => exact memWf_execAmomaxu wf e
  | amoswap => exact memWf_execAmoswap wf e
  | amofadd => exact memWf_execAmofadd wf e
  | cas => exact memWf_execCas wf e
  | cas2 => exact memWf_execCas2 wf e
  | amoz => exact memWf_execAmoz wf e
  | vld => exact memWf_execVld wf e
  | vst => exact memWf_execVst wf e
  | vlds => exact memWf_execVlds wf e
  | vsts => exact memWf_execVsts wf e
  | vgath => exact memWf_execVgath wf e
  | vscat => exact memWf_execVscat wf e
  | vldp => exact memWf_execVldp wf e
  | vstp => exact memWf_execVstp wf e
  | pref => exact memWf_execPref wf e
  | czero => exact memWf_execCzero wf e
  | lld => exact memWf_execLld wf e
  | lldWf => exact memWf_execLldWf wf e
  | lldWfc => exact memWf_execLldWfc wf e
  | lst => exact memWf_execLst wf e
  | lstSf => exact memWf_execLstSf wf e
  | lstWesf => exact memWf_execLstWesf wf e
  | vlld => exact memWf_execVlld wf e
  | vlst => exact memWf_execVlst wf e
  | lgath => exact memWf_execLgath wf e
  | xst => exact memWf_execXst wf e
  | vxst => exact memWf_execVxst wf e
  | lamoadd => exact memWf_execLamoadd wf e
  | lcas => exact memWf_execLcas wf e
  | copy => exact memWf_execCopy wf e
  | copy2d => exact memWf_execCopy2d wf e
  | cstat => exact memWf_execCstat wf e
  | fewait => exact memWf_execFewait wf e
  | feset => exact memWf_execFeset wf e
  | feclr => exact memWf_execFeclr wf e
  | subs => exact memWf_execSubs wf e
  | unsubs => exact memWf_execUnsubs wf e
  | sopen => exact memWf_execSopen wf e
  | spop => exact memWf_execSpop wf e
  | vspop => exact memWf_execVspop wf e
  | sadv => exact memWf_execSadv wf e
  | stend => exact memWf_execStend wf e
  | sfib => exact memWf_execSfib wf e
  | sclose => exact memWf_execSclose wf e
  | rtick => exact memWf_execRtick wf e
  | rput => exact memWf_execRput wf e
  | rtake => exact memWf_execRtake wf e
  | rrel => exact memWf_execRrel wf e
  | kroute => exact memWf_execKroute wf e
  | lwrd => exact memWf_execLwrd wf e
  | lwrdx => exact memWf_execLwrdx wf e
  | lwpeek => exact memWf_execLwpeek wf e
  | lwadd => exact memWf_execLwadd wf e
  | lwset => exact memWf_execLwset wf e
  | lwinit => exact memWf_execLwinit wf e
  | lwdep => exact memWf_execLwdep wf e
  | lwnow => exact memWf_execLwnow wf e
  | lwstep => exact memWf_execLwstep wf e
  | lwsweep => exact memWf_execLwsweep wf e
  | msend => exact memWf_execMsend wf e
  | hend => exact memWf_execHend wf e
  | anxput => exact memWf_execAnxput wf e
  | anxend => exact memWf_execAnxend wf e
  | fence => exact memWf_execFence wf e
  | isync => exact memWf_execIsync wf e
  | bkany => exact memWf_execBkany wf e
  | bkall => exact memWf_execBkall wf e
  | srrd => exact memWf_execSrrd wf e
  | srwr => exact memWf_execSrwr wf e
  | srset => exact memWf_execSrset wf e
  | srclr => exact memWf_execSrclr wf e
  | vx => exact memWf_execVx wf e
  | rep => exact memWf_execRep wf e
  | add => exact memWf_execAdd wf e
  | sub => exact memWf_execSub wf e
  | and => exact memWf_execAnd wf e
  | or => exact memWf_execOr wf e
  | xor => exact memWf_execXor wf e
  | sll => exact memWf_execSll wf e
  | srl => exact memWf_execSrl wf e
  | sra => exact memWf_execSra wf e
  | mul => exact memWf_execMul wf e
  | mulh => exact memWf_execMulh wf e
  | mulhu => exact memWf_execMulhu wf e
  | div => exact memWf_execDiv wf e
  | divu => exact memWf_execDivu wf e
  | rem => exact memWf_execRem wf e
  | remu => exact memWf_execRemu wf e
  | min => exact memWf_execMin wf e
  | max => exact memWf_execMax wf e
  | minu => exact memWf_execMinu wf e
  | maxu => exact memWf_execMaxu wf e
  | slt => exact memWf_execSlt wf e
  | sltu => exact memWf_execSltu wf e
  | sel => exact memWf_execSel wf e
  | clz => exact memWf_execClz wf e
  | ctz => exact memWf_execCtz wf e
  | popc => exact memWf_execPopc wf e
  | addi => exact memWf_execAddi wf e
  | andi => exact memWf_execAndi wf e
  | ori => exact memWf_execOri wf e
  | xori => exact memWf_execXori wf e
  | slli => exact memWf_execSlli wf e
  | srli => exact memWf_execSrli wf e
  | srai => exact memWf_execSrai wf e
  | slti => exact memWf_execSlti wf e
  | sltiu => exact memWf_execSltiu wf e
  | lui => exact memWf_execLui wf e
  | fadd => exact memWf_execFadd wf e
  | fsub => exact memWf_execFsub wf e
  | fmul => exact memWf_execFmul wf e
  | fdiv => exact memWf_execFdiv wf e
  | fsqrt => exact memWf_execFsqrt wf e
  | fmin => exact memWf_execFmin wf e
  | fmax => exact memWf_execFmax wf e
  | fma => exact memWf_execFma wf e
  | fcmp => exact memWf_execFcmp wf e
  | fcvt => exact memWf_execFcvt wf e
  | fclass => exact memWf_execFclass wf e
  | fsgn => exact memWf_execFsgn wf e
  | vadd => exact memWf_execVadd wf e
  | vsub => exact memWf_execVsub wf e
  | vmul => exact memWf_execVmul wf e
  | vmulh => exact memWf_execVmulh wf e
  | vmin => exact memWf_execVmin wf e
  | vmax => exact memWf_execVmax wf e
  | vand => exact memWf_execVand wf e
  | vor => exact memWf_execVor wf e
  | vxor => exact memWf_execVxor wf e
  | vshl => exact memWf_execVshl wf e
  | vshr => exact memWf_execVshr wf e
  | vsra => exact memWf_execVsra wf e
  | vabs => exact memWf_execVabs wf e
  | vcmp => exact memWf_execVcmp wf e
  | vsel => exact memWf_execVsel wf e
  | vadds => exact memWf_execVadds wf e
  | vfadd => exact memWf_execVfadd wf e
  | vfsub => exact memWf_execVfsub wf e
  | vfmul => exact memWf_execVfmul wf e
  | vfma => exact memWf_execVfma wf e
  | vfmin => exact memWf_execVfmin wf e
  | vfmax => exact memWf_execVfmax wf e
  | vfcmp => exact memWf_execVfcmp wf e
  | vfabs => exact memWf_execVfabs wf e
  | vfdot => exact memWf_execVfdot wf e
  | vcvt => exact memWf_execVcvt wf e
  | vquant => exact memWf_execVquant wf e
  | vdeq => exact memWf_execVdeq wf e
  | vbcast => exact memWf_execVbcast wf e
  | vperm => exact memWf_execVperm wf e
  | vslide => exact memWf_execVslide wf e
  | viota => exact memWf_execViota wf e
  | vcompress => exact memWf_execVcompress wf e
  | vexpand => exact memWf_execVexpand wf e
  | vred => exact memWf_execVred wf e
  | vscan => exact memWf_execVscan wf e
  | vtopk => exact memWf_execVtopk wf e
  | vzip => exact memWf_execVzip wf e
  | vexp2 => exact memWf_execVexp2 wf e
  | vlog2 => exact memWf_execVlog2 wf e
  | vrcp => exact memWf_execVrcp wf e
  | vrsqrt => exact memWf_execVrsqrt wf e
  | vsin => exact memWf_execVsin wf e
  | vtanh => exact memWf_execVtanh wf e
  | vsigm => exact memWf_execVsigm wf e
  | kand => exact memWf_execKand wf e
  | kor => exact memWf_execKor wf e
  | kxor => exact memWf_execKxor wf e
  | knot => exact memWf_execKnot wf e
  | kpopc => exact memWf_execKpopc wf e
  | kfirst => exact memWf_execKfirst wf e
  | kmov => exact memWf_execKmov wf e
  | vmvx => exact memWf_execVmvx wf e
  | vmvs => exact memWf_execVmvs wf e
  | vmov => exact memWf_execVmov wf e
  | tmodeOn => exact memWf_execTmodeOn wf e
  | tmodeOff => exact memWf_execTmodeOff wf e
  | tzero => exact memWf_execTzero wf e
  | top => exact memWf_execTop wf e
  | tops => exact memWf_execTops wf e
  | trowst => exact memWf_execTrowst wf e
  | loadReply => exact memWf_execLoadReply wf e
  | storeRefused => exact memWf_execStoreRefused wf e
  | pageWalk => exact memWf_execPageWalk wf e
  | pageFaultService => exact memWf_execPageFaultService wf e
  | sectorFill => exact memWf_execSectorFill wf e
  | channelControllerLoss => exact memWf_execChannelControllerLoss wf e
  | lineEviction => exact memWf_execLineEviction wf e
  | copyTransfer => exact memWf_execCopyTransfer wf e
  | kioskPushTile => exact memWf_execKioskPushTile wf e
  | kioskPullTile => exact memWf_execKioskPullTile wf e
  | journalWrite => exact memWf_execJournalWrite wf e
  | horizonSweep => exact memWf_execHorizonSweep wf e
  | streamReadAhead => exact memWf_execStreamReadAhead wf e
  | lawEventRecord => exact memWf_execLawEventRecord wf e
  | fanOutDeposit => exact memWf_execFanOutDeposit wf e
  | messageArrival => exact memWf_execMessageArrival wf e
  | hostMailboxNotice => exact memWf_execHostMailboxNotice wf e
  | messageAcknowledgement => exact memWf_execMessageAcknowledgement wf e
  | messageRelease => exact memWf_execMessageRelease wf e
  | handlerActivation => exact memWf_execHandlerActivation wf e
  | budgetFault => exact memWf_execBudgetFault wf e
  | remoteLoad => exact memWf_execRemoteLoad wf e
  | remoteStore => exact memWf_execRemoteStore wf e
  | remoteAtomic => exact memWf_execRemoteAtomic wf e
  | remoteLaw => exact memWf_execRemoteLaw wf e
  | remoteFault => exact memWf_execRemoteFault wf e
  | drtRetransmit => exact memWf_execDrtRetransmit wf e
  | linkPortFailure => exact memWf_execLinkPortFailure wf e
  | workSearch => exact memWf_execWorkSearch wf e
  | backOff => exact memWf_execBackOff wf e
  | steal => exact memWf_execSteal wf e
  | stealAnswer => exact memWf_execStealAnswer wf e
  | eventLatchSet => exact memWf_execEventLatchSet wf e
  | wfeTimeout => exact memWf_execWfeTimeout wf e
  | feTimeout => exact memWf_execFeTimeout wf e
  | groupBarrierArrival => exact memWf_execGroupBarrierArrival wf e
  | barrierRelease => exact memWf_execBarrierRelease wf e
  | barrierTimeout => exact memWf_execBarrierTimeout wf e
  | heartbeatMiss => exact memWf_execHeartbeatMiss wf e
  | strandsDone => exact memWf_execStrandsDone wf e
  | launchStop => exact memWf_execLaunchStop wf e
  | doneWord => exact memWf_execDoneWord wf e
  | queueEnable => exact memWf_execQueueEnable wf e
  | commandAccept => exact memWf_execCommandAccept wf e
  | launch => exact memWf_execLaunch wf e
  | signal => exact memWf_execSignal wf e
  | waitForSignal => exact memWf_execWaitForSignal wf e
  | signalSatisfied => exact memWf_execSignalSatisfied wf e
  | annexPolicy => exact memWf_execAnnexPolicy wf e
  | dispatchDecision => exact memWf_execDispatchDecision wf e
  | bind => exact memWf_execBind wf e
  | preemption => exact memWf_execPreemption wf e
  | hostBindRecord => exact memWf_execHostBindRecord wf e
  | contextCreate => exact memWf_execContextCreate wf e
  | contextDestroy => exact memWf_execContextDestroy wf e
  | pageMap => exact memWf_execPageMap wf e
  | pageDecline => exact memWf_execPageDecline wf e
  | barrierExtend => exact memWf_execBarrierExtend wf e
  | barrierExpire => exact memWf_execBarrierExpire wf e
  | contain => exact memWf_execContain wf e
  | warmReset => exact memWf_execWarmReset wf e
  | attest => exact memWf_execAttest wf e
  | firmwareStage => exact memWf_execFirmwareStage wf e
  | firmwareActivate => exact memWf_execFirmwareActivate wf e
  | tlbInvalidate => exact memWf_execTlbInvalidate wf e
  | unitLoss => exact memWf_execUnitLoss wf e
  | coldReset => exact memWf_execColdReset wf e
  | managementFailover => exact memWf_execManagementFailover wf e
  | intervalCompare => exact memWf_execIntervalCompare wf e
  | stageMonitorSample => exact memWf_execStageMonitorSample wf e
  | splitActivation => exact memWf_execSplitActivation wf e
  | annexForward => exact memWf_execAnnexForward wf e
  | mergeActivation => exact memWf_execMergeActivation wf e
  | hostBar2Write => exact memWf_execHostBar2Write wf e
  | hostBar2Read => exact memWf_execHostBar2Read wf e
  | monitorConfigWrite => exact memWf_execMonitorConfigWrite wf e
  | registerWrite => exact memWf_execRegisterWrite wf e
  | clockThrottle => exact memWf_execClockThrottle wf e
  | pairTimeout => exact memWf_execPairTimeout wf e
  | coreLoss => exact memWf_execCoreLoss wf e

theorem memWf_tryEvent {ev : Event} (e : tryEvent s ev = .next t) : t.memWf := by
  unfold tryEvent at e
  split at e
  next moved =>
    have movedWf := memWf_exec (by exact wf) _ moved
    cases e; exact movedWf
  next other => exact absurd e (other _)

theorem memWf_dueEvent {ev : Event} (e : dueEvent s ev = some (.next t)) : t.memWf := by
  unfold dueEvent at e
  split at e
  next moved =>
    split at e
    · cases e; exact memWf_tryEvent wf moved
    · cases e
  · exact memWf_tryEvent wf (Option.some.inj e)

theorem memWf_coreStep (e : coreStep s = some (.next t)) : t.memWf := by
  obtain ⟨p, _, e⟩ := List.exists_of_findSome?_eq_some e
  split at e
  · exact memWf_tryEvent wf (Option.some.inj e)
  · obtain ⟨ev, _, e⟩ := List.exists_of_findSome?_eq_some e
    exact memWf_dueEvent wf e

theorem memWf_autoStep (e : autoStep s = some (.next t)) : t.memWf := by
  unfold autoStep at e
  split at e
  next displaced =>
    obtain ⟨ev, _, moved⟩ := Option.bind_eq_some_iff.1 displaced
    cases e; exact memWf_dueEvent (by exact wf) moved
  · split at e
    next moved => cases e; exact memWf_coreStep wf moved
    · obtain ⟨ev, _, moved⟩ := List.exists_of_findSome?_eq_some e
      exact memWf_dueEvent wf moved

omit wf in
theorem memWf_keepPlace {i : Nat} {ev : Event} {o : Out} (before : ∀ u, o = .next u → u.memWf)
    (e : keepPlace i ev o = .next t) : t.memWf := by
  unfold keepPlace at e
  split at e
  · have kept := before _ rfl
    cases e
    exact memWf_ite (by exact kept) kept
  · exact before _ e

theorem memWf_moveFlight {i : Nat} (e : moveFlight s i = some (.next t)) : t.memWf := by
  unfold moveFlight at e
  split at e
  · cases e
  · obtain ⟨_, e⟩ := Option.ite_none_left_eq_some.1 e
    obtain ⟨o, due, placed⟩ := Option.map_eq_some_iff.1 e
    exact memWf_keepPlace (fun u same => memWf_dueEvent (by exact wf) (same ▸ due)) placed

theorem memWf_firstFlight (e : firstFlight s = some (.next t)) : t.memWf := by
  obtain ⟨i, _, moved⟩ := List.exists_of_findSome?_eq_some e
  exact memWf_moveFlight wf moved

theorem memWf_takesOld (c i pc : Nat) : (takesOld s c i pc).2.memWf := by
  unfold takesOld
  split <;> exact wf

theorem memWf_fetchWord {c i pc : Nat} {old : Bool} {w : BitVec 32} (e : fetchWord s c i pc old = .ok (w, t)) :
  t.memWf := by
  unfold fetchWord at e
  split at e
  · cases e
  · cases e
    split
    · exact wf
    · exact memWf_applyXlat wf ..

omit wf in
/-- The state that a framing ends with has canonical memory, whether the bundle is legal or not. -/
def FrameWf : Except (Cause × State) State → Prop
  | .error (_, s) => s.memWf
  | .ok s => s.memWf

theorem memWf_frameBundle : FrameWf (frameBundle s) := by
  have put : ∀ (u : State) (i : Issue), u.memWf → State.memWf { u with issue := i } := fun _ _ wf => wf
  have begun := memWf_takesOld wf s.cid s.tid s.me.pc.toNat
  unfold frameBundle
  dsimp only
  generalize takesOld s s.cid s.tid s.me.pc.toNat = old at begun ⊢
  split
  · exact put _ _ begun
  next first =>
    have firstWf := memWf_fetchWord begun first
    split
    · split <;> exact put _ _ firstWf
    split
    · exact put _ _ firstWf
    split
    · split
      · exact put _ _ firstWf
      next second => exact put _ _ (memWf_fetchWord firstWf second)
    · split
      · exact put _ _ firstWf
      next second =>
        have secondWf := memWf_fetchWord firstWf second
        split <;> exact put _ _ secondWf

theorem memWf_illegalAt (slotA : Bool) : (illegalAt s slotA).memWf := memWf_takeTrap (by exact wf) ..

theorem memWf_trapSlotA (sa : State) : (trapSlotA s sa).memWf := by
  unfold trapSlotA
  split
  · exact memWf_takeTrap (by exact wf) ..
  · exact wf

theorem memWf_afterJoin (a : BitVec 5) (before : State) : (afterJoin s a before).memWf :=
  memWf_ite (memWf_setMyCore wf _) wf

theorem memWf_afterPair (before : State) (i : Instr) : (afterPair before s i).memWf := by
  unfold afterPair
  split
  · exact memWf_ite (memWf_afterJoin wf ..) wf
  · exact memWf_takeTrapAt wf ..
  · exact wf

theorem memWf_mergePair (before sa : State) (ic ia : Instr) : (mergePair before s sa ic ia).memWf := by
  unfold mergePair
  dsimp only
  split <;> exact wf

theorem memWf_issuePair {ic : Instr} (e : issuePair s ic = .next t) : t.memWf := by
  unfold issuePair at e
  split at e
  · split at e
    next slotC =>
      have slotCWf := memWf_exec wf _ slotC
      split at e
      · cases e; exact slotCWf
      · cases e; exact memWf_illegalAt wf _
    · exact memWf_exec wf _ e
  · split at e
    · cases e; exact memWf_illegalAt wf _
    · split at e
      next slotC =>
        have slotCWf := memWf_exec wf _ slotC
        split at e
        · cases e; exact slotCWf
        · cases e; exact slotCWf
        · split at e
          · split at e
            · cases e; exact memWf_trapSlotA wf _
            · split at e
              · cases e; exact slotCWf
              · cases e
                exact memWf_ite (memWf_takeTrapAt wf ..) (memWf_afterPair (memWf_mergePair slotCWf ..) ..)
          next other => exact absurd e (other _)
      · exact memWf_exec wf _ e

theorem memWf_recordBundle (before : State) (ic : Instr) : (recordBundle before s ic).memWf := by
  unfold recordBundle
  split
  · split
    · exact wf
    · exact wf
  · exact wf

theorem memWf_issueDecoded {ic : Instr} (e : issueDecoded s ic = .next t) : t.memWf := by
  unfold issueDecoded at e
  dsimp only at e
  generalize (!s.issue.lone && _) = repeats, (s.issue.lone || _) = solo at e
  split at e
  · cases e; exact memWf_illegalAt wf _
  split at e
  · cases e; exact memWf_beginWait wf _
  split at e
  next ran =>
    cases e
    refine memWf_recordBundle ?_ _ _
    split at ran
    · exact memWf_exec wf _ ran
    · exact memWf_issuePair wf ran
  next other => exact absurd e (other _)

theorem memWf_issueBundle (e : issueBundle s = .next t) : t.memWf := by
  have framed := memWf_frameBundle wf
  unfold issueBundle at e
  split at e
  · cases e; exact memWf_beginWait wf _
  split at e
  next frame =>
    rw [frame] at framed
    split at e
    · cases e; exact memWf_beginAbsent framed ..
    · cases e; exact memWf_takeTrap framed ..
  next frame =>
    rw [frame] at framed
    dsimp only at e
    split at e
    · cases e; exact memWf_illegalAt (memWf_setMe framed _) _
    · exact memWf_issueDecoded (memWf_setMe framed _) e

theorem memWf_attempt {c i : Nat} {quota : Option Nat} (e : attempt s c i quota = .next t) : t.memWf :=
  memWf_issueBundle (by exact wf) e

theorem memWf_readyThreads (c : Nat) (ts : List Nat) : (readyThreads c ts s).1.memWf := by
  induction ts generalizing s with
  | nil => exact wf
  | cons i ts ih =>
    unfold readyThreads
    split
    · split
      next tried =>
        split
        · exact ih (memWf_attempt wf tried)
        · exact ih wf
      · exact ih wf
    · exact ih wf

theorem memWf_keepIssue (c i : Nat) (ready : List Nat) : (keepIssue s c i ready).memWf := by
  have counted : ∀ {u : State}, u.memWf → ∀ (top : Bool) (x : Nat),
      (if top then monitorEvent u (some c) 0 0 5 x 1 else u).memWf := fun wf _ _ => memWf_ite
        (memWf_monitorEvent wf ..) wf
  unfold keepIssue
  dsimp only
  split
  · exact memWf_setCore wf ..
  · exact counted (memWf_monitorEvent (memWf_setThread (memWf_setCore wf ..) ..) ..) ..

theorem memWf_threadTurn {c i : Nat} {ready : List Nat} {quota : Option Nat}
  (e : threadTurn s c i ready quota = .next t) :
    t.memWf := by
  unfold threadTurn at e
  split at e
  next issued =>
    have issuedWf := memWf_attempt wf issued
    cases e
    exact memWf_ite issuedWf (memWf_keepIssue issuedWf ..)
  next other => exact absurd e (other _)

omit wf in
/-- What a cycle of a core leaves, and what it answers with, has canonical memory. -/
def CoreTurnWf (r : State × Option Out) : Prop := r.1.memWf ∧ ∀ t, r.2 = some (.next t) → t.memWf

theorem memWf_coreTurn (c : Nat) (may : Nat → Bool) (quota : Option Nat) : CoreTurnWf (coreTurn s c may quota) := by
  have ready := memWf_readyThreads wf c [0, 1, 2, 3, 4]
  unfold coreTurn
  dsimp only
  split
  · refine ⟨ready, fun t e => ?_⟩
    obtain ⟨_, e⟩ := Option.ite_none_right_eq_some.1 e
    exact memWf_threadTurn ready (Option.some.inj e)
  · exact ⟨memWf_setCore ready .., fun t e => nomatch e⟩

theorem memWf_anyCore (cs : List Nat) : CoreTurnWf (anyCore cs s) := by
  induction cs generalizing s with
  | nil => exact ⟨wf, fun t e => nomatch e⟩
  | cons c cs ih =>
    have turned := memWf_coreTurn wf c (fun _ => true) none
    unfold anyCore
    split
    next o came => rw [came] at turned; exact turned
    next came => rw [came] at turned; exact ih turned.1

omit wf in
theorem memWf_ofCore {r : State × Option Out} (turned : CoreTurnWf r) (e : ofCore r = .next t) : t.memWf := by
  unfold ofCore at e
  split at e
  · exact turned.2 _ (congrArg some e)
  · cases e; exact turned.1

theorem memWf_freeTurn (e : freeTurn s = .next t) : t.memWf := by
  have advanced := memWf_advance wf 1 (nsOfCycle s)
  unfold freeTurn at e
  dsimp only at e
  generalize advance s 1 (nsOfCycle s) = u at advanced e
  split at e
  next first =>
    obtain ⟨_, moved⟩ := Option.ite_none_right_eq_some.1 first
    cases e; exact memWf_firstFlight advanced moved
  · have turned := memWf_anyCore advanced (coreOrder u)
    split at e
    next came => rw [came] at turned; exact turned.2 _ (congrArg some e)
    next left came =>
      rw [came] at turned
      cases first : firstFlight left with
      | none => rw [first] at e; cases e; exact turned.1
      | some o => rw [first] at e; cases e; exact memWf_firstFlight turned.1 first

theorem memWf_moveOutside {ev : Event} (e : moveOutside s ev = .next t) : t.memWf := by
  unfold moveOutside at e
  split at e
  · cases e
  split at e
  · cases e; exact wf
  split at e
  · cases e; exact memWf_emit wf _
  split at e
  next due => exact memWf_keepPlace (fun u same => memWf_dueEvent wf (same ▸ due)) e
  · cases e; exact memWf_ite (memWf_emit wf _) wf

theorem memWf_takeTurn {who : Who} (e : takeTurn s who = .next t) : t.memWf := by
  cases who with
  | core c => exact memWf_ofCore (memWf_coreTurn wf ..) e
  | thread c i => exact memWf_ofCore (memWf_coreTurn wf ..) e
  | parts c n => exact memWf_ofCore (memWf_coreTurn wf ..) e
  | bar0 off => cases e; exact memWf_ite wf (by exact wf)
  | pathLost p => cases e; exact memWf_losePaths wf _
  | flight i =>
    change (moveFlight s i).getD (.next s) = .next t at e
    cases moved : moveFlight s i with
    | none => rw [moved] at e; cases e; exact wf
    | some o => rw [moved] at e; cases e; exact memWf_moveFlight wf moved
  | outside ev => exact memWf_moveOutside wf e

theorem memWf_turn (e : turn s = .next t) : t.memWf := by
  unfold turn at e
  split at e
  next moved => cases e; exact memWf_autoStep wf moved
  · split at e
    · exact memWf_freeTurn wf e
    · split at e
      · cases e; exact memWf_advance (by exact wf) ..
      · exact memWf_takeTurn (memWf_advance (by exact wf) ..) e

end

/-- Settles O52: each function of the model that makes a state keeps the memory canonical; only `writeThrough`,
`evictSector`, `writeBackSeed` and `emptySlices` write it, each through `Mem.write`, and a cold reset empties it. -/
theorem stepsKeepMemoryCanonical : Obligations.StepsKeepMemoryCanonical :=
  fun _ _ wf e => memWf_turn wf e

end Sys2Proof.Machine
end

section
/-! SUPPORT. Branches and jumps, state registers, and Trellis mode (R270, R276 to R280, R287 to R290, R369 to R371): O28, O30,
O31 and O16 from these. -/

namespace Sys2Proof.Machine

/-! ### Branches and jumps (R287 to R290) -/

/-- Settles O28: each word is branchDoes with the relation of its row. -/
theorem conditionalBranches : Obligations.ConditionalBranches :=
  ⟨branchDoes (fun _ _ _ _ => rfl) fun _ _ => beq_iff_eq,
    branchDoes (fun _ _ _ _ => rfl) fun _ _ => bne_iff_ne,
    branchDoes (fun _ _ _ _ => rfl) fun _ _ => BitVec.slt_iff_toInt_lt,
    branchDoes (fun _ _ _ _ => rfl) fun x y => by simp [BitVec.slt],
    branchDoes (fun _ _ _ _ => rfl) fun _ _ => BitVec.ult_iff_toNat_lt,
    branchDoes (fun _ _ _ _ => rfl) fun x y => by simp [BitVec.ult]⟩

theorem State.fall_eq (s : State) : s.fall = s.me.pc + if s.issue.lone then 4 else 8 := by
  unfold State.fall State.len
  cases s.issue.lone <;> rfl

theorem goTo_run (t : Word) (s : State) : goTo t s = .ok () (s.jump t) := rfl

theorem fld_pairOffset (t : Word) : fld t 1 0 = t.toNat % 4 := fld_low t 1

theorem fld_beyondAddress (t : Word) : fld t 63 52 = t.toNat / 2 ^ 52 := by
  have := t.isLt
  simp only [fld]
  omega

/-- Settles O30: JALR's checks in their order, the link, and the target; the mask branches by the value of their register. -/
theorem jumpsAndMaskBranches : Obligations.JumpsAndMaskBranches := by
  refine ⟨?jal, ?jalr, ?bkany, ?bkall, fun t => rfl⟩
  case jal =>
    intro s d i s1 legal link
    rw [← s.fall_eq] at link
    exact ((Performs.start (i := .jal d i) legal rfl).step link).completes (goTo_run _ s1)
  case jalr =>
    intro s d a i x s1 legal base t
    have p := (Performs.start (i := .jalr d a i) legal rfl).step base
    refine ⟨fun odd => ?_, fun even far => ?_, fun even near s2 link => ?_⟩
    · exact p.unmet (beq_false_of_ne (by rwa [fld_pairOffset]))
    · have p := p.met (beq_iff_eq.2 (by rwa [fld_pairOffset]))
      exact p.unmet (beq_false_of_ne (by rw [fld_beyondAddress]; change t.toNat / 2 ^ 52 ≠ 0; omega))
    · rw [← s.fall_eq] at link
      have p := p.met (beq_iff_eq.2 (by rwa [fld_pairOffset]))
      have p := p.met (beq_iff_eq.2 (by rw [fld_beyondAddress]; change t.toNat / 2 ^ 52 = 0; omega))
      exact (p.step link).completes (goTo_run _ s2)
  case bkany =>
    intro s a o legal
    have p := Performs.start (i := .bkany a o) legal rfl
    by_cases none : s.me.getK a.toNat = 0
    · rw [if_pos none]
      exact (p.passed (by simpa using none)).completes rfl
    · rw [if_neg none]
      exact (p.taken (by simpa using none)).completes rfl
  case bkall =>
    intro s a o legal
    have p := Performs.start (i := .bkall a o) legal rfl
    by_cases all : s.me.getK a.toNat = BitVec.allOnes 1024
    · rw [if_pos all]
      exact (p.taken (by simpa using all)).completes rfl
    · rw [if_neg all]
      exact (p.passed (by simpa using all)).completes rfl

/-! ### State registers (R369 to R371) -/

theorem sregNext_masked {n : Nat} (notFaults : n ≠ 0x007) (notRounding : n ≠ 0x002) (old new x : Word) (c : Bool) :
    sregNext n old new x c = (old &&& ~~~ sregMask n) ||| (new &&& sregMask n) := by
  rw [sregNext, if_neg notFaults, if_neg fun h => notRounding h.1]

theorem sregNext_whole {n : Nat} (notFaults : n ≠ 0x007) (notRounding : n ≠ 0x002)
    (all : sregMask n = BitVec.allOnes 64) (old new x : Word) (c : Bool) : sregNext n old new x c = new := by
  rw [sregNext_masked notFaults notRounding, all, BitVec.not_allOnes, BitVec.and_zero, BitVec.zero_or, BitVec.and_allOnes]

theorem sregNext_kept {n : Nat} (notFaults : n ≠ 0x007) (notRounding : n ≠ 0x002) (none : sregMask n = 0#64)
    (old new x : Word) (c : Bool) : sregNext n old new x c = old := by
  rw [sregNext_masked notFaults notRounding, none, BitVec.and_zero, BitVec.or_zero]
  exact BitVec.and_allOnes

/-- FRM keeps its value where the new one has 6 or 7 in its field (R69). -/
theorem sregNext_rounding (old new x : Word) (c : Bool) : sregNext 0x002 old new x c =
    if 6 ≤ new.toNat % 8 then old else (old &&& ~~~ 7#64) ||| (new &&& 7#64) := by
  have field : fld new 2 0 = new.toNat % 8 := fld_low new 2
  rw [sregNext, if_neg (by decide), field]
  by_cases reserved : 6 ≤ new.toNat % 8
  · rw [if_pos ⟨rfl, reserved⟩, if_pos reserved]
  · rw [if_neg fun h => reserved h.2, if_neg reserved]
    rfl

/-- Settles O31: SRRD by what opens a register, the writing forms by sregWriteDoes, the fields by sregNext's equations. -/
theorem stateRegisterAccess : Obligations.StateRegisterAccess := by
  refine ⟨?srrd, sregWriteDoes fun _ _ _ _ => rfl, sregWriteDoes fun _ _ _ _ => rfl, sregWriteDoes fun _ _ _ _ => rfl,
    fun s n => sregOpen_some, fun s => ⟨rfl, rfl, rfl, rfl, rfl, rfl, rfl, rfl, rfl, rfl, rfl⟩, fun old new x c => ?fields⟩
  case srrd =>
    intro s d n legal
    have p := Performs.start (i := .srrd d n) legal rfl
    exact ⟨fun closed => p.traps (M.bind_error (sregOpen_no (.inl closed))), fun opens v s1 value written =>
      (p.step (sregOpen_yes opens nofun value)).completes written⟩
  case fields =>
    exact ⟨sregNext_kept (by decide) (by decide) rfl .., sregNext_masked (by decide) (by decide) .., sregNext_rounding ..,
      sregNext_whole (by decide) (by decide) rfl .., sregNext_whole (by decide) (by decide) rfl .., rfl, rfl,
      sregNext_masked (by decide) (by decide) .., sregNext_masked (by decide) (by decide) ..,
      (sregNext_masked (by decide) (by decide) ..).trans (sregNext_masked (n := 0x010) (by decide) (by decide) old new x c).symm,
      sregNext_masked (by decide) (by decide) ..⟩

/-! ### Trellis mode (R270, R276 to R280) -/

/-- The outer products of a tile leave its accumulators and the flags of their computation (R278, R279). -/
theorem outer_run {t : BitVec 1} {a b : BitVec 5} {y : BitVec 4} {scales : List Nat}
    {f : Nat → Nat → Nat → List Nat → List Nat → F Nat} {s : State} {r : List Nat} {e : FpEnv}
    (computed : (topRows (fun sa row sb acc col => f sa sb acc row col) (scales.drop 32)
      (columns 32 (pieces 32 (lanes (typeWidth y) / 32) (vElems (typeWidth y) (s.me.getV b.toNat))))
      (pieces 32 32 (tileElems s.me t)) (scales.take 32)
      (columns 32 (pieces 32 (lanes (typeWidth y) / 32) (vElems (typeWidth y) (s.me.getV a.toNat))))).run ⟨0, s.me.seed⟩ =
        (r, e)) :
    outer t a b y scales f s =
      .ok () ((s.afterF e).setMe (writeGroup 32 (tileReg t) 8 r (s.afterF e).me)) :=
  (M.bind_ok (M.get_run s)).trans ((M.bind_ok (liftF_ok computed)).trans (M.modMe_run _ _))

/-- Settles O16: each word behind the check of its tile, TOP and TOPS by outer_run. -/
theorem trellisWords : Obligations.TrellisWords := by
  refine ⟨?on, ?off, ?tzero, ?trowst, ?outer⟩
  case on =>
    intro s n k t legal
    change execTmodeOn n k t s = _
    exact run_ok legal (M.modMe_run _ s)
  case off =>
    intro s legal
    change execTmodeOff s = _
    exact run_ok legal (M.modMe_run _ s)
  case tzero =>
    intro s t legal
    have p := Performs.start (i := .tzero t) legal rfl
    exact ⟨fun set => (p.taken set).completes rfl, fun unset => (p.passed (by simp [unset])).traps (M.illegal_run s)⟩
  case trowst =>
    intro s t d legal
    have p := Performs.start (i := .trowst t d) legal rfl
    exact ⟨fun r e set stats => ((p.taken set).step (liftF_ok stats)).completes (writeV_afterF ..),
      fun unset => (p.passed (by simp [unset])).traps (M.illegal_run s)⟩
  case outer =>
    intro s t sc a b y w k rows cols accs scales isInt put
    refine ⟨fun legal => ?top, fun legal => ?tops⟩
    case top =>
      have p := Performs.start (i := .top t a b y) legal rfl
      refine ⟨fun set mode r e computed => ?_, fun unfit => ?_⟩
      · exact (p.taken (by simpa [set] using mode)).completes (outer_run computed)
      · refine (p.passed ?_).traps (M.illegal_run s)
        rw [Bool.and_eq_true, beq_iff_eq]
        rintro ⟨set, mode⟩
        exact unfit.elim (fun unset => nomatch set.symm.trans unset) (absurd mode)
    case tops =>
      have p := Performs.start (i := .tops t sc a b y) legal rfl
      refine ⟨fun set mode r e computed => ?_, fun unfit => ?_⟩
      · exact (p.taken (by simp [set, mode])).completes (outer_run computed)
      · refine (p.passed ?_).traps (M.illegal_run s)
        rw [Bool.and_eq_true, Bool.not_eq_true']
        rintro ⟨set, mode⟩
        exact unfit.elim (fun unset => nomatch set.symm.trans unset) fun integer => nomatch mode.symm.trans integer

end Sys2Proof.Machine
end

section
/-! SUPPORT. System calls, returns from traps, ordering and cache control (R106, R152, R153, R366, R368, R372 to R379): O32 and
O33 from these. -/

namespace Sys2Proof.Machine

/-! ### Fields of TSTAT that a return sets and keeps (R374) -/

theorem bit_eq (w : Word) (i : Nat) : bit w i = decide (w.toNat / 2 ^ i % 2 = 1) := by
  rw [bit, BitVec.getLsbD, Nat.testBit_eq_decide_div_mod_eq]

theorem toNat_setFld (w : Word) (hi lo v : Nat) : (setFld w hi lo v).toNat =
    (w.toNat - w.toNat / 2 ^ lo % 2 ^ (hi + 1 - lo) * 2 ^ lo + v % 2 ^ (hi + 1 - lo) * 2 ^ lo) % 2 ^ 64 :=
  BitVec.toNat_ofNat _ _

theorem fld_setFld_repetition (w : Word) (v : Nat) : fld (setFld w 21 16 v) 21 16 = v % 2 ^ 6 := by
  have := w.isLt
  simp only [fld, toNat_setFld]
  omega

theorem bit_setFld_repetition (w : Word) (v : Nat) {i : Nat} (below : i = 14 ∨ i = 15) :
    bit (setFld w 21 16 v) i = bit w i := by
  have := w.isLt
  simp only [bit_eq, toNat_setFld]
  rcases below with rfl | rfl <;> (congr 1; apply propext; omega)

theorem mode_cleared (w : Word) {i : Nat} (mode : i = 14 ∨ i = 15) : bit (setFld w i i 0) i = false := by
  have := w.isLt
  simp only [bit_eq, toNat_setFld, decide_eq_false_iff_not]
  rcases mode with rfl | rfl <;> omega

theorem mode_set (w : Word) {i : Nat} (mode : i = 14 ∨ i = 15) : bit (setFld w i i 1) i = true := by
  have := w.isLt
  simp only [bit_eq, toNat_setFld, decide_eq_true_eq]
  rcases mode with rfl | rfl <;> omega

theorem mode_kept (w : Word) (v : Nat) {i j : Nat} (mode : i = 14 ∧ j = 15 ∨ i = 15 ∧ j = 14) :
    bit (setFld w i i v) j = bit w j := by
  have := w.isLt
  simp only [bit_eq, toNat_setFld]
  rcases mode with ⟨rfl, rfl⟩ | ⟨rfl, rfl⟩ <;> (congr 1; apply propext; omega)

theorem repetition_kept (w : Word) {i : Nat} (mode : i = 14 ∨ i = 15) :
    fld (setFld w i i 0) 21 16 = fld w 21 16 := by
  have := w.isLt
  simp only [fld, toNat_setFld]
  rcases mode with rfl | rfl <;> omega

/-! ### What a return restores (R374) -/

/-- The registers x1 to xk as a frame holds them, the rest of the thread as it is. -/
def restoredRegs (th : Thread) (fr : List Word) (k : Nat) : Thread :=
  (List.range k).foldl (fun (t : Thread) i => t.setX (i + 1) (fr.getD (8 + i) 0)) th

theorem restoredRegs_succ (th : Thread) (fr : List Word) (k : Nat) :
    restoredRegs th fr (k + 1) = (restoredRegs th fr k).setX (k + 1) (fr.getD (8 + k) 0) := by
  rw [restoredRegs, List.range_succ, List.foldl_concat]
  rfl

theorem restoredRegs_rest (th : Thread) (fr : List Word) (k : Nat) :
    restoredRegs th fr k = { th with x := (restoredRegs th fr k).x } := by
  induction k with
  | zero => rfl
  | succ k ih =>
    rw [restoredRegs_succ, Thread.setX, if_neg k.succ_ne_zero, ih]

theorem restoredRegs_getX (th : Thread) (fr : List Word) {n k : Nat} (first : 1 ≤ n) (within : n ≤ k) (plain : n ≠ 31) :
    (restoredRegs th fr k).getX n = fr.getD (7 + n) 0 := by
  induction k with
  | zero => omega
  | succ k ih =>
    rw [restoredRegs_succ, Thread.getX_setX _ _ plain]
    by_cases last : n = k + 1
    · subst last
      rw [if_pos ⟨rfl, k.succ_ne_zero⟩, show 7 + (k + 1) = 8 + k by omega]
    · rw [if_neg fun h => last h.1, ih (by omega)]

/-- TSTAT as a return from ts leaves it: the repetition index of the frame's info word, and the innermost mode over. -/
def returnedTstat (ts info : Word) : Word :=
  if bit ts 15 then setFld (setFld ts 21 16 (fld info 21 16)) 15 15 0 else setFld (setFld ts 21 16 (fld info 21 16)) 14 14 0

theorem returnFrom_eq (th : Thread) (fr : List Word) : returnFrom th fr =
    { th with x := (restoredRegs th fr 29).x, tstat := returnedTstat th.tstat (fr.getD 1 0) } := by
  have unfolded : returnFrom th fr =
      if ((restoredRegs th fr 29).setTstat 21 16 (fld (fr.getD 1 0) 21 16)).sv
      then ((restoredRegs th fr 29).setTstat 21 16 (fld (fr.getD 1 0) 21 16)).setTstat 15 15 0
      else ((restoredRegs th fr 29).setTstat 21 16 (fld (fr.getD 1 0) 21 16)).setTstat 14 14 0 := rfl
  obtain ⟨x, regs⟩ : ∃ x, restoredRegs th fr 29 = { th with x := x } := ⟨_, restoredRegs_rest th fr 29⟩
  rw [unfolded, regs]
  have mode : bit (setFld th.tstat 21 16 (fld (fr.getD 1 0) 21 16)) 15 = bit th.tstat 15 :=
    bit_setFld_repetition _ _ (.inr rfl)
  simp only [Thread.setTstat, Thread.sv, mode, returnedTstat]
  split <;> rfl

theorem returnFrom_rep (th : Thread) (fr : List Word) : (returnFrom th fr).rep = (fr.getD 1 0).toNat / 2 ^ 16 % 2 ^ 6 := by
  have index : fld (setFld th.tstat 21 16 (fld (fr.getD 1 0) 21 16)) 21 16 = (fr.getD 1 0).toNat / 2 ^ 16 % 2 ^ 6 := by
    rw [fld_setFld_repetition]
    exact Nat.mod_mod _ _
  rw [returnFrom_eq]
  change fld (returnedTstat _ _) 21 16 = _
  rw [returnedTstat]
  split
  · rw [repetition_kept _ (.inr rfl), index]
  · rw [repetition_kept _ (.inl rfl), index]

/-- A return from supervisor code leaves the hook's mode, and a return from the hook is one outside supervisor code. -/
theorem returnFrom_modes (th : Thread) (fr : List Word) :
    (th.sv = true → (returnFrom th fr).sv = false ∧ (returnFrom th fr).ha = th.ha) ∧
      (th.sv = false → (returnFrom th fr).ha = false ∧ (returnFrom th fr).sv = false) := by
  rw [returnFrom_eq]
  refine ⟨fun supervisor => ?_, fun user => ?_⟩
  · change bit (returnedTstat _ _) 15 = false ∧ bit (returnedTstat _ _) 14 = bit _ 14
    rw [returnedTstat, if_pos (show bit th.tstat 15 = true from supervisor)]
    exact ⟨mode_cleared _ (.inr rfl), (mode_kept _ _ (.inr ⟨rfl, rfl⟩)).trans (bit_setFld_repetition _ _ (.inl rfl))⟩
  · change bit (returnedTstat _ _) 14 = false ∧ bit (returnedTstat _ _) 15 = false
    rw [returnedTstat, if_neg (show ¬ bit th.tstat 15 = true from Bool.eq_false_iff.1 user)]
    exact ⟨mode_cleared _ (.inl rfl),
      (mode_kept _ _ (.inl ⟨rfl, rfl⟩)).trans ((bit_setFld_repetition _ _ (.inr rfl)).trans user)⟩

/-! ### SYSCALL and TRET (R373, R374) -/

/-- What TRET makes of the frame it has read, at the address adr: the check of the info word, the thread and the target. -/
theorem Performs.returns {i : Instr} {s s1 : State} {fr : List Word} {adr : Word}
    (p : Performs i s (need (!infoReserved (fr.getD 1 0)) .descriptorFormat adr >>= fun _ =>
      modMe (fun t => returnFrom t fr) >>= fun _ =>
      modify fun s => { s with issue := { s.issue with next := some (fr.getD 0 0 &&& ~~~3) } }) s1) :
    (infoReserved (fr.getD 1 0) = true → Traps i s .descriptorFormat adr) ∧
    (infoReserved (fr.getD 1 0) = false →
      Completes i s ((s1.setMe (returnFrom s1.me fr)).jump (fr.getD 0 0 &&& ~~~3#64))) :=
  ⟨fun bad => p.unmet (by rw [bad]; rfl), fun good =>
    ((p.met (by rw [good]; rfl)).step (M.modMe_run _ _)).completes (M.modify_run _ _)⟩

/-- Settles O32: SYSCALL by its definition, TRET from its frame in either memory, the restored state by returnFrom_eq. -/
theorem systemCallAndReturn : Obligations.SystemCallAndReturn := by
  refine ⟨fun s legal => ?syscall, fun s legal closed => ?closed, ?hook, ?supervisor, fun th fr => ?restored⟩
  case syscall =>
    have syscall : exec .syscall s = execSyscall s := rfl
    simp only [Completes, syscall, execSyscall, legal, Bool.true_and, State.sup, State.fall_eq]
    refine ⟨fun inside => ?_, fun outside lone => ?_, fun outside pair => ?_⟩
    · simp [inside]
    · simp [outside, lone]
    · simp [outside, pair]
  case closed =>
    refine (Performs.start (i := .tret) legal rfl).unmet ?_
    rcases closed with pair | ⟨user, unhooked⟩
    · rw [pair, Bool.false_and]
    · rw [user, unhooked, Bool.or_self, Bool.and_false]
  case hook =>
    intro s legal lone user hooked short inside fr
    have p := (Performs.start (i := .tret) legal rfl).met (by rw [lone, user, hooked]; rfl)
    have p := p.step ((congrFun (if_neg (Bool.eq_false_iff.1 user)) s).trans
      ((M.bind_ok (checkLocal_ok (localFault_open inside short))).trans rfl))
    rw [user] at p
    exact p.returns
  case supervisor =>
    intro s xs vs legal lone sup ps reached reads s1 fr
    have p := (Performs.start (i := .tret) legal rfl).met (by rw [lone, sup]; rfl)
    have p := p.step ((congrFun (if_pos sup) s).trans (gReadRange_ok reached reads))
    rw [sup] at p
    exact p.returns
  case restored =>
    obtain ⟨fromSupervisor, fromHook⟩ := returnFrom_modes th fr
    refine ⟨fun n first last => ?_, returnFrom_rep th fr, fromSupervisor, fromHook, ?_⟩
    · have value := restoredRegs_getX th fr first last (by omega)
      rw [returnFrom_eq]
      obtain ⟨x, regs⟩ : ∃ x, restoredRegs th fr 29 = { th with x := x } := ⟨_, restoredRegs_rest th fr 29⟩
      rw [regs] at value ⊢
      exact value
    · rw [returnFrom_eq]
      exact ⟨rfl, rfl, rfl, rfl, rfl, rfl⟩

/-! ### Ordering, caches, translations and seeds (R106, R152, R153, R375 to R378) -/

theorem wfi_does {s : State} (legal : legalHere s .wfi = true) :
    (s.me.sv = false → Traps .wfi s .illegalInstruction 0) ∧
    (s.me.sv = true → (s.me.latch = true ∨ s.me.wait = .interrupt true) → Completes .wfi s s) ∧
    (s.me.sv = true → s.me.latch = false → s.me.wait ≠ .interrupt true → Waits .wfi s (.interrupt false)) := by
  have p := Performs.start (i := .wfi) legal rfl
  refine ⟨fun user => p.unmet user, fun sup woken => ?_, fun sup unset quiet => ?_⟩
  · exact ((p.met sup).taken (by simpa using woken)).completes rfl
  · exact ((p.met sup).passed (by simp [unset, quiet])).waits (M.waitFor_run _ _)

theorem tlbinv_does {s : State} {a b : BitVec 5} (legal : legalHere s (.tlbinv a b) = true) :
    (s.me.sv = false → Traps (.tlbinv a b) s .illegalInstruction 0) ∧
    (s.me.sv = true → ∀ x y s1 s2, readX a s = .ok x s1 → readX b s1 = .ok y s2 →
      (2 ≤ y.toNat → Traps (.tlbinv a b) s .operandRange 0) ∧
      (y = 0 → Completes (.tlbinv a b) s (dropTlb s2 s2.myCtx none)) ∧
      (y = 1 → Completes (.tlbinv a b) s (dropTlb s2 s2.myCtx (some x.toNat)))) := by
  have p := Performs.start (i := .tlbinv a b) legal rfl
  refine ⟨fun user => p.unmet user, fun sup x y s1 s2 address mode => ?_⟩
  have p := ((p.met sup).step address).step mode
  refine ⟨fun reserved => p.unmet (decide_eq_false (by omega)), ?_, ?_⟩
  · rintro rfl
    exact (p.met (by decide)).completes rfl
  · rintro rfl
    exact (p.met (by decide)).completes rfl

theorem seedset_does {s : State} {a : BitVec 5} (legal : legalHere s (.seedset a) = true) :
    (s.me.sv = false → Traps (.seedset a) s .illegalInstruction 0) ∧
    (s.me.sv = true → ∀ x s1, readX a s = .ok x s1 →
      let s2 := moveHolds (flushSeed s1 s.mySeed) (seedGroup s s.mySeed) s.mySeed x
      let s3 := { s2 with replicas := s2.replicas.filter fun r => !(seedGroup s s.mySeed).contains r.ctx }
      Completes (.seedset a) s ((seedGroup s s.mySeed).foldl (fun s c => installSeed s c x) s3)) := by
  have p := Performs.start (i := .seedset a) legal rfl
  exact ⟨fun user => p.unmet user, fun sup x s1 seed => ((p.met sup).step seed).completes (M.modify_run _ _)⟩

theorem cflush_does {s s1 s2 : State} {a b : BitVec 5} {x y : Word} (legal : legalHere s (.cflush a b) = true)
    (address : readX a s = .ok x s1) (length : readX b s1 = .ok y s2) :
    (x.toNat % 32 ≠ 0 → Traps (.cflush a b) s .misalignedAccess x) ∧
    (x.toNat % 32 = 0 → ¬ (y.toNat % 32 = 0 ∧ y.toNat ≤ 2 ^ 30) → Traps (.cflush a b) s .operandRange 0) ∧
    (x.toNat % 32 = 0 → y.toNat % 32 = 0 → y.toNat ≤ 2 ^ 30 → poolHas s 1 = true → ∀ xs : List Xlat,
      ((List.range (y.toNat / 32)).map fun i => xlate s s.cid s.myCtx (x.toNat + 32 * i) .read s.sup) = xs.map .ok →
      (List.range (y.toNat / 32)).any (fun i => walkHeld s s.agent s.cid s.myCtx .read (x.toNat + 32 * i)) = false →
      xs.any (partHeld s s.agent s.mySeed) = false →
      Completes (.cflush a b) s (after (request 1 []) (xs.foldl (fun u p =>
        let u := applyXlat u u.cid u.myCtx p
        dropReplicas (evictSector u (homeSlice u u.mySeed p.pa) (p.pa / 32)) (p.pa / 32)) s2))) := by
  have p := ((Performs.start (i := .cflush a b) legal rfl).step address).step length
  refine ⟨fun odd => p.misaligned odd, fun even bad => ?_, fun even whole short room xs sectors walks free => ?_⟩
  · exact (p.aligned even).unmet (by simpa using bad)
  · have p := ((p.aligned even).met (by simpa [whole] using short)).passed (by simp [room])
    have flushed := flushParts_ok (s2 := s2) (xs := xs) (ps := (List.range (y.toNat / 32)).map fun i => (x.toNat + 32 * i, 32))
      (by rw [List.any_map]; exact walks) (by rw [List.map_map]; exact sectors) free
    exact (p.step flushed).completes (request_run _ _ _)

theorem fence_does {s : State} {v c : BitVec 1} (legal : legalHere s (.fence v c) = true) :
    ((c = 1#1 → copiesPending s = false) → (v = 1#1 → remotesPending s = false) → Completes (.fence v c) s s) ∧
    (c = 1#1 → copiesPending s = true → Waits (.fence v c) s .copyPlace) ∧
    ((c = 1#1 → copiesPending s = false) → v = 1#1 → remotesPending s = true → Waits (.fence v c) s .fence) := by
  have p := Performs.start (i := .fence v c) legal rfl
  have noCopies (quiet : c = 1#1 → copiesPending s = false) : ¬ (c = 1#1 && copiesPending s) = true := by
    simpa using quiet
  refine ⟨fun quiet answered => ?_, fun copies busy => ?_, fun quiet remote busy => ?_⟩
  · exact ((p.passed (noCopies quiet)).passed (by simpa using answered)).completes rfl
  · exact (p.taken (by simp [copies, busy])).waits (M.waitFor_run _ _)
  · exact ((p.passed (noCopies quiet)).taken (by simp [remote, busy])).waits (M.waitFor_run _ _)

theorem isync_does {s : State} (legal : legalHere s .isync = true) :
    Completes .isync s (s.setMe { s.me with fetched := [] }) := by
  change execIsync s = _
  exact run_ok legal (M.modMe_run _ s)

/-! ### Checked pairs' rendezvous (R379) -/

theorem pair_does {s : State} {d : BitVec 5} (legal : legalHere s (.pair d) = true) :
    let p := if s.cid % 2 = 0 then s.cid + 1 else s.cid - 1
    let chk := match s.myCore.bound with | some b => b.ld.chk | none => false
    (s.me.wait = .paired → ∀ s1, writeX d (word (min s.cid p)) s = .ok () s1 → Completes (.pair d) s s1) ∧
    (s.me.wait ≠ .paired → s.inLaunch p = false → Traps (.pair d) s .invalidTarget 0) ∧
    (s.me.wait ≠ .paired → s.inLaunch p = true → (s.myCore.pair ≠ .none ∨ chk = true) → Traps (.pair d) s .pairState 0) ∧
    (s.me.wait ≠ .paired → s.inLaunch p = true → s.myCore.pair = .none → chk = false →
      exec (.pair d) s = .next (
        if (launchHere s p (s.coreOrder s.cid) == some true && allWait s s.cid .pairing && allWait s p .pairing) = true
        then beginPark (formPair s (min s.cid p) (partnerOf (min s.cid p))) .paired
        else beginPark s .pairing)) := by
  intro other chk
  have p := Performs.start (i := .pair d) legal rfl
  refine ⟨fun ended s1 written => (p.taken ended).completes written, fun fresh away => ?_, fun fresh here bad => ?_,
    fun fresh here single plain => ?_⟩
  · exact (p.passed fresh).unmet away
  · refine ((p.passed fresh).met here).unmet ?_
    rcases bad with taken | checked
    · exact (Bool.and_eq_false_iff).2 (.inl (beq_false_of_ne taken))
    · exact (Bool.and_eq_false_iff).2 (.inr (congrArg (!·) checked))
  · have p := ((p.passed fresh).met here).met (Bool.and_eq_true_iff.2 ⟨beq_iff_eq.2 single, congrArg (!·) plain⟩)
    by_cases last : (launchHere s other (s.coreOrder s.cid) == some true && allWait s s.cid .pairing
      && allWait s other .pairing) = true
    · rw [if_pos last]
      exact ((p.taken last).step (M.modify_run _ s)).parks rfl (M.throw_run _ _)
    · rw [if_neg last]
      exact (p.passed last).parks rfl (M.throw_run _ _)

theorem unpair_does {s : State} {d : BitVec 5} (legal : legalHere s (.unpair d) = true) :
    (s.me.wait = .paired → ∀ s1, writeX d (word s.cid) s = .ok () s1 → Completes (.unpair d) s s1) ∧
    (s.me.wait ≠ .paired → s.myCore.pair = .none → Traps (.unpair d) s .pairState 0) ∧
    (s.me.wait ≠ .paired → s.myCore.pair ≠ .none → exec (.unpair d) s = .next (beginPark
      (if allWait s s.cid .unpairing = true then s.emit (.intervalCompare s.cid .agree) else s) .unpairing)) := by
  have p := Performs.start (i := .unpair d) legal rfl
  refine ⟨fun ended s1 written => (p.taken ended).completes written, fun fresh single => ?_, fun fresh paired => ?_⟩
  · exact (p.passed fresh).unmet (by simp [single])
  · have p := (p.passed fresh).met (bne_iff_ne.2 paired)
    by_cases last : allWait s s.cid .unpairing = true
    · rw [if_pos last]
      exact ((p.taken last).step (M.emitM_run _ s)).parks rfl (M.throw_run _ _)
    · rw [if_neg last]
      exact (p.passed last).parks rfl (M.throw_run _ _)

/-- Settles O33, word by word. -/
theorem systemAndOrderingWords : Obligations.SystemAndOrderingWords :=
  ⟨⟨fun _ => wfi_does, fun _ _ _ => tlbinv_does, fun _ _ => seedset_does, fun _ _ _ _ _ _ _ => cflush_does⟩,
    fun _ _ _ => fence_does, fun _ => isync_does, fun _ _ => pair_does, fun _ _ => unpair_does⟩

end Sys2Proof.Machine
end

section
/-! SUPPORT. Tasks and events (R11, R291 to R303, R314, R375): O35 from these. -/

namespace Sys2Proof.Machine

/-! ### Forks and joins (R293 to R297) -/

theorem fld_handle (x : Word) : fld x 9 0 = x.toNat % 2 ^ 10 := fld_low x 9

theorem dequeFull_iff (k : Core) : k.dequeFull = true ↔ 128 ≤ k.deque.length := decide_eq_true_iff

/-- A record is neither parked nor run. -/
theorem recordFree_iff (f : Word) :
    (!joinParked f && !joinRun f) = true ↔ f.getLsbD 0 = false ∧ f.getLsbD 1 = false := by
  rw [Bool.and_eq_true, Bool.not_eq_true', Bool.not_eq_true']
  rfl

theorem fork_does {s s1 s2 : State} {d a b : BitVec 5} {x y : Word} (legal : legalHere s (.fork d a b) = true)
    (entry : readX a s = .ok x s1) (record : readX b s1 = .ok y s2) :
    (x.toNat % 4 ≠ 0 ∨ 2 ^ 52 ≤ x.toNat → Traps (.fork d a b) s .operandRange 0) ∧
    (x.toNat % 4 = 0 → x.toNat < 2 ^ 52 → joinCheck s.myCore y.toNat = none →
      ((joinFlags s.myCore y.toNat).getLsbD 0 = true ∨ (joinFlags s.myCore y.toNat).getLsbD 1 = true →
        Traps (.fork d a b) s .taskState 0) ∧
      ((joinFlags s.myCore y.toNat).getLsbD 0 = false → (joinFlags s.myCore y.toNat).getLsbD 1 = false →
        (128 ≤ s.myCore.deque.length → ∀ s3, writeX d 0 s2 = .ok () s3 → Completes (.fork d a b) s s3) ∧
        (s.myCore.deque.length < 128 → ∃ k : Core,
          k.lmem = Mem.write s2.myCore.lmem y.toNat 8 (Mem.read s2.myCore.lmem y.toNat 8 + 1) ∧
          k.deque = s2.myCore.deque ++ [⟨x, s.me.getX 3, s.me.getX 4, s.me.getX 5, s.me.getX 6, s.me.getX 7, s.me.getX 8,
            s.cid, y.toNat, 0⟩] ∧ k.full = s2.myCore.full ∧
          ∀ s3, writeX d 1 (s2.setMyCore k) = .ok () s3 → Completes (.fork d a b) s s3))) := by
  have p := ((Performs.start (i := .fork d a b) legal rfl).step entry).step record
  refine ⟨fun bad => p.unmet ?_, fun even near placed => ?_⟩
  · rw [fld_pairOffset, fld_beyondAddress, Bool.and_eq_false_iff, beq_eq_false_iff_ne, beq_eq_false_iff_ne]
    exact bad.imp_right fun far => by omega
  · have p := p.met (by
      rw [fld_pairOffset, fld_beyondAddress, Bool.and_eq_true, beq_iff_eq, beq_iff_eq]
      exact ⟨even, by omega⟩)
    have p := p.step (checkPlaced_ok placed)
    refine ⟨fun taken => p.unmet (Bool.eq_false_iff.2 fun free => ?_), fun unparked unrun => ?_⟩
    · obtain ⟨unparked, unrun⟩ := (recordFree_iff _).1 free
      exact taken.elim (fun parked => nomatch unparked.symm.trans parked) fun ran => nomatch unrun.symm.trans ran
    · have p := p.met ((recordFree_iff _).2 ⟨unparked, unrun⟩)
      refine ⟨fun full s3 written => (p.taken ((dequeFull_iff _).2 full)).completes written, fun room => ?_⟩
      have p := (p.passed (fun full => by have := (dequeFull_iff _).1 full; omega)).step (M.modCore_run _ s2)
      refine ⟨_, ?lmem, ?deque, ?full, fun s3 written => p.completes written⟩
      all_goals rfl

theorem join_does {s s1 : State} {a : BitVec 5} {x : Word} (legal : legalHere s (.join a) = true)
    (record : readX a s = .ok x s1) (placed : joinCheck s.myCore x.toNat = none)
    (unparked : (joinFlags s.myCore x.toNat).getLsbD 0 = false) (unrun : (joinFlags s.myCore x.toNat).getLsbD 1 = false) :
    (s.me.mo ≠ [] → Traps (.join a) s .taskState 0) ∧
    (s.me.mo = [] → joinCount s.myCore x.toNat = 0 → Completes (.join a) s s1) ∧
    (s.me.mo = [] → joinCount s.myCore x.toNat ≠ 0 →
      let k := parkRecord s1.myCore x.toNat s.me (s.me.pc + if s.issue.lone then 4 else 8)
      Completes (.join a) s (goIdle (s1.setMyCore
        { k with parked := k.parked.set x.toNat ⟨s.me.taskref.getLsbD 28, s.me.initial, s.me.task⟩ }))) := by
  have p := ((Performs.start (i := .join a) legal rfl).step record).step (checkPlaced_ok placed)
  have free : (!joinParked (joinFlags s.myCore x.toNat) && !joinRun (joinFlags s.myCore x.toNat)) = true :=
    (recordFree_iff _).2 ⟨unparked, unrun⟩
  refine ⟨fun pushed => p.unmet ?_, fun empty none => ?_, fun empty open_ => ?_⟩
  · rw [free, Bool.true_and, List.isEmpty_eq_false_iff]
    exact pushed
  · exact ((p.met (by rw [free, empty]; rfl)).taken none).completes rfl
  · have p := (p.met (by rw [free, empty]; rfl)).passed open_
    rw [← s.fall_eq]
    exact (p.step (M.modCore_run _ s1)).completes (M.modify_run _ _)

/-! ### The end of a task (R297) -/

theorem Mem.get_write_first (m : List Host.Cell) (a n : Nat) {v : Nat} (listed : BitVec.ofNat 8 v ≠ 0) :
    Mem.get (Mem.write m a (n + 1) v) a = BitVec.ofNat 8 v := by
  rw [Mem.write, Mem.get_write_out _ _ _ _ _ (.inl a.lt_succ_self), Mem.put, if_neg listed]
  exact SMap.get_set_self ..

/-- A record marked for its core to run is not parked any more, whatever its memory holds. -/
theorem joinFlags_marked (k : Core) (j f : Nat) :
    (joinFlags (k.lwrite (j + 8) 8 (f / 4 * 4 + 2)) j).getLsbD 0 = false := by
  have value : (BitVec.ofNat 8 (f / 4 * 4 + 2)).toNat = (f / 4 * 4 + 2) % 256 := BitVec.toNat_ofNat ..
  have listed : BitVec.ofNat 8 (f / 4 * 4 + 2) ≠ 0 := fun zero => by
    rw [zero] at value
    have : 0 = (f / 4 * 4 + 2) % 256 := value
    omega
  have first : Mem.read (Mem.write k.lmem (j + 8) 8 (f / 4 * 4 + 2)) (j + 8) 8 % 2 = 0 := by
    rw [Mem.read, Mem.get_write_first _ _ _ listed, value]
    omega
  change (word (Mem.read (Mem.write k.lmem (j + 8) 8 (f / 4 * 4 + 2)) (j + 8) 8)).getLsbD 0 = false
  rw [word, BitVec.getLsbD_ofNat, Nat.testBit_zero, first]
  rfl

theorem mem_insertSorted (a : Nat) : ∀ l : List Nat, a ∈ insertSorted a l
  | [] => List.mem_singleton_self a
  | b :: bs => by
    rw [insertSorted]
    split
    · exact List.mem_cons_self
    · split
      · next same => exact same ▸ List.mem_cons_self
      · exact List.mem_cons_of_mem b (mem_insertSorted a bs)

theorem fld_recordCore (r : Word) : fld r 27 18 = r.toNat / 2 ^ 18 % 2 ^ 10 := rfl

theorem fld_recordOffset (r : Word) : fld r 17 0 = r.toNat % 2 ^ 18 := fld_low r 17

theorem tdone_initial {s : State} (legal : legalHere s .tdone = true) (first : s.me.taskref.getLsbD 28 = false) :
    Completes .tdone s (tryReport (goIdle (finishInitial s s.cid s.me.initial)) s.cid) :=
  ((Performs.start (i := .tdone) legal rfl).passed (Bool.eq_false_iff.1 first)).completes (M.modify_run _ s)

/-- A core where a child is done: the record's count is n, and a parked parent that its own core is to resume is marked. -/
def childDone (k : Core) (j : Nat) (n : Int) (mark : Bool) : Core :=
  let k := k.lwrite j 8 n.toNat
  if mark then
    let k := k.lwrite (j + 8) 8 ((joinFlags k j).toNat / 4 * 4 + 2)
    let ths := k.threads.map fun p => (p.1, { p.2 with search := { p.2.search with until_ := 0 } })
    { k with runs := insertSorted j k.runs, threads := ths }
  else k

/-- The last child of a parked parent is done. -/
def taskResumes (k : Core) (j : Nat) : Bool := joinCount k j - 1 == 0 && joinParked (joinFlags k j)

/-- A task that its record's core can be told of: the record counted, the tally, and where the thread goes on. -/
theorem tdone_counts {s : State} {c j : Nat} (legal : legalHere s .tdone = true) (task : s.me.taskref.getLsbD 28 = true)
    (core : s.me.taskref.toNat / 2 ^ 18 % 2 ^ 10 = c) (offset : s.me.taskref.toNat % 2 ^ 18 = j) (inside : c < 768)
    (near : s.away c = false) (placed : joinCheck (s.core c) j = none) (open_ : 0 < joinCount (s.core c) j) :
    Performs .tdone s (modify (fun u => u.setCore c
        (childDone (u.core c) j (joinCount (s.core c) j - 1) (taskResumes (s.core c) j && c != u.cid))) >>= fun _ =>
      modCore (fun k => { k with tasksDone := k.tasksDone + 1 }) >>= fun _ =>
      if (taskResumes (s.core c) j && c == s.cid) = true then modify (fun u => resumeJoin u c u.tid j) >>= fun _ => execTdone.goNext
      else modify goIdle) s := by
  have p := (Performs.start (i := .tdone) legal rfl).taken task
  rw [fld_recordCore, fld_recordOffset, core, offset] at p
  have p := ((p.met (decide_eq_true inside)).passed (Bool.eq_false_iff.1 near)).step (checkPlaced_ok placed)
  have p := p.met (decide_eq_true open_)
  exact p

theorem tdone_task {s : State} (legal : legalHere s .tdone = true) (task : s.me.taskref.getLsbD 28 = true) :
    let c := s.me.taskref.toNat / 2 ^ 18 % 2 ^ 10
    let j := s.me.taskref.toNat % 2 ^ 18
    let n := joinCount (s.core c) j - 1
    let parked := (joinFlags (s.core c) j).getLsbD 0
    (768 ≤ c → Traps .tdone s .invalidTarget 0) ∧
    (c < 768 → s.away c = true → Waits .tdone s .held) ∧ (c < 768 → s.away c = false → joinCheck (s.core c) j = none →
    (joinCount (s.core c) j ≤ 0 → Traps .tdone s .taskState 0) ∧
    (0 < joinCount (s.core c) j → (n = 0 ∧ parked = true → c = s.cid) →
      let s1 := s.setCore c ((s.core c).lwrite j 8 n.toNat)
      let s2 := s1.setMyCore { s1.myCore with tasksDone := s1.myCore.tasksDone + 1 }
      Completes .tdone s (if n = 0 ∧ parked = true
        then (let s3 := resumeJoin s2 c s.tid j; s3.jump s3.me.pc) else goIdle s2)) ∧
    (0 < joinCount (s.core c) j → n = 0 → parked = true → c ≠ s.cid → ∃ k : Core,
      j ∈ k.runs ∧ (joinFlags k j).getLsbD 0 = false ∧
      Completes .tdone s (goIdle (let s1 := s.setCore c k; s1.setMyCore { s1.myCore with tasksDone := s1.myCore.tasksDone + 1 })))) := by
  intro c j n parked
  have p := (Performs.start (i := .tdone) legal rfl).taken task
  rw [fld_recordCore, fld_recordOffset] at p
  refine ⟨fun outside => p.unmet (decide_eq_false (Nat.not_lt.2 outside)), fun inside away => ?_,
    fun inside near placed => ?_⟩
  · exact ((p.met (decide_eq_true inside)).taken away).waits (M.bind_error (M.waitFor_run _ s))
  have checked := ((p.met (decide_eq_true inside)).passed (Bool.eq_false_iff.1 near)).step (checkPlaced_ok placed)
  have resume : taskResumes (s.core c) j = true ↔ n = 0 ∧ parked = true := by
    rw [taskResumes, Bool.and_eq_true, beq_iff_eq]
    rfl
  refine ⟨fun none => checked.unmet (decide_eq_false (Int.not_lt.2 none)), fun open_ own => ?_,
    fun open_ last was other => ?_⟩
  · have p := tdone_counts legal task rfl rfl inside near placed open_
    have unmarked : (taskResumes (s.core c) j && c != s.cid) = false := by
      rw [Bool.and_eq_false_imp, resume]
      exact fun due => by rw [own due, bne_self_eq_false]
    have p := (p.step (M.modify_run _ s)).step (M.modCore_run _ _)
    rw [show childDone (s.core c) j _ _ = _ from congrArg (childDone (s.core c) j n) unmarked] at p
    intro s1 s2
    by_cases due : n = 0 ∧ parked = true
    · rw [if_pos due]
      exact ((p.taken (Bool.and_eq_true_iff.2 ⟨resume.2 due, beq_iff_eq.2 (own due)⟩)).step (M.modify_run _ _)).completes rfl
    · rw [if_neg due]
      exact (p.passed fun both => due (resume.1 (Bool.and_eq_true_iff.1 both).1)).completes (M.modify_run _ _)
  · have p := tdone_counts legal task rfl rfl inside near placed open_
    have p := (p.step (M.modify_run _ s)).step (M.modCore_run _ _)
    have marked : (taskResumes (s.core c) j && c != s.cid) = true :=
      Bool.and_eq_true_iff.2 ⟨resume.2 ⟨last, was⟩, bne_iff_ne.2 other⟩
    rw [show childDone (s.core c) j _ _ = _ from congrArg (childDone (s.core c) j n) marked] at p
    refine ⟨childDone (s.core c) j n true, mem_insertSorted j _, joinFlags_marked .., ?_⟩
    exact (p.passed fun both => other (beq_iff_eq.1 (Bool.and_eq_true_iff.1 both).2)).completes (M.modify_run _ _)

/-! ### Yields, heartbeats and events (R301 to R303, R314) -/

theorem yield_does {s : State} (legal : legalHere s .yield = true) : Completes .yield s (if s.isTh then s else
    s.setMyCore { s.myCore with sched := { s.myCore.sched with yielded := true } }) := by
  have p := Performs.start (i := .yield) legal rfl
  by_cases handler : s.isTh = true
  · rw [if_pos handler]
    exact (p.taken handler).completes rfl
  · rw [if_neg handler]
    exact (p.passed handler).completes (M.modCore_run _ s)

theorem hbeat_does {s : State} (legal : legalHere s .hbeat = true) :
    Completes .hbeat s (if s.isTh then s else s.setMe { s.me with hbcount := 0 }) := by
  have p := Performs.start (i := .hbeat) legal rfl
  by_cases handler : s.isTh = true
  · rw [if_pos handler]
    exact (p.taken handler).completes rfl
  · rw [if_neg handler]
    exact (p.passed handler).completes (M.modMe_run _ s)

theorem wfe_does {s s1 : State} {d b : BitVec 5} {y : Word} (legal : legalHere s (.wfe d b) = true)
    (limit : readX b s = .ok y s1) :
    (s.me.latch = true → ∀ s2, writeX d 1 (s1.setMe { s1.me with latch := false }) = .ok () s2 →
      Completes (.wfe d b) s s2) ∧
    (s.me.latch = false → s.me.wait = .eventOver → ∀ s2, writeX d 0 s1 = .ok () s2 → Completes (.wfe d b) s s2) ∧
    (s.me.latch = false → s.me.wait ≠ .eventOver → Waits (.wfe d b) s
      (.event (if y ≠ 0 then y.toNat else if s.me.fetimeout ≠ 0 then s.me.fetimeout.toNat else 2 ^ 40))) := by
  have p := (Performs.start (i := .wfe d b) legal rfl).step limit
  refine ⟨fun set s2 written => ((p.taken set).step (M.modMe_run _ s1)).completes written,
    fun unset ended s2 written => ?_, fun unset fresh => ?_⟩
  · exact ((p.passed (Bool.eq_false_iff.1 unset)).taken ended).completes written
  · exact ((p.passed (Bool.eq_false_iff.1 unset)).passed fresh).waits (M.waitFor_run _ s1)

theorem sev_does {s s1 : State} {a : BitVec 5} {x : Word} (legal : legalHere s (.sev a) = true)
    (target : readX a s = .ok x s1) :
    let c := x.toNat % 2 ^ 10
    (x.toNat / 2 ^ 13 ≠ 0 → Traps (.sev a) s .operandRange 0) ∧
    (x.toNat / 2 ^ 13 = 0 → (decide (c < 768) && s.inLaunch c) = false → Traps (.sev a) s .invalidTarget 0) ∧
    (x.toNat / 2 ^ 13 = 0 → c < 768 → s.inLaunch c = true →
      let l := if x.getLsbD 12 then 15#4 else BitVec.ofNat 4 (2 ^ (x.toNat / 2 ^ 10 % 4))
      let s2 := after pin s1
      Completes (.sev a) s (if c = s2.cid then setLatches s2 c l
        else (s2.setMe { s2.me with sev := some (c, l) }).emit (.eventLatchSet c (s2.coreOrder s2.cid) l))) := by
  intro c
  have p := (Performs.start (i := .sev a) legal rfl).step target
  rw [fld_high x rfl, fld_handle] at p
  refine ⟨fun reserved => p.unmet (beq_false_of_ne reserved), fun plain outside => ?_, fun plain inside member => ?_⟩
  · exact (p.met (beq_iff_eq.2 plain)).unmet outside
  · have p := (p.met (beq_iff_eq.2 plain)).met (by rw [member, decide_eq_true inside]; rfl)
    exact (p.step (pin_run s1)).completes (M.modify_run _ _)

/-- A set reaches a slot of a core: the latch of a bound strand is set, and a set on an unbound slot is lost. -/
def latchSlot (c : Nat) (l : BitVec 4) (s : State) (t : Nat) : State :=
  let th := s.thread c t
  if bit l t && th.strand != .unbound then s.setThread c t { th with latch := true } else s

theorem State.thread_setThread_ne (s : State) (c : Nat) {t u : Nat} (th : Thread) (other : u ≠ t) :
    (s.setThread c t th).thread c u = s.thread c u := by
  unfold State.setThread State.thread
  rw [State.core_setCore, Core.thread_setThread_ne _ _ other]

theorem latchSlot_self (c : Nat) (l : BitVec 4) (s : State) (t : Nat) :
    ((latchSlot c l s t).thread c t).latch =
      ((s.thread c t).latch || (l.getLsbD t && (s.thread c t).strand != .unbound)) := by
  unfold latchSlot bit
  by_cases set : (l.getLsbD t && (s.thread c t).strand != .unbound) = true
  · rw [if_pos set, State.thread_setThread, set, Bool.or_true]
  · rw [if_neg set, Bool.eq_false_iff.2 set, Bool.or_false]

theorem latchSlot_ne (c : Nat) (l : BitVec 4) (s : State) {t u : Nat} (other : u ≠ t) :
    (latchSlot c l s t).thread c u = s.thread c u := by
  unfold latchSlot
  dsimp only
  split
  · exact s.thread_setThread_ne c _ other
  · rfl

/-- Slots that a set has not reached are as they were, and the others' latches stand for the set. -/
theorem latch_foldl (c t : Nat) (l : BitVec 4) (s : State) : ∀ n : Nat,
    (n ≤ t → ((List.range n).foldl (latchSlot c l) s).thread c t = s.thread c t) ∧
    (t < n → (((List.range n).foldl (latchSlot c l) s).thread c t).latch =
      ((s.thread c t).latch || (l.getLsbD t && (s.thread c t).strand != .unbound)))
  | 0 => ⟨fun _ => rfl, fun none => absurd none t.not_lt_zero⟩
  | n + 1 => by
    obtain ⟨before, done⟩ := latch_foldl c t l s n
    rw [List.range_succ, List.foldl_concat]
    refine ⟨fun later => ?_, fun reached => ?_⟩
    · rw [latchSlot_ne c l _ (by omega), before (by omega)]
    · by_cases now : t = n
      · subst now
        rw [latchSlot_self, before le_rfl]
      · rw [latchSlot_ne c l _ now, done (by omega)]

/-- Settles O35, word by word; FORK's record, JOIN's and TDONE's count by what their cores hold. -/
theorem taskAndEventWords : Obligations.TaskAndEventWords :=
  ⟨⟨fun _ _ _ _ _ _ _ _ => fork_does, fun _ _ _ _ => join_does,
      fun _ legal => ⟨tdone_initial legal, tdone_task legal⟩, fun _ => yield_does, fun _ => hbeat_does⟩,
    fun _ _ _ _ _ => wfe_does, fun _ _ _ _ => sev_does, fun s c t l slot => (latch_foldl c t l s 4).2 slot⟩

end Sys2Proof.Machine
end

section
/-! SUPPORT. Messages' words and the ends of activations (R321, R322, R324, R327, R328, R330, R344, R345): O44 from these. -/

namespace Sys2Proof.Machine

/-! ### MSEND (R321, R322, R324) -/

theorem fld_unit (x : Word) : fld x 63 34 = x.toNat / 2 ^ 34 := fld_high x rfl 34

theorem fld_handler (x : Word) : fld x 33 26 = x.toNat / 2 ^ 26 % 2 ^ 8 := rfl

theorem fld_package (x : Word) : fld x 25 10 = x.toNat / 2 ^ 10 % 2 ^ 16 := rfl

/-- The message that a thread's MSEND sends. -/
def sentMsg (s : State) (desc : Word) : Msg :=
  ⟨sourceWord s.tid s.pkg s.cid, s.me.seq + 1, desc, s.myCtx, s.coreOrder s.cid, s.me.mo⟩

/-- The thread when the payload has been taken and the message numbered. -/
def numbered (s s1 : State) : State := s1.setMe { s1.me with seq := s.me.seq + 1, mo := [] }

/-- What is left of MSEND when the message stands: where an unpinned activation may hold it back, and the number delivered. -/
def sendRest (s : State) (d : BitVec 5) (desc : Word) : M Unit := do
  match (← get).myCore.act with
  | some act =>
    if s.unpinned then
      if act.heldMsgs.length < 32 then
        modCore fun k => { k with act := some { act with heldMsgs := act.heldMsgs ++ [.messageArrival (sentMsg s desc)] } }
      else
        pin
        modify fun s' => sendOut s' [.messageArrival (sentMsg s desc)]
    else modify fun s' => sendOut s' [.messageArrival (sentMsg s desc)]
  | none => modify fun s' => sendOut s' [.messageArrival (sentMsg s desc)]
  writeX d (word (s.me.seq + 1))

theorem sendRest_pinned {s s2 s3 : State} {d : BitVec 5} {desc : Word} (pinned : s.unpinned = false)
    (written : writeX d (word (s.me.seq + 1)) (sendOut s2 [.messageArrival (sentMsg s desc)]) = .ok () s3) :
    sendRest s d desc s2 = .ok () s3 := by
  unfold sendRest
  rw [M.bind_get_run]
  cases s2.myCore.act with
  | none => exact written
  | some act =>
    dsimp only
    rw [if_neg (Bool.eq_false_iff.1 pinned)]
    exact written

theorem sendRest_held {s s2 s3 : State} {d : BitVec 5} {desc : Word} {act : Activation} (unpinned : s.unpinned = true)
    (running : s2.myCore.act = some act) (room : act.heldMsgs.length < 32)
    (written : writeX d (word (s.me.seq + 1)) (s2.setMyCore { s2.myCore with
      act := some { act with heldMsgs := act.heldMsgs ++ [.messageArrival (sentMsg s desc)] } }) = .ok () s3) :
    sendRest s d desc s2 = .ok () s3 := by
  unfold sendRest
  rw [M.bind_get_run, running]
  dsimp only
  rw [if_pos unpinned, if_pos room]
  exact (M.bind_ok (M.modCore_run _ s2)).trans written

theorem sendRest_full {s s2 s3 : State} {d : BitVec 5} {desc : Word} {act : Activation} (unpinned : s.unpinned = true)
    (running : s2.myCore.act = some act) (full : 32 ≤ act.heldMsgs.length)
    (written : writeX d (word (s.me.seq + 1)) (sendOut (after pin s2) [.messageArrival (sentMsg s desc)]) = .ok () s3) :
    sendRest s d desc s2 = .ok () s3 := by
  unfold sendRest
  rw [M.bind_get_run, running]
  dsimp only
  rw [if_pos unpinned, if_neg (Nat.not_lt.2 full)]
  exact (M.bind_ok (pin_run s2)).trans ((M.bind_ok (M.modify_run _ _)).trans written)

theorem msend_does {s s1 : State} {d a : BitVec 5} {x : Word} (legal : legalHere s (.msend d a) = true)
    (descriptor : readX a s = .ok x s1) :
    let formed := x.toNat / 2 ^ 34 = 0 ∧ ¬ (x.toNat / 2 ^ 26 % 2 ^ 8 = 255 ∧ x.toNat % 2 ^ 10 ≠ 0)
    let there := x.toNat % 2 ^ 10 < 768 ∧ x.toNat / 2 ^ 10 % 2 ^ 16 < s.npkgs
    (¬ formed → Traps (.msend d a) s .descriptorFormat 0) ∧
    (formed → ¬ there → Traps (.msend d a) s .invalidTarget 0) ∧
    (formed → there → s.isTh = false → 64 ≤ outboundUsed s s.cid → Waits (.msend d a) s .outbound) ∧
    (formed → there → s.isTh = true ∨ outboundUsed s s.cid < 64 →
      Performs (.msend d a) s (sendRest s d x) (numbered s s1)) := by
  intro formed there
  have p := (Performs.start (i := .msend d a) legal rfl).step descriptor
  have well : (fld x 63 34 == 0 && !(fld x 33 26 == 255 && fld x 9 0 != 0)) = true ↔ formed := by
    rw [fld_unit, fld_handler, fld_handle, Bool.and_eq_true, beq_iff_eq, Bool.not_eq_true', Bool.eq_false_iff, Ne,
      Bool.and_eq_true, beq_iff_eq, bne_iff_ne]
  have exists_ : (decide (fld x 9 0 < 768) && decide (fld x 25 10 < s.npkgs)) = true ↔ there := by
    rw [fld_package, fld_handle, Bool.and_eq_true, decide_eq_true_eq, decide_eq_true_eq]
  have full : (!s.isTh && decide (64 ≤ outboundUsed s s.cid)) = true ↔ s.isTh = false ∧ 64 ≤ outboundUsed s s.cid := by
    rw [Bool.and_eq_true, Bool.not_eq_true', decide_eq_true_eq]
  refine ⟨fun bad => p.unmet (Bool.eq_false_iff.2 (mt well.1 bad)), fun good none => ?_, fun good target compute used => ?_,
    fun good target room => ?_⟩
  · exact (p.met (well.2 good)).unmet (Bool.eq_false_iff.2 (mt exists_.1 none))
  · exact (((p.met (well.2 good)).met (exists_.2 target)).taken (full.2 ⟨compute, used⟩)).waits (M.waitFor_run _ s1)
  · have p := ((p.met (well.2 good)).met (exists_.2 target)).passed fun stuck => by
      obtain ⟨compute, used⟩ := full.1 stuck
      exact room.elim (fun handler => nomatch compute.symm.trans handler) (Nat.not_lt.2 used)
    have p := p.step (M.modMe_run _ s1)
    exact p

/-! ### HEND, ANXPUT and ANXEND (R330, R344, R345) -/

theorem hend_does {s : State} (legal : legalHere s .hend = true) :
    (s.isTh = false ∨ s.myCore.act = none → Traps .hend s .illegalInstruction 0) ∧
    ∀ a : Activation, s.isTh = true → s.myCore.act = some a →
      (a.kind ≠ .message → Traps .hend s .annexState 0) ∧
      (a.kind = .message → holdsFit s a = false → Waits .hend s .outbound) ∧
      (a.kind = .message → holdsFit s a = true → Completes .hend s (endActivation s s.cid)) := by
  have p := Performs.start (i := .hend) legal rfl
  refine ⟨fun out => ?_, fun a handler running => ?_⟩
  · by_cases handler : s.isTh = true
    · have idle := out.resolve_left fun compute => nomatch compute.symm.trans handler
      have p := p.met handler
      rw [idle] at p
      exact p.traps (M.illegal_run s)
    · exact p.unmet (Bool.eq_false_iff.2 handler)
  · have p := p.met handler
    rw [running] at p
    refine ⟨fun other => p.unmet (beq_false_of_ne other), fun message full => ?_, fun message fits => ?_⟩
    · exact ((p.met (beq_iff_eq.2 message)).passed (Bool.eq_false_iff.1 full)).waits (M.waitFor_run _ s)
    · exact ((p.met (beq_iff_eq.2 message)).taken fits).completes (M.modify_run _ s)

theorem nudgeStop_cur (s : State) (c : Nat) : (nudgeStop s c).cur = s.cur := by
  unfold nudgeStop
  split <;> rfl

theorem pinState_cur (s : State) : (pinState s).cur = s.cur := congrArg Prod.fst (steady_pinState s)

theorem endActivation_cur (s : State) (c : Nat) : (endActivation s c).cur = s.cur := by
  unfold endActivation
  cases (s.core c).act with
  | none => rfl
  | some a => exact (nudgeStop_cur _ c).trans (pinState_cur _)

/-- The annex of an activation that has ended goes on to its next step. -/
def annexAfter (s : State) (merge : Bool) : State :=
  match annexOn s s.cid merge with
  | some n => setAnnex s n { n with step := n.step + 1 }
  | none => s

theorem annexAfter_cur (s : State) (merge : Bool) : (annexAfter s merge).cur = s.cur := by
  unfold annexAfter
  split <;> rfl

theorem anxend_does {s : State} (legal : legalHere s .anxend = true) :
    (s.isTh = false → Traps .anxend s .illegalInstruction 0) ∧
    (s.isTh = true → s.myCore.act = none → Traps .anxend s .annexState 0) ∧
    ∀ a : Activation, s.isTh = true → s.myCore.act = some a →
      (a.kind = .message → Traps .anxend s .annexState 0) ∧
      (a.kind ≠ .message → holdsFit s a = false → Waits .anxend s .outbound) ∧
      (a.kind ≠ .message → holdsFit s a = true →
        let s1 := endActivation s s.cid
        let s2 := match annexOn s1 s1.cid (a.kind == ActKind.merge) with
          | some n => setAnnex s1 n { n with step := n.step + 1 }
          | none => s1
        Completes .anxend s
          (s2.emit (if a.kind = ActKind.merge then .mergeActivation s.cid else .annexForward s.cid))) := by
  have p := Performs.start (i := .anxend) legal rfl
  refine ⟨fun compute => p.unmet compute, fun handler idle => ?_, fun a handler running => ?_⟩
  · have p := p.met handler
    rw [idle] at p
    exact p.traps (M.trap_run _ _ s)
  · have p := p.met handler
    rw [running] at p
    refine ⟨fun message => p.unmet (by rw [message]; rfl), fun annex full => ?_, fun annex fits => ?_⟩
    · exact ((p.met (bne_iff_ne.2 annex)).passed (Bool.eq_false_iff.1 full)).waits (M.waitFor_run _ s)
    · have core : (annexAfter (endActivation s s.cid) (a.kind == .merge)).cid = s.cid :=
        congrArg Prod.fst ((annexAfter_cur _ _).trans (endActivation_cur s _))
      have follows (c : Nat) : (if (a.kind == .merge) = true then Event.mergeActivation c else .annexForward c) =
          if a.kind = .merge then .mergeActivation c else .annexForward c := by
        simp only [beq_iff_eq]
      have done : Completes .anxend s ((annexAfter (endActivation s s.cid) (a.kind == .merge)).emit
          (if (a.kind == .merge) = true then
            .mergeActivation (annexAfter (endActivation s s.cid) (a.kind == .merge)).cid
          else .annexForward (annexAfter (endActivation s s.cid) (a.kind == .merge)).cid)) :=
        ((p.met (bne_iff_ne.2 annex)).taken fits).completes (M.modify_run _ s)
      rw [core, follows] at done
      exact done

theorem anxput_does {s s1 s2 : State} {a b : BitVec 5} {x y : Word} (legal : legalHere s (.anxput a b) = true)
    (source : readX a s = .ok x s1) (target : readX b s1 = .ok y s2) :
    let split := s.isTh = true ∧ ∃ t, s.myCore.act = some t ∧ t.kind = .split
    let len := y.toNat / 2 ^ 18 % 2 ^ 17
    let dst := y.toNat % 2 ^ 18
    (¬ split ∨ annexOn s s.cid false = none → Traps (.anxput a b) s .annexState 0) ∧
    ∀ n, split → annexOn s s.cid false = some n →
      let ok := y.toNat / 2 ^ 36 = 0 ∧ len % 16 = 0 ∧ 16 ≤ len ∧ len ≤ 2 ^ 16
      (¬ ok → Traps (.anxput a b) s .operandRange 0) ∧
      (ok → x.toNat % 16 ≠ 0 → Traps (.anxput a b) s .misalignedAccess x) ∧
      (ok → x.toNat % 16 = 0 → dst % 16 ≠ 0 → Traps (.anxput a b) s .misalignedAccess (word dst)) ∧
      (ok → x.toNat % 16 = 0 → dst % 16 = 0 → localFault s2.myCore x.toNat len = none →
        placedFront (s.core n.y) dst len 16 = none → s.away n.y = true → Waits (.anxput a b) s .ring) ∧
      (ok → x.toNat % 16 = 0 → dst % 16 = 0 → localFault s2.myCore x.toNat len = none →
        placedFront (s.core n.y) dst len 16 = none → s.away n.y = false →
        let k := (s2.core n.y).lwrite dst len (s2.myCore.lread x.toNat len)
        Completes (.anxput a b) s (s2.setCore n.y (if y.getLsbD 35 then k.setFull (dst / 16) (len / 16) else k))) := by
  intro split len dst
  have p := ((Performs.start (i := .anxput a b) legal rfl).step source).step target
  have inSplit : (s.isTh && (match s.myCore.act with | some t => t.kind == .split | none => false)) = true ↔ split := by
    rw [Bool.and_eq_true]
    change _ ↔ s.isTh = true ∧ ∃ t, s.myCore.act = some t ∧ t.kind = .split
    cases s.myCore.act with
    | none => simp
    | some t => simp
  refine ⟨fun out => ?_, fun n inside annex => ?_⟩
  · by_cases inside : split
    · have p := p.met (inSplit.2 inside)
      rw [out.resolve_left (not_not.2 inside)] at p
      exact p.traps (M.trap_run _ _ s2)
    · exact p.unmet (Bool.eq_false_iff.2 (mt inSplit.1 inside))
  · have p := p.met (inSplit.2 inside)
    rw [annex] at p
    have offset : fld y 17 0 = dst := fld_low y 17
    have length : fld y 34 18 = len := rfl
    have p : Performs (.anxput a b) s _ s2 := p
    rw [fld_high y rfl, offset, length] at p
    intro ok
    have ranged : (y.toNat / 2 ^ 36 == 0 && len % 16 == 0 && decide (16 ≤ len) && decide (len ≤ 2 ^ 16)) = true ↔ ok := by
      simp only [Bool.and_eq_true, beq_iff_eq, decide_eq_true_eq, and_assoc, ok]
    refine ⟨fun bad => p.unmet (Bool.eq_false_iff.2 (mt ranged.1 bad)), fun good odd => ?_, fun good even odd => ?_,
      fun good even aligned readable writable away => ?_, fun good even aligned readable writable near => ?_⟩
    · exact (p.met (ranged.2 good)).misaligned odd
    · exact ((p.met (ranged.2 good)).aligned even).misaligned odd
    · have p := (((p.met (ranged.2 good)).aligned even).aligned aligned).step (checkLocal_ok readable)
      exact ((p.step (checkPlaced_ok writable)).taken away).waits (M.waitFor_run _ s2)
    · have p := (((p.met (ranged.2 good)).aligned even).aligned aligned).step (checkLocal_ok readable)
      exact ((p.step (checkPlaced_ok writable)).passed (Bool.eq_false_iff.1 near)).completes (M.modify_run _ s2)

/-- Settles O44, word by word. -/
theorem messageWords : Obligations.MessageWords := by
  refine ⟨fun s d a x s1 legal descriptor => ?msend, fun _ => hend_does, fun _ _ _ _ _ _ _ => anxput_does,
    fun _ => anxend_does⟩
  intro formed there m s2
  obtain ⟨malformed, nowhere, full, sends⟩ := msend_does legal descriptor
  refine ⟨malformed, nowhere, full, fun good target room => ⟨fun pinned s3 written => ?_, fun unpinned act running =>
    ⟨fun held s3 written => ?_, fun beyond s3 written => ?_⟩⟩⟩
  · exact (sends good target room).completes (sendRest_pinned pinned written)
  · exact (sends good target room).completes (sendRest_held unpinned running held written)
  · exact (sends good target room).completes (sendRest_full unpinned running beyond written)

end Sys2Proof.Machine
end

section
/-! SUPPORT. The barrier words (R304 to R312): how an arrival completes a phase, and what each word waits for; O36 from these. -/

namespace Sys2Proof.Machine

/-! ### An arrival at the counting core (R306, R307) -/

@[simp] theorem Core.bar_setBar (k : Core) (b : Nat) (r : Barrier) : (k.setBar b r).bar b = r := SMap.get_set_self ..

@[simp] theorem bar_releaseWaiters (k : Core) (b n : Nat) (ph : BitVec 24) (r : Word) :
    (releaseWaiters k b ph r).bar n = k.bar n := rfl

theorem exchangeBanks_kept (k : Core) : (exchangeBanks k).threads = k.threads ∧ (exchangeBanks k).barriers = k.barriers := by
  unfold exchangeBanks
  dsimp only
  split <;> exact ⟨rfl, rfl⟩

theorem find?_mapSnd {α : Type} (f : α → α) (t : Nat) : ∀ m : SMap α,
    SMap.find? (m.map fun p => (p.1, f p.2)) t = (SMap.find? m t).map f
  | [] => rfl
  | p :: m => by
    rw [List.map_cons, SMap.find?, SMap.find?, find?_mapSnd f t m]
    split <;> rfl

/-- A thread when a release of a phase has come to its core. -/
def released (b : Nat) (ph : BitVec 24) (r : Word) (th : Thread) : Thread :=
  if th.wait = .barrier b ph ∨ th.wait = .joined b ph then { th with wait := .released b ph r } else th

theorem thread_releaseWaiters (k : Core) (b : Nat) (ph : BitVec 24) (r : Word) (t : Nat) :
    (releaseWaiters k b ph r).thread t = released b ph r (k.thread t) := by
  have threads : (releaseWaiters k b ph r).threads = k.threads.map fun p => (p.1, released b ph r p.2) := by
    refine List.map_congr_left fun p _ => ?_
    dsimp only [released]
    split <;> rfl
  unfold Core.thread SMap.get
  rw [threads, find?_mapSnd]
  cases SMap.find? k.threads t with
  | none => rfl
  | some th => rfl

theorem nextPhase_ahead (ph : BitVec 24) : (ph + 1 - ph).toNat = 1 := by
  rw [BitVec.add_comm, BitVec.add_sub_cancel]
  rfl

theorem nextPhase_ne (ph : BitVec 24) : ph + 1 ≠ ph := fun same => by
  have ahead := nextPhase_ahead ph
  rw [same, BitVec.sub_self] at ahead
  exact nomatch ahead

/-- A core that is at a phase and receives its release (R307, R309). -/
theorem receiveRelease_current {s : State} {c b : Nat} {ph : BitVec 24} {r : Word} {sw : Bool}
    (current : ((s.core c).bar b).phase = ph) :
    ((receiveRelease s c b ph r sw).core c).bar b = { (s.core c).bar b with phase := ph + 1, result := r } ∧
      ∀ t, (receiveRelease s c b ph r sw).thread c t = released b ph r (s.thread c t) := by
  obtain ⟨k, swapped, threads, barriers⟩ : ∃ k, (if sw then exchangeBanks (s.core c) else s.core c) = k ∧
      k.threads = (s.core c).threads ∧ k.barriers = (s.core c).barriers := by
    refine ⟨_, rfl, ?_⟩
    cases sw with
    | false => exact ⟨rfl, rfl⟩
    | true => exact exchangeBanks_kept _
  have bar : k.bar b = (s.core c).bar b := by rw [Core.bar, barriers]; rfl
  have core : (receiveRelease s c b ph r sw).core c =
      releaseWaiters (k.setBar b { k.bar b with phase := ph + 1, result := r }) b ph r := by
    unfold receiveRelease
    rw [State.core_setCore, swapped]
    dsimp only
    rw [if_pos]
    rw [bar, current, nextPhase_ahead]
    rfl
  refine ⟨?_, fun t => ?_⟩
  · rw [core, bar_releaseWaiters, Core.bar_setBar, bar]
  · rw [State.thread, core, thread_releaseWaiters, State.thread, Core.thread, Core.thread]
    exact congrArg (fun m => released b ph r (SMap.get m t Thread.reset)) threads

/-- What a phase has combined when the value of one more arrival is in (R308). -/
def combined (bar : Barrier) (val : Option Word) : Word :=
  match val with
  | some v => combine bar.op.toNat (if bar.arrived = 0 then combineId bar.op.toNat else bar.acc) v
  | none => if bar.arrived = 0 then combineId bar.op.toNat else bar.acc

/-- The barrier when one more has arrived and the count is not reached. -/
def arrivedAt (bar : Barrier) (val : Option Word) (swap : Bool) (cycle : Nat) : Barrier :=
  { bar with
    arrived := bar.arrived + 1, acc := combined bar val, swap := (bar.arrived != 0 && bar.swap) || swap
    first := if bar.arrived = 0 then some cycle else bar.first }

section Arrival

variable {s : State} {c b : Nat} {val : Option Word} {swap : Bool}

theorem arriveAt_phase : (arriveAt s c b val swap).1 = ((s.core c).bar b).phase := by
  unfold arriveAt
  dsimp only
  split
  · split <;> rfl
  · rfl

theorem arriveAt_cur : (arriveAt s c b val swap).2.cur = s.cur := by
  unfold arriveAt
  dsimp only
  split
  · split <;> rfl
  · rfl

theorem arriveAt_more (more : ((s.core c).bar b).arrived + 1 ≠ ((s.core c).bar b).count.toNat) :
    (arriveAt s c b val swap).2 =
      s.setCore c ((s.core c).setBar b (arrivedAt ((s.core c).bar b) val swap s.cycle)) := by
  unfold arriveAt
  dsimp only
  rw [if_neg more]
  rfl

/-- The last arrival completes the phase, and its release has come to the counting core. -/
theorem arriveAt_last (last : ((s.core c).bar b).arrived + 1 = ((s.core c).bar b).count.toNat) :
    (((arriveAt s c b val swap).2.core c).bar b).phase = ((s.core c).bar b).phase + 1 ∧
    (((arriveAt s c b val swap).2.core c).bar b).arrived = 0 ∧
    (((arriveAt s c b val swap).2.core c).bar b).result = combined ((s.core c).bar b) val ∧
    ∀ t, (arriveAt s c b val swap).2.thread c t =
      released b ((s.core c).bar b).phase (combined ((s.core c).bar b) val) (s.thread c t) := by
  obtain ⟨bar, isBar⟩ : ∃ bar, bar = (s.core c).bar b := ⟨_, rfl⟩
  rw [← isBar] at last ⊢
  obtain ⟨u, isU⟩ : ∃ u, u = s.setCore c ((s.core c).setBar b
    { bar with arrived := 0, acc := combineId bar.op.toNat, swap := false, first := none, held := false }) := ⟨_, rfl⟩
  have ubar : (u.core c).bar b =
      { bar with arrived := 0, acc := combineId bar.op.toNat, swap := false, first := none, held := false } := by
    rw [isU, State.core_setCore, Core.bar_setBar]
  have uthread (t : Nat) : u.thread c t = s.thread c t := by
    rw [isU, State.thread, State.core_setCore]
    rfl
  have core : (arriveAt s c b val swap).2.core c = (receiveRelease u c b bar.phase (combined bar val)
      ((bar.arrived != 0 && bar.swap) || swap)).core c := by
    unfold arriveAt
    dsimp only
    rw [← isBar, if_pos last, ← isU]
    split <;> rfl
  obtain ⟨nowBar, nowThread⟩ := receiveRelease_current (s := u) (r := combined bar val)
    (sw := (bar.arrived != 0 && bar.swap) || swap) (congrArg Barrier.phase ubar)
  rw [core, nowBar, ubar]
  refine ⟨rfl, rfl, rfl, fun t => ?_⟩
  rw [State.thread, core]
  exact (nowThread t).trans (congrArg _ (uthread t))

/-- An arrival whose phase has not been completed has changed its barrier alone, and not its timeout. -/
theorem arriveAt_pending
    (pending : (((arriveAt s c b val swap).2.core c).bar b).phase = (arriveAt s c b val swap).1) :
    ∃ r, (arriveAt s c b val swap).2 = s.setCore c ((s.core c).setBar b r) ∧ r.tout = ((s.core c).bar b).tout := by
  by_cases last : ((s.core c).bar b).arrived + 1 = ((s.core c).bar b).count.toNat
  · rw [(arriveAt_last last).1, arriveAt_phase] at pending
    exact absurd pending (nextPhase_ne _)
  · exact ⟨_, arriveAt_more last, rfl⟩

end Arrival

/-- How an arrival joins the current phase, and completes it or not (R306, R307, R308). -/
theorem arriveAt_does (s : State) (c b : Nat) (val : Option Word) (swap : Bool) :
    let bar := (s.core c).bar b
    let r := arriveAt s c b val swap
    let now := (r.2.core c).bar b
    let acc0 := if bar.arrived = 0 then combineId bar.op.toNat else bar.acc
    let acc := match val with | some v => combine bar.op.toNat acc0 v | none => acc0
    r.1 = bar.phase ∧
    (bar.arrived + 1 = bar.count.toNat → now.phase = bar.phase + 1 ∧ now.arrived = 0 ∧ now.result = acc ∧
      ∀ t, (s.thread c t).wait = .barrier b bar.phase ∨ (s.thread c t).wait = .joined b bar.phase →
        (r.2.thread c t).wait = .released b bar.phase acc) ∧
    (bar.arrived + 1 ≠ bar.count.toNat → now.phase = bar.phase ∧ now.arrived = bar.arrived + 1 ∧ now.result = bar.result ∧
      now.acc = acc) := by
  intro bar r now acc0 acc
  refine ⟨arriveAt_phase, fun last => ?_, fun more => ?_⟩
  · obtain ⟨phase, arrived, result, threads⟩ := arriveAt_last (val := val) (swap := swap) last
    refine ⟨phase, arrived, result, fun t waits => ?_⟩
    change ((arriveAt s c b val swap).2.thread c t).wait = _
    rw [threads t, released, if_pos waits]
    rfl
  · have here : now = arrivedAt bar val swap s.cycle := by
      change ((arriveAt s c b val swap).2.core c).bar b = _
      rw [arriveAt_more more, State.core_setCore, Core.bar_setBar]
    rw [here]
    exact ⟨rfl, rfl, rfl, rfl⟩

/-! ### Arriving and waiting (R306, R310, R311, R313) -/

section Waiting

variable {s s1 : State} {b : Nat} {val : Option Word} {sw : Bool} {ph : BitVec 24} {r : Word}

theorem joined_released : joined b (.released b ph r) = some (ph, some r) := if_pos rfl

theorem joined_joined : joined b (.joined b ph) = some (ph, none) := if_pos rfl

/-- A thread that a barrier releases or holds joined its phase: only the former has the result. -/
theorem joined_unreleased {w : Wait} {j : BitVec 24 × Option Word} (unreleased : ∀ ph r, w ≠ .released b ph r)
    (found : joined b w = some j) : j.2 = none := by
  unfold joined at found
  split at found
  · split at found
    · cases found
      rfl
    · cases found
  · split at found
    · cases found
      rfl
    · cases found
  · split at found
    · next same =>
      subst same
      exact absurd rfl (unreleased _ _)
    · cases found
  · cases found

theorem arriveM_timedOut (fresh : joined b s.me.wait = none) (late : (s.myCore.bar b).tout = true) :
    arriveM b val sw s = .error (.trap .barrierTimeout 0 false) s := by
  unfold arriveM
  rw [M.bind_get_run, fresh]
  exact M.bind_error (M.need_trap (by rw [late]; rfl) _ _ _)

/-- An arrival at a group barrier goes to the master, and the word waits for its answer (R306, R307). -/
theorem arriveM_group (fresh : joined b s.me.wait = none) (timely : (s.myCore.bar b).tout = false)
    (unsent : s.me.wait ≠ .arrival b) (group : (s.myCore.bar b).group = true) :
    arriveM b val sw s = .error (.park (.arrival b)) ((after pin s).emit (.groupBarrierArrival (s.barMaster s.cid) s.cid
      s.tid b (s.coreOrder s.cid) (val.getD (combineId (s.myCore.bar b).op.toNat)) sw true)) := by
  unfold arriveM
  rw [M.bind_get_run, fresh]
  refine (M.bind_ok (M.need_run (by rw [timely]; rfl) _ _ _)).trans ((M.bind_ok (pin_run _)).trans ?_)
  rw [if_neg unsent, if_pos group]
  exact (M.bind_ok (M.emitM_run _ _)).trans (M.throw_run _ _)

theorem awaitPhase_released : awaitPhase b (ph, some r) s = .ok r s := rfl

theorem awaitPhase_timedOut (late : (s.myCore.bar b).tout = true) :
    awaitPhase b (ph, none) s = .error (.trap .barrierTimeout 0 false) s :=
  (M.bind_ok (M.get_run s)).trans (M.bind_error (M.need_trap (by rw [late]; rfl) _ _ _))

theorem awaitPhase_waits (timely : (s.myCore.bar b).tout = false) (joins : (joined b s.me.wait).isSome = true) :
    awaitPhase b (ph, none) s = .error (.wait (.barrier b ph)) s := by
  refine (M.bind_ok (M.need_run (by rw [timely]; rfl) _ _ _)).trans ?_
  rw [if_pos joins]
  rfl

theorem awaitPhase_parks (timely : (s.myCore.bar b).tout = false) (fresh : joined b s.me.wait = none) :
    awaitPhase b (ph, none) s = .error (.park (.barrier b ph)) s := by
  refine (M.bind_ok (M.need_run (by rw [timely]; rfl) _ _ _)).trans ?_
  rw [if_neg (by rw [fresh]; nofun)]
  rfl

end Waiting

namespace Performs

variable {i : Instr} {s s1 : State} {n : Nat} {x : Word} {val : Option Word} {sw : Bool} {k : Word → M Unit}

/-- The wait for a phase that the thread has joined, or joins: what a BSYNC, BCOMB or BSWAP does (R307, R310, R311). -/
theorem awaits (p : Performs i s (arriveM n val sw >>= fun j => awaitPhase n j >>= k) s1) :
    (∀ ph r, s1.me.wait = .released n ph r → Performs i s (k r) s1) ∧
    (∀ ph, joined n s1.me.wait = some (ph, none) → (s1.myCore.bar n).tout = false → Waits i s (.barrier n ph)) ∧
    ((∀ ph r, s1.me.wait ≠ .released n ph r) → (s1.myCore.bar n).tout = true → Traps i s .barrierTimeout 0) := by
  refine ⟨fun ph r done => ?_, fun ph joins timely => ?_, fun unreleased late => ?_⟩
  · exact (p.step (arriveM_joined (by rw [done]; exact joined_released))).step awaitPhase_released
  · refine (p.step (arriveM_joined joins)).waits (M.bind_error (awaitPhase_waits timely ?_))
    rw [joins]
    rfl
  · cases found : joined n s1.me.wait with
    | none => exact p.traps (M.bind_error (arriveM_timedOut found late))
    | some j =>
      obtain ⟨ph, r⟩ := j
      cases joined_unreleased unreleased found
      exact (p.step (arriveM_joined found)).traps (M.bind_error (awaitPhase_timedOut late))

/-- The same word's arrival at a barrier of its core: the last goes on with the phase's result, another waits. -/
theorem arrives (p : Performs i s (arriveM n val sw >>= fun j => awaitPhase n j >>= k) s)
    (computes : thForbidden i = true) (fresh : joined n s.me.wait = none) (unsent : s.me.wait ≠ .arrival n)
    (timely : (s.myCore.bar n).tout = false) (plain : (s.myCore.bar n).group = false) :
    let t := arriveAt s s.cid n val sw
    ((t.2.myCore.bar n).phase ≠ t.1 → Performs i s (k (t.2.myCore.bar n).result) t.2) ∧
    ((t.2.myCore.bar n).phase = t.1 → exec i s = .next (beginPark t.2 (.barrier n t.1))) := by
  intro t
  have p := p.step (arriveM_local fresh timely unsent plain)
  rw [pin_compute (compute_of_legal p.1 computes)] at p
  refine ⟨fun done => ?_, fun pending => ?_⟩
  · rw [if_neg done] at p
    exact p.step awaitPhase_released
  · rw [if_pos pending] at p
    have core : t.2.myCore = t.2.core s.cid := by
      rw [State.myCore, State.cid, show t.2.cur = s.cur from arriveAt_cur]
      rfl
    obtain ⟨r, changed, tout⟩ := arriveAt_pending (by rwa [core] at pending)
    refine p.parks computes (M.bind_error (awaitPhase_parks ?_ ?_))
    · rw [core, changed, State.core_setCore, Core.bar_setBar, tout]
      exact timely
    · rw [changed]
      exact (congrArg (fun th : Thread => joined n th.wait) (s.me_setMyCore _)).trans fresh

end Performs

/-! ### The words (R305, R308, R309, R311, R312) -/

theorem compute_readX {n : BitVec 5} {s s1 : State} {x : Word} (compute : s.isTh = false) (read : readX n s = .ok x s1) :
    s1 = s :=
  (readX_ends read).resolve_right fun ⟨_, _, _, handler, _⟩ => nomatch compute.symm.trans handler

/-- Each word of a barrier checks its number first (R311). -/
theorem barrier_outside {i : Instr} {s : State} {a : BitVec 5} {x : Word} {s1 : State} {k : Nat → M Unit}
    (runs : exec i s = run i s (readX a >>= fun x => barNum x >>= k)) (number : readX a s = .ok x s1)
    (outside : 128 ≤ x.toNat) (legal : legalHere s i = true) : Traps i s .operandRange 0 :=
  ((Performs.start legal runs).step number).traps (M.bind_error (barNum_bad outside))

theorem phasePast_iff {p y : Nat} (short : y < 2 ^ 24) (P : BitVec 24) (isP : P.toNat = p) (Y : BitVec 24)
    (isY : Y.toNat = y) : phasePast P Y = true ↔ 1 ≤ (p + 2 ^ 24 - y) % 2 ^ 24 ∧ (p + 2 ^ 24 - y) % 2 ^ 24 ≤ 2 ^ 23 := by
  have distance : (P - Y).toNat = (p + 2 ^ 24 - y) % 2 ^ 24 := by
    rw [BitVec.toNat_sub, isP, isY]
    congr 1
    omega
  rw [phasePast, Bool.and_eq_true, decide_eq_true_eq, decide_eq_true_eq, distance]

theorem barrive_does {s s1 : State} {d a : BitVec 5} {x : Word} (legal : legalHere s (.barrive d a) = true)
    (number : readX a s = .ok x s1) (inside : x.toNat < 128) (fresh : joined x.toNat s1.me.wait = none) :
    ((s1.myCore.bar x.toNat).tout = true → Traps (.barrive d a) s .barrierTimeout 0) ∧
    ((s1.myCore.bar x.toNat).tout = false → s1.me.wait ≠ .arrival x.toNat → (s1.myCore.bar x.toNat).group = false → ∀ s3,
      writeX d ((arriveAt (after pin s1) s1.cid x.toNat none false).1.zeroExtend 64)
        (arriveAt (after pin s1) s1.cid x.toNat none false).2 = .ok () s3 → Completes (.barrive d a) s s3) ∧
    ((s1.myCore.bar x.toNat).tout = false → s1.me.wait ≠ .arrival x.toNat → (s1.myCore.bar x.toNat).group = true →
      exec (.barrive d a) s = .next (beginPark (keepPayload s ((after pin s1).emit (.groupBarrierArrival (s1.barMaster s1.cid)
        s1.cid s1.tid x.toNat (s1.coreOrder s1.cid) (combineId (s1.myCore.bar x.toNat).op.toNat) false true)))
        (.arrival x.toNat))) := by
  have p := ((Performs.start (i := .barrive d a) legal rfl).step number).step (barNum_ok inside)
  refine ⟨fun late => p.traps (M.bind_error (arriveM_timedOut fresh late)), fun timely unsent plain s3 written => ?_,
    fun timely unsent group => p.parksKeeping (M.bind_error (arriveM_group fresh timely unsent group))⟩
  exact (p.step (arriveM_local fresh timely unsent plain)).completes written

theorem bwait_does {s s1 s2 : State} {d a b : BitVec 5} {x y : Word} (legal : legalHere s (.bwait d a b) = true)
    (number : readX a s = .ok x s1) (asked : readX b s1 = .ok y s2) (inside : x.toNat < 128) :
    (2 ^ 24 ≤ y.toNat → Traps (.bwait d a b) s .operandRange 0) ∧
    (y.toNat < 2 ^ 24 →
      let n := ((s.myCore.bar x.toNat).phase.toNat + 2 ^ 24 - y.toNat) % 2 ^ 24
      (∀ r s3, s.me.wait = .released x.toNat (y.setWidth 24) r → writeX d r s2 = .ok () s3 → Completes (.bwait d a b) s s3) ∧
      ((∀ r, s.me.wait ≠ .released x.toNat (y.setWidth 24) r) →
        ((s.myCore.bar x.toNat).tout = true → Traps (.bwait d a b) s .barrierTimeout 0) ∧
        ((s.myCore.bar x.toNat).tout = false →
          (1 ≤ n ∧ n ≤ 2 ^ 23 → ∀ s3, writeX d (s.myCore.bar x.toNat).result s2 = .ok () s3 → Completes (.bwait d a b) s s3) ∧
          (¬ (1 ≤ n ∧ n ≤ 2 ^ 23) → Waits (.bwait d a b) s (.barrier x.toNat (y.setWidth 24)))))) := by
  have p := (((Performs.start (i := .bwait d a b) legal rfl).step number).step (barNum_ok inside)).step asked
  rw [fld_high y rfl] at p
  refine ⟨fun long => p.unmet (beq_false_of_ne (by omega)), fun short => ?_⟩
  intro n
  have p := p.met (beq_iff_eq.2 (by omega))
  refine ⟨fun r s3 done written => ?_, fun unreleased => ?_⟩
  · dsimp only at p
    rw [done] at p
    exact (p.taken ⟨rfl, rfl⟩).completes written
  · have q : Performs (.bwait d a b) s
        (execBwait.waitPhase d x.toNat (s.myCore.bar x.toNat) (y.setWidth 24)) s2 := by
      dsimp only at p
      split at p
      · next m ph r waits =>
        exact p.passed fun ⟨same, asks⟩ => unreleased r (by rw [waits, same, asks])
      · exact p
    have past := phasePast_iff short (s.myCore.bar x.toNat).phase rfl (y.setWidth 24)
      (by rw [BitVec.toNat_setWidth]; exact Nat.mod_eq_of_lt short)
    refine ⟨fun late => q.unmet (by rw [late]; rfl), fun timely => ?_⟩
    have q := q.met (by rw [timely]; rfl)
    exact ⟨fun gone s3 written => (q.taken (past.2 gone)).completes written,
      fun early => (q.passed (mt past.1 early)).waits (M.waitFor_run _ s2)⟩

theorem bsync_does {s s1 : State} {a : BitVec 5} {x : Word} (legal : legalHere s (.bsync a) = true)
    (number : readX a s = .ok x s1) (inside : x.toNat < 128) :
    (∀ ph r, s1.me.wait = .released x.toNat ph r → Completes (.bsync a) s s1) ∧
    (∀ ph, joined x.toNat s1.me.wait = some (ph, none) → (s1.myCore.bar x.toNat).tout = false →
      Waits (.bsync a) s (.barrier x.toNat ph)) ∧
    ((∀ ph r, s1.me.wait ≠ .released x.toNat ph r) → (s1.myCore.bar x.toNat).tout = true → Traps (.bsync a) s .barrierTimeout 0) ∧
    (joined x.toNat s1.me.wait = none → s1.me.wait ≠ .arrival x.toNat → (s1.myCore.bar x.toNat).tout = false →
      (s1.myCore.bar x.toNat).group = false →
      let t := arriveAt (after pin s1) s1.cid x.toNat none false
      ((t.2.myCore.bar x.toNat).phase ≠ t.1 → Completes (.bsync a) s t.2) ∧
      ((t.2.myCore.bar x.toNat).phase = t.1 →
        exec (.bsync a) s = .next (beginPark t.2 (.barrier x.toNat t.1)))) := by
  have compute := compute_of_legal legal rfl
  have p := ((Performs.start (i := .bsync a) legal rfl).step number).step (barNum_ok inside)
  cases compute_readX compute number
  obtain ⟨ended, waits, late⟩ := p.awaits
  refine ⟨fun ph r done => (ended ph r done).completes rfl, waits, late, fun fresh unsent timely plain => ?_⟩
  obtain ⟨last, more⟩ := p.arrives rfl fresh unsent timely plain
  rw [pin_compute compute]
  exact ⟨fun done => (last done).completes rfl, more⟩

theorem bcomb_does {s s1 s2 : State} {d a b : BitVec 5} {x y : Word} (legal : legalHere s (.bcomb d a b) = true)
    (number : readX a s = .ok x s1) (inside : x.toNat < 128) (value : readX b s1 = .ok y s2) :
    (∀ ph r s3, s2.me.wait = .released x.toNat ph r → writeX d r s2 = .ok () s3 → Completes (.bcomb d a b) s s3) ∧
    (∀ ph, joined x.toNat s2.me.wait = some (ph, none) → (s2.myCore.bar x.toNat).tout = false →
      Waits (.bcomb d a b) s (.barrier x.toNat ph)) ∧
    ((∀ ph r, s2.me.wait ≠ .released x.toNat ph r) → (s2.myCore.bar x.toNat).tout = true →
      Traps (.bcomb d a b) s .barrierTimeout 0) ∧
    (joined x.toNat s2.me.wait = none → s2.me.wait ≠ .arrival x.toNat → (s2.myCore.bar x.toNat).tout = false →
      (s2.myCore.bar x.toNat).group = false →
      let t := arriveAt (after pin s2) s2.cid x.toNat (some y) false
      ((t.2.myCore.bar x.toNat).phase ≠ t.1 → ∀ s3, writeX d (t.2.myCore.bar x.toNat).result t.2 = .ok () s3 →
        Completes (.bcomb d a b) s s3) ∧
      ((t.2.myCore.bar x.toNat).phase = t.1 →
        exec (.bcomb d a b) s = .next (beginPark t.2 (.barrier x.toNat t.1)))) := by
  have compute := compute_of_legal legal rfl
  have p := (((Performs.start (i := .bcomb d a b) legal rfl).step number).step (barNum_ok inside)).step value
  cases compute_readX compute number
  cases compute_readX compute value
  obtain ⟨done, waits, late⟩ := p.awaits
  refine ⟨fun ph r s3 isOver written => (done ph r isOver).completes written, waits, late,
    fun fresh unsent timely plain => ?_⟩
  obtain ⟨last, more⟩ := p.arrives rfl fresh unsent timely plain
  rw [pin_compute compute]
  exact ⟨fun completed s3 written => (last completed).completes written, more⟩

theorem bswap_does {s s1 : State} {a : BitVec 5} {x : Word} (legal : legalHere s (.bswap a) = true)
    (number : readX a s = .ok x s1) (inside : x.toNat < 128) :
    (∀ ph r, s1.me.wait = .released x.toNat ph r → Completes (.bswap a) s s1) ∧
    ((s.myCore.bar x.toNat).group = false → joined x.toNat s.me.wait = none → Traps (.bswap a) s .barrierState 0) ∧
    (∀ ph, joined x.toNat s.me.wait = some (ph, none) → (s.myCore.bar x.toNat).tout = false →
      Waits (.bswap a) s (.barrier x.toNat ph)) ∧
    ((s.myCore.bar x.toNat).group = true → (∀ ph r, s.me.wait ≠ .released x.toNat ph r) →
      (s.myCore.bar x.toNat).tout = true → Traps (.bswap a) s .barrierTimeout 0) := by
  have p := ((Performs.start (i := .bswap a) legal rfl).step number).step (barNum_ok inside)
  cases compute_readX (compute_of_legal legal rfl) number
  refine ⟨fun ph r done => ?_, fun plain fresh => p.unmet (by rw [plain, fresh]; rfl), fun ph joins => ?_,
    fun group => ?_⟩
  · have p := p.met (by rw [done, joined_released, Option.isSome_some, Bool.or_true])
    exact (p.awaits.1 ph r done).completes rfl
  · have p := p.met (by rw [joins, Option.isSome_some, Bool.or_true])
    exact p.awaits.2.1 ph joins
  · have p := p.met (by rw [group, Bool.true_or])
    exact p.awaits.2.2

/-- The operands of BINIT are those of a barrier (R305). -/
theorem barrierOperands_iff (y : Word) :
    (fld y 63 40 == 0 && fld y 29 17 == 0 && fld y 15 0 != 0 && decide (fld y 33 30 ≤ 8)
      && (fld y 39 34 == 0 || (decide (16 ≤ fld y 39 34) && decide (fld y 39 34 ≤ 40)))) = true ↔
    y.toNat / 2 ^ 40 = 0 ∧ y.toNat / 2 ^ 17 % 2 ^ 13 = 0 ∧ y.toNat % 2 ^ 16 ≠ 0 ∧ y.toNat / 2 ^ 30 % 2 ^ 4 ≤ 8 ∧
      (y.toNat / 2 ^ 34 % 2 ^ 6 = 0 ∨ 16 ≤ y.toNat / 2 ^ 34 % 2 ^ 6 ∧ y.toNat / 2 ^ 34 % 2 ^ 6 ≤ 40) := by
  have top : fld y 63 40 = y.toNat / 2 ^ 40 := fld_high y rfl 40
  have count : fld y 15 0 = y.toNat % 2 ^ 16 := fld_low y 15
  have reserved : fld y 29 17 = y.toNat / 2 ^ 17 % 2 ^ 13 := rfl
  have operation : fld y 33 30 = y.toNat / 2 ^ 30 % 2 ^ 4 := rfl
  have timeout : fld y 39 34 = y.toNat / 2 ^ 34 % 2 ^ 6 := rfl
  rw [top, count, reserved, operation, timeout]
  simp only [Bool.and_eq_true, Bool.or_eq_true, beq_iff_eq, bne_iff_ne, decide_eq_true_eq, and_assoc]

/-- The barrier that BINIT installs: the configuration of its operand, and the phase and the result of the master's (R305). -/
def newBarrier (s : State) (n : Nat) (y : Word) : Barrier :=
  { group := y.getLsbD 16, op := BitVec.ofNat 4 (y.toNat / 2 ^ 30 % 2 ^ 4), tmo := BitVec.ofNat 6 (y.toNat / 2 ^ 34 % 2 ^ 6)
    count := BitVec.ofNat 16 y.toNat, arrived := 0, phase := (s.myCore.bar n).phase
    acc := combineId (y.toNat / 2 ^ 30 % 2 ^ 4), result := (s.myCore.bar n).result, swap := false, tout := false
    limit := if y.toNat / 2 ^ 34 % 2 ^ 6 ≠ 0 then 2 ^ (y.toNat / 2 ^ 34 % 2 ^ 6)
      else if s.me.fetimeout = 0 then 2 ^ 40 else s.me.fetimeout.toNat
    first := none, held := false }

theorem newBarrier_operation (y : Word) : (BitVec.ofNat 4 (fld y 33 30)).toNat = y.toNat / 2 ^ 30 % 2 ^ 4 := by
  rw [BitVec.toNat_ofNat]
  exact Nat.mod_mod _ _

theorem newBarrier_count (y : Word) : BitVec.ofNat 16 (fld y 15 0) = BitVec.ofNat 16 y.toNat := by
  apply BitVec.eq_of_toNat_eq
  rw [BitVec.toNat_ofNat, BitVec.toNat_ofNat, fld_low]
  exact Nat.mod_mod _ _

/-- BINIT behind its operands' checks: the wait for the launch, the two reasons of a barrier-state fault, and the barrier
installed on every core of its own. -/
theorem binit_checked {s s1 s2 : State} {a b : BitVec 5} {x y : Word} (legal : legalHere s (.binit a b) = true)
    (number : readX a s = .ok x s1) (configuration : readX b s1 = .ok y s2) (inside : x.toNat < 128)
    (good : y.toNat / 2 ^ 40 = 0 ∧ y.toNat / 2 ^ 17 % 2 ^ 13 = 0 ∧ y.toNat % 2 ^ 16 ≠ 0 ∧ y.toNat / 2 ^ 30 % 2 ^ 4 ≤ 8 ∧
      (y.toNat / 2 ^ 34 % 2 ^ 6 = 0 ∨ 16 ≤ y.toNat / 2 ^ 34 % 2 ^ 6 ∧ y.toNat / 2 ^ 34 % 2 ^ 6 ≤ 40)) :
    let cores := if y.getLsbD 16 then s.members s.cid else [s.cid]
    let away := (y.getLsbD 16 && s.barMaster s.cid == s.cid && s.myCore.bound.isSome
      && cores.any fun c => launchHere s c (s.coreOrder s.cid) != some true) = true
    let busy := cores.any (fun c => (s.core c).barWaiters x.toNat || ((s.core c).bar x.toNat).arrived != 0) = true
    let own := (!y.getLsbD 16 || s.barMaster s.cid == s.cid) = true
    let s3 := after pin s2
    (away → Waits (.binit a b) s .held) ∧ (¬ away → (busy ∨ ¬ own) → Traps (.binit a b) s .barrierState 0) ∧
    (¬ away → ¬ busy → own → Completes (.binit a b) s
      (cores.foldl (fun u c => u.setCore c ((u.core c).setBar x.toNat (newBarrier s x.toNat y)))
        (if y.getLsbD 16 then setTouts s3 (s3.coreOrder s3.cid) (·.filter fun p => p.2 ≠ x.toNat) else s3))) := by
  intro cores away busy own s3
  have p := (((Performs.start (i := .binit a b) legal rfl).step number).step configuration).step (barNum_ok inside)
  have p := p.met ((barrierOperands_iff y).2 good)
  refine ⟨fun held => (p.taken held).waits (M.bind_error (M.waitFor_run _ s2)), fun here stuck => ?_, fun here free mine => ?_⟩
  · have p := p.passed here
    by_cases used : busy
    · exact p.unmet (by rw [Bool.not_eq_false']; exact used)
    · exact (p.met (by rw [Bool.not_eq_true']; exact Bool.eq_false_iff.2 used)).unmet
        (Bool.eq_false_iff.2 (stuck.resolve_left used))
  · have p := (((p.passed here).met (by rw [Bool.not_eq_true']; exact Bool.eq_false_iff.2 free)).met mine).step (pin_run s2)
    dsimp only at p
    rw [newBarrier_operation, newBarrier_count] at p
    exact p.completes (M.modify_run _ _)

/-- Settles O36: the words from check to wait, an arrival by what it leaves at its counting core. -/
theorem barrierWordsAndPhases : Obligations.BarrierWordsAndPhases := by
  refine ⟨⟨?binit, ?outside, fun _ _ _ _ _ => barrive_does, ?joined, fun _ _ _ _ _ _ _ _ => bwait_does,
    fun _ _ _ _ => bsync_does, fun _ _ _ _ _ _ _ _ legal number inside => bcomb_does legal number inside,
    fun _ _ _ _ legal number inside _ _ => bswap_does legal number inside, ?bquery⟩, arriveAt_does⟩
  case binit =>
    intro s a b x y s1 s2 legal number configuration tmo op cores k good busy new s3 s4
    have p := ((Performs.start (i := .binit a b) legal rfl).step number).step configuration
    refine ⟨fun bad => ?_, fun ⟨inside, config⟩ => ?_⟩
    · by_cases inside : x.toNat < 128
      · exact (p.step (barNum_ok inside)).unmet (Bool.eq_false_iff.2 fun met =>
          bad ⟨inside, (barrierOperands_iff y).1 met⟩)
      · exact p.traps (M.bind_error (barNum_bad (Nat.not_lt.1 inside)))
    · obtain ⟨waits, stuck, installs⟩ := binit_checked legal number configuration inside config
      have awayIff : (y.getLsbD 16 && s.barMaster s.cid == s.cid && s.myCore.bound.isSome
          && cores.any fun c => launchHere s c (s.coreOrder s.cid) != some true) = true ↔
          y.getLsbD 16 = true ∧ s.barMaster s.cid = s.cid ∧ s.myCore.bound.isSome = true ∧
            cores.any (fun c => launchHere s c (s.coreOrder s.cid) != some true) = true := by
        simp only [Bool.and_eq_true, beq_iff_eq, and_assoc]
      have ownIff : ¬ (!y.getLsbD 16 || s.barMaster s.cid == s.cid) = true ↔
          y.getLsbD 16 = true ∧ s.barMaster s.cid ≠ s.cid := by
        rw [Bool.or_eq_true, not_or, Bool.not_eq_true', Bool.not_eq_false, beq_iff_eq]
      split
      · next away => exact waits (awayIff.2 away)
      · next here =>
        split
        · next reason => exact stuck (mt awayIff.1 here) (reason.imp_right ownIff.2)
        · next none =>
          obtain ⟨free, mine⟩ := not_or.1 none
          exact installs (mt awayIff.1 here) free (not_not.1 (mt ownIff.1 mine))
  case outside =>
    intro s d a b x s1 number outside
    exact ⟨barrier_outside (i := .barrive d a) rfl number outside, barrier_outside (i := .bsync a) rfl number outside,
      barrier_outside (i := .bswap a) rfl number outside, barrier_outside (i := .bquery d a) rfl number outside,
      barrier_outside (i := .bcomb d a b) rfl number outside, barrier_outside (i := .bwait d a b) rfl number outside⟩
  case joined =>
    intro s d a x s1 ph legal number inside joins s2 written
    have p := ((Performs.start (i := .barrive d a) legal rfl).step number).step (barNum_ok inside)
    have p := p.step (arriveM_joined (j := (ph, none)) (by rw [joins]; exact joined_joined))
    exact p.completes written
  case bquery =>
    intro s d a x s1 legal number inside r s2 written
    have p := ((Performs.start (i := .bquery d a) legal rfl).step number).step (barNum_ok inside)
    refine p.completes ?_
    rw [barWord]
    exact written

end Sys2Proof.Machine
end

section
/-! SUPPORT. Taking a trap (R100, R139, R365 to R368, R374, R425): the frame in each of its words, and what its write leaves; O56
from these. -/

namespace Sys2Proof.Machine

/-! ### A range written and read in parts (R5, R368) -/

theorem Mem.read_write_in {m : List Host.Cell} {a n v : Nat} (canonical : Mem.wf m = true) : ∀ (k j : Nat), j + k ≤ n →
    Mem.read (Mem.write m a n v) (a + j) k = v / 256 ^ j % 256 ^ k
  | 0, _, _ => (Nat.mod_one _).symm
  | k + 1, j, inside => by
    rw [Mem.read, Mem.get_write_in n a v j canonical (by omega), Nat.add_assoc,
      Mem.read_write_in canonical k (j + 1) (by omega), BitVec.toNat_ofNat, Nat.pow_succ 256 k, Nat.mul_comm (256 ^ k),
      Nat.mod_mul, Nat.pow_succ 256 j, Nat.div_div_eq_div_mul]

theorem wordsNat_word : ∀ (l : List Word) (i : Nat), wordsNat l / 2 ^ (64 * i) % 2 ^ 64 = (l.getD i 0).toNat
  | [], _ => by simp [wordsNat]
  | w :: ws, 0 => by
    rw [wordsNat, Nat.mul_zero, Nat.pow_zero, Nat.div_one, Nat.add_mul_mod_self_left, Nat.mod_eq_of_lt w.isLt]
    rfl
  | w :: ws, i + 1 => by
    rw [wordsNat, Nat.mul_succ, Nat.add_comm (64 * i), Nat.pow_add, ← Nat.div_div_eq_div_mul,
      Nat.add_mul_div_left _ _ (Nat.two_pow_pos 64), Nat.div_eq_of_lt w.isLt, Nat.zero_add, wordsNat_word ws i]
    rfl

/-- The memory behind a read of doublewords that were written as one range. -/
theorem read_words {m : List Host.Cell} (canonical : Mem.wf m = true) (o : Nat) {n size : Nat} (whole : size = 8 * n)
    (l : List Word) {i : Nat} (inside : i < n) :
    Mem.read (Mem.write m o size (wordsNat l)) (o + 8 * i) 8 = (l.getD i 0).toNat := by
  rw [Mem.read_write_in canonical 8 (8 * i) (by omega), ← wordsNat_word, show 256 = 2 ^ 8 from rfl, ← Nat.pow_mul,
    ← Nat.pow_mul, ← Nat.mul_assoc]

/-! ### A frame in global memory (R100, R139, R367) -/

theorem sameThreads_foldl {α : Type} {f : State → α → State} (each : ∀ s a, SameThreads s (f s a)) :
    ∀ (as : List α) (s : State), SameThreads s (as.foldl f s)
  | [], s => .refl s
  | a :: as, s => (each s a).trans (sameThreads_foldl each as (f s a))

theorem sameThreads_addHold (s : State) (who : Agent) (slice sector : Nat) : SameThreads s (addHold s who slice sector) := by
  unfold addHold
  split
  · exact .refl s
  · exact .of_cores rfl rfl rfl rfl

/-- Storing the parts of a range in order. -/
theorem sameThreads_storeRange {seed : Word} {s : State} : ∀ (ps : List ((Nat × Nat) × Xlat)) (o : Option (State × Nat))
    {r : State × Nat}, (∀ q, o = some q → SameThreads s q.1) →
    ps.foldl (fun (o : Option (State × Nat)) px => o.bind fun (s, v) =>
      (writePa s seed px.2.pa px.1.2 v).map fun s' => (s', v / 256 ^ px.1.2)) o = some r → SameThreads s r.1
  | [], _, _, before, stored => before _ stored
  | p :: ps, o, r, before, stored => by
    refine sameThreads_storeRange ps _ (fun q begun => ?_) stored
    obtain ⟨q', old, written⟩ := Option.bind_eq_some_iff.1 begun
    obtain ⟨t, wrote, rfl⟩ := Option.map_eq_some_iff.1 written
    exact (before q' old).trans (sameThreads_writePa wrote)

theorem sameThreads_frameWrite {s t : State} {c x va n v : Nat} (wrote : frameWrite s c x va n v = .written t) :
    SameThreads s t := by
  unfold frameWrite at wrote
  simp only at wrote
  split at wrote
  · cases wrote
  · split at wrote
    · cases wrote
    · cases wrote
    · next xs _ =>
      have translated := sameThreads_foldl (fun s p => sameThreads_applyXlat s c x p) xs s
      split at wrote
      · cases wrote
      · split at wrote
        · next stored =>
          cases wrote
          refine sameThreads_storeRange _ _ (fun q begun => ?_) stored
          cases begun
          simp only
          split
          · exact translated
          · exact translated.trans (sameThreads_foldl (fun s p => sameThreads_addHold _ _ _ _) xs _)
        · cases wrote

/-! ### The thread behind the trap -/

/-- The thread when its trap has been taken to the address pc in the mode whose bit of TSTAT is given. -/
def trapped (th : Thread) (mode : Nat) (pc : Word) : Thread :=
  { (th.setTstat mode mode 1).setTstat 21 16 0 with pc := pc, wait := .none, progress := none, fetched := [] }

theorem trapped_rep (th : Thread) (mode : Nat) (pc : Word) : (trapped th mode pc).rep = 0 :=
  fld_setFld_repetition _ 0

theorem trapped_hooked (th : Thread) (pc : Word) :
    (trapped th 14 pc).ha = true ∧ (trapped th 14 pc).sv = th.sv :=
  ⟨(bit_setFld_repetition _ 0 (.inl rfl)).trans (mode_set _ (.inl rfl)),
    (bit_setFld_repetition _ 0 (.inr rfl)).trans (mode_kept _ 1 (.inl ⟨rfl, rfl⟩))⟩

theorem trapped_supervisor (th : Thread) (pc : Word) :
    (trapped th 15 pc).sv = true ∧ (trapped th 15 pc).ha = th.ha :=
  ⟨(bit_setFld_repetition _ 0 (.inr rfl)).trans (mode_set _ (.inr rfl)),
    (bit_setFld_repetition _ 0 (.inl rfl)).trans (mode_kept _ 1 (.inr ⟨rfl, rfl⟩))⟩

/-- Every register but TSTAT is as it was. -/
theorem trapped_rest (th : Thread) (mode : Nat) (pc : Word) :
    SameButX th { trapped th mode pc with tstat := th.tstat } [] :=
  ⟨fun _ _ _ => rfl, rfl, rfl, rfl, rfl, rfl, rfl, rfl, rfl, rfl, rfl, rfl, rfl, rfl⟩

/-- Replacing a thread changes no memory. -/
theorem sameMemory_setThread (s : State) (c t : Nat) (th : Thread) : SameMemory s (s.setThread c t th) [] := by
  refine ⟨fun _ _ => rfl, fun d _ => ?_⟩
  by_cases here : d = c
  · subst here
    unfold State.setThread
    rw [State.core_setCore]
    rfl
  · exact congrArg Core.lmem (State.core_setCore_ne s _ here)

/-- The memory of a core that has been replaced, and then a thread of it. -/
theorem lmem_setThread_setCore (s : State) (c t : Nat) (k : Core) (th : Thread) :
    (((s.setCore c k).setThread c t th).core c).lmem = k.lmem := by
  rw [(sameMemory_setThread _ c t th).2 c List.not_mem_nil, State.core_setCore]

/-! ### The routes (R366, R367) -/

/-- The address that a trap records (R425). -/
def trapAddr (cause : Cause) (addr : Word) (d : Bool) : Word := if cause.hasAddr || d then addr else 0

/-- The state in which a trap is taken. -/
def trapping (s : State) (cause : Cause) (addr : Word) (d : Bool) : State :=
  { s with issue := { s.issue with status := .trapped cause (trapAddr cause addr d) d } }

/-- The words of a fault frame (R368). -/
def frameFields (s : State) (pc : Word) (cause : Cause) (addr : Word) (d nested : Bool) (ocause : Word) : List Word :=
  [pc, infoWord s s.me cause d nested, trapAddr cause addr d, word (s.issue.w0.toNat + 2 ^ 32 * s.issue.w1.toNat),
      tstatOf s.myCore s.me, ocause, 0, 0]
    ++ (List.range 31).map fun i => if i + 1 = 30 then 0 else s.me.getX (i + 1)

/-- The hook takes the trap (R366). -/
def Hooked (s : State) (cause : Cause) : Prop :=
  cause.hookable = true ∧ s.me.fhook ≠ 0 ∧ s.me.ha = false ∧ s.me.sv = false ∧ s.myCore.cw ≤ s.me.fframe.toNat ∧
    s.me.fframe.toNat + 512 ≤ s.myCore.xb

theorem hooked_iff (s : State) (cause : Cause) :
    (cause.hookable && s.me.fhook != 0 && !s.me.ha && !s.me.sv && (decide (s.myCore.cw ≤ s.me.fframe.toNat)
      && decide (s.me.fframe.toNat + 512 ≤ s.myCore.xb))) = true ↔ Hooked s cause := by
  simp only [Bool.and_eq_true, bne_iff_ne, Bool.not_eq_true', decide_eq_true_eq, and_assoc, Hooked]

/-- What a supervisor's trap makes of the end of its frame's write. -/
def superviseTrap (s : State) (cause : Cause) (addr : Word) (d : Bool) : FrameEnd → State
  | .written u => u.setThread s.cid s.tid (trapped s.me 15 s.me.svec)
  | .held w => beginWait (trapping s cause addr d) w
  | .absent va =>
    match frameItem (trapping s cause addr d) va with
    | some i =>
      threadFault { trapping s cause addr d with pageItems := (trapping s cause addr d).pageItems.filter fun j => j.id != i.id }
        s.cid s.tid cause (trapAddr cause addr d) (errBitOf cause)
    | none => beginFrame (trapping s cause addr d) va
  | .faulted => threadFault (trapping s cause addr d) s.cid s.tid cause (trapAddr cause addr d) (errBitOf cause)

section Routes

variable {s : State} {pc : Word} {cause : Cause} {addr : Word} {d : Bool}

theorem takeTrapAt_handler (handler : s.tid = 4) :
    takeTrapAt s pc cause addr d = handlerFault (trapping s cause addr d) s.cid cause := by
  unfold takeTrapAt
  exact if_pos handler

theorem takeTrapAt_hook (compute : s.tid ≠ 4) (hooked : Hooked s cause) : takeTrapAt s pc cause addr d =
    ((trapping s cause addr d).setCore s.cid (s.myCore.lwrite s.me.fframe.toNat 512
      (wordsNat (frameFields s pc cause addr d false 0)))).setThread s.cid s.tid (trapped s.me 14 s.me.fhook) := by
  unfold takeTrapAt
  exact (if_neg compute).trans (if_pos ((hooked_iff s cause).2 hooked))

theorem takeTrapAt_supervisor (compute : s.tid ≠ 4) (unhooked : ¬ Hooked s cause) (vector : s.me.svec ≠ 0)
    (user : s.me.sv = false) : takeTrapAt s pc cause addr d = superviseTrap s cause addr d
      (frameWrite (trapping s cause addr d) s.cid s.myCtx s.me.sframe.toNat 512 (wordsNat (frameFields s pc cause addr d
        s.me.ha (if s.me.ha then word (s.myCore.lread (s.me.fframe.toNat + 8) 8) else 0)))) := by
  unfold takeTrapAt
  refine (if_neg compute).trans ((if_neg (mt (hooked_iff s cause).1 unhooked)).trans ((if_pos ?_).trans ?_))
  · rw [user, bne_iff_ne.2 vector]
    rfl
  · rfl

theorem takeTrapAt_fault (compute : s.tid ≠ 4) (unhooked : ¬ Hooked s cause) (none : s.me.svec = 0 ∨ s.me.sv = true) :
    takeTrapAt s pc cause addr d =
      threadFault (trapping s cause addr d) s.cid s.tid cause (trapAddr cause addr d) (errBitOf cause) := by
  unfold takeTrapAt
  refine (if_neg compute).trans ((if_neg (mt (hooked_iff s cause).1 unhooked)).trans (if_neg ?_))
  rw [Bool.and_eq_true, bne_iff_ne, Bool.not_eq_true']
  exact fun ⟨vector, user⟩ => none.elim vector fun supervisor => nomatch user.symm.trans supervisor

end Routes

/-- Settles O56, route by route. -/
theorem takingATrap : Obligations.TakingATrap := by
  intro s pc cause addr d canonical t a e info fields ff hook
  refine ⟨takeTrapAt_handler, fun compute hooked => ?hook, fun compute unhooked vector user => ?supervisor,
    takeTrapAt_fault⟩
  case hook =>
    have taken : t = _ := takeTrapAt_hook compute hooked
    obtain ⟨-, -, -, user, -, -⟩ := hooked
    have me : t.me = trapped s.me 14 s.me.fhook := by
      rw [taken]
      exact State.me_setMe _ _
    have lmem : t.myCore.lmem =
        Mem.write s.myCore.lmem ff 512 (wordsNat (frameFields s pc cause addr d false 0)) := by
      rw [← Core.lwrite_lmem, taken]
      exact lmem_setThread_setCore ..
    rw [me]
    refine ⟨rfl, (trapped_hooked _ _).1, (trapped_hooked _ _).2.trans user, trapped_rep .., rfl, fun i inside => ?_,
      fun o outside => ?_, trapped_rest .., fun _ _ => ?_, fun c other => ?_⟩
    · have same : fields false 0 = frameFields s pc cause addr d false 0 := rfl
      rw [Core.lread, lmem, same]
      exact read_words canonical ff (n := 64) rfl _ inside
    · rw [lmem]
      exact Mem.get_write_out 512 _ ff _ o outside
    · rw [taken]
      rfl
    · rw [taken]
      exact ((sameMemory_setThread _ s.cid s.tid _).2 c List.not_mem_nil).trans
        (congrArg Core.lmem (State.core_setCore_ne _ _ fun same => other (same ▸ List.mem_singleton_self c)))
  case supervisor =>
    intro oc w
    have taken : t = superviseTrap s cause addr d w := takeTrapAt_supervisor compute unhooked vector user
    refine ⟨fun faulted => ?_, fun h held => ?_, fun va absent unasked => ?_, fun va i absent declined => ?_, fun u wrote => ?_⟩
    · rw [taken, faulted]
      rfl
    · rw [taken, held]
      rfl
    · rw [taken, absent, superviseTrap, show frameItem (trapping s cause addr d) va = none from unasked]
      rfl
    · rw [taken, absent, superviseTrap, show frameItem (trapping s cause addr d) va = some i from declined]
      rfl
    · obtain ⟨-, -, cur, -⟩ := sameThreads_frameWrite wrote
      have taken : t = u.setThread s.cid s.tid (trapped s.me 15 s.me.svec) := by
        rw [taken, wrote]
        rfl
      have me : t.me = trapped s.me 15 s.me.svec := by
        rw [taken, State.cid, State.tid, ← show u.cur = s.cur from cur]
        exact State.me_setMe u _
      rw [me, taken]
      exact ⟨rfl, (trapped_supervisor _ _).1, (trapped_supervisor _ _).2, trapped_rep .., rfl, trapped_rest ..,
        sameMemory_setThread ..⟩

end Sys2Proof.Machine
end

section
/-! SUPPORT. The steps of messages, activations, the host mailbox, remote operations and the links (R319 to R335, R399): O46
from these. -/

namespace Sys2Proof.Machine

/-! ### Arrival, acknowledgement and release (R319, R320, R325, R334) -/

section Arriving

variable {s : State} {c : Nat} {m : Msg} {go : State → Option State}

/-- A message of the bound context goes into the inbound queue while it has room and none waits in the spill area. -/
theorem enqueueMsg_queued (bound : (s.core c).bound ≠ none) (own : s.coreCtx c = m.ctx)
    (room : (s.core c).inbound.length < 64) (unspilled : ((s.core c).spilled.any fun e => e.2.ctx == m.ctx) = false) :
    enqueueMsg s c m go = go ((s.setCore c { s.core c with
      inbound := (s.core c).inbound ++ [m], deliveries := (s.core c).deliveries ++ [(m, s.cycle)] }).emit
        (.handlerActivation c)) := by
  unfold enqueueMsg
  refine if_pos ?_
  have boundHere : (s.core c).bound.isSome = true := Option.isSome_iff_ne_none.2 bound
  simp only [boundHere, beq_iff_eq.2 own, decide_eq_true room, unspilled]
  rfl

/-- The entry of a message's source when the message has been taken, and the acknowledgement. -/
def acceptedMsg (t : State) (c : Nat) (m : Msg) : State :=
  answer (t.setCore c (setAccepted (t.core c) (srcKey m) m.seq)) m none

theorem messageArrival_does (hand : AtHand (.messageArrival m) s) :
    let c0 := m.desc.toNat % 2 ^ 10
    let h := m.desc.toNat / 2 ^ 26 % 2 ^ 8
    let c := msgCore s c0
    let old := acceptedOf (s.core c) (srcKey m)
    (h ≠ 255 → 768 ≤ c0 ∨ (s.ctx m.ctx).live = false → Moves .messageArrival s (answer s m (some (.invalidTarget, 0)))) ∧
    (h ≠ 255 → c0 < 768 → (s.ctx m.ctx).live = true → (s.core c).fenced = false →
      (∀ n, old = some n → m.seq ≤ n → Moves .messageArrival s (answer s m none)) ∧
      ((∀ n, old = some n → n < m.seq) → (old = none → (s.core c).accepted.length < 1024) →
        Steps .messageArrival s (enqueueMsg s c m fun t => some (acceptedMsg t c m)))) := by
  intro c0 h c old
  have q := Steps.start (i := .messageArrival) hand (by change execMessageArrival s = _; rw [execMessageArrival, hand.1])
  dsimp only at q
  rw [fld_handler, fld_handle] at q
  refine ⟨fun direct bad => ?_, fun direct inside live free => ?_⟩
  · have q := q.passed direct
    by_cases inside : c0 < 768
    · have dead := bad.resolve_left (Nat.not_le.2 inside)
      exact ((q.passed (Nat.not_le.2 inside)).taken (by rw [dead]; rfl)).moves
    · exact (q.taken (Nat.not_lt.1 inside)).moves
  · have q := ((q.passed direct).passed (Nat.not_le.2 inside)).passed (by rw [live]; nofun)
    have q := q.passed (Bool.eq_false_iff.1 free)
    refine ⟨fun n known duplicate => ?_, fun news room => ?_⟩
    · rw [show acceptedOf (s.core (msgCore s c0)) (srcKey m) = some n from known] at q
      exact (q.taken duplicate).moves
    · cases known : acceptedOf (s.core (msgCore s c0)) (srcKey m) with
      | none =>
        rw [known] at q
        exact q.passed (Nat.not_le.2 (room known))
      | some n =>
        rw [known] at q
        exact q.passed (Nat.not_le.2 (news n known))

theorem toCore_iff (m : Msg) : toCore m = false ↔
    (240 ≤ m.desc.toNat / 2 ^ 26 % 2 ^ 8 ∧ m.desc.toNat / 2 ^ 26 % 2 ^ 8 < 244) ∨ m.desc.toNat / 2 ^ 26 % 2 ^ 8 = 255 := by
  rw [toCore, fld_handler, Bool.or_eq_false_iff, Bool.and_eq_false_iff, decide_eq_false_iff_not, decide_eq_false_iff_not,
    decide_eq_false_iff_not]
  omega

theorem messageAcknowledgement_does {src : Word} {n : Nat} (hand : AtHand (.messageAcknowledgement src n) s) :
    let found := s.unacked.find? fun u => u.1 == src && u.2.1 == n
    (found = none → Moves .messageAcknowledgement s s) ∧
    (∀ u, found = some u →
      let t := { s with unacked := s.unacked.erase u, segments := s.segments.filter fun p => p.1 != u.2.2 }
      let h := u.2.2.desc.toNat / 2 ^ 26 % 2 ^ 8
      let c := u.2.2.desc.toNat % 2 ^ 10
      let p := u.2.2.desc.toNat / 2 ^ 10 % 2 ^ 16
      Moves .messageAcknowledgement s (
        if owed t (srcKey u.2.2) p c = true ∨ (240 ≤ h ∧ h < 244) ∨ h = 255 then t
        else if p = s.pkg then t.emit (.messageRelease c src (srcKey u.2.2).2)
        else { t with releases := t.releases ++ [(p, c, src, (srcKey u.2.2).2)] })) := by
  intro found
  have q := Steps.start (i := .messageAcknowledgement) hand
    (by change execMessageAcknowledgement s = _; rw [execMessageAcknowledgement, hand.1])
  dsimp only at q
  refine ⟨fun unknown => ?_, fun u known => ?_⟩
  · rw [show (s.unacked.find? fun u => u.1 == src && u.2.1 == n) = none from unknown] at q
    exact q.moves
  · intro t h c p
    rw [show (s.unacked.find? fun u => u.1 == src && u.2.1 == n) = some u from known] at q
    dsimp only at q
    rw [fld_package, fld_handle] at q
    have quiet : (owed t (srcKey u.2.2) p c || !toCore u.2.2) = true ↔
        owed t (srcKey u.2.2) p c = true ∨ (240 ≤ h ∧ h < 244) ∨ h = 255 := by
      rw [Bool.or_eq_true, Bool.not_eq_true', toCore_iff]
    have q := q.moves
    by_cases silent : owed t (srcKey u.2.2) p c = true ∨ (240 ≤ h ∧ h < 244) ∨ h = 255
    · rw [if_pos silent]
      rw [if_pos (quiet.2 silent)] at q
      exact q
    · rw [if_neg silent]
      rw [if_neg (mt quiet.1 silent)] at q
      exact q

theorem messageRelease_does {c0 : Nat} {src : Word} {order : Nat} (hand : AtHand (.messageRelease c0 src order) s) :
    let c := msgCore s c0
    Moves .messageRelease s (if owed s (src, order) s.pkg c0 then s else s.setCore c { s.core c with
      accepted := (s.core c).accepted.filter fun e => !(e.1 == src && e.2.1 == order) }) := by
  intro c
  have q := Steps.start (i := .messageRelease) hand (by change execMessageRelease s = _; rw [execMessageRelease, hand.1])
  by_cases waits : owed s (src, order) s.pkg c0 = true
  · rw [if_pos waits]
    exact (q.taken waits).moves
  · rw [if_neg waits]
    exact (q.passed waits).moves

end Arriving

/-! ### Activation and the budget (R323, R326, R329) -/

section Activating

variable {s : State} {c : Nat}

theorem handlerActivation_idle (hand : AtHand (.handlerActivation c) s) :
    (nextMessage (s.core c) (s.coreCtx c) = none → Moves .handlerActivation s s) ∧
    (nextMessage (s.core c) (s.coreCtx c) ≠ none → canActivate s c = false ∨ annexDueOn s c = true →
      NotDue .handlerActivation s) := by
  have q := Steps.start (i := .handlerActivation) hand
    (by change execHandlerActivation s = _; rw [execHandlerActivation, hand.1])
  dsimp only at q
  refine ⟨fun none => ?_, fun some busy => ?_⟩
  · rw [none] at q
    by_cases free : canActivate s c = true
    · exact (q.passed (by rw [free]; nofun)).moves
    · exact ((q.taken (by rw [Bool.eq_false_iff.2 free]; rfl)).taken rfl).moves
  · obtain ⟨⟨m, fails, k⟩, next⟩ := Option.ne_none_iff_exists'.1 some
    rw [next] at q
    by_cases free : canActivate s c = true
    · have due := busy.resolve_left fun stuck => nomatch stuck.symm.trans free
      exact ((q.passed (by rw [free]; nofun)).taken due).waits
    · exact ((q.taken (by rw [Bool.eq_false_iff.2 free]; rfl)).passed nofun).waits

theorem handlerActivation_next {m : Msg} {fails : Nat} {k : Core} (hand : AtHand (.handlerActivation c) s)
    (free : canActivate s c = true) (alone : annexDueOn s c = false)
    (next : nextMessage (s.core c) (s.coreCtx c) = some (m, fails, k)) :
    let x := s.coreCtx c
    let h := m.desc.toNat / 2 ^ 26 % 2 ^ 8
    let dead := fun (t : State) =>
      faultAnswer (deadNotice (t.setCore c k) c m Cause.descriptorFormat.code) m .descriptorFormat 0
    (240 ≤ h → Moves .handlerActivation s (dead s)) ∧
    (h < 240 → ∀ n s1, dispRead s x ((s.ctx x).hndbase.toNat + 32 * h) 32 = .ok (n, s1) →
      (handlerEntry n = none → Moves .handlerActivation s (dead s1)) ∧
      ∀ budget pc sp, handlerEntry n = some (budget, pc, sp) →
        Moves .handlerActivation s (startActivation (s1.setCore c k) c .message m budget fails pc sp
          [(3, m.src ||| word (m.payload.length * 2 ^ 29)), (4, word m.seq), (5, word h)] (0, 0))) := by
  intro x h dead
  have q := Steps.start (i := .handlerActivation) hand
    (by change execHandlerActivation s = _; rw [execHandlerActivation, hand.1])
  dsimp only at q
  have q := q.passed (by rw [free]; nofun)
  rw [next] at q
  dsimp only at q
  have q := q.passed (Bool.eq_false_iff.1 alone)
  rw [fld_handler] at q
  refine ⟨fun reserved => (q.taken reserved).moves, fun plain n s1 read => ?_⟩
  have q := q.passed (Nat.not_le.2 plain)
  rw [show dispRead s (s.coreCtx c) ((s.ctx (s.coreCtx c)).hndbase.toNat + 32 * (m.desc.toNat / 2 ^ 26 % 2 ^ 8)) 32 =
    .ok (n, s1) from read] at q
  dsimp only at q
  refine ⟨fun invalid => ?_, fun budget pc sp valid => ?_⟩
  · rw [invalid] at q
    exact q.moves
  · rw [valid] at q
    exact q.moves

theorem budgetFault_does {a : Activation} (hand : AtHand (.budgetFault c) s) (running : (s.core c).act = some a)
    (spent : a.start + a.budget ≤ s.cycle) (unpaged : ∀ id, (s.thread c 4).wait ≠ .pageFault id) :
    Moves .budgetFault s (handlerFault s c .budget) := by
  have q := Steps.start (i := .budgetFault) hand (by change execBudgetFault s = _; rw [execBudgetFault, hand.1])
  dsimp only at q
  rw [running] at q
  refine (q.passed ?_).moves
  rw [Bool.or_eq_true, decide_eq_true_eq]
  refine not_or.2 ⟨fun paged => ?_, Nat.not_lt.2 spent⟩
  split at paged
  · next id waits => exact unpaged id waits
  · cases paged

end Activating

/-! ### Messages performed once, and the host mailbox (R319, R329, R331, R399) -/

section Once

variable {s t : State} {m : Msg} {f : State → Option State}

/-- What performing a message of s leaves of t: the number of one of another package is noted. -/
def performed (s : State) (m : Msg) (t : State) : State :=
  if m.src.toNat / 2 ^ 10 % 2 ^ 16 = s.pkg ∨ t.issue.status = .kept then t else hear t m

theorem onceOnly_own (own : m.src.toNat / 2 ^ 10 % 2 ^ 16 = s.pkg) : onceOnly s m f = f s := if_pos own

theorem onceOnly_again (foreign : m.src.toNat / 2 ^ 10 % 2 ^ 16 ≠ s.pkg) (heard : heardBefore s m = true) :
    onceOnly s m f = some (answer s m none) := (if_neg foreign).trans (if_pos heard)

theorem onceOnly_first (first : m.src.toNat / 2 ^ 10 % 2 ^ 16 = s.pkg ∨ heardBefore s m = false) (done : f s = some t) :
    onceOnly s m f = some (performed s m t) := by
  by_cases own : m.src.toNat / 2 ^ 10 % 2 ^ 16 = s.pkg
  · rw [onceOnly_own own, done, performed, if_pos (.inl own)]
  · unfold onceOnly
    rw [fld_package, if_neg own, if_neg (Bool.eq_false_iff.1 (first.resolve_left own)), done, Option.map_some, performed]
    by_cases kept : t.issue.status = .kept
    · rw [if_pos kept, if_pos (.inr kept)]
    · rw [if_neg kept, if_neg (not_or.2 ⟨own, kept⟩)]

theorem mailboxTake_gone {dead : Bool} {cause : BitVec 8} (gone : (s.ctx m.ctx).live = false) :
    mailboxTake s m dead cause = some (if dead then s else answer s m (some (.invalidTarget, 0))) :=
  if_pos (by rw [gone]; rfl)

theorem mailboxTake_written {dead : Bool} {cause : BitVec 8} (live : (s.ctx m.ctx).live = true)
    (clear : (s.queue m.ctx (mailboxQueue s m)).heldNotices = [])
    (written : tryNotice s m.ctx (mailboxQueue s m) (msgWords m dead cause) = .written t) :
    mailboxTake s m dead cause = some (if dead then t else answer t m none) := by
  unfold mailboxTake
  dsimp only
  rw [if_neg (by rw [live]; nofun), if_neg (not_not.2 clear), written]

theorem hostMailboxNotice_does {dead : Bool} {cause : BitVec 8} (hand : AtHand (.hostMailboxNotice m dead cause) s)
    (takes : dead = true ∨ m.src.toNat / 2 ^ 10 % 2 ^ 16 = s.pkg) :
    ((s.ctx m.ctx).live = false →
      Moves .hostMailboxNotice s (if dead then s else answer s m (some (.invalidTarget, 0)))) ∧
    ((s.ctx m.ctx).live = true → (s.queue m.ctx (mailboxQueue s m)).heldNotices = [] → ∀ t,
      tryNotice s m.ctx (mailboxQueue s m) (msgWords m dead cause) = .written t →
      Moves .hostMailboxNotice s (if dead then t else answer t m none)) := by
  have q := Steps.start (i := .hostMailboxNotice) hand
    (by change execHostMailboxNotice s = _; rw [execHostMailboxNotice, hand.1])
  have q : Steps .hostMailboxNotice s (mailboxTake s m dead cause) := by
    cases dead with
    | true => exact q
    | false => exact (q.passed nofun).of_eq (onceOnly_own (takes.resolve_left nofun))
  exact ⟨fun gone => (q.of_eq (mailboxTake_gone gone)).moves, fun live clear t written =>
    (q.of_eq (mailboxTake_written live clear written)).moves⟩

end Once

/-! ### Remote operations (R333, R334) -/

section Remote

variable {s s1 t : State} {m : Msg}

theorem unitXlate_inv {who : Agent} {core ctx : Nat} {sup : Bool} {nd : Rights} {va : Nat} {x : Xlat}
    (walked : unitXlate s who core ctx sup nd va = .ok (x, s1)) :
    unitCheck s who core ctx sup nd va = .ok x ∧ s1 = applyXlat s core ctx x := by
  unfold unitXlate at walked
  split at walked
  · cases walked
  · next x' checked =>
    cases walked
    exact ⟨checked, rfl⟩

theorem remoteAccess_ok {va n : Nat} {nd : Rights} {dry : State → Xlat → Bool} {f : State → Xlat → Option State} {x : Xlat}
    (aligned : va % n = 0) (checked : unitCheck s .other 768 m.ctx false nd va = .ok x)
    (entered : applyXlat s 768 m.ctx (if dry s x then x.withoutD s m.ctx else x) = s1) (done : f s1 x = some t) :
    remoteAccess s m va n nd dry f = some (answer t m none) := by
  unfold remoteAccess
  rw [if_neg (not_not.2 aligned), checked]
  dsimp only
  rw [entered, done]

/-- A remote operation of another package that has been performed before is acknowledged alone. -/
theorem remote_again {i : Instr} {e : Event} (hand : AtHand e s)
    (operation : (i, e) ∈ [(Instr.remoteLoad, Event.remoteLoad m), (.remoteStore, .remoteStore m),
      (.remoteAtomic, .remoteAtomic m), (.remoteLaw, .remoteLaw m)])
    (foreign : m.src.toNat / 2 ^ 10 % 2 ^ 16 ≠ s.pkg) (heard : heardBefore s m = true) : Moves i s (answer s m none) := by
  simp only [List.mem_cons, Prod.mk.injEq, List.not_mem_nil, or_false] at operation
  obtain ⟨rfl, rfl⟩ | ⟨rfl, rfl⟩ | ⟨rfl, rfl⟩ | ⟨rfl, rfl⟩ := operation
  · exact ((Steps.start hand (by change execRemoteLoad s = _; rw [execRemoteLoad, hand.1])).of_eq
      (onceOnly_again foreign heard)).moves
  · exact ((Steps.start hand (by change execRemoteStore s = _; rw [execRemoteStore, hand.1])).of_eq
      (onceOnly_again foreign heard)).moves
  · exact ((Steps.start hand (by change execRemoteAtomic s = _; rw [execRemoteAtomic, hand.1])).of_eq
      (onceOnly_again foreign heard)).moves
  · exact ((Steps.start hand (by change execRemoteLaw s = _; rw [execRemoteLaw, hand.1])).of_eq
      (onceOnly_again foreign heard)).moves

/-- The comparison of a remote atomic fails, so that it stores nothing. -/
def remoteDry (s : State) (m : Msg) (x : Xlat) (op n : Nat) : Bool :=
  match readPa s (s.ctx m.ctx).seed x.pa n with
  | some old => (remoteAtomicValue op n old (m.payload.getD 2 0) (m.payload.getD 3 0)).isNone
  | none => false

theorem remoteDry_iff {x : Xlat} {op n : Nat} : remoteDry s m x op n = true ↔
    ∃ o, readPa s (s.ctx m.ctx).seed x.pa n = some o ∧
      remoteAtomicValue op n o (m.payload.getD 2 0) (m.payload.getD 3 0) = none := by
  unfold remoteDry
  cases readPa s (s.ctx m.ctx).seed x.pa n with
  | none => simp
  | some old => simp

variable (first : m.src.toNat / 2 ^ 10 % 2 ^ 16 = s.pkg ∨ heardBefore s m = false)

include first

theorem remoteLoad_does (hand : AtHand (.remoteLoad m) s) :
    let w := fun (i : Nat) => m.payload.getD i 0
    let check := remoteCheck s m 4 (decide ((w 3).toNat / 2 % 2 ^ 63 = 0)) (w 1)
    (∀ c, check = some c → Moves .remoteLoad s (performed s m (answer s m (some (c, 0))))) ∧
    (check = none → (w 0).toNat % 8 = 0 → ∀ x s1 v, unitXlate s .other 768 m.ctx false .read (w 0).toNat = .ok (x, s1) →
      readPa s1 (s1.ctx m.ctx).seed x.pa 8 = some v → Moves .remoteLoad s (performed s m
        (answer (sendReply s1 m (homeSlice s1 (s1.ctx m.ctx).seed x.pa) (w 1) [w 2, word v]) m none))) := by
  intro w check
  have q := Steps.start (i := .remoteLoad) hand (by change execRemoteLoad s = _; rw [execRemoteLoad, hand.1])
  refine ⟨fun c bad => (q.of_eq (onceOnly_first first ?_)).moves, fun good aligned x s1 v walked value =>
    (q.of_eq (onceOnly_first first ?_)).moves⟩
  · change (match check with | some c => _ | none => _) = _
    rw [bad]
  · change (match check with | some c => _ | none => _) = _
    rw [good]
    obtain ⟨checked, rfl⟩ := unitXlate_inv walked
    refine remoteAccess_ok (s1 := applyXlat s 768 m.ctx x) aligned checked rfl ?_
    dsimp only
    rw [value]
    rfl

theorem remoteStore_does (hand : AtHand (.remoteStore m) s) (good : remoteCheck s m 2 true (BitVec.allOnes 64) = none) :
    let w := fun (i : Nat) => m.payload.getD i 0
    (w 0).toNat % 8 = 0 → ∀ x s1 s2, unitXlate s .other 768 m.ctx false .write (w 0).toNat = .ok (x, s1) →
      writePa s1 (s1.ctx m.ctx).seed x.pa 8 (w 1).toNat = some s2 →
      Moves .remoteStore s (performed s m (answer s2 m none)) := by
  intro w aligned x s1 s2 walked stored
  have q := Steps.start (i := .remoteStore) hand (by change execRemoteStore s = _; rw [execRemoteStore, hand.1])
  refine (q.of_eq (onceOnly_first first ?_)).moves
  rw [good]
  obtain ⟨checked, rfl⟩ := unitXlate_inv walked
  exact remoteAccess_ok aligned checked rfl stored

theorem remoteAtomic_does (hand : AtHand (.remoteAtomic m) s) :
    let w := fun (i : Nat) => m.payload.getD i 0
    let op := (w 1).toNat % 2 ^ 6
    let n := 4 * 2 ^ ((w 1).toNat / 2 ^ 8 % 4)
    remoteCheck s m 6 (decide (op ≤ 10) && decide ((w 1).toNat / 2 ^ 8 % 4 < 2) && decide ((w 1).toNat / 2 ^ 10 = 0) &&
      decide ((w 1).toNat / 2 ^ 6 % 4 = 0)) (w 4) = none → (w 0).toNat % n = 0 →
    ∀ x old s2, unitCheck s .other 768 m.ctx false .atomic (w 0).toNat = .ok x →
    let seed := (s.ctx m.ctx).seed
    let dry := ∃ o, readPa s seed x.pa n = some o ∧ remoteAtomicValue op n o (w 2) (w 3) = none
    ∀ s1, (dry → s1 = applyXlat s 768 m.ctx (x.withoutD s m.ctx)) → (¬ dry → s1 = applyXlat s 768 m.ctx x) →
    readPa s1 seed x.pa n = some old →
    (match remoteAtomicValue op n old (w 2) (w 3) with
      | some v => writePa s1 seed x.pa n v = some s2
      | none => s2 = s1) →
    Moves .remoteAtomic s (performed s m (answer (sendReply s2 m (homeSlice s2 seed x.pa) (w 4)
      [w 5, atomResult op (8 * n) old]) m none)) := by
  intro w op n good aligned x old s2 checked seed dry s1 compared stores value written
  have q := Steps.start (i := .remoteAtomic) hand (by change execRemoteAtomic s = _; rw [execRemoteAtomic, hand.1])
  have operation : fld (w 1) 5 0 = op := fld_low _ 5
  have beyond : fld (w 1) 63 10 = (w 1).toNat / 2 ^ 10 := fld_high _ rfl 10
  have entered : applyXlat s 768 m.ctx (if remoteDry s m x op n then x.withoutD s m.ctx else x) = s1 := by
    by_cases same : dry
    · rw [if_pos (remoteDry_iff.2 same), compared same]
    · rw [if_neg (mt remoteDry_iff.1 same), stores same]
  refine (q.of_eq (onceOnly_first first ?_)).moves
  dsimp only
  rw [operation, beyond]
  rw [show remoteCheck s m 6 (decide (op ≤ 10) && decide (fld (m.payload.getD 1 0) 9 8 < 2)
    && (w 1).toNat / 2 ^ 10 == 0 && fld (m.payload.getD 1 0) 7 6 == 0) (w 4) = none from good]
  refine remoteAccess_ok aligned checked entered ?_
  change (match readPa s1 seed x.pa n with | none => none | some old => _) = _
  rw [value]
  change ((match remoteAtomicValue op n old (w 2) (w 3) with
    | some v => writePa s1 seed x.pa n v | none => some s1).map _) = _
  cases new : remoteAtomicValue op n old (w 2) (w 3) with
  | none =>
    rw [new] at written
    rw [show s2 = s1 from written]
    rfl
  | some v =>
    rw [new] at written
    change (writePa s1 seed x.pa n v).map _ = _
    rw [show writePa s1 seed x.pa n v = some s2 from written]
    rfl

theorem remoteLaw_does (hand : AtHand (.remoteLaw m) s) :
    let w := fun (i : Nat) => m.payload.getD i 0
    let minor := (w 1).toNat
    remoteCheck s m 5 (minor == 0 || minor == 3 || minor == 4 || minor == 6) (w 3) = none →
    let who : LawWho := ⟨.other, 768, m.ctx, false⟩
    ∀ c a s1, lawCommit s who false (.global_ (w 0).toNat) (remoteChange minor (w 2)) = .ok (c, a, s1) →
    let v := if minor = 3 then (match lawAdd (w 2) c.entry c.now a with | some r => r.1 | none => 0) else a.v
    let slice := match lawUnit s1 who c with | .inr n => n | .inl n => n
    Moves .remoteLaw s (performed s m
      (answer (if minor = 6 then s1 else sendReply s1 m slice (w 3) [w 4, c.entry.out v]) m none)) := by
  intro w minor good who c a s1 committed v slice
  have q := Steps.start (i := .remoteLaw) hand (by change execRemoteLaw s = _; rw [execRemoteLaw, hand.1])
  refine (q.of_eq (onceOnly_first first ?_)).moves
  dsimp only
  rw [show remoteCheck s m 5 ((m.payload.getD 1 0).toNat == 0 || (m.payload.getD 1 0).toNat == 3
    || (m.payload.getD 1 0).toNat == 4 || (m.payload.getD 1 0).toNat == 6) (m.payload.getD 3 0) = none from good]
  dsimp only
  rw [show lawCommit s ⟨.other, 768, m.ctx, false⟩ false (.global_ (m.payload.getD 0 0).toNat)
    (remoteChange (m.payload.getD 1 0).toNat (m.payload.getD 2 0)) = .ok (c, a, s1) from committed] <;> rfl

end Remote

/-! ### Remote faults and links (R335, R399) -/

section Links

variable {s : State}

theorem remoteFault_does {src : Word} {x order : Nat} {cause : BitVec 8} {addr : BitVec 52}
    (hand : AtHand (.remoteFault src x order cause addr) s) :
    let kind := src.toNat / 2 ^ 26 % 2 ^ 3
    let c := src.toNat % 2 ^ 10
    let th := s.thread c kind
    let rf := if th.rfstat.getLsbD 63 then th.rfstat ||| 0x4000000000000000
      else word (2 ^ 63 + th.rfstat.toNat / 2 ^ 62 % 2 * 2 ^ 62 + cause.toNat * 2 ^ 54 + addr.toNat)
    (5 ≤ kind ∨ 768 ≤ c → Moves .remoteFault s (lawError s x)) ∧
    (kind < 5 → c < 768 →
      (launchHere s c order = some true → Moves .remoteFault s (s.setThread c kind { th with rfstat := rf })) ∧
      (launchHere s c order = some false → Moves .remoteFault s s) ∧
      (launchHere s c order = none → NotDue .remoteFault s)) := by
  intro kind c th rf
  have q := Steps.start (i := .remoteFault) hand (by change execRemoteFault s = _; rw [execRemoteFault, hand.1])
  dsimp only at q
  rw [fld_handle] at q
  refine ⟨fun unit => (q.taken unit).moves, fun thread inside => ?_⟩
  have q := q.passed (not_or.2 ⟨Nat.not_le.2 thread, Nat.not_le.2 inside⟩)
  exact ⟨fun bound => (q.of_eq (atLaunch_bound bound)).moves, fun gone => (q.of_eq (atLaunch_gone gone)).moves,
    fun aside => (q.of_eq (atLaunch_aside aside)).waits⟩

theorem drtRetransmit_does {m : Msg} (hand : AtHand (.drtRetransmit m) s) :
    ((∀ p ∈ s.segments, p.1 ≠ m) → NotDue .drtRetransmit s) ∧
    ∀ p, s.segments.find? (fun p => p.1 == m) = some p →
      (s.ns < p.2 + 16000 → NotDue .drtRetransmit s) ∧
      (p.2 + 16000 ≤ s.ns → Moves .drtRetransmit s { s with
        fabric := s.fabric ++ [m], segments := s.segments.map fun q => if q.1 = m then (m, s.ns) else q }) := by
  have q := Steps.start (i := .drtRetransmit) hand (by change execDrtRetransmit s = _; rw [execDrtRetransmit, hand.1])
  refine ⟨fun none => ?_, fun p found => ?_⟩
  · rw [List.find?_eq_none.2 fun p given same => none p given (beq_iff_eq.1 same)] at q
    exact q.waits
  · rw [found] at q
    exact ⟨fun early => (q.taken early).waits, fun due => (q.passed (Nat.not_lt.2 due)).moves⟩

theorem linkPortFailure_does {p : Nat} (hand : AtHand (.linkPortFailure p) s) :
    let t := { s with failedPorts := if s.failedPorts.contains p then s.failedPorts else s.failedPorts ++ [p] }
    let lost := (t.unacked.map (·.2.2)).filter fun m =>
      m.desc.toNat / 2 ^ 10 % 2 ^ 16 != t.pkg && t.routes.get (m.desc.toNat / 2 ^ 10 % 2 ^ 16) 0 != 1
    Moves .linkPortFailure s (if (List.range 48).all t.failedPorts.contains then lost.foldl linkLost t else t) := by
  intro t lost
  have q := Steps.start (i := .linkPortFailure) hand (by change execLinkPortFailure s = _; rw [execLinkPortFailure, hand.1])
  exact q.moves

end Links

/-- Settles O46: the steps of each event, one event at a time. -/
theorem messagesMove : Obligations.MessagesMove := by
  unfold Obligations.MessagesMove
  refine ⟨fun s m hand => ?_, fun s src n hand => messageAcknowledgement_does hand,
    fun s c0 src order hand => messageRelease_does hand, fun s c hand => ?_,
    fun s c a hand => budgetFault_does hand, fun s m dead cause hand => hostMailboxNotice_does hand, fun s m => ?_,
    fun s src x order cause addr hand => remoteFault_does hand, fun s m hand => drtRetransmit_does hand,
    fun s p hand => linkPortFailure_does hand⟩
  · have does := messageArrival_does hand
    refine ⟨does.1, fun direct inside live free => ?_⟩
    obtain ⟨duplicate, fresh⟩ := does.2 direct inside live free
    refine ⟨duplicate, fun news room => ⟨(fresh news room).1, fun bound own few unspilled => ?_⟩⟩
    exact ((fresh news room).of_eq (enqueueMsg_queued bound own few unspilled)).moves
  · exact ⟨(handlerActivation_idle hand).1, (handlerActivation_idle hand).2,
      fun m fails k free alone next => handlerActivation_next hand free alone next⟩
  · refine ⟨fun i e operation hand foreign heard => remote_again hand operation foreign heard, fun first =>
      ⟨fun c hand => (remoteLoad_does first hand).1 c, fun hand => (remoteLoad_does first hand).2,
        fun hand good => remoteStore_does first hand good, fun hand => remoteAtomic_does first hand,
        fun hand => remoteLaw_does first hand⟩⟩

end Sys2Proof.Machine
end

section
/-! SUPPORT. The steps of contexts, queues and commands, of dispatch and binding, and of stages (R340 to R360, R423): O49 from
these. -/

namespace Sys2Proof.Machine

/-! ### Contexts (R349) -/

/-- What stands at none of the places taken away, in a map in order. -/
theorem find?_foldl_del {α : Type} (place : Nat → Nat) {q : Nat} : ∀ (qs : List Nat) {m : SMap α}, SMap.wf m = true →
    (q ∈ qs ∨ SMap.find? m (place q) = none) →
    SMap.find? (qs.foldl (fun (m : SMap α) q => SMap.del m (place q)) m) (place q) = none
  | [], m, _, gone => gone.resolve_left (List.not_mem_nil)
  | p :: qs, m, ordered, gone => by
    refine find?_foldl_del place qs (SMap.wfFrom_del m _ ordered) ?_
    by_cases here : place q = place p
    · rw [here]
      exact .inr (SMap.find?_del_self m _ ordered)
    · rw [SMap.find?_del_ne m here]
      refine gone.imp_left fun listed => (List.mem_cons.1 listed).resolve_left fun same => here (congrArg place same)

section Contexts

variable {s : State} {x : Nat}

/-- A context that is created has none of its queues enabled. -/
theorem queue_cleared (t : State) {q : Nat} (ordered : SMap.wf t.queues = true) (few : q < 16) :
    ({ t with queues := (List.range 16).foldl (fun (m : SMap Queue) q => SMap.del m (16 * x + q)) t.queues } : State).queue x q
      = Queue.reset := by
  have gone := find?_foldl_del (fun q => 16 * x + q) (List.range 16) ordered (.inl (List.mem_range.2 few))
  unfold State.queue SMap.get
  rw [gone]
  rfl

theorem contextCreate_does {d : BitVec 512} (hand : AtHand (.contextCreate x d) s) :
    ((s.ctx x).live = true → Moves .contextCreate s s) ∧
    ((s.ctx x).live = false →
      let refuse := fun (n : BitVec 3) => s.setCtx x { s.ctx x with live := false, cstat := n }
      let cx := newContext s d
      let domains := dispRead (s.setCtx x cx) x (cx.lawbase.toNat + 0x4000) 128
      (ctxReserved d = true → Moves .contextCreate s (refuse 2)) ∧
      (ctxReserved d = false → ∀ w, domains = .error (.held w) → NotDue .contextCreate s) ∧
      (ctxReserved d = false → ∀ z a, domains = .error (.fault z a) → Moves .contextCreate s (refuse 1)) ∧
      (ctxReserved d = false → ∀ n t, domains = .ok (n, t) →
        (domainDescs n 8 = none → Moves .contextCreate s (refuse 1)) ∧
        ∀ ds, domainDescs n 8 = some ds → ∃ u, Moves .contextCreate s u ∧ u.ctx x = { cx with domains := ds } ∧
          ∀ q, SMap.wf t.queues = true → q < 16 → u.queue x q = Queue.reset)) := by
  have q := Steps.start (i := .contextCreate) hand (by change execContextCreate s = _; rw [execContextCreate, hand.1])
  refine ⟨fun live => (q.taken live).moves, fun free => ?_⟩
  have q := q.passed (Bool.eq_false_iff.1 free)
  unfold createContext at q
  dsimp only at q
  intro refuse cx domains
  refine ⟨fun reserved => (q.taken reserved).moves, fun plain w held => ?_, fun plain z a fault => ?_,
    fun plain n t read => ?_⟩
  · have q := q.passed (Bool.eq_false_iff.1 plain)
    rw [show dispRead (s.setCtx x (newContext s d)) x ((newContext s d).lawbase.toNat + 0x4000) 128 = _ from held] at q
    exact q.waits
  · have q := q.passed (Bool.eq_false_iff.1 plain)
    rw [show dispRead (s.setCtx x (newContext s d)) x ((newContext s d).lawbase.toNat + 0x4000) 128 = _ from fault] at q
    exact q.moves
  · have q := q.passed (Bool.eq_false_iff.1 plain)
    rw [show dispRead (s.setCtx x (newContext s d)) x ((newContext s d).lawbase.toNat + 0x4000) 128 = _ from read] at q
    dsimp only at q
    refine ⟨fun refused => ?_, fun ds good => ?_⟩
    · rw [refused] at q
      exact q.moves
    · rw [good] at q
      refine ⟨_, q.moves, SMap.get_set_self .., fun n ordered few => ?_⟩
      exact queue_cleared (t.setCtx x { newContext s d with domains := ds }) ordered few

theorem contextDestroy_does (hand : AtHand (.contextDestroy x) s) :
    ((s.ctx x).live = false → Moves .contextDestroy s s) ∧
    ((s.ctx x).live = true → contextBusy s x = true → Moves .contextDestroy s (refuseDestroy s x)) ∧
    ((s.ctx x).live = true → contextBusy s x = false → Moves .contextDestroy s (destroyContext s x)) := by
  have q := Steps.start (i := .contextDestroy) hand (by change execContextDestroy s = _; rw [execContextDestroy, hand.1])
  refine ⟨fun gone => ?_, fun live busy => ?_, fun live idle => ?_⟩
  · exact (q.of_eq (congrArg some (if_pos (by rw [gone]; rfl)))).moves
  · exact (q.of_eq (congrArg some ((if_neg (by rw [live]; nofun)).trans (if_pos busy)))).moves
  · exact (q.of_eq (congrArg some ((if_neg (by rw [live]; nofun)).trans (if_neg (Bool.eq_false_iff.1 idle))))).moves

end Contexts

/-! ### Queues and their commands (R351 to R354, R423) -/

section Queues

variable {s : State} {x q : Nat}

/-- The weight field of a queue header read as a number. -/
theorem fld_weight (n : Nat) : fld (BitVec.ofNat 512 n) 117 114 = n / 2 ^ 114 % 2 ^ 4 := by
  rw [fld, BitVec.toNat_ofNat]
  omega

theorem queueEnable_does {n : Nat} {s1 : State} (hand : AtHand (.queueEnable x q) s) (live : (s.ctx x).live = true)
    (read : dispRead s x (queueHdr s x q) 64 = .ok (n, s1)) :
    let h := BitVec.ofNat 512 n
    let w := n / 2 ^ 114 % 2 ^ 4
    let k := s1.queue x q
    (w = 0 → Moves .queueEnable s (setQState (s1.setQueue x q { k with live := true, weight := 0 }) x q 3)) ∧
    (w ≠ 0 → k.weight ≠ 0 → Moves .queueEnable s s1) ∧
    (w ≠ 0 → k.weight = 0 → queueOf k h = none →
      Moves .queueEnable s (setQState (s1.setQueue x q { k with live := true, weight := w }) x q 3)) ∧
    (w ≠ 0 → k.weight = 0 → ∀ k1, queueOf k h = some k1 → Moves .queueEnable s (enableQueue s1 x q k1)) := by
  intro h w k
  have p := Steps.start (i := .queueEnable) hand (by change execQueueEnable s = _; rw [execQueueEnable, hand.1])
  have p := p.passed (by rw [live]; nofun)
  rw [read] at p
  dsimp only at p
  rw [fld_weight] at p
  refine ⟨fun off => (p.taken off).moves, fun weighs known => ((p.passed weighs).taken known).moves,
    fun weighs fresh bad => ?_, fun weighs fresh k1 good => ?_⟩
  · have p := (p.passed weighs).passed (not_not.2 fresh)
    rw [show queueOf (s1.queue x q) (BitVec.ofNat 512 n) = none from bad] at p
    exact p.moves
  · have p := (p.passed weighs).passed (not_not.2 fresh)
    rw [show queueOf (s1.queue x q) (BitVec.ofNat 512 n) = some k1 from good] at p
    exact p.moves

theorem commandAccept_does (hand : AtHand (.commandAccept x q) s) :
    let u := settleQueue s x q
    let k := u.queue x q
    ((u.ctx x).live = false ∨ serves k = false → Moves .commandAccept s u) ∧
    ((u.ctx x).live = true → serves k = true →
      (k.cmd = none → k.done < k.accepted → ∀ n s1, dispRead u x (cmdAddr k (k.done + 1)) 64 = .ok (n, s1) →
        Moves .commandAccept s (startCommand (s1.emit (.commandAccept x q)) x q { readCommand n with seq := k.done + 1 })) ∧
      (k.cmd ≠ none ∨ k.accepted ≤ k.done → ∀ tail s1, dispRead u x (queueHdr u x q + 48) 8 = .ok (tail, s1) →
        (tail ≤ k.accepted → Moves .commandAccept s s1) ∧
        (k.accepted < tail → ∀ n s2 t, dispRead s1 x (cmdAddr k (k.accepted + 1)) 64 = .ok (n, s2) →
          acceptCommand s2 x q (readCommand n) = some t → Moves .commandAccept s t))) := by
  intro u k
  have p := Steps.start (i := .commandAccept) hand (by change execCommandAccept s = _; rw [execCommandAccept, hand.1])
  have closed : (!(u.ctx x).live || !serves k) = true ↔ (u.ctx x).live = false ∨ serves k = false := by
    rw [Bool.or_eq_true, Bool.not_eq_true', Bool.not_eq_true']
  have starts : (k.cmd.isNone && decide (k.done < k.accepted)) = true ↔ k.cmd = none ∧ k.done < k.accepted := by
    rw [Bool.and_eq_true, Option.isNone_iff_eq_none, decide_eq_true_eq]
  refine ⟨fun off => (p.taken (closed.2 off)).moves, fun live serving => ?_⟩
  have p := p.passed (mt closed.1 (not_or.2 ⟨by rw [live]; nofun, by rw [serving]; nofun⟩))
  refine ⟨fun idle more n s1 read => ?_, fun busy tail s1 read => ?_⟩
  · have p := p.taken (starts.2 ⟨idle, more⟩)
    rw [show dispRead (settleQueue s x q) x (cmdAddr ((settleQueue s x q).queue x q)
      (((settleQueue s x q).queue x q).done + 1)) 64 = .ok (n, s1) from read] at p
    exact p.moves
  · have p := p.passed (mt starts.1 fun both => busy.elim (absurd both.1) fun done => absurd both.2 (Nat.not_lt.2 done))
    rw [show dispRead (settleQueue s x q) x (queueHdr (settleQueue s x q) x q + 48) 8 = .ok (tail, s1) from read] at p
    refine ⟨fun all => (p.taken all).moves, fun more n s2 t command accepted => ?_⟩
    have p := p.passed (Nat.not_le.2 more)
    rw [show dispRead s1 x (cmdAddr ((settleQueue s x q).queue x q) (((settleQueue s x q).queue x q).accepted + 1)) 64 =
      .ok (n, s2) from command] at p
    exact (p.of_eq accepted).moves

theorem signal_does (hand : AtHand (.signal x q) s) :
    (s.command x q 1 = none → Moves .signal s s) ∧
    (∀ c p s1 s2, s.command x q 1 = some c → unitXlate s .other 768 x true .write c.arg1.toNat = .ok (p, s1) →
      writePa s1 (s1.ctx x).seed p.pa 8 c.arg2.toNat = some s2 → Moves .signal s (finishCommand s2 x q 0 0)) := by
  have p := Steps.start (i := .signal) hand (by change execSignal s = _; rw [execSignal, hand.1])
  refine ⟨fun none => ?_, fun c l s1 s2 runs walked written => ?_⟩
  · rw [none] at p
    exact p.moves
  · rw [runs] at p
    dsimp only at p
    rw [walked] at p
    dsimp only at p
    rw [written] at p
    exact p.moves

theorem waitForSignal_does (hand : AtHand (.waitForSignal x q) s) : Moves .waitForSignal s
    (if s.command x q 2 = none then s else (setQState s x q 1).emit (.signalSatisfied x q)) := by
  have p := Steps.start (i := .waitForSignal) hand (by change execWaitForSignal s = _; rw [execWaitForSignal, hand.1])
  cases runs : s.command x q 2 with
  | none =>
    rw [runs] at p
    exact p.moves
  | some c =>
    rw [runs] at p
    exact p.moves

theorem signalSatisfied_does {c : Command} {l : Xlat} {s1 : State} {v : Nat} (hand : AtHand (.signalSatisfied x q) s)
    (runs : s.command x q 2 = some c) (walked : unitXlate s .other 768 x true .read c.arg1.toNat = .ok (l, s1))
    (value : readPa s1 (s1.ctx x).seed l.pa 8 = some v) :
    (c.arg2.toNat ≤ v → Moves .signalSatisfied s (finishCommand s1 x q 0 0)) ∧
    (v < c.arg2.toNat → NotDue .signalSatisfied s) := by
  have p := Steps.start (i := .signalSatisfied) hand (by change execSignalSatisfied s = _; rw [execSignalSatisfied, hand.1])
  rw [runs] at p
  dsimp only at p
  rw [walked] at p
  dsimp only at p
  rw [value] at p
  exact ⟨fun high => (p.taken high).moves, fun low => (p.passed (Nat.not_le.2 low)).waits⟩

end Queues

/-! ### Launches and dispatch decisions (R355, R359) -/

section Dispatch

variable {s : State} {x q : Nat}

theorem launch_does {c : Command} {n : Nat} (hand : AtHand (.launch x q) s) (runs : s.command x q 0 = some c) :
    (launchKnown s x q c.seq = true → Moves .launch s s) ∧
    ∀ s1, launchKnown s x q c.seq = false → dispRead s x c.arg1.toNat 128 = .ok (n, s1) →
    (launchDescOk n = false → Moves .launch s (finishCommand s1 x q 3 0)) ∧
    (launchDescOk n = true →
      let t := { s1 with launches := s1.launches.set (16 * x + q) ⟨x, q, c.seq, c.arg1, launchDesc n, 0, 0, false, []⟩ }
      Moves .launch s ((t.setQueue x q { t.queue x q with decided := false, age := t.cycle }).emit .dispatchDecision)) := by
  have p := Steps.start (i := .launch) hand (by change execLaunch s = _; rw [execLaunch, hand.1])
  rw [runs] at p
  dsimp only at p
  refine ⟨fun known => (p.taken known).moves, fun s1 fresh read => ?_⟩
  have p := p.passed (Bool.eq_false_iff.1 fresh)
  rw [read] at p
  exact ⟨fun bad => (p.passed (Bool.eq_false_iff.1 bad)).moves, fun good => (p.taken good).moves⟩

theorem dispatchDecision_does (hand : AtHand .dispatchDecision s) :
    (readyHeads s = [] → Moves .dispatchDecision s s) ∧
    (readyHeads s ≠ [] → let t := dispatchOnce s
      (t.decisions ≠ s.decisions → Moves .dispatchDecision s t) ∧
      (t.decisions = s.decisions → t.reserved ≠ s.reserved → Moves .dispatchDecision s (t.emit .dispatchDecision)) ∧
      (t.decisions = s.decisions → t.reserved = s.reserved → NotDue .dispatchDecision s)) := by
  have p := Steps.start (i := .dispatchDecision) hand
    (by change execDispatchDecision s = _; rw [execDispatchDecision, hand.1])
  refine ⟨fun none => (p.taken (beq_iff_eq.2 none)).moves, fun some => ?_⟩
  have p := p.passed (mt beq_iff_eq.1 some)
  exact ⟨fun decided => (p.taken decided).moves,
    fun same reserves => ((p.passed (not_not.2 same)).taken reserves).moves,
    fun same kept => ((p.passed (not_not.2 same)).passed (not_not.2 kept)).waits⟩

end Dispatch

/-! ### Pre-emption, binding and done words (R316, R357, R358, R360, R362) -/

section Bind

variable {s : State} {c : Nat}

theorem preemption_does (hand : AtHand (.preemption c) s) :
    (preempting (s.core c) = none → Moves .preemption s s) ∧
    (∀ i r b t, preempting (s.core c) = some (i, r, b) → quiet s c = true → quiet s (leaderOf s c) = true →
      preemptCore s c i r b = some t → Moves .preemption s t) := by
  have p := Steps.start (i := .preemption) hand (by change execPreemption s = _; rw [execPreemption, hand.1])
  refine ⟨fun none => ?_, fun i r b t due still stillLeader saved => ?_⟩
  · rw [none] at p
    exact p.moves
  · rw [due] at p
    have p := p.taken (Bool.and_eq_true_iff.2 ⟨still, stillLeader⟩)
    exact (p.of_eq saved).moves

/-- The record that a free core binds: slot 0's, else the pending one of the highest priority. -/
def nextRecord (k : Core) : Option (Nat × BindRec) :=
  match SMap.find? k.slots 0 with
  | some r => some (0, r)
  | none => bestPending k

theorem bind_does (hand : AtHand (.bind c) s) :
    let k := s.core c
    (k.bound ≠ none → (preempting k).isSome = true → s.flight.contains (.preemption c) = false →
      Moves .bind s ((s.emit (.preemption c)).emit (.bind c))) ∧
    (k.bound = none → k.fenced = false → k.retired = false →
      (nextRecord k = none → Moves .bind s s) ∧
      (∀ i rec, nextRecord k = some (i, rec) → runOf s rec = none →
        Moves .bind s (s.setCore c { k with slots := SMap.del k.slots i })) ∧
      (∀ i rec r t, nextRecord k = some (i, rec) → runOf s rec = some r →
        (if rec.resume then bindResume s c i rec r else if owesReleases s c then none else bindFresh s c i rec r) = some t →
        Moves .bind s t)) := by
  intro k
  have p := Steps.start (i := .bind) hand (by change execBind s = _; rw [execBind, hand.1])
  dsimp only at p
  refine ⟨fun busy due fresh => ?_, fun free unfenced sound => ?_⟩
  · obtain ⟨b, bound⟩ := Option.ne_none_iff_exists'.1 busy
    rw [show (s.core c).bound = some b from bound] at p
    exact (p.taken (Bool.and_eq_true_iff.2 ⟨due, by rw [fresh]; rfl⟩)).moves
  · rw [show (s.core c).bound = none from free] at p
    have p := p.passed (show ¬ ((s.core c).fenced || (s.core c).retired) = true by
      rw [show (s.core c).fenced = false from unfenced, show (s.core c).retired = false from sound]; nofun)
    change Steps .bind s (match nextRecord k with
      | none => _
      | some (i, rec) => _) at p
    refine ⟨fun none => ?_, fun i rec next unknown => ?_, fun i rec r t next known done => ?_⟩
    · rw [none] at p
      exact p.moves
    · rw [next] at p
      dsimp only at p
      rw [unknown, ← free] at p
      exact p.moves
    · rw [next] at p
      dsimp only at p
      rw [known] at p
      exact (p.of_eq done).moves

/-- The launches that the host's record leaves known: its own launch is among them. -/
theorem recordRun_set {m : SMap LaunchRun} {key : Nat} {run : LaunchRun} {r : BindRec} (t : State)
    (launches : t.launches = m.set key run) (order : run.order = r.order) (ctx : run.ctx = r.ctx)
    (desc : run.descAddr = r.desc) : (recordRun t r).isSome = true := by
  have listed : (key, run) ∈ t.launches := launches ▸ SMap.mem_of_find? (SMap.find?_set_self m key run)
  rw [recordRun, List.find?_isSome]
  exact ⟨_, listed, by simp [order, ctx, desc]⟩

theorem hostBindRecord_does {w : BitVec 256} (hand : AtHand (.hostBindRecord c w) s) :
    let r := recordOf w
    let refused := fun (t : State) =>
      (postNotice t r.ctx r.queue c false 0 [6, r.desc, word c, word r.queue, word r.order, 0, 0]).2
    let open_ := (s.core c).slots.find? 4 = none ∧ w.getLsbD 0 = true ∧ (s.ctx r.ctx).live = true ∧
      (s.ctx r.ctx).modes.getLsbD 0 = true
    (¬ open_ → Moves .hostBindRecord s s) ∧
    (open_ → recordBad w = true → Moves .hostBindRecord s (refused s)) ∧
    (open_ → recordBad w = false → ∀ n s1, dispRead s r.ctx r.desc.toNat 128 = .ok (n, s1) →
      (launchDescOk n = false ∨ r.desc.toNat % 64 ≠ 0 → Moves .hostBindRecord s (refused s1)) ∧
      (launchDescOk n = true → r.desc.toNat % 64 = 0 → ∃ t : State, Moves .hostBindRecord s (t.emit (.bind c)) ∧
        (t.core c).slots = (s1.core c).slots.set 4 r ∧ (recordRun t r).isSome = true)) := by
  intro r refused open_
  have p := Steps.start (i := .hostBindRecord) hand (by change execHostBindRecord s = _; rw [execHostBindRecord, hand.1])
  have shut : ((SMap.find? (s.core c).slots 4).isSome || !bit w 0 || !(s.ctx r.ctx).live || !bit (s.ctx r.ctx).modes 0) = true
      ↔ ¬ open_ := by
    simp only [open_, bit, Bool.or_eq_true, Bool.not_eq_true', not_and_or, Bool.not_eq_true, ← Option.isSome_iff_ne_none,
      or_assoc]
  refine ⟨fun closed => (p.taken (shut.2 closed)).moves, fun clear reserved => ?_, fun clear good n s1 read => ?_⟩
  · exact ((p.passed (mt shut.1 (not_not.2 clear))).taken reserved).moves
  · have p := (p.passed (mt shut.1 (not_not.2 clear))).passed (Bool.eq_false_iff.1 good)
    rw [show dispRead s (recordOf w).ctx (recordOf w).desc.toNat 128 = .ok (n, s1) from read] at p
    dsimp only at p
    have bad : (!launchDescOk n || (recordOf w).desc.toNat % 64 != 0) = true ↔ launchDescOk n = false ∨ r.desc.toNat % 64 ≠ 0 := by
      rw [Bool.or_eq_true, Bool.not_eq_true', bne_iff_ne]
    refine ⟨fun fails => (p.taken (bad.2 fails)).moves, fun fits aligned => ?_⟩
    have p := p.passed (mt bad.1 (not_or.2 ⟨by rw [fits]; nofun, not_not.2 aligned⟩))
    by_cases known : (recordRun s1 r).isSome = true
    · rw [if_pos known] at p
      exact ⟨_, p.moves, congrArg Core.slots (State.core_setCore ..), known⟩
    · rw [if_neg known] at p
      exact ⟨_, p.moves, congrArg Core.slots (State.core_setCore ..), recordRun_set _ rfl rfl rfl rfl⟩

theorem doneWord_does {p c order : Nat} {w : BitVec 128} (hand : AtHand (.doneWord p c order w) s) :
    (launchHere s p order = some false → Moves .doneWord s s) ∧ (launchHere s p order = none → NotDue .doneWord s) ∧
    (launchHere s p order = some true →
    (p ≠ c → Moves .doneWord s (trySendDone (s.setCore p { s.core p with
      tree := { (s.core p).tree with childWords := (s.core p).tree.childWords ++ [(c, w)] } }) p)) ∧
    (p = c → ∀ l, s.boundKey p = some l →
      Moves .doneWord s (completeLaunch (unbindCore s p) l.1 p l.2 w))) := by
  have q := Steps.start (i := .doneWord) hand (by change execDoneWord s = _; rw [execDoneWord, hand.1])
  refine ⟨fun gone => (q.of_eq (atLaunch_gone gone)).moves, fun aside => (q.of_eq (atLaunch_aside aside)).waits,
    fun bound => ?_⟩
  have q := q.of_eq (atLaunch_bound bound)
  refine ⟨fun child => (q.taken child).moves, fun root l key => ?_⟩
  have q := q.passed (not_not.2 root)
  rw [key] at q
  exact q.moves

end Bind

/-! ### A read takes no time of its own -/

section Time

variable {s t : State}

theorem cycle_fetchSector (s : State) (n k : Nat) : (fetchSector s n k).cycle = s.cycle := by
  unfold fetchSector
  split
  · rfl
  · split <;> rfl

theorem cycle_leaseRead (s : State) (c x pa : Nat) : (leaseRead s c x pa).cycle = s.cycle := by
  have granted (n : Nat) : (grantLease (fetchSector s n (pa / 32)) n (pa / 32) 64).cycle = s.cycle :=
    cycle_fetchSector s n (pa / 32)
  have renewed (u : State) (n k : Nat) : (renewReplica u c x n k).cycle = u.cycle := by
    unfold renewReplica
    split <;> rfl
  unfold leaseRead
  split
  · rfl
  · dsimp only
    split
    · exact (renewed _ _ _).trans (granted _)
    · exact granted _

theorem cycle_touchSlice (s : State) (c x : Nat) (nd : Rights) (pa : Nat) : (touchSlice s c x nd pa).cycle = s.cycle := by
  cases nd with
  | write => rfl
  | read => exact cycle_leaseRead _ _ _ _
  | execute => exact cycle_leaseRead _ _ _ _
  | atomic =>
    unfold touchSlice allocSector
    dsimp only
    split <;> exact cycle_fetchSector _ _ _

theorem cycle_writePa {seed : Word} {pa n v : Nat} (written : writePa s seed pa n v = some t) : t.cycle = s.cycle := by
  have sector (u : State) (n k : Nat) (d : BitVec 256) (w z : Bool) : (writeSector u n k d w z).cycle = u.cycle := by
    unfold writeSector passLease
    dsimp only
    split <;> rfl
  unfold writePa at written
  dsimp only at written
  split at written
  · cases written
    exact sector _ _ _ _ _ _
  · obtain ⟨d, -, rfl⟩ := Option.map_eq_some_iff.mp written
    exact (sector _ _ _ _ _ _).trans (cycle_fetchSector _ _ _)

theorem cycle_applyWalk (s : State) (c x : Nat) (p : Xlat) : (applyWalk s c x p).cycle = s.cycle := by
  have reads : (p.walk.foldl (fun s a => touchSlice s 768 x .read a) s).cycle = s.cycle :=
    foldl_keeps State.cycle (fun s a => cycle_touchSlice s 768 x .read a) p.walk s
  unfold applyWalk
  generalize List.foldl _ _ _ = s1 at reads ⊢
  have update (a e : Nat) : ((writePa (sliceAccess s1 x a) (s1.ctx x).seed a 8 e).getD s1).cycle = s.cycle := by
    cases written : writePa (sliceAccess s1 x a) (s1.ctx x).seed a 8 e with
    | none => exact reads
    | some t => exact (cycle_writePa written).trans reads
  rcases p with ⟨pa, nd, _ | f, _ | ⟨a, e⟩, walk⟩
  · exact reads
  · exact update a e
  · exact reads
  · exact update a e

theorem cycle_unitXlate {who : Agent} {c x : Nat} {sup : Bool} {nd : Rights} {va : Nat} {p : Xlat}
    (walked : unitXlate s who c x sup nd va = .ok (p, t)) : t.cycle = s.cycle := by
  obtain ⟨-, rfl⟩ := unitXlate_inv walked
  exact (cycle_touchSlice _ _ _ _ _).trans (cycle_applyWalk s c x p)

theorem cycle_unitReadAs {nd : Rights} {who : Agent} {c x : Nat} {sup : Bool} : ∀ {ps : List (Nat × Nat)} {s t : State}
    {v : Nat}, unitReadAs nd s who c x sup ps = .ok (v, t) → t.cycle = s.cycle
  | [], _, _, _, read => by
    cases read
    rfl
  | (va, n) :: ps, s, t, v, read => by
    unfold unitReadAs at read
    split at read
    · cases read
    · next walked =>
      split at read
      · cases read
      · split at read
        · cases read
        · next rest =>
          cases read
          exact (cycle_unitReadAs rest).trans (cycle_unitXlate walked)

theorem cycle_readStage {x : Nat} {a : Word} {d : StageDesc} (read : readStage s x a = .ok (d, t)) : t.cycle = s.cycle := by
  unfold readStage at read
  split at read
  · cases read
  · next bytes =>
    split at read
    · cases read
    · split at read
      · cases read
      · cases read
        exact cycle_unitReadAs bytes

end Time

/-! ### Stages and the annex policy (R341, R354, R419) -/

section Stages

variable {s : State} {x q : Nat}

theorem stageRings_bad {h : Nat} {cs : List Nat} (bad : (cs.any fun c => ringBad (s.core c) (ringHdr (s.core c) h)) = true) :
    stageRings s h cs = .error (.fault .descriptorFormat h) := if_pos bad

theorem stageRings_good {h : Nat} {cs : List Nat} (good : (cs.any fun c => ringBad (s.core c) (ringHdr (s.core c) h)) = false) :
    stageRings s h cs = .ok () := if_neg (Bool.eq_false_iff.1 good)

theorem stageMonitorSample_idle (hand : AtHand (.stageMonitorSample x q) s) :
    (stageRuns s x q = [] → Moves .stageMonitorSample s s) ∧
    (stageRuns s x q ≠ [] → (∀ p ∈ stageRuns s x q, s.cycle < (stageMon s p.1).last + 1024) →
      NotDue .stageMonitorSample s) := by
  have p := Steps.start (i := .stageMonitorSample) hand
    (by change execStageMonitorSample s = _; rw [execStageMonitorSample, hand.1])
  dsimp only at p
  refine ⟨fun none => ?_, fun some early => ?_⟩
  · rw [show stageRun s x q = Option.none by rw [stageRun, none]; rfl] at p
    exact (p.taken (beq_iff_eq.2 none)).moves
  · have notYet : stageRun s x q = none :=
      List.find?_eq_none.2 fun l listed due => Nat.not_le.2 (early l listed) (of_decide_eq_true due)
    rw [notYet] at p
    exact (p.passed (mt beq_iff_eq.1 some)).waits

theorem stageRun_due {key : Nat} {r : LaunchRun} (found : stageRun s x q = some (key, r)) :
    r ∈ (stageRuns s x q).map (·.2) ∧ (stageMon s key).last + 1024 ≤ s.cycle :=
  ⟨List.mem_map.2 ⟨_, List.mem_of_find?_eq_some found, rfl⟩, of_decide_eq_true (List.find?_some found :)⟩

theorem stageMonitorSample_due {key a : Nat} {r : LaunchRun} (hand : AtHand (.stageMonitorSample x q) s)
    (found : stageRun s x q = some (key, r)) (stage : r.ld.stage = some a) :
    let old := stageMon s key
    let mon : StageMon := { old with above := [], below := [], last := s.cycle }
    let skip := fun (t : State) => ({ t with stages := t.stages.set key mon }.emit (.stageMonitorSample x q))
    (∀ d s1, readStage s x (word a) = .ok (d, s1) →
      let bad := (d.owners.filter (runsOn s1 r)).any fun c => ringBad (s1.core c) (ringHdr (s1.core c) d.rhdr)
      (bad = true → Moves .stageMonitorSample s (skip s1)) ∧
      (bad = false → ∀ s2, sampleStage s1 key r (word a) d = .ok s2 →
        Moves .stageMonitorSample s (s2.emit (.stageMonitorSample x q)))) ∧
    (∀ z va, z ≠ .notPresent → readStage s x (word a) = .error (.fault z va) → Moves .stageMonitorSample s (skip s)) := by
  intro old mon skip
  have p := Steps.start (i := .stageMonitorSample) hand
    (by change execStageMonitorSample s = _; rw [execStageMonitorSample, hand.1])
  dsimp only at p
  rw [found] at p
  dsimp only at p
  rw [stage] at p
  dsimp only at p
  refine ⟨fun d s1 read => ?_, fun z va other denied => ?_⟩
  · rw [read] at p
    dsimp only at p
    refine ⟨fun bad => ?_, fun good s2 sampled => ?_⟩
    · rw [stageRings_bad bad] at p
      have now : mon = { old with above := [], below := [], last := s1.cycle } := by rw [cycle_readStage read]
      change Moves _ s (State.emit { s1 with stages := s1.stages.set key mon } _)
      rw [now]
      exact p.moves
    · rw [stageRings_good good] at p
      dsimp only at p
      rw [sampled] at p
      exact p.moves
  · rw [denied] at p
    exact (p.of_eq (deniedFate_fault other)).moves

theorem annexPolicy_stands {c : Command} (hand : AtHand (.annexPolicy x q) s) (runs : s.command x q 3 = some c)
    (decided : (s.queue x q).decided = true) :
    let stands := s.annexes.any fun a => a.stage == c.arg1 && keyCtx a.key == x
    (stands = true → NotDue .annexPolicy s) ∧ (stands = false → Moves .annexPolicy s (finishCommand s x q 1 0)) := by
  intro stands
  have p := Steps.start (i := .annexPolicy) hand (by change execAnnexPolicy s = _; rw [execAnnexPolicy, hand.1])
  dsimp only at p
  rw [runs] at p
  have p := p.taken decided
  exact ⟨fun held => (p.taken held).waits, fun ended => (p.passed (Bool.eq_false_iff.1 ended)).moves⟩

theorem annexPolicy_none (hand : AtHand (.annexPolicy x q) s) (none : s.command x q 3 = none) : Moves .annexPolicy s s := by
  have p := Steps.start (i := .annexPolicy) hand (by change execAnnexPolicy s = _; rw [execAnnexPolicy, hand.1])
  dsimp only at p
  rw [none] at p
  exact p.moves

theorem annexPolicy_does {c : Command} (hand : AtHand (.annexPolicy x q) s) (runs : s.command x q 3 = some c)
    (undecided : (s.queue x q).decided = false) :
    let legal := (s.ctx x).modes.getLsbD 2 = true ∧ c.arg3.toNat ≤ c.arg2.toNat
    (¬ legal → Moves .annexPolicy s (finishCommand s x q 3 0)) ∧
    (legal → stageLaunch s x c.arg1 = none → Moves .annexPolicy s (finishCommand s x q 3 0)) ∧
    (∀ key r z va, legal → stageLaunch s x c.arg1 = some (key, r) → z ≠ .notPresent →
      readStage s x c.arg1 = .error (.fault z va) → Moves .annexPolicy s (finishCommand s x q 1 0)) ∧
    (∀ key r d s1, legal → stageLaunch s x c.arg1 = some (key, r) → readStage s x c.arg1 = .ok (d, s1) →
      (policyStart s1 key r c d = .ok none → Moves .annexPolicy s (finishCommand s1 x q 1 0)) ∧
      (∀ s2, policyStart s1 key r c d = .ok (some s2) →
        Moves .annexPolicy s ((s2.setQueue x q { s2.queue x q with decided := true }).emit (.annexPolicy x q)))) := by
  intro legal
  have p := Steps.start (i := .annexPolicy) hand (by change execAnnexPolicy s = _; rw [execAnnexPolicy, hand.1])
  dsimp only at p
  rw [runs] at p
  have p := p.passed (Bool.eq_false_iff.1 undecided)
  have refused : (!bit (s.ctx x).modes 2 || decide (c.arg2.toNat < c.arg3.toNat)) = true ↔ ¬ legal := by
    rw [Bool.or_eq_true, Bool.not_eq_true', decide_eq_true_eq, not_and_or, Nat.not_le, Bool.not_eq_true]
    rfl
  refine ⟨fun bad => (p.taken (refused.2 bad)).moves, fun good unbound => ?_, fun key r z va good bound other denied => ?_,
    fun key r d s1 good bound read => ?_⟩
  · have p := p.passed (mt refused.1 (not_not.2 good))
    rw [unbound] at p
    exact p.moves
  · have p := p.passed (mt refused.1 (not_not.2 good))
    rw [bound] at p
    dsimp only at p
    rw [denied] at p
    exact (p.of_eq (deniedFate_fault other)).moves
  · have p := p.passed (mt refused.1 (not_not.2 good))
    rw [bound] at p
    dsimp only at p
    rw [read] at p
    dsimp only at p
    refine ⟨fun declined => ?_, fun s2 started => ?_⟩
    · rw [declined] at p
      exact p.moves
    · rw [started] at p
      exact p.moves

end Stages

/-! ### Annexes and merges (R340, R342, R343, R346) -/

section Annexes

variable {s : State} {o : Nat} {merge : Bool} {f : Annex → Option State}

theorem withAnnex_none (none : ∀ a ∈ s.annexes, ¬ (a.o = o ∧ a.merge = merge)) : withAnnex s o merge f = some s := by
  have unknown : annexOn s o merge = Option.none := List.find?_eq_none.2 fun a listed found => by
    rw [Bool.and_eq_true, Bool.and_eq_true, beq_iff_eq, beq_iff_eq] at found
    exact none a listed found.1
  have away : ¬ (s.annexes.any fun a => a.o == o && a.merge == merge) = true := fun any => by
    obtain ⟨a, listed, found⟩ := List.any_eq_true.1 any
    rw [Bool.and_eq_true, beq_iff_eq, beq_iff_eq] at found
    exact none a listed found
  unfold withAnnex
  rw [unknown]
  exact if_neg away

theorem withAnnex_on {a : Annex} (found : annexOn s o merge = some a) (runs : (annexRun s a).isSome = true) :
    withAnnex s o merge f = f a := by
  unfold withAnnex
  rw [found]
  exact if_pos runs

/-- Not free to start, as the steps test it. -/
theorem unready_iff {a b : Bool} : (!a || !b) = true ↔ a = false ∨ b = false := by
  rw [Bool.or_eq_true, Bool.not_eq_true', Bool.not_eq_true']

theorem unready_not {a b : Bool} (ha : a = true) (hb : b = true) : ¬ (!a || !b) = true := by
  rw [ha, hb]
  nofun

theorem splitActivation_does (hand : AtHand (.splitActivation o) s) :
    ((∀ a ∈ s.annexes, ¬ (a.o = o ∧ a.merge = false)) → Moves .splitActivation s s) ∧
    (∀ a, annexOn s o false = some a → (annexRun s a).isSome = true →
      (a.step = 9 → ∀ s1, cancelSplit s a = .ok s1 → Moves .splitActivation s s1) ∧
      (a.step ≠ 3 → a.step ≠ 9 → Moves .splitActivation s s) ∧
      (a.step = 3 → quiescent s o a.hdr = false ∨ canActivate s o = false → NotDue .splitActivation s) ∧
      (a.step = 3 → quiescent s o a.hdr = true → canActivate s o = true → ∀ d s1,
        readStage s (keyCtx a.key) a.stage = .ok (d, s1) →
        Moves .splitActivation s (startActivation (copyLocal s1 o d.soff o d.mbuf d.slen) o .split noMsg (2 ^ 20) 0 (d.spc &&& ~~~3#64) 0
          [(3, a.m), (4, a.b), (5, word a.y), (6, word (d.soff + d.slen * 2 ^ 18)), (7, a.stage)] (d.soff, d.slen)))) := by
  have p := Steps.start (i := .splitActivation) hand (by change execSplitActivation s = _; rw [execSplitActivation, hand.1])
  refine ⟨fun none => (p.of_eq (withAnnex_none none)).moves, fun a found runs => ?_⟩
  have p := p.of_eq (withAnnex_on found runs)
  refine ⟨fun ends s1 cancelled => ?_, fun other going => ((p.passed going).taken other).moves, fun third busy => ?_,
    fun third still free d s1 read => ?_⟩
  · have p := p.taken ends
    rw [cancelled] at p
    exact p.moves
  · have p := (p.passed (by rw [third]; decide)).passed (not_not.2 third)
    exact (p.taken (unready_iff.2 busy)).waits
  · have p := (p.passed (by rw [third]; decide)).passed (not_not.2 third)
    have p := p.passed (unready_not still free)
    rw [read] at p
    exact p.moves

theorem annexForward_does (hand : AtHand (.annexForward o) s) :
    ((∀ a ∈ s.annexes, ¬ (a.o = o ∧ a.merge = false)) → Moves .annexForward s s) ∧
    (∀ a d s1, annexOn s o false = some a → (annexRun s a).isSome = true →
      readStage s (keyCtx a.key) a.stage = .ok (d, s1) →
      (a.step = 4 → ∀ s2, annexGen s1 a d = .ok s2 → Moves .annexForward s (s2.emit (.annexForward o))) ∧
      (a.step = 5 → annexForward s1 a d = .ok none → NotDue .annexForward s) ∧
      (a.step = 5 → ∀ s2 s3, annexForward s1 a d = .ok (some s2) →
        annexClose s2 a (d.entries.getD a.entry 0 / 2 ^ 64 * 2 ^ 64
          + (setFld (word (d.entries.getD a.entry 0)) 46 46 0).toNat) = .ok s3 → Moves .annexForward s s3)) := by
  have p := Steps.start (i := .annexForward) hand (by change execAnnexForward s = _; rw [execAnnexForward, hand.1])
  refine ⟨fun none => (p.of_eq (withAnnex_none none)).moves, fun a d s1 found runs read => ?_⟩
  have p := p.of_eq (withAnnex_on found runs)
  rw [read] at p
  dsimp only at p
  refine ⟨fun fourth s2 written => ?_, fun fifth waits => ?_, fun fifth s2 s3 forwarded closed => ?_⟩
  · have p := p.taken fourth
    rw [written] at p
    exact p.moves
  · have p := (p.passed (by rw [fifth]; decide)).taken fifth
    rw [waits] at p
    exact p.waits
  · have p := (p.passed (by rw [fifth]; decide)).taken fifth
    rw [forwarded] at p
    dsimp only at p
    rw [closed] at p
    exact p.moves

theorem mergeActivation_does (hand : AtHand (.mergeActivation o) s) :
    ((∀ a ∈ s.annexes, ¬ (a.o = o ∧ a.merge = true)) → Moves .mergeActivation s s) ∧
    (∀ a d s1, annexOn s o true = some a → (annexRun s a).isSome = true →
      readStage s (keyCtx a.key) a.stage = .ok (d, s1) →
      let t := copyLocal s1 a.y d.soff o d.mbuf d.slen
      let bad := ringBad (s1.core o) (ringHdr (s1.core o) a.hdr) || ringBad (s1.core a.y) (ringHdr (s1.core a.y) a.hdr)
      (bad = true → Moves .mergeActivation s (launchFault { s with annexes := s.annexes.filter fun b => b != a }
        a.o 0 Cause.descriptorFormat.code (word a.hdr) 0 2 none)) ∧
      (bad = false →
      (a.step = 2 → (ringHdr (s1.core a.y) a.hdr).depth ≠ 0 ∨ quiescent s1 a.y a.hdr = false → NotDue .mergeActivation s) ∧
      (a.step = 2 → (ringHdr (s1.core a.y) a.hdr).depth = 0 → quiescent s1 a.y a.hdr = true → Moves .mergeActivation s
        ((setAnnex t a { a with step := 4 }).emit (.mergeActivation o))) ∧
      (a.step = 4 → quiescent s1 o a.hdr = true → canActivate s1 o = true → Moves .mergeActivation s
        ((startActivation s1 o .merge noMsg (2 ^ 20) 0 (d.mpc &&& ~~~3#64) 0 [(3, a.m), (4, a.b), (5, word a.y),
          (6, word (d.mbuf + d.slen * 2 ^ 18)), (7, a.stage)] (d.soff, d.slen)).emit (.mergeActivation o))) ∧
      (a.step ≠ 2 → a.step ≠ 4 → ∀ s2,
        annexClose s1 a (entryOf a.m.toNat (ringHdr (s1.core o) a.hdr).gen false o o a.hdr) = .ok s2 →
        Moves .mergeActivation s s2))) := by
  have p := Steps.start (i := .mergeActivation) hand (by change execMergeActivation s = _; rw [execMergeActivation, hand.1])
  refine ⟨fun none => (p.of_eq (withAnnex_none none)).moves, fun a d s1 found runs read => ?_⟩
  have p := p.of_eq (withAnnex_on found runs)
  rw [read] at p
  dsimp only at p
  intro t bad
  have both : ([o, a.y].any fun c => ringBad (s1.core c) (ringHdr (s1.core c) a.hdr)) = bad := by
    rw [List.any_cons, List.any_cons, List.any_nil, Bool.or_false]
  refine ⟨fun malformed => ?_, fun sound => ?_⟩
  · rw [stageRings_bad (both.trans malformed)] at p
    exact (p.of_eq (deniedFate_fault nofun)).moves
  rw [stageRings_good (both.trans sound)] at p
  dsimp only at p
  refine ⟨fun second undrained => ?_, fun second drained still => ?_, fun fourth still free => ?_,
    fun second fourth s2 closed => ?_⟩
  · refine ((p.taken second).taken ?_).waits
    rw [Bool.or_eq_true, decide_eq_true_eq, Bool.not_eq_true']
    exact undrained
  · refine ((p.taken second).passed ?_).moves
    rw [Bool.or_eq_true, decide_eq_true_eq, Bool.not_eq_true', still]
    exact not_or.2 ⟨not_not.2 drained, nofun⟩
  · exact (((p.passed (by rw [fourth]; decide)).taken fourth).passed (unready_not still free)).moves
  · have p := (p.passed second).passed fourth
    rw [closed] at p
    exact p.moves

end Annexes

/-- Settles O49: the steps of each event, one event at a time. -/
theorem launchesAndStagesMove : Obligations.LaunchesAndStagesMove := by
  unfold Obligations.LaunchesAndStagesMove
  refine ⟨⟨fun s x d hand => contextCreate_does hand, fun s x hand => contextDestroy_does hand,
    fun s x q n hand live s1 read => queueEnable_does hand live read, fun s x q hand => commandAccept_does hand,
    fun s x q hand => signal_does hand, fun s x q hand => waitForSignal_does hand,
    fun s x q hand c p s1 v runs walked value => signalSatisfied_does hand runs walked value,
    fun s x q hand c n runs => launch_does hand runs, fun s hand => dispatchDecision_does hand,
    fun s c hand => preemption_does hand, fun s c hand => bind_does hand, fun s c w hand => hostBindRecord_does hand,
    fun s p c order w hand => doneWord_does hand⟩, fun s x q hand => ?_, fun s x q hand => ?_,
    fun s o hand => splitActivation_does hand, fun s o hand => annexForward_does hand,
    fun s o hand => mergeActivation_does hand⟩
  · obtain ⟨none, early⟩ := stageMonitorSample_idle hand
    exact ⟨none, early, fun key r a found stage => ⟨stageRun_due found, stageMonitorSample_due hand found stage⟩⟩
  · exact ⟨annexPolicy_none hand, fun c runs undecided => annexPolicy_does hand runs undecided,
      fun c runs decided => annexPolicy_stands hand runs decided⟩

end Sys2Proof.Machine
end
